-- ==== Sys2Proof/Word.lean ====
section
/-! DEFINITION. The word types of the Abamus 9240 and the keyed list that every sparse part of the state uses. -/

namespace Sys2Proof

/-- One byte (R3). -/
abbrev Byte := BitVec 8
/-- A 16-bit word of a chain (R269). -/
abbrev Half := BitVec 16
/-- A scalar register (R297). -/
abbrev Word := BitVec 64
/-- A code address (R305: targets are 48 bits). -/
abbrev Addr := BitVec 48
/-- A vector register, 128 bytes (R347). -/
abbrev VWord := BitVec 1024
/-- A mask register (R347). -/
abbrev KWord := BitVec 128
/-- A scalar or vector register number (R270). -/
abbrev Reg := BitVec 5
/-- A mask register number (R270). -/
abbrev KReg := BitVec 3
/-- A circular-buffer handle number (R270). -/
abbrev HReg := BitVec 4

/-- A keyed list: keys rise, and a key that is not listed reads as the default its reader names. -/
abbrev PMap (α : Type) := List (Nat × α)

/-- The value at a key. -/
def PMap.find {α : Type} : PMap α → Nat → Option α
  | [], _ => none
  | (i, v) :: rest, k => if i = k then some v else PMap.find rest k

/-- The value at a key, with a default for a key that is not listed. -/
def PMap.get {α : Type} (m : PMap α) (k : Nat) (dflt : α) : α := (PMap.find m k).getD dflt

/-- The list with one key written. -/
def PMap.put {α : Type} : PMap α → Nat → α → PMap α
  | [], k, v => [(k, v)]
  | (i, w) :: rest, k, v =>
    if k < i then (k, v) :: (i, w) :: rest
    else if k = i then (k, v) :: rest
    else (i, w) :: PMap.put rest k v

/-- The list without a key. -/
def PMap.drop {α : Type} (m : PMap α) (k : Nat) : PMap α := m.filter (fun p => p.1 != k)

/-- The values in key order. -/
def PMap.vals {α : Type} (m : PMap α) : List α := m.map (·.2)

end Sys2Proof
end

