-- ==== Sys2Proof/Config.lean ====
section
/-! DEFINITION. What the specification leaves open or to a named outside standard, as constants with no body: no proof can see a value of them. -/

namespace Sys2Proof.Config

/-- A value the specification calls undefined or a choice it calls unspecified (R5), one per count of State.fresh. FREE VALUE, log 4. -/
opaque freeWord : Nat → BitVec 64

/-- An undefined vector register (R348). FREE VALUE, log 4. -/
opaque freeVector : Nat → BitVec 1024

/-- An undefined mask register (R348). FREE VALUE, log 4. -/
opaque freeMask : Nat → BitVec 128

/-- An unspecified choice between two outcomes (R5, R153, R207). FREE VALUE, log 4. -/
opaque freeChoice : Nat → Bool

/-- An unspecified choice among n outcomes (R5). FREE VALUE, log 4. -/
opaque freeIndex : Nat → Nat

/-- Whether an ML-DSA-65 signature over the table's first 256 bytes holds under the vendor key (R249): the standard's arithmetic stands outside the specification, log 5. -/
opaque signatureHolds : List (BitVec 8) → Bool

/-- Which of the three peer ports of a module side carries a group's routes (R107, R108): 0 for the east side, 1 for the south side. The specification names no choice. FREE VALUE, log 4. -/
opaque routePort : Nat → Nat → Nat

/-- The digest of the locked registers' values that boot records (R256): the form of the digested bytes is not given, log 5. -/
opaque registerDigest : List (BitVec 64) → List (BitVec 8)

/-- The ML-DSA-65 signature of a report under the device identity key, 3,309 bytes (R256), log 5. -/
opaque signReport : List (BitVec 8) → List (BitVec 8)

/-- The digest of the boot ROM (R256): the ROM's bytes are not given, log 5. -/
opaque romDigest : List (BitVec 8)

/-- Byte i of a slot's wait record in the system window, from what R248 says it gives: the slot's state, its condition kinds, the first condition's address and the tick of issue. The layout is not given. FREE VALUE, log 4. -/
opaque waitRecord : Nat → List Nat → Nat → Nat → Nat → BitVec 8

/-- Where system space shows the 64 KiB of a slice's trace ring, by the slice's grove, as an offset from the end of the user groves' windows (R152, R252): no place is given. FREE VALUE, log 64. -/
opaque traceBase : Nat → Nat

/-- Which translation a walk of the device itself takes where the entries of a 64 KiB group disagree (R207), by the entry's address, the tick and the count of State.fresh. FREE VALUE, log 89. -/
opaque c64Choice : Nat → Nat → Nat → Nat

end Sys2Proof.Config
end

