-- ==== Sys2Proof/Syntax.lean ====
section
/-! DEFINITION. The instructions of the Jexid set (R289 to R294) and the device events of spec/opcode_table.json, one constructor per row, with their operands. -/

namespace Sys2Proof

/-- The space a load, store, atomic or engine operand names (R51). -/
inductive Space | glob | tcm | scr
  deriving DecidableEq, Repr

/-- The ordering field of layouts M and A (R282, R283). -/
inductive Ord | none | acq | rel | ar
  deriving DecidableEq, Repr

/-- Layout M: scalar loads and stores (R282). -/
structure MemMod where
  ord : Ord
  scope : BitVec 3
  sig : Bool
  sk : Bool
  space : Space
  deriving DecidableEq, Repr

/-- Layout A: atomics (R283). -/
structure AtomMod where
  ord : Ord
  scope : BitVec 3
  sig : Bool
  wide : Bool
  space : Space
  deriving DecidableEq, Repr

/-- The scalar floating types of layout F (R284). -/
inductive FTy | f32 | bf16 | f16
  deriving DecidableEq, Repr

/-- Layout F: scalar floating arithmetic (R284). -/
structure FMod where
  rm : BitVec 3
  ty : FTy
  sat : Bool
  deriving DecidableEq, Repr

/-- The codes local to fcvt (R288). -/
inductive CvtTy | f32 | bf16 | f16 | i32 | i64 | n32 | n64
  deriving DecidableEq, Repr

/-- Layout V: vector arithmetic, reductions, compares and permutes (R285). -/
structure VMod where
  ty : BitVec 4
  mask : KReg
  sat : Bool
  scalar : Bool
  deriving DecidableEq, Repr

/-- Layout VM: vector loads and stores (R286). -/
structure VMMod where
  width : BitVec 2
  mask : KReg
  sk : Bool
  space : Space
  deriving DecidableEq, Repr

/-- The block types of vpack and vunpack (R364). -/
inductive BlockTy | bx4 | bx6 | bx8
  deriving DecidableEq, Repr

/-- The forms of vmv (R369). -/
inductive MvForm | vv | vx | xv
  deriving DecidableEq, Repr

/-- The accumulator columns that mx.zero and mx.drain name (R377, R385). -/
inductive Cols | all | left | right
  deriving DecidableEq, Repr

/-- The kind of a translated access (R208, R211 byte 17). -/
inductive Access | load | store | fetch | atomic | engRead | engWrite | rule
  deriving DecidableEq, Repr

/-- The unit an uncorrectable error strikes (R245). -/
inductive ErrUnit
  | registers (slot : Nat)
  | tcm (core : Nat) (off : Nat)
  | scratch (grove : Nat) (off : Nat)
  | latent (grove : Nat)
  | updateOnly (core : Nat) (pa : Nat)
  | cached (grove : Nat)
  | sector (grove : Nat) (pa : Nat)
  | tags (grove : Nat)
  deriving DecidableEq, Repr

/-- A coherent request of the guest: a load, a store of one word, or the write-back of a line that it holds modified (R226, R231). -/
inductive GuestReq
  | load
  | store (v : Word)
  | writeBack
  deriving DecidableEq, Repr

/-- The instructions: rows with words first, in the order of the opcode maps, then the device events. -/
inductive Instr
  -- Page 0: scalar, predicate and control (R289, R301 to R315)
  | add (d s1 s2 : Reg) -- ADD (R303)
  | sub (d s1 s2 : Reg) -- SUB (R303)
  | and (d s1 s2 : Reg) -- AND (R303)
  | or (d s1 s2 : Reg) -- OR (R303)
  | xor (d s1 s2 : Reg) -- XOR (R303)
  | sll (d s1 s2 : Reg) -- SLL (R303)
  | srl (d s1 s2 : Reg) -- SRL (R303)
  | sra (d s1 s2 : Reg) -- SRA (R303)
  | mul (d s1 s2 : Reg) -- MUL (R303)
  | mulh (d s1 s2 : Reg) -- MULH (R303)
  | div (d s1 s2 : Reg) -- DIV (R303)
  | rem (d s1 s2 : Reg) -- REM (R303)
  | min (d s1 s2 : Reg) -- MIN (R303)
  | max (d s1 s2 : Reg) -- MAX (R303)
  | slt (d s1 s2 : Reg) -- SLT (R303)
  | sextB (d s : Reg) -- SEXT_B (R304)
  | sextH (d s : Reg) -- SEXT_H (R304)
  | sextW (d s : Reg) -- SEXT_W (R304)
  | zextB (d s : Reg) -- ZEXT_B (R304)
  | zextH (d s : Reg) -- ZEXT_H (R304)
  | zextW (d s : Reg) -- ZEXT_W (R304)
  | clz (d s : Reg) -- CLZ (R304)
  | ctz (d s : Reg) -- CTZ (R304)
  | popc (d s : Reg) -- POPC (R304)
  | addi (d s : Reg) (imm : Word) -- ADDI (R305)
  | andi (d s : Reg) (imm : Word) -- ANDI (R305)
  | ori (d s : Reg) (imm : Word) -- ORI (R305)
  | xori (d s : Reg) (imm : Word) -- XORI (R305)
  | slli (d s : Reg) (sh : BitVec 6) -- SLLI (R305)
  | srli (d s : Reg) (sh : BitVec 6) -- SRLI (R305)
  | srai (d s : Reg) (sh : BitVec 6) -- SRAI (R305)
  | slti (d s : Reg) (imm : Word) -- SLTI (R305)
  | cmpiEq (a : Reg) (imm : Word) -- CMPI_EQ (R301)
  | cmpiLt (a : Reg) (imm : Word) -- CMPI_LT (R301)
  | cmpEq (a b : Reg) -- CMP_EQ (R301)
  | cmpNe (a b : Reg) -- CMP_NE (R301)
  | cmpLt (a b : Reg) -- CMP_LT (R301)
  | cmpGe (a b : Reg) -- CMP_GE (R301)
  | cmpLtN (a b : Reg) -- CMP_LT_N (R301)
  | cmpGeN (a b : Reg) -- CMP_GE_N (R301)
  | beq (a b : Reg) (off : Word) -- BEQ (R306)
  | bne (a b : Reg) (off : Word) -- BNE (R306)
  | blt (a b : Reg) (off : Word) -- BLT (R306)
  | bge (a b : Reg) (off : Word) -- BGE (R306)
  | bltN (a b : Reg) (off : Word) -- BLT_N (R306)
  | bgeN (a b : Reg) (off : Word) -- BGE_N (R306)
  | jal (link : Reg) (off : Word) -- JAL (R307)
  | call (off : Word) -- CALL (R307)
  | callC (off : Word) -- CALL_C (R310)
  | jalr (link b : Reg) (off : Word) -- JALR (R308)
  | ret -- RET (R309)
  | pand -- PAND (R302)
  | por -- POR (R302)
  | pnot -- PNOT (R302)
  | pend -- PEND (R302)
  | fadd (d s1 s2 : Reg) (m : FMod) -- FADD (R312)
  | fsub (d s1 s2 : Reg) (m : FMod) -- FSUB (R312)
  | fmul (d s1 s2 : Reg) (m : FMod) -- FMUL (R312)
  | fdiv (d s1 s2 : Reg) (m : FMod) -- FDIV (R312)
  | fmadd (d s1 s2 : Reg) (m : FMod) -- FMADD (R312)
  | fmin (d s1 s2 : Reg) (ty : FTy) -- FMIN (R312)
  | fmax (d s1 s2 : Reg) (ty : FTy) -- FMAX (R312)
  | fsqrt (d s : Reg) (m : FMod) -- FSQRT (R312)
  | fcvt (d s : Reg) (dst src : CvtTy) (rm : BitVec 3) -- FCVT (R313)
  | fcmpEq (a b : Reg) (ty : FTy) -- FCMP_EQ (R314)
  | fcmpLt (a b : Reg) (ty : FTy) -- FCMP_LT (R314)
  | fcmpLe (a b : Reg) (ty : FTy) -- FCMP_LE (R314)
  | rdsr (d : Reg) (num : BitVec 34) -- RDSR (R315)
  | wrsr (s : Reg) (num : BitVec 34) -- WRSR (R315)
  | hint (e : BitVec 11) -- HINT (R295)
  -- Page 1: vector (R290, R349 to R370)
  | setvl (d s : Reg) (shape : BitVec 6) -- SETVL (R349)
  | vle (d b : Reg) (m : VMMod) (imm : Word) -- VLE (R355)
  | vlse (d b c : Reg) (m : VMMod) (imm : Word) -- VLSE (R355)
  | vlxe (d b c : Reg) (m : VMMod) (imm : Word) -- VLXE (R355)
  | vlff (d b : Reg) (m : VMMod) (imm : Word) -- VLFF (R355)
  | vlce (d b : Reg) (m : VMMod) (imm : Word) -- VLCE (R355)
  | vse (d b : Reg) (m : VMMod) (imm : Word) -- VSE (R355)
  | vsse (d b c : Reg) (m : VMMod) (imm : Word) -- VSSE (R355)
  | vsxe (d b c : Reg) (m : VMMod) (imm : Word) -- VSXE (R355)
  | vsce (d b : Reg) (m : VMMod) (imm : Word) -- VSCE (R355)
  | vadd (d s1 s2 : Reg) (m : VMod) -- VADD (R359, R360)
  | vsub (d s1 s2 : Reg) (m : VMod) -- VSUB (R359, R360)
  | vmul (d s1 s2 : Reg) (m : VMod) -- VMUL (R359, R360)
  | vmin (d s1 s2 : Reg) (m : VMod) -- VMIN (R359, R360)
  | vmax (d s1 s2 : Reg) (m : VMod) -- VMAX (R359, R360)
  | vmulh (d s1 s2 : Reg) (m : VMod) -- VMULH (R359, R360)
  | vdiv (d s1 s2 : Reg) (m : VMod) -- VDIV (R359, R360)
  | vrem (d s1 s2 : Reg) (m : VMod) -- VREM (R359, R360)
  | vand (d s1 s2 : Reg) (m : VMod) -- VAND (R359, R360)
  | vor (d s1 s2 : Reg) (m : VMod) -- VOR (R359, R360)
  | vxor (d s1 s2 : Reg) (m : VMod) -- VXOR (R359, R360)
  | vsll (d s1 s2 : Reg) (m : VMod) -- VSLL (R359, R360)
  | vsrl (d s1 s2 : Reg) (m : VMod) -- VSRL (R359, R360)
  | vsra (d s1 s2 : Reg) (m : VMod) -- VSRA (R359, R360)
  | vfma (d s1 s2 : Reg) (m : VMod) -- VFMA (R359, R360)
  | vfdiv (d s1 s2 : Reg) (m : VMod) -- VFDIV (R359, R360)
  | vsqrt (d s : Reg) (m : VMod) -- VSQRT (R360)
  | vwadd (d b c : Reg) (m : VMod) -- VWADD (R361)
  | vwmul (d b c : Reg) (m : VMod) -- VWMUL (R361)
  | vnarrow (d s : Reg) (ty : BitVec 4) (mask : KReg) (sat : Bool) -- VNARROW (R362)
  | vcvt (d s : Reg) (dst src : BitVec 4) (sat : Bool) -- VCVT (R363)
  | vpack (d s : Reg) (bt : BlockTy) -- VPACK (R364)
  | vunpack (d s : Reg) (bt : BlockTy) -- VUNPACK (R364)
  | vredsum (d b c : Reg) (m : VMod) -- VREDSUM (R365)
  | vredmin (d b c : Reg) (m : VMod) -- VREDMIN (R365)
  | vredmax (d b c : Reg) (m : VMod) -- VREDMAX (R365)
  | vmseq (k : KReg) (b c : Reg) (m : VMod) -- VMSEQ (R366)
  | vmsne (k : KReg) (b c : Reg) (m : VMod) -- VMSNE (R366)
  | vmslt (k : KReg) (b c : Reg) (m : VMod) -- VMSLT (R366)
  | vmsle (k : KReg) (b c : Reg) (m : VMod) -- VMSLE (R366)
  | vmand (k kb kc : KReg) -- VMAND (R367)
  | vmor (k kb kc : KReg) -- VMOR (R367)
  | vmnot (k kb : KReg) -- VMNOT (R367)
  | vpopc (d : Reg) (kb : KReg) -- VPOPC (R367)
  | vfirst (d : Reg) (kb : KReg) -- VFIRST (R367)
  | vmerge (d b c : Reg) (m : VMod) -- VMERGE (R368)
  | vslideup (d b c : Reg) (m : VMod) -- VSLIDEUP (R368)
  | vslidedown (d b c : Reg) (m : VMod) -- VSLIDEDOWN (R368)
  | vrgather (d b c : Reg) (m : VMod) -- VRGATHER (R368)
  | vcompress (d b : Reg) (m : VMod) -- VCOMPRESS (R368)
  | vmv (d s : Reg) (ty : BitVec 4) (mask : KReg) (form : MvForm) -- VMV (R369)
  -- Page 2: matrix, circular buffers, latent stage, engines (R291, R371 to R390)
  | cbCfg (h : HReg) (b : Reg) -- CB_CFG (R373)
  | cbAdvP (h : HReg) (n : BitVec 34) -- CB_ADV_P (R374)
  | cbAdvC (h : HReg) (n : BitVec 34) -- CB_ADV_C (R374)
  | mxCfg (a : Reg) (zero : Bool) -- MX_CFG (R376)
  | mxZero (cols : Cols) -- MX_ZERO (R377)
  | mma (a : Reg) (b : HReg) (asrc : Bool) (fmt : BitVec 4) -- MMA (R378)
  | mmaRing (a : Reg) (b : HReg) (asrc : Bool) (fmt : BitVec 4) -- MMA_RING (R378)
  | mmaLx (a : Reg) (b : HReg) (asrc : Bool) (fmt : BitVec 4) -- MMA_LX (R378)
  | mmaLa (a : Reg) (b : HReg) (asrc : Bool) (fmt : BitVec 4) -- MMA_LA (R378)
  | mxDrain (a b : Reg) (imm : Word) (fmt : BitVec 4) (space : Space) (zero : Bool) (cols : Cols) -- MX_DRAIN (R385)
  | ltLoad (a b : Reg) -- LT_LOAD (R383)
  | ltRot (a : Reg) -- LT_ROT (R383)
  | cp (a : Reg) -- CP (R386)
  | ga (a : Reg) -- GA (R386)
  | sc (a : Reg) -- SC (R386)
  | engStat (a : Reg) -- ENG_STAT (R390)
  -- Page 3: memory, synchronisation and tasks (R292, R320 to R341)
  | ld (a b : Reg) (size : BitVec 2) (m : MemMod) (imm : Word) -- LD (R322)
  | st (a b : Reg) (size : BitVec 2) (m : MemMod) (imm : Word) -- ST (R322)
  | ldF (a b : Reg) (imm : Word) -- LD_F (R326)
  | ldFTake (a b : Reg) (imm : Word) -- LD_F_TAKE (R326)
  | stF (a b : Reg) (imm : Word) -- ST_F (R326)
  | amoAdd (a b c : Reg) (m : AtomMod) -- AMO_ADD (R324)
  | amoSwap (a b c : Reg) (m : AtomMod) -- AMO_SWAP (R324)
  | amoAnd (a b c : Reg) (m : AtomMod) -- AMO_AND (R324)
  | amoOr (a b c : Reg) (m : AtomMod) -- AMO_OR (R324)
  | amoXor (a b c : Reg) (m : AtomMod) -- AMO_XOR (R324)
  | amoMin (a b c : Reg) (m : AtomMod) -- AMO_MIN (R324)
  | amoMax (a b c : Reg) (m : AtomMod) -- AMO_MAX (R324)
  | amoCas (a b c : Reg) (m : AtomMod) -- AMO_CAS (R324)
  | amoMinN (a b c : Reg) (m : AtomMod) -- AMO_MIN_N (R324)
  | amoMaxN (a b c : Reg) (m : AtomMod) -- AMO_MAX_N (R324)
  | redAdd (a b : Reg) (wide : Bool) (space : Space) -- RED_ADD (R325)
  | redAddF32 (a b : Reg) (space : Space) -- RED_ADD_F32 (R325)
  | redMin (a b : Reg) (wide : Bool) (space : Space) -- RED_MIN (R325)
  | redMax (a b : Reg) (wide : Bool) (space : Space) -- RED_MAX (R325)
  | redMinN (a b : Reg) (wide : Bool) (space : Space) -- RED_MIN_N (R325)
  | redMaxN (a b : Reg) (wide : Bool) (space : Space) -- RED_MAX_N (R325)
  | redMinF32 (a b : Reg) (space : Space) -- RED_MIN_F32 (R325)
  | redMaxF32 (a b : Reg) (space : Space) -- RED_MAX_F32 (R325)
  | fence (scope : BitVec 3) -- FENCE (R328)
  | fenceX (p q : BitVec 4) (scope : BitVec 3) -- FENCE_X (R329)
  | dcFlush (a b : Reg) -- DC_FLUSH (R330)
  | dcDiscard (a b : Reg) -- DC_DISCARD (R330)
  | icsync -- ICSYNC (R331)
  | wait (a b c : Reg) (all : Bool) (n : BitVec 2) (imm : Word) -- WAIT (R332)
  | barArrive (a b : Reg) (n : BitVec 27) -- BAR_ARRIVE (R334)
  | barWait (a b c : Reg) -- BAR_WAIT (R334)
  | gbSync (a : BitVec 4) (k : BitVec 3) -- GB_SYNC (R335)
  | msgOpen (a : Reg) -- MSG_OPEN (R336)
  | msgPut (a : Reg) -- MSG_PUT (R336)
  | msgEnd -- MSG_END (R336)
  | recv (a b : Reg) -- RECV (R337)
  | tkSpawn (a : Reg) -- TK_SPAWN (R338)
  | tkDep (a b : Reg) -- TK_DEP (R339)
  | tkYield -- TK_YIELD (R340)
  | tkEnd -- TK_END (R341)
  -- Page 4: rule engine and hampers (R293, R342, R391 to R397)
  | qlOpen (a b : Reg) -- QL_OPEN (R392)
  | qlClose (a : Reg) -- QL_CLOSE (R392)
  | qlEval (op : BitVec 3) (a b c : Reg) (scr : Bool) -- QL_EVAL (R393)
  | qlFold (op : BitVec 3) (a b c : Reg) (scr : Bool) -- QL_FOLD (R393)
  | qlSeek (op : BitVec 3) (a b c : Reg) (scr : Bool) -- QL_SEEK (R393)
  | qlRec (a b c : Reg) -- QL_REC (R396)
  | qlGet (a b c : Reg) (scr : Bool) -- QL_GET (R396)
  | qlSplit (a b c : Reg) (scr : Bool) -- QL_SPLIT (R396)
  | qlApp (a b c : Reg) -- QL_APP (R397)
  | qlPut (a b c : Reg) -- QL_PUT (R397)
  | qlPub (a b : Reg) (renew : Bool) -- QL_PUB (R397)
  | hlCat (a b : Reg) -- HL_CAT (R342)
  | hlFilt (a b c : Reg) (kmask : BitVec 7) -- HL_FILT (R342)
  | hlRebase (a b : Reg) -- HL_REBASE (R342)
  | hlApply (a : Reg) -- HL_APPLY (R342)
  | hlDrop (a : Reg) -- HL_DROP (R342)
  | hlLen (a b : Reg) -- HL_LEN (R342)
  -- Page 5: pager and system (R294, R343 to R345)
  | pgPost (a b c : Reg) -- PG_POST (R343)
  | pgReplay (a : Reg) -- PG_REPLAY (R344)
  | ecall -- ECALL (R345)
  | ebreak -- EBREAK (R345)
  | trap (e : BitVec 8) -- TRAP (R345)
  -- Words that are no instruction, as a fetch finds them (R275, R281, R296)
  | unassignedEncoding (chain : Bool) (addr : Word) -- UNASSIGNED_ENCODING (R296, R275)
  -- Device events: steps of the table that no chain encodes (95_what_each_step_holds.md)
  | trapNoticeRetry (slot : Nat) -- TRAP_NOTICE_RETRY (R238)
  | faultRecordRetry (src : Nat) -- FAULT_RECORD_RETRY (R72)
  | ctxCreate -- CTX_CREATE (R73, R75)
  | ctxCommit -- CTX_COMMIT (R73, R75)
  | ctxSuspend -- CTX_SUSPEND (R73, R75)
  | ctxResume -- CTX_RESUME (R73, R75)
  | ctxTeardown -- CTX_TEARDOWN (R73, R75)
  | ctxFault -- CTX_FAULT (R73, R75)
  | ctxDeviceFault (ctx : Nat) -- CTX_DEVICE_FAULT (R76)
  | ctxStopComplete (ctx : Nat) -- CTX_STOP_COMPLETE (R75)
  | ctxDrained (ctx : Nat) -- CTX_DRAINED (R78)
  | grpLaunch -- GRP_LAUNCH (R104)
  | groupRelease (grp : Nat) -- GROUP_RELEASE (R111)
  | groupDrained (grp : Nat) -- GROUP_DRAINED (R114)
  | groupBrokenFreed (grp : Nat) -- GROUP_BROKEN_FREED (R115)
  | enqueueArrive (grove : Nat) -- ENQUEUE_ARRIVE (R94, R99)
  | enqueueAck (grove : Nat) -- ENQUEUE_ACK (R100)
  | replayBackoffExpiry (grove : Nat) -- REPLAY_BACKOFF_EXPIRY (R100)
  | taskDispatch (slot : Nat) -- TASK_DISPATCH (R97)
  | takeServe (slot : Nat) (stand : Nat) -- TAKE_SERVE (R98)
  | takeReply (slot : Nat) -- TAKE_REPLY (R98)
  | takeReprobe (slot : Nat) -- TAKE_REPROBE (R98)
  | taskCommit (task : Nat) -- TASK_COMMIT (R87)
  | commitLockAcquire (task : Nat) -- COMMIT_LOCK_ACQUIRE (R139)
  | timedCommitStart (task : Nat) -- TIMED_COMMIT_START (R146)
  | waitSatisfiedNotice (grove : Nat) -- WAIT_SATISFIED_NOTICE (R124)
  | monitorPoll (grove : Nat) -- MONITOR_POLL (R124)
  | waitTimeout (slot : Nat) -- WAIT_TIMEOUT (R122)
  | waitHoldExpiry (slot : Nat) -- WAIT_HOLD_EXPIRY (R123)
  | parkEntryFree (grove : Nat) -- PARK_ENTRY_FREE (R333)
  | barrierRegisterRetry (slot : Nat) -- BARRIER_REGISTER_RETRY (R119)
  | msgDeliver (grove : Nat) -- MSG_DELIVER (R126)
  | deferralExpiry (slot : Nat) -- DEFERRAL_EXPIRY (R144)
  | futureCancel (slot : Nat) -- FUTURE_CANCEL (R327)
  | storeComplete (slot : Nat) (idx : Nat) -- STORE_COMPLETE (R130)
  | llcFill (pa : Nat) -- LLC_FILL (R63)
  | llcWriteback (pa : Nat) -- LLC_WRITEBACK (R63, R214)
  | updateOnlyRecall (pa : Nat) (first : Nat) -- UPDATE_ONLY_RECALL (R142)
  | updateOnlyEvict (core : Nat) (pa : Nat) -- UPDATE_ONLY_EVICT (R142)
  | tlbMissWalk (core : Nat) (ctx : Nat) (va : Addr) (fetch : Bool) -- TLB_MISS_WALK (R209)
  | softErrorCorrected (grove : Nat) -- SOFT_ERROR_CORRECTED (R245)
  | uncorrectableError (unit : ErrUnit) -- UNCORRECTABLE_ERROR (R245)
  | engineCommandStart (core : Nat) (gather : Bool) -- ENGINE_COMMAND_START (R387)
  | engineTranslationFault (core : Nat) (gather : Bool) -- ENGINE_TRANSLATION_FAULT (R211)
  | engineCommandFail (core : Nat) (gather : Bool) -- ENGINE_COMMAND_FAIL (R236)
  | engineCommandComplete (core : Nat) (gather : Bool) -- ENGINE_COMMAND_COMPLETE (R388)
  | mmaComplete (core : Nat) -- MMA_COMPLETE (R380)
  | ringPass (core : Nat) -- RING_PASS (R382)
  | subarrayWake (grove : Nat) -- SUBARRAY_WAKE (R21)
  | subarrayPowerGate (grove : Nat) -- SUBARRAY_POWER_GATE (R21)
  | apertureRead (pa : Nat) (n : Nat) -- APERTURE_READ (R186)
  | apertureWrite (pa : Nat) -- APERTURE_WRITE (R186)
  | stopTakeEffect (slot : Nat) -- STOP_TAKE_EFFECT (R243)
  | frameSaveComplete (slot : Nat) -- FRAME_SAVE_COMPLETE (R89)
  | slResume -- SL_RESUME (R240)
  | slSkip -- SL_SKIP (R240)
  | slAbandon -- SL_ABANDON (R240)
  | watchdogExpiry (slot : Nat) -- WATCHDOG_EXPIRY (R246)
  | hangPing (grove : Nat) (answered : Bool) -- HANG_PING (R246)
  | lkEnable (link : Nat) -- LK_ENABLE (R217, R219)
  | lkRetrain (link : Nat) -- LK_RETRAIN (R217, R219)
  | lkFence (link : Nat) -- LK_FENCE (R217, R219)
  | lkUnfence (link : Nat) -- LK_UNFENCE (R217, R219)
  | linkTrainedFull (link : Nat) (rate : BitVec 8) -- LINK_TRAINED_FULL (R217)
  | linkTrainedReduced (link : Nat) (width rate : BitVec 8) -- LINK_TRAINED_REDUCED (R217)
  | linkTrainingFail (link : Nat) -- LINK_TRAINING_FAIL (R217)
  | linkTrainingTimeout (link : Nat) -- LINK_TRAINING_TIMEOUT (R217)
  | linkErrorThreshold (link : Nat) -- LINK_ERROR_THRESHOLD (R217)
  | flitCrcReplay (link : Nat) -- FLIT_CRC_REPLAY (R224)
  | gqEnable -- GQ_ENABLE (R228)
  | gqDisable -- GQ_DISABLE (R228)
  | guestReadReport (q : Nat) (read : BitVec 32) -- GUEST_READ_REPORT (R230)
  | guestPacketComplete (q : Nat) (idx : BitVec 32) (status : BitVec 8) -- GUEST_PACKET_COMPLETE (R230)
  | guestTranslationRequest (q : Nat) (va : Addr) (acc : Access) -- GUEST_TRANSLATION_REQUEST (R231)
  | guestFaultRecord (q : Nat) (idx : BitVec 32) (va : Addr) (acc : Access) (progress : Nat) -- GUEST_FAULT_RECORD (R231)
  | guestCoherentAccess (q : Nat) (va : Addr) (req : GuestReq) -- GUEST_COHERENT_ACCESS (R231)
  | guestInvalidationAck -- GUEST_INVALIDATION_ACK (R231)
  | guestQuiesced (q : Nat) -- GUEST_QUIESCED (R232)
  | guestBoundExpiry -- GUEST_BOUND_EXPIRY (R232)
  | attest -- ATTEST (R256)
  | mailboxFwOp -- MAILBOX_FW_OP (R221)
  | mailboxComplete (status : BitVec 7) -- MAILBOX_COMPLETE (R221)
  | hostEventWordWrite (v : Word) -- HOST_EVENT_WORD_WRITE (R221)
  | hostBar0Write (off : Nat) (size : Nat) (v : Word) -- HOST_BAR0_WRITE (R221)
  | hostMemoryAccess (pa : Nat) (size : Nat) (wr : Option (List Byte)) -- HOST_MEMORY_ACCESS (R222)
  | hwWinWrite (n : BitVec 3) (limit : Bool) (v : Word) -- HW_WIN_WRITE (R254)
  | coldReset -- COLD_RESET (R249)
  | powerSample (watts : Nat) -- POWER_SAMPLE (R255)
  | clampStep -- CLAMP_STEP (R255)
  | rngStateWrite (v : Word) -- RNG_STATE_WRITE (R42)
  | fpCtlWrite (v : Word) -- FP_CTL_WRITE (R43)
  | prStkWrite (v : Word) -- PR_STK_WRITE (R300)
  | skewCfgWrite (v : Word) -- SKEW_CFG_WRITE (R61)
  | rqRecipeWrite (n : BitVec 4) (v : Word) -- RQ_RECIPE_WRITE (R95)
  | rqBackoffWrite (v : Word) -- RQ_BACKOFF_WRITE (R100)
  | memDbgWrite (v : Word) -- MEM_DBG_WRITE (R138)
  | futCtlClear (v : Word) -- FUT_CTL_CLEAR (R144)
  | errStatClear (v : Word) -- ERR_STAT_CLEAR (R245)
  | gbStatClear (v : Word) -- GB_STAT_CLEAR (R319)
  | wdCtlWrite (v : Word) -- WD_CTL_WRITE (R246)
  | gsCtlWrite (v : Word) -- GS_CTL_WRITE (R233)
  | pwLimWrite (v : Word) -- PW_LIM_WRITE (R255)
  | rtCfgWrite (v : Word) -- RT_CFG_WRITE (R195)
  | fwWallWrite (v : Word) -- FW_WALL_WRITE (R253)
  | trRingWrite (v : Word) -- TR_RING_WRITE (R238)
  | firmwareFence (grove : Nat) -- FIRMWARE_FENCE (R246)
  | spareColumnRemap (row : Nat) (col : Nat) -- SPARE_COLUMN_REMAP (R16)
  | peerRouteReport (grp : Nat) (ok : Bool) -- PEER_ROUTE_REPORT (R108)
  deriving DecidableEq, Repr

end Sys2Proof
end

