-- ==== Sys2Proof/Machine/State.lean ====
section
/-! DEFINITION. The state of the module as plain data, the reasons a step can stop, and the state after reset. -/

namespace Sys2Proof.Machine

/-- Bytes at addresses: addresses rise strictly and no listed byte is zero, since an unlisted byte reads as zero (log 3). -/
abbrev Mem := List Host.Cell

/-! ### Hampers (R154 to R167) -/

/-- One hamper entry (R156, R157). par is the parameter, addr the address as recorded, units what follows an ENGINE entry: the 48 descriptor bytes and the payload; cmd is that command's kind (0 cp, 1 ga, 2 sc), cap the tag of the command whose capture has yet to fill the payload, off what hl.rebase has added to the address (R164). -/
structure HEntry where
  kind : BitVec 4
  par : BitVec 12
  addr : Addr
  val : Word
  units : List Byte
  cmd : BitVec 2
  cap : Option Nat
  off : Addr
  deriving DecidableEq, Repr

/-- The states of R163 that a listed hamper can be in between two instructions: a FREE one is not listed, and APPLYING lasts within one instruction. -/
inductive HState | opened | closed
  deriving DecidableEq, Repr

/-- Where a 16-byte unit of an entry lies (R156, R160): a unit of the slot's share of TCM by its number, or the physical address of a unit of a pool frame. -/
inductive UnitAt
  | share (u : Nat)
  | frame (p : Nat)
  deriving DecidableEq, Repr

/-- A hamper: its generation (R161), entries in order, oldest first, the places of their 16-byte units in the same order (R156), and the physical addresses of the pool frames it holds (R160). -/
structure Hamper where
  st : HState
  gen : BitVec 12
  entries : List HEntry
  places : List UnitAt
  frames : List Nat
  deriving DecidableEq, Repr

/-- A region opened by call.c: its hamper's index and the return address (R310). -/
structure Region where
  index : Nat
  ret : Addr
  deriving DecidableEq, Repr

/-! ### Quilt handles (R183) -/

/-- A reader handle (R183): its generation, the quilt's id and the epoch it was opened under, the addresses of the version record and of the descriptor. -/
structure QHandle where
  gen : BitVec 14
  qid : Word
  epoch : Word
  ver : Word
  desc : Word
  deriving DecidableEq, Repr

/-! ### Waiting (R122, R144) -/

/-- One condition. pa is the translated address for kinds 0, 1 and 3, inter whether its home is interleaved, polled whether the monitor table was full, note whether a notice of its sector has come since it was last evaluated, holds and broke what that evaluation gave (R124), entered whether a barrier has its entry in the register and its owner written on this condition's account (R119). -/
structure Cond where
  kind : BitVec 4
  par : BitVec 12
  addr : Addr
  pa : Nat
  inter : Bool
  polled : Bool
  val : Word
  note : Bool
  holds : Bool
  broke : Bool
  entered : Bool
  deriving DecidableEq, Repr

/-- Which instruction waits. -/
inductive WaitForm | waitI | barWait | gbSync
  deriving DecidableEq, Repr

/-- A wait in progress. hold is the tick at which the slot suspends (R123). -/
structure Wait where
  form : WaitForm
  conds : List Cond
  all : Bool
  dst : Reg
  start : Nat
  deadline : Nat
  hold : Nat
  deriving DecidableEq, Repr

/-- A packet under construction (R125): the destination slot and the words so far. -/
structure Packet where
  dest : Nat
  words : List Word
  deriving DecidableEq, Repr

/-- A global store issued by a slot and not yet performed (R62, R130). -/
structure Stored where
  pa : Nat
  inter : Bool
  bytes : List Byte
  sig : Bool
  deriving DecidableEq, Repr

/-- A write that a guest queue has left behind, for its record where it is refused: the queue, context, effective address, leaf and level (R211). -/
structure LateSrc where
  queue : Nat
  ctx : Nat
  addr : Word
  pte : Word
  level : Nat
  deriving DecidableEq, Repr

/-- A write of a guest queue that has been refused, with the reason and cause of its record, which is still to be made. -/
structure LateBad where
  src : LateSrc
  reason : Nat
  cause : Nat
  deriving DecidableEq, Repr

/-- A write of the device that has reached a locked sector and waits for the unlock (R139), or for a link that trains (R223); slot is the slot for whose frame it is, if any, src the guest queue whose completion word it is, if any. -/
structure Late where
  slot : Option Nat
  st : Stored
  src : Option LateSrc
  deriving DecidableEq, Repr

/-- What a source of fault records keeps (R211, R212): seq is the number of its last record, awaiting holds the sequence number of the record that stops it. -/
structure FaultSrc where
  page : Option Nat
  rep : Half
  seq : Half
  awaiting : Option Half
  deriving DecidableEq, Repr

/-- A fault record at its source, with its sequence number there (R72, R211). -/
structure FaultRec where
  ctx : Nat
  bytes : List Byte
  seq : Half
  deriving DecidableEq, Repr

/-- What a slot does. -/
inductive SlotSt
  /-- no task -/
  | idle
  /-- issues instructions -/
  | run
  /-- a wait, bar.wait, gb.sync or deferred ld.f holds the slot -/
  | waiting
  /-- stopped by a trap whose report is still at the slot, or a firmware slot after a trap -/
  | stopped
  deriving DecidableEq, Repr

/-- A stop that has reached a slot and not yet taken effect (R243, R244). -/
inductive Stop | preempt | kill | watchdog
  deriving DecidableEq, Repr

/-- One thread slot. npc is the address of the chain after the one in execution; stall names the records that a direct apply has enqueued and that do not stand in the replay window yet, so that the next instruction does not issue (R100, R165); saving says that the slot has trapped and its task's save is not complete, since its spill waits at a lock or a link (R56, R237); xfer says that control has just been transferred to pc, whose lower halfword R276 has yet to look at; inbox holds the packet slots of its TCM inbox that are full, oldest packet first (R53, R126); take holds the replies to the slot's take requests while it probes, as stands with the task each offers, and probeAt is the tick of the next probe (R98). -/
structure Slot where
  x : Vector Word 32
  v : Vector VWord 32
  k : Vector KWord 8
  vl : BitVec 8
  vshape : BitVec 6
  pc : Addr
  npc : Addr
  fpCtl : Word
  rng : BitVec 32
  prVals : BitVec 16
  prDepth : BitVec 5
  faultCause : Word
  faultAddr : Word
  faultPc : Addr
  wtHold : BitVec 8
  memWindow : BitVec 16
  memMix : Bool
  futLife : BitVec 32
  futRefused : BitVec 8
  futStatus : BitVec 2
  hampers : PMap Hamper
  gens : PMap (BitVec 12)
  stack : List Region
  taskH : Option Hamper
  qhandles : PMap QHandle
  qgens : PMap (BitVec 14)
  packet : Option Packet
  inbox : List Nat
  task : Option Nat
  ctx : Nat
  cls : BitVec 2
  grp : Nat
  sig : BitVec 2048
  wait : Option Wait
  sbuf : List Stored
  fsrc : FaultSrc
  st : SlotSt
  stop : Option Stop
  held : Bool
  stall : List Nat
  saving : Bool
  reserved : Option Nat
  notice : Option (List Byte)
  record : Option FaultRec
  since : Nat
  xfer : Bool
  take : Option (List (Nat × Option Nat))
  probeAt : Nat
  deriving DecidableEq, Repr

/-- No fault record written yet; the first has number 0. -/
def FaultSrc.none : FaultSrc := ⟨Option.none, 0, 0xFFFF, Option.none⟩

/-- A slot after reset. Registers with no reset value in the specification are zero, log 2. -/
def Slot.reset : Slot where
  x := Vector.replicate 32 0
  v := Vector.replicate 32 0
  k := Vector.replicate 8 0
  vl := 0
  vshape := 0
  pc := 0
  npc := 0
  fpCtl := 0
  rng := 1
  prVals := 0
  prDepth := 0
  faultCause := 0
  faultAddr := 0
  faultPc := 0
  wtHold := 4
  memWindow := 64
  memMix := false
  futLife := 0x00010000
  futRefused := 0
  futStatus := 0
  hampers := []
  gens := []
  stack := []
  taskH := none
  qhandles := []
  qgens := []
  packet := none
  inbox := []
  task := none
  ctx := 0
  cls := 0
  grp := 0
  sig := 0
  wait := none
  sbuf := []
  fsrc := FaultSrc.none
  st := .idle
  stop := none
  held := false
  stall := []
  saving := false
  reserved := none
  notice := none
  record := none
  since := 0
  xfer := false
  take := none
  probeAt := 0

/-! ### Cores -/

/-- A translation held by a TLB (R209): size is the page size in bytes, pte the leaf, level its level. -/
structure TlbEntry where
  ctx : Nat
  va : Nat
  size : Nat
  pte : Word
  level : Nat
  deriving DecidableEq, Repr

/-- An engine command (R386): the descriptor as copied at issue, with the issuing slot, the task that issued it (R147) and its group (R114), and the stream bytes done. cap is the tag of the ENGINE entry that a collected command fills (R157); list is the part of the global index list that was read last, as one snapshot of its sector, with its address (R386); halves are the first halves of host sectors that were read before the second, with their addresses (R222). -/
structure EngCmd where
  kind : BitVec 2
  slot : Nat
  task : Option Nat
  grp : Nat
  ctx : Nat
  desc : List Byte
  descOff : Nat
  progress : Nat
  cap : Option Nat
  list : Option (Nat × List Byte)
  halves : List (Nat × List Byte)
  deriving DecidableEq, Repr

/-- A bound circular-buffer handle: its space and descriptor offset (R372). -/
structure CbBind where
  scr : Bool
  off : Nat
  deriving DecidableEq, Repr

/-- A failed command (R236): its cause, what fault.addr will hold, the slot and task that issued it, and the circular buffer that it filled. -/
structure EngFail where
  cause : BitVec 8
  addr : Word
  slot : Nat
  task : Option Nat
  buf : Option CbBind
  deriving DecidableEq, Repr

/-- A copy or gather engine (R386 to R390). back holds commands that a restore issues again and that find the queue of two full (R20, R243); fail holds the failed commands whose trap their slots have yet to take; orphan says that the command of the record that waits at the engine is gone for good. -/
structure Engine where
  run : Option EngCmd
  queue : List EngCmd
  back : List EngCmd
  fail : List EngFail
  fsrc : FaultSrc
  record : Option FaultRec
  orphan : Bool
  deriving DecidableEq, Repr

/-- An idle engine. -/
def Engine.reset : Engine := ⟨none, [], [], [], FaultSrc.none, none, false⟩

/-- The format context (R376). progress counts the K-steps of a latent-mode mma that are done (R384). -/
structure Fmt where
  afmt : BitVec 4
  bfmt : BitVec 4
  rm : BitVec 3
  sat : Bool
  astride : BitVec 16
  progress : Nat
  deriving DecidableEq, Repr

/-- One element of an update-only copy (R141): element address and whether its home is interleaved, type and operation as an ADD entry codes them (R156), the partial. -/
structure UpdElem where
  pa : Nat
  inter : Bool
  ty : BitVec 3
  op : BitVec 2
  val : Word
  deriving DecidableEq, Repr

/-- A ring operand (R382): the group and the task of the mma that it comes from, and its bytes. -/
structure RingOp where
  grp : Nat
  task : Option Nat
  bytes : List Byte
  deriving DecidableEq, Repr

/-- An mma that has issued and not completed (R380): its slot, group and task, its mode (0 plain, 1 ring, 2 lx, 3 la), the handles it names, where its operands lie (bhandle is none where B is in the ring latch), and lt.off as it issued. -/
structure MmaOp where
  slot : Nat
  grp : Nat
  task : Option Nat
  mode : BitVec 2
  ahandle : Option HReg
  bhandle : Option HReg
  ascr : Bool
  aoff : Nat
  stride : Nat
  bscr : Bool
  boff : Nat
  ltEn : Bool
  ltOff : BitVec 48
  deriving DecidableEq, Repr

/-- What the device keeps of an owner beside its save area (R242): the saturated bits (R49), and a latent-mode mma that stands between two pieces (R243, R384). The accumulator's elements and the format context lie in the area itself. -/
structure AccSave where
  sat : List Nat
  mma : Option MmaOp
  deriving DecidableEq, Repr

/-- One core. An accumulator element that is not listed reads zero, or the free value numbered from accFree. -/
structure Core where
  tcm : Mem
  ovflim : BitVec 16
  utop : BitVec 8
  hamper : BitVec 8
  spill : BitVec 8
  frame : BitVec 8
  skewEn : Bool
  skewBase : BitVec 12
  skewRows : BitVec 12
  ltEn : Bool
  ltOff : BitVec 48
  ovfBase : BitVec 39
  accSv : BitVec 36
  acc : PMap (BitVec 32)
  accSat : List Nat
  accFree : Option Nat
  fmt : Fmt
  owner : Option Nat
  cbs : PMap CbBind
  copyEng : Engine
  gathEng : Engine
  ringIn : Option RingOp
  ringOut : Option RingOp
  mma : Option MmaOp
  icache : PMap Half
  dtlb : List TlbEntry
  itlb : List TlbEntry
  upd : List UpdElem
  ctxCmd : Word
  grpLaunch : Word
  slCmd : Word
  deriving DecidableEq, Repr

/-- A core after reset. Registers with no reset value in the specification are zero, log 2. -/
def Core.reset : Core where
  tcm := []
  ovflim := 0
  utop := 0
  hamper := 0
  spill := 0
  frame := 0
  skewEn := false
  skewBase := 0
  skewRows := 0
  ltEn := false
  ltOff := 0
  ovfBase := 0
  accSv := 0
  acc := []
  accSat := []
  accFree := none
  fmt := ⟨0, 0, 0, false, 0, 0⟩
  owner := none
  cbs := []
  copyEng := Engine.reset
  gathEng := Engine.reset
  ringIn := none
  ringOut := none
  mma := none
  icache := []
  dtlb := []
  itlb := []
  upd := []
  ctxCmd := 0
  grpLaunch := 0
  slCmd := 0

/-! ### Groves and stands -/

/-- A parked wait (R333): the task it belongs to. -/
structure Park where
  task : Nat
  wait : Wait
  deriving DecidableEq, Repr

/-- What a grove sends through its replay window (R100, R125): a task to a stand's queue, or a packet to a slot's inbox. -/
inductive Sent
  | record (task stand : Nat)
  | packet (slot : Nat) (bytes : List Byte)
  deriving DecidableEq, Repr

/-- An entry of a grove's replay window (R100), or on its way into it: acked says that its destination has taken it. -/
structure Enq where
  what : Sent
  acked : Bool
  deriving DecidableEq, Repr

/-- A rule of an expansion as it stood when a result was computed: a leaf's packed bytes (count 0), or its children: left and right, or a child and its count from 2 on. -/
structure RulePart where
  left : Nat
  right : Nat
  count : Nat
  bytes : List Byte
  deriving DecidableEq, Repr

/-- What a result was computed from: the rules of its expansion, its length, and the operand's elements, each where it can be read. The model's own field: it decides where R179 and R193 leave a later result undefined. -/
structure Made where
  rules : PMap RulePart
  length : Nat
  opnd : List (Option Word)
  deriving DecidableEq, Repr

/-- A result kept by a rule engine (R194, R196): bytes 0 to 23 of its entry with byte 7 zero, the flags byte, the words of the summary, and what it was computed from, where that is known. -/
structure RuleRes where
  key : List Byte
  flags : BitVec 8
  sum : List Word
  made : Option Made
  deriving DecidableEq, Repr

/-- A debug store record (R138). -/
structure DbgStore where
  pa : Nat
  size : Nat
  slot : Nat
  tick : Nat
  deriving DecidableEq, Repr

/-- One grove. waking says that an operation has asked for its gated matrix sub-arrays (R21); serving is the core, 0 to 7, whose mma the array works on, and lastMma the core that it served last (R379); pingAt is the tick of its next ping (R246); routes holds the entries of its router, by group (R108). -/
structure Grove where
  scratch : Mem
  corr : BitVec 32
  uncorr : BitVec 16
  fenced : Bool
  wdRun : BitVec 32
  wdHang : BitVec 16
  trRegion : BitVec 31
  trFilt : Bool
  trHead : BitVec 12
  trEn : Bool
  trace : PMap (Word × Word)
  latDc : Nat
  latU : List Half
  turns : List (BitVec 32)
  results : List RuleRes
  l2tlb : List TlbEntry
  parks : List Park
  window : List Enq
  refusals : Nat
  resendAt : Nat
  missed : Nat
  gated : Bool
  waking : Bool
  serving : Option Nat
  lastMma : Nat
  pingAt : Nat
  barReg : List Nat
  dbg : List DbgStore
  fsrcRule : FaultSrc
  poisonTcm : List (Nat × Nat)
  poisonScr : List Nat
  poisonLat : Bool
  wallLock : Bool
  wallBits : BitVec 4
  routes : PMap (List Byte)
  deriving DecidableEq, Repr

/-- A grove after reset. -/
def Grove.reset : Grove where
  scratch := []
  corr := 0
  uncorr := 0
  fenced := false
  wdRun := 0
  wdHang := 1000
  trRegion := 0
  trFilt := false
  trHead := 0
  trEn := false
  trace := []
  latDc := 0
  latU := []
  turns := []
  results := []
  l2tlb := []
  parks := []
  window := []
  refusals := 0
  resendAt := 0
  missed := 0
  gated := false
  waking := false
  serving := none
  lastMma := 7
  pingAt := 1000
  barReg := []
  dbg := []
  fsrcRule := FaultSrc.none
  poisonTcm := []
  poisonScr := []
  poisonLat := false
  wallLock := false
  wallBits := 0
  routes := []

/-- An entry of a ready queue (R92, R96): pin is the slot of a pinned task. -/
structure QEntry where
  task : Nat
  key : Int
  ctx : Nat
  queue : Nat
  grp : Nat
  pin : Option Nat
  tick : Nat
  deriving DecidableEq, Repr

/-- One stand (R92, R97, R101). -/
structure Stand where
  queue : List QEntry
  vt : PMap (BitVec 32)
  nacks : BitVec 16
  taken : BitVec 16
  deriving DecidableEq, Repr

/-- A stand after reset. -/
def Stand.reset : Stand := ⟨[], [], 0, 0⟩

/-! ### Contexts, groups and tasks -/

/-- The context states (R69, R75). -/
inductive CtxSt | free | building | ready | running | suspended | faulted | teardown
  deriving DecidableEq, Repr

/-- A stop in progress and the state it ends in (R75). -/
inductive CtxStop | none | suspend | fault | teardown
  deriving DecidableEq, Repr

/-- What the context controller holds of a context (R69, R70). queues are (enabled, recipe) pairs. -/
structure Ctx where
  st : CtxSt
  stopping : CtxStop
  stopCore : Option Nat
  perm : BitVec 8
  ptroot : Nat
  fqbase : Nat
  hbudget : Nat
  maxgroves : Nat
  weight : BitVec 16
  queues : List (Bool × BitVec 4)
  groups : Nat
  deriving DecidableEq, Repr

/-- A context whose descriptor has not been read. -/
def Ctx.reset : Ctx := ⟨.free, .none, Option.none, 0, 0, 0, 0, 0, 0, [], 0⟩

/-- The group states (R103, R113). -/
inductive GrpSt | claiming | routing | loading | running | draining | broken | done
  deriving DecidableEq, Repr

/-- A barrier channel of a clearing (R112, R120): arrived and next hold physical core numbers. Each grove of the clearing has its own copy of the overrun bit in gb.stat (R318): overrun says that a second arrival has set them, and cleared names the groves whose copy has been cleared since. -/
structure Chan where
  gen : BitVec 32
  arrived : List Nat
  next : List Nat
  overrun : Bool
  broken : Bool
  cleared : List Nat
  deriving DecidableEq, Repr

/-- The fields of an image header (R79). -/
structure Image where
  dflt : Nat
  carve : Nat
  codeOff : Nat
  codeSize : Nat
  constOff : Nat
  constSize : Nat
  tableOff : Nat
  tableN : Nat
  declOff : Nat
  declN : Nat
  launch : Nat
  deriving DecidableEq, Repr

/-- A circular-buffer declaration (R372). -/
structure Decl where
  handle : Nat
  scr : Bool
  slotSize : Nat
  slots : Nat
  off : Nat
  deriving DecidableEq, Repr

/-- An image that declares nothing. -/
def Image.none : Image := ⟨0, 0, 0, 0, 0, 0, 0, 0, 0, 0, 0⟩

/-- One launch (R103 to R115). im, decls and entry are the header, the declarations and the launch task's entry as the claim checked them, kept for the load and the records (R109); alone holds the groves, by physical index, that the claim found in no other clearing (R109); routeOk and peerOk say that the routers of this module and of the others have been checked (R108), loaded that LOADING is done. -/
structure Group where
  desc : Nat
  dpa : Nat
  ctx : Nat
  core : Nat
  gx0 : Nat
  gy0 : Nat
  w : Nat
  h : Nat
  nchan : Nat
  peers : Bool
  image : Nat
  codebase : Nat
  n0 : Nat
  n1 : Nat
  n2 : Nat
  n3 : Nat
  cmask : Word
  arg : Word
  carve : Word
  entry : List Byte
  im : Image
  decls : List Decl
  alone : List Nat
  st : GrpSt
  cause : BitVec 8
  live : Nat
  seq : BitVec 32
  chans : List Chan
  routeOk : Bool
  peerOk : Bool
  loaded : Bool
  freed : Bool
  deriving DecidableEq, Repr

/-- The task states (R84). -/
inductive TaskSt | gated | counting | ready | running | suspended | faulted | committing | aborted | done
  deriving DecidableEq, Repr

/-- What a saved frame's device block keeps (R241), with the state that belongs to the slot's task and lies in no register. bytes is what the device wrote for it into the frame, npc where an open wait goes on, acc what stands beside the owner's save area (R242). -/
structure DevBlock where
  bytes : List Byte
  npc : Addr
  hampers : PMap Hamper
  stack : List Region
  taskH : Option Hamper
  qhandles : PMap QHandle
  wait : Option Wait
  copyCmds : List EngCmd
  gathCmds : List EngCmd
  sig : BitVec 2048
  acc : Option AccSave
  deriving DecidableEq, Repr

/-- A task that the device knows: one whose record is not DONE. slot is the slot on which it last ran, endPc the address of its tk.end, awaiting the record that a replay must bring back, by its source and sequence number (R344). -/
structure Task where
  ctx : Nat
  va : Nat
  pa : Nat
  grp : Nat
  cls : BitVec 2
  st : TaskSt
  ts : Word
  seq : BitVec 32
  ext : Bool
  gates : List Nat
  pin : Option Nat
  frame : Option DevBlock
  spilled : Nat
  hamper : Option Hamper
  sig : BitVec 2048
  dispatched : Bool
  refused : Bool
  dead : Bool
  slot : Nat
  endPc : Addr
  result : Option (Reg × Word)
  awaiting : Option (Nat × Half)
  deriving DecidableEq, Repr

/-- Where bytes of an ENGINE write come from: captured bytes, or a place read at the apply (R157). -/
inductive From
  | bytes (bs : List Byte)
  | place (p : Nat)
  deriving DecidableEq, Repr

/-- One piece of a hamper entry as the checks before the locks resolved it (R166): its place, whether its home is interleaved, its size, and for an ENGINE write its source. -/
structure Piece where
  e : HEntry
  pa : Nat
  inter : Bool
  n : Nat
  from_ : Option From
  deriving DecidableEq, Repr

/-- A commit in progress (R87, R139): its pieces and counters as the checks before the locks found them, the sectors still to lock and those held, in ascending physical address. applied says that only its enqueues wait, those of the records that sends names (R100). -/
structure Commit where
  task : Nat
  pieces : List Piece
  counters : List (Nat × Bool)
  todo : List Nat
  held : List Nat
  applied : Bool
  sends : List Nat
  deriving DecidableEq, Repr

/-- An open draft (R180): the context and address of the quilt's descriptor, and the task that owns it. A draft of a slot that runs no task is not listed: nothing discards it. -/
structure Draft where
  ctx : Nat
  desc : Nat
  task : Nat
  deriving DecidableEq, Repr

/-- What the device still has to do to a quilt, since a lock or a link holds its access (R139, R223): the close of a reader handle at its version, or the discard of a draft. -/
inductive Owed
  | close (ctx : Nat) (ver : Word)
  | discard (d : Draft)
  deriving DecidableEq, Repr

/-- A deferred ld.f (R144). -/
structure Defer where
  slot : Nat
  home : Nat
  pa : Nat
  take : Bool
  dst : Reg
  expire : Nat
  deriving DecidableEq, Repr

/-- What a home knows of the last core-path store that performed at a byte: its size, its slot, whether that slot has released since, and the slots that have acquired since that release (R134, R138). -/
structure Strong where
  n : Nat
  slot : Nat
  rel : Bool
  seen : List Nat
  deriving DecidableEq, Repr

/-- The memory under a dirty LLC sector, in device or host memory (R63, R67): what a discard brings back, and whether the sector's home is interleaved (R64). -/
structure Dram where
  bytes : List Byte
  poison : Bool
  inter : Bool
  deriving DecidableEq, Repr

/-! ### Links, guest and host -/

/-- The link states (R217, R218). -/
inductive LinkSt | down | training | up | degraded | fenced
  deriving DecidableEq, Repr

/-- One link. since is the tick at which training began. -/
structure Link where
  st : LinkSt
  width : BitVec 8
  rate : BitVec 8
  replays : BitVec 16
  retrains : BitVec 8
  since : Nat
  burst : Nat
  burstTick : Nat
  deriving DecidableEq, Repr

/-- A link after reset. -/
def Link.reset : Link := ⟨.down, 0, 0, 0, 0, 0, 0, 0⟩

/-- What the module keeps of the guest (R230 to R232): started packets (queue, index), sectors held modified with the context of each, translations that it may cache, the fault source of each queue and a record of it that waits for room, packets paused at a fault (queue, index, sequence number), invalidations that it has not acknowledged (the slot of the pg.post unless that was abandoned, and the tick of the bound), slots whose invalidation it has acknowledged, the tick by which each QUIESCING queue must answer, and the read reports whose packets the agent cannot read yet (queue, index). -/
structure Guest where
  started : List (Nat × Nat)
  held : List (Nat × Nat)
  tlb : List TlbEntry
  fsrc : PMap FaultSrc
  record : PMap FaultRec
  paused : List (Nat × Nat × Half)
  inval : List (Option Nat × Nat)
  acked : List Nat
  quiesceAt : PMap Nat
  reports : List (Nat × BitVec 32)
  deriving DecidableEq, Repr

/-- A guest that has done nothing. -/
def Guest.reset : Guest := ⟨[], [], [], [], [], [], [], [], [], []⟩

/-- An expansion aperture that the device knows since a ql.open of its quilt (R169, R186): its base and size, the quilt's descriptor and the context that opened it. -/
structure Aperture where
  base : Nat
  size : Nat
  desc : Word
  ctx : Nat
  deriving DecidableEq, Repr

/-- The completion of the last request of the host (R186, R222): data, data of which the bytes that are none are marked poison, or completer abort. -/
inductive Reply
  | none
  | data (bs : List Byte)
  | poison (bs : List (Option Byte))
  | abort
  deriving DecidableEq, Repr

/-- How far boot is (R249). -/
inductive Boot | held | failed (step : Nat) | up
  deriving DecidableEq, Repr

/-- A command register write that waits for its server (R73, R104, R219, R228, R240). -/
structure Pending where
  core : Nat
  word : Word
  deriving DecidableEq, Repr

/-- What the agenda can ask for next: a slot's turn, an event of the device or of the world outside it, or the passing of one reference tick (log 1). -/
inductive Move
  | turn (slot : Nat)
  | event (i : Instr)
  | tick
  deriving DecidableEq, Repr

/-- The whole module. strong holds the last core-path store of each byte, and undef the bytes that R138 leaves undefined, with the slots whose buffered stores take part (the model's own fields, log 19); late holds the device's writes that wait at locked sectors (R139); wbOrs the sectors written back whose OR into the dirty bitmap is to come (R214); owed the closes and discards of quilts that wait for a lock or a link (R139); guestBad the refused writes of guest queues whose records are still to be made (R211); hostHeld lists the 64-byte halves of device sectors that the host holds, by their number (R222); pwLog holds the power samples of the last 10,000 ticks, newest first, and pwAt counts the ticks sampled (R255); claimAt holds the descriptor's place and bytes of the launch that the front end is claiming (R104); tableMade holds, by the place of its entry in the rule-result table, the result last written there with what it was computed from (the model's own field, log 103); mbTold says that the event word has been told of the mailbox command (R221). slots is keyed by physical core number times 4 plus slot, cores by physical core number, groves by physical grove index, stands by stand number (R13, R17). -/
structure State where
  slots : PMap Slot
  cores : PMap Core
  groves : PMap Grove
  stands : PMap Stand
  mem : Mem
  hostMem : Mem
  dirty : PMap Dram
  strong : PMap Strong
  undef : PMap (List Nat)
  late : List Late
  wbOrs : List Nat
  poison : List Nat
  tags : List Nat
  gatesList : List (Nat × Nat)
  deferrals : List Defer
  ctxs : PMap Ctx
  groups : PMap Group
  nextGroup : Nat
  tasks : PMap Task
  commits : List Commit
  drafts : List Draft
  owed : List Owed
  notices : List (List Byte)
  guestBad : List LateBad
  tick : BitVec 48
  fwcol : BitVec 8
  fwwidth : BitVec 2
  spare : Nat
  remaps : List (Nat × Nat)
  wake : BitVec 16
  ctxBase : BitVec 38
  modX : BitVec 2
  modY : BitVec 2
  boMax : BitVec 16
  boBase : BitVec 16
  hlPool : BitVec 40
  rtCfg : Word
  tableMade : PMap RuleRes
  pgDirty : BitVec 29
  gqBase : BitVec 41
  gsLock : Bool
  gsBound : BitVec 8
  trRing : BitVec 37
  trHead : BitVec 10
  trTail : BitVec 10
  pwLim : BitVec 16
  pwTable : BitVec 16
  pwAvg : BitVec 16
  pwStep : BitVec 4
  pwLog : List Nat
  pwAt : Nat
  pwSince : Nat
  lkCtl : Word
  gqCtl : Word
  recipes : PMap Word
  hwBase : PMap Word
  hwLimit : PMap Word
  links : PMap Link
  guest : Guest
  hostHeld : List Nat
  eventWord : Word
  mbCmd : Word
  mbTold : Bool
  mbReq : Mem
  mbResp : Mem
  vectors : List Nat
  apertures : List Aperture
  reply : Reply
  hostSrc : FaultSrc
  hostRec : Option FaultRec
  bootWord : Word
  boot : Boot
  flash : Mem
  roles : List (BitVec 2)
  measures : List Byte
  ctxQ : List Pending
  grpQ : List Pending
  claimAt : Option (Nat × List Byte)
  slQ : List Pending
  lkQ : List Pending
  gqQ : List Pending
  cur : Nat
  agenda : List Move
  fresh : Nat
  deriving DecidableEq, Repr

/-- Why the machine stops with a fault. -/
inductive Fault
  /-- Raised by TASK_DISPATCH where it would restore a frame whose device block is no longer as the device wrote it: the task's later behaviour is undefined and no choice is given (R241). Safe. -/
  | deviceBlockChanged
  deriving DecidableEq, Repr

/-- Why a step has no meaning. -/
inductive Refusal
  /-- Raised by an arm of exec whose instruction has no meaning yet, named by its mnemonic. Safe. -/
  | notModelled (mnemonic : String)
  deriving DecidableEq, Repr

/-- The module after cold reset, before the boot controller runs (R249). -/
def State.reset : State where
  slots := []
  cores := []
  groves := []
  stands := []
  mem := []
  hostMem := []
  dirty := []
  strong := []
  undef := []
  late := []
  wbOrs := []
  poison := []
  tags := []
  gatesList := []
  deferrals := []
  ctxs := []
  groups := []
  nextGroup := 1
  tasks := []
  commits := []
  drafts := []
  owed := []
  notices := []
  guestBad := []
  tick := 0
  fwcol := 16
  fwwidth := 1
  spare := 17
  remaps := []
  wake := 64
  ctxBase := 0
  modX := 0
  modY := 0
  boMax := 256
  boBase := 2
  hlPool := 0
  rtCfg := 0
  tableMade := []
  pgDirty := 0
  gqBase := 0
  gsLock := false
  gsBound := 50
  trRing := 0
  trHead := 0
  trTail := 0
  pwLim := 0
  pwTable := 0
  pwAvg := 0
  pwStep := 15
  pwLog := []
  pwAt := 0
  pwSince := 0
  lkCtl := 0
  gqCtl := 0
  recipes := [(0, 0x0100)]
  hwBase := []
  hwLimit := []
  links := []
  guest := Guest.reset
  hostHeld := []
  eventWord := 0
  mbCmd := 0
  mbTold := false
  mbReq := []
  mbResp := []
  vectors := []
  apertures := []
  reply := .none
  hostSrc := FaultSrc.none
  hostRec := none
  bootWord := 0
  boot := .held
  flash := []
  roles := []
  measures := []
  ctxQ := []
  grpQ := []
  claimAt := none
  slQ := []
  lkQ := []
  gqQ := []
  cur := 0
  agenda := []
  fresh := 0

end Sys2Proof.Machine
end

