-- ==== Sys2Proof/Machine/Bytes.lean ====
section
/-! DEFINITION. Bytes, little-endian fields, bit fields, and the one primitive that reads and the one that writes a memory. -/

namespace Sys2Proof.Machine

/-! ### Numbers as bytes (R3) -/

/-- n bytes of a number, least significant first. -/
def bytesOf : Nat → Nat → List Byte
  | 0, _ => []
  | n + 1, v => BitVec.ofNat 8 v :: bytesOf n (v / 256)

/-- The number that bytes hold, least significant first. -/
def natOf : List Byte → Nat
  | [] => 0
  | b :: rest => b.toNat + 256 * natOf rest

/-- The number in n bytes at an offset of a list. -/
def field (bs : List Byte) (off n : Nat) : Nat := natOf ((bs.drop off).take n)

/-- A list of bytes with some replaced from an offset on. -/
def patch (bs : List Byte) (off : Nat) (new : List Byte) : List Byte :=
  bs.take off ++ new ++ bs.drop (off + new.length)

/-- n zero bytes. -/
def zeros (n : Nat) : List Byte := List.replicate n 0

/-- Bits [hi:lo] of a number (R2). -/
def bits (v hi lo : Nat) : Nat := v / 2 ^ lo % 2 ^ (hi + 1 - lo)

/-- One bit of a number. -/
def bitAt (v i : Nat) : Bool := v / 2 ^ i % 2 == 1

/-- A field shifted to its place. -/
def at_ (v lo : Nat) : Nat := v * 2 ^ lo

/-- A Bool as a number. -/
def flag (b : Bool) : Nat := if b then 1 else 0

/-! ### Memories -/

/-- The byte at an address; an unlisted byte is zero (log 3). -/
def memByte : Mem → Nat → Byte
  | [], _ => 0
  | (k, b) :: rest, a => if k = a then b else memByte rest a

/-- n bytes from an address. -/
def memRead (m : Mem) : Nat → Nat → List Byte
  | _, 0 => []
  | a, n + 1 => memByte m a :: memRead m (a + 1) n

/-- The nonzero bytes of a list, at their addresses. -/
def cells : Nat → List Byte → Mem
  | _, [] => []
  | a, b :: rest => if b = 0 then cells (a + 1) rest else (a, b) :: cells (a + 1) rest

/-- Write bytes from an address on. -/
def memWrite (m : Mem) (a : Nat) (bs : List Byte) : Mem :=
  m.filter (fun c => decide (c.1 < a)) ++ cells a bs ++ m.filter (fun c => decide (a + bs.length ≤ c.1))

/-- Addresses rise strictly from a bound on, and no listed byte is zero. -/
def Mem.from : Nat → Mem → Bool
  | _, [] => true
  | lo, (k, b) :: rest => decide (lo ≤ k) && b != 0 && Mem.from (k + 1) rest

/-- The canonical form of a memory. -/
def Mem.wf (m : Mem) : Bool := Mem.from 0 m

/-! ### Lists -/

/-- Insertion into a list sorted by a key. -/
def insertBy {α : Type} (key : α → Nat) (v : α) : List α → List α
  | [] => [v]
  | w :: rest => if key v < key w then v :: w :: rest else w :: insertBy key v rest

/-- Stable insertion sort by a key. -/
def sortBy {α : Type} (key : α → Nat) (l : List α) : List α := l.foldl (fun acc v => insertBy key v acc) []

/-- A list without repeats, first occurrences kept. -/
def nub : List Nat → List Nat
  | [] => []
  | a :: rest => a :: (nub rest).filter (· != a)

/-- The values lo, lo + 1, ..., lo + n - 1. -/
def span (lo n : Nat) : List Nat := (List.range n).map (lo + ·)

/-- Round a division up (R110). -/
def ceilDiv (a b : Nat) : Nat := (a + b - 1) / b

/-- The place of a value in a list. -/
def indexOf (l : List Nat) (v : Nat) : Option Nat :=
  match l with
  | [] => none
  | a :: rest => if a = v then some 0 else (indexOf rest v).map (· + 1)

/-- Change the element at a place of a list. -/
def modifyAt {α : Type} (f : α → α) : List α → Nat → List α
  | [], _ => []
  | a :: rest, 0 => f a :: rest
  | a :: rest, n + 1 => a :: modifyAt f rest n

/-! ### CRC-32C -/

/-- One bit of CRC-32C, reflected polynomial. -/
def crcBit (c : BitVec 32) : BitVec 32 := if c.getLsbD 0 then (c >>> 1) ^^^ 0x82F63B78#32 else c >>> 1

/-- One byte of CRC-32C. -/
def crcByte (c : BitVec 32) (b : Byte) : BitVec 32 :=
  crcBit (crcBit (crcBit (crcBit (crcBit (crcBit (crcBit (crcBit (c ^^^ b.setWidth 32))))))))

/-- CRC-32C of a list of bytes: initial value and final complement all ones. -/
def crc32c (bs : List Byte) : BitVec 32 := (bs.foldl crcByte 0xFFFFFFFF#32) ^^^ 0xFFFFFFFF#32

end Sys2Proof.Machine
end

