-- ==== Sys2Proof/Machine/Flags.lean ====
section
/-! DEFINITION. Number formats, exact arithmetic, rounding and the flags of fp.ctl (R32 to R46), and the block formats. -/

namespace Sys2Proof.Machine

/-! ### Values and formats -/

/-- A floating value. fin holds (-1)^neg × m × 2^e; a zero keeps its sign. -/
inductive FVal
  | nan
  | inf (neg : Bool)
  | fin (neg : Bool) (m : Nat) (e : Int)
  deriving DecidableEq, Repr

/-- A floating format: exponent bits, fraction bits, and whether it is E4M3, which has no infinity (R32 to R34). -/
structure FFmt where
  eb : Nat
  fb : Nat
  e4m3 : Bool
  deriving DecidableEq, Repr

/-- FP32. -/
def fmtF32 : FFmt := ⟨8, 23, false⟩
/-- BF16. -/
def fmtBf16 : FFmt := ⟨8, 7, false⟩
/-- FP16. -/
def fmtF16 : FFmt := ⟨5, 10, false⟩
/-- FP8 E4M3. -/
def fmtE4m3 : FFmt := ⟨4, 3, true⟩
/-- FP8 E5M2. -/
def fmtE5m2 : FFmt := ⟨5, 2, false⟩

/-- The bias of a format. -/
def FFmt.bias (f : FFmt) : Nat := 2 ^ (f.eb - 1) - 1
/-- The width of a format. -/
def FFmt.width (f : FFmt) : Nat := 1 + f.eb + f.fb
/-- The all-ones exponent field. -/
def FFmt.emax (f : FFmt) : Nat := 2 ^ f.eb - 1
/-- The sign bit of a pattern. -/
def FFmt.signBit (f : FFmt) (neg : Bool) : Nat := flag neg * 2 ^ (f.eb + f.fb)
/-- The canonical NaN (R33, R34). -/
def FFmt.nanBits (f : FFmt) : Nat := if f.e4m3 then 0x7F else f.emax * 2 ^ f.fb + 2 ^ (f.fb - 1)
/-- Infinity; E4M3 has none and gives its NaN (R34). -/
def FFmt.infBits (f : FFmt) (neg : Bool) : Nat := if f.e4m3 then 0x7F else f.signBit neg + f.emax * 2 ^ f.fb
/-- The largest finite pattern. -/
def FFmt.maxBits (f : FFmt) (neg : Bool) : Nat :=
  f.signBit neg + (if f.e4m3 then 0x7E else (f.emax - 1) * 2 ^ f.fb + (2 ^ f.fb - 1))

/-- The value of a pattern (R33, R34). -/
def FFmt.value (f : FFmt) (v : Nat) : FVal :=
  let neg := bitAt v (f.eb + f.fb)
  let e := v / 2 ^ f.fb % 2 ^ f.eb
  let m := v % 2 ^ f.fb
  if f.e4m3 then
    if e = 15 ∧ m = 7 then .nan
    else if e = 0 then .fin neg m (1 - Int.ofNat (f.bias + f.fb))
    else .fin neg (2 ^ f.fb + m) (Int.ofNat e - Int.ofNat (f.bias + f.fb))
  else if e = f.emax then (if m = 0 then .inf neg else .nan)
  else if e = 0 then .fin neg m (1 - Int.ofNat (f.bias + f.fb))
  else .fin neg (2 ^ f.fb + m) (Int.ofNat e - Int.ofNat (f.bias + f.fb))

/-! ### Flags: bits of a number in the order nv, dz, of, uf, nx, sat, as fp.ctl [13:8] holds them (R43) -/

/-- Invalid. -/
def flagNv : Nat := 1
/-- Division by zero. -/
def flagDz : Nat := 2
/-- Overflow. -/
def flagOf : Nat := 4
/-- Underflow. -/
def flagUf : Nat := 8
/-- Inexact. -/
def flagNx : Nat := 16
/-- An integer result saturated. -/
def flagSat : Nat := 32

/-- fp.ctl with more flags set; flags are sticky (R43). -/
def addFlags (ctl : Word) (fl : Nat) : Word := ctl ||| BitVec.ofNat 64 (fl * 256)

/-! ### Rounding (R39 to R41) -/

/-- Round a magnitude m / 2^sh to an integer: sign, mode and the 16 random bits decide the step up. -/
def roundMag (rm : Nat) (neg : Bool) (r : Nat) (m sh : Nat) : Nat :=
  let q := m / 2 ^ sh
  let rem := m % 2 ^ sh
  let half := 2 ^ sh
  let up :=
    match rm with
    | 0 => decide (half < rem * 2) || (decide (rem * 2 = half) && q % 2 == 1)
    | 1 => false
    | 2 => neg && decide (rem ≠ 0)
    | 3 => !neg && decide (rem ≠ 0)
    | _ => decide (2 ^ 16 ≤ rem * 2 ^ 16 / 2 ^ sh + r)
  q + flag up

/-- The pattern of an overflowed finite result (R40). -/
def overflowBits (f : FFmt) (rm : Nat) (sat neg : Bool) : Nat :=
  if sat then f.maxBits neg
  else if f.e4m3 then f.nanBits
  else match rm with
    | 1 => f.maxBits neg
    | 2 => if neg then f.infBits neg else f.maxBits neg
    | 3 => if neg then f.maxBits neg else f.infBits neg
    | _ => f.infBits neg

/-- Round to a format: the pattern and the flags (R40, R43). A nonzero sticky m carries its lost low bits in its last bit. -/
def FFmt.round (f : FFmt) (rm : Nat) (sat : Bool) (r : Nat) : FVal → Nat × Nat
  | .nan => (f.nanBits, 0)
  | .inf neg => (f.infBits neg, if f.e4m3 then flagNv else 0)
  | .fin neg m e =>
    if m = 0 then (f.signBit neg, 0)
    else
      let top := Int.ofNat (Nat.log2 m) + e
      let least := 1 - Int.ofNat f.bias
      let qe := (if top < least then least else top) - Int.ofNat f.fb
      let sig := if qe ≤ e then m * 2 ^ (e - qe).toNat else roundMag rm neg r m (qe - e).toNat
      let exact := if qe ≤ e then true else m % 2 ^ (qe - e).toNat == 0
      let carry := decide (2 ^ (f.fb + 1) ≤ sig)
      let sig2 := if carry then sig / 2 else sig
      let qe2 := if carry then qe + 1 else qe
      let ef := qe2 + Int.ofNat f.fb + Int.ofNat f.bias
      let big := if f.e4m3 then decide (15 < ef) || (decide (ef = 15) && sig2 == 15)
        else decide (Int.ofNat f.emax ≤ ef)
      if big then (overflowBits f rm sat neg, flagOf + flagNx)
      else
        let body := if sig2 < 2 ^ f.fb then sig2 else ef.toNat * 2 ^ f.fb + (sig2 - 2 ^ f.fb)
        (f.signBit neg + body, (if exact then 0 else flagNx) + (if !exact && decide (top < least) then flagUf else 0))

/-- A result that passes through Round, and so takes a step of the generator in SR mode: neither NaN nor an exact infinity (R41). -/
def FVal.rounds : FVal → Bool
  | .fin _ _ _ => true
  | .nan | .inf _ => false

/-- One step of the generator (R42). -/
def rngStep (s : BitVec 32) : BitVec 32 :=
  let a := s ^^^ (s <<< 13)
  let b := a ^^^ (a >>> 17)
  b ^^^ (b <<< 5)

/-- The 16 random bits of a generator state (R42). -/
def rngBits (s : BitVec 32) : Nat := (s.extractLsb' 16 16).toNat

/-- The arithmetic side of a slot: fp.ctl and the generator. -/
structure Fp where
  ctl : Word
  rng : BitVec 32
  deriving DecidableEq, Repr

/-- The rounding mode that an instruction's code names: 7 is the dynamic mode (R39, R43). -/
def Fp.mode (p : Fp) (rm : Nat) : Nat := if rm = 7 then (p.ctl.extractLsb' 0 3).toNat else rm

/-- Set flags. -/
def Fp.raise (p : Fp) (fl : Nat) : Fp := { p with ctl := addFlags p.ctl fl }

/-- Take a generator step. -/
def Fp.step (p : Fp) : Fp := { p with rng := rngStep p.rng }

/-- Round a value with its earlier flags: the pattern, and the slot's arithmetic side after it. SR takes one step where the result is rounded (R41). -/
def Fp.round (p : Fp) (f : FFmt) (rm : Nat) (sat : Bool) (v : FVal × Nat) : Nat × Fp :=
  let p1 := if rm = 4 && v.1.rounds then p.step else p
  let (b, fl) := f.round rm sat (rngBits p1.rng) v.1
  (b, p1.raise (fl ||| v.2))

/-! ### Exact arithmetic -/

/-- Negation. -/
def FVal.neg : FVal → FVal
  | .nan => .nan
  | .inf n => .inf (!n)
  | .fin n m e => .fin (!n) m e

/-- A signed integer multiple of 2^e. -/
def finOfInt (i : Int) (e : Int) : FVal := .fin (decide (i < 0)) i.natAbs e

/-- The signed mantissa of a finite value at a smaller exponent. -/
def mantAt (neg : Bool) (m : Nat) (e lo : Int) : Int :=
  let v := Int.ofNat (m * 2 ^ (e - lo).toNat)
  if neg then -v else v

/-- The lesser of two integers. -/
def imin (a b : Int) : Int := if a ≤ b then a else b
/-- The greater of two integers. -/
def imax (a b : Int) : Int := if a ≤ b then b else a

/-- Exact sum with its flags. An exact zero sum of opposite signs is +0, or -0 in RD (R40). -/
def fAdd (rd : Bool) : FVal → FVal → FVal × Nat
  | .nan, _ => (.nan, 0)
  | _, .nan => (.nan, 0)
  | .inf a, .inf b => if a = b then (.inf a, 0) else (.nan, flagNv)
  | .inf a, .fin _ _ _ => (.inf a, 0)
  | .fin _ _ _, .inf b => (.inf b, 0)
  | .fin na ma ea, .fin nb mb eb =>
    let lo := imin ea eb
    let sum := mantAt na ma ea lo + mantAt nb mb eb lo
    if sum = 0 then (.fin (if na = nb then na else rd) 0 0, 0) else (finOfInt sum lo, 0)

/-- Exact product with its flags: 0 × infinity is invalid. -/
def fMul : FVal → FVal → FVal × Nat
  | .nan, _ => (.nan, 0)
  | _, .nan => (.nan, 0)
  | .inf a, .inf b => (.inf (a != b), 0)
  | .inf a, .fin b m _ => if m = 0 then (.nan, flagNv) else (.inf (a != b), 0)
  | .fin a m _, .inf b => if m = 0 then (.nan, flagNv) else (.inf (a != b), 0)
  | .fin na ma ea, .fin nb mb eb => (.fin (na != nb) (ma * mb) (ea + eb), 0)

/-- Quotient to 80 bits below the divisor's size with a sticky last bit, and its flags (R312). -/
def fDiv : FVal → FVal → FVal × Nat
  | .nan, _ => (.nan, 0)
  | _, .nan => (.nan, 0)
  | .inf _, .inf _ => (.nan, flagNv)
  | .inf a, .fin b _ _ => (.inf (a != b), 0)
  | .fin a _ _, .inf b => (.fin (a != b) 0 0, 0)
  | .fin na ma ea, .fin nb mb eb =>
    if mb = 0 then (if ma = 0 then (.nan, flagNv) else (.inf (na != nb), flagDz))
    else
      let up := ma * 2 ^ (Nat.log2 mb + 81)
      let q := up / mb
      let st := if up % mb = 0 then 0 else 1
      (.fin (na != nb) (2 * q + st) (ea - eb - Int.ofNat (Nat.log2 mb + 82)), 0)

/-- Integer square root, one bit per unit of fuel from the top. -/
def isqrtGo : Nat → Nat → Nat → Nat
  | 0, _, acc => acc
  | k + 1, n, acc =>
    let t := acc + 2 ^ k
    if t * t ≤ n then isqrtGo k n t else isqrtGo k n acc

/-- The integer square root. -/
def isqrt (n : Nat) : Nat := isqrtGo (Nat.log2 n / 2 + 1) n 0

/-- Square root with a sticky last bit; below -0 it is invalid (R312). -/
def fSqrt : FVal → FVal × Nat
  | .nan => (.nan, 0)
  | .inf neg => if neg then (.nan, flagNv) else (.inf false, 0)
  | .fin neg m e =>
    if m = 0 then (.fin neg 0 0, 0)
    else if neg then (.nan, flagNv)
    else
      let odd := e % 2 ≠ 0
      let m1 := (if odd then 2 * m else m) * 2 ^ 160
      let e1 := (if odd then e - 1 else e) - 160
      let q := isqrt m1
      let st := if q * q = m1 then 0 else 1
      (.fin false (2 * q + st) (e1 / 2 - 1), 0)

/-- a × b + c with one rounding to come; 0 × infinity is invalid whatever the addend (R312). -/
def fFma (rd : Bool) (a b c : FVal) : FVal × Nat :=
  let (p, fl) := fMul a b
  if fl ≠ 0 then (.nan, fl) else fAdd rd p c

/-- Exact comparison of two numbers that are not NaN: less than. -/
def fLt : FVal → FVal → Bool
  | .nan, _ => false
  | _, .nan => false
  | .inf a, .inf b => a && !b
  | .inf a, .fin _ _ _ => a
  | .fin _ _ _, .inf b => !b
  | .fin na ma ea, .fin nb mb eb =>
    let lo := imin ea eb
    decide (mantAt na ma ea lo < mantAt nb mb eb lo)

/-- Equality of value: -0 equals +0; a NaN equals nothing (R314). -/
def fEq (a b : FVal) : Bool :=
  match a, b with
  | .nan, _ => false
  | _, .nan => false
  | a, b => !fLt a b && !fLt b a

/-- Is a NaN. -/
def FVal.isNan : FVal → Bool
  | .nan => true
  | .inf _ | .fin _ _ _ => false

/-- The sign of a value. -/
def FVal.sign : FVal → Bool
  | .nan => false
  | .inf n => n
  | .fin n _ _ => n

/-- Lesser of two values with -0 below +0; NaN if either is (R312). -/
def fMin (a b : FVal) : FVal :=
  if a.isNan || b.isNan then .nan
  else if fLt a b then a else if fLt b a then b else if a.sign then a else b

/-- Greater of two values with -0 below +0; NaN if either is. -/
def fMax (a b : FVal) : FVal :=
  if a.isNan || b.isNan then .nan
  else if fLt a b then b else if fLt b a then a else if a.sign then b else a

/-! ### Integers (R45, R46) -/

/-- The signed number in the low n bits. -/
def sInt (n v : Nat) : Int :=
  let u := v % 2 ^ n
  if u < 2 ^ (n - 1) then Int.ofNat u else Int.ofNat u - Int.ofNat (2 ^ n)

/-- An integer modulo 2^n. -/
def wrapInt (n : Nat) (i : Int) : Nat := (i % Int.ofNat (2 ^ n)).toNat

/-- The least and greatest number of an integer type. -/
def intRange (signed : Bool) (n : Nat) : Int × Int :=
  if signed then (-Int.ofNat (2 ^ (n - 1)), Int.ofNat (2 ^ (n - 1)) - 1) else (0, Int.ofNat (2 ^ n) - 1)

/-- Clamp to a range, and whether it clamped. -/
def clampInt (lo hi i : Int) : Int × Bool :=
  if i < lo then (lo, true) else if hi < i then (hi, true) else (i, false)

/-- A value rounded to an integral value: the integer and whether it was already integral. -/
def roundInt (rm : Nat) (r : Nat) (neg : Bool) (m : Nat) (e : Int) : Int × Bool :=
  if 0 ≤ e then (let v := Int.ofNat (m * 2 ^ e.toNat); (if neg then -v else v, true))
  else
    let sh := (-e).toNat
    let q := roundMag rm neg r m sh
    (if neg then -Int.ofNat q else Int.ofNat q, m % 2 ^ sh == 0)

/-- Floating to integer: round, then clamp; NaN gives 0; NaN or a clamp sets nv (R45). A non-integral value sets nx, in fcvt only where it is not clamped (both is then false), in vcvt in either case (R45, R313, R363). -/
def fToInt (both : Bool) (rm r : Nat) (signed : Bool) (n : Nat) : FVal → Int × Nat
  | .nan => (0, flagNv)
  | .inf neg =>
    let (lo, hi) := intRange signed n
    (if neg then lo else hi, flagNv)
  | .fin neg m e =>
    let (lo, hi) := intRange signed n
    let (i, whole) := roundInt rm r neg m e
    let (c, did) := clampInt lo hi i
    (c, (if did then flagNv else 0) + (if whole || (did && !both) then 0 else flagNx))

/-! ### Block formats (R36 to R38) -/

/-- The mantissa width of a block format code 13, 14 or 15 of the vector types (R36, R364). -/
def blockMant : BlockTy → Nat
  | .bx4 => 2
  | .bx6 => 4
  | .bx8 => 6

/-- The bytes of a block of a mantissa width. -/
def blockBytes (w : Nat) : Nat := 2 + 4 * (w + 2)

/-- The value of an element field under its block's scales (R37). -/
def blockElem (w e0 e1 fld : Nat) : FVal :=
  let e := if bitAt fld (w + 1) then e1 else e0
  let neg := bitAt fld w
  let m := fld % 2 ^ w
  if e = 255 then (if m = 0 then .inf neg else .nan)
  else .fin neg m (Int.ofNat e - 127 - Int.ofNat (w - 1))

/-- The 32 element values of a block (R36, R37). -/
def blockValues (w : Nat) (bs : List Byte) : List FVal :=
  let e0 := field bs 0 1
  let e1 := field bs 1 1
  let area := natOf (bs.drop 2)
  (List.range 32).map fun i => blockElem w e0 e1 (area / 2 ^ (i * (w + 2)) % 2 ^ (w + 2))

/-- ex(x) of R38. -/
def blockEx : FVal → Nat
  | .fin _ m e => (Int.ofNat (Nat.log2 m) + e + 127).toNat
  | .nan | .inf _ => 0

/-- A finite nonzero value. -/
def FVal.nonzero : FVal → Bool
  | .fin _ m _ => m != 0
  | .nan | .inf _ => false

/-- |x| / Scale(E) rounded to nearest even, and whether it was exact (R38). -/
def blockScale (w e : Nat) : FVal → Nat × Bool
  | .fin _ m ex =>
    let k := ex - (Int.ofNat e - 127 - Int.ofNat (w - 1))
    if 0 ≤ k then (m * 2 ^ k.toNat, true)
    else (roundMag 0 false 0 m (-k).toNat, m % 2 ^ (-k).toNat == 0)
  | .nan | .inf _ => (0, true)

/-- The largest number of a list. -/
def maxList (l : List Nat) : Nat := l.foldl (fun a b => if a < b then b else a) 0

/-- The greatest exponent of nonzero values, raised by one where the largest magnitude rounds to 2^w, at most 254 (R38). -/
def blockTop (w : Nat) (nz : List FVal) : Nat :=
  let e := maxList (nz.map blockEx)
  if nz.any (fun x => (blockScale w e x).1 == 2 ^ w) && decide (e < 254) then e + 1 else e

/-- One element field and whether it rounded inexactly (R38). -/
def blockField (w e0 e1 : Nat) (x : FVal) : Nat × Bool :=
  let mk := fun (sel : Bool) (neg : Bool) (m : Nat) => flag sel * 2 ^ (w + 1) + flag neg * 2 ^ w + m
  match x with
  | .nan => (mk false false 1, false)
  | .inf neg => (mk false neg 0, false)
  | .fin neg m _ =>
    if m = 0 || decide (blockEx x ≤ e1) || e0 == 255 then
      let (q, ex) := blockScale w e1 x
      if q = 2 ^ w then
        if e0 = 255 then (mk true neg (2 ^ w - 1), true)
        else
          let (q0, ex0) := blockScale w e0 x
          (mk false neg (if q0 ≤ 2 ^ w - 1 then q0 else 2 ^ w - 1), !ex || !ex0 || decide (2 ^ w - 1 < q0))
      else (mk true neg q, !ex)
    else
      let (q, ex) := blockScale w e0 x
      (mk false neg (if q ≤ 2 ^ w - 1 then q else 2 ^ w - 1), !ex || decide (2 ^ w - 1 < q))

/-- Pack 32 values into a block: its bytes and the flags (R38). -/
def blockPack (w : Nat) (xs : List FVal) : List Byte × Nat :=
  let isSpec := fun (x : FVal) => match x with
    | .fin _ _ _ => false
    | .nan | .inf _ => true
  let spec := xs.any isSpec
  let nz := xs.filter FVal.nonzero
  let e0 := if spec then 255 else if nz.isEmpty then 0 else blockTop w nz
  let cand := nz.filter fun x => decide (blockEx x + w ≤ e0)
  let e1 := if spec then (if nz.isEmpty then 0 else blockTop w nz)
    else if cand.isEmpty then e0 else maxList (cand.map blockEx)
  let fs := xs.map (blockField w e0 e1)
  let area := (List.range fs.length).foldl (fun acc i => acc + ((fs[i]?).getD (0, false)).1 * 2 ^ (i * (w + 2))) 0
  (bytesOf 1 e0 ++ bytesOf 1 e1 ++ bytesOf (4 * (w + 2)) area, if fs.any (·.2) then flagNx else 0)

/-! ### The formats by code -/

/-- The floating format of an element format code (R32). -/
def fmtOfCode (c : Nat) : Option FFmt :=
  match c with
  | 0 => some fmtF32
  | 1 => some fmtBf16
  | 2 => some fmtF16
  | 3 => some fmtE4m3
  | 4 => some fmtE5m2
  | _ => none

/-- An integer format code: signed and width (R32). -/
def intOfCode (c : Nat) : Option (Bool × Nat) :=
  match c with
  | 5 => some (true, 8)
  | 6 => some (false, 8)
  | 7 => some (true, 4)
  | 8 => some (true, 32)
  | 9 => some (true, 64)
  | _ => none

/-- A block format code: its mantissa width (R32, R36). -/
def blockOfCode (c : Nat) : Option Nat :=
  match c with
  | 10 => some 2
  | 11 => some 4
  | 12 => some 6
  | _ => none

/-- The bits of an element of a format code; 0 for a block format. -/
def elemBits (c : Nat) : Nat :=
  match c with
  | 0 => 32
  | 1 => 16
  | 2 => 16
  | 3 => 8
  | 4 => 8
  | 5 => 8
  | 6 => 8
  | 7 => 4
  | 8 => 32
  | 9 => 64
  | _ => 0

/-! ### Reductions and ADD entries (R141, R156): type 0 i32, 1 i64, 2 n32, 3 n64, 4 f32; operation 0 add, 1 min, 2 max -/

/-- The width in bits of a reduction type. -/
def redWidth (ty : Nat) : Nat := if ty = 1 || ty = 3 then 64 else 32

/-- Fold one operand into a value. -/
def redFold (ty op a b : Nat) : Nat :=
  let w := redWidth ty
  if ty = 4 then
    let x := fmtF32.value (a % 2 ^ 32)
    let y := fmtF32.value (b % 2 ^ 32)
    match op with
    | 0 => (fmtF32.round 0 false 0 (fAdd false x y).1).1
    | 1 => (fmtF32.round 0 false 0 (fMin x y)).1
    | _ => (fmtF32.round 0 false 0 (fMax x y)).1
  else
    let signed := decide (ty < 2)
    let lt := fun (p q : Nat) => if signed then decide (sInt w p < sInt w q) else decide (p % 2 ^ w < q % 2 ^ w)
    match op with
    | 0 => (a + b) % 2 ^ w
    | 1 => (if lt b a then b else a) % 2 ^ w
    | _ => (if lt a b then b else a) % 2 ^ w

/-- The identity of a reduction (R141). -/
def redIdentity (ty op : Nat) : Nat :=
  let w := redWidth ty
  if ty = 4 then
    match op with
    | 0 => 0x80000000
    | 1 => 0x7F800000
    | _ => 0xFF800000
  else
    let signed := decide (ty < 2)
    match op with
    | 0 => 0
    | 1 => if signed then 2 ^ (w - 1) - 1 else 2 ^ w - 1
    | _ => if signed then 2 ^ (w - 1) else 0

end Sys2Proof.Machine
end

