-- ==== Sys2Proof/Machine/Moves.lean ====
section
/-! DEFINITION. Engine descriptors and the runs of bytes that a command moves (R386 to R388). -/

namespace Sys2Proof.Machine

/-- A command's descriptor (R386). For ga and sc, rows is the element size, dstride the bound. -/
structure EngDesc where
  src : Nat
  dst : Nat
  n : Nat
  rows : Nat
  sstride : Nat
  dstride : Nat
  idx : Nat
  status : Nat
  cb : Nat
  spaces : Nat
  rest : Nat
  deriving DecidableEq, Repr

/-- The fields of 48 descriptor bytes. -/
def engDesc (bs : List Byte) : EngDesc :=
  ⟨field bs 0 8, field bs 8 8, field bs 16 4, field bs 20 4, field bs 24 4, field bs 28 4, field bs 32 8, field bs 40 2,
    field bs 42 1, field bs 43 1, field bs 44 4⟩

/-- The space code of the source. -/
def EngDesc.srcSpace (d : EngDesc) : Nat := bits d.spaces 1 0
/-- The space code of the destination. -/
def EngDesc.dstSpace (d : EngDesc) : Nat := bits d.spaces 3 2
/-- The space code of the index list. -/
def EngDesc.idxSpace (d : EngDesc) : Nat := bits d.spaces 5 4
/-- Out-of-range indices are masked rather than fail. -/
def EngDesc.masks (d : EngDesc) : Bool := bitAt d.spaces 6
/-- A status word is present. -/
def EngDesc.hasStatus (d : EngDesc) : Bool := bitAt d.spaces 7
/-- The circular-buffer mode. -/
def EngDesc.cbMode (d : EngDesc) : Nat := bits d.cb 5 4
/-- The source is local: TCM, scratch, or the buffer slot of mode 2 (R386). -/
def EngDesc.srcLocal (d : EngDesc) : Bool := d.srcSpace != 0 || d.cbMode == 2

/-- The bytes of a command's stream (R388). -/
def EngDesc.total (d : EngDesc) : Nat := d.n * d.rows

/-- A run of bytes in one sector of each side: where it stands in the stream, its source, its destination, its length. -/
structure Run where
  pos : Nat
  src : Nat
  dst : Nat
  n : Nat
  deriving DecidableEq, Repr

/-- The bytes left in the sector of an address. -/
def sectorLeft (a : Nat) : Nat := 128 - a % 128

/-- Cut n bytes at sector boundaries of both sides. fuel bounds the number of cuts. -/
def cutRun : Nat → Nat → Nat → Nat → Nat → List Run
  | 0, _, _, _, _ => []
  | fuel + 1, pos, src, dst, n =>
    if n = 0 then []
    else
      let a := if sectorLeft src < sectorLeft dst then sectorLeft src else sectorLeft dst
      let k := if n < a then n else a
      ⟨pos, src, dst, k⟩ :: cutRun fuel (pos + k) ((src + k) % 2 ^ 64) ((dst + k) % 2 ^ 64) (n - k)

/-- An address moved by a signed 32-bit stride, taken r times. -/
def strideAdd (a r st : Nat) : Nat := ((Int.ofNat a + Int.ofNat r * sInt 32 st) % Int.ofNat (2 ^ 64)).toNat

/-- The run of bytes of a copy command that stands at a stream position (R386). -/
def EngDesc.cpRun (d : EngDesc) (dst pos : Nat) : Option Run :=
  if d.n = 0 || decide (d.n * d.rows ≤ pos) then none
  else
    let r := pos / d.n
    let o := pos % d.n
    (cutRun 1 pos ((strideAdd d.src r d.sstride + o) % 2 ^ 64) ((strideAdd dst r d.dstride + o) % 2 ^ 64) (d.n - o)).head?

/-- All runs of a copy command. -/
def EngDesc.cpRuns (d : EngDesc) (dst : Nat) : List Run :=
  ((List.range d.rows).map fun r =>
    cutRun d.n (r * d.n) (strideAdd d.src r d.sstride) (strideAdd dst r d.dstride) d.n).flatten

/-- A collected gather captures its whole local table: its index list is global, and is read at the apply (R389). -/
def EngDesc.wholeTable (d : EngDesc) (kind : Nat) : Bool := kind == 1 && d.srcLocal && d.idxSpace == 0

/-- The local source bytes that a collected command captures. -/
def EngDesc.srcBytes (d : EngDesc) (kind : Nat) : Nat := if d.wholeTable kind then d.dstride * d.rows else d.total

/-- The run of element k of a gather or a scatter under its index. -/
def EngDesc.elemRun (d : EngDesc) (kind dst k i : Nat) : Run :=
  if kind = 1 then ⟨(if d.wholeTable 1 then i else k) * d.rows, (d.src + i * d.rows) % 2 ^ 64, (dst + k * d.rows) % 2 ^ 64, d.rows⟩
  else ⟨k * d.rows, (d.src + k * d.rows) % 2 ^ 64, (dst + i * d.rows) % 2 ^ 64, d.rows⟩

/-- The bytes that a collected command captures: its local source, and its local index list behind it (R157, R389). -/
def EngDesc.payload (d : EngDesc) (kind : Nat) : Nat :=
  (if d.srcLocal then d.srcBytes kind else 0) + (if kind = 0 || d.idxSpace = 0 then 0 else 4 * d.n)

/-- The place in a captured payload of index k of a local list. -/
def EngDesc.idxPos (d : EngDesc) (k : Nat) : Nat := (if d.srcLocal then d.total else 0) + 4 * k

/-- One of the two engines of a core: the gather engine, or the copy engine. -/
def Core.eng (c : Core) (gather : Bool) : Engine := if gather then c.gathEng else c.copyEng

/-- Write it. -/
def Core.setEng (c : Core) (gather : Bool) (e : Engine) : Core := if gather then { c with gathEng := e } else { c with copyEng := e }

/-- The progress figure of a command as its status word gives it: the bytes of its stream that have moved. A command whose captured source is global has moved none (R157, R388). -/
def EngCmd.shown (c : EngCmd) : Nat :=
  let d := engDesc c.desc
  if c.cap.isSome && !d.srcLocal then 0 else Nat.min c.progress d.total

end Sys2Proof.Machine
end

