-- ==== Sys2Proof/Machine/Series.lean ====
section
/-! DEFINITION. Correctly rounded exponential, sine and cosine: fixed-point series with 200 fraction bits, whose sticky last bit leaves every rounding to FP32 right (R202, R203). -/

namespace Sys2Proof.Machine

/-- One in fixed point. -/
def fixOne : Nat := 2 ^ 200
/-- The natural logarithm of 2 in fixed point. -/
def fixLn2 : Nat := 1113844574712631719546256151097547306333272293549090750737802
/-- The number pi in fixed point. -/
def fixPi : Nat := 5048344754617993871973410141242436836214643421488662971535368

/-- The terms of the exponential series from a term on: each is the last times r over k. -/
def expTerms : Nat → Nat → Nat → Nat → Nat
  | 0, _, _, _ => 0
  | fuel + 1, r, k, t => t + expTerms fuel r (k + 1) (t * r / fixOne / (k + 1))

/-- e^(num / 2^200) before rounding; 0 gives exactly 1. -/
def expFix (num : Int) : FVal :=
  if num = 0 then .fin false 1 0
  else
    let k := num / Int.ofNat fixLn2
    let r := (num % Int.ofNat fixLn2).toNat
    .fin false (2 * expTerms 64 r 0 fixOne + 1) (k - 201)

/-- e^v before rounding. A result below the least FP32 value by more than a half rounds to 0, one above the range to infinity. -/
def fExp : FVal → FVal
  | .nan => .nan
  | .inf neg => if neg then .fin false 0 0 else .inf false
  | .fin neg m e =>
    if m = 0 then .fin false 1 0
    else if 8 ≤ Int.ofNat (Nat.log2 m) + e then (if neg then .fin false 1 (-200) else .fin false 1 200)
    else expFix (mantAt neg m (if e < -200 then -200 else e) (-200))

/-- The alternating terms of sine and cosine from a term on: each is the last times r^2 over (k+1)(k+2), of the other sign. -/
def trigTerms : Nat → Nat → Nat → Nat → Int
  | 0, _, _, _ => 0
  | fuel + 1, r2, k, t => Int.ofNat t - trigTerms fuel r2 (k + 2) (t * r2 / fixOne / ((k + 1) * (k + 2)))

/-- The angle of a turn of t parts of 2^32, in fixed point. -/
def turnFix (t : Nat) : Nat := 2 * fixPi * t / 2 ^ 32

/-- A series sum as a value with its sticky bit. -/
def fixVal (i : Int) : FVal := .fin (decide (i < 0)) (2 * i.natAbs + 1) (-201)

/-- The sine of t parts of 2^32 of a turn, t below a quarter. -/
def sinQuarter (t : Nat) : FVal :=
  if t = 0 then .fin false 0 0
  else
    let r := turnFix t
    fixVal (trigTerms 40 (r * r / fixOne) 1 r)

/-- The cosine of t parts of 2^32 of a turn, t below a quarter. -/
def cosQuarter (t : Nat) : FVal :=
  if t = 0 then .fin false 1 0
  else
    let r := turnFix t
    fixVal (trigTerms 40 (r * r / fixOne) 0 fixOne)

/-- The negative of a value; an exact zero stays +0. -/
def negTurn (v : FVal) : FVal :=
  match v with
  | .fin n m e => if m = 0 then .fin false 0 0 else .fin (!n) m e
  | .nan => .nan
  | .inf n => .inf (!n)

/-- Sine and cosine of 2π × phase / 2^32 before rounding (R202). -/
def turnPair (phase : Nat) : FVal × FVal :=
  let t := phase % 2 ^ 30
  let s := sinQuarter t
  let c := cosQuarter t
  match phase / 2 ^ 30 % 4 with
  | 0 => (s, c)
  | 1 => (c, negTurn s)
  | 2 => (negTurn s, negTurn c)
  | _ => (negTurn c, s)

end Sys2Proof.Machine
end

