-- ==== Sys2Proof/Machine/Units.lean ====
section
/-! DEFINITION. Access to the units of the module by number, where they stand, the home of an address, and what an instruction's meaning can answer. -/

namespace Sys2Proof.Machine

/-! ### Units by number -/

/-- A slot. -/
def State.slot (s : State) (k : Nat) : Slot := s.slots.get k Slot.reset
/-- A core. -/
def State.core (s : State) (k : Nat) : Core := s.cores.get k Core.reset
/-- A grove. -/
def State.grove (s : State) (g : Nat) : Grove := s.groves.get g Grove.reset
/-- A stand. -/
def State.stand (s : State) (n : Nat) : Stand := s.stands.get n Stand.reset
/-- A context. -/
def State.ctxOf (s : State) (c : Nat) : Ctx := s.ctxs.get c Ctx.reset
/-- A link. -/
def State.link (s : State) (n : Nat) : Link := s.links.get n Link.reset

/-- Write a slot. -/
def State.setSlot (s : State) (k : Nat) (v : Slot) : State := { s with slots := s.slots.put k v }
/-- Write a core. -/
def State.setCore (s : State) (k : Nat) (v : Core) : State := { s with cores := s.cores.put k v }
/-- Write a grove. -/
def State.setGrove (s : State) (g : Nat) (v : Grove) : State := { s with groves := s.groves.put g v }
/-- Write a stand. -/
def State.setStand (s : State) (n : Nat) (v : Stand) : State := { s with stands := s.stands.put n v }
/-- Write a context. -/
def State.setCtx (s : State) (c : Nat) (v : Ctx) : State := { s with ctxs := s.ctxs.put c v }
/-- Write a link. -/
def State.setLink (s : State) (n : Nat) (v : Link) : State := { s with links := s.links.put n v }
/-- Write a group. -/
def State.setGroup (s : State) (n : Nat) (v : Group) : State := { s with groups := s.groups.put n v }
/-- Write a task. -/
def State.setTask (s : State) (n : Nat) (v : Task) : State := { s with tasks := s.tasks.put n v }

/-- Change a slot. -/
def State.modSlot (s : State) (k : Nat) (f : Slot → Slot) : State := s.setSlot k (f (s.slot k))
/-- Change a core. -/
def State.modCore (s : State) (k : Nat) (f : Core → Core) : State := s.setCore k (f (s.core k))
/-- Change a grove. -/
def State.modGrove (s : State) (g : Nat) (f : Grove → Grove) : State := s.setGrove g (f (s.grove g))
/-- Change a stand. -/
def State.modStand (s : State) (n : Nat) (f : Stand → Stand) : State := s.setStand n (f (s.stand n))
/-- Change a context. -/
def State.modCtx (s : State) (c : Nat) (f : Ctx → Ctx) : State := s.setCtx c (f (s.ctxOf c))
/-- Change a link. -/
def State.modLink (s : State) (n : Nat) (f : Link → Link) : State := s.setLink n (f (s.link n))
/-- Change a group that exists. -/
def State.modGroup (s : State) (n : Nat) (f : Group → Group) : State :=
  match s.groups.find n with
  | some g => s.setGroup n (f g)
  | none => s
/-- Change a task that exists. -/
def State.modTask (s : State) (n : Nat) (f : Task → Task) : State :=
  match s.tasks.find n with
  | some t => s.setTask n (f t)
  | none => s

/-- The core of a slot. -/
def coreOf (k : Nat) : Nat := k / 4
/-- The grove of a core. -/
def groveOfCore (c : Nat) : Nat := c / 8
/-- The grove of a slot. -/
def groveOf (k : Nat) : Nat := k / 32
/-- The slot's number in its core. -/
def slotNo (k : Nat) : Nat := k % 4

/-- The slot whose turn it is. -/
def State.me (s : State) : Slot := s.slot s.cur
/-- The core of that slot. -/
def State.myCore (s : State) : Core := s.core (coreOf s.cur)
/-- The grove of that slot. -/
def State.myGrove (s : State) : Grove := s.grove (groveOf s.cur)
/-- Change the slot whose turn it is. -/
def State.modMe (s : State) (f : Slot → Slot) : State := s.modSlot s.cur f
/-- Change its core. -/
def State.modMyCore (s : State) (f : Core → Core) : State := s.modCore (coreOf s.cur) f
/-- Change its grove. -/
def State.modMyGrove (s : State) (f : Grove → Grove) : State := s.modGrove (groveOf s.cur) f

/-! ### Free values (R5; log 4) -/

/-- The next free 64-bit value, and the state that has used it up. -/
def State.freeWord (s : State) : Word × State := (Config.freeWord s.fresh, { s with fresh := s.fresh + 1 })
/-- The next free choice between two outcomes. -/
def State.freeChoice (s : State) : Bool × State := (Config.freeChoice s.fresh, { s with fresh := s.fresh + 1 })
/-- The next free choice among n outcomes. -/
def State.freeIndex (s : State) (n : Nat) : Nat × State := (Config.freeIndex s.fresh % n, { s with fresh := s.fresh + 1 })

/-- n bytes that are left open, and the state that has used them up. -/
def State.freeBytes (s : State) (n : Nat) : List Byte × State :=
  let k := ceilDiv n 8
  ((((List.range k).map fun i => bytesOf 8 (Config.freeWord (s.fresh + i)).toNat).flatten).take n, { s with fresh := s.fresh + k })

/-! ### Places (R11 to R17) -/

/-- A physical column that holds firmware groves: F to F + W - 1 (R14). -/
def State.fwColumn (s : State) (px : Nat) : Bool := decide (s.fwcol.toNat ≤ px) && decide (px < s.fwcol.toNat + s.fwwidth.toNat)

/-- The 32 physical columns of the user mesh, ascending (R15). -/
def State.userColumns (s : State) : List Nat :=
  ((List.range 34).filter fun px => !s.fwColumn px && (s.fwwidth == 2 || px != s.spare)).take 32

/-- The physical index of a grove (R13). -/
def gridIndex (px py : Nat) : Nat := py * 34 + px

/-- The row whose spare serves a failed grove, and that grove's gx, if the row is remapped (R16). -/
def State.remapOf (s : State) (row : Nat) : Option Nat := PMap.find s.remaps row

/-- The physical grove that serves a logical grove (R15, R16). -/
def State.physGrove (s : State) (gx gy : Nat) : Nat :=
  if s.remapOf gy = some gx then gridIndex s.spare gy
  else gridIndex ((s.userColumns[gx]?).getD 0) gy

/-- The slots of a module, by physical core number times 4 plus slot (R13). -/
def slotCount : Nat := 8 * 4 * 34 * 32

/-- The number, beyond the module's own slots, of the slot that a destination word names on another module of a spanning clearing (R107, R336). -/
def farSlot (grp v : Nat) : Nat := slotCount + grp * 2 ^ 19 + v % 2 ^ 19

/-- The logical coordinates that a physical grove serves; none for a firmware grove, an idle spare and a replaced grove. -/
def State.logical (s : State) (g : Nat) : Option (Nat × Nat) :=
  let px := g % 34
  let py := g / 34
  if s.fwColumn px then none
  else if px = s.spare then (s.remapOf py).map fun gx => (gx, py)
  else match indexOf s.userColumns px with
    | some gx => if s.remapOf py = some gx then none else some (gx, py)
    | none => none

/-- A core of the firmware column. -/
def State.isFw (s : State) (slot : Nat) : Bool := s.fwColumn (groveOf slot % 34)

/-- The stand of logical coordinates (R17). -/
def standOf (gx gy : Nat) : Nat := gy / 4 * 8 + gx / 4

/-- The stand of a slot's grove; firmware and spare groves have none. -/
def State.standOfSlot (s : State) (slot : Nat) : Option Nat :=
  (s.logical (groveOf slot)).map fun p => standOf p.1 p.2

/-- Serving order of groves in one clk: user groves by gy × 32 + gx, then the firmware column by physical index (R94, R129). -/
def State.groveRank (s : State) (g : Nat) : Nat :=
  match s.logical g with
  | some (gx, gy) => gy * 32 + gx
  | none => 1024 + g

/-- Hops between two physical groves (R18, R93). -/
def hops (g h : Nat) : Nat :=
  let ax := g % 34; let ay := g / 34; let bx := h % 34; let byy := h / 34
  (if ax ≤ bx then bx - ax else ax - bx) + (if ay ≤ byy then byy - ay else ay - byy)

/-- The source field of a notice or a record (R152, R211): grove index, core, slot, and the flag of a source outside the user mesh. -/
def State.source (s : State) (slot : Nat) : Nat :=
  let g := groveOf slot
  let low := at_ (coreOf slot % 8) 10 + at_ (slotNo slot) 13
  match s.logical g with
  | some (gx, gy) => gy * 32 + gx + low
  | none => 0x200 + (g / 34 * s.fwwidth.toNat + g % 34 - s.fwcol.toNat) + low + 0x8000

/-! ### Addresses of the module

A place in memory is a number: a device physical address as it is, a loc = 1 physical address with 2^52 added (R205). -/

/-- The first number of a loc = 1 place. -/
def hostBase : Nat := 2 ^ 52

/-- A device-memory place (R65). -/
def isDevice (p : Nat) : Bool := decide (p < 2 ^ 38)

/-- The window groups at the top of the loc = 1 space (R221, R229, R252). -/
inductive Region4
  | device
  | userWindow (g off : Nat)
  | fwWindow (g off : Nat)
  | trace (g off : Nat)
  | bar0 (off : Nat)
  | doorbell (q off : Nat)
  | hostMem (a : Nat)
  | hole
  deriving DecidableEq, Repr

/-- The first number behind the user groves' windows. -/
def traceSpace : Nat := 0xFFE0400000000

/-- The slice whose trace ring is shown at an address of the system space between the two groups of grove windows (R152, log 64). -/
def traceAt (a : Nat) : Option Nat :=
  (List.range (34 * 32)).find? fun g => decide (traceSpace + Config.traceBase g ≤ a) && decide (a < traceSpace + Config.traceBase g + 0x10000)

/-- What a place is. -/
def State.regionOf (s : State) (p : Nat) : Region4 :=
  if p < 2 ^ 38 then .device
  else if p < hostBase then .hole
  else
    let a := p - hostBase
    if 0xFFE0000000000 ≤ a && a < 0xFFE0000000000 + 1024 * 2 ^ 24 then
      let n := (a - 0xFFE0000000000) / 2 ^ 24
      .userWindow (s.physGrove (n % 32) (n / 32)) (a % 2 ^ 24)
    else if 0xFFF0000000000 ≤ a && a < 0xFFF0000000000 + 32 * s.fwwidth.toNat * 2 ^ 24 then
      let n := (a - 0xFFF0000000000) / 2 ^ 24
      .fwWindow (gridIndex (s.fwcol.toNat + n % s.fwwidth.toNat) (n / s.fwwidth.toNat)) (a % 2 ^ 24)
    else if 0xFFFFD00000000 ≤ a && a < 0xFFFFD00000000 + 2 ^ 20 then .bar0 (a - 0xFFFFD00000000)
    else if traceSpace ≤ a && a < 0xFFF0000000000 then
      (match traceAt a with
        | some g => .trace g (a - traceSpace - Config.traceBase g)
        | none => .hostMem a)
    else if 0xFFFFE00000000 ≤ a && a < 0xFFFFE00000000 + 32 * 4096 then
      .doorbell ((a - 0xFFFFE00000000) / 4096) (a % 4096)
    else .hostMem a

/-- F of R64. -/
def foldF (x : Nat) : Nat :=
  bits x 13 10 ^^^ bits x 17 14 ^^^ bits x 21 18 ^^^ bits x 25 22 ^^^ bits x 29 26

/-- The grove that serves the home of a fenced grove: the spare of its row, or the firmware column's grove there while the spare is in use or there is none (R247). -/
def State.standIn (s : State) (g : Nat) : Nat :=
  let row := g / 34
  if s.fwwidth == 1 && (s.remapOf row).isNone then gridIndex s.spare row else gridIndex s.fwcol.toNat row

/-- The home slice of a place by R64, before any fence: interleaved pages, and host-located pages always. -/
def State.homeSlice (s : State) (p : Nat) (inter : Bool) : Nat :=
  let a := p % hostBase
  if inter || !isDevice p then
    let g := bits a 19 10 ^^^ bits a 29 20 ^^^ bits a 37 30
    s.physGrove (g % 32) (g / 32)
  else
    let st := bits a 37 32
    let t := foldF a
    s.physGrove (4 * (st % 8) + t % 4) (4 * (st / 8) + t / 4)

/-- The home of a place as a physical grove (R64, R247). -/
def State.home (s : State) (p : Nat) (inter : Bool) : Nat :=
  let g := s.homeSlice p inter
  if (s.grove g).fenced then s.standIn g else g

/-- The sector of a place (R63). -/
def sectorOf (p : Nat) : Nat := p / 128

/-! ### What a meaning answers -/

/-- A failed check of R208, ready for its record (R211). addr is the effective address, ctxFault asks for the FAULT event of R76. -/
structure XFault where
  ctx : Nat
  addr : Word
  pte : Word
  reason : Nat
  access : Nat
  path : Nat
  level : Nat
  cause : Nat
  ctxFault : Bool
  deriving DecidableEq, Repr

/-- Next record of a source: repeat rises on the same page (R212). -/
def FaultSrc.next (f : FaultSrc) (page : Nat) : FaultSrc :=
  let rep : Half := if f.page = some page then (if f.rep = 0xFFFF then f.rep else f.rep + 1) else 0
  ⟨some page, rep, f.seq + 1, some (f.seq + 1)⟩

/-- The 64 bytes of a record (R211). -/
def recordBytes (f : XFault) (src : Nat) (fs : FaultSrc) (token progress tick : Nat) : List Byte :=
  bytesOf 8 f.addr.toNat ++ bytesOf 8 f.pte.toNat ++ bytesOf 1 f.reason ++ bytesOf 1 f.access ++ bytesOf 1 f.path ++ bytesOf 1 f.level ++
  bytesOf 2 src ++ bytesOf 2 fs.rep.toNat ++ bytesOf 8 token ++ bytesOf 8 progress ++ bytesOf 8 tick ++ bytesOf 2 f.ctx ++
  bytesOf 2 fs.seq.toNat ++ zeros 12

/-- The outcomes of an instruction of a slot. -/
inductive Eff
  /-- complete; the slot goes on after the chain -/
  | next (s : State)
  /-- complete; control goes to a target, under the check of R276 -/
  | jump (s : State) (t : Addr)
  /-- not issued yet: the slot tries again after the next event -/
  | hold (s : State)
  /-- the slot has left its stream (a wait, a suspension, the end of its task) -/
  | left (s : State)
  /-- a trap with its cause, fault.addr and path (R235) -/
  | trap (s : State) (cause : Nat) (addr : Word) (path : Nat)
  /-- a failed translation check (R211) and what fault.addr holds -/
  | xfault (s : State) (f : XFault) (addr : Word)

/-- The causes of R235. -/
def Cause.illegal : Nat := 1
/-- ILLEGAL_CHAIN. -/
def Cause.illegalChain : Nat := 2
/-- PRIVILEGE. -/
def Cause.privilege : Nat := 3
/-- MISALIGNED. -/
def Cause.misaligned : Nat := 4
/-- TRANSLATION. -/
def Cause.translation : Nat := 5
/-- PERMISSION. -/
def Cause.permission : Nat := 6
/-- QUILT_PROTECTION. -/
def Cause.quiltProtection : Nat := 7
/-- POISON. -/
def Cause.poison : Nat := 8
/-- CHECKSUM. -/
def Cause.checksum : Nat := 9
/-- RULE_STRUCTURE. -/
def Cause.ruleStructure : Nat := 10
/-- HAMPER_CAPACITY. -/
def Cause.hamperCapacity : Nat := 11
/-- COLLECT_FORBIDDEN. -/
def Cause.collectForbidden : Nat := 12
/-- COUNTER_UNDERFLOW. -/
def Cause.counterUnderflow : Nat := 13
/-- CB_MISUSE. -/
def Cause.cbMisuse : Nat := 14
/-- FORMAT_CONTEXT. -/
def Cause.formatContext : Nat := 15
/-- MIXED_SIZE. -/
def Cause.mixedSize : Nat := 16
/-- TRAP. -/
def Cause.trap : Nat := 17
/-- ECALL. -/
def Cause.ecall : Nat := 18
/-- EBREAK. -/
def Cause.ebreak : Nat := 19
/-- WATCHDOG. -/
def Cause.watchdog : Nat := 20

end Sys2Proof.Machine
end

