-- ==== Sys2Proof/Machine/Access.lean ====
section
/-! DEFINITION. Accesses at their serialising points: the home of global memory, TCM, scratch and the windows; update-only copies, poison, the store buffer and a collecting slot's own view (R51 to R68, R129, R137 to R142, R159, R245). -/

namespace Sys2Proof.Machine

/-! ### TCM and scratch (R53 to R61) -/

/-- The bytes of a core's TCM. -/
def State.tcmRead (s : State) (core off n : Nat) : List Byte := memRead (s.core core).tcm off n

/-- Write a core's TCM; a word wholly covered loses its poison (R245). -/
def State.tcmWrite (s : State) (core off : Nat) (bs : List Byte) : State :=
  let s1 := s.modCore core fun c => { c with tcm := memWrite c.tcm off bs }
  let g := groveOfCore core
  if (s1.grove g).poisonTcm.isEmpty then s1
  else s1.modGrove g fun gr => { gr with poisonTcm := gr.poisonTcm.filter fun q =>
    !(q.1 == core && decide (off ≤ q.2 * 8) && decide (q.2 * 8 + 8 ≤ off + bs.length)) }

/-- The bytes of a grove's scratchpad. -/
def State.scrRead (s : State) (g off n : Nat) : List Byte := memRead (s.grove g).scratch off n

/-- Write a grove's scratchpad; a word wholly covered loses its poison (R245). -/
def State.scrWrite (s : State) (g off : Nat) (bs : List Byte) : State :=
  s.modGrove g fun gr => { gr with
    scratch := memWrite gr.scratch off bs
    poisonScr := gr.poisonScr.filter fun w => !(decide (off ≤ w * 8) && decide (w * 8 + 8 ≤ off + bs.length)) }

/-- A poisoned word among n bytes of TCM. -/
def State.tcmPoison (s : State) (core off n : Nat) : Bool :=
  (s.grove (groveOfCore core)).poisonTcm.any fun q =>
    q.1 == core && decide (q.2 * 8 < off + n) && decide (off < q.2 * 8 + 8)

/-- A poisoned word among n bytes of scratch. -/
def State.scrPoison (s : State) (g off n : Nat) : Bool :=
  (s.grove g).poisonScr.any fun w => decide (w * 8 < off + n) && decide (off < w * 8 + 8)

/-! ### Registers in address windows (R221, R229, R248, R252) -/

/-- The number of a slot's state in its wait record. -/
def SlotSt.code : SlotSt → Nat
  | .idle => 0
  | .run => 1
  | .waiting => 2
  | .stopped => 3

/-- A byte of a slot's wait record (R248). -/
def State.waitByte (s : State) (slot i : Nat) : Byte :=
  let sl := s.slot slot
  match sl.wait with
  | some w => Config.waitRecord sl.st.code (w.conds.map (·.kind.toNat)) ((w.conds.map (·.addr.toNat)).headD 0) w.start i
  | none => Config.waitRecord sl.st.code [] 0 0 i

/-- The front-end grove that serves claims: role 0 with the lowest row, then the lowest column (R251). -/
def State.frontEnd (s : State) : Nat :=
  let w := s.fwwidth.toNat
  let place := fun (i : Nat) => gridIndex (s.fwcol.toNat + i % w) (i / w)
  match (List.range (32 * w)).find? (fun i => (s.roles[i]?).getD 0 == 0) with
  | some i => place i
  | none => gridIndex s.fwcol.toNat 0

/-- The role code of a firmware grove (R251). -/
def State.roleOf (s : State) (g : Nat) : BitVec 2 :=
  (s.roles[(g / 34) * s.fwwidth.toNat + (g % 34 - s.fwcol.toNat)]?).getD 0

/-- Offsets of a system window that exist: TCM, scratch, wait records, control block (R252). -/
def windowOk (off : Nat) : Bool := decide (off < 0x80000) || (decide (0x100000 ≤ off) && decide (off < 0x200800)) ||
  (decide (0x300000 ≤ off) && decide (off < 0x301000))

/-- A byte of the trace ring (R152). -/
def Grove.traceByte (g : Grove) (i : Nat) : Byte :=
  let w := g.trace.get (i / 16) (0, 0)
  ((bytesOf 8 w.1.toNat ++ bytesOf 8 w.2.toNat)[i % 16]?).getD 0

/-- A byte of a system window (R252). -/
def State.windowByte (s : State) (g off : Nat) : Byte :=
  if off < 0x80000 then memByte (s.core (g * 8 + off / 0x10000)).tcm (off % 0x10000)
  else if off < 0x200000 then memByte (s.grove g).scratch (off - 0x100000)
  else if off < 0x300000 then s.waitByte (g * 32 + (off - 0x200000) / 64) ((off - 0x200000) % 64)
  else if 0x300100 ≤ off && off < 0x300108 && s.fwColumn (g % 34) then
    ((bytesOf 8 (s.roleOf g).toNat)[off - 0x300100]?).getD 0
  else if 0x300180 ≤ off && off < 0x300188 && g == s.frontEnd then
    ((bytesOf 8 s.eventWord.toNat)[off - 0x300180]?).getD 0
  else 0

/-- The report of a link (R218). -/
def Link.report (l : Link) : Nat :=
  at_ l.replays.toNat 32 + at_ l.retrains.toNat 24 + at_ l.width.toNat 16 + at_ l.rate.toNat 8 +
  (match l.st with
    | .down => 0
    | .training => 1
    | .up => 2
    | .degraded => 3
    | .fenced => 4)

/-- A 64-bit register of BAR0 by its offset; none where nothing is listed (R221). -/
def State.barReg (s : State) (off : Nat) : Nat :=
  if off = 0 then s.bootWord.toNat
  else if 0x100 ≤ off && off < 0x180 then
    (if off % 16 = 0 then s.hwBase.get ((off - 0x100) / 16) 0 else s.hwLimit.get ((off - 0x100) / 16) 0).toNat
  else if off = 0x180 then s.eventWord.toNat
  else if 0x200 ≤ off && off < 0x200 + 8 * 14 then (s.link ((off - 0x200) / 8)).report
  else if off = 0x400 then s.mbCmd.toNat
  else 0

/-- A byte of BAR0 (R221). -/
def State.barByte (s : State) (off : Nat) : Byte :=
  if 0x1000 ≤ off && off < 0x2000 then memByte s.mbReq (off - 0x1000)
  else if 0x2000 ≤ off && off < 0x3000 then memByte s.mbResp (off - 0x2000)
  else ((bytesOf 8 (s.barReg (off / 8 * 8)))[off % 8]?).getD 0

/-- The place of a guest queue's descriptor (R227). -/
def State.gqDesc (s : State) (q : Nat) : Nat := s.gqBase.toNat * 2048 + q * 64

/-- A byte of a doorbell: a load returns Concat(read, write) (R229). -/
def State.bellByte (s : State) (q off : Nat) : Byte :=
  if off < 4 then memByte s.mem (s.gqDesc q + 16 + off)
  else if off < 8 then memByte s.mem (s.gqDesc q + 20 + (off - 4))
  else 0

/-- A byte at a place. -/
def State.peekByte (s : State) (p : Nat) : Byte :=
  match s.regionOf p with
  | .device => memByte s.mem p
  | .userWindow g off | .fwWindow g off => s.windowByte g off
  | .trace g off => (s.grove g).traceByte off
  | .bar0 off => s.barByte off
  | .doorbell q off => s.bellByte q off
  | .hostMem a => memByte s.hostMem a
  | .hole => 0

/-- n bytes at a place. -/
def State.peek (s : State) (p n : Nat) : List Byte :=
  if p + n ≤ 2 ^ 38 then memRead s.mem p n else (List.range n).map fun i => s.peekByte (p + i)

/-- Whether the home of a place is interleaved, for a write of the device itself, which names no page: as the sector's dirty copy was made, else stand-local (R64, log 65). -/
def State.interOf (s : State) (p : Nat) : Bool :=
  match s.dirty.find (sectorOf p) with
  | some d => d.inter
  | none => !isDevice p

/-- Keep what a sector's memory holds under the home slice before its first dirty byte (R63, R67). -/
def State.shadow (s : State) (inter : Bool) (sec : Nat) : State :=
  match s.dirty.find sec with
  | some _ => s
  | none => { s with dirty := s.dirty.put sec ⟨s.peek (sec * 128) 128, s.poison.contains sec, inter⟩ }

/-- The sectors that n bytes at a place touch. -/
def sectorsOf (p n : Nat) : List Nat := if n = 0 then [] else span (p / 128) ((p + n - 1) / 128 + 1 - p / 128)

/-- A sector wholly covered by n bytes at a place loses its poison (R245). -/
def State.unpoison (s : State) (p n : Nat) : State :=
  { s with poison := s.poison.filter fun sec => !(decide (p ≤ sec * 128) && decide (sec * 128 + 128 ≤ p + n)) }

/-- The byte of the dirty bitmap that has a sector's bit, while there is a bitmap. A host-located sector has none (R214). -/
def State.bitmapAt (s : State) (sec : Nat) : Option Nat :=
  let p := sec * 128
  if s.pgDirty = 0 || !isDevice p then none else some (s.pgDirty.toNat * 2 ^ 23 + bits p 37 21 * 64 + bits p 20 12 / 8)

/-- The write-back of a sector, if it is dirty (R63); its OR into the dirty bitmap is to come before it is acknowledged (R214). -/
def State.writeBack1 (s : State) (sec : Nat) : State :=
  if (s.dirty.find sec).isNone then s else
  let s1 := { s with dirty := s.dirty.drop sec }
  match s1.bitmapAt sec with
  | none => s1
  | some _ => { s1 with wbOrs := s1.wbOrs ++ [sec] }

/-- The slice that takes a dirty sector, a fenced grove's stand-in among them, has room for 512 lines of 8 sectors (R20); where none is left for the sector's line, a line of its own choice is written back first (R63). -/
def State.makeRoom (s : State) (inter : Bool) (sec : Nat) : State :=
  if s.dirty.length < 512 then s
  else
    let home := s.home (sec * 128) inter
    let here := s.dirty.filter fun q => s.home (q.1 * 128) q.2.inter == home
    let lines := nub (here.map fun q => q.1 / 8)
    if lines.contains (sec / 8) || decide (lines.length < 512) then s
    else
      let (i, s1) := s.freeIndex lines.length
      let line := (lines[i]?).getD 0
      ((here.map (·.1)).filter fun q => q / 8 == line).foldl State.writeBack1 s1

/-- A sector is held dirty from its first written byte on. -/
def State.makeDirty (s : State) (inter : Bool) (sec : Nat) : State := (s.makeRoom inter sec).shadow inter sec

/-- A write covers bytes: none of them is undefined by what went before it, nor the last store of a slot (R138). -/
def State.covered (s : State) (p n : Nat) : State :=
  { s with
    strong := s.strong.filter fun q => !(decide (p ≤ q.1) && decide (q.1 < p + n))
    undef := s.undef.filter fun q => !(decide (p ≤ q.1) && decide (q.1 < p + n)) }

/-- Write device memory through the home: the sector becomes dirty, the halves that the host holds are invalidated, and a sector wholly covered loses its poison (R63, R222, R245). -/
def State.devWrite (s : State) (p : Nat) (inter : Bool) (bs : List Byte) : State :=
  let s1 := (sectorsOf p bs.length).foldl (fun st sec => st.makeDirty inter sec) s
  let s2 := { s1 with
    mem := memWrite s1.mem p bs
    hostHeld := s1.hostHeld.filter fun h => !(decide (p < h * 64 + 64) && decide (h * 64 < p + bs.length)) }
  (s2.covered p bs.length).unpoison p bs.length

/-- Write host memory at its home slice, which holds the sector dirty (R63, R222). a is the host address of the place p. -/
def State.hostPut (s : State) (p a : Nat) (bs : List Byte) : State :=
  let s1 := (sectorsOf p bs.length).foldl (fun st sec => st.makeDirty true sec) s
  ({ s1 with hostMem := memWrite s1.hostMem a bs }.covered p bs.length).unpoison p bs.length

/-- The mailbox's command is ATTEST, which the IO die serves alone: firmware changes neither its report nor its status (R221). -/
def State.mbAttest (s : State) : Bool := s.mbCmd.toNat % 2 ^ 16 == 1

/-- A store to the mailbox side of BAR0 from the firmware column: the response bytes, the event word, and the status in bits 62 to 56 that completes a firmware-defined command (R221). -/
def State.barWrite (s : State) (off : Nat) (bs : List Byte) : State :=
  let whole := bs.length = 8 ∧ off % 8 = 0 ∨ bs.length = 4 ∧ off % 4 = 0
  if 0x2000 ≤ off && off < 0x3000 then (if s.mbAttest then s else { s with mbResp := memWrite s.mbResp (off - 0x2000) bs })
  else if 0x180 ≤ off && off < 0x188 && decide whole then
    { s with eventWord := BitVec.ofNat 64 (natOf (patch (bytesOf 8 s.eventWord.toNat) (off - 0x180) bs)) }
  else if (off = 0x404 || (off = 0x400 && bs.length = 8)) && decide whole && bitAt s.mbCmd.toNat 63 && !s.mbAttest then
    let st := if off = 0x404 then bits (natOf bs) 30 24 else bits (natOf bs) 62 56
    let v := s.mbCmd.toNat % 2 ^ 56 + at_ st 56
    { s with mbCmd := BitVec.ofNat 64 v, vectors := s.vectors ++ [bits v 31 16] }
  else s

/-- A doorbell store: only while the queue is ACTIVE; write is clamped to read + 2^lgsize (R229). -/
def State.bellWrite (s : State) (q : Nat) (bs : List Byte) : State :=
  let d := s.gqDesc q
  if s.gqBase = 0 || memByte s.mem (d + 9) != 1 then s
  else
    let rd := natOf (memRead s.mem (d + 20) 4)
    let size := 2 ^ (memByte s.mem (d + 8)).toNat
    let v := natOf (bs.take 4)
    let ahead := (v + 2 ^ 32 - rd) % 2 ^ 32
    s.devWrite (d + 16) (s.interOf (d + 16)) (bytesOf 4 (if size < ahead then (rd + size) % 2 ^ 32 else v))

/-- A store into a system window (R252). -/
def State.windowWrite (s : State) (g off : Nat) (bs : List Byte) : State :=
  if off < 0x80000 then s.tcmWrite (g * 8 + off / 0x10000) (off % 0x10000) bs
  else if off < 0x200000 then s.scrWrite g (off - 0x100000) bs
  else if 0x300180 ≤ off && off + bs.length ≤ 0x300188 && g == s.frontEnd then
    { s with eventWord := BitVec.ofNat 64 (natOf (patch (bytesOf 8 s.eventWord.toNat) (off - 0x300180) bs)) }
  else s

/-- Write bytes at a place that lies in one region; inter says whether its home is interleaved. -/
def State.poke (s : State) (p : Nat) (inter : Bool) (bs : List Byte) : State :=
  match s.regionOf p with
  | .device => s.devWrite p inter bs
  | .userWindow g off | .fwWindow g off => s.windowWrite g off bs
  | .bar0 off => s.barWrite off bs
  | .doorbell q _ => s.bellWrite q bs
  | .hostMem a => s.hostPut p a bs
  | .trace _ _ | .hole => s

/-- A poisoned unit among n bytes at a place (R245). -/
def State.poisoned (s : State) (p n : Nat) : Bool :=
  match s.regionOf p with
  | .device | .hostMem _ => (sectorsOf p n).any s.poison.contains
  | .userWindow g off | .fwWindow g off =>
    if off < 0x80000 then s.tcmPoison (g * 8 + off / 0x10000) (off % 0x10000) n
    else if off < 0x200000 then s.scrPoison g (off - 0x100000) n
    else false
  | .trace _ _ | .bar0 _ | .doorbell _ _ | .hole => false

/-- The bytes at a place with those of a poisoned unit marked (R222, R245). -/
def State.peekMarked (s : State) (p n : Nat) : List (Option Byte) :=
  (List.zip (List.range n) (s.peek p n)).map fun q => if s.poisoned (p + q.1) 1 then none else some q.2

/-- The completion that carries bytes. -/
def markedReply (bs : List (Option Byte)) : Reply :=
  if bs.all Option.isSome then .data (bs.map fun b => b.getD 0) else .poison bs

/-! ### Update-only copies (R141, R142) -/

/-- A core holds elements of a sector. -/
def Core.holdsUpd (c : Core) (sec : Nat) : Bool := c.upd.any fun e => sectorOf e.pa == sec

/-- The cores that hold a sector update-only. -/
def State.updHolders (s : State) (sec : Nat) : List Nat :=
  (s.cores.filter fun q => q.2.holdsUpd sec).map (·.1)

/-- Combine one element into its home value (R142): the reductions in it were counted as they were issued (R138). -/
def State.combineElem (s : State) (e : UpdElem) : State :=
  let n := redWidth e.ty.toNat / 8
  { s.poke e.pa e.inter (bytesOf n (redFold e.ty.toNat e.op.toNat (natOf (s.peek e.pa n)) e.val.toNat)) with strong := s.strong, undef := s.undef }

/-- A line of the trace ring of a home slice (R152). The size of a write whose length is no power of two is given by the floor of its log2 (DESIGN CHOICE, log 99). -/
def State.traceAdd (s : State) (home kind size p src : Nat) : State :=
  let g := s.grove home
  if !g.trEn || (g.trFilt && g.trRegion.toNat != bits (p % hostBase) 51 21) then s
  else
    let w0 := BitVec.ofNat 64 (s.tick.toNat + at_ src 48)
    let w1 := BitVec.ofNat 64 (at_ kind 60 + at_ (Nat.log2 size) 57 + p % hostBase)
    s.setGrove home { g with trace := g.trace.put g.trHead.toNat (w0, w1), trHead := g.trHead + 1 }

/-- Recall one core's copy of a sector and combine it at the home. The copy belongs to a core, and its trace lines name slot 0 of that core (DESIGN CHOICE, log 100). -/
def State.combineCopy (s : State) (core sec : Nat) : State :=
  let c := s.core core
  let mine := c.upd.filter fun e => sectorOf e.pa == sec
  let s1 := s.setCore core { c with upd := c.upd.filter fun e => sectorOf e.pa != sec }
  mine.foldl (fun st e => (st.combineElem e).traceAdd (st.home e.pa e.inter) 2 (redWidth e.ty.toNat / 8) e.pa (st.source (core * 4))) s1

/-- Combine the copies of the listed cores in an order that is a free choice (R142): fuel is their number. -/
def State.combineAll (s : State) (sec : Nat) : Nat → List Nat → State
  | 0, _ => s
  | k + 1, cores =>
    match cores with
    | [] => s
    | [c] => s.combineCopy c sec
    | c :: rest =>
      let (i, s1) := s.freeIndex (rest.length + 1)
      let pick := ((c :: rest)[i]?).getD c
      State.combineAll (s1.combineCopy pick sec) sec k (cores.filter (· != pick))

/-- A line that the guest holds modified is snooped by any other access to its sector: the module's memory already has its bytes (R231). -/
def State.snoop (s : State) (sec : Nat) : State :=
  if s.guest.held.isEmpty then s
  else { s with guest := { s.guest with held := s.guest.held.filter fun q => q.1 != sec } }

/-- Any other access to a sector held update-only first recalls and combines every copy (R142), and takes a line back from the guest. -/
def State.recall (s0 : State) (sec : Nat) : State :=
  let s := s0.snoop sec
  let hs := s.updHolders sec
  if hs.isEmpty then s else s.combineAll sec hs.length hs

/-- Recall every sector of a range. -/
def State.recallRange (s : State) (p n : Nat) : State := (sectorsOf p n).foldl State.recall s

/-- Drop every copy of a sector unmerged (R67). -/
def State.dropUpd (s : State) (sec : Nat) : State :=
  (s.updHolders sec).foldl (fun st c => st.modCore c fun k => { k with upd := k.upd.filter fun e => sectorOf e.pa != sec }) s

/-! ### Locks and monitors (R124, R139) -/

/-- A sector is locked by a commit (R139). -/
def State.lockedSec (s : State) (sec : Nat) : Bool := s.commits.any fun c => c.held.contains sec

/-- Some sector of a range is locked. -/
def State.locked (s : State) (p n : Nat) : Bool := !s.commits.isEmpty && (sectorsOf p n).any s.lockedSec

/-- A condition watches a sector through the monitor table (R124). -/
def Cond.watches (c : Cond) (sec : Nat) : Bool :=
  !c.polled && (c.kind == 0 || c.kind == 1 || c.kind == 3 || c.kind == 6) && sectorOf c.pa == sec

/-- A notice of a sector reaches a wait: its conditions on that sector are to be evaluated again (R124). -/
def Wait.noticed (w : Wait) (sec : Nat) : Wait :=
  { w with conds := w.conds.map fun c => if c.watches sec then { c with note := true } else c }

/-- A signalled store or atomic at a sector sends a notice to the waits that watch it (R124). -/
def State.notify (s : State) (sec : Nat) : State :=
  { s with
    slots := s.slots.map fun q => (q.1, { q.2 with wait := q.2.wait.map fun w => w.noticed sec })
    groves := s.groves.map fun q => (q.1, { q.2 with
      parks := q.2.parks.map fun pk => { pk with wait := pk.wait.noticed sec } }) }

/-- The OR of a write-back into the dirty bitmap, at the bit's home: it waits at a locked sector, and recalls update-only copies (R139, R142, R214). -/
def State.orBit (s : State) (sec : Nat) : State :=
  match s.bitmapAt sec with
  | none => s
  | some a =>
    if s.locked a 1 then { s with wbOrs := s.wbOrs ++ [sec] }
    else
      let s1 := s.recallRange a 1
      s1.devWrite a (s1.interOf a) (bytesOf 1 ((memByte s1.mem a).toNat ||| 2 ^ (bits (sec * 128) 20 12 % 8)))

/-- The ORs of the write-backs so far perform where they can. -/
def State.orsOut (s : State) : State := if s.wbOrs.isEmpty then s else s.wbOrs.foldl State.orBit { s with wbOrs := [] }

/-! ### Stores and loads of the core path -/

/-- Perform a global store at its home: recall, write, trace, notice (R62, R124, R130, R152). -/
def State.perform (s : State) (slot p : Nat) (inter : Bool) (bs : List Byte) (sig : Bool) (kind : Nat) : State :=
  let s1 := s.recallRange p bs.length
  let s2 := (s1.poke p inter bs).traceAdd (s1.home p inter) kind bs.length p (s1.source slot)
  if sig then s2.notify (sectorOf p) else s2

/-! ### Unordered accesses of different sizes (R134, R138, log 19) -/

/-- An access of a slot with a size is unordered with a performed store, and of another size: another slot made it, and has not released since, or the slot has not acquired since that release. -/
def Strong.clashes (m : Strong) (slot n : Nat) : Bool := m.slot != slot && m.n != n && !(m.rel && m.seen.contains slot)

/-- A byte of a range lies in a buffered store. -/
def Stored.has (st : Stored) (a : Nat) : Bool := decide (st.pa ≤ a) && decide (a < st.pa + st.bytes.length)

/-- The other slots with a buffered store of another size at a byte: it has not performed, so that nothing orders it. -/
def State.bufferedAt (s : State) (slot n a : Nat) : List Nat :=
  (s.slots.filter fun q => q.1 != slot && q.2.sbuf.any fun st => st.has a && st.bytes.length != n).map (·.1)

/-- An access of n bytes makes a byte of it undefined. -/
def State.mixedByte (s : State) (slot n a : Nat) : Bool :=
  (match s.strong.find a with
    | some m => m.clashes slot n
    | none => false) || !(s.bufferedAt slot n a).isEmpty

/-- No byte of an access is undefined, by what went before or by the access itself. -/
def State.unmixed (s : State) (slot p n : Nat) : Bool :=
  (s.undef.isEmpty && s.strong.isEmpty && s.slots.all fun q => q.1 == slot || q.2.sbuf.isEmpty) ||
  (span p n).all fun a => (s.undef.find a).isNone && !s.mixedByte slot n a

/-- The bytes that an access makes undefined are so for every read until a later store covers them. -/
def State.mixMark (s : State) (slot p n : Nat) : State :=
  { s with undef := ((span p n).filter (s.mixedByte slot n)).foldl (fun m a => m.put a (s.bufferedAt slot n a)) s.undef }

/-- A read of n bytes by the slot in turn: those that R138 leaves undefined and that no buffered store of its own covers are free. bs are the bytes from base on. -/
def State.strongRead (s : State) (p n base : Nat) (bs : List Byte) : List Byte × State :=
  if s.unmixed s.cur p n then (bs, s)
  else
    let s1 := s.mixMark s.cur p n
    let bad := fun (a : Nat) => decide (p ≤ a) && decide (a < p + n) && (s1.undef.find a).isSome && !(s.me.sbuf.any fun st => st.has a)
    let (free, s2) := s1.freeBytes bs.length
    ((List.range bs.length).map fun i => if bad (base + i) then (free[i]?).getD 0 else (bs[i]?).getD 0, s2)

/-- Whether a byte is undefined behind a core-path store of a slot that covers it, and the slots whose buffered stores take part then. -/
def State.undefAfter (s : State) (slot n a : Nat) : Option (List Nat) :=
  if s.mixedByte slot n a then some (s.bufferedAt slot n a)
  else match s.undef.find a with
    | some l => if !l.contains slot then none else some (if (s.slot slot).sbuf.any fun e => e.has a then l else l.filter (· != slot))
    | none => none

/-- What a core-path store of n bytes leaves behind at its home, from the state before it performed: the bytes on which it met an unordered access of another size are undefined, and so stay those on which another access met it while it was buffered. -/
def State.strongDone (s before : State) (slot p n : Nat) : State :=
  match s.regionOf p with
  | .device | .hostMem _ =>
    { s with
      undef := (span p n).foldl (fun m a => match before.undefAfter slot n a with
        | some l => m.put a l
        | none => m) s.undef
      strong := (span p n).foldl (fun m a => m.put a ⟨n, slot, false, []⟩) s.strong }
  | .userWindow _ _ | .fwWindow _ _ | .trace _ _ | .bar0 _ | .doorbell _ _ | .hole => s

/-- Perform a core-path store or atomic of a slot. -/
def State.strongPut (s : State) (slot p : Nat) (inter : Bool) (bs : List Byte) (sig : Bool) (kind : Nat) : State :=
  (s.perform slot p inter bs sig kind).strongDone s slot p bs.length

/-- A release of a slot: what it has stored happens before whatever acquires from now on. Which acquire observes the release is not looked at (log 19). -/
def State.released (s : State) (slot : Nat) : State :=
  { s with strong := s.strong.map fun q => (q.1, if q.2.slot = slot && !q.2.rel then { q.2 with rel := true, seen := [] } else q.2) }

/-- An acquire of a slot: what has been released happens before what it does from now on. -/
def State.acquired (s : State) (slot : Nat) : State :=
  { s with strong := s.strong.map fun q => (q.1, if q.2.rel && !q.2.seen.contains slot then { q.2 with seen := q.2.seen ++ [slot] } else q.2) }

/-- Perform the first buffered store of a slot that meets a test; the same location is never overtaken since the first is taken. -/
def State.performFirst (s : State) (slot : Nat) (st : Stored) : State :=
  let sl := s.slot slot
  (s.setSlot slot { sl with sbuf := sl.sbuf.drop 1 }).strongPut slot st.pa st.inter st.bytes st.sig 0

/-- Drain a slot's store buffer in program order: fuel is its length; none while a locked sector blocks it (R132, R139). -/
def State.drainGo (s : State) (slot : Nat) : Nat → Option State
  | 0 => some s
  | k + 1 =>
    match (s.slot slot).sbuf with
    | [] => some s
    | st :: _ => if s.locked st.pa st.bytes.length then none else State.drainGo (s.performFirst slot st) slot k

/-- Every earlier global store of a slot performs. -/
def State.drainAll (s : State) (slot : Nat) : Option State := s.drainGo slot (s.slot slot).sbuf.length

/-- The same for a fence or a release, which orders them before what comes after it (R132, R133). -/
def State.drain (s : State) (slot : Nat) : Option State := (s.drainAll slot).map fun t => t.released slot

/-- Bytes that a slot's buffered stores hold of a range, the youngest last, over the bytes beneath (R130 forwarding). -/
def forwardBytes (buf : List Stored) (p : Nat) (under : List Byte) : List Byte :=
  buf.foldl (fun acc st =>
    (List.range acc.length).map fun i =>
      let a := p + i
      if st.pa ≤ a && a < st.pa + st.bytes.length then (st.bytes[a - st.pa]?).getD 0 else (acc[i]?).getD 0) under

/-- What a slot's core path reads of a place: its own buffered stores over performed memory (R129, R130). -/
def State.slotBytes (s : State) (slot p n : Nat) : List Byte := forwardBytes (s.slot slot).sbuf p (s.peek p n)

/-- A new global store of a slot enters its buffer of 8 sector entries; a full buffer performs its oldest stores first (R62). none while a lock blocks it. -/
def State.bufferStore (s : State) (slot : Nat) (st : Stored) : Option State :=
  let sl := s.slot slot
  let secs := nub (sl.sbuf.map fun e => sectorOf e.pa)
  if secs.contains (sectorOf st.pa) || decide (secs.length < 8) then
    some (s.setSlot slot { sl with sbuf := sl.sbuf ++ [st] })
  else match s.drainAll slot with
    | some s1 => some (s1.modSlot slot fun q => { q with sbuf := q.sbuf ++ [st] })
    | none => none

/-! ### The device's own accesses at a locked sector (R139) -/

/-- A place of host memory whose link stands in a state. -/
def State.hostLinkIn (s : State) (p : Nat) (f : LinkSt → Bool) : Bool :=
  match s.regionOf p with
  | .hostMem _ => f (s.link 0).st
  | .device | .userWindow _ _ | .fwWindow _ _ | .trace _ _ | .bar0 _ | .doorbell _ _ | .hole => false

/-- The device's accesses to a range wait: a commit holds a sector of it, or the host link trains (R139, R223). -/
def State.mustWait (s : State) (p n : Nat) : Bool := s.locked p n || s.hostLinkIn p (· == .training)

/-- A host window holds an access wholly (R254). -/
def State.inWindow (s : State) (a n : Nat) : Bool :=
  (List.range 8).any fun i => decide ((s.hwBase.get i 0).toNat ≤ a) && decide (a + n ≤ (s.hwLimit.get i 0).toNat)

/-- The reason and cause for which an access to host memory is refused as it reaches the IO die: outside the windows in force, or behind a link that is DOWN or FENCED (R223, R254). -/
def State.hostRefused (s : State) (p n : Nat) : Option (Nat × Nat) :=
  match s.regionOf p with
  | .hostMem a =>
    if !s.inWindow a n then some (2, Cause.permission)
    else if (s.link 0).st == .down || (s.link 0).st == .fenced then some (4, Cause.poison)
    else none
  | .device | .userWindow _ _ | .fwWindow _ _ | .trace _ _ | .bar0 _ | .doorbell _ _ | .hole => none

/-- A late write performs. One to host memory that is refused as it reaches the IO die is not written; that of a guest queue is kept for its record, and one of the device itself, for which R211 names no source, leaves none (DESIGN CHOICE, log 62). -/
def State.latePut (s : State) (l : Late) : State :=
  match s.hostRefused l.st.pa l.st.bytes.length with
  | some (reason, cause) =>
    (match l.src with
      | some src => { s with guestBad := s.guestBad ++ [⟨src, reason, cause⟩] }
      | none => s)
  | none =>
    match l.slot with
    | some k => s.strongPut k l.st.pa l.st.inter l.st.bytes l.st.sig 0
    | none =>
    let s1 := (s.recallRange l.st.pa l.st.bytes.length).poke l.st.pa l.st.inter l.st.bytes
    if l.st.sig then s1.notify (sectorOf l.st.pa) else s1

/-- Writes that waited at sectors which are no longer locked perform, in their order. -/
def State.flushLate (s : State) : State :=
  s.late.foldl (fun st l =>
    if st.mustWait l.st.pa l.st.bytes.length then { st with late := st.late ++ [l] } else st.latePut l) { s with late := [] }

/-- A write of the device: it performs, or waits for the unlock of a sector that a commit holds, or for a link that trains. -/
def State.lateWrite (s : State) (l : Late) : State :=
  if s.mustWait l.st.pa l.st.bytes.length then { s with late := s.late ++ [l] } else s.latePut l

/-- Perform the slot's buffered stores to some sectors, in program order (R130: same location). -/
def State.drainSecs (s : State) (slot : Nat) (secs : List Nat) : State :=
  let sl := s.slot slot
  let mine := sl.sbuf.filter fun e => secs.contains (sectorOf e.pa)
  let s1 := s.setSlot slot { sl with sbuf := sl.sbuf.filter fun e => !secs.contains (sectorOf e.pa) }
  mine.foldl (fun st e => st.strongPut slot e.pa e.inter e.bytes e.sig 0) s1

/-- What the device reads at a place: its home after a recall, with the device's own writes that still wait there. -/
def State.devRead (s : State) (p n : Nat) : List Byte :=
  let under := (s.recallRange p n).peek p n
  if s.late.isEmpty then under else forwardBytes (s.late.map (·.st)) p under

/-- A commit's locks are released, and the writes that waited for them perform. -/
def State.unlock (s : State) (key : Nat) : State :=
  if s.commits.any fun c => c.task == key then { s with commits := s.commits.filter fun c => c.task != key }.flushLate else s

/-! ### A collecting slot's own view (R154, R159) -/

/-- A slot is in collecting mode while its stack is not empty; a class C or T task always is (R154). -/
def Slot.collecting (sl : Slot) : Bool := !sl.stack.isEmpty || sl.taskH.isSome

/-- A class C or T task. -/
def Slot.classCT (sl : Slot) : Bool := sl.task.isSome && (sl.cls == 1 || sl.cls == 2)

/-- The effective address of an entry (R164). -/
def HEntry.ea (e : HEntry) : Addr := e.addr + e.off

/-- The STORE entries of single words that an entry stands for: itself, but for the one of a collected tk.dep, whose mask bits [11:8] add the 4 bytes below its word, as zeros, to the word (R339, log 55). -/
def HEntry.words (e : HEntry) : List HEntry :=
  if e.kind == 0 && e.par.getLsbD 8 then
    [{ e with par := 0xF0, addr := e.addr - 8, val := 0 }, { e with par := 0xFF }]
  else [e]

/-- One entry applied to the 8 bytes of a word (R156, R159): STORE, SIGNAL and FILL replace bytes, ADD folds, DEP takes one from the count of its counter and marks it fired at zero (R87). -/
def HEntry.onWord1 (e : HEntry) (word : Nat) (bs : List Byte) : List Byte :=
  if e.ea.toNat / 8 ≠ word then bs
  else
    let k := e.kind.toNat
    if k = 0 || k = 5 then
      (List.range 8).map fun i => if e.par.getLsbD i then (e.val.extractLsb' (8 * i) 8) else (bs[i]?).getD 0
    else if k = 4 then bytesOf 8 e.val.toNat
    else if k = 1 then
      let ty := (e.par.extractLsb' 0 3).toNat
      let n := redWidth ty / 8
      let off := e.ea.toNat % 8
      patch bs off (bytesOf n (redFold ty (e.par.extractLsb' 4 2).toNat (field bs off n) e.val.toNat))
    else if k = 3 then
      let c := field bs 0 4
      if c = 0 then bs else patch bs 0 (bytesOf 4 (c - 1) ++ (if c = 1 then [1] else []))
    else bs

/-- An entry with all that it stands for applied to a word. -/
def HEntry.onWord (e : HEntry) (word : Nat) (bs : List Byte) : List Byte := e.words.foldl (fun acc o => o.onWord1 word acc) bs

/-! ### Signatures (R147) -/

/-- The two signature bits of a sector. -/
def sigBits (p : Nat) : Nat × Nat :=
  let x := bits (p % hostBase) 51 7
  ((x ^^^ (x / 2 ^ 11) ^^^ (x / 2 ^ 22) ^^^ (x / 2 ^ 33)) % 2048,
   ((x / 2 ^ 5) ^^^ (x / 2 ^ 16) ^^^ (x / 2 ^ 27) ^^^ (x / 2 ^ 38)) % 2048)

/-- Set the bits of a sector. -/
def sigSet (sig : BitVec 2048) (p : Nat) : BitVec 2048 :=
  let (a, b) := sigBits p
  sig ||| (1#2048 <<< a) ||| (1#2048 <<< b)

/-- A sector matches a signature when both bits are set (R147). -/
def sigHas (sig : BitVec 2048) (p : Nat) : Bool :=
  let (a, b) := sigBits p
  sig.getLsbD a && sig.getLsbD b

/-- A read of a global place by a class T task sets its sectors' bits (R147). -/
def State.sigRead (s : State) (slot p n : Nat) : State :=
  let sl := s.slot slot
  if sl.task.isSome && sl.cls == 2 then
    s.setSlot slot { sl with sig := (sectorsOf p n).foldl (fun acc sec => sigSet acc (sec * 128)) sl.sig }
  else s

end Sys2Proof.Machine
end

