-- ==== Sys2Proof/Machine/Walk.lean ====
section
/-! DEFINITION. Page-table walks, TLBs and the checks of an access (R204 to R209, R223, R229, R252, R254). -/

namespace Sys2Proof.Machine

/-! ### The walk (R204 to R206) -/

/-- Where a walk ends. -/
inductive WalkRes
  /-- a well-formed leaf: the entry, its level, the page size -/
  | leaf (pte : Nat) (level : Nat) (size : Nat)
  /-- reason 1 or 3, the entry value, the level -/
  | bad (reason : Nat) (pte : Nat) (level : Nat)
  /-- a poisoned table page (R76) -/
  | poison (level : Nat)
  /-- an entry lies in a sector that a commit has locked (R139) -/
  | wait
  deriving DecidableEq, Repr

/-- The page that a leaf at a level maps (R204). -/
def pageSize (level : Nat) : Nat := if level = 2 then 2 ^ 30 else if level = 3 then 2 ^ 21 else 4096

/-- A leaf is malformed (R206). -/
def badLeaf (pte level : Nat) : Bool :=
  bits pte 63 54 != 0 || bits pte 9 8 == 3 || level == 1 || bits pte 51 0 / 4096 * 4096 % pageSize level != 0 ||
  (bitAt pte 2 && !bitAt pte 1) || (bitAt pte 4 && bitAt pte 5) || (level != 4 && bitAt pte 7) ||
  (!bitAt pte 11 && decide (2 ^ 38 ≤ bits pte 51 12 * 4096))

/-- A table entry is malformed: only V and the address may be set, and it points into device memory (R205, R206). -/
def badTable (pte : Nat) : Bool :=
  bits pte 63 52 != 0 || bits pte 11 1 != 0 || decide (2 ^ 38 ≤ bits pte 51 12 * 4096)

/-- What an entry of a level is: its result, or the table of the next level. The entry value of reason 1 at level 1 is 0 (R211). -/
def entryIs (pte level : Nat) : WalkRes ⊕ Nat :=
  if !bitAt pte 0 then .inl (.bad 1 (if level = 1 then 0 else pte) level)
  else if bitAt pte 6 then .inl (if badLeaf pte level then .bad 3 pte level else .leaf pte level (pageSize level))
  else if level = 4 || badTable pte then .inl (.bad 3 pte level)
  else .inr (bits pte 51 12 * 4096)

/-- Walk the levels that are left, the first of them given with its table: the result, the address of the last entry read, and the state, since each entry is read at its home slice, which first recalls update-only copies (R142, R204). -/
def State.walkFrom (va : Nat) : List Nat → Nat → State → WalkRes × Nat × State
  | [], table, s => (.bad 3 0 4, table, s)
  | level :: rest, table, s =>
    let a := table + bits va (56 - 9 * level) (48 - 9 * level) * 8
    if s.locked a 8 then (.wait, a, s)
    else
      let s1 := s.recall (sectorOf a)
      if s1.poison.contains (sectorOf a) then (.poison level, a, s1)
      else match entryIs (natOf (memRead s1.mem a 8)) level with
        | .inl r => (r, a, s1)
        | .inr t => State.walkFrom va rest t s1

/-- The walk of a virtual address in a context, from the page table of the last COMMIT or RESUME (R70). A context with none has no valid entry. -/
def State.walk (s : State) (ctx va : Nat) : WalkRes × Nat × State :=
  let root := (s.ctxOf ctx).ptroot
  if root = 0 then (.bad 1 0 1, 0, s) else State.walkFrom va [1, 2, 3, 4] root s

/-! ### TLBs (R209) -/

/-- A TLB entry answers for an address. -/
def TlbEntry.hits (e : TlbEntry) (ctx va : Nat) : Bool :=
  decide (e.ctx = ctx) && decide (e.va ≤ va) && decide (va < e.va + e.size)

/-- The entry of a list that answers. -/
def tlbFind (l : List TlbEntry) (ctx va : Nat) : Option TlbEntry := l.find? (fun e => e.hits ctx va)

/-- A new entry, the oldest dropped above the capacity (log 10). -/
def tlbAdd (l : List TlbEntry) (cap : Nat) (e : TlbEntry) : List TlbEntry :=
  (e :: l.filter (fun o => !(o.ctx == e.ctx && o.va == e.va))).take cap

/-- The TLBs of a core with a translation in them. -/
def State.tlbFill (s : State) (core : Nat) (fetch : Bool) (e : TlbEntry) : State :=
  let s1 := s.modCore core fun c =>
    if fetch then { c with itlb := tlbAdd c.itlb 64 e } else { c with dtlb := tlbAdd c.dtlb 256 e }
  s1.modGrove (groveOfCore core) fun g => { g with l2tlb := tlbAdd g.l2tlb 4096 e }

/-- A C64 entry of a group as the translation of the page numbered own in it: the aligned 64 KiB that the entry's frame lies in, with that page's place in it (R207; DESIGN CHOICE, log 89). -/
def c64View (own pte : Nat) : Nat := pte - bits pte 15 12 * 4096 + own * 4096

/-- The translations that a TLB may hold for a page: its own leaf, and each of the 16 entries of its 64 KiB group that carries C64. a is the address of the page's entry, and the 16 entries are one sector (R207). -/
def State.c64Views (s : State) (va a : Nat) (own : Option Nat) : List Nat :=
  let k := va / 4096 % 16
  let group := (List.range 16).filterMap fun i =>
    match entryIs (natOf (memRead s.mem (a / 128 * 128 + 8 * i) 8)) 4 with
    | .inl (.leaf p _ _) => if bitAt p 7 then some (c64View k p) else none
    | _ => none
  nub (own.toList ++ group)

/-- The result of a walk that ended at level 4 as a TLB may hold it: where the entries of a 64 KiB group disagree, any of their translations, and no trap (R207). -/
def State.c64Pick (s : State) (va a : Nat) (r : WalkRes) : WalkRes × State :=
  let pick := fun (l : List Nat) =>
    let (k, s1) := s.freeIndex l.length
    (WalkRes.leaf ((l[k]?).getD 0) 4 4096, s1)
  match r with
  | .leaf pte 4 _ =>
    (match s.c64Views va a (some pte) with
      | [p] => (.leaf p 4 4096, s)
      | l => pick l)
  | .bad reason pte 4 =>
    (match s.c64Views va a none with
      | [] => (.bad reason pte 4, s)
      | [p] => (.leaf p 4 4096, s)
      | l => pick l)
  | r => (r, s)

/-- The same for a walk of the device itself, which keeps no translation: one of them by a free choice of its own (R207, log 89). -/
def State.c64Raw (s : State) (va a : Nat) (r : WalkRes) : WalkRes :=
  let pick := fun (l : List Nat) => WalkRes.leaf ((l[Config.c64Choice a s.tick.toNat s.fresh % l.length]?).getD 0) 4 4096
  match r with
  | .leaf pte 4 _ =>
    (match s.c64Views va a (some pte) with
      | [p] => .leaf p 4 4096
      | l => pick l)
  | .bad reason pte 4 =>
    (match s.c64Views va a none with
      | [] => .bad reason pte 4
      | [p] => .leaf p 4 4096
      | l => pick l)
  | r => r

/-- A walk of the device itself. -/
def State.walkRaw (s : State) (ctx va : Nat) : WalkRes :=
  let (r, a, s1) := s.walk ctx va
  s1.c64Raw va a r

/-- The device raises the FAULT event of a context (R76): the controller serves it as the FAULT command. The interrupt of the firmware column has no description (log 84). -/
def State.ctxRaise (s : State) (ctx : Nat) : State := { s with agenda := s.agenda ++ [.event (.ctxDeviceFault ctx)] }

/-- The FAULT event of a context that a walk of the device has asked for (R76). -/
def State.raiseIf (s : State) (ctx : Option Nat) : State :=
  match ctx with
  | some c => s.ctxRaise c
  | none => s

/-- The walks of the device itself at some addresses recall the update-only copies that they meet; the state without them (R142). -/
def State.walkTouch (s : State) (ctx : Nat) (vas : List Nat) : State := vas.foldl (fun st va => (st.walk ctx (va % 2 ^ 48)).2.2) s

/-- A walk of the device at one of some addresses meets a poisoned table page (R76). -/
def State.walkBad (s : State) (ctx : Nat) (vas : List Nat) : Bool := vas.any fun va => match s.walkRaw ctx (va % 2 ^ 48) with
  | .poison _ => true
  | .leaf _ _ _ | .bad _ _ _ | .wait => false

/-- The walks of the device at some addresses, with all that they do beside their answers: copies recalled (R142), FAULT raised where one meets a poisoned table page (R76). -/
def State.devWalks (s : State) (ctx : Nat) (vas : List Nat) : State :=
  let s1 := s.walkTouch ctx vas
  if s1.walkBad ctx vas then s1.ctxRaise ctx else s1

/-- The translation of an address as the TLBs and the walkers give it: the answer, and the state with the TLBs as they then stand. -/
def State.lookup (s : State) (core ctx va : Nat) (fetch : Bool) : WalkRes × State :=
  let c := s.core core
  let g := s.grove (groveOfCore core)
  match tlbFind (if fetch then c.itlb else c.dtlb) ctx va with
  | some e => (.leaf e.pte.toNat e.level e.size, s)
  | none =>
    match tlbFind g.l2tlb ctx va with
    | some e => (.leaf e.pte.toNat e.level e.size, s.tlbFill core fetch e)
    | none =>
      let (r, a, s1) := s.walk ctx va
      match s1.c64Pick va a r with
      | (.leaf pte level size, s2) => (.leaf pte level size, s2.tlbFill core fetch ⟨ctx, va / size * size, size, BitVec.ofNat 64 pte, level⟩)
      | q => q

/-! ### Checks (R208) -/

/-- The code of an access in a fault record (R211). -/
def accCode : Access → Nat
  | .load => 0
  | .store => 1
  | .fetch => 2
  | .atomic => 3
  | .engRead => 4
  | .engWrite => 5
  | .rule => 6

/-- An access that writes (R208). -/
def accWrites : Access → Bool
  | .store | .atomic | .engWrite => true
  | .load | .fetch | .engRead | .rule => false

/-- The code of an access in the record of its path: every access of the rule engine is a rule read there (R391). -/
def recCode (path : Nat) (acc : Access) : Nat := if path = 4 then accCode .rule else accCode acc

/-- What an access asks of its page beyond its kind: future tags (R143), or a quilt structure read on the rule path (R208). -/
inductive Need | plain | future | quilt
  deriving DecidableEq, Repr

/-- The first failing check of R208 on a leaf: its reason and cause. -/
def leafFault (perm : Nat) (acc : Access) (need : Need) (rulePath : Bool) (pte p : Nat) (bell : Bool) : Option (Nat × Nat) :=
  if bitAt pte 52 then some (4, Cause.poison)
  else if bitAt pte 4 && !rulePath then some (5, Cause.quiltProtection)
  else if (acc == .fetch && !bitAt pte 3) || (accWrites acc && !bitAt pte 2) ||
      (!accWrites acc && acc != .fetch && !bitAt pte 1) || (need == .future && !bitAt pte 5) ||
      (need == .quilt && !bitAt pte 4) then some (2, Cause.permission)
  else if accWrites acc && bitAt pte 53 then some (6, Cause.translation)
  else if bitAt pte 11 && !bell && !bitAt perm 1 && decide (hostBase ≤ p) then some (2, Cause.permission)
  else none

/-- The answer of a translated access. -/
inductive XRes
  /-- the place, and whether its home is interleaved -/
  | ok (p : Nat) (inter : Bool)
  /-- a failed check of R208 -/
  | fail (f : XFault)
  /-- a trap that is not a check of R208 -/
  | deny (cause : Nat)
  /-- the access waits: for a link that trains (R223), or for the unlock of a sector that its walk reads (R139) -/
  | wait
  deriving DecidableEq, Repr

/-- Who makes an access: the slot that stands for it, its context, the path code, and whether the slot is on the firmware column. -/
structure Who where
  slot : Nat
  ctx : Nat
  path : Nat
  deriving DecidableEq, Repr

/-- The checks after R208: the doorbell aperture, the system windows, the expansion apertures (R186), the host windows and the host link. n is the access size, whole whether it is one aligned 8-byte access. -/
def State.placeCheck (s : State) (w : Who) (acc : Access) (p n : Nat) (whole : Bool) (fault : Nat → Nat → XRes) (inter : Bool) : XRes :=
  match s.regionOf p with
  | .device => .ok p inter
  | .doorbell _ _ =>
    if !bitAt (s.ctxOf w.ctx).perm.toNat 3 then .deny Cause.permission
    else if n != 8 || !whole || p % 8 != 0 || (acc != .load && acc != .store) then .deny Cause.permission
    else .ok p inter
  | .trace _ _ =>
    -- the trace ring is only read, under the trace read permission (R71, R152)
    if acc != .load && acc != .engRead then .deny Cause.permission
    else if !bitAt (s.ctxOf w.ctx).perm.toNat 4 then .deny Cause.privilege
    else .ok p inter
  | .userWindow _ off | .fwWindow _ off =>
    if !s.isFw w.slot || w.path = 5 || w.path = 6 then .deny Cause.permission
    else if windowOk off then .ok p inter else .deny Cause.permission
  | .bar0 _ => if !s.isFw w.slot || w.path = 5 || w.path = 6 then .deny Cause.permission else .ok p inter
  | .hole => .deny Cause.permission
  | .hostMem a =>
    if s.apertures.any fun q => decide (q.base < a + n) && decide (a < q.base + q.size) then .deny Cause.permission
    else if !s.inWindow a n then fault 2 Cause.permission
    else match (s.link 0).st with
      | .down | .fenced => fault 4 Cause.poison
      | .training => .wait
      | .up | .degraded => .ok p inter

/-- The place that a leaf maps an address to. -/
def leafPlace (pte size va : Nat) : Nat :=
  let a := bits pte 51 12 * 4096 / size * size + va % size
  if bitAt pte 11 then hostBase + a else a

/-- Check a found leaf and name the place. ea is the effective address that a record carries. -/
def State.checkLeaf (s : State) (w : Who) (acc : Access) (need : Need) (ea : Word) (n : Nat) (whole rulePath : Bool)
    (pte level size : Nat) : XRes :=
  let va := ea.toNat % 2 ^ 48
  let p := leafPlace pte size va
  let perm := (s.ctxOf w.ctx).perm.toNat
  let bell := match s.regionOf p with
    | .doorbell _ _ => true
    | _ => false
  let fault := fun reason cause =>
    XRes.fail ⟨w.ctx, ea, BitVec.ofNat 64 pte, reason, recCode w.path acc, w.path, level, cause, false⟩
  match leafFault perm acc need rulePath pte p bell with
  | some (reason, cause) => fault reason cause
  | none => s.placeCheck w acc p n whole fault (bitAt pte 10)

/-- Translate and check one access that lies in one page (R208). core is the core whose TLBs serve it. -/
def State.translate (s : State) (core : Nat) (w : Who) (acc : Access) (need : Need) (ea : Word) (n : Nat)
    (whole rulePath : Bool) : XRes × State :=
  let va := ea.toNat % 2 ^ 48
  match s.lookup core w.ctx va (acc == .fetch) with
  | (.leaf pte level size, s1) => (s1.checkLeaf w acc need ea n whole rulePath pte level size, s1)
  | (.bad reason pte level, s1) =>
    (.fail ⟨w.ctx, ea, BitVec.ofNat 64 pte, reason, recCode w.path acc, w.path, level, Cause.translation, false⟩, s1)
  | (.poison level, s1) =>
    (.fail ⟨w.ctx, ea, 0, 4, recCode w.path acc, w.path, level, Cause.poison, true⟩, s1)
  | (.wait, s1) => (.wait, s1)

/-- Translate for the device itself, without a TLB: the front end, the agent and the guest's translation agent. -/
def State.translateRaw (s : State) (w : Who) (acc : Access) (need : Need) (ea : Word) (n : Nat) : XRes :=
  match s.walkRaw w.ctx (ea.toNat % 2 ^ 48) with
  | .leaf pte level size => s.checkLeaf w acc need ea n true false pte level size
  | .bad reason pte level =>
    .fail ⟨w.ctx, ea, BitVec.ofNat 64 pte, reason, recCode w.path acc, w.path, level, Cause.translation, false⟩
  | .poison level => .fail ⟨w.ctx, ea, 0, 4, recCode w.path acc, w.path, level, Cause.poison, true⟩
  | .wait => .wait

/-- The state as the device's own accesses will find it once what they wait for is over: no lock, and the host link up (R139, R223). -/
def State.settled (s : State) : State :=
  match (s.link 0).st with
  | .training => { s with commits := [] }.modLink 0 fun l => { l with st := .up }
  | .down | .up | .degraded | .fenced => { s with commits := [] }

/-- A walk that has met a poisoned table page raises the FAULT event of its context (R76). -/
def XRes.raises : XRes → Option Nat
  | .fail f => if f.ctxFault then some f.ctx else none
  | .ok _ _ | .deny _ | .wait => none

end Sys2Proof.Machine
end

