-- ==== Sys2Proof/Machine/Tile.lean ====
section
/-! DEFINITION. The matrix array: K-steps, operands, the latent stage, and the completion of an mma (R47 to R50, R202, R376, R379 to R384). -/

namespace Sys2Proof.Machine

/-! ### K-steps (R47 to R49) -/

/-- An accumulator element: an unlisted one is zero, or free after a launch (R376). -/
def Core.accAt (c : Core) (i : Nat) : BitVec 32 :=
  match c.acc.find i with
  | some v => v
  | none => match c.accFree with
    | some n => (Config.freeWord (n + i)).setWidth 32
    | none => 0

/-- Round to FP32 to nearest even. -/
def rne32 (v : FVal) : FVal := fmtF32.value (fmtF32.round 0 false 0 v).1

/-- Round to BF16 to nearest even. -/
def rneBf16 (v : FVal) : FVal := fmtBf16.value (fmtBf16.round 0 false 0 v).1

/-- The rounded sum of two values. -/
def addRne (a b : FVal) : FVal := rne32 (fAdd false a b).1

/-- One level of the pairwise tree: neighbours add. -/
def pairSum : List FVal → List FVal
  | x :: y :: rest => addRne x y :: pairSum rest
  | l => l

/-- The fixed tree over 32 products. -/
def treeSum (ps : List FVal) : FVal := (pairSum (pairSum (pairSum (pairSum (pairSum ps))))).headD (.fin false 0 0)

/-- A finite zero. -/
def FVal.isZero : FVal → Bool
  | .fin _ m _ => m == 0
  | .nan | .inf _ => false

/-- Add to an accumulator element. -/
def accAdd (c : BitVec 32) (t : FVal) : BitVec 32 :=
  BitVec.ofNat 32 (fmtF32.round 0 false 0 (fAdd false (fmtF32.value c.toNat) t).1).1

/-- The floating K-step of R47 on a row of A and a column of B. -/
def kstepF (a b : List FVal) (c : BitVec 32) : BitVec 32 :=
  let ps := List.zipWith (fun x y => (fMul x y).1) a b
  if ps.all FVal.isZero then c else accAdd c (treeSum ps)

/-- K-steps of 32 one after another. -/
def stepsF : Nat → List FVal → List FVal → BitVec 32 → BitVec 32
  | 0, _, _, c => c
  | n + 1, a, b, c => stepsF n (a.drop 32) (b.drop 32) (kstepF (a.take 32) (b.take 32) c)

/-- The selector bit of each of a block's 32 fields (R36). -/
def blockSel (w : Nat) (bs : List Byte) : List Bool :=
  let area := natOf (bs.drop 2)
  (List.range 32).map fun i => bitAt area (i * (w + 2) + w + 1)

/-- The exact sum of the products under a pair of selectors. -/
def selSum (ps : List (FVal × Bool × Bool)) (p q : Bool) : FVal :=
  (ps.filter fun x => x.2.1 == p && x.2.2 == q).foldl (fun acc x => (fAdd false acc x.1).1) (.fin false 0 0)

/-- A K-step with a special element: NaN, or the infinity of the infinite products (R48). -/
def specialSum (ps : List FVal) : FVal :=
  let pos := ps.contains (.inf false)
  let neg := ps.contains (.inf true)
  if ps.any FVal.isNan || (pos && neg) then .nan else if pos || neg then .inf neg else .fin false 0 0

/-- An infinity or a NaN. -/
def FVal.special : FVal → Bool
  | .fin _ _ _ => false
  | .nan | .inf _ => true

/-- The BX K-step of R48 on a block of A and a block of B. -/
def kstepB (wa wb : Nat) (a b : List Byte) (c : BitVec 32) : BitVec 32 :=
  let ps := List.zipWith (fun x y => (fMul x y).1) (blockValues wa a) (blockValues wb b)
  let sel := List.zip ps (List.zip (blockSel wa a) (blockSel wb b))
  let v := fun p q => selSum sel p q
  if ps.all FVal.isZero then c
  else if ps.any FVal.special then accAdd c (specialSum ps)
  else accAdd c (addRne (addRne (v false false) (v false true)) (addRne (v true false) (v true true)))

/-- One addition of R49 to an element with its saturated bit: while the bit is set the element keeps its bound, whatever the mode of the mma that adds. -/
def accAddI (sat : Bool) (c : BitVec 32 × Bool) (p : Int) : BitVec 32 × Bool :=
  let sum := c.1.toInt + p
  if c.2 then c
  else if !sat then (BitVec.ofInt 32 sum, false)
  else
    let (r, did) := clampInt (-(2 ^ 31)) (2 ^ 31 - 1) sum
    (BitVec.ofInt 32 r, did)

/-- The integer products of R49, added in ascending k. -/
def stepsI (sat : Bool) (a b : List Int) (c : BitVec 32 × Bool) : BitVec 32 × Bool :=
  (List.zipWith (· * ·) a b).foldl (accAddI sat) c

/-! ### Operands (R379) -/

/-- The K-steps that a format's own width gives. -/
def fmtSteps (code : Nat) : Nat :=
  match code with
  | 0 => 1
  | 1 => 2
  | 2 => 2
  | 10 => 8
  | 11 => 8
  | _ => 4

/-- The K-steps of one plain mma of a format context. -/
def Fmt.steps (f : Fmt) : Nat :=
  let a := fmtSteps f.afmt.toNat
  let b := fmtSteps f.bfmt.toNat
  if a < b then a else b

/-- The bytes of 32 elements of a format: a block, or 32 packed elements. -/
def unitBytes (code : Nat) : Nat :=
  match blockOfCode code with
  | some w => blockBytes w
  | none => elemBits code * 4

/-- The bytes of a row of A. -/
def Fmt.rowBytes (f : Fmt) : Nat := unitBytes f.afmt.toNat * f.steps

/-- The bytes of a plain B operand. -/
def Fmt.bBytes (f : Fmt) : Nat := unitBytes f.bfmt.toNat * 64 * f.steps

/-- An integer operand format that the array takes: INT8, NAT8 or INT4 (R49). -/
def isIntFmt (code : Nat) : Bool := code == 5 || code == 6 || code == 7

/-- Element i of packed bytes, as its bits. -/
def elemAt (bits_ : Nat) (bs : List Byte) (i : Nat) : Nat :=
  if bits_ = 4 then bits (field bs (i / 2) 1) (i % 2 * 4 + 3) (i % 2 * 4) else field bs (i * (bits_ / 8)) (bits_ / 8)

/-- Element i of packed bytes of a floating format. -/
def floatAt (code : Nat) (bs : List Byte) (i : Nat) : FVal :=
  match fmtOfCode code with
  | some f => f.value (elemAt (elemBits code) bs i)
  | none => .nan

/-- Element i of packed bytes of an integer format. -/
def intAt (code : Nat) (bs : List Byte) (i : Nat) : Int :=
  let v := elemAt (elemBits code) bs i
  if code = 6 then Int.ofNat v else sInt (elemBits code) v

/-- Bytes of a local space of a core: its TCM, or its grove's scratch. -/
def State.localRead (s : State) (core : Nat) (scr : Bool) (off n : Nat) : List Byte :=
  if scr then s.scrRead (groveOfCore core) off n else s.tcmRead core off n

/-- The bytes of a row of A in a mode: 128 BF16 elements in a latent mode (R384). -/
def Fmt.aBytes (f : Fmt) (mode : Nat) : Nat := if mode < 2 then f.rowBytes else 256

/-- The bytes of the B operand in a mode under a latent width (R379, R384). -/
def Fmt.bSize (f : Fmt) (mode dc : Nat) : Nat := if mode < 2 then f.bBytes else (dc + 64) * 2 * 64

/-- The bytes of row i of an mma's A operand. -/
def State.aRow (s : State) (core : Nat) (op : MmaOp) (i : Nat) : List Byte :=
  s.localRead core op.ascr (op.aoff + i * op.stride) ((s.core core).fmt.aBytes op.mode.toNat)

/-- The bytes of the B operand: the slot, or the latch (R382). -/
def State.bBytes (s : State) (core : Nat) (op : MmaOp) (n : Nat) : List Byte :=
  match op.bhandle with
  | some _ => s.localRead core op.bscr op.boff n
  | none => match (s.core core).ringIn with
    | some r => r.bytes
    | none => []

/-! ### The latent stage (R202, R383, R384) -/

/-- The K-steps of a latent-mode mma. -/
def latentSteps (mode dc : Nat) : Nat := if mode = 2 then 4 else (dc + 64) / 32

/-- A pair of the query's rope part, rotated by a turn rate (R202). -/
def rotPair (off : Nat) (rate : BitVec 32) (a b : FVal) : List FVal :=
  let phase := (-(BitVec.ofNat 32 off * rate)).toNat
  let (sn0, cs0) := turnPair phase
  let cs := rne32 cs0
  let sn := rne32 sn0
  let sub := rne32 (fAdd false (fMul a cs).1 (fMul b sn).1.neg).1
  let add := rne32 (fAdd false (fMul a sn).1 (fMul b cs).1).1
  [rneBf16 sub, rneBf16 add]

/-- The rotated rope part: 32 pairs. -/
def rotRope (off : Nat) : List (BitVec 32) → List FVal → List FVal
  | rate :: rates, a :: b :: rest => rotPair off rate a b ++ rotRope off rates rest
  | _, _ => []

/-- The 32 turn rates; one never loaded is 0 (R383). -/
def Grove.turnList (g : Grove) : List (BitVec 32) := (List.range 32).map fun i => (g.turns[i]?).getD 0

/-- Row r of U as values (R383). -/
def Grove.uRow (g : Grove) (r : Nat) : List FVal := ((g.latU.drop (64 * r)).take 64).map fun (h : Half) => fmtBf16.value h.toNat

/-- Column n of U. -/
def Grove.uCol (g : Grove) (n : Nat) : List FVal :=
  (List.range g.latDc).map fun r => fmtBf16.value ((g.latU[64 * r + n]?).getD 0).toNat

/-- A sum by R47 from +0, rounded to BF16. -/
def dotBf16 (a b : List FVal) : FVal := rneBf16 (fmtF32.value (stepsF (ceilDiv a.length 32) a b 0).toNat)

/-- BF16 values of packed bytes. -/
def bf16List (bs : List Byte) (n : Nat) : List FVal := (List.range n).map (floatAt 1 bs)

/-- The query of a row of A as it enters the array (R384). -/
def latentQuery (g : Grove) (op : MmaOp) (row : List Byte) : List FVal :=
  let q := bf16List row 128
  let qn := q.take 64
  let qr := q.drop 64
  let rope := if op.ltEn then rotRope op.ltOff.toNat g.turnList qr else qr
  (if op.mode = 2 then qn else (List.range g.latDc).map fun r => dotBf16 qn (g.uRow r)) ++ rope

/-- The key of column j of B as it enters the array (R384). -/
def latentKey (g : Grove) (op : MmaOp) (bs : List Byte) (j : Nat) : List FVal :=
  let kc := bf16List (bs.drop ((g.latDc + 64) * 2 * j)) (g.latDc + 64)
  if op.mode = 2 then
    ((List.range 64).map fun n => dotBf16 (kc.take g.latDc) (g.uCol n)) ++ kc.drop g.latDc
  else kc

/-! ### Completion (R380, R382, R384) -/

/-- Every accumulator element under a function of its row, column, value and saturated bit. -/
def Core.mapAcc (c : Core) (f : Nat → Nat → BitVec 32 × Bool → BitVec 32 × Bool) : Core :=
  let new := (List.range 2048).map fun i => (i, f (i / 64) (i % 64) (c.accAt i, c.accSat.contains i))
  { c with
    acc := new.map fun q => (q.1, q.2.1)
    accSat := (new.filter fun q => q.2.2).map (·.1)
    accFree := none }

/-- K-steps of a latent-mode mma: n of them from the one that progress names. -/
def State.latentRun (s : State) (core : Nat) (op : MmaOp) (n : Nat) : State :=
  let g := s.grove (groveOfCore core)
  let c := s.core core
  let lo := c.fmt.progress
  let bs := s.bBytes core op (c.fmt.bSize op.mode.toNat g.latDc)
  let qs := (List.range 32).map fun i => (latentQuery g op (s.aRow core op i)).drop (32 * lo)
  let ks := (List.range 64).map fun j => (latentKey g op bs j).drop (32 * lo)
  let c1 := c.mapAcc fun i j v => (stepsF n ((qs[i]?).getD []) ((ks[j]?).getD []) v.1, v.2)
  s.setCore core { c1 with fmt := { c1.fmt with progress := lo + n } }

/-- The whole of a plain or ring mma (R380). -/
def State.plainRun (s : State) (core : Nat) (op : MmaOp) : State :=
  let c := s.core core
  let f := c.fmt
  let n := f.steps
  let fa := f.afmt.toNat
  let fb := f.bfmt.toNat
  let bs := s.bBytes core op f.bBytes
  let rows := (List.range 32).map fun i => s.aRow core op i
  let row := fun i => (rows[i]?).getD []
  let ks := (List.range (32 * n)).map fun k => k / 32 * 2048 + k % 32 * 64
  let new := match blockOfCode fa, blockOfCode fb with
    | some wa, some wb =>
      c.mapAcc fun i j v => ((List.range n).foldl (fun acc st =>
        kstepB wa wb (((row i).drop (st * blockBytes wa)).take (blockBytes wa))
          ((bs.drop ((st * 64 + j) * blockBytes wb)).take (blockBytes wb)) acc) v.1, v.2)
    | _, _ =>
      if isIntFmt fa then
        c.mapAcc fun i j v => stepsI f.sat ((List.range (32 * n)).map (intAt fa (row i))) (ks.map fun k => intAt fb bs (k + j)) v
      else
        c.mapAcc fun i j v => (stepsF n ((List.range (32 * n)).map (floatAt fa (row i))) (ks.map fun k => floatAt fb bs (k + j)) v.1, v.2)
  s.setCore core new

/-! The unit's service (R379) and the ring's places (R382). -/

/-- A core of a grove has an mma that is not complete. -/
def State.hasMma (s : State) (core : Nat) : Bool := (s.core core).mma.isSome

/-- The core whose mma the unit of a core's grove works on; the core itself where none is being served. -/
def State.served (s : State) (core : Nat) : Nat :=
  let g := groveOfCore core
  match (s.grove g).serving with
  | some k => if s.hasMma (g * 8 + k) then g * 8 + k else core
  | none => core

/-- The unit turns to the next core, in round-robin order of core number from the core last served (R379). -/
def State.serveNext (s : State) (g : Nat) : State :=
  let last := (s.grove g).lastMma
  s.modGrove g fun gr => { gr with
    serving := ((List.range 8).map fun i => (last + 1 + i) % 8).find? fun k => s.hasMma (g * 8 + k) }

/-- An mma of a core leaves the unit: the next one is served. -/
def State.mmaGone (s : State) (core : Nat) : State :=
  let g := groveOfCore core
  if s.served core = core then (s.modGrove g fun gr => { gr with lastMma := core % 8 }).serveNext g else s

/-- An mma of a core enters the unit, which serves it at once where it is free. -/
def State.mmaEnter (s : State) (core : Nat) : State :=
  let g := groveOfCore core
  match (s.grove g).serving with
  | some _ => s
  | none => s.modGrove g fun gr => { gr with serving := some (core % 8) }

/-- The clearing-relative column of a core, and the clearing's width; a slot with no group stands alone. -/
def State.ringAt (s : State) (grp core : Nat) : Nat × Nat :=
  match s.groups.find grp, s.logical (groveOfCore core) with
  | some g, some (gx, _) => (gx - g.gx0 % 32, g.w)
  | _, _ => (0, 1)

/-- The end of an mma: a ring operand goes to the outgoing hold, which empties at once at the east edge, and its latch empties (R382); the latent progress starts anew, and the unit turns to the next core (R379). -/
def State.mmaEnd (s : State) (core : Nat) (op : MmaOp) : State :=
  let (x, w) := s.ringAt op.grp core
  (s.modCore core fun c => { c with
    mma := none
    fmt := { c.fmt with progress := 0 }
    ringOut := if op.mode = 1 then (if x + 1 < w then some ⟨op.grp, op.task, s.bBytes core op c.fmt.bBytes⟩ else none) else c.ringOut
    ringIn := if op.mode = 1 && op.bhandle.isNone then none else c.ringIn }).mmaGone core

/-- One piece of the mma of a core: two K-steps of a latent-mode one, the whole of another (R384). -/
def State.mmaPiece (s : State) (core : Nat) : State :=
  match (s.core core).mma with
  | none => s
  | some op =>
    if op.mode.toNat < 2 then (s.plainRun core op).mmaEnd core op
    else
      let total := latentSteps op.mode.toNat (s.grove (groveOfCore core)).latDc
      let left := total - (s.core core).fmt.progress
      if left ≤ 2 then (s.latentRun core op left).mmaEnd core op else s.latentRun core op 2

/-- The rest of the mma of a core: a latent-mode one has at most 9 pieces. -/
def State.mmaRest (s : State) (core : Nat) : State :=
  (List.range 9).foldl (fun st _ => st.mmaPiece core) s

/-- The mma of a core completes, each one that the unit serves before it first (R379). -/
def State.mmaFinish (s : State) (core : Nat) : State :=
  (List.range 8).foldl (fun st _ => if st.hasMma core then st.mmaRest (st.served core) else st) s

end Sys2Proof.Machine
end

