-- ==== Sys2Proof/Machine/Record.lean ====
section
/-! DEFINITION. Continuation records, ready queues, saved frames, fault records and trap notices (R72, R81 to R101, R211, R237 to R242). -/

namespace Sys2Proof.Machine

/-! ### Continuation records (R81) -/

/-- The key of a task: its context and record address. -/
def taskKey (ctx va : Nat) : Nat := ctx * 2 ^ 48 + va

/-- n bytes of a record at its place, read at its home. -/
def State.recField (s : State) (pa off n : Nat) : Nat := natOf (s.devRead (pa + off) n)

/-- The device writes a field of a record at its home, once no commit holds the sector (R139). -/
def State.recWrite (s : State) (pa off : Nat) (bs : List Byte) : State :=
  s.lateWrite ⟨none, ⟨pa + off, s.interOf (pa + off), bs, false⟩, none⟩

/-- The state byte of R84. -/
def TaskSt.code : TaskSt → Nat
  | .gated => 0
  | .counting => 1
  | .ready => 2
  | .running => 3
  | .suspended => 4
  | .faulted => 5
  | .committing => 6
  | .aborted => 7
  | .done => 8

/-- Move a task to a state, its state byte with it (R84). -/
def State.taskState (s : State) (key : Nat) (st : TaskSt) : State :=
  match s.tasks.find key with
  | some t => (s.setTask key { t with st := st }).recWrite t.pa 59 (bytesOf 1 st.code)
  | none => s

/-- The half of the record that a dispatch reads: the extension once a class C or T task has been written back (R88). -/
def Task.half (t : Task) : Nat := if t.ext then t.pa + 64 else t.pa

/-- The launch descriptor address of a task's group (R116). -/
def State.groupDesc (s : State) (g : Nat) : Nat :=
  match s.groups.find g with
  | some gr => gr.desc
  | none => 0

/-- The address of a context's descriptor (R69). -/
def State.ctxDesc (s : State) (c : Nat) : Nat := s.ctxBase.toNat * 16384 + c * 256

/-! ### Clearings (R103, R107) -/

/-- A logical grove lies in a group's clearing on this module. -/
def Group.covers (g : Group) (gx gy : Nat) : Bool :=
  decide (g.gx0 % 32 ≤ gx) && decide (gx < g.gx0 % 32 + g.w) && decide (g.gy0 % 32 ≤ gy) && decide (gy < g.gy0 % 32 + g.h)

/-- The logical groves of a clearing, row by row. -/
def Group.groves (g : Group) : List (Nat × Nat) :=
  (span (g.gy0 % 32) g.h).flatMap fun gy => (span (g.gx0 % 32) g.w).filterMap fun gx =>
    if gx < 32 && gy < 32 then some (gx, gy) else none

/-- A group that holds its clearing. -/
def Group.holds (g : Group) : Bool :=
  !g.freed && (match g.st with
    | .routing | .loading | .running | .draining | .broken => true
    | .claiming | .done => false)

/-- The stand at the least distance over the clearing; ties to the lower gy, then gx (R93). Hops are counted over the physical mesh for every origin: R93 says so of an origin on the firmware column, and leaves it open for a user grove, where a remapped grove (R16) makes a difference (DESIGN CHOICE, log 74). -/
def State.leastStand (s : State) (g : Group) (origin : Nat) : Nat :=
  let best := g.groves.foldl (fun (acc : Option (Nat × Nat × Nat)) q =>
    let d := hops (s.physGrove q.1 q.2) origin
    match acc with
    | none => some (d, q.1, q.2)
    | some (e, x, y) => if d < e then some (d, q.1, q.2) else some (e, x, y)) none
  match best with
  | some (_, x, y) => standOf x y
  | none => 0

/-- The stand of the clearing grove nearest an origin by hops: the origin's own where the clearing holds it (R93). -/
def State.nearestStand (s : State) (g : Group) (origin : Nat) : Nat :=
  match s.logical origin with
  | some (gx, gy) => if g.covers gx gy then standOf gx gy else s.leastStand g origin
  | none => s.leastStand g origin

/-! ### Entering a ready queue (R92 to R96, R99, R100) -/

/-- The value of a rank source (R95, R96). -/
def State.rankField (s : State) (half src : Nat) : Nat :=
  match src with
  | 0 => s.recField half 32 2
  | 1 => s.recField half 34 2
  | 2 => s.recField half 36 2
  | 3 => s.recField half 38 2
  | 4 => s.recField half 16 2
  | 5 => s.recField half 18 2
  | 6 => s.recField half 20 2
  | 7 => s.recField half 22 2
  | _ => 0

/-- The rank key of a record entering a queue (R96). -/
def State.rankKey (s : State) (t : Task) : Int :=
  let half := t.half
  let q := s.recField half 58 1
  let recipe := (((s.ctxOf t.ctx).queues[q]?).getD (false, 0)).2
  let word := (s.recipes.get recipe.toNat 0).toNat
  (List.range 4).foldl (fun (key : Int) i =>
    let term := bits word (16 * i + 15) (16 * i)
    let w := sInt 8 (bits term 15 8)
    let src := bits term 7 4
    if w = 0 then key
    else if src = 8 then key - w * Int.ofNat s.tick.toNat
    else key + w * Int.ofNat (s.rankField half src)) 0

/-- An enqueue of a READY record: it goes into the replay window of its origin grove (R93, R100). -/
def State.enqueue (s : State) (key origin : Nat) : State :=
  match s.tasks.find key with
  | some t =>
    match s.groups.find t.grp with
    | some g =>
      let s1 := s.taskState key .ready
      s1.modGrove origin fun gr => { gr with window := gr.window ++ [⟨.record key (s1.nearestStand g origin), false⟩] }
    | none => s
  | none => s

/-- The replay window of a grove has room (R100). -/
def State.windowRoom (s : State) (g : Nat) : Bool := decide ((s.grove g).window.length < 8)

/-- Groups with a clearing in a stand (R99). -/
def State.ctxsInStand (s : State) (stand : Nat) : List Nat :=
  nub ((s.groups.vals.filter fun g => g.holds && g.groves.any fun q => standOf q.1 q.2 == stand).map (·.ctx))

/-- A queue refuses an enqueue (R99). -/
def State.refuses (s : State) (stand ctx : Nat) : Bool :=
  let q := (s.stand stand).queue
  let others := ((s.ctxsInStand stand).filter (· != ctx)).length
  decide (1024 ≤ q.length) || decide (1024 - 8 * others ≤ (q.filter fun e => e.ctx == ctx).length)

/-- An entry may be dispatched to some slot, as far as its context and group decide: both run, and no stop is in progress (R97). -/
def State.runnable (s : State) (e : QEntry) : Bool :=
  let c := s.ctxOf e.ctx
  c.st == .running && c.stopping == .none && (match s.groups.find e.grp with
    | some g => g.holds && g.st == .running
    | none => false)

/-- The contexts with an eligible entry in a stand, A of R97. -/
def State.eligibleCtxs (s : State) (stand : Nat) : List Nat := nub (((s.stand stand).queue.filter s.runnable).map (·.ctx))

/-- The least virtual time of some contexts in a stand. -/
def leastVt (vt : PMap (BitVec 32)) (l : List Nat) : Option Nat :=
  (l.map fun c => (vt.get c 0).toNat).foldl (fun (a : Option Nat) v => match a with
    | none => some v
    | some b => some (if v < b then v else b)) none

/-- A context that gains its first eligible entry in a stand: its virtual time rises to the least of the contexts that have one already (R97). -/
def State.vtRaise (s : State) (stand ctx : Nat) (others : List Nat) : State :=
  let vt := (s.stand stand).vt
  match leastVt vt others with
  | some l => if (vt.get ctx 0).toNat < l then s.modStand stand fun q => { q with vt := q.vt.put ctx (BitVec.ofNat 32 l) } else s
  | none => s

/-- Put an entry into a stand's queue; a context's first eligible entry raises its virtual time (R94, R97). -/
def State.queueAdd (s : State) (stand key : Nat) : State :=
  match s.tasks.find key with
  | some t =>
    let e : QEntry := ⟨key, s.rankKey t, t.ctx, s.recField t.half 58 1, t.grp, t.pin, s.tick.toNat⟩
    let others := s.eligibleCtxs stand
    let s0 := if s.runnable e && !others.contains t.ctx then s.vtRaise stand t.ctx others else s
    let s1 := s0.modStand stand fun q => { q with queue := q.queue ++ [e] }
    -- the device counts the record in its queue's descriptor entry (R69)
    let c := s.ctxDesc t.ctx + 64 + 8 * (e.queue % 16) + 4
    s1.recWrite c 0 (bytesOf 4 (s1.recField c 0 4 + 1))
  | none => s

/-- An entry of a replay window that carries one of some tasks. -/
def Enq.carries (e : Enq) (gone : Nat → Bool) : Bool :=
  match e.what with
  | .record key _ => gone key
  | .packet _ _ => false

/-- Of some records that a grove sends, those that do not stand among the 8 of its replay window (R100). -/
def State.unsent (s : State) (g : Nat) (keys : List Nat) : List Nat :=
  keys.filter fun key => ((s.grove g).window.drop 8).any fun e => e.carries fun k => k == key

/-- A window without the entries of some tasks: the count of refusals was that of its oldest entry still to be taken, and goes with it (R100). -/
def Grove.unsend (g : Grove) (gone : Nat → Bool) : Grove :=
  match g.window.find? fun e => !e.acked with
  | some e => { g with
      window := g.window.filter fun q => !q.carries gone
      refusals := if e.carries gone then 0 else g.refusals }
  | none => { g with window := g.window.filter fun q => !q.carries gone }

/-- Every queue entry and window entry of some tasks goes. -/
def State.unqueue (s : State) (gone : Nat → Bool) : State :=
  { s with
    stands := s.stands.map fun q => (q.1, { q.2 with queue := q.2.queue.filter fun e => !gone e.task })
    groves := s.groves.map fun q => (q.1, q.2.unsend gone) }

/-- The units of a hamper that lie in its slot's share of TCM. -/
def Hamper.share (h : Hamper) : List Nat := h.places.filterMap fun u => match u with
  | .share n => some n
  | .frame _ => none

/-! ### The carve-outs of TCM (R53) -/

/-- The hamper area of a slot. -/
def Core.hamperOff (c : Core) (n : Nat) : Nat := c.utop.toNat * 256 + n * c.hamper.toNat * 64
/-- The spill block of a slot. -/
def Core.spillOff (c : Core) (n : Nat) : Nat := (c.utop.toNat + c.hamper.toNat + n * c.spill.toNat) * 256
/-- The frame carve-out of a slot. -/
def Core.frameOff (c : Core) (n : Nat) : Nat := (c.utop.toNat + c.hamper.toNat + 4 * c.spill.toNat + n * c.frame.toNat) * 256
/-- The inbox of a slot, and a packet slot of it (R53, R126). -/
def Core.inboxOff (c : Core) (n i : Nat) : Nat :=
  (c.utop.toNat + c.hamper.toNat + 4 * c.spill.toNat + 4 * c.frame.toNat) * 256 + n * 2304 + i * 144
/-- P of R55. -/
def Core.spillSize (c : Core) : Nat := c.spill.toNat * 256

/-! ### Frames (R58, R89, R241, R242) -/

/-- The frame's bytes 0 to 4,559 as the slot's registers give them (R241). -/
def Slot.frameBytes (sl : Slot) : List Byte :=
  (sl.x.toList.map fun w => bytesOf 8 w.toNat).flatten ++ (sl.v.toList.map fun w => bytesOf 128 w.toNat).flatten ++
  bytesOf 16 (2 ^ 128 - 1) ++ ((sl.k.toList.drop 1).map fun w => bytesOf 16 w.toNat).flatten ++
  bytesOf 8 sl.pc.toNat ++ bytesOf 8 sl.vl.toNat ++ bytesOf 8 sl.vshape.toNat ++ bytesOf 8 sl.fpCtl.toNat ++
  bytesOf 8 sl.rng.toNat ++ bytesOf 8 sl.faultCause.toNat ++ bytesOf 8 sl.faultAddr.toNat ++ bytesOf 8 sl.faultPc.toNat ++
  bytesOf 8 (sl.prVals.toNat + at_ sl.prDepth.toNat 16) ++ zeros 8

/-- Bytes cut at sector boundaries, each piece with its address. -/
def sectorPieces (p : Nat) (bs : List Byte) : List (Nat × List Byte) :=
  (sectorsOf p bs.length).map fun sec =>
    let lo := if sec * 128 < p then p else sec * 128
    (lo, (bs.drop (lo - p)).take (sec * 128 + 128 - lo))

/-- Bytes that a slot saves in memory: stores of the core path at physical addresses, sector by sector (R58, R242). An address outside device memory is a hole of it, and takes nothing. -/
def State.saveBytes (s : State) (slot p : Nat) (bs : List Byte) : State :=
  (sectorPieces p bs).foldl (fun st q => st.lateWrite ⟨some slot, ⟨q.1, st.interOf q.1, q.2, false⟩, none⟩) s

/-- The address of a slot's accumulator save block (R242). -/
def Core.accSave (c : Core) (n : Nat) : Nat := c.accSv.toNat * 65536 + n * 8320

/-- The place of a slot's overflow area (R58). -/
def Core.ovfAt (c : Core) (n : Nat) : Nat := c.ovfBase.toNat * 8192 + n * 8192

/-- Write bytes of a slot's frame from an offset on: the carve-out, then the overflow area (R58). R58 gives a slot one place for a frame and no rule says which of two tasks pinned to one slot keeps it: the later frame takes the place of the earlier one, whose dispatch then finds its device block changed (DESIGN CHOICE, log 91). -/
def State.frameWrite (s : State) (slot off : Nat) (bs : List Byte) : State :=
  let c := s.core (coreOf slot)
  let carve := c.frame.toNat * 256
  let k := carve - off
  (s.tcmWrite (coreOf slot) (c.frameOff (slotNo slot) + off) (bs.take k)).saveBytes slot (c.ovfAt (slotNo slot) + (off + k - carve)) (bs.drop k)

/-- The saved frame's bytes. -/
def State.frameRead (s : State) (slot : Nat) : List Byte :=
  let c := s.core (coreOf slot)
  let carve := c.frame.toNat * 256
  let head := s.tcmRead (coreOf slot) (c.frameOff (slotNo slot)) (if carve < 4736 then carve else 4736)
  head ++ s.devRead (c.ovfAt (slotNo slot)) (4736 - head.length)

/-- The sectors of memory that a restore of a slot's frame reads: of the overflow area, and of the accumulator's block where it has been saved (R58, R242). -/
def State.frameSecs (s : State) (slot : Nat) (acc : Bool) : List Nat :=
  let c := s.core (coreOf slot)
  sectorsOf (c.ovfAt (slotNo slot)) (4736 - c.frame.toNat * 256) ++ (if acc then sectorsOf (c.accSave (slotNo slot)) 8320 else [])

/-- The address of a poisoned unit that a restore of a slot's frame would read (R245). -/
def State.frameBad (s : State) (slot : Nat) (acc : Bool) : Option Nat :=
  let core := coreOf slot
  let c := s.core core
  let off := c.frameOff (slotNo slot)
  let len := Nat.min (c.frame.toNat * 256) 4736
  match (s.grove (groveOf slot)).poisonTcm.find? fun q => q.1 == core && decide (q.2 * 8 < off + len) && decide (off < q.2 * 8 + 8) with
  | some q => some (q.2 * 8)
  | none => ((s.frameSecs slot acc).find? s.poison.contains).map (· * 128)

/-- The element ceiling NMAX of a shape (R347). -/
def shapeMax (v : Nat) : Nat := Nat.min (1024 * 2 ^ bits v 3 2 / (8 * 2 ^ bits v 1 0)) 128

/-- The registers of a slot from a frame's bytes. x0 stays zero and k0 is not stored. Bytes that hold what a register cannot hold give the nearest value that it can: vl at most NMAX, depth at most 16, no reserved bit, mode 0 for a reserved mode, 1 for a zero generator state (log 14). -/
def Slot.fromFrame (sl : Slot) (bs : List Byte) : Slot :=
  let shape := BitVec.ofNat 6 (field bs 4496 8)
  let depth := Nat.min (bits (field bs 4544 8) 20 16) 16
  let ctl := field bs 4504 8
  let rng := BitVec.ofNat 32 (field bs 4512 8)
  { sl with
    x := Vector.ofFn fun (i : Fin 32) => if i.val = 0 then 0 else BitVec.ofNat 64 (field bs (8 * i.val) 8)
    v := Vector.ofFn fun (i : Fin 32) => BitVec.ofNat 1024 (field bs (256 + 128 * i.val) 128)
    k := Vector.ofFn fun (i : Fin 8) => if i.val = 0 then 0 else BitVec.ofNat 128 (field bs (4352 + 16 * i.val) 16)
    pc := BitVec.ofNat 48 (field bs 4480 8)
    vl := BitVec.ofNat 8 (Nat.min (field bs 4488 8) (shapeMax shape.toNat))
    vshape := shape
    fpCtl := BitVec.ofNat 64 (at_ (bits ctl 13 8) 8 + (if bits ctl 2 0 ≤ 4 then bits ctl 2 0 else 0))
    rng := if rng = 0 then 1 else rng
    faultCause := BitVec.ofNat 64 (at_ (bits (field bs 4520 8) 15 12) 12 + bits (field bs 4520 8) 7 0)
    faultAddr := BitVec.ofNat 64 (field bs 4528 8)
    faultPc := BitVec.ofNat 48 (field bs 4536 8)
    prVals := BitVec.ofNat 16 (field bs 4544 2 % 2 ^ depth)
    prDepth := BitVec.ofNat 5 depth }

/-- The accumulator as bytes, row by row. -/
def Core.accBytes (c : Core) : List Byte := ((List.range 2048).map fun i => bytesOf 4 (c.accAt i).toNat).flatten

/-- The 128 bytes of a format context (R242, log 66): the word of mx.cfg, the value of lt.off, the progress of a latent-mode mma, and zeros. -/
def Core.fmtBytes (c : Core) : List Byte :=
  let f := c.fmt
  bytesOf 8 (f.afmt.toNat + at_ f.bfmt.toNat 4 + at_ f.rm.toNat 8 + at_ (flag f.sat) 11 + at_ f.astride.toNat 16) ++
  bytesOf 8 (c.ltOff.toNat + at_ (flag c.ltEn) 63) ++ bytesOf 8 f.progress ++ zeros 104

/-- A core with the format context of 128 bytes. -/
def Core.fmtLoad (c : Core) (bs : List Byte) : Core :=
  let v := field bs 0 8
  { c with
    fmt := ⟨BitVec.ofNat 4 (bits v 3 0), BitVec.ofNat 4 (bits v 7 4), BitVec.ofNat 3 (bits v 10 8), bitAt v 11, BitVec.ofNat 16 (bits v 31 16), field bs 16 8⟩
    ltEn := bitAt (field bs 8 8) 63
    ltOff := BitVec.ofNat 48 (field bs 8 8) }

/-- Save the accumulator and the format context of an owning slot to its block (R242); what the device keeps beside it is answered. A plain mma of the slot completes first, a latent-mode one stays between its pieces and leaves the unit (R243). -/
def State.accOut (s : State) (slot : Nat) : State × Option AccSave :=
  let core := coreOf slot
  let mine := match (s.core core).mma with
    | some op => if op.slot = slot then some op else none
    | none => none
  let s1 := match mine with
    | some op => if op.mode.toNat < 2 then s.mmaFinish core else s
    | none => s
  let c := s1.core core
  if c.owner = some slot then
    let s2 := s1.saveBytes slot (c.accSave (slotNo slot)) (c.accBytes ++ c.fmtBytes)
    (if mine.isSome && c.mma.isSome then (s2.modCore core fun q => { q with mma := none }).mmaGone core else s2,
      some ⟨c.accSat, if mine.isSome then c.mma else none⟩)
  else (s1, none)

/-- Reload them and make the slot the owner (R242). Another slot's mma completes first. A latent-mode mma that was stopped between its pieces goes on with no look at the gate of its sub-arrays: R21 and R380 put the wake before an mma issues, and no rule speaks of one that a restore resumes (DESIGN CHOICE, log 111). -/
def State.accIn (s : State) (slot : Nat) (sv : AccSave) : State :=
  let core := coreOf slot
  let s1 := let st := s.mmaFinish core; st.recallRange ((st.core core).accSave (slotNo slot)) 8320
  let c := s1.core core
  let bs := s1.devRead (c.accSave (slotNo slot)) 8320
  let s2 := s1.setCore core { c.fmtLoad (bs.drop 8192) with
    acc := (List.range 2048).map fun i => (i, BitVec.ofNat 32 (field bs (4 * i) 4))
    accFree := none
    accSat := sv.sat
    owner := some slot
    mma := sv.mma }
  if sv.mma.isSome then s2.mmaEnter core else s2

/-- Some of an engine's commands leave it: the running one with its progress, then the queued ones. A failed one stays until its trap is taken (R236, R390), and a record of the engine stays at the engine, which stays stopped until it is replayed (R72, R211). -/
def Engine.takeOutIf (e : Engine) (mine : EngCmd → Bool) : Engine × List EngCmd :=
  let run := e.run.toList.filter mine
  ({ e with
      run := if run.isEmpty then e.run else none
      queue := e.queue.filter fun c => !mine c
      back := e.back.filter fun c => !mine c },
    (run ++ (e.queue ++ e.back).filter mine).map fun c => { c with list := none, halves := [] })

/-- An engine's commands of a slot leave it. -/
def Engine.takeOut (e : Engine) (slot : Nat) : Engine × List EngCmd := e.takeOutIf fun c => c.slot == slot

/-- Commands that wait to be issued again enter the queue of two as it has room (R20, R243). -/
def Engine.refill (e : Engine) : Engine :=
  { e with queue := e.queue ++ e.back.take (2 - e.queue.length), back := e.back.drop (2 - e.queue.length) }

/-- What a stop took out of an engine comes back: its commands are issued again in their order (R243). -/
def Engine.takeBack (e : Engine) (cmds : List EngCmd) : Engine := { e with back := e.back ++ cmds }.refill

/-- A command's status word (R388). -/
def State.engStatus (s : State) (core : Nat) (c : EngCmd) (v : Nat) : State :=
  let d := engDesc c.desc
  if d.hasStatus then s.tcmWrite core d.status (bytesOf 8 v) else s

/-- The progress of a slot's running command, as its status word gives it at a stop (R243, R388). -/
def State.engNote (s : State) (core slot : Nat) (e : Engine) : State :=
  match e.run with
  | some k => if k.slot == slot then s.engStatus core k k.shown else s
  | none => s

/-- Take the engine commands of a slot out of its core, the progress of a running one in its status word. -/
def State.engOut (s : State) (slot : Nat) : State × List EngCmd × List EngCmd :=
  let core := coreOf slot
  let s1 := (s.engNote core slot (s.core core).copyEng).engNote core slot (s.core core).gathEng
  let c := s1.core core
  let (e1, l1) := c.copyEng.takeOut slot
  let (e2, l2) := c.gathEng.takeOut slot
  (s1.setCore core { c with copyEng := e1.refill, gathEng := e2.refill }, l1, l2)

/-- Save a slot's full frame (R89, R241): the registers and free bytes for the device block to TCM and the overflow area, and the block itself as data (log 17). -/
def State.saveFrame (s : State) (slot : Nat) : State × DevBlock :=
  let sl := s.slot slot
  let (blk, s0) := s.freeBytes 176
  let s1 := s0.frameWrite slot 0 (sl.frameBytes ++ blk)
  let (s2, acc) := s1.accOut slot
  let (s3, cp, ga) := s2.engOut slot
  (s3, ⟨blk, sl.npc, sl.hampers, sl.stack, sl.taskH, sl.qhandles, sl.wait, cp, ga, sl.sig, acc⟩)

/-! ### Writing a record back (R56, R88) -/

/-- The pieces of a range that lie in one page each. -/
def pagePieces (va n : Nat) : List (Nat × Nat) :=
  if n = 0 then []
  else (span (va / 4096) ((va + n - 1) / 4096 + 1 - va / 4096)).map fun pg =>
    let lo := if pg * 4096 < va then va else pg * 4096
    let hi := if va + n < (pg + 1) * 4096 then va + n else (pg + 1) * 4096
    (lo, hi - lo)

/-- The spill of a slot (R56): whether there is one, and its bytes in the spill block. -/
def State.spillDepth (s : State) (slot : Nat) : Option Nat :=
  let c := s.core (coreOf slot)
  let x2 := ((s.slot slot).x[2]).toNat
  let depth := x2 - 0x80000000
  if x2 ≤ 0x80000000 || decide (c.spillSize + c.ovflim.toNat * 4096 < depth) then none
  else some (if depth < c.spillSize then depth else c.spillSize)

/-- The leaf of a page and its level as a fault record carries them, zero and 4 where there is none (R211). -/
def State.leafAt (s : State) (ctx va : Nat) : Word × Nat :=
  match s.walkRaw ctx va with
  | .leaf pte level _ => (BitVec.ofNat 64 pte, level)
  | .bad _ _ _ | .poison _ | .wait => (0, 4)

/-- The failed check of a spill access that a place denies, or that meets a poisoned unit (R211). -/
def State.spillDenied (s : State) (ctx va reason acc cause : Nat) : XFault :=
  let (pte, level) := s.leafAt ctx va
  ⟨ctx, BitVec.ofNat 64 va, pte, reason, acc, 0, level, cause, false⟩

/-- Where the spill bytes of a slot go: its pages, each with the answer of its translation (R56). -/
def State.spillDests (s : State) (slot home n : Nat) : List ((Nat × Nat) × XRes) :=
  (pagePieces home n).map fun pc => (pc, s.translateRaw ⟨slot, (s.slot slot).ctx, 0⟩ .store .plain (BitVec.ofNat 64 pc.1) pc.2)

/-- The spill of a slot that is to give up its task waits: a page of its home for the host link, or for the unlock of a sector (R139, R223). home is that of the task's record, where 0 nothing is written (R56). -/
def State.spillWaits (s : State) (slot home : Nat) : Bool :=
  match s.spillDepth slot with
  | none => false
  | some n => home != 0 && (s.spillDests slot home n).any fun q => match q.2 with
    | .ok p _ => s.mustWait p q.1.2
    | .fail _ | .deny _ => false
    | .wait => true

/-- The spill bytes of a slot go home before its record, page by page, and behind the slot's own earlier stores there (R56, R130): how many have been written, whether the slot is reserved for its task, and the first failed check. It is asked once no page of it waits (State.spillWaits). Where home is 0 the slot is reserved and the bytes stay in the spill block; where a page fails a check they stay there in the same way, and the check stops the slot (R211; DESIGN CHOICE, log 62). -/
def State.spillOut (s0 : State) (slot : Nat) (home : Nat) : State × Nat × Bool × Option XFault :=
  match s0.spillDepth slot with
  | none => (s0, 0, false, none)
  | some n =>
    if home = 0 then (s0, 0, true, none)
    else
      let ctx := (s0.slot slot).ctx
      let s := s0.walkTouch ctx ((pagePieces home n).map (·.1))
      let bs := s.tcmRead (coreOf slot) ((s.core (coreOf slot)).spillOff (slotNo slot)) n
      let dests := s.spillDests slot home n
      let bad := dests.findSome? fun q => match q.2 with
        | .ok _ _ => none
        | .fail f => some f
        | .deny cause => some (s.spillDenied ctx q.1.1 2 1 cause)
        | .wait => some (s.spillDenied ctx q.1.1 2 1 Cause.permission)
      match bad with
      | some f => (s, 0, true, some f)
      | none =>
        (dests.foldl (fun st q => match q.2 with
          | .ok p inter => (sectorPieces p ((bs.drop (q.1.1 - home)).take q.1.2)).foldl (fun st2 w => st2.perform slot w.1 inter w.2 false 0)
              (st.drainSecs slot (sectorsOf p q.1.2))
          | .fail _ | .deny _ | .wait => st) s, n, false, none)

/-- Where the spill bytes are to be read back. -/
def State.spillPlaces (s : State) (slot ctx home n : Nat) : List ((Nat × Nat) × XRes) :=
  (pagePieces home n).map fun pc => (pc, s.translateRaw ⟨slot, ctx, 0⟩ .load .plain (BitVec.ofNat 64 pc.1) pc.2)

/-- The spill bytes can be read back: no page of theirs waits for the host link, and no commit holds a sector of them (R139, R223). -/
def State.spillReady (s : State) (slot ctx home n : Nat) : Bool :=
  (s.spillPlaces slot ctx home n).all fun q => match q.2 with
    | .ok p _ => !s.mustWait p q.1.2
    | .fail _ | .deny _ => true
    | .wait => false

/-- The first failed check of reading them back (R211). A place that denies the access is recorded as reason 2. -/
def State.spillFault (s : State) (slot ctx home n : Nat) : Option XFault :=
  (s.spillPlaces slot ctx home n).findSome? fun q => match q.2 with
    | .fail f => some f
    | .deny cause => some (s.spillDenied ctx q.1.1 2 0 cause)
    | .ok p _ => if s.poisoned p q.1.2 then some (s.spillDenied ctx q.1.1 4 0 Cause.poison) else none
    | .wait => none

/-- Read the spill bytes back at the next dispatch (R56), update-only copies of their sectors recalled (R142). -/
def State.spillIn (s0 : State) (slot ctx home n : Nat) : State :=
  if n = 0 then s0
  else
    let s := s0.walkTouch ctx ((pagePieces home n).map (·.1))
    let (s1, bs) := (s.spillPlaces slot ctx home n).foldl (fun (acc : State × List Byte) q => match q.2 with
      | .ok p _ =>
        let st := acc.1.recallRange p q.1.2
        (st, acc.2 ++ st.devRead p q.1.2)
      | .fail _ | .deny _ | .wait => (acc.1, acc.2 ++ zeros q.1.2)) (s, [])
    s1.tcmWrite (coreOf slot) ((s1.core (coreOf slot)).spillOff (slotNo slot)) bs

/-- The pin field of bytes 8 to 15 (R81). -/
def State.pinBits (s : State) (slot : Nat) : Nat :=
  let g := match s.logical (groveOf slot) with
    | some (gx, gy) => gy * 32 + gx
    | none => 0
  at_ g 54 + at_ (coreOf slot % 8) 51 + at_ (slotNo slot) 49

/-- Write the record of a slot's task back (R88): to the first half for class D, to the extension for classes C and T. The fields of the spawner stand as they are (R81): a0 and a1 as the task was last dispatched with them, but for a suspension that keeps the record alone, which leaves x4 and x5 there (R333). Reserved bits are zeros (R5). -/
def State.writeBack (s : State) (slot key : Nat) (pc : Nat) (aff tframe : Bool) : State :=
  match s.tasks.find key with
  | some t =>
    let sl := s.slot slot
    let first := s.devRead t.pa 64
    let w0 := field first 0 8
    let w1 := field first 8 8
    let v0 := at_ (bits w0 63 62) 62 + at_ (flag aff) 61 + at_ (flag tframe) 60 + at_ (bits w0 59 57) 57 + pc % 2 ^ 48
    let v1 := (if aff then s.pinBits slot else 0) + w1 % 2 ^ 48
    let args := if tframe then ((s.devRead t.half 64).drop 40).take 16 else bytesOf 8 (sl.x[4]).toNat ++ bytesOf 8 (sl.x[5]).toNat
    let bs := bytesOf 8 v0 ++ bytesOf 8 v1 ++ (first.drop 16).take 24 ++ args ++ bytesOf 2 (field first 56 2 % 64) ++ first.drop 58
    let ct := t.cls == 1 || t.cls == 2
    let s1 := s.recWrite (if ct then t.pa + 64 else t.pa) 0 bs
    s1.setTask key { t with ext := t.ext || ct, pin := if aff then some slot else none }
  | none => s

/-! ### Fault records (R72, R211, R212) -/

/-- A record's place in its queue, or the sector of fqhead, is poisoned. -/
def State.recordBad (s : State) (r : FaultRec) : Bool :=
  let d := s.ctxDesc r.ctx
  let head := s.recField d 24 4 % 4096
  s.poisoned (d + 24) 8 || s.poisoned ((s.ctxOf r.ctx).fqbase + head * 64) 64

/-- Write a record into a context's queue, if there is room (R72): the record, then fqhead with the signal (R211); the second component says that it has been written. A context whose descriptor was never read has no queue, and its record waits (log 48). Where the queue's place or the sector of fqhead is poisoned, the context faults (R76), and the record waits at its source, since none is lost. -/
def State.recordPut (s0 : State) (r : FaultRec) : State × Bool :=
  let d := s0.ctxDesc r.ctx
  let s := s0.recallRange (d + 24) 8
  let c := s.ctxOf r.ctx
  let head := s.recField d 24 4 % 4096
  let tail := s.recField d 28 4 % 4096
  if (c.fqbase = 0 && c.ptroot = 0) || (head + 1) % 4096 = tail then (s, false)
  else if s.recordBad r then (if c.st == .faulted || c.stopping != .none then s else s.ctxRaise r.ctx, false)
  else
    let s1 := s.recWrite (c.fqbase + head * 64) 0 r.bytes
    let s2 := s1.recWrite d 24 (bytesOf 4 ((head + 1) % 4096))
    (s2.notify (sectorOf (d + 24)), true)

/-! ### Trap notices (R238) -/

/-- The 32 bytes of a notice (R238). -/
def noticeBytes (addr pc cause flags rec ctx src tick : Nat) : List Byte :=
  bytesOf 8 addr ++ bytesOf 6 pc ++ bytesOf 1 cause ++ bytesOf 1 flags ++ bytesOf 8 rec ++ bytesOf 2 ctx ++ bytesOf 2 src ++ bytesOf 4 tick

/-- Write a notice into the trap ring, if it has a base and room (R238). -/
def State.noticePut (s : State) (bs : List Byte) : Option State :=
  if s.trRing = 0 || s.trHead + 1 = s.trTail then none
  else
    let s1 := s.recWrite (s.trRing.toNat * 32768 + s.trHead.toNat * 32) 0 bs
    some { s1 with trHead := s1.trHead + 1 }

/-- The slot that a notice names as its source. -/
def noticeSrc (bs : List Byte) : Nat := field bs 26 2

/-- The fault source of a path of a slot: the slot itself, or its grove's rule engine (R211). -/
def State.pathSrc (s : State) (slot path : Nat) : FaultSrc :=
  if path = 4 then (s.grove (groveOf slot)).fsrcRule else (s.slot slot).fsrc

/-- Write that source. -/
def State.setPathSrc (s : State) (slot path : Nat) (f : FaultSrc) : State :=
  if path = 4 then s.modGrove (groveOf slot) fun g => { g with fsrcRule := f }
  else s.modSlot slot fun q => { q with fsrc := f }

/-- A record of a slot enters its queue unless its source still awaits the replay of an earlier one (R72, R211). -/
def State.slotRecordPut (s : State) (slot : Nat) (r : FaultRec) : State × Bool :=
  let path := field r.bytes 18 1
  let src := s.pathSrc slot path
  if src.awaiting.isSome && src.awaiting != some r.seq then (s, false)
  else match s.recordPut r with
    | (s1, true) => (s1.setPathSrc slot path { s1.pathSrc slot path with awaiting := some r.seq }, true)
    | q => q

/-- A slot whose reports have left it: a user slot is idle, a firmware slot stays stopped. -/
def Slot.reported (q : Slot) : Slot :=
  if q.record.isSome || q.notice.isSome then q
  else { q with st := if q.task.isSome then .idle else q.st, task := none, ctx := 0, cls := 0, grp := 0 }

/-- A slot's report leaves it once its task's save is complete and its earlier global accesses have performed (R237, R239): a fault record first, then a notice, behind the notices of the slot that wait at the device. -/
def State.report (s : State) (slot : Nat) : State :=
  if (s.slot slot).saving then s
  else match s.drainAll slot with
  | none => s
  | some s1 =>
    let s2 := match (s1.slot slot).record with
      | some r => match s1.slotRecordPut slot r with
        | (t, true) => t.modSlot slot fun q => { q with record := none }
        | (t, false) => t
      | none => s1
    let sl := s2.slot slot
    if sl.record.isSome then s2
    else match sl.notice with
      | some bs =>
        if s2.notices.any fun o => noticeSrc o == noticeSrc bs then s2
        else match s2.noticePut bs with
          | some s3 => s3.modSlot slot fun q => { q with notice := none }.reported
          | none => s2
      | none => if (s1.slot slot).record.isSome then s2.modSlot slot Slot.reported else s2

end Sys2Proof.Machine
end

