-- ==== Sys2Proof/Machine/Ops.lean ====
section
/-! DEFINITION. The named operations of a thread slot: its registers, its guard, the end of an instruction, taking a trap, and the dispatch that returns from one (R90, R234 to R242, R297 to R300, R347). -/

namespace Sys2Proof.Machine

/-- What exec answers. -/
abbrev Out := Host.Outcome State Fault Refusal

/-! ### Registers -/

/-- A scalar register of a slot; x0 reads as zero (R297). -/
def Slot.xr (sl : Slot) (r : Reg) : Word := if r = 0 then 0 else sl.x.get r.toFin

/-- Write a scalar register of a slot; a write to x0 is discarded (R297). -/
def Slot.setXr (sl : Slot) (r : Reg) (v : Word) : Slot :=
  if r = 0 then sl else { sl with x := sl.x.set r.toNat v r.isLt }

/-- A vector register of a slot. -/
def Slot.vr (sl : Slot) (r : Reg) : VWord := sl.v.get r.toFin

/-- Write a vector register of a slot. -/
def Slot.setVr (sl : Slot) (r : Reg) (v : VWord) : Slot := { sl with v := sl.v.set r.toNat v r.isLt }

/-- A mask register of a slot; k0 reads as all ones (R347). -/
def Slot.kr (sl : Slot) (r : KReg) : KWord := if r = 0 then BitVec.allOnes 128 else sl.k.get r.toFin

/-- Write a mask register of a slot; k0 is never written (R347). -/
def Slot.setKr (sl : Slot) (r : KReg) (v : KWord) : Slot :=
  if r = 0 then sl else { sl with k := sl.k.set r.toNat v r.isLt }

/-- A scalar register of the slot whose turn it is. -/
def State.x (s : State) (r : Reg) : Word := s.me.xr r

/-- Write a scalar register of the slot whose turn it is. -/
def State.setX (s : State) (r : Reg) (v : Word) : State := s.modMe fun q => q.setXr r v

/-- The arithmetic side of the slot whose turn it is. -/
def State.fp (s : State) : Fp := ⟨s.me.fpCtl, s.me.rng⟩

/-- Write that arithmetic side. -/
def State.setFp (s : State) (p : Fp) : State := s.modMe fun q => { q with fpCtl := p.ctl, rng := p.rng }

/-! ### The guard (R298) -/

/-- The guard in force: every entry of the predicate stack is 1. -/
def Slot.guard (sl : Slot) : Bool := sl.prVals.toNat % 2 ^ sl.prDepth.toNat == 2 ^ sl.prDepth.toNat - 1

/-! ### Giving up a slot's task (R88, R89, R237, R241) -/

/-- The frame pointer of a task's record, the home of R55. -/
def State.homePtr (s : State) (key : Nat) : Nat :=
  match s.tasks.find key with
  | some t => s.recField t.half 8 8 % 2 ^ 48
  | none => 0

/-- A slot whose task's own state has left it: hampers, handles, packet and wait. -/
def Slot.bare (sl : Slot) : Slot :=
  { sl with hampers := [], stack := [], taskH := none, qhandles := [], packet := none, wait := none, sig := 0 }

/-- The record address of a task. -/
def State.keyVa (s : State) (key : Nat) : Nat :=
  match s.tasks.find key with
  | some t => t.va
  | none => 0

/-- The spill of a slot that is to give up a task waits (R56, R139, R223). -/
def State.saveWaits (s : State) (slot key : Nat) : Bool := s.spillWaits slot (s.homePtr key)

/-- Save a task's frame and its record with aff and tframe set (R89): n bytes of its spill stand at its home, pinned says that the slot is reserved for it. -/
def State.saveRest (s : State) (slot key n : Nat) (pinned : Bool) : State :=
  let (s1, blk) := s.saveFrame slot
  let s2 := s1.writeBack slot key (s.slot slot).pc.toNat true true
  let s3 := s2.modTask key fun t => { t with frame := some blk, spilled := n, sig := blk.sig }
  s3.modSlot slot fun q => { q.bare with reserved := if pinned then some key else q.reserved }

/-- Save a task in full: the spill bytes, the frame, and the record with aff and tframe set (R56, R89); with it the failed check of a spill write. -/
def State.saveTask (s : State) (slot key : Nat) : State × Option XFault :=
  let (s1, n, pinned, f) := s.spillOut slot (s.homePtr key)
  (s1.saveRest slot key n pinned, f)

/-- The slot has no task and is idle. -/
def State.freeSlot (s : State) (slot : Nat) : State :=
  s.modSlot slot fun q => { q.bare with st := .idle, task := none, ctx := 0, cls := 0, grp := 0, stop := none, held := false, stall := [], saving := false }

/-! ### Taking a trap (R234 to R239): the one entry that every trap uses -/

/-- The save of a trapped slot's task, and FAULTED, with the failed check of its spill (R56, R237). -/
def State.trapSave (s : State) (slot key : Nat) : State × Option XFault :=
  let (s1, f) := s.saveTask slot key
  ((s1.taskState key .faulted).modSlot slot fun q => { q with st := .stopped, saving := false }, f)

/-- What a trap does at its slot: the fault registers, an open packet dropped, and for a task the full save and FAULTED, with the failed check of its spill (R56). While a page of the spill waits, so does the save, and the slot stops with its task until it is complete (R139, R223, R237). A slot that runs no task stops where it is (log 12). The watchdog's stop leaves an open wait in the frame, as every stop does (R243). -/
def State.trapEntry (s : State) (slot cause : Nat) (addr : Word) (path : Nat) : State × Option XFault :=
  let s1 := s.modSlot slot fun q => { q with
    faultCause := BitVec.ofNat 64 (cause + at_ path 12), faultAddr := addr, faultPc := q.pc
    packet := none, wait := if q.task.isSome && cause == Cause.watchdog then q.wait else none
    held := false, stall := [], xfer := false, stop := none }
  match (s.slot slot).task with
  | some key =>
    if s1.saveWaits slot key then (s1.modSlot slot fun q => { q with st := .stopped, saving := true }, none) else s1.trapSave slot key
  | none => (s1.modSlot slot fun q => { q with st := .stopped }, none)

/-- The record address of a slot's task; zero for a slot with none (log 12). -/
def State.taskVa (s : State) (slot : Nat) : Nat :=
  match (s.slot slot).task with
  | some key => s.keyVa key
  | none => 0

/-- The record of a failed check waits in its slot to be reported, and the task that it stops awaits its replay (R211, R237). A source that still awaits the replay of an earlier record goes on awaiting that one first. -/
def State.holdRecord (s : State) (slot : Nat) (key : Option Nat) (f : XFault) : State :=
  let src := s.source slot
  let old := s.pathSrc slot f.path
  let fs := old.next (f.addr.toNat / 4096)
  let token := match key with
    | some k => s.keyVa k
    | none => 0
  let s1 := s.setPathSrc slot f.path { fs with awaiting := if old.awaiting.isSome then old.awaiting else fs.awaiting }
  let s2 := match key with
    | some k => s1.modTask k fun t => { t with awaiting := some (src + at_ f.path 16, fs.seq) }
    | none => s1
  let s3 := s2.modSlot slot fun q => { q with record := some ⟨f.ctx, recordBytes f src fs token 0 s.tick.toNat, fs.seq⟩ }
  if f.ctxFault then s3.ctxRaise f.ctx else s3

/-- The failed check of a trapped slot's spill: its record goes before the trap's notice; where the trap has a record of its own, that one stands, and only a poisoned table page shows, which faults the context (R76, R211). -/
def State.spillRecord (s : State) (slot : Nat) (key : Option Nat) (f : Option XFault) : State :=
  match f with
  | none => s
  | some f => if (s.slot slot).record.isSome then s.raiseIf (XRes.fail f).raises else s.holdRecord slot key f

/-- A trap that a notice reports (R238), behind the record of its spill where a check of that has failed. -/
def State.takeTrap (s : State) (slot cause : Nat) (addr : Word) (path : Nat) : State :=
  let sl := s.slot slot
  let bs := noticeBytes addr.toNat sl.pc.toNat cause (flag sl.task.isSome) (s.taskVa slot) sl.ctx (s.source slot) s.tick.toNat
  let (s1, f) := s.trapEntry slot cause addr path
  ((s1.modSlot slot fun q => { q with notice := some bs }).spillRecord slot sl.task f).report slot

/-- A trap that comes from a check of R208, which a fault record reports (R211, R237). addr is what fault.addr holds. -/
def State.takeXFault (s : State) (slot : Nat) (f : XFault) (addr : Word) : State :=
  let (s1, g) := s.trapEntry slot f.cause addr f.path
  ((s1.holdRecord slot (s.slot slot).task f).spillRecord slot (s.slot slot).task g).report slot

/-- The save that a trapped slot waited for is complete, and its report may leave (R237, R239). -/
def State.trapSaved (s : State) (slot : Nat) : State :=
  match (s.slot slot).task with
  | none => s
  | some key =>
    if s.saveWaits slot key then s
    else
      let (s1, f) := s.trapSave slot key
      (s1.spillRecord slot (some key) f).report slot

/-! ### Returning: dispatch and restore (R55, R56, R90, R241 to R243) -/

/-- The registers of a dispatch that restores no frame (R90, R348). n numbers the free values of the undefined vector and mask registers. -/
def Slot.fresh (sl : Slot) (n pc a0 a1 va : Nat) : Slot :=
  { sl with
    x := Vector.ofFn fun (i : Fin 32) =>
      if i.val = 2 then 0x80000000
      else if i.val = 4 then BitVec.ofNat 64 a0
      else if i.val = 5 then BitVec.ofNat 64 a1
      else if i.val = 6 then BitVec.ofNat 64 va
      else 0
    v := Vector.ofFn fun (i : Fin 32) => Config.freeVector (n + i.val)
    k := Vector.ofFn fun (i : Fin 8) => if i.val = 0 then 0 else Config.freeMask (n + i.val)
    vl := 0
    vshape := 0
    fpCtl := 0
    prVals := 0
    prDepth := 0
    pc := BitVec.ofNat 48 pc }

/-! The monitors of a wait (R124). -/

/-- A condition watches a sector through the monitor table. -/
def Cond.inTable (c : Cond) : Bool := !c.polled && (c.kind == 0 || c.kind == 1 || c.kind == 3 || c.kind == 6)

/-- The waits of a grove: of its slots and parked. -/
def State.waitsOf (s : State) (g : Nat) : List Wait :=
  ((s.slots.filter fun q => groveOf q.1 == g).filterMap fun q => q.2.wait) ++ (s.grove g).parks.map (·.wait)

/-- The sectors that a grove watches. -/
def State.watchedSecs (s : State) (g : Nat) : List Nat :=
  nub (((s.waitsOf g).map fun w => (w.conds.filter Cond.inTable).map fun c => sectorOf c.pa).flatten)

/-- Install conditions: one that finds the table of 64 entries full is polled (R124). -/
def State.install (s : State) (g : Nat) (cs : List Cond) : List Cond :=
  (cs.foldl (fun (acc : List Cond × List Nat) c =>
    if !c.inTable || acc.2.contains (sectorOf c.pa) then (acc.1 ++ [c], acc.2)
    else if acc.2.length < 64 then (acc.1 ++ [c], acc.2 ++ [sectorOf c.pa])
    else (acc.1 ++ [{ c with polled := true }], acc.2)) ([], s.watchedSecs g)).1

/-- An open wait back at its slot: its monitors are installed afresh, every condition is to be evaluated, and it holds afresh; its deadline stands (R243). -/
def State.rewait (s : State) (slot : Nat) (w : Wait) : Wait :=
  { w with
    hold := s.tick.toNat + (s.slot slot).wtHold.toNat
    conds := s.install (groveOf slot) (w.conds.map fun c => { c with polled := false, note := true, entered := false }) }

/-- The task's own state back in its slot from a device block, with its open wait (R241). -/
def Slot.rejoin (sl : Slot) (b : DevBlock) (w : Option Wait) : Slot :=
  { sl with
    npc := b.npc
    hampers := b.hampers, stack := b.stack, taskH := b.taskH, qhandles := b.qhandles, sig := b.sig
    wait := w
    st := if w.isSome then .waiting else .run }

/-- The address of a poisoned unit in what a dispatch would restore of a task: its frame, and the accumulator's block (R242, R245). -/
def State.restoreBad (s : State) (slot : Nat) (t : Task) : Option Nat := t.frame.bind fun b => s.frameBad slot b.acc.isSome

/-- The device block of the frame that a dispatch would restore is as the device wrote it (R241); of a frame that a poisoned unit keeps from being restored, nothing is asked. -/
def State.frameIntact (s : State) (slot key : Nat) : Bool :=
  match s.tasks.find key with
  | some t => match t.frame with
    | some blk => (s.restoreBad slot t).isSome || (s.frameRead slot).drop 4560 == blk.bytes
    | none => true
  | none => true

/-- A task's registers and its own state in a slot: the frame and the device block where the record keeps them, else the registers of R90; then the result of a parked wait (R90, R333). -/
def State.restore (s : State) (slot key : Nat) (t : Task) : State :=
  let tick := s.tick.toNat
  let base := fun (q : Slot) => { q with
    task := some key, ctx := t.ctx, cls := t.cls, grp := t.grp, since := tick, st := .run, stop := none, held := false, stall := []
    reserved := none, xfer := true, packet := none, wait := none }
  let s1 := match t.frame with
    | some blk =>
      let s0 := s.recallRange ((s.core (coreOf slot)).ovfAt (slotNo slot)) 8192
      let bs := s0.frameRead slot
      let s1 := s0.modSlot slot fun q => ((base q).fromFrame bs).rejoin blk (blk.wait.map (s.rewait slot))
      let s2 := s1.modCore (coreOf slot) fun c => { c with
        copyEng := c.copyEng.takeBack blk.copyCmds
        gathEng := c.gathEng.takeBack blk.gathCmds }
      match blk.acc with
      | some sv => s2.accIn slot sv
      | none => s2
    | none =>
      let a0 := s.recField t.half 40 8
      let a1 := s.recField t.half 48 8
      let s1 := s.modSlot slot fun q => { ((base q).fresh s.fresh (s.recField t.half 0 8 % 2 ^ 48) a0 a1 t.va) with
        taskH := if t.cls == 1 || t.cls == 2 then some (t.hamper.getD ⟨.opened, 0, [], [], []⟩) else none
        hampers := [], stack := [], qhandles := [], sig := t.sig }
      { s1 with fresh := s1.fresh + 64 }
  match t.result with
  | some (r, v) => s1.modSlot slot fun q => q.setXr r v
  | none => s1

/-- A dispatch that traps before its first instruction: with the failed check of a spill access, or with a cause alone, which a notice reports. A frame that stands stays where it is and takes the fault registers; a task with no frame is saved in full, as at every trap (R237). Its spill bytes stay at their home. -/
def State.dispatchTrap (s : State) (slot key : Nat) (t : Task) (cause : Nat) (addr : Word) (f : Option XFault) : State :=
  let pc : Addr := BitVec.ofNat 48 (match t.frame with
    | some _ => field (s.frameRead slot) 4480 8
    | none => s.recField t.half 0 8)
  let here := fun (q : Slot) => { q with
    task := some key, ctx := t.ctx, cls := t.cls, grp := t.grp, st := .stopped
    faultCause := BitVec.ofNat 64 cause, faultAddr := addr, faultPc := pc }
  let s1 := match t.frame with
    | some _ => (s.modSlot slot here).frameWrite slot 4520 (bytesOf 8 cause ++ bytesOf 8 addr.toNat ++ bytesOf 8 pc.toNat)
    | none => ((s.restore slot key t).modSlot slot here).saveRest slot key t.spilled ((s.slot slot).reserved == some key)
  let s2 := (s1.modTask key fun u => { u with hamper := none, result := none, dispatched := true, slot := slot }).taskState key .faulted
  (match f with
    | some f => s2.holdRecord slot (some key) f
    | none => s2.modSlot slot fun q => { q with
      notice := some (noticeBytes addr.toNat pc.toNat cause 1 t.va t.ctx (s.source slot) s.tick.toNat) }).report slot

/-- Dispatch a task to a slot (R90): what State.restore gives, and the spill bytes back in their block (R56). It is a control transfer (R276) and an acquire (R133). A poisoned unit of the frame, or spill bytes that cannot be read back, stop the slot before the first instruction, and the task is FAULTED (R211, R245). -/
def State.dispatch (s0 : State) (slot key : Nat) : State :=
  match s0.tasks.find key with
  | none => s0
  | some t =>
    let s := s0.recallRange t.pa 64
    match s.restoreBad slot t, s.spillFault slot t.ctx (s.homePtr key) t.spilled with
    | some a, _ => s.dispatchTrap slot key t Cause.poison (BitVec.ofNat 64 a) none
    | none, some f => s.dispatchTrap slot key t f.cause f.addr (some f)
    | none, none =>
    let s1 := (s.restore slot key t).spillIn slot t.ctx (s.homePtr key) t.spilled
    ((s1.modTask key fun u => { u with
      frame := none, spilled := 0, hamper := none, result := none, awaiting := none, pin := none, dispatched := true, slot := slot }).taskState key .running).acquired slot

/-! ### A failed engine command -/

/-- The trap of a failed command is the current slot's to take: it is the slot that issued the command (R236), whatever task it now runs, unless the task that issued it is saved with the slot's frame and comes back to it (R89, log 115). -/
def State.mineToTrap (s : State) (f : EngFail) : Bool :=
  f.slot == s.cur && (f.task == s.me.task || !(match f.task with
    | some key => (match s.tasks.find key with
      | some t => t.frame.isSome
      | none => false)
    | none => false))

/-- A failed command traps its slot with the command's cause and the engine's path (R236). -/
def State.engTrap (s : State) (gather : Bool) (k : Eff) : Eff :=
  match (s.myCore.eng gather).fail.find? s.mineToTrap with
  | some f =>
    .trap (s.modMyCore fun q => q.setEng gather { q.eng gather with fail := (q.eng gather).fail.filter fun o => o != f })
      f.cause.toNat f.addr (if gather then 2 else 1)
  | none => k

/-! ### The end of an instruction -/

/-- Go on after the chain. -/
def State.advance (s : State) : State := s.modMe fun q => { q with pc := q.npc }

/-- The next state of the module for what a meaning answers. -/
def finish : Eff → Out
  | .next s => .next s.advance
  | .jump s t => .next (s.modMe fun q => { q with pc := t, xfer := true })
  | .hold s => .next (s.modMe fun q => { q with held := true })
  | .left s => .next s
  | .trap s cause addr path => .next (s.takeTrap s.cur cause addr path)
  | .xfault s f addr => .next (s.takeXFault s.cur f addr)

/-- A chain other than msg.put and msg.end between msg.open and msg.end traps ILLEGAL whatever its guard (R125, R298). -/
def State.packetRule (s : State) (e : Eff) : Eff := if s.me.packet.isSome then .trap s Cause.illegal 0 0 else e

/-- An instruction that executes whatever the guard (R298). -/
def always (s : State) (e : Eff) : Out := finish (s.packetRule e)

/-- A guarded instruction: with a false guard it only advances (R298). -/
def guarded (s : State) (e : Eff) : Out := finish (s.packetRule (if s.me.guard then e else .next s))

/-- A guarded firmware-only instruction: the privilege check is of order 3, before the message rule, and is made whatever the guard (R281, R298). -/
def firmwareOnly (s : State) (e : Eff) : Out :=
  finish (if s.isFw s.cur then s.packetRule (if s.me.guard then e else .next s) else .trap s Cause.privilege 0 0)

end Sys2Proof.Machine
end

