-- ==== Sys2Proof/Machine/Operands.lean ====
section
/-! DEFINITION. The operand forms: where an effective address leads, loads, stores, atomics, reductions, and what a collecting slot records (R51 to R61, R137 to R142, R154 to R161, R320 to R325). -/

namespace Sys2Proof.Machine

/-- A value with the state it was got in, or the end of the instruction. -/
inductive Got (α : Type)
  | ok (v : α) (s : State)
  | no (e : Eff)

/-- Go on with the value, if there is one. -/
def Got.andThen {α : Type} (g : Got α) (f : α → State → Eff) : Eff :=
  match g with
  | .ok v s => f v s
  | .no e => e

/-- Chain two steps. -/
def Got.bind {α β : Type} (g : Got α) (f : α → State → Got β) : Got β :=
  match g with
  | .ok v s => f v s
  | .no e => .no e

/-! ### Where an address leads (R51 to R61, R323 orders 1 to 3) -/

/-- A checked address. A global one says whether collecting mode records its stores: the global part of the spill window is never collected (R55). -/
inductive Place
  | tcm (off : Nat)
  | scr (off : Nat)
  | glob (ea : Word) (coll : Bool)
  | bad (cause : Nat)
  deriving DecidableEq, Repr

/-- The effective address of R320. -/
def ea (b off : Word) : Word := b + off

/-- The physical offset of n bytes within one word at a logical offset of the skewed region (R61). -/
def Core.skewMap (c : Core) (o n : Nat) : Option Nat :=
  let base := c.skewBase.toNat * 256
  let size := (c.skewRows.toNat + 1) * 256
  if !c.skewEn || decide (o < base) || decide (base + size < o + n) then none
  else
    let i := (o - base) / 256
    let j := (o - base) % 256 / 8
    some (base + 256 * i + 8 * ((j + i) % 32) + o % 8)

/-- The spill window (R55). Its global part is an ordinary global access, so that home + d is aligned as that access has to be. R55 resolves the window for a slot that runs a task; one that runs none traps PERMISSION there, as at any other offset outside its user area (DESIGN CHOICE, log 61). -/
def State.spillPlace (s : State) (o n al : Nat) : Place :=
  let d := o - 0x80000000
  let c := s.myCore
  match s.me.task with
  | none => .bad Cause.permission
  | some key =>
    let home := s.homePtr key
    if d + n ≤ c.spillSize then .tcm (c.spillOff (slotNo s.cur) + d)
    else if c.spillSize ≤ d && home != 0 && decide (d + n ≤ c.spillSize + c.ovflim.toNat * 4096) then
      if 2 ^ 48 ≤ home + d then .bad Cause.translation
      else if (home + d) % al ≠ 0 then .bad Cause.misaligned
      else .glob (BitVec.ofNat 64 (home + d)) false
    else .bad Cause.permission

/-- Checks 1 to 3 of R323 on n bytes that must be aligned to al. -/
def State.place (s : State) (sp : Space) (sk : Bool) (ea : Word) (n al : Nat) : Place :=
  let o := ea.toNat
  match sp with
  | .glob =>
    if 2 ^ 48 ≤ o then .bad Cause.translation
    else if o % al ≠ 0 then .bad Cause.misaligned
    else .glob ea true
  | .tcm =>
    if 2 ^ 32 ≤ o then .bad Cause.permission
    else if o % al ≠ 0 then .bad Cause.misaligned
    else if o + n ≤ s.myCore.utop.toNat * 256 then .tcm o
    else if o < 0x80000000 then .bad Cause.permission
    else s.spillPlace o n al
  | .scr =>
    if 2 ^ 32 ≤ o then .bad Cause.permission
    else if o % al ≠ 0 then .bad Cause.misaligned
    else if sk then
      (match s.myCore.skewMap o n with
        | some p => .scr p
        | none => .bad Cause.permission)
    else if o + n ≤ 0x100000 then .scr o
    else .bad Cause.permission

/-- Translate one access of the slot on its core path; addr is what fault.addr holds (R208, R323). -/
def State.xlate (s : State) (acc : Access) (need : Need) (ea : Word) (n : Nat) (whole : Bool) (addr : Word) : Got (Nat × Bool) :=
  match s.translate (coreOf s.cur) ⟨s.cur, s.me.ctx, 0⟩ acc need ea n whole false with
  | (.ok p inter, s1) => .ok (p, inter) s1
  | (.fail f, s1) => .no (.xfault s1 f addr)
  | (.deny cause, s1) => .no (.trap s1 cause addr 0)
  | (.wait, s1) => .no (.hold s1)

/-! ### Debug overlap (R138) -/

/-- A slot in debug mode overlaps a recorded store of another slot and size within its window. -/
def State.mixClash (s : State) (p n : Nat) (inter : Bool) : Bool :=
  let sl := s.me
  sl.memMix && (s.grove (s.home p inter)).dbg.any fun d =>
    d.slot != s.cur && d.size != n && decide (p < d.pa + d.size) && decide (d.pa < p + n) &&
    decide (s.tick.toNat ≤ d.tick + sl.memWindow.toNat)

/-- The home records a store of a slot in debug mode, the last 256 of them. -/
def State.mixRecord (s : State) (p n : Nat) (inter : Bool) : State :=
  if s.me.memMix then
    s.modGrove (s.home p inter) fun g => { g with dbg := (⟨p, n, s.cur, s.tick.toNat⟩ :: g.dbg).take 256 }
  else s

/-! ### What an ENGINE entry writes (R157 to R159) -/

/-- An entry waits for the capture of its source bytes (R157). -/
def uncaptured (es : List HEntry) : Bool := es.any fun e => e.cap.isSome

/-- A place that an apply would read; none where it cannot. -/
def State.viewPlace (s : State) (w : Who) (va n : Nat) : Option Nat :=
  if 2 ^ 48 ≤ va then none
  else match s.translateRaw w .engRead .plain (BitVec.ofNat 64 va) n with
    | .ok p _ => some p
    | .fail _ | .deny _ | .wait => none

/-- The index of an element of a gather or scatter entry: captured behind the source bytes, or read at its home. -/
def State.viewIdx (s : State) (w : Who) (d : EngDesc) (payload : List Byte) (k : Nat) : Option Nat :=
  if d.idxSpace ≠ 0 then some (field payload (d.idxPos k) 4)
  else (s.viewPlace w ((d.idx + 4 * k) % 2 ^ 64) 4).map fun p => natOf (s.devRead p 4)

/-! ### Hamper storage (R155 to R161) -/

/-- The 16-byte units of an entry (R156, R157). -/
def HEntry.size (e : HEntry) : Nat := 1 + ceilDiv e.units.length 16

/-- The units of a hamper. -/
def Hamper.size (h : Hamper) : Nat := (h.entries.map HEntry.size).sum

/-- n bytes from an address touch a word. -/
def onWordAt (word a n : Nat) : Bool := decide (a < 8 * word + 8) && decide (8 * word < a + n)

/-- An ENGINE entry may write a word: a row of a copy or the destination of a gather lies on it, or a captured index of a scatter leads there. A scatter whose indices are not known yet may write any word. -/
def HEntry.engCovers (e : HEntry) (word : Nat) : Bool :=
  let d := engDesc (e.units.take 48)
  let a := e.ea.toNat
  if e.cmd = 0 then (List.range d.rows).any fun r => onWordAt word (strideAdd a r d.dstride) d.n
  else if e.cmd = 1 then onWordAt word a d.total
  else if d.idxSpace = 0 || e.cap.isSome then true
  else (List.range d.n).any fun k =>
    let i := field (e.units.drop 48) (d.idxPos k) 4
    decide (i < d.dstride) && onWordAt word ((a + i * d.rows) % 2 ^ 64) d.rows

/-- An entry is one for a word: it writes bytes of it, or the word lies in its counter or record (R158). -/
def HEntry.covers (e : HEntry) (word : Nat) : Bool :=
  let k := e.kind.toNat
  if k = 6 then e.engCovers word
  else if k = 2 then onWordAt word e.ea.toNat 64
  else if k = 3 then onWordAt word e.ea.toNat 16
  else e.words.any fun o => o.ea.toNat / 8 == word

/-- The entry of a store of bytes that lie in one word (R156): kind 0 STORE or 5 SIGNAL. -/
def storeEntry (kind : Nat) (ea : Nat) (bs : List Byte) : HEntry :=
  let off := ea % 8
  ⟨BitVec.ofNat 4 kind, BitVec.ofNat 12 (at_ (2 ^ bs.length - 1) off), BitVec.ofNat 48 (ea / 8 * 8),
    BitVec.ofNat 64 (at_ (natOf bs) (8 * off)), [], 0, none, 0⟩

/-- The masked bytes of a later STORE replace those of an earlier one (R158). -/
def HEntry.merge (old new : HEntry) : HEntry :=
  let bs := (List.range 8).map fun i =>
    if new.par.getLsbD i then new.val.extractLsb' (8 * i) 8 else old.val.extractLsb' (8 * i) 8
  { old with par := old.par ||| new.par, val := BitVec.ofNat 64 (natOf bs) }

/-- The bytes of global memory that an entry writes, or that it arms or enqueues, as addresses and lengths; those of an ENGINE entry are its rows, or where its captured indices lead. -/
def HEntry.spans (e : HEntry) : List (Nat × Nat) :=
  let k := e.kind.toNat
  let a := e.ea.toNat
  if k = 6 then
    let d := engDesc (e.units.take 48)
    if e.cmd = 0 then (List.range d.rows).map fun r => (strideAdd a r d.dstride, d.n)
    else if e.cmd = 1 then [(a, d.total)]
    else (List.range d.n).map fun i => ((a + field (e.units.drop 48) (d.idxPos i) 4 * d.rows) % 2 ^ 64, d.rows)
  else if k = 2 then [(a, 64)]
  else if k = 3 then [(a, 16)]
  else e.words.map fun o => (o.ea.toNat / 8 * 8, 8)

/-- A span of virtual addresses meets the word at a place, through another page of the same frame: each page of it is looked up where its part of the page holds the word's offset. -/
def State.spanMeets (s : State) (w : Who) (p : Nat) (q : Nat × Nat) : Bool :=
  (pagePieces q.1 q.2).any fun pc =>
    let a := pc.1 / 4096 * 4096 + p % 4096
    onWordAt (a / 8) pc.1 pc.2 && s.viewPlace w (a / 8 * 8) 8 == some (p / 8 * 8)

/-- An entry is one for a word: by its virtual addresses, or by the word's place where another virtual address names it (R158). -/
def State.entryFor8 (s : State) (w : Who) (word : Nat) (place : Option Nat) (e : HEntry) : Bool :=
  e.covers word || (match place with
    | some p => e.spans.any (s.spanMeets w p)
    | none => false)

/-- The place of the last entry that meets a test. -/
def lastFor (es : List HEntry) (f : HEntry → Bool) : Option Nat :=
  (List.range es.length).foldl (fun acc i => match es[i]? with
    | some e => if f e then some i else acc
    | none => acc) none

/-- The place to merge a new STORE into: the last entry for its word, where that is a STORE at the same address (R158). f says which entries are for the word. -/
def mergeAt (es : List HEntry) (e : HEntry) (f : HEntry → Bool) : Option Nat :=
  if e.kind = 0 && !e.par.getLsbD 8 then
    match lastFor es f with
    | some i => match es[i]? with
      | some old => if old.kind = 0 && old.addr == e.addr then some i else none
      | none => none
    | none => none
  else none

/-- The innermost open hamper of a slot. -/
def Slot.inner (sl : Slot) : Option Hamper :=
  match sl.stack with
  | r :: _ => sl.hampers.find r.index
  | [] => sl.taskH

/-- Write it. -/
def Slot.setInner (sl : Slot) (h : Hamper) : Slot :=
  match sl.stack with
  | r :: _ => { sl with hampers := sl.hampers.put r.index h }
  | [] => { sl with taskH := some h }

/-- The hampers that a task holds off its slot. -/
def Task.hampers (t : Task) : List Hamper :=
  (match t.hamper with
    | some h => [h]
    | none => []) ++
  (match t.frame with
    | some b => b.hampers.vals ++ (match b.taskH with
      | some h => [h]
      | none => [])
    | none => [])

/-- The units of a slot's share of TCM that hampers hold: its own, and those of the tasks that are pinned to it or have ended their run on it (R167). R160 does not say whether the units of a COMMITTING task's hamper count until its commit has applied: they do, since its entries are read there (DESIGN CHOICE, log 101). -/
def State.shareUsed (s : State) (slot : Nat) : List Nat :=
  let sl := s.slot slot
  (((sl.hampers.vals ++ sl.taskH.toList) ++ ((s.tasks.vals.filter fun t => t.pin == some slot || t.slot == slot).map Task.hampers).flatten).map Hamper.share).flatten

/-- The places that a slot's innermost hamper can take next: free units of the share of TCM, then free units of the frames it holds (R160). -/
def State.freeUnits (s : State) (slot : Nat) (h : Hamper) : List UnitAt :=
  let used := s.shareUsed slot
  ((List.range ((s.core (coreOf slot)).hamper.toNat * 4)).filter fun u => !used.contains u).map UnitAt.share ++
  ((h.frames.flatMap fun f => (List.range 256).map fun i => UnitAt.frame (f + 16 * i)).filter fun u => !h.places.contains u)

/-- Write units at their places: the hamper area of TCM, or pool frames (R53, R156, R160). -/
def State.unitsPut (s : State) (slot : Nat) (places : List UnitAt) (bs : List Byte) : State :=
  (List.zip (List.range places.length) places).foldl (fun st q =>
    let chunk := (bs.drop (16 * q.1)).take 16
    match q.2 with
    | .share u => st.tcmWrite (coreOf slot) ((st.core (coreOf slot)).hamperOff (slotNo slot) + 16 * u) chunk
    | .frame p => st.recWrite p 0 chunk) s

/-- The bytes of an entry (R156, R157). -/
def HEntry.bytes (e : HEntry) : List Byte :=
  bytesOf 8 (at_ e.kind.toNat 60 + at_ e.par.toNat 48 + e.addr.toNat) ++ bytesOf 8 e.val.toNat ++ e.units

/-- The bytes of a hamper's entries, in order. -/
def Hamper.bytes (h : Hamper) : List Byte := (h.entries.map HEntry.bytes).flatten

/-- The bytes that stand at the places of units. -/
def State.unitsGet (s : State) (slot : Nat) (places : List UnitAt) : List Byte :=
  (places.map fun u => match u with
    | .share n => s.tcmRead (coreOf slot) ((s.core (coreOf slot)).hamperOff (slotNo slot) + 16 * n) 16
    | .frame p => s.devRead p 16).flatten

/-- The entry that began at a unit of a hamper's storage, for what the device keeps beside the bytes. -/
def entryFrom : List HEntry → Nat → Option HEntry
  | [], _ => none
  | e :: rest, u => if u = 0 then some e else if e.size ≤ u then entryFrom rest (u - e.size) else none

/-- The entries that units hold, from the unit numbered u on: fuel bounds them. -/
def readEntries (old : List HEntry) : Nat → Nat → List Byte → List HEntry
  | 0, _, _ => []
  | fuel + 1, u, bs =>
    if bs.isEmpty then []
    else
      let w := field bs 0 8
      let n := if bits w 63 60 = 6 then bits w 59 48 else 0
      let was := entryFrom old u
      ⟨BitVec.ofNat 4 (bits w 63 60), BitVec.ofNat 12 (bits w 59 48), BitVec.ofNat 48 w, BitVec.ofNat 64 (field bs 8 8), (bs.drop 16).take (16 * n),
        (was.map (·.cmd)).getD 0, (was.map (·.cap)).getD none, (was.map (·.off)).getD 0⟩ ::
      readEntries old fuel (u + 1 + n) (bs.drop (16 * (1 + n)))

/-- A hamper as its storage stands: the device reads the entries there, where an engine command or the firmware column may have written (R59, R156, R252). -/
def State.readBack (s : State) (slot : Nat) (h : Hamper) : Hamper :=
  let bs := s.unitsGet slot h.places
  if h.places.length ≠ h.size || bs = h.bytes then h else { h with entries := readEntries h.entries h.places.length 0 bs }

/-- Every open hamper of a slot, from the bottom up (R159). -/
def State.openHampers (s : State) (slot : Nat) : List Hamper :=
  let sl := s.slot slot
  (sl.taskH.toList ++ sl.stack.reverse.filterMap fun r => sl.hampers.find r.index).map (s.readBack slot)

/-- Write every entry of a hamper at its places. -/
def State.hamperOut (s : State) (slot : Nat) (h : Hamper) : State := s.unitsPut slot h.places h.bytes

/-- The device's field of hamper bytes in a context's descriptor (R69). -/
def State.hused (s : State) (ctx : Nat) : Nat := s.recField (s.ctxDesc ctx) 40 8

/-- Take k frames from the pool, or none of them (R160). -/
def State.takeFrames (s : State) (ctx : Nat) : Nat → Option (List Nat × State)
  | 0 => some ([], s)
  | k + 1 =>
    let head := s.hlPool.toNat * 4096
    if head = 0 || decide ((s.ctxOf ctx).hbudget < s.hused ctx + 4096) then none
    else
      let next := bits (natOf (s.devRead head 8)) 51 12
      let s1 := { s with hlPool := BitVec.ofNat 40 next }
      let s2 := s1.recWrite (s1.ctxDesc ctx) 40 (bytesOf 8 (s1.hused ctx + 4096))
      match s2.takeFrames ctx k with
      | some (fs, s3) => some (head :: fs, s3)
      | none => none

/-- Frames go back to the pool (R160). -/
def State.giveFrames (s : State) (ctx : Nat) (fs : List Nat) : State :=
  fs.foldl (fun st f =>
    let s1 := st.recWrite f 0 (bytesOf 8 (st.hlPool.toNat * 4096))
    let s2 := { s1 with hlPool := BitVec.ofNat 40 (f / 4096) }
    s2.recWrite (s2.ctxDesc ctx) 40 (bytesOf 8 (s2.hused ctx - 4096))) s

/-- Append one entry to the innermost open hamper of the slot, its units written where they lie (R155, R156, R160); none where a frame is needed and cannot be taken. -/
def State.hamperAppend (s : State) (e : HEntry) : Option State :=
  let sl := s.me
  match sl.inner with
  | none => some s
  | some h0 =>
    let h := s.readBack s.cur h0
    let here := s.freeUnits s.cur h
    match s.takeFrames sl.ctx (ceilDiv (e.size - here.length) 256) with
    | none => none
    | some (fs, s1) =>
      let all := here ++ fs.flatMap fun f => (List.range 256).map fun i => UnitAt.frame (f + 16 * i)
      let mine := all.take e.size
      some ((s1.modMe fun q => q.setInner { h with
        entries := h.entries ++ [e], places := h.places ++ mine, frames := h.frames ++ fs }).unitsPut s1.cur mine e.bytes)

/-- Record one entry in the innermost open hamper of the slot, merged where R158 merges it. The hamper is taken as its storage stands (R59, R156). -/
def State.hamperPut1 (s : State) (e : HEntry) : Option State :=
  match s.me.inner with
  | none => some s
  | some h0 =>
    let h := s.readBack s.cur h0
    let w : Who := ⟨s.cur, s.me.ctx, 0⟩
    let word := e.ea.toNat / 8
    match mergeAt h.entries e (s.entryFor8 w word (s.viewPlace w (8 * word) 8)) with
    | some i =>
      let es := modifyAt (fun o => o.merge e) h.entries i
      let before := ((es.take i).map HEntry.size).sum
      some ((s.modMe fun q => q.setInner { h with entries := es }).unitsPut s.cur ((h.places.drop before).take 1)
        (((es.drop i).head?).map HEntry.bytes |>.getD []))
    | none => s.hamperAppend e

/-- Record entries in order, all of them or none (R160). -/
def State.hamperPut (s : State) (es : List HEntry) : Option State :=
  es.foldl (fun acc e => match acc with
    | some st => st.hamperPut1 e
    | none => none) (some s)

/-- Record entries, or trap HAMPER_CAPACITY with nothing recorded. -/
def State.collect (s : State) (es : List HEntry) (addr : Word) : Got Unit :=
  match s.hamperPut es with
  | some s1 => .ok () s1
  | none => .no (.trap s Cause.hamperCapacity addr 0)

/-! ### A collecting slot's own view (R159) -/

/-- The runs of an ENGINE entry as an apply at this moment would take them: of an element that is masked, a run with no source. -/
def State.viewRuns (s : State) (w : Who) (e : HEntry) : List (Run × Bool) :=
  let d := engDesc (e.units.take 48)
  let payload := e.units.drop 48
  if e.cmd = 0 then (d.cpRuns e.ea.toNat).map fun r => (r, true)
  else (List.range d.n).filterMap fun k => match s.viewIdx w d payload k with
    | some i =>
      if i < d.dstride then some (d.elemRun e.cmd.toNat e.ea.toNat k i, true)
      else if e.cmd = 1 then some (d.elemRun 1 e.ea.toNat k i, false)
      else none
    | none => none

/-- The bytes of a run: captured, committed memory at its global source, or zeros. One whose source cannot be read writes nothing. -/
def State.viewBytes (s : State) (w : Who) (e : HEntry) (r : Run × Bool) : Option (List Byte) :=
  let d := engDesc (e.units.take 48)
  if !r.2 then some (zeros r.1.n)
  else if d.srcLocal then some (((e.units.drop 48).drop r.1.pos).take r.1.n)
  else (s.viewPlace w r.1.src r.1.n).map fun p => s.devRead p r.1.n

/-- The bytes of one word with a write laid over them. -/
def overWord (word : Nat) (bs : List Byte) (dst : Nat) (new : List Byte) : List Byte :=
  (List.range 8).map fun i =>
    let a := 8 * word + i
    if dst ≤ a && a < dst + new.length then (new[a - dst]?).getD 0 else (bs[i]?).getD 0

/-- Where n bytes at an effective address meet a word of the view, with the word in the same numbering: by the addresses where they touch its virtual word, else by their place where they touch the word's (R159). word is the virtual word, pw the number of its place. -/
def State.meets (s : State) (w : Who) (word pw va n : Nat) : Option (Nat × Nat) :=
  if va < 8 * word + 8 && 8 * word < va + n then some (word, va)
  else if bits va 11 7 ≠ bits (8 * pw) 11 7 then none
  else match s.viewPlace w va n with
    | some q => if q < 8 * pw + 8 && 8 * pw < q + n then some (pw, q) else none
    | none => none

/-- One entry applied to the 8 bytes of a word, an ENGINE entry with what its command writes there (R159). -/
def State.entryOn (s : State) (w : Who) (word pw : Nat) (bs : List Byte) (e : HEntry) : List Byte :=
  if e.kind = 6 then
    (s.viewRuns w e).foldl (fun acc r => match s.meets w word pw r.1.dst r.1.n with
      | some (k, a) => (match s.viewBytes w e r with
        | some new => overWord k acc a new
        | none => acc)
      | none => acc) bs
  else e.words.foldl (fun acc o => match s.meets w word pw (o.ea.toNat / 8 * 8) 8 with
    | some _ => { o with addr := BitVec.ofNat 48 (o.ea.toNat % 8), off := 0 }.onWord1 0 acc
    | none => acc) bs

/-- A hamper's entries in the order in which an apply performs them: the decrements come behind the data (R87, R165). -/
def applyOrder (es : List HEntry) : List HEntry := es.filter (fun e => e.kind != 3) ++ es.filter (fun e => e.kind == 3)

/-- n bytes at an effective address with its place, as every open hamper of a slot would leave them, from the bytes of the aligned words beneath (R159). -/
def State.ownView (s : State) (slot ea p n : Nat) (under : List Byte) : List Byte :=
  let sl := s.slot slot
  let w : Who := ⟨slot, sl.ctx, 1⟩
  let w0 := ea / 8
  let es := (s.openHampers slot).flatMap fun h => applyOrder h.entries
  let words := span w0 ((ea + n - 1) / 8 + 1 - w0)
  let all := (words.map fun k => es.foldl (s.entryOn w k (p / 8 + (k - w0))) ((under.drop ((k - w0) * 8)).take 8)).flatten
  (all.drop (ea % 8)).take n

/-- The addresses that a view of an ENGINE entry walks: its global index list, and its global sources. -/
def State.engWalks (s : State) (w : Who) (e : HEntry) : List Nat :=
  let d := engDesc (e.units.take 48)
  (if e.cmd = 0 || d.idxSpace ≠ 0 then [] else (List.range d.n).map fun k => (d.idx + 4 * k) % 2 ^ 64) ++
  (if d.srcLocal then [] else ((s.viewRuns w e).filter (·.2)).map fun r => r.1.src)

/-- What a view reads of global memory beside the words loaded: the index lists of its ENGINE entries, and the sources of the runs that write the words (R147, R159). -/
def State.viewReads (s : State) (slot ea p n : Nat) : List (Nat × Nat) :=
  let w : Who := ⟨slot, (s.slot slot).ctx, 1⟩
  let w0 := ea / 8
  let words := span w0 ((ea + n - 1) / 8 + 1 - w0)
  ((s.openHampers slot).flatMap fun h => h.entries.filter fun e => e.kind == 6).flatMap fun e =>
    let d := engDesc (e.units.take 48)
    let lists := if e.cmd = 0 || d.idxSpace ≠ 0 then [] else (List.range d.n).filterMap fun k =>
      (s.viewPlace w ((d.idx + 4 * k) % 2 ^ 64) 4).map fun q => (q, 4)
    let runs := if d.srcLocal then [] else (s.viewRuns w e).filterMap fun r =>
      if r.2 && words.any fun k => (s.meets w k (p / 8 + (k - w0)) r.1.dst r.1.n).isSome then (s.viewPlace w r.1.src r.1.n).map fun q => (q, r.1.n) else none
    lists ++ runs

/-- What a view of n bytes reads is there: its walks are made (R76, R142), it waits for a capture, a lock or a link (R139, R157, R223), recalls copies, sets signature bits (R147), and a poisoned unit of what it reads traps POISON (R245). -/
def State.viewReady (s : State) (ea p n : Nat) (addr : Word) : Got Unit :=
  let w : Who := ⟨s.cur, s.me.ctx, 1⟩
  let es := (s.openHampers s.cur).flatMap (·.entries)
  let eng := es.filter fun e => e.kind == 6
  let s0 := if eng.isEmpty then s else s.devWalks s.me.ctx (eng.flatMap (s.engWalks w))
  let reads := s0.viewReads s0.cur ea p n
  if uncaptured es || reads.any (fun q => s0.mustWait q.1 q.2) then .no (.hold s0)
  else
    let s1 := reads.foldl (fun st q => (st.recallRange q.1 q.2).sigRead st.cur q.1 q.2) s0
    if reads.any fun q => s1.poisoned q.1 q.2 then .no (.trap s1 Cause.poison addr 0) else .ok () s1

/-! ### Loads -/

/-- A global load's bytes: the slot's own view in collecting mode, else performed memory with its own buffered stores (R129, R130, R159); bytes that R138 leaves undefined are free. -/
def State.loadGlob (s : State) (ea : Word) (coll : Bool) (n : Nat) (need : Need) (whole : Bool) (addr : Word) : Got (List Byte) :=
  (s.xlate .load need ea n whole addr).bind fun q s1 =>
    let p := q.1
    if s1.locked p n then .no (.hold s1)
    else
      let s2 := s1.recallRange p n
      if s2.poisoned p n then .no (.trap s2 Cause.poison addr 0)
      else if s2.mixClash p n q.2 then .no (.trap s2 Cause.mixedSize addr 0)
      else
        let s3 := s2.sigRead s2.cur p n
        let sl := s3.me
        if coll && sl.collecting then
          let words := (p + n - 1) / 8 + 1 - p / 8
          (s3.viewReady ea.toNat p n addr).bind fun _ s4 =>
            let r := s4.strongRead p n (p / 8 * 8) (s4.slotBytes s4.cur (p / 8 * 8) (8 * words))
            .ok (r.2.ownView r.2.cur ea.toNat p n r.1) r.2
        else
          let r := s3.strongRead p n p (s3.slotBytes s3.cur p n)
          .ok r.1 r.2

/-- A load of n bytes aligned to al in any space (R322). -/
def State.load (s : State) (sp : Space) (sk : Bool) (ea : Word) (n al : Nat) (whole : Bool) : Got (List Byte) :=
  match s.place sp sk ea n al with
  | .bad cause => .no (.trap s cause ea 0)
  | .tcm o =>
    if s.tcmPoison (coreOf s.cur) o n then .no (.trap s Cause.poison ea 0)
    else .ok (s.tcmRead (coreOf s.cur) o n) s
  | .scr o =>
    if s.scrPoison (groveOf s.cur) o n then .no (.trap s Cause.poison ea 0)
    else .ok (s.scrRead (groveOf s.cur) o n) s
  | .glob e coll => s.loadGlob e coll n .plain whole ea

/-! ### Stores -/

/-- A global store whose translation is done: collected, buffered, or performed at once on a device window (R62, R155). -/
def State.storeAt (s : State) (p : Nat) (inter : Bool) (ea : Word) (coll : Bool) (bs : List Byte) (sig : Bool) (addr : Word) : Got Unit :=
  if coll && s.me.collecting then s.collect [storeEntry (if sig then 5 else 0) ea.toNat bs] addr
  else if s.mixClash p bs.length inter then .no (.trap s Cause.mixedSize addr 0)
  else
    match s.regionOf p with
    | .hostMem _ =>
      -- a store to a host-located page goes to its home, and the IO die checks its window, as it issues (R254)
      if s.locked p bs.length then .no (.hold s) else .ok () ((s.strongPut s.cur p inter bs sig 0).mixRecord p bs.length inter)
    | .device =>
      match s.bufferStore s.cur ⟨p, inter, bs, sig⟩ with
      | none => .no (.hold s)
      | some s1 =>
        if s1.me.memMix then
          match s1.drainAll s1.cur with
          | some s2 => .ok () (s2.mixRecord p bs.length inter)
          | none => .no (.hold s)
        else .ok () s1
    | .userWindow _ _ | .fwWindow _ _ | .trace _ _ | .bar0 _ | .doorbell _ _ | .hole => .ok () (s.perform s.cur p inter bs sig 0)

/-- A store of bytes aligned to al in any space (R322). -/
def State.store (s : State) (sp : Space) (sk : Bool) (ea : Word) (bs : List Byte) (al : Nat) (sig whole : Bool) : Got Unit :=
  match s.place sp sk ea bs.length al with
  | .bad cause => .no (.trap s cause ea 0)
  | .tcm o => .ok () (s.tcmWrite (coreOf s.cur) o bs)
  | .scr o => .ok () (s.scrWrite (groveOf s.cur) o bs)
  | .glob e coll => (s.xlate .store .plain e bs.length whole ea).bind fun q s1 => s1.storeAt q.1 q.2 e coll bs sig ea

/-! ### Ordering (R130 to R133) -/

/-- An acquire modifier. -/
def Ord.isAcq : Ord → Bool
  | .acq | .ar => true
  | .none | .rel => false

/-- An access of the slot in turn acquires where it says so (R133). -/
def State.acqIf (s : State) (o : Ord) : State := if Ord.isAcq o then s.acquired s.cur else s

/-- A release: every earlier global store of the slot performs first; it waits while a lock blocks one. -/
def State.release (s : State) (k : State → Eff) : Eff :=
  match s.drain s.cur with
  | some s1 => k s1
  | none => .hold s

/-! ### Atomics and reductions (R140 to R142, R324, R325) -/

/-- One read-modify-write at the home of a global place: the old value (R140). -/
def State.rmwHome (s : State) (p : Nat) (inter : Bool) (n : Nat) (f : Nat → Nat) (sig : Bool) (addr : Word) : Got Nat :=
  if s.locked p n then .no (.hold s)
  else
    let s1 := s.drainSecs s.cur (sectorsOf p n)
    let s2 := s1.recallRange p n
    if s2.poisoned p n then .no (.trap s2 Cause.poison addr 0)
    else if s2.mixClash p n inter then .no (.trap s2 Cause.mixedSize addr 0)
    else
      let (bs, s3) := s2.strongRead p n p (s2.peek p n)
      let old := natOf bs
      .ok old ((s3.strongPut s3.cur p inter (bytesOf n (f old)) sig 1).mixRecord p n inter)

/-- One read-modify-write of n bytes in any space. -/
def State.rmw (s : State) (sp : Space) (ea : Word) (n : Nat) (f : Nat → Nat) (sig : Bool) : Got Nat :=
  match s.place sp false ea n n with
  | .bad cause => .no (.trap s cause ea 0)
  | .tcm o =>
    if s.tcmPoison (coreOf s.cur) o n then .no (.trap s Cause.poison ea 0)
    else
      let old := natOf (s.tcmRead (coreOf s.cur) o n)
      .ok old (s.tcmWrite (coreOf s.cur) o (bytesOf n (f old)))
  | .scr o =>
    if s.scrPoison (groveOf s.cur) o n then .no (.trap s Cause.poison ea 0)
    else
      let old := natOf (s.scrRead (groveOf s.cur) o n)
      .ok old (s.scrWrite (groveOf s.cur) o (bytesOf n (f old)))
  | .glob e _ => (s.xlate .atomic .plain e n true ea).bind fun q s1 => s1.rmwHome q.1 q.2 n f sig ea

/-- The place of the last update-only element that overlaps n bytes. -/
def lastUpd (l : List UpdElem) (p n : Nat) : Option Nat :=
  (List.range l.length).foldl (fun acc i => match l[i]? with
    | some e => if p < e.pa + redWidth e.ty.toNat / 8 ∧ e.pa < p + n then some i else acc
    | none => acc) none

/-- Fold an operand into a core's update-only copy (R141). An operand of another operation or width than the last one on its bytes makes an element of its own, so that the copy combines in issue order (R130). -/
def Core.fold (c : Core) (p : Nat) (inter : Bool) (ty op v : Nat) : Core :=
  let fresh : UpdElem := ⟨p, inter, BitVec.ofNat 3 ty, BitVec.ofNat 2 op, BitVec.ofNat 64 (redFold ty op (redIdentity ty op) v)⟩
  match lastUpd c.upd p (redWidth ty / 8) with
  | some i =>
    match c.upd[i]? with
    | some e =>
      if e.pa = p ∧ e.ty.toNat = ty ∧ e.op.toNat = op then
        { c with upd := modifyAt (fun (q : UpdElem) => { q with val := BitVec.ofNat 64 (redFold ty op q.val.toNat v) }) c.upd i }
      else { c with upd := c.upd ++ [fresh] }
    | none => { c with upd := c.upd ++ [fresh] }
  | none => { c with upd := c.upd ++ [fresh] }

/-- The L1 of a core holds 512 lines (R20); for one more update-only line it first evicts one of its own choice, which is combined at its home (R142). A line whose home a commit has locked stays: none where all are. -/
def State.updRoom (s : State) (core sec : Nat) : Option State :=
  let lines := nub ((s.core core).upd.map fun e => sectorOf e.pa)
  let can := lines.filter fun k => !s.lockedSec k
  if lines.contains sec || decide (lines.length < 512) then some s
  else if can.isEmpty then none
  else
    let (i, s1) := s.freeIndex can.length
    some (s1.combineCopy core ((can[i]?).getD 0))

/-- A reduction of a type and operation of R156 (R325). -/
def State.reduce (s : State) (sp : Space) (ea : Word) (ty op v : Nat) : Eff :=
  let n := redWidth ty / 8
  let ent : HEntry := ⟨1, BitVec.ofNat 12 (ty + at_ op 4), ea.setWidth 48, BitVec.ofNat 64 (v % 2 ^ redWidth ty), [], 0, none, 0⟩
  match s.place sp false ea n n with
  | .bad cause => .trap s cause ea 0
  | .tcm _ | .scr _ => (s.rmw sp ea n (fun old => redFold ty op old v) false).andThen fun _ s1 => .next s1
  | .glob e coll =>
    (s.xlate .atomic .plain e n true ea).andThen fun q s1 =>
      if coll && s1.me.collecting then (s1.collect [ent] ea).andThen fun _ s2 => .next s2
      else match s1.regionOf q.1 with
        | .device =>
          if s1.locked q.1 n then .hold s1
          else if s1.mixClash q.1 n q.2 then .trap s1 Cause.mixedSize ea 0
          else match (s1.drainSecs s1.cur (sectorsOf q.1 n)).updRoom (coreOf s1.cur) (sectorOf q.1) with
            | some s2 => .next (((s2.modMyCore fun c => c.fold q.1 q.2 ty op v).strongDone s2 s2.cur q.1 n).mixRecord q.1 n q.2)
            | none => .hold s1
        | .hostMem _ =>
          -- the copy of a host-located line is evicted at once, so that the IO die checks its window as it issues (R142, R254)
          if s1.locked q.1 n then .hold s1
          else if s1.mixClash q.1 n q.2 then .trap s1 Cause.mixedSize ea 0
          else .next ((((s1.modMyCore fun c => c.fold q.1 q.2 ty op v).combineCopy (coreOf s1.cur) (sectorOf q.1)).strongDone s1 s1.cur q.1 n).mixRecord q.1 n q.2)
        | .userWindow _ _ | .fwWindow _ _ | .trace _ _ | .bar0 _ | .doorbell _ _ | .hole =>
          (s1.rmwHome q.1 q.2 n (fun old => redFold ty op old v) false ea).andThen fun _ s2 => .next s2

/-- The type and operation as an ADD entry codes them: width and sign. -/
def redType (wide signed : Bool) : Nat := (if wide then 1 else 0) + (if signed then 0 else 2)

end Sys2Proof.Machine
end

