-- ==== Sys2Proof/Machine/Release.lean ====
section
/-! DEFINITION. Futures, gates, records entering their queues, dependency counters, commits, suspension, and the ends of tasks and groups (R83 to R91, R115, R119, R139 to R150, R165 to R167, R183, R244, R333). -/

namespace Sys2Proof.Machine

/-! ### Futures (R143, R144) -/

/-- The tag of a future is full. -/
def State.isFull (s : State) (p : Nat) : Bool := s.tags.contains p

/-- Set the tag of a future. -/
def State.setTag (s : State) (p : Nat) (full : Bool) : State :=
  if full then (if s.tags.contains p then s else { s with tags := insertBy id p s.tags })
  else { s with tags := s.tags.filter (· != p) }

/-- Answer a deferred load: value and status, or a status alone; its slot goes on (R144), with an acquire where it has the value (R133). -/
def State.answer (s : State) (d : Defer) (status : Nat) : State :=
  let v := BitVec.ofNat 64 (natOf (s.peek d.pa 8))
  let s1 := s.modSlot d.slot fun q =>
    { (if status = 0 then q.setXr d.dst v else q) with futStatus := BitVec.ofNat 2 status, st := .run, pc := q.npc }
  let s2 : State := { s1 with deferrals := s1.deferrals.filter fun e => e.slot != d.slot }
  if status = 0 then s2.acquired d.slot else s2

/-- Answer the deferred loads of a word in order until one takes the value (R143). -/
def State.answerAll (s : State) (p : Nat) : State :=
  (s.deferrals.filter fun d => d.pa == p).foldl (fun st d =>
    if st.isFull p then
      let s1 := st.answer d 0
      if d.take then s1.setTag p false else s1
    else st) s

/-! ### Groups in memory (R103, R114) -/

/-- Write device bytes of a launch descriptor. -/
def State.groupWrite (s : State) (g off : Nat) (bs : List Byte) : State :=
  match s.groups.find g with
  | some gr => s.recWrite gr.dpa off bs
  | none => s

/-- The state byte of R103. -/
def GrpSt.code : GrpSt → Nat
  | .claiming => 0
  | .routing => 1
  | .loading => 2
  | .running => 3
  | .draining => 4
  | .broken => 5
  | .done => 6

/-- Move a group to a state with its descriptor byte. -/
def State.groupState (s : State) (g : Nat) (st : GrpSt) : State :=
  (s.modGroup g fun gr => { gr with st := st }).groupWrite g 64 (bytesOf 1 st.code)

/-- Change live, in the group and in its descriptor; at 0 a RUNNING group drains (R113, R114). -/
def State.live (s : State) (g : Nat) (up : Bool) : State :=
  match s.groups.find g with
  | some gr =>
    let n := if up then gr.live + 1 else gr.live - 1
    let s1 := (s.setGroup g { gr with live := n }).groupWrite g 68 (bytesOf 4 n)
    if n = 0 && gr.st == .running then s1.groupState g .draining else s1
  | none => s

/-! ### Records entering (R83 to R86, R150, R338, R339) -/

/-- The group that a spawn of a slot joins: its task's, and for a slot that runs none the first of its context that holds a clearing (log 24). -/
def State.spawnGroup (s : State) (slot : Nat) : Nat :=
  let sl := s.slot slot
  if sl.task.isSome then sl.grp
  else match s.groups.find? (fun q => q.2.ctx == sl.ctx && q.2.holds) with
    | some q => q.1
    | none => 0

/-- The depth field of a child: the parent's depth + 1, held at 0xFFFF; 0 where there is no parent (R81, log 24). -/
def State.childDepth (s : State) (parent : Option Nat) : Nat :=
  match parent with
  | some key => match s.tasks.find key with
    | some t =>
      let d := s.recField t.half 34 2
      if d < 0xFFFF then d + 1 else d
    | none => 0
  | none => 0

/-- The device takes a record: it writes depth and context id, and the state it starts in (R338, R339). -/
def State.newTask (s : State) (grp ctx va pa depth : Nat) (st : TaskSt) : State :=
  let s1 := ((s.recallRange pa 64).recWrite pa 34 (bytesOf 2 depth)).recWrite pa 56 (bytesOf 2 ctx)
  let t : Task := {
    ctx := ctx, va := va, pa := pa, grp := grp, cls := BitVec.ofNat 2 (s1.recField pa 0 8 / 2 ^ 62), st := st
    ts := BitVec.ofNat 64 (s1.recField pa 16 8), seq := 0, ext := false, gates := [], pin := none, frame := none, spilled := 0
    hamper := none, sig := 0, dispatched := false, refused := false, dead := false, slot := 0, endPc := 0, result := none
    awaiting := none }
  (s1.setTask (taskKey ctx va) t).taskState (taskKey ctx va) st

/-- The walk of a gate waits for the unlock of a sector (R139). -/
def State.gateWaits (s : State) (ctx va : Nat) : Bool := s.walkRaw ctx (va % 2 ^ 48) == .wait

/-- A gate's place, and whether its home is interleaved: on an F page alone, whatever else its page permits (R82). R82 and R338 do not say what a gate is whose page is absent, poisoned or does not translate: it counts as a gate on no F page (DESIGN CHOICE, log 67). It is asked once its walk waits for nothing but what its own commit holds (State.gateWaits). Behind it the context that a poisoned table page faults (R76). -/
def State.gatePlace (s : State) (ctx va : Nat) : Option (Nat × Bool) × Option Nat :=
  match s.settled.walkRaw ctx (va % 2 ^ 48) with
  | .leaf pte _ size => (if bitAt pte 5 && !bitAt pte 52 then some (leafPlace pte size (va % 2 ^ 48), bitAt pte 10) else none, none)
  | .poison _ => (none, some ctx)
  | .bad _ _ _ | .wait => (none, none)

/-- One gate of a record is seen full; with the last of them the record is READY, its gate's home the origin (R86, R93). -/
def State.gateSeen (s : State) (key p : Nat) (inter : Bool) : State :=
  match s.tasks.find key with
  | some t =>
    let left := t.gates.filter (· != p)
    let s1 := s.setTask key { t with gates := left }
    if left.isEmpty && t.st == .gated then s1.enqueue key (s.home p inter) else s1
  | none => s

/-- A future becomes full: the gates that wait at it are seen full (R86). -/
def State.gatesAt (s : State) (p : Nat) (inter : Bool) : State :=
  let mine := s.gatesList.filter fun q => q.1 == p
  let s1 := { s with gatesList := s.gatesList.filter fun q => q.1 != p }
  mine.foldl (fun st q => st.gateSeen q.2 p inter) s1

/-- st.f at the home, or a FILL entry of an apply (kind 3): write, tag full, notice, gates, deferred loads (R143). -/
def State.fill (s : State) (slot p : Nat) (inter : Bool) (v : Word) (kind : Nat) : State :=
  let bs := bytesOf 8 v.toNat
  let s1 := if kind = 0 then s.strongPut slot p inter bs true kind else s.perform slot p inter bs true kind
  ((s1.setTag p true).gatesAt p inter).answerAll p

/-- A record is enqueued: it takes its spawn sequence, live rises, and it goes to its gates or to a queue (R83, R86, R114, R150). A gate that is on no F page by then is never seen full, so that the record stays GATED: no rule says what becomes of it (DESIGN CHOICE, log 67). raise is the timestamp below which it may not stand. -/
def State.takeIn (s : State) (key origin : Nat) (raise : Option Word) : State :=
  match s.tasks.find key with
  | none => s
  | some t =>
    let seq := match s.groups.find t.grp with
      | some g => g.seq
      | none => 0
    let s1 := (s.modGroup t.grp fun g => { g with seq := g.seq + 1 }).recWrite t.pa 60 (bytesOf 4 seq.toNat)
    let s2 := match raise with
      | some ts => if t.ts < ts then (s1.modTask key fun u => { u with ts := ts }).recWrite t.pa 16 (bytesOf 8 ts.toNat) else s1
      | none => s1
    let s3 := (s2.modTask key fun u => { u with seq := seq }).live t.grp true
    let ngate := bits (s3.recField t.pa 0 8) 59 57
    if ngate = 0 then s3.enqueue key origin
    else
      let vas := (List.range ngate).map fun i => s3.recField t.pa (64 + 8 * i) 8
      let s3 := s3.walkTouch t.ctx vas
      let found := vas.map fun va => s3.gatePlace t.ctx va
      let places := found.map (·.1)
      let pas := places.map fun o => match o with
        | some q => q.1
        | none => 2 ^ 60
      let s4 := (s3.modTask key fun u => { u with gates := nub pas }).taskState key .gated
      let s5 := { s4 with gatesList := s4.gatesList ++ (nub pas).map fun p => (p, key) }
      (places.foldl (fun st o => match o with
        | some (p, inter) => if st.isFull p then st.gatesAt p inter else st
        | none => st) s5).raiseIf (found.findSome? (·.2))

/-- The device spawns a record at a virtual address (R338); nothing where it does not translate. A record behind a link that trains, or in a locked sector, is written once its access goes on (R139, R223). -/
def State.spawn (s0 : State) (grp ctx va origin depth : Nat) (raise : Option Word) : State :=
  let s := s0.walkTouch ctx [va]
  match s.settled.translateRaw ⟨0, ctx, 0⟩ .store .plain (BitVec.ofNat 64 va) 64 with
  | .ok pa _ => (s.newTask grp ctx va pa depth .ready).takeIn (taskKey ctx va) origin raise
  | r => s.raiseIf r.raises

/-- A counter reaches zero: its record is enqueued (R87). A record that no tk.dep outside collecting mode has armed is taken as it stands. R339 gives such a record no depth and context id: it takes those of a child of the task whose commit fires the counter (DESIGN CHOICE, log 68). R87 does not say what happens where the record's address does not translate for a store in that context: nothing is enqueued and the commit goes on (DESIGN CHOICE, log 92). -/
def State.fire (s0 : State) (grp ctx va origin depth : Nat) (raise : Option Word) : State :=
  let s := if (s0.tasks.find (taskKey ctx va)).isSome then s0 else s0.walkTouch ctx [va]
  let key := taskKey ctx va
  let raiseT := fun (t : Task) => if t.cls == 2 then raise else none
  match s.tasks.find key with
  | some t =>
    if t.st == .counting then
      let s1 := s.modTask key fun u => { u with
        cls := BitVec.ofNat 2 (s.recField t.pa 0 8 / 2 ^ 62), ts := BitVec.ofNat 64 (s.recField t.pa 16 8) }
      s1.takeIn key origin (raiseT t)
    else s
  | none =>
    match s.settled.translateRaw ⟨0, ctx, 0⟩ .store .plain (BitVec.ofNat 64 va) 64 with
    | .ok pa _ =>
      let s1 := s.newTask grp ctx va pa depth .counting
      match s1.tasks.find key with
      | some t => s1.takeIn key origin (raiseT t)
      | none => s1
    | r => s.raiseIf r.raises

/-! ### Handles and drafts (R180, R183) -/

/-- The place that a page maps an address to, whatever it permits (R215); none where no page does, or a poisoned one. -/
def State.mapPlace (s : State) (ctx va : Nat) : Option Nat :=
  match s.settled.walkRaw ctx (va % 2 ^ 48) with
  | .leaf pte _ size => if bitAt pte 52 then none else some (leafPlace pte size (va % 2 ^ 48))
  | .bad _ _ _ | .poison _ | .wait => none

/-- The answer of the device's own write of a quilt word on the rule path, as its page maps it now (R183, R208, R215). -/
def State.quiltXlate (s : State) (ctx va : Nat) : XRes :=
  let w : Who := ⟨0, ctx, 4⟩
  match s.walkRaw ctx (va % 2 ^ 48) with
  | .leaf pte level size => s.checkLeaf w .atomic .quilt (BitVec.ofNat 64 va) 128 true true pte level size
  | .bad reason pte level => .fail ⟨ctx, BitVec.ofNat 64 va, BitVec.ofNat 64 pte, reason, 6, 4, level, Cause.translation, false⟩
  | .poison level => .fail ⟨ctx, BitVec.ofNat 64 va, 0, 4, 6, 4, level, Cause.poison, true⟩
  | .wait => .wait

/-- The device writes a quilt at an address of a context: with its place where it can, else nothing, since no instruction is left to trap (DESIGN CHOICE, log 102); a poisoned table page raises FAULT in the context (R76). It owes what waits for a lock or a link (R139, R223). -/
def State.atQuilt (s0 : State) (ctx va : Nat) (o : Owed) (f : State → Nat → State) : State :=
  let s := s0.walkTouch ctx [va]
  match s.quiltXlate ctx va with
  | .ok p _ =>
    if s.mustWait p 128 then { s with owed := s.owed ++ [o] }
    else
      let s1 := s.recallRange p 128
      if s1.poisoned p 128 then s1 else f s1 p
  | .wait => { s with owed := s.owed ++ [o] }
  | r => s.raiseIf r.raises

/-- One reader less at the place of a version record; a RETIRED version without readers is DEAD (R183, R184). -/
def State.readerGone (s : State) (pa : Nat) : State :=
  let r := s.recField pa 4 4 - 1
  let s1 := s.recWrite pa 4 (bytesOf 4 r)
  if r = 0 && s1.recField pa 8 1 == 2 then s1.recWrite pa 8 (bytesOf 1 3) else s1

/-- The device closes a reader of a context at a version (R183). -/
def State.closeAt (s : State) (ctx : Nat) (ver : Word) : State := s.atQuilt ctx ver.toNat (.close ctx ver) State.readerGone

/-- The device closes a reader handle of a context at its version (R183). -/
def State.closeHandle (s : State) (ctx : Nat) (h : QHandle) : State := s.closeAt ctx h.ver

/-- Discard a draft: head goes back to the draft record, draft and owner are 0, the quilt READY (R180). Where the descriptor's page can no longer be written the quilt stays DRAFTING, since no rule says otherwise (DESIGN CHOICE, log 102). -/
def State.discardDraft (s : State) (d : Draft) : State :=
  s.atQuilt d.ctx d.desc (.discard d) fun st p =>
    let off := st.recField p 24 8 - st.recField p 40 8
    (((st.recWrite p 56 (bytesOf 8 off)).recWrite p 24 (zeros 16)).recWrite p 6 (zeros 1))

/-- What the device owes to quilts is tried again, in its order. -/
def State.owedOut (s : State) : State :=
  s.owed.foldl (fun st o => match o with
    | .close ctx ver => st.closeAt ctx ver
    | .discard d => st.discardDraft d) { s with owed := [] }

/-- Every draft that a task owns is discarded. -/
def State.dropDrafts (s : State) (key : Nat) : State :=
  let mine := s.drafts.filter fun d => d.task == key
  mine.foldl State.discardDraft { s with drafts := s.drafts.filter fun d => d.task != key }

/-! ### The ends of a task (R85, R167, R183, R244) -/

/-- The hampers of a slot. -/
def Slot.allHampers (sl : Slot) : List Hamper :=
  sl.hampers.vals ++ (match sl.taskH with
    | some h => [h]
    | none => [])

/-- Free hampers: their frames go back to the pool (R167). -/
def State.freeHampers (s : State) (ctx : Nat) (hs : List Hamper) : State := s.giveFrames ctx ((hs.map (·.frames)).flatten)

/-- An engine whose running command is one of those that go, goes on without it, and awaits no replay for it (log 69): at once, or once its record, which still waits at the engine, has entered its queue (R72). -/
def Engine.release (e : Engine) (mine : EngCmd → Bool) : Engine :=
  if e.run.any mine then
    (if e.record.isSome then { e with orphan := true } else { e with fsrc := { e.fsrc with awaiting := none } })
  else e

/-- An engine without the failed commands of a task, whose trap nobody is left to take (R236). -/
def Engine.pardon (e : Engine) (task : Option Nat) : Engine := { e with fail := e.fail.filter fun f => f.task != task }

/-- The engine commands of a slot are abandoned: the running one's status word records its progress (R244). -/
def State.engAbandon (s : State) (slot : Nat) : State :=
  ((s.modCore (coreOf slot) fun c =>
    { c with copyEng := c.copyEng.release (·.slot == slot), gathEng := c.gathEng.release (·.slot == slot) }).engOut slot).1

/-- The engine commands of a task are abandoned on whatever core they are, or in whatever frame a stop put them, the running one's status word with its progress, whether or not the task runs (R244). -/
def State.engForget (s : State) (key : Nat) : State :=
  let mine := fun (c : EngCmd) => c.task == some key
  let note := fun (core : Nat) (st : State) (e : Engine) => match e.run with
    | some c => if mine c then st.engStatus core c c.shown else st
    | none => st
  let off := fun (e : Engine) => ((e.release mine).takeOutIf mine).1.refill
  let s1 := s.cores.foldl (fun st q =>
    (note q.1 (note q.1 st q.2.copyEng) q.2.gathEng).modCore q.1 fun c => { c with copyEng := off c.copyEng, gathEng := off c.gathEng }) s
  { s1 with tasks := s1.tasks.map fun q => (q.1, { q.2 with frame := q.2.frame.map fun b =>
      { b with copyCmds := b.copyCmds.filter fun c => !mine c, gathCmds := b.gathCmds.filter fun c => !mine c } }) }

/-- The ring latch and the outgoing hold of a core lose the operands that a test picks (R382). -/
def Core.ringDrop (gone : RingOp → Bool) (c : Core) : Core :=
  { c with ringIn := c.ringIn.filter fun r => !gone r, ringOut := c.ringOut.filter fun r => !gone r }

/-- Every latch and hold loses the operands that a test picks. -/
def State.ringDrop (s : State) (gone : RingOp → Bool) : State := { s with cores := s.cores.map fun q => (q.1, q.2.ringDrop gone) }

/-- What a slot held for its task goes: hampers, handles, packet, wait, deferral, engine commands; an mma that has issued completes (R243, R244, R327). -/
def State.stripSlot (s : State) (slot : Nat) : State :=
  let sl := s.slot slot
  let s1 := s.freeHampers sl.ctx sl.allHampers
  let s2 := sl.qhandles.vals.foldl (fun (st : State) h => st.closeHandle sl.ctx h) s1
  let busy := match (s2.core (coreOf slot)).mma with
    | some op => op.slot == slot
    | none => false
  let s3 := (if busy then s2.mmaFinish (coreOf slot) else s2).engAbandon slot
  { s3 with deferrals := s3.deferrals.filter fun d => d.slot != slot }

/-- A task that goes for good or starts anew awaits no replay: the source of its record is free of it (log 69). -/
def State.settleAwait (s : State) (t : Task) : State :=
  match t.awaiting with
  | some (q, seq) =>
    let path := q / 2 ^ 16
    let f := s.pathSrc t.slot path
    if f.awaiting = some seq then s.setPathSrc t.slot path { f with awaiting := none } else s
  | none => s

/-- A task's state off its slot goes: frame, hampers, handles, park, queue entries, gates, locks, drafts, reservations. -/
def State.forgetTask (s : State) (key : Nat) : State :=
  match s.tasks.find key with
  | none => s
  | some t =>
    let s1 := (s.settleAwait t).freeHampers t.ctx t.hampers
    let s2 := match t.frame with
      | some b => b.qhandles.vals.foldl (fun (st : State) h => st.closeHandle t.ctx h) s1
      | none => s1
    let s3 := ((s2.dropDrafts key).unqueue fun k => k == key).unlock key
    { s3 with
      groves := s3.groves.map fun q => (q.1, { q.2 with parks := q.2.parks.filter fun p => p.task != key })
      cores := s3.cores.map fun q => (q.1, { q.2 with copyEng := q.2.copyEng.pardon (some key), gathEng := q.2.gathEng.pardon (some key) })
      slots := s3.slots.map fun q => (q.1, { q.2 with reserved := if q.2.reserved = some key then none else q.2.reserved })
      gatesList := s3.gatesList.filter fun g => g.2 != key
      tasks := s3.tasks.put key { t with frame := none, hamper := none, sig := 0, pin := none, result := none, awaiting := none
                                         spilled := 0, gates := [] } }

/-- A slot runs a task, or has stopped for a pre-emption or at a trap and not yet saved it (R237, R243). A slot whose report alone still waits does not: its task has been saved. -/
def Slot.runs (sl : Slot) (key : Nat) : Bool :=
  sl.task == some key && (sl.st == .run || sl.st == .waiting || (sl.st == .stopped && (sl.stop == some .preempt || sl.saving)))

/-- Stop the slot that runs a task, saving nothing (R244). A slot whose report still waits keeps it. -/
def State.killOnSlot (s : State) (key : Nat) : State :=
  match s.slots.find? (fun q => q.2.runs key) with
  | some q =>
    if q.2.saving then ((s.stripSlot q.1).modSlot q.1 fun sl => { sl.bare with saving := false }).report q.1
    else (s.stripSlot q.1).freeSlot q.1
  | none => s

/-- What a kill or an abort leaves nothing of: the task on its slot, its state off the slot, its engine commands wherever they are, and what the ring holds for it (R148, R244, R382). -/
def State.endTask (s : State) (key : Nat) : State := (((s.killOnSlot key).engForget key).forgetTask key).ringDrop fun r => r.task == some key

/-- A task leaves the device for good: killed (R78, R115, R244). -/
def State.killTask (s : State) (key : Nat) : State :=
  let s1 := s.endTask key
  { s1 with tasks := s1.tasks.drop key }

/-- A task is DONE: its record says so, live falls (R85, R114). -/
def State.taskDone (s : State) (key : Nat) : State :=
  match s.tasks.find key with
  | some t =>
    let s1 := (s.taskState key .done).forgetTask key
    { s1 with tasks := s1.tasks.drop key }.live t.grp false
  | none => s

/-- Abort a class C or T task: it is re-run from the first half of its record (R85, R91, R148). A READY entry keeps its place, with the refusals that its window counts. That the task has been dispatched before stands, so that its entry is a re-entry of R99. -/
def State.rerun (s : State) (key : Nat) : State :=
  match s.tasks.find key with
  | none => s
  | some t =>
    let wasReady := t.st == .ready
    let stands := s.stands
    let groves := s.groves
    let s1 := s.endTask key
    let s2 := s1.modTask key fun u => { u with ext := false, refused := false, dead := false, sig := 0 }
    let s3 := s2.taskState key .aborted
    if wasReady then
      -- its entry, if it had one, stays where it was, no longer pinned
      let unpin := fun (e : QEntry) => if e.task = key then { e with pin := none } else e
      let back : State := { s3 with
        stands := stands.map fun (q : Nat × Stand) => (q.1, { q.2 with queue := q.2.queue.map unpin })
        groves := s3.groves.map fun (q : Nat × Grove) => (q.1, { q.2 with
          window := ((groves.find q.1).map (·.window)).getD [], refusals := ((groves.find q.1).map (·.refusals)).getD 0 }) }
      back.taskState key .ready
    else s3.enqueue key (groveOf t.slot)

/-! ### Contexts in memory (R69, R75) -/

/-- The state byte (R69). -/
def CtxSt.code : CtxSt → Nat
  | .free => 0
  | .building => 1
  | .ready => 2
  | .running => 3
  | .suspended => 4
  | .faulted => 5
  | .teardown => 6

/-- Move a context to a state, its descriptor byte with it. -/
def State.ctxState (s : State) (ctx : Nat) (st : CtxSt) : State :=
  (s.modCtx ctx fun c => { c with st := st }).recWrite (s.ctxDesc ctx) 0 (bytesOf 1 st.code)

/-- The groups field (R69, R75). -/
def State.ctxGroups (s : State) (ctx n : Nat) : State :=
  (s.modCtx ctx fun c => { c with groups := n }).recWrite (s.ctxDesc ctx) 2 (bytesOf 2 n)

/-- A group leaves its context: the count falls, and with the last one a RUNNING context is READY, unless a stop is in progress (R75). -/
def State.groupGone (s : State) (ctx : Nat) : State :=
  let n := (s.ctxOf ctx).groups - 1
  let s1 := s.ctxGroups ctx n
  if n = 0 && (s1.ctxOf ctx).st == .running && (s1.ctxOf ctx).stopping == .none then s1.ctxState ctx .ready else s1

/-- A group's clearing is freed and its routes are removed; the packets left in its inboxes are dropped (R109, R114, R115, R126). Where several clearings cover a grove, R126 does not say which one's release drops the packets of its slots: each does (DESIGN CHOICE, log 98). -/
def State.groupFree (s : State) (g : Nat) : State :=
  match s.groups.find g with
  | some gr =>
    let in_ := fun (k : Nat) => match s.logical (groveOf k) with
      | some (gx, gy) => gr.covers gx gy
      | none => false
    let s0 := s.modGroup g fun q => { q with freed := true }
    let s1 := { s0 with groves := s0.groves.map fun (q : Nat × Grove) => (q.1, { q.2 with routes := q.2.routes.drop g }) }
    { s1 with slots := s1.slots.map fun (q : Nat × Slot) => (q.1, if in_ q.1 then { q.2 with inbox := [] } else q.2) }.groupGone gr.ctx
  | none => s

/-- The front end clears busy in the register of the core that launched (R104). -/
def State.launchReply (s : State) (core status : Nat) : State :=
  s.modCore core fun c => { c with grpLaunch := BitVec.ofNat 64 (at_ status 60 + c.grpLaunch.toNat % 2 ^ 60) }

/-- A group ends that has not reached RUNNING: DONE with its cause, its clearing freed (R105, R109, R113). -/
def State.groupEnd (s : State) (g cause : Nat) : State :=
  let s1 := (s.modGroup g fun q => { q with cause := BitVec.ofNat 8 cause }).groupFree g
  (s1.groupState g .done).groupWrite g 65 (bytesOf 1 cause)

/-- A group that is refused before its launch has been answered. -/
def State.groupRefuse (s : State) (g cause : Nat) : State :=
  match s.groups.find g with
  | some gr => (s.groupEnd g cause).launchReply gr.core 0
  | none => s

/-! ### Barriers and groups breaking (R115, R119) -/

/-- A slot or a parked wait waits on a barrier. -/
def Wait.onBarrier (w : Wait) (p : Nat) : Bool := w.conds.any fun c => c.kind == 3 && c.pa == p

/-- A registered barrier stands in its register while it is not BROKEN and has an arrival in its generation or a waiter (R119). -/
def State.barLive (s : State) (p : Nat) : Bool :=
  !bitAt (s.recField p 12 1) 1 && (s.recField p 4 4 != 0 ||
  (s.slots.any fun q => match q.2.wait with
    | some w => w.onBarrier p
    | none => false) ||
  (s.groves.any fun q => q.2.parks.any fun k => k.wait.onBarrier p))

/-- Mark BROKEN every registered barrier whose owner names a launch descriptor, and wake its waiters (R119). -/
def State.breakBarriers (s : State) (desc : Nat) : State :=
  s.groves.foldl (fun st q =>
    q.2.barReg.foldl (fun st2 p =>
      if st2.barLive p && st2.recField p 16 8 == desc then
        let s1 := st2.recWrite p 12 (bytesOf 1 (st2.recField p 12 1 % 4 ||| 2))
        (s1.modGrove q.1 fun g => { g with barReg := g.barReg.filter (· != p) }).notify (sectorOf p)
      else st2) st) s

/-- Break a group with a cause: tasks killed, barriers and channels BROKEN, ring operands gone (R113, R115, R119, R382). A BROKEN group keeps its cause; one that has not reached LOADING is refused with cause 1; the launch of one whose copy is not done is answered (R104). -/
def State.breakGroup (s : State) (g cause : Nat) : State :=
  match s.groups.find g with
  | none => s
  | some gr =>
    if gr.st == .broken || gr.st == .done then s
    else if gr.st == .claiming || gr.st == .routing then s.groupRefuse g 1
    else
      let s1 := s.breakBarriers gr.desc
      let s2 := s1.modGroup g fun q => { q with cause := BitVec.ofNat 8 cause, chans := q.chans.map fun c => { c with broken := true } }
      let s3 := ((s2.groupState g .broken).groupWrite g 65 (bytesOf 1 cause))
      let s4 := ((s3.tasks.filter fun q => q.2.grp == g).map (·.1)).foldl State.killTask s3
      let s5 := if gr.st == .loading && !gr.loaded then s4.launchReply gr.core 0 else s4
      s5.ringDrop fun r => r.grp == g

/-! ### Suspension points (R88, R333) -/

/-- A slot holds state beyond its record (R333). -/
def Slot.beyond (sl : Slot) (w : Option Wait) : Bool :=
  !sl.hampers.isEmpty || !sl.stack.isEmpty || !sl.qhandles.isEmpty ||
  (match sl.taskH with
    | some h => !h.share.isEmpty
    | none => false) ||
  (match w with
    | some x => x.conds.any fun c => c.kind == 5
    | none => false)

/-- The spill of a suspension goes home, or the failed check of it stops the slot at the instruction that suspends (R56, R211). -/
def State.spillTrap (s : State) (slot key : Nat) : Option XFault := (s.spillOut slot (s.homePtr key)).2.2.2

/-- The task of a slot, which is asked to suspend once its spill waits for nothing (State.saveWaits), suspends after its current chain: full frame and pin where the slot holds state beyond the record, else the record alone (R88, R333). -/
def State.suspend (s : State) (slot : Nat) (w : Option Wait) : State :=
  match (s.slot slot).task with
  | none => s
  | some key =>
    match s.spillTrap slot key with
    | some f => s.takeXFault slot f f.addr
    | none =>
    let sl := s.slot slot
    let s0 := s.setSlot slot { sl with pc := sl.npc, wait := none }
    let s1 :=
      if sl.beyond w then (s0.saveTask slot key).1
      else
        let (a, n, pinned, _) := s0.spillOut slot (s0.homePtr key)
        let b := a.writeBack slot key sl.npc.toNat pinned false
        (b.modTask key fun t => { t with spilled := n, hamper := sl.taskH, sig := sl.sig }).modSlot slot fun q =>
          { q.bare with reserved := if pinned then some key else q.reserved }
    ((s1.modTask key fun t => { t with slot := slot }).taskState key .suspended).freeSlot slot

/-! ### Commits (R87, R139, R146, R148, R165, R166) -/

/-- Why a commit is refused before its locks (R166). -/
inductive Refuse
  | check (f : XFault)
  | cause (c : Nat) (addr : Word)
  | wait
  deriving DecidableEq, Repr

/-- Translate one piece; an address at or above 2^48 does not translate (R51, R166). -/
def State.resolve1 (s : State) (w : Who) (acc : Access) (need : Need) (va n : Nat) : Except Refuse (Nat × Bool) :=
  if 2 ^ 48 ≤ va then .error (.cause Cause.translation (BitVec.ofNat 64 va))
  else match s.translateRaw w acc need (BitVec.ofNat 64 va) n with
    | .ok p inter => .ok (p, inter)
    | .fail f => .error (.check f)
    | .deny c => .error (.cause c (BitVec.ofNat 64 va))
    | .wait => .error .wait

/-- n bytes at a place as a home gives them: its update-only copies recalled (R142). -/
def State.homeRead (s : State) (p n : Nat) : List Byte := (s.recallRange p n).peek p n

/-- The bytes of a source that an apply reads: captured, or its place (R157). -/
def State.sourceOf (s : State) (w : Who) (local_ : Bool) (payload : List Byte) (pos va n : Nat) : Except Refuse From :=
  if local_ then .ok (.bytes ((payload.drop pos).take n))
  else match s.resolve1 w .engRead .plain va n with
    | .ok (p, _) => if s.poisoned p n then .error (.cause Cause.poison (BitVec.ofNat 64 va)) else .ok (.place p)
    | .error r => .error r

/-- One run of an ENGINE entry, resolved. -/
def State.engPiece (s : State) (w : Who) (e : HEntry) (local_ : Bool) (payload : List Byte) (r : Run) : Except Refuse Piece := do
  let src ← s.sourceOf w local_ payload r.pos r.src r.n
  let (p, inter) ← s.resolve1 w .engWrite .plain r.dst r.n
  return ⟨e, p, inter, r.n, some src⟩

/-- The index list of a collected gather or scatter: captured behind the source bytes, or read at its home. -/
def State.idxAt (s : State) (w : Who) (d : EngDesc) (payload : List Byte) (k : Nat) : Except Refuse Nat :=
  if d.idxSpace = 0 then
    match s.resolve1 w .engRead .plain ((d.idx + 4 * k) % 2 ^ 64) 4 with
    | .ok (p, _) =>
      if s.locked p 4 then .error .wait
      else if s.poisoned p 4 then .error (.cause Cause.poison (BitVec.ofNat 64 ((d.idx + 4 * k) % 2 ^ 64)))
      else .ok (natOf (s.homeRead p 4))
    | .error r => .error r
  else .ok (field payload (d.idxPos k) 4)

/-- The pieces of an ENGINE entry (R157, R389). -/
def State.engPieces (s : State) (w : Who) (e : HEntry) : Except Refuse (List Piece) :=
  let d := engDesc (e.units.take 48)
  let payload := e.units.drop 48
  let loc := d.srcLocal
  if e.cmd = 0 then (d.cpRuns e.ea.toNat).mapM fun r => s.engPiece w e loc payload r
  else do
    let parts ← (List.range d.n).mapM fun k => do
      let i ← s.idxAt w d payload k
      let r := d.elemRun e.cmd.toNat e.ea.toNat k i
      if i < d.dstride then
        let p ← s.engPiece w e loc payload r
        return [p]
      else if !d.masks then .error (.cause Cause.permission (BitVec.ofNat 64 (d.idx + 4 * k)))
      else if e.cmd = 1 then
        let (p, inter) ← s.resolve1 w .engWrite .plain r.dst r.n
        return [⟨e, p, inter, r.n, some (.bytes (zeros r.n))⟩]
      else return []
    return parts.flatten

/-- The pieces of an entry, every effective address translated and checked for W (R166). -/
def State.pieces (s : State) (w : Who) (e : HEntry) : Except Refuse (List Piece) :=
  let k := e.kind.toNat
  let at_ := fun (e : HEntry) (acc : Access) (need : Need) (n : Nat) => do
    let (p, inter) ← s.resolve1 w acc need e.ea.toNat n
    return (⟨e, p, inter, n, none⟩ : Piece)
  let one := fun (acc : Access) (need : Need) (n : Nat) => do
    let p ← at_ e acc need n
    return [p]
  if k = 6 then s.engPieces w e
  else if k = 1 then one .atomic .plain (redWidth (e.par.extractLsb' 0 3).toNat / 8)
  else if k = 2 then one .store .plain 64
  else if k = 3 then one .atomic .plain 16
  else if k = 4 then one .store .future 8
  else e.words.mapM fun o => at_ o .store .plain 8

/-- The addresses that the checks of an apply walk: the own counter, what its entries write, arm or enqueue, and what its ENGINE entries read (R142, R166). -/
def State.planWalks (s : State) (w : Who) (own : Nat) (es : List HEntry) : List Nat :=
  (if own = 0 then [] else [own]) ++ es.flatMap fun e =>
    if e.kind = 6 then (s.viewRuns w e).map (·.1.dst) ++ s.engWalks w e
    else (e.spans.flatMap fun q => pagePieces q.1 q.2).map (·.1)

/-- Those walks made: they recall the update-only copies that they meet (R142). -/
def State.planTouch (s : State) (w : Who) (own : Nat) (es : List HEntry) : State := s.walkTouch w.ctx (s.planWalks w own es)

/-- An entry that carries data. -/
def Piece.isData (p : Piece) : Bool := p.e.kind != 2 && p.e.kind != 3

/-- The sectors that a commit locks, ascending: data and counters (R139). -/
def lockList (ps : List Piece) (counters : List (Nat × Bool)) : List Nat :=
  nub (sortBy id (((ps.filter Piece.isData).map fun p => sectorsOf p.pa p.n).flatten ++ counters.map fun c => sectorOf c.1))

/-- The global index lists that ENGINE entries read as an apply resolves them (R389). -/
def State.listPlaces (s : State) (w : Who) (es : List HEntry) : List (Nat × Nat) :=
  (es.filter fun e => e.kind == 6 && e.cmd != 0).flatMap fun e =>
    let d := engDesc (e.units.take 48)
    if d.idxSpace ≠ 0 then [] else (List.range d.n).filterMap fun k => (s.viewPlace w ((d.idx + 4 * k) % 2 ^ 64) 4).map fun p => (p, 4)

/-- Their update-only copies are recalled before they are read (R142). -/
def State.recallLists (s : State) (w : Who) (es : List HEntry) : State := (s.listPlaces w es).foldl (fun st q => st.recallRange q.1 q.2) s

/-- The global sources of ENGINE entries are read before any entry of the apply is written: they return the committed state (R142, R157, R158). -/
def State.readSources (s : State) : List Piece → List Piece × State
  | [] => ([], s)
  | p :: rest =>
    let (p1, s1) := match p.from_ with
      | some (.place q) =>
        let st := s.recallRange q p.n
        ({ p with from_ := some (.bytes (st.peek q p.n)) }, st)
      | some (.bytes _) | none => (p, s)
    let (ps, s2) := s1.readSources rest
    (p1 :: ps, s2)

/-- Some source of a commit lies in a sector that another commit holds, or behind a link that trains (R139, R223). -/
def State.sourceWaits (s : State) (key : Nat) (ps : List Piece) : Bool :=
  ps.any fun p => match p.from_ with
    | some (.place q) => { s with commits := s.commits.filter fun c => c.task != key }.mustWait q p.n
    | some (.bytes _) | none => false

/-- An entry whose place the apply itself reads or writes: data, or a counter. -/
def Piece.isPlace (p : Piece) : Bool := p.e.kind != 2

/-- The own counter, or the first piece of a commit, that the IO die refuses as the commit reaches it: outside the windows then in force, or behind a link that has gone DOWN (R223, R254). own is the own counter's place and address. -/
def State.pieceRefused (s : State) (own : Option (Nat × Nat)) (ps : List Piece) : Option (Nat × Word) :=
  let mine : Option (Nat × Word) := match own with
    | some (p, va) => (s.hostRefused p 16).map fun r => (r.2, BitVec.ofNat 64 va)
    | none => none
  if mine.isSome then mine else (ps.filter Piece.isPlace).findSome? fun p =>
    let src := match p.from_ with
      | some (.place q) => s.hostRefused q p.n
      | some (.bytes _) | none => none
    match s.hostRefused p.pa p.n, src with
    | some (_, c), _ => some (c, p.e.ea.setWidth 64)
    | none, some (_, c) => some (c, p.e.ea.setWidth 64)
    | none, none => none

/-- A piece or a counter of a commit lies behind a link that trains, so that the commit waits (R223). -/
def State.pieceTrains (s : State) (ps : List Piece) (cs : List (Nat × Bool)) : Bool :=
  ((ps.filter Piece.isPlace).map (·.pa) ++ cs.map (·.1)).any fun p => s.hostLinkIn p (· == .training)

/-- Apply one data piece at its home (R139, R143, R152, R165). -/
def State.applyPiece (s : State) (slot : Nat) (p : Piece) : State :=
  let k := p.e.kind.toNat
  if k = 2 || k = 3 then s
  else if k = 4 then s.fill slot p.pa p.inter p.e.val 3
  else if k = 6 then
    (match p.from_ with
      | some (.bytes b) => s.perform slot p.pa p.inter b false 3
      | some (.place _) | none => s)
  else if k = 1 then
    let ty := (p.e.par.extractLsb' 0 3).toNat
    let s1 := s.recallRange p.pa p.n
    s1.perform slot p.pa p.inter (bytesOf p.n (redFold ty (p.e.par.extractLsb' 4 2).toNat (natOf (s1.peek p.pa p.n)) p.e.val.toNat)) false 3
  else
    let s1 := s.recallRange p.pa 8
    s1.perform slot p.pa p.inter ({ p.e with addr := 0, off := 0 }.onWord 0 (s1.peek p.pa 8)) (k == 5) 3

/-- A counter lies below the number of its decrements (R87). -/
def State.underflow (s : State) (cs : List (Nat × Bool)) : Bool :=
  cs.any fun c => decide (natOf (s.homeRead c.1 4) < (cs.filter fun d => d.1 == c.1).length)

/-- The records of the counters that decrements bring to zero. -/
def State.firing (s : State) (cs : List (Nat × Bool)) : List Nat :=
  (cs.filter fun c => natOf (s.homeRead c.1 4) == (cs.filter fun d => d.1 == c.1).length).map fun c => natOf (s.homeRead (c.1 + 8) 8) % 2 ^ 48

/-- The gates that stand in a record's place. -/
def State.gatesIn (s : State) (pa : Nat) : List Nat :=
  (List.range (Nat.min (bits (s.recField pa 0 8) 59 57) 4)).map fun i => s.recField pa (64 + 8 * i) 8

/-- A record that a commit is to enqueue, or the walk of one of its gates, lies behind a link that trains or a lock of another commit, so that the commit waits (R139, R223). key is the commit's own. -/
def State.recWaits (s : State) (key ctx : Nat) (cs : List (Nat × Bool)) (ps : List Piece) : Bool :=
  let t := { s with commits := s.commits.filter fun c => c.task != key }
  (s.firing cs ++ (ps.filter fun p => p.e.kind == 2).map fun p => p.e.ea.toNat).any fun va =>
    match t.translateRaw ⟨0, ctx, 0⟩ .store .plain (BitVec.ofNat 64 va) 64 with
    | .ok pa _ => t.mustWait pa 64 || (t.gatesIn pa).any (t.gateWaits ctx)
    | .wait => true
    | .fail _ | .deny _ => false

/-- What the enqueues of a commit have in common: the group, the context, the origin grove, the parent, and the timestamp below which none may stand (R150). -/
structure Enters where
  grp : Nat
  ctx : Nat
  origin : Nat
  parent : Option Nat
  raise : Option Word
  deriving DecidableEq, Repr

/-- Decrement counters in order; a record whose counter reaches zero is enqueued (R87). -/
def State.decrement (s : State) (slot : Nat) (en : Enters) (cs : List (Nat × Bool)) : State :=
  cs.foldl (fun st c =>
    let n := natOf (st.homeRead c.1 4) - 1
    let s1 := st.perform slot c.1 c.2 (bytesOf 4 n) false 3
    if n = 0 then
      let s2 := s1.perform slot (c.1 + 4) c.2 [1] false 3
      s2.fire en.grp en.ctx (natOf (s2.homeRead (c.1 + 8) 8) % 2 ^ 48) en.origin (s2.childDepth en.parent) en.raise
    else s1) s

/-- Apply a commit whose sectors are held: data in list order, the decrements with the records that they fire, the unlock, then the SPAWN entries (R87, R165). key is the commit's own, whose locks it holds. -/
def State.applyCommit (s : State) (slot key : Nat) (en : Enters) (ps : List Piece) (counters : List (Nat × Bool)) : State :=
  let (read, s0) := s.readSources ps
  let s1 := read.foldl (fun st p => st.applyPiece slot p) s0
  let s2 := (s1.decrement slot en counters).unlock key
  (ps.filter fun p => p.e.kind == 2).foldl (fun st p =>
    st.spawn en.grp en.ctx p.e.ea.toNat en.origin (st.childDepth en.parent) en.raise) s2

/-- All pieces and counters of a commit: own counter first, then the DEP entries (R87). -/
def State.commitPlan (s : State) (w : Who) (own : Nat) (es : List HEntry) : Except Refuse (List Piece × List (Nat × Bool)) := do
  let mine ← if own = 0 then pure [] else do
    let q ← s.resolve1 w .atomic .plain own 16
    pure [q]
  let ps ← es.mapM fun e => s.pieces w e
  let all := ps.flatten
  return (all, mine ++ (all.filter fun p => p.e.kind == 3).map fun p => (p.pa, p.inter))

/-- The own counter of a task's record. No rule checks the address when the record is taken or at the commit: it is taken modulo 2^48, whatever its alignment (DESIGN CHOICE, log 70). -/
def State.ownCounter (s : State) (t : Task) : Nat := s.recField t.pa 24 8 % 2 ^ 48

/-- The commit key of a class T task (R146). -/
def Task.commitKey (t : Task) : Nat := t.ts.toNat * 2 ^ 32 + t.seq.toNat

/-- A task lies in its group's commit domain (R146). -/
def Task.inDomain (t : Task) (grp : Nat) : Bool := t.grp == grp && t.cls == 2 && t.st != .counting && t.st != .done

/-- The task's key is the frontier of its domain. -/
def State.atFrontier (s : State) (t : Task) : Bool :=
  s.tasks.all fun q => !q.2.inDomain t.grp || decide (t.commitKey ≤ q.2.commitKey)

/-- Offer a trap notice: it goes into the ring, or waits at the device (R238). -/
def State.postNotice (s : State) (bs : List Byte) : State :=
  if s.notices.isEmpty then
    match s.noticePut bs with
    | some s1 => s1
    | none => { s with notices := [bs] }
  else { s with notices := s.notices ++ [bs] }

/-- A refused commit: the task is FAULTED and a notice with the commit-refused bit says so (R85, R166, R341). It waits for the earlier accesses of the task's slot, and for an earlier notice of that slot which is held for room (R239). -/
def State.refuseCommit (s0 : State) (key : Nat) (cause : Nat) (addr : Word) : State :=
  match s0.tasks.find key with
  | some t =>
    match s0.drainAll t.slot with
    | none => s0
    | some s =>
    if (s.slot t.slot).notice.isSome then s
    else
    let s1 := ((s.modTask key fun u => { u with refused := true }).taskState key .faulted)
    (s1.unlock key).postNotice (noticeBytes addr.toNat t.endPc.toNat cause 2 t.va t.ctx (s.source t.slot) s.tick.toNat)
  | none => s0

/-- The cause and address of a refusal. -/
def Refuse.parts : Refuse → Nat × Word
  | .check f => (f.cause, f.addr)
  | .cause c a => (c, a)
  | .wait => (0, 0)

/-- The context that a poisoned table page faults (R76). -/
def Refuse.raises : Refuse → Option Nat
  | .check f => if f.ctxFault then some f.ctx else none
  | .cause _ _ | .wait => none

/-- The entries of a COMMITTING task, as their storage stands (R156). -/
def State.taskEntries (s : State) (t : Task) : List HEntry :=
  match t.hamper with
  | some h => (s.readBack t.slot h).entries
  | none => []

/-- A COMMITTING task's plan. -/
def State.taskPlan (s : State) (t : Task) : Except Refuse (List Piece × List (Nat × Bool)) :=
  s.commitPlan ⟨t.slot, t.ctx, 0⟩ (s.ownCounter t) (s.taskEntries t)

/-- Begin a commit: translate and check everything, then start taking locks (R139, R166). -/
def State.commitStart (s0 : State) (key : Nat) : State :=
  match s0.tasks.find key with
  | none => s0
  | some t =>
    let s := s0.planTouch ⟨t.slot, t.ctx, 0⟩ (s0.ownCounter t) (s0.taskEntries t)
    match s.taskPlan t with
    | .error .wait => s
    | .error r => (s.refuseCommit key r.parts.1 r.parts.2).raiseIf r.raises
    | .ok (ps, cs) =>
      let s1 := s.recallLists ⟨t.slot, t.ctx, 0⟩ (s.taskEntries t)
      { s1 with commits := s1.commits ++ [⟨key, ps, cs, lockList ps cs, [], false, []⟩] }

/-- Take the next lock, unless another commit holds it (R139). -/
def State.lockNext (s : State) (key : Nat) : State :=
  match s.commits.find? (fun c => c.task == key) with
  | some c =>
    match c.todo with
    | sec :: rest =>
      if s.lockedSec sec then s
      else { s with commits := s.commits.map fun d => if d.task = key then { d with todo := rest, held := d.held ++ [sec] } else d }
    | [] => s
  | none => s

/-- Tasks that one event enqueues, in the order of the cores that they last ran on (R94). -/
def byCore (ts : PMap Task) : List Nat := (sortBy (fun (q : Nat × Task) => coreOf q.2.slot) ts).map (·.1)

/-- The conflict check of a class T commit: every higher-keyed dispatched task of the domain that read a sector written is aborted (R148). -/
def State.conflicts (s : State) (key : Nat) (t : Task) (ps : List Piece) : State :=
  let secs := nub (((ps.filter Piece.isData).map fun p => sectorsOf p.pa p.n).flatten)
  let sigOf := fun (k : Nat) (u : Task) => match s.slots.find? (fun q => q.2.runs k) with
    | some q => q.2.sig
    | none => u.sig
  let hit := fun (q : Nat × Task) => q.2.inDomain t.grp && q.1 != key && q.2.dispatched && decide (t.commitKey < q.2.commitKey) &&
    secs.any fun sec => sigHas (sigOf q.1 q.2) (sec * 128)
  (byCore (s.tasks.filter hit)).foldl State.rerun s

/-- The records that a grove has come to send since a state and that its replay window has no room for yet (R100). -/
def State.overfull (s before : State) (g : Nat) : List Nat :=
  s.unsent g (((s.grove g).window.drop (before.grove g).window.length).filterMap fun e => match e.what with
    | .record key _ => some key
    | .packet _ _ => none)

/-- A commit that has applied ends; one that has enqueued more than the replay window takes ends once its own enqueues stand there (R100). -/
def State.commitEnd (s : State) (key : Nat) (waits : List Nat) : State :=
  let s1 := s.unlock key
  if waits.isEmpty then s1.taskDone key else { s1 with commits := s1.commits ++ [⟨key, [], [], [], [], true, waits⟩] }

/-- The own counter of a commit's task: its place, the first of the counters, and its address (R87). -/
def State.ownPlace (s : State) (t : Task) (c : Commit) : Option (Nat × Nat) :=
  if s.ownCounter t = 0 then none else c.counters.head?.map fun q => (q.1, s.ownCounter t)

/-- Apply a commit that holds every lock, and unlock: what waits is waited for, then what the IO die refuses (R254), then the counters (R87, R139, R148). -/
def State.commitApply (s : State) (key : Nat) : State :=
  match s.tasks.find key, s.commits.find? (fun c => c.task == key) with
  | some t, some c =>
    if !c.todo.isEmpty then s
    else if c.applied then s.commitEnd key (s.unsent (groveOf t.slot) c.sends)
    else if s.sourceWaits key c.pieces || s.pieceTrains c.pieces c.counters then s
    else match s.pieceRefused (s.ownPlace t c) c.pieces with
      | some (cause, addr) => s.refuseCommit key cause addr
      | none =>
      if s.underflow c.counters then s.refuseCommit key Cause.counterUnderflow 0
      else if s.recWaits key t.ctx c.counters c.pieces then s
      else
        let s1 := if t.cls == 2 then s.conflicts key t c.pieces else s
        let raise := if t.cls == 2 then some t.ts else none
        let s2 := s1.applyCommit t.slot key ⟨t.grp, t.ctx, groveOf t.slot, some key, raise⟩ c.pieces c.counters
        s2.commitEnd key (s2.overfull s1 (groveOf t.slot))
  | _, _ => s

/-- A number that no task's key has, for a commit that holds no lock of its own: keys are below 2^64. -/
def noTask : Nat := 2 ^ 64

/-- After enqueues of the slot in turn that do not fit its replay window, its next instruction does not issue before they stand there (R100). before is the state that they started from. -/
def State.stallFull (s before : State) : State :=
  let keys := s.overfull before (groveOf s.cur)
  if keys.isEmpty then s else s.modMe fun q => { q with stall := keys }

/-- A sector that a direct commit needs is held by another commit. -/
def State.blocked (s : State) (ps : List Piece) (cs : List (Nat × Bool)) : Bool := (lockList ps cs).any s.lockedSec

end Sys2Proof.Machine
end

