-- ==== Sys2Proof/Machine/GuestQueues.lean ====
section
/-! DEFINITION. The guest queues' descriptors and the fencing of the guest link (R227, R230, R232, R233). -/

namespace Sys2Proof.Machine

/-- The state byte of a guest queue: 0 DISABLED, 1 ACTIVE, 2 QUIESCING, 3 QUIESCED, 4 BROKEN (R227). Without a table every queue is DISABLED. -/
def State.gqState (s : State) (q : Nat) : Nat := if s.gqBase = 0 then 0 else s.recField (s.gqDesc q) 9 1

/-- The device writes it. -/
def State.gqSet (s : State) (q st : Nat) : State := s.recWrite (s.gqDesc q) 9 (bytesOf 1 st)

/-- The context of a queue. -/
def State.gqCtx (s : State) (q : Nat) : Nat := s.recField (s.gqDesc q) 10 2

/-- The slots of a queue's ring. -/
def State.gqSize (s : State) (q : Nat) : Nat := 2 ^ (s.recField (s.gqDesc q) 8 1)

/-- The virtual address of the packet at an index (R230). -/
def State.gqPacket (s : State) (q i : Nat) : Nat := s.recField (s.gqDesc q) 0 8 + i % s.gqSize q * 64

/-- Ticks of the bound (R233). -/
def State.boundTicks (s : State) : Nat := s.gsBound.toNat * 100

/-- A quiesce request for a queue: ACTIVE becomes QUIESCING, to be answered within the bound (R232). -/
def State.quiesce (s : State) (q : Nat) : State :=
  if s.gqState q = 1 then
    let s1 := s.gqSet q 2
    { s1 with guest := { s1.guest with quiesceAt := s1.guest.quiesceAt.put q (s1.tick.toNat + s1.boundTicks) } }
  else s

/-- The queues of a context. -/
def State.gqOf (s : State) (ctx : Nat) : List Nat :=
  if s.gqBase = 0 then [] else (List.range 32).filter fun q => s.gqCtx q == ctx

/-- Every ACTIVE queue of a context quiesces. -/
def State.quiesceCtx (s : State) (ctx : Nat) : State := (s.gqOf ctx).foldl State.quiesce s

/-- A queue of a context still quiesces. -/
def State.quiescing (s : State) (ctx : Nat) : Bool := (s.gqOf ctx).any fun q => s.gqState q == 2

/-- Queues of a context in one state move to another. -/
def State.gqMove (s : State) (ctx old new : Nat) : State :=
  (s.gqOf ctx).foldl (fun st q => if st.gqState q = old then st.gqSet q new else st) s

/-- A write of the guest performs at its home as guest source; sig adds the signal (R129, R152, R231). -/
def State.guestPut (s : State) (p : Nat) (inter : Bool) (bs : List Byte) (kind : Nat) (sig : Bool) : State :=
  let s1 := ((s.recallRange p bs.length).poke p inter bs).traceAdd (s.home p inter) kind bs.length p 0x8001
  if sig then s1.notify (sectorOf p) else s1

/-- The translation of a guest's access: one that the guest has cached, else the agent's (R231). -/
def State.guestXlate (s : State) (acc : Access) (ctx va n : Nat) : XRes :=
  match tlbFind s.guest.tlb ctx (va % 2 ^ 48) with
  | some e => s.checkLeaf ⟨0, ctx, 5⟩ acc .plain (BitVec.ofNat 64 va) n true false e.pte.toNat e.level e.size
  | none => s.translateRaw ⟨0, ctx, 5⟩ acc .plain (BitVec.ofNat 64 va) n

/-- The agent writes a queue's record, with its source, context and sequence number; the packet that it names is paused (R211, R212, R231). -/
def State.guestRecord (s : State) (q : Nat) (idx : Option Nat) (f : XFault) (progress : Nat) : State :=
  let fs := (s.guest.fsrc.get q FaultSrc.none).next (f.addr.toNat % 2 ^ 48 / 4096)
  let token := match idx with
    | some i => s.gqPacket q i
    | none => 0
  let r : FaultRec := ⟨f.ctx, recordBytes f 0x8001 fs token progress s.tick.toNat, fs.seq⟩
  let s1 := { s with guest := { s.guest with
    fsrc := s.guest.fsrc.put q fs
    paused := match idx with
      | some i => s.guest.paused ++ [(q, i, fs.seq)]
      | none => s.guest.paused } }
  let s2 := if f.ctxFault then s1.ctxRaise f.ctx else s1
  match s2.recordPut r with
  | (s3, true) => s3
  | (s3, false) => { s3 with guest := { s3.guest with record := s3.guest.record.put q r } }

/-- A queue may write a record: it awaits no replay, and none of its records waits for room (R72, R211). -/
def State.mayRecord (s : State) (q : Nat) : Bool :=
  (s.guest.fsrc.get q FaultSrc.none).awaiting.isNone && !(s.guest.record.any fun r => r.1 == q)

/-- The record of a write of a queue that has been refused and names no packet: it is made once the queue may write one, behind the earlier ones of the queue (R72, R211). -/
def State.guestDenied (s : State) (b : LateBad) : State :=
  if s.mayRecord b.src.queue && !(s.guestBad.any fun o => o.src.queue == b.src.queue) then
    s.guestRecord b.src.queue none ⟨b.src.ctx, b.src.addr, b.src.pte, b.reason, 1, 5, b.src.level, b.cause, false⟩ 0
  else { s with guestBad := s.guestBad ++ [b] }

/-- Those whose records are still to be made are offered again, in their order. -/
def State.guestBadOut (s : State) : State := s.guestBad.foldl State.guestDenied { s with guestBad := [] }

/-- The leaf by which a guest reaches an address, and its level: cached, or the agent's (R231). -/
def State.guestLeaf (s : State) (ctx va : Nat) : Word × Nat :=
  match tlbFind s.guest.tlb ctx (va % 2 ^ 48) with
  | some e => (e.pte, e.level)
  | none => s.settled.leafAt ctx (va % 2 ^ 48)

/-- The walk of a guest's access that no cached translation answers recalls the update-only copies that it meets (R142). -/
def State.guestWalk (s : State) (ctx va : Nat) : State := if (tlbFind s.guest.tlb ctx (va % 2 ^ 48)).isSome then s else s.walkTouch ctx [va]

/-- The completion word of a packet that a fence ends, with the signal (R230, R232). It performs after a lock or a link that trains (R139, R223); where it fails its checks, now or as it then reaches the IO die, it is not made, and a record of the queue says so (R168, R211, R223, R254). -/
def State.guestWord (s0 : State) (q ctx va v : Nat) : State :=
  if 2 ^ 48 ≤ va || va % 8 ≠ 0 then s0
  else
    let s := s0.guestWalk ctx va
    match s.settled.guestXlate .store ctx va 8 with
    | .ok p inter =>
      let (pte, level) := s.guestLeaf ctx va
      let l : Late := ⟨none, ⟨p, inter, bytesOf 8 v, true⟩, some ⟨q, ctx, BitVec.ofNat 64 va, pte, level⟩⟩
      if s.mustWait p 8 then { s with late := s.late ++ [l] } else s.guestPut p inter (bytesOf 8 v) 0 true
    | .fail f => (s.guestDenied ⟨⟨q, ctx, f.addr, f.pte, f.level⟩, f.reason, f.cause⟩).raiseIf (XRes.fail f).raises
    | .deny _ | .wait => s

/-- Bytes that the guest reads at a virtual address; none where they cannot be read now. A poisoned table page raises FAULT in its context (R76). -/
def State.guestBytes (s0 : State) (ctx va n : Nat) : Option (List Byte) × State :=
  let s := s0.guestWalk ctx va
  match s.guestXlate .load ctx va n with
  | .ok p _ =>
    if s.locked p n then (none, s)
    else
      let s1 := s.recallRange p n
      (if s1.poisoned p n then none else some (s1.peek p n), s1)
  | r => (none, s.raiseIf r.raises)

/-- The completion of a packet that a fence ends: its completion word, with signal (R230, R232). The packet is read as the access will find it: past a lock, and past a link that trains (R139, R223). -/
def State.packetDone (s0 : State) (q i status : Nat) : State :=
  let ctx := s0.gqCtx q
  let s := s0.guestWalk ctx (s0.gqPacket q i)
  match s.settled.guestXlate .load ctx (s.gqPacket q i) 64 with
  | .ok p _ =>
    let s1 := s.recallRange p 64
    if s1.poisoned p 64 then s1
    else
      let pk := s1.peek p 64
      s1.guestWord q ctx (field pk 24 8) (at_ (field pk 56 8 % 2 ^ 56) 8 + status)
  | r => s.raiseIf r.raises

/-- A queue is DISABLED, with nothing left of its packets. -/
def State.gqOff (s : State) (q : Nat) : State :=
  let s1 := s.gqSet q 0
  { s1 with guest := { s1.guest with
      started := s1.guest.started.filter fun p => p.1 != q
      reports := s1.guest.reports.filter fun p => p.1 != q
      paused := s1.guest.paused.filter fun p => p.1 != q
      fsrc := s1.guest.fsrc.put q { s1.guest.fsrc.get q FaultSrc.none with awaiting := none } } }

/-- Fencing the guest link: held sectors become poison, started packets get status 4, invalidations count as acknowledged, every queue is BROKEN (R232). A fault record that still waits for room stays: no record is lost (R72). -/
def State.guestFence (s : State) : State :=
  let g := s.guest
  let s1 := g.started.foldl (fun st p => st.packetDone p.1 p.2 4) s
  let s2 := if s1.gqBase = 0 then s1 else (List.range 32).foldl (fun st q => if st.gqState q = 0 then st else st.gqSet q 4) s1
  { s2 with
    poison := g.held.foldl (fun l q => if l.contains q.1 then l else insertBy id q.1 l) s2.poison
    guest := { s2.guest with
      started := [], held := [], tlb := [], paused := [], quiesceAt := [], reports := []
      fsrc := s2.guest.fsrc.map fun (q : Nat × FaultSrc) => (q.1, { q.2 with awaiting := none })
      acked := g.acked ++ g.inval.filterMap (·.1), inval := [] } }

end Sys2Proof.Machine
end

