-- ==== Sys2Proof/Machine/Pager.lean ====
section
/-! DEFINITION. Invalidating translations, replaying faults, resuming a faulted task, and the traps that software raises (R85, R210, R213, R231, R240, R343 to R345). -/

namespace Sys2Proof.Machine

/-! ### pg.post (R210, R231, R343) -/

/-- A TLB entry of a context overlaps a range of bytes by its page. -/
def TlbEntry.meets (e : TlbEntry) (ctx lo hi : Nat) : Bool :=
  decide (e.ctx = ctx) && decide (e.va < hi) && decide (lo < e.va + e.size)

/-- Every TLB of the device drops its entries for a context within whole pages of a range (R210). -/
def State.tlbDrop (s : State) (ctx lo hi : Nat) : State :=
  let keep := fun (l : List TlbEntry) => l.filter fun e => !e.meets ctx lo hi
  { s with
    cores := s.cores.map fun (q : Nat × Core) => (q.1, { q.2 with dtlb := keep q.2.dtlb, itlb := keep q.2.itlb })
    groves := s.groves.map fun (q : Nat × Grove) => (q.1, { q.2 with l2tlb := keep q.2.l2tlb }) }

/-- The guest answers requests: its link is neither DOWN nor FENCED. -/
def State.guestUp (s : State) : Bool :=
  match (s.link 13).st with
  | .training | .up | .degraded => true
  | .down | .fenced => false

/-- The pages that a range overlaps, for its invalidation. -/
def pageRange (start len : Nat) : Nat × Nat := (start / 4096 * 4096, ceilDiv (start + len) 4096 * 4096)

/-- The invalidation of a pg.post: every TLB at once; a guest that holds translations in the range has to acknowledge, whatever its link does: behind a link that is DOWN the bound passes, and the guest is fenced (R210, R231, R232). -/
def postRange (ctx start len : Nat) (s : State) : Eff :=
  let (lo, hi) := pageRange start len
  let s1 := s.tlbDrop ctx lo hi
  if s1.guest.tlb.any fun e => e.meets ctx lo hi then
    .hold { s1 with guest := { s1.guest with
      tlb := s1.guest.tlb.filter fun e => !e.meets ctx lo hi
      inval := s1.guest.inval ++ [(some s1.cur, s1.tick.toNat + s1.boundTicks)] } }
  else .next s1

/-- pg.post once its operands are in order: earlier stores first; then it waits for the guest's acknowledgement where one is due. -/
def postStep (ctx start len : Nat) (s : State) : Eff :=
  s.release fun s1 =>
    if s1.guest.acked.contains s1.cur then
      .next { s1 with guest := { s1.guest with acked := s1.guest.acked.filter (· != s1.cur) } }
    else if s1.guest.inval.any fun q => q.1 == some s1.cur then .hold s1
    else if len = 0 then .next s1
    else postRange ctx start len s1

/-- pg.post (R343). -/
def execPgPost (a b c : Reg) (s : State) : Out :=
  let ctx := (s.x a).toNat
  let start := (s.x b).toNat
  let len := (s.x c).toNat
  firmwareOnly s (
    if 64 ≤ ctx then .trap s Cause.illegal 0 0
    else if 2 ^ 48 < start + len then .trap s Cause.illegal 0 0
    else postStep ctx start len s)

/-- A stop or a trap abandons a slot's pg.post; the guest still acknowledges the invalidation (R343). -/
def State.postAbandon (s : State) (slot : Nat) : State :=
  { s with guest := { s.guest with
    acked := s.guest.acked.filter (· != slot)
    inval := s.guest.inval.map fun q => (if q.1 = some slot then none else q.1, q.2) } }

/-! ### A faulted task resolved (R85, R240) -/

/-- A FAULTED task goes on: READY and pinned, or COMMITTING where the fault refused its commit (R85). -/
def State.resumeTask (s : State) (key : Nat) : State :=
  match s.tasks.find key with
  | none => s
  | some t =>
    if t.st != .faulted then s
    else
      let s1 := s.modTask key fun u => { u with awaiting := none }
      if t.refused then
        let s2 := (s1.modTask key fun u => { u with refused := false }).taskState key .committing
        if t.cls == 1 then s2.commitStart key else s2
      else s1.enqueue key (groveOf t.slot)

/-! ### pg.replay (R213, R231, R344) -/

/-- The slot that a source field of R211 names. -/
def State.slotOfSource (s : State) (src : Nat) : Nat :=
  let low := bits src 12 10 * 4 + bits src 14 13
  if bitAt src 15 then
    let n := bits src 9 0 - 0x200
    gridIndex (s.fwcol.toNat + n % s.fwwidth.toNat) (n / s.fwwidth.toNat) * 32 + low
  else s.physGrove (bits src 9 0 % 32) (bits src 9 0 / 32) * 32 + low

/-- An engine that awaits a record goes on: at its command's recorded progress, or, where a stop has taken the command out, with what is queued. A record that it still holds is not in the queue. -/
def State.replayEngine (s : State) (core : Nat) (gather : Bool) (seq : Half) : State :=
  let e := (s.core core).eng gather
  if e.record.isNone && e.fsrc.awaiting = some seq then
    s.modCore core fun c => c.setEng gather { e with fsrc := { e.fsrc with awaiting := none } }
  else s

/-- A core or rule-engine source that awaits the record: the task that it faulted, or the slot itself where it runs none (log 12). A record that the slot still holds is not in the queue. -/
def State.replaySlot (s : State) (src path : Nat) (seq : Half) : State :=
  let slot := s.slotOfSource src
  let f := s.pathSrc slot path
  if f.awaiting != some seq || (s.slot slot).record.any fun r => r.seq == seq && field r.bytes 18 1 == path then s
  else
    let s1 := s.setPathSrc slot path { f with awaiting := none }
    match s.tasks.find? fun q => q.2.awaiting == some (src + at_ path 16, seq) with
    | some q => s1.resumeTask q.1
    | none =>
      let sl := s.slot slot
      if sl.task.isNone && sl.st == .stopped && sl.record.isNone then s1.modSlot slot fun q => { q with st := .run, held := false } else s1

/-- The guest resumes the packet that a record paused; a record of a queue that names no packet stops the queue's records alone (R211, R231). -/
def State.replayGuest (s : State) (ctx token : Nat) (seq : Half) : State :=
  let of_ := fun (q i : Nat) (k : Half) => k == seq && s.gqCtx q == ctx && s.gqPacket q i == token && !s.guest.record.any fun r => r.1 == q
  match s.guest.paused.find? fun p => of_ p.1 p.2.1 p.2.2 with
  | none =>
    -- a record that names no packet: its queue may write the next one
    (match s.guest.fsrc.find? fun q => token == 0 && s.gqCtx q.1 == ctx && q.2.awaiting == some seq && !s.guest.record.any fun r => r.1 == q.1 with
      | some q => { s with guest := { s.guest with fsrc := s.guest.fsrc.put q.1 { q.2 with awaiting := none } } }
      | none => s)
  | some p => { s with guest := { s.guest with
      paused := s.guest.paused.erase p
      fsrc := s.guest.fsrc.put p.1 { s.guest.fsrc.get p.1 FaultSrc.none with awaiting := none } } }

/-- Restart the source of a record; one that is not stopped awaiting it ignores the record, and so does the host (R344). -/
def State.replay (s : State) (r : List Byte) : State :=
  let src := field r 20 2
  let path := field r 18 1
  let seq : Half := BitVec.ofNat 16 (field r 50 2)
  if path = 1 || path = 2 then s.replayEngine (coreOf (s.slotOfSource src)) (path == 2) seq
  else if path = 5 then s.replayGuest (field r 48 2) (field r 24 8) seq
  else if path = 6 then s
  else s.replaySlot src path seq

/-- pg.replay on a record's place. -/
def replayStep (pa : Nat) (s : State) : Eff :=
  if s.locked pa 64 then .hold s
  else
    let s1 := s.recallRange pa 64
    if s1.poisoned pa 64 then .trap s1 Cause.poison (BitVec.ofNat 64 pa) 0 else .next (s1.replay (s1.peek pa 64))

/-- pg.replay (R344). -/
def execPgReplay (a : Reg) (s : State) : Out :=
  let x := s.x a
  firmwareOnly s (if x.toNat % 64 ≠ 0 then .trap s Cause.misaligned x 0 else replayStep x.toNat s)

/-! ### Traps that software raises (R345) -/

/-- ecall (R345). -/
def execEcall (s : State) : Out := guarded s (.trap s Cause.ecall 0 0)

/-- ebreak (R345). -/
def execEbreak (s : State) : Out := guarded s (.trap s Cause.ebreak 0 0)

/-- trap (R345). -/
def execTrap (e : BitVec 8) (s : State) : Out := guarded s (.trap s Cause.trap (e.setWidth 64) 0)

end Sys2Proof.Machine
end

