-- ==== Sys2Proof/Machine/Contexts.lean ====
section
/-! DEFINITION. The context controller: its commands, the FAULT event, and reports that wait at their source (R69 to R78, R238). -/

namespace Sys2Proof.Machine

/-! ### Descriptors (R69, R70, R74) -/

/-- The enabled bits and recipes of the sixteen queues. -/
def ctxQueues (d : List Byte) : List (Bool × BitVec 4) :=
  (List.range 16).map fun i =>
    let w := field d (64 + 8 * i) 4
    (bitAt w 0, BitVec.ofNat 4 (bits w 7 4))

/-- The checks of R74. -/
def ctxOk (d : List Byte) : Bool :=
  field d 8 8 != 0 && field d 8 8 % 4096 == 0 && field d 16 8 % 2 ^ 18 == 0 && (ctxQueues d).any (·.1) &&
  field d 32 8 != 0 && field d 32 8 % 4096 == 0 && decide (1 ≤ field d 48 2) && decide (field d 48 2 ≤ 1024) &&
  bits (field d 1 1) 7 5 == 0 && field d 4 4 == 0 && field d 50 6 == 0 && field d 58 6 == 0 && natOf (d.drop 192) == 0 &&
  (List.range 16).all fun i =>
    let w := field d (64 + 8 * i) 4
    bits w 3 1 == 0 && bits w 31 8 == 0

/-- The controller caches a descriptor that it has read (R70). -/
def Ctx.cache (c : Ctx) (d : List Byte) : Ctx :=
  { c with
    perm := BitVec.ofNat 8 (field d 1 1), ptroot := field d 8 8, fqbase := field d 16 8, hbudget := field d 32 8
    maxgroves := field d 48 2, weight := BitVec.ofNat 16 (field d 56 2), queues := ctxQueues d }

/-! ### Commands (R73) -/

/-- The context of a command word. -/
def cmdCtx (w : Word) : Nat := bits w.toNat 21 16
/-- The operation of a command word. -/
def cmdOp (w : Word) : Nat := bits w.toNat 3 0

/-- A core number beyond the module's: the device's own FAULT event comes from it. -/
def noCore : Nat := 8 * 34 * 32

/-- The command that is served next: the oldest whose context has none in progress (R73). -/
def State.ctxNext (s : State) : Option Pending := s.ctxQ.find? fun p => (s.ctxOf (cmdCtx p.word)).stopping == .none

/-- A command leaves the queue. -/
def State.ctxTake (s : State) (p : Pending) : State :=
  { s with ctxQ := s.ctxQ.erase p }

/-- A command completes: its core's register shows the status with busy 0. -/
def State.ctxReply (s : State) (core ctx op status : Nat) : State :=
  if core = noCore then s
  else s.modCore core fun c => { c with ctxCmd := BitVec.ofNat 64 (at_ status 28 + at_ ctx 16 + op) }

/-- Serve the next command if it is the given operation, or an unknown one (status 4). -/
def State.ctxServe (s : State) (op : Nat) (f : State → Nat → Nat → State) : State :=
  match s.ctxNext with
  | none => s
  | some p =>
    let o := cmdOp p.word
    let ctx := cmdCtx p.word
    if o = 0 || 6 < o then (s.ctxTake p).ctxReply p.core ctx o 4
    else if o = op then f (s.ctxTake p) p.core ctx
    else s

/-- CREATE: the device-written fields and fqtail are zero, and the context's virtual times (R75, R97). -/
def createCtx (s : State) (core ctx : Nat) : State :=
  if (s.ctxOf ctx).st == .free then
    let d := s.ctxDesc ctx
    let s1 := (((s.ctxGroups ctx 0).recWrite d 24 (zeros 8)).recWrite d 40 (zeros 8))
    let s2 := (List.range 16).foldl (fun st i => st.recWrite (d + 68 + 8 * i) 0 (zeros 4)) s1
    let s3 := { s2 with stands := s2.stands.map fun (q : Nat × Stand) => (q.1, { q.2 with vt := q.2.vt.drop ctx }) }
    (s3.ctxState ctx .building).ctxReply core ctx 1 0
  else s.ctxReply core ctx 1 1

/-- CTX_CREATE (R73, R75). -/
def execCtxCreate (s : State) : Out := .next (s.ctxServe 1 createCtx)

/-- Read a descriptor for COMMIT and RESUME, its update-only copies recalled (R142): none after an uncorrectable error, which raises FAULT (R76). -/
def State.ctxRead (s : State) (ctx : Nat) : Option (List Byte) × State :=
  let d := s.ctxDesc ctx
  let s1 := s.recallRange d 256
  (if s1.poisoned d 128 || s1.poisoned (d + 128) 128 then none else some (s1.peek d 256), s1)

/-- COMMIT (R74, R75). -/
def commitCtx (s : State) (core ctx : Nat) : State :=
  if (s.ctxOf ctx).st != .building then s.ctxReply core ctx 2 1
  else match s.ctxRead ctx with
    | (none, s) => (s.ctxReply core ctx 2 2).ctxRaise ctx
    | (some d, s) =>
      if ctxOk d then (((s.modCtx ctx fun c => c.cache d).ctxState ctx .ready).ctxReply core ctx 2 0)
      else s.ctxReply core ctx 2 2

/-- CTX_COMMIT (R73, R75). -/
def execCtxCommit (s : State) : Out := .next (s.ctxServe 2 commitCtx)

/-! ### Stops (R75, R232, R243) -/

/-- A slot runs a task of a context, or has yet to finish saving it. -/
def Slot.busyFor (sl : Slot) (ctx : Nat) : Bool :=
  sl.task.isSome && decide (sl.ctx = ctx) && (match sl.st with
    | .run | .waiting => true
    | .stopped => sl.stop.isSome || sl.saving
    | .idle => false)

/-- A stop arrives at every running slot of a context (R243). -/
def State.stopSlots (s : State) (ctx : Nat) : State :=
  { s with slots := s.slots.map fun (q : Nat × Slot) =>
    (q.1, if q.2.busyFor ctx && q.2.stop.isNone && q.2.st != .stopped then { q.2 with stop := some .preempt, held := false } else q.2) }

/-- A stop completes when no slot and no guest queue of the context is busy (R75, R232). -/
def State.ctxQuiet (s : State) (ctx : Nat) : Bool := !(s.slots.any fun q => q.2.busyFor ctx) && !s.quiescing ctx

/-- End a stop that is quiet: the new state, and the command's status (R75). -/
def State.stopEnd (s : State) (ctx : Nat) : State :=
  let c := s.ctxOf ctx
  if !s.ctxQuiet ctx then s
  else
    let fin := fun (st : CtxSt) (op : Nat) =>
      let s1 := (s.modCtx ctx fun q => { q with stopping := .none, stopCore := none }).ctxState ctx st
      match c.stopCore with
      | some core => s1.ctxReply core ctx op 0
      | none => s1
    match c.stopping with
    | .suspend => fin .suspended 3
    | .fault => fin .faulted 6
    | .teardown | .none => s

/-- Begin a stop: dispatch ceases, slots are pre-empted, ACTIVE guest queues quiesce. -/
def State.stopBegin (s : State) (core ctx : Nat) (kind : CtxStop) : State :=
  let s1 := s.modCtx ctx fun c => { c with stopping := kind, stopCore := if core = noCore then none else some core }
  ((s1.stopSlots ctx).quiesceCtx ctx).stopEnd ctx

/-- SUSPEND (R75). -/
def suspendCtx (s : State) (core ctx : Nat) : State :=
  match (s.ctxOf ctx).st with
  | .ready | .running => s.stopBegin core ctx .suspend
  | .free | .building | .suspended | .faulted | .teardown => s.ctxReply core ctx 3 1

/-- CTX_SUSPEND (R73, R75). -/
def execCtxSuspend (s : State) : Out := .next (s.ctxServe 3 suspendCtx)

/-- The stands in which a context has eligible entries again: there its virtual time rises to the least of the others that have some (R97). -/
def State.vtResume (s : State) (ctx : Nat) : State :=
  s.stands.foldl (fun st q =>
    let all := st.eligibleCtxs q.1
    if all.contains ctx then st.vtRaise q.1 ctx (all.filter (· != ctx)) else st) s

/-- RESUME: the descriptor is read again; QUIESCED queues are ACTIVE again (R74, R75, R232). -/
def resumeCtx (s : State) (core ctx : Nat) : State :=
  match (s.ctxOf ctx).st with
  | .suspended | .faulted =>
    (match s.ctxRead ctx with
    | (none, s) => (s.ctxReply core ctx 4 2).ctxRaise ctx
    | (some d, s) =>
      if ctxOk d then
        let s1 := s.modCtx ctx fun c => c.cache d
        let s2 := s1.ctxState ctx (if 0 < (s.ctxOf ctx).groups then .running else .ready)
        ((s2.gqMove ctx 3 1).vtResume ctx).ctxReply core ctx 4 0
      else s.ctxReply core ctx 4 2)
  | .free | .building | .ready | .running | .teardown => s.ctxReply core ctx 4 1

/-- CTX_RESUME (R73, R75). -/
def execCtxResume (s : State) : Out := .next (s.ctxServe 4 resumeCtx)

/-- FAULT (R75). -/
def faultCtx (s : State) (core ctx : Nat) : State :=
  match (s.ctxOf ctx).st with
  | .free => s.ctxReply core ctx 6 1
  | .teardown => s.ctxReply core ctx 6 0
  | .building | .ready | .running | .suspended | .faulted => s.stopBegin core ctx .fault

/-- CTX_FAULT (R73, R75). -/
def execCtxFault (s : State) : Out := .next (s.ctxServe 6 faultCtx)

/-- CTX_DEVICE_FAULT: the device raises FAULT itself; the controller serves it as a command of its own (R76). -/
def execCtxDeviceFault (ctx : Nat) (s : State) : Out :=
  .next { s with ctxQ := s.ctxQ ++ [⟨noCore, BitVec.ofNat 64 (at_ ctx 16 + 6)⟩] }

/-- CTX_STOP_COMPLETE: the last slot has saved its state (R75). -/
def execCtxStopComplete (ctx : Nat) (s : State) : Out := .next (s.stopEnd ctx)

/-! ### TEARDOWN (R78) -/

/-- Every task of a context is killed, those that lie in no slot too (R78, R115). -/
def State.killCtx (s : State) (ctx : Nat) : State :=
  ((s.tasks.filter fun q => q.2.ctx == ctx).map (·.1)).foldl State.killTask s

/-- A frame save in progress goes with the context's tasks. A fault record or a trap notice that waits at its slot stays there: no record is lost (R72). -/
def State.dropSaves (s : State) (ctx : Nat) : State :=
  { s with slots := s.slots.map fun (q : Nat × Slot) =>
    (q.1, if q.2.task.isSome && q.2.ctx = ctx && q.2.stop.isSome && q.2.record.isNone && q.2.notice.isNone then
      { q.2 with st := .idle, task := none, ctx := 0, cls := 0, grp := 0, stop := none } else q.2) }

/-- A launch of the context that is being claimed is broken: DONE with cause 1 (R113). -/
def State.claimBreak (s : State) (ctx : Nat) : State :=
  match s.claimAt, s.grpQ with
  | some (pa, _), p :: rest =>
    if bits p.word.toNat 5 0 = ctx then
      ({ s with claimAt := none, grpQ := rest }.recWrite pa 64 (bytesOf 1 GrpSt.done.code ++ bytesOf 1 1)).launchReply p.core 0
    else s
  | _, _ => s

/-- TEARDOWN: slots killed, hampers discarded, groups BROKEN, queues and TLBs emptied (R78). -/
def teardownCtx (s : State) (core ctx : Nat) : State :=
  match (s.ctxOf ctx).st with
  | .free => s.ctxReply core ctx 5 1
  | .teardown => s.ctxReply core ctx 5 0
  | .building | .ready | .running | .suspended | .faulted =>
    let s1 := (s.modCtx ctx fun c => { c with stopping := .teardown, stopCore := some core }).ctxState ctx .teardown
    let s2 := ((s1.groups.filter fun q => q.2.ctx == ctx).map (·.1)).foldl (fun st g => st.breakGroup g 10) (s1.claimBreak ctx)
    let s3 := (s2.killCtx ctx).dropSaves ctx
    ((s3.unqueue fun k => k / 2 ^ 48 == ctx).tlbDrop ctx 0 (2 ^ 48)).quiesceCtx ctx

/-- CTX_TEARDOWN (R73, R78). -/
def execCtxTeardown (s : State) : Out := .next (s.ctxServe 5 teardownCtx)

/-- A context's groups have been freed. -/
def State.ctxFreed (s : State) (ctx : Nat) : Bool := s.groups.all fun q => q.2.ctx != ctx || q.2.freed || q.2.st == .done

/-- CTX_DRAINED: TEARDOWN is complete, and its queues DISABLED; the context is FREE. Its fault queue stays, and takes a record that still waits once software makes room (R72, R78, R232). -/
def execCtxDrained (ctx : Nat) (s : State) : Out :=
  let c := s.ctxOf ctx
  .next (
    if c.stopping == .teardown && s.ctxQuiet ctx && s.ctxFreed ctx then
      let off := (s.gqOf ctx).foldl (fun st q => if st.gqState q = 3 then st.gqOff q else st) s
      let s1 := off.modCtx ctx fun _ => { Ctx.reset with fqbase := c.fqbase }
      let s2 := s1.ctxState ctx .free
      match c.stopCore with
      | some core => s2.ctxReply core ctx 5 0
      | none => s2
    else s)

/-! ### Reports that wait at their source (R72, R238) -/

/-- TRAP_NOTICE_RETRY: a slot offers its report again; notices of refused commits wait at the device (R238). -/
def execTrapNoticeRetry (slot : Nat) (s : State) : Out :=
  let s1 := if (s.slot slot).st == .stopped && ((s.slot slot).notice.isSome || (s.slot slot).record.isSome) then s.report slot else s
  .next (match s1.notices with
    | bs :: rest => match s1.noticePut bs with
      | some s2 => { s2 with notices := rest }
      | none => s1
    | [] => s1)

/-- The record that an engine holds goes out. Of a command that is gone for good no replay is awaited. -/
def State.engRecordOut (s : State) (core : Nat) (gather : Bool) : State :=
  let e := (s.core core).eng gather
  match e.record with
  | some r => match s.recordPut r with
    | (s1, true) => s1.modCore core fun c => c.setEng gather { c.eng gather with
        record := none, orphan := false, fsrc := if e.orphan then { e.fsrc with awaiting := none } else e.fsrc }
    | (s1, false) => s1
  | none => s

/-- FAULT_RECORD_RETRY: a source offers its record again (R72). The source is a slot's number, and with it the engines of its core; a number beyond the slots is the guest and the host. -/
def execFaultRecordRetry (src : Nat) (s : State) : Out :=
  .next (
    if src < noCore * 4 then
      let s1 := if (s.slot src).st == .stopped && (s.slot src).record.isSome then s.report src else s
      (s1.engRecordOut (coreOf src) false).engRecordOut (coreOf src) true
    else
      let sp := s.guestBadOut
      let s1 := sp.guest.record.foldl (fun (st : State) (q : Nat × FaultRec) => match st.recordPut q.2 with
        | (s1, true) => { s1 with guest := { s1.guest with record := s1.guest.record.drop q.1 } }
        | (s1, false) => s1) sp
      match s1.hostRec with
      | some r => match s1.recordPut r with
        | (s2, true) => { s2 with hostRec := none }
        | (s2, false) => s2
      | none => s1)

end Sys2Proof.Machine
end

