-- ==== Sys2Proof/Machine/Buffers.lean ====
section
/-! DEFINITION. Circular buffers: descriptors, pointers and slots (R371, R372, R375, R236). -/

namespace Sys2Proof.Machine

/-- A circular buffer as its descriptor stands (R371). -/
structure Cb where
  scr : Bool
  off : Nat
  base : Nat
  slotSize : Nat
  slots : Nat
  space : Nat
  prod : Nat
  cons : Nat
  deriving DecidableEq, Repr

/-- Write a local space of a core. -/
def State.localWrite (s : State) (core : Nat) (scr : Bool) (off : Nat) (bs : List Byte) : State :=
  if scr then s.scrWrite (groveOfCore core) off bs else s.tcmWrite core off bs

/-- A poisoned word among bytes of a local space of a core. -/
def State.localPoison (s : State) (core : Nat) (scr : Bool) (off n : Nat) : Bool :=
  if scr then s.scrPoison (groveOfCore core) off n else s.tcmPoison core off n

/-- The descriptor at an offset (R371). -/
def State.cbAt (s : State) (core : Nat) (scr : Bool) (off : Nat) : Cb :=
  let bs := s.localRead core scr off 24
  ⟨scr, off, field bs 0 4, field bs 4 4, field bs 8 4, field bs 12 1, field bs 16 4, field bs 20 4⟩

/-- The buffer that a handle of a core is bound to (R372). -/
def State.cbOf (s : State) (core h : Nat) : Option Cb := ((s.core core).cbs.find h).map fun b => s.cbAt core b.scr b.off

/-- The slots that are filled (R371). -/
def Cb.filled (b : Cb) : Nat := (b.prod + 2 ^ 32 - b.cons) % 2 ^ 32

/-- The slots that are free. Software that moves the pointers can make filled exceed slots; then none is free. -/
def Cb.free (b : Cb) : Nat := b.slots - b.filled

/-- The offset of the slot that a pointer names (R371). -/
def Cb.slotAt (b : Cb) (p : Nat) : Nat := b.base + (p % b.slots) * b.slotSize

/-- Move the producer pointer. -/
def State.cbProd (s : State) (core : Nat) (b : Cb) (n : Nat) : State :=
  s.localWrite core b.scr (b.off + 16) (bytesOf 4 (b.prod + n))

/-- Move the consumer pointer. -/
def State.cbCons (s : State) (core : Nat) (b : Cb) (n : Nat) : State :=
  s.localWrite core b.scr (b.off + 20) (bytesOf 4 (b.cons + n))

/-- The end of a local space that buffers may use: the user area of a core's TCM, or 1 MiB of scratch (R373). -/
def State.localEnd (s : State) (core : Nat) (scr : Bool) : Nat := if scr then 0x100000 else (s.core core).utop.toNat * 256

/-- A descriptor keeps R371 and its slots stay in their space. Its reserved bytes are not looked at (R5). -/
def State.cbValid (s : State) (core : Nat) (b : Cb) : Bool :=
  b.slotSize != 0 && b.slotSize % 128 == 0 && decide (1 ≤ b.slots) && decide (b.slots ≤ 4096) &&
  b.space == (if b.scr then 2 else 1) &&
  decide (b.base + b.slots * b.slotSize ≤ s.localEnd core b.scr)

/-- The first poisoned word among n bytes of a local space (R245). -/
def State.poisonWord (s : State) (core : Nat) (scr : Bool) (off n : Nat) : Option Nat :=
  ((span (off / 8) (ceilDiv (off + n) 8 - off / 8)).find? fun w => s.localPoison core scr (8 * w) 8).map fun w => 8 * w

/-- The first poisoned word of the fields of the descriptor that a handle of a core is bound to (R245, R371). -/
def State.cbPoison (s : State) (core h : Nat) : Option Nat :=
  match (s.core core).cbs.find h with
  | some b => s.poisonWord core b.scr b.off 24
  | none => none

/-- The buffer that a circular-buffer byte of a command has the command fill (R386): the descriptor that its handle is bound to, by whatever handle a wait names it (R373). -/
def Core.fills (c : Core) (cb : Nat) : Option CbBind := if bits cb 5 4 = 1 then c.cbs.find (bits cb 3 0) else none

/-- An engine with a failed command whose trap is to come feeds a buffer: through that command, or through one queued behind it, which does not start before (R236). -/
def Core.feeds (c : Core) (gather : Bool) (f : EngFail) (b : CbBind) : Bool :=
  f.buf == some b || ((c.eng gather).queue ++ (c.eng gather).back).any fun q => c.fills (engDesc q.desc).cb == some b

/-- A wait on a buffer that an engine with a failed command of the slot feeds traps with that command's cause (R236). -/
def State.feedTrap (s : State) (h : Nat) (k : Eff) : Eff :=
  let c := s.myCore
  let mine := fun (g : Bool) => match c.cbs.find h with
    | some b => ((c.eng g).fail.filter s.mineToTrap).any fun f => c.feeds g f b
    | none => false
  let gath := if mine true then s.engTrap true k else k
  if mine false then s.engTrap false gath else gath

end Sys2Proof.Machine
end

