-- ==== Sys2Proof/Machine/Engines.lean ====
section
/-! DEFINITION. The copy and gather engines: issue, runs, failed translations, failures and completion (R59, R157, R211 to R213, R236, R375, R386 to R390). -/

namespace Sys2Proof.Machine

/-! ### The checks at issue (R387) -/

/-- Order 3: a reserved field, space 3, a size that is none, or a count of 0. -/
def EngDesc.illegal (d : EngDesc) (cp : Bool) : Bool :=
  (if cp then d.idx != 0 || bits d.spaces 6 4 != 0
    else d.sstride != 0 || d.idxSpace == 3 || !(d.rows == 1 || d.rows == 2 || d.rows == 4 || d.rows == 8)) ||
  d.srcSpace == 3 || d.dstSpace == 3 || d.n == 0 || d.rows == 0 || d.rest != 0 || bits d.cb 7 6 != 0 || d.cbMode == 3 ||
  (!d.hasStatus && d.status != 0)

/-- The bytes of a local space by its code: 64 KiB of TCM or 1 MiB of scratch (R59). -/
def spaceSize (sp : Nat) : Nat := if sp = 1 then 0x10000 else 0x100000

/-- Rows of n bytes from a base leave a local space. -/
def rowsOut (sp base n rows stride : Nat) : Bool :=
  sp != 0 && (decide (spaceSize sp < base + n) || decide (spaceSize sp < strideAdd base (rows - 1) stride + n))

/-- The local ranges of a command: space code, base, bytes, rows and stride of each side. A side that a buffer slot replaces is not looked at. -/
def EngDesc.ranges (d : EngDesc) (kind : Nat) : List (Nat × Nat × Nat × Nat × Nat) :=
  let src := if d.cbMode = 2 then [] else
    [(d.srcSpace, d.src, if kind = 0 then d.n else if kind = 1 then d.dstride * d.rows else d.total, if kind = 0 then d.rows else 1, d.sstride)]
  let dst := if d.cbMode = 1 then [] else
    [(d.dstSpace, d.dst, if kind = 0 then d.n else if kind = 1 then d.total else d.dstride * d.rows, if kind = 0 then d.rows else 1, d.dstride)]
  src ++ dst ++ (if kind = 0 then [] else [(d.idxSpace, d.idx, 4 * d.n, 1, 0)])

/-- Order 4: a local range leaves its space. -/
def EngDesc.localOut (d : EngDesc) (kind : Nat) : Bool := (d.ranges kind).any fun r => rowsOut r.1 r.2.1 r.2.2.1 r.2.2.2.1 r.2.2.2.2

/-- What fault.addr holds of a local operand: the full effective address where bits [63:32] are not zero, else none is named (R51, R235). -/
def wideAddr (a : Nat) : Word := if 2 ^ 32 ≤ a then BitVec.ofNat 64 a else 0

/-- The same of the first local range that leaves its space: its base, or the address of its last row. -/
def EngDesc.outAddr (d : EngDesc) (kind : Nat) : Word :=
  match (d.ranges kind).find? fun r => rowsOut r.1 r.2.1 r.2.2.1 r.2.2.2.1 r.2.2.2.2 with
  | some (_, base, _, rows, stride) => if 2 ^ 32 ≤ base then wideAddr base else if rows = 1 then 0 else wideAddr (strideAdd base (rows - 1) stride)
  | none => 0

/-- Order 5: a global base of a gather or scatter that is not aligned to the element size. -/
def EngDesc.baseSkewed (d : EngDesc) : Bool :=
  (d.cbMode != 2 && d.srcSpace == 0 && d.src % d.rows != 0) || (d.cbMode != 1 && d.dstSpace == 0 && d.dst % d.rows != 0)

/-- The bytes that a command moves into or out of its buffer slot: a gather reads a whole table there, and a scatter writes one. -/
def EngDesc.cbBytes (d : EngDesc) (kind : Nat) : Nat :=
  if (kind = 1 && d.cbMode = 2) || (kind = 2 && d.cbMode = 1) then d.dstride * d.rows else d.total

/-- Order 6: the buffer of a command is unbound or too small, or a copy has more than one row. -/
def State.cbBad (s : State) (core : Nat) (d : EngDesc) (kind : Nat) : Bool :=
  d.cbMode != 0 && (match s.cbOf core (bits d.cb 3 0) with
    | none => true
    | some b => decide (b.slotSize < d.cbBytes kind) || (kind == 0 && d.rows != 1))

/-- The destination is global memory. -/
def EngDesc.dstGlobal (d : EngDesc) : Bool := d.dstSpace == 0 && d.cbMode != 1

/-- The index of an element of a command as its list stands; none where it cannot be read. -/
def State.idxNow (s : State) (d : EngDesc) (k : Nat) : Option Nat :=
  if d.idxSpace ≠ 0 then some (field (s.localRead (coreOf s.cur) (d.idxSpace == 2) (d.idx + 4 * k) 4) 0 4)
  else (s.viewPlace ⟨s.cur, s.me.ctx, 2⟩ ((d.idx + 4 * k) % 2 ^ 64) 4).map fun p => natOf (s.devRead p 4)

/-- The destinations of a collected command: address and bytes in one sector each; of a scatter each element's, as its index list stands when the entry is recorded (R155, log 71). -/
def State.dstRuns (s : State) (d : EngDesc) (kind : Nat) : List (Nat × Nat) :=
  if kind = 0 then (d.cpRuns d.dst).map fun r => (r.dst, r.n)
  else if kind = 1 then (cutRun d.total 0 0 d.dst d.total).map fun r => (r.dst, r.n)
  else (List.range d.n).filterMap fun k => match s.idxNow d k with
    | some i => if i < d.dstride then some ((d.dst + i * d.rows) % 2 ^ 64, d.rows) else none
    | none => none

/-- A collected scatter reads its index list at issue, for the destinations to be checked: the walks of a global list are made (R76, R142), a lock or a link holds the instruction (R139, R223), copies are recalled, and signature bits are set (R147, log 71). -/
def State.listReady (s : State) (d : EngDesc) (kind : Nat) : Got Unit :=
  if kind ≠ 2 || d.idxSpace ≠ 0 then .ok () s
  else
    let vas := (List.range d.n).map fun k => (d.idx + 4 * k) % 2 ^ 64
    let s0 := s.devWalks s.me.ctx vas
    let places := vas.filterMap fun va => s0.viewPlace ⟨s0.cur, s0.me.ctx, 2⟩ va 4
    if places.any fun p => s0.mustWait p 4 then .no (.hold s0)
    else .ok () (places.foldl (fun st p => (st.recallRange p 4).sigRead st.cur p 4) s0)

/-- Translate destinations for W (R155). -/
def State.dstCheck (s : State) : List (Nat × Nat) → Got Unit
  | [] => .ok () s
  | (a, n) :: rest =>
    if 2 ^ 48 ≤ a then .no (.trap s Cause.translation (BitVec.ofNat 64 a) 0)
    else (s.xlate .engWrite .plain (BitVec.ofNat 64 a) n false (BitVec.ofNat 64 a)).bind fun _ s1 => State.dstCheck s1 rest

/-- Queue a command. -/
def State.engQueue (s : State) (gather : Bool) (c : EngCmd) : State :=
  s.modMyCore fun q => q.setEng gather { q.eng gather with queue := (q.eng gather).queue ++ [c] }

/-- Record a collected command as an ENGINE entry and queue its capture (R155, R157). An entry counts at most 4,095 units. -/
def engCollect (kind : Nat) (off : Nat) (bs : List Byte) (s : State) : Eff :=
  let d := engDesc bs
  let units := bs ++ zeros (ceilDiv (d.payload kind) 16 * 16)
  (s.listReady d kind).andThen fun _ s0 => (s0.dstCheck (s0.dstRuns d kind)).andThen fun _ s1 =>
    if 4095 < units.length / 16 then .trap s1 Cause.hamperCapacity 0 0
    else
      let tag := s1.fresh
      let e : HEntry := ⟨6, BitVec.ofNat 12 (units.length / 16), BitVec.ofNat 48 d.dst, BitVec.ofNat 64 d.total, units, BitVec.ofNat 2 kind, some tag, 0⟩
      ({ s1 with fresh := tag + 1 }.collect [e] 0).andThen fun _ s2 =>
        .next (s2.engQueue (kind != 0) ⟨BitVec.ofNat 2 kind, s2.cur, s2.me.task, s2.me.grp, s2.me.ctx, bs, off, 0, some tag, none, []⟩)

/-- The checks of a command at issue, in the order of R387, then the queue. -/
def engIssue (kind : Nat) (xa : Word) (s : State) : Eff :=
  let core := coreOf s.cur
  let gather := kind != 0
  let off := xa.toNat
  let top := s.myCore.utop.toNat * 256
  let inside := decide (off + 48 ≤ top)
  let bs := if inside then s.tcmRead core off 48 else zeros 48
  let d := engDesc bs
  if off % 16 ≠ 0 then .trap s Cause.misaligned 0 0
  else if inside && s.tcmPoison core off 48 then .trap s Cause.poison (BitVec.ofNat 64 ((s.poisonWord core false off 48).getD off)) 0
  else if d.hasStatus && d.status % 8 ≠ 0 then .trap s Cause.misaligned 0 0
  else if !inside then .trap s Cause.permission (wideAddr off) 0
  else if d.hasStatus && decide (top < d.status + 8) then .trap s Cause.permission 0 0
  else if d.illegal (kind == 0) then .trap s Cause.illegal 0 0
  else if d.localOut kind then .trap s Cause.permission (d.outAddr kind) 0
  else if gather && d.baseSkewed then .trap s Cause.misaligned 0 0
  else if s.cbBad core d kind then .trap s Cause.cbMisuse 0 0
  else if 2 ≤ (s.myCore.eng gather).queue.length || !(s.myCore.eng gather).back.isEmpty then .hold s
  else if d.dstGlobal && s.me.collecting then engCollect kind off bs s
  else .next (s.engQueue gather ⟨BitVec.ofNat 2 kind, s.cur, s.me.task, s.me.grp, s.me.ctx, bs, off, 0, none, none, []⟩)

/-- cp (R386, R387); a failed command of the engine traps here (R236). -/
def execCp (a : Reg) (s : State) : Out := guarded s (s.engTrap false (engIssue 0 (s.x a) s))

/-- ga (R386, R387). -/
def execGa (a : Reg) (s : State) : Out := guarded s (s.engTrap true (engIssue 1 (s.x a) s))

/-- sc (R386, R387). -/
def execSc (a : Reg) (s : State) : Out := guarded s (s.engTrap true (engIssue 2 (s.x a) s))

/-- The state word of the core's engines (R390). -/
def Core.engWord (c : Core) : Nat :=
  let cause := fun (e : Engine) => match e.fail with
    | f :: _ => f.cause.toNat
    | [] => 0
  at_ (cause c.gathEng) 16 + at_ (cause c.copyEng) 8 + at_ (flag c.gathEng.run.isSome) 5 + at_ c.gathEng.queue.length 3 +
  at_ (flag c.copyEng.run.isSome) 2 + c.copyEng.queue.length

/-- eng.stat (R390). -/
def execEngStat (a : Reg) (s : State) : Out := guarded s (.next (s.setX a (BitVec.ofNat 64 s.myCore.engWord)))

/-! ### Running (R157, R211, R213, R388, R389) -/

/-- Why a command does not go on. A failure names what fault.addr will hold, and the sector of memory that turned out uncorrectable, if that is its reason. -/
inductive EngStop
  | fault (f : XFault)
  | fail (cause : Nat) (addr : Word) (sec : Option Nat)
  | wait
  deriving DecidableEq, Repr

/-- A place that an engine reads or writes. -/
inductive EngPlace
  | loc (scr : Bool) (off : Nat)
  | glob (p : Nat) (inter : Bool)
  deriving DecidableEq, Repr

/-- A side of a command as it runs: the space code and base, a buffer slot in place of what the descriptor says. -/
structure EngSide where
  sp : Nat
  base : Nat
  deriving DecidableEq, Repr

/-- The side that a buffer slot gives. -/
def cbSide (b : Cb) (p : Nat) : EngSide := ⟨if b.scr then 2 else 1, b.slotAt p⟩

/-- The source side. -/
def State.srcSide (s : State) (core : Nat) (d : EngDesc) : EngSide :=
  if d.cbMode = 2 then
    (match s.cbOf core (bits d.cb 3 0) with
      | some b => cbSide b b.cons
      | none => ⟨1, 0⟩)
  else ⟨d.srcSpace, d.src⟩

/-- The destination side. -/
def State.dstSide (s : State) (core : Nat) (d : EngDesc) : EngSide :=
  if d.cbMode = 1 then
    (match s.cbOf core (bits d.cb 3 0) with
      | some b => cbSide b b.prod
      | none => ⟨1, 0⟩)
  else ⟨d.dstSpace, d.dst⟩

/-- The path code of an engine (R128). -/
def engPath (gather : Bool) : Nat := if gather then 2 else 1

/-- One access of a command, in one sector: its place, with the state as its translation leaves it. -/
def State.engAt (s : State) (core : Nat) (gather : Bool) (c : EngCmd) (acc : Access) (sp a n : Nat) : Except EngStop (EngPlace × State) :=
  if sp ≠ 0 then .ok (.loc (sp == 2) a, s)
  else if 2 ^ 48 ≤ a then .error (.fail Cause.translation (BitVec.ofNat 64 a) none)
  else
    match s.translate core ⟨c.slot, c.ctx, engPath gather⟩ acc .plain (BitVec.ofNat 64 a) n false false with
    | (.ok p inter, s1) => if s1.locked p n then .error .wait else .ok (.glob p inter, s1)
    | (.fail f, _) => .error (.fault f)
    | (.deny cause, _) => .error (.fail cause 0 none)
    | (.wait, _) => .error .wait

/-- A read of a command sets the signature of the class T task that issued it, at its slot or where it is kept (R147). -/
def State.sigTask (s : State) (task : Option Nat) (p n : Nat) : State :=
  match task with
  | none => s
  | some key =>
    match s.slots.find? fun q => q.2.runs key with
    | some q => s.sigRead q.1 p n
    | none => s.modTask key fun t =>
      if t.cls == 2 then
        let add := fun (g : BitVec 2048) => (sectorsOf p n).foldl (fun acc sec => sigSet acc (sec * 128)) g
        { t with sig := add t.sig, frame := t.frame.map fun b => { b with sig := add b.sig } }
      else t

/-- Bytes that a command reads in one sector; a class T task's read sets its signature (R147, R389). -/
def State.engRead1 (s : State) (core : Nat) (gather : Bool) (c : EngCmd) (sp a n : Nat) : Except EngStop (List Byte × State) :=
  match s.engAt core gather c .engRead sp a n with
  | .error e => .error e
  | .ok (.loc scr off, s1) =>
    if s1.localPoison core scr off n then .error (.fail Cause.poison 0 none) else .ok (s1.localRead core scr off n, s1)
  | .ok (.glob p _, s1) =>
    let s2 := s1.recallRange p n
    if s2.poisoned p n then
      let bad := (sectorsOf p n).find? fun sec => s2.poison.contains sec
      .error (.fail Cause.poison 0 bad)
    else .ok (s2.peek p n, s2.sigTask c.task p n)

/-- Bytes that a command reads, sector by sector. -/
def State.engRead (s : State) (core : Nat) (gather : Bool) (c : EngCmd) (sp a n : Nat) : Except EngStop (List Byte × State) :=
  (cutRun n 0 a 0 n).foldl (fun acc r => match acc with
    | .error e => .error e
    | .ok (bs, st) => match st.engRead1 core gather c sp r.src r.n with
      | .error e => .error e
      | .ok (more, s1) => .ok (bs ++ more, s1)) (.ok ([], s))

/-- The places that a command writes, sector by sector, with the bytes for each. -/
def State.engDst (s : State) (core : Nat) (gather : Bool) (c : EngCmd) (sp a : Nat) (bs : List Byte) : Except EngStop (List (EngPlace × List Byte) × State) :=
  (cutRun bs.length 0 0 a bs.length).foldl (fun acc r => match acc with
    | .error e => .error e
    | .ok (ws, st) => match st.engAt core gather c .engWrite sp r.dst r.n with
      | .error e => .error e
      | .ok (p, s1) => .ok (ws ++ [(p, (bs.drop r.pos).take r.n)], s1)) (.ok ([], s))

/-- Perform a write. -/
def State.engWrite (s : State) (core : Nat) (c : EngCmd) (w : EngPlace × List Byte) : State :=
  match w.1 with
  | .loc scr off => s.localWrite core scr off w.2
  | .glob p inter => s.perform c.slot p inter w.2 false 4

/-- A run of a chunk: none as its source stands for zeros. -/
structure Item where
  src : Option Nat
  dst : Nat
  n : Nat
  deriving DecidableEq, Repr

/-- The runs of a copy from a stream position on that stay in the destination sector of the first: fuel bounds them. -/
def cpItems (d : EngDesc) (src dst : Nat) (sec : Option Nat) : Nat → Nat → List Item
  | 0, _ => []
  | fuel + 1, pos =>
    if d.total ≤ pos then []
    else
      let r := pos / d.n
      let o := pos % d.n
      let a := (strideAdd dst r d.dstride + o) % 2 ^ 64
      let left := d.n - o
      let k := if left < sectorLeft a then left else sectorLeft a
      if sec = none || sec = some (a / 128) then
        ⟨some ((strideAdd src r d.sstride + o) % 2 ^ 64), a, k⟩ :: cpItems d src dst (some (a / 128)) fuel (pos + k)
      else []

/-- The end of the next chunk of a gather or a scatter: a destination sector boundary, or for a scatter a multiple of 128 bytes of the source stream, or the stream's end (R213, R388). -/
def chunkEnd (d : EngDesc) (kind dst pos : Nat) : Nat :=
  Nat.min d.total (pos + (if kind = 1 then sectorLeft (dst + pos) else 128 - pos % 128))

/-- The part of an element's run that lies between two stream positions. -/
def Item.clip (it : Item) (at_ lo hi : Nat) : Item :=
  let a := lo - at_
  let b := Nat.min it.n (hi - at_)
  ⟨it.src.map fun p => (p + a) % 2 ^ 64, (it.dst + a) % 2 ^ 64, b - a⟩

/-- One byte of the index list. The list, in whatever space, is read one 128-byte sector at a time, and the command keeps the snapshot (R386). -/
def State.listByte (s : State) (core : Nat) (gather : Bool) (c : EngCmd) (d : EngDesc) (a : Nat) : Except EngStop (Byte × EngCmd × State) :=
  let pick := fun (lo : Nat) (bs : List Byte) => (bs[a - lo]?).getD 0
  match c.list.filter fun q => decide (q.1 ≤ a) && decide (a < q.1 + q.2.length) with
  | some (lo, bs) => .ok (pick lo bs, c, s)
  | none =>
    let lo := if a / 128 * 128 < d.idx then d.idx else a / 128 * 128
    let hi := Nat.min (a / 128 * 128 + 128) (d.idx + 4 * d.n)
    match s.engRead1 core gather c d.idxSpace lo (hi - lo) with
    | .error e => .error e
    | .ok (bs, s1) => .ok (pick lo bs, { c with list := some (lo, bs) }, s1)

/-- An index of the list, byte by byte. -/
def State.listIndex (s : State) (core : Nat) (gather : Bool) (c : EngCmd) (d : EngDesc) (k : Nat) : Except EngStop (Nat × EngCmd × State) :=
  (List.range 4).foldl (fun acc i => match acc with
    | .error e => .error e
    | .ok (v, c1, st) => match st.listByte core gather c1 d (d.idx + 4 * k + i) with
      | .error e => .error e
      | .ok (b, c2, s1) => .ok (v + b.toNat * 2 ^ (8 * i), c2, s1)) (.ok (0, c, s))

/-- The run of an element, its index read from the list; none for one that is skipped. An index out of range fails with PERMISSION where it is not masked. -/
def State.elemItem (s : State) (core : Nat) (gather : Bool) (c : EngCmd) (d : EngDesc) (src dst k : Nat) : Except EngStop (Option Item × EngCmd × State) :=
  match s.listIndex core gather c d k with
  | .error e => .error e
  | .ok (i, c1, s1) =>
    let kind := c.kind.toNat
    let r := { d with src := src }.elemRun kind dst k i
    if i < d.dstride then .ok (some ⟨some r.src, r.dst, r.n⟩, c1, s1)
    else if !d.masks then .error (.fail Cause.permission 0 none)
    else if kind = 1 then .ok (some ⟨none, r.dst, r.n⟩, c1, s1)
    else .ok (none, c1, s1)

/-- The runs of the elements whose bytes lie between two stream positions, cut to them. -/
def State.elemItems (s : State) (core : Nat) (gather : Bool) (c : EngCmd) (d : EngDesc) (src dst lo hi : Nat) : Except EngStop (List Item × EngCmd × State) :=
  (span (lo / d.rows) (ceilDiv hi d.rows - lo / d.rows)).foldl (fun (acc : Except EngStop (List Item × EngCmd × State)) k => match acc with
    | .error e => .error e
    | .ok (items, c1, st) => match st.elemItem core gather c1 d src dst k with
      | .error e => .error e
      | .ok (none, c2, s1) => .ok (items, c2, s1)
      | .ok (some it, c2, s1) => .ok (items ++ [it.clip (k * d.rows) lo hi], c2, s1)) (.ok ([], c, s))

/-- The runs of the next chunk, and the command with the stream position behind it. -/
def State.chunk (s : State) (core : Nat) (gather : Bool) (c : EngCmd) (d : EngDesc) (src dst : Nat) : Except EngStop (List Item × EngCmd × State) :=
  if c.kind = 0 then
    let items := cpItems d src dst none 128 c.progress
    .ok (items, { c with progress := c.progress + (items.map (·.n)).sum }, s)
  else
    let hi := chunkEnd d c.kind.toNat dst c.progress
    match s.elemItems core gather c d src dst c.progress hi with
    | .error e => .error e
    | .ok (items, c1, s1) => .ok (items, { c1 with progress := hi }, s1)

/-- The place of a byte of a source, where it is global and can be read. -/
def State.srcPlace (s : State) (core : Nat) (gather : Bool) (c : EngCmd) (sp a : Nat) : Option Nat :=
  match s.engAt core gather c .engRead sp a 1 with
  | .ok (.glob p _, _) => some p
  | .ok (.loc _ _, _) | .error _ => none

/-- The first half of a host sector that a read of n bytes crosses into the second: the two halves are two requests (R222). -/
def State.hostHalf (s : State) (core : Nat) (gather : Bool) (c : EngCmd) (sp a n : Nat) : Option Nat :=
  match s.srcPlace core gather c sp a with
  | some p => match s.regionOf p with
    | .hostMem _ => if 64 < p % 64 + n then some (64 - p % 64) else none
    | .device | .userWindow _ _ | .fwWindow _ _ | .trace _ _ | .bar0 _ | .doorbell _ _ | .hole => none
  | none => none

/-- The source bytes of a run: a first half that the command has read before, then the rest. -/
def State.srcRead (s : State) (core : Nat) (gather : Bool) (c : EngCmd) (sp a n : Nat) : Except EngStop (List Byte × State) :=
  match c.halves.find? fun q => q.1 == a with
  | some (_, bs) => (match s.engRead core gather c sp (a + bs.length) (n - bs.length) with
    | .error e => .error e
    | .ok (more, s1) => .ok (bs ++ more, s1))
  | none => s.engRead core gather c sp a n

/-- The first run of a chunk whose source crosses the halves of a host sector and whose first half is still to be read: its address and the bytes of that half. -/
def State.halfDue (s : State) (core : Nat) (gather : Bool) (c : EngCmd) (sp : Nat) (items : List Item) : Option (Nat × Nat) :=
  items.findSome? fun it => match it.src with
    | some a => if c.halves.any fun q => q.1 == a then none else (s.hostHalf core gather c sp a it.n).map fun n => (a, n)
    | none => none

/-- Read and place every run of a chunk before any of it is written. -/
def State.gatherWrites (s : State) (core : Nat) (gather : Bool) (c : EngCmd) (ss ds : EngSide) (items : List Item) : Except EngStop (List (EngPlace × List Byte) × State) :=
  items.foldl (fun acc it => match acc with
    | .error e => .error e
    | .ok (ws, st) =>
      match (match it.src with
        | some a => st.srcRead core gather c ss.sp a it.n
        | none => .ok (zeros it.n, st)) with
      | .error e => .error e
      | .ok (bs, s1) => match s1.engDst core gather c ds.sp it.dst bs with
        | .error e => .error e
        | .ok (more, s2) => .ok (ws ++ more, s2)) (.ok ([], s))

/-- Write the running command of an engine. -/
def State.setRun (s : State) (core : Nat) (gather : Bool) (run : Option EngCmd) : State :=
  s.modCore core fun q => q.setEng gather { q.eng gather with run := run }

/-- Change every entry that carries a capture's tag: none drops it. -/
def fillEntries (tag : Nat) (f : HEntry → Option HEntry) (h : Hamper) : Hamper :=
  let es := h.entries.filterMap fun e => if e.cap = some tag then f e else some e
  { h with entries := es, places := h.places.take ((es.map HEntry.size).sum) }

/-- Every hamper of the module: on slots, in saved frames and at commits. -/
def State.allHampers (s : State) : List Hamper := (s.slots.vals.map Slot.allHampers).flatten ++ (s.tasks.vals.map Task.hampers).flatten

/-- Change them over the whole module, and in the storage of the slot that issued the command, where the hamper's other bytes stay as they stand (R59). -/
def State.fillAll (s : State) (slot tag : Nat) (f : HEntry → Option HEntry) : State :=
  let g := fun (h : Hamper) => if h.entries.any fun e => e.cap == some tag then fillEntries tag f (s.readBack slot h) else h
  let all := fun (hs : PMap Hamper) => hs.map fun q => (q.1, g q.2)
  let s1 := { s with
    slots := s.slots.map fun q => (q.1, { q.2 with hampers := all q.2.hampers, taskH := q.2.taskH.map g })
    tasks := s.tasks.map fun q => (q.1, { q.2 with
      hamper := q.2.hamper.map g
      frame := q.2.frame.map fun b => { b with hampers := all b.hampers, taskH := b.taskH.map g } }) }
  (s.allHampers.filter fun h => h.entries.any fun e => e.cap == some tag).foldl (fun st h => st.hamperOut slot (g h)) s1

/-- The next bytes that a collected command captures (R157, R389): the local source in stream order, the whole table of a gather whose index list is global, then a local index list, a sector of it at a time (R386). -/
def State.capture (s : State) (core : Nat) (gather : Bool) (c : EngCmd) : Except EngStop (List Byte × EngCmd × State) :=
  let d := engDesc c.desc
  let ss := s.srcSide core d
  let pos := c.progress
  let own := d.srcBytes c.kind.toNat
  let plain := fun (r : Except EngStop (List Byte × State)) => match r with
    | .error e => .error e
    | .ok (bs, s1) => .ok (bs, c, s1)
  if d.srcLocal && decide (pos < own) then
    if c.kind = 0 then
      let o := pos % d.n
      plain (s.engRead core gather c ss.sp ((strideAdd ss.base (pos / d.n) d.sstride + o) % 2 ^ 64) (Nat.min (d.n - o) 128))
    else if c.kind = 2 || d.wholeTable c.kind.toNat then plain (s.engRead core gather c ss.sp (ss.base + pos) (Nat.min (own - pos) 128))
    else
      let hi := Nat.min d.total (pos + 128)
      match s.elemItems core gather c d ss.base 0 pos hi with
      | .error e => .error e
      | .ok (items, c1, s1) => items.foldl (fun (acc : Except EngStop (List Byte × EngCmd × State)) it => match acc with
        | .error e => .error e
        | .ok (bs, c2, st) => match it.src with
          | some a => (match st.engRead core gather c ss.sp a it.n with
            | .error e => .error e
            | .ok (more, s2) => .ok (bs ++ more, c2, s2))
          | none => .ok (bs ++ zeros it.n, c2, st)) (.ok ([], c1, s1))
  else
    let off := pos - (if d.srcLocal then own else 0)
    plain (s.engRead core gather c d.idxSpace (d.idx + off) (Nat.min (4 * d.n - off) (sectorLeft (d.idx + off))))

/-- What one move of a running command comes to. -/
inductive EngMove
  | more (s : State)
  | done (s : State)
  | stop (e : EngStop)

/-- One chunk of the running command, or of its capture. A poisoned descriptor of its buffer fails it (R245). -/
def State.engMove (s : State) (core : Nat) (gather : Bool) (c : EngCmd) : EngMove :=
  let d := engDesc c.desc
  if d.cbMode ≠ 0 && (s.cbPoison core (bits d.cb 3 0)).isSome then .stop (.fail Cause.poison 0 none)
  else match c.cap with
  | some tag =>
    if d.payload c.kind.toNat ≤ c.progress then .done (s.fillAll c.slot tag fun e => some { e with cap := none })
    else match s.capture core gather c with
      | .error e => .stop e
      | .ok (bs, c1, s1) =>
        .more ((s1.fillAll c.slot tag fun e => some { e with units := patch e.units (48 + c.progress) bs }).setRun core gather
          (some { c1 with progress := c.progress + bs.length }))
  | none =>
    if d.total ≤ c.progress then .done s
    else
      let ss := s.srcSide core d
      let ds := s.dstSide core d
      match s.chunk core gather c d ss.base ds.base with
      | .error e => .stop e
      | .ok (items, c1, s1) => match s1.halfDue core gather c ss.sp items with
        | some (a, n) => (match s1.engRead core gather c ss.sp a n with
          | .error e => .stop e
          | .ok (bs, s2) => .more (s2.setRun core gather (some { c with halves := c.halves ++ [(a, bs)] })))
        | none => match s1.gatherWrites core gather c ss ds items with
          | .error e => .stop e
          | .ok (ws, s2) => .more ((ws.foldl (fun st w => st.engWrite core c w) s2).setRun core gather (some { c1 with halves := [] }))

/-- The command runs: it is not stopped by a record that awaits its replay, and its grove is not fenced (R211, R247). -/
def State.engRuns (s : State) (core : Nat) (gather : Bool) : Option EngCmd :=
  let e := (s.core core).eng gather
  if e.fsrc.awaiting.isSome || (s.grove (groveOfCore core)).fenced then none else e.run

/-- Move until the command is done or stops: fuel bounds the chunks. -/
def State.engGo (core : Nat) (gather : Bool) : Nat → State → State × Option (Option EngStop)
  | 0, s => (s, none)
  | fuel + 1, s =>
    match s.engRuns core gather with
    | none => (s, none)
    | some c =>
      match s.engMove core gather c with
      | .more s1 => State.engGo core gather fuel s1
      | .done s1 => (s1, some none)
      | .stop e => (s, some (some e))

/-- Run the command of an engine to its outcome. -/
def State.engRunOut (s : State) (core : Nat) (gather : Bool) : State × Option (Option EngStop) :=
  match s.engRuns core gather with
  | none => (s, none)
  | some c => State.engGo core gather (2 * (engDesc c.desc).total + (engDesc c.desc).payload c.kind.toNat + 2) s

/-- Completion: the buffer advances, then the status word is done (R136, R388). -/
def State.engDone (s : State) (core : Nat) (gather : Bool) (c : EngCmd) : State :=
  let d := engDesc c.desc
  let s1 := match s.cbOf core (bits d.cb 3 0) with
    | some b => if d.cbMode = 1 then s.cbProd core b 1 else if d.cbMode = 2 then s.cbCons core b 1 else s
    | none => s
  (s1.engStatus core c (2 ^ 63 + d.total)).setRun core gather none

/-- A failed translation: status, the record of the engine as a source, and the FAULT event of R76 where the walk found poison (R211). What is replayed is read afresh (R213). -/
def State.engFault (s : State) (core : Nat) (gather : Bool) (c : EngCmd) (f : XFault) : State :=
  let d := engDesc c.desc
  let s1 := (s.engStatus core c c.shown).setRun core gather (some { c with list := none, halves := [] })
  let e := (s1.core core).eng gather
  let fs := e.fsrc.next (f.addr.toNat / 4096)
  let token := if d.hasStatus then d.status else 2 ^ 63 + c.descOff
  let r : FaultRec := ⟨f.ctx, recordBytes f (s1.source c.slot) fs token c.shown s1.tick.toNat, fs.seq⟩
  let s2 := if f.ctxFault then s1.ctxRaise f.ctx else s1
  match s2.recordPut r with
  | (s3, true) => s3.modCore core fun q => q.setEng gather { q.eng gather with fsrc := fs, record := none }
  | (s3, false) => s3.modCore core fun q => q.setEng gather { q.eng gather with fsrc := fs, record := some r }

/-- The slot or the task that issued a command is there to take its trap. -/
def State.hasIssuer (s : State) (c : EngCmd) : Bool :=
  match c.task with
  | some key => (s.tasks.find key).isSome
  | none => true

/-- Any other failure: progress and cause in the status word, the engine idle (R236, R388). A capture's entry goes from its hamper, since neither R157 nor R236 says what becomes of it (DESIGN CHOICE, log 113). A sector of memory that turned out uncorrectable is written back as poison (R215). -/
def State.engFailed (s : State) (core : Nat) (gather : Bool) (c : EngCmd) (cause : Nat) (addr : Word) (sec : Option Nat) : State :=
  let s0 := match sec with
    | some k => if (s.dirty.find k).isSome then (s.writeBack1 k).orsOut else s
    | none => s
  let s1 := s0.engStatus core c (2 ^ 62 + at_ cause 40 + c.shown)
  let s2 := match c.cap with
    | some tag => s1.fillAll c.slot tag fun _ => none
    | none => s1
  let f : EngFail := ⟨BitVec.ofNat 8 cause, addr, c.slot, c.task, (s2.core core).fills (engDesc c.desc).cb⟩
  s2.modCore core fun q => q.setEng gather { q.eng gather with
    run := none, fail := (q.eng gather).fail ++ (if s2.hasIssuer c then [f] else []) }

/-! ### Events -/

/-- The slot that a command's buffer mode needs is there (R375, R387), or its descriptor is poisoned, so that the command starts and fails (R245). -/
def State.cbReady (s : State) (core : Nat) (d : EngDesc) : Bool :=
  match s.cbOf core (bits d.cb 3 0) with
  | some b => d.cbMode == 0 || (s.cbPoison core (bits d.cb 3 0)).isSome || (if d.cbMode = 1 then b.free != 0 else b.filled != 0)
  | none => true

/-- The head of an engine's queue can start: the engine is idle, has no failed command whose trap is to come (R236), awaits no replay (R211), and its grove is not fenced (R247). -/
def State.engCanStart (s : State) (core : Nat) (gather : Bool) : Option EngCmd :=
  let e := (s.core core).eng gather
  match e.queue with
  | c :: _ => if e.run.isNone && e.fail.isEmpty && e.fsrc.awaiting.isNone && !(s.grove (groveOfCore core)).fenced && s.cbReady core (engDesc c.desc) then some c else none
  | [] => none

/-- ENGINE_COMMAND_START: the head of the queue starts and its status word is 0; one that a restore re-issues keeps its progress (R387, R388). -/
def execEngineCommandStart (core : Nat) (gather : Bool) (s : State) : Out :=
  .next (match s.engCanStart core gather with
  | some c =>
    let s1 := s.modCore core fun q => q.setEng gather { q.eng gather with run := some c, queue := (q.eng gather).queue.drop 1 }.refill
    if c.progress = 0 then s1.engStatus core c 0 else s1
  | none => s)

/-- ENGINE_TRANSLATION_FAULT: the command runs up to a failed translation, which stops it with a record (R211). -/
def execEngineTranslationFault (core : Nat) (gather : Bool) (s : State) : Out :=
  .next (match s.engRunOut core gather with
  | (s1, some (some (.fault f))) => match s1.engRuns core gather with
    | some c => s1.engFault core gather c f
    | none => s1
  | (s1, _) => s1)

/-- ENGINE_COMMAND_FAIL: the command runs up to another failure, which ends it (R236). -/
def execEngineCommandFail (core : Nat) (gather : Bool) (s : State) : Out :=
  .next (match s.engRunOut core gather with
  | (s1, some (some (.fail cause addr sec))) => match s1.engRuns core gather with
    | some c => s1.engFailed core gather c cause addr sec
    | none => s1
  | (s1, _) => s1)

/-- ENGINE_COMMAND_COMPLETE: the command runs to its end (R388). -/
def execEngineCommandComplete (core : Nat) (gather : Bool) (s : State) : Out :=
  .next (match s.engRunOut core gather with
  | (s1, some none) => match s1.engRuns core gather with
    | some c => s1.engDone core gather c
    | none => s1
  | (s1, _) => s1)

/-- The engine of a core moves one chunk with a tick, as far as it can. -/
def State.engTick (s : State) (core : Nat) (gather : Bool) : State :=
  match s.engRuns core gather with
  | none => s
  | some c => match s.engMove core gather c with
    | .more s1 => s1
    | .done _ | .stop _ => s

end Sys2Proof.Machine
end

