-- ==== Sys2Proof/WellFormed.lean ====
section
/-! DEFINITION. Which instruction terms have an encoding: the operand ranges that the formats, the shared layouts and the four-word limit on a chain's leading words leave (R275, R279, R281 to R288). -/

namespace Sys2Proof

/-- A register number above 15 needs the REG word (R270, R273). -/
def high (r : Reg) : Bool := r.getLsbD 4

/-- An ri form is in place when destination and source are one low register (R280). -/
def inPlace (d s : Reg) : Bool := d == s && !high d

/-- How many IMM words a chain still has room for: three, and four leading words in all (R275). -/
def room (page reg mod : Bool) : Nat := min 3 (4 - page.toNat - reg.toNat - mod.toNat)

/-- A signed value fits the base field of w0 bits with at most n IMM words (R279). -/
def fitsS (n w0 : Nat) (v : Word) : Bool :=
  w0 + 9 * n != 0 && (v.setWidth (w0 + 9 * n)).signExtend 64 == v || v == 0

/-- An unsigned value fits the base field of w0 bits with at most n IMM words (R279). -/
def fitsU (n w0 : Nat) (v : Nat) : Bool := v < 2 ^ (w0 + 9 * n)

/-- Rounding codes 5 and 6 are reserved in an instruction field (R39). -/
def roundOk (rm : BitVec 3) : Bool := rm != 5 && rm != 6

/-- The integer codes of fcvt (R288). -/
def CvtTy.isInt : CvtTy → Bool
  | .f32 | .bf16 | .f16 => false
  | .i32 | .i64 | .n32 | .n64 => true

/-- The combinations that layout M admits (R282). -/
def MemMod.ok (m : MemMod) : Bool :=
  m.scope ≤ 4 && (m.ord != .none || m.scope == 0) && (!m.sig || m.space == .glob) && (!m.sk || m.space == .scr)

/-- The chain needs a MOD word: the default access is relaxed, global and unsignalled (R282). -/
def MemMod.needed (m : MemMod) : Bool := m != ⟨.none, 0, false, false, .glob⟩

/-- The combinations that layout A admits for amo (R283). -/
def AtomMod.ok (m : AtomMod) : Bool :=
  m.scope ≤ 4 && (m.ord != .none || m.scope == 0) && (!m.sig || m.space == .glob)

/-- The combinations that layout VM admits (R286). -/
def VMMod.ok (m : VMMod) : Bool := !m.sk || m.space == .scr

/-- The chain needs a MOD word (R286). -/
def VMMod.needed (m : VMMod) : Bool := m != ⟨0, 0, false, .glob⟩

/-- The destination formats that mx.drain names (R385). -/
def drainFmtOk (f : BitVec 4) : Bool := f ≤ 6 || f == 8

/-- The well-formedness check of one instruction. Device events have no encoding and no restriction here. -/
def Instr.wf : Instr → Bool
  | .add _ _ _ => true
  | .sub _ _ _ => true
  | .and _ _ _ => true
  | .or _ _ _ => true
  | .xor _ _ _ => true
  | .sll _ _ _ => true
  | .srl _ _ _ => true
  | .sra _ _ _ => true
  | .mul _ _ _ => true
  | .mulh _ _ _ => true
  | .div _ _ _ => true
  | .rem _ _ _ => true
  | .min _ _ _ => true
  | .max _ _ _ => true
  | .slt _ _ _ => true
  | .sextB _ _ => true
  | .sextH _ _ => true
  | .sextW _ _ => true
  | .zextB _ _ => true
  | .zextH _ _ => true
  | .zextW _ _ => true
  | .clz _ _ => true
  | .ctz _ _ => true
  | .popc _ _ => true
  | .addi d s imm => fitsS (room false (!inPlace d s) false) 7 imm
  | .andi d s imm => fitsS (room false (!inPlace d s) false) 7 imm
  | .ori d s imm => fitsS (room false (!inPlace d s) false) 7 imm
  | .xori d s imm => fitsS (room false (!inPlace d s) false) 7 imm
  | .slli _ _ _ => true
  | .srli _ _ _ => true
  | .srai _ _ _ => true
  | .slti d s imm => fitsS (room false (!inPlace d s) false) 7 imm
  | .cmpiEq a imm => fitsS (room false (high a) false) 7 imm
  | .cmpiLt a imm => fitsS (room false (high a) false) 7 imm
  | .cmpEq _ _ => true
  | .cmpNe _ _ => true
  | .cmpLt _ _ => true
  | .cmpGe _ _ => true
  | .cmpLtN _ _ => true
  | .cmpGeN _ _ => true
  | .beq a b off => fitsS (room false (high a || high b) false) 0 off
  | .bne a b off => fitsS (room false (high a || high b) false) 0 off
  | .blt a b off => fitsS (room false (high a || high b) false) 0 off
  | .bge a b off => fitsS (room false (high a || high b) false) 0 off
  | .bltN a b off => fitsS (room false (high a || high b) false) 0 off
  | .bgeN a b off => fitsS (room false (high a || high b) false) 0 off
  | .jal link off => fitsS (room false (link != 0) false) 11 off
  | .call off => fitsS (room false false false) 11 off
  | .callC off => fitsS (room false false false) 11 off
  | .jalr link b off => fitsS (room false (high link || high b) false) 0 off
  | .ret => true
  | .pand => true
  | .por => true
  | .pnot => true
  | .pend => true
  | .fadd _ _ _ m => roundOk m.rm
  | .fsub _ _ _ m => roundOk m.rm
  | .fmul _ _ _ m => roundOk m.rm
  | .fdiv _ _ _ m => roundOk m.rm
  | .fmadd _ _ _ m => roundOk m.rm
  | .fmin _ _ _ _ => true
  | .fmax _ _ _ _ => true
  | .fsqrt _ _ m => roundOk m.rm
  | .fcvt _ _ dst src rm => roundOk rm && dst != src && !(dst.isInt && src.isInt)
  | .fcmpEq _ _ _ => true
  | .fcmpLt _ _ _ => true
  | .fcmpLe _ _ _ => true
  | .rdsr _ _ => true
  | .wrsr _ _ => true
  | .hint _ => true
  | .setvl _ _ _ => true
  | .vle d b m imm => m.ok && fitsS (room true (high d || high b) m.needed) 0 imm
  | .vlse d b c m imm => m.ok && fitsS (room true (high d || high b || c != 0) m.needed) 0 imm
  | .vlxe d b c m imm => m.ok && fitsS (room true (high d || high b || c != 0) m.needed) 0 imm
  | .vlff d b m imm => m.ok && fitsS (room true (high d || high b) m.needed) 0 imm
  | .vlce d b m imm => m.ok && fitsS (room true (high d || high b) m.needed) 0 imm
  | .vse d b m imm => m.ok && fitsS (room true (high d || high b) m.needed) 0 imm
  | .vsse d b c m imm => m.ok && fitsS (room true (high d || high b || c != 0) m.needed) 0 imm
  | .vsxe d b c m imm => m.ok && fitsS (room true (high d || high b || c != 0) m.needed) 0 imm
  | .vsce d b m imm => m.ok && fitsS (room true (high d || high b) m.needed) 0 imm
  | .vadd _ _ _ _ => true
  | .vsub _ _ _ _ => true
  | .vmul _ _ _ _ => true
  | .vmin _ _ _ _ => true
  | .vmax _ _ _ _ => true
  | .vmulh _ _ _ _ => true
  | .vdiv _ _ _ _ => true
  | .vrem _ _ _ _ => true
  | .vand _ _ _ _ => true
  | .vor _ _ _ _ => true
  | .vxor _ _ _ _ => true
  | .vsll _ _ _ _ => true
  | .vsrl _ _ _ _ => true
  | .vsra _ _ _ _ => true
  | .vfma _ _ _ _ => true
  | .vfdiv _ _ _ _ => true
  | .vsqrt _ _ _ => true
  | .vwadd _ _ _ _ => true
  | .vwmul _ _ _ _ => true
  | .vnarrow _ _ _ _ _ => true
  | .vcvt _ _ dst src _ => dst ≤ 12#4 && src ≤ 12#4 && dst != src
  | .vpack _ _ _ => true
  | .vunpack _ _ _ => true
  | .vredsum _ _ _ _ => true
  | .vredmin _ _ _ _ => true
  | .vredmax _ _ _ _ => true
  | .vmseq _ _ _ _ => true
  | .vmsne _ _ _ _ => true
  | .vmslt _ _ _ _ => true
  | .vmsle _ _ _ _ => true
  | .vmand _ _ _ => true
  | .vmor _ _ _ => true
  | .vmnot _ _ => true
  | .vpopc _ _ => true
  | .vfirst _ _ => true
  | .vmerge _ _ _ _ => true
  | .vslideup _ _ _ _ => true
  | .vslidedown _ _ _ _ => true
  | .vrgather _ _ _ _ => true
  | .vcompress _ _ _ => true
  | .vmv _ _ ty mask form => ty ≤ 12#4 && (form != MvForm.xv || mask == 0)
  | .cbCfg _ _ => true
  | .cbAdvP _ _ => true
  | .cbAdvC _ _ => true
  | .mxCfg _ _ => true
  | .mxZero _ => true
  | .mma a _ asrc fmt => (!asrc || !high a) && decide (fmt.toNat < 13)
  | .mmaRing a _ asrc fmt => (!asrc || !high a) && decide (fmt.toNat < 13)
  | .mmaLx a _ asrc fmt => (!asrc || !high a) && decide (fmt.toNat < 13)
  | .mmaLa a _ asrc fmt => (!asrc || !high a) && decide (fmt.toNat < 13)
  | .mxDrain a b imm fmt space _ _ => drainFmtOk fmt && space != Space.glob && fitsS (room true (high a || high b) true) 0 imm
  | .ltLoad _ _ => true
  | .ltRot _ => true
  | .cp _ => true
  | .ga _ => true
  | .sc _ => true
  | .engStat _ => true
  | .ld a b _ m imm => m.ok && !m.sig && m.ord != Ord.rel && m.ord != Ord.ar && fitsS (room true (high a || high b) m.needed) 0 imm
  | .st a b _ m imm => m.ok && m.ord != Ord.acq && m.ord != Ord.ar && fitsS (room true (high a || high b) m.needed) 0 imm
  | .ldF a b imm => fitsS (room true (high a || high b) false) 0 imm
  | .ldFTake a b imm => fitsS (room true (high a || high b) false) 0 imm
  | .stF a b imm => fitsS (room true (high a || high b) false) 0 imm
  | .amoAdd _ _ _ m => m.ok
  | .amoSwap _ _ _ m => m.ok
  | .amoAnd _ _ _ m => m.ok
  | .amoOr _ _ _ m => m.ok
  | .amoXor _ _ _ m => m.ok
  | .amoMin _ _ _ m => m.ok
  | .amoMax _ _ _ m => m.ok
  | .amoCas _ _ _ m => m.ok
  | .amoMinN _ _ _ m => m.ok
  | .amoMaxN _ _ _ m => m.ok
  | .redAdd _ _ _ _ => true
  | .redAddF32 _ _ _ => true
  | .redMin _ _ _ _ => true
  | .redMax _ _ _ _ => true
  | .redMinN _ _ _ _ => true
  | .redMaxN _ _ _ _ => true
  | .redMinF32 _ _ _ => true
  | .redMaxF32 _ _ _ => true
  | .fence scope => scope ≤ 4#3
  | .fenceX p q scope => p ≤ 6#4 && q ≤ 6#4 && p != q && scope ≤ 4#3
  | .dcFlush _ _ => true
  | .dcDiscard _ _ => true
  | .icsync => true
  | .wait a b c _ _ imm => fitsS (room true (high a || high b || c != 0) false) 0 imm
  | .barArrive a b n => fitsU (room true (high a || high b) false) 0 n.toNat
  | .barWait _ _ _ => true
  | .gbSync _ _ => true
  | .msgOpen _ => true
  | .msgPut _ => true
  | .msgEnd => true
  | .recv _ _ => true
  | .tkSpawn _ => true
  | .tkDep _ _ => true
  | .tkYield => true
  | .tkEnd => true
  | .qlOpen _ _ => true
  | .qlClose _ => true
  | .qlEval op _ _ _ _ => op ≤ 5#3
  | .qlFold op _ _ _ _ => op ≤ 6#3
  | .qlSeek op _ _ _ _ => op ≤ 3#3 || op == 5#3
  | .qlRec _ _ _ => true
  | .qlGet _ _ _ _ => true
  | .qlSplit _ _ _ _ => true
  | .qlApp _ _ _ => true
  | .qlPut _ _ _ => true
  | .qlPub _ _ _ => true
  | .hlCat _ _ => true
  | .hlFilt _ _ _ _ => true
  | .hlRebase _ _ => true
  | .hlApply _ => true
  | .hlDrop _ => true
  | .hlLen _ _ => true
  | .pgPost _ _ _ => true
  | .pgReplay _ => true
  | .ecall => true
  | .ebreak => true
  | .trap _ => true
  | .trapNoticeRetry _ => true
  | .faultRecordRetry _ => true
  | .ctxCreate => true
  | .ctxCommit => true
  | .ctxSuspend => true
  | .ctxResume => true
  | .ctxTeardown => true
  | .ctxFault => true
  | .ctxDeviceFault _ => true
  | .ctxStopComplete _ => true
  | .ctxDrained _ => true
  | .grpLaunch => true
  | .groupRelease _ => true
  | .groupDrained _ => true
  | .groupBrokenFreed _ => true
  | .enqueueArrive _ => true
  | .enqueueAck _ => true
  | .replayBackoffExpiry _ => true
  | .taskDispatch _ => true
  | .takeServe _ _ => true
  | .takeReply _ => true
  | .takeReprobe _ => true
  | .taskCommit _ => true
  | .commitLockAcquire _ => true
  | .timedCommitStart _ => true
  | .waitSatisfiedNotice _ => true
  | .monitorPoll _ => true
  | .waitTimeout _ => true
  | .waitHoldExpiry _ => true
  | .parkEntryFree _ => true
  | .barrierRegisterRetry _ => true
  | .msgDeliver _ => true
  | .deferralExpiry _ => true
  | .futureCancel _ => true
  | .storeComplete _ _ => true
  | .llcFill _ => true
  | .llcWriteback _ => true
  | .updateOnlyRecall _ _ => true
  | .updateOnlyEvict _ _ => true
  | .tlbMissWalk _ _ _ _ => true
  | .softErrorCorrected _ => true
  | .uncorrectableError _ => true
  | .engineCommandStart _ _ => true
  | .engineTranslationFault _ _ => true
  | .engineCommandFail _ _ => true
  | .engineCommandComplete _ _ => true
  | .mmaComplete _ => true
  | .ringPass _ => true
  | .subarrayWake _ => true
  | .subarrayPowerGate _ => true
  | .apertureRead _ _ => true
  | .apertureWrite _ => true
  | .stopTakeEffect _ => true
  | .frameSaveComplete _ => true
  | .slResume => true
  | .slSkip => true
  | .slAbandon => true
  | .watchdogExpiry _ => true
  | .hangPing _ _ => true
  | .lkEnable _ => true
  | .lkRetrain _ => true
  | .lkFence _ => true
  | .lkUnfence _ => true
  | .linkTrainedFull _ _ => true
  | .linkTrainedReduced _ _ _ => true
  | .linkTrainingFail _ => true
  | .linkTrainingTimeout _ => true
  | .linkErrorThreshold _ => true
  | .flitCrcReplay _ => true
  | .gqEnable => true
  | .gqDisable => true
  | .guestReadReport _ _ => true
  | .guestPacketComplete _ _ _ => true
  | .guestTranslationRequest _ _ _ => true
  | .guestFaultRecord _ _ _ _ _ => true
  | .guestCoherentAccess _ _ _ => true
  | .guestInvalidationAck => true
  | .guestQuiesced _ => true
  | .guestBoundExpiry => true
  | .attest => true
  | .mailboxFwOp => true
  | .mailboxComplete _ => true
  | .hostEventWordWrite _ => true
  | .hostBar0Write _ _ _ => true
  | .hostMemoryAccess _ _ _ => true
  | .hwWinWrite _ _ _ => true
  | .coldReset => true
  | .powerSample _ => true
  | .clampStep => true
  | .rngStateWrite _ => true
  | .fpCtlWrite _ => true
  | .prStkWrite _ => true
  | .skewCfgWrite _ => true
  | .rqRecipeWrite _ _ => true
  | .rqBackoffWrite _ => true
  | .memDbgWrite _ => true
  | .futCtlClear _ => true
  | .errStatClear _ => true
  | .gbStatClear _ => true
  | .wdCtlWrite _ => true
  | .gsCtlWrite _ => true
  | .pwLimWrite _ => true
  | .rtCfgWrite _ => true
  | .fwWallWrite _ => true
  | .trRingWrite _ => true
  | .unassignedEncoding _ _ => true
  | .firmwareFence _ => true
  | .spareColumnRemap _ _ => true
  | .peerRouteReport _ _ => true

/-- A well-formed instruction. -/
abbrev WellFormed (i : Instr) : Prop := i.wf = true

/-- The device's own steps: the rows that no chain encodes, but for the rows of one register's write, which a wrsr does. -/
def Instr.isEvent : Instr → Bool
  | .add _ _ _ => false
  | .sub _ _ _ => false
  | .and _ _ _ => false
  | .or _ _ _ => false
  | .xor _ _ _ => false
  | .sll _ _ _ => false
  | .srl _ _ _ => false
  | .sra _ _ _ => false
  | .mul _ _ _ => false
  | .mulh _ _ _ => false
  | .div _ _ _ => false
  | .rem _ _ _ => false
  | .min _ _ _ => false
  | .max _ _ _ => false
  | .slt _ _ _ => false
  | .sextB _ _ => false
  | .sextH _ _ => false
  | .sextW _ _ => false
  | .zextB _ _ => false
  | .zextH _ _ => false
  | .zextW _ _ => false
  | .clz _ _ => false
  | .ctz _ _ => false
  | .popc _ _ => false
  | .addi _ _ _ => false
  | .andi _ _ _ => false
  | .ori _ _ _ => false
  | .xori _ _ _ => false
  | .slli _ _ _ => false
  | .srli _ _ _ => false
  | .srai _ _ _ => false
  | .slti _ _ _ => false
  | .cmpiEq _ _ => false
  | .cmpiLt _ _ => false
  | .cmpEq _ _ => false
  | .cmpNe _ _ => false
  | .cmpLt _ _ => false
  | .cmpGe _ _ => false
  | .cmpLtN _ _ => false
  | .cmpGeN _ _ => false
  | .beq _ _ _ => false
  | .bne _ _ _ => false
  | .blt _ _ _ => false
  | .bge _ _ _ => false
  | .bltN _ _ _ => false
  | .bgeN _ _ _ => false
  | .jal _ _ => false
  | .call _ => false
  | .callC _ => false
  | .jalr _ _ _ => false
  | .ret => false
  | .pand => false
  | .por => false
  | .pnot => false
  | .pend => false
  | .fadd _ _ _ _ => false
  | .fsub _ _ _ _ => false
  | .fmul _ _ _ _ => false
  | .fdiv _ _ _ _ => false
  | .fmadd _ _ _ _ => false
  | .fmin _ _ _ _ => false
  | .fmax _ _ _ _ => false
  | .fsqrt _ _ _ => false
  | .fcvt _ _ _ _ _ => false
  | .fcmpEq _ _ _ => false
  | .fcmpLt _ _ _ => false
  | .fcmpLe _ _ _ => false
  | .rdsr _ _ => false
  | .wrsr _ _ => false
  | .hint _ => false
  | .setvl _ _ _ => false
  | .vle _ _ _ _ => false
  | .vlse _ _ _ _ _ => false
  | .vlxe _ _ _ _ _ => false
  | .vlff _ _ _ _ => false
  | .vlce _ _ _ _ => false
  | .vse _ _ _ _ => false
  | .vsse _ _ _ _ _ => false
  | .vsxe _ _ _ _ _ => false
  | .vsce _ _ _ _ => false
  | .vadd _ _ _ _ => false
  | .vsub _ _ _ _ => false
  | .vmul _ _ _ _ => false
  | .vmin _ _ _ _ => false
  | .vmax _ _ _ _ => false
  | .vmulh _ _ _ _ => false
  | .vdiv _ _ _ _ => false
  | .vrem _ _ _ _ => false
  | .vand _ _ _ _ => false
  | .vor _ _ _ _ => false
  | .vxor _ _ _ _ => false
  | .vsll _ _ _ _ => false
  | .vsrl _ _ _ _ => false
  | .vsra _ _ _ _ => false
  | .vfma _ _ _ _ => false
  | .vfdiv _ _ _ _ => false
  | .vsqrt _ _ _ => false
  | .vwadd _ _ _ _ => false
  | .vwmul _ _ _ _ => false
  | .vnarrow _ _ _ _ _ => false
  | .vcvt _ _ _ _ _ => false
  | .vpack _ _ _ => false
  | .vunpack _ _ _ => false
  | .vredsum _ _ _ _ => false
  | .vredmin _ _ _ _ => false
  | .vredmax _ _ _ _ => false
  | .vmseq _ _ _ _ => false
  | .vmsne _ _ _ _ => false
  | .vmslt _ _ _ _ => false
  | .vmsle _ _ _ _ => false
  | .vmand _ _ _ => false
  | .vmor _ _ _ => false
  | .vmnot _ _ => false
  | .vpopc _ _ => false
  | .vfirst _ _ => false
  | .vmerge _ _ _ _ => false
  | .vslideup _ _ _ _ => false
  | .vslidedown _ _ _ _ => false
  | .vrgather _ _ _ _ => false
  | .vcompress _ _ _ => false
  | .vmv _ _ _ _ _ => false
  | .cbCfg _ _ => false
  | .cbAdvP _ _ => false
  | .cbAdvC _ _ => false
  | .mxCfg _ _ => false
  | .mxZero _ => false
  | .mma _ _ _ _ => false
  | .mmaRing _ _ _ _ => false
  | .mmaLx _ _ _ _ => false
  | .mmaLa _ _ _ _ => false
  | .mxDrain _ _ _ _ _ _ _ => false
  | .ltLoad _ _ => false
  | .ltRot _ => false
  | .cp _ => false
  | .ga _ => false
  | .sc _ => false
  | .engStat _ => false
  | .ld _ _ _ _ _ => false
  | .st _ _ _ _ _ => false
  | .ldF _ _ _ => false
  | .ldFTake _ _ _ => false
  | .stF _ _ _ => false
  | .amoAdd _ _ _ _ => false
  | .amoSwap _ _ _ _ => false
  | .amoAnd _ _ _ _ => false
  | .amoOr _ _ _ _ => false
  | .amoXor _ _ _ _ => false
  | .amoMin _ _ _ _ => false
  | .amoMax _ _ _ _ => false
  | .amoCas _ _ _ _ => false
  | .amoMinN _ _ _ _ => false
  | .amoMaxN _ _ _ _ => false
  | .redAdd _ _ _ _ => false
  | .redAddF32 _ _ _ => false
  | .redMin _ _ _ _ => false
  | .redMax _ _ _ _ => false
  | .redMinN _ _ _ _ => false
  | .redMaxN _ _ _ _ => false
  | .redMinF32 _ _ _ => false
  | .redMaxF32 _ _ _ => false
  | .fence _ => false
  | .fenceX _ _ _ => false
  | .dcFlush _ _ => false
  | .dcDiscard _ _ => false
  | .icsync => false
  | .wait _ _ _ _ _ _ => false
  | .barArrive _ _ _ => false
  | .barWait _ _ _ => false
  | .gbSync _ _ => false
  | .msgOpen _ => false
  | .msgPut _ => false
  | .msgEnd => false
  | .recv _ _ => false
  | .tkSpawn _ => false
  | .tkDep _ _ => false
  | .tkYield => false
  | .tkEnd => false
  | .qlOpen _ _ => false
  | .qlClose _ => false
  | .qlEval _ _ _ _ _ => false
  | .qlFold _ _ _ _ _ => false
  | .qlSeek _ _ _ _ _ => false
  | .qlRec _ _ _ => false
  | .qlGet _ _ _ _ => false
  | .qlSplit _ _ _ _ => false
  | .qlApp _ _ _ => false
  | .qlPut _ _ _ => false
  | .qlPub _ _ _ => false
  | .hlCat _ _ => false
  | .hlFilt _ _ _ _ => false
  | .hlRebase _ _ => false
  | .hlApply _ => false
  | .hlDrop _ => false
  | .hlLen _ _ => false
  | .pgPost _ _ _ => false
  | .pgReplay _ => false
  | .ecall => false
  | .ebreak => false
  | .trap _ => false
  | .trapNoticeRetry _ => true
  | .faultRecordRetry _ => true
  | .ctxCreate => true
  | .ctxCommit => true
  | .ctxSuspend => true
  | .ctxResume => true
  | .ctxTeardown => true
  | .ctxFault => true
  | .ctxDeviceFault _ => true
  | .ctxStopComplete _ => true
  | .ctxDrained _ => true
  | .grpLaunch => true
  | .groupRelease _ => true
  | .groupDrained _ => true
  | .groupBrokenFreed _ => true
  | .enqueueArrive _ => true
  | .enqueueAck _ => true
  | .replayBackoffExpiry _ => true
  | .taskDispatch _ => true
  | .takeServe _ _ => true
  | .takeReply _ => true
  | .takeReprobe _ => true
  | .taskCommit _ => true
  | .commitLockAcquire _ => true
  | .timedCommitStart _ => true
  | .waitSatisfiedNotice _ => true
  | .monitorPoll _ => true
  | .waitTimeout _ => true
  | .waitHoldExpiry _ => true
  | .parkEntryFree _ => true
  | .barrierRegisterRetry _ => true
  | .msgDeliver _ => true
  | .deferralExpiry _ => true
  | .futureCancel _ => true
  | .storeComplete _ _ => true
  | .llcFill _ => true
  | .llcWriteback _ => true
  | .updateOnlyRecall _ _ => true
  | .updateOnlyEvict _ _ => true
  | .tlbMissWalk _ _ _ _ => true
  | .softErrorCorrected _ => true
  | .uncorrectableError _ => true
  | .engineCommandStart _ _ => true
  | .engineTranslationFault _ _ => true
  | .engineCommandFail _ _ => true
  | .engineCommandComplete _ _ => true
  | .mmaComplete _ => true
  | .ringPass _ => true
  | .subarrayWake _ => true
  | .subarrayPowerGate _ => true
  | .apertureRead _ _ => true
  | .apertureWrite _ => true
  | .stopTakeEffect _ => true
  | .frameSaveComplete _ => true
  | .slResume => true
  | .slSkip => true
  | .slAbandon => true
  | .watchdogExpiry _ => true
  | .hangPing _ _ => true
  | .lkEnable _ => true
  | .lkRetrain _ => true
  | .lkFence _ => true
  | .lkUnfence _ => true
  | .linkTrainedFull _ _ => true
  | .linkTrainedReduced _ _ _ => true
  | .linkTrainingFail _ => true
  | .linkTrainingTimeout _ => true
  | .linkErrorThreshold _ => true
  | .flitCrcReplay _ => true
  | .gqEnable => true
  | .gqDisable => true
  | .guestReadReport _ _ => true
  | .guestPacketComplete _ _ _ => true
  | .guestTranslationRequest _ _ _ => true
  | .guestFaultRecord _ _ _ _ _ => true
  | .guestCoherentAccess _ _ _ => true
  | .guestInvalidationAck => true
  | .guestQuiesced _ => true
  | .guestBoundExpiry => true
  | .attest => true
  | .mailboxFwOp => true
  | .mailboxComplete _ => true
  | .hostEventWordWrite _ => true
  | .hostBar0Write _ _ _ => true
  | .hostMemoryAccess _ _ _ => true
  | .hwWinWrite _ _ _ => false
  | .coldReset => true
  | .powerSample _ => true
  | .clampStep => true
  | .rngStateWrite _ => false
  | .fpCtlWrite _ => false
  | .prStkWrite _ => false
  | .skewCfgWrite _ => false
  | .rqRecipeWrite _ _ => false
  | .rqBackoffWrite _ => false
  | .memDbgWrite _ => false
  | .futCtlClear _ => false
  | .errStatClear _ => false
  | .gbStatClear _ => false
  | .wdCtlWrite _ => false
  | .gsCtlWrite _ => false
  | .pwLimWrite _ => false
  | .rtCfgWrite _ => false
  | .fwWallWrite _ => false
  | .trRingWrite _ => false
  | .unassignedEncoding _ _ => false
  | .firmwareFence _ => true
  | .spareColumnRemap _ _ => true
  | .peerRouteReport _ _ => true

end Sys2Proof
end

