-- ==== Sys2Proof/Decode.lean ====
section
/-! DEFINITION. Chains of words to instructions and back (R269 to R296): the word-by-word scan of a chain, the opcode maps, and the encoder written from the same maps. -/

namespace Sys2Proof

/-- A whole chain: the payloads of its leading words, and its base word (R271, R275). -/
structure Chain where
  page : Option (BitVec 9)
  reg : Option (BitVec 9)
  md : Option (BitVec 9)
  imms : List (BitVec 9)
  base : Half
  deriving DecidableEq, Repr

/-- The leading words of a chain seen so far. stage is the kind last seen: 0 none, 1 PAGE, 2 REG, 3 MOD, 4 IMM. -/
structure Scan where
  stage : Nat
  count : Nat
  page : Option (BitVec 9)
  reg : Option (BitVec 9)
  md : Option (BitVec 9)
  imms : List (BitVec 9)
  deriving DecidableEq, Repr

/-- No word seen. -/
def Scan.start : Scan := ⟨0, 0, none, none, none, []⟩

/-- What one more word makes of a scan. -/
inductive ScanStep
  /-- a leading word: the chain goes on -/
  | more (p : Scan)
  /-- the base word: the chain is whole -/
  | whole (c : Chain)
  /-- the word breaks R275 -/
  | broken
  deriving DecidableEq, Repr

/-- A major of all ones marks a leading word (R269, R271). -/
def isLead (w : Half) : Bool := w.extractLsb' 11 5 == 31#5

/-- One word of a chain: order PAGE, REG, MOD, IMM, the first three at most once, IMM at most three times, four in all (R275). -/
def Scan.word (p : Scan) (w : Half) : ScanStep :=
  let payload := w.extractLsb' 0 9
  if !isLead w then .whole ⟨p.page, p.reg, p.md, p.imms, w⟩
  else if p.count ≥ 4 then .broken
  else match (w.extractLsb' 9 2).toNat with
    | 0 => if p.imms.length ≥ 3 then .broken
           else .more { p with stage := 4, count := p.count + 1, imms := p.imms ++ [payload] }
    | 1 => if p.stage ≥ 2 then .broken
           else .more { p with stage := 2, count := p.count + 1, reg := some payload }
    | 2 => if p.stage ≥ 1 then .broken
           else .more { p with stage := 1, count := p.count + 1, page := some payload }
    | _ => if p.stage ≥ 3 then .broken
           else .more { p with stage := 3, count := p.count + 1, md := some payload }

/-- What a list of words holds at its start. words counts the words of the chain, or of its first breaking word's place. -/
inductive Scanned
  | chain (c : Chain) (words : Nat)
  | broken (words : Nat)
  | short
  deriving DecidableEq, Repr

/-- Scan a list of words. -/
def scanWords : List Half → Scan → Nat → Scanned
  | [], _, _ => .short
  | w :: rest, p, k =>
    match p.word w with
    | .whole c => .chain c (k + 1)
    | .broken => .broken k
    | .more p' => scanWords rest p' (k + 1)

/-! ### Fields of the base word (R269) -/

/-- [15:11]. -/
def Chain.major (c : Chain) : Nat := (c.base.extractLsb' 11 5).toNat
/-- [10:7]. -/
def Chain.fa (c : Chain) : BitVec 4 := c.base.extractLsb' 7 4
/-- [6:3]. -/
def Chain.fb (c : Chain) : BitVec 4 := c.base.extractLsb' 3 4
/-- [2:0]. -/
def Chain.ff (c : Chain) : Nat := (c.base.extractLsb' 0 3).toNat
/-- RI: [6:0]. -/
def Chain.i7 (c : Chain) : BitVec 7 := c.base.extractLsb' 0 7
/-- J and N: [10:0]. -/
def Chain.i11 (c : Chain) : BitVec 11 := c.base.extractLsb' 0 11

/-! ### The REG word (R273) -/

/-- The REG payload, zero when absent. -/
def Chain.rp (c : Chain) : BitVec 9 := c.reg.getD 0
/-- [1:0] of REG are reserved. -/
def Chain.regOk (c : Chain) : Bool := c.rp.extractLsb' 0 2 == 0
/-- The a register. -/
def Chain.ra (c : Chain) : Reg := c.rp.extractLsb' 8 1 ++ c.fa
/-- The b register. -/
def Chain.rb (c : Chain) : Reg := c.rp.extractLsb' 7 1 ++ c.fb
/-- The c register; register 0 without REG. -/
def Chain.rc (c : Chain) : Reg := c.rp.extractLsb' 2 5
/-- ah is zero. -/
def Chain.ahZero (c : Chain) : Bool := c.rp.extractLsb' 8 1 == 0
/-- bh is zero. -/
def Chain.bhZero (c : Chain) : Bool := c.rp.extractLsb' 7 1 == 0
/-- No MOD word. -/
def Chain.noMod (c : Chain) : Bool := c.md == none
/-- No IMM word. -/
def Chain.noImm (c : Chain) : Bool := c.imms.isEmpty
/-- No REG word. -/
def Chain.noReg (c : Chain) : Bool := c.reg == none
/-- The MOD payload, zero when absent (R282 to R287). -/
def Chain.mp (c : Chain) : BitVec 9 := c.md.getD 0

/-! ### Roles (R280) -/

/-- bin: d = a, s1 = a, s2 = b; with REG d = a, s1 = b, s2 = c. -/
def Chain.bin (c : Chain) : Reg × Reg × Reg :=
  match c.reg with
  | none => (c.ra, c.ra, c.rb)
  | some _ => (c.ra, c.rb, c.rc)

/-- A value kept only under a condition. -/
def keep {α : Type} (ok : Bool) (v : α) : Option α := if ok then some v else none

/-- un: c reserved. -/
def Chain.unOk (c : Chain) : Bool := c.regOk && c.rc == 0

/-- ri: d = a, s = a; with REG d = a, s = c. -/
def Chain.ri (c : Chain) : Reg × Reg :=
  match c.reg with
  | none => (c.ra, c.ra)
  | some _ => (c.ra, c.rc)

/-- ri: bh reserved. -/
def Chain.riOk (c : Chain) : Bool := c.regOk && c.bhZero

/-- The b field and its high bit are reserved and zero. -/
def Chain.bZero (c : Chain) : Bool := c.fb == 0 && c.bhZero

/-! ### Immediates (R279) -/

/-- Concat(I1, ..., In, base field), sign-extended. -/
def immS {w : Nat} : List (BitVec 9) → BitVec w → Word
  | [], f => f.signExtend 64
  | [i], f => (i ++ f).signExtend 64
  | [i, j], f => (i ++ (j ++ f)).signExtend 64
  | i :: j :: k :: _, f => (i ++ (j ++ (k ++ f))).signExtend 64

/-- Concat(I1, ..., In, base field), zero-extended. -/
def immU {w : Nat} : List (BitVec 9) → BitVec w → Word
  | [], f => f.zeroExtend 64
  | [i], f => (i ++ f).zeroExtend 64
  | [i, j], f => (i ++ (j ++ f)).zeroExtend 64
  | i :: j :: k :: _, f => (i ++ (j ++ (k ++ f))).zeroExtend 64

/-- A signed immediate with no base field. -/
def Chain.off (c : Chain) : Word := immS c.imms (0#0)

/-! ### MOD layouts (R282 to R288) -/

/-- The space codes; 3 is reserved (R282). -/
def spaceOf (b : BitVec 2) : Option Space :=
  match b.toNat with
  | 0 => some .glob
  | 1 => some .tcm
  | 2 => some .scr
  | _ => none

/-- The code of a space. -/
def Space.code : Space → BitVec 2
  | .glob => 0
  | .tcm => 1
  | .scr => 2

/-- The ordering codes (R282). -/
def ordOf (b : BitVec 2) : Ord :=
  match b.toNat with
  | 0 => .none
  | 1 => .acq
  | 2 => .rel
  | _ => .ar

/-- The code of an ordering. -/
def Ord.code : Ord → BitVec 2
  | .none => 0
  | .acq => 1
  | .rel => 2
  | .ar => 3

/-- One bit as a Bool. -/
def bit {w : Nat} (v : BitVec w) (i : Nat) : Bool := v.getLsbD i

/-- A Bool as one bit. -/
def one (b : Bool) : BitVec 1 := BitVec.ofBool b

/-- Layout M (R282). -/
def memMod (p : BitVec 9) : Option MemMod :=
  (spaceOf (p.extractLsb' 0 2)).map fun s => ⟨ordOf (p.extractLsb' 7 2), p.extractLsb' 4 3, bit p 3, bit p 2, s⟩

/-- Layout M as bits. -/
def MemMod.bits (m : MemMod) : BitVec 9 := m.ord.code ++ (m.scope ++ (one m.sig ++ (one m.sk ++ m.space.code)))

/-- Layout A (R283). -/
def atomMod (p : BitVec 9) : Option AtomMod :=
  (spaceOf (p.extractLsb' 0 2)).map fun s => ⟨ordOf (p.extractLsb' 7 2), p.extractLsb' 4 3, bit p 3, bit p 2, s⟩

/-- Layout A as bits. -/
def AtomMod.bits (m : AtomMod) : BitVec 9 := m.ord.code ++ (m.scope ++ (one m.sig ++ (one m.wide ++ m.space.code)))

/-- The scalar floating type codes; 3 is reserved (R284). -/
def ftyOf (b : BitVec 2) : Option FTy :=
  match b.toNat with
  | 0 => some .f32
  | 1 => some .bf16
  | 2 => some .f16
  | _ => none

/-- The code of a scalar floating type. -/
def FTy.code : FTy → BitVec 2
  | .f32 => 0
  | .bf16 => 1
  | .f16 => 2

/-- Layout F: [2:0] reserved (R284). -/
def fMod (p : BitVec 9) : Option FMod :=
  if p.extractLsb' 0 3 != 0 then none
  else (ftyOf (p.extractLsb' 4 2)).map fun t => ⟨p.extractLsb' 6 3, t, bit p 3⟩

/-- Layout F as bits. -/
def FMod.bits (m : FMod) : BitVec 9 := m.rm ++ (m.ty.code ++ (one m.sat ++ 0#3))

/-- Layout F with rm and the saturation bit reserved: fcmp, fmin and fmax (R284, R312). -/
def fTyOnly (p : BitVec 9) : Option FTy :=
  match fMod p with
  | some m => keep (m.rm == 0 && !m.sat) m.ty
  | none => none

/-- The codes of fcvt; 7 is reserved (R288). -/
def cvtOf (b : BitVec 3) : Option CvtTy :=
  match b.toNat with
  | 0 => some .f32
  | 1 => some .bf16
  | 2 => some .f16
  | 3 => some .i32
  | 4 => some .i64
  | 5 => some .n32
  | 6 => some .n64
  | _ => none

/-- The code of an fcvt type. -/
def CvtTy.code : CvtTy → BitVec 3
  | .f32 => 0
  | .bf16 => 1
  | .f16 => 2
  | .i32 => 3
  | .i64 => 4
  | .n32 => 5
  | .n64 => 6

/-- Layout V (R285). -/
def vMod (p : BitVec 9) : VMod := ⟨p.extractLsb' 5 4, p.extractLsb' 2 3, bit p 1, bit p 0⟩

/-- Layout V as bits. -/
def VMod.bits (m : VMod) : BitVec 9 := m.ty ++ (m.mask ++ (one m.sat ++ one m.scalar))

/-- Layout VM: [0] reserved (R286). -/
def vmMod (p : BitVec 9) : Option VMMod :=
  if bit p 0 then none
  else (spaceOf (p.extractLsb' 1 2)).map fun s => ⟨p.extractLsb' 7 2, p.extractLsb' 4 3, bit p 3, s⟩

/-- Layout VM as bits. -/
def VMMod.bits (m : VMMod) : BitVec 9 := m.width ++ (m.mask ++ (one m.sk ++ (m.space.code ++ 0#1)))

/-- Block type codes (R364). -/
def blockOf (b : BitVec 4) : Option BlockTy :=
  match b.toNat with
  | 13 => some .bx4
  | 14 => some .bx6
  | 15 => some .bx8
  | _ => none

/-- The code of a block type. -/
def BlockTy.code : BlockTy → BitVec 4
  | .bx4 => 13
  | .bx6 => 14
  | .bx8 => 15

/-- The forms of vmv; 3 is reserved (R369). -/
def mvOf (b : BitVec 2) : Option MvForm :=
  match b.toNat with
  | 0 => some .vv
  | 1 => some .vx
  | 2 => some .xv
  | _ => none

/-- The code of a vmv form. -/
def MvForm.code : MvForm → BitVec 2
  | .vv => 0
  | .vx => 1
  | .xv => 2

/-- Column codes; 3 is reserved (R377, R385). -/
def colsOf (b : BitVec 2) : Option Cols :=
  match b.toNat with
  | 0 => some .all
  | 1 => some .left
  | 2 => some .right
  | _ => none

/-- The code of a column choice. -/
def Cols.code : Cols → BitVec 2
  | .all => 0
  | .left => 1
  | .right => 2

/-! ### The maps -/

/-- A bin form without MOD. -/
def Chain.binRow (c : Chain) (k : Reg → Reg → Reg → Instr) : Option Instr :=
  keep (c.regOk && c.noMod && c.noImm) (k c.bin.1 c.bin.2.1 c.bin.2.2)

/-- A un form without MOD. -/
def Chain.unRow (c : Chain) (k : Reg → Reg → Instr) : Option Instr :=
  keep (c.unOk && c.noMod && c.noImm) (k c.ra c.rb)

/-- A ri form with a signed immediate. -/
def Chain.riRow (c : Chain) (k : Reg → Reg → Word → Instr) : Option Instr :=
  keep (c.riOk && c.noMod) (k c.ri.1 c.ri.2 (immS c.imms c.i7))

/-- A ri form with a six-bit shift; imm[6] reserved. -/
def Chain.shRow (c : Chain) (k : Reg → Reg → BitVec 6 → Instr) : Option Instr :=
  keep (c.riOk && c.noMod && c.noImm && !bit c.i7 6) (k c.ri.1 c.ri.2 (c.i7.setWidth 6))

/-- A compare with an immediate: b and c reserved. -/
def Chain.cmpiRow (c : Chain) (k : Reg → Word → Instr) : Option Instr :=
  keep (c.riOk && c.rc == 0 && c.noMod) (k c.ra (immS c.imms c.i7))

/-- A branch: c reserved, a signed offset. -/
def Chain.brRow (c : Chain) (k : Reg → Reg → Word → Instr) : Option Instr :=
  keep (c.unOk && c.noMod) (k c.ra c.rb c.off)

/-- A J form with no REG word. -/
def Chain.jRow (c : Chain) (k : Word → Instr) : Option Instr :=
  keep (c.noReg && c.noMod) (k (immS c.imms c.i11))

/-- A bin form with layout F. -/
def Chain.fRow (c : Chain) (k : Reg → Reg → Reg → FMod → Instr) : Option Instr :=
  match fMod c.mp with
  | some m => keep (c.regOk && c.noImm) (k c.bin.1 c.bin.2.1 c.bin.2.2 m)
  | none => none

/-- A bin form with layout F whose rounding and saturation are reserved. -/
def Chain.fmRow (c : Chain) (k : Reg → Reg → Reg → FTy → Instr) : Option Instr :=
  match fTyOnly c.mp with
  | some t => keep (c.regOk && c.noImm) (k c.bin.1 c.bin.2.1 c.bin.2.2 t)
  | none => none

/-- A floating compare: c reserved. -/
def Chain.fcRow (c : Chain) (k : Reg → Reg → FTy → Instr) : Option Instr :=
  match fTyOnly c.mp with
  | some t => keep (c.unOk && c.noImm) (k c.ra c.rb t)
  | none => none

/-- fsqrt reads s2 only: b without REG, c with REG, where b is then unused (R289). -/
def Chain.sqrtOk (c : Chain) : Bool := c.regOk && (c.noReg || c.bZero)

/-- s2 of a bin form. -/
def Chain.s2 (c : Chain) : Reg := c.bin.2.2

/-- Page 0 (R289). -/
def decodePage0 (c : Chain) : Option Instr :=
  match c.major, c.ff with
  | 1, 0 => c.binRow .add
  | 1, 1 => c.binRow .sub
  | 1, 2 => c.binRow .and
  | 1, 3 => c.binRow .or
  | 1, 4 => c.binRow .xor
  | 1, 5 => c.binRow .sll
  | 1, 6 => c.binRow .srl
  | 1, 7 => c.binRow .sra
  | 2, 0 => c.binRow .mul
  | 2, 1 => c.binRow .mulh
  | 2, 2 => c.binRow .div
  | 2, 3 => c.binRow .rem
  | 2, 4 => c.binRow .min
  | 2, 5 => c.binRow .max
  | 2, 6 => c.binRow .slt
  | 3, 0 => c.unRow .sextB
  | 3, 1 => c.unRow .sextH
  | 3, 2 => c.unRow .sextW
  | 3, 3 => c.unRow .zextB
  | 3, 4 => c.unRow .zextH
  | 3, 5 => c.unRow .zextW
  | 4, 0 => c.unRow .clz
  | 4, 1 => c.unRow .ctz
  | 4, 2 => c.unRow .popc
  | 5, _ => c.riRow .addi
  | 6, _ => c.riRow .andi
  | 7, _ => c.riRow .ori
  | 8, _ => c.riRow .xori
  | 9, _ => c.shRow .slli
  | 10, _ => c.shRow .srli
  | 11, _ => c.shRow .srai
  | 12, _ => c.riRow .slti
  | 13, _ => c.cmpiRow .cmpiEq
  | 14, _ => c.cmpiRow .cmpiLt
  | 15, 0 => c.unRow .cmpEq
  | 15, 1 => c.unRow .cmpNe
  | 15, 2 => c.unRow .cmpLt
  | 15, 3 => c.unRow .cmpGe
  | 15, 4 => c.unRow .cmpLtN
  | 15, 5 => c.unRow .cmpGeN
  | 16, 0 => c.brRow .beq
  | 16, 1 => c.brRow .bne
  | 16, 2 => c.brRow .blt
  | 16, 3 => c.brRow .bge
  | 16, 4 => c.brRow .bltN
  | 16, 5 => c.brRow .bgeN
  | 17, _ => keep (c.regOk && c.ahZero && c.bhZero && c.noMod) (.jal c.rc (immS c.imms c.i11))
  | 18, _ => c.jRow .call
  | 19, _ => c.jRow .callC
  | 20, 0 => c.brRow .jalr
  | 21, _ =>
    if c.noReg && c.noMod && c.noImm then
      match c.i11.toNat with
      | 0 => some .ret
      | 1 => some .pand
      | 2 => some .por
      | 3 => some .pnot
      | 4 => some .pend
      | _ => none
    else none
  | 22, 0 => c.fRow .fadd
  | 22, 1 => c.fRow .fsub
  | 22, 2 => c.fRow .fmul
  | 22, 3 => c.fRow .fdiv
  | 22, 4 => c.fRow .fmadd
  | 22, 5 => c.fmRow .fmin
  | 22, 6 => c.fmRow .fmax
  | 22, 7 =>
    match fMod c.mp with
    | some m => keep (c.sqrtOk && c.noImm) (.fsqrt c.ra c.s2 m)
    | none => none
  | 23, 0 =>
    match cvtOf (c.mp.extractLsb' 3 3), cvtOf (c.mp.extractLsb' 0 3) with
    | some d, some s => keep (c.unOk && c.noImm) (.fcvt c.ra c.rb d s (c.mp.extractLsb' 6 3))
    | _, _ => none
  | 24, 0 => c.fcRow .fcmpEq
  | 24, 1 => c.fcRow .fcmpLt
  | 24, 2 => c.fcRow .fcmpLe
  | 25, _ => keep (c.riOk && c.rc == 0 && c.noMod) (.rdsr c.ra ((immU c.imms c.i7).setWidth 34))
  | 26, _ => keep (c.riOk && c.rc == 0 && c.noMod) (.wrsr c.ra ((immU c.imms c.i7).setWidth 34))
  | 30, _ => some (.hint c.i11)
  | _, _ => none

/-- A vector memory form: c reserved. -/
def Chain.vm2Row (c : Chain) (k : Reg → Reg → VMMod → Word → Instr) : Option Instr :=
  match vmMod c.mp with
  | some m => keep c.unOk (k c.ra c.rb m c.off)
  | none => none

/-- A vector memory form with c. -/
def Chain.vm3Row (c : Chain) (k : Reg → Reg → Reg → VMMod → Word → Instr) : Option Instr :=
  match vmMod c.mp with
  | some m => keep c.regOk (k c.ra c.rb c.rc m c.off)
  | none => none

/-- A bin form with layout V. -/
def Chain.vRow (c : Chain) (k : Reg → Reg → Reg → VMod → Instr) : Option Instr :=
  keep (c.regOk && c.noImm) (k c.bin.1 c.bin.2.1 c.bin.2.2 (vMod c.mp))

/-- A fixed form with layout V. -/
def Chain.vfixRow (c : Chain) (k : Reg → Reg → Reg → VMod → Instr) : Option Instr :=
  keep (c.regOk && c.noImm) (k c.ra c.rb c.rc (vMod c.mp))

/-- A mask compare: a[3] and ah reserved (R270, R366). -/
def Chain.vcmpRow (c : Chain) (k : KReg → Reg → Reg → VMod → Instr) : Option Instr :=
  keep (c.regOk && c.noImm && c.ahZero && !bit c.fa 3) (k (c.fa.setWidth 3) c.rb c.rc (vMod c.mp))

/-- The k operand in b: b[3] and bh reserved. -/
def Chain.kbOk (c : Chain) : Bool := c.bhZero && !bit c.fb 3

/-- A mask operation on three k registers: c[4:3] reserved (R367). -/
def Chain.kRow (c : Chain) (k : KReg → KReg → KReg → Instr) : Option Instr :=
  keep (c.regOk && c.noMod && c.noImm && c.ahZero && !bit c.fa 3 && c.kbOk && c.rc.extractLsb' 3 2 == 0)
    (k (c.fa.setWidth 3) (c.fb.setWidth 3) (c.rc.setWidth 3))

/-- A count over a mask into x. -/
def Chain.kxRow (c : Chain) (k : Reg → KReg → Instr) : Option Instr :=
  keep (c.unOk && c.noMod && c.noImm && c.kbOk) (k c.ra (c.fb.setWidth 3))

/-- A block conversion: MOD [4:0] reserved (R364). -/
def Chain.blockRow (c : Chain) (k : Reg → Reg → BlockTy → Instr) : Option Instr :=
  match blockOf (c.mp.extractLsb' 5 4) with
  | some t => keep (c.unOk && c.noImm && c.mp.extractLsb' 0 5 == 0) (k c.ra c.rb t)
  | none => none

/-- Page 1 (R290). -/
def decodePage1 (c : Chain) : Option Instr :=
  match c.major, c.ff with
  | 1, 0 => keep (c.unOk && c.noImm && c.mp.extractLsb' 6 3 == 0) (.setvl c.ra c.rb (c.mp.setWidth 6))
  | 2, 0 => c.vm2Row .vle
  | 2, 1 => c.vm3Row .vlse
  | 2, 2 => c.vm3Row .vlxe
  | 2, 3 => c.vm2Row .vlff
  | 2, 4 => c.vm2Row .vlce
  | 3, 0 => c.vm2Row .vse
  | 3, 1 => c.vm3Row .vsse
  | 3, 2 => c.vm3Row .vsxe
  | 3, 3 => c.vm2Row .vsce
  | 4, 0 => c.vRow .vadd
  | 4, 1 => c.vRow .vsub
  | 4, 2 => c.vRow .vmul
  | 4, 3 => c.vRow .vmin
  | 4, 4 => c.vRow .vmax
  | 4, 5 => c.vRow .vmulh
  | 4, 6 => c.vRow .vdiv
  | 4, 7 => c.vRow .vrem
  | 5, 0 => c.vRow .vand
  | 5, 1 => c.vRow .vor
  | 5, 2 => c.vRow .vxor
  | 5, 3 => c.vRow .vsll
  | 5, 4 => c.vRow .vsrl
  | 5, 5 => c.vRow .vsra
  | 6, 0 => c.vRow .vfma
  | 6, 1 => c.vRow .vfdiv
  | 6, 2 => keep (c.sqrtOk && c.noImm) (.vsqrt c.ra c.s2 (vMod c.mp))
  | 7, 0 => c.vfixRow .vwadd
  | 7, 1 => c.vfixRow .vwmul
  | 7, 2 => keep (c.unOk && c.noImm && !bit c.mp 0)
      (.vnarrow c.ra c.rb (c.mp.extractLsb' 5 4) (c.mp.extractLsb' 2 3) (bit c.mp 1))
  | 7, 3 => keep (c.unOk && c.noImm) (.vcvt c.ra c.rb (c.mp.extractLsb' 5 4) (c.mp.extractLsb' 1 4) (bit c.mp 0))
  | 7, 4 => c.blockRow .vpack
  | 7, 5 => c.blockRow .vunpack
  | 8, 0 => c.vfixRow .vredsum
  | 8, 1 => c.vfixRow .vredmin
  | 8, 2 => c.vfixRow .vredmax
  | 9, 0 => c.vcmpRow .vmseq
  | 9, 1 => c.vcmpRow .vmsne
  | 9, 2 => c.vcmpRow .vmslt
  | 9, 3 => c.vcmpRow .vmsle
  | 10, 0 => c.kRow .vmand
  | 10, 1 => c.kRow .vmor
  | 10, 2 => keep (c.unOk && c.noMod && c.noImm && c.ahZero && !bit c.fa 3 && c.kbOk)
      (.vmnot (c.fa.setWidth 3) (c.fb.setWidth 3))
  | 10, 3 => c.kxRow .vpopc
  | 10, 4 => c.kxRow .vfirst
  | 11, 0 => c.vfixRow .vmerge
  | 11, 1 => c.vfixRow .vslideup
  | 11, 2 => c.vfixRow .vslidedown
  | 11, 3 => c.vfixRow .vrgather
  | 11, 4 => keep (c.unOk && c.noImm) (.vcompress c.ra c.rb (vMod c.mp))
  | 11, 5 =>
    match mvOf (c.mp.extractLsb' 0 2) with
    | some m => keep (c.unOk && c.noImm) (.vmv c.ra c.rb (c.mp.extractLsb' 5 4) (c.mp.extractLsb' 2 3) m)
    | none => none
  | _, _ => none

/-- mma and its modes: MOD [7:4] reserved, bh and c reserved, format codes 13 to 15 reserved (R32, R378). -/
def Chain.mmaRow (c : Chain) (k : Reg → HReg → Bool → BitVec 4 → Instr) : Option Instr :=
  keep (c.unOk && c.noImm && c.bhZero && c.mp.extractLsb' 4 4 == 0 && decide ((c.mp.extractLsb' 0 4).toNat < 13)) (k c.ra c.fb (bit c.mp 8) (c.mp.extractLsb' 0 4))

/-- One register in a, every other field reserved. -/
def Chain.aRow (c : Chain) (k : Reg → Instr) : Option Instr :=
  keep (c.unOk && c.noMod && c.noImm && c.bZero) (k c.ra)

/-- Page 2 (R291). -/
def decodePage2 (c : Chain) : Option Instr :=
  match c.major, c.ff with
  | 1, 0 => keep (c.unOk && c.noMod && c.noImm && c.ahZero) (.cbCfg c.fa c.rb)
  | 2, _ => keep (c.noReg && c.noMod) (.cbAdvP c.fa ((immU c.imms c.i7).setWidth 34))
  | 3, _ => keep (c.noReg && c.noMod) (.cbAdvC c.fa ((immU c.imms c.i7).setWidth 34))
  | 4, 0 => keep (c.unOk && c.noImm && c.bZero && c.mp.extractLsb' 1 8 == 0) (.mxCfg c.ra (bit c.mp 0))
  | 5, _ =>
    match colsOf (c.mp.extractLsb' 0 2) with
    | some k => keep (c.noReg && c.noImm && c.i11 == 0 && c.mp.extractLsb' 2 7 == 0) (.mxZero k)
    | none => none
  | 6, 0 => c.mmaRow .mma
  | 6, 1 => c.mmaRow .mmaRing
  | 6, 2 => c.mmaRow .mmaLx
  | 6, 3 => c.mmaRow .mmaLa
  | 7, 0 =>
    match spaceOf (c.mp.extractLsb' 3 2), colsOf (c.mp.extractLsb' 0 2) with
    | some s, some k => keep c.unOk (.mxDrain c.ra c.rb c.off (c.mp.extractLsb' 5 4) s (bit c.mp 2) k)
    | _, _ => none
  | 8, 0 => keep (c.unOk && c.noImm && c.mp == 0) (.ltLoad c.ra c.rb)
  | 8, 1 => keep (c.unOk && c.noImm && c.mp == 0 && c.bZero) (.ltRot c.ra)
  | 9, 0 => c.aRow .cp
  | 9, 1 => c.aRow .ga
  | 9, 2 => c.aRow .sc
  | 9, 3 => c.aRow .engStat
  | _, _ => none

/-- An atomic with layout A. -/
def Chain.amoRow (c : Chain) (k : Reg → Reg → Reg → AtomMod → Instr) : Option Instr :=
  match atomMod c.mp with
  | some m => keep (c.regOk && c.noImm) (k c.ra c.rb c.rc m)
  | none => none

/-- A reduction: ord, scope and the signal bit are reserved (R283, R325). -/
def Chain.redRow (c : Chain) (k : Reg → Reg → Bool → Space → Instr) : Option Instr :=
  match atomMod c.mp with
  | some m => keep (c.unOk && c.noImm && c.mp.extractLsb' 3 6 == 0) (k c.ra c.rb m.wide m.space)
  | none => none

/-- An FP32 reduction: width 0 (R283). -/
def Chain.redFRow (c : Chain) (k : Reg → Reg → Space → Instr) : Option Instr :=
  match atomMod c.mp with
  | some m => keep (c.unOk && c.noImm && c.mp.extractLsb' 2 7 == 0) (k c.ra c.rb m.space)
  | none => none

/-- Two registers, no MOD. -/
def Chain.abRow (c : Chain) (k : Reg → Reg → Instr) : Option Instr :=
  keep (c.unOk && c.noMod && c.noImm) (k c.ra c.rb)

/-- Three registers, no MOD. -/
def Chain.abcRow (c : Chain) (k : Reg → Reg → Reg → Instr) : Option Instr :=
  keep (c.regOk && c.noMod && c.noImm) (k c.ra c.rb c.rc)

/-- An N form with no leading word but PAGE. -/
def Chain.plain (c : Chain) : Bool := c.noReg && c.noMod && c.noImm

/-- An instruction with no operand whose a and b fields are reserved. -/
def Chain.bareRow (c : Chain) (i : Instr) : Option Instr :=
  keep (c.unOk && c.noMod && c.noImm && c.bZero && c.ra == 0) i

/-- Page 3 (R292). -/
def decodePage3 (c : Chain) : Option Instr :=
  match c.major, c.ff with
  | 1, _ =>
    match memMod c.mp with
    | some m => keep (c.unOk && !bit c.base 2) (.ld c.ra c.rb (c.base.extractLsb' 0 2) m c.off)
    | none => none
  | 2, _ =>
    match memMod c.mp with
    | some m => keep (c.unOk && !bit c.base 2) (.st c.ra c.rb (c.base.extractLsb' 0 2) m c.off)
    | none => none
  | 3, 0 => c.brRow .ldF
  | 3, 1 => c.brRow .ldFTake
  | 3, 2 => c.brRow .stF
  | 4, 0 => c.amoRow .amoAdd
  | 4, 1 => c.amoRow .amoSwap
  | 4, 2 => c.amoRow .amoAnd
  | 4, 3 => c.amoRow .amoOr
  | 4, 4 => c.amoRow .amoXor
  | 4, 5 => c.amoRow .amoMin
  | 4, 6 => c.amoRow .amoMax
  | 4, 7 => c.amoRow .amoCas
  | 5, 0 => c.amoRow .amoMinN
  | 5, 1 => c.amoRow .amoMaxN
  | 6, 0 => c.redRow .redAdd
  | 6, 1 => c.redFRow .redAddF32
  | 6, 2 => c.redRow .redMin
  | 6, 3 => c.redRow .redMax
  | 6, 4 => c.redRow .redMinN
  | 6, 5 => c.redRow .redMaxN
  | 6, 6 => c.redFRow .redMinF32
  | 6, 7 => c.redFRow .redMaxF32
  | 7, _ => keep (c.plain && c.i11.extractLsb' 3 8 == 0) (.fence (c.i11.setWidth 3))
  | 8, _ => keep c.plain (.fenceX (c.i11.extractLsb' 0 4) (c.i11.extractLsb' 4 4) (c.i11.extractLsb' 8 3))
  | 9, 0 => c.abRow .dcFlush
  | 9, 1 => c.abRow .dcDiscard
  | 10, _ => keep (c.plain && c.i11 == 0) .icsync
  | 11, _ => keep (c.regOk && c.noMod) (.wait c.ra c.rb c.rc (bit c.base 2) (c.base.extractLsb' 0 2) c.off)
  | 12, 0 => keep (c.unOk && c.noMod) (.barArrive c.ra c.rb ((immU c.imms (0#0)).setWidth 27))
  | 12, 1 => c.abcRow .barWait
  | 13, _ => keep (c.plain && c.i7.extractLsb' 3 4 == 0) (.gbSync c.fa (c.i7.setWidth 3))
  | 14, 0 => c.aRow .msgOpen
  | 14, 1 => c.aRow .msgPut
  | 14, 2 => c.bareRow .msgEnd
  | 14, 3 => c.abRow .recv
  | 15, 0 => c.aRow .tkSpawn
  | 15, 1 => c.abRow .tkDep
  | 15, 2 => c.bareRow .tkYield
  | 15, 3 => c.bareRow .tkEnd
  | _, _ => none

/-- A rule-engine form whose MOD has bit 0 alone. -/
def Chain.qlRow (c : Chain) (k : Reg → Reg → Reg → Bool → Instr) : Option Instr :=
  keep (c.regOk && c.noImm && c.mp.extractLsb' 1 8 == 0) (k c.ra c.rb c.rc (bit c.mp 0))

/-- A rule-engine form whose MOD bits are all reserved. -/
def Chain.ql0Row (c : Chain) (k : Reg → Reg → Reg → Instr) : Option Instr :=
  keep (c.regOk && c.noImm && c.mp == 0) (k c.ra c.rb c.rc)

/-- Page 4 (R293). -/
def decodePage4 (c : Chain) : Option Instr :=
  match c.major, c.ff with
  | 1, 0 => c.abRow .qlOpen
  | 1, 1 => c.aRow .qlClose
  | 2, _ => c.qlRow (.qlEval (c.base.extractLsb' 0 3))
  | 3, _ => c.qlRow (.qlFold (c.base.extractLsb' 0 3))
  | 4, _ => c.qlRow (.qlSeek (c.base.extractLsb' 0 3))
  | 5, 0 => c.ql0Row .qlRec
  | 5, 1 => c.qlRow .qlGet
  | 5, 2 => c.qlRow .qlSplit
  | 6, 0 => c.ql0Row .qlApp
  | 6, 1 => c.ql0Row .qlPut
  | 6, 2 => keep (c.unOk && c.noImm && c.mp.extractLsb' 1 8 == 0) (.qlPub c.ra c.rb (bit c.mp 0))
  | 7, 0 => c.abRow .hlCat
  | 7, 1 => keep (c.regOk && c.noMod && (immU c.imms (0#0)).toNat < 128)
      (.hlFilt c.ra c.rb c.rc ((immU c.imms (0#0)).setWidth 7))
  | 7, 2 => c.abRow .hlRebase
  | 7, 3 => c.aRow .hlApply
  | 7, 4 => c.aRow .hlDrop
  | 7, 5 => c.abRow .hlLen
  | _, _ => none

/-- Page 5 (R294). -/
def decodePage5 (c : Chain) : Option Instr :=
  match c.major, c.ff with
  | 1, 0 => c.abcRow .pgPost
  | 1, 1 => c.aRow .pgReplay
  | 2, _ =>
    if c.plain then
      match (c.i11.extractLsb' 8 3).toNat with
      | 0 => keep (c.i11.extractLsb' 0 8 == 0) .ecall
      | 1 => keep (c.i11.extractLsb' 0 8 == 0) .ebreak
      | 2 => some (.trap (c.i11.setWidth 8))
      | _ => none
    else none
  | _, _ => none

/-- The page of a chain; none of a PAGE word that names page 0 or above 5, or has [8:7] set (R272). -/
def Chain.pageNum (c : Chain) : Option Nat :=
  match c.page with
  | none => some 0
  | some p => keep (1 ≤ p.toNat && p.toNat ≤ 5) p.toNat

/-- The instruction of a chain before the reserved codes are looked at. -/
def rawChain (c : Chain) : Option Instr :=
  match c.pageNum with
  | some 0 => decodePage0 c
  | some 1 => decodePage1 c
  | some 2 => decodePage2 c
  | some 3 => decodePage3 c
  | some 4 => decodePage4 c
  | some 5 => decodePage5 c
  | _ => none

/-- The instruction of a well-formed chain; none where R281 order 2 traps ILLEGAL. The reserved codes are those that Instr.wf refuses (R296). -/
def decodeChain (c : Chain) : Option Instr :=
  match rawChain c with
  | some i => keep i.wf i
  | none => none

/-- What the words at an address decode to. words is the chain's length, or the place of the word that breaks it. -/
inductive Decoded
  | instr (i : Instr) (words : Nat)
  | badChain (words : Nat)
  | illegal (words : Nat)
  | short
  deriving DecidableEq, Repr

/-- Decode the chain at the start of a list of words. Total: every list has an answer. -/
def decodeWords (ws : List Half) : Decoded :=
  match scanWords ws Scan.start 0 with
  | .chain c n =>
    match decodeChain c with
    | some i => .instr i n
    | none => .illegal n
  | .broken n => .badChain n
  | .short => .short

/-- Bytes to 16-bit words, little-endian (R3). -/
def wordsOf : List Byte → List Half
  | lo :: hi :: rest => (hi ++ lo) :: wordsOf rest
  | _ => []

/-- Decode the chain at the start of a list of bytes. -/
def decodeBytes (bs : List Byte) : Decoded := decodeWords (wordsOf bs)

/-! ### The encoder -/

/-- Format RR. -/
def mkRR (major : BitVec 5) (a b : BitVec 4) (f : BitVec 3) : Half := major ++ (a ++ (b ++ f))
/-- Format RI. -/
def mkRI (major : BitVec 5) (a : BitVec 4) (i : BitVec 7) : Half := major ++ (a ++ i)
/-- Formats J and N. -/
def mkJ (major : BitVec 5) (i : BitVec 11) : Half := major ++ i

/-- The low four bits of a register number. -/
def lo4 (r : Reg) : BitVec 4 := r.setWidth 4

/-- A REG payload. -/
def regBits (a b c : Reg) : BitVec 9 := a.extractLsb' 4 1 ++ (b.extractLsb' 4 1 ++ (c ++ 0#2))

/-- A REG word only where one is needed. -/
def regIf (need : Bool) (p : BitVec 9) : Option (BitVec 9) := if need then some p else none

/-- A MOD word only where its payload is not zero. -/
def modIf (p : BitVec 9) : Option (BitVec 9) := if p == 0 then none else some p

/-- The fewest IMM words of a signed value beside a base field of w0 bits (R261). -/
def immsS (w0 : Nat) (v : Word) : List (BitVec 9) :=
  if (v.setWidth w0).signExtend 64 == v then []
  else if (v.setWidth (w0 + 9)).signExtend 64 == v then [v.extractLsb' w0 9]
  else if (v.setWidth (w0 + 18)).signExtend 64 == v then [v.extractLsb' (w0 + 9) 9, v.extractLsb' w0 9]
  else [v.extractLsb' (w0 + 18) 9, v.extractLsb' (w0 + 9) 9, v.extractLsb' w0 9]

/-- The fewest IMM words of an unsigned value beside a base field of w0 bits (R279). -/
def immsU (w0 : Nat) (v : Word) : List (BitVec 9) :=
  if v.toNat < 2 ^ w0 then []
  else if v.toNat < 2 ^ (w0 + 9) then [v.extractLsb' w0 9]
  else if v.toNat < 2 ^ (w0 + 18) then [v.extractLsb' (w0 + 9) 9, v.extractLsb' w0 9]
  else [v.extractLsb' (w0 + 18) 9, v.extractLsb' (w0 + 9) 9, v.extractLsb' w0 9]

/-- The PAGE word of a page. -/
def pg (n : BitVec 9) : Option (BitVec 9) := if n == 0 then none else some n

/-- A bin form: two-address without REG, else three registers (R280). -/
def encBin (page : BitVec 9) (major : BitVec 5) (f : BitVec 3) (md : Option (BitVec 9)) (d s1 s2 : Reg) : Chain :=
  if d == s1 && !high d && !high s2 then ⟨pg page, none, md, [], mkRR major (lo4 d) (lo4 s2) f⟩
  else ⟨pg page, some (regBits d s1 s2), md, [], mkRR major (lo4 d) (lo4 s1) f⟩

/-- A fixed form with a, b and c. -/
def encFix (page : BitVec 9) (major : BitVec 5) (f : BitVec 3) (md : Option (BitVec 9)) (imms : List (BitVec 9)) (a b c : Reg) : Chain :=
  ⟨pg page, regIf (high a || high b || c != 0) (regBits a b c), md, imms, mkRR major (lo4 a) (lo4 b) f⟩

/-- A form of major and f that reads one source: s2 of a bin form (R289). -/
def encSqrt (page : BitVec 9) (major : BitVec 5) (f : BitVec 3) (md : Option (BitVec 9)) (d s : Reg) : Chain :=
  if !high d && !high s then ⟨pg page, none, md, [], mkRR major (lo4 d) (lo4 s) f⟩
  else ⟨pg page, some (regBits d 0 s), md, [], mkRR major (lo4 d) 0 f⟩

/-- A ri form (R280). -/
def encRi (major : BitVec 5) (d s : Reg) (imms : List (BitVec 9)) (i : BitVec 7) : Chain :=
  ⟨none, regIf (!inPlace d s) (regBits d 0 s), none, imms, mkRI major (lo4 d) i⟩

/-- A RI form with one register. -/
def encA7 (major : BitVec 5) (a : Reg) (imms : List (BitVec 9)) (i : BitVec 7) : Chain :=
  ⟨none, regIf (high a) (regBits a 0 0), none, imms, mkRI major (lo4 a) i⟩

/-- A J or N form. -/
def encJ (page : BitVec 9) (major : BitVec 5) (imms : List (BitVec 9)) (i : BitVec 11) : Chain :=
  ⟨pg page, none, none, imms, mkJ major i⟩

/-- An MM form of one h register and a count. -/
def encH (major : BitVec 5) (h : HReg) (n : BitVec 34) : Chain :=
  ⟨pg 2, none, none, immsU 7 (n.setWidth 64), mkRI major h (n.setWidth 7)⟩

/-- mma and its modes. -/
def encMma (f : BitVec 3) (a : Reg) (b : HReg) (asrc : Bool) (fmt : BitVec 4) : Chain :=
  ⟨pg 2, regIf (high a) (regBits a 0 0), modIf (one asrc ++ (0#4 ++ fmt)), [], mkRR 6 (lo4 a) b f⟩

/-- A mask compare. -/
def encVcmp (f : BitVec 3) (k : KReg) (b c : Reg) (m : VMod) : Chain :=
  ⟨pg 1, regIf (high b || c != 0) (regBits 0 b c), modIf m.bits, [], mkRR 9 (k.setWidth 4) (lo4 b) f⟩

/-- A mask operation. -/
def encK (f : BitVec 3) (k kb kc : KReg) : Chain :=
  ⟨pg 1, regIf (kc != 0) (regBits 0 0 (kc.setWidth 5)), none, [], mkRR 10 (k.setWidth 4) (kb.setWidth 4) f⟩

/-- A reduction. -/
def encRed (f : BitVec 3) (a b : Reg) (wide : Bool) (space : Space) : Chain :=
  encFix 3 6 f (modIf (0#6 ++ (one wide ++ space.code))) [] a b 0

/-- The chain of an instruction; none for a device event. -/
def encodeChain : Instr → Option Chain
  | .add d s1 s2 => some (encBin 0 1 0 none d s1 s2)
  | .sub d s1 s2 => some (encBin 0 1 1 none d s1 s2)
  | .and d s1 s2 => some (encBin 0 1 2 none d s1 s2)
  | .or d s1 s2 => some (encBin 0 1 3 none d s1 s2)
  | .xor d s1 s2 => some (encBin 0 1 4 none d s1 s2)
  | .sll d s1 s2 => some (encBin 0 1 5 none d s1 s2)
  | .srl d s1 s2 => some (encBin 0 1 6 none d s1 s2)
  | .sra d s1 s2 => some (encBin 0 1 7 none d s1 s2)
  | .mul d s1 s2 => some (encBin 0 2 0 none d s1 s2)
  | .mulh d s1 s2 => some (encBin 0 2 1 none d s1 s2)
  | .div d s1 s2 => some (encBin 0 2 2 none d s1 s2)
  | .rem d s1 s2 => some (encBin 0 2 3 none d s1 s2)
  | .min d s1 s2 => some (encBin 0 2 4 none d s1 s2)
  | .max d s1 s2 => some (encBin 0 2 5 none d s1 s2)
  | .slt d s1 s2 => some (encBin 0 2 6 none d s1 s2)
  | .sextB d s => some (encFix 0 3 0 none [] d s 0)
  | .sextH d s => some (encFix 0 3 1 none [] d s 0)
  | .sextW d s => some (encFix 0 3 2 none [] d s 0)
  | .zextB d s => some (encFix 0 3 3 none [] d s 0)
  | .zextH d s => some (encFix 0 3 4 none [] d s 0)
  | .zextW d s => some (encFix 0 3 5 none [] d s 0)
  | .clz d s => some (encFix 0 4 0 none [] d s 0)
  | .ctz d s => some (encFix 0 4 1 none [] d s 0)
  | .popc d s => some (encFix 0 4 2 none [] d s 0)
  | .addi d s imm => some (encRi 5 d s (immsS 7 imm) (imm.setWidth 7))
  | .andi d s imm => some (encRi 6 d s (immsS 7 imm) (imm.setWidth 7))
  | .ori d s imm => some (encRi 7 d s (immsS 7 imm) (imm.setWidth 7))
  | .xori d s imm => some (encRi 8 d s (immsS 7 imm) (imm.setWidth 7))
  | .slli d s sh => some (encRi 9 d s [] (sh.setWidth 7))
  | .srli d s sh => some (encRi 10 d s [] (sh.setWidth 7))
  | .srai d s sh => some (encRi 11 d s [] (sh.setWidth 7))
  | .slti d s imm => some (encRi 12 d s (immsS 7 imm) (imm.setWidth 7))
  | .cmpiEq a imm => some (encA7 13 a (immsS 7 imm) (imm.setWidth 7))
  | .cmpiLt a imm => some (encA7 14 a (immsS 7 imm) (imm.setWidth 7))
  | .cmpEq a b => some (encFix 0 15 0 none [] a b 0)
  | .cmpNe a b => some (encFix 0 15 1 none [] a b 0)
  | .cmpLt a b => some (encFix 0 15 2 none [] a b 0)
  | .cmpGe a b => some (encFix 0 15 3 none [] a b 0)
  | .cmpLtN a b => some (encFix 0 15 4 none [] a b 0)
  | .cmpGeN a b => some (encFix 0 15 5 none [] a b 0)
  | .beq a b off => some (encFix 0 16 0 none (immsS 0 off) a b 0)
  | .bne a b off => some (encFix 0 16 1 none (immsS 0 off) a b 0)
  | .blt a b off => some (encFix 0 16 2 none (immsS 0 off) a b 0)
  | .bge a b off => some (encFix 0 16 3 none (immsS 0 off) a b 0)
  | .bltN a b off => some (encFix 0 16 4 none (immsS 0 off) a b 0)
  | .bgeN a b off => some (encFix 0 16 5 none (immsS 0 off) a b 0)
  | .jal link off => some ⟨none, regIf (link != 0) (regBits 0 0 link), none, immsS 11 off, mkJ 17 (off.setWidth 11)⟩
  | .call off => some (encJ 0 18 (immsS 11 off) (off.setWidth 11))
  | .callC off => some (encJ 0 19 (immsS 11 off) (off.setWidth 11))
  | .jalr link b off => some (encFix 0 20 0 none (immsS 0 off) link b 0)
  | .ret => some (encJ 0 21 [] 0)
  | .pand => some (encJ 0 21 [] 1)
  | .por => some (encJ 0 21 [] 2)
  | .pnot => some (encJ 0 21 [] 3)
  | .pend => some (encJ 0 21 [] 4)
  | .fadd d s1 s2 m => some (encBin 0 22 0 (modIf m.bits) d s1 s2)
  | .fsub d s1 s2 m => some (encBin 0 22 1 (modIf m.bits) d s1 s2)
  | .fmul d s1 s2 m => some (encBin 0 22 2 (modIf m.bits) d s1 s2)
  | .fdiv d s1 s2 m => some (encBin 0 22 3 (modIf m.bits) d s1 s2)
  | .fmadd d s1 s2 m => some (encBin 0 22 4 (modIf m.bits) d s1 s2)
  | .fmin d s1 s2 ty => some (encBin 0 22 5 (modIf (FMod.bits ⟨0, ty, false⟩)) d s1 s2)
  | .fmax d s1 s2 ty => some (encBin 0 22 6 (modIf (FMod.bits ⟨0, ty, false⟩)) d s1 s2)
  | .fsqrt d s m => some (encSqrt 0 22 7 (modIf m.bits) d s)
  | .fcvt d s dst src rm => some (encFix 0 23 0 (modIf (rm ++ (dst.code ++ src.code))) [] d s 0)
  | .fcmpEq a b ty => some (encFix 0 24 0 (modIf (FMod.bits ⟨0, ty, false⟩)) [] a b 0)
  | .fcmpLt a b ty => some (encFix 0 24 1 (modIf (FMod.bits ⟨0, ty, false⟩)) [] a b 0)
  | .fcmpLe a b ty => some (encFix 0 24 2 (modIf (FMod.bits ⟨0, ty, false⟩)) [] a b 0)
  | .rdsr d num => some (encA7 25 d (immsU 7 (num.setWidth 64)) (num.setWidth 7))
  | .wrsr s num => some (encA7 26 s (immsU 7 (num.setWidth 64)) (num.setWidth 7))
  | .hint e => some (encJ 0 30 [] e)
  | .setvl d s shape => some (encFix 1 1 0 (modIf (shape.setWidth 9)) [] d s 0)
  | .vle d b m imm => some (encFix 1 2 0 (modIf m.bits) (immsS 0 imm) d b 0)
  | .vlse d b c m imm => some (encFix 1 2 1 (modIf m.bits) (immsS 0 imm) d b c)
  | .vlxe d b c m imm => some (encFix 1 2 2 (modIf m.bits) (immsS 0 imm) d b c)
  | .vlff d b m imm => some (encFix 1 2 3 (modIf m.bits) (immsS 0 imm) d b 0)
  | .vlce d b m imm => some (encFix 1 2 4 (modIf m.bits) (immsS 0 imm) d b 0)
  | .vse d b m imm => some (encFix 1 3 0 (modIf m.bits) (immsS 0 imm) d b 0)
  | .vsse d b c m imm => some (encFix 1 3 1 (modIf m.bits) (immsS 0 imm) d b c)
  | .vsxe d b c m imm => some (encFix 1 3 2 (modIf m.bits) (immsS 0 imm) d b c)
  | .vsce d b m imm => some (encFix 1 3 3 (modIf m.bits) (immsS 0 imm) d b 0)
  | .vadd d s1 s2 m => some (encBin 1 4 0 (modIf m.bits) d s1 s2)
  | .vsub d s1 s2 m => some (encBin 1 4 1 (modIf m.bits) d s1 s2)
  | .vmul d s1 s2 m => some (encBin 1 4 2 (modIf m.bits) d s1 s2)
  | .vmin d s1 s2 m => some (encBin 1 4 3 (modIf m.bits) d s1 s2)
  | .vmax d s1 s2 m => some (encBin 1 4 4 (modIf m.bits) d s1 s2)
  | .vmulh d s1 s2 m => some (encBin 1 4 5 (modIf m.bits) d s1 s2)
  | .vdiv d s1 s2 m => some (encBin 1 4 6 (modIf m.bits) d s1 s2)
  | .vrem d s1 s2 m => some (encBin 1 4 7 (modIf m.bits) d s1 s2)
  | .vand d s1 s2 m => some (encBin 1 5 0 (modIf m.bits) d s1 s2)
  | .vor d s1 s2 m => some (encBin 1 5 1 (modIf m.bits) d s1 s2)
  | .vxor d s1 s2 m => some (encBin 1 5 2 (modIf m.bits) d s1 s2)
  | .vsll d s1 s2 m => some (encBin 1 5 3 (modIf m.bits) d s1 s2)
  | .vsrl d s1 s2 m => some (encBin 1 5 4 (modIf m.bits) d s1 s2)
  | .vsra d s1 s2 m => some (encBin 1 5 5 (modIf m.bits) d s1 s2)
  | .vfma d s1 s2 m => some (encBin 1 6 0 (modIf m.bits) d s1 s2)
  | .vfdiv d s1 s2 m => some (encBin 1 6 1 (modIf m.bits) d s1 s2)
  | .vsqrt d s m => some (encSqrt 1 6 2 (modIf m.bits) d s)
  | .vwadd d b c m => some (encFix 1 7 0 (modIf m.bits) [] d b c)
  | .vwmul d b c m => some (encFix 1 7 1 (modIf m.bits) [] d b c)
  | .vnarrow d s ty mask sat => some (encFix 1 7 2 (modIf (ty ++ (mask ++ (one sat ++ 0#1)))) [] d s 0)
  | .vcvt d s dst src sat => some (encFix 1 7 3 (modIf (dst ++ (src ++ one sat))) [] d s 0)
  | .vpack d s bt => some (encFix 1 7 4 (modIf (bt.code ++ 0#5)) [] d s 0)
  | .vunpack d s bt => some (encFix 1 7 5 (modIf (bt.code ++ 0#5)) [] d s 0)
  | .vredsum d b c m => some (encFix 1 8 0 (modIf m.bits) [] d b c)
  | .vredmin d b c m => some (encFix 1 8 1 (modIf m.bits) [] d b c)
  | .vredmax d b c m => some (encFix 1 8 2 (modIf m.bits) [] d b c)
  | .vmseq k b c m => some (encVcmp 0 k b c m)
  | .vmsne k b c m => some (encVcmp 1 k b c m)
  | .vmslt k b c m => some (encVcmp 2 k b c m)
  | .vmsle k b c m => some (encVcmp 3 k b c m)
  | .vmand k kb kc => some (encK 0 k kb kc)
  | .vmor k kb kc => some (encK 1 k kb kc)
  | .vmnot k kb => some (encK 2 k kb 0)
  | .vpopc d kb => some (encFix 1 10 3 none [] d (kb.setWidth 5) 0)
  | .vfirst d kb => some (encFix 1 10 4 none [] d (kb.setWidth 5) 0)
  | .vmerge d b c m => some (encFix 1 11 0 (modIf m.bits) [] d b c)
  | .vslideup d b c m => some (encFix 1 11 1 (modIf m.bits) [] d b c)
  | .vslidedown d b c m => some (encFix 1 11 2 (modIf m.bits) [] d b c)
  | .vrgather d b c m => some (encFix 1 11 3 (modIf m.bits) [] d b c)
  | .vcompress d b m => some (encFix 1 11 4 (modIf m.bits) [] d b 0)
  | .vmv d s ty mask form => some (encFix 1 11 5 (modIf (ty ++ (mask ++ form.code))) [] d s 0)
  | .cbCfg h b => some ⟨pg 2, regIf (high b) (regBits 0 b 0), none, [], mkRR 1 h (lo4 b) 0⟩
  | .cbAdvP h n => some (encH 2 h n)
  | .cbAdvC h n => some (encH 3 h n)
  | .mxCfg a zero => some (encFix 2 4 0 (modIf (0#8 ++ one zero)) [] a 0 0)
  | .mxZero cols => some ⟨pg 2, none, modIf (0#7 ++ cols.code), [], mkJ 5 0⟩
  | .mma a b asrc fmt => some (encMma 0 a b asrc fmt)
  | .mmaRing a b asrc fmt => some (encMma 1 a b asrc fmt)
  | .mmaLx a b asrc fmt => some (encMma 2 a b asrc fmt)
  | .mmaLa a b asrc fmt => some (encMma 3 a b asrc fmt)
  | .mxDrain a b imm fmt space zero cols =>
    some (encFix 2 7 0 (modIf (fmt ++ (space.code ++ (one zero ++ cols.code)))) (immsS 0 imm) a b 0)
  | .ltLoad a b => some (encFix 2 8 0 none [] a b 0)
  | .ltRot a => some (encFix 2 8 1 none [] a 0 0)
  | .cp a => some (encFix 2 9 0 none [] a 0 0)
  | .ga a => some (encFix 2 9 1 none [] a 0 0)
  | .sc a => some (encFix 2 9 2 none [] a 0 0)
  | .engStat a => some (encFix 2 9 3 none [] a 0 0)
  | .ld a b size m imm => some (encFix 3 1 (size.setWidth 3) (modIf m.bits) (immsS 0 imm) a b 0)
  | .st a b size m imm => some (encFix 3 2 (size.setWidth 3) (modIf m.bits) (immsS 0 imm) a b 0)
  | .ldF a b imm => some (encFix 3 3 0 none (immsS 0 imm) a b 0)
  | .ldFTake a b imm => some (encFix 3 3 1 none (immsS 0 imm) a b 0)
  | .stF a b imm => some (encFix 3 3 2 none (immsS 0 imm) a b 0)
  | .amoAdd a b c m => some (encFix 3 4 0 (modIf m.bits) [] a b c)
  | .amoSwap a b c m => some (encFix 3 4 1 (modIf m.bits) [] a b c)
  | .amoAnd a b c m => some (encFix 3 4 2 (modIf m.bits) [] a b c)
  | .amoOr a b c m => some (encFix 3 4 3 (modIf m.bits) [] a b c)
  | .amoXor a b c m => some (encFix 3 4 4 (modIf m.bits) [] a b c)
  | .amoMin a b c m => some (encFix 3 4 5 (modIf m.bits) [] a b c)
  | .amoMax a b c m => some (encFix 3 4 6 (modIf m.bits) [] a b c)
  | .amoCas a b c m => some (encFix 3 4 7 (modIf m.bits) [] a b c)
  | .amoMinN a b c m => some (encFix 3 5 0 (modIf m.bits) [] a b c)
  | .amoMaxN a b c m => some (encFix 3 5 1 (modIf m.bits) [] a b c)
  | .redAdd a b wide space => some (encRed 0 a b wide space)
  | .redAddF32 a b space => some (encRed 1 a b false space)
  | .redMin a b wide space => some (encRed 2 a b wide space)
  | .redMax a b wide space => some (encRed 3 a b wide space)
  | .redMinN a b wide space => some (encRed 4 a b wide space)
  | .redMaxN a b wide space => some (encRed 5 a b wide space)
  | .redMinF32 a b space => some (encRed 6 a b false space)
  | .redMaxF32 a b space => some (encRed 7 a b false space)
  | .fence scope => some (encJ 3 7 [] (scope.setWidth 11))
  | .fenceX p q scope => some (encJ 3 8 [] (scope ++ (q ++ p)))
  | .dcFlush a b => some (encFix 3 9 0 none [] a b 0)
  | .dcDiscard a b => some (encFix 3 9 1 none [] a b 0)
  | .icsync => some (encJ 3 10 [] 0)
  | .wait a b c all n imm => some (encFix 3 11 (one all ++ n) none (immsS 0 imm) a b c)
  | .barArrive a b n => some (encFix 3 12 0 none (immsU 0 (n.setWidth 64)) a b 0)
  | .barWait a b c => some (encFix 3 12 1 none [] a b c)
  | .gbSync a k => some ⟨pg 3, none, none, [], mkRI 13 a (k.setWidth 7)⟩
  | .msgOpen a => some (encFix 3 14 0 none [] a 0 0)
  | .msgPut a => some (encFix 3 14 1 none [] a 0 0)
  | .msgEnd => some (encFix 3 14 2 none [] 0 0 0)
  | .recv a b => some (encFix 3 14 3 none [] a b 0)
  | .tkSpawn a => some (encFix 3 15 0 none [] a 0 0)
  | .tkDep a b => some (encFix 3 15 1 none [] a b 0)
  | .tkYield => some (encFix 3 15 2 none [] 0 0 0)
  | .tkEnd => some (encFix 3 15 3 none [] 0 0 0)
  | .qlOpen a b => some (encFix 4 1 0 none [] a b 0)
  | .qlClose a => some (encFix 4 1 1 none [] a 0 0)
  | .qlEval op a b c scr => some (encFix 4 2 op (modIf (0#8 ++ one scr)) [] a b c)
  | .qlFold op a b c scr => some (encFix 4 3 op (modIf (0#8 ++ one scr)) [] a b c)
  | .qlSeek op a b c scr => some (encFix 4 4 op (modIf (0#8 ++ one scr)) [] a b c)
  | .qlRec a b c => some (encFix 4 5 0 none [] a b c)
  | .qlGet a b c scr => some (encFix 4 5 1 (modIf (0#8 ++ one scr)) [] a b c)
  | .qlSplit a b c scr => some (encFix 4 5 2 (modIf (0#8 ++ one scr)) [] a b c)
  | .qlApp a b c => some (encFix 4 6 0 none [] a b c)
  | .qlPut a b c => some (encFix 4 6 1 none [] a b c)
  | .qlPub a b renew => some (encFix 4 6 2 (modIf (0#8 ++ one renew)) [] a b 0)
  | .hlCat a b => some (encFix 4 7 0 none [] a b 0)
  | .hlFilt a b c kmask => some (encFix 4 7 1 none (immsU 0 (kmask.setWidth 64)) a b c)
  | .hlRebase a b => some (encFix 4 7 2 none [] a b 0)
  | .hlApply a => some (encFix 4 7 3 none [] a 0 0)
  | .hlDrop a => some (encFix 4 7 4 none [] a 0 0)
  | .hlLen a b => some (encFix 4 7 5 none [] a b 0)
  | .pgPost a b c => some (encFix 5 1 0 none [] a b c)
  | .pgReplay a => some (encFix 5 1 1 none [] a 0 0)
  | .ecall => some (encJ 5 2 [] 0)
  | .ebreak => some (encJ 5 2 [] (1#3 ++ 0#8))
  | .trap e => some (encJ 5 2 [] (2#3 ++ e))
  | _ => none

/-- A leading word of a kind. -/
def leadWord (kind : BitVec 2) (p : BitVec 9) : Half := 31#5 ++ (kind ++ p)

/-- The words of a chain in fetch order (R271, R275). -/
def Chain.words (c : Chain) : List Half :=
  (c.page.map (leadWord 2)).toList ++ ((c.reg.map (leadWord 1)).toList ++
    ((c.md.map (leadWord 3)).toList ++ (c.imms.map (leadWord 0) ++ [c.base])))

/-- The words of an instruction in fetch order; none for a device event. -/
def encode (i : Instr) : List Half :=
  match encodeChain i with
  | some c => c.words
  | none => []

/-- The words of a table row's number: nbits is 16 or 32. The table writes a row's PAGE or MOD word in the high half, the base word in the low half; a number whose low half is a leading word is read low half first. -/
def tableWords (nbits w : Nat) : List Half :=
  let low : Half := BitVec.ofNat 16 w
  let high : Half := BitVec.ofNat 16 (w / 65536)
  if nbits ≤ 16 then (if isLead low then [low, 0] else [low])
  else if isLead low then [low, high] else [high, low]

/-- The instruction the decoder reads from a table row's number. -/
def decodeTableWord (nbits w : Nat) : Option Instr :=
  match decodeWords (tableWords nbits w) with
  | .instr i _ => some i
  | _ => none

end Sys2Proof
end

