-- ==== Sys2Proof/Machine/Faults.lean ====
section
/-! DEFINITION. Stops and frame saves, sl.cmd, the watchdog, fences and uncorrectable errors (R89, R240, R243 to R247). -/

namespace Sys2Proof.Machine

/-! ### Stops (R89, R243) -/

/-- A stop takes effect at a boundary: none inside a packet (R125), nor before an apply that has written is complete (R166). -/
def Slot.atBoundary (sl : Slot) : Bool := (sl.st == .run || sl.st == .waiting) && sl.packet.isNone && sl.stall.isEmpty

/-- A deferred load of a slot is cancelled (R327). -/
def State.dropDefer (s : State) (slot : Nat) : State := { s with deferrals := s.deferrals.filter fun d => d.slot != slot }

/-- A stop takes effect: a pre-empted slot issues no more until its frame is saved, a watchdog's one traps, a kill saves nothing (R243, R244, R246). -/
def State.stopTake (s : State) (slot : Nat) : State :=
  let sl := s.slot slot
  let s1 := (s.dropDefer slot).postAbandon slot
  if !sl.atBoundary then s
  else match sl.stop with
    | none => s
    | some .preempt => s1.modSlot slot fun q => { q with st := .stopped, held := false }
    | some .watchdog => s1.takeTrap slot Cause.watchdog 0 0
    | some .kill => match sl.task with
      | some key => s1.killTask key
      | none => s1

/-- STOP_TAKE_EFFECT (R243). -/
def execStopTakeEffect (slot : Nat) (s : State) : Out := .next (s.stopTake slot)

/-- The frame of a stopped slot is saved: its task is READY, pinned, with its grove as origin (R85, R89, R93). A task killed meanwhile leaves the slot idle; one whose spill fails a check is FAULTED, and the slot stopped by the record (R56, R211). While a page of the spill waits, so does the save (R139, R223). -/
def State.saveDone (s : State) (slot : Nat) : State :=
  let sl := s.slot slot
  match sl.task with
  | none => s.freeSlot slot
  | some key => match s.tasks.find key with
    | none => s.freeSlot slot
    | some _ =>
      if !s.windowRoom (groveOf slot) || s.saveWaits slot key then s
      else match s.saveTask slot key with
        | (s1, none) => (s1.freeSlot slot).enqueue key (groveOf slot)
        | (s1, some f) =>
          (((s1.taskState key .faulted).modSlot slot fun q => { q with st := .stopped, stop := none, held := false }).holdRecord slot (some key) f).report slot

/-- FRAME_SAVE_COMPLETE: the save of a pre-empted slot, or the one that a trapped slot still waits for (R89, R237). -/
def execFrameSaveComplete (slot : Nat) (s : State) : Out :=
  let sl := s.slot slot
  .next (
    if sl.st == .stopped && sl.stop == some .preempt then s.saveDone slot
    else if sl.st == .stopped && sl.saving then s.trapSaved slot
    else s)

/-! ### sl.cmd (R240) -/

/-- The FAULTED tasks at a record address. -/
def State.faultedAt (s : State) (va : Nat) : List Nat := (s.tasks.filter fun q => q.2.va == va && q.2.st == .faulted).map (·.1)

/-- A command of sl.cmd completes: status, and busy 0. -/
def State.slReply (s : State) (p : Pending) (status : Nat) : State :=
  s.modCore p.core fun c => { c with slCmd := BitVec.ofNat 64 (at_ status 60 + p.word.toNat % 2 ^ 60) }

/-- Serve the oldest command if it is the given operation, or an unknown one. Two contexts may have a FAULTED task at one address: which is meant is open. -/
def State.slServe (s : State) (op : Nat) (f : State → Nat → Option State) : State :=
  match s.slQ with
  | [] => s
  | p :: rest =>
    let o := bits p.word.toNat 2 0
    let s1 := { s with slQ := rest }
    if o = 0 || 3 < o then s1.slReply p 2
    else if o ≠ op then s
    else
      let ks := s.faultedAt (bits p.word.toNat 47 6 * 64)
      if ks.isEmpty then s1.slReply p 1
      else
        let (i, s2) := if ks.length = 1 then (0, s1) else s1.freeIndex ks.length
        match f s2 ((ks[i]?).getD 0) with
        | some s3 => s3.slReply p 0
        | none => s2.slReply p 1

/-- RESUME of a task; one whose registers were lost can only be abandoned (R245). -/
def slResume1 (s : State) (key : Nat) : Option State :=
  match s.tasks.find key with
  | some t => if t.dead then none else some ((s.settleAwait t).resumeTask key)
  | none => none

/-- SL_RESUME (R240). -/
def execSlResume (s : State) : Out := .next (s.slServe 1 slResume1)

/-- The words of the chain at a pc, as a context fetches them; an error where it cannot be read or breaks R275, with the context that a poisoned table page faults (R76). -/
def State.chainWords (s : State) (slot ctx pc : Nat) : Nat → Nat → Scan → Except (Option Nat) Nat
  | 0, _, _ => .error none
  | fuel + 1, k, p =>
    match s.translateRaw ⟨slot, ctx, 0⟩ .fetch .plain (BitVec.ofNat 64 ((pc + 2 * k) % 2 ^ 48)) 2 with
    | .ok a _ => match p.word (BitVec.ofNat 16 (natOf (s.devRead a 2))) with
      | .whole _ => .ok (k + 1)
      | .broken => .error none
      | .more p' => s.chainWords slot ctx pc fuel (k + 1) p'
    | r => .error r.raises

/-- The saved pc of a task moves past the faulting instruction, in the frame and in the record; a wait that the watchdog stopped is not open any more (R240). How far past words that are no instruction is open. -/
def State.skipPc (s : State) (t : Task) : State :=
  let bs := s.frameRead t.slot
  let pc := field bs 4480 8 % 2 ^ 48
  let s := s.walkTouch t.ctx ((List.range 6).map fun k => pc + 2 * k)
  let (n, s1) := match s.chainWords t.slot t.ctx pc 6 0 Scan.start with
    | .ok n => (n, s)
    | .error c =>
      let (i, s1) := s.freeIndex 6
      (i + 1, s1.raiseIf c)
  let new := (pc + 2 * n) % 2 ^ 48
  ((s1.frameWrite t.slot 4480 (bytesOf 8 new)).recWrite t.half 0 (bytesOf 6 new)).setTask (taskKey t.ctx t.va)
    { t with frame := t.frame.map fun b => { b with wait := none } }

/-- SKIP: as RESUME, past the faulting instruction; a refused commit is tried again. -/
def slSkip1 (s : State) (key : Nat) : Option State :=
  match s.tasks.find key with
  | some t =>
    if t.dead then none
    else
      let s1 := if t.refused then s else s.skipPc t
      some ((s1.settleAwait t).resumeTask key)
  | none => none

/-- SL_SKIP (R240). -/
def execSlSkip (s : State) : Out := .next (s.slServe 2 slSkip1)

/-- ABANDON: a class D task is killed and its group BROKEN with cause 11; a class C or T task re-runs from its first half. -/
def slAbandon1 (s : State) (key : Nat) : Option State :=
  match s.tasks.find key with
  | some t =>
    some (if t.cls == 1 || t.cls == 2 then s.rerun key else (s.breakGroup t.grp 11).killTask key)
  | none => none

/-- SL_ABANDON (R240). -/
def execSlAbandon (s : State) : Out := .next (s.slServe 3 slAbandon1)

/-! ### The watchdog (R246) -/

/-- A slot's task has run for the limit of wd.ctl without a suspension point. -/
def State.overrun (s : State) (slot : Nat) : Bool :=
  let sl := s.slot slot
  let run := (s.grove (groveOf slot)).wdRun.toNat
  run != 0 && sl.task.isSome && (sl.st == .run || sl.st == .waiting) && sl.stop.isNone && decide (sl.since + run ≤ s.tick.toNat)

/-- WATCHDOG_EXPIRY: the stop arrives (R246). -/
def execWatchdogExpiry (slot : Nat) (s : State) : Out :=
  .next (if s.overrun slot then s.modSlot slot fun q => { q with stop := some .watchdog, held := false } else s)

/-! ### Fences (R246, R247) -/

/-- A task holds every lock of its commit. -/
def State.holdsLocks (s : State) (key : Nat) : Bool := s.commits.any fun c => c.task == key && c.todo.isEmpty

/-- A task has a place on a grove: it runs, is suspended, faulted or committing there, or is pinned there (R247). -/
def Task.onGrove (t : Task) (g : Nat) : Bool :=
  match t.st with
  | .running | .suspended | .faulted | .committing => groveOf t.slot == g
  | .ready => match t.pin with
    | some k => groveOf k == g
    | none => false
  | .gated | .counting | .aborted | .done => false

/-- A sector becomes poison (R65). -/
def State.poisonSec (s : State) (sec : Nat) : State :=
  { s with poison := if s.poison.contains sec then s.poison else insertBy id sec s.poison }

/-- The dirty sectors that a grove holds as home are read out to memory, one that cannot be read as poison (R247). -/
def State.salvage (s : State) (g : Nat) : State :=
  ((s.dirty.filter fun q => s.home (q.1 * 128) q.2.inter == g).map (·.1)).foldl (fun st sec =>
    let (lost, s1) := st.freeChoice
    (if lost then s1.poisonSec sec else s1).writeBack1 sec) s

/-- The slots of a fenced grove that run no task stop for good, and the engine commands that ended tasks have left at idle slots are abandoned (R244, R247). -/
def State.fenceSlots (s : State) (g : Nat) : State :=
  (List.range 32).foldl (fun st i =>
    let k := g * 32 + i
    if (st.slot k).task.isNone && ((st.slot k).st == .run || (st.slot k).st == .waiting) then (st.stripSlot k).freeSlot k else st.engAbandon k) s

/-- A grove is fenced: issue stops, class C and T tasks re-run unless they hold every commit lock, groups with a class D task there break with cause 9, and its home service moves (R115, R247). -/
def State.fence (s : State) (g : Nat) : State :=
  if (s.grove g).fenced then s
  else
    let there := s.tasks.filter fun q => q.2.onGrove g
    let s1 := s.salvage g
    let reg := (s1.grove g).barReg
    let s2 := s1.modGrove g fun q => { q with fenced := true, barReg := [] }
    let s3 := s2.modGrove (s2.standIn g) fun q => { q with barReg := q.barReg ++ reg }
    let ct := there.filter fun q => (q.2.cls == 1 || q.2.cls == 2) && !s.holdsLocks q.1
    let d := there.filter fun q => q.2.cls == 0
    let s4 := (byCore ct).foldl State.rerun s3
    let s5 := (nub (d.map fun q => q.2.grp)).foldl (fun st n => st.breakGroup n 9) s4
    s5.fenceSlots g

/-- A ping of a user grove is due: hang ticks after the last one (R246). -/
def State.pingDue (s : State) (grove : Nat) : Bool :=
  (s.logical grove).isSome && !(s.grove grove).fenced && decide ((s.grove grove).pingAt ≤ s.tick.toNat)

/-- HANG_PING: the ping of a user grove that is due; one that misses two successive pings is fenced (R246). -/
def execHangPing (grove : Nat) (answered : Bool) (s : State) : Out :=
  .next (
    if !s.pingDue grove then s
    else
      let s1 := s.modGrove grove fun g => { g with
        pingAt := s.tick.toNat + g.wdHang.toNat, missed := if answered then 0 else g.missed + 1 }
      if 2 ≤ (s1.grove grove).missed then s1.fence grove else s1)

/-- FIRMWARE_FENCE (R246). -/
def execFirmwareFence (grove : Nat) (s : State) : Out := .next (s.fence grove)

/-! ### Uncorrectable errors (R245) -/

/-- The grove's count of uncorrectable errors, saturating. -/
def State.uncorrUp (s : State) (g : Nat) : State :=
  s.modGrove g fun q => { q with uncorr := if q.uncorr = 0xFFFF#16 then q.uncorr else q.uncorr + 1 }

/-- A sector turns out uncorrectable: it is poison, and of a dirty one the copy in memory may be so too, a free choice (R65, R245). -/
def State.loseSec (s : State) (sec : Nat) : State :=
  match s.dirty.find sec with
  | some d =>
    let (both, s1) := s.freeChoice
    if both then { s1 with dirty := s1.dirty.put sec { d with poison := true } }.poisonSec sec else s1.poisonSec sec
  | none => s.poisonSec sec

/-- The entry at a place of a list goes. -/
def dropNth {α : Type} (l : List α) (i : Nat) : List α := l.take i ++ l.drop (i + 1)

/-- Entry i of a core's caches goes: its data TLB, its instruction TLB, its instruction cache, in that order. -/
def Core.cacheDrop (c : Core) (i : Nat) : Core :=
  let a := c.dtlb.length
  let b := a + c.itlb.length
  if i < a then { c with dtlb := dropNth c.dtlb i }
  else if i < b then { c with itlb := dropNth c.itlb (i - a) }
  else { c with icache := dropNth c.icache (i - b) }

/-- The entries of a core's caches. -/
def Core.cacheSize (c : Core) : Nat := c.dtlb.length + c.itlb.length + c.icache.length

/-- A parity error in a cache of a grove drops the entry, which is fetched again when it is needed: one of the second-level TLB, the rule-result cache, or a core's TLBs and instruction cache, a free choice (R245). -/
def State.cacheDrop (s : State) (g : Nat) : State :=
  let gr := s.grove g
  let a := gr.l2tlb.length
  let b := a + gr.results.length
  let all := (List.range 8).foldl (fun n k => n + (s.core (g * 8 + k)).cacheSize) b
  if all = 0 then s
  else
    let (i, s1) := s.freeIndex all
    if i < a then s1.setGrove g { gr with l2tlb := dropNth gr.l2tlb i }
    else if i < b then s1.setGrove g { gr with results := dropNth gr.results (i - a) }
    else
      ((List.range 8).foldl (fun (acc : State × Option Nat) k =>
        let c := acc.1.core (g * 8 + k)
        match acc.2 with
        | some j => if j < c.cacheSize then (acc.1.setCore (g * 8 + k) (c.cacheDrop j), none) else (acc.1, some (j - c.cacheSize))
        | none => acc) (s1, some (i - b))).1

/-- The registers of a slot are lost: it traps POISON, and its task can only be abandoned. A slot that is pre-empted, its frame not yet saved, holds them still; of one that has trapped and not yet saved them, the task is lost alone. -/
def State.loseSlot (s : State) (slot : Nat) : State :=
  let sl := s.slot slot
  if sl.saving then
    match sl.task with
    | some key => s.modTask key fun t => { t with dead := true }
    | none => s
  else if sl.st == .run || sl.st == .waiting || (sl.st == .stopped && sl.stop == some .preempt) then
    let s1 := ((s.dropDefer slot).postAbandon slot).takeTrap slot Cause.poison 0 0
    match sl.task with
    | some key => s1.modTask key fun t => { t with dead := true }
    | none => s1
  else s

/-- The grove that counts an error. -/
def errGrove : ErrUnit → Nat
  | .registers slot => groveOf slot
  | .tcm core _ => groveOfCore core
  | .scratch g _ => g
  | .latent g => g
  | .updateOnly core _ => groveOfCore core
  | .cached g => g
  | .sector g _ => g
  | .tags g => g

/-- What an uncorrectable error does to its unit (R245). -/
def State.errEffect (s : State) : ErrUnit → State
  | .registers slot => s.loseSlot slot
  | .tcm core off => s.modGrove (groveOfCore core) fun g => { g with
      poisonTcm := if g.poisonTcm.contains (core, off / 8) then g.poisonTcm else g.poisonTcm ++ [(core, off / 8)] }
  | .scratch n off => s.modGrove n fun g => { g with
      poisonScr := if g.poisonScr.contains (off / 8) then g.poisonScr else g.poisonScr ++ [off / 8] }
  | .latent n => s.modGrove n fun g => { g with poisonLat := true }
  | .updateOnly core pa =>
    if (s.core core).holdsUpd (sectorOf pa) then
      (s.modCore core fun c => { c with upd := c.upd.filter fun e => sectorOf e.pa != sectorOf pa }).poisonSec (sectorOf pa)
    else s
  | .cached g => s.cacheDrop g
  | .sector _ pa => s.loseSec (sectorOf pa)
  | .tags g => s.fence g

/-- UNCORRECTABLE_ERROR: counted, then its effect (R245). -/
def execUncorrectableError (unit : ErrUnit) (s : State) : Out := .next ((s.uncorrUp (errGrove unit)).errEffect unit)

end Sys2Proof.Machine
end

