-- ==== Sys2Proof/Machine/Fetch.lean ====
section
/-! DEFINITION. Which slot can issue, and the fetch and decoding of its next chain (R153, R243, R276, R277, R281, R427). -/

namespace Sys2Proof.Machine

/-- A slot issues: it runs, no stop waits at its boundary (an open packet defers one), no apply of it waits for the replay window, and its grove is not fenced (R100, R243, R247). -/
def State.canRun (s : State) (slot : Nat) : Bool :=
  let sl := s.slot slot
  sl.st == .run && sl.stall.isEmpty && (sl.stop.isNone || sl.packet.isSome) && !(s.grove (groveOf slot)).fenced

/-- A slot that issues and is not held by what it waits for. -/
def State.ready (s : State) (slot : Nat) : Bool := s.canRun slot && !(s.slot slot).held

/-- A word enters the core's instruction cache of 32 KiB, which drops a word of its own choice where it is full (R20). -/
def State.icachePut (s : State) (p : Nat) (w : Half) : State :=
  let c := s.myCore.icache
  if c.length < 16384 || (c.find p).isSome then s.modMyCore fun k => { k with icache := c.put p w }
  else
    let (i, s1) := s.freeIndex c.length
    s1.modMyCore fun k => { k with icache := PMap.put (c.take i ++ c.drop (i + 1)) p w }

/-- A 16-bit word as the core's instruction cache and its home give it: where they differ, either (R153, log 11). -/
def State.codeAt (s : State) (p : Nat) : Half × State :=
  let s1 := s.recallRange p 2
  let mem : Half := BitVec.ofNat 16 (natOf (s1.peek p 2))
  match s1.myCore.icache.find p with
  | none => (mem, s1.icachePut p mem)
  | some old =>
    if old = mem then (mem, s1)
    else
      let (b, s2) := s1.freeChoice
      if b then (old, s2) else (mem, s2.icachePut p mem)

/-- Fetch the word at an address: untranslated on the firmware column, else through the instruction TLB (R277, R427). -/
def State.fetchWord (s : State) (a : Addr) : Got Half :=
  if s.isFw s.cur then
    if isDevice a.toNat && isDevice (a.toNat + 1) then
      (if s.locked a.toNat 2 then .no (.hold s)
      else if s.poisoned a.toNat 2 then .no (.trap s Cause.poison (a.setWidth 64) 0)
      else
        let (w, s1) := s.codeAt a.toNat
        .ok w s1)
    else .no (.trap s Cause.permission (a.setWidth 64) 0)
  else
    match s.translate (coreOf s.cur) ⟨s.cur, s.me.ctx, 0⟩ .fetch .plain (a.setWidth 64) 2 true false with
    | (.ok p _, s1) =>
      if s1.locked p 2 then .no (.hold s1)
      else if s1.poisoned p 2 then .no (.trap s1 Cause.poison (a.setWidth 64) 0)
      else
        let (w, s2) := s1.codeAt p
        .ok w s2
    | (.fail f, s1) => .no (.xfault s1 f (a.setWidth 64))
    | (.deny cause, s1) => .no (.trap s1 cause (a.setWidth 64) 0)
    | (.wait, s1) => .no (.hold s1)

/-- What a fetch gives: a whole chain and its words, the place of a word that breaks R275, or a stop. -/
inductive Fetched
  | chain (c : Chain) (n : Nat) (s : State)
  | broken (n : Nat) (s : State)
  | bad (e : Eff)

/-- Fetch words from an address on until the chain is whole: fuel bounds the words, k counts them. -/
def State.fetchGo (pc : Addr) : Nat → State → Nat → Scan → Fetched
  | 0, s, k, _ => .broken k s
  | fuel + 1, s, k, p =>
    match s.fetchWord (pc + BitVec.ofNat 48 (2 * k)) with
    | .no e => .bad e
    | .ok w s1 =>
      match p.word w with
      | .whole c => .chain c (k + 1) s1
      | .broken => .broken k s1
      | .more p' => State.fetchGo pc fuel s1 (k + 1) p'

/-- The check of R276 at a control transfer: the word below the target must not be a leading word. A read that would fault counts as none, but for the FAULT event that a poisoned table page raises (R76); one that waits, for a lock or a link that trains, is waited for. -/
def State.belowIsLead (s : State) : Got Bool :=
  match s.fetchWord (s.me.pc - 2) with
  | .ok w s1 => .ok (isLead w) s1
  | .no (.hold s1) => .no (.hold s1)
  | .no (.xfault s1 f _) => .ok false (s1.raiseIf (XRes.fail f).raises)
  | .no (.trap s1 _ _ _) => .ok false s1
  | .no (.next _) | .no (.jump _ _) | .no (.left _) => .ok false s

/-- The instruction at the slot's pc, with the slot ready to execute it; or the trap that its fetch raises (R276, R277). Words that are no instruction give UNASSIGNED_ENCODING, which traps (R275, R281, R296). -/
def State.fetch (s : State) : Got Instr :=
  let pc := s.me.pc
  (if s.me.xfer then s.belowIsLead else .ok false s).bind fun lead s0 =>
    if lead then .no (.trap s0 Cause.illegalChain ((pc - 2).setWidth 64) 0)
    else
      match State.fetchGo pc 6 s0 0 Scan.start with
      | .bad e => .no e
      | .broken n s1 => .ok (.unassignedEncoding true ((pc + BitVec.ofNat 48 (2 * n)).setWidth 64)) s1
      | .chain c n s1 =>
        let s2 := s1.modMe fun q => { q with npc := pc + BitVec.ofNat 48 (2 * n), xfer := false }
        match decodeChain c with
        | some i => .ok i s2
        | none => .ok (.unassignedEncoding false 0) s2

/-- The first slot of the firmware column (R14, R427). -/
def State.firstFw (s : State) : Nat := gridIndex s.fwcol.toNat 0 * 32

/-- Words at the pc of the first firmware slot, which is made to issue them next: no agenda, boot over, the slot running with no stop, packet or hold, its grove not fenced, and no lock, private copy or stale instruction byte there (log 6). -/
def State.placeWords (s : State) (ws : List Half) : State :=
  let k := s.firstFw
  let bs := (ws.map fun w => bytesOf 2 w.toNat).flatten
  let pc := (s.slot k).pc.toNat
  let s1 := { s with
    agenda := [], boot := .up, cur := k, mem := memWrite s.mem pc bs
    poison := s.poison.filter fun sec => !(sectorsOf pc bs.length).contains sec
    commits := s.commits.map fun (c : Commit) => { c with held := c.held.filter fun k => !(sectorsOf pc bs.length).contains k }
    cores := s.cores.map fun (q : Nat × Core) => (q.1, { q.2 with upd := q.2.upd.filter fun e => !(sectorsOf pc bs.length).contains (sectorOf e.pa) }) }
  let s2 := s1.modSlot k fun q => { q with st := .run, held := false, stall := [], stop := none, packet := none, xfer := false, wait := none }
  let s3 := s2.modCore (coreOf k) fun c => { c with icache := [] }
  s3.modGrove (groveOf k) fun g => { g with fenced := false }

/-- A chain that breaks R275 or decodes to nothing: ILLEGAL_CHAIN with the address of the first word that breaks a rule, or ILLEGAL with 0 (R275, R281, R296). -/
def execUnassignedEncoding (chain : Bool) (addr : Word) (s : State) : Out :=
  finish (.trap s (if chain then Cause.illegalChain else Cause.illegal) addr 0)

end Sys2Proof.Machine
end

