-- ==== Sys2Proof/Machine/Scalar.lean ====
section
/-! DEFINITION. Page 0: integer arithmetic, compares and the predicate stack, branches and calls (R295, R297 to R310). -/

namespace Sys2Proof.Machine

/-! ### Arithmetic (R303) -/

/-- Product of two signed words, exact. -/
def mulS (a b : Word) : Int := a.toInt * b.toInt

/-- Quotient truncated toward zero; -1 for a zero divisor, -2^63 for the one overflowing quotient (R303). -/
def divS (a b : Word) : Word :=
  if b = 0 then -1 else if a = BitVec.ofNat 64 (2 ^ 63) && b = -1 then BitVec.ofNat 64 (2 ^ 63) else BitVec.ofInt 64 (a.toInt.tdiv b.toInt)

/-- Remainder with the sign of the dividend; the dividend for a zero divisor, 0 for the one overflowing quotient (R303). -/
def remS (a b : Word) : Word :=
  if b = 0 then a else if a = BitVec.ofNat 64 (2 ^ 63) && b = -1 then 0 else BitVec.ofInt 64 (a.toInt.tmod b.toInt)

/-- 1 or 0. -/
def boolWord (b : Bool) : Word := if b then 1 else 0

/-- Leading zero bits among the low n (R304). -/
def leadZeros (a : Word) : Nat → Nat
  | 0 => 0
  | n + 1 => if a.getLsbD n then 0 else leadZeros a n + 1

/-- Trailing zero bits from bit 64 - n up (R304). -/
def trailZeros (a : Word) : Nat → Nat
  | 0 => 0
  | n + 1 => if a.getLsbD (63 - n) then 0 else trailZeros a n + 1

/-- Set bits among the low n (R304). -/
def popCount (a : Word) : Nat → Nat
  | 0 => 0
  | n + 1 => flag (a.getLsbD n) + popCount a n

/-- A register result of two sources. -/
def bin2 (s : State) (d s1 s2 : Reg) (f : Word → Word → Word) : Out := guarded s (.next (s.setX d (f (s.x s1) (s.x s2))))

/-- A register result of one source. -/
def un1 (s : State) (d r : Reg) (f : Word → Word) : Out := guarded s (.next (s.setX d (f (s.x r))))

/-- add (R303). -/
def execAdd (d s1 s2 : Reg) (st : State) : Out := bin2 st d s1 s2 fun a b => a + b

/-- sub (R303). -/
def execSub (d s1 s2 : Reg) (st : State) : Out := bin2 st d s1 s2 fun a b => a - b

/-- and (R303). -/
def execAnd (d s1 s2 : Reg) (st : State) : Out := bin2 st d s1 s2 fun a b => a &&& b

/-- or (R303). -/
def execOr (d s1 s2 : Reg) (st : State) : Out := bin2 st d s1 s2 fun a b => a ||| b

/-- xor (R303). -/
def execXor (d s1 s2 : Reg) (st : State) : Out := bin2 st d s1 s2 fun a b => a ^^^ b

/-- sll (R303). -/
def execSll (d s1 s2 : Reg) (st : State) : Out := bin2 st d s1 s2 fun a b => a <<< (b.toNat % 64)

/-- srl (R303). -/
def execSrl (d s1 s2 : Reg) (st : State) : Out := bin2 st d s1 s2 fun a b => a >>> (b.toNat % 64)

/-- sra (R303). -/
def execSra (d s1 s2 : Reg) (st : State) : Out := bin2 st d s1 s2 fun a b => a.sshiftRight (b.toNat % 64)

/-- mul (R303). -/
def execMul (d s1 s2 : Reg) (st : State) : Out := bin2 st d s1 s2 fun a b => BitVec.ofInt 64 (mulS a b)

/-- mulh (R303). -/
def execMulh (d s1 s2 : Reg) (st : State) : Out := bin2 st d s1 s2 fun a b => BitVec.ofInt 64 (mulS a b / 2 ^ 64)

/-- div (R303). -/
def execDiv (d s1 s2 : Reg) (st : State) : Out := bin2 st d s1 s2 fun a b => divS a b

/-- rem (R303). -/
def execRem (d s1 s2 : Reg) (st : State) : Out := bin2 st d s1 s2 fun a b => remS a b

/-- min (R303). -/
def execMin (d s1 s2 : Reg) (st : State) : Out := bin2 st d s1 s2 fun a b => if a.slt b then a else b

/-- max (R303). -/
def execMax (d s1 s2 : Reg) (st : State) : Out := bin2 st d s1 s2 fun a b => if a.slt b then b else a

/-- slt (R303). -/
def execSlt (d s1 s2 : Reg) (st : State) : Out := bin2 st d s1 s2 fun a b => boolWord (a.slt b)

/-- sext.b (R304). -/
def execSextB (d s : Reg) (st : State) : Out := un1 st d s fun a => (a.setWidth 8).signExtend 64

/-- sext.h (R304). -/
def execSextH (d s : Reg) (st : State) : Out := un1 st d s fun a => (a.setWidth 16).signExtend 64

/-- sext.w (R304). -/
def execSextW (d s : Reg) (st : State) : Out := un1 st d s fun a => (a.setWidth 32).signExtend 64

/-- zext.b (R304). -/
def execZextB (d s : Reg) (st : State) : Out := un1 st d s fun a => (a.setWidth 8).setWidth 64

/-- zext.h (R304). -/
def execZextH (d s : Reg) (st : State) : Out := un1 st d s fun a => (a.setWidth 16).setWidth 64

/-- zext.w (R304). -/
def execZextW (d s : Reg) (st : State) : Out := un1 st d s fun a => (a.setWidth 32).setWidth 64

/-- clz (R304). -/
def execClz (d s : Reg) (st : State) : Out := un1 st d s fun a => BitVec.ofNat 64 (leadZeros a 64)

/-- ctz (R304). -/
def execCtz (d s : Reg) (st : State) : Out := un1 st d s fun a => BitVec.ofNat 64 (trailZeros a 64)

/-- popc (R304). -/
def execPopc (d s : Reg) (st : State) : Out := un1 st d s fun a => BitVec.ofNat 64 (popCount a 64)

/-! ### Immediate forms (R305) -/

/-- addi (R305). -/
def execAddi (d s : Reg) (imm : Word) (st : State) : Out := un1 st d s fun a => a + imm

/-- andi (R305). -/
def execAndi (d s : Reg) (imm : Word) (st : State) : Out := un1 st d s fun a => a &&& imm

/-- ori (R305). -/
def execOri (d s : Reg) (imm : Word) (st : State) : Out := un1 st d s fun a => a ||| imm

/-- xori (R305). -/
def execXori (d s : Reg) (imm : Word) (st : State) : Out := un1 st d s fun a => a ^^^ imm

/-- slli (R305). -/
def execSlli (d s : Reg) (sh : BitVec 6) (st : State) : Out := un1 st d s fun a => a <<< sh.toNat

/-- srli (R305). -/
def execSrli (d s : Reg) (sh : BitVec 6) (st : State) : Out := un1 st d s fun a => a >>> sh.toNat

/-- srai (R305). -/
def execSrai (d s : Reg) (sh : BitVec 6) (st : State) : Out := un1 st d s fun a => a.sshiftRight sh.toNat

/-- slti (R305). -/
def execSlti (d s : Reg) (imm : Word) (st : State) : Out := un1 st d s fun a => boolWord (a.slt imm)

/-! ### Compares and the predicate stack (R300 to R302) -/

/-- Push one entry; ILLEGAL at depth 16 (R301). -/
def push (s : State) (c : Bool) : Eff :=
  let sl := s.me
  if 16 ≤ sl.prDepth.toNat then .trap s Cause.illegal 0 0
  else .next (s.modMe fun q => { q with
    prVals := BitVec.ofNat 16 (q.prVals.toNat % 2 ^ q.prDepth.toNat + at_ (flag c) q.prDepth.toNat)
    prDepth := q.prDepth + 1 })

/-- Entry k of the stack. -/
def Slot.entry (sl : Slot) (k : Nat) : Bool := sl.prVals.getLsbD k

/-- The conditions of R301 by their f codes. -/
def cond (f : Nat) (a b : Word) : Bool :=
  match f with
  | 0 => a == b
  | 1 => a != b
  | 2 => a.slt b
  | 3 => !a.slt b
  | 4 => a.ult b
  | _ => !a.ult b

/-- A compare of two registers, which executes whatever the guard (R298, R301). -/
def cmp2 (s : State) (f : Nat) (a b : Reg) : Out := always s (push s (cond f (s.x a) (s.x b)))

/-- A compare with an immediate (R301). -/
def cmpImm (s : State) (f : Nat) (a : Reg) (imm : Word) : Out := always s (push s (cond f (s.x a) imm))

/-- cmp.eq (R301). -/
def execCmpEq (a b : Reg) (st : State) : Out := cmp2 st 0 a b

/-- cmp.ne (R301). -/
def execCmpNe (a b : Reg) (st : State) : Out := cmp2 st 1 a b

/-- cmp.lt (R301). -/
def execCmpLt (a b : Reg) (st : State) : Out := cmp2 st 2 a b

/-- cmp.ge (R301). -/
def execCmpGe (a b : Reg) (st : State) : Out := cmp2 st 3 a b

/-- cmp.lt.n (R301). -/
def execCmpLtN (a b : Reg) (st : State) : Out := cmp2 st 4 a b

/-- cmp.ge.n (R301). -/
def execCmpGeN (a b : Reg) (st : State) : Out := cmp2 st 5 a b

/-- cmpi.eq (R301). -/
def execCmpiEq (a : Reg) (imm : Word) (st : State) : Out := cmpImm st 0 a imm

/-- cmpi.lt (R301). -/
def execCmpiLt (a : Reg) (imm : Word) (st : State) : Out := cmpImm st 2 a imm

/-- The stack with its top n entries replaced by given ones, bottom first. -/
def restack (s : State) (n : Nat) (new : List Bool) : State :=
  s.modMe fun q =>
    let keep := q.prDepth.toNat - n
    { q with
      prVals := BitVec.ofNat 16 (q.prVals.toNat % 2 ^ keep + at_ (natOfBits new) keep)
      prDepth := BitVec.ofNat 5 (keep + new.length) }
where
  /-- A number from its bits, least significant first. -/
  natOfBits : List Bool → Nat
    | [] => 0
    | b :: rest => flag b + 2 * natOfBits rest

/-- Replace the top n entries, ILLEGAL where the stack holds fewer (R302). -/
def stackOp (s : State) (n : Nat) (f : Bool → Bool → List Bool) : Out :=
  let sl := s.me
  let d := sl.prDepth.toNat
  always s (if d < n then .trap s Cause.illegal 0 0 else .next (restack s n (f (sl.entry (d - 1)) (sl.entry (d - 2)))))

/-- pand (R302). -/
def execPand (st : State) : Out := stackOp st 2 fun a b => [a && b]

/-- por (R302). -/
def execPor (st : State) : Out := stackOp st 2 fun a b => [a || b]

/-- pnot (R302). -/
def execPnot (st : State) : Out := stackOp st 1 fun a _ => [!a]

/-- pend (R302). -/
def execPend (st : State) : Out := stackOp st 1 fun _ _ => []

/-! ### Branches, jumps and calls (R305 to R310) -/

/-- A target at an offset in halfwords from the chain's first word, modulo 2^48 (R306, R307). -/
def target (s : State) (off : Word) : Addr := s.me.pc + (off + off).setWidth 48

/-- The link value: the address of the chain that follows. -/
def linkValue (s : State) : Word := s.me.npc.setWidth 64

/-- A conditional branch (R306). -/
def branch (s : State) (f : Nat) (a b : Reg) (off : Word) : Out :=
  guarded s (if cond f (s.x a) (s.x b) then .jump s (target s off) else .next s)

/-- beq (R306). -/
def execBeq (a b : Reg) (off : Word) (st : State) : Out := branch st 0 a b off

/-- bne (R306). -/
def execBne (a b : Reg) (off : Word) (st : State) : Out := branch st 1 a b off

/-- blt (R306). -/
def execBlt (a b : Reg) (off : Word) (st : State) : Out := branch st 2 a b off

/-- bge (R306). -/
def execBge (a b : Reg) (off : Word) (st : State) : Out := branch st 3 a b off

/-- blt.n (R306). -/
def execBltN (a b : Reg) (off : Word) (st : State) : Out := branch st 4 a b off

/-- bge.n (R306). -/
def execBgeN (a b : Reg) (off : Word) (st : State) : Out := branch st 5 a b off

/-- jal (R307). -/
def execJal (link : Reg) (off : Word) (st : State) : Out := guarded st (.jump (st.setX link (linkValue st)) (target st off))

/-- call (R307). -/
def execCall (off : Word) (st : State) : Out := guarded st (.jump (st.setX 1 (linkValue st)) (target st off))

/-- The hamper handle of an index and generation (R161). -/
def handleOf (i : Nat) (gen : BitVec 12) : Word := BitVec.ofNat 64 (i + at_ gen.toNat 4)

/-- The lowest FREE hamper index of a slot. -/
def Slot.freeIndex (sl : Slot) : Option Nat := (List.range 16).find? fun i => (sl.hampers.find i).isNone

/-- Open a hamper above the stack: its index leaves FREE and its generation advances (R154, R161, R310). -/
def Slot.openRegion (sl : Slot) (i : Nat) (ret : Addr) : Slot :=
  let g := sl.gens.get i 0 + 1
  { sl with gens := sl.gens.put i g, hampers := sl.hampers.put i ⟨.opened, g, [], [], []⟩, stack := ⟨i, ret⟩ :: sl.stack }

/-- call.c: open a collecting region and call (R310). -/
def execCallC (off : Word) (st : State) : Out :=
  let sl := st.me
  guarded st (
    match sl.freeIndex with
    | some i =>
      if 8 ≤ sl.stack.length || 16 ≤ sl.hampers.length then .trap st Cause.hamperCapacity 0 0
      else .jump ((st.setX 1 (linkValue st)).modMe fun q => q.openRegion i sl.npc) (target st off)
    | none => .trap st Cause.hamperCapacity 0 0)

/-- jalr: an odd target traps MISALIGNED with nothing written (R308). -/
def execJalr (link b : Reg) (off : Word) (st : State) : Out :=
  let t : Addr := (st.x b + off).setWidth 48
  guarded st (if t.getLsbD 0 then .trap st Cause.misaligned (t.setWidth 64) 0 else .jump (st.setX link (linkValue st)) t)

/-- Close the innermost region: its hamper is CLOSED and x4 receives the handle (R310). -/
def Slot.closeRegion (sl : Slot) : Slot :=
  match sl.stack with
  | r :: rest =>
    match sl.hampers.find r.index with
    | some h => { sl with hampers := sl.hampers.put r.index { h with st := .closed }, stack := rest }.setXr 4 (handleOf r.index h.gen)
    | none => { sl with stack := rest }
  | [] => sl

/-- ret: return, closing the region whose return address it meets; one that would skip an inner region traps ILLEGAL (R309, R310). -/
def execRet (st : State) : Out :=
  let sl := st.me
  let t : Addr := (st.x 1).setWidth 48
  guarded st (
    if t.getLsbD 0 then .trap st Cause.misaligned (t.setWidth 64) 0
    else match sl.stack with
      | [] => .jump st t
      | r :: rest =>
        if t = r.ret then .jump (st.modMe Slot.closeRegion) t
        else if rest.any fun q => q.ret == t then .trap st Cause.illegal (t.setWidth 64) 0
        else .jump st t)

/-- The hint word has no effect and no guard (R295). -/
def execHint (_ : BitVec 11) (st : State) : Out := always st (.next st)

end Sys2Proof.Machine
end

