-- ==== Sys2Proof/Machine/Float.lean ====
section
/-! DEFINITION. Page 0: scalar floating point, conversions and floating compares (R311 to R314). -/

namespace Sys2Proof.Machine

/-- The format of a scalar type. -/
def ftyFmt : FTy → FFmt
  | .f32 => fmtF32
  | .bf16 => fmtBf16
  | .f16 => fmtF16

/-- A register read as a type; bits above the width are ignored (R311). -/
def asFloat (f : FFmt) (w : Word) : FVal := f.value (w.toNat % 2 ^ f.width)

/-- Write a rounded result with the flags and the generator step that it makes (R43, R311). -/
def State.putFloat (s : State) (d : Reg) (r : Nat × Fp) : State := (s.setFp r.2).setX d (BitVec.ofNat 64 r.1)

/-- A rounded arithmetic result: op takes whether the mode is RD, x[d] and the two sources (R312). -/
def fArith (s : State) (d s1 s2 : Reg) (m : FMod) (op : Bool → FVal → FVal → FVal → FVal × Nat) : Out :=
  let f := ftyFmt m.ty
  let p := s.fp
  let rm := p.mode m.rm.toNat
  guarded s (.next (s.putFloat d
    (p.round f rm m.sat (op (rm == 2) (asFloat f (s.x d)) (asFloat f (s.x s1)) (asFloat f (s.x s2))))))

/-- fadd (R312). -/
def execFadd (d s1 s2 : Reg) (m : FMod) (st : State) : Out := fArith st d s1 s2 m fun rd _ a b => fAdd rd a b

/-- fsub (R312). -/
def execFsub (d s1 s2 : Reg) (m : FMod) (st : State) : Out := fArith st d s1 s2 m fun rd _ a b => fAdd rd a b.neg

/-- fmul (R312). -/
def execFmul (d s1 s2 : Reg) (m : FMod) (st : State) : Out := fArith st d s1 s2 m fun _ _ a b => fMul a b

/-- fdiv (R312). -/
def execFdiv (d s1 s2 : Reg) (m : FMod) (st : State) : Out := fArith st d s1 s2 m fun _ _ a b => fDiv a b

/-- fmadd: x[d] + a × b with one rounding (R312). -/
def execFmadd (d s1 s2 : Reg) (m : FMod) (st : State) : Out := fArith st d s1 s2 m fun rd c a b => fFma rd a b c

/-- fsqrt (R312). -/
def execFsqrt (d s : Reg) (m : FMod) (st : State) : Out := fArith st d s s m fun _ _ a _ => fSqrt a

/-- A result that is not rounded (R312). -/
def fPick (s : State) (d s1 s2 : Reg) (ty : FTy) (op : FVal → FVal → FVal) : Out :=
  let f := ftyFmt ty
  guarded s (.next (s.setX d (BitVec.ofNat 64 (f.round 0 false 0 (op (asFloat f (s.x s1)) (asFloat f (s.x s2)))).1)))

/-- fmin (R312). -/
def execFmin (d s1 s2 : Reg) (ty : FTy) (st : State) : Out := fPick st d s1 s2 ty fMin

/-- fmax (R312). -/
def execFmax (d s1 s2 : Reg) (ty : FTy) (st : State) : Out := fPick st d s1 s2 ty fMax

/-! ### Conversions (R45, R313) -/

/-- The floating format of a conversion code. -/
def cvtFloat : CvtTy → Option FFmt
  | .f32 => some fmtF32
  | .bf16 => some fmtBf16
  | .f16 => some fmtF16
  | .i32 | .i64 | .n32 | .n64 => none

/-- The integer type of a conversion code: signed and width. -/
def cvtInt : CvtTy → Bool × Nat
  | .i32 => (true, 32)
  | .i64 => (true, 64)
  | .n32 => (false, 32)
  | .n64 => (false, 64)
  | .f32 | .bf16 | .f16 => (true, 64)

/-- The value of a source register (R313). -/
def cvtRead (t : CvtTy) (w : Word) : FVal :=
  match cvtFloat t with
  | some f => asFloat f w
  | none =>
    let (signed, n) := cvtInt t
    if signed then finOfInt (sInt n w.toNat) 0 else .fin false (w.toNat % 2 ^ n) 0

/-- Convert a value: the register and the flags (R313). INT32 is written sign-extended, NAT32 zero-extended. -/
def cvtConv (t : CvtTy) (rm r : Nat) (v : FVal) : Nat × Nat :=
  match cvtFloat t with
  | some f => f.round rm false r v
  | none =>
    let (signed, n) := cvtInt t
    let (i, fl) := fToInt false rm r signed n v
    (wrapInt 64 i, fl)

/-- fcvt: in SR mode every conversion takes one generator step (R313). -/
def execFcvt (d s : Reg) (dst src : CvtTy) (rm : BitVec 3) (st : State) : Out :=
  let p := st.fp
  let mode := p.mode rm.toNat
  let p1 := if mode = 4 then p.step else p
  let (b, fl) := cvtConv dst mode (rngBits p1.rng) (cvtRead src (st.x s))
  guarded st (.next (st.putFloat d (b, p1.raise fl)))

/-! ### Compares (R314) -/

/-- A floating compare pushes one entry whatever the guard; a NaN operand sets nv only under a true guard (R298, R314). -/
def fCompare (s : State) (a b : Reg) (ty : FTy) (c : FVal → FVal → Bool) : Out :=
  let f := ftyFmt ty
  let x := asFloat f (s.x a)
  let y := asFloat f (s.x b)
  let nan := x.isNan || y.isNan
  let s1 := if nan && s.me.guard && decide (s.me.prDepth.toNat < 16) then s.setFp (s.fp.raise flagNv) else s
  always s (push s1 (!nan && c x y))

/-- fcmp.eq (R314). -/
def execFcmpEq (a b : Reg) (ty : FTy) (st : State) : Out := fCompare st a b ty fEq

/-- fcmp.lt (R314). -/
def execFcmpLt (a b : Reg) (ty : FTy) (st : State) : Out := fCompare st a b ty fLt

/-- fcmp.le (R314). -/
def execFcmpLe (a b : Reg) (ty : FTy) (st : State) : Out := fCompare st a b ty fun x y => fLt x y || fEq x y

end Sys2Proof.Machine
end

