-- ==== Sys2Proof/Machine/Futures.lean ====
section
/-! DEFINITION. Futures: ld.f, ld.f.take, st.f, the expiry of a deferral and the cancel of a stopped one (R143, R144, R326, R327). -/

namespace Sys2Proof.Machine

/-- The entries that a home's deferral buffer holds. -/
def State.deferCount (s : State) (home : Nat) : Nat := (s.deferrals.filter fun d => d.home == home).length

/-- A load of a future that is empty: TIMEOUT for a life of 0, DEFERRAL_REFUSED at a full buffer, else deferred with the slot waiting (R144). -/
def deferLoad (s : State) (p home : Nat) (take : Bool) (d : Reg) : Eff :=
  let sl := s.me
  if sl.futLife = 0 then .next (s.modMe fun q => { q with futStatus := 1 })
  else if 256 ≤ s.deferCount home then
    .next (s.modMe fun q => { q with futStatus := 2, futRefused := if q.futRefused = 0xFF then 0xFF else q.futRefused + 1 })
  else
    .left (State.modMe { s with deferrals := s.deferrals ++ [⟨s.cur, home, p, take, d, s.tick.toNat + sl.futLife.toNat⟩] } fun q =>
      { q with st := .waiting })

/-- A load of a future at its home (R143). -/
def loadFuture (s : State) (p : Nat) (inter take : Bool) (d : Reg) (addr : Word) : Eff :=
  if s.locked p 8 then .hold s
  else
    let s1 := (s.drainSecs s.cur (sectorsOf p 8)).recallRange p 8
    if s1.poisoned p 8 then .trap s1 Cause.poison addr 0
    else
      let s2 := s1.sigRead s1.cur p 8
      if s2.mixClash p 8 inter then .trap s2 Cause.mixedSize addr 0
      else if s2.isFull p then
        let (bs, s4) := s2.strongRead p 8 p (s2.peek p 8)
        let s3 := ((s4.acquired s4.cur).setX d (BitVec.ofNat 64 (natOf bs))).modMe fun q => { q with futStatus := 0 }
        .next (if take then s3.setTag p false else s3)
      else deferLoad s2 p (s2.home p inter) take d

/-- ld.f and ld.f.take (R326). -/
def ldFuture (a b : Reg) (imm : Word) (take : Bool) (s : State) : Eff :=
  let e := ea (s.x b) imm
  if take && s.me.collecting then .trap s Cause.collectForbidden e 0
  else match s.place .glob false e 8 8 with
    | .glob g _ => (s.xlate .load .future g 8 true e).andThen fun q s1 => loadFuture s1 q.1 q.2 take a e
    | .bad cause => .trap s cause e 0
    | .tcm _ | .scr _ => .trap s Cause.permission e 0

/-- ld.f (R326). -/
def execLdF (a b : Reg) (imm : Word) (s : State) : Out := guarded s (ldFuture a b imm false s)

/-- ld.f.take (R326). -/
def execLdFTake (a b : Reg) (imm : Word) (s : State) : Out := guarded s (ldFuture a b imm true s)

/-- st.f: a FILL entry in collecting mode, else a release and the fill at the home (R143, R326). -/
def execStF (a b : Reg) (imm : Word) (s : State) : Out :=
  let e := ea (s.x b) imm
  guarded s (match s.place .glob false e 8 8 with
    | .glob g _ => (s.xlate .store .future g 8 true e).andThen fun q s1 =>
      if s1.me.collecting then
        (s1.collect [⟨4, 0, g.setWidth 48, s1.x a, [], 0, none, 0⟩] e).andThen fun _ s2 => .next s2
      else s1.release fun s2 =>
        if s2.locked q.1 8 then .hold s2
        else if s2.mixClash q.1 8 q.2 then .trap s2 Cause.mixedSize e 0
        else .next ((s2.fill s2.cur q.1 q.2 (s2.x a) 0).mixRecord q.1 8 q.2)
    | .bad cause => .trap s cause e 0
    | .tcm _ | .scr _ => .trap s Cause.permission e 0)

/-! ### Events -/

/-- A deferral's lifetime has passed: TIMEOUT (R144). -/
def execDeferralExpiry (slot : Nat) (s : State) : Out :=
  .next (match s.deferrals.find? (fun d => d.slot == slot && decide (d.expire ≤ s.tick.toNat)) with
    | some d => s.answer d 1
    | none => s)

/-- A stop has reached a slot whose load is deferred and its cancel precedes the answer: the entry goes, the pc still names the load (R327). -/
def execFutureCancel (slot : Nat) (s : State) : Out :=
  .next (if (s.slot slot).stop.isSome && s.deferrals.any fun d => d.slot == slot then
    { s with deferrals := s.deferrals.filter fun d => d.slot != slot }.modSlot slot fun q => { q with st := .run }
  else s)

end Sys2Proof.Machine
end

