-- ==== Sys2Proof/Machine/Quilt.lean ====
section
/-! DEFINITION. Quilts as the rule path reads them: descriptors, versions, mapping, spines, records and elements; ql.open, ql.close, ql.rec, ql.get and ql.split (R168 to R177, R183, R200, R391, R392, R396). -/

namespace Sys2Proof.Machine

/-! ### The rule path's reads -/

/-- Why a rule-path operation ends. -/
inductive QStop
  | trap (cause : Nat) (addr : Nat)
  | check (f : XFault)
  | checkAt (f : XFault) (addr : Nat)
  | wait
  deriving DecidableEq, Repr

/-- A rule record as read and checked (R176): left is the child of a RUN, right its count; body holds bytes 16 to 123. -/
structure RuleRec where
  addr : Nat
  kind : Nat
  depth : Nat
  length : Nat
  left : Nat
  right : Nat
  body : List Byte
  deriving DecidableEq, Repr

/-- A version that an instruction reads (R170, R173). -/
structure QView where
  qid : Nat
  epoch : Nat
  fmt : Nat
  mapdir : Nat
  nrules : Nat
  length : Nat
  rows : Nat
  spinedir : Nat
  deriving DecidableEq, Repr

/-- What an operation holds as it runs: the module, whose access it is, the records read, the expanded lengths it knows, the keys found and computed, the nodes begun (R197). -/
structure QCtx where
  s : State
  slot : Nat
  ctx : Nat
  memo : PMap RuleRec
  lens : PMap Nat
  seen : List (List Byte)
  found : Nat
  made : Nat
  nodes : Nat
  deriving DecidableEq, Repr

/-- An operation that begins. -/
def QCtx.start (s : State) (slot ctx : Nat) : QCtx := ⟨s, slot, ctx, [], [], [], 0, 0, 0⟩

/-- An operation of the rule engine: what it has written stays where it ends early (R197). -/
abbrev RuleM (α : Type) := ExceptT QStop (StateM QCtx) α

/-- Trap with a cause and an address. -/
def qTrap {α : Type} (cause addr : Nat) : RuleM α := throw (.trap cause addr)

/-- Translate one piece on the rule path (R208, R391). -/
def qPlace (acc : Access) (need : Need) (va n : Nat) : RuleM (Nat × Bool) := do
  let q ← get
  if 2 ^ 48 ≤ va then qTrap Cause.translation va
  else
    let (r, s1) := q.s.translate (coreOf q.slot) ⟨q.slot, q.ctx, 4⟩ acc need (BitVec.ofNat 64 va) n false true
    set { q with s := s1 }
    match r with
    | .ok p inter => if s1.locked p n then throw .wait else pure (p, inter)
    | .fail f => throw (.check f)
    | .deny cause => qTrap cause va
    | .wait => throw .wait

/-- Read bytes at a place, none where a sector is poisoned. It waits at a lock (R139), recalls update-only copies (R142) and sets signature bits in class T (R147, R391). -/
def qTake (p n : Nat) : RuleM (Option (List Byte)) := do
  let q ← get
  if q.s.locked p n then throw .wait
  else
    let s1 := (q.s.recallRange p n).sigRead q.slot p n
    set { q with s := s1 }
    pure (if s1.poisoned p n then none else some (s1.peek p n))

/-- Read bytes; obj is the object whose address a POISON reports (R177). -/
def qRead (need : Need) (obj va n : Nat) : RuleM (List Byte) := do
  let parts ← (pagePieces va n).mapM fun pc => do
    let (p, _) ← qPlace .rule need pc.1 pc.2
    match ← qTake p pc.2 with
    | some bs => pure bs
    | none => qTrap Cause.poison obj
  pure parts.flatten

/-- A field of a quilt structure. -/
def qField (obj va n : Nat) : RuleM Nat := do
  let bs ← qRead .quilt obj va n
  pure (natOf bs)

/-! ### Descriptors and versions (R170, R173) -/

/-- Read and check a descriptor (R170). -/
def qDesc (va : Nat) : RuleM (List Byte) := do
  if va % 128 ≠ 0 then qTrap Cause.misaligned va
  else
    let d ← qRead .quilt va va 128
    if field d 0 4 ≠ 0x514C5431 || 1 < field d 4 1 || 12 < field d 5 1 || field d 7 1 ≠ 0 || field d 14 2 ≠ 0 || field d 88 40 ≠ 0 then
      qTrap Cause.ruleStructure va
    else pure d

/-- The crc of a version record: bytes 4 to 8 are taken as zero (R173). -/
def versionCrc (v : List Byte) : Nat := (crc32c (patch (v.take 124) 4 (zeros 5))).toNat

/-- The view of a version under a descriptor's format. -/
def viewOf (qid epoch fmt : Nat) (v : List Byte) : QView :=
  ⟨qid, epoch, fmt, field v 16 8, field v 24 4, field v 32 6, field v 40 4, field v 48 8⟩

/-! ### Elements (R35, R36, R176) -/

/-- The elements that are cut together: 32 of a block format, 2 of INT4, else 1. -/
def granule (fmt : Nat) : Nat := if (blockOfCode fmt).isSome then 32 else if fmt = 7 then 2 else 1

/-- The bytes of n elements. -/
def elemBytes (fmt n : Nat) : Nat :=
  match blockOfCode fmt with
  | some w => n / 32 * blockBytes w
  | none => n * elemBits fmt / 8

/-- The value that an element has in a summary: FP32 bits, or an INT64 (R188). -/
def isFloatQ (fmt : Nat) : Bool := (fmtOfCode fmt).isSome || (blockOfCode fmt).isSome

/-- The values of packed bytes of a floating quilt. -/
def floatElems (fmt n : Nat) (bs : List Byte) : List FVal :=
  match blockOfCode fmt with
  | some w => ((List.range (n / 32)).map fun i => blockValues w ((bs.drop (i * blockBytes w)).take (blockBytes w))).flatten
  | none => (List.range n).map fun i => match fmtOfCode fmt with
    | some f => f.value (elemAt (elemBits fmt) bs i)
    | none => .nan

/-- The values of packed bytes of an integer quilt. -/
def intElems (fmt n : Nat) (bs : List Byte) : List Int :=
  (List.range n).map fun i => intAt fmt bs i

/-! ### Mapping, records (R174, R176, R177) -/

/-- The record address that a mapping entry gives: one that is not valid traps RULE_STRUCTURE (R174); its reserved bits are not looked at (R5). -/
def qMap (v : QView) (id : Nat) : RuleM Nat := do
  let page ← qField 0 (v.mapdir + 8 * (id / 512)) 8
  let e ← qField 0 (page + 8 * (id % 512)) 8
  if bitAt e 0 then pure (bits e 47 7 * 128) else qTrap Cause.ruleStructure 0

/-- A mapping entry without its reserved bits, as the device reads and writes it (R5, R174). -/
def mapEntry (e : Nat) : Nat := at_ (bits e 47 7) 7 + bits e 0 0

/-- A mapping entry is sound: zero for id 0 and above n, valid for ids 1 to n; reserved bits are ignored (R5, R174). -/
def mapEntryOk (n id e : Nat) : Bool := if id = 0 || decide (n < id) then mapEntry e == 0 else bitAt e 0

/-- Read a whole mapping page, number pg of the directory, its reserved bits as zeros (R5); any entry of it that is not sound traps RULE_STRUCTURE (R174). -/
def qMapPage (v : QView) (pg addr : Nat) : RuleM (List Byte) := do
  let page ← qRead .quilt addr addr 4096
  let es := (List.range 512).map fun i => mapEntry (field page (8 * i) 8)
  if (List.range 512).all fun i => mapEntryOk v.nrules (512 * pg + i) ((es[i]?).getD 0) then pure (es.map (bytesOf 8)).flatten
  else qTrap Cause.ruleStructure 0

/-- The fields of 128 record bytes. -/
def recOf (addr : Nat) (b : List Byte) : RuleRec :=
  let kind := field b 0 1
  ⟨addr, kind, field b 2 1, field b 8 6, field b 16 4, if kind = 3 then field b 20 6 else field b 20 4, (b.drop 16).take 108⟩

/-- The conditions of R176 that the record alone decides. R179 names a BLOCK that is recompressed to a new size among the remaps that keep length and format, while R176 fixes a payload's size by these two: R176 decides, and such a record traps RULE_STRUCTURE (DESIGN CHOICE, log 108). -/
def recOk (fmt id : Nat) (b : List Byte) : Bool :=
  let r := recOf 0 b
  let n := r.length
  field b 1 1 == fmt && field b 3 1 == 0 && field b 14 2 == 0 && field b 4 4 == id && n != 0 && decide (r.depth ≤ 64) &&
  (if r.kind = 1 then
    r.depth == 0 && n % granule fmt == 0 && decide (elemBytes fmt n ≤ 108) && natOf (r.body.drop (elemBytes fmt n)) == 0
  else if r.kind = 4 then
    r.depth == 0 && n % granule fmt == 0 && field b 16 8 % 128 == 0 && decide (field b 24 4 ≤ 2 ^ 20) &&
    field b 24 4 == elemBytes fmt n && field b 32 92 == 0
  else if r.kind = 2 then r.left != 0 && decide (r.left < id) && r.right != 0 && decide (r.right < id) && field b 24 100 == 0
  else if r.kind = 3 then r.left != 0 && decide (r.left < id) && decide (2 ≤ r.right) && field b 26 98 == 0
  else false)

/-- A parent's length and depth follow from its children (R176). -/
def linkOk (r : RuleRec) (l : RuleRec) (q : Option RuleRec) : Bool :=
  match q with
  | some c => r.length == l.length + c.length && r.depth == 1 + (if l.depth < c.depth then c.depth else l.depth)
  | none => r.length == r.right * l.length && r.depth == 1 + l.depth

/-- Keep a record that has been read and checked. -/
def qKeep (id : Nat) (r : RuleRec) : RuleM Unit := modify fun q => { q with memo := q.memo.put id r, lens := q.lens.put id r.length }

/-- The levels that a sound grammar can have, and one. -/
def ruleFuel : Nat := 66

/-- Read and check the record of an id, and the records below it, whose depths are below a bound that the record up sets (R176, R177). Depths fall from at most 64, so that ruleFuel levels are never used up. -/
def qRuleAt (v : QView) : Nat → Nat → Nat → Nat → RuleM RuleRec
  | 0, _, _, up => qTrap Cause.ruleStructure up
  | fuel + 1, id, bound, up => do
    let q ← get
    match q.memo.find id with
    | some r => pure r
    | none =>
      let addr ← qMap v id
      let b ← qRead .quilt addr addr 128
      if (crc32c (b.take 124)).toNat ≠ field b 124 4 then qTrap Cause.checksum addr
      else if !recOk v.fmt id b then qTrap Cause.ruleStructure addr
      else if bound ≤ field b 2 1 then qTrap Cause.ruleStructure up
      else
        let r := recOf addr b
        if r.kind = 1 || r.kind = 4 then do
          qKeep id r
          pure r
        else do
          let l ← qRuleAt v fuel r.left r.depth addr
          let c ← if r.kind = 2 then some <$> qRuleAt v fuel r.right r.depth addr else pure none
          if linkOk r l c then do
            qKeep id r
            pure r
          else qTrap Cause.ruleStructure addr

/-- The record of an id with all below it. -/
def qRule (v : QView) (id : Nat) : RuleM RuleRec := qRuleAt v ruleFuel id 65 0

/-- The packed bytes of a LEAF or BLOCK: a payload is read and checked whole (R177). -/
def qPacked (v : QView) (r : RuleRec) : RuleM (List Byte) := do
  if r.kind = 1 then pure (r.body.take (elemBytes v.fmt r.length))
  else
    let pa := field r.body 0 8
    let bs ← qRead .quilt pa pa (field r.body 8 4)
    if (crc32c bs).toNat ≠ field r.body 12 4 then qTrap Cause.checksum pa else pure bs

/-! ### Spines (R175) -/

/-- A row's spine: its address and entry count; bytes 12 to 15 of its directory entry are reserved and are not looked at (R5). -/
def qSpine (v : QView) (row : Nat) : RuleM (Nat × Nat) := do
  let de := v.spinedir + 16 * row
  let e ← qRead .quilt de de 16
  if field e 0 8 % 16 ≠ 0 || field e 8 4 = 0 then qTrap Cause.ruleStructure de
  else pure (field e 0 8, field e 8 4)

/-- What an entry's offset is held to: a position, the end of the entry before it, which is read for it, or nothing, where the length of the rule before it is not known. -/
inductive Lead
  | start (pos : Nat)
  | back
  | unknown
  deriving DecidableEq, Repr

/-- The fields of entry i of a spine: offset and rule id (R175). -/
def qFields (v : QView) (sp : Nat × Nat) (i : Nat) : RuleM (Nat × Nat) := do
  let ea := sp.1 + 16 * i
  let e ← qRead .quilt ea ea 16
  let off := field e 0 6
  let id := field e 8 4
  if field e 6 2 ≠ 0 || field e 12 4 ≠ 0 || id = 0 || v.nrules < id || off % granule v.fmt ≠ 0 then qTrap Cause.ruleStructure ea
  else pure (off, id)

/-- Entry i of a spine, checked as it is read (R175): the first starts at 0, another where the one before it ends. One that an operation enters a row at looks back: it reads the entry before it with that entry's rule (DEDUCED, log 104). -/
def qEntry (v : QView) (sp : Nat × Nat) (i : Nat) (lead : Lead) : RuleM (Nat × Nat) := do
  let (off, id) ← qFields v sp i
  let want ← (if i = 0 then pure (some 0) else match lead with
    | .start p => pure (some p)
    | .unknown => pure none
    | .back => do
      let (o, k) ← qFields v sp (i - 1)
      let r ← qRule v k
      pure (some (o + r.length)))
  match want with
  | some p => if off ≠ p then qTrap Cause.ruleStructure (sp.1 + 16 * i) else pure (off, id)
  | none => pure (off, id)

/-- Entry i of a spine as an operation enters the row there: checked against the entry before it, and the last one, with its rule, against the row's length (R175). -/
def qProbe (v : QView) (sp : Nat × Nat) (i : Nat) : RuleM (Nat × Nat) := do
  let (off, id) ← qEntry v sp i .back
  if i + 1 = sp.2 then do
    let r ← qRule v id
    if off + r.length ≠ v.length then qTrap Cause.ruleStructure (sp.1 + 16 * i)
  pure (off, id)

/-- Where an entry ends: its offset plus the length of its rule; the last one must end at the row's length (R175). A rule whose result was found is not read for it (R196, R414): its length is known where that rule stands readable or the result's computation had it. -/
def qAfter (v : QView) (sp : Nat × Nat) (i off id : Nat) : RuleM Lead := do
  let q ← get
  match q.lens.find id with
  | none => pure .unknown
  | some n =>
    if i + 1 = sp.2 && off + n ≠ v.length then qTrap Cause.ruleStructure (sp.1 + 16 * i)
    else pure (.start (off + n))

/-- The number of entries whose key is at most a bound, found by halving [lo, lo + n): keys rise along a sound spine. -/
def qSearch (v : QView) (sp : Nat × Nat) (ok : Nat → Nat → Bool) : Nat → Nat → Nat → RuleM Nat
  | 0, lo, _ => pure lo
  | fuel + 1, lo, n =>
    if n = 0 then pure lo
    else do
      let mid := lo + n / 2
      let (off, _) ← qProbe v sp mid
      if ok mid off then qSearch v sp ok fuel (mid + 1) (n - n / 2 - 1) else qSearch v sp ok fuel lo (n / 2)

/-! ### Slices of elements (R396) -/

/-- The packed units of a piece of bytes: one element each, or one granule, as numbers of a unit's bits. -/
def unitSize (fmt : Nat) : Nat :=
  match blockOfCode fmt with
  | some w => blockBytes w * 8
  | none => if fmt = 7 then 8 else elemBits fmt

/-- n granules of a rule's expansion from a granule on, packed. chk looks at every record that is reached. -/
def qSlice (v : QView) (chk : RuleRec → RuleM Unit) : Nat → Nat → Nat → Nat → RuleM (List Byte)
  | 0, _, _, _ => qTrap Cause.ruleStructure 0
  | fuel + 1, id, from_, n => do
    let r ← qRule v id
    chk r
    let gr := granule v.fmt
    let ub := unitSize v.fmt / 8
    if n = 0 then pure []
    else if r.kind = 1 || r.kind = 4 then do
      let bs ← qPacked v r
      pure ((bs.drop (from_ * ub)).take (n * ub))
    else do
      let l ← qRule v r.left
      let len := l.length / gr
      if r.kind = 2 then do
        let k := if from_ < len then (if n < len - from_ then n else len - from_) else 0
        let a ← if k = 0 then pure [] else qSlice v chk fuel r.left from_ k
        let b ← if k = n then pure [] else qSlice v chk fuel r.right (from_ + k - len) (n - k)
        pure (a ++ b)
      else do
        let j0 := from_ / len
        let j1 := (from_ + n - 1) / len
        let parts ← (span j0 (j1 + 1 - j0)).mapM fun j => do
          let lo := if j * len < from_ then from_ - j * len else 0
          let hi := if from_ + n < (j + 1) * len then from_ + n - j * len else len
          qSlice v chk fuel r.left lo (hi - lo)
        pure parts.flatten

/-- n granules of a row from entry i on, the first entry entered at from_: fuel bounds the entries. An entry that ends before from_ leaves a gap, which the entry after it, read next, reports. -/
def qRowSlice (v : QView) (sp : Nat × Nat) : Nat → Nat → Lead → Nat → Nat → RuleM (List Byte)
  | 0, _, _, _, _ => pure []
  | fuel + 1, i, lead, from_, n => do
    if n = 0 then pure []
    else
      let (off, id) ← qEntry v sp i lead
      let r ← qRule v id
      let len := r.length / granule v.fmt
      let k := if n < len - from_ then n else len - from_
      let a ← if k = 0 then pure [] else qSlice v (fun _ => pure ()) ruleFuel id from_ k
      let p ← qAfter v sp i off id
      let b ← if k = n then pure [] else qRowSlice v sp fuel (i + 1) p (from_ - len) (n - k)
      pure (a ++ b)

/-! ### Running an operation for a slot -/

/-- Run an operation of the slot; its traps arise on the rule path (R391). It waits while the grove's engine is stopped by an earlier failed check (R211). -/
def ruleRun {α : Type} (s : State) (m : RuleM α) (k : α → State → Eff) : Eff :=
  if s.myGrove.fsrcRule.awaiting.isSome then .hold s
  else match m.run (QCtx.start s s.cur s.me.ctx) with
  | (.ok v, q) => k v q.s
  | (.error (.trap cause addr), q) => .trap q.s cause (BitVec.ofNat 64 addr) 4
  | (.error (.check f), q) => .xfault q.s f f.addr
  | (.error (.checkAt f a), q) => .xfault q.s f (BitVec.ofNat 64 a)
  | (.error .wait, _) => .hold s

/-- The quilt permission of the slot's context (R71, R391). -/
def State.quiltOk (s : State) : Bool := (s.ctxOf s.me.ctx).perm.getLsbD 0

/-- A ql instruction of a slot: PERMISSION without the quilt permission. -/
def quilted (s : State) (e : Eff) : Out := guarded s (if s.quiltOk then e else .trap s Cause.permission 0 4)

/-- The handle that a word names (R183). -/
def Slot.qhandle (sl : Slot) (w : Word) : Option (Nat × QHandle) :=
  let i := bits w.toNat 1 0
  match sl.qhandles.find i with
  | some h => if bits w.toNat 63 16 = 0 && bits w.toNat 15 2 = h.gen.toNat then some (i, h) else none
  | none => none

/-- The view of a handle's version: the handle's epoch, the descriptor's format (R183). -/
def qView (h : QHandle) : RuleM QView := do
  let d ← qDesc h.desc.toNat
  let v ← qRead .quilt h.ver.toNat h.ver.toNat 128
  pure (viewOf h.qid.toNat h.epoch.toNat (field d 5 1) v)

/-! ### ql.open and ql.close (R183, R392) -/

/-- Read the descriptor and its current version, and take a reader: the version record's address, and the descriptor (R183). -/
def qOpen (va : Nat) : RuleM (Nat × List Byte) := do
  let d ← qDesc va
  let cur := field d 16 8
  let v ← qRead .quilt cur cur 128
  if versionCrc v ≠ field v 124 4 then qTrap Cause.checksum cur
  else
    let (p, _) ← qPlace .atomic .quilt cur 128
    modify fun q => { q with s := q.s.recWrite (p + 4) 0 (bytesOf 4 (field v 4 4 + 1)) }
    pure (cur, d)

/-- The aperture of an opened quilt, known from now on (R169, R186). -/
def State.noteAperture (s : State) (va : Word) (ctx : Nat) (d : List Byte) : State :=
  let rest := s.apertures.filter fun q => !(q.desc == va && q.ctx == ctx)
  if field d 72 8 = 0 then { s with apertures := rest }
  else { s with apertures := rest ++ [⟨field d 72 8, field d 80 8, va, ctx⟩] }

/-- ql.open, once a handle is free: the lowest free index. -/
def openStep (a : Reg) (va : Word) (s : State) : Eff :=
  match (List.range 4).find? fun i => (s.me.qhandles.find i).isNone with
  | none => .trap s Cause.illegal 0 4
  | some i => ruleRun s (qOpen va.toNat) fun r s1 =>
    let g := s1.me.qgens.get i 0 + 1
    let h : QHandle := ⟨g, BitVec.ofNat 64 (field r.2 8 4), BitVec.ofNat 64 (field r.2 12 2), BitVec.ofNat 64 r.1, va⟩
    let s2 := (s1.noteAperture va s1.me.ctx r.2).modMe fun q => { q with qhandles := q.qhandles.put i h, qgens := q.qgens.put i g }
    .next (s2.setX a (BitVec.ofNat 64 (i + at_ g.toNat 2)))

/-- ql.open (R392). -/
def execQlOpen (a b : Reg) (s : State) : Out := quilted s (openStep a (s.x b) s)

/-- A ql instruction on a handle: a wrong one traps ILLEGAL with the handle (R183). -/
def withQuilt (s : State) (w : Word) (k : Nat → QHandle → Eff) : Eff :=
  match s.me.qhandle w with
  | some (i, h) => k i h
  | none => .trap s Cause.illegal w 4

/-- Close a handle at its version record, reached like any place of the rule path (R183, R391). -/
def qClose (ver : Nat) : RuleM Unit := do
  let (p, _) ← qPlace .atomic .quilt ver 128
  match ← qTake p 128 with
  | none => qTrap Cause.poison ver
  | some _ => modify fun q => { q with s := q.s.readerGone p }

/-- ql.close (R392). -/
def execQlClose (a : Reg) (s : State) : Out :=
  quilted s (withQuilt s (s.x a) fun i h =>
    ruleRun s (qClose h.ver.toNat) fun _ s1 => .next (s1.modMe fun q => { q with qhandles := q.qhandles.drop i }))

/-! ### ql.rec, ql.get and ql.split (R200, R396) -/

/-- An area of n bytes at an offset leaves its space: the user area of TCM, or 1 MiB of scratch (R393). -/
def State.areaOut (s : State) (scr : Bool) (off n : Nat) : Bool := decide (s.localEnd (coreOf s.cur) scr < off + n)

/-- Write a result and go on. -/
def putResult (scr : Bool) (off : Nat) (bs : List Byte) (s : State) : Eff := .next (s.localWrite (coreOf s.cur) scr off bs)

/-- ql.rec: a record's 128 bytes, checked. -/
def recStep (o v : Word) (h : QHandle) (s : State) : Eff :=
  if o.toNat % 8 ≠ 0 then .trap s Cause.misaligned 0 4
  else if s.areaOut false o.toNat 128 then .trap s Cause.permission 0 4
  else if bits v.toNat 63 32 ≠ 0 then .trap s Cause.illegal 0 4
  else
    let read : RuleM (List Byte) := do
      let w ← qView h
      let id := v.toNat
      if id = 0 || w.nrules < id then qTrap Cause.permission 0
      else
        let r ← qRule w id
        qRead .quilt r.addr r.addr 128
    ruleRun s read fun bs s1 => putResult false o.toNat bs s1

/-- ql.rec (R396). -/
def execQlRec (a b c : Reg) (s : State) : Out :=
  quilted s (withQuilt s (s.x b) fun _ h => recStep (s.x a) (s.x c) h s)

/-- count elements of a row from a flat position on, packed (R396). -/
def qGet (h : QHandle) (p count : Nat) : RuleM (List Byte) := do
  let v ← qView h
  let gr := granule v.fmt
  if v.rows * v.length ≤ p || v.length < p % v.length + count || p % v.length % gr ≠ 0 || count % gr ≠ 0 then qTrap Cause.permission 0
  else
    let sp ← qSpine v (p / v.length)
    let i ← qSearch v sp (fun _ off => decide (off ≤ p % v.length)) 33 0 sp.2
    let (off, _) ← qProbe v sp (i - 1)
    qRowSlice v sp (sp.2 + 1) (i - 1) .back ((p % v.length - off) / gr) (count / gr)

/-- ql.get: its area needs the format, so it is checked once that is read. -/
def getStep (o v : Word) (scr : Bool) (h : QHandle) (s : State) : Eff :=
  let count := bits v.toNat 63 48 + 1
  let read : RuleM (List Byte) := do
    let d ← qDesc h.desc.toNat
    if s.areaOut scr o.toNat (ceilDiv (count * (unitSize (field d 5 1))) (granule (field d 5 1) * 8)) then qTrap Cause.permission 0
    else qGet h (bits v.toNat 47 0) count
  ruleRun s read fun bs s1 => putResult scr o.toNat bs s1

/-- ql.get (R396). -/
def execQlGet (a b c : Reg) (scr : Bool) (s : State) : Out :=
  quilted s (withQuilt s (s.x b) fun _ h => getStep (s.x a) (s.x c) scr h s)

/-- The split point of a diagonal: the greatest i in 0 to min(c, d) with i = 0 or o[i-1] at most d - i (R200). -/
def qSplitAt (v : QView) (sp : Nat × Nat) (d : Nat) : RuleM (List Byte) := do
  let top := if sp.2 < d then sp.2 else d
  let i ← qSearch v sp (fun m off => decide (off + m + 1 ≤ d)) 33 0 top
  let p := d - i
  if i = 0 then pure (bytesOf 4 0 ++ bytesOf 6 p ++ bytesOf 6 p)
  else
    let (off, _) ← qProbe v sp (i - 1)
    pure (bytesOf 4 (i - 1) ++ bytesOf 6 (p - off) ++ bytesOf 6 p)

/-- ql.split: k parts of a row. -/
def splitStep (o v : Word) (scr : Bool) (h : QHandle) (s : State) : Eff :=
  let k := bits v.toNat 48 32
  if bits v.toNat 63 49 ≠ 0 || k = 0 || 65536 < k then .trap s Cause.illegal 0 4
  else if s.areaOut scr o.toNat (16 * k) then .trap s Cause.permission 0 4
  else
    let read : RuleM (List Byte) := do
      let w ← qView h
      let row := bits v.toNat 31 0
      if w.rows ≤ row then qTrap Cause.permission 0
      else
        let sp ← qSpine w row
        let parts ← (List.range k).mapM fun j => qSplitAt w sp (j * (sp.2 + w.length) / k)
        pure parts.flatten
    ruleRun s read fun bs s1 => putResult scr o.toNat bs s1

/-- ql.split (R396). -/
def execQlSplit (a b c : Reg) (scr : Bool) (s : State) : Out :=
  quilted s (withQuilt s (s.x b) fun _ h => splitStep (s.x a) (s.x c) scr h s)

end Sys2Proof.Machine
end

