-- ==== Sys2Proof/Machine/Groups.lean ====
section
/-! DEFINITION. Launches: the claim, routing, loading, release, and the end of a group (R79, R80, R103 to R115, R372). -/

namespace Sys2Proof.Machine

/-! ### The front end's accesses (R104, R109) -/

/-- Who the front end is: a core of its grove, in the launch's context (R109, R251). -/
def State.feWho (s : State) (ctx : Nat) : Who := ⟨s.frontEnd * 32, ctx, 0⟩

/-- Why the front end does not go on: it waits for a link or a lock, or an access fails, with the context that a poisoned table page faults (R76). -/
inductive FeStop
  | wait
  | fail (raise : Option Nat)
  deriving DecidableEq, Repr

/-- Translate a range, one piece a page. -/
def State.fePlaces (s : State) (ctx : Nat) (acc : Access) (va n : Nat) : Except FeStop (List (Nat × Nat)) :=
  if 2 ^ 48 < va + n then .error (.fail none)
  else (pagePieces va n).mapM fun pc =>
    match s.translateRaw (s.feWho ctx) acc .plain (BitVec.ofNat 64 pc.1) pc.2 with
    | .ok p _ => .ok (p, pc.2)
    | .wait => .error .wait
    | r => .error (.fail r.raises)

/-- Read places. -/
def State.feBytes (s : State) (ps : List (Nat × Nat)) : Except FeStop (List Byte) :=
  if ps.any fun q => s.locked q.1 q.2 then .error .wait
  else if ps.any fun q => s.poisoned q.1 q.2 then .error (.fail none)
  else .ok ((ps.map fun q => (s.recallRange q.1 q.2).peek q.1 q.2).flatten)

/-- Read a range. -/
def State.feRead (s : State) (ctx va n : Nat) : Except FeStop (List Byte) :=
  match s.fePlaces ctx .load va n with
  | .error w => .error w
  | .ok ps => s.feBytes ps

/-- The update-only copies of a range that the front end reads are recalled (R142). -/
def State.feRecall (s : State) (ctx va n : Nat) : State :=
  match s.fePlaces ctx .load va n with
  | .error _ => s
  | .ok ps => ps.foldl (fun st q => st.recallRange q.1 q.2) s

/-- Write bytes at the places of a range. -/
def State.feWrite (s : State) (ps : List (Nat × Nat)) (bs : List Byte) : State :=
  (ps.foldl (fun (acc : State × List Byte) q => (acc.1.recWrite q.1 0 (acc.2.take q.2), acc.2.drop q.2)) (s, bs)).1

/-- Every page of a range may be written: k pages from an address on. -/
def State.feWritable (s : State) (ctx : Nat) : Nat → Nat → Except FeStop Unit
  | 0, _ => .ok ()
  | k + 1, va =>
    if 2 ^ 48 ≤ va then .error (.fail none)
    else match s.translateRaw (s.feWho ctx) .store .plain (BitVec.ofNat 64 va) 1 with
      | .ok _ _ => s.feWritable ctx k (va + 4096)
      | .wait => .error .wait
      | r => .error (.fail r.raises)

/-! ### The image (R53, R79, R80, R372) -/

/-- The header's fields. -/
def imageOf (h : List Byte) : Image :=
  ⟨field h 6 1, field h 8 8, field h 16 4, field h 20 4, field h 24 4, field h 28 4, field h 32 4, field h 36 4, field h 40 4, field h 44 4, field h 48 2⟩

/-- The bytes of TCM that a carve divides, the inboxes with them (R53). -/
def carveSum (v : Nat) : Nat := (bits v 31 24 + bits v 23 16 + 4 * bits v 15 8 + 4 * bits v 7 0) * 256 + 4 * 2304

/-- Sections as ranges. Those of size 0 take no place, and no check of R79 looks at where they start, not that of byte 128 either (DESIGN CHOICE, log 114). -/
def Image.sections (m : Image) : List (Nat × Nat) :=
  [(m.codeOff, m.codeSize), (m.constOff, m.constSize), (m.tableOff, 16 * m.tableN), (m.declOff, 16 * m.declN)].filter fun q => q.2 != 0

/-- Ranges do not overlap. -/
def apart : List (Nat × Nat) → Bool
  | [] => true
  | a :: rest => (rest.all fun b => decide (a.1 + a.2 ≤ b.1) || decide (b.1 + b.2 ≤ a.1)) && apart rest

/-- The checks of R79 that the header alone decides. -/
def headerOk (h : List Byte) : Bool :=
  let m := imageOf h
  field h 0 4 == 0x4A584B31 && field h 4 2 == 1 && decide (m.dflt ≤ 2) && field h 7 1 == 0 && decide (carveSum m.carve ≤ 65536) &&
  m.codeOff % 64 == 0 && m.codeSize % 2 == 0 && m.constOff % 128 == 0 && m.tableOff % 16 == 0 && decide (1 ≤ m.tableN) &&
  decide (m.tableN ≤ 4096) && decide (m.declN ≤ 16) && decide (m.launch < m.tableN) && natOf ((h.drop 50).take 70) == 0 &&
  field h 120 4 == (crc32c (h.take 120)).toNat && field h 124 4 == 0 &&
  (m.sections.all fun q => decide (128 ≤ q.1)) && apart m.sections &&
  (m.constSize == 0 || decide (m.codeOff + m.codeSize ≤ m.constOff))

/-- The fields of 16 bytes. -/
def declOf (b : List Byte) : Decl := ⟨field b 0 1, field b 1 1 == 2, field b 4 4, field b 8 4, field b 12 4⟩

/-- A declaration keeps R371 and R372 under a user area of utop bytes. -/
def declOk (utop : Nat) (b : List Byte) : Bool :=
  let d := declOf b
  decide (d.handle < 16) && (field b 1 1 == 1 || field b 1 1 == 2) && field b 2 2 == 0 && d.slotSize != 0 && d.slotSize % 128 == 0 &&
  decide (1 ≤ d.slots) && decide (d.slots ≤ 4096) && d.off % 128 == 0 &&
  decide (d.off + 128 + d.slots * d.slotSize ≤ (if d.scr then 0x100000 else utop))

/-- The descriptor that a declaration sets up (R371, R372). -/
def Decl.desc (d : Decl) : List Byte :=
  bytesOf 4 (d.off + 128) ++ bytesOf 4 d.slotSize ++ bytesOf 4 d.slots ++ [if d.scr then 2 else 1] ++ zeros 115

/-- What a launch takes from an image: the header, the bytes of code and constants, where they go, the declarations, the launch entry. -/
structure Loaded where
  im : Image
  code : List Byte
  consts : List Byte
  codeAt : List (Nat × Nat)
  constAt : List (Nat × Nat)
  decls : List Decl
  entry : List Byte
  deriving DecidableEq, Repr

/-- What a claim keeps of an image: the header, the declarations and the launch entry. -/
structure Claimed where
  im : Image
  decls : List Decl
  entry : List Byte
  deriving DecidableEq, Repr

/-- Where the two sections that are copied go (R109). -/
def State.targets (s : State) (ctx codebase : Nat) (m : Image) : Except FeStop (List (Nat × Nat) × List (Nat × Nat)) := do
  let ca ← s.fePlaces ctx .store codebase m.codeSize
  let ka ← if m.constSize = 0 then .ok [] else s.fePlaces ctx .store (codebase + m.constOff - m.codeOff) m.constSize
  return (ca, ka)

/-- Read and check an image and its targets (R79, R105 cause 3, R109). -/
def State.readImage (s : State) (ctx image codebase : Nat) : Except FeStop Claimed := do
  let h ← s.feRead ctx image 128
  if !headerOk h then .error (.fail none)
  else
    let m := imageOf h
    let _ ← s.feRead ctx (image + m.codeOff) m.codeSize
    let _ ← s.feRead ctx (image + m.constOff) m.constSize
    let table ← s.feRead ctx (image + m.tableOff) (16 * m.tableN)
    let db ← s.feRead ctx (image + m.declOff) (16 * m.declN)
    let each := (List.range m.declN).map fun i => (db.drop (16 * i)).take 16
    let ds := each.map declOf
    if !(each.all (declOk (bits m.carve 31 24 * 256))) || (nub (ds.map (·.handle))).length ≠ ds.length then .error (.fail none)
    else
      let _ ← s.targets ctx codebase m
      .ok ⟨m, ds, (table.drop (16 * m.launch)).take 16⟩

/-- The ranges of an image that a claim reads. -/
def imageRanges (image : Nat) (m : Image) : List (Nat × Nat) :=
  [(image, 128), (image + m.codeOff, m.codeSize), (image + m.constOff, m.constSize), (image + m.tableOff, 16 * m.tableN), (image + m.declOff, 16 * m.declN)]

/-- What a load copies of the image that its claim checked: the two sections as they stand, and where they go (R109). -/
def State.copyOf (s : State) (g : Group) : Except FeStop Loaded := do
  let m := g.im
  let code ← s.feRead g.ctx (g.image + m.codeOff) m.codeSize
  let consts ← s.feRead g.ctx (g.image + m.constOff) m.constSize
  let (ca, ka) ← s.targets g.ctx g.codebase m
  return ⟨m, code, consts, ca, ka, g.decls, g.entry⟩

/-! ### The claim (R105, R106) -/

/-- A launch descriptor's fields as a group that holds nothing yet (R103). -/
def groupOf (va pa core : Nat) (b : List Byte) : Group where
  desc := va
  dpa := pa
  ctx := field b 0 2
  core := core
  gx0 := field b 24 2
  gy0 := field b 26 2
  w := field b 28 2
  h := field b 30 2
  nchan := field b 2 1
  peers := bitAt (field b 3 1) 0
  image := field b 8 8
  codebase := field b 16 8
  n0 := field b 32 4
  n1 := field b 36 4
  n2 := if field b 40 4 = 0 then 1 else field b 40 4
  n3 := if field b 44 4 = 0 then 1 else field b 44 4
  cmask := BitVec.ofNat 64 (field b 48 8)
  arg := BitVec.ofNat 64 (field b 56 8)
  carve := 0
  entry := []
  im := Image.none
  decls := []
  alone := []
  st := .claiming
  cause := 0
  live := 0
  seq := 1
  chans := []
  routeOk := false
  peerOk := false
  loaded := false
  freed := false

/-- Cause 2, but for the launch-record area: the fields that system software writes, and the reserved bytes. -/
def descBad (ctx : Nat) (b : List Byte) : Bool :=
  let g := groupOf 0 0 0 b
  bits (field b 3 1) 7 1 != 0 || field b 4 4 != 0 || field b 66 2 != 0 || natOf ((b.drop 72).take 56) != 0 || g.w == 0 || g.h == 0 || decide (8 < g.nchan) || g.ctx != ctx ||
  g.image % 128 != 0 || g.codebase % 65536 != 0

/-- The groves that a context's groups hold. R105 does not say whether a grove that lies in two clearings of one context counts twice against maxgroves: it counts once for each clearing (DESIGN CHOICE, log 93). -/
def State.heldGroves (s : State) (ctx : Nat) : Nat :=
  ((s.groups.vals.filter fun g => g.holds && g.ctx == ctx).map fun g => g.w * g.h).sum

/-- The clearings that hold a grove. -/
def State.clearingsAt (s : State) (gx gy : Nat) : List Group := s.groups.vals.filter fun g => g.holds && g.covers gx gy

/-- Cause 6: the rectangle leaves its module, or the module grid for one that spans modules, or covers a fenced grove. Its origin lies on this module. -/
def State.rectBad (s : State) (g : Group) : Bool :=
  let edge := fun (o n : Nat) => if g.peers then decide (128 < o + n) else decide (32 < o + n)
  edge g.gx0 g.w || edge g.gy0 g.h ||
  (g.peers && (g.gx0 / 32 != s.modX.toNat || g.gy0 / 32 != s.modY.toNat)) ||
  g.groves.any fun q => (s.grove (s.physGrove q.1 q.2)).fenced

/-- Cause 7: a grove has no room for the clearing. -/
def State.crowded (s : State) (g : Group) (carve : Nat) : Bool :=
  g.groves.any fun q =>
    let on := s.clearingsAt q.1 q.2
    decide (4 ≤ on.length) || decide (8 < (on.map (·.nchan)).sum + g.nchan) || on.any fun o => bits o.carve.toNat 47 0 != bits carve 47 0

/-- The pages of the launch-record area and the descriptor (R111). -/
def State.areaOk (s : State) (ctx : Nat) (g : Group) : Except FeStop Unit :=
  s.feWritable ctx (ceilDiv (g.desc % 4096 + 128 + 1024 * g.w * g.h) 4096) (g.desc / 4096 * 4096)

/-- The answer of a claim: what it keeps of the image, a cause with the context that a poisoned table page faults, or a wait for a link or a lock. -/
inductive ClaimRes
  | ok (c : Claimed)
  | refuse (cause : Nat) (raise : Option Nat)
  | wait
  deriving DecidableEq, Repr

/-- The checks of R105 in order. -/
def State.claimCheck (s : State) (ctx : Nat) (g : Group) (b : List Byte) : ClaimRes :=
  let st := (s.ctxOf ctx).st
  if st == .free || st == .building || st == .teardown then .refuse 1 none
  else if descBad ctx b then .refuse 2 none
  else match s.areaOk ctx g, s.readImage ctx g.image g.codebase with
    | .error (.fail r), _ => .refuse 2 r
    | .error .wait, _ => .wait
    | _, .error .wait => .wait
    | _, .error (.fail r) => .refuse 3 r
    | _, .ok c =>
      if g.peers && !(s.ctxOf ctx).perm.getLsbD 2 then .refuse 4 none
      else if (s.ctxOf ctx).maxgroves < s.heldGroves ctx + g.w * g.h then .refuse 5 none
      else if s.rectBad g then .refuse 6 none
      else if s.crowded g c.im.carve then .refuse 7 none
      else .ok c

/-! ### Loading (R42, R109, R153, R372, R376, R383) -/

/-- Instruction bytes enter a cache at the places of a range, page by page. -/
def icacheLoad (c : PMap Half) (ps : List (Nat × Nat)) (bs : List Byte) : PMap Half :=
  (ps.foldl (fun (acc : PMap Half × List Byte) q =>
    let n := if acc.2.length < q.2 then acc.2.length else q.2
    let new := (List.range (n / 2)).map fun i => (q.1 + 2 * i, BitVec.ofNat 16 (field acc.2 (2 * i) 2))
    ((acc.1.filter fun e => decide (e.1 < q.1)) ++ new ++ acc.1.filter fun e => decide (q.1 + n ≤ e.1), acc.2.drop q.2)) (c, bs)).1

/-- A core of a clearing is loaded: its accumulator is undefined (R376), and its handles are those declared (R372). Its instruction cache of 32 KiB keeps of other code what there is room for (R20). first says that the claim found its grove in no other clearing: its TCM is zeroed and its accumulator unowned. -/
def Core.load (c : Core) (l : Loaded) (first : Bool) (tag : Nat) : Core :=
  let v := l.im.carve
  let c1 := if first then { c with tcm := [], owner := none, mma := none } else c
  { c1 with
    acc := [], accSat := [], accFree := some tag
    ovflim := BitVec.ofNat 16 (bits v 47 32), utop := BitVec.ofNat 8 (bits v 31 24), hamper := BitVec.ofNat 8 (bits v 23 16)
    spill := BitVec.ofNat 8 (bits v 15 8), frame := BitVec.ofNat 8 (bits v 7 0)
    cbs := l.decls.foldl (fun m d => m.put d.handle ⟨d.scr, d.off⟩) []
    icache := icacheLoad (c1.icache.take (16384 - Nat.min l.code.length 32768 / 2)) l.codeAt (l.code.take 32768) }

/-- The seed of a slot at a launch (R42). -/
def slotSeed (gx gy core n : Nat) : BitVec 32 := 0x9E3779B9#32 ^^^ BitVec.ofNat 32 ((gy * 32 + gx) * 32 + core * 4 + n + 1)

/-- The slots of a core are seeded; inboxes that lie in a zeroed TCM are empty. -/
def State.seedCore (s : State) (gx gy core i : Nat) (first : Bool) : State :=
  (List.range 4).foldl (fun st n => st.modSlot (core * 4 + n) fun q =>
    { q with rng := slotSeed gx gy i n, inbox := if first then [] else q.inbox }) s

/-- One core of a grove: identity of the load, then its buffers in TCM. -/
def State.loadCore (s : State) (l : Loaded) (gx gy core i : Nat) (first : Bool) : State :=
  let s1 := s.modCore core fun c => c.load l first s.fresh
  let s2 := { s1 with fresh := s1.fresh + 2048 }.seedCore gx gy core i first
  (l.decls.filter fun d => !d.scr).foldl (fun st d => st.tcmWrite core d.off d.desc) s2

/-- One grove of a clearing is loaded: its latent buffer is unloaded and every turn rate 0 (R383). -/
def State.loadGrove (s : State) (l : Loaded) (gx gy : Nat) (first : Bool) : State :=
  let g := s.physGrove gx gy
  let s1 := s.modGrove g fun q => { q with
    poisonTcm := if first then [] else q.poisonTcm
    latDc := 0, latU := [], turns := [], poisonLat := false }
  let s2 := (l.decls.filter (·.scr)).foldl (fun st d => st.scrWrite g d.off d.desc) s1
  (List.range 8).foldl (fun st i => st.loadCore l gx gy (g * 8 + i) i first) s2

/-- LOADING: the copy, then the clearing's groves; the group then waits for its release (R109, R113). -/
def State.groupLoad (s : State) (g : Nat) (l : Loaded) : State :=
  match s.groups.find g with
  | none => s
  | some gr =>
    let first := fun (q : Nat × Nat) => gr.alone.contains (s.physGrove q.1 q.2)
    let s0 := (s.feRecall gr.ctx (gr.image + l.im.codeOff) l.im.codeSize).feRecall gr.ctx (gr.image + l.im.constOff) l.im.constSize
    let s1 := (s0.feWrite l.codeAt l.code).feWrite l.constAt l.consts
    let s2 := gr.groves.foldl (fun st q => st.loadGrove l q.1 q.2 (first q)) s1
    (s2.modGroup g fun q => { q with loaded := true }).launchReply gr.core 0

/-- The front end is at work on a descriptor: state CLAIMING (R103). -/
def State.claiming (s : State) (pa : Nat) (b : List Byte) : State :=
  { (if s.recField pa 64 1 = 0 then s else s.recWrite pa 64 (zeros 1)) with claimAt := some (pa, b) }

/-- A clearing is claimed: the group exists, with its channels, and is in ROUTING (R106, R108, R112). The claim keeps what it has checked of the image, and which of its groves lie in no other clearing (R109). The device writes its reserved descriptor bytes as zeros (R5). R103 names no cause for a claim that succeeds; the cause byte becomes 0 (DESIGN CHOICE, log 75). -/
def State.claim (s : State) (gr : Group) (c : Claimed) : State :=
  let n := s.nextGroup
  let g1 := { gr with
    carve := BitVec.ofNat 64 c.im.carve, im := c.im, decls := c.decls, entry := c.entry
    chans := List.replicate gr.nchan ⟨0, [], [], false, false, []⟩
    alone := (gr.groves.filter fun q => (s.clearingsAt q.1 q.2).isEmpty).map fun q => s.physGrove q.1 q.2 }
  let s0 := (imageRanges gr.image c.im).foldl (fun st r => st.feRecall gr.ctx r.1 r.2) s
  let s1 := { s0.setGroup n g1 with nextGroup := n + 1 }
  let s2 := s1.ctxGroups gr.ctx ((s1.ctxOf gr.ctx).groups + 1)
  ((s2.groupWrite n 64 (zeros 4)).groupWrite n 72 (zeros 56)).groupState n .routing

/-- A claim is refused: state DONE and the cause, nothing else (R105). -/
def State.claimRefuse (s : State) (pa core cause : Nat) : State :=
  (s.recWrite pa 64 (bytesOf 1 GrpSt.done.code ++ bytesOf 1 cause)).launchReply core 0

/-- The claim of a descriptor that has been read, and whether it is over (R105). -/
def State.claimStep (s : State) (p : Pending) (pa : Nat) (b : List Byte) : State × Bool :=
  let ctx := bits p.word.toNat 5 0
  let gr := groupOf (bits p.word.toNat 47 7 * 128) pa p.core b
  match s.claimCheck ctx gr b with
  | .wait => (s.claiming pa b, false)
  | .refuse cause raise => ({ s.claimRefuse pa p.core cause with claimAt := none }.raiseIf raise, true)
  | .ok c => ({ s.claim gr c with claimAt := none }, true)

/-- One launch at the front end, and whether it is over; else it waits for a link or a lock. One whose claim has begun goes on with what was read (R104). -/
def State.launch (s : State) (p : Pending) : State × Bool :=
  let va := bits p.word.toNat 47 7 * 128
  let ctx := bits p.word.toNat 5 0
  let st := (s.ctxOf ctx).st
  match s.claimAt with
  | some (pa, b) => s.claimStep p pa b
  | none =>
    if st == .free || st == .building then (s.launchReply p.core 1, true)
    else match s.feRead ctx va 128, s.fePlaces ctx .store va 128 with
      | .ok b, .ok [(pa, _)] => (s.recallRange pa 128).claimStep p pa b
      | .error .wait, _ | _, .error .wait => (s, false)
      | .error (.fail r), _ | _, .error (.fail r) => ((s.launchReply p.core 1).raiseIf r, true)
      | .ok _, .ok _ => (s.launchReply p.core 1, true)

/-! ### Routing (R15, R16, R107, R108) -/

/-- The physical columns of a clearing's columns in a row, on this module. -/
def State.routeCols (s : State) (g : Group) (gy : Nat) : List Nat :=
  (span (g.gx0 % 32) g.w).filterMap fun gx => if gx < 32 then some (s.physGrove gx gy % 34) else none

/-- Where a clearing crosses the silicon bridges of the die edges (R12, R13, R18): between which of its columns, by physical column, and between which of its rows on this module. -/
def routeBridges (cols rows : List Nat) : List Bool :=
  let cross := fun (edge : Nat) (l : List Nat) => (List.zip l (l.drop 1)).map fun q => decide (q.1 < edge) != decide (q.2 < edge)
  cross 17 cols ++ cross 16 rows

/-- The entries of a group in the router of a grove: the column map, the bridge crossings, and for a spanning clearing the peer ports of its module's edges (R108). R108 names what entries cover and no layout: these bytes are the model's own (DESIGN CHOICE, log 76). -/
def State.routeBytes (s : State) (n : Nat) (g : Group) (gy : Nat) : List Byte :=
  let cols := s.routeCols g gy
  cols.map (BitVec.ofNat 8) ++ ((routeBridges cols ((span (g.gy0 % 32) g.h).filter fun y => decide (y < 32))).map fun b => BitVec.ofNat 8 (flag b)) ++
  (if g.peers then [BitVec.ofNat 8 (3 + Config.routePort n 0 % 3), BitVec.ofNat 8 (9 + Config.routePort n 0 % 3),
    BitVec.ofNat 8 (6 + Config.routePort n 1 % 3), BitVec.ofNat 8 (Config.routePort n 1 % 3)] else [])

/-- Write a router: whether every entry lands as written is a free choice, and what lands else is open (R108, log 76). -/
def State.routeWrite (s : State) (n grove : Nat) (bs : List Byte) : State :=
  let (good, s1) := s.freeChoice
  let (other, s2) := s1.freeBytes bs.length
  s2.modGrove grove fun q => { q with routes := q.routes.put n (if good then bs else other) }

/-- The router's CRC-32C over its entries as it reads back is that of what was written. -/
def State.routeChecks (s : State) (n grove : Nat) (bs : List Byte) : Bool := crc32c ((s.grove grove).routes.get n []) == crc32c bs

/-- Write the router of a grove, a second time after a mismatch: whether it checks (R108). -/
def State.routeOne (s : State) (n : Nat) (g : Group) (q : Nat × Nat) : State × Bool :=
  let grove := s.physGrove q.1 q.2
  let bs := s.routeBytes n g q.2
  let s1 := s.routeWrite n grove bs
  if s1.routeChecks n grove bs then (s1, true)
  else
    let s2 := s1.routeWrite n grove bs
    (s2, s2.routeChecks n grove bs)

/-- Write the routers of a clearing on this module, up to one that does not check. -/
def State.routeAll (s : State) (n : Nat) (g : Group) : List (Nat × Nat) → State × Bool
  | [] => (s, true)
  | q :: rest => match s.routeOne n g q with
    | (s1, true) => s1.routeAll n g rest
    | (s1, false) => (s1, false)

/-- LOADING: the copy; where it fails, since a page has changed after the claim, the group is DONE with cause 3, and while it waits the group stays in LOADING (R109, R113). -/
def State.copyStep (s : State) (n : Nat) : State :=
  match s.groups.find n with
  | none => s
  | some g => match s.copyOf g with
    | .ok l => s.groupLoad n l
    | .error (.fail r) => (s.groupRefuse n 3).raiseIf r
    | .error .wait => s

/-- A group whose routes are all checked, those on other modules too, proceeds to LOADING (R108). -/
def State.toLoading (s : State) (n : Nat) : State :=
  match s.groups.find n with
  | none => s
  | some g => if g.st == .routing && g.routeOk && (!g.peers || g.peerOk) then (s.groupState n .loading).copyStep n else s

/-- ROUTING: the routers of this module are written and checked; a second mismatch of one refuses the claim with cause 8 (R108). -/
def State.routeStep (s : State) (n : Nat) (g : Group) : State :=
  match s.routeAll n g g.groves with
  | (s1, true) => (s1.modGroup n fun q => { q with routeOk := true }).toLoading n
  | (s1, false) => s1.groupRefuse n 8

/-- The first group that is loading and not loaded, or in ROUTING with its routers to write. -/
def State.routed (s : State) : Option (Nat × Group) :=
  s.groups.find? fun (q : Nat × Group) => (q.2.st == .loading && !q.2.loaded) || (q.2.st == .routing && !q.2.routeOk)

/-- GRP_LAUNCH: the front end's next step. A group that has been claimed is routed or loads, else the oldest launch is claimed (R104 to R109). -/
def execGrpLaunch (s : State) : Out :=
  .next (match s.routed with
    | some (n, g) => if g.st == .loading then s.copyStep n else s.routeStep n g
    | none => match s.grpQ with
      | p :: rest =>
        let q := s.launch p
        if q.2 then { q.1 with grpQ := rest } else q.1
      | [] => s)

/-- PEER_ROUTE_REPORT: the other modules' front ends report their part of a spanning clearing; LOADING, or a refusal. R108 names no cause for another front end's refusal: it is 8, as for this module's own (DESIGN CHOICE, log 94). -/
def execPeerRouteReport (grp : Nat) (ok : Bool) (s : State) : Out :=
  .next (match s.groups.find grp with
    | some g =>
      if g.st != .routing || !g.peers then s
      else if !ok then s.groupRefuse grp 8
      else (s.modGroup grp fun q => { q with peerOk := true }).toLoading grp
    | none => s)

/-! ### Release (R83, R101, R110, R111, R113) -/

/-- The extents of a core (R110). -/
def Group.extents (g : Group) (x y c : Nat) : List Nat :=
  let b0 := ceilDiv g.n0 g.w
  let b1 := ceilDiv g.n1 g.h
  let e1 := if b1 < g.n1 - y * b1 then b1 else g.n1 - y * b1
  let q := ceilDiv e1 8
  [if b0 < g.n0 - x * b0 then b0 else g.n0 - x * b0, if q < e1 - c * q then q else e1 - c * q, g.n2, g.n3]

/-- The cores that get a launch record, in ascending rank: the grove's place in the clearing and the core. -/
def Group.launchCores (g : Group) : List (Nat × Nat × Nat) :=
  (List.range g.h).flatMap fun y => (List.range g.w).flatMap fun x => ((List.range 8).filter fun c =>
    (g.extents x y c).all fun e => e != 0).map fun c => (x, y, c)

/-- The 128 bytes of a launch record (R81, R111). The device fills in the depth, the context and the spawn sequence. R80 gives a class byte above 3 no meaning and no check: its low two bits count (DESIGN CHOICE, log 77). -/
def Group.record (g : Group) (queue : Nat) : List Byte :=
  let cls := if bits (field g.entry 4 1) 1 0 = 3 then g.im.dflt else bits (field g.entry 4 1) 1 0
  let pc := (g.codebase + field g.entry 0 4) % 2 ^ 48 / 2 * 2
  bytesOf 8 (at_ cls 62 + pc) ++ zeros 24 ++ bytesOf 2 (field g.entry 6 2) ++ zeros 2 ++ bytesOf 4 (field g.entry 8 4) ++
  bytesOf 8 g.arg.toNat ++ bytesOf 8 g.desc ++ bytesOf 2 g.ctx ++ bytesOf 1 queue ++ [2] ++ zeros 68

/-- The lowest enabled queue of a context. -/
def Ctx.lowQueue (c : Ctx) : Nat := ((List.range 16).find? fun i => ((c.queues[i]?).getD (false, 0)).1).getD 0

/-- The cores of this module that get a record, each with the number of its record in the whole clearing. -/
def Group.ownCores (g : Group) : List (Nat × Nat × Nat × Nat) :=
  (List.zip (List.range g.launchCores.length) g.launchCores).filter fun q =>
    decide (g.gx0 % 32 + q.2.1 < 32) && decide (g.gy0 % 32 + q.2.2.1 < 32)

/-- The places of launch records, one of 128 bytes each. -/
def State.recordPlaces (s : State) (g : Group) (ks : List Nat) : Except FeStop (List Nat) :=
  ks.mapM fun k => match s.fePlaces g.ctx .store (g.desc + 128 * (k + 1)) 128 with
    | .ok [(p, _)] => .ok p
    | .ok _ => .error (.fail none)
    | .error w => .error w

/-- Issue one launch record with its core's grove as origin. -/
def State.issueRecord (s : State) (grp : Nat) (g : Group) (k pa origin : Nat) (bs : List Byte) : State :=
  let va := g.desc + 128 * (k + 1)
  ((s.recWrite pa 0 bs).newTask grp g.ctx va pa 0 .ready).takeIn (taskKey g.ctx va) origin none

/-- The stands of a clearing clear their counts (R101). -/
def State.clearStands (s : State) (g : Group) : State :=
  (nub (g.groves.map fun q => standOf q.1 q.2)).foldl (fun st n => st.modStand n fun q => { q with nacks := 0, taken := 0 }) s

/-- A group's next spawn takes a number. -/
def State.nextSeq (s : State) (grp n : Nat) : State := s.modGroup grp fun g => { g with seq := BitVec.ofNat 32 n }

/-- A loaded group is released: RUNNING, its records issued in ascending rank, record k with the number 1 + k; live counts the records of the whole clearing, and without any the group drains at once (R83, R111, R113). A record that can no longer be written ends the launch as a failed copy does (log 39). -/
def State.release1 (s : State) (grp : Nat) (g : Group) : State :=
  let cores := g.ownCores
  let total := g.launchCores.length
  match s.recordPlaces g (cores.map (·.1)) with
  | .error .wait => s
  | .error (.fail r) => (s.groupEnd grp 3).raiseIf r
  | .ok pas =>
    let c := s.ctxOf g.ctx
    let others := total - cores.length
    let s1 := (if c.st == .ready then s.ctxState g.ctx .running else s).groupState grp .running
    let s2 := (s1.modGroup grp fun q => { q with live := others }).clearStands g
    let s3 := s2.groupWrite grp 68 (bytesOf 4 others)
    let bs := g.record c.lowQueue
    let s4 := (List.zip cores pas).foldl (fun st q =>
      (st.nextSeq grp (1 + q.1.1)).issueRecord grp g q.1.1 q.2 (st.physGrove (g.gx0 % 32 + q.1.2.1) (g.gy0 % 32 + q.1.2.2.1)) bs) s3
    let s5 := s4.nextSeq grp (1 + total)
    if total = 0 then s5.groupState grp .draining else s5

/-- GROUP_RELEASE: a loaded group is released once its context is READY or RUNNING and no stop is in progress (R75, R111, R113). -/
def execGroupRelease (grp : Nat) (s : State) : Out :=
  .next (match s.groups.find grp with
    | some g =>
      let c := s.ctxOf g.ctx
      if g.st == .loading && g.loaded && (c.st == .ready || c.st == .running) && c.stopping == .none then s.release1 grp g else s
    | none => s)

/-! ### The end of a group (R114, R115) -/

/-- Engine commands of a group run or wait in the cores of its clearing (R114). -/
def State.groupEngines (s : State) (grp : Nat) (g : Group) : Bool :=
  g.groves.any fun q => (List.range 8).any fun i =>
    let c := s.core (s.physGrove q.1 q.2 * 8 + i)
    let busy := fun (e : Engine) => (e.run.toList ++ e.queue ++ e.back).any fun k => k.grp == grp
    busy c.copyEng || busy c.gathEng

/-- The cores of a clearing on this module. -/
def State.clearingCores (s : State) (g : Group) : List Nat := g.groves.flatMap fun q => span (s.physGrove q.1 q.2 * 8) 8

/-- The sectors that the cores of a clearing hold update-only. -/
def State.groupUpd (s : State) (g : Group) : List Nat :=
  nub ((s.clearingCores g).flatMap fun c => (s.core c).upd.map fun e => sectorOf e.pa)

/-- Every update-only copy of a clearing is combined at its home, those behind a lock later (R114, R142). -/
def State.groupCombine (s : State) (g : Group) : State :=
  (s.groupUpd g).foldl (fun st sec => if st.lockedSec sec then st else st.recall sec) s

/-- A drained group may be DONE: its engine commands have ended, its update-only copies are combined. An enqueue of it has a task that lives, so that none is outstanding. -/
def State.canDrain (s : State) (grp : Nat) (g : Group) : Bool := g.st == .draining && !s.groupEngines grp g && (s.groupUpd g).isEmpty

/-- GROUP_DRAINED: the update-only copies of the group are combined; then channels, routes and clearing are freed, and the group is DONE (R114). -/
def execGroupDrained (grp : Nat) (s : State) : Out :=
  .next (match s.groups.find grp with
    | some g =>
      if g.st != .draining then s
      else
        let s1 := s.groupCombine g
        if s1.canDrain grp g then (s1.groupFree grp).groupState grp .done else s1
    | none => s)

/-- GROUP_BROKEN_FREED: the clearing of a BROKEN group is freed; its state and cause stay (R115). -/
def execGroupBrokenFreed (grp : Nat) (s : State) : Out :=
  .next (match s.groups.find grp with
    | some g => if g.st == .broken && !g.freed then s.groupFree grp else s
    | none => s)

end Sys2Proof.Machine
end

