-- ==== Sys2Proof/Machine/Links.lean ====
section
/-! DEFINITION. The links: their states, commands and events, and what their loss does (R217 to R219, R223 to R225, R232). -/

namespace Sys2Proof.Machine

/-! ### Widths (R217) -/

/-- Lanes at full width; modules for the guest. -/
def fullWidth (link : Nat) : Nat := if link = 13 then 4 else 16

/-- The width below which training has failed. -/
def leastWidth (link : Nat) : Nat := if link = 13 then 1 else 4

/-- The per-lane rates at which a link can train, as its report codes them: the host port's of R220, a peer port's full rate (R224), the guest's (R226). A rate of 2.5 GT/s reads 2 in the report's whole number (DESIGN CHOICE, log 79). -/
def linkRates (link : Nat) : List Nat := if link = 0 then [2, 5, 8, 16, 32, 64] else if link = 13 then [32] else [212]

/-- The reduced widths at which a link runs DEGRADED: x8 and x4 at the host, 8 and 4 lanes at a peer, 2 and 1 modules at the guest (R220, R224, R226). -/
def reducedWidths (link : Nat) : List Nat := if link = 13 then [2, 1] else [8, 4]

/-- A link carries traffic. -/
def Link.works (l : Link) : Bool := l.st == .up || l.st == .degraded

/-! ### What the loss of a link does (R225, R232) -/

/-- A peer link carries the routes of a group that spans modules: one port of the east side where the clearing passes it, one of the south side likewise (R107, R108). -/
def State.carries (s : State) (link n : Nat) (g : Group) : Bool :=
  g.peers && g.holds &&
  ((decide (32 * s.modX.toNat + 32 < g.gx0 + g.w) && decide (link = 4 + Config.routePort n 0 % 3)) ||
   (decide (32 * s.modY.toNat + 32 < g.gy0 + g.h) && decide (link = 7 + Config.routePort n 1 % 3)))

/-- The groups whose routes a link carries break with cause 9 (R115, R225). -/
def State.breakRoutes (s : State) (link : Nat) : State :=
  ((s.groups.filter fun (q : Nat × Group) => s.carries link q.1 q.2).map (·.1)).foldl (fun st n => st.breakGroup n 9) s

/-- A link enters DOWN: no lane is active. -/
def State.linkDown (s : State) (link : Nat) : State :=
  (s.modLink link fun l => { l with st := .down, width := 0, rate := 0 }).breakRoutes link

/-- A link enters FENCED; on the guest link with the effects of R232. -/
def State.linkFence (s : State) (link : Nat) : State :=
  if (s.link link).st == .fenced then s
  else
    let s1 := (s.modLink link fun l => { l with st := .fenced, width := 0, rate := 0 }).breakRoutes link
    if link = 13 then s1.guestFence else s1

/-- A link enters TRAINING: the entry is counted, and replays count from 0 (R218). -/
def State.linkTrain (s : State) (link : Nat) : State :=
  s.modLink link fun l => { l with
    st := .training, width := 0, rate := 0, replays := 0, burst := 0, since := s.tick.toNat
    retrains := if l.retrains = 0xFF#8 then l.retrains else l.retrains + 1 }

/-! ### Commands (R219) -/

/-- The link that a command names. -/
def lkLink (w : Word) : Nat := bits w.toNat 11 8

/-- The operation of a command. -/
def lkOp (w : Word) : Nat := bits w.toNat 2 0

/-- Serve the oldest command for a link if it is the given operation; one without a transition is ignored. -/
def State.lkServe (s : State) (link op : Nat) (f : State → State) : State :=
  match s.lkQ.find? fun p => lkLink p.word == link with
  | some p => if lkOp p.word = op then f { s with lkQ := s.lkQ.erase p } else s
  | none => s

/-- enable: DOWN to TRAINING. -/
def State.linkEnable (s : State) (link : Nat) : State := if (s.link link).st == .down then s.linkTrain link else s

/-- retrain: UP or DEGRADED to TRAINING. -/
def State.linkRetrain (s : State) (link : Nat) : State := if (s.link link).works then s.linkTrain link else s

/-- unfence: FENCED to DOWN. -/
def State.linkUnfence (s : State) (link : Nat) : State := if (s.link link).st == .fenced then s.linkDown link else s

/-- LK_ENABLE (R217, R219). -/
def execLkEnable (link : Nat) (s : State) : Out := .next (s.lkServe link 1 fun st => st.linkEnable link)

/-- LK_RETRAIN (R217, R219). -/
def execLkRetrain (link : Nat) (s : State) : Out := .next (s.lkServe link 2 fun st => st.linkRetrain link)

/-- LK_FENCE (R217, R219). -/
def execLkFence (link : Nat) (s : State) : Out := .next (s.lkServe link 3 fun st => st.linkFence link)

/-- LK_UNFENCE (R217, R219). -/
def execLkUnfence (link : Nat) (s : State) : Out := .next (s.lkServe link 4 fun st => st.linkUnfence link)

/-! ### Training (R217) -/

/-- Change a link that is in TRAINING. -/
def State.ifTraining (s : State) (link : Nat) (f : State → State) : State :=
  if decide (link < 14) && (s.link link).st == .training then f s else s

/-- LINK_TRAINED_FULL: a rate that the port does not support is no outcome of its training, and changes nothing (R217, R220, R224, R226). -/
def execLinkTrainedFull (link : Nat) (rate : BitVec 8) (s : State) : Out :=
  .next (s.ifTraining link fun st =>
    if (linkRates link).contains rate.toNat then
      st.modLink link fun l => { l with st := .up, width := BitVec.ofNat 8 (fullWidth link), rate := rate }
    else st)

/-- LINK_TRAINED_REDUCED: a width below the least counts as failed training (R217); another width or rate that the port does not support changes nothing (R220, R224, R226). -/
def execLinkTrainedReduced (link : Nat) (width rate : BitVec 8) (s : State) : Out :=
  .next (s.ifTraining link fun st =>
    if width.toNat < leastWidth link then st.linkDown link
    else if (reducedWidths link).contains width.toNat && (linkRates link).contains rate.toNat then st.modLink link fun l => { l with st := .degraded, width := width, rate := rate }
    else st)

/-- LINK_TRAINING_FAIL (R217). -/
def execLinkTrainingFail (link : Nat) (s : State) : Out := .next (s.ifTraining link fun st => st.linkDown link)

/-- LINK_TRAINING_TIMEOUT: 10,000 ticks in TRAINING (R217). -/
def execLinkTrainingTimeout (link : Nat) (s : State) : Out :=
  .next (s.ifTraining link fun st => if (st.link link).since + 10000 ≤ st.tick.toNat then st.linkDown link else st)

/-! ### Replays (R217, R218, R224) -/

/-- FLIT_CRC_REPLAY: a flit is sent again; replays count in all and within the tick (R217, R218, R224). -/
def execFlitCrcReplay (link : Nat) (s : State) : Out :=
  .next (
    if decide (link < 14) && (s.link link).works then
      s.modLink link fun l => { l with
        replays := if l.replays = 0xFFFF#16 then l.replays else l.replays + 1
        burst := if l.burstTick = s.tick.toNat then l.burst + 1 else 1
        burstTick := s.tick.toNat }
    else s)

/-- LINK_ERROR_THRESHOLD: 16 replays were needed within one tick (R217). -/
def execLinkErrorThreshold (link : Nat) (s : State) : Out :=
  .next (if (s.link link).works && decide (16 ≤ (s.link link).burst) then s.linkTrain link else s)

end Sys2Proof.Machine
end

