-- ==== Sys2Proof/Machine/Guest.lean ====
section
/-! DEFINITION. The guest socket: queue commands, packets, the translation agent, coherent requests, invalidations and the bound (R227 to R233). -/

namespace Sys2Proof.Machine

/-! ### gq.ctl (R228) -/

/-- The queue of a command. -/
def gqQueue (w : Word) : Nat := bits w.toNat 12 8

/-- The operation of a command. -/
def gqOp (w : Word) : Nat := bits w.toNat 2 0

/-- The command in progress is complete: busy 0 with its status. -/
def State.gqReply (s : State) (status : Nat) : State :=
  { s with gqQ := s.gqQ.drop 1, gqCtl := BitVec.ofNat 64 (at_ status 60 + s.gqCtl.toNat % 2 ^ 13) }

/-- Serve the command in progress if it is the given operation, or an unknown one (status 3). -/
def State.gqServe (s : State) (op : Nat) (f : State → Pending → State) : State :=
  match s.gqQ with
  | [] => s
  | p :: _ =>
    let o := gqOp p.word
    if o = 0 || 2 < o then s.gqReply 3
    else if o = op then f s p
    else s

/-- The checks of ENABLE. -/
def State.gqOk (s : State) (q : Nat) : Bool :=
  let d := (s.recallRange (s.gqDesc q) 64).peek (s.gqDesc q) 64
  let c := s.ctxOf (field d 10 2)
  field d 12 4 == 0 && natOf (d.drop 24) == 0 && decide (4 ≤ field d 8 1) && decide (field d 8 1 ≤ 16) && field d 0 8 % 4096 == 0 &&
  decide (field d 10 2 < 64) && (c.st == .ready || c.st == .running) && c.perm.getLsbD 3 && (s.link 13).works

/-- ENABLE: a DISABLED queue that passes the checks is ACTIVE with both indexes 0. -/
def gqEnableStep (s : State) (p : Pending) : State :=
  let q := gqQueue p.word
  if s.gqState q ≠ 0 then s.gqReply 1
  else if s.gqBase ≠ 0 && s.gqOk q then ((s.recWrite (s.gqDesc q) 16 (zeros 8)).gqSet q 1).gqReply 0
  else s.gqReply 2

/-- GQ_ENABLE (R228). -/
def execGqEnable (s : State) : Out := .next (s.gqServe 1 gqEnableStep)

/-- Bit 32 of the word of a DISABLE that has quiesced its queue and waits for the answer. -/
def gqWaiting (p : Pending) : Bool := p.word.getLsbD 32

/-- DISABLE (R228, R233). -/
def gqDisableStep (s : State) (p : Pending) : State :=
  let q := gqQueue p.word
  let st := s.gqState q
  let fenced := (s.link 13).st == .fenced
  if st = 0 then s.gqReply 0
  else if st = 1 then { s.quiesce q with gqQ := [⟨p.core, p.word ||| (1 <<< 32)⟩] }
  else if st = 2 then (if gqWaiting p then s else s.gqReply 1)
  else if st = 3 || !fenced then (s.gqOff q).gqReply 0
  else s.gqReply 1

/-- GQ_DISABLE (R228). -/
def execGqDisable (s : State) : Out := .next (s.gqServe 2 gqDisableStep)

/-! ### Packets (R230) -/

/-- The guest may act for a queue: its link works and the queue is ACTIVE or QUIESCING; the firewall refuses everything else. -/
def State.guestOpen (s : State) (q : Nat) : Bool := decide (q < 32) && (s.link 13).works && (s.gqState q == 1 || s.gqState q == 2)

/-- The indexes from one read index to another; more than the ring holds is no report of started packets. -/
def State.reported (s : State) (q old new : Nat) : List Nat :=
  let n := (new + 2 ^ 32 - old) % 2 ^ 32
  if s.gqSize q < n then [] else (span old n).map (· % 2 ^ 32)

/-- The agent cannot read a packet yet: a lock or a link holds it (R139, R223). -/
def State.packetHeld (s : State) (q i : Nat) : Bool :=
  match s.guestXlate .load (s.gqCtx q) (s.gqPacket q i) 64 with
  | .ok p _ => s.mustWait p 64
  | .wait => true
  | .fail _ | .deny _ => false

/-- Those of the packets at some indexes that are not empty, in order: one that cannot be read counts as one (log 44). -/
def State.startedFrom (s : State) (q : Nat) (l : List Nat) : List (Nat × Nat) × State :=
  l.foldl (fun (acc : List (Nat × Nat) × State) i =>
    match acc.2.guestBytes (acc.2.gqCtx q) (acc.2.gqPacket q i) 64 with
    | (some pk, s1) => (if field pk 0 1 = 0 then acc.1 else acc.1 ++ [(q, i)], s1)
    | (none, s1) => (acc.1 ++ [(q, i)], s1)) ([], s)

/-- A report of the read index of a queue: the agent writes read; the packets up to it have started (R230). It waits while the agent cannot read a packet of it. -/
def State.readReport (s : State) (q : Nat) (read : BitVec 32) : State :=
  if s.guestOpen q then
    let l := s.reported q (s.recField (s.gqDesc q) 20 4) read.toNat
    if l.any (s.packetHeld q) then { s with guest := { s.guest with reports := s.guest.reports ++ [(q, read)] } }
    else
      let (new, s1) := s.startedFrom q l
      let s2 := s1.recWrite (s1.gqDesc q) 20 (bytesOf 4 read.toNat)
      { s2 with guest := { s2.guest with started := s2.guest.started ++ new } }
  else s

/-- GUEST_READ_REPORT (R230), behind the reports that wait. -/
def execGuestReadReport (q : Nat) (read : BitVec 32) (s : State) : Out :=
  .next (if s.guestOpen q && s.guest.reports.any (fun r => r.1 == q) then { s with guest := { s.guest with reports := s.guest.reports ++ [(q, read)] } }
    else s.readReport q read)

/-- The reports that wait are tried again, in their order. -/
def State.reportsOut (s : State) : State :=
  s.guest.reports.foldl (fun st r =>
    if st.guest.reports.any fun o => o.1 == r.1 then { st with guest := { st.guest with reports := st.guest.reports ++ [r] } }
    else st.readReport r.1 r.2) { s with guest := { s.guest with reports := [] } }

/-- The group that a record fired by a packet joins where nothing has armed it: the first of its context that holds a clearing (log 24). -/
def State.guestGroup (s : State) (ctx : Nat) : Nat :=
  match s.groups.find? fun q => q.2.ctx == ctx && q.2.holds with
  | some q => q.1
  | none => 0

/-- One decrement at its home by the steps of R87: at zero the counter's record is enqueued. R93 and R230 name no origin grove for it: it is the counter's home slice (DESIGN CHOICE, log 80). -/
def State.guestDecrement (s : State) (ctx p : Nat) (inter : Bool) : State :=
  let n := natOf (s.homeRead p 4) - 1
  let s1 := s.guestPut p inter (bytesOf 4 n) 1 false
  if n = 0 then
    (s1.guestPut (p + 4) inter [1] 1 false).fire (s1.guestGroup ctx) ctx (natOf (s1.homeRead (p + 8) 8) % 2 ^ 48) (s1.home p inter) (s1.childDepth none) none
  else s1

/-- A packet may complete: started, not paused at a fault, and after every earlier one where its flags ask for that. -/
def State.packetReady (s : State) (q i : Nat) (flags : Nat) : Bool :=
  let mine := (s.guest.started.filter fun p => p.1 == q).map (·.2)
  mine.contains i && !(s.guest.paused.any fun p => p.1 == q && p.2.1 == i) && (!bitAt flags 0 || mine.head? == some i)

/-- The status that a completion carries: 2 for a reserved type; 3 instead of 1 where the counter is refused. -/
def packetStatus (type asked : Nat) (refused : Bool) : Nat :=
  let st := if 3 ≤ type then 2 else if asked = 1 then 1 else 2
  if refused && st = 1 then 3 else st

/-- Where a completion writes: the place of n aligned bytes, a failed check, or a wait for a lock or a link that trains. An address that is not aligned or does not fit 48 bits is no place, and neither is one that the permissions of its context deny: nothing is written there (log 44). -/
def State.guestTarget (s : State) (acc : Access) (ctx va n : Nat) : XRes :=
  if 2 ^ 48 ≤ va || va % n ≠ 0 then .deny Cause.translation
  else match s.guestXlate acc ctx va n with
    | .ok p inter => if s.mustWait p n then .wait else .ok p inter
    | .fail f => .fail f
    | .deny c => .deny c
    | .wait => .wait

/-- The targets of a packet: the completion word, and the counter where it has one. -/
def State.packetTargets (s : State) (ctx : Nat) (pk : List Byte) : XRes × XRes :=
  (s.guestTarget .store ctx (field pk 24 8) 8,
    if field pk 32 8 = 0 then .deny 0 else s.guestTarget .atomic ctx (field pk 32 8) 16)

/-- Complete a packet whose bytes are read: the completion word, then the counter (R230). -/
def State.packetEnd (s : State) (q i : Nat) (pk : List Byte) (asked : Nat) (done cnt : XRes) : State :=
  let ctx := s.gqCtx q
  let refused := match cnt with
    | .ok p _ => natOf (s.homeRead p 4) == 0
    | .fail _ | .deny _ | .wait => false
  let word := bytesOf 8 (at_ (field pk 56 8 % 2 ^ 56) 8 + packetStatus (field pk 0 1) asked refused)
  let s0 := { s with guest := { s.guest with started := s.guest.started.filter fun p => p != (q, i) } }
  let s1 := match done with
    | .ok p inter => s0.guestPut p inter word 0 true
    | .fail _ | .deny _ | .wait => s0
  match cnt with
  | .ok p inter => if refused then s1 else s1.guestDecrement ctx p inter
  | .fail _ | .deny _ | .wait => s1

/-- The enqueue of the record that a packet's counter fires waits for a lock or a link (R139, R223). -/
def State.packetTrains (s : State) (ctx : Nat) (cnt : XRes) : Bool :=
  match cnt with
  | .ok p inter => s.recWaits noTask ctx [(p, inter)] []
  | .fail _ | .deny _ | .wait => false

/-- A failed check of a packet's own write: its record, which pauses the packet; it waits while the queue may write none (R168, R211, R231). -/
def State.packetFault (s : State) (q i : Nat) (f : XFault) : State := if s.mayRecord q then s.guestRecord q (some i) f 0 else s.raiseIf (XRes.fail f).raises

/-- GUEST_PACKET_COMPLETE (R230). It waits while a commit holds a sector that it writes, or a link of it trains; a write of it that fails its checks pauses the packet with a record, before anything is written. -/
def execGuestPacketComplete (q : Nat) (idx : BitVec 32) (status : BitVec 8) (s : State) : Out :=
  .next (
    if s.guestOpen q then
      match s.guestBytes (s.gqCtx q) (s.gqPacket q idx.toNat) 64 with
      | (some pk, s1) =>
        if !s1.packetReady q idx.toNat (field pk 1 1) then s1
        else
          let s2 := (s1.guestWalk (s1.gqCtx q) (field pk 24 8)).guestWalk (s1.gqCtx q) (field pk 32 8)
          match s2.packetTargets (s2.gqCtx q) pk with
          | (.wait, _) | (_, .wait) => s2
          | (.fail f, _) | (_, .fail f) => s2.packetFault q idx.toNat f
          | (done, cnt) => if s2.packetTrains (s2.gqCtx q) cnt then s2 else s2.packetEnd q idx.toNat pk status.toNat done cnt
      | (none, s1) => s1
    else s)

/-! ### The translation agent (R231) -/

/-- GUEST_TRANSLATION_REQUEST: a good translation may be cached by the guest; a failed one is returned to it as a fault (R231). -/
def execGuestTranslationRequest (q : Nat) (va : Addr) (acc : Access) (s : State) : Out :=
  let ctx := s.gqCtx q
  .next (
    if s.guestOpen q then
      let s := s.walkTouch ctx [va.toNat]
      match s.walkRaw ctx va.toNat, s.translateRaw ⟨0, ctx, 5⟩ acc .plain (va.setWidth 64) 1 with
      | .leaf pte level size, .ok _ _ =>
        let e : TlbEntry := ⟨ctx, va.toNat / size * size, size, BitVec.ofNat 64 pte, level⟩
        { s with guest := { s.guest with tlb := e :: s.guest.tlb.filter fun o => o != e } }
      | _, r => s.raiseIf r.raises
    else s)

/-- GUEST_FAULT_RECORD: the failed check is the one that the agent finds for the address (R231). -/
def execGuestFaultRecord (q : Nat) (idx : BitVec 32) (va : Addr) (acc : Access) (progress : Nat) (s : State) : Out :=
  .next (
    if s.guestOpen q && s.mayRecord q && s.guest.started.contains (q, idx.toNat) then
      let s := s.walkTouch (s.gqCtx q) [va.toNat]
      match s.translateRaw ⟨0, s.gqCtx q, 5⟩ acc .plain (va.setWidth 64) 1 with
      | .fail f => s.guestRecord q (some idx.toNat) f progress
      | .ok _ _ | .deny _ | .wait => s
    else s)

/-! ### Coherence (R231) -/

/-- A store of the guest performs at the home, and the guest holds the sector modified. -/
def State.guestStore (s : State) (ctx p : Nat) (inter : Bool) (v : Word) : State :=
  let s1 := s.guestPut p inter (bytesOf 8 v.toNat) 0 false
  { s1 with guest := { s1.guest with held := s1.guest.held ++ [(sectorOf p, ctx)] } }

/-- The access that a request is. -/
def reqAccess : GuestReq → Access
  | .load | .writeBack => .load
  | .store _ => .store

/-- The firewall refuses a request at once: a Q page, or a host place outside the windows or behind a link that is down (R168, R223, R254). -/
def State.guestRefused (s : State) (va : Addr) (f : XFault) : Bool :=
  f.reason == 5 || (bitAt f.pte.toNat 11 && (s.hostRefused (leafPlace f.pte.toNat (pageSize f.level) va.toNat) 8).isSome)

/-- GUEST_COHERENT_ACCESS: one aligned word, serialised at its home as guest source. A Q page or a host window refuses it with a record, whose packet is the oldest started one of the queue (R168, R231, R254). -/
def execGuestCoherentAccess (q : Nat) (va : Addr) (req : GuestReq) (s : State) : Out :=
  let ctx := s.gqCtx q
  .next (
    if s.guestOpen q && va.toNat % 8 == 0 then
      let s := s.guestWalk ctx va.toNat
      match s.guestXlate (reqAccess req) ctx va.toNat 8 with
      | .ok p inter =>
        if s.locked p 8 then s
        else match req with
          | .load => if s.guest.held.any fun h => h.1 == sectorOf p then s else s.recallRange p 8
          | .store v => s.guestStore ctx p inter v
          | .writeBack => { s with guest := { s.guest with held := s.guest.held.filter fun h => h.1 != sectorOf p } }
      | .fail f =>
        if s.guestRefused va f && s.mayRecord q then
          s.guestRecord q ((s.guest.started.find? fun p => p.1 == q && !(s.guest.paused.any fun w => w.1 == q && w.2.1 == p.2)).map (·.2)) f 0
        else s.raiseIf (XRes.fail f).raises
      | .deny _ | .wait => s
    else s)

/-! ### Invalidations, quiescing and the bound (R210, R231 to R233) -/

/-- GUEST_INVALIDATION_ACK: the oldest invalidation is acknowledged (R231). -/
def execGuestInvalidationAck (s : State) : Out :=
  .next (match s.guest.inval with
    | (k, _) :: rest =>
      if s.guestUp then
        { s with guest := { s.guest with inval := rest, acked := s.guest.acked ++ (match k with
          | some slot => [slot]
          | none => []) } }
      else s
    | [] => s)

/-- GUEST_QUIESCED: the context's modified lines are written back and its translations dropped; the queue is QUIESCED (R232). -/
def execGuestQuiesced (q : Nat) (s : State) : Out :=
  let ctx := s.gqCtx q
  .next (
    if decide (q < 32) && (s.link 13).works && s.gqState q == 2 then
      let s1 := s.gqSet q 3
      { s1 with guest := { s1.guest with
          held := s1.guest.held.filter fun h => h.2 != ctx
          tlb := s1.guest.tlb.filter fun e => e.ctx != ctx
          quiesceAt := s1.guest.quiesceAt.drop q } }
    else s)

/-- Some quiesce or invalidation has missed the bound. -/
def State.boundMissed (s : State) : Bool :=
  (s.guest.quiesceAt.any fun q => decide (q.2 ≤ s.tick.toNat)) || (s.guest.inval.any fun q => decide (q.2 ≤ s.tick.toNat))

/-- GUEST_BOUND_EXPIRY: the guest link is fenced (R232). -/
def execGuestBoundExpiry (s : State) : Out := .next (if s.boundMissed then s.linkFence 13 else s)

end Sys2Proof.Machine
end

