-- ==== Sys2Proof/Machine/Hampers.lean ====
section
/-! DEFINITION. The operations on hampers by handle (R161 to R166, R342). -/

namespace Sys2Proof.Machine

/-- The index and hamper that a handle names: a CLOSED one of its generation, with no upper bit set (R161, R163). -/
def Slot.handle (sl : Slot) (v : Word) : Option (Nat × Hamper) :=
  if 2 ^ 16 ≤ v.toNat then none
  else match sl.hampers.find (v.toNat % 16) with
    | some h => if h.st == .closed && h.gen.toNat == v.toNat / 16 then some (v.toNat % 16, h) else none
    | none => none

/-- Go on with the hamper of a handle as its storage stands, or trap ILLEGAL with the handle (R156, R161). -/
def withHandle (s : State) (v : Word) (k : Nat → Hamper → Eff) : Eff :=
  match s.me.handle v with
  | some (i, h) => k i (s.readBack s.cur h)
  | none => .trap s Cause.illegal v 0

/-- hl.cat: the second list follows the first, and the second handle is FREE (R164). -/
def execHlCat (a b : Reg) (s : State) : Out :=
  let va := s.x a
  let vb := s.x b
  guarded s (withHandle s va fun i h => withHandle s vb fun j g =>
    if i = j then .trap s Cause.illegal va 0
    else .next (s.modMe fun q => { q with
      hampers := (q.hampers.put i { h with entries := h.entries ++ g.entries, places := h.places ++ g.places, frames := h.frames ++ g.frames }).drop j }))

/-- An entry that hl.filt keeps: its kind is in the mask and its effective address in the range (R164). -/
def HEntry.kept (e : HEntry) (lo hi : Word) (kmask : BitVec 7) : Bool :=
  kmask.getLsbD e.kind.toNat && decide (lo.toNat ≤ e.ea.toNat) && decide (e.ea.toNat < hi.toNat)

/-- hl.filt: the entries that stay move up in the hamper's storage (R164). -/
def execHlFilt (a b c : Reg) (kmask : BitVec 7) (s : State) : Out :=
  guarded s (withHandle s (s.x a) fun i h =>
    let es := h.entries.filter fun e => e.kept (s.x b) (s.x c) kmask
    let new := { h with entries := es, places := h.places.take ((es.map HEntry.size).sum) }
    .next ((s.modMe fun q => { q with hampers := q.hampers.put i new }).hamperOut s.cur new))

/-- hl.rebase: the effective addresses move, and the addresses as recorded stay in the storage; SPAWN and DEP entries do not move (R156, R164). -/
def execHlRebase (a b : Reg) (s : State) : Out :=
  let d := s.x b
  guarded s (withHandle s (s.x a) fun i h =>
    if d.toNat % 8 ≠ 0 then .trap s Cause.misaligned 0 0
    else
      .next (s.modMe fun q => { q with hampers := q.hampers.put i { h with
        entries := h.entries.map fun e => if e.kind == 2 || e.kind == 3 then e else { e with off := e.off + d.setWidth 48 } } }))

/-- Entries appended to the innermost open hamper under their effective addresses, all or none (R165). -/
def State.appendAll (s : State) (es : List HEntry) : Option State :=
  es.foldl (fun acc e => match acc with
    | some st => st.hamperAppend { e with addr := e.ea, off := 0 }
    | none => none) (some s)

/-- A direct apply as one commit: refused before any lock, held while another commit holds a sector or a source or a record waits for its link. The next instruction does not issue before its enqueues stand in the replay window (R100, R165, R166). -/
def applyDirect (es : List HEntry) (s0 : State) : Eff :=
  let w : Who := ⟨s0.cur, s0.me.ctx, 0⟩
  let s := s0.planTouch w 0 es
  match s.commitPlan w 0 es with
  | .error (.check f) => .xfault s f f.addr
  | .error (.cause c a) => .trap s c a 0
  | .error .wait => .hold s
  | .ok (ps, cs) =>
    if s.blocked ps cs || s.sourceWaits noTask ps || s.pieceTrains ps cs then .hold s
    else if s.underflow cs then .trap s Cause.counterUnderflow 0 0
    else if s.recWaits noTask s.me.ctx cs ps then .hold s
    else .next (((s.recallLists w es).applyCommit s.cur noTask ⟨s.spawnGroup s.cur, s.me.ctx, groveOf s.cur, s.me.task, none⟩ ps cs).stallFull s)

/-- hl.apply: inside collecting mode it appends, else it commits at once; an entry whose capture is not done is waited for (R157, R165). -/
def execHlApply (a : Reg) (s : State) : Out :=
  guarded s (withHandle s (s.x a) fun _ h =>
    if s.me.collecting then
      match s.appendAll h.entries with
      | some s1 => .next s1
      | none => .trap s Cause.hamperCapacity 0 0
    else if uncaptured h.entries then .hold s
    else s.release fun s1 => applyDirect h.entries s1)

/-- hl.drop: FREE, its frames back in the pool (R164). -/
def execHlDrop (a : Reg) (s : State) : Out :=
  guarded s (withHandle s (s.x a) fun i h =>
    .next ((s.freeHampers s.me.ctx [h]).modMe fun q => { q with hampers := q.hampers.drop i }))

/-- hl.len (R164). -/
def execHlLen (a b : Reg) (s : State) : Out :=
  guarded s (withHandle s (s.x a) fun _ h => .next (s.setX b (BitVec.ofNat 64 h.entries.length)))

end Sys2Proof.Machine
end

