-- ==== Sys2Proof/Machine/QuiltWrite.lean ====
section
/-! DEFINITION. The writers of a quilt, ql.app, ql.put and ql.pub, and the expansion aperture (R171, R172, R178 to R182, R186, R397). -/

namespace Sys2Proof.Machine

/-! ### The log (R171, R172) -/

/-- What a writer is about to do: the log as it then stands (base, size, head, tail), and the bytes to write with their virtual addresses, in order. -/
structure QPlan where
  base : Nat
  size : Nat
  head : Nat
  tail : Nat
  writes : List (Nat × List Byte)
  deriving DecidableEq, Repr

/-- The free space of the log (R171). -/
def QPlan.free (p : QPlan) : Nat := p.size - (p.head + p.size - p.tail % p.size) % p.size - 128

/-- Append an object of n bytes at head, aligned and unsplit: its address, or none where it does not fit (R172). -/
def QPlan.alloc (p : QPlan) (al n : Nat) : Option (Nat × QPlan) :=
  let up := ceilDiv p.head al * al
  let start := if up + n ≤ p.size then up else 0
  let pad := if up + n ≤ p.size then up - p.head else p.size - p.head
  if pad + n ≤ p.free then some (p.base + start, { p with head := (start + n) % p.size }) else none

/-- Write bytes at an address. -/
def QPlan.write (p : QPlan) (va : Nat) (bs : List Byte) : QPlan := { p with writes := p.writes ++ [(va, bs)] }

/-- Append an object with its bytes. -/
def QPlan.add (p : QPlan) (al : Nat) (bs : List Byte) : Option (Nat × QPlan) :=
  (p.alloc al bs.length).map fun q => (q.1, q.2.write q.1 bs)

/-- Write on the rule path; every piece is translated and checked for W before any byte is written. -/
def qWriteAll (ws : List (Nat × List Byte)) : RuleM Unit := do
  let parts ← ws.mapM fun w => (pagePieces w.1 w.2.length).mapM fun pc => do
    let (p, _) ← qPlace .store .quilt pc.1 pc.2
    pure (p, (w.2.drop (pc.1 - w.1)).take pc.2)
  modify fun q => { q with s := parts.flatten.foldl (fun st w => st.recWrite w.1 0 w.2) q.s }

/-! ### Drafts (R180) -/

/-- The owner word of a slot: its task's record address, or a number of its own for a slot that runs no task (R170). -/
def State.ownerWord (s : State) (slot : Nat) : Nat :=
  if (s.slot slot).task.isSome then s.taskVa slot else 2 ^ 63 + slot

/-- A draft as an instruction finds or opens it: the descriptor, the current version record, the draft's address and bytes, whether it opens now. -/
structure QDraft where
  da : Nat
  d : List Byte
  cur : List Byte
  ver : Nat
  v : List Byte
  opens : Bool
  deriving DecidableEq, Repr

/-- The record of a new draft: a copy of the current version's fields with the next number, no readers, state DRAFT and the version before it; reserved bytes are zeros (R5, R173, R180). -/
def draftRecord (c : List Byte) (ca : Nat) : List Byte :=
  bytesOf 4 (field c 0 4 + 1) ++ zeros 12 ++ (c.drop 16).take 12 ++ zeros 4 ++ (c.drop 32).take 6 ++ zeros 2 ++ (c.drop 40).take 4 ++ zeros 4 ++
  (c.drop 48).take 8 ++ bytesOf 8 ca ++ zeros 64

/-- The draft that a writer meets: its own, a new copy of the current version, or busy (none). A new draft's address is known once it is appended. -/
def qDraft (da : Nat) : RuleM (Option QDraft) := do
  let q ← get
  let d ← qDesc da
  let ca := field d 16 8
  if field d 6 1 = 0 then do
    let c ← qRead .quilt ca ca 128
    if versionCrc c ≠ field c 124 4 then qTrap Cause.checksum ca
    else pure (some ⟨da, d, c, 0, draftRecord c ca, true⟩)
  else if field d 32 8 ≠ q.s.ownerWord q.slot then pure none
  else do
    let c ← qRead .quilt ca ca 128
    let va := field d 24 8
    let v ← qRead .quilt va va 128
    pure (some ⟨da, d, c, va, v, false⟩)

/-- The plan that a writer starts from: a new draft's record is appended first. -/
def QDraft.plan (t : QDraft) : Option (Nat × QPlan) :=
  let p : QPlan := ⟨field t.d 40 8, field t.d 48 8, field t.d 56 8, field t.d 64 8, []⟩
  if t.opens then p.alloc 128 128 else some (t.ver, p)

/-- Carry a plan out, in one step at the descriptor's home: its objects, the draft record, state, draft, owner and head (R180, R397). A task's draft is known to the device, which discards it with its owner. -/
def QDraft.carry (t : QDraft) (ver : Nat) (v : List Byte) (p : QPlan) : RuleM Unit := do
  let q ← get
  let own := q.s.ownerWord q.slot
  qWriteAll (p.writes ++ [(ver, v), (t.da + 6, [1]), (t.da + 24, bytesOf 8 ver ++ bytesOf 8 own), (t.da + 56, bytesOf 8 p.head)])
  modify fun q => match (q.s.slot q.slot).task with
    | some key => if t.opens then { q with s := { q.s with drafts := q.s.drafts ++ [⟨q.ctx, t.da, key⟩] } } else q
    | none => q

/-- The view of a draft version. -/
def QDraft.view (t : QDraft) : QView := viewOf (field t.d 8 4) (field t.d 12 2) (field t.d 5 1) t.v

/-! ### Status words (R397) -/

/-- The status word. -/
def qStatus (st id : Nat) : Word := BitVec.ofNat 64 (st + at_ id 32)
/-- Done, with the id that ql.app mapped. -/
def qDone (id : Nat) : Word := qStatus 0 id
/-- Busy. -/
def qBusy : Word := qStatus 1 0
/-- Log full. -/
def qFull : Word := qStatus 2 0

/-- A writer of a slot: COLLECT_FORBIDDEN before every other check (R178, R397), then the quilt permission, the descriptor's alignment (R170), the operand's alignment and area, and its words. -/
def qWriter (a : Reg) (desc o : Word) (n al : Nat) (m : RuleM Word) (s : State) : Eff :=
  if s.me.collecting || s.me.classCT then .trap s Cause.collectForbidden 0 4
  else if !s.quiltOk then .trap s Cause.permission 0 4
  else if desc.toNat % 128 ≠ 0 then .trap s Cause.misaligned desc 4
  else if o.toNat % al ≠ 0 then .trap s Cause.misaligned 0 4
  else if n ≠ 0 && s.areaOut false o.toNat n then .trap s Cause.permission 0 4
  else if s.tcmPoison (coreOf s.cur) o.toNat n then .trap s Cause.poison o 4
  else ruleRun s m fun w s1 => .next (s1.setX a w)

/-! ### ql.app (R178, R179, R397) -/

/-- Read a payload from its source, a page without Q that needs R; a failed check names the source (R397). -/
def qSource (src n : Nat) : RuleM (List Byte) := do
  let parts ← (pagePieces src n).mapM fun pc => do
    let q ← get
    if 2 ^ 48 ≤ pc.1 then qTrap Cause.translation src
    else
      let (r, s1) := q.s.translate (coreOf q.slot) ⟨q.slot, q.ctx, 4⟩ .rule .plain (BitVec.ofNat 64 pc.1) pc.2 false false
      set { q with s := s1 }
      match r with
      | .ok p _ =>
        match ← qTake p pc.2 with
        | some bs => pure bs
        | none => qTrap Cause.poison src
      | .fail f => throw (.checkAt f src)
      | .deny cause => qTrap cause src
      | .wait => throw .wait
  pure parts.flatten

/-- Steps 1 to 3 of R397 up to the copy: the image's crc, the bounds of a BLOCK, its payload. -/
def qImage (fmt toff : Nat) (img : List Byte) : RuleM (Option (List Byte)) := do
  if (crc32c (img.take 124)).toNat ≠ field img 124 4 then qTrap Cause.checksum toff
  else if field img 0 1 ≠ 4 then pure none
  else
    let n := field img 8 6
    let size := field img 24 4
    if field img 1 1 ≠ fmt || n = 0 || n % granule fmt ≠ 0 || 2 ^ 20 < size || size ≠ elemBytes fmt n then
      qTrap Cause.ruleStructure toff
    else do
      let pay ← qSource (field img 16 8) size
      if (crc32c pay).toNat ≠ field img 28 4 then qTrap Cause.checksum (field img 16 8) else pure (some pay)

/-- A record with its payload's address in the log, its crc computed afresh. -/
def sealImage (img : List Byte) (addr : Option Nat) : List Byte :=
  match addr with
  | some a =>
    let b := patch img 16 (bytesOf 8 a)
    patch b 124 (bytesOf 4 (crc32c (b.take 124)).toNat)
  | none => img

/-- Step 4 of R397: the record by R176 against the draft; a remap keeps length and format (R179). The old record's fields are compared as they stand, whatever its crc: a remap repairs a damaged record (R413). The payload's address is a log address by then. -/
def qFits (v : QView) (toff : Nat) (img : List Byte) : RuleM Unit := do
  let id := field img 4 4
  let b := if field img 0 1 = 4 then sealImage img (some 0) else img
  let r := recOf toff b
  if id = 0 || v.nrules + 1 < id || !recOk v.fmt id b then qTrap Cause.ruleStructure toff
  else do
    if r.kind = 2 || r.kind = 3 then do
      let l ← qRule v r.left
      let c ← if r.kind = 2 then some <$> qRule v r.right else pure none
      if !linkOk r l c then qTrap Cause.ruleStructure toff
    if id ≤ v.nrules then do
      let oa ← qMap v id
      let old ← qRead .quilt oa oa 128
      if field old 8 6 ≠ r.length || field old 1 1 ≠ v.fmt then qTrap Cause.ruleStructure toff

/-- The pointers of a mapping directory with n rules (R174). -/
def qDir (dir n : Nat) : RuleM (List Nat) := do
  let k := ceilDiv (n + 1) 512
  let bs ← qRead .quilt dir dir (8 * k)
  pure ((List.range k).map fun i => field bs (8 * i) 8)

/-- The mapping of an id to a record written at rec: the page copied or new, then the directory, where the draft first changes them (R178). The plan and the draft's directory. -/
def qRemap (t : QDraft) (id rec : Nat) (p : QPlan) : RuleM (Option (Nat × QPlan)) := do
  let v := t.view
  let curDir := field t.cur 16 8
  let dp ← qDir v.mapdir v.nrules
  let cp ← qDir curDir (field t.cur 24 4)
  let pg := id / 512
  let off := 8 * (id % 512)
  let ent := bytesOf 8 (rec + 1)
  let newDir := fun (ptrs : List Nat) (q : QPlan) => (q.add 128 ((ptrs.map fun a => bytesOf 8 a).flatten))
  match dp[pg]? with
  | none =>
    pure ((p.add 4096 (patch (zeros 4096) off ent)).bind fun r => newDir (dp ++ [r.1]) r.2)
  | some a =>
    if cp[pg]? = some a then do
      let page ← qMapPage v pg a
      pure ((p.add 4096 (patch page off ent)).bind fun r =>
        if v.mapdir = curDir then newDir (dp.set pg r.1) r.2
        else some (v.mapdir, r.2.write (v.mapdir + 8 * pg) (bytesOf 8 r.1)))
    else if v.mapdir = curDir then pure (newDir dp (p.write (a + off) ent))
    else pure (some (v.mapdir, p.write (a + off) ent))

/-- The plan of ql.app once the image is sound: payload, record, mapping (R178). -/
def qAppend (t : QDraft) (img : List Byte) (pay : Option (List Byte)) : RuleM Word := do
  let id := field img 4 4
  match t.plan with
  | none => pure qFull
  | some (ver, p0) =>
    let placed : Option (Option Nat × QPlan) := match pay with
      | some b => (p0.add 128 b).map fun r => (some r.1, r.2)
      | none => some (none, p0)
    match placed with
    | none => pure qFull
    | some (addr, p1) =>
      match p1.add 128 (sealImage img addr) with
      | none => pure qFull
      | some (rec, p2) => do
        match ← qRemap t id rec p2 with
        | none => pure qFull
        | some (dir, p3) => do
          let n := if t.view.nrules < id then id else t.view.nrules
          t.carry ver (patch (patch t.v 16 (bytesOf 8 dir)) 24 (bytesOf 4 n)) p3
          pure (qDone id)

/-- ql.app: busy is decided first (R180), then the image (R397). -/
def qApp (da toff : Nat) (img : List Byte) : RuleM Word := do
  match ← qDraft da with
  | none => pure qBusy
  | some t => do
    let pay ← qImage (field t.d 5 1) toff img
    qFits t.view toff img
    qAppend t img pay

/-- ql.app (R397). -/
def execQlApp (a b c : Reg) (s : State) : Out :=
  guarded s (qWriter a (s.x b) (s.x c) 128 128
    (qApp (s.x b).toNat (s.x c).toNat (s.tcmRead (coreOf s.cur) (s.x c).toNat 128)) s)

/-! ### ql.put (R178, R397) -/

/-- The put block breaks its layout: a reserved kind, a byte of 16 to 31 that its kind has zero, or a count, a length or a number of rows of 0; a sequence has one row. Bytes 1 to 3 and 12 to 15 are reserved, so nothing reads them (R5, R397). -/
def putBad (shape : Nat) (b : List Byte) : Bool :=
  let k := field b 0 1
  decide (2 < k) ||
  (k == 1 && (field b 8 4 == 0 || field b 16 16 != 0)) ||
  (k == 2 && (field b 16 6 == 0 || field b 24 4 == 0 || field b 22 2 != 0 || field b 28 4 != 0 || (shape == 0 && field b 24 4 != 1)))

/-- An entry of a spine directory keeps R175; its reserved bytes are not looked at (R5). -/
def spineDirOk (e : List Byte) : Bool := field e 0 8 % 16 == 0 && field e 8 4 != 0

/-- The entries of the draft's spine directory, n rows, their reserved bytes as zeros (R5); those that it shares with the current version are checked (R175), those of a copy not before ql.pub (R397). -/
def qSpines (shared : Bool) (dir n : Nat) : RuleM (List Byte) := do
  let bs ← qRead .quilt dir dir (16 * n)
  let es := (List.range n).map fun i => (bs.drop (16 * i)).take 16
  match es.findIdx? fun e => shared && !spineDirOk e with
  | some i => qTrap Cause.ruleStructure (dir + 16 * i)
  | none => pure (es.map fun e => e.take 12 ++ zeros 4).flatten

/-- Write a row's entry of the spine directory, which is copied first where the draft still shares it (R178). The plan and the draft's directory. -/
def qSetRow (t : QDraft) (row addr count : Nat) (p : QPlan) : RuleM (Option (Nat × QPlan)) := do
  let v := t.view
  let ent := bytesOf 8 addr ++ bytesOf 4 count ++ zeros 4
  if v.spinedir = field t.cur 48 8 then
    match p.alloc 128 (16 * v.rows) with
    | none => pure none
    | some (na, p1) => do
      let old ← qSpines true v.spinedir v.rows
      pure (some (na, p1.write na (patch old (16 * row) ent)))
  else pure (some (v.spinedir, p.write (v.spinedir + 16 * row) ent))

/-- The spine address of a row of the current version; none beyond its rows. -/
def qCurSpine (t : QDraft) (row : Nat) : RuleM (Option Nat) := do
  if field t.cur 40 4 ≤ row then pure none
  else do
    let e ← qRead .quilt (field t.cur 48 8 + 16 * row) (field t.cur 48 8 + 16 * row) 8
    pure (some (natOf e))

/-- The entries of a row tile it: each starts where the last ended, and the last ends at the row's length (R175). -/
def qTile (v : QView) (sp : Nat × Nat) : Nat → Nat → Nat → RuleM Unit
  | 0, _, _ => pure ()
  | n + 1, i, pos => do
    let (off, id) ← qEntry v sp i (.start pos)
    let r ← qRule v id
    if n = 0 && off + r.length ≠ v.length then qTrap Cause.ruleStructure (sp.1 + 16 * i)
    else qTile v sp n (i + 1) (off + r.length)

/-- The current version under the descriptor's format. -/
def QDraft.curView (t : QDraft) : QView := viewOf (field t.d 8 4) (field t.d 12 2) (field t.d 5 1) t.cur

/-- A copy of a spine with n entries: the old ones that fit, then zeros. The current version's spine is checked as it is read (R175), a draft's own copy not before ql.pub (R397). -/
def qSpineCopy (t : QDraft) (shared : Bool) (addr old n : Nat) (p : QPlan) : RuleM (Option (Nat × QPlan)) := do
  match p.alloc 128 (16 * n) with
  | none => pure none
  | some (na, p1) => do
    if shared then qTile t.curView (addr, old) old 0 0
    let keep := if n < old then n else old
    let bs ← qRead .quilt addr addr (16 * keep)
    pure (some (na, p1.write na (bs ++ zeros (16 * (n - keep)))))

/-- A spine entry, kind 0: the spine copied where the draft still shares it. No rule names the outcome of a row at or beyond rows, or of an entry at or beyond the row's count: PERMISSION with address 0, as R396 has it for the readers (DESIGN CHOICE, log 109). -/
def qPutEntry (t : QDraft) (row i : Nat) (ent : List Byte) (p : QPlan) : RuleM (Option (Nat × QPlan)) := do
  let v := t.view
  if v.rows ≤ row then qTrap Cause.permission 0
  else do
    let de ← qRead .quilt (v.spinedir + 16 * row) (v.spinedir + 16 * row) 16
    let addr := field de 0 8
    let count := field de 8 4
    let cs ← qCurSpine t row
    if count ≤ i then qTrap Cause.permission 0
    else if cs = some addr then do
      match ← qSpineCopy t true addr count count p with
      | none => pure none
      | some (na, p1) => qSetRow t row na count (p1.write (na + 16 * i) ent)
    else pure (some (v.spinedir, p.write (addr + 16 * i) ent))

/-- An entry count, kind 1. A row at or beyond rows, for which no rule names an outcome, is PERMISSION with address 0 (DESIGN CHOICE, log 109). -/
def qPutCount (t : QDraft) (row n : Nat) (p : QPlan) : RuleM (Option (Nat × QPlan)) := do
  let v := t.view
  if v.rows ≤ row then qTrap Cause.permission 0
  else do
    let de ← qRead .quilt (v.spinedir + 16 * row) (v.spinedir + 16 * row) 16
    let addr := field de 0 8
    let count := field de 8 4
    let cs ← qCurSpine t row
    if cs = some addr || count < n then do
      match ← qSpineCopy t (cs == some addr) addr count n p with
      | none => pure none
      | some (na, p1) => qSetRow t row na n p1
    else qSetRow t row addr n p

/-- Length and rows, kind 2: rows that the quilt grows by have count 0, in a copy of the spine directory. -/
def qPutShape (t : QDraft) (rows : Nat) (p : QPlan) : RuleM (Option (Nat × QPlan)) := do
  let v := t.view
  if rows ≤ v.rows then pure (some (v.spinedir, p))
  else
    match p.alloc 128 (16 * rows) with
    | none => pure none
    | some (na, p1) => do
      let old ← qSpines (v.spinedir == field t.cur 48 8) v.spinedir v.rows
      pure (some (na, p1.write na (old ++ zeros (16 * (rows - v.rows)))))

/-- ql.put: one change of the draft. -/
def qPut (da : Nat) (b : List Byte) : RuleM Word := do
  match ← qDraft da with
  | none => pure qBusy
  | some t =>
    if putBad (field t.d 4 1) b then qTrap Cause.illegal 0
    else match t.plan with
      | none => pure qFull
      | some (ver, p) => do
        let k := field b 0 1
        let r ← if k = 0 then qPutEntry t (field b 4 4) (field b 8 4) (b.drop 16) p
          else if k = 1 then qPutCount t (field b 4 4) (field b 8 4) p
          else qPutShape t (field b 24 4) p
        match r with
        | none => pure qFull
        | some (dir, p1) => do
          let v1 := patch t.v 48 (bytesOf 8 dir)
          let v2 := if k = 2 then patch (patch v1 32 (field b 16 6 |> bytesOf 6)) 40 (bytesOf 4 (field b 24 4)) else v1
          t.carry ver v2 p1
          pure (qDone 0)

/-- ql.put (R397). -/
def execQlPut (a b c : Reg) (s : State) : Out :=
  guarded s (qWriter a (s.x b) (s.x c) 32 8 (qPut (s.x b).toNat (s.tcmRead (coreOf s.cur) (s.x c).toNat 32)) s)

/-! ### ql.pub (R181, R182, R397) -/

/-- Every row of a version from one on, n of them. -/
def qTileRows (v : QView) : Nat → Nat → RuleM Unit
  | 0, _ => pure ()
  | n + 1, row => do
    let sp ← qSpine v row
    qTile v sp sp.2 0 0
    qTileRows v n (row + 1)

/-- ql.pub: every row checked, then the publication in one step (R181), epoch with it where renew asks (R182). -/
def qPub (da : Nat) (renew : Bool) : RuleM Word := do
  let q ← get
  let d ← qDesc da
  if field d 6 1 = 0 || field d 32 8 ≠ q.s.ownerWord q.slot then pure qBusy
  else do
    let va := field d 24 8
    let ca := field d 16 8
    let v ← qRead .quilt va va 128
    let view := viewOf (field d 8 4) (field d 12 2) (field d 5 1) v
    qTileRows view view.rows 0
    let c ← qRead .quilt ca ca 128
    let v1 := patch v 8 [1]
    let v2 := patch v1 124 (bytesOf 4 (versionCrc v1))
    let old : Nat := if field c 4 4 = 0 then 3 else 2
    qWriteAll [(va, v2), (ca + 8, bytesOf 1 old), (da + 6, [0]), (da + 12, bytesOf 2 (field d 12 2 + flag renew)),
      (da + 16, bytesOf 8 va ++ zeros 16)]
    let (pa, _) ← qPlace .store .quilt da 128
    modify fun q => { q with s := { q.s with drafts := q.s.drafts.filter fun t => q.s.mapPlace t.ctx t.desc != some pa } }
    pure (qDone 0)

/-- ql.pub (R397). -/
def execQlPub (a b : Reg) (renew : Bool) (s : State) : Out :=
  guarded s (qWriter a (s.x b) 0 0 1 (qPub (s.x b).toNat renew) s)

/-! ### The expansion aperture (R186) -/

/-- A slot number beyond the module's: reads of the aperture use no core's TLB. -/
def noSlot : Nat := slotCount

/-- Bytes that the aperture reads; those of a poisoned sector are none (R186). -/
def qMarked (n : Nat) (m : RuleM (List (Option Byte))) : RuleM (List (Option Byte)) :=
  tryCatch m fun e => match e with
    | .trap c a => if c = Cause.poison then pure (List.replicate n none) else throw (.trap c a)
    | .check f => throw (.check f)
    | .checkAt f a => throw (.checkAt f a)
    | .wait => throw .wait

/-- The LEAF or BLOCK that holds a granule of a rule's expansion, and the granule's number there. -/
def qLocate (v : QView) : Nat → Nat → Nat → RuleM (RuleRec × Nat)
  | 0, _, _ => qTrap Cause.ruleStructure 0
  | fuel + 1, id, g => do
    let r ← qRule v id
    if r.kind = 1 || r.kind = 4 then pure (r, g)
    else do
      let l ← qRule v r.left
      let len := l.length / granule v.fmt
      if r.kind = 2 && decide (len ≤ g) then qLocate v fuel r.right (g - len) else qLocate v fuel r.left (g % len)

/-- A granule of a LEAF or BLOCK: where a sector of the payload is poisoned, the bytes of its other sectors stand. -/
def qUnit (v : QView) (r : RuleRec) (g : Nat) : RuleM (List (Option Byte)) := do
  let ub := unitSize v.fmt / 8
  let whole : RuleM (List (Option Byte)) := do
    let bs ← qPacked v r
    pure (((bs.drop (g * ub)).take ub).map some)
  if r.kind = 1 then whole
  else
    let each : RuleM (List (Option Byte)) := do
      let parts ← (span (field r.body 0 8 + g * ub) ub).mapM fun a => qMarked 1 (do
        let b ← qRead .quilt a a 1
        pure (b.map some))
      pure parts.flatten
    let bs ← qMarked ub whole
    if bs.all Option.isSome then pure bs else each

/-- One granule of a version's expansion by its number in the flat order; zeros beyond the end. -/
def qFlat (v : QView) (u : Nat) : RuleM (List (Option Byte)) :=
  let ub := unitSize v.fmt / 8
  qMarked ub (do
    let per := v.length / granule v.fmt
    if per = 0 || v.rows ≤ u / per then pure ((zeros ub).map some)
    else do
      let sp ← qSpine v (u / per)
      let col := u % per * granule v.fmt
      let i ← qSearch v sp (fun _ off => decide (off ≤ col)) 33 0 sp.2
      let (off, id) ← qEntry v sp (i - 1) .back
      let e ← qRule v id
      let _ ← qAfter v sp (i - 1) off id
      if off + e.length ≤ col then qTrap Cause.ruleStructure (sp.1 + 16 * i)
      else do
        let (r, g) ← qLocate v ruleFuel id ((col - off) / granule v.fmt)
        qUnit v r g)

/-- n bytes of the current version's expansion from a byte on. -/
def qExpand (da off n : Nat) : RuleM (List (Option Byte)) := qMarked n (do
  let d ← qDesc da
  let ca := field d 16 8
  let c ← qRead .quilt ca ca 128
  let v := viewOf (field d 8 4) (field d 12 2) (field d 5 1) c
  let ub := unitSize v.fmt / 8
  let u0 := off / ub
  let parts ← (span u0 (if n = 0 then 0 else (off + n - 1) / ub + 1 - u0)).mapM fun u => qFlat v u
  pure ((parts.flatten.drop (off - u0 * ub)).take n))

/-- The aperture that a loc = 1 address lies in. -/
def State.apertureAt (s : State) (a : Nat) : Option Aperture := s.apertures.find? fun q => decide (q.base ≤ a) && decide (a < q.base + q.size)

/-- What a read at an aperture leaves of the module: copies that it met are recalled (R142); no TLB holds its translations. -/
def State.apertureLeft (s : State) : State :=
  { s with cores := s.cores.drop (coreOf noSlot), groves := s.groves.drop (groveOf noSlot) }

/-- A read of n bytes by the host or a peer at an address of an aperture (R186): the current version's bytes, poison, the completer abort of a quilt that fails its checks, or no completion yet while a lock or a link holds it. A walk that meets a poisoned table page raises FAULT in the quilt's context (R76). -/
def execApertureRead (a n : Nat) (s : State) : Out :=
  match s.apertureAt a with
  | none => .next s
  | some q =>
    match (qExpand q.desc.toNat (a - q.base) n).run (QCtx.start s noSlot q.ctx) with
    | (.ok bs, c) => .next { c.s.apertureLeft with reply := markedReply bs }
    | (.error (.trap _ _), c) => .next { c.s.apertureLeft with reply := .abort }
    | (.error (.check f), c) | (.error (.checkAt f _), c) => .next { c.s.apertureLeft.raiseIf (XRes.fail f).raises with reply := .abort }
    | (.error .wait, c) => .next { c.s.apertureLeft with reply := .none }

/-- A record of the host as a source: QUILT_PROTECTION, reason 5 (R168, R186, R211). The access has completed, so the host awaits no replay (R344). -/
def State.hostRecord (s : State) (ctx a acc : Nat) : State :=
  let fs := { s.hostSrc.next (a / 4096) with awaiting := none }
  let f : XFault := ⟨ctx, BitVec.ofNat 64 a, 0, 5, acc, 6, 0, Cause.quiltProtection, false⟩
  let r : FaultRec := ⟨ctx, recordBytes f 0x8000 fs 0 0 s.tick.toNat, fs.seq⟩
  let s1 := { s with hostSrc := fs }
  let (s2, done) := s1.recordPut r
  if done then s2 else { s2 with hostRec := some r }

/-- A write to an aperture: completer abort, nothing changed, and a record (R186); it waits while an earlier record of the host has no room (R72). -/
def execApertureWrite (a : Nat) (s : State) : Out :=
  match s.apertureAt a with
  | none => .next s
  | some q => .next (if s.hostRec.isSome then { s with reply := .none } else { s.hostRecord q.ctx a 1 with reply := .abort })

end Sys2Proof.Machine
end

