-- ==== Sys2Proof/Machine/Sync.lean ====
section
/-! DEFINITION. Barriers, channels, waits, parked waits and messages (R116 to R126, R332 to R337). -/

namespace Sys2Proof.Machine

/-! ### Evaluating a wait (R118, R120, R122) -/

/-- The place of the module event word in the system window of the front-end grove (R252, R332). -/
def State.eventPlace (s : State) : Nat :=
  let g := s.frontEnd
  hostBase + 0xFFF0000000000 + ((g / 34) * s.fwwidth.toNat + (g % 34 - s.fwcol.toNat)) * 2 ^ 24 + 0x300180

/-- A channel of a group. -/
def State.chanOf (s : State) (grp k : Nat) : Option Chan :=
  match s.groups.find grp with
  | some g => g.chans[k]?
  | none => none

/-- A barrier is unusable or BROKEN: an arrival and a wait end with BROKEN_OBJECT (R116, R117). -/
def barDead (bs : List Byte) : Bool := field bs 0 4 == 0 || bitAt (field bs 12 1) 1

/-- A condition of a wait of a slot and group as it stands: whether it holds, and whether its object is broken. -/
def State.condNow (s : State) (slot grp : Nat) (c : Cond) : Bool × Bool :=
  match c.kind.toNat with
  | 0 => (natOf (s.homeRead c.pa 8) != c.val.toNat, false)
  | 1 => (s.isFull c.pa, false)
  | 2 => match s.cbOf (coreOf slot) (c.par.toNat % 16) with
    | some b => (decide (c.val.toNat ≤ b.filled), false)
    | none => (false, false)
  | 3 =>
    let bs := s.homeRead c.pa 16
    if barDead bs then (false, true) else (field bs 8 4 != c.val.toNat, false)
  | 4 => match s.chanOf grp (c.par.toNat % 8) with
    | some ch => if ch.broken then (false, true) else (ch.gen.toNat != c.val.toNat, false)
    | none => (false, true)
  | 5 => (!(s.slot slot).inbox.isEmpty, false)
  | _ => (s.eventWord.getLsbD (c.par.toNat % 16), false)

/-- A condition whose evaluation reads memory at a home. -/
def Cond.reads (c : Cond) : Bool := c.kind == 0 || c.kind == 3

/-- A condition that lies at the core, and is evaluated without a notice. -/
def Cond.isLocal (c : Cond) : Bool := c.kind == 2 || c.kind == 4 || c.kind == 5

/-- What a notice of a sector has a grove evaluate, beside what lies at its cores (R124). -/
def Cond.due (c : Cond) : Bool := c.note || c.isLocal

/-- A condition can be evaluated: no commit holds the sector that it reads (R139). -/
def State.condOpen (s : State) (c : Cond) : Bool := !(c.reads && s.lockedSec (sectorOf c.pa))

/-- Evaluate the conditions of a wait that a test picks and that no lock keeps; the others keep what their last evaluation gave (R124, log 73). -/
def State.evalWait (s : State) (slot grp : Nat) (pick : Cond → Bool) (w : Wait) : Wait :=
  { w with conds := w.conds.map fun c =>
      if pick c && s.condOpen c then
        let r := s.condNow slot grp c
        { c with holds := r.1, broke := r.2, note := false }
      else c }

/-- What the evaluation reads is recalled at its home (R142). -/
def State.recallWait (s : State) (pick : Cond → Bool) (w : Wait) : State :=
  w.conds.foldl (fun st c => if pick c && c.reads && st.condOpen c then st.recallRange c.pa 8 else st) s

/-- The mask of conditions that hold (R122). -/
def maskOf : List Cond → Nat
  | [] => 0
  | c :: rest => flag c.holds + 2 * maskOf rest

/-- The status a wait ends with, if its conditions end it: BROKEN_OBJECT goes before satisfaction (R122). -/
def Wait.verdict (w : Wait) : Option Nat :=
  if w.conds.any (·.broke) then some 2
  else if (if w.all then w.conds.all (·.holds) else w.conds.any (·.holds)) then some 0
  else none

/-- The status with its time up, where last says so: satisfaction goes before TIMEOUT (R122). -/
def Wait.ends (w : Wait) (last : Bool) : Option Nat :=
  match w.verdict with
  | some status => some status
  | none => if last then some 1 else none

/-- A wait has a condition that a test picks, or has ended and stands for want of room. -/
def Wait.picked (w : Wait) (pick : Cond → Bool) : Bool := w.conds.any pick || w.verdict.isSome

/-- The value that a wait writes to its register (R122, R334, R335). -/
def State.waitValue (s : State) (grp : Nat) (w : Wait) (status : Nat) : Word :=
  match w.form with
  | .waitI | .barWait => BitVec.ofNat 64 (at_ status 4 + maskOf w.conds)
  | .gbSync =>
    let gen := match w.conds with
      | c :: _ => match s.chanOf grp (c.par.toNat % 8) with
        | some ch => ch.gen.toNat
        | none => 0
      | [] => 0
    BitVec.ofNat 64 (at_ gen 32 + at_ status 4)

/-! ### The barrier register (R119) -/

/-- A barrier enters the register of its home, if there is room (R119). -/
def State.barEnter (s : State) (home p : Nat) : Option State :=
  let reg := ((s.grove home).barReg.filter s.barLive)
  if reg.contains p then some (s.modGrove home fun g => { g with barReg := reg })
  else if reg.length < 64 then some (s.modGrove home fun g => { g with barReg := reg ++ [p] })
  else none

/-- The launch descriptor address of a slot's group, for a slot that runs a task. -/
def State.ownerOf (s : State) (slot : Nat) : Option Nat :=
  if (s.slot slot).task.isSome then some (s.groupDesc (s.slot slot).grp) else none

/-- A condition on a barrier enters the register of the barrier's home, and the owner is written, where the register has room (R116, R119). A barrier that is BROKEN has left the register and does not enter it again; at a locked sector the entry waits (R139). -/
def State.barTry (s : State) (owner : Option Nat) (c : Cond) : State × Cond :=
  if c.kind == 3#4 && !c.entered && !s.locked c.pa 16 then
    let s0 := s.recallRange c.pa 16
    match (if barDead (s0.peek c.pa 16) then some s0 else s0.barEnter (s0.home c.pa c.inter) c.pa) with
    | some s1 => (match owner with
      | some o => s1.recWrite c.pa 16 (bytesOf 8 o)
      | none => s1, { c with entered := true })
    | none => (s, c)
  else (s, c)

/-- The same for each condition of a wait. -/
def State.barWaits (s : State) (owner : Option Nat) (w : Wait) : State × Wait :=
  let r := w.conds.foldl (fun (acc : State × List Cond) c =>
    let q := acc.1.barTry owner c
    (q.1, acc.2 ++ [q.2])) (s, [])
  (r.1, { w with conds := r.2 })

/-! ### Beginning and ending a wait (R122, R123, R333) -/

/-- Begin a wait of the slot: install, evaluate, and wait where it is not satisfied and has time. -/
def State.beginWait (s : State) (w : Wait) : Eff :=
  let secs := nub (((w.conds.filter Cond.inTable).map fun c => sectorOf c.pa))
  if secs.any s.lockedSec then .hold s
  else
    let s1 := s.drainSecs s.cur secs
    let w1 := { w with conds := s1.install (groveOf s1.cur) w.conds }
    let q := (s1.modMe fun sl => { sl with wait := some w1 }).barWaits (s1.ownerOf s1.cur) w1
    let s2 := q.1.recallWait (fun _ => true) q.2
    let w2 := s2.evalWait s2.cur s2.me.grp (fun _ => true) q.2
    match w2.ends (decide (w.deadline ≤ w.start)) with
    | some status => .next (((s2.acquired s2.cur).setX w.dst (s2.waitValue s2.me.grp w2 status)).modMe fun sl => { sl with wait := none })
    | none => .left (s2.modMe fun sl => { sl with wait := some w2, st := .waiting })

/-- A wait with its hold and deadline from now (R122, R123). -/
def State.mkWait (s : State) (form : WaitForm) (cs : List Cond) (all : Bool) (d : Reg) (t : Nat) : Wait :=
  let now := s.tick.toNat
  ⟨form, cs, all, d, now, now + (if 2 ^ 32 < t then 2 ^ 32 else t), now + s.me.wtHold.toNat⟩

/-- The address of the poisoned unit that an evaluation of a condition reads: the word of memory, the barrier, or a word of the buffer's descriptor (R245). -/
def State.condPoison (s : State) (slot : Nat) (c : Cond) : Option Word :=
  match c.kind.toNat with
  | 0 => if s.poisoned c.pa 8 then some (c.addr.setWidth 64) else none
  | 3 => if s.poisoned c.pa 16 then some (c.addr.setWidth 64) else none
  | 2 => (s.cbPoison (coreOf slot) (c.par.toNat % 16)).map (BitVec.ofNat 64)
  | _ => none

/-- Evaluate the picked conditions of a slot's wait; last says that its time is up (R122, R124). One that reads a poisoned unit traps POISON at the wait, which a RESUME executes again (R245). -/
def State.settleSlot (s : State) (pick : Cond → Bool) (last : Bool) (slot : Nat) : State :=
  let sl := s.slot slot
  match sl.wait with
  | none => s
  | some w =>
    if sl.st != .waiting then s
    else match (w.conds.filter fun c => pick c && s.condOpen c).findSome? (s.condPoison slot) with
    | some a => s.takeTrap slot Cause.poison a 0
    | none =>
      let s1 := s.recallWait pick w
      let w1 := s1.evalWait slot sl.grp pick w
      match w1.ends last with
      | some status => (s1.acquired slot).modSlot slot fun q => { (q.setXr w.dst (s1.waitValue sl.grp w1 status)) with wait := none, st := .run, pc := q.npc }
      | none => s1.modSlot slot fun q => { q with wait := some w1 }

/-- Write the wait of a parked task. -/
def State.setPark (s : State) (g key : Nat) (w : Wait) : State :=
  s.modGrove g fun gr => { gr with parks := gr.parks.map fun k => if k.task = key then { k with wait := w } else k }

/-- Evaluate the picked conditions of a parked wait; where it ends its record is enqueued READY with the grove as origin, once the replay window has room (R93, R100, R333). One that would read a poisoned unit stays parked (log 105). -/
def State.settlePark (s : State) (pick : Cond → Bool) (last : Bool) (g : Nat) (pk : Park) : State :=
  match s.tasks.find pk.task with
  | none => s
  | some t =>
    if pk.wait.conds.any fun c => pick c && s.condOpen c && (s.condPoison t.slot c).isSome then s
    else
    let s1 := s.recallWait pick pk.wait
    let w1 := s1.evalWait t.slot t.grp pick pk.wait
    match w1.ends last with
    | some status =>
      if s1.windowRoom g then
        let s2 := s1.modGrove g fun gr => { gr with parks := gr.parks.filter fun k => k.task != pk.task }
        (s2.modTask pk.task fun u => { u with result := some (pk.wait.dst, s2.waitValue t.grp w1 status) }).enqueue pk.task g
      else s1.setPark g pk.task w1
    | none => s1.setPark g pk.task w1

/-- Parked waits in the order of the cores whose tasks they hold, in which one event enqueues those that end (R94). -/
def State.parksByCore (s : State) (ps : List Park) : List Park := sortBy (fun (k : Park) => coreOf (((s.tasks.find k.task).map (·.slot)).getD 0)) ps

/-- Evaluate the picked conditions of every wait of a grove: those of its slots, then the parked ones. -/
def State.settleGrove (s : State) (g : Nat) (pick : Cond → Bool) : State :=
  let mine := ((s.slots.filter fun q => groveOf q.1 == g && (match q.2.wait with
    | some w => w.picked pick
    | none => false)).map (·.1))
  let s1 := mine.foldl (fun st k => st.settleSlot pick false k) s
  (s1.parksByCore ((s1.grove g).parks.filter fun k => k.wait.picked pick)).foldl (fun st k => st.settlePark pick false g k) s1

/-- A waiting slot whose hold has passed and that runs a task suspends, its wait parked, while the park has room (R123, R333); a failed check of its spill traps at the wait (R56, R211), and while a page of the spill waits so does the suspension (R139, R223). -/
def State.parkSlot (s : State) (slot : Nat) : State :=
  let sl := s.slot slot
  let g := groveOf slot
  match sl.wait, sl.task with
  | some w, some key =>
    if sl.st == .waiting && decide (w.hold ≤ s.tick.toNat) && decide ((s.grove g).parks.length < 32) then
      if s.saveWaits slot key then s
      else if (s.spillTrap slot key).isSome then s.suspend slot (some w)
      else (s.suspend slot (some w)).modGrove g fun gr => { gr with parks := gr.parks ++ [⟨key, w⟩] }
    else s
  | _, _ => s

/-! ### wait (R332) -/

/-- A condition of a block, from its 16 bytes (R122). -/
def condOf (bs : List Byte) : Cond :=
  let w := field bs 0 8
  ⟨BitVec.ofNat 4 (bits w 63 60), BitVec.ofNat 12 (bits w 59 48), BitVec.ofNat 48 w, 0, false, false, BitVec.ofNat 64 (field bs 8 8), false, false, false, false⟩

/-- A kind above 6 or a nonzero reserved field (R122). -/
def Cond.bad (c : Cond) : Bool :=
  match c.kind.toNat with
  | 0 => c.par != 0
  | 1 => c.par != 0 || c.val != 0
  | 2 => decide (16 ≤ c.par.toNat) || c.addr != 0
  | 3 => c.par != 0
  | 4 => decide (8 ≤ c.par.toNat) || c.addr != 0
  | 5 => c.par != 0 || c.addr != 0 || c.val != 0
  | 6 => decide (16 ≤ c.par.toNat) || c.addr != 0 || c.val != 0
  | _ => true

/-- A condition's address is not aligned for its kind (R332). -/
def Cond.skewed (c : Cond) : Bool :=
  match c.kind.toNat with
  | 0 | 1 => c.addr.toNat % 8 != 0
  | 3 => c.addr.toNat % 64 != 0
  | _ => false

/-- A core is a member of channel k of its task's group (R112). -/
def State.chanMember (s : State) (slot k : Nat) : Bool :=
  let sl := s.slot slot
  sl.task.isSome && (match s.groups.find sl.grp with
    | some g => decide (k < g.nchan) && g.cmask.getLsbD (8 * k + coreOf slot % 8)
    | none => false)

/-- Translate one condition (order 5); a class T task sets signature bits for kinds 0 and 3 (R147, R332). -/
def State.condXlate (s : State) (c : Cond) : Got Cond :=
  let a := c.addr.setWidth 64
  if c.kind == 0 || c.kind == 1 || c.kind == 3 then
    (s.xlate .load (if c.kind == 1 then .future else .plain) a (if c.kind == 3 then 64 else 8) true a).bind fun q s1 =>
      if c.kind != 1 && s1.poisoned q.1 8 then .no (.trap s1 Cause.poison a 0)
      else if s1.mixClash q.1 (if c.kind == 3 then 64 else 8) q.2 then .no (.trap s1 Cause.mixedSize a 0)
      else .ok { c with pa := q.1, inter := q.2 } (if c.kind == 1 then s1 else s1.sigRead s1.cur q.1 8)
  else if c.kind == 6 then .ok { c with pa := s.eventPlace } s
  else .ok c s

/-- Translate the conditions in order. -/
def State.condsXlate (s : State) : List Cond → Got (List Cond)
  | [] => .ok [] s
  | c :: rest => (s.condXlate c).bind fun c1 s1 => (State.condsXlate s1 rest).bind fun cs s2 => .ok (c1 :: cs) s2

/-- The place of the first condition that fails a test. -/
def firstBad (cs : List Cond) (f : Cond → Bool) : Option Nat := (List.range cs.length).find? fun i => (cs[i]?.map f).getD false

/-- Orders 6 and 7 of R332, then the wait. A buffer that a failed command feeds traps with that command's cause (R236), one with a poisoned descriptor POISON (R245). -/
def waitGo (e : Word) (cs : List Cond) (all : Bool) (d : Reg) (t : Nat) (s : State) : Eff :=
  let at16 := fun (i : Nat) => e + BitVec.ofNat 64 (16 * i)
  match firstBad cs fun c => c.kind == 2 && (s.cbOf (coreOf s.cur) c.par.toNat).isNone with
  | some i => .trap s Cause.cbMisuse (at16 i) 0
  | none =>
    match firstBad cs fun c => c.kind == 4 && !s.chanMember s.cur c.par.toNat with
    | some i => .trap s Cause.permission (at16 i) 0
    | none =>
      (cs.filter fun c => c.kind == 2).foldr (fun c k => s.feedTrap c.par.toNat (match s.condPoison s.cur c with
        | some a => .trap s Cause.poison a 0
        | none => k)) (s.beginWait (s.mkWait .waitI cs all d t))

/-- wait.any and wait.all: n conditions (R332). -/
def waitBlock (e : Word) (n : Nat) (all : Bool) (d : Reg) (t : Nat) (s : State) : Eff :=
  if e.toNat % 16 ≠ 0 then .trap s Cause.misaligned e 0
  else if s.myCore.utop.toNat * 256 < e.toNat + 16 * n then .trap s Cause.permission e 0
  else match s.poisonWord (coreOf s.cur) false e.toNat (16 * n) with
  | some a => .trap s Cause.poison (BitVec.ofNat 64 a) 0
  | none =>
    let cs := (List.range n).map fun i => condOf (s.tcmRead (coreOf s.cur) (e.toNat + 16 * i) 16)
    match firstBad cs Cond.bad with
    | some i => .trap s Cause.illegal (e + BitVec.ofNat 64 (16 * i)) 0
    | none =>
      match cs.find? Cond.skewed with
      | some c => .trap s Cause.misaligned (c.addr.setWidth 64) 0
      | none => (s.condsXlate cs).andThen fun cs1 s1 => waitGo e cs1 all d t s1

/-- wait (R332). -/
def execWait (a b c : Reg) (all : Bool) (n : BitVec 2) (imm : Word) (s : State) : Out :=
  guarded s (waitBlock (ea (s.x b) imm) (n.toNat + 1) all a (s.x c).toNat s)

/-! ### Barriers (R117, R334) -/

/-- The checks of a barrier operand, a misaligned one first (R116, R334). -/
def State.barrier (s : State) (e : Word) (acc : Access) : Got (Nat × Bool) :=
  if e.toNat % 64 ≠ 0 then .no (.trap s Cause.misaligned e 0)
  else match s.place .glob false e 64 64 with
  | .glob g _ => (s.xlate acc .plain g 64 true e).bind fun q s1 =>
    if s1.poisoned q.1 64 then .no (.trap s1 Cause.poison e 0) else .ok q s1
  | .bad cause => .no (.trap s cause e 0)
  | .tcm _ | .scr _ => .no (.trap s Cause.permission e 0)

/-- The barrier object after an arrival of n: count c, arrivals so far a, generation g, flags f, owner o; and whether the generation advances (R117). The flags' reserved bits are written as zeros (R5). -/
def barAfter (bs : List Byte) (n o : Nat) : List Byte × Bool :=
  let c := field bs 0 4
  let t := field bs 4 4 + n
  let g := field bs 8 4
  let f := field bs 12 1 % 4
  if c ≤ t then
    (patch (patch (patch (patch bs 4 (bytesOf 4 (t % c))) 8 (bytesOf 4 (g + t / c))) 12 (bytesOf 1 (if c < t then f ||| 1 else f))) 16 (bytesOf 8 o), true)
  else (patch (patch bs 4 (bytesOf 4 t)) 16 (bytesOf 8 o), false)

/-- The result of bar.arrive: the generation before, and the status (R334). -/
def barResult (status gen : Nat) : Word := BitVec.ofNat 64 (at_ gen 32 + at_ status 4)

/-- An arrival at the barrier's home; it is retried while the register is full (R117, R119). -/
def barAt (d : Reg) (n p : Nat) (inter : Bool) (addr : Word) (s : State) : Eff :=
  if s.locked p 64 then .hold s
  else if s.mixClash p 64 inter then .trap s Cause.mixedSize addr 0
  else
    let s1 := (s.drainSecs s.cur (sectorsOf p 64)).recallRange p 64
    let bs := s1.peek p 64
    let g := field bs 8 4
    if barDead bs then .next (s1.setX d (barResult 2 g))
    else match s1.barEnter (s1.home p inter) p with
      | none => .hold s1
      | some s2 =>
        let o := (s2.ownerOf s2.cur).getD (field bs 16 8)
        let (new, adv) := barAfter bs n o
        .next (((s2.perform s2.cur p inter new adv 1).mixRecord p 64 inter).setX d (barResult 0 g))

/-- bar.arrive (R117, R334). -/
def execBarArrive (a b : Reg) (n : BitVec 27) (s : State) : Out :=
  let e := s.x b
  guarded s (
    if n = 0 || 65535 < n.toNat then .trap s Cause.illegal 0 0
    else (s.barrier e .atomic).andThen fun q s1 =>
      if s1.me.collecting then .trap s1 Cause.collectForbidden e 0
      else s1.release fun s2 => barAt a n.toNat q.1 q.2 e s2)

/-- bar.wait: one kind-3 condition and a time-out of 2^32 ticks (R334). -/
def execBarWait (a b c : Reg) (s : State) : Out :=
  let e := s.x b
  guarded s ((s.barrier e .load).andThen fun q s1 =>
    if s1.mixClash q.1 64 q.2 then .trap s1 Cause.mixedSize e 0
    else
      let s2 := s1.sigRead s1.cur q.1 8
      s2.beginWait (s2.mkWait .barWait [⟨3, 0, e.setWidth 48, q.1, q.2, false, s2.x c, false, false, false, false⟩] false a (2 ^ 32)))

/-! ### Channels (R120, R335) -/

/-- The member cores of channel k of a clearing (R112). -/
def Group.members (g : Group) (k : Nat) : Nat :=
  ((List.range 8).filter fun c => g.cmask.getLsbD (8 * k + c)).length * g.w * g.h

/-- One arrival of a core: a second one in a generation counts toward the next and sets overrun (R120). R120 speaks of no third one: it counts once toward the next generation like the second, and no more (DESIGN CHOICE, log 95). -/
def Chan.arrive (c : Chan) (core : Nat) : Chan :=
  if c.arrived.contains core then { c with next := nub (c.next ++ [core]), overrun := true, cleared := [] }
  else { c with arrived := c.arrived ++ [core] }

/-- The generation advances when every member has arrived. fuel bounds the advances: early arrivals can complete one more. -/
def Chan.advance (members : Nat) : Nat → Chan → Chan
  | 0, c => c
  | k + 1, c =>
    if members ≤ c.arrived.length then Chan.advance members k { c with gen := c.gen + 1, arrived := c.next, next := [] } else c

/-- gb.sync at a channel of the slot's clearing (R120, R335). -/
def gbArrive (d : Reg) (k : Nat) (s : State) : Eff :=
  match s.chanOf s.me.grp k, s.groups.find s.me.grp with
  | some c, some g =>
    let w := s.mkWait .gbSync [⟨4, BitVec.ofNat 12 k, 0, 0, false, false, c.gen.setWidth 64, false, false, false, false⟩] false d (2 ^ 32)
    if c.broken then .next ((s.acquired s.cur).setX d (s.waitValue s.me.grp w 2))
    else
      let new := Chan.advance (g.members k) 2 (c.arrive (coreOf s.cur))
      (s.modGroup s.me.grp fun q => { q with chans := modifyAt (fun _ => new) q.chans k }).beginWait w
  | _, _ => .trap s Cause.permission 0 0

/-- gb.sync (R335). R121 and R335 give COLLECT_FORBIDDEN and the membership check no order: COLLECT_FORBIDDEN comes first (DESIGN CHOICE, log 96). -/
def execGbSync (a : BitVec 4) (k : BitVec 3) (s : State) : Out :=
  guarded s (
    if s.me.collecting then .trap s Cause.collectForbidden 0 0
    else if !s.chanMember s.cur k.toNat then .trap s Cause.permission 0 0
    else s.release fun s1 => gbArrive (a.setWidth 5) k.toNat s1)

/-! ### Messages (R125, R126, R336, R337) -/

/-- The slot that a destination word names, in the clearing of the slot's group; or the cause of its trap (R336). In a spanning clearing it may lie on another module (R107). -/
def State.msgDest (s : State) (v : Word) : Except Nat Nat :=
  if bits v.toNat 63 19 ≠ 0 then .error Cause.illegal
  else
    let x := bits v.toNat 6 0
    let y := bits v.toNat 13 7
    match (if s.me.task.isSome then s.groups.find s.me.grp else none) with
    | some g =>
      if x < g.w && y < g.h then
        if 32 ≤ g.gx0 % 32 + x || 32 ≤ g.gy0 % 32 + y then .ok (farSlot s.me.grp v.toNat)
        else .ok ((s.physGrove (g.gx0 % 32 + x) (g.gy0 % 32 + y)) * 32 + bits v.toNat 16 14 * 4 + bits v.toNat 18 17)
      else .error Cause.permission
    | none => .error Cause.permission

/-- msg.open (R336). R121 and R336 give COLLECT_FORBIDDEN and the checks of the destination word no order: COLLECT_FORBIDDEN comes first (DESIGN CHOICE, log 96). -/
def execMsgOpen (a : Reg) (s : State) : Out :=
  guarded s (
    if s.me.collecting then .trap s Cause.collectForbidden 0 0
    else match s.msgDest (s.x a) with
      | .ok k => .next (s.modMe fun q => { q with packet := some ⟨k, []⟩ })
      | .error c => .trap s c 0 0)

/-- msg.put: ILLEGAL with no packet open or at a seventeenth word (R125). -/
def execMsgPut (a : Reg) (s : State) : Out :=
  finish (if s.me.guard then
    (match s.me.packet with
      | some p =>
        if p.words.length < 16 then .next (s.modMe fun q => { q with packet := some { p with words := p.words ++ [s.x a] } })
        else .trap s Cause.illegal 0 0
      | none => .trap s Cause.illegal 0 0)
  else .next s)

/-- The 144 bytes of a packet (R126). -/
def State.packetBytes (s : State) (p : Packet) : List Byte :=
  let src := match s.groups.find s.me.grp, s.logical (groveOf s.cur) with
    | some g, some (gx, gy) => (gy - g.gy0 % 32) * g.w + (gx - g.gx0 % 32)
    | _, _ => 0
  bytesOf 2 src ++ bytesOf 1 (coreOf s.cur % 8 + 8 * slotNo s.cur) ++ bytesOf 1 p.words.length ++ zeros 12 ++
  (p.words.map fun w => bytesOf 8 w.toNat).flatten ++ zeros (8 * (16 - p.words.length))

/-- msg.end: a release at clearing scope; it completes when the packet enters the grove's replay window. With a false guard inside a packet it is an instruction that R125 forbids there (R125, R336). -/
def execMsgEnd (s : State) : Out :=
  finish (match s.me.packet with
    | some p =>
      if s.me.guard then s.release fun s1 =>
        if s1.windowRoom (groveOf s1.cur) then
          .next ((s1.modMyGrove fun g => { g with window := g.window ++ [⟨.packet p.dest (s1.packetBytes p), false⟩] }).modMe fun q =>
            { q with packet := none })
        else .hold s1
      else .trap s Cause.illegal 0 0
    | none => if s.me.guard then .trap s Cause.illegal 0 0 else .next s)

/-- recv: the oldest packet of the inbox, from the TCM that holds it (R53, R126), or status 1 (R337). -/
def recvStep (d : Reg) (o : Word) (s : State) : Eff :=
  if o.toNat % 8 ≠ 0 then .trap s Cause.misaligned o 0
  else if s.myCore.utop.toNat * 256 < o.toNat + 128 then .trap s Cause.permission o 0
  else match s.me.inbox with
    | [] => .next (s.setX d (BitVec.ofNat 64 (2 ^ 32)))
    | i :: rest =>
      let off := s.myCore.inboxOff (slotNo s.cur) i
      match s.poisonWord (coreOf s.cur) false off 144 with
      | some a => .trap s Cause.poison (BitVec.ofNat 64 a) 0
      | none =>
        let p := s.tcmRead (coreOf s.cur) off 144
        let s1 := s.tcmWrite (coreOf s.cur) o.toNat (p.drop 16)
        .next (((s1.acquired s1.cur).modMe fun q => { q with inbox := rest }).setX d (BitVec.ofNat 64 (field p 0 4)))

/-- recv (R337). -/
def execRecv (a b : Reg) (s : State) : Out := guarded s (recvStep a (s.x b) s)

/-! ### Events -/

/-- WAIT_SATISFIED_NOTICE: a grove evaluates the conditions on the sectors that it had notices of, and those that lie at its cores (R124). -/
def execWaitSatisfiedNotice (grove : Nat) (s : State) : Out := .next (s.settleGrove grove Cond.due)

/-- MONITOR_POLL: a grove evaluates the conditions that found its table full (R124). -/
def execMonitorPoll (grove : Nat) (s : State) : Out := .next (s.settleGrove grove (·.polled))

/-- WAIT_TIMEOUT: the wait of a slot whose time is up, and the parked waits of its grove whose time is up; what has been noticed, lies at the core or is polled is evaluated once more (R122). -/
def execWaitTimeout (slot : Nat) (s : State) : Out :=
  let late := fun (w : Wait) => decide (w.deadline ≤ s.tick.toNat)
  let pick := fun (c : Cond) => c.due || c.polled
  let s1 := match (s.slot slot).wait with
    | some w => if late w then s.settleSlot pick true slot else s
    | none => s
  .next ((s1.parksByCore ((s1.grove (groveOf slot)).parks.filter fun k => late k.wait)).foldl (fun st k => st.settlePark pick true (groveOf slot) k) s1)

/-- WAIT_HOLD_EXPIRY: the hold has passed and the task suspends (R123). -/
def execWaitHoldExpiry (slot : Nat) (s : State) : Out := .next (s.parkSlot slot)

/-- PARK_ENTRY_FREE: the first slot of the grove that holds past its hold is parked (R333). -/
def execParkEntryFree (grove : Nat) (s : State) : Out :=
  .next (match s.slots.find? (fun q => groveOf q.1 == grove && q.2.st == .waiting && q.2.task.isSome && (match q.2.wait with
    | some w => decide (w.hold ≤ s.tick.toNat)
    | none => false)) with
  | some q => s.parkSlot q.1
  | none => s)

/-- BARRIER_REGISTER_RETRY: the wait of a slot and the parked waits of its grove that found the register full try again (R119). -/
def execBarrierRegisterRetry (slot : Nat) (s : State) : Out :=
  let s1 := match (s.slot slot).wait with
    | some w =>
      let q := s.barWaits (s.ownerOf slot) w
      q.1.modSlot slot fun sl => { sl with wait := some q.2 }
    | none => s
  .next ((s1.grove (groveOf slot)).parks.foldl (fun st pk =>
    let q := st.barWaits ((st.tasks.find pk.task).map fun t => st.groupDesc t.grp) pk.wait
    q.1.setPark (groveOf slot) pk.task q.2) s1)

end Sys2Proof.Machine
end

