-- ==== Sys2Proof/Machine/HostPort.lean ====
section
/-! DEFINITION. The host port: BAR0, the mailbox and the host's memory accesses (R168, R186, R221, R222, R254, R256, R332). -/

namespace Sys2Proof.Machine

/-! ### The event word (R221, R332) -/

/-- The event word changes with a signal: waits of kind 6 look again. -/
def State.eventSet (s : State) (v : Word) : State := { s with eventWord := v }.notify (sectorOf s.eventPlace)

/-- HOST_EVENT_WORD_WRITE: a signal store (R221). -/
def execHostEventWordWrite (v : Word) (s : State) : Out := .next { s.eventSet v with reply := .none }

/-! ### The mailbox (R221) -/

/-- A command is in progress. -/
def State.mbBusy (s : State) : Bool := s.mbCmd.getLsbD 63

/-- The operation of the mailbox command. -/
def State.mbOp (s : State) : Nat := bits s.mbCmd.toNat 15 0

/-- Completion: busy 0 with a status, and the vector is signalled. -/
def State.mbDone (s : State) (status : Nat) : State :=
  { s with mbCmd := BitVec.ofNat 64 (at_ status 56 + s.mbCmd.toNat % 2 ^ 32), vectors := s.vectors ++ [bits s.mbCmd.toNat 31 16] }

/-- A host write of the command register: ignored while busy; one that sets op starts a command, and an unknown op completes with status 1. -/
def State.mbStart (s : State) (v : Word) : State :=
  if s.mbBusy then s
  else
    let vec := bits v.toNat 31 16
    let op := bits v.toNat 15 0
    let s1 := { s with mbCmd := BitVec.ofNat 64 (at_ 1 63 + at_ (if vec < 64 then vec else 0) 16 + op), mbTold := false }
    if op = 1 || 0x100 ≤ op then s1 else s1.mbDone 1

/-- MAILBOX_FW_OP: a firmware-defined op sets bit 15 of the event word, once (R221, R332). -/
def execMailboxFwOp (s : State) : Out :=
  .next (if s.mbBusy && decide (0x100 ≤ s.mbOp) && !s.mbTold then { s.eventSet (s.eventWord ||| 0x8000) with mbTold := true } else s)

/-- MAILBOX_COMPLETE: firmware's status (R221). -/
def execMailboxComplete (status : BitVec 7) (s : State) : Out :=
  .next (if s.mbBusy && decide (0x100 ≤ s.mbOp) then s.mbDone status.toNat else s)

/-- A list cut or filled with zeros to n bytes. -/
def fit (n : Nat) (bs : List Byte) : List Byte := (bs ++ zeros n).take n

/-- The report without its signature: nonce and measurements (R256). -/
def State.reportBody (s : State) : List Byte := memRead s.mbReq 0 32 ++ fit 128 s.measures

/-- ATTEST: the report and its signature in the response, by the IO die alone (R221, R256). -/
def execAttest (s : State) : Out :=
  .next (
    if s.mbBusy && s.mbOp == 1 then
      let body := s.reportBody
      ({ s with mbResp := memWrite s.mbResp 0 (body ++ fit 3309 (Config.signReport body)) }).mbDone 0
    else s)

/-! ### BAR0 (R221) -/

/-- Some bytes of a register replaced. -/
def regPatch (old : Word) (off size : Nat) (v : Word) : Word :=
  BitVec.ofNat 64 (natOf (patch (bytesOf 8 old.toNat) off (bytesOf size v.toNat)))

/-- A well-formed host write of BAR0: what is not listed as RW ignores it (R221, R254). -/
def State.barHost (s : State) (off size : Nat) (v : Word) : State :=
  if 0x100 ≤ off && off < 0x180 then
    let n := (off - 0x100) / 16
    let low := fun (w : Word) => BitVec.ofNat 64 (w.toNat / 4096 * 4096)
    if off % 16 < 8 then { s with hwBase := s.hwBase.put n (low (regPatch (s.hwBase.get n 0) (off % 8) size v)) }
    else { s with hwLimit := s.hwLimit.put n (low (regPatch (s.hwLimit.get n 0) (off % 8) size v)) }
  else if off / 8 * 8 = 0x180 then s.eventSet (regPatch s.eventWord (off % 8) size v)
  else if off = 0x400 then s.mbStart v
  else if 0x1000 ≤ off && off < 0x2000 then { s with mbReq := memWrite s.mbReq (off - 0x1000) (bytesOf size v.toNat) }
  else s

/-- An access of BAR0 that is well formed: aligned, 4 or 8 bytes, inside the BAR. -/
def barForm (off size : Nat) : Bool := (size == 4 || size == 8) && off % size == 0 && decide (off + size ≤ 2 ^ 20)

/-- A host read of BAR0. -/
def State.barHostRead (s : State) (off size : Nat) : Reply :=
  if !barForm off size then .abort
  else match s.boot with
    | .failed _ => .data (if off < 8 then (List.range size).map fun i => s.barByte (off + i) else zeros size)
    | .held | .up => .data ((List.range size).map fun i => s.barByte (off + i))

/-- A host write of BAR0: completer abort where malformed; after a failed boot the host sees the boot status word alone (R221, R249). -/
def State.barHostWrite (s : State) (off size : Nat) (v : Word) : State :=
  if !barForm off size then { s with reply := .abort }
  else match s.boot with
    | .failed _ => { s with reply := .none }
    | .held | .up => { s.barHost off size v with reply := .none }

/-- HOST_BAR0_WRITE (R221, R249). -/
def execHostBar0Write (off size : Nat) (v : Word) (s : State) : Out := .next (s.barHostWrite off size v)

/-! ### The host's memory accesses (R168, R222) -/

/-- A page table maps a place of device memory with the Q attribute: the levels that are left, and the table of the first (R204, R205). -/
def mapsQuilt (mem : Mem) (p : Nat) : List Nat → Nat → Bool
  | [], _ => false
  | level :: rest, table =>
    (List.range 512).any fun i =>
      let pte := natOf (memRead mem (table + 8 * i) 8)
      let base := bits pte 51 12 * 4096 / pageSize level * pageSize level
      bitAt pte 0 && (
        if bitAt pte 6 then !badLeaf pte level && bitAt pte 4 && !bitAt pte 11 && decide (base ≤ p) && decide (p < base + pageSize level)
        else level != 4 && !badTable pte && mapsQuilt mem p rest (bits pte 51 12 * 4096))

/-- The contexts that map a place as a Q page. -/
def State.quiltOwners (s : State) (p : Nat) : List Nat :=
  (s.ctxs.filter fun q => q.2.ptroot != 0 && mapsQuilt s.mem p [1, 2, 3, 4] q.2.ptroot).map (·.1)

/-- An access to a Q page by physical address: completer abort and a record to a context that maps it (R168). With several such contexts the choice is free. -/
def State.hostQuilt (s : State) (owners : List Nat) (p acc : Nat) : State :=
  if s.hostRec.isSome then { s with reply := .none }
  else
    let (i, s1) := s.freeIndex owners.length
    { s1.hostRecord ((owners[i]?).getD 0) p acc with reply := .abort }

/-- The 64-byte halves that n bytes at a place touch. -/
def halvesOf (p n : Nat) : List Nat := if n = 0 then [] else span (p / 64) ((p + n - 1) / 64 + 1 - p / 64)

/-- A read that the home serves as host source: bytes of poisoned sectors come back as poison, and the host then holds the halves of device sectors (R222, log 86). -/
def State.hostRead (s : State) (p n : Nat) : State :=
  let s1 := s.recallRange p n
  { s1 with
    reply := markedReply (s1.peekMarked p n)
    hostHeld := if isDevice p then nub (s1.hostHeld ++ halvesOf p n) else s1.hostHeld }

/-- A write that the home performs as host source (R129, R152). -/
def State.hostWrite (s : State) (p : Nat) (bs : List Byte) : State :=
  let s1 := (s.recallRange p bs.length).poke p (s.interOf p) bs
  { (if isDevice p then s1.traceAdd (s1.home p (s.interOf p)) 0 bs.length p 0x8000 else s1) with reply := .none }

/-- An access to device memory or to the host's own memory. -/
def State.hostPlace (s : State) (p n : Nat) (wr : Option (List Byte)) : State :=
  if s.locked p n then { s with reply := .none }
  else
    let owners := if isDevice p then s.quiltOwners p else []
    if !owners.isEmpty then s.hostQuilt owners p (match wr with
      | some _ => 1
      | none => 0)
    else match wr with
      | some bs => s.hostWrite p bs
      | none => s.hostRead p n

/-- HOST_MEMORY_ACCESS: one access within a sector, by its place; a longer one is several of these. Apertures answer as R186 says, BAR0 by R221, and every other window of the module completes with completer abort (R168, R222). Until boot has succeeded the compute dies are in reset, and an access that they would serve has no completer (R249, log 45). -/
def execHostMemoryAccess (pa size : Nat) (wr : Option (List Byte)) (s : State) : Out :=
  let n := match wr with
    | some bs => bs.length
    | none => size
  if n = 0 || 128 < pa % 128 + n then .next s
  else if s.boot != .up && (isDevice pa || (s.apertureAt (pa % hostBase)).isSome) then .next { s with reply := .abort }
  else match s.regionOf pa with
    | .device => .next (s.hostPlace pa n wr)
    | .hostMem a =>
      if (s.apertureAt a).isSome then (match wr with
        | some _ => execApertureWrite a s
        | none => execApertureRead a n s)
      else .next (s.hostPlace pa n wr)
    | .bar0 off => .next (match wr with
      | some bs => s.barHostWrite off n (BitVec.ofNat 64 (natOf bs))
      | none => { s with reply := s.barHostRead off n })
    | .doorbell _ _ | .userWindow _ _ | .fwWindow _ _ | .trace _ _ | .hole => .next { s with reply := .abort }

end Sys2Proof.Machine
end

