-- ==== Sys2Proof/Machine/Lifting.lean ====
section
/-! DEFINITION. Operators evaluated once per rule: summaries, the rule-result table, ql.eval, ql.fold, ql.seek and latent attention (R187 to R203, R393 to R395). -/

namespace Sys2Proof.Machine

/-! ### Summaries (R188 to R191) -/

/-- A summary: one word, or n, T and W of WSUM; its flags Z and S. -/
structure Summ where
  ws : List Word
  z : Bool
  sp : Bool
  deriving DecidableEq, Repr

/-- FP32 bits of a value. -/
def f32w (v : FVal) : Word := BitVec.ofNat 64 (fmtF32.round 0 false 0 v).1

/-- The value of FP32 bits. -/
def w32 (w : Word) : FVal := fmtF32.value w.toNat

/-- The sum of two summary words: one FP32 rounding, or wrapping at 64 bits. -/
def sumW (fl : Bool) (a b : Word) : Word := if fl then f32w (fAdd false (w32 a) (w32 b)).1 else a + b

/-- The product of two summary words. -/
def mulW (fl : Bool) (a b : Word) : Word := if fl then f32w (fMul (w32 a) (w32 b)).1 else a * b

/-- A length times a summary word. -/
def lenMulW (fl : Bool) (n : Nat) (t : Word) : Word :=
  if fl then f32w (fMul (.fin false n 0) (w32 t)).1 else BitVec.ofNat 64 n * t

/-- The lesser of two words. -/
def minW (fl : Bool) (a b : Word) : Word := if fl then f32w (fMin (w32 a) (w32 b)) else if a.slt b then a else b

/-- The greater of two words. -/
def maxW (fl : Bool) (a b : Word) : Word := if fl then f32w (fMax (w32 a) (w32 b)) else if a.slt b then b else a

/-- A word of a summary. -/
def sw (l : List Word) (i : Nat) : Word := (l[i]?).getD 0

/-- Combine and FoldCombine (R189, R198): fold leaves W of WSUM unshifted. -/
def combineW (op : Nat) (fl fold : Bool) (a b : List Word) : List Word :=
  if op = 5 then
    let w := if fold then sw b 2 else sumW fl (sw b 2) (lenMulW fl (sw a 0).toNat (sw b 1))
    [BitVec.ofNat 64 (((sw a 0).toNat + (sw b 0).toNat) % 2 ^ 48), sumW fl (sw a 1) (sw b 1), sumW fl (sw a 2) w]
  else if op = 2 then [minW fl (sw a 0) (sw b 0)]
  else if op = 3 then [maxW fl (sw a 0) (sw b 0)]
  else [sumW fl (sw a 0) (sw b 0)]

/-- Combine with the flags (R191). -/
def Summ.combine (op : Nat) (fl fold : Bool) (a b : Summ) : Summ := ⟨combineW op fl fold a.ws b.ws, a.z && b.z, a.sp || b.sp⟩

/-- Join a part to a prefix that may be empty (R198, R199). -/
def joinSumm (op : Nat) (fl : Bool) (a : Option Summ) (b : Summ) : Summ :=
  match a with
  | some x => x.combine op fl true b
  | none => b

/-- The shift of an occurrence at p: only WSUM has one (R198). -/
def Summ.shift (op : Nat) (fl : Bool) (p : Nat) (x : Summ) : Summ :=
  if op = 5 then { x with ws := [sw x.ws 0, sw x.ws 1, sumW fl (sw x.ws 2) (lenMulW fl p (sw x.ws 1))] } else x

/-- The identity of an empty range (R190), with Z set (R394). -/
def identity (op : Nat) (fl : Bool) : Summ :=
  ⟨if op = 5 then [0, 0, 0]
    else if op = 2 then [if fl then 0x7F800000 else 0x7FFFFFFFFFFFFFFF]
    else if op = 3 then [if fl then 0xFF800000 else 0x8000000000000000]
    else [0], true, false⟩

/-- Lift an element: its word, whether it is a zero or a special value, and u at its anchor for DOT. -/
def liftW (op : Nat) (fl : Bool) (x u : Word) : List Word :=
  if op = 1 then [mulW fl x x] else if op = 4 then [mulW fl x u] else if op = 5 then [1, x, 0] else [x]

/-- The words of packed elements, with the Z and S of each. -/
def elemWords (fmt n : Nat) (bs : List Byte) : List (Word × Bool × Bool) :=
  if isFloatQ fmt then (floatElems fmt n bs).map fun v => (f32w v, v.isZero, v.special)
  else (intElems fmt n bs).map fun i => (BitVec.ofInt 64 i, i == 0, false)

/-- The bytes of a summary. -/
def summBytes (ws : List Word) : List Byte := (ws.map fun w => bytesOf 8 w.toNat).flatten

/-- The Z and S word (R394). -/
def Summ.flagWord (x : Summ) : List Byte := bytesOf 8 (flag x.z + 2 * flag x.sp)

/-! ### Operands (R192) -/

/-- A DOT operand. -/
structure QOpnd where
  desc : Nat
  addr : Nat
  fmt : Nat
  version : Nat
  tag : Nat
  length : Nat
  deriving DecidableEq, Repr

/-- No operand. -/
def QOpnd.none : QOpnd := ⟨0, 0, 0, 0, 0, 0⟩

/-- Read and check an operand descriptor (R192). -/
def qOperand (fl : Bool) (da : Nat) : RuleM QOpnd := do
  if da % 32 ≠ 0 then qTrap Cause.misaligned da
  else
    let d ← qRead .plain da da 32
    if field d 12 4 = 0 || field d 9 1 ≠ 0 || field d 22 10 ≠ 0 then qTrap Cause.ruleStructure da
    else
      let f := field d 8 1
      if (if fl then f = 0 || f = 1 else f = 5 || f = 8) then
        pure ⟨da, field d 0 8, f, field d 10 2, field d 12 4, field d 16 6⟩
      else qTrap Cause.formatContext da

/-- Element i of an operand as a summary word. -/
def qElem (o : QOpnd) (i : Nat) : RuleM Word := do
  if o.length ≤ i then qTrap Cause.permission o.desc
  else
    let n := elemBits o.fmt / 8
    let a := o.addr + i * n
    let bs ← qRead .plain a a n
    pure (match fmtOfCode o.fmt with
      | some f => f32w (f.value (natOf bs))
      | none => BitVec.ofInt 64 (intAt o.fmt bs 0))

/-! ### The rule-result table and cache (R194 to R196) -/

/-- The key of a result: bytes 0 to 23 of its entry with byte 7 zero. -/
def resKey (v : QView) (op id : Nat) (o : QOpnd) (anchor : Nat) : List Byte :=
  bytesOf 4 v.qid ++ bytesOf 2 v.epoch ++ bytesOf 1 op ++ [0] ++ bytesOf 4 id ++ bytesOf 4 o.tag ++ bytesOf 6 anchor ++ bytesOf 2 o.version

/-- The place of a key's bucket; none while the table is absent. -/
def State.bucket (s : State) (key : List Byte) : Option Nat :=
  let cfg := s.rtCfg.toNat
  let base := bits cfg 51 12 * 4096
  if base = 0 then none else some (base + (crc32c key).toNat % 2 ^ bits cfg 4 0 * 1024)

/-- The words of a summary of an operator. -/
def summWords (op : Nat) : Nat := if op = 5 then 3 else 1

/-- The result that the bytes of an entry hold: sum are the bytes of its summary. What it was computed from is known where the rule engine wrote it. -/
def State.resOf (s : State) (op p : Nat) (bs sum : List Byte) : RuleRes :=
  let r : RuleRes := ⟨patch (bs.take 24) 7 [0], BitVec.ofNat 8 (field bs 7 1), (List.range (summWords op)).map fun i => BitVec.ofNat 64 (field sum (8 * i) 8), none⟩
  match s.tableMade.find p with
  | some m => if { m with made := none } = r then m else r
  | none => r

/-- Read the entry at a place as one operation; none where a sector of it, or of its indirect summary, is poisoned (R194). An indirect summary lies at the address that the entry names, of at most 4,096 bytes; R194 does not say what address that is: it is taken as a physical one, like the table's own (DESIGN CHOICE, log 78). -/
def qResAt (op p : Nat) : RuleM (Option RuleRes) := do
  match ← qTake p 256 with
  | none => pure none
  | some bs =>
    let sum ← if bitAt (field bs 7 1) 3 then qTake (field bs 32 8 % 2 ^ 38) (Nat.min (field bs 40 4) 4096) else pure (some ((bs.drop 32).take 120))
    let q ← get
    pure (sum.map fun x => q.s.resOf op p bs x)

/-- An entry is valid and has a key. -/
def RuleRes.has (r : RuleRes) (key : List Byte) : Bool := r.flags.getLsbD 0 && r.key == key

/-- The four entries of a bucket at a place. -/
def qBucket (op b : Nat) : RuleM (List (Option RuleRes)) := (List.range 4).mapM fun i => qResAt op (b + 256 * i)

/-- Look a key up in the table: a poisoned entry is a miss. -/
def qTable (op : Nat) (key : List Byte) : RuleM (Option RuleRes) := do
  let q ← get
  match q.s.bucket key with
  | none => pure none
  | some b => do
    let rs ← qBucket op b
    pure ((rs.filterMap fun r => r).find? fun r => r.has key)

/-- Which entry of a bucket a result takes: its own, else a poisoned one, which is rewritten (R194), else an invalid one, else any (R196). -/
def State.entryFor (s : State) (rs : List (Option RuleRes)) (key : List Byte) : Nat × State :=
  let pick := fun (f : Option RuleRes → Bool) => rs.findIdx? f
  match (pick fun r => r.any fun x => x.has key).orElse fun _ =>
      (pick Option.isNone).orElse fun _ => pick fun r => r.any fun x => !x.flags.getLsbD 0 with
  | some i => (i, s)
  | none => s.freeIndex 4

/-- Write a result to the table, whole (R194). -/
def qTablePut (op : Nat) (r : RuleRes) : RuleM Unit := do
  let q ← get
  match q.s.bucket r.key with
  | none => pure ()
  | some b => do
    let rs ← qBucket op b
    modify fun q =>
      let (i, s1) := q.s.entryFor rs r.key
      let bs := patch r.key 7 (bytesOf 1 r.flags.toNat) ++ zeros 8 ++ summBytes r.sum
      let s2 := s1.recWrite (b + 256 * i) 0 (bs ++ zeros (256 - bs.length))
      { q with s := { s2 with tableMade := s2.tableMade.put (b + 256 * i) r } }

/-- Keep a result in the grove's cache of 2,048 entries; a full one drops any (R196). -/
def State.cachePut (s : State) (g : Nat) (r : RuleRes) : State :=
  let l := (s.grove g).results.filter fun e => e.key != r.key
  if l.length < 2048 then s.modGrove g fun q => { q with results := l ++ [r] }
  else
    let (i, s1) := s.freeIndex 2048
    s1.modGrove g fun q => { q with results := l.take i ++ l.drop (i + 1) ++ [r] }

/-- The summary of a kept result. -/
def RuleRes.summ (r : RuleRes) : Summ := ⟨r.sum, r.flags.getLsbD 1, r.flags.getLsbD 2⟩

/-- Look a key up: the grove's cache, then the table, whose result the cache then keeps. -/
def qFind (op : Nat) (key : List Byte) : RuleM (Option RuleRes) := do
  let q ← get
  let g := groveOf q.slot
  match (q.s.grove g).results.find? fun e => e.key == key with
  | some r => pure (some r)
  | none => match ← qTable op key with
    | some r => do
      modify fun q => { q with s := q.s.cachePut g r }
      pure (some r)
    | none => pure none

/-! ### What leaves a kept result undefined (R170, R179, R193) -/

/-- The open handles of the module with their contexts: those of the slots, and those that frames hold (R183). -/
def State.openQuilts (s : State) : List (Nat × QHandle) :=
  (s.slots.map fun q => q.2.qhandles.vals.map fun h => (q.2.ctx, h)).flatten ++
  (s.tasks.map fun q => match q.2.frame with
    | some b => b.qhandles.vals.map fun h => (q.2.ctx, h)
    | none => []).flatten

/-- A number for the quilt that a handle has open: the place of its descriptor; where that page is not mapped, one of its context and address, above every place. -/
def State.quiltName (s : State) (h : Nat × QHandle) : Nat := (s.mapPlace h.1 h.2.desc.toNat).getD (2 ^ 64 * (h.1 + 1) + h.2.desc.toNat)

/-- Two quilts with one id are open at once (R170). -/
def State.qidShared (s : State) (qid : Nat) : Bool :=
  decide (1 < (nub ((s.openQuilts.filter fun h => h.2.qid.toNat == qid).map s.quiltName)).length)

/-- A summary that is left open: a value of the operator's width (R5, R193). Its flags are those given, which R191 fixes by the rule's expansion alone, or open where the expansion's result is. -/
def State.freeSumm (s : State) (op : Nat) (fl : Bool) (zs : Option (Bool × Bool)) : Summ × State :=
  let n := summWords op
  let w := fun (i : Nat) =>
    let v := (Config.freeWord (s.fresh + i)).toNat
    BitVec.ofNat 64 (if op = 5 && i = 0 then v % 2 ^ 48 else if fl then v % 2 ^ 32 else v)
  let f := Config.freeWord (s.fresh + n)
  let (z, sp) := zs.getD (f.getLsbD 0, f.getLsbD 1)
  (⟨(List.range n).map w, z, sp⟩, { s with fresh := s.fresh + n + 1 })

/-- The parts of a rule's expansion, each rule once. -/
def qParts (v : QView) : Nat → PMap RulePart → Nat → RuleM (PMap RulePart)
  | 0, m, _ => pure m
  | fuel + 1, m, id => do
    if (m.find id).isSome then pure m
    else do
      let r ← qRule v id
      if r.kind = 1 || r.kind = 4 then do
        let bs ← qPacked v r
        pure (m.put id ⟨0, 0, 0, bs⟩)
      else if r.kind = 2 then do
        let m1 ← qParts v fuel m r.left
        let m2 ← qParts v fuel m1 r.right
        pure (m2.put id ⟨r.left, r.right, 0, []⟩)
      else do
        let m1 ← qParts v fuel m r.left
        pure (m1.put id ⟨r.left, 0, r.right, []⟩)

/-- The packed elements of a rule by its parts. -/
def expand (m : PMap RulePart) : Nat → Nat → List Byte
  | 0, _ => []
  | fuel + 1, id =>
    match m.find id with
    | none => []
    | some p =>
      if p.left = 0 then p.bytes
      else if p.count = 0 then expand m fuel p.left ++ expand m fuel p.right
      else (List.replicate p.count (expand m fuel p.left)).flatten

/-- Run a reading of what stands in place, past locks and links, for what it finds alone: it changes nothing, and gives none where a check fails. -/
def qLook {α : Type} (m : RuleM α) : RuleM (Option α) := do
  let q ← get
  pure (match (m.run { q with s := q.s.settled }).1 with
    | .ok v => some v
    | .error _ => none)

/-- The elements of packed bytes as R179 compares them: those of a block format by their values, which other scales may give too (R36, R37), the others by their bits. -/
def elemCode (fmt n : Nat) (bs : List Byte) : List Nat :=
  if (blockOfCode fmt).isSome then (floatElems fmt n bs).map fun v => (f32w v).toNat
  else bs.map (·.toNat)

/-- Two makings of a rule's result have one expansion, element for element (R179). -/
def Made.sameRules (fmt : Nat) (a b : Made) (id : Nat) : Bool :=
  a.rules == b.rules || (a.length == b.length &&
    elemCode fmt a.length (expand a.rules ruleFuel id) == elemCode fmt b.length (expand b.rules ruleFuel id))

/-- An operand's elements that can be read at both times differ (R193). -/
def opndDiffers (a b : List (Option Word)) : Bool :=
  (List.zipWith (fun (x y : Option Word) => x.isSome && y.isSome && x != y) a b).any id

/-- A node begins: a key that misses (R197). -/
def qNode : RuleM Unit := modify fun q => { q with nodes := q.nodes + 1 }

/-- Count a key that was found. -/
def qSeen (key : List Byte) (made : Bool) : RuleM Unit := modify fun q =>
  if q.seen.contains key then q
  else if made then { q with seen := key :: q.seen, made := q.made + 1 }
  else { q with seen := key :: q.seen, found := q.found + 1 }

/-! ### Evaluation (R189, R197) -/

/-- An operator over a version with its operand. -/
structure QOp where
  op : Nat
  v : QView
  o : QOpnd
  deriving DecidableEq, Repr

/-- The quilt's summaries are floating. -/
def QOp.fl (e : QOp) : Bool := isFloatQ e.v.fmt

/-- The operator is DOT. -/
def QOp.dot (e : QOp) : Bool := e.op == 4

/-- The summary of elements in index order; none where there are none. -/
def qLeaf (e : QOp) (l : List (Word × Bool × Bool)) (anchor : Nat) : RuleM (Option Summ) := do
  let r ← l.foldlM (fun (acc : Option Summ × Nat) x => do
    let u ← if e.dot then qElem e.o acc.2 else pure 0
    let y : Summ := ⟨liftW e.op e.fl x.1 u, x.2.1, x.2.2⟩
    pure ((match acc.1 with
      | some a => some (a.combine e.op e.fl false y)
      | none => some y), acc.2 + 1)) (none, anchor)
  pure r.1

/-- c copies of a child by the fixed doubling of R189; for DOT every right side stands at its own anchor. f gives the child's summary at an anchor. -/
def qCopies (e : QOp) (len : Nat) (f : Nat → RuleM Summ) : Nat → Nat → Nat → RuleM Summ
  | 0, _, a => f a
  | fuel + 1, c, a => do
    if c ≤ 1 then f a
    else
      let m := c / 2
      let x ← qCopies e len f fuel m a
      let y ← if e.dot then qCopies e len f fuel m (a + m * len) else pure x
      let s := x.combine e.op e.fl false y
      if c % 2 = 0 then pure s
      else
        let z ← f (if e.dot then a + 2 * m * len else a)
        pure (s.combine e.op e.fl false z)

/-- A rule's expansion as it now stands, with its length; none where it cannot be read. -/
def qMade (e : QOp) (id : Nat) : RuleM (Option Made) :=
  qLook (do
    let r ← qRule e.v id
    let l ← qParts e.v ruleFuel [] id
    pure (⟨l, r.length, []⟩ : Made))

/-- The operand's elements for n elements at an anchor as they now stand, each none where it cannot be read. -/
def qOpndNow (e : QOp) (a n : Nat) : RuleM (List (Option Word)) :=
  if e.dot then do
    let l ← qLook ((span a n).mapM fun i => tryCatch (some <$> qElem e.o i) fun _ => pure none)
    pure (l.getD [])
  else pure []

/-- Write a computed result to cache and table, with what it was computed from (R196). -/
def qStore (e : QOp) (id a : Nat) (x : Summ) : RuleM Unit := do
  let made ← match ← qMade e id with
    | some m => do
      let u ← qOpndNow e a m.length
      pure (some { m with opnd := u })
    | none => pure none
  let r : RuleRes := ⟨resKey e.v e.op id e.o a, BitVec.ofNat 8 (1 + 2 * flag x.z + 4 * flag x.sp), x.ws, made⟩
  modify fun q => { q with s := q.s.cachePut (groveOf q.slot) r }
  qTablePut e.op r

/-- A kept result as an evaluation receives it. Where its expansion has changed without renew (R179) or another quilt with its id is open (R170), the summary received is undefined; where only its operand's elements differ from those that it was computed from (R193), its words are, while R191 gives its flags. What it was computed from and what now stands are compared where both are known. -/
def qKept (e : QOp) (id a : Nat) (r : RuleRes) : RuleM Summ := do
  let now ← qMade e id
  let moved := match r.made, now with
    | some m, some w => !m.sameRules e.v.fmt w id
    | _, _ => false
  let u ← qOpndNow e a ((r.made.map (·.length)).getD 0)
  let stale := r.made.any fun m => opndDiffers m.opnd u
  let q ← get
  let all := moved || q.s.qidShared e.v.qid
  if all || stale then
    let (y, s1) := q.s.freeSumm e.op e.fl (if all then none else some (r.summ.z, r.summ.sp))
    set { q with s := s1 }
    pure y
  else pure r.summ

/-- The length of a found result's rule: that of the rule as it stands, where it can be read; else the one that the computation had, but for a result that may be another quilt's (R170, R175). -/
def qLength (e : QOp) (id : Nat) (r : RuleRes) : RuleM Unit := do
  let now ← qLook (qRule e.v id)
  modify fun q =>
    let n := (now.map (·.length)).orElse fun _ => if q.s.qidShared e.v.qid then none else r.made.map (·.length)
    match n with
    | some k => if (q.lens.find id).isNone then { q with lens := q.lens.put id k } else q
    | none => q

/-- The summary of a rule at an anchor: found, or computed once and kept (R196, R197). R197 lets nodes that are ready at once run in any order, which shows where a check fails (which results are kept by then, which of two bad payloads is reported): they run depth first, left to right (DESIGN CHOICE, log 110). -/
def qSumm (e : QOp) : Nat → Nat → Nat → RuleM Summ
  | 0, _, _ => qTrap Cause.ruleStructure 0
  | fuel + 1, id, a => do
    let key := resKey e.v e.op id e.o a
    let make : RuleM Summ := do
      let r ← qRule e.v id
      if r.kind = 1 || r.kind = 4 then do
        let bs ← qPacked e.v r
        let y ← qLeaf e (elemWords e.v.fmt r.length bs) a
        pure (y.getD (identity e.op e.fl))
      else do
        let l ← qRule e.v r.left
        if r.kind = 2 then do
          let x ← qSumm e fuel r.left a
          let y ← qSumm e fuel r.right (if e.dot then a + l.length else 0)
          pure (x.combine e.op e.fl false y)
        else qCopies e l.length (fun b => qSumm e fuel r.left b) 48 r.right a
    match ← qFind e.op key with
    | some r => do
      qSeen key false
      qLength e id r
      qKept e id a r
    | none =>
      qNode
      let x ← make
      qStore e id a x
      qSeen key true
      pure x

/-- The occurrences of entries i to i + n - 1 in spine order, each given to a function with its offset and rule, and where the last one ends: n counts down. -/
def qWalk {α : Type} (v : QView) (sp : Nat × Nat) (f : α → Nat → Nat → RuleM α) : Nat → Nat → Lead → α → RuleM (α × Lead)
  | 0, _, lead, acc => pure (acc, lead)
  | n + 1, i, lead, acc => do
    let (off, id) ← qEntry v sp i lead
    let acc1 ← f acc off id
    let p ← qAfter v sp i off id
    qWalk v sp f n (i + 1) p acc1

/-- The fold of entries i0 to i1 - 1 (R198), none for an empty range; and where the last one ends. -/
def qFold (e : QOp) (sp : Nat × Nat) (i0 i1 : Nat) : RuleM (Option Summ × Lead) :=
  qWalk e.v sp (fun acc off id => do
    let x ← qSumm e ruleFuel id (if e.dot then off else 0)
    pure (some (joinSumm e.op e.fl acc (x.shift e.op e.fl off)))) (i1 - i0) i0 .back none

/-! ### Requests (R393, R394) -/

/-- The fields of a request block. -/
structure QReq where
  row : Nat
  i0 : Nat
  i1 : Nat
  rule : Nat
  opnd : Nat
  work : Nat
  worksize : Nat
  counter : Nat
  anchor : Nat
  deriving DecidableEq, Repr

/-- A block's 48 bytes. -/
def reqOf (bs : List Byte) : QReq :=
  ⟨field bs 0 4, field bs 4 4, field bs 8 4, field bs 12 4, field bs 16 8, field bs 24 4, field bs 28 4, field bs 32 8, field bs 40 8⟩

/-- Order 3 of R393: a reserved or misused field. -/
def QReq.illegal (r : QReq) (eval : Bool) (op : Nat) : Bool :=
  (if eval && op == 4 && r.rule != 0 then bits r.anchor 63 48 != 0 else r.anchor != 0) || r.work % 16 != 0 || decide (r.worksize < 1040) ||
  (!eval && (r.rule != 0 || r.counter != 0)) || (op != 4 && op != 6 && r.opnd != 0)

/-- The bytes of a summary of an operator. -/
def summSize (op : Nat) : Nat := if op = 5 then 24 else 8

/-- Order 4 of R393: a rule, row or range out of range; the row's spine. -/
def qRange (v : QView) (r : QReq) : RuleM (Nat × Nat) := do
  if v.rows ≤ r.row then qTrap Cause.permission 0
  else
    let sp ← qSpine v r.row
    if r.i1 < r.i0 || sp.2 < r.i1 then qTrap Cause.permission 0 else pure sp

/-- ql.eval up to its counter: the result's bytes. -/
def qEval (h : QHandle) (op : Nat) (r : QReq) : RuleM (List Byte) := do
  let v ← qView h
  let fl := isFloatQ v.fmt
  if r.rule ≠ 0 then
    if v.nrules < r.rule then qTrap Cause.permission 0
    else
      let o ← if op = 4 then qOperand fl r.opnd else pure QOpnd.none
      let x ← qSumm ⟨op, v, o⟩ ruleFuel r.rule (if op = 4 then r.anchor else 0)
      pure (summBytes x.ws ++ x.flagWord)
  else
    let sp ← qRange v r
    let o ← if op = 4 then qOperand fl r.opnd else pure QOpnd.none
    let _ ← qWalk v sp (fun (_ : Unit) off id => do
      let _ ← qSumm ⟨op, v, o⟩ ruleFuel id (if op = 4 then off else 0)
      pure ()) (r.i1 - r.i0) r.i0 .back ()
    let q ← get
    pure (bytesOf 8 q.made ++ bytesOf 8 q.found)

/-- ql.fold of a stored operator. -/
def qFoldRow (h : QHandle) (op : Nat) (r : QReq) : RuleM (List Byte) := do
  let v ← qView h
  let sp ← qRange v r
  let o ← if op = 4 then qOperand (isFloatQ v.fmt) r.opnd else pure QOpnd.none
  let e : QOp := ⟨op, v, o⟩
  let (x, _) ← qFold e sp r.i0 r.i1
  let y := x.getD (identity op e.fl)
  pure (summBytes y.ws ++ y.flagWord)

/-- The nodes of an operation as they stand in its work area, 16 bytes each in the layout of R87 (R197, R393): node after node from its start, around where it fills. Those of a whole evaluation have run, their counts 0 and fired set; which counts an operation leaves that has failed is open. A node's record bytes are open too (DESIGN CHOICE, log 88). -/
def nodeBytes (s : State) (n : Nat) (ran : Bool) : List Byte :=
  ((List.range n).map fun i =>
    let w := fun (j : Nat) => bytesOf 8 (Config.freeWord (s.fresh + 2 * i + j)).toNat
    (if ran then zeros 4 ++ [1] ++ zeros 3 else w 0) ++ w 1).flatten

/-- Put them there. -/
def State.workPut (s : State) (slot : Nat) (r : QReq) (nodes : Nat) (ran : Bool) : State :=
  let n := Nat.min nodes (r.worksize / 16)
  if n = 0 then s else { s with fresh := s.fresh + 2 * n }.scrWrite (groveOf slot) r.work (nodeBytes s n ran)

/-- An operation with its nodes in the work area, also where a check ends it. -/
def withNodes (r : QReq) (m : RuleM (List Byte)) : RuleM (List Byte) := do
  let out ← tryCatch (some <$> m) fun e => match e with
    | .wait => throw .wait
    | .trap c a => do
      modify fun q => { q with s := q.s.workPut q.slot r q.nodes false }
      throw (.trap c a)
    | .check f => do
      modify fun q => { q with s := q.s.workPut q.slot r q.nodes false }
      throw (.check f)
    | .checkAt f a => do
      modify fun q => { q with s := q.s.workPut q.slot r q.nodes false }
      throw (.checkAt f a)
  modify fun q => { q with s := q.s.workPut q.slot r q.nodes true }
  pure (out.getD [])

/-- Checks 1 to 3 of R393 on a request. n is the size of the result, k goes on with the block. -/
def withRequest (o c : Word) (scr eval : Bool) (op : Nat) (n : QReq → Nat) (s : State) (k : QReq → Eff) : Eff :=
  let core := coreOf s.cur
  if o.toNat % 8 ≠ 0 || c.toNat % 8 ≠ 0 then .trap s Cause.misaligned 0 4
  else if s.areaOut false c.toNat 48 then .trap s Cause.permission 0 4
  else if s.tcmPoison core c.toNat 48 then .trap s Cause.poison c 4
  else
    let r := reqOf (s.tcmRead core c.toNat 48)
    if s.areaOut (scr || op == 6) o.toNat (n r) || decide (2 ^ 20 < r.work + r.worksize) then .trap s Cause.permission 0 4
    else if r.illegal eval op || (op == 6 && !scr) then .trap s Cause.illegal 0 4
    else k r

/-- The counter of ql.eval at completion: a DEP entry in collecting mode, else the decrement of R87; then the result. s0 is the state before the operation: one that must wait here runs again from it, with nothing kept (R391, R394). -/
def evalCount (r : QReq) (k : State → Eff) (s0 s : State) : Eff :=
  let c := BitVec.ofNat 64 r.counter
  if r.counter = 0 then k s
  else if 2 ^ 48 ≤ r.counter then .trap s Cause.translation c 4
  else if r.counter % 16 ≠ 0 then .trap s Cause.misaligned c 4
  else
    match s.translate (coreOf s.cur) ⟨s.cur, s.me.ctx, 4⟩ .atomic .plain c 16 false true with
    | (.fail f, s1) => .xfault s1 f c
    | (.deny cause, s1) => .trap s1 cause c 4
    | (.wait, _) => .hold s0
    | (.ok p inter, s1) =>
      if s1.me.collecting then (s1.collect [⟨3, 0, c.setWidth 48, 0, [], 0, none, 0⟩] c).andThen fun _ s2 => k s2
      else if s1.locked p 16 then .hold s0
      else if s1.poisoned p 16 then .trap s1 Cause.poison c 4
      else if s1.underflow [(p, inter)] then .trap s1 Cause.counterUnderflow 0 4
      else if s1.recWaits noTask s1.me.ctx [(p, inter)] [] then .hold s0
      else k ((s1.applyCommit s1.cur noTask ⟨s1.spawnGroup s1.cur, s1.me.ctx, groveOf s1.cur, s1.me.task, none⟩ [] [(p, inter)]).stallFull s1)

/-- ql.eval on a handle. -/
def evalStep (op : Nat) (o c : Word) (scr : Bool) (h : QHandle) (s : State) : Eff :=
  withRequest o c scr true op (fun r => if r.rule ≠ 0 then summSize op + 8 else 16) s fun r =>
    ruleRun s (withNodes r (qEval h op r)) fun bs s1 => evalCount r (fun s2 => putResult scr o.toNat bs s2) s s1

/-- ql.eval (R393). An operator that it does not allow is ILLEGAL. -/
def execQlEval (op : BitVec 3) (a b c : Reg) (scr : Bool) (s : State) : Out :=
  quilted s (if 5 < op.toNat then .trap s Cause.illegal 0 0
    else withQuilt s (s.x b) fun _ h => evalStep op.toNat (s.x a) (s.x c) scr h s)

/-! ### ql.seek (R199) -/

/-- Descend to an element below a rule: the element's word, and the prefix with what lies before it joined (R199). -/
def qDescend (e : QOp) : Nat → Nat → Nat → Nat → Option Summ → RuleM (Word × Option Summ)
  | 0, _, _, _, _ => qTrap Cause.ruleStructure 0
  | fuel + 1, id, q, base, pre => do
    let join := fun (x : Summ) => some (joinSumm e.op e.fl pre (x.shift e.op e.fl base))
    let r ← qRule e.v id
    if r.kind = 2 then do
      let l ← qRule e.v r.left
      if q < l.length then qDescend e fuel r.left q base pre
      else do
        let x ← qSumm e ruleFuel r.left 0
        qDescend e fuel r.right (q - l.length) (base + l.length) (join x)
    else if r.kind = 3 then do
      let l ← qRule e.v r.left
      let j := q / l.length
      let pre1 ← if j = 0 then pure pre else do
        let x ← qCopies e l.length (fun b => qSumm e ruleFuel r.left b) 48 j 0
        pure (join x)
      qDescend e fuel r.left (q - j * l.length) (base + j * l.length) pre1
    else do
      let bs ← qPacked e.v r
      let l := elemWords e.v.fmt r.length bs
      let x ← qLeaf e (l.take q) 0
      pure (((l[q]?).getD (0, false, false)).1, match x with
        | some y => join y
        | none => pre)

/-- ql.seek: element and prefix of a flat position. -/
def qSeek (h : QHandle) (op p : Nat) : RuleM (List Byte) := do
  let v ← qView h
  if v.rows * v.length ≤ p then qTrap Cause.permission 0
  else
    let e : QOp := ⟨op, v, QOpnd.none⟩
    let sp ← qSpine v (p / v.length)
    let pos := p % v.length
    let i ← qSearch v sp (fun _ off => decide (off ≤ pos)) 33 0 sp.2
    let (pre, last) ← qFold e sp 0 (i - 1)
    let (off, id) ← qEntry v sp (i - 1) last
    let r ← qRule v id
    let _ ← qAfter v sp (i - 1) off id
    if r.length ≤ pos - off then qTrap Cause.ruleStructure (sp.1 + 16 * i)
    else
      let (w, pre1) ← qDescend e ruleFuel id (pos - off) off pre
      pure (bytesOf 8 w.toNat ++ summBytes (pre1.getD (identity op e.fl)).ws)

/-- ql.seek on a handle. -/
def seekStep (op : Nat) (o c : Word) (scr : Bool) (h : QHandle) (s : State) : Eff :=
  if o.toNat % 8 ≠ 0 then .trap s Cause.misaligned 0 4
  else if s.areaOut scr o.toNat (8 + summSize op) then .trap s Cause.permission 0 4
  else if bits c.toNat 63 48 ≠ 0 then .trap s Cause.illegal 0 4
  else ruleRun s (qSeek h op c.toNat) fun bs s1 => putResult scr o.toNat bs s1

/-- ql.seek (R393). -/
def execQlSeek (op : BitVec 3) (a b c : Reg) (scr : Bool) (s : State) : Out :=
  quilted s (if op = 4 || 5 < op.toNat then .trap s Cause.illegal 0 0
    else withQuilt s (s.x b) fun _ h => seekStep op.toNat (s.x a) (s.x c) scr h s)

/-! ### Latent attention (R203, R395) -/

/-- A partial (m, l, o) of R203. -/
structure Partial where
  m : FVal
  l : FVal
  o : List FVal
  deriving DecidableEq, Repr

/-- A product rounded to FP32. -/
def mulRne (a b : FVal) : FVal := rne32 (fMul a b).1

/-- exp of the exact difference, rounded once. -/
def expDiff (a b : FVal) : FVal := rne32 (fExp (fAdd false a b.neg).1)

/-- The partial of one occurrence: scores with the values of their keys, in key order. -/
def partialOf (ks : List (FVal × List FVal)) (dc : Nat) : Partial :=
  if ks.any fun k => k.1.isNan then ⟨.nan, .nan, List.replicate dc .nan⟩
  else
    let m := (ks.map (·.1)).foldl fMax (.inf true)
    let ws := ks.map fun k => (if m = .inf true then FVal.fin false 0 0 else expDiff k.1 m, k.2)
    let terms := ws.map fun k => (k.1, k.2.map (mulRne k.1))
    match terms with
    | [] => ⟨m, .fin false 0 0, List.replicate dc (.fin false 0 0)⟩
    | t :: rest =>
      let r := rest.foldl (fun acc u => (addRne acc.1 u.1, List.zipWith addRne acc.2 u.2)) t
      ⟨m, r.1, r.2⟩

/-- Merge of R203. -/
def Partial.merge (p q : Partial) : Partial :=
  let m := rne32 (fMax p.m q.m)
  if m = .inf true then p
  else
    let a1 := expDiff p.m m
    let a2 := expDiff q.m m
    let mix := fun (x y : FVal) => addRne (mulRne x a1) (mulRne y a2)
    ⟨m, mix p.l q.l, List.zipWith mix p.o q.o⟩

/-- The partial of an empty range (R190). -/
def Partial.empty (dc : Nat) : Partial := ⟨.inf true, .fin false 0 0, List.replicate dc (.fin false 0 0)⟩

/-- Its bytes in the result area. -/
def Partial.bytes (p : Partial) : List Byte :=
  ((p.m :: p.l :: p.o).map fun v => bytesOf 4 (fmtF32.round 0 false 0 v).1).flatten

/-- The latent mode as a stand-in for an mma that rotates by a key offset. -/
def attnOp (mode off : Nat) : MmaOp := ⟨0, 0, none, BitVec.ofNat 2 (2 + mode), none, none, false, 0, 0, false, 0, true, BitVec.ofNat 48 off⟩

/-- The partial of one occurrence at offset p for a query row at a position (R203, R395). -/
def attnPartial (g : Grove) (mode : Nat) (causal : Bool) (query : List Byte) (qpos off : Nat) (keys : List (List Byte)) : Partial :=
  let kw := g.latDc + 64
  let op := attnOp mode (off / kw)
  let q := latentQuery g op query
  partialOf ((List.range keys.length).map fun i =>
    let key := (keys[i]?).getD []
    let score := if causal && decide (qpos < off / kw + i) then FVal.inf true
      else fmtF32.value (stepsF (ceilDiv q.length 32) q (latentKey g op key 0) 0).toNat
    (score, bf16List key g.latDc)) g.latDc

/-- The keys of an occurrence: every rule below it holds whole keys (R395). -/
def qKeys (v : QView) (kw id : Nat) : RuleM (List (List Byte)) := do
  let r ← qRule v id
  let whole : RuleRec → RuleM Unit := fun r => if r.length % kw ≠ 0 then qTrap Cause.ruleStructure r.addr else pure ()
  let bs ← qSlice v whole ruleFuel id 0 r.length
  pure ((List.range (r.length / kw)).map fun i => (bs.drop (2 * kw * i)).take (2 * kw))

/-- Every spine offset of a range is a multiple of the key width (R395). -/
def qWidth (v : QView) (sp : Nat × Nat) (kw : Nat) : Nat → Nat → RuleM Unit
  | 0, _ => pure ()
  | n + 1, i => do
    let (off, _) ← qProbe v sp i
    if off % kw ≠ 0 then qTrap Cause.ruleStructure 0 else qWidth v sp kw n (i + 1)

/-- The size of the result of ql.fold.attn: that of the queries that its attention block asks for, where it lies in scratch and their number is allowed (R395). -/
def State.attnSize (s : State) (r : QReq) : Nat :=
  let nq := natOf (s.localRead (coreOf s.cur) true (r.opnd + 2) 2)
  if 2 ^ 20 < r.opnd + 16 || 32 < nq then 0 else nq * (8 + 4 * s.myGrove.latDc)

/-- ql.fold.attn: the result's bytes (R395); the reserved bits of its block are not looked at (R5). R380 names the wake of gated matrix sub-arrays at the mma instruction only, and no rule says whether the scores of R395, called the mma of R384, need it: they take no look at the gate (DESIGN CHOICE, log 90). -/
def qAttn (h : QHandle) (r : QReq) : RuleM (List Byte) := do
  let q0 ← get
  let g := q0.s.grove (groveOf q0.slot)
  let core := coreOf q0.slot
  let v ← qView h
  let sp ← qRange v r
  if r.opnd % 16 ≠ 0 then qTrap Cause.misaligned 0
  else if 2 ^ 20 < r.opnd + 16 then qTrap Cause.permission 0
  else if q0.s.localPoison core true r.opnd 16 then qTrap Cause.poison r.opnd
  else
    let b := q0.s.localRead core true r.opnd 16
    let mode := field b 0 1
    let nq := field b 2 2
    let qoff := field b 4 4
    let poff := field b 8 4
    let dc := g.latDc
    if 1 < mode || nq = 0 || 32 < nq then qTrap Cause.illegal 0
    else if v.fmt ≠ 1 then qTrap Cause.formatContext 0
    else if dc = 0 then qTrap Cause.cbMisuse 0
    else if g.poisonLat then qTrap Cause.poison 0
    else do
      qWidth v sp (dc + 64) (r.i1 - r.i0) r.i0
      if 2 ^ 20 < qoff + 256 * nq || 2 ^ 20 < poff + 8 * nq then qTrap Cause.permission 0
      else if q0.s.localPoison core true qoff (256 * nq) then qTrap Cause.poison qoff
      else if q0.s.localPoison core true poff (8 * nq) then qTrap Cause.poison poff
      else
        let qs := (List.range nq).map fun i => (q0.s.localRead core true (qoff + 256 * i) 256, natOf (q0.s.localRead core true (poff + 8 * i) 8))
        let (ps, _) ← qWalk v sp (fun (acc : List (Option Partial)) off id => do
          let keys ← qKeys v (dc + 64) id
          let new := qs.map fun q => attnPartial g mode (bitAt (field b 1 1) 0) q.1 q.2 off keys
          pure (List.zipWith (fun (a : Option Partial) p => match a with
            | some x => some (x.merge p)
            | none => some p) acc new)) (r.i1 - r.i0) r.i0 .back (List.replicate nq none)
        pure ((ps.map fun p => (p.getD (Partial.empty dc)).bytes).flatten)

/-- ql.fold on a handle. -/
def foldStep (op : Nat) (o c : Word) (scr : Bool) (h : QHandle) (s : State) : Eff :=
  withRequest o c scr false op (fun r => if op = 6 then s.attnSize r else summSize op + 8) s fun r =>
    ruleRun s (withNodes r (if op = 6 then qAttn h r else qFoldRow h op r)) fun bs s1 => putResult scr o.toNat bs s1

/-- ql.fold (R393). -/
def execQlFold (op : BitVec 3) (a b c : Reg) (scr : Bool) (s : State) : Out :=
  quilted s (if 6 < op.toNat then .trap s Cause.illegal 0 0
    else withQuilt s (s.x b) fun _ h => foldStep op.toNat (s.x a) (s.x c) scr h s)

end Sys2Proof.Machine
end

