-- ==== Sys2Proof/Machine/Matrix.lean ====
section
/-! DEFINITION. Circular-buffer instructions, the matrix unit and the latent stage (R20, R21, R371 to R385). -/

namespace Sys2Proof.Machine

/-! ### cb.cfg and cb.adv (R373, R374) -/

/-- An engine command names a handle. -/
def EngCmd.names (c : EngCmd) (h : Nat) : Bool :=
  let d := engDesc c.desc
  d.cbMode != 0 && bits d.cb 3 0 == h

/-- The commands of an engine that are not complete. -/
def Engine.cmds (e : Engine) : List EngCmd :=
  (match e.run with
    | some c => [c]
    | none => []) ++ e.queue ++ e.back

/-- An mma names a handle. -/
def MmaOp.names (m : MmaOp) (h : HReg) : Bool := m.ahandle == some h || m.bhandle == some h

/-- An mma or an engine command of the core names a handle. -/
def Core.handleBusy (c : Core) (h : HReg) : Bool :=
  (match c.mma with
    | some m => m.names h
    | none => false) || (c.copyEng.cmds ++ c.gathEng.cmds).any fun k => k.names h.toNat

/-- Read the descriptor that cb.cfg names, check it and bind the handle (R373). -/
def cbBindTo (h : HReg) (v : Nat) (s : State) : Eff :=
  let core := coreOf s.cur
  let scr := bitAt v 63
  let off := bits v 19 0
  let e := BitVec.ofNat 64 off
  if bits v 61 20 ≠ 0 || (bitAt v 62 && v ≠ 2 ^ 62) then .trap s Cause.illegal 0 0
  else if bitAt v 62 then .next (s.modMyCore fun c => { c with cbs := c.cbs.drop h.toNat })
  else if off % 128 ≠ 0 then .trap s Cause.misaligned e 0
  else if s.localEnd core scr < off + 128 then .trap s Cause.permission e 0
  else match s.poisonWord core scr off 128 with
    | some w => .trap s Cause.poison (BitVec.ofNat 64 w) 0
    | none =>
      if s.cbValid core (s.cbAt core scr off) then .next (s.modMyCore fun c => { c with cbs := c.cbs.put h.toNat ⟨scr, off⟩ })
      else .trap s Cause.cbMisuse e 0

/-- cb.cfg (R373). -/
def execCbCfg (h : HReg) (b : Reg) (s : State) : Out :=
  guarded s (if s.myCore.handleBusy h then .hold s else cbBindTo h (s.x b).toNat s)

/-- Move a pointer of a buffer by n: a release, for which an mma that reads the buffer has read it first (R136, R374). -/
def cbAdvance (h : HReg) (n : Nat) (prod : Bool) (s : State) : Eff :=
  let core := coreOf s.cur
  match s.cbOf core h.toNat with
  | none => .trap s Cause.cbMisuse 0 0
  | some b =>
    match s.poisonWord core b.scr b.off 24 with
    | some w => .trap s Cause.poison (BitVec.ofNat 64 w) 0
    | none =>
      if n = 0 || decide (b.slots < n) || decide ((if prod then b.free else b.filled) < n) then
        .trap s Cause.cbMisuse (BitVec.ofNat 64 b.off) 0
      else s.release fun s1 =>
        let reads := match s1.myCore.mma with
          | some m => m.names h
          | none => false
        let s2 := if reads then s1.mmaFinish core else s1
        .next (if prod then s2.cbProd core b n else s2.cbCons core b n)

/-- cb.adv.p (R374). -/
def execCbAdvP (h : HReg) (n : BitVec 34) (s : State) : Out := guarded s (cbAdvance h n.toNat true s)

/-- cb.adv.c (R374). -/
def execCbAdvC (h : HReg) (n : BitVec 34) (s : State) : Out := guarded s (cbAdvance h n.toNat false s)

/-! ### mx.cfg and mx.zero (R376, R377) -/

/-- The accumulator holds INT32: both formats are integer codes (R376). -/
def Fmt.isInt (f : Fmt) : Bool := (intOfCode f.afmt.toNat).isSome && (intOfCode f.bfmt.toNat).isSome

/-- The columns that a column code names (R377, R385): the first and how many. -/
def colSpan : Cols → Nat × Nat
  | .all => (0, 64)
  | .left => (0, 32)
  | .right => (32, 32)

/-- Zero accumulator columns and their saturated bits. -/
def Core.zeroAcc (c : Core) (cols : Cols) : Core :=
  match cols with
  | .all => { c with acc := [], accSat := [], accFree := none }
  | .left => c.mapAcc fun _ j v => if j < 32 then (0, false) else v
  | .right => c.mapAcc fun _ j v => if 32 ≤ j then (0, false) else v

/-- The format context that x[a] gives (R376). -/
def fmtOfWord (v : Nat) : Fmt :=
  ⟨BitVec.ofNat 4 (bits v 3 0), BitVec.ofNat 4 (bits v 7 4), BitVec.ofNat 3 (bits v 10 8), bitAt v 11, BitVec.ofNat 16 (bits v 31 16), 0⟩

/-- mx.cfg (R242, R376). -/
def execMxCfg (a : Reg) (zero : Bool) (s : State) : Out :=
  let v := (s.x a).toNat
  let f := fmtOfWord v
  guarded s (
    if bits v 63 32 ≠ 0 || bits v 15 12 ≠ 0 then .trap s Cause.illegal 0 0
    else if s.myCore.mma.isSome then .hold s
    else .next (s.modMyCore fun c =>
      let c1 := if zero || f.isInt != c.fmt.isInt then c.zeroAcc .all else c
      { c1 with fmt := f, owner := some s.cur }))

/-- mx.zero (R377). -/
def execMxZero (cols : Cols) (s : State) : Out :=
  guarded s (if s.myCore.mma.isSome then .hold s else .next (s.modMyCore fun c => c.zeroAcc cols))

/-! ### mma (R378 to R382) -/

/-- Order 1 of R381. -/
def Fmt.refuses (f : Fmt) (mode fmt : Nat) : Bool :=
  let a := f.afmt.toNat
  let b := f.bfmt.toNat
  let known := fun c => (fmtOfCode c).isSome || isIntFmt c || (blockOfCode c).isSome
  !known a || !known b || isIntFmt a != isIntFmt b || (blockOfCode a).isSome != (blockOfCode b).isSome || decide (4 < f.rm.toNat) ||
  fmt != a || (decide (2 ≤ mode) && (a != 1 || b != 1))

/-- The group of a slot that runs a task. -/
def State.myGrp (s : State) : Nat := if s.me.task.isSome then s.me.grp else 0

/-- Order 4 of R381 on one handle: its buffer, whose slots hold n bytes; or the trap. A poisoned word of the descriptor traps as it is read (R245). -/
def State.bufFor (s : State) (h : HReg) (n : Nat) : Except Eff Cb :=
  match s.cbOf (coreOf s.cur) h.toNat with
  | none => .error (.trap s Cause.cbMisuse 0 0)
  | some b =>
    match s.cbPoison (coreOf s.cur) h.toNat with
    | some w => .error (.trap s Cause.poison (BitVec.ofNat 64 w) 3)
    | none => if b.slotSize < n then .error (.trap s Cause.cbMisuse (BitVec.ofNat 64 b.off) 0) else .ok b

/-- Wait for a filled slot of a buffer, and read it: its offset, if no word of it is poisoned (R236, R375). -/
def State.filledSlot (s : State) (h : HReg) (b : Cb) (n : Nat) (k : Nat → Eff) : Eff :=
  if b.filled = 0 then s.feedTrap h.toNat (.hold s)
  else
    let o := b.slotAt b.cons
    match s.poisonWord (coreOf s.cur) b.scr o n with
    | some w => .trap s Cause.poison (BitVec.ofNat 64 w) 3
    | none => k o

/-- Issue: the core's earlier mma is done, a ring one finds its outgoing hold empty, and the sub-arrays are awake: gated ones are asked to wake first (R21, R379, R380, R382). -/
def State.mmaIssue (s : State) (op : MmaOp) : Eff :=
  if s.myCore.mma.isSome || (op.mode = 1 && s.myCore.ringOut.isSome) then .hold s
  else if s.myGrove.gated then .hold (s.modMyGrove fun g => { g with waking := true })
  else .next ((s.modMyCore fun c => { c with mma := some op, owner := some s.cur }).mmaEnter (coreOf s.cur))

/-- The B side of an mma: from the latch, or from the slot at cons. -/
def State.mmaB (s : State) (mode : Nat) (b : HReg) (bb : Option Cb) (n : Nat) (k : Option HReg → Bool → Nat → Eff) : Eff :=
  match bb with
  | some q => s.filledSlot b q n fun o => k (some b) q.scr o
  | none =>
    match s.myCore.ringIn with
    | some r =>
      if r.grp ≠ s.myGrp then .hold s
      else if mode = 1 && r.bytes.length ≠ n then .trap s Cause.formatContext 0 0
      else k none false 0
    | none => .hold s

/-- The A side of an mma: rows of TCM, or the slot at cons. -/
def State.mmaA (s : State) (xa : Word) (a : HReg) (ab : Option Cb) (stride n : Nat) (k : Option HReg → Bool → Nat → Nat → Eff) : Eff :=
  match ab with
  | some q => s.filledSlot a q (32 * n) fun o => k (some a) q.scr o n
  | none =>
    match (List.range 32).findSome? fun i => s.poisonWord (coreOf s.cur) false (xa.toNat + i * stride) n with
    | some w => .trap s Cause.poison (BitVec.ofNat 64 w) 3
    | none => k none false xa.toNat stride

/-- Orders 5 and 6 of R381, the wait for operands, and the issue. -/
def State.mmaGo (s : State) (mode : Nat) (xa : Word) (a b : HReg) (ab bb : Option Cb) (na nb : Nat) : Eff :=
  let c := s.myCore
  if 2 ≤ mode && s.myGrove.latDc = 0 then .trap s Cause.cbMisuse 0 0
  else if 2 ≤ mode && s.myGrove.poisonLat then .trap s Cause.poison 0 3
  else
    s.mmaA xa a ab c.fmt.astride.toNat na fun ah ascr aoff stride =>
      s.mmaB mode b bb nb fun bh bscr boff =>
        s.mmaIssue ⟨s.cur, s.myGrp, s.me.task, BitVec.ofNat 2 mode, ah, bh, ascr, aoff, stride, bscr, boff, c.ltEn, c.ltOff⟩

/-- The checks of an mma in the order of R381. -/
def mmaStep (mode : Nat) (a : Reg) (b : HReg) (asrc : Bool) (fmt : BitVec 4) (s : State) : Eff :=
  let xa := s.x a
  let ah : HReg := a.setWidth 4
  let f := s.myCore.fmt
  let na := f.aBytes mode
  let nb := f.bSize mode s.myGrove.latDc
  let latch := mode = 1 && (s.ringAt s.myGrp (coreOf s.cur)).1 ≠ 0
  if f.refuses mode fmt.toNat then .trap s Cause.formatContext 0 0
  else if !asrc && (xa.toNat % 8 ≠ 0 || f.astride.toNat % 8 ≠ 0) then .trap s Cause.misaligned xa 3
  else if !asrc && s.myCore.utop.toNat * 256 < xa.toNat + 31 * f.astride.toNat + na then .trap s Cause.permission xa 3
  else
    match (if asrc then (s.bufFor ah (32 * na)).map some else .ok none) with
    | .error e => e
    | .ok ab =>
      match (if latch then .ok none else (s.bufFor b nb).map some) with
      | .error e => e
      | .ok bb =>
        match ab, bb with
        | some qa, some qb =>
          if ah = b then .trap s Cause.cbMisuse (BitVec.ofNat 64 qa.off) 0 else s.mmaGo mode xa ah b (some qa) (some qb) na nb
        | _, _ => s.mmaGo mode xa ah b ab bb na nb

/-- mma (R378). -/
def execMma (a : Reg) (b : HReg) (asrc : Bool) (fmt : BitVec 4) (s : State) : Out := guarded s (mmaStep 0 a b asrc fmt s)

/-- mma.ring (R378, R382). -/
def execMmaRing (a : Reg) (b : HReg) (asrc : Bool) (fmt : BitVec 4) (s : State) : Out := guarded s (mmaStep 1 a b asrc fmt s)

/-- mma.lx (R378, R384). -/
def execMmaLx (a : Reg) (b : HReg) (asrc : Bool) (fmt : BitVec 4) (s : State) : Out := guarded s (mmaStep 2 a b asrc fmt s)

/-- mma.la (R378, R384). -/
def execMmaLa (a : Reg) (b : HReg) (asrc : Bool) (fmt : BitVec 4) (s : State) : Out := guarded s (mmaStep 3 a b asrc fmt s)

/-! ### The latent stage's loads (R383) -/

/-- A latent-mode mma of the grove has issued and not completed. -/
def State.latentBusy (s : State) : Bool :=
  s.cores.any fun q => groveOfCore q.1 == groveOf s.cur && (match q.2.mma with
    | some m => decide (2 ≤ m.mode.toNat)
    | none => false)

/-- Scratch bytes that a load of the latent stage reads, once every issued latent-mode mma has completed (R383), if none is poisoned (R245). -/
def State.latentArea (s : State) (off n : Nat) (k : List Byte → Eff) : Eff :=
  if s.latentBusy then .hold s
  else match s.poisonWord (coreOf s.cur) true off n with
  | some w => .trap s Cause.poison (BitVec.ofNat 64 w) 3
  | none => k (s.scrRead (groveOf s.cur) off n)

/-- lt.load (R383). -/
def execLtLoad (a b : Reg) (s : State) : Out :=
  let o := s.x a
  let dc := (s.x b).toNat
  guarded s (
    if o.toNat % 128 ≠ 0 then .trap s Cause.misaligned o 3
    else if 0x100000 < o.toNat + 128 * dc then .trap s Cause.permission o 3
    else if dc ≠ 0 && (dc < 32 || 512 < dc || dc % 32 ≠ 0) then .trap s Cause.illegal 0 0
    else s.latentArea o.toNat (128 * dc) fun bs =>
      .next (s.modMyGrove fun g => { g with
        latDc := dc, latU := (List.range (64 * dc)).map fun i => BitVec.ofNat 16 (field bs (2 * i) 2), poisonLat := false }))

/-- lt.rot (R383). -/
def execLtRot (a : Reg) (s : State) : Out :=
  let o := s.x a
  guarded s (
    if o.toNat % 128 ≠ 0 then .trap s Cause.misaligned o 3
    else if 0x100000 < o.toNat + 128 then .trap s Cause.permission o 3
    else s.latentArea o.toNat 128 fun bs =>
      .next (s.modMyGrove fun g => { g with turns := (List.range 32).map fun i => BitVec.ofNat 32 (field bs (4 * i) 4) }))

/-! ### mx.drain (R385) -/

/-- One element as it is drained: its bytes, and the arithmetic side after it. -/
def drainElem (f : Fmt) (fmt : Nat) (v : BitVec 32) (satBit : Bool) (p : Fp) : List Byte × Fp :=
  let p1 := if satBit then p.raise flagSat else p
  if fmt = 5 || fmt = 6 then
    let (lo, hi) := intRange (fmt == 5) 8
    let (r, did) := clampInt lo hi v.toInt
    if f.sat then (bytesOf 1 (wrapInt 8 r), if did then p1.raise flagSat else p1) else (bytesOf 1 (v.toNat % 256), p1)
  else if fmt = 0 || fmt = 8 then (bytesOf 4 v.toNat, p1)
  else match fmtOfCode fmt with
    | some t =>
      let (b, p2) := p1.round t f.rm.toNat f.sat (fmtF32.value v.toNat, 0)
      (bytesOf (t.width / 8) b, p2)
    | none => ([], p1)

/-- One row as it is drained. -/
def drainRow (c : Core) (fmt i j0 n : Nat) (p : Fp) : List Byte × Fp :=
  (span j0 n).foldl (fun (acc : List Byte × Fp) j =>
    let k := i * 64 + j
    let (bs, p1) := drainElem c.fmt fmt (c.accAt k) (c.accSat.contains k) acc.2
    (acc.1 ++ bs, p1)) ([], p)

/-- The bytes of a drained element. -/
def drainSize (fmt : Nat) : Nat := elemBits fmt / 8

/-- mx.drain's own step, its checks passed. -/
def drainGo (e x : Word) (fmt : Nat) (scr zero : Bool) (cols : Cols) (s : State) : Eff :=
  let core := coreOf s.cur
  let c := s.myCore
  let (j0, n) := colSpan cols
  let (s1, p) := (List.range 32).foldl (fun (acc : State × Fp) i =>
    let (bs, p1) := drainRow c fmt i j0 n acc.2
    (acc.1.localWrite core scr (e + BitVec.ofNat 64 i * x + BitVec.ofNat 64 (j0 * drainSize fmt)).toNat bs, p1)) (s, s.fp)
  let s2 := s1.setFp p
  .next (if zero then s2.modMyCore fun q => q.zeroAcc cols else s2)

/-- mx.drain (R385). -/
def drainStep (x e : Word) (fmt : BitVec 4) (space : Space) (zero : Bool) (cols : Cols) (s : State) : Eff :=
  let f := s.myCore.fmt
  let k := fmt.toNat
  let scr := space == .scr
  let sz := drainSize k
  let (j0, n) := colSpan cols
  let rowOut := fun i => decide (s.localEnd (coreOf s.cur) scr < (e + BitVec.ofNat 64 i * x + BitVec.ofNat 64 (j0 * sz)).toNat + n * sz)
  if space = .glob || 8 < k || k = 7 then .trap s Cause.illegal 0 0
  else if (decide (5 ≤ k)) != f.isInt || 4 < f.rm.toNat then .trap s Cause.formatContext 0 0
  else if e.toNat % sz ≠ 0 || x.toNat % sz ≠ 0 then .trap s Cause.misaligned e 3
  else if (List.range 32).any rowOut then .trap s Cause.permission e 3
  else if s.myCore.mma.isSome then .hold s
  else drainGo e x k scr zero cols s

/-- mx.drain (R385). -/
def execMxDrain (a b : Reg) (imm : Word) (fmt : BitVec 4) (space : Space) (zero : Bool) (cols : Cols) (s : State) : Out :=
  guarded s (drainStep (s.x a) (ea (s.x b) imm) fmt space zero cols s)

/-! ### Events -/

/-- MMA_COMPLETE: the mma of the core that the unit serves, or its next piece of two K-steps (R379, R380, R384). -/
def execMmaComplete (core : Nat) (s : State) : Out := .next (if s.served core = core then s.mmaPiece core else s)

/-- The core that lies east of a core in the clearing of a group: none at its east edge or on another module. -/
def State.eastCore (s : State) (grp core : Nat) : Option Nat :=
  match s.groups.find grp, s.logical (groveOfCore core) with
  | some g, some (gx, gy) =>
    if gx - g.gx0 % 32 + 1 < g.w && gx + 1 < 32 then some (s.physGrove (gx + 1) gy * 8 + core % 8) else none
  | _, _ => none

/-- RING_PASS: the outgoing hold of a core goes to the east latch once that is empty, and empties at the east edge (R382). -/
def execRingPass (core : Nat) (s : State) : Out :=
  .next (match (s.core core).ringOut with
  | none => s
  | some r =>
    let gone := s.modCore core fun c => { c with ringOut := none }
    match s.eastCore r.grp core with
    | none => gone
    | some e => if (s.core e).ringIn.isSome then s else gone.modCore e fun c => { c with ringIn := some r })

/-- SUBARRAY_WAKE: the wake latency of the sub-arrays that an operation has asked for has passed (R21). -/
def execSubarrayWake (grove : Nat) (s : State) : Out := .next (s.modGrove grove fun g => { g with gated := false, waking := false })

/-- SUBARRAY_POWER_GATE: an idle sub-array gates (R21, log 85). -/
def execSubarrayPowerGate (grove : Nat) (s : State) : Out :=
  .next (if s.cores.any fun q => groveOfCore q.1 == grove && q.2.mma.isSome then s else s.modGrove grove fun g => { g with gated := true })

end Sys2Proof.Machine
end

