-- ==== Sys2Proof/Machine/Memory.lean ====
section
/-! DEFINITION. Loads, stores, atomics, reductions, fences, cache maintenance and instruction synchronisation (R320 to R325, R328 to R331). -/

namespace Sys2Proof.Machine

/-! ### Loads and stores (R322, R323) -/

/-- A release modifier. -/
def Ord.isRel : Ord → Bool
  | .rel | .ar => true
  | .none | .acq => false

/-- Earlier global stores perform first where the access is a release; a collected store's .rel has no effect (R133, R321). -/
def relFirst (s : State) (rel : Bool) (k : State → Eff) : Eff := if rel then s.release k else k s

/-- ld: zero-extended (R322). -/
def execLd (a b : Reg) (size : BitVec 2) (m : MemMod) (imm : Word) (s : State) : Out :=
  let n := 2 ^ size.toNat
  guarded s ((s.load m.space m.sk (ea (s.x b) imm) n n true).andThen fun bs s1 => .next ((s1.acqIf m.ord).setX a (BitVec.ofNat 64 (natOf bs))))

/-- st (R322). -/
def execSt (a b : Reg) (size : BitVec 2) (m : MemMod) (imm : Word) (s : State) : Out :=
  let n := 2 ^ size.toNat
  let coll := s.me.collecting && m.space == .glob
  guarded s (relFirst s (Ord.isRel m.ord && !coll) fun s1 =>
    (s1.store m.space m.sk (ea (s1.x b) imm) (bytesOf n (s1.x a).toNat) n m.sig true).andThen fun _ s2 => .next s2)

/-! ### Atomics (R324) -/

/-- The new value of a read-modify-write of w bits, by the f code of major 4: old, operand, expected value. -/
def amoNew (f w old op exp : Nat) : Nat :=
  let o := old % 2 ^ w
  let p := op % 2 ^ w
  (match f with
    | 0 => o + p
    | 1 => p
    | 2 => o &&& p
    | 3 => o ||| p
    | 4 => o ^^^ p
    | 5 => if sInt w p < sInt w o then p else o
    | 6 => if sInt w o < sInt w p then p else o
    | 7 => if o = exp % 2 ^ w then p else o
    | 8 => if p < o then p else o
    | _ => if o < p then p else o) % 2 ^ w

/-- One amo; signed says that the result sign-extends (R324). -/
def amo (a b c : Reg) (m : AtomMod) (f : Nat) (signed : Bool) (s : State) : Out :=
  let w := if m.wide then 64 else 32
  guarded s (
    if s.me.collecting then .trap s Cause.collectForbidden (s.x b) 0
    else relFirst s (Ord.isRel m.ord) fun s1 =>
      (s1.rmw m.space (s1.x b) (w / 8) (fun old => amoNew f w old (s1.x c).toNat (s1.x a).toNat) m.sig).andThen fun old s2 =>
        .next ((s2.acqIf m.ord).setX a (if signed then BitVec.ofInt 64 (sInt w old) else BitVec.ofNat 64 old)))

/-- amo.add (R324). -/
def execAmoAdd (a b c : Reg) (m : AtomMod) (s : State) : Out := amo a b c m 0 true s

/-- amo.swap (R324). -/
def execAmoSwap (a b c : Reg) (m : AtomMod) (s : State) : Out := amo a b c m 1 true s

/-- amo.and (R324). -/
def execAmoAnd (a b c : Reg) (m : AtomMod) (s : State) : Out := amo a b c m 2 true s

/-- amo.or (R324). -/
def execAmoOr (a b c : Reg) (m : AtomMod) (s : State) : Out := amo a b c m 3 true s

/-- amo.xor (R324). -/
def execAmoXor (a b c : Reg) (m : AtomMod) (s : State) : Out := amo a b c m 4 true s

/-- amo.min signed (R324). -/
def execAmoMin (a b c : Reg) (m : AtomMod) (s : State) : Out := amo a b c m 5 true s

/-- amo.max signed (R324). -/
def execAmoMax (a b c : Reg) (m : AtomMod) (s : State) : Out := amo a b c m 6 true s

/-- amo.cas: x[a] is the expected value and the destination (R324). -/
def execAmoCas (a b c : Reg) (m : AtomMod) (s : State) : Out := amo a b c m 7 true s

/-- amo.min unsigned (R324). -/
def execAmoMinN (a b c : Reg) (m : AtomMod) (s : State) : Out := amo a b c m 8 false s

/-- amo.max unsigned (R324). -/
def execAmoMaxN (a b c : Reg) (m : AtomMod) (s : State) : Out := amo a b c m 9 false s

/-! ### Reductions (R325) -/

/-- red.add (R325). -/
def execRedAdd (a b : Reg) (wide : Bool) (space : Space) (s : State) : Out :=
  guarded s (s.reduce space (s.x b) (redType wide true) 0 (s.x a).toNat)

/-- red.add.f32 (R325). -/
def execRedAddF32 (a b : Reg) (space : Space) (s : State) : Out := guarded s (s.reduce space (s.x b) 4 0 (s.x a).toNat)

/-- red.min signed (R325). -/
def execRedMin (a b : Reg) (wide : Bool) (space : Space) (s : State) : Out :=
  guarded s (s.reduce space (s.x b) (redType wide true) 1 (s.x a).toNat)

/-- red.max signed (R325). -/
def execRedMax (a b : Reg) (wide : Bool) (space : Space) (s : State) : Out :=
  guarded s (s.reduce space (s.x b) (redType wide true) 2 (s.x a).toNat)

/-- red.min unsigned (R325). -/
def execRedMinN (a b : Reg) (wide : Bool) (space : Space) (s : State) : Out :=
  guarded s (s.reduce space (s.x b) (redType wide false) 1 (s.x a).toNat)

/-- red.max unsigned (R325). -/
def execRedMaxN (a b : Reg) (wide : Bool) (space : Space) (s : State) : Out :=
  guarded s (s.reduce space (s.x b) (redType wide false) 2 (s.x a).toNat)

/-- red.min.f32 (R325). -/
def execRedMinF32 (a b : Reg) (space : Space) (s : State) : Out := guarded s (s.reduce space (s.x b) 4 1 (s.x a).toNat)

/-- red.max.f32 (R325). -/
def execRedMaxF32 (a b : Reg) (space : Space) (s : State) : Out := guarded s (s.reduce space (s.x b) 4 2 (s.x a).toNat)

/-! ### Fences (R132, R135, R328, R329) -/

/-- fence: a store is visible to any other slot at one moment only, so every scope waits for the home (R130, R132). -/
def execFence (scope : BitVec 3) (s : State) : Out :=
  guarded s (if 5 ≤ scope.toNat then .trap s Cause.illegal 0 0 else s.release .next)

/-- An mma of the slot is in progress. -/
def State.mmaBusy (s : State) : Bool :=
  match s.myCore.mma with
  | some m => m.slot == s.cur
  | none => false

/-- fence.x: a failed engine command traps here; the core path drains, a matrix operation of the slot completes first, and the other paths' counted accesses have performed (R135, R236). -/
def execFenceX (p q : BitVec 4) (scope : BitVec 3) (s : State) : Out :=
  let bell := (s.ctxOf s.me.ctx).perm.getLsbD 3
  guarded s (
    if p = q || 7 ≤ p.toNat || 7 ≤ q.toNat || 5 ≤ scope.toNat || ((p = 5 || q = 5) && !bell) then .trap s Cause.illegal 0 0
    else
      let rest : Eff :=
        if p = 0 then s.release .next
        else if p = 3 && s.mmaBusy then .hold s
        else .next s
      let copy := if p = 1 || q = 1 then s.engTrap false rest else rest
      if p = 2 || q = 2 then s.engTrap true copy else copy)

/-! ### Write-backs and discards (R63, R67, R68, R214) -/

/-- Write a sector back if it is dirty, with the OR at its bit's home (R63, R214). -/
def State.writeBackSec (s : State) (sec : Nat) : State := (s.writeBack1 sec).orsOut

/-- The write-back of a sector waits: a commit holds the sector of its bit (R139). -/
def State.writeBackWaits (s : State) (sec : Nat) : Bool :=
  (s.dirty.find sec).isSome && (match s.bitmapAt sec with
    | some a => s.lockedSec (sectorOf a)
    | none => false)

/-- What memory holds under a dirty sector stands again. -/
def State.undo (s : State) (sec : Nat) (d : Dram) : State :=
  match s.regionOf (sec * 128) with
  | .device => { s with mem := memWrite s.mem (sec * 128) d.bytes }
  | .hostMem a => { s with hostMem := memWrite s.hostMem a d.bytes }
  | .userWindow _ _ | .fwWindow _ _ | .trace _ _ | .bar0 _ | .doorbell _ _ | .hole => s

/-- Make a sector invalid: its memory copy stands again, and every private copy is dropped, those of the guest and of the host too (R67, R222, R231). -/
def State.discardSec (s : State) (sec : Nat) : State :=
  let s0 := (s.dropUpd sec).snoop sec
  let s1 := { s0 with hostHeld := s0.hostHeld.filter fun h => h / 2 != sec }
  match s1.dirty.find sec with
  | some d => { s1.undo sec d with
      dirty := s1.dirty.drop sec
      poison := if d.poison then (if s1.poison.contains sec then s1.poison else insertBy id sec s1.poison)
        else s1.poison.filter (· != sec) }
  | none => s1

/-- What comes before the action of a dc instruction on a sector: the slot's own earlier stores to it perform (R130, R330), and for a flush the update-only copies are combined (R67). -/
def State.dcReady (s : State) (flush : Bool) (p : Nat) : State :=
  let s1 := s.drainSecs s.cur [sectorOf p]
  if flush then s1.recall (sectorOf p) else s1

/-- The action on a sector that is ready for it. -/
def State.dcSector (s : State) (flush : Bool) (p : Nat) : State :=
  if flush then s.writeBackSec (sectorOf p) else s.discardSec (sectorOf p)

/-- dc.flush and dc.discard: one sector a step, x[a] and x[b] naming what is left; the chain issues again until nothing is (R330). R67 and R330 give COLLECT_FORBIDDEN no order against a length of 0 and a range past 2^48: it goes first (DESIGN CHOICE, log 96). -/
def dcStep (a b : Reg) (flush : Bool) (s : State) : Eff :=
  let start := s.x a
  let len := (s.x b).toNat
  if !flush && s.me.collecting then .trap s Cause.collectForbidden start 0
  else if 2 ^ 48 < start.toNat + len then .trap s Cause.illegal start 0
  else if len = 0 then .next s
  else
    let left := sectorLeft start.toNat
    let k := if len < left then len else left
    (s.xlate (if flush then .load else .store) .plain start k false start).andThen fun q s1 =>
      if s1.locked q.1 k then .hold s1
      else if flush && (s1.dcReady flush q.1).writeBackWaits (sectorOf q.1) then .hold (s1.dcReady flush q.1)
      else
        let s2 := (s1.dcReady flush q.1).dcSector flush q.1
        let s3 := s2.setX a (s2.x a + BitVec.ofNat 64 k)
        let s4 := s3.setX b (s3.x b - BitVec.ofNat 64 k)
        if s4.x b = 0 then .next s4 else .left s4

/-- dc.flush (R330). -/
def execDcFlush (a b : Reg) (s : State) : Out := guarded s (dcStep a b true s)

/-- dc.discard (R330). -/
def execDcDiscard (a b : Reg) (s : State) : Out := guarded s (dcStep a b false s)

/-- icsync: the core holds no instruction byte (R331). -/
def execIcsync (s : State) : Out := guarded s (.next (s.modMyCore fun c => { c with icache := [] }))

end Sys2Proof.Machine
end

