-- ==== Sys2Proof/Machine/MemEvents.lean ====
section
/-! DEFINITION. Events of the memory side: buffered stores, fills, write-backs, update-only copies, table walks and corrected errors (R62, R63, R124, R130, R142, R209, R214, R245). -/

namespace Sys2Proof.Machine

/-- Two stores touch a common location, an aligned 8-byte word (R129). -/
def Stored.meets (a b : Stored) : Bool :=
  decide (a.pa / 8 ≤ (b.pa + b.bytes.length - 1) / 8) && decide (b.pa / 8 ≤ (a.pa + a.bytes.length - 1) / 8)

/-- The store of a buffer that performs when the one at a place is to: the first that shares a location with it, so that one location keeps program order (R130). -/
def firstMeeting (buf : List Stored) (idx : Nat) : Option Nat :=
  match buf[idx]? with
  | some st => (List.range (idx + 1)).find? fun j => match buf[j]? with
    | some e => e.meets st
    | none => false
  | none => none

/-- STORE_COMPLETE: one buffered store of a slot performs at its home, unless a lock holds it (R62, R129, R130, R139). -/
def execStoreComplete (slot idx : Nat) (s : State) : Out :=
  let sl := s.slot slot
  .next (match firstMeeting sl.sbuf idx with
    | some j => match sl.sbuf[j]? with
      | some st =>
        if s.locked st.pa st.bytes.length then s
        else (s.setSlot slot { sl with sbuf := sl.sbuf.eraseIdx j }).strongPut slot st.pa st.inter st.bytes st.sig 0
      | none => s
    | none => s)

/-- LLC_FILL: a sector comes to its home; the copies held update-only are combined first, and no value changes (R63, R68, R142). -/
def execLlcFill (pa : Nat) (s : State) : Out := .next (if s.lockedSec (sectorOf pa) then s else s.recall (sectorOf pa))

/-- LLC_WRITEBACK: a dirty sector goes to memory, its dirty bit set first (R63, R214). -/
def execLlcWriteback (pa : Nat) (s : State) : Out := .next (if s.writeBackWaits (sectorOf pa) then s else s.writeBackSec (sectorOf pa))

/-- UPDATE_ONLY_RECALL: every copy of a sector is combined at its home, the one of a given core first (R142). -/
def execUpdateOnlyRecall (pa first : Nat) (s : State) : Out :=
  let sec := sectorOf pa
  .next (if s.lockedSec sec then s
    else
      let s1 := if (s.updHolders sec).contains first then s.combineCopy first sec else s
      s1.recall sec)

/-- UPDATE_ONLY_EVICT: one core's copy of a sector is combined at its home (R142). -/
def execUpdateOnlyEvict (core pa : Nat) (s : State) : Out :=
  let sec := sectorOf pa
  .next (if s.lockedSec sec || !(s.core core).holdsUpd sec then s else s.combineCopy core sec)

/-- TLB_MISS_WALK: the TLBs take the translation of an address, where its walk succeeds (R204 to R209). -/
def execTlbMissWalk (core ctx : Nat) (va : Addr) (fetch : Bool) (s : State) : Out := .next (s.lookup core ctx va.toNat fetch).2

/-- SOFT_ERROR_CORRECTED: the grove's count of corrected errors, saturating. The error may lie in a cache under parity, whose entry is dropped: a free choice (R245). -/
def execSoftErrorCorrected (grove : Nat) (s : State) : Out :=
  let (cached, s1) := (s.modGrove grove fun g => { g with corr := if g.corr = 0xFFFFFFFF#32 then g.corr else g.corr + 1 }).freeChoice
  .next (if cached then s1.cacheDrop grove else s1)

end Sys2Proof.Machine
end

