-- ==== Sys2Proof/Machine/Queues.lean ====
section
/-! DEFINITION. Enqueues and packets on their way, dispatch from a stand's queue, and work taken from neighbours (R92 to R101). -/

namespace Sys2Proof.Machine

/-! ### The replay window (R94, R99, R100) -/

/-- A re-entry for a slot in the same stand, which is never refused (R99). -/
def State.reentry (s : State) (t : Task) (stand : Nat) : Bool := t.dispatched && s.standOfSlot t.slot == some stand

/-- The wait before the resend that follows the n-th successive refusal (R100). -/
def State.backoff (s : State) (n : Nat) : Nat :=
  let t := s.boBase.toNat * 2 ^ (if n - 1 < 15 then n - 1 else 15)
  if t < s.boMax.toNat then t else s.boMax.toNat

/-- Count up, saturating at 0xFFFF. -/
def upSat (h : BitVec 16) : BitVec 16 := if h = 0xFFFF#16 then h else h + 1

/-- The window entry that a grove sends next: the first one not yet taken, of the 8 that may be outstanding (R100). -/
def Grove.sends (g : Grove) : Option Enq := (g.window.take 8).find? fun e => !e.acked

/-- The first window entry not yet taken is taken. -/
def ackFirst : List Enq → List Enq
  | [] => []
  | e :: rest => if e.acked then e :: ackFirst rest else { e with acked := true } :: rest

/-- What a grove sends is taken at its destination. -/
def State.taken (s : State) (g : Nat) : State := s.modGrove g fun q => { q with refusals := 0, window := ackFirst q.window }

/-- It is refused: the grove waits before it sends again (R99, R100). -/
def State.nacked (s : State) (g : Nat) : State :=
  let n := (s.grove g).refusals + 1
  s.modGrove g fun q => { q with refusals := n, resendAt := s.tick.toNat + s.backoff n }

/-- The peer link on which a packet leaves for a slot of another module trains: the packet waits (R107, R217). -/
def State.farWaits (s : State) (slot : Nat) : Bool :=
  let grp := (slot - slotCount) / 2 ^ 19
  let link := match s.groups.find grp with
    | some g => if 32 ≤ g.gx0 % 32 + slot % 2 ^ 7 then 4 + Config.routePort grp 0 % 3 else 7 + Config.routePort grp 1 % 3
    | none => 0
  (s.link link).st == .training

/-- A packet reaches its inbox: the lowest free packet slot of its TCM takes the bytes (R53, R126, log 18). A full inbox refuses it. R126 drops what lies in an inbox at the release of its clearing and does not speak of a packet still in a replay window: it is delivered later like any other (DESIGN CHOICE, log 97). One for another module of a spanning clearing leaves over the peer link; what becomes of it there is no state of this module. -/
def State.packetArrive (s : State) (g slot : Nat) (bs : List Byte) : State :=
  if slotCount ≤ slot then (if s.farWaits slot then s else s.taken g)
  else
  let full := (s.slot slot).inbox
  match (List.range 16).find? fun i => !full.contains i with
  | some i =>
    ((s.taken g).tcmWrite (coreOf slot) ((s.core (coreOf slot)).inboxOff (slotNo slot) i) bs).modSlot slot fun q => { q with inbox := q.inbox ++ [i] }
  | none => s.nacked g

/-- A record reaches its stand: it is inserted, or refused (R94, R99). A task that is no longer known sends none. -/
def State.recordArrive (s : State) (g key stand : Nat) : State :=
  match s.tasks.find key with
  | none => s.modGrove g fun gr => gr.unsend fun k => k == key
  | some t =>
    if s.refuses stand t.ctx && !s.reentry t stand then
      (s.nacked g).modStand stand fun q => { q with nacks := upSat q.nacks }
    else (s.taken g).queueAdd stand key

/-- What a grove sends next reaches its destination. -/
def State.arrive (s : State) (g : Nat) : State :=
  match (s.grove g).sends with
  | some ⟨.record key stand, _⟩ => s.recordArrive g key stand
  | some ⟨.packet slot bs, _⟩ => s.packetArrive g slot bs
  | none => s

/-- ENQUEUE_ARRIVE (R94, R99). -/
def execEnqueueArrive (grove : Nat) (s : State) : Out :=
  .next (match (s.grove grove).sends with
    | some ⟨.record key stand, _⟩ => if (s.grove grove).refusals = 0 then s.recordArrive grove key stand else s
    | some ⟨.packet _ _, _⟩ | none => s)

/-- MSG_DELIVER: a packet arrives at its inbox, or is refused (R125, R126). -/
def execMsgDeliver (grove : Nat) (s : State) : Out :=
  .next (match (s.grove grove).sends with
    | some ⟨.packet slot bs, _⟩ => if (s.grove grove).refusals = 0 then s.packetArrive grove slot bs else s
    | some ⟨.record _ _, _⟩ | none => s)

/-- REPLAY_BACKOFF_EXPIRY: what was refused is sent again (R100). -/
def execReplayBackoffExpiry (grove : Nat) (s : State) : Out :=
  let g := s.grove grove
  .next (if g.refusals ≠ 0 && decide (g.resendAt ≤ s.tick.toNat) then s.arrive grove else s)

/-- A slot of a grove whose own enqueues all stand in the window goes on, whatever others have sent behind them (R100, R165). -/
def State.unstall (s : State) (g : Nat) : State :=
  { s with slots := s.slots.map fun (q : Nat × Slot) => (q.1, if groveOf q.1 == g then { q.2 with stall := s.unsent g q.2.stall } else q.2) }

/-- ENQUEUE_ACK: what its destination has taken leaves the window (R100). -/
def execEnqueueAck (grove : Nat) (s : State) : Out :=
  .next ((s.modGrove grove fun g => { g with window := match g.window with
    | e :: rest => if e.acked then rest else e :: rest
    | [] => [] }).unstall grove)

/-! ### Choosing (R97) -/

/-- A slot that can take a task: idle, its grove in the user mesh and not fenced (R97, R247). -/
def State.idleSlot (s : State) (slot : Nat) : Bool :=
  let sl := s.slot slot
  sl.st == .idle && sl.task.isNone && (s.standOfSlot slot).isSome && !(s.grove (groveOf slot)).fenced

/-- A task that a neighbour has offered to a probing slot. -/
def State.offered (s : State) (key : Nat) : Bool :=
  s.slots.any fun q => match q.2.take with
    | some rs => rs.any fun r => r.2 == some key
    | none => false

/-- A slot may run an entry (R97): it can be dispatched, the clearing holds the slot's grove, the pin and the reservation of R56 allow it, and no slot has been offered it. -/
def State.eligible (s : State) (slot : Nat) (e : QEntry) : Bool :=
  let sl := s.slot slot
  s.runnable e &&
  (match s.groups.find e.grp, s.logical (groveOf slot) with
    | some g, some (gx, gy) => g.covers gx gy
    | _, _ => false) &&
  (e.pin.isNone || e.pin == some slot) && (sl.reserved.isNone || sl.reserved == some e.task) && !s.offered e.task

/-- The sectors of memory that a dispatch of a task to a slot reads of its own: the record's, and where a frame stands those of its save areas (R58, R90, R242). -/
def State.dispatchSecs (s : State) (slot : Nat) (t : Task) : List Nat :=
  sectorsOf t.pa (if t.ext then 128 else 64) ++ (match t.frame with
    | some b => s.frameSecs slot b.acc.isSome
    | none => [])

/-- What a dispatch reads can be read now; otherwise it waits: for a lock (R139), and with its spill bytes for a lock or a link (R56, R223). -/
def State.canTake (s : State) (slot key : Nat) : Bool :=
  match s.tasks.find key with
  | some t => (t.spilled == 0 || s.spillReady slot t.ctx (s.homePtr key) t.spilled) && !(s.dispatchSecs slot t).any s.lockedSec
  | none => true

/-- The entry with the least key, the first of equal ones (R96). -/
def leastEntry (l : List QEntry) : Option QEntry :=
  l.foldl (fun acc e => match acc with
    | some b => if e.key < b.key then some e else some b
    | none => some e) none

/-- The context of a list with the least virtual time, ties to the lower id (R97). -/
def leastCtx (vt : PMap (BitVec 32)) (l : List Nat) : Option Nat :=
  l.foldl (fun acc c => match acc with
    | some b =>
      let x := (vt.get c 0).toNat
      let y := (vt.get b 0).toNat
      if x < y || (x == y && decide (c < b)) then some c else some b
    | none => some c) none

/-- What a dispatch adds to its context's virtual time (R97). -/
def vtStep (weight : Nat) : BitVec 32 := BitVec.ofNat 32 (if weight = 0 then 0x10000 else 0x10000 / weight)

/-- The entry that a stand chooses for a slot, and its context (R97). -/
def State.choose (s : State) (slot stand : Nat) : Option QEntry :=
  let st := s.stand stand
  let el := st.queue.filter (s.eligible slot)
  let a := nub (el.map (·.ctx))
  let p := a.filter fun c => (s.ctxOf c).weight != 0
  match leastCtx st.vt (if p.isEmpty then a else p) with
  | some c => leastEntry (el.filter fun e => e.ctx == c)
  | none => none

/-- An entry leaves a stand's queue. -/
def State.unlist (s : State) (stand key : Nat) : State :=
  s.modStand stand fun q => { q with queue := q.queue.filter fun e => e.task != key }

/-- The stands north, east, south and west of a stand (R17, R98). -/
def neighbours (n : Nat) : List Nat :=
  (if n < 8 then [] else [n - 8]) ++ (if n % 8 = 7 then [] else [n + 1]) ++ (if 56 ≤ n then [] else [n + 8]) ++ (if n % 8 = 0 then [] else [n - 1])

/-- A dispatch that has just restored a frame with an open wait has made its transfer: the check of R276 follows at once, since the slot fetches nothing. None where the read below the target waits. -/
def State.landed (s : State) (slot : Nat) : Option State :=
  if (s.slot slot).st != .waiting then some s
  else match { s with cur := slot }.belowIsLead with
    | .ok true s1 => some { s1.takeTrap slot Cause.illegalChain (((s.slot slot).pc - 2).setWidth 64) 0 with cur := s.cur }
    | .ok false s1 => some { s1.modSlot slot fun q => { q with xfer := false } with cur := s.cur }
    | .no _ => none

/-- TASK_DISPATCH: an idle slot gets the entry that its stand chooses; without one it probes its neighbours (R97, R98). -/
def execTaskDispatch (slot : Nat) (s : State) : Out :=
  match s.standOfSlot slot with
  | some n =>
    if !s.idleSlot slot || (s.slot slot).take.isSome then .next s
    else match s.choose slot n with
      | some e =>
        if !s.canTake slot e.task then .next s
        else
          let s1 := s.modStand n fun q => { q with vt := q.vt.put e.ctx (q.vt.get e.ctx 0 + vtStep (s.ctxOf e.ctx).weight.toNat) }
          if s.frameIntact slot e.task then .next ((((s1.unlist n e.task).dispatch slot e.task).landed slot).getD s) else .fault .deviceBlockChanged
      | none => .next (if (s.slot slot).probeAt ≤ s.tick.toNat then s.modSlot slot fun q => { q with take := some [] } else s)
  | none => .next s

/-! ### Taking (R98) -/

/-- What a stand offers to a probing slot: the least key among the unpinned entries that the slot may run. -/
def State.offer (s : State) (slot stand : Nat) : Option QEntry :=
  leastEntry ((s.stand stand).queue.filter fun e => e.pin.isNone && s.eligible slot e)

/-- TAKE_SERVE: a neighbour stand answers a take request (R98). -/
def execTakeServe (slot stand : Nat) (s : State) : Out :=
  let mine := match s.standOfSlot slot with
    | some n => (neighbours n).contains stand
    | none => false
  .next (match (s.slot slot).take with
    | some rs =>
      if mine && !(rs.any fun r => r.1 == stand) then
        s.modSlot slot fun q => { q with take := some (rs ++ [(stand, (s.offer slot stand).map (·.task))]) }
      else s
    | none => s)

/-- The best reply in probe order: the stand and its entry, where that is still queued. -/
def State.bestTake (s : State) (n : Nat) (rs : List (Nat × Option Nat)) : Option (Nat × QEntry) :=
  let ents := (neighbours n).filterMap fun m => match rs.find? fun r => r.1 == m with
    | some (_, some key) => ((s.stand m).queue.find? fun e => e.task == key).map fun e => (m, e)
    | _ => none
  ents.foldl (fun acc q => match acc with
    | some b => if q.2.key < b.2.key then some q else some b
    | none => some q) none

/-- TAKE_REPLY: with every reply in, the slot dispatches the best and the others stay in their queues; with none it probes again after a tick (R98). -/
def execTakeReply (slot : Nat) (s : State) : Out :=
  .next (match (s.slot slot).take, s.standOfSlot slot with
    | some rs, some n =>
      if !((neighbours n).all fun m => rs.any fun r => r.1 == m) then s
      else
        let s1 := s.modSlot slot fun q => { q with take := none, probeAt := s.tick.toNat + 1 }
        match s.bestTake n rs with
        | some (m, e) =>
          if !s.canTake slot e.task then s
          else if s1.idleSlot slot && s1.eligible slot e then
            ((((s1.unlist m e.task).modStand m fun q => { q with taken := upSat q.taken }).dispatch slot e.task).landed slot).getD s
          else s1
        | none => s1
    | _, _ => s)

/-- TAKE_REPROBE: a slot that received nothing probes again, while its own stand has nothing for it (R98). -/
def execTakeReprobe (slot : Nat) (s : State) : Out :=
  .next (match s.standOfSlot slot with
    | some n =>
      if s.idleSlot slot && (s.slot slot).take.isNone && decide ((s.slot slot).probeAt ≤ s.tick.toNat) && (s.choose slot n).isNone then
        s.modSlot slot fun q => { q with take := some [] }
      else s
    | none => s)

end Sys2Proof.Machine
end

