-- ==== Sys2Proof/Machine/Special.lean ====
section
/-! DEFINITION. The special registers: their numbers, what a read gives, what a write does, and the instructions and table rows that read and write them (R315 to R319). -/

namespace Sys2Proof.Machine

/-! ### Reading -/

/-- The group of the task that a slot runs. -/
def State.myGroup (s : State) : Option Group := if s.me.task.isSome then s.groups.find s.me.grp else none

/-- Identity of a core of a group's clearing (R110). -/
structure Ident where
  x : Nat
  y : Nat
  c : Nat
  rank : Nat
  n : Nat
  org : List Nat
  ext : List Nat
  deriving DecidableEq, Repr

/-- The identity of core c of the grove at (x, y) of a clearing (R110). -/
def Group.ident (g : Group) (x y c : Nat) : Ident :=
  let b0 := ceilDiv g.n0 g.w
  let b1 := ceilDiv g.n1 g.h
  let org0 := x * b0
  let ext0 := Nat.min b0 (g.n0 - org0)
  let g1 := y * b1
  let e1 := Nat.min b1 (g.n1 - g1)
  let q := ceilDiv e1 8
  ⟨x, y, c, (y * g.w + x) * 8 + c, g.w * g.h * 8, [org0, g1 + c * q, 0, 0], [ext0, Nat.min q (e1 - c * q), g.n2, g.n3]⟩

/-- The identity that a slot reads; zero for a slot that runs no task (R110). The module of a single-module clearing counts as (0, 0) (R107). -/
def State.ident (s : State) : Ident :=
  match s.myGroup, s.logical (groveOf s.cur) with
  | some g, some (gx, gy) =>
    let mx := if g.peers then s.modX.toNat else 0
    let my := if g.peers then s.modY.toNat else 0
    g.ident (32 * mx + gx - g.gx0) (32 * my + gy - g.gy0) (coreOf s.cur % 8)
  | _, _ => ⟨0, 0, 0, 0, 0, [], []⟩

/-- hl.count, of the hampers as their storage stands (R59, R162). The overflow index holds what the 64-sector filter cannot: it is not empty when the open entries name more than 64 sectors. -/
def State.hlCount (s : State) : Nat :=
  let sl := s.me
  let inner := match sl.inner with
    | some h => (s.readBack s.cur h).entries.length
    | none => 0
  let secs := (nub (((s.openHampers s.cur).flatMap (·.entries)).map fun e => e.ea.toNat / 128)).length
  at_ sl.stack.length 44 + at_ sl.hampers.length 39 + at_ (flag (decide (64 < secs))) 38 + inner

/-- rq.stat of the slot's own stand; zero where the grove belongs to none (R101). occ is at most 1,024: it saturates where re-entries, which are never refused (R99), have made the queue longer (DESIGN CHOICE, log 112). -/
def State.rqStat (s : State) : Nat :=
  match s.standOfSlot s.cur with
  | some n => let st := s.stand n; at_ st.nacks.toNat 32 + at_ st.taken.toNat 16 + Nat.min st.queue.length 1024
  | none => 0

/-- A bit per channel of a group. -/
def chanBits (f : Chan → Bool) (cs : List Chan) : Nat :=
  ((List.range cs.length).map fun i => match cs[i]? with
    | some c => at_ (flag (f c)) i
    | none => 0).sum

/-- gb.stat of the slot's grove, for its clearing (R318, R319). -/
def State.gbStat (s : State) : Nat :=
  match s.myGroup with
  | some g => at_ (chanBits (·.broken) g.chans) 8 + chanBits (fun c => c.overrun && !c.cleared.contains (groveOf s.cur)) g.chans
  | none => 0

/-- cap.org (R22). -/
def State.capOrg (s : State) : Nat :=
  at_ s.fwcol.toNat 40 + at_ s.fwwidth.toNat 38 + at_ s.remaps.length 32 + at_ 128 24 + at_ 4 20 + at_ 8 16 + at_ 32 8 + 32

/-- tcm.carve (R57). -/
def Core.carveWord (c : Core) : Nat :=
  at_ c.ovflim.toNat 32 + at_ c.utop.toNat 24 + at_ c.hamper.toNat 16 + at_ c.spill.toNat 8 + c.frame.toNat

/-- The limit that the clamp enforces (R255). -/
def State.enforced (s : State) : Nat := Nat.min s.pwTable.toNat s.pwLim.toNat

/-- The value of the register with a number; none where the number names no register (R318). -/
def State.srValue (s : State) (n : Nat) : Option Nat :=
  let sl := s.me
  let c := s.myCore
  let g := s.myGrove
  let id := s.ident
  match n with
  | 0x00 => some sl.vl.toNat
  | 0x01 => some sl.vshape.toNat
  | 0x02 => some sl.fpCtl.toNat
  | 0x03 => some sl.rng.toNat
  | 0x04 => some (at_ sl.prDepth.toNat 16 + sl.prVals.toNat % 2 ^ sl.prDepth.toNat)
  | 0x05 => some sl.faultCause.toNat
  | 0x06 => some sl.faultAddr.toNat
  | 0x07 => some sl.faultPc.toNat
  | 0x08 => some s.hlCount
  | 0x09 => some sl.wtHold.toNat
  | 0x0A => some (at_ sl.memWindow.toNat 8 + flag sl.memMix)
  | 0x0B => some (at_ sl.futLife.toNat 16 + at_ sl.futRefused.toNat 8 + sl.futStatus.toNat)
  | 0x0C => some s.tick.toNat
  | 0x10 => some id.x
  | 0x11 => some id.y
  | 0x12 => some id.c
  | 0x13 => some id.rank
  | 0x14 => some id.n
  | 0x18 => some (id.org.getD 0 0)
  | 0x19 => some (id.org.getD 1 0)
  | 0x1A => some (id.org.getD 2 0)
  | 0x1B => some (id.org.getD 3 0)
  | 0x1C => some (id.ext.getD 0 0)
  | 0x1D => some (id.ext.getD 1 0)
  | 0x1E => some (id.ext.getD 2 0)
  | 0x1F => some (id.ext.getD 3 0)
  | 0x20 => some c.carveWord
  | 0x21 => some (at_ (flag c.skewEn) 32 + at_ c.skewBase.toNat 20 + at_ c.skewRows.toNat 8)
  | 0x22 => some (at_ (flag c.ltEn) 63 + c.ltOff.toNat)
  | 0x23 => some (at_ c.ovfBase.toNat 13)
  | 0x24 => some (at_ c.accSv.toNat 16)
  | 0x30 => some s.capOrg
  | 0x31 => some s.wake.toNat
  | 0x32 => some s.rqStat
  | 0x33 => some s.gbStat
  | 0x34 => some (at_ g.corr.toNat 32 + at_ g.uncorr.toNat 16 + flag g.fenced)
  | 0x35 => some (at_ g.wdRun.toNat 32 + at_ g.wdHang.toNat 16)
  | 0x36 => some (at_ g.trRegion.toNat 32 + at_ (flag g.trFilt) 31 + at_ g.trHead.toNat 16 + flag g.trEn)
  | 0x80 => some (at_ s.ctxBase.toNat 14)
  | 0x81 => some c.ctxCmd.toNat
  | 0x82 => some c.grpLaunch.toNat
  | 0x83 => some c.slCmd.toNat
  | 0x84 => some (at_ s.modY.toNat 3 + s.modX.toNat)
  | 0x85 => some (at_ s.boMax.toNat 16 + s.boBase.toNat)
  | 0x86 => some (at_ s.hlPool.toNat 12)
  | 0x87 => some s.rtCfg.toNat
  | 0x88 => some (at_ s.pgDirty.toNat 23)
  | 0x89 => some (at_ s.gqBase.toNat 11)
  | 0x8A => some (at_ (flag s.gsLock) 63 + at_ s.gsBound.toNat 8)
  | 0x8B => some (at_ s.trRing.toNat 15)
  | 0x8C => some (at_ s.trHead.toNat 16 + s.trTail.toNat)
  | 0x8D => some s.lkCtl.toNat
  | 0x8E => some (if s.isFw s.cur then at_ (flag g.wallLock) 63 + at_ g.wallBits.toNat 4 else 0)
  | 0x8F => some s.pwLim.toNat
  | 0x90 => some (at_ s.pwAvg.toNat 32 + at_ s.pwStep.toNat 28 + s.enforced)
  | 0x91 => some s.gqCtl.toNat
  | n =>
    if 0xA0 ≤ n ∧ n ≤ 0xAF then some (s.recipes.get (n - 0xA0) 0).toNat
    else if 0xB0 ≤ n ∧ n ≤ 0xBD then some (s.link (n - 0xB0)).report
    else if 0xC0 ≤ n ∧ n ≤ 0xCF then
      some (if n % 2 = 0 then s.hwBase.get ((n - 0xC0) / 2) 0 else s.hwLimit.get ((n - 0xC0) / 2) 0).toNat
    else none

/-- rdsr (R315). -/
def execRdsr (d : Reg) (num : BitVec 34) (s : State) : Out :=
  guarded s (match s.srValue num.toNat with
    | some v => .next (s.setX d (BitVec.ofNat 64 v))
    | none => .trap s Cause.illegal (num.setWidth 64) 0)

/-! ### Writing: one function per register, by the access code of each field (R6) -/

/-- fp.ctl: 5 to 7 leave rm unchanged (R43). -/
def wrFpCtl (v : Word) (s : State) : Eff :=
  .next (s.modMe fun q => { q with
    fpCtl := BitVec.ofNat 64 (at_ (bits v.toNat 13 8) 8 + (if bits v.toNat 2 0 ≤ 4 then bits v.toNat 2 0 else bits q.fpCtl.toNat 2 0)) })

/-- rng.state: a zero is stored as 1 (R42). -/
def wrRng (v : Word) (s : State) : Eff :=
  .next (s.modMe fun q => { q with rng := if v.setWidth 32 = 0#32 then 1 else v.setWidth 32 })

/-- pr.stk: a depth above 16 is ignored whole (R300). -/
def wrPrStk (v : Word) (s : State) : Eff :=
  let d := bits v.toNat 20 16
  .next (if 16 < d then s
    else s.modMe fun q => { q with prDepth := BitVec.ofNat 5 d, prVals := BitVec.ofNat 16 (v.toNat % 2 ^ d) })

/-- wt.ctl (R123). -/
def wrWtCtl (v : Word) (s : State) : Eff := .next (s.modMe fun q => { q with wtHold := v.setWidth 8 })

/-- mem.dbg: a window of 0 stores 1 (R138). -/
def wrMemDbg (v : Word) (s : State) : Eff :=
  let w : BitVec 16 := v.extractLsb' 8 16
  .next (s.modMe fun q => { q with memWindow := if w = 0 then 1 else w, memMix := v.getLsbD 0 })

/-- fut.ctl: life is written; a 1 in any bit of refused clears it (R144). -/
def wrFutCtl (v : Word) (s : State) : Eff :=
  .next (s.modMe fun q => { q with
    futLife := v.extractLsb' 16 32, futRefused := if bits v.toNat 15 8 = 0 then q.futRefused else 0 })

/-- skew.cfg: a region that would end beyond 1 MiB stores en = 0 (R61). -/
def wrSkewCfg (v : Word) (s : State) : Eff :=
  let base := bits v.toNat 31 20
  let rows := bits v.toNat 19 8
  .next (s.modMyCore fun c => { c with
    skewEn := v.getLsbD 32 && decide (base * 256 + (rows + 1) * 256 ≤ 0x100000)
    skewBase := BitVec.ofNat 12 base, skewRows := BitVec.ofNat 12 rows })

/-- lt.off (R202). -/
def wrLtOff (v : Word) (s : State) : Eff :=
  .next (s.modMyCore fun c => { c with ltEn := v.getLsbD 63, ltOff := v.setWidth 48 })

/-- ovf.ptr (R58). -/
def wrOvfPtr (v : Word) (s : State) : Eff := .next (s.modMyCore fun c => { c with ovfBase := v.extractLsb' 13 39 })

/-- acc.sv (R242). -/
def wrAccSv (v : Word) (s : State) : Eff := .next (s.modMyCore fun c => { c with accSv := v.extractLsb' 16 36 })

/-- gb.stat: a 1 clears the overrun bit of a channel of the slot's clearing, in the copy of the slot's grove (R318, R319). -/
def wrGbStat (v : Word) (s : State) : Eff :=
  .next (if s.me.task.isSome then
    s.modGroup s.me.grp fun g => { g with
      chans := (List.range g.chans.length).filterMap fun i => (g.chans[i]?).map fun c =>
        if v.getLsbD i then { c with cleared := nub (c.cleared ++ [groveOf s.cur]) } else c }
  else s)

/-- err.stat: a 1 in any bit of a count clears it (R245). -/
def wrErrStat (v : Word) (s : State) : Eff :=
  .next (s.modMyGrove fun g => { g with
    corr := if bits v.toNat 63 32 = 0 then g.corr else 0
    uncorr := if bits v.toNat 31 16 = 0 then g.uncorr else 0 })

/-- wd.ctl: a hang of 0 stores 1, and the ping period starts again (R246, log 81). -/
def wrWdCtl (v : Word) (s : State) : Eff :=
  let h : BitVec 16 := v.extractLsb' 16 16
  let hang := if h = 0 then 1 else h
  .next (s.modMyGrove fun g => { g with wdRun := v.extractLsb' 32 32, wdHang := hang, pingAt := s.tick.toNat + hang.toNat })

/-- trace.ctl: head is read-only (R152). -/
def wrTraceCtl (v : Word) (s : State) : Eff :=
  .next (s.modMyGrove fun g => { g with trRegion := v.extractLsb' 32 31, trFilt := v.getLsbD 31, trEn := v.getLsbD 0 })

/-- ctx.base (R319). -/
def wrCtxBase (v : Word) (s : State) : Eff := .next { s with ctxBase := v.extractLsb' 14 38 }

/-- mod.pos (R107). -/
def wrModPos (v : Word) (s : State) : Eff := .next { s with modX := v.setWidth 2, modY := v.extractLsb' 3 2 }

/-- rq.backoff: a zero field stores 1 (R100). -/
def wrRqBackoff (v : Word) (s : State) : Eff :=
  let m : BitVec 16 := v.extractLsb' 16 16
  let b : BitVec 16 := v.setWidth 16
  .next { s with boMax := if m = 0 then 1 else m, boBase := if b = 0 then 1 else b }

/-- hl.pool (R160). -/
def wrHlPool (v : Word) (s : State) : Eff := .next { s with hlPool := v.extractLsb' 12 40 }

/-- rt.cfg: k of 25 to 31 is ignored whole (R195). -/
def wrRtCfg (v : Word) (s : State) : Eff :=
  let k := bits v.toNat 4 0
  .next (if 25 ≤ k then s else { s with rtCfg := BitVec.ofNat 64 (at_ (bits v.toNat 51 12) 12 + k) })

/-- pg.dirty (R214). -/
def wrPgDirty (v : Word) (s : State) : Eff := .next { s with pgDirty := v.extractLsb' 23 29 }

/-- gq.base (R227). -/
def wrGqBase (v : Word) (s : State) : Eff := .next { s with gqBase := v.extractLsb' 11 41 }

/-- gs.ctl: 0 stores 1, above 200 stores 200; nothing once locked (R233). -/
def wrGsCtl (v : Word) (s : State) : Eff :=
  let b := bits v.toNat 15 8
  .next (if s.gsLock then s
    else { s with gsLock := v.getLsbD 63, gsBound := if b = 0 then 1 else if 200 < b then 200 else BitVec.ofNat 8 b })

/-- tr.ring (R238): the sources that wait for a base go on at the next event. -/
def wrTrRing (v : Word) (s : State) : Eff := .next { s with trRing := v.extractLsb' 15 37 }

/-- tr.ptr: only tail is written (R238). -/
def wrTrPtr (v : Word) (s : State) : Eff := .next { s with trTail := v.setWidth 10 }

/-- fw.wall of the core's firmware grove: nothing once locked, and nothing on a user core (R253, R318). -/
def wrFwWall (v : Word) (s : State) : Eff :=
  .next (if s.isFw s.cur then
    s.modMyGrove fun g => if g.wallLock then g else { g with wallLock := v.getLsbD 63, wallBits := v.extractLsb' 4 4 }
  else s)

/-- pw.lim (R255). -/
def wrPwLim (v : Word) (s : State) : Eff :=
  let n := v.toNat % 2 ^ 16
  let g := s.myGrove
  if n ≤ s.pwTable.toNat then .next { s with pwLim := BitVec.ofNat 16 n }
  else if g.wallLock && !g.wallBits.getLsbD 1 then .trap s Cause.privilege 0x8F 0
  else .next { s with pwLim := BitVec.ofNat 16 (if 2400 < n then 2400 else n) }

/-- A term of a recipe that may be stored: no reserved bit, and no reserved source under a weight (R95). -/
def termOk (t : Nat) : Bool := bits t 3 0 == 0 && (bits t 15 8 == 0 || decide (bits t 7 4 ≤ 8))

/-- rq.recipe: ignored whole where a term may not be stored (R95). -/
def wrRecipe (n : Nat) (v : Word) (s : State) : Eff :=
  .next (if (List.range 4).all fun i => termOk (bits v.toNat (16 * i + 15) (16 * i)) then { s with recipes := s.recipes.put n v } else s)

/-- A host window's register: bits 11 to 0 are cleared (R254). -/
def wrHwWin (n : Nat) (limit : Bool) (v : Word) (s : State) : Eff :=
  let w := BitVec.ofNat 64 (v.toNat / 4096 * 4096)
  .next (if limit then { s with hwLimit := s.hwLimit.put n w } else { s with hwBase := s.hwBase.put n w })

/-! ### The command registers (R73, R104, R219, R228, R240, R317) -/

/-- ctx.cmd. -/
def wrCtxCmd (v : Word) (s : State) : Eff :=
  if s.myCore.ctxCmd.getLsbD 31 then .next s
  else s.release fun s1 =>
    let w := BitVec.ofNat 64 (at_ 1 31 + at_ (bits v.toNat 21 16) 16 + bits v.toNat 3 0)
    .next { s1.modMyCore fun c => { c with ctxCmd := w } with ctxQ := s1.ctxQ ++ [⟨coreOf s1.cur, w⟩] }

/-- grp.launch. -/
def wrGrpLaunch (v : Word) (s : State) : Eff :=
  if s.myCore.grpLaunch.getLsbD 63 then .next s
  else s.release fun s1 =>
    let w := BitVec.ofNat 64 (at_ 1 63 + at_ (bits v.toNat 47 7) 7 + bits v.toNat 5 0)
    .next { s1.modMyCore fun c => { c with grpLaunch := w } with grpQ := s1.grpQ ++ [⟨coreOf s1.cur, w⟩] }

/-- sl.cmd. -/
def wrSlCmd (v : Word) (s : State) : Eff :=
  if s.myCore.slCmd.getLsbD 63 then .next s
  else s.release fun s1 =>
    let w := BitVec.ofNat 64 (at_ 1 63 + at_ (bits v.toNat 47 6) 6 + bits v.toNat 2 0)
    .next { s1.modMyCore fun c => { c with slCmd := w } with slQ := s1.slQ ++ [⟨coreOf s1.cur, w⟩] }

/-- lk.ctl: links 14 and 15 and unlisted operations are ignored (R219). -/
def wrLkCtl (v : Word) (s : State) : Eff :=
  s.release fun s1 =>
    let link := bits v.toNat 11 8
    let op := bits v.toNat 2 0
    let w := BitVec.ofNat 64 (at_ link 8 + op)
    let s2 := { s1 with lkCtl := w }
    .next (if 14 ≤ link || op = 0 || 4 < op then s2 else { s2 with lkQ := s2.lkQ ++ [⟨coreOf s1.cur, w⟩] })

/-- gq.ctl. -/
def wrGqCtl (v : Word) (s : State) : Eff :=
  if s.gqCtl.getLsbD 63 then .next s
  else s.release fun s1 =>
    let w := BitVec.ofNat 64 (at_ 1 63 + at_ (bits v.toNat 12 8) 8 + bits v.toNat 2 0)
    .next { s1 with gqCtl := w, gqQ := s1.gqQ ++ [⟨coreOf s1.cur, w⟩] }

/-! ### wrsr (R315) -/

/-- Registers that only firmware-column cores write (R318). -/
def srFw (n : Nat) : Bool :=
  n == 0x23 || n == 0x24 || n == 0x35 || n == 0x36 || (decide (0x80 ≤ n) && decide (n ≤ 0x8D)) || n == 0x8F || n == 0x91 ||
  (decide (0xA0 ≤ n) && decide (n ≤ 0xAF)) || (decide (0xC0 ≤ n) && decide (n ≤ 0xCF))

/-- A permit bit of a locked wall forbids the write (R253). The limit of pw.lim is checked with its value. -/
def State.walled (s : State) (n : Nat) : Bool :=
  let g := s.myGrove
  g.wallLock && ((decide (0xC0 ≤ n) && decide (n ≤ 0xCF) && !g.wallBits.getLsbD 3) || (n == 0x89 && !g.wallBits.getLsbD 2))

/-- The command registers (R315). -/
def srCommand (n : Nat) : Bool := n == 0x81 || n == 0x82 || n == 0x83 || n == 0x8D || n == 0x91

/-- The checks of a wrsr to a register that exists, then its write (R315). -/
def wrChecked (n : Nat) (write : Word → State → Eff) (v : Word) (s : State) : Eff :=
  let num := BitVec.ofNat 64 n
  if srFw n && !s.isFw s.cur then .trap s Cause.privilege num 0
  else if s.walled n then .trap s Cause.privilege num 0
  else if srCommand n && (s.me.collecting || s.me.classCT) then .trap s Cause.collectForbidden num 0
  else write v s

/-- The write of a register by its number; a read-only register ignores it (R6, R318). -/
def srWrite (n : Nat) : Word → State → Eff :=
  match n with
  | 0x02 => wrFpCtl
  | 0x03 => wrRng
  | 0x04 => wrPrStk
  | 0x09 => wrWtCtl
  | 0x0A => wrMemDbg
  | 0x0B => wrFutCtl
  | 0x21 => wrSkewCfg
  | 0x22 => wrLtOff
  | 0x23 => wrOvfPtr
  | 0x24 => wrAccSv
  | 0x33 => wrGbStat
  | 0x34 => wrErrStat
  | 0x35 => wrWdCtl
  | 0x36 => wrTraceCtl
  | 0x80 => wrCtxBase
  | 0x81 => wrCtxCmd
  | 0x82 => wrGrpLaunch
  | 0x83 => wrSlCmd
  | 0x84 => wrModPos
  | 0x85 => wrRqBackoff
  | 0x86 => wrHlPool
  | 0x87 => wrRtCfg
  | 0x88 => wrPgDirty
  | 0x89 => wrGqBase
  | 0x8A => wrGsCtl
  | 0x8B => wrTrRing
  | 0x8C => wrTrPtr
  | 0x8D => wrLkCtl
  | 0x8E => wrFwWall
  | 0x8F => wrPwLim
  | 0x91 => wrGqCtl
  | n =>
    if 0xA0 ≤ n ∧ n ≤ 0xAF then wrRecipe (n - 0xA0)
    else if 0xC0 ≤ n ∧ n ≤ 0xCF then wrHwWin ((n - 0xC0) / 2) (n % 2 == 1)
    else fun _ s => .next s

/-- wrsr (R315). -/
def execWrsr (r : Reg) (num : BitVec 34) (s : State) : Out :=
  guarded s (match s.srValue num.toNat with
    | some _ => wrChecked num.toNat (srWrite num.toNat) (s.x r) s
    | none => .trap s Cause.illegal (num.setWidth 64) 0)

/-! ### The rows of one register's write: the wrsr of that register with a value already read -/

/-- RNG_STATE_WRITE (R42). -/
def execRngStateWrite (v : Word) (s : State) : Out := guarded s (wrChecked 0x03 wrRng v s)

/-- FP_CTL_WRITE (R43). -/
def execFpCtlWrite (v : Word) (s : State) : Out := guarded s (wrChecked 0x02 wrFpCtl v s)

/-- PR_STK_WRITE (R300). -/
def execPrStkWrite (v : Word) (s : State) : Out := guarded s (wrChecked 0x04 wrPrStk v s)

/-- SKEW_CFG_WRITE (R61). -/
def execSkewCfgWrite (v : Word) (s : State) : Out := guarded s (wrChecked 0x21 wrSkewCfg v s)

/-- RQ_RECIPE_WRITE (R95). -/
def execRqRecipeWrite (n : BitVec 4) (v : Word) (s : State) : Out := guarded s (wrChecked (0xA0 + n.toNat) (wrRecipe n.toNat) v s)

/-- RQ_BACKOFF_WRITE (R100). -/
def execRqBackoffWrite (v : Word) (s : State) : Out := guarded s (wrChecked 0x85 wrRqBackoff v s)

/-- MEM_DBG_WRITE (R138). -/
def execMemDbgWrite (v : Word) (s : State) : Out := guarded s (wrChecked 0x0A wrMemDbg v s)

/-- FUT_CTL_CLEAR (R144). -/
def execFutCtlClear (v : Word) (s : State) : Out := guarded s (wrChecked 0x0B wrFutCtl v s)

/-- ERR_STAT_CLEAR (R245). -/
def execErrStatClear (v : Word) (s : State) : Out := guarded s (wrChecked 0x34 wrErrStat v s)

/-- GB_STAT_CLEAR (R319). -/
def execGbStatClear (v : Word) (s : State) : Out := guarded s (wrChecked 0x33 wrGbStat v s)

/-- WD_CTL_WRITE (R246). -/
def execWdCtlWrite (v : Word) (s : State) : Out := guarded s (wrChecked 0x35 wrWdCtl v s)

/-- GS_CTL_WRITE (R233). -/
def execGsCtlWrite (v : Word) (s : State) : Out := guarded s (wrChecked 0x8A wrGsCtl v s)

/-- PW_LIM_WRITE (R255). -/
def execPwLimWrite (v : Word) (s : State) : Out := guarded s (wrChecked 0x8F wrPwLim v s)

/-- RT_CFG_WRITE (R195). -/
def execRtCfgWrite (v : Word) (s : State) : Out := guarded s (wrChecked 0x87 wrRtCfg v s)

/-- FW_WALL_WRITE (R253). -/
def execFwWallWrite (v : Word) (s : State) : Out := guarded s (wrChecked 0x8E wrFwWall v s)

/-- TR_RING_WRITE (R238). -/
def execTrRingWrite (v : Word) (s : State) : Out := guarded s (wrChecked 0x8B wrTrRing v s)

/-- HW_WIN_WRITE by a firmware core (R254); the host's own write is a write of BAR0 (R221). -/
def execHwWinWrite (n : BitVec 3) (limit : Bool) (v : Word) (s : State) : Out :=
  guarded s (wrChecked (0xC0 + 2 * n.toNat + flag limit) (wrHwWin n.toNat limit) v s)

end Sys2Proof.Machine
end

