-- ==== Sys2Proof/Machine/Digest.lean ====
section
/-! DEFINITION. SHAKE256 with 256 bits of output, the digest that boot and the reports use (R249, R250, R256; the function is that of FIPS 202: PRESUMED, log 83). -/

namespace Sys2Proof.Machine

/-- The 25 lanes of the sponge, lane x + 5y at place x + 5y. -/
abbrev Lanes := List Word

/-- A lane. -/
def laneAt (a : Lanes) (x y : Nat) : Word := (a[x % 5 + 5 * (y % 5)]?).getD 0

/-- Lanes from a function of their coordinates. -/
def lanesOf (f : Nat → Nat → Word) : Lanes := (List.range 25).map fun i => f (i % 5) (i / 5)

/-- The lanes other than lane 0 in the order of the walk that FIPS 202 takes over them: from (1, 0), (x, y) goes to (y, 2x + 3y). -/
def laneWalk : Nat → Nat → Nat → List (Nat × Nat)
  | 0, _, _ => []
  | n + 1, x, y => (x, y) :: laneWalk n y ((2 * x + 3 * y) % 5)

/-- How far a lane turns: the lane met at position t of the walk by the triangular number (t + 1)(t + 2) / 2, lane 0 not at all. -/
def laneTurn (x y : Nat) : Nat :=
  let t := (laneWalk 24 1 0).idxOf (x, y)
  if t < 24 then (t + 1) * (t + 2) / 2 % 64 else 0

/-- One step of the shift register of FIPS 202: the polynomial x^8 + x^6 + x^5 + x^4 + 1. -/
def constantShift (r : Nat) : Nat := if r < 128 then 2 * r else (2 * r - 256) ^^^ 0x71

/-- The constant of one round, from the register r before it: at each of the bits 0, 1, 3, 7, 15, 31 and 63 stands the register's low bit, and the register shifts once a bit. It gives the register after it too. -/
def roundConstant (r : Nat) : List Nat → Nat × Nat
  | [] => (0, r)
  | j :: js =>
      let (c, r') := roundConstant (constantShift r) js
      (c + r % 2 * 2 ^ j, r')

/-- Each lane gives up to its column the parity of the column before and of the turned column after. -/
def mixColumns (a : Lanes) : Lanes :=
  let parity := fun (x : Nat) => ((List.range 5).map (laneAt a x)).foldl (· ^^^ ·) 0
  lanesOf fun x y => laneAt a x y ^^^ parity (x + 4) ^^^ (parity (x + 1)).rotateLeft 1

/-- Each lane turns and goes from (x, y) to (y, 2x + 3y). -/
def turnLanes (a : Lanes) : Lanes :=
  lanesOf fun x y =>
    let src := (x + 3 * y) % 5
    (laneAt a src x).rotateLeft (laneTurn src x)

/-- Along its row each lane takes the next but one where the next is zero. -/
def crossRows (a : Lanes) : Lanes :=
  lanesOf fun x y => laneAt a x y ^^^ (laneAt a (x + 2) y &&& ~~~ (laneAt a (x + 1) y))

/-- n rounds of the permutation, with the register of the constants. -/
def spongeRounds : Nat → Nat → Lanes → Lanes
  | 0, _, a => a
  | n + 1, r, a =>
      let (c, r') := roundConstant r [0, 1, 3, 7, 15, 31, 63]
      let mixed := crossRows (turnLanes (mixColumns a))
      spongeRounds n r' (lanesOf fun x y => if x + y = 0 then laneAt mixed 0 0 ^^^ BitVec.ofNat 64 c else laneAt mixed x y)

/-- The permutation of 24 rounds. -/
def keccak (a : Lanes) : Lanes := spongeRounds 24 1 a

/-- A block of 136 bytes enters the lanes. -/
def absorbBlock (a : Lanes) (b : List Byte) : Lanes :=
  keccak (lanesOf fun x y => laneAt a x y ^^^ BitVec.ofNat 64 (field b (8 * (x + 5 * y)) 8))

/-- Blocks enter in order: fuel is their number. -/
def absorb (bs : List Byte) : Nat → Lanes → Lanes
  | 0, a => a
  | n + 1, a => absorb (bs.drop 136) n (absorbBlock a (bs.take 136))

/-- A message with the padding of SHAKE to whole blocks. -/
def shakePad (bs : List Byte) : List Byte :=
  let q := 136 - bs.length % 136
  bs ++ (if q = 1 then [0x9F] else [0x1F] ++ zeros (q - 2) ++ [0x80])

/-- The digest, 32 bytes. -/
def shake256 (bs : List Byte) : List Byte :=
  let m := shakePad bs
  (((absorb m (m.length / 136) (List.replicate 25 0)).take 4).map fun w => bytesOf 8 w.toNat).flatten

end Sys2Proof.Machine
end

