-- ==== Sys2Proof/Machine/Startup.lean ====
section
/-! DEFINITION. Cold reset and boot, the remap of a failed grove, and the power clamp (R14, R16, R249 to R251, R253 to R256). -/

namespace Sys2Proof.Machine

/-! ### The configuration table (R250) -/

/-- A field of the table in the boot flash. -/
def State.tbl (s : State) (off n : Nat) : Nat := natOf (memRead s.flash off n)

/-- The conditions of R14: the columns exist, the width is 1 or 2, and S is apart, or beside F at width 2. -/
def columnsOk (f w sp : Nat) : Bool :=
  (w == 1 || w == 2) && decide (f + w ≤ 34) && decide (sp < 34) && sp != f && (w == 1 || sp == f + 1)

/-- A host window of the table: 4 KiB multiples, base at most limit. -/
def State.windowFine (s : State) (n : Nat) : Bool :=
  let b := s.tbl (32 + 16 * n) 8
  let l := s.tbl (40 + 16 * n) 8
  b % 4096 == 0 && l % 4096 == 0 && decide (b ≤ l)

/-- The role codes of the firmware groves, row by row. -/
def State.roleList (s : State) (w : Nat) : List (BitVec 2) :=
  (List.range (32 * w)).map fun i => BitVec.ofNat 2 (bits (s.tbl (160 + i / 4) 1) (2 * (i % 4) + 1) (2 * (i % 4)))

/-- The checks of the table's fields against R14 and R250. -/
def State.tableOk (s : State) : Bool :=
  let w := s.tbl 7 1
  s.tbl 0 4 == 0x4A434654 && s.tbl 4 2 == 1 && columnsOk (s.tbl 6 1) w (s.tbl 8 1) && s.tbl 9 7 == 0 &&
  decide (600 ≤ s.tbl 16 2) && decide (s.tbl 16 2 ≤ 2400) && decide (1 ≤ s.tbl 18 1) && decide (s.tbl 18 1 ≤ 200) &&
  s.tbl 19 1 % 16 == 0 && s.tbl 20 12 == 0 && (List.range 8).all s.windowFine && (s.roleList w).contains 0 &&
  s.tbl 192 8 % 4096 == 0 && decide (s.tbl 200 8 ≤ 65536 * 8 * 32 * w) && s.tbl 240 16 == 0

/-! ### Boot (R249) -/

/-- A step fails: the compute dies stay in reset, and the status word names the step. -/
def State.bootFail (s : State) (n : Nat) : State := { s with boot := .failed n, bootWord := BitVec.ofNat 64 n }

/-- Step 4: the columns, the bounds, the windows and the power limit, and every lock. -/
def State.bootRegisters (s : State) : State :=
  let w := s.tbl 7 1
  let f := s.tbl 6 1
  let lim := BitVec.ofNat 16 (s.tbl 16 2)
  let wall := BitVec.ofNat 4 (s.tbl 19 1 / 16)
  let s1 := { s with
    fwcol := BitVec.ofNat 8 f, fwwidth := BitVec.ofNat 2 w, spare := s.tbl 8 1
    gsBound := BitVec.ofNat 8 (s.tbl 18 1), gsLock := true, pwTable := lim, pwLim := lim
    roles := s.roleList w
    hwBase := (List.range 8).map fun n => (n, BitVec.ofNat 64 (s.tbl (32 + 16 * n) 8))
    hwLimit := (List.range 8).map fun n => (n, BitVec.ofNat 64 (s.tbl (40 + 16 * n) 8)) }
  ((List.range 32).flatMap fun py => (List.range w).map fun i => gridIndex (f + i) py).foldl
    (fun st g => st.modGrove g fun q => { q with wallLock := true, wallBits := wall }) s1

/-- The locked registers, as a report's digest takes them: gs.ctl and fw.wall. -/
def State.lockedValues (s : State) : List Word :=
  [BitVec.ofNat 64 (at_ (flag s.gsLock) 63 + at_ s.gsBound.toNat 8), BitVec.ofNat 64 (at_ 1 63 + s.tbl 19 1)]

/-- Step 5: the measurements of R256, bytes 32 to 159 of a report. -/
def State.bootMeasure (s : State) : State :=
  let table := fit 32 (shake256 (memRead s.flash 0 256))
  { s with measures := fit 32 Config.romDigest ++ table ++ memRead s.flash 208 32 ++ fit 32 (Config.registerDigest s.lockedValues) }

/-- The pager's core, core 1 of the firmware grove with role 1 in physical row 0, has a user area of 1 KiB: R421 gives its utop as 4, and no rule says what writes it (DEDUCED, log 107). -/
def State.pagerCarve (s : State) : State :=
  match (List.range s.fwwidth.toNat).find? fun i => s.roles[i]? == some 1 with
  | some i => s.modCore (gridIndex (s.fwcol.toNat + i) 0 * 8 + 1) fun c => { c with utop := 4 }
  | none => s

/-- Step 6: every slot of every firmware core starts at physical address 0 (R427, log 7). -/
def State.bootRelease (s : State) : State :=
  let groves := (List.range 32).flatMap fun py => (List.range s.fwwidth.toNat).map fun i => gridIndex (s.fwcol.toNat + i) py
  let s1 := (groves.flatMap fun g => span (g * 32) 32).foldl (fun st k => st.modSlot k fun q => { q with st := .run, pc := 0 }) s
  { s1.pagerCarve with boot := .up, bootWord := 0xFF, cur := s1.fwcol.toNat * 32 }

/-- The steps of the boot ROM, in order. -/
def State.bootRun (s : State) : State :=
  if !Config.signatureHolds (memRead s.flash 0 3565) || !s.tableOk then s.bootFail 2
  else
    let image := memRead s.flash (s.tbl 192 8) (s.tbl 200 8)
    let s1 := { s with mem := memWrite s.mem 0 image }
    if fit 32 (shake256 image) ≠ memRead s.flash 208 32 then s1.bootFail 3
    else s1.bootRegisters.bootMeasure.bootRelease

/-- Host memory as it stands beneath what the home slices hold dirty of it, which a cold reset loses (R63). -/
def State.hostBeneath (s : State) : Mem :=
  (s.dirty.filter fun q => !isDevice (q.1 * 128)).foldl (fun m q => memWrite m (q.1 * 128 - hostBase) q.2.bytes) s.hostMem

/-- The module as a cold reset finds it: the boot flash and the host's memory stay, and so do the model's own fields. -/
def State.coldStart (s : State) : State :=
  match s.boot with
  | .held => s
  | .failed _ | .up => { State.reset with flash := s.flash, hostMem := s.hostBeneath, agenda := s.agenda, fresh := s.fresh }

/-- COLD_RESET (R249). -/
def execColdReset (s : State) : Out := .next s.coldStart.bootRun

/-! ### Remap (R16) -/

/-- A logical grove belongs to a claimed clearing. -/
def State.claimed (s : State) (gx gy : Nat) : Bool := s.groups.any fun q => q.2.holds && q.2.covers gx gy

/-- SPARE_COLUMN_REMAP: a fenced user grove outside every clearing, in a row whose spare is free (R16). -/
def execSpareColumnRemap (row col : Nat) (s : State) : Out :=
  .next (
    if s.fwwidth == 1 && decide (row < 32) && decide (col < 32) && (s.remapOf row).isNone && (s.grove (s.physGrove col row)).fenced &&
        !s.claimed col row && !(s.grove (gridIndex s.spare row)).fenced then
      { s with remaps := PMap.put s.remaps row col }
    else s)

/-! ### The clamp (R255) -/

/-- The power samples of the last 10,000 ticks. -/
def State.sample (s : State) (watts : Nat) : State :=
  let l := (watts :: s.pwLog).take 10000
  { s with pwLog := l, pwAt := s.tick.toNat + 1, pwAvg := BitVec.ofNat 16 (l.foldl (· + ·) 0 / l.length) }

/-- POWER_SAMPLE: one a tick (R255). -/
def execPowerSample (watts : Nat) (s : State) : Out := .next (if s.pwAt ≤ s.tick.toNat then s.sample watts else s)

/-- The clamp's step once 100 ticks have passed since the last: down to 4/16 while the average is above the limit, up while it is below 95% of it. -/
def State.clamp (s : State) : State :=
  let lim := Nat.min s.pwTable.toNat s.pwLim.toNat
  let avg := s.pwAvg.toNat
  if s.tick.toNat < s.pwSince + 100 then s
  else if lim < avg then (if s.pwStep.toNat ≤ 3 then s else { s with pwStep := s.pwStep - 1, pwSince := s.tick.toNat })
  else if avg * 100 < lim * 95 then (if s.pwStep = 15 then s else { s with pwStep := s.pwStep + 1, pwSince := s.tick.toNat })
  else s

/-- CLAMP_STEP (R255). -/
def execClampStep (s : State) : Out := .next s.clamp

end Sys2Proof.Machine
end

