-- ==== Sys2Proof/Machine/Tasks.lean ====
section
/-! DEFINITION. Tasks: spawning, dependency counters, yielding, ending and committing (R82 to R91, R139, R146, R338 to R341). -/

namespace Sys2Proof.Machine

/-! ### The check of a record (R82) -/

/-- A sector of a record through the slot's own view, W required (R338): a read of global memory like any other (R147). -/
def State.recView (s : State) (va n : Nat) (addr : Word) : Got (Nat × List Byte) :=
  (s.xlate .store .plain (BitVec.ofNat 64 va) n false addr).bind fun q s1 =>
    if s1.locked q.1 n then .no (.hold s1)
    else
      let s2 := (s1.recallRange q.1 n).sigRead s1.cur q.1 n
      if s2.poisoned q.1 n then .no (.trap s2 Cause.poison addr 0)
      else
        let under := s2.slotBytes s2.cur q.1 n
        if !s2.me.collecting then .ok (q.1, under) s2
        else (s2.viewReady va q.1 n addr).bind fun _ s3 => .ok (q.1, s3.ownView s3.cur va q.1 n under) s3

/-- A record's gates may not be taken: an unaligned one, or one that is not on an F page (R82); of the others, see State.gatePlace. -/
def State.gateBad (s : State) (ctx g : Nat) : Bool := g % 8 != 0 || decide (2 ^ 48 ≤ g) || (s.gatePlace ctx g).1.isNone

/-- The context that the look at a record's gates faults: a page-table page turned out poisoned (R76). -/
def State.gatesRaise (s : State) (ctx ngate : Nat) (ext : List Byte) : Option Nat :=
  (List.range ngate).findSome? fun i => (s.gatePlace ctx (field ext (8 * i) 8)).2

/-- The record is 128 bytes: classes C and T, and any gate (R81). -/
def recWide (w0 : Nat) : Bool := bits w0 63 62 == 1 || bits w0 63 62 == 2 || bits w0 59 57 != 0

/-- The first half of a record breaks R82. -/
def State.recBad (s : State) (va : Nat) (bs : List Byte) : Bool :=
  let w0 := field bs 0 8
  let w1 := field bs 8 8
  bits w0 63 62 == 3 || decide (4 < bits w0 59 57) || bitAt w0 0 || bits w0 56 48 != 0 || bitAt w0 61 || bitAt w0 60 || bitAt w1 48 ||
  decide (16 ≤ field bs 58 1) || !(((s.ctxOf s.me.ctx).queues[field bs 58 1]?).getD (false, 0)).1 || (recWide w0 && va % 128 != 0)

/-- The extension of a record breaks R82: unused gates and reserved bytes are zero. -/
def State.extBad (s : State) (ngate : Nat) (ext : List Byte) : Bool :=
  (List.range 4).any (fun i =>
    let g := field ext (8 * i) 8
    if i < ngate then s.gateBad s.me.ctx g else g != 0) || field ext 32 32 != 0

/-- Check a record as tk.spawn and tk.dep do: its place, and its word 0 (R82, R338). -/
def State.takeRecord (s : State) (x : Word) : Got (Nat × Nat) :=
  match s.place .glob false x 64 1 with
  | .bad cause => .no (.trap s cause x 0)
  | .tcm _ | .scr _ => .no (.trap s Cause.permission x 0)
  | .glob _ _ =>
    if x.toNat % 64 ≠ 0 then .no (.trap s Cause.illegal x 0)
    else (s.recView x.toNat 64 x).bind fun q s1 =>
      let w0 := field q.2 0 8
      if s1.recBad x.toNat q.2 then .no (.trap s1 Cause.illegal x 0)
      else if !recWide w0 then .ok (q.1, w0) s1
      else (s1.recView (x.toNat + 64) 64 x).bind fun e s2 =>
        if (List.range (bits w0 59 57)).any fun i => s2.gateWaits s2.me.ctx (field e.2 (8 * i) 8) then .no (.hold s2)
        else if s2.extBad (bits w0 59 57) e.2 then .no (.trap (s2.raiseIf (s2.gatesRaise s2.me.ctx (bits w0 59 57) e.2)) Cause.illegal x 0) else .ok (q.1, w0) s2

/-! ### tk.spawn and tk.dep (R338, R339) -/

/-- tk.spawn outside collecting mode: release, then the record is taken and enqueued; a full replay window stalls it (R100). -/
def spawnNow (va pa w0 : Nat) (s : State) : Eff :=
  s.release fun s1 =>
    if bits w0 59 57 = 0 && !s1.windowRoom (groveOf s1.cur) then .hold s1
    else
      let key := taskKey s1.me.ctx va
      .next ((s1.newTask (s1.spawnGroup s1.cur) s1.me.ctx va pa (s1.childDepth s1.me.task) .ready).takeIn key (groveOf s1.cur) none)

/-- tk.spawn (R338). -/
def execTkSpawn (a : Reg) (s : State) : Out :=
  let x := s.x a
  guarded s ((s.takeRecord x).andThen fun q s1 =>
    if s1.me.collecting then (s1.collect [⟨2, 0, x.setWidth 48, 0, [], 0, none, 0⟩] x).andThen fun _ s2 => .next s2
    else spawnNow x.toNat q.1 q.2 s1)

/-- The entries that a collecting tk.dep records: a STORE for the counter's bytes 4 to 15, one for the record's state byte, and the DEP entry (R339). R156 gives a STORE entry a mask of one word: the counter's carries the 12 bytes in the 12 bits of its parameter, the 8 of its word and the 4 below it, which are zeros (log 55). -/
def depEntries (c rec : Nat) : List HEntry :=
  [{ storeEntry 0 (c + 8) (bytesOf 8 rec) with par := 0xFFF }, storeEntry 0 (rec + 59) (bytesOf 1 1), ⟨3, 0, BitVec.ofNat 48 c, 0, [], 0, none, 0⟩]

/-- tk.dep outside collecting mode: the record is COUNTING, then one step at the counter's home (R339). -/
def depNow (va pa cp : Nat) (inter : Bool) (s : State) : Eff :=
  if s.locked cp 16 || s.locked pa 64 then .hold s
  else
    let s1 := s.drainSecs s.cur (sectorsOf cp 16 ++ sectorsOf pa 64)
    let s2 := s1.recallRange cp 16
    let zero := s2.recField cp 0 4 == 0
    if zero && !s2.windowRoom (groveOf s2.cur) then .hold s2
    else
      let key := taskKey s2.me.ctx va
      let s3 := s2.newTask (s2.spawnGroup s2.cur) s2.me.ctx va pa (s2.childDepth s2.me.task) .counting
      let s4 := s3.perform s3.cur (cp + 4) inter (bytesOf 1 (flag zero) ++ zeros 3 ++ bytesOf 8 va) false 1
      .next (if zero then s4.takeIn key (groveOf s4.cur) none else s4)

/-- tk.dep (R339). -/
def execTkDep (a b : Reg) (s : State) : Out :=
  let x := s.x a
  let c := s.x b
  guarded s (match s.place .glob false c 16 16 with
    | .bad cause => .trap s cause c 0
    | .tcm _ | .scr _ => .trap s Cause.permission c 0
    | .glob g _ =>
      (s.takeRecord x).andThen fun q s1 =>
        (s1.xlate .store .plain g 16 false c).andThen fun p s2 =>
          if s2.me.collecting then (s2.collect (depEntries c.toNat x.toNat) c).andThen fun _ s3 => .next s3
          else if s2.poisoned p.1 16 then .trap s2 Cause.poison c 0
          else depNow x.toNat q.1 p.1 p.2 s2)

/-! ### tk.yield and tk.end (R333, R340, R341) -/

/-- tk.yield: the task suspends and is READY at once with its grove as origin (R340). A slot that runs no task goes on (log 24), a failed check of the spill traps (R56, R211), and one that waits is waited for (R139, R223). -/
def yieldNow (s : State) : Eff :=
  match s.me.task with
  | none => .next s
  | some key =>
    if s.saveWaits s.cur key then .hold s
    else match s.spillTrap s.cur key with
    | some f => .xfault s f f.addr
    | none => if s.windowRoom (groveOf s.cur) then .left ((s.suspend s.cur none).enqueue key (groveOf s.cur)) else .hold s

/-- tk.yield (R340). -/
def execTkYield (s : State) : Out := guarded s (yieldNow s)

/-- At tk.end the quilt handles close and the hampers behind handles are freed (R167, R183, R341). -/
def State.endSlot (s : State) (slot : Nat) : State :=
  let sl := s.slot slot
  (sl.qhandles.vals.foldl (fun (st : State) h => st.closeHandle sl.ctx h) (s.freeHampers sl.ctx sl.hampers.vals)).freeSlot slot

/-- tk.end of a class C or T task: its hamper and signature go to the commit and the slot is idle (R341). -/
def endCollected (key : Nat) (s : State) : Eff :=
  let sl := s.me
  let s1 := s.modTask key fun t => { t with hamper := sl.taskH, sig := sl.sig, slot := s.cur, endPc := sl.pc }
  let s2 := (s1.endSlot s.cur).taskState key .committing
  .left (if sl.cls == 1 then s2.commitStart key else s2)

/-- tk.end of a class D task: its counter's decrement, then DONE (R87, R341). -/
def endDirect (key : Nat) (t : Task) (s0 : State) : Eff :=
  let s := s0.planTouch ⟨s0.cur, t.ctx, 0⟩ (s0.ownCounter t) []
  match s.commitPlan ⟨s.cur, t.ctx, 0⟩ (s.ownCounter t) [] with
  | .error (.check f) => .xfault s f f.addr
  | .error (.cause c a) => .trap s c a 0
  | .error .wait => .hold s
  | .ok (ps, cs) =>
    if s.blocked ps cs then .hold s
    else if s.underflow cs then .trap s Cause.counterUnderflow 0 0
    else if s.recWaits noTask t.ctx cs ps then .hold s
    else
      let s1 := (s.modTask key fun u => { u with slot := s.cur }).endSlot s.cur
      let s2 := s1.applyCommit s.cur key ⟨t.grp, t.ctx, groveOf s.cur, some key, none⟩ ps cs
      .left (s2.commitEnd key (s2.overfull s1 (groveOf s.cur)))

/-- tk.end after its earlier accesses have performed. A slot that runs no task goes idle (log 24). -/
def endNow (s : State) : Eff :=
  match s.me.task with
  | none => .left (s.endSlot s.cur)
  | some key => match s.tasks.find key with
    | none => .left (s.endSlot s.cur)
    | some t =>
      if s.me.classCT then
        (if uncaptured ((s.me.taskH.map (·.entries)).getD []) then .hold s else endCollected key s)
      else endDirect key t s

/-- tk.end (R341). -/
def execTkEnd (s : State) : Out :=
  guarded s (if s.me.stack.isEmpty then s.release endNow else .trap s Cause.illegal 0 0)

/-! ### Events -/

/-- TASK_COMMIT: a commit that holds every lock checks, applies and unlocks; one that has applied ends once its enqueues stand in the window (R87, R100). -/
def execTaskCommit (task : Nat) (s : State) : Out := .next (s.commitApply task)

/-- COMMIT_LOCK_ACQUIRE: the commit takes its next lock, in ascending physical address (R139). -/
def execCommitLockAcquire (task : Nat) (s : State) : Out := .next (s.lockNext task)

/-- A COMMITTING task may begin its commit: a class C task at once, a class T task at the frontier (R146). -/
def State.mayCommit (s : State) (key : Nat) : Bool :=
  match s.tasks.find key with
  | some t => t.st == .committing && !(s.commits.any fun c => c.task == key) && (t.cls != 2 || s.atFrontier t)
  | none => false

/-- TIMED_COMMIT_START (R146). -/
def execTimedCommitStart (task : Nat) (s : State) : Out := .next (if s.mayCommit task then s.commitStart task else s)

end Sys2Proof.Machine
end

