-- ==== Sys2Proof/Machine/Vector.lean ====
section
/-! DEFINITION. Page 1 without its memory forms: the vector length, arithmetic, conversions, reductions, masks and permutes (R347 to R354, R359 to R369). -/

namespace Sys2Proof.Machine

/-! ### Shape, groups and elements (R347, R350, R351) -/

/-- What vshape and vl say. -/
structure VSh where
  sew : Nat
  nmax : Nat
  vl : Nat
  tz : Bool
  mz : Bool
  deriving DecidableEq, Repr

/-- The shape of a slot. -/
def Slot.sh (sl : Slot) : VSh :=
  let v := sl.vshape.toNat
  ⟨8 * 2 ^ bits v 1 0, shapeMax v, sl.vl.toNat, bitAt v 4, bitAt v 5⟩

/-- The registers of a group of elements of w bits (R347). -/
def VSh.regs (h : VSh) (w : Nat) : Nat := Nat.max 1 (h.nmax * w / 1024)

/-- A group's first register is aligned (R352). -/
def VSh.aligned (h : VSh) (r : Reg) (w : Nat) : Bool := r.toNat % h.regs w == 0

/-- Two runs of registers meet. -/
def meets (d nd s ns : Nat) : Bool := decide (d < s + ns) && decide (s < d + nd)

/-- A destination group may not overlap a source group unless both are the same (R352). -/
def VSh.clash (h : VSh) (d : Reg) (wd : Nat) (s : Reg) (ws : Nat) : Bool :=
  meets d.toNat (h.regs wd) s.toNat (h.regs ws) && !(wd == ws && d == s)

/-- The groups overlap at all. -/
def VSh.touch (h : VSh) (d : Reg) (wd : Nat) (s : Reg) (ws : Nat) : Bool := meets d.toNat (h.regs wd) s.toNat (h.regs ws)

/-- Element i of w bits of the group at a register (R347). -/
def Slot.elem (sl : Slot) (r : Reg) (w i : Nat) : Nat :=
  (sl.vr (r + BitVec.ofNat 5 (i * w / 1024))).toNat / 2 ^ (i * w % 1024) % 2 ^ w

/-- Write an element. -/
def Slot.setElem (sl : Slot) (r : Reg) (w i v : Nat) : Slot :=
  let q := r + BitVec.ofNat 5 (i * w / 1024)
  let lo := i * w % 1024
  let old := (sl.vr q).toNat
  sl.setVr q (BitVec.ofNat 1024 (old - (old / 2 ^ lo % 2 ^ w) * 2 ^ lo + (v % 2 ^ w) * 2 ^ lo))

/-- Write elements. -/
def Slot.setElems (sl : Slot) (r : Reg) (w : Nat) (l : List (Nat × Nat)) : Slot := l.foldl (fun q e => q.setElem r w e.1 e.2) sl

/-- The active elements under a mask (R350). -/
def VSh.active (h : VSh) (k : KWord) : List Nat := (List.range h.vl).filter fun i => k.getLsbD i

/-- The tail elements (R350). -/
def VSh.tail (h : VSh) : List Nat := span h.vl (h.nmax - h.vl)

/-- Zeros at some elements. -/
def zeroAt (l : List Nat) : List (Nat × Nat) := l.map fun i => (i, 0)

/-- Write a destination group: the results, then the zeros of the policies; nothing at all with vl = 0 (R349, R351). -/
def Slot.putGroup (sl : Slot) (h : VSh) (d : Reg) (w : Nat) (k : KWord) (res : List (Nat × Nat)) : Slot :=
  if h.vl = 0 then sl
  else
    let off := if h.mz then (List.range h.vl).filter fun i => !k.getLsbD i else []
    let tl := if h.tz then h.tail else []
    ((sl.setElems d w res).setElems d w (zeroAt off)).setElems d w (zeroAt tl)

/-- Run an element operation over elements in order with the slot's arithmetic side. -/
def overElems (l : List Nat) (p : Fp) (f : Nat → Fp → Nat × Fp) : List (Nat × Nat) × Fp :=
  l.foldl (fun acc i =>
    let (r, q) := f i acc.2
    (acc.1 ++ [(i, r)], q)) ([], p)

/-! ### Types (R285, R352) -/

/-- The width of a vector type code; 0 for a block type. -/
def vtyBits (t : Nat) : Nat :=
  if t < 8 then 8 * 2 ^ (t % 4) else if t = 8 then 32 else if t = 9 ∨ t = 10 then 16 else if t = 11 ∨ t = 12 then 8 else 0

/-- An integer type code. -/
def vtyInt (t : Nat) : Bool := decide (t < 8)

/-- A signed integer type code. -/
def vtySigned (t : Nat) : Bool := decide (t < 4)

/-- A floating type of the arithmetic forms. -/
def vtyFloat (t : Nat) : Bool := t == 8 || t == 9 || t == 10

/-- The format of a floating type code. -/
def vtyFmt (t : Nat) : FFmt := if t = 8 then fmtF32 else if t = 9 then fmtBf16 else if t = 10 then fmtF16 else if t = 11 then fmtE4m3 else fmtE5m2

/-- The integer that an element holds. -/
def vInt (t w v : Nat) : Int := if vtySigned t then sInt w v else Int.ofNat (v % 2 ^ w)

/-- A check of R352 fails: ILLEGAL with fault.addr 0; else go on. -/
def vcheck (s : State) (bad : Bool) (e : Eff) : Eff := if bad then .trap s Cause.illegal 0 0 else e

/-- The second source's element: a scalar's low bits, or the group's element (R352). -/
def State.src2 (s : State) (m : VMod) (r : Reg) (w i : Nat) : Nat := if m.scalar then (s.x r).toNat % 2 ^ w else s.me.elem r w i

/-! ### setvl (R349) -/

/-- setvl. -/
def execSetvl (d r : Reg) (shape : BitVec 6) (s : State) : Out :=
  let n := Nat.min (s.x r).toNat (shapeMax shape.toNat)
  guarded s (.next ((s.modMe fun q => { q with vshape := shape, vl := BitVec.ofNat 8 n }).setX d (BitVec.ofNat 64 n)))

/-! ### Two-source arithmetic (R359, R360) -/

/-- An integer result as its type keeps it: wrapped, or clamped with the sat flag (R46, R359). -/
def vKeep (t w : Nat) (sat : Bool) (r : Int) : Nat × Nat :=
  if sat then
    let (lo, hi) := intRange (vtySigned t) w
    let (c, did) := clampInt lo hi r
    (wrapInt w c, if did then flagSat else 0)
  else (wrapInt w r, 0)

/-- Quotient of R303 at a width. -/
def vQuot (t w : Nat) (a b : Int) : Int :=
  if b = 0 then (if vtySigned t then -1 else Int.ofNat (2 ^ w) - 1) else a.tdiv b

/-- Remainder of R303 at a width. -/
def vRem (a b : Int) : Int := if b = 0 then a else a.tmod b

/-- The operations of majors 4 and 5 on integers, exact. -/
inductive VOp | add | sub | mul | min | max | mulh | div | rem | and | or | xor | sll | srl | sra
  deriving DecidableEq, Repr

/-- The exact integer result of an operation (R359). -/
def vIntOp (o : VOp) (t w a b : Nat) : Int :=
  let x := vInt t w a
  let y := vInt t w b
  match o with
  | .add => x + y
  | .sub => x - y
  | .mul => x * y
  | .min => if y < x then y else x
  | .max => if x < y then y else x
  | .mulh => x * y / Int.ofNat (2 ^ w)
  | .div => vQuot t w x y
  | .rem => vRem x y
  | .and => Int.ofNat (a &&& b)
  | .or => Int.ofNat (a ||| b)
  | .xor => Int.ofNat (a ^^^ b)
  | .sll => Int.ofNat (a * 2 ^ (b % w))
  | .srl => Int.ofNat (a / 2 ^ (b % w))
  | .sra => sInt w a / Int.ofNat (2 ^ (b % w))

/-- A floating result of an operation of major 4 that integers share (R360). -/
def vFltOp (o : VOp) (f : FFmt) (rm : Nat) (sat : Bool) (a b : Nat) (p : Fp) : Nat × Fp :=
  let x := f.value a
  let y := f.value b
  match o with
  | .add => p.round f rm sat (fAdd (rm == 2) x y)
  | .sub => p.round f rm sat (fAdd (rm == 2) x y.neg)
  | .mul => p.round f rm sat (fMul x y)
  | .min => ((f.round 0 false 0 (fMin x y)).1, p)
  | .max => ((f.round 0 false 0 (fMax x y)).1, p)
  | .mulh | .div | .rem | .and | .or | .xor | .sll | .srl | .sra => (0, p)

/-- An operation that has a floating form. -/
def VOp.floats : VOp → Bool
  | .add | .sub | .mul | .min | .max => true
  | .mulh | .div | .rem | .and | .or | .xor | .sll | .srl | .sra => false

/-- An operation that admits .sat. -/
def VOp.sats : VOp → Bool
  | .add | .sub | .mul => true
  | .min | .max | .mulh | .div | .rem | .and | .or | .xor | .sll | .srl | .sra => false

/-- The checks of a form with a destination and two sources of one width. -/
def VSh.bad3 (h : VSh) (d a b : Reg) (w : Nat) (scalar : Bool) : Bool :=
  !h.aligned d w || !h.aligned a w || h.clash d w a w || (!scalar && (!h.aligned b w || h.clash d w b w))

/-- Finish an arithmetic form: the group and the flags. -/
def State.vput (s : State) (h : VSh) (d : Reg) (w : Nat) (k : KWord) (r : List (Nat × Nat) × Fp) : State :=
  (s.modMe fun q => q.putGroup h d w k r.1).setFp r.2

/-- A two-source form of majors 4 and 5 (R359, R360). -/
def vbin (o : VOp) (d a b : Reg) (m : VMod) (s : State) : Out :=
  let h := s.me.sh
  let t := m.ty.toNat
  let w := h.sew
  let k := s.me.kr m.mask
  let p := s.fp
  let flt := vtyFloat t
  guarded s (vcheck s (vtyBits t != w || !(vtyInt t || (flt && o.floats)) || (m.sat && !o.sats) || h.bad3 d a b w m.scalar)
    (.next (s.vput h d w k (overElems (h.active k) p fun i q =>
      let x := s.me.elem a w i
      let y := s.src2 m b w i
      if flt then vFltOp o (vtyFmt t) (q.mode 7) m.sat x y q
      else
        let (r, fl) := vKeep t w m.sat (vIntOp o t w x y)
        (r, q.raise fl)))))

/-- vadd (R359, R360). -/
def execVadd (d s1 s2 : Reg) (m : VMod) (st : State) : Out := vbin .add d s1 s2 m st

/-- vsub (R359, R360). -/
def execVsub (d s1 s2 : Reg) (m : VMod) (st : State) : Out := vbin .sub d s1 s2 m st

/-- vmul (R359, R360). -/
def execVmul (d s1 s2 : Reg) (m : VMod) (st : State) : Out := vbin .mul d s1 s2 m st

/-- vmin (R359, R360). -/
def execVmin (d s1 s2 : Reg) (m : VMod) (st : State) : Out := vbin .min d s1 s2 m st

/-- vmax (R359, R360). -/
def execVmax (d s1 s2 : Reg) (m : VMod) (st : State) : Out := vbin .max d s1 s2 m st

/-- vmulh (R359). -/
def execVmulh (d s1 s2 : Reg) (m : VMod) (st : State) : Out := vbin .mulh d s1 s2 m st

/-- vdiv (R359). -/
def execVdiv (d s1 s2 : Reg) (m : VMod) (st : State) : Out := vbin .div d s1 s2 m st

/-- vrem (R359). -/
def execVrem (d s1 s2 : Reg) (m : VMod) (st : State) : Out := vbin .rem d s1 s2 m st

/-- vand (R359). -/
def execVand (d s1 s2 : Reg) (m : VMod) (st : State) : Out := vbin .and d s1 s2 m st

/-- vor (R359). -/
def execVor (d s1 s2 : Reg) (m : VMod) (st : State) : Out := vbin .or d s1 s2 m st

/-- vxor (R359). -/
def execVxor (d s1 s2 : Reg) (m : VMod) (st : State) : Out := vbin .xor d s1 s2 m st

/-- vsll (R359). -/
def execVsll (d s1 s2 : Reg) (m : VMod) (st : State) : Out := vbin .sll d s1 s2 m st

/-- vsrl (R359). -/
def execVsrl (d s1 s2 : Reg) (m : VMod) (st : State) : Out := vbin .srl d s1 s2 m st

/-- vsra (R359). -/
def execVsra (d s1 s2 : Reg) (m : VMod) (st : State) : Out := vbin .sra d s1 s2 m st

/-! ### Floating forms of major 6 (R360) -/

/-- A floating form: op takes whether the mode is RD, the destination's element and the two sources. -/
def vflt (d a b : Reg) (m : VMod) (op : Bool → FVal → FVal → FVal → FVal × Nat) (s : State) : Out :=
  let h := s.me.sh
  let t := m.ty.toNat
  let w := h.sew
  let k := s.me.kr m.mask
  let f := vtyFmt t
  guarded s (vcheck s (!vtyFloat t || vtyBits t != w || h.bad3 d a b w m.scalar)
    (.next (s.vput h d w k (overElems (h.active k) s.fp fun i q =>
      let rm := q.mode 7
      q.round f rm m.sat (op (rm == 2) (f.value (s.me.elem d w i)) (f.value (s.me.elem a w i)) (f.value (s.src2 m b w i)))))))

/-- vfma: d[i] + a × b with one rounding (R360). -/
def execVfma (d s1 s2 : Reg) (m : VMod) (st : State) : Out := vflt d s1 s2 m (fun rd c a b => fFma rd a b c) st

/-- vfdiv (R360). -/
def execVfdiv (d s1 s2 : Reg) (m : VMod) (st : State) : Out := vflt d s1 s2 m (fun _ _ a b => fDiv a b) st

/-- vsqrt: its scalar bit is reserved (R360). -/
def execVsqrt (d r : Reg) (m : VMod) (st : State) : Out :=
  if m.scalar then guarded st (.trap st Cause.illegal 0 0) else vflt d r r m (fun _ _ a _ => fSqrt a) st

/-! ### Widening, narrowing and conversion (R361 to R364) -/

/-- vwadd and vwmul: destination elements of twice the width (R361). -/
def vwide (mul : Bool) (d b c : Reg) (m : VMod) (s : State) : Out :=
  let h := s.me.sh
  let t := m.ty.toNat
  let w := h.sew
  let k := s.me.kr m.mask
  let ok := (vtyInt t && t != 7) || t == 9 || t == 10
  let bad := !ok || w == 64 || vtyBits t != w || m.sat || !h.aligned d (2 * w) || !h.aligned b w || h.clash d (2 * w) b w ||
    (!m.scalar && (!h.aligned c w || h.clash d (2 * w) c w))
  guarded s (vcheck s bad (.next (s.vput h d (2 * w) k (overElems (h.active k) s.fp fun i q =>
    let x := s.me.elem b w i
    let y := s.src2 m c w i
    if vtyInt t then
      let r := if mul then vInt t w x * vInt t w y else vInt t w x + vInt t w y
      (wrapInt (2 * w) r, q)
    else
      let f := vtyFmt t
      let rm := q.mode 7
      q.round fmtF32 rm false (if mul then fMul (f.value x) (f.value y) else fAdd (rm == 2) (f.value x) (f.value y))))))

/-- vwadd (R361). -/
def execVwadd (d b c : Reg) (m : VMod) (st : State) : Out := vwide false d b c m st

/-- vwmul (R361). -/
def execVwmul (d b c : Reg) (m : VMod) (st : State) : Out := vwide true d b c m st

/-- vnarrow: source elements of twice the width, wrapped or clamped (R362). -/
def execVnarrow (d r : Reg) (ty : BitVec 4) (mask : KReg) (sat : Bool) (s : State) : Out :=
  let h := s.me.sh
  let t := ty.toNat
  let w := h.sew
  let k := s.me.kr mask
  let bad := decide (6 < t) || w == 64 || vtyBits t != w || !h.aligned d w || !h.aligned r (2 * w) || h.clash d w r (2 * w)
  guarded s (vcheck s bad (.next (s.vput h d w k (overElems (h.active k) s.fp fun i q =>
    let (v, fl) := vKeep t w sat (vInt t (2 * w) (s.me.elem r (2 * w) i))
    (v, q.raise fl)))))

/-- Convert one element between type codes; .sat clamps where an integer becomes narrower (R45, R363). -/
def vconv (dst src : Nat) (sat : Bool) (v : Nat) (p : Fp) : Nat × Fp :=
  let wd := vtyBits dst
  let ws := vtyBits src
  if vtyInt src && vtyInt dst then
    let (r, fl) := vKeep dst wd (sat && decide (wd < ws)) (vInt src ws v)
    (r, p.raise fl)
  else
    let x := if vtyInt src then finOfInt (vInt src ws v) 0 else (vtyFmt src).value v
    let rm := p.mode 7
    if vtyInt dst then
      let p1 := if rm = 4 && x.rounds then p.step else p
      let (i, fl) := fToInt true rm (rngBits p1.rng) (vtySigned dst) wd x
      (wrapInt wd i, p1.raise fl)
    else p.round (vtyFmt dst) rm sat (x, 0)

/-- vcvt: unmasked, each operand in the group of its own width (R363). -/
def execVcvt (d r : Reg) (dst src : BitVec 4) (sat : Bool) (s : State) : Out :=
  let h := s.me.sh
  let wd := vtyBits dst.toNat
  let ws := vtyBits src.toNat
  let bad := decide (12 < dst.toNat) || decide (12 < src.toNat) || dst == src || !h.aligned d wd || !h.aligned r ws || h.clash d wd r ws
  guarded s (vcheck s bad (.next (s.vput h d wd (s.me.kr 0) (overElems (List.range h.vl) s.fp fun i q =>
    vconv dst.toNat src.toNat sat (s.me.elem r ws i) q))))

/-- The registers of a block group (R364). -/
def VSh.blockRegs (h : VSh) (w : Nat) : Nat := if (h.nmax / 32) * blockBytes w ≤ 128 then 1 else 2

/-- The checks of vpack and vunpack: d names the destination, g its registers, r the source, n its registers. -/
def VSh.badBlock (h : VSh) (d g r n : Nat) : Bool :=
  h.sew != 32 || h.vl % 32 != 0 || d % g != 0 || r % n != 0 || meets d g r n

/-- Write bytes into registers from one on. -/
def Slot.setBytes (sl : Slot) (d : Reg) (off : Nat) (bs : List Byte) : Slot :=
  (List.range bs.length).foldl (fun q i => q.setElem d 8 (off + i) ((bs[i]?).getD 0).toNat) sl

/-- vpack (R38, R364). -/
def execVpack (d r : Reg) (bt : BlockTy) (s : State) : Out :=
  let h := s.me.sh
  let w := blockMant bt
  let g := h.blockRegs w
  let n := h.vl / 32
  let blocks := (List.range n).map fun j => blockPack w ((List.range 32).map fun i => fmtF32.value (s.me.elem r 32 (32 * j + i)))
  let bs := (blocks.map (·.1)).flatten
  let fl := if blocks.any fun b => b.2 != 0 then flagNx else 0
  guarded s (vcheck s (h.badBlock d.toNat g r.toNat (h.regs 32))
    (.next (if h.vl = 0 then s
      else (s.modMe fun q =>
        (q.setBytes d 0 bs).setBytes d bs.length (if h.tz then zeros (128 * g - bs.length) else [])).setFp (s.fp.raise fl))))

/-- vunpack (R37, R364). -/
def execVunpack (d r : Reg) (bt : BlockTy) (s : State) : Out :=
  let h := s.me.sh
  let w := blockMant bt
  let n := h.vl / 32
  let vals := ((List.range n).map fun j =>
    blockValues w ((List.range (blockBytes w)).map fun i => BitVec.ofNat 8 (s.me.elem r 8 (blockBytes w * j + i)))).flatten
  guarded s (vcheck s (h.badBlock d.toNat (h.regs 32) r.toNat (h.blockRegs w))
    (.next (s.modMe fun q => q.putGroup h d 32 (q.kr 0)
      ((List.range vals.length).map fun i => (i, (fmtF32.round 0 false 0 ((vals[i]?).getD (.fin false 0 0))).1)))))

/-! ### Reductions (R365) -/

/-- One step of a reduction: 0 sum, 1 min, 2 max. -/
def vredStep (o t w acc v : Nat) (p : Fp) : Nat × Fp :=
  if vtyInt t then
    (wrapInt w (vIntOp (if o = 0 then .add else if o = 1 then .min else .max) t w acc v), p)
  else vFltOp (if o = 0 then .add else if o = 1 then .min else .max) (vtyFmt t) (p.mode 7) false acc v p

/-- A reduction: element 0 of the destination's one register, the rest of it tail (R365). -/
def vred (o : Nat) (d b c : Reg) (m : VMod) (s : State) : Out :=
  let h := s.me.sh
  let t := m.ty.toNat
  let w := h.sew
  let k := s.me.kr m.mask
  let bad := vtyBits t != w || !(vtyInt t || vtyFloat t) || m.sat || m.scalar || !h.aligned b w ||
    (meets d.toNat 1 b.toNat (h.regs w) && d != b)
  guarded s (vcheck s bad (.next (if h.vl = 0 then s
    else
      let (acc, p) := (h.active k).foldl (fun a i => vredStep o t w a.1 (s.me.elem b w i) a.2) (s.me.elem c w 0, s.fp)
      (s.modMe fun q =>
        (q.setElem d w 0 acc).setElems d w (if h.tz then zeroAt (span 1 (1024 / w - 1)) else [])).setFp p)))

/-- vredsum (R365). -/
def execVredsum (d b c : Reg) (m : VMod) (st : State) : Out := vred 0 d b c m st

/-- vredmin (R365). -/
def execVredmin (d b c : Reg) (m : VMod) (st : State) : Out := vred 1 d b c m st

/-- vredmax (R365). -/
def execVredmax (d b c : Reg) (m : VMod) (st : State) : Out := vred 2 d b c m st

/-! ### Compares and masks (R366, R367) -/

/-- Bits of a mask below a bound from a function, the rest of an old mask or zeros by the tail policy; nothing with vl = 0. -/
def VSh.putMask (h : VSh) (old : KWord) (f : Nat → Bool) : KWord :=
  if h.vl = 0 then old
  else
    let low := (List.range h.vl).foldl (fun a i => a + flag (f i) * 2 ^ i) 0
    BitVec.ofNat 128 (low + (if h.tz then 0 else old.toNat / 2 ^ h.vl * 2 ^ h.vl))

/-- A compare: 0 equal, 1 not equal, 2 less, 3 less or equal. -/
def vcmp (o t w a b : Nat) : Bool :=
  if vtyInt t then
    let x := vInt t w a
    let y := vInt t w b
    (match o with
      | 0 => decide (x = y)
      | 1 => decide (x ≠ y)
      | 2 => decide (x < y)
      | _ => decide (x ≤ y))
  else
    let x := (vtyFmt t).value a
    let y := (vtyFmt t).value b
    if x.isNan || y.isNan then false
    else (match o with
      | 0 => fEq x y
      | 1 => !fEq x y
      | 2 => fLt x y
      | _ => fLt x y || fEq x y)

/-- A NaN among two floating elements. -/
def vnan (t a b : Nat) : Bool := !vtyInt t && (((vtyFmt t).value a).isNan || ((vtyFmt t).value b).isNan)

/-- A compare into a mask register (R366). -/
def vms (o : Nat) (kd : KReg) (b c : Reg) (m : VMod) (s : State) : Out :=
  let h := s.me.sh
  let t := m.ty.toNat
  let w := h.sew
  let k := s.me.kr m.mask
  let bad := kd == 0 || vtyBits t != w || !(vtyInt t || vtyFloat t) || m.sat || !h.aligned b w || (!m.scalar && !h.aligned c w)
  let old := s.me.kr kd
  let bit := fun i => if k.getLsbD i then vcmp o t w (s.me.elem b w i) (s.src2 m c w i) else if h.mz then false else old.getLsbD i
  let nan := (h.active k).any fun i => vnan t (s.me.elem b w i) (s.src2 m c w i)
  guarded s (vcheck s bad (.next ((s.modMe fun q => q.setKr kd (h.putMask old bit)).setFp (if nan then s.fp.raise flagNv else s.fp))))

/-- vmseq (R366). -/
def execVmseq (k : KReg) (b c : Reg) (m : VMod) (st : State) : Out := vms 0 k b c m st

/-- vmsne (R366). -/
def execVmsne (k : KReg) (b c : Reg) (m : VMod) (st : State) : Out := vms 1 k b c m st

/-- vmslt (R366). -/
def execVmslt (k : KReg) (b c : Reg) (m : VMod) (st : State) : Out := vms 2 k b c m st

/-- vmsle (R366). -/
def execVmsle (k : KReg) (b c : Reg) (m : VMod) (st : State) : Out := vms 3 k b c m st

/-- A bitwise form on mask registers (R367). -/
def vmop (k : KReg) (f : Nat → Bool) (s : State) : Out :=
  guarded s (vcheck s (k == 0) (.next (s.modMe fun q => q.setKr k (q.sh.putMask (q.kr k) f))))

/-- vmand (R367). -/
def execVmand (k kb kc : KReg) (st : State) : Out := vmop k (fun i => (st.me.kr kb).getLsbD i && (st.me.kr kc).getLsbD i) st

/-- vmor (R367). -/
def execVmor (k kb kc : KReg) (st : State) : Out := vmop k (fun i => (st.me.kr kb).getLsbD i || (st.me.kr kc).getLsbD i) st

/-- vmnot (R367). -/
def execVmnot (k kb : KReg) (st : State) : Out := vmop k (fun i => !(st.me.kr kb).getLsbD i) st

/-- vpopc (R367). -/
def execVpopc (d : Reg) (kb : KReg) (s : State) : Out :=
  guarded s (.next (s.setX d (BitVec.ofNat 64 (s.me.sh.active (s.me.kr kb)).length)))

/-- vfirst: -1 where no bit is set (R367). -/
def execVfirst (d : Reg) (kb : KReg) (s : State) : Out :=
  guarded s (.next (s.setX d (match s.me.sh.active (s.me.kr kb) with
    | i :: _ => BitVec.ofNat 64 i
    | [] => -1)))

/-! ### Permutes and moves (R368, R369) -/

/-- A type that a move or permute admits: any of the element's width but a block type. -/
def VSh.moves (h : VSh) (t : Nat) : Bool := vtyBits t == h.sew

/-- vmerge: every element below vl is written (R368). -/
def execVmerge (d b c : Reg) (m : VMod) (s : State) : Out :=
  let h := s.me.sh
  let w := h.sew
  let k := s.me.kr m.mask
  guarded s (vcheck s (!h.moves m.ty.toNat || m.sat || h.bad3 d b c w m.scalar)
    (.next (s.modMe fun q => q.putGroup h d w (q.kr 0) ((List.range h.vl).map fun i =>
      (i, if k.getLsbD i then s.src2 m c w i else s.me.elem b w i)))))

/-- The checks of a slide, a gather or a compress: no overlap of destination and source at all (R352, R368). -/
def VSh.badPerm (h : VSh) (d b : Reg) (m : VMod) : Bool :=
  !h.moves m.ty.toNat || m.sat || !h.aligned d h.sew || !h.aligned b h.sew || h.touch d h.sew b h.sew

/-- vslideup: of the elements below vl, those below the offset are unchanged; an offset of NMAX or more writes nothing, tail included (R368). -/
def execVslideup (d b c : Reg) (m : VMod) (s : State) : Out :=
  let h := s.me.sh
  let w := h.sew
  let k := s.me.kr m.mask
  let off := (s.x c).toNat
  let up := fun (l : List Nat) => l.filter fun i => decide (off ≤ i)
  let res := (up (h.active k)).map fun i => (i, s.me.elem b w (i - off))
  let zs := (if h.mz then (up (List.range h.vl)).filter fun i => !k.getLsbD i else []) ++ (if h.tz && decide (off < h.nmax) then h.tail else [])
  guarded s (vcheck s (h.badPerm d b m || !m.scalar)
    (.next (if h.vl = 0 then s else s.modMe fun q => (q.setElems d w res).setElems d w (zeroAt zs))))

/-- vslidedown (R368). -/
def execVslidedown (d b c : Reg) (m : VMod) (s : State) : Out :=
  let h := s.me.sh
  let w := h.sew
  let k := s.me.kr m.mask
  let off := (s.x c).toNat
  guarded s (vcheck s (h.badPerm d b m || !m.scalar)
    (.next (s.modMe fun q => q.putGroup h d w k ((h.active k).map fun i =>
      (i, if i + off < h.nmax then s.me.elem b w (i + off) else 0)))))

/-- vrgather (R368). -/
def execVrgather (d b c : Reg) (m : VMod) (s : State) : Out :=
  let h := s.me.sh
  let w := h.sew
  let k := s.me.kr m.mask
  guarded s (vcheck s (h.badPerm d b m || m.scalar || !h.aligned c w || h.touch d w c w)
    (.next (s.modMe fun q => q.putGroup h d w k ((h.active k).map fun i =>
      let j := s.me.elem c w i
      (i, if j < h.nmax then s.me.elem b w j else 0)))))

/-- vcompress: the selected elements in order; the rest up to NMAX are tail (R368). -/
def execVcompress (d b : Reg) (m : VMod) (s : State) : Out :=
  let h := s.me.sh
  let w := h.sew
  let sel := h.active (s.me.kr m.mask)
  let res := (List.range sel.length).map fun i => (i, s.me.elem b w ((sel[i]?).getD 0))
  let zs := if h.tz then span sel.length (h.nmax - sel.length) else []
  guarded s (vcheck s (h.badPerm d b m || m.scalar)
    (.next (if h.vl = 0 then s else s.modMe fun q => (q.setElems d w res).setElems d w (zeroAt zs))))

/-- vmv: a move of a group, of a scalar to every active element, or of element 0 to a scalar (R369). -/
def execVmv (d r : Reg) (ty : BitVec 4) (mask : KReg) (form : MvForm) (s : State) : Out :=
  let h := s.me.sh
  let t := ty.toNat
  let w := h.sew
  let k := s.me.kr mask
  guarded s (match form with
    | .vv => vcheck s (!h.moves t || !h.aligned d w || !h.aligned r w || h.clash d w r w)
      (.next (s.modMe fun q => q.putGroup h d w k ((h.active k).map fun i => (i, s.me.elem r w i))))
    | .vx => vcheck s (!h.moves t || !h.aligned d w)
      (.next (s.modMe fun q => q.putGroup h d w k ((h.active k).map fun i => (i, (s.x r).toNat % 2 ^ w))))
    | .xv => vcheck s (!h.moves t || !h.aligned r w || mask != 0)
      (.next (s.setX d (if vtySigned t then BitVec.ofInt 64 (sInt w (s.me.elem r w 0)) else BitVec.ofNat 64 (s.me.elem r w 0)))))

end Sys2Proof.Machine
end

