-- ==== Sys2Proof/Machine/VectorMem.lean ====
section
/-! DEFINITION. The vector loads and stores (R355 to R358, R370). -/

namespace Sys2Proof.Machine

/-- The end of an instruction that changes nothing, from the state before it: a trap or a hold (R356). -/
def Eff.rebase (s : State) : Eff → Eff
  | .trap _ c a p => .trap s c a p
  | .xfault _ f a => .xfault s f a
  | .hold _ => .hold s
  | .next t => .next t
  | .jump t a => .jump t a
  | .left t => .left t

/-- The address rule of a form (R355). -/
inductive VAddr | unit | stride | index | column
  deriving DecidableEq, Repr

/-- The address of element i: c is the stride register or the index group. -/
def vaddr (s : State) (rule : VAddr) (e : Word) (c : Reg) (w i : Nat) : Word :=
  match rule with
  | .unit => e + BitVec.ofNat 64 (i * (w / 8))
  | .stride => e + BitVec.ofNat 64 i * s.x c
  | .index => e + BitVec.ofNat 64 (s.me.elem c w i * (w / 8))
  | .column => e + BitVec.ofNat 64 (i * 256)

/-- The checks of R352 on a memory form: the index group of a load may not overlap its destination. -/
def VSh.badMem (h : VSh) (d c : Reg) (m : VMMod) (rule : VAddr) (isLoad : Bool) : Bool :=
  8 * 2 ^ m.width.toNat != h.sew || !h.aligned d h.sew ||
  (rule == .index && (!h.aligned c h.sew || (isLoad && h.clash d h.sew c h.sew)))

/-- Load elements in order. Where one cannot be loaded: its index, how it ends, and what was loaded below it. -/
def vloads (s : State) (m : VMMod) (w : Nat) (a : Nat → Word) : List Nat → List (Nat × Nat) → List (Nat × Nat) × State × Option (Nat × Eff)
  | [], acc => (acc, s, none)
  | i :: rest, acc =>
    match s.load m.space m.sk (a i) (w / 8) (w / 8) true with
    | .no e => (acc, s, some (i, e))
    | .ok bs s1 => vloads s1 m w a rest (acc ++ [(i, natOf bs)])

/-- A vector load: every active element or none (R356). -/
def vload (rule : VAddr) (d b c : Reg) (m : VMMod) (imm : Word) (s : State) : Out :=
  let h := s.me.sh
  let w := h.sew
  let k := s.me.kr m.mask
  let a := fun i => vaddr s rule (ea (s.x b) imm) c w i
  guarded s (vcheck s (h.badMem d c m rule true)
    (match vloads s m w a (h.active k) [] with
      | (res, s1, none) => .next (s1.modMe fun q => q.putGroup h d w k res)
      | (_, _, some (_, e)) => e.rebase s))

/-- An element whose check failed, not one that waits. -/
def Eff.isTrap : Eff → Bool
  | .trap _ _ _ _ | .xfault _ _ _ => true
  | .hold _ | .next _ | .jump _ _ | .left _ => false

/-- vlff: a failing element above the lowest active one sets vl and ends the load without a trap (R358). -/
def vloadFirst (d b : Reg) (m : VMMod) (imm : Word) (s : State) : Out :=
  let h := s.me.sh
  let w := h.sew
  let k := s.me.kr m.mask
  let a := fun i => vaddr s .unit (ea (s.x b) imm) 0 w i
  guarded s (vcheck s (h.badMem d 0 m .unit true)
    (match vloads s m w a (h.active k) [] with
      | (res, s1, none) => .next (s1.modMe fun q => q.putGroup h d w k res)
      | (res, s1, some (i, e)) =>
        if res.isEmpty || !e.isTrap then e.rebase s
        else .next (s1.modMe fun q => { (q.putGroup { h with vl := i } d w k res) with vl := BitVec.ofNat 8 i })))

/-- Store elements in order. -/
def vstores (s : State) (m : VMMod) (w : Nat) (a : Nat → Word) (v : Nat → Nat) : List Nat → Got Unit
  | [] => .ok () s
  | i :: rest => (s.store m.space m.sk (a i) (bytesOf (w / 8) (v i)) (w / 8) false true).bind fun _ s1 => vstores s1 m w a v rest

/-- The checks of the elements of a store in order, before any of them is stored; how the first one that fails ends. In collecting mode an element is recorded in a trial, for what the hamper can take (R160, R323, R356). -/
def vchecks (s : State) (m : VMMod) (w : Nat) (a : Nat → Word) (v : Nat → Nat) : List Nat → Option Eff
  | [] => none
  | i :: rest =>
    match s.place m.space m.sk (a i) (w / 8) (w / 8) with
    | .bad cause => some (.trap s cause (a i) 0)
    | .tcm _ | .scr _ => vchecks s m w a v rest
    | .glob e coll => match s.xlate .store .plain e (w / 8) true (a i) with
      | .no eff => some eff
      | .ok q s1 =>
        if coll && s1.me.collecting then
          (match s1.collect [storeEntry 0 e.toNat (bytesOf (w / 8) (v i))] (a i) with
            | .no eff => some eff
            | .ok _ s2 => vchecks s2 m w a v rest)
        else if s1.mixClash q.1 (w / 8) q.2 then some (.trap s1 Cause.mixedSize (a i) 0)
        else vchecks s1 m w a v rest

/-- A vector store: no element is written or recorded unless every active element passes every check (R356, R370). -/
def vstore (rule : VAddr) (d b c : Reg) (m : VMMod) (imm : Word) (s : State) : Out :=
  let h := s.me.sh
  let w := h.sew
  let k := s.me.kr m.mask
  let a := fun i => vaddr s rule (ea (s.x b) imm) c w i
  guarded s (vcheck s (h.badMem d c m rule false)
    (match vchecks s m w a (fun i => s.me.elem d w i) (h.active k) with
      | some e => e.rebase s
      | none => (match vstores s m w a (fun i => s.me.elem d w i) (h.active k) with
        | .ok _ s1 => .next s1
        | .no e => e.rebase s)))

/-- vle (R355). -/
def execVle (d b : Reg) (m : VMMod) (imm : Word) (s : State) : Out := vload .unit d b 0 m imm s

/-- vlse (R355). -/
def execVlse (d b c : Reg) (m : VMMod) (imm : Word) (s : State) : Out := vload .stride d b c m imm s

/-- vlxe (R355). -/
def execVlxe (d b c : Reg) (m : VMMod) (imm : Word) (s : State) : Out := vload .index d b c m imm s

/-- vlff (R358). -/
def execVlff (d b : Reg) (m : VMMod) (imm : Word) (s : State) : Out := vloadFirst d b m imm s

/-- vlce (R355). -/
def execVlce (d b : Reg) (m : VMMod) (imm : Word) (s : State) : Out := vload .column d b 0 m imm s

/-- vse (R355). -/
def execVse (d b : Reg) (m : VMMod) (imm : Word) (s : State) : Out := vstore .unit d b 0 m imm s

/-- vsse (R355). -/
def execVsse (d b c : Reg) (m : VMMod) (imm : Word) (s : State) : Out := vstore .stride d b c m imm s

/-- vsxe (R355). -/
def execVsxe (d b c : Reg) (m : VMMod) (imm : Word) (s : State) : Out := vstore .index d b c m imm s

/-- vsce (R355). -/
def execVsce (d b : Reg) (m : VMMod) (imm : Word) (s : State) : Out := vstore .column d b 0 m imm s

end Sys2Proof.Machine
end

