-- ==== Sys2Proof/Machine/Dispatch.lean ====
section
/-! DEFINITION. The dispatch: one arm per instruction and device event. -/

namespace Sys2Proof.Machine

/-- The meaning of one instruction or event. -/
def exec (i : Instr) (s : State) : Host.Outcome State Fault Refusal :=
  match i with
  | .add d s1 s2 => Sys2Proof.Machine.execAdd d s1 s2 s
  | .sub d s1 s2 => Sys2Proof.Machine.execSub d s1 s2 s
  | .and d s1 s2 => Sys2Proof.Machine.execAnd d s1 s2 s
  | .or d s1 s2 => Sys2Proof.Machine.execOr d s1 s2 s
  | .xor d s1 s2 => Sys2Proof.Machine.execXor d s1 s2 s
  | .sll d s1 s2 => Sys2Proof.Machine.execSll d s1 s2 s
  | .srl d s1 s2 => Sys2Proof.Machine.execSrl d s1 s2 s
  | .sra d s1 s2 => Sys2Proof.Machine.execSra d s1 s2 s
  | .mul d s1 s2 => Sys2Proof.Machine.execMul d s1 s2 s
  | .mulh d s1 s2 => Sys2Proof.Machine.execMulh d s1 s2 s
  | .div d s1 s2 => Sys2Proof.Machine.execDiv d s1 s2 s
  | .rem d s1 s2 => Sys2Proof.Machine.execRem d s1 s2 s
  | .min d s1 s2 => Sys2Proof.Machine.execMin d s1 s2 s
  | .max d s1 s2 => Sys2Proof.Machine.execMax d s1 s2 s
  | .slt d s1 s2 => Sys2Proof.Machine.execSlt d s1 s2 s
  | .sextB d srcReg => Sys2Proof.Machine.execSextB d srcReg s
  | .sextH d srcReg => Sys2Proof.Machine.execSextH d srcReg s
  | .sextW d srcReg => Sys2Proof.Machine.execSextW d srcReg s
  | .zextB d srcReg => Sys2Proof.Machine.execZextB d srcReg s
  | .zextH d srcReg => Sys2Proof.Machine.execZextH d srcReg s
  | .zextW d srcReg => Sys2Proof.Machine.execZextW d srcReg s
  | .clz d srcReg => Sys2Proof.Machine.execClz d srcReg s
  | .ctz d srcReg => Sys2Proof.Machine.execCtz d srcReg s
  | .popc d srcReg => Sys2Proof.Machine.execPopc d srcReg s
  | .addi d srcReg imm => Sys2Proof.Machine.execAddi d srcReg imm s
  | .andi d srcReg imm => Sys2Proof.Machine.execAndi d srcReg imm s
  | .ori d srcReg imm => Sys2Proof.Machine.execOri d srcReg imm s
  | .xori d srcReg imm => Sys2Proof.Machine.execXori d srcReg imm s
  | .slli d srcReg sh => Sys2Proof.Machine.execSlli d srcReg sh s
  | .srli d srcReg sh => Sys2Proof.Machine.execSrli d srcReg sh s
  | .srai d srcReg sh => Sys2Proof.Machine.execSrai d srcReg sh s
  | .slti d srcReg imm => Sys2Proof.Machine.execSlti d srcReg imm s
  | .cmpiEq a imm => Sys2Proof.Machine.execCmpiEq a imm s
  | .cmpiLt a imm => Sys2Proof.Machine.execCmpiLt a imm s
  | .cmpEq a b => Sys2Proof.Machine.execCmpEq a b s
  | .cmpNe a b => Sys2Proof.Machine.execCmpNe a b s
  | .cmpLt a b => Sys2Proof.Machine.execCmpLt a b s
  | .cmpGe a b => Sys2Proof.Machine.execCmpGe a b s
  | .cmpLtN a b => Sys2Proof.Machine.execCmpLtN a b s
  | .cmpGeN a b => Sys2Proof.Machine.execCmpGeN a b s
  | .beq a b off => Sys2Proof.Machine.execBeq a b off s
  | .bne a b off => Sys2Proof.Machine.execBne a b off s
  | .blt a b off => Sys2Proof.Machine.execBlt a b off s
  | .bge a b off => Sys2Proof.Machine.execBge a b off s
  | .bltN a b off => Sys2Proof.Machine.execBltN a b off s
  | .bgeN a b off => Sys2Proof.Machine.execBgeN a b off s
  | .jal link off => Sys2Proof.Machine.execJal link off s
  | .call off => Sys2Proof.Machine.execCall off s
  | .callC off => Sys2Proof.Machine.execCallC off s
  | .jalr link b off => Sys2Proof.Machine.execJalr link b off s
  | .ret => Sys2Proof.Machine.execRet s
  | .pand => Sys2Proof.Machine.execPand s
  | .por => Sys2Proof.Machine.execPor s
  | .pnot => Sys2Proof.Machine.execPnot s
  | .pend => Sys2Proof.Machine.execPend s
  | .fadd d s1 s2 m => Sys2Proof.Machine.execFadd d s1 s2 m s
  | .fsub d s1 s2 m => Sys2Proof.Machine.execFsub d s1 s2 m s
  | .fmul d s1 s2 m => Sys2Proof.Machine.execFmul d s1 s2 m s
  | .fdiv d s1 s2 m => Sys2Proof.Machine.execFdiv d s1 s2 m s
  | .fmadd d s1 s2 m => Sys2Proof.Machine.execFmadd d s1 s2 m s
  | .fmin d s1 s2 ty => Sys2Proof.Machine.execFmin d s1 s2 ty s
  | .fmax d s1 s2 ty => Sys2Proof.Machine.execFmax d s1 s2 ty s
  | .fsqrt d srcReg m => Sys2Proof.Machine.execFsqrt d srcReg m s
  | .fcvt d srcReg dst src rm => Sys2Proof.Machine.execFcvt d srcReg dst src rm s
  | .fcmpEq a b ty => Sys2Proof.Machine.execFcmpEq a b ty s
  | .fcmpLt a b ty => Sys2Proof.Machine.execFcmpLt a b ty s
  | .fcmpLe a b ty => Sys2Proof.Machine.execFcmpLe a b ty s
  | .rdsr d num => Sys2Proof.Machine.execRdsr d num s
  | .wrsr srcReg num => Sys2Proof.Machine.execWrsr srcReg num s
  | .hint e => Sys2Proof.Machine.execHint e s
  | .setvl d srcReg shape => Sys2Proof.Machine.execSetvl d srcReg shape s
  | .vle d b m imm => Sys2Proof.Machine.execVle d b m imm s
  | .vlse d b c m imm => Sys2Proof.Machine.execVlse d b c m imm s
  | .vlxe d b c m imm => Sys2Proof.Machine.execVlxe d b c m imm s
  | .vlff d b m imm => Sys2Proof.Machine.execVlff d b m imm s
  | .vlce d b m imm => Sys2Proof.Machine.execVlce d b m imm s
  | .vse d b m imm => Sys2Proof.Machine.execVse d b m imm s
  | .vsse d b c m imm => Sys2Proof.Machine.execVsse d b c m imm s
  | .vsxe d b c m imm => Sys2Proof.Machine.execVsxe d b c m imm s
  | .vsce d b m imm => Sys2Proof.Machine.execVsce d b m imm s
  | .vadd d s1 s2 m => Sys2Proof.Machine.execVadd d s1 s2 m s
  | .vsub d s1 s2 m => Sys2Proof.Machine.execVsub d s1 s2 m s
  | .vmul d s1 s2 m => Sys2Proof.Machine.execVmul d s1 s2 m s
  | .vmin d s1 s2 m => Sys2Proof.Machine.execVmin d s1 s2 m s
  | .vmax d s1 s2 m => Sys2Proof.Machine.execVmax d s1 s2 m s
  | .vmulh d s1 s2 m => Sys2Proof.Machine.execVmulh d s1 s2 m s
  | .vdiv d s1 s2 m => Sys2Proof.Machine.execVdiv d s1 s2 m s
  | .vrem d s1 s2 m => Sys2Proof.Machine.execVrem d s1 s2 m s
  | .vand d s1 s2 m => Sys2Proof.Machine.execVand d s1 s2 m s
  | .vor d s1 s2 m => Sys2Proof.Machine.execVor d s1 s2 m s
  | .vxor d s1 s2 m => Sys2Proof.Machine.execVxor d s1 s2 m s
  | .vsll d s1 s2 m => Sys2Proof.Machine.execVsll d s1 s2 m s
  | .vsrl d s1 s2 m => Sys2Proof.Machine.execVsrl d s1 s2 m s
  | .vsra d s1 s2 m => Sys2Proof.Machine.execVsra d s1 s2 m s
  | .vfma d s1 s2 m => Sys2Proof.Machine.execVfma d s1 s2 m s
  | .vfdiv d s1 s2 m => Sys2Proof.Machine.execVfdiv d s1 s2 m s
  | .vsqrt d srcReg m => Sys2Proof.Machine.execVsqrt d srcReg m s
  | .vwadd d b c m => Sys2Proof.Machine.execVwadd d b c m s
  | .vwmul d b c m => Sys2Proof.Machine.execVwmul d b c m s
  | .vnarrow d srcReg ty mask sat => Sys2Proof.Machine.execVnarrow d srcReg ty mask sat s
  | .vcvt d srcReg dst src sat => Sys2Proof.Machine.execVcvt d srcReg dst src sat s
  | .vpack d srcReg bt => Sys2Proof.Machine.execVpack d srcReg bt s
  | .vunpack d srcReg bt => Sys2Proof.Machine.execVunpack d srcReg bt s
  | .vredsum d b c m => Sys2Proof.Machine.execVredsum d b c m s
  | .vredmin d b c m => Sys2Proof.Machine.execVredmin d b c m s
  | .vredmax d b c m => Sys2Proof.Machine.execVredmax d b c m s
  | .vmseq k b c m => Sys2Proof.Machine.execVmseq k b c m s
  | .vmsne k b c m => Sys2Proof.Machine.execVmsne k b c m s
  | .vmslt k b c m => Sys2Proof.Machine.execVmslt k b c m s
  | .vmsle k b c m => Sys2Proof.Machine.execVmsle k b c m s
  | .vmand k kb kc => Sys2Proof.Machine.execVmand k kb kc s
  | .vmor k kb kc => Sys2Proof.Machine.execVmor k kb kc s
  | .vmnot k kb => Sys2Proof.Machine.execVmnot k kb s
  | .vpopc d kb => Sys2Proof.Machine.execVpopc d kb s
  | .vfirst d kb => Sys2Proof.Machine.execVfirst d kb s
  | .vmerge d b c m => Sys2Proof.Machine.execVmerge d b c m s
  | .vslideup d b c m => Sys2Proof.Machine.execVslideup d b c m s
  | .vslidedown d b c m => Sys2Proof.Machine.execVslidedown d b c m s
  | .vrgather d b c m => Sys2Proof.Machine.execVrgather d b c m s
  | .vcompress d b m => Sys2Proof.Machine.execVcompress d b m s
  | .vmv d srcReg ty mask form => Sys2Proof.Machine.execVmv d srcReg ty mask form s
  | .cbCfg h b => Sys2Proof.Machine.execCbCfg h b s
  | .cbAdvP h n => Sys2Proof.Machine.execCbAdvP h n s
  | .cbAdvC h n => Sys2Proof.Machine.execCbAdvC h n s
  | .mxCfg a zero => Sys2Proof.Machine.execMxCfg a zero s
  | .mxZero cols => Sys2Proof.Machine.execMxZero cols s
  | .mma a b asrc fmt => Sys2Proof.Machine.execMma a b asrc fmt s
  | .mmaRing a b asrc fmt => Sys2Proof.Machine.execMmaRing a b asrc fmt s
  | .mmaLx a b asrc fmt => Sys2Proof.Machine.execMmaLx a b asrc fmt s
  | .mmaLa a b asrc fmt => Sys2Proof.Machine.execMmaLa a b asrc fmt s
  | .mxDrain a b imm fmt space zero cols => Sys2Proof.Machine.execMxDrain a b imm fmt space zero cols s
  | .ltLoad a b => Sys2Proof.Machine.execLtLoad a b s
  | .ltRot a => Sys2Proof.Machine.execLtRot a s
  | .cp a => Sys2Proof.Machine.execCp a s
  | .ga a => Sys2Proof.Machine.execGa a s
  | .sc a => Sys2Proof.Machine.execSc a s
  | .engStat a => Sys2Proof.Machine.execEngStat a s
  | .ld a b size m imm => Sys2Proof.Machine.execLd a b size m imm s
  | .st a b size m imm => Sys2Proof.Machine.execSt a b size m imm s
  | .ldF a b imm => Sys2Proof.Machine.execLdF a b imm s
  | .ldFTake a b imm => Sys2Proof.Machine.execLdFTake a b imm s
  | .stF a b imm => Sys2Proof.Machine.execStF a b imm s
  | .amoAdd a b c m => Sys2Proof.Machine.execAmoAdd a b c m s
  | .amoSwap a b c m => Sys2Proof.Machine.execAmoSwap a b c m s
  | .amoAnd a b c m => Sys2Proof.Machine.execAmoAnd a b c m s
  | .amoOr a b c m => Sys2Proof.Machine.execAmoOr a b c m s
  | .amoXor a b c m => Sys2Proof.Machine.execAmoXor a b c m s
  | .amoMin a b c m => Sys2Proof.Machine.execAmoMin a b c m s
  | .amoMax a b c m => Sys2Proof.Machine.execAmoMax a b c m s
  | .amoCas a b c m => Sys2Proof.Machine.execAmoCas a b c m s
  | .amoMinN a b c m => Sys2Proof.Machine.execAmoMinN a b c m s
  | .amoMaxN a b c m => Sys2Proof.Machine.execAmoMaxN a b c m s
  | .redAdd a b wide space => Sys2Proof.Machine.execRedAdd a b wide space s
  | .redAddF32 a b space => Sys2Proof.Machine.execRedAddF32 a b space s
  | .redMin a b wide space => Sys2Proof.Machine.execRedMin a b wide space s
  | .redMax a b wide space => Sys2Proof.Machine.execRedMax a b wide space s
  | .redMinN a b wide space => Sys2Proof.Machine.execRedMinN a b wide space s
  | .redMaxN a b wide space => Sys2Proof.Machine.execRedMaxN a b wide space s
  | .redMinF32 a b space => Sys2Proof.Machine.execRedMinF32 a b space s
  | .redMaxF32 a b space => Sys2Proof.Machine.execRedMaxF32 a b space s
  | .fence scope => Sys2Proof.Machine.execFence scope s
  | .fenceX p q scope => Sys2Proof.Machine.execFenceX p q scope s
  | .dcFlush a b => Sys2Proof.Machine.execDcFlush a b s
  | .dcDiscard a b => Sys2Proof.Machine.execDcDiscard a b s
  | .icsync => Sys2Proof.Machine.execIcsync s
  | .wait a b c all n imm => Sys2Proof.Machine.execWait a b c all n imm s
  | .barArrive a b n => Sys2Proof.Machine.execBarArrive a b n s
  | .barWait a b c => Sys2Proof.Machine.execBarWait a b c s
  | .gbSync a k => Sys2Proof.Machine.execGbSync a k s
  | .msgOpen a => Sys2Proof.Machine.execMsgOpen a s
  | .msgPut a => Sys2Proof.Machine.execMsgPut a s
  | .msgEnd => Sys2Proof.Machine.execMsgEnd s
  | .recv a b => Sys2Proof.Machine.execRecv a b s
  | .tkSpawn a => Sys2Proof.Machine.execTkSpawn a s
  | .tkDep a b => Sys2Proof.Machine.execTkDep a b s
  | .tkYield => Sys2Proof.Machine.execTkYield s
  | .tkEnd => Sys2Proof.Machine.execTkEnd s
  | .qlOpen a b => Sys2Proof.Machine.execQlOpen a b s
  | .qlClose a => Sys2Proof.Machine.execQlClose a s
  | .qlEval op a b c scr => Sys2Proof.Machine.execQlEval op a b c scr s
  | .qlFold op a b c scr => Sys2Proof.Machine.execQlFold op a b c scr s
  | .qlSeek op a b c scr => Sys2Proof.Machine.execQlSeek op a b c scr s
  | .qlRec a b c => Sys2Proof.Machine.execQlRec a b c s
  | .qlGet a b c scr => Sys2Proof.Machine.execQlGet a b c scr s
  | .qlSplit a b c scr => Sys2Proof.Machine.execQlSplit a b c scr s
  | .qlApp a b c => Sys2Proof.Machine.execQlApp a b c s
  | .qlPut a b c => Sys2Proof.Machine.execQlPut a b c s
  | .qlPub a b renew => Sys2Proof.Machine.execQlPub a b renew s
  | .hlCat a b => Sys2Proof.Machine.execHlCat a b s
  | .hlFilt a b c kmask => Sys2Proof.Machine.execHlFilt a b c kmask s
  | .hlRebase a b => Sys2Proof.Machine.execHlRebase a b s
  | .hlApply a => Sys2Proof.Machine.execHlApply a s
  | .hlDrop a => Sys2Proof.Machine.execHlDrop a s
  | .hlLen a b => Sys2Proof.Machine.execHlLen a b s
  | .pgPost a b c => Sys2Proof.Machine.execPgPost a b c s
  | .pgReplay a => Sys2Proof.Machine.execPgReplay a s
  | .ecall => Sys2Proof.Machine.execEcall s
  | .ebreak => Sys2Proof.Machine.execEbreak s
  | .trap e => Sys2Proof.Machine.execTrap e s
  | .unassignedEncoding chain addr => Sys2Proof.Machine.execUnassignedEncoding chain addr s
  | .trapNoticeRetry slot => Sys2Proof.Machine.execTrapNoticeRetry slot s
  | .faultRecordRetry src => Sys2Proof.Machine.execFaultRecordRetry src s
  | .ctxCreate => Sys2Proof.Machine.execCtxCreate s
  | .ctxCommit => Sys2Proof.Machine.execCtxCommit s
  | .ctxSuspend => Sys2Proof.Machine.execCtxSuspend s
  | .ctxResume => Sys2Proof.Machine.execCtxResume s
  | .ctxTeardown => Sys2Proof.Machine.execCtxTeardown s
  | .ctxFault => Sys2Proof.Machine.execCtxFault s
  | .ctxDeviceFault ctx => Sys2Proof.Machine.execCtxDeviceFault ctx s
  | .ctxStopComplete ctx => Sys2Proof.Machine.execCtxStopComplete ctx s
  | .ctxDrained ctx => Sys2Proof.Machine.execCtxDrained ctx s
  | .grpLaunch => Sys2Proof.Machine.execGrpLaunch s
  | .groupRelease grp => Sys2Proof.Machine.execGroupRelease grp s
  | .groupDrained grp => Sys2Proof.Machine.execGroupDrained grp s
  | .groupBrokenFreed grp => Sys2Proof.Machine.execGroupBrokenFreed grp s
  | .enqueueArrive grove => Sys2Proof.Machine.execEnqueueArrive grove s
  | .enqueueAck grove => Sys2Proof.Machine.execEnqueueAck grove s
  | .replayBackoffExpiry grove => Sys2Proof.Machine.execReplayBackoffExpiry grove s
  | .taskDispatch slot => Sys2Proof.Machine.execTaskDispatch slot s
  | .takeServe slot stand => Sys2Proof.Machine.execTakeServe slot stand s
  | .takeReply slot => Sys2Proof.Machine.execTakeReply slot s
  | .takeReprobe slot => Sys2Proof.Machine.execTakeReprobe slot s
  | .taskCommit task => Sys2Proof.Machine.execTaskCommit task s
  | .commitLockAcquire task => Sys2Proof.Machine.execCommitLockAcquire task s
  | .timedCommitStart task => Sys2Proof.Machine.execTimedCommitStart task s
  | .waitSatisfiedNotice grove => Sys2Proof.Machine.execWaitSatisfiedNotice grove s
  | .monitorPoll grove => Sys2Proof.Machine.execMonitorPoll grove s
  | .waitTimeout slot => Sys2Proof.Machine.execWaitTimeout slot s
  | .waitHoldExpiry slot => Sys2Proof.Machine.execWaitHoldExpiry slot s
  | .parkEntryFree grove => Sys2Proof.Machine.execParkEntryFree grove s
  | .barrierRegisterRetry slot => Sys2Proof.Machine.execBarrierRegisterRetry slot s
  | .msgDeliver grove => Sys2Proof.Machine.execMsgDeliver grove s
  | .deferralExpiry slot => Sys2Proof.Machine.execDeferralExpiry slot s
  | .futureCancel slot => Sys2Proof.Machine.execFutureCancel slot s
  | .storeComplete slot idx => Sys2Proof.Machine.execStoreComplete slot idx s
  | .llcFill pa => Sys2Proof.Machine.execLlcFill pa s
  | .llcWriteback pa => Sys2Proof.Machine.execLlcWriteback pa s
  | .updateOnlyRecall pa first => Sys2Proof.Machine.execUpdateOnlyRecall pa first s
  | .updateOnlyEvict core pa => Sys2Proof.Machine.execUpdateOnlyEvict core pa s
  | .tlbMissWalk core ctx va fetch => Sys2Proof.Machine.execTlbMissWalk core ctx va fetch s
  | .softErrorCorrected grove => Sys2Proof.Machine.execSoftErrorCorrected grove s
  | .uncorrectableError unit => Sys2Proof.Machine.execUncorrectableError unit s
  | .engineCommandStart core gather => Sys2Proof.Machine.execEngineCommandStart core gather s
  | .engineTranslationFault core gather => Sys2Proof.Machine.execEngineTranslationFault core gather s
  | .engineCommandFail core gather => Sys2Proof.Machine.execEngineCommandFail core gather s
  | .engineCommandComplete core gather => Sys2Proof.Machine.execEngineCommandComplete core gather s
  | .mmaComplete core => Sys2Proof.Machine.execMmaComplete core s
  | .ringPass core => Sys2Proof.Machine.execRingPass core s
  | .subarrayWake grove => Sys2Proof.Machine.execSubarrayWake grove s
  | .subarrayPowerGate grove => Sys2Proof.Machine.execSubarrayPowerGate grove s
  | .apertureRead pa n => Sys2Proof.Machine.execApertureRead pa n s
  | .apertureWrite pa => Sys2Proof.Machine.execApertureWrite pa s
  | .stopTakeEffect slot => Sys2Proof.Machine.execStopTakeEffect slot s
  | .frameSaveComplete slot => Sys2Proof.Machine.execFrameSaveComplete slot s
  | .slResume => Sys2Proof.Machine.execSlResume s
  | .slSkip => Sys2Proof.Machine.execSlSkip s
  | .slAbandon => Sys2Proof.Machine.execSlAbandon s
  | .watchdogExpiry slot => Sys2Proof.Machine.execWatchdogExpiry slot s
  | .hangPing grove answered => Sys2Proof.Machine.execHangPing grove answered s
  | .lkEnable link => Sys2Proof.Machine.execLkEnable link s
  | .lkRetrain link => Sys2Proof.Machine.execLkRetrain link s
  | .lkFence link => Sys2Proof.Machine.execLkFence link s
  | .lkUnfence link => Sys2Proof.Machine.execLkUnfence link s
  | .linkTrainedFull link rate => Sys2Proof.Machine.execLinkTrainedFull link rate s
  | .linkTrainedReduced link width rate => Sys2Proof.Machine.execLinkTrainedReduced link width rate s
  | .linkTrainingFail link => Sys2Proof.Machine.execLinkTrainingFail link s
  | .linkTrainingTimeout link => Sys2Proof.Machine.execLinkTrainingTimeout link s
  | .linkErrorThreshold link => Sys2Proof.Machine.execLinkErrorThreshold link s
  | .flitCrcReplay link => Sys2Proof.Machine.execFlitCrcReplay link s
  | .gqEnable => Sys2Proof.Machine.execGqEnable s
  | .gqDisable => Sys2Proof.Machine.execGqDisable s
  | .guestReadReport q read => Sys2Proof.Machine.execGuestReadReport q read s
  | .guestPacketComplete q idx status => Sys2Proof.Machine.execGuestPacketComplete q idx status s
  | .guestTranslationRequest q va acc => Sys2Proof.Machine.execGuestTranslationRequest q va acc s
  | .guestFaultRecord q idx va acc progress => Sys2Proof.Machine.execGuestFaultRecord q idx va acc progress s
  | .guestCoherentAccess q va req => Sys2Proof.Machine.execGuestCoherentAccess q va req s
  | .guestInvalidationAck => Sys2Proof.Machine.execGuestInvalidationAck s
  | .guestQuiesced q => Sys2Proof.Machine.execGuestQuiesced q s
  | .guestBoundExpiry => Sys2Proof.Machine.execGuestBoundExpiry s
  | .attest => Sys2Proof.Machine.execAttest s
  | .mailboxFwOp => Sys2Proof.Machine.execMailboxFwOp s
  | .mailboxComplete status => Sys2Proof.Machine.execMailboxComplete status s
  | .hostEventWordWrite v => Sys2Proof.Machine.execHostEventWordWrite v s
  | .hostBar0Write off size v => Sys2Proof.Machine.execHostBar0Write off size v s
  | .hostMemoryAccess pa size wr => Sys2Proof.Machine.execHostMemoryAccess pa size wr s
  | .hwWinWrite n limit v => Sys2Proof.Machine.execHwWinWrite n limit v s
  | .coldReset => Sys2Proof.Machine.execColdReset s
  | .powerSample watts => Sys2Proof.Machine.execPowerSample watts s
  | .clampStep => Sys2Proof.Machine.execClampStep s
  | .rngStateWrite v => Sys2Proof.Machine.execRngStateWrite v s
  | .fpCtlWrite v => Sys2Proof.Machine.execFpCtlWrite v s
  | .prStkWrite v => Sys2Proof.Machine.execPrStkWrite v s
  | .skewCfgWrite v => Sys2Proof.Machine.execSkewCfgWrite v s
  | .rqRecipeWrite n v => Sys2Proof.Machine.execRqRecipeWrite n v s
  | .rqBackoffWrite v => Sys2Proof.Machine.execRqBackoffWrite v s
  | .memDbgWrite v => Sys2Proof.Machine.execMemDbgWrite v s
  | .futCtlClear v => Sys2Proof.Machine.execFutCtlClear v s
  | .errStatClear v => Sys2Proof.Machine.execErrStatClear v s
  | .gbStatClear v => Sys2Proof.Machine.execGbStatClear v s
  | .wdCtlWrite v => Sys2Proof.Machine.execWdCtlWrite v s
  | .gsCtlWrite v => Sys2Proof.Machine.execGsCtlWrite v s
  | .pwLimWrite v => Sys2Proof.Machine.execPwLimWrite v s
  | .rtCfgWrite v => Sys2Proof.Machine.execRtCfgWrite v s
  | .fwWallWrite v => Sys2Proof.Machine.execFwWallWrite v s
  | .trRingWrite v => Sys2Proof.Machine.execTrRingWrite v s
  | .firmwareFence grove => Sys2Proof.Machine.execFirmwareFence grove s
  | .spareColumnRemap row col => Sys2Proof.Machine.execSpareColumnRemap row col s
  | .peerRouteReport grp ok => Sys2Proof.Machine.execPeerRouteReport grp ok s

end Sys2Proof.Machine
end

