-- ==== Sys2Proof/Machine/Pending.lean ====
section
/-! DEFINITION. The passing of a reference tick, and the device item that is served when no slot can issue (log 1). -/

namespace Sys2Proof.Machine

/-- Slots that waited for something try again. -/
def State.unhold (s : State) : State := { s with slots := s.slots.map fun (q : Nat × Slot) => (q.1, { q.2 with held := false }) }

/-- The power of a tick that no event has measured is free (R255). -/
def State.tickPower (s : State) : State :=
  if s.boot == .up && decide (s.pwAt ≤ s.tick.toNat) then
    let (n, s1) := s.freeIndex (2 ^ 16)
    s1.sample n
  else s

/-- Links whose replays of the tick reach the threshold train again (R217). -/
def State.tickLinks (s : State) : State :=
  (List.range 14).foldl (fun st l => if (st.link l).works && decide (16 ≤ (st.link l).burst) then st.linkTrain l else st) s

/-- Every running engine moves one chunk. -/
def State.tickEngines (s : State) : State :=
  (s.cores.map (·.1)).foldl (fun st c => (st.engTick c false).engTick c true) s

/-- One tick of the reference clock (R4, R319): what waited tries again, and the device's own writes, ORs, closes and reads of a ring that waited for a lock or a link are made where they can be (R139, R214, R223). -/
def State.tickOnce (s : State) : State :=
  let s1 := s.flushLate.orsOut.owedOut.reportsOut.unhold.tickPower.tickLinks.tickEngines
  { s1 with tick := s1.tick + 1 }.clamp

/-! ### Items -/

/-- What an item may do to the state. -/
abbrev Deed := State → Out

/-- The slots of a stand. -/
def State.slotsOfStand (s : State) (n : Nat) : List Nat :=
  (List.range 16).flatMap fun i => span (s.physGrove (n % 8 * 4 + i % 4) (n / 8 * 4 + i / 4) * 32) 32

/-- A slot could be given a task or begin a probe. -/
def State.freeFor (s : State) (k : Nat) : Bool := s.idleSlot k && (s.slot k).take.isNone

/-- The core that a launch record was built for; none for any other task (R111). -/
def State.builtFor (s : State) (key : Nat) : Option Nat :=
  match s.tasks.find key with
  | none => none
  | some t => match s.groups.find t.grp with
    | none => none
    | some g => (g.ownCores.find? fun q => g.desc + 128 * (q.1 + 1) == t.va).map fun q =>
      s.physGrove (g.gx0 % 32 + q.2.1) (g.gy0 % 32 + q.2.2.1) * 8 + q.2.2.2

/-- Dispatches for the stands that hold entries. Which of its idle slots takes an entry R97 leaves open: a slot of the core that a launch record was built for comes first, so that each such core runs its own (R418), then the lowest (log 37). -/
def State.standItems (s : State) : List Deed :=
  s.stands.flatMap fun (q : Nat × Stand) =>
    if q.2.queue.isEmpty then []
    else
      let picks := (s.slotsOfStand q.1).filterMap fun k => if s.freeFor k then (s.choose k q.1).map fun e => (k, e.task) else none
      ((picks.filter fun p => s.builtFor p.2 == some (coreOf p.1)) ++ picks).map (·.1) |>.take 1 |>.map execTaskDispatch

/-- The slots that probe the stands that hold entries, one of each neighbour stand. Every one sends its requests before any is served (R98). -/
def State.probeItems (s : State) : List Deed :=
  s.stands.flatMap fun (q : Nat × Stand) =>
    if q.2.queue.isEmpty then []
    else (neighbours q.1).flatMap fun m => (((s.slotsOfStand m).filter fun k =>
      s.freeFor k && decide ((s.slot k).probeAt ≤ s.tick.toNat) && (s.choose k m).isNone && (s.offer k q.1).isSome).take 1).map execTakeReprobe

/-- The items of a slot. -/
def slotItems (k : Nat) : List Deed :=
  [execStoreComplete k 0, execStopTakeEffect k, execFrameSaveComplete k, execDeferralExpiry k, execWaitTimeout k,
   execBarrierRegisterRetry k, execWaitHoldExpiry k, execTrapNoticeRetry k, execFaultRecordRetry k, execWatchdogExpiry k]

/-- The replies that a probing slot still waits for, and its choice; requests are served in ascending number of the requester's stand (R98). -/
def State.takeItems (s : State) : List Deed :=
  (sortBy (fun (q : Nat × Slot) => (s.standOfSlot q.1).getD 64) (s.slots.filter fun (q : Nat × Slot) => q.2.take.isSome)).flatMap fun (q : Nat × Slot) =>
    (match s.standOfSlot q.1 with
      | some n => (neighbours n).map fun m => execTakeServe q.1 m
      | none => []) ++ [execTakeReply q.1]

/-- The items of a grove: what it sends, its waits, and the wake of its sub-arrays where an operation has asked for them (R21). -/
def State.groveItems (s : State) (g : Nat) : List Deed :=
  [execEnqueueArrive g, execEnqueueAck g, execReplayBackoffExpiry g, execMsgDeliver g, execWaitSatisfiedNotice g, execMonitorPoll g,
   execParkEntryFree g, execBarrierRegisterRetry (g * 32)] ++ (if (s.grove g).waking then [execSubarrayWake g] else [])

/-- The groves in the order in which a queue takes what they send in one clk (R94, log 87). -/
def State.grovesInOrder (s : State) : List Nat := sortBy s.groveRank (s.groves.map (·.1))

/-- The pings that are due: a grove answers them, unless the agenda says first that it does not (R246, log 82). -/
def State.pingItems (s : State) : List Deed := ((List.range 1088).filter s.pingDue).map fun g => execHangPing g true

/-- The items of a core's engines and matrix unit. -/
def coreItems (c : Nat) : List Deed :=
  [execEngineCommandStart c false, execEngineTranslationFault c false, execEngineCommandFail c false, execEngineCommandComplete c false,
   execEngineCommandStart c true, execEngineTranslationFault c true, execEngineCommandFail c true, execEngineCommandComplete c true,
   execMmaComplete c, execRingPass c]

/-- The items of commits; one whose enqueues find no room in the window waits for it. -/
def State.commitItems (s : State) : List Deed :=
  ((s.tasks.filter fun (q : Nat × Task) => q.2.st == .committing).map (·.1)).map execTimedCommitStart ++
  s.commits.flatMap fun c => [execCommitLockAcquire c.task] ++
    (match s.tasks.find c.task with
      | some t => if c.applied && !(s.unsent (groveOf t.slot) c.sends).isEmpty then [] else [execTaskCommit c.task]
      | none => [])

/-- The items of a context. -/
def ctxItems (c : Nat) : List Deed := [execCtxStopComplete c, execCtxDrained c]

/-- The items of a group. -/
def groupItems (g : Nat) : List Deed := [execGroupRelease g, execGroupDrained g, execGroupBrokenFreed g]

/-- The items of a link. -/
def linkItems (l : Nat) : List Deed := [execLkEnable l, execLkRetrain l, execLkFence l, execLkUnfence l, execLinkErrorThreshold l, execLinkTrainingTimeout l]

/-- The commands that wait for their server, and the bound of the guest. -/
def commandItems : List Deed :=
  [execCtxCreate, execCtxCommit, execCtxSuspend, execCtxResume, execCtxTeardown, execCtxFault, execGrpLaunch, execSlResume, execSlSkip,
   execSlAbandon, execGqEnable, execGqDisable, execGuestBoundExpiry, execAttest, execMailboxFwOp, execFaultRecordRetry (noCore * 4)]

/-- Everything that the device may do by itself, in the order in which it is looked at. -/
def State.items (s : State) : List Deed :=
  (s.slots.map (·.1)).flatMap slotItems ++ (s.cores.map (·.1)).flatMap coreItems ++ s.commitItems ++ s.grovesInOrder.flatMap s.groveItems ++
  commandItems ++ (s.ctxs.map (·.1)).flatMap ctxItems ++ (s.groups.map (·.1)).flatMap groupItems ++ (List.range 14).flatMap linkItems ++
  s.standItems ++ s.probeItems ++ s.takeItems ++ s.pingItems

/-- Two states are the same. -/
def State.same (a b : State) : Bool := decide (a = b)

/-- An item does something. -/
def progress (s : State) (f : Deed) : Bool :=
  match f s with
  | .next t => !State.same s t
  | .fault _ | .refused _ => true

/-- The device item that is served next: the first that changes the state. -/
def State.due (s : State) : Option Deed := s.items.find? (progress s)

end Sys2Proof.Machine
end

