-- ==== Sys2Proof/Machine/Schedule.lean ====
section
/-! DEFINITION. Whose turn it is: a slot's chain, a device event, or one reference tick (log 1). -/

namespace Sys2Proof.Machine

/-- The slot named by cur fetches, decodes and executes one chain, if it can issue. -/
def runSlot (s : State) : Out :=
  if s.canRun s.cur then
    match s.fetch with
    | .ok i s1 => exec i s1
    | .no e => finish e
  else .next s

/-- A device event from the agenda; an instruction of a slot is no event. -/
def runEvent (i : Instr) (s : State) : Out := if i.isEvent then exec i s else .next s

/-- One move that the agenda asks for. -/
def runMove (s : State) : Move → Out
  | .turn k => runSlot ({ s with cur := k }.modSlot k fun q => { q with held := false })
  | .event i => runEvent i s
  | .tick => .next s.tickOnce

/-- The slot that runs when the agenda is empty: the one named by cur if it can issue, else the first that can. -/
def State.nextSlot (s : State) : Option Nat :=
  if s.ready s.cur then some s.cur else (s.slots.map (·.1)).find? s.ready

/-- What happens when the agenda is empty: boot, a slot, the first device item that can go, or a tick. -/
def runIdle (s : State) : Out :=
  match s.boot with
  | .held => execColdReset s
  | .failed _ => .next s.tickOnce
  | .up =>
    match s.nextSlot with
    | some k => runSlot { s with cur := k }
    | none =>
      match s.unhold.due with
      | some f => f s.unhold
      | none => .next s.tickOnce

end Sys2Proof.Machine
end

