-- ==== Sys2Proof/Safety.lean ====
section
/-! DEFINITION. What counts as a safe state and a safe run: the canonical forms that every step keeps. -/

namespace Sys2Proof.Machine

/-- Every memory of the module is in canonical form. -/
def State.memsWf (s : State) : Bool :=
  Mem.wf s.mem && Mem.wf s.hostMem && Mem.wf s.flash && Mem.wf s.mbReq && Mem.wf s.mbResp &&
  s.cores.all (fun q => Mem.wf q.2.tcm) && s.groves.all (fun q => Mem.wf q.2.scratch)

/-- The fields of a slot that have a range hold a value of it: vl at most NMAX, depth at most 16 (R300, R348). -/
def Slot.wf (sl : Slot) : Bool := decide (sl.vl.toNat ≤ sl.sh.nmax) && decide (sl.prDepth.toNat ≤ 16)

/-- Every slot's fields are in range. -/
def State.slotsWf (s : State) : Bool := s.slots.all fun q => q.2.wf

/-- Where a byte of the module's memories lies. -/
inductive MemAt
  | device (a : Nat)
  | host (a : Nat)
  | tcm (core off : Nat)
  | scratch (grove off : Nat)
  deriving DecidableEq, Repr

/-- The byte there. -/
def State.byteAt (s : State) : MemAt → Byte
  | .device a => memByte s.mem a
  | .host a => memByte s.hostMem a
  | .tcm c off => memByte (s.core c).tcm off
  | .scratch g off => memByte (s.grove g).scratch off

/-- Every byte of the module's memories reads the same in two states. -/
def State.sameBytes (s t : State) : Prop := ∀ p, t.byteAt p = s.byteAt p

/-- The slot whose turn it is carries out a guarded instruction: its guard is true and no packet is open (R125, R298). -/
abbrev State.acts (s : State) : Prop := s.me.guard = true ∧ s.me.packet = none

/-- Nothing stands between a slot and n bytes of device memory: no lock and no write that waits for one, no update-only copy, no line held by the guest, no poison, no debug mode, no unordered access of another size (R129, R138, R139, R142, R231, R245); and n more dirty bytes set no bit of the dirty bitmap: there is none, or the slices have room (R20, R63, R214). -/
abbrev State.openAt (s : State) (p n : Nat) : Prop :=
  p + n ≤ 2 ^ 38 ∧ s.locked p n = false ∧ s.late = [] ∧ (∀ sec ∈ sectorsOf p n, s.updHolders sec = []) ∧ s.guest.held = [] ∧
  s.poisoned p n = false ∧ s.me.memMix = false ∧ s.unmixed s.cur p n = true ∧ (s.pgDirty = 0 ∨ s.dirty.length + n ≤ 512)

/-- Nor does a buffered store of the slot itself (R130). -/
abbrev State.quietAt (s : State) (p n : Nat) : Prop := s.openAt p n ∧ s.drainSecs s.cur (sectorsOf p n) = s

/-- Every earlier store of the slot has performed, and a release of it has none left to order (R132, R133, R138). -/
abbrev State.allOut (s : State) : Prop := s.drain s.cur = some s

/-- The slot records none of its stores and keeps no signature (R147, R154). -/
abbrev State.direct (s : State) : Prop := s.me.collecting = false ∧ s.me.classCT = false

/-- What a vector instruction that writes a group of n registers leaves: only those registers, the sticky flags, which it only sets, the generator and the pc change. -/
def State.vecFrame (s t : State) (d : Reg) (n : Nat) : Prop :=
  t = s.setSlot s.cur { s.me with v := t.me.v, fpCtl := t.me.fpCtl, rng := t.me.rng, pc := s.me.npc } ∧
  (∀ r : Reg, r.toNat < d.toNat ∨ d.toNat + n ≤ r.toNat → t.me.vr r = s.me.vr r) ∧
  s.me.fpCtl &&& t.me.fpCtl = s.me.fpCtl ∧ s.sameBytes t

/-- A run of some steps that neither faults nor is refused. -/
def safeRun : Nat → State → Bool
  | 0, _ => true
  | n + 1, s =>
    match step s with
    | .next s' => safeRun n s'
    | .fault _ => false
    | .refused _ => false

end Sys2Proof.Machine
end

