-- ==== Sys2Proof/Certificates/Slice0/Obligations.lean ====
section
/-! DEFINITION. The statements about the model, for the provers. -/

open Sys2Proof Sys2Proof.Machine

/-! ### Page 0: integers -/

/-- R303: what each register-to-register operation writes. -/
def Obligations.IntegerResults : Prop :=
  ∀ (s : State) (d a b : Reg), s.acts →
    exec (.add d a b) s = .next (s.setX d (s.x a + s.x b)).advance ∧
    exec (.sub d a b) s = .next (s.setX d (s.x a - s.x b)).advance ∧
    exec (.and d a b) s = .next (s.setX d (s.x a &&& s.x b)).advance ∧
    exec (.or d a b) s = .next (s.setX d (s.x a ||| s.x b)).advance ∧
    exec (.xor d a b) s = .next (s.setX d (s.x a ^^^ s.x b)).advance ∧
    exec (.sll d a b) s = .next (s.setX d (s.x a <<< (s.x b &&& 63))).advance ∧
    exec (.srl d a b) s = .next (s.setX d (s.x a >>> (s.x b &&& 63))).advance ∧
    exec (.sra d a b) s = .next (s.setX d (BitVec.ofInt 64 ((s.x a).toInt / 2 ^ ((s.x b).toNat % 64)))).advance ∧
    exec (.mul d a b) s = .next (s.setX d (s.x a * s.x b)).advance ∧
    exec (.mulh d a b) s = .next (s.setX d (((s.x a).signExtend 128 * (s.x b).signExtend 128).extractLsb' 64 64)).advance ∧
    exec (.div d a b) s = .next (s.setX d (if s.x b = 0 then -1 else (s.x a).sdiv (s.x b))).advance ∧
    exec (.rem d a b) s = .next (s.setX d (if s.x b = 0 then s.x a else (s.x a).srem (s.x b))).advance ∧
    exec (.min d a b) s = .next (s.setX d (if (s.x a).toInt ≤ (s.x b).toInt then s.x a else s.x b)).advance ∧
    exec (.max d a b) s = .next (s.setX d (if (s.x a).toInt ≤ (s.x b).toInt then s.x b else s.x a)).advance ∧
    exec (.slt d a b) s = .next (s.setX d (if (s.x a).toInt < (s.x b).toInt then 1 else 0)).advance

/-- R304, R305: the words of each unary operation and what it writes, a count named by what it counts; and what each immediate operation writes, the immediate already sign-extended by the decoder. -/
def Obligations.UnaryAndImmediateResults : Prop :=
  (∀ p ∈ ([(0x1800, .sextB), (0x1801, .sextH), (0x1802, .sextW), (0x1803, .zextB), (0x1804, .zextH), (0x1805, .zextW), (0x2000, .clz), (0x2001, .ctz),
      (0x2002, .popc)] : List (Half × (Reg → Reg → Instr))), ∀ d a : Reg,
    let base := p.1 ||| (d.setWidth 16 % 16) <<< 7 ||| (a.setWidth 16 % 16) <<< 3
    (d.toNat < 16 → a.toNat < 16 → decodeWords [base] = .instr (p.2 d a) 1) ∧
    decodeWords [0xFA00 ||| (d.setWidth 16 / 16) <<< 8 ||| (a.setWidth 16 / 16) <<< 7, base] = .instr (p.2 d a) 2 ∧
    ∀ c : Reg, c ≠ 0 → decodeWords [0xFA00 ||| (d.setWidth 16 / 16) <<< 8 ||| (a.setWidth 16 / 16) <<< 7 ||| c.setWidth 16 <<< 2, base] = .illegal 2) ∧
  (∀ r : BitVec 8, ∀ w ∈ [0x1806, 0x1807, 0x2003, 0x2004, 0x2005, 0x2006, 0x2007], decodeWords [w ||| r.setWidth 16 <<< 3] = .illegal 1) ∧
  ∀ (s : State) (d a : Reg) (imm : Word) (sh : BitVec 6), s.acts →
    exec (.sextB d a) s = .next (s.setX d (((s.x a).setWidth 8).signExtend 64)).advance ∧
    exec (.sextH d a) s = .next (s.setX d (((s.x a).setWidth 16).signExtend 64)).advance ∧
    exec (.sextW d a) s = .next (s.setX d (((s.x a).setWidth 32).signExtend 64)).advance ∧
    exec (.zextB d a) s = .next (s.setX d (s.x a &&& 0xFF)).advance ∧
    exec (.zextH d a) s = .next (s.setX d (s.x a &&& 0xFFFF)).advance ∧
    exec (.zextW d a) s = .next (s.setX d (s.x a &&& 0xFFFFFFFF)).advance ∧
    exec (.clz d a) s = .next (s.setX d (if s.x a = 0 then 64 else BitVec.ofNat 64 (63 - Nat.log2 (s.x a).toNat))).advance ∧
    (∃ n, n ≤ 64 ∧ exec (.ctz d a) s = .next (s.setX d (BitVec.ofNat 64 n)).advance ∧
      (∀ i, i < n → (s.x a).getLsbD i = false) ∧ (n < 64 → (s.x a).getLsbD n = true)) ∧
    exec (.popc d a) s = .next (s.setX d (BitVec.ofNat 64 ((List.range 64).countP fun i => (s.x a).getLsbD i))).advance ∧
    exec (.addi d a imm) s = .next (s.setX d (s.x a + imm)).advance ∧
    exec (.andi d a imm) s = .next (s.setX d (s.x a &&& imm)).advance ∧
    exec (.ori d a imm) s = .next (s.setX d (s.x a ||| imm)).advance ∧
    exec (.xori d a imm) s = .next (s.setX d (s.x a ^^^ imm)).advance ∧
    exec (.slti d a imm) s = .next (s.setX d (if (s.x a).toInt < imm.toInt then 1 else 0)).advance ∧
    exec (.slli d a sh) s = .next (s.setX d (s.x a <<< sh)).advance ∧
    exec (.srli d a sh) s = .next (s.setX d (s.x a >>> sh)).advance ∧
    exec (.srai d a sh) s = .next (s.setX d (BitVec.ofInt 64 ((s.x a).toInt / 2 ^ sh.toNat))).advance

/-- R297: a scalar register write changes its register and the pc, and a write to x0 changes the pc alone; every other register, unit and byte stays. -/
def Obligations.ScalarWriteFrame : Prop :=
  ∀ (s : State) (d : Reg) (v : Word),
    let t := (s.setX d v).advance
    t.x 0 = 0 ∧ (d ≠ 0 → t.x d = v) ∧ (∀ r, r ≠ d → t.x r = s.x r) ∧
    t = s.setSlot s.cur { s.me with x := t.me.x, pc := s.me.npc } ∧ s.sameBytes t ∧
    (d = 0 → t = s.setSlot s.cur { s.me with pc := s.me.npc })

/-- R301, R302: each compare pushes its condition whatever the guard was, and changes nothing else; each stack instruction has its word, takes no prefix, and leaves the entries below those it replaces; at depth 16, or with too few entries, they trap. -/
def Obligations.PredicateStack : Prop :=
  (∀ p ∈ ([(0xA801, .pand), (0xA802, .por), (0xA803, .pnot), (0xA804, .pend)] : List (Half × Instr)), decodeWords [p.1] = .instr p.2 1 ∧
    ∀ w : BitVec 9, ∀ k ∈ [0xF800, 0xFA00, 0xFC00, 0xFE00], decodeWords [k ||| w.setWidth 16, p.1] = .illegal 2) ∧
  (∀ f : BitVec 11, 4 < f → decodeWords [0xA800 ||| f.setWidth 16] = .illegal 1) ∧
  (∀ (s : State) (a b : Reg) (imm : Word), s.me.packet = none →
     let push := fun (c : Bool) => s.setSlot s.cur { s.me with
       prVals := BitVec.ofNat 16 (s.me.prVals.toNat % 2 ^ s.me.prDepth.toNat + (if c then 2 ^ s.me.prDepth.toNat else 0))
       prDepth := s.me.prDepth + 1, pc := s.me.npc }
     (s.me.prDepth.toNat < 16 →
       exec (.cmpEq a b) s = .next (push (s.x a == s.x b)) ∧
       exec (.cmpNe a b) s = .next (push (s.x a != s.x b)) ∧
       exec (.cmpLt a b) s = .next (push (decide ((s.x a).toInt < (s.x b).toInt))) ∧
       exec (.cmpGe a b) s = .next (push (decide ((s.x a).toInt ≥ (s.x b).toInt))) ∧
       exec (.cmpLtN a b) s = .next (push (decide ((s.x a).toNat < (s.x b).toNat))) ∧
       exec (.cmpGeN a b) s = .next (push (decide ((s.x a).toNat ≥ (s.x b).toNat))) ∧
       exec (.cmpiEq a imm) s = .next (push (s.x a == imm)) ∧
       exec (.cmpiLt a imm) s = .next (push (decide ((s.x a).toInt < imm.toInt)))) ∧
     (16 ≤ s.me.prDepth.toNat →
       ∀ i ∈ [Instr.cmpEq a b, .cmpNe a b, .cmpLt a b, .cmpGe a b, .cmpLtN a b, .cmpGeN a b, .cmpiEq a imm, .cmpiLt a imm],
         exec i s = .next (s.takeTrap s.cur Cause.illegal 0 0))) ∧
  (∀ (s : State), s.me.packet = none → s.me.prDepth.toNat ≤ 16 →
     let d := s.me.prDepth.toNat
     let e := fun k => s.me.prVals.getLsbD k
     let leaves := fun (i : Instr) (n : Nat) (top : Option Bool) =>
       ∃ vals : BitVec 16, exec i s = .next (s.setSlot s.cur { s.me with
           prVals := vals, prDepth := BitVec.ofNat 5 (n + (if top.isSome then 1 else 0)), pc := s.me.npc }) ∧
         (∀ k, k < n → vals.getLsbD k = e k) ∧ (∀ c, top = some c → vals.getLsbD n = c) ∧
         ∀ k, n + (if top.isSome then 1 else 0) ≤ k → vals.getLsbD k = false
     (2 ≤ d → leaves .pand (d - 2) (some (e (d - 1) && e (d - 2))) ∧ leaves .por (d - 2) (some (e (d - 1) || e (d - 2)))) ∧
     (1 ≤ d → leaves .pnot (d - 1) (some (!e (d - 1))) ∧ leaves .pend (d - 1) none) ∧
     (d < 2 → exec .pand s = .next (s.takeTrap s.cur Cause.illegal 0 0) ∧ exec .por s = .next (s.takeTrap s.cur Cause.illegal 0 0)) ∧
     (d = 0 → exec .pnot s = .next (s.takeTrap s.cur Cause.illegal 0 0) ∧ exec .pend s = .next (s.takeTrap s.cur Cause.illegal 0 0)))

/-! ### Page 0: control -/

/-- R306: a branch goes to its target where its condition holds, else to the chain after it; nothing else changes. -/
def Obligations.BranchTargets : Prop :=
  ∀ (s : State) (a b : Reg) (off : Word), s.acts →
    let go := fun (c : Bool) => if c then s.setSlot s.cur { s.me with pc := s.me.pc + (2 * off).setWidth 48, xfer := true }
      else s.setSlot s.cur { s.me with pc := s.me.npc }
    exec (.beq a b off) s = .next (go (s.x a == s.x b)) ∧
    exec (.bne a b off) s = .next (go (s.x a != s.x b)) ∧
    exec (.blt a b off) s = .next (go (decide ((s.x a).toInt < (s.x b).toInt))) ∧
    exec (.bge a b off) s = .next (go (decide ((s.x a).toInt ≥ (s.x b).toInt))) ∧
    exec (.bltN a b off) s = .next (go (decide ((s.x a).toNat < (s.x b).toNat))) ∧
    exec (.bgeN a b off) s = .next (go (decide ((s.x a).toNat ≥ (s.x b).toNat)))

/-- R307, R308: where a jump goes and what it links; an odd jalr target traps with the link unwritten. -/
def Obligations.JumpsLink : Prop :=
  ∀ (s : State) (l b : Reg) (off : Word), s.acts →
    let link := s.me.npc.setWidth 64
    let rel := s.me.pc + (2 * off).setWidth 48
    let tgt := (s.x b + off).setWidth 48
    let go := fun (r : Reg) (t : Addr) => (s.setX r link).modMe fun q => { q with pc := t, xfer := true }
    exec (.jal l off) s = .next (go l rel) ∧
    exec (.call off) s = .next (go 1 rel) ∧
    (tgt.getLsbD 0 = false → exec (.jalr l b off) s = .next (go l tgt)) ∧
    (tgt.getLsbD 0 = true → exec (.jalr l b off) s = .next (s.takeTrap s.cur Cause.misaligned (tgt.setWidth 64) 0))

/-- R309, R310: ret has its word and takes no prefix; call.c opens a region above the stack and calls; ret to its return address closes it into x4, a ret past an inner region traps, any other ret only returns. That a region or hamper takes the lowest free index is the model's choice (log 51). -/
def Obligations.RegionsOpenAndClose : Prop :=
  decodeWords [0xA800] = .instr .ret 1 ∧ (∀ w : BitVec 9, ∀ k ∈ [0xF800, 0xFA00, 0xFC00, 0xFE00], decodeWords [k ||| w.setWidth 16, 0xA800] = .illegal 2) ∧
  ∀ (s : State) (off : Word), s.acts →
    let link := s.me.npc.setWidth 64
    let tgt := (s.x 1).setWidth 48
    let jump := fun (q : Slot) (t : Addr) => s.setSlot s.cur { q with pc := t, xfer := true }
    (s.me.stack.length < 8 → s.me.hampers.length < 16 → ∀ i, s.me.freeIndex = some i →
      exec (.callC off) s = .next (jump { s.me.setXr 1 link with
        gens := s.me.gens.put i (s.me.gens.get i 0 + 1)
        hampers := s.me.hampers.put i ⟨.opened, s.me.gens.get i 0 + 1, [], [], []⟩
        stack := ⟨i, s.me.npc⟩ :: s.me.stack } (s.me.pc + (2 * off).setWidth 48))) ∧
    (8 ≤ s.me.stack.length ∨ 16 ≤ s.me.hampers.length → exec (.callC off) s = .next (s.takeTrap s.cur Cause.hamperCapacity 0 0)) ∧
    (tgt.getLsbD 0 = true → exec .ret s = .next (s.takeTrap s.cur Cause.misaligned (tgt.setWidth 64) 0)) ∧
    (tgt.getLsbD 0 = false → s.me.stack = [] → exec .ret s = .next (jump s.me tgt)) ∧
    (∀ r rest, s.me.stack = r :: rest → tgt.getLsbD 0 = false →
      (∀ h, tgt = r.ret → s.me.hampers.find r.index = some h →
        exec .ret s = .next (jump ({ s.me with hampers := s.me.hampers.put r.index { h with st := .closed }, stack := rest }.setXr 4
          (BitVec.ofNat 64 (r.index + h.gen.toNat * 16))) tgt)) ∧
      (tgt ≠ r.ret → (∃ q ∈ rest, q.ret = tgt) → exec .ret s = .next (s.takeTrap s.cur Cause.illegal (tgt.setWidth 64) 0)) ∧
      (tgt ≠ r.ret → (∀ q ∈ rest, q.ret ≠ tgt) → exec .ret s = .next (jump s.me tgt)))

/-! ### Page 0: floating point -/

/-- R312, R311: the exact value of each form, rounded once, goes to the register with zeros above the type's width; each form changes its register, the sticky flags, which it only sets, and in SR mode alone the generator, and nothing else. -/
def Obligations.FloatResults : Prop :=
  ∀ (s : State) (d a b : Reg) (m : FMod), s.acts →
    let f := ftyFmt m.ty
    let rm := s.fp.mode m.rm.toNat
    let va := f.value ((s.x a).toNat % 2 ^ f.width)
    let vb := f.value ((s.x b).toNat % 2 ^ f.width)
    let vd := f.value ((s.x d).toNat % 2 ^ f.width)
    let put := fun (v : FVal × Nat) => ((s.setFp (s.fp.round f rm m.sat v).2).setX d (BitVec.ofNat 64 (s.fp.round f rm m.sat v).1)).advance
    exec (.fadd d a b m) s = .next (put (fAdd (rm == 2) va vb)) ∧
    exec (.fsub d a b m) s = .next (put (fAdd (rm == 2) va vb.neg)) ∧
    exec (.fmul d a b m) s = .next (put (fMul va vb)) ∧
    exec (.fdiv d a b m) s = .next (put (fDiv va vb)) ∧
    exec (.fmadd d a b m) s = .next (put (fFma (rm == 2) va vb vd)) ∧
    exec (.fsqrt d a m) s = .next (put (fSqrt va)) ∧
    exec (.fmin d a b m.ty) s = .next (s.setX d (BitVec.ofNat 64 (f.round 0 false 0 (fMin va vb)).1)).advance ∧
    exec (.fmax d a b m.ty) s = .next (s.setX d (BitVec.ofNat 64 (f.round 0 false 0 (fMax va vb)).1)).advance ∧
    (∀ i ∈ [Instr.fadd d a b m, .fsub d a b m, .fmul d a b m, .fdiv d a b m, .fmadd d a b m, .fsqrt d a m, .fmin d a b m.ty, .fmax d a b m.ty],
      ∃ t, exec i s = .next t ∧
        t = s.setSlot s.cur { s.me with x := t.me.x, fpCtl := t.me.fpCtl, rng := t.me.rng, pc := s.me.npc } ∧
        (∀ r, r ≠ d → t.x r = s.x r) ∧ (t.x d).toNat < 2 ^ (ftyFmt m.ty).width ∧
        s.me.fpCtl &&& t.me.fpCtl = s.me.fpCtl ∧ t.me.fpCtl &&& ~~~0x3F00 = s.me.fpCtl &&& ~~~0x3F00 ∧
        (t.me.rng = s.me.rng ∨ s.fp.mode m.rm.toNat = 4 ∧ t.me.rng = rngStep s.me.rng) ∧ s.sameBytes t)

/-- R40: rounding keeps every value that the format holds, in every mode, with no flag. -/
def Obligations.RoundKeepsRepresentable : Prop :=
  ∀ (f : FFmt), f ∈ [fmtF32, fmtBf16, fmtF16, fmtE4m3, fmtE5m2] → ∀ (rm r v : Nat) (sat : Bool), v < 2 ^ f.width → r < 2 ^ 16 →
    f.value v ≠ .nan → f.round rm sat r (f.value v) = (v, 0)

/-- R313, R314: fcvt writes the converted value and takes one generator step in SR mode, and a compare pushes its condition, false and with nv where an operand is a NaN. -/
def Obligations.ConvertAndCompare : Prop :=
  ∀ (s : State) (d a b : Reg) (dst src : CvtTy) (rm : BitVec 3) (ty : FTy), s.acts →
    (let mode := s.fp.mode rm.toNat
     let p := if mode = 4 then s.fp.step else s.fp
     let r := cvtConv dst mode (rngBits p.rng) (cvtRead src (s.x a))
     exec (.fcvt d a dst src rm) s = .next ((s.setFp (p.raise r.2)).setX d (BitVec.ofNat 64 r.1)).advance) ∧
    (s.me.prDepth.toNat < 16 →
      let f := ftyFmt ty
      let x := f.value ((s.x a).toNat % 2 ^ f.width)
      let y := f.value ((s.x b).toNat % 2 ^ f.width)
      let leaves := fun (i : Instr) (c : Bool) => ∃ t, exec i s = .next t ∧
        t = s.setSlot s.cur { s.me with prVals := t.me.prVals, prDepth := s.me.prDepth + 1, fpCtl := t.me.fpCtl, pc := s.me.npc } ∧
        (∀ k, k < s.me.prDepth.toNat → t.me.prVals.getLsbD k = s.me.prVals.getLsbD k) ∧
        t.me.prVals.getLsbD s.me.prDepth.toNat = (if x = .nan ∨ y = .nan then false else c) ∧
        t.me.fpCtl = if x = .nan ∨ y = .nan then s.me.fpCtl ||| 0x100 else s.me.fpCtl
      leaves (.fcmpEq a b ty) (!fLt x y && !fLt y x) ∧ leaves (.fcmpLt a b ty) (fLt x y) ∧ leaves (.fcmpLe a b ty) (!fLt y x))

/-! ### Special registers -/

/-- R315, R318: rdsr reads the register with its number into its destination, and traps ILLEGAL with the number where none has it. -/
def Obligations.SpecialRegisterReads : Prop :=
  ∀ (s : State) (d : Reg) (num : BitVec 34), s.acts →
    let rd := fun (n : BitVec 34) (v : Nat) => exec (.rdsr d n) s = .next (s.setX d (BitVec.ofNat 64 v)).advance
    let exists_ := fun (n : Nat) => n ≤ 0x0C ∨ 0x10 ≤ n ∧ n ≤ 0x14 ∨ 0x18 ≤ n ∧ n ≤ 0x24 ∨ 0x30 ≤ n ∧ n ≤ 0x36 ∨ 0x80 ≤ n ∧ n ≤ 0x91 ∨
      0xA0 ≤ n ∧ n ≤ 0xAF ∨ 0xB0 ≤ n ∧ n ≤ 0xBD ∨ 0xC0 ≤ n ∧ n ≤ 0xCF
    (exists_ num.toNat → ∃ v, rd num v) ∧
    (¬ exists_ num.toNat → exec (.rdsr d num) s = .next (s.takeTrap s.cur Cause.illegal (num.setWidth 64) 0)) ∧
    rd 0x00 s.me.vl.toNat ∧ rd 0x01 s.me.vshape.toNat ∧ rd 0x02 s.me.fpCtl.toNat ∧ rd 0x03 s.me.rng.toNat ∧
    rd 0x04 (s.me.prDepth.toNat * 2 ^ 16 + s.me.prVals.toNat % 2 ^ s.me.prDepth.toNat) ∧
    rd 0x05 s.me.faultCause.toNat ∧ rd 0x06 s.me.faultAddr.toNat ∧ rd 0x07 s.me.faultPc.toNat ∧ rd 0x09 s.me.wtHold.toNat ∧
    rd 0x0C s.tick.toNat ∧ rd 0x23 (s.myCore.ovfBase.toNat * 2 ^ 13) ∧ rd 0x24 (s.myCore.accSv.toNat * 2 ^ 16) ∧
    rd 0x31 s.wake.toNat ∧ rd 0x80 (s.ctxBase.toNat * 2 ^ 14) ∧ rd 0x81 s.myCore.ctxCmd.toNat ∧ rd 0x8D s.lkCtl.toNat ∧
    rd 0x8F s.pwLim.toNat ∧ (s.isFw s.cur = false → rd 0x8E 0)

/-- R315, R318, R253: the checks of wrsr in their order, each with the register's number in fault.addr: no such register ILLEGAL, a firmware register from a user core PRIVILEGE, a write that a permit bit of a locked wall forbids PRIVILEGE, a command register in collecting mode or in a class C or T task COLLECT_FORBIDDEN. Past them the write completes: a read-only register ignores it, a register with a table row of its own takes it as that row does, and each other one leaves what is said here (R58, R73, R104, R107, R123, R152, R160, R202, R214, R219, R227, R228, R238, R240, R242, R317, R319). A command register that is busy ignores it; one that is not is busy with the command queued, once the slot's earlier stores have performed. -/
def Obligations.SpecialRegisterWrites : Prop :=
  ∀ (s : State) (a : Reg) (num : BitVec 34), s.acts →
    let n := num.toNat
    let v := s.x a
    let wr := exec (.wrsr a num) s
    let denied := fun (cause : Nat) => wr = .next (s.takeTrap s.cur cause (num.setWidth 64) 0)
    let may := s.srValue n ≠ none ∧ (srFw n = true → s.isFw s.cur = true) ∧ s.walled n = false
    let command := n = 0x81 ∨ n = 0x82 ∨ n = 0x83 ∨ n = 0x8D ∨ n = 0x91
    let raises := n = 0x8F ∧ s.pwTable.toNat < v.toNat % 2 ^ 16 ∧ s.myGrove.wallLock = true ∧ s.myGrove.wallBits.getLsbD 1 = false
    let own := fun (m : Nat) (i : Instr) => n = m → wr = exec i s
    let leaves := fun (m : Nat) (t : State) => n = m → may → wr = .next t.advance
    let core := fun (c : Core) => s.setCore (coreOf s.cur) c
    let queued := fun (m : Nat) (busy : Bool) (t : State) => n = m → may → s.me.collecting = false → s.me.classCT = false →
      (busy = true → wr = .next s.advance) ∧ (busy = false → s.allOut → wr = .next t.advance)
    (s.srValue n = none → denied Cause.illegal) ∧
    (s.srValue n ≠ none → srFw n = true → s.isFw s.cur = false → denied Cause.privilege) ∧
    (s.srValue n ≠ none → (srFw n = true → s.isFw s.cur = true) → s.walled n = true → denied Cause.privilege) ∧
    (may → raises → denied Cause.privilege) ∧
    (may → command → s.me.collecting = true ∨ s.me.classCT = true → denied Cause.collectForbidden) ∧
    (may → ¬ raises → (command → s.me.collecting = false ∧ s.me.classCT = false ∧ s.allOut) → ∃ t, wr = .next t ∧ t.me.pc = s.me.npc) ∧
    (n ≤ 1 ∨ 5 ≤ n ∧ n ≤ 8 ∨ n = 0x0C ∨ 0x10 ≤ n ∧ n ≤ 0x14 ∨ 0x18 ≤ n ∧ n ≤ 0x20 ∨ 0x30 ≤ n ∧ n ≤ 0x32 ∨ n = 0x90 ∨ 0xB0 ≤ n ∧ n ≤ 0xBD →
      wr = .next s.advance) ∧
    own 0x02 (.fpCtlWrite v) ∧ own 0x03 (.rngStateWrite v) ∧ own 0x04 (.prStkWrite v) ∧ own 0x0A (.memDbgWrite v) ∧ own 0x0B (.futCtlClear v) ∧
    own 0x21 (.skewCfgWrite v) ∧ own 0x33 (.gbStatClear v) ∧ own 0x34 (.errStatClear v) ∧ own 0x35 (.wdCtlWrite v) ∧ own 0x85 (.rqBackoffWrite v) ∧
    own 0x87 (.rtCfgWrite v) ∧ own 0x8A (.gsCtlWrite v) ∧ own 0x8B (.trRingWrite v) ∧ own 0x8E (.fwWallWrite v) ∧ own 0x8F (.pwLimWrite v) ∧
    (∀ k : BitVec 4, own (0xA0 + k.toNat) (.rqRecipeWrite k v)) ∧
    (∀ k : BitVec 3, own (0xC0 + 2 * k.toNat) (.hwWinWrite k false v) ∧ own (0xC1 + 2 * k.toNat) (.hwWinWrite k true v)) ∧
    leaves 0x09 (s.setSlot s.cur { s.me with wtHold := v.setWidth 8 }) ∧
    leaves 0x22 (core { s.myCore with ltEn := v.getLsbD 63, ltOff := v.setWidth 48 }) ∧
    leaves 0x23 (core { s.myCore with ovfBase := v.extractLsb' 13 39 }) ∧ leaves 0x24 (core { s.myCore with accSv := v.extractLsb' 16 36 }) ∧
    leaves 0x36 (s.setGrove (groveOf s.cur) { s.myGrove with
      trRegion := v.extractLsb' 32 31, trFilt := v.getLsbD 31, trEn := v.getLsbD 0 }) ∧
    leaves 0x80 { s with ctxBase := v.extractLsb' 14 38 } ∧ leaves 0x84 { s with modX := v.extractLsb' 0 2, modY := v.extractLsb' 3 2 } ∧
    leaves 0x86 { s with hlPool := v.extractLsb' 12 40 } ∧ leaves 0x88 { s with pgDirty := v.extractLsb' 23 29 } ∧
    leaves 0x89 { s with gqBase := v.extractLsb' 11 41 } ∧ leaves 0x8C { s with trTail := v.extractLsb' 0 10 } ∧
    (let w := (v &&& 0x3F000F) ||| 0x80000000
     queued 0x81 (s.myCore.ctxCmd.getLsbD 31) { core { s.myCore with ctxCmd := w } with ctxQ := s.ctxQ ++ [⟨coreOf s.cur, w⟩] }) ∧
    (let w := (v &&& 0xFFFFFFFFFFBF) ||| 0x8000000000000000
     queued 0x82 (s.myCore.grpLaunch.getLsbD 63) { core { s.myCore with grpLaunch := w } with grpQ := s.grpQ ++ [⟨coreOf s.cur, w⟩] }) ∧
    (let w := (v &&& 0xFFFFFFFFFFC7) ||| 0x8000000000000000
     queued 0x83 (s.myCore.slCmd.getLsbD 63) { core { s.myCore with slCmd := w } with slQ := s.slQ ++ [⟨coreOf s.cur, w⟩] }) ∧
    (let w := v &&& 0xF07
     let taken := (v.extractLsb' 8 4).toNat < 14 ∧ 1 ≤ (v.extractLsb' 0 3).toNat ∧ (v.extractLsb' 0 3).toNat ≤ 4
     queued 0x8D false { s with lkCtl := w, lkQ := if taken then s.lkQ ++ [⟨coreOf s.cur, w⟩] else s.lkQ }) ∧
    (let w := (v &&& 0x1F07) ||| 0x8000000000000000
     queued 0x91 (s.gqCtl.getLsbD 63) { s with gqCtl := w, gqQ := s.gqQ ++ [⟨coreOf s.cur, w⟩] })

/-- R42, R43, R61, R95, R100, R138, R144, R195, R233, R238, R245, R246, R253 to R255, R300, R319: what the seventeen table rows of one special register's write leave: those of slot and core on any core, the firmware ones on a firmware core whose wall is not locked. That a write of wd.ctl starts the ping period again is the model's reading (log 81). -/
def Obligations.RegisterWriteEffects : Prop :=
  (∀ (s : State) (v : Word), s.acts →
     let me := fun (q : Slot) => Host.Outcome.next (s.setSlot s.cur { q with pc := s.me.npc })
     (exec (.rngStateWrite v) s = me { s.me with rng := if v.setWidth 32 = 0#32 then 1 else v.setWidth 32 }) ∧
     (∃ c : Word, exec (.fpCtlWrite v) s = me { s.me with fpCtl := c } ∧ c &&& ~~~0x3F07 = 0 ∧ c &&& 0x3F00 = v &&& 0x3F00 ∧
       c &&& 7 = if (v &&& 7).toNat ≤ 4 then v &&& 7 else s.me.fpCtl &&& 7) ∧
     (let d := (v.extractLsb' 16 5).toNat
      exec (.prStkWrite v) s = if 16 < d then .next s.advance
        else me { s.me with prDepth := BitVec.ofNat 5 d, prVals := BitVec.ofNat 16 (v.toNat % 2 ^ d) }) ∧
     (exec (.memDbgWrite v) s = me { s.me with
       memWindow := if v.extractLsb' 8 16 = 0#16 then 1 else v.extractLsb' 8 16, memMix := v.getLsbD 0 }) ∧
     (exec (.futCtlClear v) s = me { s.me with
       futLife := v.extractLsb' 16 32, futRefused := if v.extractLsb' 8 8 = 0#8 then s.me.futRefused else 0 }) ∧
     (exec (.skewCfgWrite v) s = .next (s.setCore (coreOf s.cur) { s.myCore with
       skewBase := v.extractLsb' 20 12, skewRows := v.extractLsb' 8 12
       skewEn := v.getLsbD 32 && decide (((v.extractLsb' 20 12).toNat + (v.extractLsb' 8 12).toNat + 1) * 256 ≤ 2 ^ 20) }).advance) ∧
     (exec (.errStatClear v) s = .next (s.setGrove (groveOf s.cur) { s.myGrove with
       corr := if v.extractLsb' 32 32 = 0#32 then s.myGrove.corr else 0
       uncorr := if v.extractLsb' 16 16 = 0#16 then s.myGrove.uncorr else 0 }).advance) ∧
     (s.me.task = none → exec (.gbStatClear v) s = .next s.advance) ∧
     (∀ g, s.me.task ≠ none → s.groups.find s.me.grp = some g → ∃ cs : List Chan,
       exec (.gbStatClear v) s = .next (s.setGroup s.me.grp { g with chans := cs }).advance ∧ cs.length = g.chans.length ∧
       ∀ i c, g.chans[i]? = some c → cs[i]? = some (if v.getLsbD i then { c with cleared := nub (c.cleared ++ [groveOf s.cur]) } else c))) ∧
  (∀ (s : State) (v : Word) (n : BitVec 4) (w : BitVec 3), s.acts → s.isFw s.cur = true → s.myGrove.wallLock = false →
     let term := fun (i : Nat) => (v.extractLsb' (16 * i) 16)
     let stored := ∀ i, i < 4 → (term i).extractLsb' 0 4 = 0#4 ∧ ((term i).extractLsb' 8 8 = 0#8 ∨ ((term i).extractLsb' 4 4).toNat ≤ 8)
     let grove := fun (g : Grove) => Host.Outcome.next (s.setGrove (groveOf s.cur) g).advance
     let page := BitVec.ofNat 64 (v.toNat / 4096 * 4096)
     (stored → exec (.rqRecipeWrite n v) s = .next { s with recipes := s.recipes.put n.toNat v }.advance) ∧
     (¬ stored → exec (.rqRecipeWrite n v) s = .next s.advance) ∧
     (exec (.rqBackoffWrite v) s = .next { s with
       boMax := if v.extractLsb' 16 16 = 0#16 then 1 else v.extractLsb' 16 16
       boBase := if v.extractLsb' 0 16 = 0#16 then 1 else v.extractLsb' 0 16 }.advance) ∧
     (exec (.wdCtlWrite v) s = grove { s.myGrove with
       wdRun := v.extractLsb' 32 32, wdHang := if v.extractLsb' 16 16 = 0#16 then 1 else v.extractLsb' 16 16
       pingAt := s.tick.toNat + (if v.extractLsb' 16 16 = 0#16 then 1 else (v.extractLsb' 16 16).toNat) }) ∧
     (s.gsLock = true → exec (.gsCtlWrite v) s = .next s.advance) ∧
     (s.gsLock = false → exec (.gsCtlWrite v) s = .next { s with
       gsLock := v.getLsbD 63
       gsBound := if v.extractLsb' 8 8 = 0#8 then 1 else if 200#8 < v.extractLsb' 8 8 then 200 else v.extractLsb' 8 8 }.advance) ∧
     (v.toNat % 2 ^ 16 ≤ s.pwTable.toNat → exec (.pwLimWrite v) s = .next { s with pwLim := v.extractLsb' 0 16 }.advance) ∧
     (s.pwTable.toNat < v.toNat % 2 ^ 16 → exec (.pwLimWrite v) s =
       .next { s with pwLim := if 2400#16 < v.extractLsb' 0 16 then 2400 else v.extractLsb' 0 16 }.advance) ∧
     (25 ≤ (v.extractLsb' 0 5).toNat → exec (.rtCfgWrite v) s = .next s.advance) ∧
     ((v.extractLsb' 0 5).toNat < 25 → exec (.rtCfgWrite v) s = .next { s with rtCfg := v &&& 0x000FFFFFFFFFF01F }.advance) ∧
     (exec (.fwWallWrite v) s = grove { s.myGrove with wallLock := v.getLsbD 63, wallBits := v.extractLsb' 4 4 }) ∧
     (exec (.trRingWrite v) s = .next { s with trRing := v.extractLsb' 15 37 }.advance) ∧
     (exec (.hwWinWrite w false v) s = .next { s with hwBase := s.hwBase.put w.toNat page }.advance) ∧
     (exec (.hwWinWrite w true v) s = .next { s with hwLimit := s.hwLimit.put w.toNat page }.advance))

/-- R315, R318: a firmware register's row traps PRIVILEGE with the register's number on a user core. That a user core's write of fw.wall only advances is the model's reading (log 29). -/
def Obligations.FirmwareRegistersPrivileged : Prop :=
  ∀ (s : State) (v : Word) (n : BitVec 4) (w : BitVec 3) (l : Bool), s.acts → s.isFw s.cur = false →
    let denied := fun (i : Instr) (num : Word) => exec i s = .next (s.takeTrap s.cur Cause.privilege num 0)
    denied (.rqRecipeWrite n v) (0xA0 + n.setWidth 64) ∧ denied (.rqBackoffWrite v) 0x85 ∧ denied (.wdCtlWrite v) 0x35 ∧
    denied (.gsCtlWrite v) 0x8A ∧ denied (.pwLimWrite v) 0x8F ∧ denied (.rtCfgWrite v) 0x87 ∧ denied (.trRingWrite v) 0x8B ∧
    denied (.hwWinWrite w l v) (0xC0 + 2 * w.setWidth 64 + (if l then 1 else 0)) ∧ exec (.fwWallWrite v) s = .next s.advance

/-! ### Page 1: vectors -/

/-- R349: setvl sets the shape, and vl and x[d] to the lesser of the request and NMAX; no vector register changes. -/
def Obligations.VectorLength : Prop :=
  ∀ (s : State) (d a : Reg) (shape : BitVec 6), s.acts →
    let g := 2 ^ (shape.extractLsb' 2 2).toNat
    let sew := 8 * 2 ^ (shape.extractLsb' 0 2).toNat
    let n := min (s.x a).toNat (min (1024 * g / sew) 128)
    exec (.setvl d a shape) s = .next (s.setSlot s.cur
      { (s.me.setXr d (BitVec.ofNat 64 n)) with vshape := shape, vl := BitVec.ofNat 8 n, pc := s.me.npc })

/-- R350, R351, R359: the integer forms without .sat. An active element is the operation on its sources; masked-off and tail elements follow the policies; nothing else changes. -/
def Obligations.VectorIntegerElements : Prop :=
  ∀ (s : State) (d a b : Reg) (m : VMod), s.acts → s.me.wf = true → m.ty.toNat < 8 → m.sat = false → vtyBits m.ty.toNat = s.me.sh.sew →
    s.me.sh.bad3 d a b s.me.sh.sew m.scalar = false → 0 < s.me.vl.toNat →
    let h := s.me.sh
    let w := h.sew
    let k := s.me.kr m.mask
    let sg := fun (v : Nat) => if m.ty.toNat < 4 then sInt w v else Int.ofNat v
    let y := fun i => s.src2 m b w i
    let leaves := fun (i : Instr) (f : Nat → Nat → Int) => ∃ t, exec i s = .next t ∧ s.vecFrame t d (h.regs w) ∧
      t.me.fpCtl = s.me.fpCtl ∧ t.me.rng = s.me.rng ∧
      ∀ e, e < h.nmax → Int.ofNat (t.me.elem d w e) =
        if e < h.vl then (if k.getLsbD e then f (s.me.elem a w e) (y e) % 2 ^ w else if h.mz then 0 else Int.ofNat (s.me.elem d w e))
        else if h.tz then 0 else Int.ofNat (s.me.elem d w e)
    leaves (.vadd d a b m) (fun p q => Int.ofNat p + Int.ofNat q) ∧
    leaves (.vsub d a b m) (fun p q => Int.ofNat p - Int.ofNat q) ∧
    leaves (.vmul d a b m) (fun p q => Int.ofNat p * Int.ofNat q) ∧
    leaves (.vmin d a b m) (fun p q => min (sg p) (sg q)) ∧
    leaves (.vmax d a b m) (fun p q => max (sg p) (sg q)) ∧
    leaves (.vmulh d a b m) (fun p q => sg p * sg q / 2 ^ w) ∧
    leaves (.vdiv d a b m) (fun p q => if q = 0 then -1 else (sg p).tdiv (sg q)) ∧
    leaves (.vrem d a b m) (fun p q => if q = 0 then sg p else (sg p).tmod (sg q)) ∧
    leaves (.vand d a b m) (fun p q => Int.ofNat (p &&& q)) ∧
    leaves (.vor d a b m) (fun p q => Int.ofNat (p ||| q)) ∧
    leaves (.vxor d a b m) (fun p q => Int.ofNat (p ^^^ q)) ∧
    leaves (.vsll d a b m) (fun p q => Int.ofNat (p <<< (q % w))) ∧
    leaves (.vsrl d a b m) (fun p q => Int.ofNat (p >>> (q % w))) ∧
    leaves (.vsra d a b m) (fun p q => sInt w p / 2 ^ (q % w))

/-- R352, R359 to R363, R365: where its checks hold, each arithmetic form of any type, .sat among them, completes and changes only its destination's registers, the flags and the generator; where they fail it traps ILLEGAL with fault.addr 0; an integer sum leaves in element 0 the sum of element 0 of its second source and every active element, modulo 2^w. -/
def Obligations.VectorFormsCompleteOrTrap : Prop :=
  ∀ (s : State) (d a b : Reg) (m : VMod) (sat : Bool) (src : BitVec 4), s.acts → s.me.wf = true →
    let h := s.me.sh
    let w := h.sew
    let t := m.ty.toNat
    let one := fun (i : Instr) (ok : Bool) (n : Nat) =>
      (ok = true → ∃ t, exec i s = .next t ∧ s.vecFrame t d n) ∧ (ok = false → exec i s = .next (s.takeTrap s.cur Cause.illegal 0 0))
    let int := decide (t < 8)
    let flt := t == 8 || t == 9 || t == 10
    let sized := vtyBits t == w
    let regs3 := !h.bad3 d a b w m.scalar
    (∀ i ∈ [Instr.vadd d a b m, .vsub d a b m, .vmul d a b m], one i (sized && (int || flt) && regs3) (h.regs w)) ∧
    (∀ i ∈ [Instr.vmin d a b m, .vmax d a b m], one i (sized && (int || flt) && !m.sat && regs3) (h.regs w)) ∧
    (∀ i ∈ [Instr.vmulh d a b m, .vdiv d a b m, .vrem d a b m, .vand d a b m, .vor d a b m, .vxor d a b m, .vsll d a b m, .vsrl d a b m,
        .vsra d a b m], one i (sized && int && !m.sat && regs3) (h.regs w)) ∧
    (∀ i ∈ [Instr.vfma d a b m, .vfdiv d a b m], one i (sized && flt && regs3) (h.regs w)) ∧
    one (.vsqrt d a m) (!m.scalar && sized && flt && !h.bad3 d a a w false) (h.regs w) ∧
    (∀ i ∈ [Instr.vwadd d a b m, .vwmul d a b m], one i
      ((int && t != 7 || t == 9 || t == 10) && w != 64 && sized && !m.sat && h.aligned d (2 * w) && h.aligned a w && !h.clash d (2 * w) a w &&
        (m.scalar || h.aligned b w && !h.clash d (2 * w) b w)) (h.regs (2 * w))) ∧
    one (.vnarrow d a m.ty m.mask sat)
      (decide (t ≤ 6) && w != 64 && sized && h.aligned d w && h.aligned a (2 * w) && !h.clash d w a (2 * w)) (h.regs w) ∧
    one (.vcvt d a m.ty src sat)
      (decide (t ≤ 12) && decide (src.toNat ≤ 12) && m.ty != src && h.aligned d (vtyBits t) && h.aligned a (vtyBits src.toNat) &&
        !h.clash d (vtyBits t) a (vtyBits src.toNat)) (h.regs (vtyBits t)) ∧
    (∀ i ∈ [Instr.vredsum d a b m, .vredmin d a b m, .vredmax d a b m], one i
      (sized && (int || flt) && !m.sat && !m.scalar && h.aligned a w && (d == a || !meets d.toNat 1 a.toNat (h.regs w))) 1) ∧
    (sized = true → int = true → m.sat = false → m.scalar = false → h.aligned a w = true → (d = a ∨ meets d.toNat 1 a.toNat (h.regs w) = false) →
      0 < s.me.vl.toNat → ∃ t, exec (.vredsum d a b m) s = .next t ∧ t.me.elem d w 0 =
        (s.me.elem b w 0 + (((List.range h.vl).filter fun i => (s.me.kr m.mask).getLsbD i).map fun i => s.me.elem a w i).sum) % 2 ^ w)

/-- R38, R364: vpack and vunpack complete on legal groups and change only the destination's registers and, for vpack, the flags. -/
def Obligations.VectorBlocksComplete : Prop :=
  ∀ (s : State) (d a : Reg) (bt : BlockTy), s.acts → s.me.wf = true → s.me.sh.sew = 32 → s.me.vl.toNat % 32 = 0 →
    let h := s.me.sh
    let g := h.blockRegs (blockMant bt)
    (d.toNat % g = 0 → a.toNat % h.regs 32 = 0 → meets d.toNat g a.toNat (h.regs 32) = false →
      ∃ t, exec (.vpack d a bt) s = .next t ∧ s.vecFrame t d g ∧ t.me.rng = s.me.rng) ∧
    (d.toNat % h.regs 32 = 0 → a.toNat % g = 0 → meets d.toNat (h.regs 32) a.toNat g = false →
      ∃ t, exec (.vunpack d a bt) s = .next t ∧ s.vecFrame t d (h.regs 32) ∧ t.me.fpCtl = s.me.fpCtl ∧ t.me.rng = s.me.rng)

/-- R366, R367: bits of a mask destination. An active bit is the integer comparison; the others follow the policies; k0 as a destination traps. -/
def Obligations.VectorMaskResults : Prop :=
  ∀ (s : State) (k kb kc : KReg) (d b c : Reg) (m : VMod), s.acts → s.me.wf = true → k ≠ 0 → 0 < s.me.vl.toNat →
    let h := s.me.sh
    let w := h.sew
    let mask := s.me.kr m.mask
    let sg := fun (v : Nat) => if m.ty.toNat < 4 then sInt w v else Int.ofNat v
    let leaves := fun (i : Instr) (f : Nat → Bool) => ∃ t, exec i s = .next t ∧
      t = s.setSlot s.cur { s.me with k := t.me.k, pc := s.me.npc } ∧ (∀ r, r ≠ k → t.me.kr r = s.me.kr r) ∧
      ∀ e, e < 128 → (t.me.kr k).getLsbD e = if e < h.vl then f e else if h.tz then false else (s.me.kr k).getLsbD e
    let cmp := fun (r : Int → Int → Bool) (e : Nat) =>
      if mask.getLsbD e then r (sg (s.me.elem b w e)) (sg (s.src2 m c w e)) else if h.mz then false else (s.me.kr k).getLsbD e
    (m.ty.toNat < 8 → vtyBits m.ty.toNat = w → m.sat = false → h.aligned b w = true → (m.scalar = true ∨ h.aligned c w = true) →
      leaves (.vmseq k b c m) (cmp fun x y => x == y) ∧ leaves (.vmsne k b c m) (cmp fun x y => x != y) ∧
      leaves (.vmslt k b c m) (cmp fun x y => decide (x < y)) ∧ leaves (.vmsle k b c m) (cmp fun x y => decide (x ≤ y))) ∧
    leaves (.vmand k kb kc) (fun e => (s.me.kr kb).getLsbD e && (s.me.kr kc).getLsbD e) ∧
    leaves (.vmor k kb kc) (fun e => (s.me.kr kb).getLsbD e || (s.me.kr kc).getLsbD e) ∧
    leaves (.vmnot k kb) (fun e => !(s.me.kr kb).getLsbD e) ∧
    exec (.vpopc d kb) s = .next (s.setX d (BitVec.ofNat 64 ((List.range h.vl).countP fun e => (s.me.kr kb).getLsbD e))).advance ∧
    (∃ v, exec (.vfirst d kb) s = .next (s.setX d v).advance ∧
      ((v = -1 ∧ ∀ e, e < h.vl → (s.me.kr kb).getLsbD e = false) ∨
       ∃ e, v = BitVec.ofNat 64 e ∧ e < h.vl ∧ (s.me.kr kb).getLsbD e = true ∧ ∀ j, j < e → (s.me.kr kb).getLsbD j = false)) ∧
    (∀ i ∈ [Instr.vmand 0 kb kc, .vmor 0 kb kc, .vmnot 0 kb, .vmseq 0 b c m, .vmsne 0 b c m, .vmslt 0 b c m, .vmsle 0 b c m],
      exec i s = .next (s.takeTrap s.cur Cause.illegal 0 0))

/-- R368, R369: the permutes and moves. Each element of the destination is the source element that the form names, or the policies'. That elements at or above vl follow the tail policy below the offset of vslideup too is the model's reading (log 30). -/
def Obligations.VectorPermuteResults : Prop :=
  ∀ (s : State) (d b c : Reg) (m : VMod), s.acts → s.me.wf = true → vtyBits m.ty.toNat = s.me.sh.sew → m.sat = false → 0 < s.me.vl.toNat →
    let h := s.me.sh
    let w := h.sew
    let k := s.me.kr m.mask
    let src := fun (i : Nat) => s.me.elem b w i
    let old := fun (i : Nat) => s.me.elem d w i
    let off := (s.x c).toNat
    let tail := fun (i : Nat) => if h.tz then 0 else old i
    let leaves := fun (i : Instr) (f : Nat → Nat) => ∃ t, exec i s = .next t ∧ s.vecFrame t d (h.regs w) ∧
      t.me.fpCtl = s.me.fpCtl ∧ t.me.rng = s.me.rng ∧ ∀ e, e < h.nmax → t.me.elem d w e = f e
    let masked := fun (f : Nat → Nat) (e : Nat) => if e < h.vl then (if k.getLsbD e then f e else if h.mz then 0 else old e) else tail e
    let sel := (List.range h.vl).filter fun i => k.getLsbD i
    (h.bad3 d b c w m.scalar = false → leaves (.vmerge d b c m)
      (fun e => if e < h.vl then (if k.getLsbD e then s.src2 m c w e else src e) else tail e)) ∧
    (h.aligned d w = true → h.aligned b w = true → h.touch d w b w = false →
      (m.scalar = true → leaves (.vslideup d b c m) (fun e => if e < h.vl ∧ e < off ∨ h.nmax ≤ off then old e else masked (fun i => src (i - off)) e) ∧
        leaves (.vslidedown d b c m) (masked fun i => if i + off < h.nmax then src (i + off) else 0)) ∧
      (m.scalar = false → h.aligned c w = true → h.touch d w c w = false →
        leaves (.vrgather d b c m) (masked fun i => if s.me.elem c w i < h.nmax then src (s.me.elem c w i) else 0)) ∧
      (m.scalar = false → leaves (.vcompress d b m) (fun e => if e < sel.length then src (sel.getD e 0) else tail e))) ∧
    (h.aligned d w = true → h.aligned b w = true → h.clash d w b w = false → leaves (.vmv d b m.ty m.mask .vv) (masked src)) ∧
    (h.aligned d w = true → leaves (.vmv d b m.ty m.mask .vx) (masked fun _ => (s.x b).toNat % 2 ^ w)) ∧
    (h.aligned b w = true → m.mask = 0 → exec (.vmv d b m.ty m.mask .xv) s =
      .next (s.setX d (if m.ty.toNat < 4 then BitVec.ofInt 64 (sInt w (src 0)) else BitVec.ofNat 64 (src 0))).advance)

/-- R355, R356: a vector load from the core's own TCM fills each active element with the bytes at its address, and a vector store writes the active elements to their addresses, which are user TCM, aligned, and for stores apart; every other byte and register stays. -/
def Obligations.VectorTcmAccess : Prop :=
  (∀ (s : State) (d b c : Reg) (m : VMMod) (imm : Word), s.acts → s.me.wf = true → m.space = .tcm → m.sk = false →
     8 * 2 ^ m.width.toNat = s.me.sh.sew → s.me.sh.aligned d s.me.sh.sew = true → 0 < s.me.vl.toNat →
     let h := s.me.sh
     let w := h.sew
     let n := w / 8
     let k := s.me.kr m.mask
     let core := coreOf s.cur
     let leaves := fun (i : Instr) (a : Nat → Word) =>
       (∀ e, e < h.vl → k.getLsbD e = true → (a e).toNat % n = 0 ∧ (a e).toNat + n ≤ s.myCore.utop.toNat * 256 ∧
         s.tcmPoison core (a e).toNat n = false) →
       ∃ t, exec i s = .next t ∧ s.vecFrame t d (h.regs w) ∧ t.me.fpCtl = s.me.fpCtl ∧ t.me.rng = s.me.rng ∧
         ∀ e, e < h.nmax → t.me.elem d w e =
           if e < h.vl then (if k.getLsbD e then natOf (s.tcmRead core (a e).toNat n) else if h.mz then 0 else s.me.elem d w e)
           else if h.tz then 0 else s.me.elem d w e
     let base := s.x b + imm
     leaves (.vle d b m imm) (fun e => base + BitVec.ofNat 64 (e * n)) ∧
     leaves (.vlff d b m imm) (fun e => base + BitVec.ofNat 64 (e * n)) ∧
     leaves (.vlce d b m imm) (fun e => base + BitVec.ofNat 64 (e * 256)) ∧
     leaves (.vlse d b c m imm) (fun e => base + BitVec.ofNat 64 e * s.x c) ∧
     (h.aligned c w = true → h.clash d w c w = false → leaves (.vlxe d b c m imm) (fun e => base + BitVec.ofNat 64 (s.me.elem c w e * n)))) ∧
  (∀ (s : State) (d b c : Reg) (m : VMMod) (imm : Word), s.acts → s.me.wf = true → m.space = .tcm → m.sk = false →
     8 * 2 ^ m.width.toNat = s.me.sh.sew → s.me.sh.aligned d s.me.sh.sew = true →
     let h := s.me.sh
     let w := h.sew
     let n := w / 8
     let k := s.me.kr m.mask
     let core := coreOf s.cur
     let stores := fun (i : Instr) (a : Nat → Word) =>
       (∀ e, e < h.vl → k.getLsbD e = true → (a e).toNat % n = 0 ∧ (a e).toNat + n ≤ s.myCore.utop.toNat * 256) →
       (∀ e f, e < h.vl → f < h.vl → k.getLsbD e = true → k.getLsbD f = true → a e = a f → e = f) →
       ∃ t, exec i s = .next t ∧ t.me = { s.me with pc := s.me.npc } ∧
         (∀ e, e < h.vl → k.getLsbD e = true → natOf (t.tcmRead core (a e).toNat n) = s.me.elem d w e) ∧
         (∀ p, (∀ e, e < h.vl → k.getLsbD e = true → ∀ j, j < n → p ≠ .tcm core ((a e).toNat + j)) → t.byteAt p = s.byteAt p) ∧
         t = { s with slots := t.slots, cores := t.cores, groves := t.groves }
     let base := s.x b + imm
     stores (.vse d b m imm) (fun e => base + BitVec.ofNat 64 (e * n)) ∧
     stores (.vsce d b m imm) (fun e => base + BitVec.ofNat 64 (e * 256)) ∧
     stores (.vsse d b c m imm) (fun e => base + BitVec.ofNat 64 e * s.x c) ∧
     (h.aligned c w = true → stores (.vsxe d b c m imm) (fun e => base + BitVec.ofNat 64 (s.me.elem c w e * n))))

/-- R356: a vector memory form in any space completes where every active element can be loaded, or passes its checks and can then be stored, in turn, and traps or waits as the first that cannot does, with nothing changed. -/
def Obligations.VectorMemoryAnySpace : Prop :=
  ∀ (s : State) (d b c : Reg) (m : VMMod) (imm : Word), s.acts → 8 * 2 ^ m.width.toNat = s.me.sh.sew → s.me.sh.aligned d s.me.sh.sew = true →
    let h := s.me.sh
    let w := h.sew
    let k := s.me.kr m.mask
    let base := s.x b + imm
    let unit := fun e => base + BitVec.ofNat 64 (e * (w / 8))
    let loads := fun (i : Instr) (a : Nat → Word) =>
      (∀ res s1, vloads s m w a (h.active k) [] = (res, s1, none) →
        exec i s = .next ((s1.modMe fun q => q.putGroup h d w k res).advance)) ∧
      (∀ res s1 e eff, vloads s m w a (h.active k) [] = (res, s1, some (e, eff)) → (i = .vlff d b m imm → res = []) →
        exec i s = finish (eff.rebase s))
    let stores := fun (i : Instr) (a : Nat → Word) =>
      let checks := vchecks s m w a (fun e => s.me.elem d w e) (h.active k)
      (∀ eff, checks = some eff → exec i s = finish (eff.rebase s)) ∧
      (∀ s1, checks = none → vstores s m w a (fun e => s.me.elem d w e) (h.active k) = .ok () s1 → exec i s = .next s1.advance) ∧
      (∀ eff, checks = none → vstores s m w a (fun e => s.me.elem d w e) (h.active k) = .no eff → exec i s = finish (eff.rebase s))
    loads (.vle d b m imm) unit ∧ loads (.vlff d b m imm) unit ∧ loads (.vlce d b m imm) (fun e => base + BitVec.ofNat 64 (e * 256)) ∧
    loads (.vlse d b c m imm) (fun e => base + BitVec.ofNat 64 e * s.x c) ∧
    (h.aligned c w = true → h.clash d w c w = false → loads (.vlxe d b c m imm) (fun e => base + BitVec.ofNat 64 (s.me.elem c w e * (w / 8)))) ∧
    stores (.vse d b m imm) unit ∧ stores (.vsce d b m imm) (fun e => base + BitVec.ofNat 64 (e * 256)) ∧
    stores (.vsse d b c m imm) (fun e => base + BitVec.ofNat 64 e * s.x c) ∧
    (h.aligned c w = true → stores (.vsxe d b c m imm) (fun e => base + BitVec.ofNat 64 (s.me.elem c w e * (w / 8))))

/-- R358: where an element above the lowest active one cannot be loaded, vlff sets vl to its index and loads the active elements below it, without a trap. -/
def Obligations.FirstFaultLoadShortens : Prop :=
  ∀ (s : State) (d b : Reg) (m : VMMod) (imm : Word), s.acts → s.me.wf = true → 8 * 2 ^ m.width.toNat = s.me.sh.sew →
    s.me.sh.aligned d s.me.sh.sew = true →
    let h := s.me.sh
    let w := h.sew
    let k := s.me.kr m.mask
    ∀ res s1 i eff, res ≠ [] → eff.isTrap = true →
      vloads s m w (fun e => s.x b + imm + BitVec.ofNat 64 (e * (w / 8))) (h.active k) [] = (res, s1, some (i, eff)) →
      i < h.vl ∧ exec (.vlff d b m imm) s =
        .next ((s1.modMe fun q => { (q.putGroup { h with vl := i } d w k res) with vl := BitVec.ofNat 8 i }).advance)

/-! ### Page 2: circular buffers, the matrix unit, the engines -/

/-- R372 to R374: cb.cfg binds a checked descriptor or unbinds; cb.adv moves one pointer by n and nothing else; a move past the free or filled slots traps. -/
def Obligations.CircularBufferOps : Prop :=
  ∀ (s : State) (h : HReg) (b : Reg) (n : BitVec 34), s.acts →
    let core := coreOf s.cur
    let v := (s.x b).toNat
    let scr := (s.x b).getLsbD 63
    let off := v % 2 ^ 20
    (s.myCore.handleBusy h = false → v = 2 ^ 62 →
      exec (.cbCfg h b) s = .next (s.setCore core { s.myCore with cbs := s.myCore.cbs.drop h.toNat }).advance) ∧
    (s.myCore.handleBusy h = false → v / 2 ^ 20 % 2 ^ 43 = 0 → off % 128 = 0 → off + 128 ≤ s.localEnd core scr →
      s.localPoison core scr off 128 = false →
      (s.cbValid core (s.cbAt core scr off) = true →
        exec (.cbCfg h b) s = .next (s.setCore core { s.myCore with cbs := s.myCore.cbs.put h.toNat ⟨scr, off⟩ }).advance) ∧
      (s.cbValid core (s.cbAt core scr off) = false →
        exec (.cbCfg h b) s = .next (s.takeTrap s.cur Cause.cbMisuse (BitVec.ofNat 64 off) 0))) ∧
    (∀ q, s.cbOf core h.toNat = some q → s.localPoison core q.scr q.off 24 = false → s.allOut →
      (∀ m, s.myCore.mma = some m → m.names h = false) → 0 < n.toNat → n.toNat ≤ q.slots →
      (n.toNat ≤ q.free →
        exec (.cbAdvP h n) s = .next (s.localWrite core q.scr (q.off + 16) (bytesOf 4 (q.prod + n.toNat))).advance) ∧
      (n.toNat ≤ q.filled →
        exec (.cbAdvC h n) s = .next (s.localWrite core q.scr (q.off + 20) (bytesOf 4 (q.cons + n.toNat))).advance) ∧
      (q.free < n.toNat → exec (.cbAdvP h n) s = .next (s.takeTrap s.cur Cause.cbMisuse (BitVec.ofNat 64 q.off) 0)) ∧
      (q.filled < n.toNat → exec (.cbAdvC h n) s = .next (s.takeTrap s.cur Cause.cbMisuse (BitVec.ofNat 64 q.off) 0))) ∧
    (s.cbOf core h.toNat = none → exec (.cbAdvP h n) s = .next (s.takeTrap s.cur Cause.cbMisuse 0 0) ∧
      exec (.cbAdvC h n) s = .next (s.takeTrap s.cur Cause.cbMisuse 0 0))

/-- R242, R376, R377: mx.cfg sets the format context and its owner, and zeroes the accumulator where asked or where its kind changes; mx.zero zeroes the named columns and no other element. -/
def Obligations.MatrixContextAndZero : Prop :=
  ∀ (s : State) (a : Reg) (zero : Bool), s.acts → s.myCore.mma = none →
    let v := s.x a
    let f : Fmt := ⟨v.extractLsb' 0 4, v.extractLsb' 4 4, v.extractLsb' 8 3, v.getLsbD 11, v.extractLsb' 16 16, 0⟩
    let leaves := fun (i : Instr) (z : Nat → Bool) => ∃ c : Core, exec i s = .next (s.setCore (coreOf s.cur) c).advance ∧
      c = { s.myCore with acc := c.acc, accSat := c.accSat, accFree := c.accFree, fmt := c.fmt, owner := c.owner } ∧
      (∀ e, e < 2048 → c.accAt e = if z e then 0 else s.myCore.accAt e) ∧
      (∀ e, e < 2048 → c.accSat.contains e = if z e then false else s.myCore.accSat.contains e)
    (v.extractLsb' 32 32 = 0 → v.extractLsb' 12 4 = 0 → leaves (.mxCfg a zero) (fun _ => zero || f.isInt != s.myCore.fmt.isInt) ∧
      ∃ c : Core, exec (.mxCfg a zero) s = .next (s.setCore (coreOf s.cur) c).advance ∧ c.fmt = f ∧ c.owner = some s.cur) ∧
    (v.extractLsb' 32 32 ≠ 0 ∨ v.extractLsb' 12 4 ≠ 0 → exec (.mxCfg a zero) s = .next (s.takeTrap s.cur Cause.illegal 0 0)) ∧
    leaves (.mxZero .all) (fun _ => true) ∧ leaves (.mxZero .left) (fun e => decide (e % 64 < 32)) ∧
    leaves (.mxZero .right) (fun e => decide (32 ≤ e % 64))

/-- R21, R378 to R381: each mode of mma issues where its format agrees, its A operand is in place and its B slot is filled: the core's one pending mma names the operands, the slot owns the accumulator, no buffer moves, and a unit that serves no core serves this one; on gated sub-arrays it waits for the wake that it asks for. -/
def Obligations.MatrixIssue : Prop :=
  ∀ (s : State) (a : Reg) (b : HReg) (fmt : BitVec 4) (asrc : Bool) (mode : Nat) (q : Cb), s.acts → mode < 4 →
    let core := coreOf s.cur
    let c := s.myCore
    let f := c.fmt
    let xa := s.x a
    let ah : HReg := a.setWidth 4
    let na := f.aBytes mode
    let nb := f.bSize mode s.myGrove.latDc
    let i := if mode = 0 then Instr.mma a b asrc fmt else if mode = 1 then .mmaRing a b asrc fmt else if mode = 2 then .mmaLx a b asrc fmt
      else .mmaLa a b asrc fmt
    let full := fun (h : HReg) (z : Cb) (n : Nat) => s.cbOf core h.toNat = some z ∧ n ≤ z.slotSize ∧ 0 < z.filled ∧ s.cbPoison core h.toNat = none ∧
      s.localPoison core z.scr (z.base + z.cons % z.slots * z.slotSize) n = false
    let issued := fun (ahandle : Option HReg) (ascr : Bool) (aoff stride : Nat) =>
      let op : MmaOp := ⟨s.cur, s.myGrp, s.me.task, BitVec.ofNat 2 mode, ahandle, some b, ascr, aoff, stride, q.scr,
        q.base + q.cons % q.slots * q.slotSize, c.ltEn, c.ltOff⟩
      let t := s.setCore core { c with owner := some s.cur, mma := some op }
      if s.myGrove.serving.isNone then t.setGrove (groveOf s.cur) { s.myGrove with serving := some (core % 8) } else t
    let runs := fun (t : State) => if s.myGrove.gated then
        exec i s = .next ((s.setGrove (groveOf s.cur) { s.myGrove with waking := true }).setSlot s.cur { s.me with held := true })
      else exec i s = .next t.advance
    f.refuses mode fmt.toNat = false → c.mma = none → full b q nb →
    (mode = 1 → c.ringOut = none ∧ (s.ringAt s.myGrp core).1 = 0) → (2 ≤ mode → s.myGrove.latDc ≠ 0 ∧ s.myGrove.poisonLat = false) →
    (asrc = false → xa.toNat % 8 = 0 → f.astride.toNat % 8 = 0 → xa.toNat + 31 * f.astride.toNat + na ≤ c.utop.toNat * 256 →
      (∀ r, r < 32 → s.tcmPoison core (xa.toNat + r * f.astride.toNat) na = false) →
      runs (issued none false xa.toNat f.astride.toNat)) ∧
    (asrc = true → ah ≠ b → ∀ z, full ah z (32 * na) → runs (issued (some ah) z.scr (z.base + z.cons % z.slots * z.slotSize) na))

/-- R49, R379, R380, R382: a completed integer mma without saturation adds to every accumulator element the sum of its row and column products modulo 2^32, but that one with its saturated bit set keeps its bound; the unit turns to the next core in round-robin order; one of ring mode leaves its B operand in the outgoing hold, which stays empty at the east edge. The mma of a core that the unit does not serve does not complete. -/
def Obligations.IntegerMatrixProduct : Prop :=
  ∀ (s : State) (core : Nat) (op : MmaOp), (s.core core).mma = some op → op.mode.toNat < 2 →
    let c := s.core core
    let f := c.fmt
    let bs := s.bBytes core op f.bBytes
    let g := groveOfCore core
    let at_ := s.ringAt op.grp core
    let next := ((List.range 8).map fun i => (core % 8 + 1 + i) % 8).find? fun k => g * 8 + k != core && (s.core (g * 8 + k)).mma.isSome
    (s.served core ≠ core → exec (.mmaComplete core) s = .next s) ∧
    (s.served core = core → ∃ d : Core,
      exec (.mmaComplete core) s = .next ((s.setCore core d).setGrove g { s.grove g with lastMma := core % 8, serving := next }) ∧
      (op.mode = 0 → d.ringOut = c.ringOut ∧ d.ringIn = c.ringIn) ∧
      (op.mode = 1 → d.ringOut = (if at_.1 + 1 < at_.2 then some ⟨op.grp, op.task, bs⟩ else none) ∧
        d.ringIn = if op.bhandle = none then none else c.ringIn) ∧
      d = { c with acc := d.acc, accSat := d.accSat, accFree := none, mma := none, fmt := { f with progress := 0 }, ringOut := d.ringOut, ringIn := d.ringIn } ∧
      (isIntFmt f.afmt.toNat = true → isIntFmt f.bfmt.toNat = true → f.sat = false → ∀ i j, i < 32 → j < 64 →
        d.accSat.contains (i * 64 + j) = c.accSat.contains (i * 64 + j) ∧
        (c.accSat.contains (i * 64 + j) = true → d.accAt (i * 64 + j) = c.accAt (i * 64 + j)) ∧
        (c.accSat.contains (i * 64 + j) = false →
          d.accAt (i * 64 + j) = c.accAt (i * 64 + j) + BitVec.ofInt 32 (((List.range (32 * f.steps)).map fun k =>
            intAt f.afmt.toNat (s.aRow core op i) k * intAt f.bfmt.toNat bs (k / 32 * 2048 + k % 32 * 64 + j)).sum))))

/-- R382, R384, R21: a latent mma goes on by two K-steps or ends; a pass moves the outgoing hold to an empty east latch, and drops it at the east edge; a sub-array wakes, and gates only without an mma. -/
def Obligations.MatrixEvents : Prop :=
  ∀ (s : State) (core grove : Nat),
    (∀ op, (s.core core).mma = some op → 2 ≤ op.mode.toNat → s.served core = core →
      ∃ t, exec (.mmaComplete core) s = .next t ∧
        let left := (if op.mode = 2 then 4 else ((s.grove (groveOfCore core)).latDc + 64) / 32) - (s.core core).fmt.progress
        ((t.core core).mma = if left ≤ 2 then none else some op) ∧
        (t.core core).fmt.progress = if left ≤ 2 then 0 else (s.core core).fmt.progress + 2) ∧
    (∀ r, (s.core core).ringOut = some r →
      (∀ e, s.eastCore r.grp core = some e → (s.core e).ringIn = none → exec (.ringPass core) s =
        .next ((s.modCore core fun c => { c with ringOut := none }).modCore e fun c => { c with ringIn := some r })) ∧
      (s.eastCore r.grp core = none → exec (.ringPass core) s = .next (s.modCore core fun c => { c with ringOut := none }))) ∧
    exec (.subarrayWake grove) s = .next (s.modGrove grove fun g => { g with gated := false, waking := false }) ∧
    ((∀ q ∈ s.cores, groveOfCore q.1 = grove → q.2.mma = none) →
      exec (.subarrayPowerGate grove) s = .next (s.modGrove grove fun g => { g with gated := true }))

/-- R383: lt.load and lt.rot fill the latent buffer and the turn rates of the grove from scratch, and change nothing else; a misaligned offset traps. -/
def Obligations.LatentLoads : Prop :=
  ∀ (s : State) (a b : Reg), s.acts →
    let o := s.x a
    let dc := (s.x b).toNat
    let g := groveOf s.cur
    (o.toNat % 128 ≠ 0 → exec (.ltLoad a b) s = .next (s.takeTrap s.cur Cause.misaligned o 3) ∧
      exec (.ltRot a) s = .next (s.takeTrap s.cur Cause.misaligned o 3)) ∧
    (o.toNat % 128 = 0 → s.latentBusy = false →
      (dc = 0 ∨ 32 ≤ dc ∧ dc ≤ 512 ∧ dc % 32 = 0 → o.toNat + 128 * dc ≤ 2 ^ 20 → s.scrPoison g o.toNat (128 * dc) = false →
        ∃ u : List Half, exec (.ltLoad a b) s = .next (s.setGrove g { s.myGrove with latDc := dc, latU := u, poisonLat := false }).advance ∧
          u.length = 64 * dc ∧ ∀ i, i < 64 * dc → (u.getD i 0).toNat = natOf (s.scrRead g (o.toNat + 2 * i) 2)) ∧
      (o.toNat + 128 ≤ 2 ^ 20 → s.scrPoison g o.toNat 128 = false →
        ∃ u : List (BitVec 32), exec (.ltRot a) s = .next (s.setGrove g { s.myGrove with turns := u }).advance ∧
          u.length = 32 ∧ ∀ i, i < 32 → (u.getD i 0).toNat = natOf (s.scrRead g (o.toNat + 4 * i) 4)))

/-- R385: mx.drain completes in every format that its context admits and in both local spaces, where every row it writes lies in the space; the accumulator stays unless it is zeroed. Whole elements (FP32 or INT32) drained to rows apart in TCM lie at their rows and columns, and every other byte stays. A global destination traps ILLEGAL. -/
def Obligations.MatrixDrain : Prop :=
  ∀ (s : State) (a b : Reg) (imm : Word) (fmt : BitVec 4) (space : Space) (zero : Bool) (cols : Cols), s.acts →
    let e := s.x b + imm
    let x := s.x a
    let core := coreOf s.cur
    let row := fun (i : Nat) => e.toNat + i * x.toNat
    let sz := drainSize fmt.toNat
    let first := if cols = .right then 32 else 0
    let n := if cols = .all then 64 else 32
    (space = .glob → exec (.mxDrain a b imm fmt space zero cols) s = .next (s.takeTrap s.cur Cause.illegal 0 0)) ∧
    (space ≠ .glob → s.myCore.mma = none → s.myCore.fmt.rm.toNat ≤ 4 → drainFmtOk fmt = true → s.myCore.fmt.isInt = decide (5 ≤ fmt.toNat) →
      e.toNat % sz = 0 → x.toNat % sz = 0 →
      (∀ i, i < 32 → (e + BitVec.ofNat 64 i * x + BitVec.ofNat 64 (first * sz)).toNat + n * sz ≤ s.localEnd (coreOf s.cur) (space == .scr)) →
      ∃ t, exec (.mxDrain a b imm fmt space zero cols) s = .next t ∧ t.mem = s.mem ∧ t.me.x = s.me.x ∧ t.me.pc = s.me.npc ∧
        (zero = false → t.myCore.acc = s.myCore.acc ∧ t.myCore.accFree = s.myCore.accFree) ∧
        (sz = 4 → space = .tcm → cols = .all → 256 ≤ x.toNat → e.toNat + 31 * x.toNat + 256 < 2 ^ 64 →
          (∀ i j, i < 32 → j < 64 → natOf (t.tcmRead core (row i + 4 * j) 4) = (s.myCore.accAt (i * 64 + j)).toNat) ∧
          (∀ p, (∀ i k, i < 32 → k < 256 → p ≠ .tcm core (row i + k)) → t.byteAt p = s.byteAt p) ∧
          (∀ i, i < 2048 → t.myCore.accAt i = if zero then 0 else s.myCore.accAt i)))

/-- R386, R387, R390: a checked command joins its engine's queue, whatever runs before it, and eng.stat packs both engines' states; a slot whose command failed takes that failure's trap at its next command, and the cause is then cleared. -/
def Obligations.EngineIssue : Prop :=
  ∀ (s : State) (a : Reg) (kind : Nat), s.acts → kind < 3 →
    let i := if kind = 0 then Instr.cp a else if kind = 1 then .ga a else .sc a
    let g := kind != 0
    let c := s.myCore
    let off := (s.x a).toNat
    let bs := s.tcmRead (coreOf s.cur) off 48
    let d := engDesc bs
    let put := fun (k : Core) (e : Engine) => if g then { k with gathEng := e } else { k with copyEng := e }
    let eng := if g then c.gathEng else c.copyEng
    let top := c.utop.toNat * 256
    let checked := off % 16 = 0 ∧ off + 48 ≤ top ∧ s.tcmPoison (coreOf s.cur) off 48 = false ∧
      (d.hasStatus = true → d.status % 8 = 0 ∧ d.status + 8 ≤ top) ∧ d.illegal (kind == 0) = false ∧ d.localOut kind = false ∧
      (kind ≠ 0 → d.baseSkewed = false) ∧ s.cbBad (coreOf s.cur) d kind = false ∧ eng.queue.length < 2 ∧ eng.back = []
    ((∀ f ∈ eng.fail, s.mineToTrap f = false) → checked → (d.dstGlobal = true → s.me.collecting = false) →
      exec i s = .next (s.setCore (coreOf s.cur)
        (put c { eng with queue := eng.queue ++ [⟨BitVec.ofNat 2 kind, s.cur, s.me.task, s.me.grp, s.me.ctx, bs, off, 0, none, none, []⟩] })).advance) ∧
    (∀ f, eng.fail.find? s.mineToTrap = some f → exec i s = .next
      ((s.setCore (coreOf s.cur) (put c { eng with fail := eng.fail.filter fun o => o != f })).takeTrap s.cur f.cause.toNat f.addr (if g then 2 else 1))) ∧
    exec (.engStat a) s = .next (s.setX a (BitVec.ofNat 64 (
      (c.gathEng.fail.head?.elim 0 fun f => f.cause.toNat) * 2 ^ 16 + (c.copyEng.fail.head?.elim 0 fun f => f.cause.toNat) * 2 ^ 8 +
      (if c.gathEng.run.isSome then 2 ^ 5 else 0) + c.gathEng.queue.length * 2 ^ 3 +
      (if c.copyEng.run.isSome then 2 ^ 2 else 0) + c.copyEng.queue.length))).advance

/-- R387, R388, R236, R211: the head of an idle engine's queue starts with a zero status word; a command that ran to its end leaves the engine free; one that failed leaves its cause; one that a translation stopped keeps its place behind its record. -/
def Obligations.EngineProgress : Prop :=
  ∀ (s : State) (core : Nat) (g : Bool),
    let e := (s.core core).eng g
    (∀ c rest, e.queue = c :: rest → e.back = [] → e.run = none → e.fail = [] → e.fsrc.awaiting = none → (s.grove (groveOfCore core)).fenced = false →
      s.cbReady core (engDesc c.desc) = true → c.progress = 0 →
      exec (.engineCommandStart core g) s =
        .next ((s.modCore core fun q => q.setEng g { e with run := some c, queue := rest }).engStatus core c 0)) ∧
    (∀ s1 c, s.engRunOut core g = (s1, some none) → s1.engRuns core g = some c →
      ∃ t, exec (.engineCommandComplete core g) s = .next t ∧ t = s1.engDone core g c ∧ ((t.core core).eng g).run = none) ∧
    (∀ s1 c cause addr sec, s.engRunOut core g = (s1, some (some (.fail cause addr sec))) → s1.engRuns core g = some c → s1.hasIssuer c = true →
      ∃ t, exec (.engineCommandFail core g) s = .next t ∧ t = s1.engFailed core g c cause addr sec ∧ ((t.core core).eng g).run = none ∧
        ((t.core core).eng g).fail.getLast? = some ⟨BitVec.ofNat 8 cause, addr, c.slot, c.task, (s1.core core).fills (engDesc c.desc).cb⟩) ∧
    (∀ s1 c f, s.engRunOut core g = (s1, some (some (.fault f))) → s1.engRuns core g = some c →
      ∃ t, exec (.engineTranslationFault core g) s = .next t ∧ t = s1.engFault core g c f ∧ ((t.core core).eng g).run = some { c with list := none, halves := [] } ∧
        ((t.core core).eng g).fsrc.awaiting.isSome = true)

/-- R386, R388: the copy engine moves one row of at most a sector between two places of its core's own TCM: the bytes arrive, no other byte changes, and the engine is free. -/
def Obligations.LocalCopyMovesBytes : Prop :=
  ∀ (s : State) (core : Nat) (c : EngCmd), (s.core core).copyEng.run = some c → (s.core core).copyEng.fsrc.awaiting = none →
    c.kind = 0 → c.cap = none → c.progress = 0 →
    let d := engDesc c.desc
    d.srcSpace = 1 → d.dstSpace = 1 → d.cbMode = 0 → d.hasStatus = false → d.rows = 1 → 0 < d.n → d.src % 128 + d.n ≤ 128 →
    d.dst % 128 + d.n ≤ 128 → d.dst + d.n ≤ 2 ^ 16 → d.src + d.n ≤ 2 ^ 16 → s.tcmPoison core d.src d.n = false →
    ∃ t, exec (.engineCommandComplete core false) s = .next t ∧ t.tcmRead core d.dst d.n = s.tcmRead core d.src d.n ∧
      (∀ p, (∀ k, k < d.n → p ≠ .tcm core (d.dst + k)) → t.byteAt p = s.byteAt p) ∧ (t.core core).copyEng.run = none

/-! ### Page 3: memory -/

/-- R51, R59, R61, R323: where an address may not lead, a load and a store trap with the cause of the first failing check and the effective address; the skewed region moves each word within its row. That a slot without a task has no spill window, so that TCM from 2^31 on traps PERMISSION, is the model's choice (log 61). -/
def Obligations.AddressChecks : Prop :=
  ∀ (s : State) (a b : Reg) (size : BitVec 2) (m : MemMod) (imm : Word), s.acts → s.allOut →
    let e := s.x b + imm
    let n := 2 ^ size.toNat
    let c := s.myCore
    let traps := fun (cause : Nat) => exec (.ld a b size m imm) s = .next (s.takeTrap s.cur cause e 0) ∧
      exec (.st a b size m imm) s = .next (s.takeTrap s.cur cause e 0)
    let base := c.skewBase.toNat * 256
    let rows := (c.skewRows.toNat + 1) * 256
    let inRows := c.skewEn = true ∧ base ≤ e.toNat ∧ e.toNat + n ≤ base + rows
    (m.space = .glob → 2 ^ 48 ≤ e.toNat → traps Cause.translation) ∧
    (m.space ≠ .glob → 2 ^ 32 ≤ e.toNat → traps Cause.permission) ∧
    (e.toNat < (if m.space = .glob then 2 ^ 48 else 2 ^ 32) → e.toNat % n ≠ 0 → traps Cause.misaligned) ∧
    (e.toNat < 2 ^ 32 → e.toNat % n = 0 →
      (m.space = .tcm → c.utop.toNat * 256 < e.toNat + n → e.toNat < 2 ^ 31 ∨ s.me.task = none → traps Cause.permission) ∧
      (m.space = .scr → m.sk = false → 2 ^ 20 < e.toNat + n → traps Cause.permission) ∧
      (m.space = .scr → m.sk = true → ¬ inRows → traps Cause.permission) ∧
      (m.space = .scr → m.sk = true → inRows → s.place .scr true e n n =
        .scr (base + (e.toNat - base) / 256 * 256 + ((e.toNat - base) / 8 % 32 + (e.toNat - base) / 256) % 32 * 8 + e.toNat % 8)))

/-- R320, R322, R324, R325: a load, store, atomic or reduction in TCM or scratch at the offset that its address leads to: what the register and the bytes hold after it, and that nothing else changes; a poisoned word traps. -/
def Obligations.LocalAccess : Prop :=
  ∀ (s : State) (a b c : Reg) (size : BitVec 2) (m : MemMod) (k : AtomMod) (imm : Word) (wide scr : Bool) (o : Nat), s.acts → s.allOut →
    let core := coreOf s.cur
    let place := fun (n : Nat) => if scr then MemAt.scratch (groveOf s.cur) n else MemAt.tcm core n
    let read := fun (t : State) (n : Nat) => natOf (if scr then t.scrRead (groveOf s.cur) o n else t.tcmRead core o n)
    let poisoned := fun (n : Nat) => if scr then s.scrPoison (groveOf s.cur) o n else s.tcmPoison core o n
    let at_ := fun (sp : Space) (sk : Bool) (e : Word) (n : Nat) => s.place sp sk e n n = if scr then .scr o else .tcm o
    let stores := fun (i : Instr) (n v : Nat) (r : Word) => ∃ t, exec i s = .next t ∧ read t n = v % 2 ^ (8 * n) ∧
      (∀ p, (∀ j, j < n → p ≠ place (o + j)) → t.byteAt p = s.byteAt p) ∧ t.me = { (s.me.setXr a r) with pc := s.me.npc }
    let n := 2 ^ size.toNat
    let wa := if k.wide then 64 else 32
    let old := read s (wa / 8)
    let op := (s.x c).toNat % 2 ^ wa
    let exp := (s.x a).toNat % 2 ^ wa
    let amo := fun (i : Instr) (signed : Bool) (v : Nat) => stores i (wa / 8) v (if signed then BitVec.ofInt 64 (sInt wa old) else BitVec.ofNat 64 old)
    (at_ m.space m.sk (s.x b + imm) n →
      (poisoned n = false → exec (.ld a b size m imm) s = .next ((s.acqIf m.ord).setX a (BitVec.ofNat 64 (read s n))).advance) ∧
      (poisoned n = true → exec (.ld a b size m imm) s = .next (s.takeTrap s.cur Cause.poison (s.x b + imm) 0)) ∧
      stores (.st a b size m imm) n (s.x a).toNat (s.x a)) ∧
    (at_ k.space false (s.x b) (wa / 8) → s.me.collecting = false → poisoned (wa / 8) = false →
      amo (.amoAdd a b c k) true (old + op) ∧ amo (.amoSwap a b c k) true op ∧ amo (.amoAnd a b c k) true (old &&& op) ∧
      amo (.amoOr a b c k) true (old ||| op) ∧ amo (.amoXor a b c k) true (old ^^^ op) ∧
      amo (.amoMin a b c k) true (if sInt wa op < sInt wa old then op else old) ∧
      amo (.amoMax a b c k) true (if sInt wa old < sInt wa op then op else old) ∧
      amo (.amoCas a b c k) true (if old = exp then op else old) ∧
      amo (.amoMinN a b c k) false (min old op) ∧ amo (.amoMaxN a b c k) false (max old op)) ∧
    (let w := if wide then 64 else 32
     let v := (s.x a).toNat % 2 ^ w
     let was := read s (w / 8)
     let f := fun (r : FVal) => (fmtF32.round 0 false 0 r).1
     let x := fmtF32.value was
     let y := fmtF32.value v
     ∀ space, at_ space false (s.x b) (w / 8) → poisoned (w / 8) = false →
      stores (.redAdd a b wide space) (w / 8) (was + v) (s.x a) ∧
      stores (.redMin a b wide space) (w / 8) (if sInt w v < sInt w was then v else was) (s.x a) ∧
      stores (.redMax a b wide space) (w / 8) (if sInt w was < sInt w v then v else was) (s.x a) ∧
      stores (.redMinN a b wide space) (w / 8) (min was v) (s.x a) ∧ stores (.redMaxN a b wide space) (w / 8) (max was v) (s.x a) ∧
      (wide = false → stores (.redAddF32 a b space) 4 (f (fAdd false x y).1) (s.x a) ∧ stores (.redMinF32 a b space) 4 (f (fMin x y)) (s.x a) ∧
        stores (.redMaxF32 a b space) 4 (f (fMax x y)) (s.x a)))

/-- R129, R130, R140, R141, R155, R322, R324, R325: an access to global memory whose translation stands. A load reads performed memory under the slot's own buffered store; a store waits in the slot's buffer; an atomic reads and writes at the home in one step; a reduction folds into the core's update-only copy; in collecting mode a store and a reduction become entries and memory stays. -/
def Obligations.GlobalAccess : Prop :=
  ∀ (s s1 : State) (a b c : Reg) (size : BitVec 2) (m : MemMod) (k : AtomMod) (imm : Word) (wide : Bool) (p : Nat) (inter : Bool),
    s.acts → m.space = .glob → k.space = .glob →
    let e := s.x b + imm
    let n := 2 ^ size.toNat
    let x := s.x b
    let wa := if k.wide then 64 else 32
    let old := natOf (memRead s1.mem p (wa / 8))
    let op := (s.x c).toNat % 2 ^ wa
    let exp := (s.x a).toNat % 2 ^ wa
    let w := if wide then 64 else 32
    let amo := fun (i : Instr) (signed : Bool) (v : Nat) => ∃ t, exec i s = .next t ∧
      natOf (memRead t.mem p (wa / 8)) = v % 2 ^ wa ∧ (∀ q, (∀ j, j < wa / 8 → q ≠ .device (p + j)) → t.byteAt q = s1.byteAt q) ∧
      t.me.x = (s1.me.setXr a (if signed then BitVec.ofInt 64 (sInt wa old) else BitVec.ofNat 64 old)).x ∧ t.me.pc = s1.me.npc
    let reds := [(Instr.redAdd a b wide .glob, redType wide true, 0), (.redMin a b wide .glob, redType wide true, 1),
      (.redMax a b wide .glob, redType wide true, 2), (.redMinN a b wide .glob, redType wide false, 1), (.redMaxN a b wide .glob, redType wide false, 2)] ++
      (if wide then [] else [(Instr.redAddF32 a b .glob, 4, 0), (.redMinF32 a b .glob, 4, 1), (.redMaxF32 a b .glob, 4, 2)])
    (e.toNat < 2 ^ 48 → e.toNat % n = 0 →
      (s.xlate .load .plain e n true e = .ok (p, inter) s1 → s1.openAt p n → s1.direct →
        (s1.me.sbuf = [] → exec (.ld a b size m imm) s = .next ((s1.acqIf m.ord).setX a (BitVec.ofNat 64 (natOf (memRead s1.mem p n)))).advance) ∧
        (∀ bs g, s1.me.sbuf = [⟨p, inter, bs, g⟩] → bs.length = n →
          exec (.ld a b size m imm) s = .next ((s1.acqIf m.ord).setX a (BitVec.ofNat 64 (natOf bs))).advance)) ∧
      (s.xlate .store .plain e n true e = .ok (p, inter) s1 → s.allOut → s.me.collecting = false → s1.me.collecting = false → s1.openAt p n →
        s1.me.sbuf = [] →
        exec (.st a b size m imm) s = .next (s1.setSlot s1.cur { s1.me with sbuf := [⟨p, inter, bytesOf n (s.x a).toNat, m.sig⟩] }).advance) ∧
      (s.xlate .store .plain e n true e = .ok (p, inter) s1 → s.me.collecting = true → s1.me.collecting = true →
        (∀ s2, s1.hamperPut [storeEntry (if m.sig then 5 else 0) e.toNat (bytesOf n (s.x a).toNat)] = some s2 →
          exec (.st a b size m imm) s = .next s2.advance) ∧
        (s1.hamperPut [storeEntry (if m.sig then 5 else 0) e.toNat (bytesOf n (s.x a).toNat)] = none →
          exec (.st a b size m imm) s = .next (s1.takeTrap s1.cur Cause.hamperCapacity e 0)))) ∧
    (x.toNat < 2 ^ 48 → x.toNat % (wa / 8) = 0 → s.xlate .atomic .plain x (wa / 8) true x = .ok (p, inter) s1 → s.allOut →
      s.me.collecting = false → s1.quietAt p (wa / 8) →
      amo (.amoAdd a b c k) true (old + op) ∧ amo (.amoSwap a b c k) true op ∧ amo (.amoAnd a b c k) true (old &&& op) ∧
      amo (.amoOr a b c k) true (old ||| op) ∧ amo (.amoXor a b c k) true (old ^^^ op) ∧
      amo (.amoMin a b c k) true (if sInt wa op < sInt wa old then op else old) ∧
      amo (.amoMax a b c k) true (if sInt wa old < sInt wa op then op else old) ∧
      amo (.amoCas a b c k) true (if old = exp then op else old) ∧
      amo (.amoMinN a b c k) false (min old op) ∧ amo (.amoMaxN a b c k) false (max old op)) ∧
    (x.toNat < 2 ^ 48 → x.toNat % (w / 8) = 0 → s.xlate .atomic .plain x (w / 8) true x = .ok (p, inter) s1 → ∀ r ∈ reds,
      (s1.me.collecting = false → s1.quietAt p (w / 8) → s1.myCore.upd.length < 512 →
        exec r.1 s = .next ((s1.modMyCore fun q => q.fold p inter r.2.1 r.2.2 (s.x a).toNat).strongDone s1 s1.cur p (w / 8)).advance) ∧
      (s1.me.collecting = true → ∀ s2,
        s1.hamperPut [⟨1, BitVec.ofNat 12 (r.2.1 + 16 * r.2.2), x.setWidth 48, BitVec.ofNat 64 ((s.x a).toNat % 2 ^ w), [], 0, none, 0⟩] = some s2 →
        exec r.1 s = .next s2.advance))

/-- R143, R144, R326, R327: a load of a full future takes its value, and .take empties it; of an empty one it is refused or deferred by its lifetime and the home's buffer; st.f fills the word and answers the deferred load in line; a deferral expires with TIMEOUT, and a stop cancels one. -/
def Obligations.FutureResults : Prop :=
  ∀ (s s1 : State) (a b : Reg) (imm : Word) (take : Bool) (p slot : Nat) (inter : Bool),
    let e := s.x b + imm
    let ld := if take then Instr.ldFTake a b imm else .ldF a b imm
    (s.acts → e.toNat < 2 ^ 48 → e.toNat % 8 = 0 → s.xlate .load .future e 8 true e = .ok (p, inter) s1 → s.me.collecting = false →
      s1.direct → s1.quietAt p 8 →
      let same := fun (t : State) (status : BitVec 2) (pc : Addr) => s1.sameBytes t ∧
        t.me = { s1.me with x := t.me.x, futStatus := status, futRefused := t.me.futRefused, st := t.me.st, pc := pc }
      (s1.isFull p = true → ∃ t, exec ld s = .next t ∧ same t 0 s1.me.npc ∧ t.isFull p = !take ∧
        t.me.x = (s1.me.setXr a (BitVec.ofNat 64 (natOf (memRead s1.mem p 8)))).x ∧ t.me.st = s1.me.st) ∧
      (s1.isFull p = false → ∃ t, exec ld s = .next t ∧ t.me.x = s1.me.x ∧ t.tags = s1.tags ∧
        (s1.me.futLife = 0 → same t 1 s1.me.npc ∧ t.deferrals = s1.deferrals) ∧
        (s1.me.futLife ≠ 0 → 256 ≤ s1.deferCount (s1.home p inter) → same t 2 s1.me.npc ∧ t.deferrals = s1.deferrals ∧
          t.me.futRefused.toNat = min 255 (s1.me.futRefused.toNat + 1)) ∧
        (s1.me.futLife ≠ 0 → s1.deferCount (s1.home p inter) < 256 → same t s1.me.futStatus s1.me.pc ∧ t.me.st = .waiting ∧
          t.deferrals = s1.deferrals ++ [⟨s1.cur, s1.home p inter, p, take, a, s1.tick.toNat + s1.me.futLife.toNat⟩]))) ∧
    (s.acts → e.toNat < 2 ^ 48 → e.toNat % 8 = 0 → s.xlate .store .future e 8 true e = .ok (p, inter) s1 → s1.me.collecting = false →
      s1.allOut → s1.openAt p 8 → (∀ q ∈ s1.gatesList, q.1 ≠ p) →
      ∃ t, exec (.stF a b imm) s = .next t ∧ memRead t.mem p 8 = bytesOf 8 (s1.x a).toNat ∧
        (∀ q, (∀ j, j < 8 → q ≠ .device (p + j)) → t.byteAt q = s1.byteAt q) ∧
        ((∀ d ∈ s1.deferrals, d.pa ≠ p) → t.isFull p = true ∧ t.deferrals = s1.deferrals ∧ t.me.x = s1.me.x) ∧
        (∀ d, s1.deferrals = [d] → d.pa = p → d.slot ≠ s1.cur → t.isFull p = !d.take ∧ t.deferrals = [] ∧
          (t.slot d.slot).x = ((s1.slot d.slot).setXr d.dst (s1.x a)).x ∧ (t.slot d.slot).futStatus = 0 ∧ (t.slot d.slot).st = .run)) ∧
    (∀ d, s.deferrals = [d] → d.slot = slot →
      (d.expire ≤ s.tick.toNat → exec (.deferralExpiry slot) s =
        .next { s.setSlot slot { s.slot slot with futStatus := 1, st := .run, pc := (s.slot slot).npc } with deferrals := [] }) ∧
      ((s.slot slot).stop.isSome = true → exec (.futureCancel slot) s =
        .next { s.setSlot slot { s.slot slot with st := .run } with deferrals := [] }))

/-- R130, R132, R135, R296, R328 to R331: a fence goes on once every earlier store of the slot has performed; fence.x and icsync as their rules say; dc.flush and dc.discard move one sector at a time, the one clean, the other back to what memory held; a hint does nothing. -/
def Obligations.OrderingInstructions : Prop :=
  ∀ (s s1 : State) (a b : Reg) (scope : BitVec 3) (p q : BitVec 4) (pa : Nat) (inter : Bool) (h : BitVec 11),
    (s.me.packet = none → exec (.hint h) s = .next s.advance) ∧
    (s.acts → scope.toNat ≤ 4 → (s.drain s.cur = some s1 → exec (.fence scope) s = .next s1.advance ∧ s1.me.sbuf = []) ∧
      (s.drain s.cur = none → exec (.fence scope) s = .next (s.setSlot s.cur { s.me with held := true }))) ∧
    (s.acts → 5 ≤ scope.toNat → exec (.fence scope) s = .next (s.takeTrap s.cur Cause.illegal 0 0)) ∧
    (s.acts → scope.toNat ≤ 4 → p ≠ q → p.toNat ≤ 6 → q.toNat ≤ 6 → (p = 5 ∨ q = 5 → (s.ctxOf s.me.ctx).perm.getLsbD 3 = true) →
      (∀ f ∈ s.myCore.copyEng.fail ++ s.myCore.gathEng.fail, f.slot ≠ s.cur) →
      (∀ m, s.myCore.mma = some m → m.slot ≠ s.cur) →
      (p = 0 → s.drain s.cur = some s1 → exec (.fenceX p q scope) s = .next s1.advance) ∧ (p ≠ 0 → exec (.fenceX p q scope) s = .next s.advance)) ∧
    (s.acts → exec .icsync s = .next (s.setCore (coreOf s.cur) { s.myCore with icache := [] }).advance) ∧
    (s.acts → a ≠ b → a ≠ 0 → b ≠ 0 → s.me.collecting = false → (s.x a).toNat + (s.x b).toNat ≤ 2 ^ 48 →
      (s.x b = 0 → exec (.dcFlush a b) s = .next s.advance ∧ exec (.dcDiscard a b) s = .next s.advance) ∧
      (s.x b ≠ 0 →
        let k := min (s.x b).toNat (128 - (s.x a).toNat % 128)
        let moved := fun (t : State) => t.x a = s1.x a + BitVec.ofNat 64 k ∧ t.x b = s1.x b - BitVec.ofNat 64 k ∧
          t.me.pc = if s1.x b = BitVec.ofNat 64 k then s1.me.npc else s1.me.pc
        (s.xlate .load .plain (s.x a) k false (s.x a) = .ok (pa, inter) s1 → s1.openAt pa k → s1.drainSecs s1.cur [pa / 128] = s1 → s1.pgDirty = 0 →
          ∃ t, exec (.dcFlush a b) s = .next t ∧ moved t ∧ t.dirty.find (pa / 128) = none ∧ s1.sameBytes t) ∧
        (s.xlate .store .plain (s.x a) k false (s.x a) = .ok (pa, inter) s1 → s1.openAt pa k → s1.drainSecs s1.cur [pa / 128] = s1 →
          ∃ t, exec (.dcDiscard a b) s = .next t ∧ moved t ∧ t.dirty.find (pa / 128) = none ∧
            (s1.dirty.find (pa / 128) = none → s1.sameBytes t) ∧
            (∀ d, s1.dirty.find (pa / 128) = some d → d.bytes.length = 128 → memRead t.mem (pa / 128 * 128) 128 = d.bytes ∧
              ∀ r, (∀ j, j < 128 → r ≠ .device (pa / 128 * 128 + j)) → t.byteAt r = s1.byteAt r))))

/-! ### Page 3: waiting, barriers, messages, tasks -/

/-- R122, R123, R332: a wait whose block is in order begins with its conditions; one that holds ends it with status 0 and the mask of what holds, a broken object with status 2, no time with status 1, and else the slot waits at the same pc with its deadline. -/
def Obligations.WaitOutcomes : Prop :=
  (∀ (s s1 : State) (a b c : Reg) (all : Bool) (n : BitVec 2) (imm : Word) (cs1 : List Cond), s.acts →
    let e := s.x b + imm
    let cs := (List.range (n.toNat + 1)).map fun i => condOf (s.tcmRead (coreOf s.cur) (e.toNat + 16 * i) 16)
    (e.toNat % 16 ≠ 0 → exec (.wait a b c all n imm) s = .next (s.takeTrap s.cur Cause.misaligned e 0)) ∧
    (e.toNat % 16 = 0 → s.myCore.utop.toNat * 256 < e.toNat + 16 * (n.toNat + 1) →
      exec (.wait a b c all n imm) s = .next (s.takeTrap s.cur Cause.permission e 0)) ∧
    (e.toNat % 16 = 0 → e.toNat + 16 * (n.toNat + 1) ≤ s.myCore.utop.toNat * 256 → s.tcmPoison (coreOf s.cur) e.toNat (16 * (n.toNat + 1)) = false →
      (∀ k ∈ cs, k.bad = false ∧ k.skewed = false) → s.condsXlate cs = .ok cs1 s1 →
      (∀ k ∈ cs1, k.kind ≠ 2 ∧ (k.kind = 4 → s1.chanMember s1.cur k.par.toNat = true)) →
      exec (.wait a b c all n imm) s = finish (s1.beginWait (s1.mkWait .waitI cs1 all a (s.x c).toNat)))) ∧
  (∀ (s : State) (w : Wait), (∀ c ∈ w.conds, c.kind ≠ 3) → s.commits = [] → s.guest.held = [] → (∀ q ∈ s.cores, q.2.upd = []) →
    s.drainSecs s.cur (nub ((w.conds.filter Cond.inTable).map fun c => sectorOf c.pa)) = s →
    let r := s.evalWait s.cur s.me.grp (fun _ => true) w
    let ends := fun (status : Nat) => finish (s.beginWait w) =
      .next (((s.acquired s.cur).modMe fun q => { (q.setXr w.dst (s.waitValue s.me.grp r status)) with wait := none }).advance)
    (∀ status, r.verdict = some status → ends status) ∧ (r.verdict = none → w.deadline ≤ w.start → ends 1) ∧
    (r.verdict = none → w.start < w.deadline → ∃ cs, finish (s.beginWait w) = .next (s.modMe fun q => { q with wait := some { w with conds := cs }, st := .waiting }) ∧
      cs.map (fun c => { c with polled := false }) = r.conds.map (fun c => { c with polled := false })))

/-- R116 to R120, R334, R335: an arrival at a barrier adds its count, advances the generation as often as the count is reached, and keeps the rest; a wait at another generation ends at once, a broken object gives status 2; an arrival at a channel waits for the other members and the last one advances it. An advance past the count sets overrun. A task's wait writes the owner; a slot that runs no task writes none, the model's reading (log 54). -/
def Obligations.BarriersAndChannels : Prop :=
  ∀ (s s1 : State) (a b c : Reg) (n : BitVec 27) (p : Nat) (inter : Bool), s.acts →
    let e := s.x b
    let word := fun (t : State) (off : Nat) => natOf (memRead t.mem (p + off) 4)
    let count := word s1 0
    let sum := word s1 4 + n.toNat
    let gen := word s1 8
    let broken := natOf (memRead s1.mem (p + 12) 1) / 2 % 2 = 1
    (n = 0 ∨ 65535 < n.toNat → exec (.barArrive a b n) s = .next (s.takeTrap s.cur Cause.illegal 0 0)) ∧
    (0 < n.toNat → n.toNat ≤ 65535 → e.toNat < 2 ^ 48 → e.toNat % 64 = 0 → s.xlate .atomic .plain e 64 true e = .ok (p, inter) s1 →
      s1.me.collecting = false → s1.allOut → s1.quietAt p 64 →
      (count = 0 ∨ broken → exec (.barArrive a b n) s = .next (s1.setX a (BitVec.ofNat 64 (gen * 2 ^ 32 + 32))).advance) ∧
      (count ≠ 0 → ¬ broken → ∀ s2, s1.barEnter (s1.home p inter) p = some s2 → ∃ t, exec (.barArrive a b n) s = .next t ∧
        word t 0 = count ∧ word t 4 = sum % count ∧ word t 8 = (gen + sum / count) % 2 ^ 32 ∧
        (let f := natOf (memRead s1.mem (p + 12) 1)
         natOf (memRead t.mem (p + 12) 1) = if sum < count then f else if sum = count then f % 4 else (f ||| 1) % 4) ∧
        (s1.me.task ≠ none → natOf (memRead t.mem (p + 16) 8) = s1.groupDesc s1.me.grp % 2 ^ 64) ∧
        t.me.x = (s1.me.setXr a (BitVec.ofNat 64 (gen * 2 ^ 32))).x ∧ t.me.pc = s1.me.npc ∧
        ∀ q, (∀ j, j < 64 → q ≠ .device (p + j)) → t.byteAt q = s1.byteAt q)) ∧
    (e.toNat < 2 ^ 48 → e.toNat % 64 = 0 → s.xlate .load .plain e 64 true e = .ok (p, inter) s1 → s1.commits = [] →
      s1.quietAt p 64 → s1.drainSecs s1.cur [p / 128] = s1 →
      ∃ t, exec (.barWait a b c) s = .next t ∧ (s1.me.task = none → s1.sameBytes t) ∧
        (s1.me.task ≠ none → (∀ q, (∀ j, j < 8 → q ≠ .device (p + 16 + j)) → t.byteAt q = s1.byteAt q) ∧
          (count = 0 ∨ broken ∨ s1.barEnter (s1.home p inter) p ≠ none →
            natOf (memRead t.mem (p + 16) 8) = s1.groupDesc s1.me.grp % 2 ^ 64)) ∧
        (count = 0 ∨ broken → t.me.x = (s1.me.setXr a 32).x ∧ t.me.pc = s1.me.npc ∧ t.me.wait = none) ∧
        (count ≠ 0 → ¬ broken → gen ≠ (s1.x c).toNat → t.me.x = (s1.me.setXr a 1).x ∧ t.me.pc = s1.me.npc ∧ t.me.wait = none) ∧
        (count ≠ 0 → ¬ broken → gen = (s1.x c).toNat → t.me.x = s1.me.x ∧ t.me.pc = s1.me.pc ∧ t.me.st = .waiting)) ∧
    (∀ (r : BitVec 4) (k : BitVec 3) (g : Group) (ch : Chan), s.me.collecting = false → s.allOut → s.chanMember s.cur k.toNat = true →
      s.groups.find s.me.grp = some g → g.chans[k.toNat]? = some ch → ch.arrived.contains (coreOf s.cur) = false →
      let d : Reg := r.setWidth 5
      (ch.broken = true → exec (.gbSync r k) s = .next ((s.acquired s.cur).setX d (BitVec.ofNat 64 (ch.gen.toNat * 2 ^ 32 + 32))).advance) ∧
      (ch.broken = false → ch.arrived.length + 1 < g.members k.toNat → ∃ t, exec (.gbSync r k) s = .next t ∧ t.me.st = .waiting ∧
        t.me.pc = s.me.pc ∧ t.chanOf s.me.grp k.toNat = some { ch with arrived := ch.arrived ++ [coreOf s.cur] }) ∧
      (ch.broken = false → ch.arrived.length + 1 = g.members k.toNat → ch.next.length < g.members k.toNat → ∃ t, exec (.gbSync r k) s = .next t ∧
        t.me.x = (s.me.setXr d (BitVec.ofNat 64 ((ch.gen + 1).toNat * 2 ^ 32))).x ∧ t.me.pc = s.me.npc ∧ t.me.wait = none ∧
        t.chanOf s.me.grp k.toNat = some { ch with gen := ch.gen + 1, arrived := ch.next, next := [] }))

/-- R53, R125, R126, R245, R281, R298, R336, R337: msg.open starts a packet for a slot of the clearing, msg.put adds a word up to sixteen, msg.end puts it into the grove's replay window with its source and length once the slot's earlier stores have performed; any other instruction between them traps ILLEGAL, but the two firmware-only ones on a user core, which trap PRIVILEGE before that; recv takes the oldest packet from its place in the inbox to user TCM or says that there is none, and traps at a poisoned word. That COLLECT_FORBIDDEN goes before the destination's checks is the model's choice (log 96). -/
def Obligations.Messages : Prop :=
  ∀ (s : State) (a b : Reg),
    let illegal := fun (i : Instr) => exec i s = .next (s.takeTrap s.cur Cause.illegal 0 0)
    (s.me.guard = true → s.me.packet = none →
      (s.me.collecting = true → exec (.msgOpen a) s = .next (s.takeTrap s.cur Cause.collectForbidden 0 0)) ∧
      (s.me.collecting = false → (∀ k, s.msgDest (s.x a) = .ok k →
        exec (.msgOpen a) s = .next (s.setSlot s.cur { s.me with packet := some ⟨k, []⟩, pc := s.me.npc })) ∧
        ∀ cause, s.msgDest (s.x a) = .error cause → exec (.msgOpen a) s = .next (s.takeTrap s.cur cause 0 0)) ∧
      illegal (.msgPut a) ∧ illegal .msgEnd) ∧
    (s.me.packet = none → s.me.guard = false → exec (.msgPut a) s = .next s.advance ∧ exec .msgEnd s = .next s.advance) ∧
    (∀ k ws, s.me.packet = some ⟨k, ws⟩ →
      (s.me.guard = true → ws.length < 16 →
        exec (.msgPut a) s = .next (s.setSlot s.cur { s.me with packet := some ⟨k, ws ++ [s.x a]⟩, pc := s.me.npc })) ∧
      (s.me.guard = true → 16 ≤ ws.length → illegal (.msgPut a)) ∧ (s.me.guard = false → illegal .msgEnd) ∧
      (s.me.guard = true → s.allOut → s.windowRoom (groveOf s.cur) = true → ∃ bs, bs.length = 16 + 8 * max 16 ws.length ∧
        field bs 3 1 = ws.length % 256 ∧ field bs 2 1 = coreOf s.cur % 8 + 8 * slotNo s.cur ∧
        (∀ i, i < ws.length → field bs (16 + 8 * i) 8 = (ws.getD i 0).toNat) ∧
        exec .msgEnd s = .next ((s.setGrove (groveOf s.cur) { s.myGrove with window := s.myGrove.window ++ [⟨.packet k bs, false⟩] }).modMe
          fun q => { q with packet := none, pc := q.npc })) ∧
      (∀ i : Instr, i.wf = true → encode i ≠ [] → (∀ r, i ≠ .msgPut r) → i ≠ .msgEnd →
        let firmware := (∃ x y z, i = .pgPost x y z) ∨ ∃ x, i = .pgReplay x
        (firmware → s.isFw s.cur = false → exec i s = .next (s.takeTrap s.cur Cause.privilege 0 0)) ∧
        (¬ firmware ∨ s.isFw s.cur = true → illegal i))) ∧
    (s.acts → let o := s.x b
      (o.toNat % 8 ≠ 0 → exec (.recv a b) s = .next (s.takeTrap s.cur Cause.misaligned o 0)) ∧
      (o.toNat % 8 = 0 → s.myCore.utop.toNat * 256 < o.toNat + 128 → exec (.recv a b) s = .next (s.takeTrap s.cur Cause.permission o 0)) ∧
      (o.toNat % 8 = 0 → o.toNat + 128 ≤ s.myCore.utop.toNat * 256 →
        (s.me.inbox = [] → exec (.recv a b) s = .next (s.setX a (BitVec.ofNat 64 (2 ^ 32))).advance) ∧
        (∀ i rest, s.me.inbox = i :: rest →
          let off := s.myCore.inboxOff (slotNo s.cur) i
          let p := s.tcmRead (coreOf s.cur) off 144
          (∀ w, s.poisonWord (coreOf s.cur) false off 144 = some w → exec (.recv a b) s = .next (s.takeTrap s.cur Cause.poison (BitVec.ofNat 64 w) 0) ∧
            s.tcmPoison (coreOf s.cur) w 8 = true ∧ off < w + 8 ∧ w < off + 144) ∧
          (s.tcmPoison (coreOf s.cur) off 144 = false → ∃ t, exec (.recv a b) s = .next t ∧
          t.me = { (s.me.setXr a (BitVec.ofNat 64 (field p 0 4))) with inbox := rest, pc := s.me.npc } ∧
          t.tcmRead (coreOf s.cur) o.toNat 128 = p.drop 16 ∧
          ∀ q, (∀ j, j < 128 → q ≠ .tcm (coreOf s.cur) (o.toNat + j)) → t.byteAt q = s.byteAt q))))

/-- R82 to R88, R338 to R341: tk.spawn of a sound record makes it a READY task of the group and tk.dep arms its counter; in collecting mode they are entries; tk.yield suspends and enqueues, or takes the trap of a spill whose home fails its check (log 62); tk.end of a class C or T task starts its commit, of a class D task ends it, with its counter decremented; a slot that runs no task only goes on, or goes idle (log 24). -/
def Obligations.TaskInstructions : Prop :=
  ∀ (s s1 : State) (a b : Reg) (pa w0 : Nat), s.acts →
    let x := s.x a
    (s.takeRecord x = .ok (pa, w0) s1 →
      (s1.me.collecting = true → ∀ s2, s1.hamperPut [⟨2, 0, x.setWidth 48, 0, [], 0, none, 0⟩] = some s2 → exec (.tkSpawn a) s = .next s2.advance) ∧
      (s1.me.collecting = false → s1.allOut → bits w0 59 57 ≠ 0 ∨ s1.windowRoom (groveOf s1.cur) = true →
        exec (.tkSpawn a) s = .next ((s1.newTask (s1.spawnGroup s1.cur) s1.me.ctx x.toNat pa (s1.childDepth s1.me.task) .ready).takeIn
          (taskKey s1.me.ctx x.toNat) (groveOf s1.cur) none).advance)) ∧
    (∀ s2 cp inter, (s.x b).toNat < 2 ^ 48 → (s.x b).toNat % 16 = 0 → s.takeRecord x = .ok (pa, w0) s1 →
      s1.xlate .store .plain (s.x b) 16 false (s.x b) = .ok (cp, inter) s2 →
      (s2.me.collecting = true → ∀ s3, s2.hamperPut (depEntries (s.x b).toNat x.toNat) = some s3 → exec (.tkDep a b) s = .next s3.advance) ∧
      (s2.me.collecting = false → s2.quietAt cp 16 → s2.locked pa 64 = false → s2.drainSecs s2.cur (sectorsOf cp 16 ++ sectorsOf pa 64) = s2 →
        natOf (memRead s2.mem cp 4) ≠ 0 →
        let s3 := s2.newTask (s2.spawnGroup s2.cur) s2.me.ctx x.toNat pa (s2.childDepth s2.me.task) .counting
        exec (.tkDep a b) s = .next (s3.perform s3.cur (cp + 4) inter (zeros 4 ++ bytesOf 8 x.toNat) false 1).advance)) ∧
    (s.me.task = none → exec .tkYield s = .next s.advance) ∧
    (∀ key, s.me.task = some key →
      (s.saveWaits s.cur key = true → exec .tkYield s = .next (s.setSlot s.cur { s.me with held := true })) ∧
      (s.saveWaits s.cur key = false →
        (s.spillTrap s.cur key = none → s.windowRoom (groveOf s.cur) = true →
          exec .tkYield s = .next ((s.suspend s.cur none).enqueue key (groveOf s.cur))) ∧
        (∀ f, s.spillTrap s.cur key = some f → exec .tkYield s = .next (s.takeXFault s.cur f f.addr)))) ∧
    (s.me.stack ≠ [] → exec .tkEnd s = .next (s.takeTrap s.cur Cause.illegal 0 0)) ∧
    (s.me.stack = [] → s.allOut →
      (s.me.task = none → exec .tkEnd s = .next (s.endSlot s.cur)) ∧
      (∀ key t, s.me.task = some key → s.tasks.find key = some t →
        (s.me.cls = 2 → (∀ h, s.me.taskH = some h → uncaptured h.entries = false) → ∃ u, exec .tkEnd s = .next u ∧
          u = ((s.setTask key { t with hamper := s.me.taskH, sig := s.me.sig, slot := s.cur, endPc := s.me.pc }).endSlot s.cur).taskState key .committing) ∧
        (s.me.cls = 1 → (∀ h, s.me.taskH = some h → uncaptured h.entries = false) → exec .tkEnd s = .next
          ((((s.setTask key { t with hamper := s.me.taskH, sig := s.me.sig, slot := s.cur, endPc := s.me.pc }).endSlot s.cur).taskState key .committing).commitStart key)) ∧
        (s.me.cls = 0 →
          let s0 := s.planTouch ⟨s.cur, t.ctx, 0⟩ (s.ownCounter t) []
          ∀ ps cs, s0.commitPlan ⟨s0.cur, t.ctx, 0⟩ (s0.ownCounter t) [] = .ok (ps, cs) → s0.blocked ps cs = false →
          s0.underflow cs = false → s0.recWaits noTask t.ctx cs ps = false →
            let s1 := (s0.modTask key fun u => { u with slot := s0.cur }).endSlot s0.cur
            let s2 := s1.applyCommit s0.cur key ⟨t.grp, t.ctx, groveOf s0.cur, some key, none⟩ ps cs
            exec .tkEnd s = .next (s2.commitEnd key (s2.overfull s1 (groveOf s0.cur))))))

/-! ### Pages 4 and 5: quilts, hampers, paging and traps -/

/-- R183, R393 to R396: without the quilt permission a reading instruction traps; ql.open gives a handle of the version it opened, the lowest free one by the model's choice (log 51); ql.close takes a reader away; each other reading instruction whose checks pass stores what its rule-engine operation computes at its result offset and goes on. -/
def Obligations.QuiltReads : Prop :=
  ∀ (s : State) (op : BitVec 3) (a b c : Reg) (scr : Bool), s.acts →
    let core := coreOf s.cur
    let o := s.x a
    let v := s.x c
    let run := fun (m : RuleM (List Byte)) => m.run (QCtx.start s s.cur s.me.ctx)
    let puts := fun (i : Instr) (m : RuleM (List Byte)) (sp : Bool) => ∀ bs q, s.myGrove.fsrcRule.awaiting = none → run m = (.ok bs, q) →
      exec i s = .next (q.s.localWrite (coreOf q.s.cur) sp o.toNat bs).advance
    let room := fun (n : Nat) => s.areaOut scr o.toNat n = false
    (s.quiltOk = false → ∀ i ∈ [Instr.qlOpen a b, .qlClose a, .qlEval op a b c scr, .qlFold op a b c scr, .qlSeek op a b c scr, .qlRec a b c,
      .qlGet a b c scr, .qlSplit a b c scr], exec i s = .next (s.takeTrap s.cur Cause.permission 0 4)) ∧
    (s.quiltOk = true →
      (∀ i, (List.range 4).find? (fun i => (s.me.qhandles.find i).isNone) = some i → ∀ cur d q, s.myGrove.fsrcRule.awaiting = none →
        (qOpen (s.x b).toNat).run (QCtx.start s s.cur s.me.ctx) = (.ok (cur, d), q) → ∃ t, exec (.qlOpen a b) s = .next t ∧
          let g := q.s.me.qgens.get i 0 + 1
          let h : QHandle := ⟨g, BitVec.ofNat 64 (field d 8 4), BitVec.ofNat 64 (field d 12 2), BitVec.ofNat 64 cur, s.x b⟩
          t.me = { (q.s.me.setXr a (BitVec.ofNat 64 (i + 4 * g.toNat))) with
            qgens := q.s.me.qgens.put i g, qhandles := q.s.me.qhandles.put i h, pc := q.s.me.npc }) ∧
      (∀ i h p inter q, s.me.qhandle o = some (i, h) → s.myGrove.fsrcRule.awaiting = none →
        (qPlace .atomic .quilt h.ver.toNat 128).run (QCtx.start s s.cur s.me.ctx) = (.ok (p, inter), q) → q.s.openAt p 128 → q.s.me.cls ≠ 2 →
        q.slot = q.s.cur → ∃ t, exec (.qlClose a) s = .next t ∧ natOf (memRead t.mem (p + 4) 4) = natOf (memRead q.s.mem (p + 4) 4) - 1 ∧
        t.me = { q.s.me with qhandles := q.s.me.qhandles.drop i, pc := q.s.me.npc }) ∧
      (∀ i h, s.me.qhandle (s.x b) = some (i, h) →
        (o.toNat % 8 = 0 → s.areaOut false o.toNat 128 = false → v.toNat < 2 ^ 32 → puts (.qlRec a b c) (do
          let w ← qView h
          if v.toNat = 0 || w.nrules < v.toNat then qTrap Cause.permission 0
          else
            let r ← qRule w v.toNat
            qRead .quilt r.addr r.addr 128) false) ∧
        puts (.qlGet a b c scr) (do
          let d ← qDesc h.desc.toNat
          if s.areaOut scr o.toNat (ceilDiv ((v.toNat / 2 ^ 48 + 1) * unitSize (field d 5 1)) (granule (field d 5 1) * 8)) then qTrap Cause.permission 0
          else qGet h (v.toNat % 2 ^ 48) (v.toNat / 2 ^ 48 + 1)) scr ∧
        (op.toNat ≤ 5 → op ≠ 4 → o.toNat % 8 = 0 → room (8 + summSize op.toNat) → v.toNat < 2 ^ 48 →
          puts (.qlSeek op a b c scr) (qSeek h op.toNat v.toNat) scr) ∧
        (0 < v.toNat / 2 ^ 32 → v.toNat / 2 ^ 32 ≤ 65536 → room (16 * (v.toNat / 2 ^ 32)) → puts (.qlSplit a b c scr) (do
          let w ← qView h
          if w.rows ≤ v.toNat % 2 ^ 32 then qTrap Cause.permission 0
          else
            let sp ← qSpine w (v.toNat % 2 ^ 32)
            let parts ← (List.range (v.toNat / 2 ^ 32)).mapM fun j => qSplitAt w sp (j * (sp.2 + w.length) / (v.toNat / 2 ^ 32))
            pure parts.flatten) scr) ∧
        (o.toNat % 8 = 0 → v.toNat % 8 = 0 → s.areaOut false v.toNat 48 = false → s.tcmPoison core v.toNat 48 = false →
          let r := reqOf (s.tcmRead core v.toNat 48)
          r.work + r.worksize ≤ 2 ^ 20 →
          (op.toNat ≤ 5 → r.illegal true op.toNat = false → room (if r.rule ≠ 0 then summSize op.toNat + 8 else 16) → r.counter = 0 →
            puts (.qlEval op a b c scr) (withNodes r (qEval h op.toNat r)) scr) ∧
          (op.toNat ≤ 5 → r.illegal false op.toNat = false → room (summSize op.toNat + 8) → puts (.qlFold op a b c scr)
            (withNodes r (qFoldRow h op.toNat r)) scr) ∧
          (op = 6 → scr = true → r.illegal false 6 = false → room (s.attnSize r) → puts (.qlFold op a b c scr) (withNodes r (qAttn h r)) scr))))

/-- R178, R180, R181, R397: a writer of a quilt in collecting mode traps, without the quilt permission too; else the status that its rule-engine operation computes is its result; a descriptor that another owner drafts, and a publication without a draft of one's own, are busy and leave the quilt as it is. -/
def Obligations.QuiltWrites : Prop :=
  ∀ (s : State) (a b c : Reg) (renew : Bool), s.acts →
    let core := coreOf s.cur
    let o := s.x c
    let da := (s.x b).toNat
    let gives := fun (i : Instr) (m : RuleM Word) => ∀ w q, s.myGrove.fsrcRule.awaiting = none → m.run (QCtx.start s s.cur s.me.ctx) = (.ok w, q) → exec i s = .next (q.s.setX a w).advance
    let all := [Instr.qlApp a b c, .qlPut a b c, .qlPub a b renew]
    (s.me.collecting = true → ∀ i ∈ all, exec i s = .next (s.takeTrap s.cur Cause.collectForbidden 0 4)) ∧
    (s.me.collecting = false → s.me.classCT = false →
      (s.quiltOk = false → ∀ i ∈ all, exec i s = .next (s.takeTrap s.cur Cause.permission 0 4)) ∧
      (s.quiltOk = true → da % 128 ≠ 0 → ∀ i ∈ all, exec i s = .next (s.takeTrap s.cur Cause.misaligned (s.x b) 4)) ∧
      (s.quiltOk = true → da % 128 = 0 →
        gives (.qlPub a b renew) (qPub da renew) ∧
        (o.toNat % 128 = 0 → s.areaOut false o.toNat 128 = false → s.tcmPoison core o.toNat 128 = false →
          gives (.qlApp a b c) (qApp da o.toNat (s.tcmRead core o.toNat 128))) ∧
        (o.toNat % 8 = 0 → s.areaOut false o.toNat 32 = false → s.tcmPoison core o.toNat 32 = false →
          gives (.qlPut a b c) (qPut da (s.tcmRead core o.toNat 32))) ∧
        (∀ d q, s.myGrove.fsrcRule.awaiting = none → (qDesc da).run (QCtx.start s s.cur s.me.ctx) = (.ok d, q) →
          field d 6 1 = 0 ∨ field d 32 8 ≠ s.ownerWord s.cur → exec (.qlPub a b renew) s = .next (q.s.setX a 1).advance)))

/-- R156, R161, R163 to R166, R342: the operations on the hamper of a handle, whose list stays in order as its storage holds it; the entries that hl.filt keeps stand unit by unit where the hamper's units lie, and no other byte changes; hl.rebase moves the effective addresses and leaves the storage as recorded; a word that names no CLOSED hamper traps with it; hl.apply in collecting mode appends, else it commits at once. Where units lie is the model's choice (log 18), and that hl.filt keeps the frames of its hamper its reading (log 55). -/
def Obligations.HamperLists : Prop :=
  ∀ (s : State) (a b c : Reg) (kmask : BitVec 7), s.acts →
    (s.me.handle (s.x a) = none → ∀ i ∈ [Instr.hlCat a b, .hlFilt a b c kmask, .hlRebase a b, .hlApply a, .hlDrop a, .hlLen a b],
      exec i s = .next (s.takeTrap s.cur Cause.illegal (s.x a) 0)) ∧
    (∀ i h0, s.me.handle (s.x a) = some (i, h0) →
      let h := s.readBack s.cur h0
      exec (.hlLen a b) s = .next (s.setX b (BitVec.ofNat 64 h.entries.length)).advance ∧
      (∀ j g0, s.me.handle (s.x b) = some (j, g0) → i ≠ j →
        let g := s.readBack s.cur g0
        exec (.hlCat a b) s = .next (s.setSlot s.cur { s.me with
          hampers := (s.me.hampers.put i { h with entries := h.entries ++ g.entries, places := h.places ++ g.places, frames := h.frames ++ g.frames }).drop j
          pc := s.me.npc })) ∧
      (s.me.handle (s.x b) = none → exec (.hlCat a b) s = .next (s.takeTrap s.cur Cause.illegal (s.x b) 0)) ∧
      (let es := h.entries.filter fun e => kmask.getLsbD e.kind.toNat && decide ((s.x b).toNat ≤ e.ea.toNat) && decide (e.ea.toNat < (s.x c).toNat)
       let g : Hamper := { h with entries := es, places := h.places.take (es.map HEntry.size).sum }
       let at16 := fun (u : Nat) => s.myCore.hamperOff (slotNo s.cur) + 16 * u
       ∃ t, exec (.hlFilt a b c kmask) s = .next t ∧ t.me = { s.me with hampers := s.me.hampers.put i g, pc := s.me.npc } ∧
         ((∀ u ∈ g.places, ∃ k, u = .share k) → t = { s with slots := t.slots, cores := t.cores, groves := t.groves } ∧
           (∀ p, (∀ k j, UnitAt.share k ∈ g.places → j < 16 → p ≠ .tcm (coreOf s.cur) (at16 k + j)) → t.byteAt p = s.byteAt p) ∧
           (g.places.Nodup → g.bytes.length = 16 * g.places.length → ∀ k u, g.places[k]? = some (.share u) →
             t.tcmRead (coreOf s.cur) (at16 u) 16 = (g.bytes.drop (16 * k)).take 16))) ∧
      ((s.x b).toNat % 8 = 0 → exec (.hlRebase a b) s = .next (s.setSlot s.cur { s.me with pc := s.me.npc, hampers := s.me.hampers.put i { h with
        entries := h.entries.map fun e => if e.kind = 2 ∨ e.kind = 3 then e else { e with off := e.off + (s.x b).setWidth 48 } } })) ∧
      ((s.x b).toNat % 8 ≠ 0 → exec (.hlRebase a b) s = .next (s.takeTrap s.cur Cause.misaligned 0 0)) ∧
      (h.frames = [] → exec (.hlDrop a) s = .next (s.setSlot s.cur { s.me with hampers := s.me.hampers.drop i, pc := s.me.npc })) ∧
      (s.me.collecting = true → ∀ t, s.appendAll h.entries = some t → exec (.hlApply a) s = .next t.advance) ∧
      (s.me.collecting = false → uncaptured h.entries = true → exec (.hlApply a) s = .next (s.setSlot s.cur { s.me with held := true })) ∧
      (s.me.collecting = false → uncaptured h.entries = false → s.allOut →
        let s0 := s.planTouch ⟨s.cur, s.me.ctx, 0⟩ 0 h.entries
        ∀ ps cs, s0.commitPlan ⟨s.cur, s.me.ctx, 0⟩ 0 h.entries = .ok (ps, cs) → s0.blocked ps cs = false → s0.sourceWaits noTask ps = false →
        s0.pieceTrains ps cs = false → s0.underflow cs = false → s0.recWaits noTask s0.me.ctx cs ps = false →
        exec (.hlApply a) s = .next (((s0.recallLists ⟨s.cur, s.me.ctx, 0⟩ h.entries).applyCommit s0.cur noTask
          ⟨s0.spawnGroup s0.cur, s0.me.ctx, groveOf s0.cur, s0.me.task, none⟩ ps cs).stallFull s0).advance))

/-- R210, R231, R343, R344: pg.post drops every translation of its context in the pages of its range from every TLB; where a guest holds one, the slot waits, with the invalidation due at the bound, until it is acknowledged; pg.replay reads its record and restarts what awaits it. Both trap PRIVILEGE on a core outside the firmware column, whatever the guard and whether or not a packet is open. -/
def Obligations.PagingInstructions : Prop :=
  (∀ (s : State) (a b c : Reg), s.isFw s.cur = false → exec (.pgPost a b c) s = .next (s.takeTrap s.cur Cause.privilege 0 0) ∧
    exec (.pgReplay a) s = .next (s.takeTrap s.cur Cause.privilege 0 0)) ∧
  ∀ (s : State) (a b c : Reg), s.acts →
    let ctx := (s.x a).toNat
    let start := (s.x b).toNat
    let len := (s.x c).toNat
    let lo := start / 4096 * 4096
    let hi := (start + len + 4095) / 4096 * 4096
    (s.isFw s.cur = true →
      (64 ≤ ctx ∨ 2 ^ 48 < start + len → exec (.pgPost a b c) s = .next (s.takeTrap s.cur Cause.illegal 0 0)) ∧
      (ctx < 64 → start + len ≤ 2 ^ 48 → s.allOut →
        let meets := fun (e : TlbEntry) => e.ctx = ctx ∧ e.va < hi ∧ lo < e.va + e.size
        let dropped := fun (t : State) => s.sameBytes t ∧ (∀ k e, e ∈ (t.core k).dtlb ∨ e ∈ (t.core k).itlb → ¬ meets e) ∧
          (∀ k e, e ∈ (t.grove k).l2tlb → ¬ meets e) ∧ ∀ k e, e ∈ (s.core k).dtlb → ¬ meets e → e ∈ (t.core k).dtlb
        (s.cur ∈ s.guest.acked → exec (.pgPost a b c) s =
          .next { s with guest := { s.guest with acked := s.guest.acked.filter (· != s.cur) } }.advance) ∧
        (s.cur ∉ s.guest.acked → (∃ q ∈ s.guest.inval, q.1 = some s.cur) →
          exec (.pgPost a b c) s = .next (s.setSlot s.cur { s.me with held := true })) ∧
        (s.cur ∉ s.guest.acked → (∀ q ∈ s.guest.inval, q.1 ≠ some s.cur) →
          (len = 0 → exec (.pgPost a b c) s = .next s.advance) ∧
          (0 < len → (∀ e ∈ s.guest.tlb, ¬ meets e) →
            ∃ t, exec (.pgPost a b c) s = .next t ∧ t.me = { s.me with pc := s.me.npc } ∧ dropped t ∧ t.guest = s.guest) ∧
          (0 < len → (∃ e ∈ s.guest.tlb, meets e) →
            ∃ t, exec (.pgPost a b c) s = .next t ∧ t.me = { s.me with held := true } ∧ dropped t ∧ (∀ e ∈ t.guest.tlb, ¬ meets e) ∧
              t.guest.inval = s.guest.inval ++ [(some s.cur, s.tick.toNat + s.boundTicks)]))) ∧
      ((s.x a).toNat % 64 ≠ 0 → exec (.pgReplay a) s = .next (s.takeTrap s.cur Cause.misaligned (s.x a) 0)) ∧
      ((s.x a).toNat % 64 = 0 → s.openAt (s.x a).toNat 64 → exec (.pgReplay a) s = .next (s.replay (memRead s.mem (s.x a).toNat 64)).advance))

/-- R234 to R238, R275, R281, R296, R345: ecall, ebreak, trap and words that are no instruction take their trap: cause, address and pc are saved, an open packet is dropped, a slot that runs no task stops at the instruction (log 12), one whose spill waits for a lock or a link stops and saves its task once it can, and a notice of 32 bytes carries address, pc, cause, context, source and tick into the trap ring; nothing else of the slot changes. -/
def Obligations.TrapEntry : Prop :=
  (∀ (s : State) (e : BitVec 8), s.acts →
    exec .ecall s = .next (s.takeTrap s.cur 18 0 0) ∧ exec .ebreak s = .next (s.takeTrap s.cur 19 0 0) ∧
    exec (.trap e) s = .next (s.takeTrap s.cur 17 (e.setWidth 64) 0)) ∧
  (∀ (s : State) (chain : Bool) (addr : Word), exec (.unassignedEncoding chain addr) s =
    .next (s.takeTrap s.cur (if chain then 2 else 1) addr 0)) ∧
  (∀ (s : State) (slot cause path : Nat) (addr : Word), (s.slot slot).task = none →
    let t := (s.trapEntry slot cause addr path).1
    t.slot slot = { s.slot slot with
      faultCause := BitVec.ofNat 64 (cause + path * 4096), faultAddr := addr, faultPc := (s.slot slot).pc, packet := none, wait := none
      held := false, stall := [], xfer := false, stop := none, st := .stopped } ∧
    s.sameBytes t ∧ (∀ k, k ≠ slot → t.slot k = s.slot k) ∧
    (let p := s.trRing.toNat * 32768 + s.trHead.toNat * 32
     (s.slot slot).sbuf = [] → (s.slot slot).record = none → s.notices = [] → s.trRing ≠ 0 → s.trHead + 1 ≠ s.trTail → s.openAt p 32 →
      let u := s.takeTrap slot cause addr path
      let bs := memRead u.mem p 32
      field bs 0 8 = addr.toNat ∧ field bs 8 6 = (s.slot slot).pc.toNat ∧ field bs 14 1 = cause % 256 ∧ field bs 15 1 = 0 ∧ field bs 16 8 = 0 ∧
      field bs 24 2 = (s.slot slot).ctx % 65536 ∧ field bs 26 2 = s.source slot % 65536 ∧ field bs 28 4 = s.tick.toNat % 2 ^ 32 ∧
      u.trHead = s.trHead + 1 ∧ (u.slot slot).notice = none)) ∧
  (∀ (s : State) (slot key cause path : Nat) (addr : Word) (u : Task), (s.slot slot).task = some key → s.tasks.find key = some u →
    let t := (s.trapEntry slot cause addr path).1
    (s.saveWaits slot key = false → (t.slot slot).st = .stopped ∧ (t.slot slot).saving = false ∧
      ∃ v, t.tasks.find key = some v ∧ v.st = .faulted ∧ v.frame.isSome = true) ∧
    (s.saveWaits slot key = true → t.slot slot = { s.slot slot with
        faultCause := BitVec.ofNat 64 (cause + path * 4096), faultAddr := addr, faultPc := (s.slot slot).pc, packet := none
        wait := if cause = Cause.watchdog then (s.slot slot).wait else none
        held := false, stall := [], xfer := false, stop := none, st := .stopped, saving := true } ∧ t.tasks = s.tasks ∧ s.sameBytes t))

/-! ### Events of the device -/

/-- R90, R94, R97 to R100, R165, R241: the first record of a grove's window that is not yet taken reaches its stand, where it is put into the queue or refused and resent after its back-off, and an acknowledged entry leaves the window, and a slot of the grove waits no longer for what now stands among its eight; a stand gives an idle slot the entry of least key among those of one context that the slot may run, and a dispatch without a frame starts at the record's pc with its arguments, and one whose frame's device block was changed ends in a fault; a slot that finds none probes its neighbours and takes the best that they offer; a restored frame with an open wait makes its transfer's check at once. That a window is sent in order, how a slot probes, and the fault deviceBlockChanged, where R241 leaves what follows undefined, are the model's choices (log 23, log 37, log 17). -/
def Obligations.QueueEvents : Prop :=
  ∀ (s : State) (g slot n key : Nat),
    let gr := s.grove g
    let sl := s.slot slot
    (∀ first rest stand t, gr.window = first ++ ⟨.record key stand, false⟩ :: rest → (∀ q ∈ first, q.acked = true) → first.length < 8 →
      s.tasks.find key = some t →
      let nack := fun (i : Instr) => exec i s = .next ((s.setGrove g { gr with
        refusals := gr.refusals + 1, resendAt := s.tick.toNat + min s.boMax.toNat (s.boBase.toNat * 2 ^ min gr.refusals 15) }).modStand stand
        fun q => { q with nacks := BitVec.ofNat 16 (min 65535 (q.nacks.toNat + 1)) })
      let ack := fun (i : Instr) => exec i s = .next ((s.setGrove g { gr with
        refusals := 0, window := first ++ ⟨.record key stand, true⟩ :: rest }).queueAdd stand key)
      let due := fun (f : Instr → Prop) => (gr.refusals = 0 → f (.enqueueArrive g)) ∧
        (gr.refusals ≠ 0 → gr.resendAt ≤ s.tick.toNat → f (.replayBackoffExpiry g))
      (s.refuses stand t.ctx = true → s.reentry t stand = false → due nack) ∧
      (s.refuses stand t.ctx = false ∨ s.reentry t stand = true → due ack)) ∧
    (∀ t, s.tasks.find key = some t → ((s.queueAdd n key).stand n).queue = (s.stand n).queue ++
      [⟨key, s.rankKey t, t.ctx, s.recField t.half 58 1, t.grp, t.pin, s.tick.toNat⟩]) ∧
    (∀ e rest, gr.window = e :: rest → e.acked = true → ∃ t, exec (.enqueueAck g) s = .next t ∧ t.grove g = { gr with window := rest } ∧
      ∀ k, t.slot k = if groveOf k = g then { s.slot k with
        stall := (s.slot k).stall.filter fun key => (rest.drop 8).any fun e => e.carries fun n => n == key } else s.slot k) ∧
    (s.standOfSlot slot = some n → s.idleSlot slot = true → sl.take = none →
      (∀ e, s.choose slot n = some e →
        (s.canTake slot e.task = false → exec (.taskDispatch slot) s = .next s) ∧
        (s.canTake slot e.task = true → s.frameIntact slot e.task = true →
          let u := ((s.modStand n fun q => { q with
            vt := q.vt.put e.ctx (q.vt.get e.ctx 0 + BitVec.ofNat 32 (65536 / max 1 (s.ctxOf e.ctx).weight.toNat)) }).unlist n e.task).dispatch slot e.task
          exec (.taskDispatch slot) s = .next ((u.landed slot).getD s) ∧ ((u.slot slot).st ≠ .waiting → u.landed slot = some u)) ∧
        (s.canTake slot e.task = true → s.frameIntact slot e.task = false → exec (.taskDispatch slot) s = .fault .deviceBlockChanged) ∧
        exec (.takeReprobe slot) s = .next s) ∧
      (sl.probeAt ≤ s.tick.toNat → s.choose slot n = none → exec (.taskDispatch slot) s = .next (s.setSlot slot { sl with take := some [] }) ∧
        exec (.takeReprobe slot) s = .next (s.setSlot slot { sl with take := some [] }))) ∧
    (∀ e, s.choose slot n = some e → e ∈ (s.stand n).queue ∧ s.eligible slot e = true ∧
      ∀ f ∈ (s.stand n).queue, s.eligible slot f = true → f.ctx = e.ctx → e.key ≤ f.key) ∧
    (∀ t, s.tasks.find key = some t → t.frame = none → t.spilled = 0 → t.result = none →
      let s1 := s.recallRange t.pa 64
      let u := s.dispatch slot key
      let q := u.slot slot
      q.st = .run ∧ q.task = some key ∧ q.ctx = t.ctx ∧ q.pc.toNat = s1.recField t.half 0 8 % 2 ^ 48 ∧ q.vl = 0 ∧ q.prDepth = 0 ∧ q.fpCtl = 0 ∧
      q.xr 2 = 0x80000000 ∧ q.xr 4 = BitVec.ofNat 64 (s1.recField t.half 40 8) ∧ q.xr 5 = BitVec.ofNat 64 (s1.recField t.half 48 8) ∧
      q.xr 6 = BitVec.ofNat 64 t.va ∧ (u.tasks.find key).map (·.st) = some .running) ∧
    (∀ rs stand, sl.take = some rs → s.standOfSlot slot = some n →
      (stand ∈ neighbours n → (∀ r ∈ rs, r.1 ≠ stand) → exec (.takeServe slot stand) s =
        .next (s.setSlot slot { sl with take := some (rs ++ [(stand, (s.offer slot stand).map (·.task))]) })) ∧
      ((∀ m ∈ neighbours n, ∃ r ∈ rs, r.1 = m) →
        let s1 := s.setSlot slot { sl with take := none, probeAt := s.tick.toNat + 1 }
        (s.bestTake n rs = none → exec (.takeReply slot) s = .next s1) ∧
        (∀ m e, s.bestTake n rs = some (m, e) → s.canTake slot e.task = true → s1.idleSlot slot = true → s1.eligible slot e = true →
          let u := ((s1.unlist m e.task).modStand m fun q => { q with taken := BitVec.ofNat 16 (min 65535 (q.taken.toNat + 1)) }).dispatch slot e.task
          exec (.takeReply slot) s = .next ((u.landed slot).getD s) ∧ ((u.slot slot).st ≠ .waiting → u.landed slot = some u))))

/-- R87, R139, R146, R148, R166, R85: a COMMITTING task's commit begins once its checks pass, a class T one at its domain's frontier only; it takes its locks in ascending order, each when no other commit holds it, and with all of them, once every source and place that it needs can be reached, it is refused by the IO die or by a counter too low, or aborts the class T tasks that it conflicts with and applies, and it ends once its own enqueues stand in the replay window; a commit that is refused, at its start or by the IO die, leaves its task FAULTED once the earlier accesses of its slot have performed. -/
def Obligations.CommitEvents : Prop :=
  (∀ (ps : List Piece) (cs : List (Nat × Bool)), (lockList ps cs).Pairwise (· < ·)) ∧
  ∀ (s : State) (key : Nat) (t : Task), s.tasks.find key = some t →
    ((s.slot t.slot).sbuf = [] → (s.slot t.slot).notice = none → ∀ cause addr, let u := s.refuseCommit key cause addr
      (u.tasks.find key).map (fun v => (v.st, v.refused)) = some (.faulted, true) ∧ ∀ c ∈ u.commits, c.task ≠ key) ∧
    (t.st = .committing → (∀ c ∈ s.commits, c.task ≠ key) →
      (t.cls = 2 → s.atFrontier t = false → exec (.timedCommitStart key) s = .next s) ∧
      (t.cls ≠ 2 ∨ s.atFrontier t = true →
        let s0 := s.planTouch ⟨t.slot, t.ctx, 0⟩ (s.ownCounter t) (s.taskEntries t)
        (∀ ps cs, s0.taskPlan t = .ok (ps, cs) →
          let s1 := s0.recallLists ⟨t.slot, t.ctx, 0⟩ (s0.taskEntries t)
          exec (.timedCommitStart key) s = .next { s1 with commits := s1.commits ++ [⟨key, ps, cs, lockList ps cs, [], false, []⟩] }) ∧
        (∀ f, s0.taskPlan t = .error (.check f) →
          exec (.timedCommitStart key) s = .next ((s0.refuseCommit key f.cause f.addr).raiseIf (Refuse.check f).raises)) ∧
        (∀ cause addr, s0.taskPlan t = .error (.cause cause addr) → exec (.timedCommitStart key) s = .next (s0.refuseCommit key cause addr)) ∧
        (s0.taskPlan t = .error .wait → exec (.timedCommitStart key) s = .next s0))) ∧
    (∀ c, s.commits.find? (fun c => c.task == key) = some c →
      (∀ sec rest, c.todo = sec :: rest →
        (s.lockedSec sec = true → exec (.commitLockAcquire key) s = .next s) ∧
        (s.lockedSec sec = false → exec (.commitLockAcquire key) s = .next { s with
          commits := s.commits.map fun d => if d.task = key then { d with todo := rest, held := d.held ++ [sec] } else d })) ∧
      (c.todo = [] → c.applied = false →
        let ps := c.pieces
        let cs := c.counters
        (s.sourceWaits key ps = true ∨ s.pieceTrains ps cs = true → exec (.taskCommit key) s = .next s) ∧
        (s.sourceWaits key ps = false → s.pieceTrains ps cs = false →
          (∀ cause addr, s.pieceRefused (s.ownPlace t c) ps = some (cause, addr) → exec (.taskCommit key) s = .next (s.refuseCommit key cause addr)) ∧
          (s.pieceRefused (s.ownPlace t c) ps = none → s.underflow cs = true →
            exec (.taskCommit key) s = .next (s.refuseCommit key Cause.counterUnderflow 0)) ∧
          (s.pieceRefused (s.ownPlace t c) ps = none → s.underflow cs = false → s.recWaits key t.ctx cs ps = true → exec (.taskCommit key) s = .next s) ∧
          (s.pieceRefused (s.ownPlace t c) ps = none → s.underflow cs = false → s.recWaits key t.ctx cs ps = false →
            let applied := fun (s1 : State) (raise : Option Word) => s1.applyCommit t.slot key ⟨t.grp, t.ctx, groveOf t.slot, some key, raise⟩ ps cs
            let ends := fun (s1 u : State) => exec (.taskCommit key) s = .next (u.commitEnd key (u.overfull s1 (groveOf t.slot)))
            (t.cls ≠ 2 → ends s (applied s none)) ∧
            (t.cls = 2 → ends (s.conflicts key t ps) (applied (s.conflicts key t ps) (some t.ts)))))) ∧
      (c.todo = [] → c.applied = true →
        (s.unsent (groveOf t.slot) c.sends = [] → ∃ u, exec (.taskCommit key) s = .next u ∧
          u.tasks.find key = none ∧ ∀ d ∈ u.commits, d.task ≠ key) ∧
        (s.unsent (groveOf t.slot) c.sends ≠ [] → ∃ u, exec (.taskCommit key) s = .next u ∧ u.tasks = s.tasks)))

/-- R100, R119, R122 to R126, R333: a grove evaluates the conditions that have had a notice, lie at its cores or are polled, and a wait ends when what its conditions hold ends it, and its time-out ends it in any case; a slot that has waited past its hold parks its wait and suspends its task, whose record is READY when the wait ends; a barrier enters its home's register once it has room, for a slot's wait and for a parked one; a packet arrives at the lowest free place of its inbox, and a full one refuses it, as an enqueue is refused. a packet for another module leaves the window over its peer link, and waits while that trains; a condition that reads a poisoned unit traps POISON at the slot's wait (log 105), and a barrier that is BROKEN does not enter again. Which place a packet takes, that a condition not picked keeps its last evaluation, that conditions at the core and polled ones are picked at each pass and at the time-out, and that a slot that runs no task writes no owner are the model's readings (log 18, log 73, log 26, log 54), as is what becomes of a packet for another module (log 106). -/
def Obligations.WaitEvents : Prop :=
  ∀ (s : State) (g slot : Nat) (w : Wait),
    let sl := s.slot slot
    let gr := s.grove g
    let waits := fun (pick : Cond → Bool) => (s.slots.filter fun q => groveOf q.1 == g && (q.2.wait.any fun x => x.picked pick)).map (·.1)
    let ended := fun (r : Wait) (status : Nat) => (s.acquired slot).setSlot slot
      { (sl.setXr w.dst (s.waitValue sl.grp r status)) with wait := none, st := .run, pc := sl.npc }
    (sl.wait = some w → sl.st = .waiting → gr.parks = [] →
      (∀ i pick, (i, pick) ∈ [(Instr.waitSatisfiedNotice g, Cond.due), (.monitorPoll g, fun c => c.polled)] →
        waits pick = [slot] →
        let bad := (w.conds.filter fun c => pick c && s.condOpen c).filterMap (s.condPoison slot)
        (∀ addr rest, bad = addr :: rest → exec i s = .next (s.takeTrap slot Cause.poison addr 0)) ∧
        (bad = [] → s.recallWait pick w = s →
          let r := s.evalWait slot sl.grp pick w
          (∀ status, r.verdict = some status → exec i s = .next (ended r status)) ∧
          (r.verdict = none → exec i s = .next (s.setSlot slot { sl with wait := some r })))) ∧
      (let pick := fun (c : Cond) => c.due || c.polled
       let r := s.evalWait slot sl.grp pick w
       g = groveOf slot → w.deadline ≤ s.tick.toNat → (∀ c ∈ w.conds, pick c = true → s.condPoison slot c = none) → s.recallWait pick w = s →
        exec (.waitTimeout slot) s = .next (ended r (r.verdict.getD 1)))) ∧
    (∀ pk t status, waits Cond.due = [] → gr.parks = [pk] → pk.wait.picked Cond.due = true → s.tasks.find pk.task = some t →
      (∀ c ∈ pk.wait.conds, s.condPoison t.slot c = none) → s.recallWait Cond.due pk.wait = s → s.windowRoom g = true →
      let r := s.evalWait t.slot t.grp Cond.due pk.wait
      r.verdict = some status →
      exec (.waitSatisfiedNotice g) s = .next (((s.setGrove g { gr with parks := [] }).modTask pk.task fun u =>
        { u with result := some (pk.wait.dst, s.waitValue t.grp r status) }).enqueue pk.task g)) ∧
    (∀ key, sl.wait = some w → sl.st = .waiting → sl.task = some key → w.hold ≤ s.tick.toNat → g = groveOf slot → gr.parks.length < 32 →
      s.saveWaits slot key = false → s.spillTrap slot key = none →
      let parked := (s.suspend slot (some w)).modGrove g fun q => { q with parks := q.parks ++ [⟨key, w⟩] }
      exec (.waitHoldExpiry slot) s = .next parked ∧
      (s.slots.find? (fun q => groveOf q.1 == g && q.2.st == .waiting && q.2.task.isSome && (q.2.wait.any fun x => decide (x.hold ≤ s.tick.toNat))) =
        some (slot, sl) → exec (.parkEntryFree g) s = .next parked)) ∧
    (∀ (x : Wait) (c : Cond), x.conds = [c] → c.kind = 3 → c.entered = false → g = groveOf slot →
      let s0 := s.recallRange c.pa 16
      let home := s0.home c.pa c.inter
      let into := { x with conds := [{ c with entered := true }] }
      let dead := barDead (s0.peek c.pa 16)
      let enters := fun (s1 : State) => s.locked c.pa 16 = false ∧ (dead = true ∧ s1 = s0 ∨ dead = false ∧ s0.barEnter home c.pa = some s1)
      (sl.wait = some x → gr.parks = [] →
        (s.locked c.pa 16 = true ∨ dead = false ∧ s0.barEnter home c.pa = none → exec (.barrierRegisterRetry slot) s = .next (s.modSlot slot fun q => { q with wait := some x })) ∧
        (∀ s1, enters s1 → exec (.barrierRegisterRetry slot) s = .next ((match s.ownerOf slot with
          | some o => s1.recWrite c.pa 16 (bytesOf 8 o)
          | none => s1).modSlot slot fun q => { q with wait := some into }))) ∧
      (∀ key t s1, sl.wait = none → gr.parks = [⟨key, x⟩] → s.tasks.find key = some t → enters s1 →
        exec (.barrierRegisterRetry slot) s = .next ((s1.recWrite c.pa 16 (bytesOf 8 (s.groupDesc t.grp))).setPark g key into))) ∧
    (∀ first rest k bs, gr.window = first ++ ⟨.packet k bs, false⟩ :: rest → (∀ q ∈ first, q.acked = true) → first.length < 8 →
      let full := (s.slot k).inbox
      let due := fun (t : State) => (gr.refusals = 0 → exec (.msgDeliver g) s = .next t) ∧
        (gr.refusals ≠ 0 → gr.resendAt ≤ s.tick.toNat → exec (.replayBackoffExpiry g) s = .next t)
      (slotCount ≤ k → s.farWaits k = true → due s) ∧
      (slotCount ≤ k → s.farWaits k = false → due (s.setGrove g { gr with refusals := 0, window := first ++ ⟨.packet k bs, true⟩ :: rest })) ∧
      (k < slotCount → (∀ i, i < 16 → i ∈ full) → due (s.setGrove g { gr with
        refusals := gr.refusals + 1, resendAt := s.tick.toNat + min s.boMax.toNat (s.boBase.toNat * 2 ^ min gr.refusals 15) })) ∧
      (∀ i, k < slotCount → i < 16 → i ∉ full → (∀ j, j < i → j ∈ full) →
        due (((s.setGrove g { gr with refusals := 0, window := first ++ ⟨.packet k bs, true⟩ :: rest }).tcmWrite (coreOf k)
          ((s.core (coreOf k)).inboxOff (slotNo k) i) bs).modSlot k fun q => { q with inbox := full ++ [i] })))

/-- R62, R63, R129, R142, R186, R207, R209, R245: a buffered store performs at its home; a sector's fill and recall combine the update-only copies; a write-back leaves the sector clean; a walk puts its leaf into the TLB; a corrected error is counted and may drop a cache's entry; an uncorrectable one is counted and poisons its unit, or drops a cache's entry; a read of an aperture is the expansion's bytes, those of poisoned sectors as poison, and a write of one is refused. That a read of an aperture leaves, beside the reply, only what its walks and its recalls leave, and that a write of one ends in an abort with a record, or waits while one does, is the model's choice (log 36). -/
def Obligations.MemoryEvents : Prop :=
  ∀ (s : State) (slot idx pa core ctx g n off : Nat) (va : Addr) (fetch : Bool),
    let gr := s.grove g
    let sec := pa / 128
    (∀ st, (s.slot slot).sbuf[idx]? = some st → firstMeeting (s.slot slot).sbuf idx = some idx →
      (s.locked st.pa st.bytes.length = true → exec (.storeComplete slot idx) s = .next s) ∧
      (s.openAt st.pa st.bytes.length → ∃ t, exec (.storeComplete slot idx) s = .next t ∧
        memRead t.mem st.pa st.bytes.length = st.bytes ∧ (t.slot slot).sbuf = (s.slot slot).sbuf.eraseIdx idx ∧
        ∀ q, (∀ j, j < st.bytes.length → q ≠ .device (st.pa + j)) → t.byteAt q = s.byteAt q)) ∧
    (s.lockedSec sec = false → s.guest.held = [] →
      (s.updHolders sec = [] → exec (.llcFill pa) s = .next s ∧ exec (.updateOnlyRecall pa core) s = .next s) ∧
      (∀ e, s.updHolders sec = [core] → (s.core core).upd = [e] → e.pa / 128 = sec →
        let k := redWidth e.ty.toNat / 8
        e.pa + k ≤ 2 ^ 38 → s.pgDirty = 0 ∨ s.dirty.length + k ≤ 512 → ∀ i ∈ [Instr.llcFill pa, .updateOnlyRecall pa core, .updateOnlyEvict core pa], ∃ t, exec i s = .next t ∧
          natOf (memRead t.mem e.pa k) = redFold e.ty.toNat e.op.toNat (natOf (memRead s.mem e.pa k)) e.val.toNat % 2 ^ (8 * k) ∧
          (t.core core).upd = [] ∧ ∀ q, (∀ j, j < k → q ≠ .device (e.pa + j)) → t.byteAt q = s.byteAt q)) ∧
    (s.pgDirty = 0 → ∃ t, exec (.llcWriteback pa) s = .next t ∧ t.dirty.find sec = none ∧ s.sameBytes t) ∧
    (∀ pte level a, s.walk ctx va.toNat = (.leaf pte level (pageSize level), a, s) →
      (level = 4 → s.c64Views va.toNat a (some pte) = [pte]) →
      tlbFind (if fetch then (s.core core).itlb else (s.core core).dtlb) ctx va.toNat = none →
      tlbFind (s.grove (groveOfCore core)).l2tlb ctx va.toNat = none →
      ∃ t e, exec (.tlbMissWalk core ctx va fetch) s = .next t ∧ s.sameBytes t ∧
        tlbFind (if fetch then (t.core core).itlb else (t.core core).dtlb) ctx va.toNat = some e ∧ e.pte = BitVec.ofNat 64 pte ∧ e.size = pageSize level) ∧
    (let u := { s.setGrove g { gr with corr := BitVec.ofNat 32 (min (2 ^ 32 - 1) (gr.corr.toNat + 1)) } with fresh := s.fresh + 1 }
     ∃ t, exec (.softErrorCorrected g) s = .next t ∧ (t = u ∨ t = u.cacheDrop g) ∧ s.sameBytes t ∧ (t.grove g).corr = (u.grove g).corr) ∧
    (let up := fun (t : State) (h : Nat) => (t.grove h).uncorr = BitVec.ofNat 16 (min 65535 ((s.grove h).uncorr.toNat + 1))
     let err := fun (u : ErrUnit) (P : State → Prop) => ∃ t, exec (.uncorrectableError u) s = .next t ∧ P t
     err (.cached g) (fun t => up t g ∧ s.sameBytes t ∧ t = { s with groves := t.groves, cores := t.cores, fresh := t.fresh } ∧
       (∀ k e, e ∈ (t.core k).dtlb → e ∈ (s.core k).dtlb) ∧ ∀ k e, e ∈ (t.core k).icache → e ∈ (s.core k).icache) ∧
     err (.sector g pa) (fun t => up t g ∧ sec ∈ t.poison ∧ s.sameBytes t) ∧
     err (.tcm core off) (fun t => up t (groveOfCore core) ∧ t.tcmPoison core off 1 = true ∧ s.sameBytes t) ∧
     err (.scratch g off) (fun t => up t g ∧ t.scrPoison g off 1 = true ∧ s.sameBytes t) ∧
     err (.latent g) (fun t => up t g ∧ (t.grove g).poisonLat = true ∧ s.sameBytes t) ∧
     ((s.core core).holdsUpd sec = true → err (.updateOnly core pa) (fun t => up t (groveOfCore core) ∧ (t.core core).holdsUpd sec = false ∧ sec ∈ t.poison)) ∧
     err (.tags g) (fun t => (t.grove g).fenced = true) ∧
     (∀ key u, (s.slot slot).st = .run → (s.slot slot).task = some key → s.tasks.find key = some u →
       err (.registers slot) (fun t => (t.tasks.find key).map (fun v => (v.st, v.dead)) = some (.faulted, true)))) ∧
    (∀ a q, s.apertureAt a = some q →
      (∀ bs r, (qExpand q.desc.toNat (a - q.base) n).run (QCtx.start s noSlot q.ctx) = (.ok bs, r) →
        (∀ ds : List Byte, bs = ds.map some → exec (.apertureRead a n) s = .next { r.s.apertureLeft with reply := .data ds }) ∧
        (none ∈ bs → exec (.apertureRead a n) s = .next { r.s.apertureLeft with reply := .poison bs })) ∧
      (s.hostRec = none → exec (.apertureWrite a) s = .next { s.hostRecord q.ctx a 1 with reply := .abort }) ∧
      (∀ r, s.hostRec = some r → exec (.apertureWrite a) s = .next { s with reply := .none }))

/-- R72, R89, R125, R211, R238, R240, R243 to R247, R16: a notice goes into the ring and a record into its context's queue when there is room; a stop takes effect at a boundary outside a packet, and the frame that a pre-emption saves gives every register back; a trapped slot whose save has waited saves its task once it can; sl.cmd resumes, skips or abandons the faulted task at an address; the watchdog, the missed pings and firmware stop slots and fence groves; a fenced grove's row may use its spare. That a context which was never committed takes no record, that a record whose place is poisoned waits, that a task whose registers were lost answers with status 1, and that the ping's answer is an operand are the model's choices (log 48, log 63, log 40, log 82). -/
def Obligations.FaultEvents : Prop :=
  ∀ (s : State) (slot g key row col : Nat),
    let sl := s.slot slot
    let gr := s.grove g
    (∀ bs, sl.st = .stopped → sl.saving = false → sl.record = none → sl.notice = some bs → bs.length = 32 → sl.sbuf = [] → s.notices = [] →
      s.trRing ≠ 0 → s.trHead + 1 ≠ s.trTail → s.openAt (s.trRing.toNat * 32768 + s.trHead.toNat * 32) 32 →
      ∃ t, exec (.trapNoticeRetry slot) s = .next t ∧ t.trHead = s.trHead + 1 ∧
        memRead t.mem (s.trRing.toNat * 32768 + s.trHead.toNat * 32) 32 = bs ∧ (t.slot slot).notice = none ∧ (t.slot slot).task = none ∧
        (t.slot slot).st = if sl.task.isSome then .idle else .stopped) ∧
    (∀ bs rest, sl.st ≠ .stopped → s.notices = bs :: rest →
      (∀ s2, s.noticePut bs = some s2 → exec (.trapNoticeRetry slot) s = .next { s2 with notices := rest }) ∧
      (s.noticePut bs = none → exec (.trapNoticeRetry slot) s = .next s)) ∧
    (∀ r, (let path := field r.bytes 18 1
       let src := s.pathSrc slot path
       (slot < noCore * 4 → sl.st = .stopped → sl.saving = false → sl.record = some r → sl.sbuf = [] → (s.core (coreOf slot)).copyEng.record = none →
        (s.core (coreOf slot)).gathEng.record = none →
        (∀ q, src.awaiting = some q → q ≠ r.seq → exec (.faultRecordRetry slot) s = .next s) ∧
        (src.awaiting = none ∨ src.awaiting = some r.seq →
          (∀ s2, s.recordPut r = (s2, false) → exec (.faultRecordRetry slot) s = .next s2) ∧
          (∀ s2, s.recordPut r = (s2, true) →
            let u := (s2.setPathSrc slot path { s2.pathSrc slot path with awaiting := some r.seq }).modSlot slot fun q => { q with record := none }
            let done := fun (t : State) => exec (.faultRecordRetry slot) s = .next (t.modSlot slot fun q => { q with
              notice := none, st := if q.task.isSome then .idle else q.st, task := none, ctx := 0, cls := 0, grp := 0 })
            (sl.notice = none → done u) ∧
            (∀ bs s3, sl.notice = some bs → s.notices = [] → u.noticePut bs = some s3 → done s3))))) ∧
      (∀ s2, slot < noCore * 4 → sl.st ≠ .stopped → (s.core (coreOf slot)).copyEng.record = some r →
        (s.core (coreOf slot)).gathEng.record = none → s.recordPut r = (s2, true) →
        let e := (s.core (coreOf slot)).copyEng
        exec (.faultRecordRetry slot) s = .next (s2.modCore (coreOf slot) fun c => { c with copyEng := { c.copyEng with
          record := none, orphan := false, fsrc := if e.orphan then { e.fsrc with awaiting := none } else e.fsrc } })) ∧
      (s.recordBad r = true → (s.recordPut r).2 = false) ∧
      (let d := s.ctxDesc r.ctx
       let head := natOf (memRead s.mem (d + 24) 4) % 4096
       let base := (s.ctxOf r.ctx).fqbase
       let noQueue := base = 0 ∧ (s.ctxOf r.ctx).ptroot = 0
       (noQueue ∨ (head + 1) % 4096 = natOf (memRead s.mem (d + 28) 4) % 4096 → s.openAt (d + 24) 8 → s.recordPut r = (s, false)) ∧
       (¬ noQueue → (head + 1) % 4096 ≠ natOf (memRead s.mem (d + 28) 4) % 4096 → r.bytes.length = 64 → s.openAt (d + 24) 8 →
        s.openAt (base + head * 64) 64 → d + 28 ≤ base ∨ base + 2 ^ 18 ≤ d + 24 → ∃ t, s.recordPut r = (t, true) ∧
          memRead t.mem (base + head * 64) 64 = r.bytes ∧ natOf (memRead t.mem (d + 24) 4) = (head + 1) % 4096))) ∧
    ((sl.st = .run ∨ sl.st = .waiting) →
      let s1 := (s.dropDefer slot).postAbandon slot
      (sl.packet.isSome = true ∨ sl.stall ≠ [] → exec (.stopTakeEffect slot) s = .next s) ∧
      (sl.packet = none → sl.stall = [] →
        (sl.stop = some .preempt → exec (.stopTakeEffect slot) s = .next (s1.setSlot slot { sl with st := .stopped, held := false })) ∧
        (sl.stop = some .watchdog → exec (.stopTakeEffect slot) s = .next (s1.takeTrap slot Cause.watchdog 0 0)) ∧
        (sl.stop = some .kill → sl.task = some key → exec (.stopTakeEffect slot) s = .next (s1.killTask key)))) ∧
    (∀ u, sl.st = .stopped → sl.stop = some .preempt → sl.task = some key → s.tasks.find key = some u → s.windowRoom (groveOf slot) = true →
      s.saveWaits slot key = false →
      ∃ t, exec (.frameSaveComplete slot) s = .next t ∧ ∃ v, t.tasks.find key = some v ∧ v.frame.isSome = true ∧
        ((s.saveTask slot key).2 = none → (t.slot slot).st = .idle ∧ (t.slot slot).task = none ∧ (∀ gp, s.groups.find u.grp = some gp → v.st = .ready)) ∧
        ((s.saveTask slot key).2 ≠ none → v.st = .faulted)) ∧
    (∀ u, sl.st = .stopped → sl.stop = none → sl.saving = true → sl.task = some key → s.tasks.find key = some u →
      (s.saveWaits slot key = true → exec (.frameSaveComplete slot) s = .next s) ∧
      (s.saveWaits slot key = false → ∃ t, exec (.frameSaveComplete slot) s = .next t ∧ (t.slot slot).saving = false ∧
        ∃ v, t.tasks.find key = some v ∧ v.st = .faulted ∧ v.frame.isSome = true)) ∧
    (∀ (q : Slot) (blk : List Byte), sl.vl.toNat ≤ shapeMax sl.vshape.toNat → sl.prDepth.toNat ≤ 16 → sl.prVals.toNat < 2 ^ sl.prDepth.toNat → sl.rng ≠ 0 →
      sl.fpCtl.toNat < 2 ^ 14 → sl.fpCtl.toNat % 256 ≤ 4 → sl.faultCause &&& 0xF0FF = sl.faultCause →
      let t := q.fromFrame (sl.frameBytes ++ blk)
      (∀ r, t.xr r = sl.xr r ∧ t.vr r = sl.vr r) ∧ (∀ r, t.kr r = sl.kr r) ∧ t.pc = sl.pc ∧ t.vl = sl.vl ∧ t.vshape = sl.vshape ∧
      t.fpCtl = sl.fpCtl ∧ t.rng = sl.rng ∧ t.faultCause = sl.faultCause ∧ t.faultAddr = sl.faultAddr ∧ t.faultPc = sl.faultPc ∧
      t.prVals = sl.prVals ∧ t.prDepth = sl.prDepth) ∧
    (∀ p rest, s.slQ = p :: rest →
      let s1 := { s with slQ := rest }
      let op := bits p.word.toNat 2 0
      let at_ := s.faultedAt (bits p.word.toNat 47 6 * 64)
      (op = 0 ∨ 3 < op → ∀ i ∈ [Instr.slResume, .slSkip, .slAbandon], exec i s = .next (s1.slReply p 2)) ∧
      (at_ = [] → ∀ k i, (k, i) ∈ [(1, Instr.slResume), (2, .slSkip), (3, .slAbandon)] → op = k → exec i s = .next (s1.slReply p 1)) ∧
      (∀ t, at_ = [key] → s.tasks.find key = some t →
        (op = 1 → exec .slResume s = .next (if t.dead then s1.slReply p 1 else ((s1.settleAwait t).resumeTask key).slReply p 0)) ∧
        (op = 2 → exec .slSkip s = .next (if t.dead then s1.slReply p 1
          else (((if t.refused then s1 else s1.skipPc t).settleAwait t).resumeTask key).slReply p 0)) ∧
        (op = 3 → exec .slAbandon s = .next ((if t.cls = 1 ∨ t.cls = 2 then s1.rerun key
          else (s1.breakGroup t.grp 11).killTask key).slReply p 0)))) ∧
    (let run := (s.grove (groveOf slot)).wdRun.toNat
     (run = 0 → exec (.watchdogExpiry slot) s = .next s) ∧
     (run ≠ 0 → sl.task.isSome = true → (sl.st = .run ∨ sl.st = .waiting) → sl.stop = none → sl.since + run ≤ s.tick.toNat →
      exec (.watchdogExpiry slot) s = .next (s.setSlot slot { sl with stop := some .watchdog, held := false }))) ∧
    (let pinged := fun (n : Nat) => s.setGrove g { gr with pingAt := s.tick.toNat + gr.wdHang.toNat, missed := n }
     (s.logical g = none ∨ gr.fenced = true ∨ s.tick.toNat < gr.pingAt → ∀ b, exec (.hangPing g b) s = .next s) ∧
     (∀ q, s.logical g = some q → gr.fenced = false → gr.pingAt ≤ s.tick.toNat → exec (.hangPing g true) s = .next (pinged 0) ∧
      exec (.hangPing g false) s = .next (if gr.missed = 0 then pinged 1 else (pinged (gr.missed + 1)).fence g)) ∧
     ∃ t, exec (.firmwareFence g) s = .next t ∧ (t.grove g).fenced = true ∧ ∀ k, groveOf k = g → t.canRun k = false) ∧
    (let remap := exec (.spareColumnRemap row col) s
     ((s.grove (s.physGrove col row)).fenced = false ∨ s.claimed col row = true ∨ (s.remapOf row).isSome = true → remap = .next s) ∧
     (s.fwwidth = 1 → row < 32 → col < 32 → s.remapOf row = none → (s.grove (s.physGrove col row)).fenced = true → s.claimed col row = false →
      (s.grove (gridIndex s.spare row)).fenced = false →
      ∃ t, remap = .next t ∧ t = { s with remaps := PMap.put s.remaps row col } ∧ t.physGrove col row = gridIndex s.spare row))

/-- R69 to R78, R103 to R115: a context command is served when its context has none in progress, moves the context between the states of R75, and answers with its status; a launch is claimed, loaded or refused by its routes, and released with a count of all its records, and its group drains, is DONE or BROKEN, and frees its clearing. A claim that has begun goes on with the bytes that it read. Where several of these may go, which is first, whether a router's entries read back as written, and the cause of another module's refusal are the model's choices (log 1, log 76, log 94). -/
def Obligations.ContextAndGroupEvents : Prop :=
  (∀ (s : State) (p : Pending), s.ctxNext = some p →
    let s1 := s.ctxTake p
    let ctx := cmdCtx p.word
    let op := cmdOp p.word
    let st := (s.ctxOf ctx).st
    let d := s.ctxDesc ctx
    (op = 0 ∨ 6 < op → ∀ i ∈ [Instr.ctxCreate, .ctxCommit, .ctxSuspend, .ctxResume, .ctxTeardown, .ctxFault],
      exec i s = .next (s1.ctxReply p.core ctx op 4)) ∧
    (op = 1 → (st ≠ .free → exec .ctxCreate s = .next (s1.ctxReply p.core ctx 1 1)) ∧
      (st = .free → p.core ≠ noCore → s.openAt d 256 → ∃ t, exec .ctxCreate s = .next t ∧ (t.ctxOf ctx).st = .building ∧
        natOf (memRead t.mem d 1) = 1 ∧ (∀ a n, (a, n) ∈ [(2, 2), (24, 8), (40, 8)] → natOf (memRead t.mem (d + a) n) = 0) ∧
        (t.core p.core).ctxCmd = BitVec.ofNat 64 (ctx * 2 ^ 16 + 1))) ∧
    (op = 2 → (st ≠ .building → exec .ctxCommit s = .next (s1.ctxReply p.core ctx 2 1)) ∧
      (∀ s2, st = .building → s1.ctxRead ctx = (none, s2) → exec .ctxCommit s = .next ((s2.ctxReply p.core ctx 2 2).ctxRaise ctx)) ∧
      (∀ b s2, st = .building → s1.ctxRead ctx = (some b, s2) →
        (ctxOk b = true → exec .ctxCommit s = .next (((s2.modCtx ctx fun c => c.cache b).ctxState ctx .ready).ctxReply p.core ctx 2 0)) ∧
        (ctxOk b = false → exec .ctxCommit s = .next (s2.ctxReply p.core ctx 2 2)))) ∧
    (op = 3 → (st ≠ .ready → st ≠ .running → exec .ctxSuspend s = .next (s1.ctxReply p.core ctx 3 1)) ∧
      (st = .ready ∨ st = .running → ∃ t, exec .ctxSuspend s = .next t ∧
        ((∃ q ∈ s.slots, q.2.busyFor ctx = true) → ∀ k, (s.slot k).busyFor ctx = true → (s.slot k).stop = none → (t.slot k).stop = some .preempt) ∧
        ((∀ q ∈ s.slots, q.2.busyFor ctx = false) → s.gqBase = 0 → (t.ctxOf ctx).st = .suspended ∧ (t.ctxOf ctx).stopping = .none))) ∧
    (op = 4 → (st ≠ .suspended → st ≠ .faulted → exec .ctxResume s = .next (s1.ctxReply p.core ctx 4 1)) ∧
      (∀ s2, st = .suspended ∨ st = .faulted → s1.ctxRead ctx = (none, s2) → exec .ctxResume s = .next ((s2.ctxReply p.core ctx 4 2).ctxRaise ctx)) ∧
      (∀ b s2, st = .suspended ∨ st = .faulted → s1.ctxRead ctx = (some b, s2) →
        (ctxOk b = false → exec .ctxResume s = .next (s2.ctxReply p.core ctx 4 2)) ∧
        (ctxOk b = true → exec .ctxResume s = .next (((((s2.modCtx ctx fun c => c.cache b).ctxState ctx
          (if 0 < (s2.ctxOf ctx).groups then .running else .ready)).gqMove ctx 3 1).vtResume ctx).ctxReply p.core ctx 4 0)))) ∧
    (op = 5 → (st = .free → exec .ctxTeardown s = .next (s1.ctxReply p.core ctx 5 1)) ∧
      (st = .teardown → exec .ctxTeardown s = .next (s1.ctxReply p.core ctx 5 0)) ∧
      (st ≠ .free → st ≠ .teardown → ∃ t, exec .ctxTeardown s = .next t ∧ (t.ctxOf ctx).st = .teardown ∧ ∀ q ∈ t.tasks, q.2.ctx ≠ ctx)) ∧
    (op = 6 → (st = .free → exec .ctxFault s = .next (s1.ctxReply p.core ctx 6 1)) ∧
      (st = .teardown → exec .ctxFault s = .next (s1.ctxReply p.core ctx 6 0)) ∧
      (st ≠ .free → st ≠ .teardown → (∀ q ∈ s.slots, q.2.busyFor ctx = false) → s.gqBase = 0 →
        ∃ t, exec .ctxFault s = .next t ∧ (t.ctxOf ctx).st = .faulted ∧ (t.ctxOf ctx).stopping = .none))) ∧
  (∀ (s : State) (ctx : Nat),
    exec (.ctxDeviceFault ctx) s = .next { s with ctxQ := s.ctxQ ++ [⟨noCore, BitVec.ofNat 64 (ctx * 2 ^ 16 + 6)⟩] } ∧
    (s.ctxQuiet ctx = false → exec (.ctxStopComplete ctx) s = .next s ∧ exec (.ctxDrained ctx) s = .next s) ∧
    (s.ctxQuiet ctx = true →
      (∀ kind st, (kind, st) ∈ [(CtxStop.suspend, CtxSt.suspended), (.fault, .faulted)] → (s.ctxOf ctx).stopping = kind →
        ∃ t, exec (.ctxStopComplete ctx) s = .next t ∧ (t.ctxOf ctx).st = st ∧ (t.ctxOf ctx).stopping = .none) ∧
      ((s.ctxOf ctx).stopping = .teardown → s.ctxFreed ctx = true → ∃ t, exec (.ctxDrained ctx) s = .next t ∧ (t.ctxOf ctx).st = .free ∧
        ∀ core, (s.ctxOf ctx).stopCore = some core → core ≠ noCore → (t.core core).ctxCmd = BitVec.ofNat 64 (ctx * 2 ^ 16 + 5)))) ∧
  (∀ (s : State) (n : Nat) (g : Group), s.groups.find n = some g →
    let stOf := fun (t : State) => (t.groups.find n).map (fun q => (q.st, q.freed))
    let ended := fun (t : State) (cause : Nat) => stOf t = some (.done, true) ∧ (t.groups.find n).map (·.cause) = some cause
    (s.routed = some (n, g) →
      (g.st = .loading →
        (∀ l, s.copyOf g = .ok l → exec .grpLaunch s = .next (s.groupLoad n l)) ∧
        (s.copyOf g = .error .wait → exec .grpLaunch s = .next s) ∧
        (∀ r, s.copyOf g = .error (.fail r) → ∃ t, exec .grpLaunch s = .next t ∧ ended t 3)) ∧
      (g.st = .routing →
        (∀ s1, s.routeAll n g g.groves = (s1, false) → ∃ t, exec .grpLaunch s = .next t ∧ ended t 8) ∧
        (∀ s1, s.routeAll n g g.groves = (s1, true) → ∃ t, exec .grpLaunch s = .next t ∧
          (g.peers = true → g.peerOk = false → stOf t = some (.routing, g.freed) ∧ (t.groups.find n).map (·.routeOk) = some true) ∧
          (g.peers = false ∨ g.peerOk = true → stOf t = some (.loading, g.freed) ∨ ended t 3)))) ∧
    (g.st = .routing → g.peers = true →
      (∃ t, exec (.peerRouteReport n false) s = .next t ∧ ended t 8) ∧
      (∃ t, exec (.peerRouteReport n true) s = .next t ∧
        (g.routeOk = false → t = s.setGroup n { g with peerOk := true }) ∧
        (g.routeOk = true → stOf t = some (.loading, g.freed) ∨ ended t 3))) ∧
    (g.st = .loading → g.loaded = false → exec (.groupRelease n) s = .next s) ∧
    (g.st = .loading → g.loaded = true → (s.ctxOf g.ctx).st = .ready ∨ (s.ctxOf g.ctx).st = .running → (s.ctxOf g.ctx).stopping = .none →
      ∀ pas, s.recordPlaces g (g.ownCores.map (·.1)) = .ok pas → ∃ t, exec (.groupRelease n) s = .next t ∧
        stOf t = some (if g.launchCores.isEmpty then .draining else .running, g.freed) ∧ (t.groups.find n).map (·.live) = some g.launchCores.length) ∧
    (g.st = .draining → s.groupEngines n g = true → exec (.groupDrained n) s = .next (s.groupCombine g)) ∧
    (g.st = .draining → s.groupEngines n g = false → s.groupUpd g = [] → ∃ t, exec (.groupDrained n) s = .next t ∧ stOf t = some (.done, true)) ∧
    (g.st = .broken → g.freed = false → ∃ t, exec (.groupBrokenFreed n) s = .next t ∧ stOf t = some (.broken, true) ∧
      (t.groups.find n).map (·.cause) = some g.cause)) ∧
  (∀ (s : State) (p : Pending) (rest : List Pending), s.routed = none → s.grpQ = p :: rest →
    let ctx := bits p.word.toNat 5 0
    let va := bits p.word.toNat 47 7 * 128
    let st := (s.ctxOf ctx).st
    let claims := fun (s1 : State) (pa : Nat) (b : List Byte) =>
      let gr := groupOf va pa p.core b
      (s1.claimCheck ctx gr b = .wait → exec .grpLaunch s = .next (s1.claiming pa b)) ∧
      (∀ cause raise, s1.claimCheck ctx gr b = .refuse cause raise →
        exec .grpLaunch s = .next { { s1.claimRefuse pa p.core cause with claimAt := none }.raiseIf raise with grpQ := rest }) ∧
      (∀ c, s1.claimCheck ctx gr b = .ok c → ∃ t, exec .grpLaunch s = .next t ∧ t.grpQ = rest ∧ t.claimAt = none ∧
        t.nextGroup = s.nextGroup + 1 ∧ (t.groups.find s.nextGroup).map (fun q => (q.st, q.chans.length)) = some (.routing, gr.nchan))
    (st = .free ∨ st = .building → s.claimAt = none → exec .grpLaunch s = .next { s.launchReply p.core 1 with grpQ := rest }) ∧
    (∀ b pa n, st ≠ .free → st ≠ .building → s.claimAt = none → s.feRead ctx va 128 = .ok b → s.fePlaces ctx .store va 128 = .ok [(pa, n)] →
      claims (s.recallRange pa 128) pa b) ∧
    (∀ b pa, s.claimAt = some (pa, b) → claims s pa b))

/-- R210, R217 to R219, R224, R227 to R233: a link moves between its states by commands and training, and counts its replays and retrains; a guest queue is enabled and disabled by commands; the agent's reports start, pause and complete packets, or wait until a packet can be read, its stores perform at the home, and it answers invalidations and quiesces, or its link is fenced when it misses the bound. That a DISABLE waits for the answer, which rates a port reports and what the guest may cache are the model's readings (log 44, log 79). -/
def Obligations.LinkAndGuestEvents : Prop :=
  (∀ (s : State) (link : Nat) (width rate : BitVec 8),
    let l := s.link link
    let train := fun (t : State) => t.setLink link { l with
      st := .training, width := 0, rate := 0, replays := 0, burst := 0, since := s.tick.toNat, retrains := BitVec.ofNat 8 (min 255 (l.retrains.toNat + 1)) }
    (∀ p, s.lkQ.find? (fun p => lkLink p.word == link) = some p →
      let s1 := { s with lkQ := s.lkQ.erase p }
      (lkOp p.word = 1 → exec (.lkEnable link) s = .next (if l.st = .down then train s1 else s1)) ∧
      (lkOp p.word = 2 → exec (.lkRetrain link) s = .next (if l.works then train s1 else s1)) ∧
      (lkOp p.word = 3 → exec (.lkFence link) s = .next (s1.linkFence link)) ∧
      (lkOp p.word = 4 → exec (.lkUnfence link) s = .next (if l.st = .fenced then s1.linkDown link else s1))) ∧
    ((s.linkDown link).link link).st = .down ∧ ((s.linkDown link).link link).width = 0 ∧ ((s.linkFence link).link link).st = .fenced ∧
    (link < 14 →
      (l.st ≠ .training → ∀ i ∈ [Instr.linkTrainedFull link rate, .linkTrainedReduced link width rate, .linkTrainingFail link, .linkTrainingTimeout link],
        exec i s = .next s) ∧
      (l.st = .training →
        let rates := if link = 0 then [2, 5, 8, 16, 32, 64] else if link = 13 then [32] else [212]
        let least := if link = 13 then 1 else 4
        let widths := if link = 13 then [2, 1] else [8, 4]
        exec (.linkTrainedFull link rate) s = .next (if rate.toNat ∈ rates
          then s.setLink link { l with st := .up, width := if link = 13 then 4 else 16, rate := rate } else s) ∧
        (width.toNat < least → exec (.linkTrainedReduced link width rate) s = .next (s.linkDown link)) ∧
        (least ≤ width.toNat → exec (.linkTrainedReduced link width rate) s = .next (if width.toNat ∈ widths ∧ rate.toNat ∈ rates
          then s.setLink link { l with st := .degraded, width := width, rate := rate } else s)) ∧
        exec (.linkTrainingFail link) s = .next (s.linkDown link) ∧
        exec (.linkTrainingTimeout link) s = .next (if l.since + 10000 ≤ s.tick.toNat then s.linkDown link else s)) ∧
      (l.works = true → exec (.linkErrorThreshold link) s = .next (if 16 ≤ l.burst then train s else s) ∧
        exec (.flitCrcReplay link) s = .next (s.setLink link { l with
          replays := BitVec.ofNat 16 (min 65535 (l.replays.toNat + 1))
          burst := if l.burstTick = s.tick.toNat then l.burst + 1 else 1
          burstTick := s.tick.toNat })))) ∧
  (∀ (s : State) (p : Pending) (rest : List Pending), s.gqQ = p :: rest →
    let q := gqQueue p.word
    let st := s.gqState q
    (gqOp p.word = 0 ∨ 2 < gqOp p.word → exec .gqEnable s = .next (s.gqReply 3) ∧ exec .gqDisable s = .next (s.gqReply 3)) ∧
    (gqOp p.word = 1 → (st ≠ 0 → exec .gqEnable s = .next (s.gqReply 1)) ∧
      (st = 0 → s.gqBase = 0 ∨ s.gqOk q = false → exec .gqEnable s = .next (s.gqReply 2)) ∧
      (st = 0 → s.gqBase ≠ 0 → s.gqOk q = true → s.openAt (s.gqDesc q) 64 → ∃ t, exec .gqEnable s = .next t ∧ t.gqState q = 1 ∧
        natOf (memRead t.mem (s.gqDesc q + 16) 8) = 0 ∧ t.gqQ = rest)) ∧
    (gqOp p.word = 2 → (st = 0 → exec .gqDisable s = .next (s.gqReply 0)) ∧
      (st = 1 → exec .gqDisable s = .next { s.quiesce q with gqQ := [⟨p.core, p.word ||| (1 <<< 32)⟩] }) ∧
      (st = 2 → exec .gqDisable s = .next (if gqWaiting p then s else s.gqReply 1)) ∧
      (st = 3 → exec .gqDisable s = .next ((s.gqOff q).gqReply 0)) ∧
      (st = 4 → exec .gqDisable s = .next (if (s.link 13).st = .fenced then s.gqReply 1 else (s.gqOff q).gqReply 0)))) ∧
  (∀ (s : State) (q : Nat) (read idx : BitVec 32) (status : BitVec 8) (va : Addr) (acc : Access) (progress : Nat), s.guestOpen q = true →
    let ctx := s.gqCtx q
    (let l := s.reported q (s.recField (s.gqDesc q) 20 4) read.toNat
     let waits := { s with guest := { s.guest with reports := s.guest.reports ++ [(q, read)] } }
     (l.any (s.packetHeld q) = true ∨ (∃ r ∈ s.guest.reports, r.1 = q) → exec (.guestReadReport q read) s = .next waits) ∧
     ∀ new s1, l.any (s.packetHeld q) = false → (∀ r ∈ s.guest.reports, r.1 ≠ q) → s.startedFrom q l = (new, s1) → s1.openAt (s1.gqDesc q + 20) 4 →
      ∃ t, exec (.guestReadReport q read) s = .next t ∧ natOf (memRead t.mem (s1.gqDesc q + 20) 4) = read.toNat ∧
        t.guest.started = s1.guest.started ++ new) ∧
    (∀ s1, s.guestBytes ctx (s.gqPacket q idx.toNat) 64 = (none, s1) → exec (.guestPacketComplete q idx status) s = .next s1) ∧
    (∀ pk s1, s.guestBytes ctx (s.gqPacket q idx.toNat) 64 = (some pk, s1) →
      let is := fun (t : State) => exec (.guestPacketComplete q idx status) s = .next t
      let fails := fun (r : XRes) => ∃ f, r = .fail f
      (s1.packetReady q idx.toNat (field pk 1 1) = false → is s1) ∧
      (s1.packetReady q idx.toNat (field pk 1 1) = true →
        let s2 := (s1.guestWalk (s1.gqCtx q) (field pk 24 8)).guestWalk (s1.gqCtx q) (field pk 32 8)
        ∀ word cnt, s2.packetTargets (s2.gqCtx q) pk = (word, cnt) →
        (word = .wait ∨ cnt = .wait → is s2) ∧
        (∀ f, word = .fail f → cnt ≠ .wait → is (s2.packetFault q idx.toNat f)) ∧
        (∀ f, cnt = .fail f → word ≠ .wait → ¬ fails word → is (s2.packetFault q idx.toNat f)) ∧
        (word ≠ .wait → cnt ≠ .wait → ¬ fails word → ¬ fails cnt →
          is (if s2.packetTrains (s2.gqCtx q) cnt then s2 else s2.packetEnd q idx.toNat pk status.toNat word cnt)))) ∧
    (∀ p word cnt pk, word = .ok p false → cnt = .deny 0 → field pk 0 1 < 3 → s.openAt p 8 →
      memRead (s.packetEnd q idx.toNat pk 1 word cnt).mem p 8 = bytesOf 8 (field pk 56 8 % 2 ^ 56 * 256 + 1)) ∧
    (let s1 := s.walkTouch ctx [va.toNat]
     (∀ pte level size p inter, s1.walkRaw ctx va.toNat = .leaf pte level size → s1.translateRaw ⟨0, ctx, 5⟩ acc .plain (va.setWidth 64) 1 = .ok p inter →
      ∃ t e, exec (.guestTranslationRequest q va acc) s = .next t ∧ e ∈ t.guest.tlb ∧ e.pte = BitVec.ofNat 64 pte ∧ e.size = size ∧ e.ctx = ctx ∧
        t = { s1 with guest := { s1.guest with tlb := t.guest.tlb } }) ∧
     (∀ f, s1.translateRaw ⟨0, ctx, 5⟩ acc .plain (va.setWidth 64) 1 = .fail f → exec (.guestTranslationRequest q va acc) s = .next (s1.raiseIf (XRes.fail f).raises) ∧
      (s.mayRecord q = true → s.guest.started.contains (q, idx.toNat) = true →
        exec (.guestFaultRecord q idx va acc progress) s = .next (s1.guestRecord q (some idx.toNat) f progress)))) ∧
    (∀ p inter v, va.toNat % 8 = 0 →
      let s1 := s.guestWalk ctx va.toNat
      s1.openAt p 8 →
      (s1.guestXlate .load ctx va.toNat 8 = .ok p inter →
        exec (.guestCoherentAccess q va .load) s = .next s1 ∧ exec (.guestCoherentAccess q va .writeBack) s = .next s1) ∧
      (s1.guestXlate .store ctx va.toNat 8 = .ok p inter → ∃ t, exec (.guestCoherentAccess q va (.store v)) s = .next t ∧
        memRead t.mem p 8 = bytesOf 8 v.toNat ∧ t.guest.held = [(p / 128, ctx)] ∧ ∀ r, (∀ j, j < 8 → r ≠ .device (p + j)) → t.byteAt r = s1.byteAt r)) ∧
    (q < 32 → s.gqState q = 2 → s.openAt (s.gqDesc q + 9) 1 → ∃ t, exec (.guestQuiesced q) s = .next t ∧ t.gqState q = 3 ∧
      (∀ e ∈ t.guest.tlb, e.ctx ≠ ctx) ∧ ∀ h ∈ t.guest.held, h.2 ≠ ctx)) ∧
  (∀ (s : State) (k : Option Nat) (by_ : Nat) (rest : List (Option Nat × Nat)),
    (s.guest.inval = (k, by_) :: rest → s.guestUp = true → exec .guestInvalidationAck s =
      .next { s with guest := { s.guest with inval := rest, acked := s.guest.acked ++ k.toList } }) ∧
    (s.boundMissed = false → exec .guestBoundExpiry s = .next s) ∧
    (s.boundMissed = true → (s.link 13).st ≠ .fenced → ∃ t, exec .guestBoundExpiry s = .next t ∧ (t.link 13).st = .fenced ∧
      t.guest.started = [] ∧ t.guest.held = [] ∧ t.guest.tlb = [] ∧ t.guest.inval = [] ∧ ∀ h ∈ s.guest.held, h.1 ∈ t.poison))

/-- R168, R221, R222, R249 to R256: the host's event word, windows and mailbox; its memory accesses, which have no completer before boot has succeeded; attestation; cold reset with each step of the boot ROM, and the power clamp. Which signature the boot ROM accepts is open (log 5); that every firmware slot starts at address 0, that an access before boot has no completer, that the average is the floor over the samples taken and steps come 100 ticks apart, and that the digest is SHAKE256 are the model's readings (log 7, log 45, log 46, log 83). -/
def Obligations.HostAndBootEvents : Prop :=
  ∀ (s : State) (v : Word) (off size n a watts : Nat) (status : BitVec 7),
    (∃ t, exec (.hostEventWordWrite v) s = .next t ∧ t.eventWord = v ∧ s.sameBytes t) ∧
    (s.mbCmd.getLsbD 63 = true →
      let done := fun (t : State) (st : Nat) =>
        t.mbCmd = BitVec.ofNat 64 (st * 2 ^ 56 + s.mbCmd.toNat % 2 ^ 32) ∧ t.vectors = s.vectors ++ [bits s.mbCmd.toNat 31 16]
      (s.mbCmd.toNat % 2 ^ 16 = 1 → ∃ t, exec .attest s = .next t ∧ done t 0 ∧
        memRead t.mbResp 0 160 = memRead s.mbReq 0 32 ++ (s.measures ++ zeros 128).take 128) ∧
      (256 ≤ s.mbCmd.toNat % 2 ^ 16 →
        (∃ t, exec (.mailboxComplete status) s = .next t ∧ done t status.toNat) ∧
        (s.mbTold = false → ∃ t, exec .mailboxFwOp s = .next t ∧ t.eventWord = s.eventWord ||| 0x8000 ∧ t.mbTold = true) ∧
        (s.mbTold = true → exec .mailboxFwOp s = .next s))) ∧
    (s.mbCmd.getLsbD 63 = false → exec (.mailboxComplete status) s = .next s ∧ exec .attest s = .next s) ∧
    (let w := fun (o k : Nat) => exec (.hostBar0Write o k v) s
     ((size ≠ 4 ∧ size ≠ 8) ∨ off % size ≠ 0 ∨ 2 ^ 20 < off + size → w off size = .next { s with reply := .abort }) ∧
     (s.boot = .up →
      (n < 8 → w (0x100 + 16 * n) 8 = .next { s with hwBase := s.hwBase.put n (BitVec.ofNat 64 (v.toNat / 4096 * 4096)), reply := .none } ∧
        w (0x108 + 16 * n) 8 = .next { s with hwLimit := s.hwLimit.put n (BitVec.ofNat 64 (v.toNat / 4096 * 4096)), reply := .none }) ∧
      (n < 512 → ∃ t, w (0x1000 + 8 * n) 8 = .next t ∧ memRead t.mbReq (8 * n) 8 = bytesOf 8 v.toNat ∧
        ∀ i, i < 8 * n ∨ 8 * n + 8 ≤ i → memByte t.mbReq i = memByte s.mbReq i) ∧
      (n < 14 → w (0x200 + 8 * n) 8 = .next { s with reply := .none } ∧ w 0 8 = .next { s with reply := .none }) ∧
      (s.mbCmd.getLsbD 63 = true → w 0x400 8 = .next { s with reply := .none }) ∧
      (s.mbCmd.getLsbD 63 = false → bits v.toNat 15 0 = 1 ∨ 256 ≤ bits v.toNat 15 0 → bits v.toNat 31 16 < 64 → ∃ t, w 0x400 8 = .next t ∧
        t.mbCmd = BitVec.ofNat 64 (2 ^ 63 + v.toNat % 2 ^ 32) ∧ t.mbTold = false)) ∧
     (∀ k, s.boot = .failed k → off % 8 = 0 → off + 8 ≤ 2 ^ 20 → w off 8 = .next { s with reply := .none })) ∧
    (∀ bs, 0 < size → bs.length = size → a % 128 + size ≤ 128 → a < 2 ^ 38 → s.boot ≠ .up → ∀ wr ∈ [none, some bs],
      exec (.hostMemoryAccess a size wr) s = .next { s with reply := .abort }) ∧
    (∀ bs, s.boot = .up → 0 < size → bs.length = size → a % 128 + size ≤ 128 → s.openAt a size →
      (s.quiltOwners a = [] → (∃ t, exec (.hostMemoryAccess a size none) s = .next t ∧
          t = { s with reply := .data (memRead s.mem a size), hostHeld := t.hostHeld } ∧
          ∀ h, h ∈ t.hostHeld ↔ h ∈ s.hostHeld ∨ a / 64 ≤ h ∧ h ≤ (a + size - 1) / 64) ∧
        ∃ t, exec (.hostMemoryAccess a size (some bs)) s = .next t ∧ memRead t.mem a size = bs ∧ t.reply = .none ∧
          ∀ r, (∀ j, j < size → r ≠ .device (a + j)) → t.byteAt r = s.byteAt r) ∧
      (∀ c, s.quiltOwners a = [c] → s.hostRec = none → ∃ t, exec (.hostMemoryAccess a size none) s = .next t ∧ t.reply = .abort ∧
        t.hostSrc.seq = s.hostSrc.seq + 1)) ∧
    (let s0 := if s.boot = .held then s else { State.reset with flash := s.flash, hostMem := s.hostBeneath, agenda := s.agenda, fresh := s.fresh }
     let image := memRead s.flash (s.tbl 192 8) (s.tbl 200 8)
     let fits := Config.signatureHolds (memRead s.flash 0 3565) && s.tableOk
     let digest := (shake256 image ++ zeros 32).take 32
     (fits = false → exec .coldReset s = .next { s0 with boot := .failed 2, bootWord := 2 }) ∧
     (fits = true → digest ≠ memRead s.flash 208 32 → exec .coldReset s =
      .next { s0 with mem := memWrite s0.mem 0 image, boot := .failed 3, bootWord := 3 }) ∧
     (fits = true → digest = memRead s.flash 208 32 → ∃ t, exec .coldReset s = .next t ∧ t.boot = .up ∧ t.bootWord = 0xFF ∧
      t.fwcol.toNat = s.tbl 6 1 ∧ t.fwwidth.toNat = s.tbl 7 1 ∧ t.spare = s.tbl 8 1 ∧ t.gsLock = true ∧ t.pwLim.toNat = s.tbl 16 2 ∧
      t.mem = memWrite s0.mem 0 image ∧
      (∀ k, k < 4 * 8 * 34 * 32 → t.isFw k = true → (t.slot k).st = .run ∧ (t.slot k).pc = 0 ∧ (t.grove (groveOf k)).wallLock = true))) ∧
    (s.pwAt ≤ s.tick.toNat → ∃ t, exec (.powerSample watts) s = .next t ∧ t.pwLog = (watts :: s.pwLog).take 10000 ∧
      t.pwAvg = BitVec.ofNat 16 (t.pwLog.sum / t.pwLog.length) ∧ t.pwAt = s.tick.toNat + 1) ∧
    (let lim := min s.pwTable.toNat s.pwLim.toNat
     let avg := s.pwAvg.toNat
     let step := fun (k : BitVec 4) => exec .clampStep s = .next { s with pwStep := k, pwSince := s.tick.toNat }
     (s.tick.toNat < s.pwSince + 100 → exec .clampStep s = .next s) ∧
     (s.pwSince + 100 ≤ s.tick.toNat →
      (lim < avg → 3 < s.pwStep.toNat → step (s.pwStep - 1)) ∧ (lim < avg → s.pwStep.toNat ≤ 3 → exec .clampStep s = .next s) ∧
      (avg * 100 < lim * 95 → s.pwStep ≠ 15 → step (s.pwStep + 1)) ∧ (lim * 95 ≤ avg * 100 → avg ≤ lim → exec .clampStep s = .next s)))

/-! ### The whole machine -/

/-- R269, R275 to R277, R298, R427: with nothing on the agenda and boot over, a step of the slot whose turn it is runs the instruction that its fetch reads; a firmware slot reads the chain at its pc untranslated, and afterwards its pc of the next chain stands behind it. An instruction whose guard is false only advances, but for the predicate instructions. -/
def Obligations.StepRunsDecodedInstruction : Prop :=
  (∀ (s s1 : State) (i : Instr), s.agenda = [] → s.boot = .up → s.ready s.cur = true → s.fetch = .ok i s1 → step s = exec i s1) ∧
  (∀ (s : State) (i : Instr) (n : Nat), s.agenda = [] → s.boot = .up → s.ready s.cur = true → s.isFw s.cur = true → s.me.xfer = false →
    s.myCore.icache = [] → s.openAt s.me.pc.toNat (2 * n) → decodeBytes (memRead s.mem s.me.pc.toNat (2 * n)) = .instr i n →
    ∃ ic, step s = exec i ((s.setCore (coreOf s.cur) { s.myCore with icache := ic }).setSlot s.cur
      { s.me with npc := s.me.pc + BitVec.ofNat 48 (2 * n), xfer := false })) ∧
  (∀ (s : State) (i : Instr), s.me.guard = false → s.me.packet = none →
    let whatever := fun (i : Instr) => match i with
      | .cmpEq _ _ | .cmpNe _ _ | .cmpLt _ _ | .cmpGe _ _ | .cmpLtN _ _ | .cmpGeN _ _ | .cmpiEq _ _ | .cmpiLt _ _ => true
      | .fcmpEq _ _ _ | .fcmpLt _ _ _ | .fcmpLe _ _ _ | .pand | .por | .pnot | .pend => true
      | _ => false
    let checked := fun (i : Instr) => match i with
      | .rdsr _ _ | .wrsr _ _ | .pgPost _ _ _ | .pgReplay _ => true
      | _ => false
    i.wf = true → encode i ≠ [] → whatever i = false → (checked i = true → s.isFw s.cur = true) → exec i s = .next s.advance)

/-- R269 to R294: words written out bit by bit from the specification's encodings decode to the instructions that they stand for, at least one of each page and family, and words that break R275 or name no instruction do not decode. -/
def Obligations.DecodesSpecWords : Prop :=
  (∀ p ∈ ([([0x0A61], .sub 4 4 12), ([0xFA30, 0x4E82], .slli 13 12 2), ([0xF9EF, 0x8201], .bne 4 0 (-17)),
      ([0xF801, 0xF90D, 0x2A20], .addi 4 4 100000), ([0xFA1C, 0xFE50, 0xB2B4], .fmadd 5 6 7 ⟨1, .bf16, false⟩),
      ([0xCE02], .rdsr 12 0x02), ([0xF801, 0xD681], .wrsr 13 0x81), ([0xFC01, 0xFE32, 0x0E20], .setvl 12 4 0x32),
      ([0xFC01, 0xFF00, 0x10A8], .vle 1 5 ⟨2, 0, false, .glob⟩ 0), ([0xFC01, 0xFE40, 0x2088], .vadd 1 1 1 ⟨2, 0, false, false⟩),
      ([0xFC01, 0xFFC0, 0x3944], .vpack 2 8 .bx6), ([0xFC02, 0xFE01, 0x2280], .mxCfg 5 true), ([0xFC02, 0x1981], .cbAdvC 3 1),
      ([0xFC02, 0x4448], .ltLoad 8 9), ([0xFC02, 0x4F80], .cp 15), ([0xFC02, 0xFE01, 0x3618], .mma 12 3 false 1),
      ([0xFC03, 0xFE02, 0xF810, 0x0AB2], .ld 5 6 2 ⟨.none, 0, false, false, .scr⟩ 16),
      ([0xFC03, 0xFA1C, 0xFFB4, 0x22B7], .amoCas 5 6 7 ⟨.ar, 3, false, true, .glob⟩), ([0xFC03, 0x4310], .fenceX 0 1 3),
      ([0xFC03, 0xFA38, 0x5EF8], .wait 13 15 14 false 0 0), ([0xFC03, 0xFB00, 0x7B00], .tkSpawn 22),
      ([0xFC04, 0xFB00, 0x0820], .qlOpen 16 4), ([0xFC04, 0xFA94, 0x2600], .qlSeek 0 12 16 5 false),
      ([0xFC04, 0xFB00, 0x3803], .hlApply 16), ([0xFC05, 0x0A81], .pgReplay 5)] : List (List Half × Instr)),
    decodeWords p.1 = .instr p.2 p.1.length) ∧
  decodeWords [0xFE00, 0xFC01, 0x10A8] = .badChain 1 ∧ decodeWords [0xFC06, 0x0800] = .illegal 2 ∧ decodeWords [0x0000] = .illegal 1

/-- R269 to R294: every well-formed instruction that has an encoding decodes from its own words, whatever follows them; and whatever decodes is well-formed and has an encoding. -/
def Obligations.DecodeInvertsEncode : Prop :=
  (∀ (i : Instr) (rest : List Half), i.wf = true → encode i ≠ [] → decodeWords (encode i ++ rest) = .instr i (encode i).length) ∧
  (∀ (ws : List Half) (i : Instr) (n : Nat), decodeWords ws = .instr i n → i.wf = true ∧ encode i ≠ [] ∧ n ≤ 5)

/-- R300, R348, and the canonical form that the model gives its memories (log 3): a step from a state in which every memory is in canonical form, every vl at most NMAX and every predicate depth at most 16 leads to another. -/
def Obligations.StepKeepsForms : Prop :=
  ∀ s t : State, step s = .next t → s.memsWf = true → s.slotsWf = true → t.memsWf = true ∧ t.slotsWf = true

/-- R22 to R24, R42, R43, R95, R100, R123, R138, R144, R233, R246, R249, R300, R348: the module at cold reset has the values that the specification states, no context, group or task, empty futures and links that are DOWN; its forms are canonical, and what the specification leaves open is as the log says (log 2). -/
def Obligations.ResetValues : Prop :=
  State.reset.memsWf = true ∧ State.reset.slotsWf = true ∧
  (let s := State.reset
   s.tick = 0 ∧ s.wake = 64 ∧ s.boMax = 256 ∧ s.boBase = 2 ∧ s.gsBound = 50 ∧ s.gsLock = false ∧ s.ctxBase = 0 ∧ s.pwStep = 15 ∧
   s.recipes.get 0 0 = 0x0100 ∧ (∀ i, 0 < i → s.recipes.get i 0 = 0) ∧ s.tags = [] ∧ s.groups = [] ∧ s.tasks = [] ∧ s.boot = .held) ∧
  (∀ k, (State.reset.ctxOf k).st = .free ∧ (State.reset.link k).st = .down) ∧
  (∀ k, let q := State.reset.slot k
    q.st = .idle ∧ q.vl = 0 ∧ q.vshape = 0 ∧ q.fpCtl = 0 ∧ q.rng = 1 ∧ q.prDepth = 0 ∧ q.wtHold = 4 ∧ q.memWindow = 64 ∧ q.memMix = false ∧
    q.futLife = 0x10000 ∧ q.futRefused = 0 ∧ q.futStatus = 0 ∧ q.hampers = [] ∧ q.qhandles = [] ∧ (∀ r, q.xr r = 0) ∧
    ∀ i, (q.kr 0).getLsbD i = decide (i < 128)) ∧
  ∀ g, (State.reset.grove g).wdHang = 1000 ∧ (State.reset.grove g).wdRun = 0 ∧ (State.reset.grove g).fenced = false
end

