-- ==== Sys2Proof/Laws/State.lean ====
section
/-! SUPPORT. Keyed lists, and what each update of a unit leaves of every field of the state. -/

namespace Sys2Proof

@[simp] theorem PMap.find_put_same {α : Type} (m : PMap α) (k : Nat) (v : α) : PMap.find (m.put k v) k = some v := by
  induction m with
  | nil => simp [PMap.put, PMap.find]
  | cons p rest ih =>
    obtain ⟨i, w⟩ := p
    by_cases h1 : k < i
    · simp [PMap.put, h1, PMap.find]
    · by_cases h2 : k = i
      · simp [PMap.put, h2, PMap.find]
      · have h3 : i ≠ k := fun h => h2 h.symm
        simp [PMap.put, h1, h2, PMap.find, h3, ih]

theorem PMap.find_put_ne {α : Type} (m : PMap α) {k j : Nat} (v : α) (h : j ≠ k) : PMap.find (m.put k v) j = PMap.find m j := by
  induction m with
  | nil => simp [PMap.put, PMap.find, h.symm]
  | cons p rest ih =>
    obtain ⟨i, w⟩ := p
    by_cases h1 : k < i
    · simp [PMap.put, h1, PMap.find, h.symm]
    · by_cases h2 : k = i
      · subst h2
        simp [PMap.put, PMap.find, h.symm]
      · simp [PMap.put, h1, h2, PMap.find, ih]

@[simp] theorem PMap.get_put_same {α : Type} (m : PMap α) (k : Nat) (v d : α) : PMap.get (m.put k v) k d = v := by
  simp [PMap.get]

theorem PMap.get_put_ne {α : Type} (m : PMap α) {k j : Nat} (v d : α) (h : j ≠ k) : PMap.get (m.put k v) j d = PMap.get m j d := by
  simp [PMap.get, PMap.find_put_ne m v h]

namespace Machine

/-! ### setSlot -/

@[simp] theorem State.setSlot_slots (s : State) (k : Nat) (v : Slot) : (s.setSlot k v).slots = s.slots.put k v := rfl
@[simp] theorem State.setSlot_cores (s : State) (k : Nat) (v : Slot) : (s.setSlot k v).cores = s.cores := rfl
@[simp] theorem State.setSlot_groves (s : State) (k : Nat) (v : Slot) : (s.setSlot k v).groves = s.groves := rfl
@[simp] theorem State.setSlot_stands (s : State) (k : Nat) (v : Slot) : (s.setSlot k v).stands = s.stands := rfl
@[simp] theorem State.setSlot_mem (s : State) (k : Nat) (v : Slot) : (s.setSlot k v).mem = s.mem := rfl
@[simp] theorem State.setSlot_hostMem (s : State) (k : Nat) (v : Slot) : (s.setSlot k v).hostMem = s.hostMem := rfl
@[simp] theorem State.setSlot_dirty (s : State) (k : Nat) (v : Slot) : (s.setSlot k v).dirty = s.dirty := rfl
@[simp] theorem State.setSlot_strong (s : State) (k : Nat) (v : Slot) : (s.setSlot k v).strong = s.strong := rfl
@[simp] theorem State.setSlot_undef (s : State) (k : Nat) (v : Slot) : (s.setSlot k v).undef = s.undef := rfl
@[simp] theorem State.setSlot_late (s : State) (k : Nat) (v : Slot) : (s.setSlot k v).late = s.late := rfl
@[simp] theorem State.setSlot_wbOrs (s : State) (k : Nat) (v : Slot) : (s.setSlot k v).wbOrs = s.wbOrs := rfl
@[simp] theorem State.setSlot_poison (s : State) (k : Nat) (v : Slot) : (s.setSlot k v).poison = s.poison := rfl
@[simp] theorem State.setSlot_tags (s : State) (k : Nat) (v : Slot) : (s.setSlot k v).tags = s.tags := rfl
@[simp] theorem State.setSlot_gatesList (s : State) (k : Nat) (v : Slot) : (s.setSlot k v).gatesList = s.gatesList := rfl
@[simp] theorem State.setSlot_deferrals (s : State) (k : Nat) (v : Slot) : (s.setSlot k v).deferrals = s.deferrals := rfl
@[simp] theorem State.setSlot_ctxs (s : State) (k : Nat) (v : Slot) : (s.setSlot k v).ctxs = s.ctxs := rfl
@[simp] theorem State.setSlot_groups (s : State) (k : Nat) (v : Slot) : (s.setSlot k v).groups = s.groups := rfl
@[simp] theorem State.setSlot_nextGroup (s : State) (k : Nat) (v : Slot) : (s.setSlot k v).nextGroup = s.nextGroup := rfl
@[simp] theorem State.setSlot_tasks (s : State) (k : Nat) (v : Slot) : (s.setSlot k v).tasks = s.tasks := rfl
@[simp] theorem State.setSlot_commits (s : State) (k : Nat) (v : Slot) : (s.setSlot k v).commits = s.commits := rfl
@[simp] theorem State.setSlot_drafts (s : State) (k : Nat) (v : Slot) : (s.setSlot k v).drafts = s.drafts := rfl
@[simp] theorem State.setSlot_owed (s : State) (k : Nat) (v : Slot) : (s.setSlot k v).owed = s.owed := rfl
@[simp] theorem State.setSlot_notices (s : State) (k : Nat) (v : Slot) : (s.setSlot k v).notices = s.notices := rfl
@[simp] theorem State.setSlot_guestBad (s : State) (k : Nat) (v : Slot) : (s.setSlot k v).guestBad = s.guestBad := rfl
@[simp] theorem State.setSlot_tick (s : State) (k : Nat) (v : Slot) : (s.setSlot k v).tick = s.tick := rfl
@[simp] theorem State.setSlot_fwcol (s : State) (k : Nat) (v : Slot) : (s.setSlot k v).fwcol = s.fwcol := rfl
@[simp] theorem State.setSlot_fwwidth (s : State) (k : Nat) (v : Slot) : (s.setSlot k v).fwwidth = s.fwwidth := rfl
@[simp] theorem State.setSlot_spare (s : State) (k : Nat) (v : Slot) : (s.setSlot k v).spare = s.spare := rfl
@[simp] theorem State.setSlot_remaps (s : State) (k : Nat) (v : Slot) : (s.setSlot k v).remaps = s.remaps := rfl
@[simp] theorem State.setSlot_wake (s : State) (k : Nat) (v : Slot) : (s.setSlot k v).wake = s.wake := rfl
@[simp] theorem State.setSlot_ctxBase (s : State) (k : Nat) (v : Slot) : (s.setSlot k v).ctxBase = s.ctxBase := rfl
@[simp] theorem State.setSlot_modX (s : State) (k : Nat) (v : Slot) : (s.setSlot k v).modX = s.modX := rfl
@[simp] theorem State.setSlot_modY (s : State) (k : Nat) (v : Slot) : (s.setSlot k v).modY = s.modY := rfl
@[simp] theorem State.setSlot_boMax (s : State) (k : Nat) (v : Slot) : (s.setSlot k v).boMax = s.boMax := rfl
@[simp] theorem State.setSlot_boBase (s : State) (k : Nat) (v : Slot) : (s.setSlot k v).boBase = s.boBase := rfl
@[simp] theorem State.setSlot_hlPool (s : State) (k : Nat) (v : Slot) : (s.setSlot k v).hlPool = s.hlPool := rfl
@[simp] theorem State.setSlot_rtCfg (s : State) (k : Nat) (v : Slot) : (s.setSlot k v).rtCfg = s.rtCfg := rfl
@[simp] theorem State.setSlot_tableMade (s : State) (k : Nat) (v : Slot) : (s.setSlot k v).tableMade = s.tableMade := rfl
@[simp] theorem State.setSlot_pgDirty (s : State) (k : Nat) (v : Slot) : (s.setSlot k v).pgDirty = s.pgDirty := rfl
@[simp] theorem State.setSlot_gqBase (s : State) (k : Nat) (v : Slot) : (s.setSlot k v).gqBase = s.gqBase := rfl
@[simp] theorem State.setSlot_gsLock (s : State) (k : Nat) (v : Slot) : (s.setSlot k v).gsLock = s.gsLock := rfl
@[simp] theorem State.setSlot_gsBound (s : State) (k : Nat) (v : Slot) : (s.setSlot k v).gsBound = s.gsBound := rfl
@[simp] theorem State.setSlot_trRing (s : State) (k : Nat) (v : Slot) : (s.setSlot k v).trRing = s.trRing := rfl
@[simp] theorem State.setSlot_trHead (s : State) (k : Nat) (v : Slot) : (s.setSlot k v).trHead = s.trHead := rfl
@[simp] theorem State.setSlot_trTail (s : State) (k : Nat) (v : Slot) : (s.setSlot k v).trTail = s.trTail := rfl
@[simp] theorem State.setSlot_pwLim (s : State) (k : Nat) (v : Slot) : (s.setSlot k v).pwLim = s.pwLim := rfl
@[simp] theorem State.setSlot_pwTable (s : State) (k : Nat) (v : Slot) : (s.setSlot k v).pwTable = s.pwTable := rfl
@[simp] theorem State.setSlot_pwAvg (s : State) (k : Nat) (v : Slot) : (s.setSlot k v).pwAvg = s.pwAvg := rfl
@[simp] theorem State.setSlot_pwStep (s : State) (k : Nat) (v : Slot) : (s.setSlot k v).pwStep = s.pwStep := rfl
@[simp] theorem State.setSlot_pwLog (s : State) (k : Nat) (v : Slot) : (s.setSlot k v).pwLog = s.pwLog := rfl
@[simp] theorem State.setSlot_pwAt (s : State) (k : Nat) (v : Slot) : (s.setSlot k v).pwAt = s.pwAt := rfl
@[simp] theorem State.setSlot_pwSince (s : State) (k : Nat) (v : Slot) : (s.setSlot k v).pwSince = s.pwSince := rfl
@[simp] theorem State.setSlot_lkCtl (s : State) (k : Nat) (v : Slot) : (s.setSlot k v).lkCtl = s.lkCtl := rfl
@[simp] theorem State.setSlot_gqCtl (s : State) (k : Nat) (v : Slot) : (s.setSlot k v).gqCtl = s.gqCtl := rfl
@[simp] theorem State.setSlot_recipes (s : State) (k : Nat) (v : Slot) : (s.setSlot k v).recipes = s.recipes := rfl
@[simp] theorem State.setSlot_hwBase (s : State) (k : Nat) (v : Slot) : (s.setSlot k v).hwBase = s.hwBase := rfl
@[simp] theorem State.setSlot_hwLimit (s : State) (k : Nat) (v : Slot) : (s.setSlot k v).hwLimit = s.hwLimit := rfl
@[simp] theorem State.setSlot_links (s : State) (k : Nat) (v : Slot) : (s.setSlot k v).links = s.links := rfl
@[simp] theorem State.setSlot_guest (s : State) (k : Nat) (v : Slot) : (s.setSlot k v).guest = s.guest := rfl
@[simp] theorem State.setSlot_hostHeld (s : State) (k : Nat) (v : Slot) : (s.setSlot k v).hostHeld = s.hostHeld := rfl
@[simp] theorem State.setSlot_eventWord (s : State) (k : Nat) (v : Slot) : (s.setSlot k v).eventWord = s.eventWord := rfl
@[simp] theorem State.setSlot_mbCmd (s : State) (k : Nat) (v : Slot) : (s.setSlot k v).mbCmd = s.mbCmd := rfl
@[simp] theorem State.setSlot_mbTold (s : State) (k : Nat) (v : Slot) : (s.setSlot k v).mbTold = s.mbTold := rfl
@[simp] theorem State.setSlot_mbReq (s : State) (k : Nat) (v : Slot) : (s.setSlot k v).mbReq = s.mbReq := rfl
@[simp] theorem State.setSlot_mbResp (s : State) (k : Nat) (v : Slot) : (s.setSlot k v).mbResp = s.mbResp := rfl
@[simp] theorem State.setSlot_vectors (s : State) (k : Nat) (v : Slot) : (s.setSlot k v).vectors = s.vectors := rfl
@[simp] theorem State.setSlot_apertures (s : State) (k : Nat) (v : Slot) : (s.setSlot k v).apertures = s.apertures := rfl
@[simp] theorem State.setSlot_reply (s : State) (k : Nat) (v : Slot) : (s.setSlot k v).reply = s.reply := rfl
@[simp] theorem State.setSlot_hostSrc (s : State) (k : Nat) (v : Slot) : (s.setSlot k v).hostSrc = s.hostSrc := rfl
@[simp] theorem State.setSlot_hostRec (s : State) (k : Nat) (v : Slot) : (s.setSlot k v).hostRec = s.hostRec := rfl
@[simp] theorem State.setSlot_bootWord (s : State) (k : Nat) (v : Slot) : (s.setSlot k v).bootWord = s.bootWord := rfl
@[simp] theorem State.setSlot_boot (s : State) (k : Nat) (v : Slot) : (s.setSlot k v).boot = s.boot := rfl
@[simp] theorem State.setSlot_flash (s : State) (k : Nat) (v : Slot) : (s.setSlot k v).flash = s.flash := rfl
@[simp] theorem State.setSlot_roles (s : State) (k : Nat) (v : Slot) : (s.setSlot k v).roles = s.roles := rfl
@[simp] theorem State.setSlot_measures (s : State) (k : Nat) (v : Slot) : (s.setSlot k v).measures = s.measures := rfl
@[simp] theorem State.setSlot_ctxQ (s : State) (k : Nat) (v : Slot) : (s.setSlot k v).ctxQ = s.ctxQ := rfl
@[simp] theorem State.setSlot_grpQ (s : State) (k : Nat) (v : Slot) : (s.setSlot k v).grpQ = s.grpQ := rfl
@[simp] theorem State.setSlot_claimAt (s : State) (k : Nat) (v : Slot) : (s.setSlot k v).claimAt = s.claimAt := rfl
@[simp] theorem State.setSlot_slQ (s : State) (k : Nat) (v : Slot) : (s.setSlot k v).slQ = s.slQ := rfl
@[simp] theorem State.setSlot_lkQ (s : State) (k : Nat) (v : Slot) : (s.setSlot k v).lkQ = s.lkQ := rfl
@[simp] theorem State.setSlot_gqQ (s : State) (k : Nat) (v : Slot) : (s.setSlot k v).gqQ = s.gqQ := rfl
@[simp] theorem State.setSlot_cur (s : State) (k : Nat) (v : Slot) : (s.setSlot k v).cur = s.cur := rfl
@[simp] theorem State.setSlot_agenda (s : State) (k : Nat) (v : Slot) : (s.setSlot k v).agenda = s.agenda := rfl
@[simp] theorem State.setSlot_fresh (s : State) (k : Nat) (v : Slot) : (s.setSlot k v).fresh = s.fresh := rfl

/-! ### setCore -/

@[simp] theorem State.setCore_slots (s : State) (k : Nat) (v : Core) : (s.setCore k v).slots = s.slots := rfl
@[simp] theorem State.setCore_cores (s : State) (k : Nat) (v : Core) : (s.setCore k v).cores = s.cores.put k v := rfl
@[simp] theorem State.setCore_groves (s : State) (k : Nat) (v : Core) : (s.setCore k v).groves = s.groves := rfl
@[simp] theorem State.setCore_stands (s : State) (k : Nat) (v : Core) : (s.setCore k v).stands = s.stands := rfl
@[simp] theorem State.setCore_mem (s : State) (k : Nat) (v : Core) : (s.setCore k v).mem = s.mem := rfl
@[simp] theorem State.setCore_hostMem (s : State) (k : Nat) (v : Core) : (s.setCore k v).hostMem = s.hostMem := rfl
@[simp] theorem State.setCore_dirty (s : State) (k : Nat) (v : Core) : (s.setCore k v).dirty = s.dirty := rfl
@[simp] theorem State.setCore_strong (s : State) (k : Nat) (v : Core) : (s.setCore k v).strong = s.strong := rfl
@[simp] theorem State.setCore_undef (s : State) (k : Nat) (v : Core) : (s.setCore k v).undef = s.undef := rfl
@[simp] theorem State.setCore_late (s : State) (k : Nat) (v : Core) : (s.setCore k v).late = s.late := rfl
@[simp] theorem State.setCore_wbOrs (s : State) (k : Nat) (v : Core) : (s.setCore k v).wbOrs = s.wbOrs := rfl
@[simp] theorem State.setCore_poison (s : State) (k : Nat) (v : Core) : (s.setCore k v).poison = s.poison := rfl
@[simp] theorem State.setCore_tags (s : State) (k : Nat) (v : Core) : (s.setCore k v).tags = s.tags := rfl
@[simp] theorem State.setCore_gatesList (s : State) (k : Nat) (v : Core) : (s.setCore k v).gatesList = s.gatesList := rfl
@[simp] theorem State.setCore_deferrals (s : State) (k : Nat) (v : Core) : (s.setCore k v).deferrals = s.deferrals := rfl
@[simp] theorem State.setCore_ctxs (s : State) (k : Nat) (v : Core) : (s.setCore k v).ctxs = s.ctxs := rfl
@[simp] theorem State.setCore_groups (s : State) (k : Nat) (v : Core) : (s.setCore k v).groups = s.groups := rfl
@[simp] theorem State.setCore_nextGroup (s : State) (k : Nat) (v : Core) : (s.setCore k v).nextGroup = s.nextGroup := rfl
@[simp] theorem State.setCore_tasks (s : State) (k : Nat) (v : Core) : (s.setCore k v).tasks = s.tasks := rfl
@[simp] theorem State.setCore_commits (s : State) (k : Nat) (v : Core) : (s.setCore k v).commits = s.commits := rfl
@[simp] theorem State.setCore_drafts (s : State) (k : Nat) (v : Core) : (s.setCore k v).drafts = s.drafts := rfl
@[simp] theorem State.setCore_owed (s : State) (k : Nat) (v : Core) : (s.setCore k v).owed = s.owed := rfl
@[simp] theorem State.setCore_notices (s : State) (k : Nat) (v : Core) : (s.setCore k v).notices = s.notices := rfl
@[simp] theorem State.setCore_guestBad (s : State) (k : Nat) (v : Core) : (s.setCore k v).guestBad = s.guestBad := rfl
@[simp] theorem State.setCore_tick (s : State) (k : Nat) (v : Core) : (s.setCore k v).tick = s.tick := rfl
@[simp] theorem State.setCore_fwcol (s : State) (k : Nat) (v : Core) : (s.setCore k v).fwcol = s.fwcol := rfl
@[simp] theorem State.setCore_fwwidth (s : State) (k : Nat) (v : Core) : (s.setCore k v).fwwidth = s.fwwidth := rfl
@[simp] theorem State.setCore_spare (s : State) (k : Nat) (v : Core) : (s.setCore k v).spare = s.spare := rfl
@[simp] theorem State.setCore_remaps (s : State) (k : Nat) (v : Core) : (s.setCore k v).remaps = s.remaps := rfl
@[simp] theorem State.setCore_wake (s : State) (k : Nat) (v : Core) : (s.setCore k v).wake = s.wake := rfl
@[simp] theorem State.setCore_ctxBase (s : State) (k : Nat) (v : Core) : (s.setCore k v).ctxBase = s.ctxBase := rfl
@[simp] theorem State.setCore_modX (s : State) (k : Nat) (v : Core) : (s.setCore k v).modX = s.modX := rfl
@[simp] theorem State.setCore_modY (s : State) (k : Nat) (v : Core) : (s.setCore k v).modY = s.modY := rfl
@[simp] theorem State.setCore_boMax (s : State) (k : Nat) (v : Core) : (s.setCore k v).boMax = s.boMax := rfl
@[simp] theorem State.setCore_boBase (s : State) (k : Nat) (v : Core) : (s.setCore k v).boBase = s.boBase := rfl
@[simp] theorem State.setCore_hlPool (s : State) (k : Nat) (v : Core) : (s.setCore k v).hlPool = s.hlPool := rfl
@[simp] theorem State.setCore_rtCfg (s : State) (k : Nat) (v : Core) : (s.setCore k v).rtCfg = s.rtCfg := rfl
@[simp] theorem State.setCore_tableMade (s : State) (k : Nat) (v : Core) : (s.setCore k v).tableMade = s.tableMade := rfl
@[simp] theorem State.setCore_pgDirty (s : State) (k : Nat) (v : Core) : (s.setCore k v).pgDirty = s.pgDirty := rfl
@[simp] theorem State.setCore_gqBase (s : State) (k : Nat) (v : Core) : (s.setCore k v).gqBase = s.gqBase := rfl
@[simp] theorem State.setCore_gsLock (s : State) (k : Nat) (v : Core) : (s.setCore k v).gsLock = s.gsLock := rfl
@[simp] theorem State.setCore_gsBound (s : State) (k : Nat) (v : Core) : (s.setCore k v).gsBound = s.gsBound := rfl
@[simp] theorem State.setCore_trRing (s : State) (k : Nat) (v : Core) : (s.setCore k v).trRing = s.trRing := rfl
@[simp] theorem State.setCore_trHead (s : State) (k : Nat) (v : Core) : (s.setCore k v).trHead = s.trHead := rfl
@[simp] theorem State.setCore_trTail (s : State) (k : Nat) (v : Core) : (s.setCore k v).trTail = s.trTail := rfl
@[simp] theorem State.setCore_pwLim (s : State) (k : Nat) (v : Core) : (s.setCore k v).pwLim = s.pwLim := rfl
@[simp] theorem State.setCore_pwTable (s : State) (k : Nat) (v : Core) : (s.setCore k v).pwTable = s.pwTable := rfl
@[simp] theorem State.setCore_pwAvg (s : State) (k : Nat) (v : Core) : (s.setCore k v).pwAvg = s.pwAvg := rfl
@[simp] theorem State.setCore_pwStep (s : State) (k : Nat) (v : Core) : (s.setCore k v).pwStep = s.pwStep := rfl
@[simp] theorem State.setCore_pwLog (s : State) (k : Nat) (v : Core) : (s.setCore k v).pwLog = s.pwLog := rfl
@[simp] theorem State.setCore_pwAt (s : State) (k : Nat) (v : Core) : (s.setCore k v).pwAt = s.pwAt := rfl
@[simp] theorem State.setCore_pwSince (s : State) (k : Nat) (v : Core) : (s.setCore k v).pwSince = s.pwSince := rfl
@[simp] theorem State.setCore_lkCtl (s : State) (k : Nat) (v : Core) : (s.setCore k v).lkCtl = s.lkCtl := rfl
@[simp] theorem State.setCore_gqCtl (s : State) (k : Nat) (v : Core) : (s.setCore k v).gqCtl = s.gqCtl := rfl
@[simp] theorem State.setCore_recipes (s : State) (k : Nat) (v : Core) : (s.setCore k v).recipes = s.recipes := rfl
@[simp] theorem State.setCore_hwBase (s : State) (k : Nat) (v : Core) : (s.setCore k v).hwBase = s.hwBase := rfl
@[simp] theorem State.setCore_hwLimit (s : State) (k : Nat) (v : Core) : (s.setCore k v).hwLimit = s.hwLimit := rfl
@[simp] theorem State.setCore_links (s : State) (k : Nat) (v : Core) : (s.setCore k v).links = s.links := rfl
@[simp] theorem State.setCore_guest (s : State) (k : Nat) (v : Core) : (s.setCore k v).guest = s.guest := rfl
@[simp] theorem State.setCore_hostHeld (s : State) (k : Nat) (v : Core) : (s.setCore k v).hostHeld = s.hostHeld := rfl
@[simp] theorem State.setCore_eventWord (s : State) (k : Nat) (v : Core) : (s.setCore k v).eventWord = s.eventWord := rfl
@[simp] theorem State.setCore_mbCmd (s : State) (k : Nat) (v : Core) : (s.setCore k v).mbCmd = s.mbCmd := rfl
@[simp] theorem State.setCore_mbTold (s : State) (k : Nat) (v : Core) : (s.setCore k v).mbTold = s.mbTold := rfl
@[simp] theorem State.setCore_mbReq (s : State) (k : Nat) (v : Core) : (s.setCore k v).mbReq = s.mbReq := rfl
@[simp] theorem State.setCore_mbResp (s : State) (k : Nat) (v : Core) : (s.setCore k v).mbResp = s.mbResp := rfl
@[simp] theorem State.setCore_vectors (s : State) (k : Nat) (v : Core) : (s.setCore k v).vectors = s.vectors := rfl
@[simp] theorem State.setCore_apertures (s : State) (k : Nat) (v : Core) : (s.setCore k v).apertures = s.apertures := rfl
@[simp] theorem State.setCore_reply (s : State) (k : Nat) (v : Core) : (s.setCore k v).reply = s.reply := rfl
@[simp] theorem State.setCore_hostSrc (s : State) (k : Nat) (v : Core) : (s.setCore k v).hostSrc = s.hostSrc := rfl
@[simp] theorem State.setCore_hostRec (s : State) (k : Nat) (v : Core) : (s.setCore k v).hostRec = s.hostRec := rfl
@[simp] theorem State.setCore_bootWord (s : State) (k : Nat) (v : Core) : (s.setCore k v).bootWord = s.bootWord := rfl
@[simp] theorem State.setCore_boot (s : State) (k : Nat) (v : Core) : (s.setCore k v).boot = s.boot := rfl
@[simp] theorem State.setCore_flash (s : State) (k : Nat) (v : Core) : (s.setCore k v).flash = s.flash := rfl
@[simp] theorem State.setCore_roles (s : State) (k : Nat) (v : Core) : (s.setCore k v).roles = s.roles := rfl
@[simp] theorem State.setCore_measures (s : State) (k : Nat) (v : Core) : (s.setCore k v).measures = s.measures := rfl
@[simp] theorem State.setCore_ctxQ (s : State) (k : Nat) (v : Core) : (s.setCore k v).ctxQ = s.ctxQ := rfl
@[simp] theorem State.setCore_grpQ (s : State) (k : Nat) (v : Core) : (s.setCore k v).grpQ = s.grpQ := rfl
@[simp] theorem State.setCore_claimAt (s : State) (k : Nat) (v : Core) : (s.setCore k v).claimAt = s.claimAt := rfl
@[simp] theorem State.setCore_slQ (s : State) (k : Nat) (v : Core) : (s.setCore k v).slQ = s.slQ := rfl
@[simp] theorem State.setCore_lkQ (s : State) (k : Nat) (v : Core) : (s.setCore k v).lkQ = s.lkQ := rfl
@[simp] theorem State.setCore_gqQ (s : State) (k : Nat) (v : Core) : (s.setCore k v).gqQ = s.gqQ := rfl
@[simp] theorem State.setCore_cur (s : State) (k : Nat) (v : Core) : (s.setCore k v).cur = s.cur := rfl
@[simp] theorem State.setCore_agenda (s : State) (k : Nat) (v : Core) : (s.setCore k v).agenda = s.agenda := rfl
@[simp] theorem State.setCore_fresh (s : State) (k : Nat) (v : Core) : (s.setCore k v).fresh = s.fresh := rfl

/-! ### setGrove -/

@[simp] theorem State.setGrove_slots (s : State) (k : Nat) (v : Grove) : (s.setGrove k v).slots = s.slots := rfl
@[simp] theorem State.setGrove_cores (s : State) (k : Nat) (v : Grove) : (s.setGrove k v).cores = s.cores := rfl
@[simp] theorem State.setGrove_groves (s : State) (k : Nat) (v : Grove) : (s.setGrove k v).groves = s.groves.put k v := rfl
@[simp] theorem State.setGrove_stands (s : State) (k : Nat) (v : Grove) : (s.setGrove k v).stands = s.stands := rfl
@[simp] theorem State.setGrove_mem (s : State) (k : Nat) (v : Grove) : (s.setGrove k v).mem = s.mem := rfl
@[simp] theorem State.setGrove_hostMem (s : State) (k : Nat) (v : Grove) : (s.setGrove k v).hostMem = s.hostMem := rfl
@[simp] theorem State.setGrove_dirty (s : State) (k : Nat) (v : Grove) : (s.setGrove k v).dirty = s.dirty := rfl
@[simp] theorem State.setGrove_strong (s : State) (k : Nat) (v : Grove) : (s.setGrove k v).strong = s.strong := rfl
@[simp] theorem State.setGrove_undef (s : State) (k : Nat) (v : Grove) : (s.setGrove k v).undef = s.undef := rfl
@[simp] theorem State.setGrove_late (s : State) (k : Nat) (v : Grove) : (s.setGrove k v).late = s.late := rfl
@[simp] theorem State.setGrove_wbOrs (s : State) (k : Nat) (v : Grove) : (s.setGrove k v).wbOrs = s.wbOrs := rfl
@[simp] theorem State.setGrove_poison (s : State) (k : Nat) (v : Grove) : (s.setGrove k v).poison = s.poison := rfl
@[simp] theorem State.setGrove_tags (s : State) (k : Nat) (v : Grove) : (s.setGrove k v).tags = s.tags := rfl
@[simp] theorem State.setGrove_gatesList (s : State) (k : Nat) (v : Grove) : (s.setGrove k v).gatesList = s.gatesList := rfl
@[simp] theorem State.setGrove_deferrals (s : State) (k : Nat) (v : Grove) : (s.setGrove k v).deferrals = s.deferrals := rfl
@[simp] theorem State.setGrove_ctxs (s : State) (k : Nat) (v : Grove) : (s.setGrove k v).ctxs = s.ctxs := rfl
@[simp] theorem State.setGrove_groups (s : State) (k : Nat) (v : Grove) : (s.setGrove k v).groups = s.groups := rfl
@[simp] theorem State.setGrove_nextGroup (s : State) (k : Nat) (v : Grove) : (s.setGrove k v).nextGroup = s.nextGroup := rfl
@[simp] theorem State.setGrove_tasks (s : State) (k : Nat) (v : Grove) : (s.setGrove k v).tasks = s.tasks := rfl
@[simp] theorem State.setGrove_commits (s : State) (k : Nat) (v : Grove) : (s.setGrove k v).commits = s.commits := rfl
@[simp] theorem State.setGrove_drafts (s : State) (k : Nat) (v : Grove) : (s.setGrove k v).drafts = s.drafts := rfl
@[simp] theorem State.setGrove_owed (s : State) (k : Nat) (v : Grove) : (s.setGrove k v).owed = s.owed := rfl
@[simp] theorem State.setGrove_notices (s : State) (k : Nat) (v : Grove) : (s.setGrove k v).notices = s.notices := rfl
@[simp] theorem State.setGrove_guestBad (s : State) (k : Nat) (v : Grove) : (s.setGrove k v).guestBad = s.guestBad := rfl
@[simp] theorem State.setGrove_tick (s : State) (k : Nat) (v : Grove) : (s.setGrove k v).tick = s.tick := rfl
@[simp] theorem State.setGrove_fwcol (s : State) (k : Nat) (v : Grove) : (s.setGrove k v).fwcol = s.fwcol := rfl
@[simp] theorem State.setGrove_fwwidth (s : State) (k : Nat) (v : Grove) : (s.setGrove k v).fwwidth = s.fwwidth := rfl
@[simp] theorem State.setGrove_spare (s : State) (k : Nat) (v : Grove) : (s.setGrove k v).spare = s.spare := rfl
@[simp] theorem State.setGrove_remaps (s : State) (k : Nat) (v : Grove) : (s.setGrove k v).remaps = s.remaps := rfl
@[simp] theorem State.setGrove_wake (s : State) (k : Nat) (v : Grove) : (s.setGrove k v).wake = s.wake := rfl
@[simp] theorem State.setGrove_ctxBase (s : State) (k : Nat) (v : Grove) : (s.setGrove k v).ctxBase = s.ctxBase := rfl
@[simp] theorem State.setGrove_modX (s : State) (k : Nat) (v : Grove) : (s.setGrove k v).modX = s.modX := rfl
@[simp] theorem State.setGrove_modY (s : State) (k : Nat) (v : Grove) : (s.setGrove k v).modY = s.modY := rfl
@[simp] theorem State.setGrove_boMax (s : State) (k : Nat) (v : Grove) : (s.setGrove k v).boMax = s.boMax := rfl
@[simp] theorem State.setGrove_boBase (s : State) (k : Nat) (v : Grove) : (s.setGrove k v).boBase = s.boBase := rfl
@[simp] theorem State.setGrove_hlPool (s : State) (k : Nat) (v : Grove) : (s.setGrove k v).hlPool = s.hlPool := rfl
@[simp] theorem State.setGrove_rtCfg (s : State) (k : Nat) (v : Grove) : (s.setGrove k v).rtCfg = s.rtCfg := rfl
@[simp] theorem State.setGrove_tableMade (s : State) (k : Nat) (v : Grove) : (s.setGrove k v).tableMade = s.tableMade := rfl
@[simp] theorem State.setGrove_pgDirty (s : State) (k : Nat) (v : Grove) : (s.setGrove k v).pgDirty = s.pgDirty := rfl
@[simp] theorem State.setGrove_gqBase (s : State) (k : Nat) (v : Grove) : (s.setGrove k v).gqBase = s.gqBase := rfl
@[simp] theorem State.setGrove_gsLock (s : State) (k : Nat) (v : Grove) : (s.setGrove k v).gsLock = s.gsLock := rfl
@[simp] theorem State.setGrove_gsBound (s : State) (k : Nat) (v : Grove) : (s.setGrove k v).gsBound = s.gsBound := rfl
@[simp] theorem State.setGrove_trRing (s : State) (k : Nat) (v : Grove) : (s.setGrove k v).trRing = s.trRing := rfl
@[simp] theorem State.setGrove_trHead (s : State) (k : Nat) (v : Grove) : (s.setGrove k v).trHead = s.trHead := rfl
@[simp] theorem State.setGrove_trTail (s : State) (k : Nat) (v : Grove) : (s.setGrove k v).trTail = s.trTail := rfl
@[simp] theorem State.setGrove_pwLim (s : State) (k : Nat) (v : Grove) : (s.setGrove k v).pwLim = s.pwLim := rfl
@[simp] theorem State.setGrove_pwTable (s : State) (k : Nat) (v : Grove) : (s.setGrove k v).pwTable = s.pwTable := rfl
@[simp] theorem State.setGrove_pwAvg (s : State) (k : Nat) (v : Grove) : (s.setGrove k v).pwAvg = s.pwAvg := rfl
@[simp] theorem State.setGrove_pwStep (s : State) (k : Nat) (v : Grove) : (s.setGrove k v).pwStep = s.pwStep := rfl
@[simp] theorem State.setGrove_pwLog (s : State) (k : Nat) (v : Grove) : (s.setGrove k v).pwLog = s.pwLog := rfl
@[simp] theorem State.setGrove_pwAt (s : State) (k : Nat) (v : Grove) : (s.setGrove k v).pwAt = s.pwAt := rfl
@[simp] theorem State.setGrove_pwSince (s : State) (k : Nat) (v : Grove) : (s.setGrove k v).pwSince = s.pwSince := rfl
@[simp] theorem State.setGrove_lkCtl (s : State) (k : Nat) (v : Grove) : (s.setGrove k v).lkCtl = s.lkCtl := rfl
@[simp] theorem State.setGrove_gqCtl (s : State) (k : Nat) (v : Grove) : (s.setGrove k v).gqCtl = s.gqCtl := rfl
@[simp] theorem State.setGrove_recipes (s : State) (k : Nat) (v : Grove) : (s.setGrove k v).recipes = s.recipes := rfl
@[simp] theorem State.setGrove_hwBase (s : State) (k : Nat) (v : Grove) : (s.setGrove k v).hwBase = s.hwBase := rfl
@[simp] theorem State.setGrove_hwLimit (s : State) (k : Nat) (v : Grove) : (s.setGrove k v).hwLimit = s.hwLimit := rfl
@[simp] theorem State.setGrove_links (s : State) (k : Nat) (v : Grove) : (s.setGrove k v).links = s.links := rfl
@[simp] theorem State.setGrove_guest (s : State) (k : Nat) (v : Grove) : (s.setGrove k v).guest = s.guest := rfl
@[simp] theorem State.setGrove_hostHeld (s : State) (k : Nat) (v : Grove) : (s.setGrove k v).hostHeld = s.hostHeld := rfl
@[simp] theorem State.setGrove_eventWord (s : State) (k : Nat) (v : Grove) : (s.setGrove k v).eventWord = s.eventWord := rfl
@[simp] theorem State.setGrove_mbCmd (s : State) (k : Nat) (v : Grove) : (s.setGrove k v).mbCmd = s.mbCmd := rfl
@[simp] theorem State.setGrove_mbTold (s : State) (k : Nat) (v : Grove) : (s.setGrove k v).mbTold = s.mbTold := rfl
@[simp] theorem State.setGrove_mbReq (s : State) (k : Nat) (v : Grove) : (s.setGrove k v).mbReq = s.mbReq := rfl
@[simp] theorem State.setGrove_mbResp (s : State) (k : Nat) (v : Grove) : (s.setGrove k v).mbResp = s.mbResp := rfl
@[simp] theorem State.setGrove_vectors (s : State) (k : Nat) (v : Grove) : (s.setGrove k v).vectors = s.vectors := rfl
@[simp] theorem State.setGrove_apertures (s : State) (k : Nat) (v : Grove) : (s.setGrove k v).apertures = s.apertures := rfl
@[simp] theorem State.setGrove_reply (s : State) (k : Nat) (v : Grove) : (s.setGrove k v).reply = s.reply := rfl
@[simp] theorem State.setGrove_hostSrc (s : State) (k : Nat) (v : Grove) : (s.setGrove k v).hostSrc = s.hostSrc := rfl
@[simp] theorem State.setGrove_hostRec (s : State) (k : Nat) (v : Grove) : (s.setGrove k v).hostRec = s.hostRec := rfl
@[simp] theorem State.setGrove_bootWord (s : State) (k : Nat) (v : Grove) : (s.setGrove k v).bootWord = s.bootWord := rfl
@[simp] theorem State.setGrove_boot (s : State) (k : Nat) (v : Grove) : (s.setGrove k v).boot = s.boot := rfl
@[simp] theorem State.setGrove_flash (s : State) (k : Nat) (v : Grove) : (s.setGrove k v).flash = s.flash := rfl
@[simp] theorem State.setGrove_roles (s : State) (k : Nat) (v : Grove) : (s.setGrove k v).roles = s.roles := rfl
@[simp] theorem State.setGrove_measures (s : State) (k : Nat) (v : Grove) : (s.setGrove k v).measures = s.measures := rfl
@[simp] theorem State.setGrove_ctxQ (s : State) (k : Nat) (v : Grove) : (s.setGrove k v).ctxQ = s.ctxQ := rfl
@[simp] theorem State.setGrove_grpQ (s : State) (k : Nat) (v : Grove) : (s.setGrove k v).grpQ = s.grpQ := rfl
@[simp] theorem State.setGrove_claimAt (s : State) (k : Nat) (v : Grove) : (s.setGrove k v).claimAt = s.claimAt := rfl
@[simp] theorem State.setGrove_slQ (s : State) (k : Nat) (v : Grove) : (s.setGrove k v).slQ = s.slQ := rfl
@[simp] theorem State.setGrove_lkQ (s : State) (k : Nat) (v : Grove) : (s.setGrove k v).lkQ = s.lkQ := rfl
@[simp] theorem State.setGrove_gqQ (s : State) (k : Nat) (v : Grove) : (s.setGrove k v).gqQ = s.gqQ := rfl
@[simp] theorem State.setGrove_cur (s : State) (k : Nat) (v : Grove) : (s.setGrove k v).cur = s.cur := rfl
@[simp] theorem State.setGrove_agenda (s : State) (k : Nat) (v : Grove) : (s.setGrove k v).agenda = s.agenda := rfl
@[simp] theorem State.setGrove_fresh (s : State) (k : Nat) (v : Grove) : (s.setGrove k v).fresh = s.fresh := rfl

/-! ### setStand -/

@[simp] theorem State.setStand_slots (s : State) (k : Nat) (v : Stand) : (s.setStand k v).slots = s.slots := rfl
@[simp] theorem State.setStand_cores (s : State) (k : Nat) (v : Stand) : (s.setStand k v).cores = s.cores := rfl
@[simp] theorem State.setStand_groves (s : State) (k : Nat) (v : Stand) : (s.setStand k v).groves = s.groves := rfl
@[simp] theorem State.setStand_stands (s : State) (k : Nat) (v : Stand) : (s.setStand k v).stands = s.stands.put k v := rfl
@[simp] theorem State.setStand_mem (s : State) (k : Nat) (v : Stand) : (s.setStand k v).mem = s.mem := rfl
@[simp] theorem State.setStand_hostMem (s : State) (k : Nat) (v : Stand) : (s.setStand k v).hostMem = s.hostMem := rfl
@[simp] theorem State.setStand_dirty (s : State) (k : Nat) (v : Stand) : (s.setStand k v).dirty = s.dirty := rfl
@[simp] theorem State.setStand_strong (s : State) (k : Nat) (v : Stand) : (s.setStand k v).strong = s.strong := rfl
@[simp] theorem State.setStand_undef (s : State) (k : Nat) (v : Stand) : (s.setStand k v).undef = s.undef := rfl
@[simp] theorem State.setStand_late (s : State) (k : Nat) (v : Stand) : (s.setStand k v).late = s.late := rfl
@[simp] theorem State.setStand_wbOrs (s : State) (k : Nat) (v : Stand) : (s.setStand k v).wbOrs = s.wbOrs := rfl
@[simp] theorem State.setStand_poison (s : State) (k : Nat) (v : Stand) : (s.setStand k v).poison = s.poison := rfl
@[simp] theorem State.setStand_tags (s : State) (k : Nat) (v : Stand) : (s.setStand k v).tags = s.tags := rfl
@[simp] theorem State.setStand_gatesList (s : State) (k : Nat) (v : Stand) : (s.setStand k v).gatesList = s.gatesList := rfl
@[simp] theorem State.setStand_deferrals (s : State) (k : Nat) (v : Stand) : (s.setStand k v).deferrals = s.deferrals := rfl
@[simp] theorem State.setStand_ctxs (s : State) (k : Nat) (v : Stand) : (s.setStand k v).ctxs = s.ctxs := rfl
@[simp] theorem State.setStand_groups (s : State) (k : Nat) (v : Stand) : (s.setStand k v).groups = s.groups := rfl
@[simp] theorem State.setStand_nextGroup (s : State) (k : Nat) (v : Stand) : (s.setStand k v).nextGroup = s.nextGroup := rfl
@[simp] theorem State.setStand_tasks (s : State) (k : Nat) (v : Stand) : (s.setStand k v).tasks = s.tasks := rfl
@[simp] theorem State.setStand_commits (s : State) (k : Nat) (v : Stand) : (s.setStand k v).commits = s.commits := rfl
@[simp] theorem State.setStand_drafts (s : State) (k : Nat) (v : Stand) : (s.setStand k v).drafts = s.drafts := rfl
@[simp] theorem State.setStand_owed (s : State) (k : Nat) (v : Stand) : (s.setStand k v).owed = s.owed := rfl
@[simp] theorem State.setStand_notices (s : State) (k : Nat) (v : Stand) : (s.setStand k v).notices = s.notices := rfl
@[simp] theorem State.setStand_guestBad (s : State) (k : Nat) (v : Stand) : (s.setStand k v).guestBad = s.guestBad := rfl
@[simp] theorem State.setStand_tick (s : State) (k : Nat) (v : Stand) : (s.setStand k v).tick = s.tick := rfl
@[simp] theorem State.setStand_fwcol (s : State) (k : Nat) (v : Stand) : (s.setStand k v).fwcol = s.fwcol := rfl
@[simp] theorem State.setStand_fwwidth (s : State) (k : Nat) (v : Stand) : (s.setStand k v).fwwidth = s.fwwidth := rfl
@[simp] theorem State.setStand_spare (s : State) (k : Nat) (v : Stand) : (s.setStand k v).spare = s.spare := rfl
@[simp] theorem State.setStand_remaps (s : State) (k : Nat) (v : Stand) : (s.setStand k v).remaps = s.remaps := rfl
@[simp] theorem State.setStand_wake (s : State) (k : Nat) (v : Stand) : (s.setStand k v).wake = s.wake := rfl
@[simp] theorem State.setStand_ctxBase (s : State) (k : Nat) (v : Stand) : (s.setStand k v).ctxBase = s.ctxBase := rfl
@[simp] theorem State.setStand_modX (s : State) (k : Nat) (v : Stand) : (s.setStand k v).modX = s.modX := rfl
@[simp] theorem State.setStand_modY (s : State) (k : Nat) (v : Stand) : (s.setStand k v).modY = s.modY := rfl
@[simp] theorem State.setStand_boMax (s : State) (k : Nat) (v : Stand) : (s.setStand k v).boMax = s.boMax := rfl
@[simp] theorem State.setStand_boBase (s : State) (k : Nat) (v : Stand) : (s.setStand k v).boBase = s.boBase := rfl
@[simp] theorem State.setStand_hlPool (s : State) (k : Nat) (v : Stand) : (s.setStand k v).hlPool = s.hlPool := rfl
@[simp] theorem State.setStand_rtCfg (s : State) (k : Nat) (v : Stand) : (s.setStand k v).rtCfg = s.rtCfg := rfl
@[simp] theorem State.setStand_tableMade (s : State) (k : Nat) (v : Stand) : (s.setStand k v).tableMade = s.tableMade := rfl
@[simp] theorem State.setStand_pgDirty (s : State) (k : Nat) (v : Stand) : (s.setStand k v).pgDirty = s.pgDirty := rfl
@[simp] theorem State.setStand_gqBase (s : State) (k : Nat) (v : Stand) : (s.setStand k v).gqBase = s.gqBase := rfl
@[simp] theorem State.setStand_gsLock (s : State) (k : Nat) (v : Stand) : (s.setStand k v).gsLock = s.gsLock := rfl
@[simp] theorem State.setStand_gsBound (s : State) (k : Nat) (v : Stand) : (s.setStand k v).gsBound = s.gsBound := rfl
@[simp] theorem State.setStand_trRing (s : State) (k : Nat) (v : Stand) : (s.setStand k v).trRing = s.trRing := rfl
@[simp] theorem State.setStand_trHead (s : State) (k : Nat) (v : Stand) : (s.setStand k v).trHead = s.trHead := rfl
@[simp] theorem State.setStand_trTail (s : State) (k : Nat) (v : Stand) : (s.setStand k v).trTail = s.trTail := rfl
@[simp] theorem State.setStand_pwLim (s : State) (k : Nat) (v : Stand) : (s.setStand k v).pwLim = s.pwLim := rfl
@[simp] theorem State.setStand_pwTable (s : State) (k : Nat) (v : Stand) : (s.setStand k v).pwTable = s.pwTable := rfl
@[simp] theorem State.setStand_pwAvg (s : State) (k : Nat) (v : Stand) : (s.setStand k v).pwAvg = s.pwAvg := rfl
@[simp] theorem State.setStand_pwStep (s : State) (k : Nat) (v : Stand) : (s.setStand k v).pwStep = s.pwStep := rfl
@[simp] theorem State.setStand_pwLog (s : State) (k : Nat) (v : Stand) : (s.setStand k v).pwLog = s.pwLog := rfl
@[simp] theorem State.setStand_pwAt (s : State) (k : Nat) (v : Stand) : (s.setStand k v).pwAt = s.pwAt := rfl
@[simp] theorem State.setStand_pwSince (s : State) (k : Nat) (v : Stand) : (s.setStand k v).pwSince = s.pwSince := rfl
@[simp] theorem State.setStand_lkCtl (s : State) (k : Nat) (v : Stand) : (s.setStand k v).lkCtl = s.lkCtl := rfl
@[simp] theorem State.setStand_gqCtl (s : State) (k : Nat) (v : Stand) : (s.setStand k v).gqCtl = s.gqCtl := rfl
@[simp] theorem State.setStand_recipes (s : State) (k : Nat) (v : Stand) : (s.setStand k v).recipes = s.recipes := rfl
@[simp] theorem State.setStand_hwBase (s : State) (k : Nat) (v : Stand) : (s.setStand k v).hwBase = s.hwBase := rfl
@[simp] theorem State.setStand_hwLimit (s : State) (k : Nat) (v : Stand) : (s.setStand k v).hwLimit = s.hwLimit := rfl
@[simp] theorem State.setStand_links (s : State) (k : Nat) (v : Stand) : (s.setStand k v).links = s.links := rfl
@[simp] theorem State.setStand_guest (s : State) (k : Nat) (v : Stand) : (s.setStand k v).guest = s.guest := rfl
@[simp] theorem State.setStand_hostHeld (s : State) (k : Nat) (v : Stand) : (s.setStand k v).hostHeld = s.hostHeld := rfl
@[simp] theorem State.setStand_eventWord (s : State) (k : Nat) (v : Stand) : (s.setStand k v).eventWord = s.eventWord := rfl
@[simp] theorem State.setStand_mbCmd (s : State) (k : Nat) (v : Stand) : (s.setStand k v).mbCmd = s.mbCmd := rfl
@[simp] theorem State.setStand_mbTold (s : State) (k : Nat) (v : Stand) : (s.setStand k v).mbTold = s.mbTold := rfl
@[simp] theorem State.setStand_mbReq (s : State) (k : Nat) (v : Stand) : (s.setStand k v).mbReq = s.mbReq := rfl
@[simp] theorem State.setStand_mbResp (s : State) (k : Nat) (v : Stand) : (s.setStand k v).mbResp = s.mbResp := rfl
@[simp] theorem State.setStand_vectors (s : State) (k : Nat) (v : Stand) : (s.setStand k v).vectors = s.vectors := rfl
@[simp] theorem State.setStand_apertures (s : State) (k : Nat) (v : Stand) : (s.setStand k v).apertures = s.apertures := rfl
@[simp] theorem State.setStand_reply (s : State) (k : Nat) (v : Stand) : (s.setStand k v).reply = s.reply := rfl
@[simp] theorem State.setStand_hostSrc (s : State) (k : Nat) (v : Stand) : (s.setStand k v).hostSrc = s.hostSrc := rfl
@[simp] theorem State.setStand_hostRec (s : State) (k : Nat) (v : Stand) : (s.setStand k v).hostRec = s.hostRec := rfl
@[simp] theorem State.setStand_bootWord (s : State) (k : Nat) (v : Stand) : (s.setStand k v).bootWord = s.bootWord := rfl
@[simp] theorem State.setStand_boot (s : State) (k : Nat) (v : Stand) : (s.setStand k v).boot = s.boot := rfl
@[simp] theorem State.setStand_flash (s : State) (k : Nat) (v : Stand) : (s.setStand k v).flash = s.flash := rfl
@[simp] theorem State.setStand_roles (s : State) (k : Nat) (v : Stand) : (s.setStand k v).roles = s.roles := rfl
@[simp] theorem State.setStand_measures (s : State) (k : Nat) (v : Stand) : (s.setStand k v).measures = s.measures := rfl
@[simp] theorem State.setStand_ctxQ (s : State) (k : Nat) (v : Stand) : (s.setStand k v).ctxQ = s.ctxQ := rfl
@[simp] theorem State.setStand_grpQ (s : State) (k : Nat) (v : Stand) : (s.setStand k v).grpQ = s.grpQ := rfl
@[simp] theorem State.setStand_claimAt (s : State) (k : Nat) (v : Stand) : (s.setStand k v).claimAt = s.claimAt := rfl
@[simp] theorem State.setStand_slQ (s : State) (k : Nat) (v : Stand) : (s.setStand k v).slQ = s.slQ := rfl
@[simp] theorem State.setStand_lkQ (s : State) (k : Nat) (v : Stand) : (s.setStand k v).lkQ = s.lkQ := rfl
@[simp] theorem State.setStand_gqQ (s : State) (k : Nat) (v : Stand) : (s.setStand k v).gqQ = s.gqQ := rfl
@[simp] theorem State.setStand_cur (s : State) (k : Nat) (v : Stand) : (s.setStand k v).cur = s.cur := rfl
@[simp] theorem State.setStand_agenda (s : State) (k : Nat) (v : Stand) : (s.setStand k v).agenda = s.agenda := rfl
@[simp] theorem State.setStand_fresh (s : State) (k : Nat) (v : Stand) : (s.setStand k v).fresh = s.fresh := rfl

/-! ### setCtx -/

@[simp] theorem State.setCtx_slots (s : State) (k : Nat) (v : Ctx) : (s.setCtx k v).slots = s.slots := rfl
@[simp] theorem State.setCtx_cores (s : State) (k : Nat) (v : Ctx) : (s.setCtx k v).cores = s.cores := rfl
@[simp] theorem State.setCtx_groves (s : State) (k : Nat) (v : Ctx) : (s.setCtx k v).groves = s.groves := rfl
@[simp] theorem State.setCtx_stands (s : State) (k : Nat) (v : Ctx) : (s.setCtx k v).stands = s.stands := rfl
@[simp] theorem State.setCtx_mem (s : State) (k : Nat) (v : Ctx) : (s.setCtx k v).mem = s.mem := rfl
@[simp] theorem State.setCtx_hostMem (s : State) (k : Nat) (v : Ctx) : (s.setCtx k v).hostMem = s.hostMem := rfl
@[simp] theorem State.setCtx_dirty (s : State) (k : Nat) (v : Ctx) : (s.setCtx k v).dirty = s.dirty := rfl
@[simp] theorem State.setCtx_strong (s : State) (k : Nat) (v : Ctx) : (s.setCtx k v).strong = s.strong := rfl
@[simp] theorem State.setCtx_undef (s : State) (k : Nat) (v : Ctx) : (s.setCtx k v).undef = s.undef := rfl
@[simp] theorem State.setCtx_late (s : State) (k : Nat) (v : Ctx) : (s.setCtx k v).late = s.late := rfl
@[simp] theorem State.setCtx_wbOrs (s : State) (k : Nat) (v : Ctx) : (s.setCtx k v).wbOrs = s.wbOrs := rfl
@[simp] theorem State.setCtx_poison (s : State) (k : Nat) (v : Ctx) : (s.setCtx k v).poison = s.poison := rfl
@[simp] theorem State.setCtx_tags (s : State) (k : Nat) (v : Ctx) : (s.setCtx k v).tags = s.tags := rfl
@[simp] theorem State.setCtx_gatesList (s : State) (k : Nat) (v : Ctx) : (s.setCtx k v).gatesList = s.gatesList := rfl
@[simp] theorem State.setCtx_deferrals (s : State) (k : Nat) (v : Ctx) : (s.setCtx k v).deferrals = s.deferrals := rfl
@[simp] theorem State.setCtx_ctxs (s : State) (k : Nat) (v : Ctx) : (s.setCtx k v).ctxs = s.ctxs.put k v := rfl
@[simp] theorem State.setCtx_groups (s : State) (k : Nat) (v : Ctx) : (s.setCtx k v).groups = s.groups := rfl
@[simp] theorem State.setCtx_nextGroup (s : State) (k : Nat) (v : Ctx) : (s.setCtx k v).nextGroup = s.nextGroup := rfl
@[simp] theorem State.setCtx_tasks (s : State) (k : Nat) (v : Ctx) : (s.setCtx k v).tasks = s.tasks := rfl
@[simp] theorem State.setCtx_commits (s : State) (k : Nat) (v : Ctx) : (s.setCtx k v).commits = s.commits := rfl
@[simp] theorem State.setCtx_drafts (s : State) (k : Nat) (v : Ctx) : (s.setCtx k v).drafts = s.drafts := rfl
@[simp] theorem State.setCtx_owed (s : State) (k : Nat) (v : Ctx) : (s.setCtx k v).owed = s.owed := rfl
@[simp] theorem State.setCtx_notices (s : State) (k : Nat) (v : Ctx) : (s.setCtx k v).notices = s.notices := rfl
@[simp] theorem State.setCtx_guestBad (s : State) (k : Nat) (v : Ctx) : (s.setCtx k v).guestBad = s.guestBad := rfl
@[simp] theorem State.setCtx_tick (s : State) (k : Nat) (v : Ctx) : (s.setCtx k v).tick = s.tick := rfl
@[simp] theorem State.setCtx_fwcol (s : State) (k : Nat) (v : Ctx) : (s.setCtx k v).fwcol = s.fwcol := rfl
@[simp] theorem State.setCtx_fwwidth (s : State) (k : Nat) (v : Ctx) : (s.setCtx k v).fwwidth = s.fwwidth := rfl
@[simp] theorem State.setCtx_spare (s : State) (k : Nat) (v : Ctx) : (s.setCtx k v).spare = s.spare := rfl
@[simp] theorem State.setCtx_remaps (s : State) (k : Nat) (v : Ctx) : (s.setCtx k v).remaps = s.remaps := rfl
@[simp] theorem State.setCtx_wake (s : State) (k : Nat) (v : Ctx) : (s.setCtx k v).wake = s.wake := rfl
@[simp] theorem State.setCtx_ctxBase (s : State) (k : Nat) (v : Ctx) : (s.setCtx k v).ctxBase = s.ctxBase := rfl
@[simp] theorem State.setCtx_modX (s : State) (k : Nat) (v : Ctx) : (s.setCtx k v).modX = s.modX := rfl
@[simp] theorem State.setCtx_modY (s : State) (k : Nat) (v : Ctx) : (s.setCtx k v).modY = s.modY := rfl
@[simp] theorem State.setCtx_boMax (s : State) (k : Nat) (v : Ctx) : (s.setCtx k v).boMax = s.boMax := rfl
@[simp] theorem State.setCtx_boBase (s : State) (k : Nat) (v : Ctx) : (s.setCtx k v).boBase = s.boBase := rfl
@[simp] theorem State.setCtx_hlPool (s : State) (k : Nat) (v : Ctx) : (s.setCtx k v).hlPool = s.hlPool := rfl
@[simp] theorem State.setCtx_rtCfg (s : State) (k : Nat) (v : Ctx) : (s.setCtx k v).rtCfg = s.rtCfg := rfl
@[simp] theorem State.setCtx_tableMade (s : State) (k : Nat) (v : Ctx) : (s.setCtx k v).tableMade = s.tableMade := rfl
@[simp] theorem State.setCtx_pgDirty (s : State) (k : Nat) (v : Ctx) : (s.setCtx k v).pgDirty = s.pgDirty := rfl
@[simp] theorem State.setCtx_gqBase (s : State) (k : Nat) (v : Ctx) : (s.setCtx k v).gqBase = s.gqBase := rfl
@[simp] theorem State.setCtx_gsLock (s : State) (k : Nat) (v : Ctx) : (s.setCtx k v).gsLock = s.gsLock := rfl
@[simp] theorem State.setCtx_gsBound (s : State) (k : Nat) (v : Ctx) : (s.setCtx k v).gsBound = s.gsBound := rfl
@[simp] theorem State.setCtx_trRing (s : State) (k : Nat) (v : Ctx) : (s.setCtx k v).trRing = s.trRing := rfl
@[simp] theorem State.setCtx_trHead (s : State) (k : Nat) (v : Ctx) : (s.setCtx k v).trHead = s.trHead := rfl
@[simp] theorem State.setCtx_trTail (s : State) (k : Nat) (v : Ctx) : (s.setCtx k v).trTail = s.trTail := rfl
@[simp] theorem State.setCtx_pwLim (s : State) (k : Nat) (v : Ctx) : (s.setCtx k v).pwLim = s.pwLim := rfl
@[simp] theorem State.setCtx_pwTable (s : State) (k : Nat) (v : Ctx) : (s.setCtx k v).pwTable = s.pwTable := rfl
@[simp] theorem State.setCtx_pwAvg (s : State) (k : Nat) (v : Ctx) : (s.setCtx k v).pwAvg = s.pwAvg := rfl
@[simp] theorem State.setCtx_pwStep (s : State) (k : Nat) (v : Ctx) : (s.setCtx k v).pwStep = s.pwStep := rfl
@[simp] theorem State.setCtx_pwLog (s : State) (k : Nat) (v : Ctx) : (s.setCtx k v).pwLog = s.pwLog := rfl
@[simp] theorem State.setCtx_pwAt (s : State) (k : Nat) (v : Ctx) : (s.setCtx k v).pwAt = s.pwAt := rfl
@[simp] theorem State.setCtx_pwSince (s : State) (k : Nat) (v : Ctx) : (s.setCtx k v).pwSince = s.pwSince := rfl
@[simp] theorem State.setCtx_lkCtl (s : State) (k : Nat) (v : Ctx) : (s.setCtx k v).lkCtl = s.lkCtl := rfl
@[simp] theorem State.setCtx_gqCtl (s : State) (k : Nat) (v : Ctx) : (s.setCtx k v).gqCtl = s.gqCtl := rfl
@[simp] theorem State.setCtx_recipes (s : State) (k : Nat) (v : Ctx) : (s.setCtx k v).recipes = s.recipes := rfl
@[simp] theorem State.setCtx_hwBase (s : State) (k : Nat) (v : Ctx) : (s.setCtx k v).hwBase = s.hwBase := rfl
@[simp] theorem State.setCtx_hwLimit (s : State) (k : Nat) (v : Ctx) : (s.setCtx k v).hwLimit = s.hwLimit := rfl
@[simp] theorem State.setCtx_links (s : State) (k : Nat) (v : Ctx) : (s.setCtx k v).links = s.links := rfl
@[simp] theorem State.setCtx_guest (s : State) (k : Nat) (v : Ctx) : (s.setCtx k v).guest = s.guest := rfl
@[simp] theorem State.setCtx_hostHeld (s : State) (k : Nat) (v : Ctx) : (s.setCtx k v).hostHeld = s.hostHeld := rfl
@[simp] theorem State.setCtx_eventWord (s : State) (k : Nat) (v : Ctx) : (s.setCtx k v).eventWord = s.eventWord := rfl
@[simp] theorem State.setCtx_mbCmd (s : State) (k : Nat) (v : Ctx) : (s.setCtx k v).mbCmd = s.mbCmd := rfl
@[simp] theorem State.setCtx_mbTold (s : State) (k : Nat) (v : Ctx) : (s.setCtx k v).mbTold = s.mbTold := rfl
@[simp] theorem State.setCtx_mbReq (s : State) (k : Nat) (v : Ctx) : (s.setCtx k v).mbReq = s.mbReq := rfl
@[simp] theorem State.setCtx_mbResp (s : State) (k : Nat) (v : Ctx) : (s.setCtx k v).mbResp = s.mbResp := rfl
@[simp] theorem State.setCtx_vectors (s : State) (k : Nat) (v : Ctx) : (s.setCtx k v).vectors = s.vectors := rfl
@[simp] theorem State.setCtx_apertures (s : State) (k : Nat) (v : Ctx) : (s.setCtx k v).apertures = s.apertures := rfl
@[simp] theorem State.setCtx_reply (s : State) (k : Nat) (v : Ctx) : (s.setCtx k v).reply = s.reply := rfl
@[simp] theorem State.setCtx_hostSrc (s : State) (k : Nat) (v : Ctx) : (s.setCtx k v).hostSrc = s.hostSrc := rfl
@[simp] theorem State.setCtx_hostRec (s : State) (k : Nat) (v : Ctx) : (s.setCtx k v).hostRec = s.hostRec := rfl
@[simp] theorem State.setCtx_bootWord (s : State) (k : Nat) (v : Ctx) : (s.setCtx k v).bootWord = s.bootWord := rfl
@[simp] theorem State.setCtx_boot (s : State) (k : Nat) (v : Ctx) : (s.setCtx k v).boot = s.boot := rfl
@[simp] theorem State.setCtx_flash (s : State) (k : Nat) (v : Ctx) : (s.setCtx k v).flash = s.flash := rfl
@[simp] theorem State.setCtx_roles (s : State) (k : Nat) (v : Ctx) : (s.setCtx k v).roles = s.roles := rfl
@[simp] theorem State.setCtx_measures (s : State) (k : Nat) (v : Ctx) : (s.setCtx k v).measures = s.measures := rfl
@[simp] theorem State.setCtx_ctxQ (s : State) (k : Nat) (v : Ctx) : (s.setCtx k v).ctxQ = s.ctxQ := rfl
@[simp] theorem State.setCtx_grpQ (s : State) (k : Nat) (v : Ctx) : (s.setCtx k v).grpQ = s.grpQ := rfl
@[simp] theorem State.setCtx_claimAt (s : State) (k : Nat) (v : Ctx) : (s.setCtx k v).claimAt = s.claimAt := rfl
@[simp] theorem State.setCtx_slQ (s : State) (k : Nat) (v : Ctx) : (s.setCtx k v).slQ = s.slQ := rfl
@[simp] theorem State.setCtx_lkQ (s : State) (k : Nat) (v : Ctx) : (s.setCtx k v).lkQ = s.lkQ := rfl
@[simp] theorem State.setCtx_gqQ (s : State) (k : Nat) (v : Ctx) : (s.setCtx k v).gqQ = s.gqQ := rfl
@[simp] theorem State.setCtx_cur (s : State) (k : Nat) (v : Ctx) : (s.setCtx k v).cur = s.cur := rfl
@[simp] theorem State.setCtx_agenda (s : State) (k : Nat) (v : Ctx) : (s.setCtx k v).agenda = s.agenda := rfl
@[simp] theorem State.setCtx_fresh (s : State) (k : Nat) (v : Ctx) : (s.setCtx k v).fresh = s.fresh := rfl

/-! ### setLink -/

@[simp] theorem State.setLink_slots (s : State) (k : Nat) (v : Link) : (s.setLink k v).slots = s.slots := rfl
@[simp] theorem State.setLink_cores (s : State) (k : Nat) (v : Link) : (s.setLink k v).cores = s.cores := rfl
@[simp] theorem State.setLink_groves (s : State) (k : Nat) (v : Link) : (s.setLink k v).groves = s.groves := rfl
@[simp] theorem State.setLink_stands (s : State) (k : Nat) (v : Link) : (s.setLink k v).stands = s.stands := rfl
@[simp] theorem State.setLink_mem (s : State) (k : Nat) (v : Link) : (s.setLink k v).mem = s.mem := rfl
@[simp] theorem State.setLink_hostMem (s : State) (k : Nat) (v : Link) : (s.setLink k v).hostMem = s.hostMem := rfl
@[simp] theorem State.setLink_dirty (s : State) (k : Nat) (v : Link) : (s.setLink k v).dirty = s.dirty := rfl
@[simp] theorem State.setLink_strong (s : State) (k : Nat) (v : Link) : (s.setLink k v).strong = s.strong := rfl
@[simp] theorem State.setLink_undef (s : State) (k : Nat) (v : Link) : (s.setLink k v).undef = s.undef := rfl
@[simp] theorem State.setLink_late (s : State) (k : Nat) (v : Link) : (s.setLink k v).late = s.late := rfl
@[simp] theorem State.setLink_wbOrs (s : State) (k : Nat) (v : Link) : (s.setLink k v).wbOrs = s.wbOrs := rfl
@[simp] theorem State.setLink_poison (s : State) (k : Nat) (v : Link) : (s.setLink k v).poison = s.poison := rfl
@[simp] theorem State.setLink_tags (s : State) (k : Nat) (v : Link) : (s.setLink k v).tags = s.tags := rfl
@[simp] theorem State.setLink_gatesList (s : State) (k : Nat) (v : Link) : (s.setLink k v).gatesList = s.gatesList := rfl
@[simp] theorem State.setLink_deferrals (s : State) (k : Nat) (v : Link) : (s.setLink k v).deferrals = s.deferrals := rfl
@[simp] theorem State.setLink_ctxs (s : State) (k : Nat) (v : Link) : (s.setLink k v).ctxs = s.ctxs := rfl
@[simp] theorem State.setLink_groups (s : State) (k : Nat) (v : Link) : (s.setLink k v).groups = s.groups := rfl
@[simp] theorem State.setLink_nextGroup (s : State) (k : Nat) (v : Link) : (s.setLink k v).nextGroup = s.nextGroup := rfl
@[simp] theorem State.setLink_tasks (s : State) (k : Nat) (v : Link) : (s.setLink k v).tasks = s.tasks := rfl
@[simp] theorem State.setLink_commits (s : State) (k : Nat) (v : Link) : (s.setLink k v).commits = s.commits := rfl
@[simp] theorem State.setLink_drafts (s : State) (k : Nat) (v : Link) : (s.setLink k v).drafts = s.drafts := rfl
@[simp] theorem State.setLink_owed (s : State) (k : Nat) (v : Link) : (s.setLink k v).owed = s.owed := rfl
@[simp] theorem State.setLink_notices (s : State) (k : Nat) (v : Link) : (s.setLink k v).notices = s.notices := rfl
@[simp] theorem State.setLink_guestBad (s : State) (k : Nat) (v : Link) : (s.setLink k v).guestBad = s.guestBad := rfl
@[simp] theorem State.setLink_tick (s : State) (k : Nat) (v : Link) : (s.setLink k v).tick = s.tick := rfl
@[simp] theorem State.setLink_fwcol (s : State) (k : Nat) (v : Link) : (s.setLink k v).fwcol = s.fwcol := rfl
@[simp] theorem State.setLink_fwwidth (s : State) (k : Nat) (v : Link) : (s.setLink k v).fwwidth = s.fwwidth := rfl
@[simp] theorem State.setLink_spare (s : State) (k : Nat) (v : Link) : (s.setLink k v).spare = s.spare := rfl
@[simp] theorem State.setLink_remaps (s : State) (k : Nat) (v : Link) : (s.setLink k v).remaps = s.remaps := rfl
@[simp] theorem State.setLink_wake (s : State) (k : Nat) (v : Link) : (s.setLink k v).wake = s.wake := rfl
@[simp] theorem State.setLink_ctxBase (s : State) (k : Nat) (v : Link) : (s.setLink k v).ctxBase = s.ctxBase := rfl
@[simp] theorem State.setLink_modX (s : State) (k : Nat) (v : Link) : (s.setLink k v).modX = s.modX := rfl
@[simp] theorem State.setLink_modY (s : State) (k : Nat) (v : Link) : (s.setLink k v).modY = s.modY := rfl
@[simp] theorem State.setLink_boMax (s : State) (k : Nat) (v : Link) : (s.setLink k v).boMax = s.boMax := rfl
@[simp] theorem State.setLink_boBase (s : State) (k : Nat) (v : Link) : (s.setLink k v).boBase = s.boBase := rfl
@[simp] theorem State.setLink_hlPool (s : State) (k : Nat) (v : Link) : (s.setLink k v).hlPool = s.hlPool := rfl
@[simp] theorem State.setLink_rtCfg (s : State) (k : Nat) (v : Link) : (s.setLink k v).rtCfg = s.rtCfg := rfl
@[simp] theorem State.setLink_tableMade (s : State) (k : Nat) (v : Link) : (s.setLink k v).tableMade = s.tableMade := rfl
@[simp] theorem State.setLink_pgDirty (s : State) (k : Nat) (v : Link) : (s.setLink k v).pgDirty = s.pgDirty := rfl
@[simp] theorem State.setLink_gqBase (s : State) (k : Nat) (v : Link) : (s.setLink k v).gqBase = s.gqBase := rfl
@[simp] theorem State.setLink_gsLock (s : State) (k : Nat) (v : Link) : (s.setLink k v).gsLock = s.gsLock := rfl
@[simp] theorem State.setLink_gsBound (s : State) (k : Nat) (v : Link) : (s.setLink k v).gsBound = s.gsBound := rfl
@[simp] theorem State.setLink_trRing (s : State) (k : Nat) (v : Link) : (s.setLink k v).trRing = s.trRing := rfl
@[simp] theorem State.setLink_trHead (s : State) (k : Nat) (v : Link) : (s.setLink k v).trHead = s.trHead := rfl
@[simp] theorem State.setLink_trTail (s : State) (k : Nat) (v : Link) : (s.setLink k v).trTail = s.trTail := rfl
@[simp] theorem State.setLink_pwLim (s : State) (k : Nat) (v : Link) : (s.setLink k v).pwLim = s.pwLim := rfl
@[simp] theorem State.setLink_pwTable (s : State) (k : Nat) (v : Link) : (s.setLink k v).pwTable = s.pwTable := rfl
@[simp] theorem State.setLink_pwAvg (s : State) (k : Nat) (v : Link) : (s.setLink k v).pwAvg = s.pwAvg := rfl
@[simp] theorem State.setLink_pwStep (s : State) (k : Nat) (v : Link) : (s.setLink k v).pwStep = s.pwStep := rfl
@[simp] theorem State.setLink_pwLog (s : State) (k : Nat) (v : Link) : (s.setLink k v).pwLog = s.pwLog := rfl
@[simp] theorem State.setLink_pwAt (s : State) (k : Nat) (v : Link) : (s.setLink k v).pwAt = s.pwAt := rfl
@[simp] theorem State.setLink_pwSince (s : State) (k : Nat) (v : Link) : (s.setLink k v).pwSince = s.pwSince := rfl
@[simp] theorem State.setLink_lkCtl (s : State) (k : Nat) (v : Link) : (s.setLink k v).lkCtl = s.lkCtl := rfl
@[simp] theorem State.setLink_gqCtl (s : State) (k : Nat) (v : Link) : (s.setLink k v).gqCtl = s.gqCtl := rfl
@[simp] theorem State.setLink_recipes (s : State) (k : Nat) (v : Link) : (s.setLink k v).recipes = s.recipes := rfl
@[simp] theorem State.setLink_hwBase (s : State) (k : Nat) (v : Link) : (s.setLink k v).hwBase = s.hwBase := rfl
@[simp] theorem State.setLink_hwLimit (s : State) (k : Nat) (v : Link) : (s.setLink k v).hwLimit = s.hwLimit := rfl
@[simp] theorem State.setLink_links (s : State) (k : Nat) (v : Link) : (s.setLink k v).links = s.links.put k v := rfl
@[simp] theorem State.setLink_guest (s : State) (k : Nat) (v : Link) : (s.setLink k v).guest = s.guest := rfl
@[simp] theorem State.setLink_hostHeld (s : State) (k : Nat) (v : Link) : (s.setLink k v).hostHeld = s.hostHeld := rfl
@[simp] theorem State.setLink_eventWord (s : State) (k : Nat) (v : Link) : (s.setLink k v).eventWord = s.eventWord := rfl
@[simp] theorem State.setLink_mbCmd (s : State) (k : Nat) (v : Link) : (s.setLink k v).mbCmd = s.mbCmd := rfl
@[simp] theorem State.setLink_mbTold (s : State) (k : Nat) (v : Link) : (s.setLink k v).mbTold = s.mbTold := rfl
@[simp] theorem State.setLink_mbReq (s : State) (k : Nat) (v : Link) : (s.setLink k v).mbReq = s.mbReq := rfl
@[simp] theorem State.setLink_mbResp (s : State) (k : Nat) (v : Link) : (s.setLink k v).mbResp = s.mbResp := rfl
@[simp] theorem State.setLink_vectors (s : State) (k : Nat) (v : Link) : (s.setLink k v).vectors = s.vectors := rfl
@[simp] theorem State.setLink_apertures (s : State) (k : Nat) (v : Link) : (s.setLink k v).apertures = s.apertures := rfl
@[simp] theorem State.setLink_reply (s : State) (k : Nat) (v : Link) : (s.setLink k v).reply = s.reply := rfl
@[simp] theorem State.setLink_hostSrc (s : State) (k : Nat) (v : Link) : (s.setLink k v).hostSrc = s.hostSrc := rfl
@[simp] theorem State.setLink_hostRec (s : State) (k : Nat) (v : Link) : (s.setLink k v).hostRec = s.hostRec := rfl
@[simp] theorem State.setLink_bootWord (s : State) (k : Nat) (v : Link) : (s.setLink k v).bootWord = s.bootWord := rfl
@[simp] theorem State.setLink_boot (s : State) (k : Nat) (v : Link) : (s.setLink k v).boot = s.boot := rfl
@[simp] theorem State.setLink_flash (s : State) (k : Nat) (v : Link) : (s.setLink k v).flash = s.flash := rfl
@[simp] theorem State.setLink_roles (s : State) (k : Nat) (v : Link) : (s.setLink k v).roles = s.roles := rfl
@[simp] theorem State.setLink_measures (s : State) (k : Nat) (v : Link) : (s.setLink k v).measures = s.measures := rfl
@[simp] theorem State.setLink_ctxQ (s : State) (k : Nat) (v : Link) : (s.setLink k v).ctxQ = s.ctxQ := rfl
@[simp] theorem State.setLink_grpQ (s : State) (k : Nat) (v : Link) : (s.setLink k v).grpQ = s.grpQ := rfl
@[simp] theorem State.setLink_claimAt (s : State) (k : Nat) (v : Link) : (s.setLink k v).claimAt = s.claimAt := rfl
@[simp] theorem State.setLink_slQ (s : State) (k : Nat) (v : Link) : (s.setLink k v).slQ = s.slQ := rfl
@[simp] theorem State.setLink_lkQ (s : State) (k : Nat) (v : Link) : (s.setLink k v).lkQ = s.lkQ := rfl
@[simp] theorem State.setLink_gqQ (s : State) (k : Nat) (v : Link) : (s.setLink k v).gqQ = s.gqQ := rfl
@[simp] theorem State.setLink_cur (s : State) (k : Nat) (v : Link) : (s.setLink k v).cur = s.cur := rfl
@[simp] theorem State.setLink_agenda (s : State) (k : Nat) (v : Link) : (s.setLink k v).agenda = s.agenda := rfl
@[simp] theorem State.setLink_fresh (s : State) (k : Nat) (v : Link) : (s.setLink k v).fresh = s.fresh := rfl

/-! ### setGroup -/

@[simp] theorem State.setGroup_slots (s : State) (k : Nat) (v : Group) : (s.setGroup k v).slots = s.slots := rfl
@[simp] theorem State.setGroup_cores (s : State) (k : Nat) (v : Group) : (s.setGroup k v).cores = s.cores := rfl
@[simp] theorem State.setGroup_groves (s : State) (k : Nat) (v : Group) : (s.setGroup k v).groves = s.groves := rfl
@[simp] theorem State.setGroup_stands (s : State) (k : Nat) (v : Group) : (s.setGroup k v).stands = s.stands := rfl
@[simp] theorem State.setGroup_mem (s : State) (k : Nat) (v : Group) : (s.setGroup k v).mem = s.mem := rfl
@[simp] theorem State.setGroup_hostMem (s : State) (k : Nat) (v : Group) : (s.setGroup k v).hostMem = s.hostMem := rfl
@[simp] theorem State.setGroup_dirty (s : State) (k : Nat) (v : Group) : (s.setGroup k v).dirty = s.dirty := rfl
@[simp] theorem State.setGroup_strong (s : State) (k : Nat) (v : Group) : (s.setGroup k v).strong = s.strong := rfl
@[simp] theorem State.setGroup_undef (s : State) (k : Nat) (v : Group) : (s.setGroup k v).undef = s.undef := rfl
@[simp] theorem State.setGroup_late (s : State) (k : Nat) (v : Group) : (s.setGroup k v).late = s.late := rfl
@[simp] theorem State.setGroup_wbOrs (s : State) (k : Nat) (v : Group) : (s.setGroup k v).wbOrs = s.wbOrs := rfl
@[simp] theorem State.setGroup_poison (s : State) (k : Nat) (v : Group) : (s.setGroup k v).poison = s.poison := rfl
@[simp] theorem State.setGroup_tags (s : State) (k : Nat) (v : Group) : (s.setGroup k v).tags = s.tags := rfl
@[simp] theorem State.setGroup_gatesList (s : State) (k : Nat) (v : Group) : (s.setGroup k v).gatesList = s.gatesList := rfl
@[simp] theorem State.setGroup_deferrals (s : State) (k : Nat) (v : Group) : (s.setGroup k v).deferrals = s.deferrals := rfl
@[simp] theorem State.setGroup_ctxs (s : State) (k : Nat) (v : Group) : (s.setGroup k v).ctxs = s.ctxs := rfl
@[simp] theorem State.setGroup_groups (s : State) (k : Nat) (v : Group) : (s.setGroup k v).groups = s.groups.put k v := rfl
@[simp] theorem State.setGroup_nextGroup (s : State) (k : Nat) (v : Group) : (s.setGroup k v).nextGroup = s.nextGroup := rfl
@[simp] theorem State.setGroup_tasks (s : State) (k : Nat) (v : Group) : (s.setGroup k v).tasks = s.tasks := rfl
@[simp] theorem State.setGroup_commits (s : State) (k : Nat) (v : Group) : (s.setGroup k v).commits = s.commits := rfl
@[simp] theorem State.setGroup_drafts (s : State) (k : Nat) (v : Group) : (s.setGroup k v).drafts = s.drafts := rfl
@[simp] theorem State.setGroup_owed (s : State) (k : Nat) (v : Group) : (s.setGroup k v).owed = s.owed := rfl
@[simp] theorem State.setGroup_notices (s : State) (k : Nat) (v : Group) : (s.setGroup k v).notices = s.notices := rfl
@[simp] theorem State.setGroup_guestBad (s : State) (k : Nat) (v : Group) : (s.setGroup k v).guestBad = s.guestBad := rfl
@[simp] theorem State.setGroup_tick (s : State) (k : Nat) (v : Group) : (s.setGroup k v).tick = s.tick := rfl
@[simp] theorem State.setGroup_fwcol (s : State) (k : Nat) (v : Group) : (s.setGroup k v).fwcol = s.fwcol := rfl
@[simp] theorem State.setGroup_fwwidth (s : State) (k : Nat) (v : Group) : (s.setGroup k v).fwwidth = s.fwwidth := rfl
@[simp] theorem State.setGroup_spare (s : State) (k : Nat) (v : Group) : (s.setGroup k v).spare = s.spare := rfl
@[simp] theorem State.setGroup_remaps (s : State) (k : Nat) (v : Group) : (s.setGroup k v).remaps = s.remaps := rfl
@[simp] theorem State.setGroup_wake (s : State) (k : Nat) (v : Group) : (s.setGroup k v).wake = s.wake := rfl
@[simp] theorem State.setGroup_ctxBase (s : State) (k : Nat) (v : Group) : (s.setGroup k v).ctxBase = s.ctxBase := rfl
@[simp] theorem State.setGroup_modX (s : State) (k : Nat) (v : Group) : (s.setGroup k v).modX = s.modX := rfl
@[simp] theorem State.setGroup_modY (s : State) (k : Nat) (v : Group) : (s.setGroup k v).modY = s.modY := rfl
@[simp] theorem State.setGroup_boMax (s : State) (k : Nat) (v : Group) : (s.setGroup k v).boMax = s.boMax := rfl
@[simp] theorem State.setGroup_boBase (s : State) (k : Nat) (v : Group) : (s.setGroup k v).boBase = s.boBase := rfl
@[simp] theorem State.setGroup_hlPool (s : State) (k : Nat) (v : Group) : (s.setGroup k v).hlPool = s.hlPool := rfl
@[simp] theorem State.setGroup_rtCfg (s : State) (k : Nat) (v : Group) : (s.setGroup k v).rtCfg = s.rtCfg := rfl
@[simp] theorem State.setGroup_tableMade (s : State) (k : Nat) (v : Group) : (s.setGroup k v).tableMade = s.tableMade := rfl
@[simp] theorem State.setGroup_pgDirty (s : State) (k : Nat) (v : Group) : (s.setGroup k v).pgDirty = s.pgDirty := rfl
@[simp] theorem State.setGroup_gqBase (s : State) (k : Nat) (v : Group) : (s.setGroup k v).gqBase = s.gqBase := rfl
@[simp] theorem State.setGroup_gsLock (s : State) (k : Nat) (v : Group) : (s.setGroup k v).gsLock = s.gsLock := rfl
@[simp] theorem State.setGroup_gsBound (s : State) (k : Nat) (v : Group) : (s.setGroup k v).gsBound = s.gsBound := rfl
@[simp] theorem State.setGroup_trRing (s : State) (k : Nat) (v : Group) : (s.setGroup k v).trRing = s.trRing := rfl
@[simp] theorem State.setGroup_trHead (s : State) (k : Nat) (v : Group) : (s.setGroup k v).trHead = s.trHead := rfl
@[simp] theorem State.setGroup_trTail (s : State) (k : Nat) (v : Group) : (s.setGroup k v).trTail = s.trTail := rfl
@[simp] theorem State.setGroup_pwLim (s : State) (k : Nat) (v : Group) : (s.setGroup k v).pwLim = s.pwLim := rfl
@[simp] theorem State.setGroup_pwTable (s : State) (k : Nat) (v : Group) : (s.setGroup k v).pwTable = s.pwTable := rfl
@[simp] theorem State.setGroup_pwAvg (s : State) (k : Nat) (v : Group) : (s.setGroup k v).pwAvg = s.pwAvg := rfl
@[simp] theorem State.setGroup_pwStep (s : State) (k : Nat) (v : Group) : (s.setGroup k v).pwStep = s.pwStep := rfl
@[simp] theorem State.setGroup_pwLog (s : State) (k : Nat) (v : Group) : (s.setGroup k v).pwLog = s.pwLog := rfl
@[simp] theorem State.setGroup_pwAt (s : State) (k : Nat) (v : Group) : (s.setGroup k v).pwAt = s.pwAt := rfl
@[simp] theorem State.setGroup_pwSince (s : State) (k : Nat) (v : Group) : (s.setGroup k v).pwSince = s.pwSince := rfl
@[simp] theorem State.setGroup_lkCtl (s : State) (k : Nat) (v : Group) : (s.setGroup k v).lkCtl = s.lkCtl := rfl
@[simp] theorem State.setGroup_gqCtl (s : State) (k : Nat) (v : Group) : (s.setGroup k v).gqCtl = s.gqCtl := rfl
@[simp] theorem State.setGroup_recipes (s : State) (k : Nat) (v : Group) : (s.setGroup k v).recipes = s.recipes := rfl
@[simp] theorem State.setGroup_hwBase (s : State) (k : Nat) (v : Group) : (s.setGroup k v).hwBase = s.hwBase := rfl
@[simp] theorem State.setGroup_hwLimit (s : State) (k : Nat) (v : Group) : (s.setGroup k v).hwLimit = s.hwLimit := rfl
@[simp] theorem State.setGroup_links (s : State) (k : Nat) (v : Group) : (s.setGroup k v).links = s.links := rfl
@[simp] theorem State.setGroup_guest (s : State) (k : Nat) (v : Group) : (s.setGroup k v).guest = s.guest := rfl
@[simp] theorem State.setGroup_hostHeld (s : State) (k : Nat) (v : Group) : (s.setGroup k v).hostHeld = s.hostHeld := rfl
@[simp] theorem State.setGroup_eventWord (s : State) (k : Nat) (v : Group) : (s.setGroup k v).eventWord = s.eventWord := rfl
@[simp] theorem State.setGroup_mbCmd (s : State) (k : Nat) (v : Group) : (s.setGroup k v).mbCmd = s.mbCmd := rfl
@[simp] theorem State.setGroup_mbTold (s : State) (k : Nat) (v : Group) : (s.setGroup k v).mbTold = s.mbTold := rfl
@[simp] theorem State.setGroup_mbReq (s : State) (k : Nat) (v : Group) : (s.setGroup k v).mbReq = s.mbReq := rfl
@[simp] theorem State.setGroup_mbResp (s : State) (k : Nat) (v : Group) : (s.setGroup k v).mbResp = s.mbResp := rfl
@[simp] theorem State.setGroup_vectors (s : State) (k : Nat) (v : Group) : (s.setGroup k v).vectors = s.vectors := rfl
@[simp] theorem State.setGroup_apertures (s : State) (k : Nat) (v : Group) : (s.setGroup k v).apertures = s.apertures := rfl
@[simp] theorem State.setGroup_reply (s : State) (k : Nat) (v : Group) : (s.setGroup k v).reply = s.reply := rfl
@[simp] theorem State.setGroup_hostSrc (s : State) (k : Nat) (v : Group) : (s.setGroup k v).hostSrc = s.hostSrc := rfl
@[simp] theorem State.setGroup_hostRec (s : State) (k : Nat) (v : Group) : (s.setGroup k v).hostRec = s.hostRec := rfl
@[simp] theorem State.setGroup_bootWord (s : State) (k : Nat) (v : Group) : (s.setGroup k v).bootWord = s.bootWord := rfl
@[simp] theorem State.setGroup_boot (s : State) (k : Nat) (v : Group) : (s.setGroup k v).boot = s.boot := rfl
@[simp] theorem State.setGroup_flash (s : State) (k : Nat) (v : Group) : (s.setGroup k v).flash = s.flash := rfl
@[simp] theorem State.setGroup_roles (s : State) (k : Nat) (v : Group) : (s.setGroup k v).roles = s.roles := rfl
@[simp] theorem State.setGroup_measures (s : State) (k : Nat) (v : Group) : (s.setGroup k v).measures = s.measures := rfl
@[simp] theorem State.setGroup_ctxQ (s : State) (k : Nat) (v : Group) : (s.setGroup k v).ctxQ = s.ctxQ := rfl
@[simp] theorem State.setGroup_grpQ (s : State) (k : Nat) (v : Group) : (s.setGroup k v).grpQ = s.grpQ := rfl
@[simp] theorem State.setGroup_claimAt (s : State) (k : Nat) (v : Group) : (s.setGroup k v).claimAt = s.claimAt := rfl
@[simp] theorem State.setGroup_slQ (s : State) (k : Nat) (v : Group) : (s.setGroup k v).slQ = s.slQ := rfl
@[simp] theorem State.setGroup_lkQ (s : State) (k : Nat) (v : Group) : (s.setGroup k v).lkQ = s.lkQ := rfl
@[simp] theorem State.setGroup_gqQ (s : State) (k : Nat) (v : Group) : (s.setGroup k v).gqQ = s.gqQ := rfl
@[simp] theorem State.setGroup_cur (s : State) (k : Nat) (v : Group) : (s.setGroup k v).cur = s.cur := rfl
@[simp] theorem State.setGroup_agenda (s : State) (k : Nat) (v : Group) : (s.setGroup k v).agenda = s.agenda := rfl
@[simp] theorem State.setGroup_fresh (s : State) (k : Nat) (v : Group) : (s.setGroup k v).fresh = s.fresh := rfl

/-! ### setTask -/

@[simp] theorem State.setTask_slots (s : State) (k : Nat) (v : Task) : (s.setTask k v).slots = s.slots := rfl
@[simp] theorem State.setTask_cores (s : State) (k : Nat) (v : Task) : (s.setTask k v).cores = s.cores := rfl
@[simp] theorem State.setTask_groves (s : State) (k : Nat) (v : Task) : (s.setTask k v).groves = s.groves := rfl
@[simp] theorem State.setTask_stands (s : State) (k : Nat) (v : Task) : (s.setTask k v).stands = s.stands := rfl
@[simp] theorem State.setTask_mem (s : State) (k : Nat) (v : Task) : (s.setTask k v).mem = s.mem := rfl
@[simp] theorem State.setTask_hostMem (s : State) (k : Nat) (v : Task) : (s.setTask k v).hostMem = s.hostMem := rfl
@[simp] theorem State.setTask_dirty (s : State) (k : Nat) (v : Task) : (s.setTask k v).dirty = s.dirty := rfl
@[simp] theorem State.setTask_strong (s : State) (k : Nat) (v : Task) : (s.setTask k v).strong = s.strong := rfl
@[simp] theorem State.setTask_undef (s : State) (k : Nat) (v : Task) : (s.setTask k v).undef = s.undef := rfl
@[simp] theorem State.setTask_late (s : State) (k : Nat) (v : Task) : (s.setTask k v).late = s.late := rfl
@[simp] theorem State.setTask_wbOrs (s : State) (k : Nat) (v : Task) : (s.setTask k v).wbOrs = s.wbOrs := rfl
@[simp] theorem State.setTask_poison (s : State) (k : Nat) (v : Task) : (s.setTask k v).poison = s.poison := rfl
@[simp] theorem State.setTask_tags (s : State) (k : Nat) (v : Task) : (s.setTask k v).tags = s.tags := rfl
@[simp] theorem State.setTask_gatesList (s : State) (k : Nat) (v : Task) : (s.setTask k v).gatesList = s.gatesList := rfl
@[simp] theorem State.setTask_deferrals (s : State) (k : Nat) (v : Task) : (s.setTask k v).deferrals = s.deferrals := rfl
@[simp] theorem State.setTask_ctxs (s : State) (k : Nat) (v : Task) : (s.setTask k v).ctxs = s.ctxs := rfl
@[simp] theorem State.setTask_groups (s : State) (k : Nat) (v : Task) : (s.setTask k v).groups = s.groups := rfl
@[simp] theorem State.setTask_nextGroup (s : State) (k : Nat) (v : Task) : (s.setTask k v).nextGroup = s.nextGroup := rfl
@[simp] theorem State.setTask_tasks (s : State) (k : Nat) (v : Task) : (s.setTask k v).tasks = s.tasks.put k v := rfl
@[simp] theorem State.setTask_commits (s : State) (k : Nat) (v : Task) : (s.setTask k v).commits = s.commits := rfl
@[simp] theorem State.setTask_drafts (s : State) (k : Nat) (v : Task) : (s.setTask k v).drafts = s.drafts := rfl
@[simp] theorem State.setTask_owed (s : State) (k : Nat) (v : Task) : (s.setTask k v).owed = s.owed := rfl
@[simp] theorem State.setTask_notices (s : State) (k : Nat) (v : Task) : (s.setTask k v).notices = s.notices := rfl
@[simp] theorem State.setTask_guestBad (s : State) (k : Nat) (v : Task) : (s.setTask k v).guestBad = s.guestBad := rfl
@[simp] theorem State.setTask_tick (s : State) (k : Nat) (v : Task) : (s.setTask k v).tick = s.tick := rfl
@[simp] theorem State.setTask_fwcol (s : State) (k : Nat) (v : Task) : (s.setTask k v).fwcol = s.fwcol := rfl
@[simp] theorem State.setTask_fwwidth (s : State) (k : Nat) (v : Task) : (s.setTask k v).fwwidth = s.fwwidth := rfl
@[simp] theorem State.setTask_spare (s : State) (k : Nat) (v : Task) : (s.setTask k v).spare = s.spare := rfl
@[simp] theorem State.setTask_remaps (s : State) (k : Nat) (v : Task) : (s.setTask k v).remaps = s.remaps := rfl
@[simp] theorem State.setTask_wake (s : State) (k : Nat) (v : Task) : (s.setTask k v).wake = s.wake := rfl
@[simp] theorem State.setTask_ctxBase (s : State) (k : Nat) (v : Task) : (s.setTask k v).ctxBase = s.ctxBase := rfl
@[simp] theorem State.setTask_modX (s : State) (k : Nat) (v : Task) : (s.setTask k v).modX = s.modX := rfl
@[simp] theorem State.setTask_modY (s : State) (k : Nat) (v : Task) : (s.setTask k v).modY = s.modY := rfl
@[simp] theorem State.setTask_boMax (s : State) (k : Nat) (v : Task) : (s.setTask k v).boMax = s.boMax := rfl
@[simp] theorem State.setTask_boBase (s : State) (k : Nat) (v : Task) : (s.setTask k v).boBase = s.boBase := rfl
@[simp] theorem State.setTask_hlPool (s : State) (k : Nat) (v : Task) : (s.setTask k v).hlPool = s.hlPool := rfl
@[simp] theorem State.setTask_rtCfg (s : State) (k : Nat) (v : Task) : (s.setTask k v).rtCfg = s.rtCfg := rfl
@[simp] theorem State.setTask_tableMade (s : State) (k : Nat) (v : Task) : (s.setTask k v).tableMade = s.tableMade := rfl
@[simp] theorem State.setTask_pgDirty (s : State) (k : Nat) (v : Task) : (s.setTask k v).pgDirty = s.pgDirty := rfl
@[simp] theorem State.setTask_gqBase (s : State) (k : Nat) (v : Task) : (s.setTask k v).gqBase = s.gqBase := rfl
@[simp] theorem State.setTask_gsLock (s : State) (k : Nat) (v : Task) : (s.setTask k v).gsLock = s.gsLock := rfl
@[simp] theorem State.setTask_gsBound (s : State) (k : Nat) (v : Task) : (s.setTask k v).gsBound = s.gsBound := rfl
@[simp] theorem State.setTask_trRing (s : State) (k : Nat) (v : Task) : (s.setTask k v).trRing = s.trRing := rfl
@[simp] theorem State.setTask_trHead (s : State) (k : Nat) (v : Task) : (s.setTask k v).trHead = s.trHead := rfl
@[simp] theorem State.setTask_trTail (s : State) (k : Nat) (v : Task) : (s.setTask k v).trTail = s.trTail := rfl
@[simp] theorem State.setTask_pwLim (s : State) (k : Nat) (v : Task) : (s.setTask k v).pwLim = s.pwLim := rfl
@[simp] theorem State.setTask_pwTable (s : State) (k : Nat) (v : Task) : (s.setTask k v).pwTable = s.pwTable := rfl
@[simp] theorem State.setTask_pwAvg (s : State) (k : Nat) (v : Task) : (s.setTask k v).pwAvg = s.pwAvg := rfl
@[simp] theorem State.setTask_pwStep (s : State) (k : Nat) (v : Task) : (s.setTask k v).pwStep = s.pwStep := rfl
@[simp] theorem State.setTask_pwLog (s : State) (k : Nat) (v : Task) : (s.setTask k v).pwLog = s.pwLog := rfl
@[simp] theorem State.setTask_pwAt (s : State) (k : Nat) (v : Task) : (s.setTask k v).pwAt = s.pwAt := rfl
@[simp] theorem State.setTask_pwSince (s : State) (k : Nat) (v : Task) : (s.setTask k v).pwSince = s.pwSince := rfl
@[simp] theorem State.setTask_lkCtl (s : State) (k : Nat) (v : Task) : (s.setTask k v).lkCtl = s.lkCtl := rfl
@[simp] theorem State.setTask_gqCtl (s : State) (k : Nat) (v : Task) : (s.setTask k v).gqCtl = s.gqCtl := rfl
@[simp] theorem State.setTask_recipes (s : State) (k : Nat) (v : Task) : (s.setTask k v).recipes = s.recipes := rfl
@[simp] theorem State.setTask_hwBase (s : State) (k : Nat) (v : Task) : (s.setTask k v).hwBase = s.hwBase := rfl
@[simp] theorem State.setTask_hwLimit (s : State) (k : Nat) (v : Task) : (s.setTask k v).hwLimit = s.hwLimit := rfl
@[simp] theorem State.setTask_links (s : State) (k : Nat) (v : Task) : (s.setTask k v).links = s.links := rfl
@[simp] theorem State.setTask_guest (s : State) (k : Nat) (v : Task) : (s.setTask k v).guest = s.guest := rfl
@[simp] theorem State.setTask_hostHeld (s : State) (k : Nat) (v : Task) : (s.setTask k v).hostHeld = s.hostHeld := rfl
@[simp] theorem State.setTask_eventWord (s : State) (k : Nat) (v : Task) : (s.setTask k v).eventWord = s.eventWord := rfl
@[simp] theorem State.setTask_mbCmd (s : State) (k : Nat) (v : Task) : (s.setTask k v).mbCmd = s.mbCmd := rfl
@[simp] theorem State.setTask_mbTold (s : State) (k : Nat) (v : Task) : (s.setTask k v).mbTold = s.mbTold := rfl
@[simp] theorem State.setTask_mbReq (s : State) (k : Nat) (v : Task) : (s.setTask k v).mbReq = s.mbReq := rfl
@[simp] theorem State.setTask_mbResp (s : State) (k : Nat) (v : Task) : (s.setTask k v).mbResp = s.mbResp := rfl
@[simp] theorem State.setTask_vectors (s : State) (k : Nat) (v : Task) : (s.setTask k v).vectors = s.vectors := rfl
@[simp] theorem State.setTask_apertures (s : State) (k : Nat) (v : Task) : (s.setTask k v).apertures = s.apertures := rfl
@[simp] theorem State.setTask_reply (s : State) (k : Nat) (v : Task) : (s.setTask k v).reply = s.reply := rfl
@[simp] theorem State.setTask_hostSrc (s : State) (k : Nat) (v : Task) : (s.setTask k v).hostSrc = s.hostSrc := rfl
@[simp] theorem State.setTask_hostRec (s : State) (k : Nat) (v : Task) : (s.setTask k v).hostRec = s.hostRec := rfl
@[simp] theorem State.setTask_bootWord (s : State) (k : Nat) (v : Task) : (s.setTask k v).bootWord = s.bootWord := rfl
@[simp] theorem State.setTask_boot (s : State) (k : Nat) (v : Task) : (s.setTask k v).boot = s.boot := rfl
@[simp] theorem State.setTask_flash (s : State) (k : Nat) (v : Task) : (s.setTask k v).flash = s.flash := rfl
@[simp] theorem State.setTask_roles (s : State) (k : Nat) (v : Task) : (s.setTask k v).roles = s.roles := rfl
@[simp] theorem State.setTask_measures (s : State) (k : Nat) (v : Task) : (s.setTask k v).measures = s.measures := rfl
@[simp] theorem State.setTask_ctxQ (s : State) (k : Nat) (v : Task) : (s.setTask k v).ctxQ = s.ctxQ := rfl
@[simp] theorem State.setTask_grpQ (s : State) (k : Nat) (v : Task) : (s.setTask k v).grpQ = s.grpQ := rfl
@[simp] theorem State.setTask_claimAt (s : State) (k : Nat) (v : Task) : (s.setTask k v).claimAt = s.claimAt := rfl
@[simp] theorem State.setTask_slQ (s : State) (k : Nat) (v : Task) : (s.setTask k v).slQ = s.slQ := rfl
@[simp] theorem State.setTask_lkQ (s : State) (k : Nat) (v : Task) : (s.setTask k v).lkQ = s.lkQ := rfl
@[simp] theorem State.setTask_gqQ (s : State) (k : Nat) (v : Task) : (s.setTask k v).gqQ = s.gqQ := rfl
@[simp] theorem State.setTask_cur (s : State) (k : Nat) (v : Task) : (s.setTask k v).cur = s.cur := rfl
@[simp] theorem State.setTask_agenda (s : State) (k : Nat) (v : Task) : (s.setTask k v).agenda = s.agenda := rfl
@[simp] theorem State.setTask_fresh (s : State) (k : Nat) (v : Task) : (s.setTask k v).fresh = s.fresh := rfl

/-! ### Units after an update -/

@[simp] theorem State.slot_setSlot_same (s : State) (k : Nat) (v : Slot) : (s.setSlot k v).slot k = v := by simp [State.slot]

theorem State.slot_setSlot_ne (s : State) {k j : Nat} (v : Slot) (h : j ≠ k) : (s.setSlot k v).slot j = s.slot j := by
  simp [State.slot, PMap.get_put_ne _ _ _ h]

@[simp] theorem State.core_setCore_same (s : State) (k : Nat) (v : Core) : (s.setCore k v).core k = v := by simp [State.core]

theorem State.core_setCore_ne (s : State) {k j : Nat} (v : Core) (h : j ≠ k) : (s.setCore k v).core j = s.core j := by
  simp [State.core, PMap.get_put_ne _ _ _ h]

@[simp] theorem State.grove_setGrove_same (s : State) (k : Nat) (v : Grove) : (s.setGrove k v).grove k = v := by simp [State.grove]

theorem State.grove_setGrove_ne (s : State) {k j : Nat} (v : Grove) (h : j ≠ k) : (s.setGrove k v).grove j = s.grove j := by
  simp [State.grove, PMap.get_put_ne _ _ _ h]

@[simp] theorem State.stand_setStand_same (s : State) (k : Nat) (v : Stand) : (s.setStand k v).stand k = v := by simp [State.stand]

theorem State.stand_setStand_ne (s : State) {k j : Nat} (v : Stand) (h : j ≠ k) : (s.setStand k v).stand j = s.stand j := by
  simp [State.stand, PMap.get_put_ne _ _ _ h]

@[simp] theorem State.ctxOf_setCtx_same (s : State) (k : Nat) (v : Ctx) : (s.setCtx k v).ctxOf k = v := by simp [State.ctxOf]

theorem State.ctxOf_setCtx_ne (s : State) {k j : Nat} (v : Ctx) (h : j ≠ k) : (s.setCtx k v).ctxOf j = s.ctxOf j := by
  simp [State.ctxOf, PMap.get_put_ne _ _ _ h]

@[simp] theorem State.link_setLink_same (s : State) (k : Nat) (v : Link) : (s.setLink k v).link k = v := by simp [State.link]

theorem State.link_setLink_ne (s : State) {k j : Nat} (v : Link) (h : j ≠ k) : (s.setLink k v).link j = s.link j := by
  simp [State.link, PMap.get_put_ne _ _ _ h]

@[simp] theorem State.slot_setCore (s : State) (k j : Nat) (v : Core) : (s.setCore k v).slot j = s.slot j := rfl
@[simp] theorem State.slot_setGrove (s : State) (k j : Nat) (v : Grove) : (s.setGrove k v).slot j = s.slot j := rfl
@[simp] theorem State.slot_setStand (s : State) (k j : Nat) (v : Stand) : (s.setStand k v).slot j = s.slot j := rfl
@[simp] theorem State.slot_setCtx (s : State) (k j : Nat) (v : Ctx) : (s.setCtx k v).slot j = s.slot j := rfl
@[simp] theorem State.slot_setLink (s : State) (k j : Nat) (v : Link) : (s.setLink k v).slot j = s.slot j := rfl
@[simp] theorem State.slot_setGroup (s : State) (k j : Nat) (v : Group) : (s.setGroup k v).slot j = s.slot j := rfl
@[simp] theorem State.slot_setTask (s : State) (k j : Nat) (v : Task) : (s.setTask k v).slot j = s.slot j := rfl
@[simp] theorem State.core_setSlot (s : State) (k j : Nat) (v : Slot) : (s.setSlot k v).core j = s.core j := rfl
@[simp] theorem State.core_setGrove (s : State) (k j : Nat) (v : Grove) : (s.setGrove k v).core j = s.core j := rfl
@[simp] theorem State.core_setStand (s : State) (k j : Nat) (v : Stand) : (s.setStand k v).core j = s.core j := rfl
@[simp] theorem State.core_setCtx (s : State) (k j : Nat) (v : Ctx) : (s.setCtx k v).core j = s.core j := rfl
@[simp] theorem State.core_setLink (s : State) (k j : Nat) (v : Link) : (s.setLink k v).core j = s.core j := rfl
@[simp] theorem State.core_setGroup (s : State) (k j : Nat) (v : Group) : (s.setGroup k v).core j = s.core j := rfl
@[simp] theorem State.core_setTask (s : State) (k j : Nat) (v : Task) : (s.setTask k v).core j = s.core j := rfl
@[simp] theorem State.grove_setSlot (s : State) (k j : Nat) (v : Slot) : (s.setSlot k v).grove j = s.grove j := rfl
@[simp] theorem State.grove_setCore (s : State) (k j : Nat) (v : Core) : (s.setCore k v).grove j = s.grove j := rfl
@[simp] theorem State.grove_setStand (s : State) (k j : Nat) (v : Stand) : (s.setStand k v).grove j = s.grove j := rfl
@[simp] theorem State.grove_setCtx (s : State) (k j : Nat) (v : Ctx) : (s.setCtx k v).grove j = s.grove j := rfl
@[simp] theorem State.grove_setLink (s : State) (k j : Nat) (v : Link) : (s.setLink k v).grove j = s.grove j := rfl
@[simp] theorem State.grove_setGroup (s : State) (k j : Nat) (v : Group) : (s.setGroup k v).grove j = s.grove j := rfl
@[simp] theorem State.grove_setTask (s : State) (k j : Nat) (v : Task) : (s.setTask k v).grove j = s.grove j := rfl
@[simp] theorem State.stand_setSlot (s : State) (k j : Nat) (v : Slot) : (s.setSlot k v).stand j = s.stand j := rfl
@[simp] theorem State.stand_setCore (s : State) (k j : Nat) (v : Core) : (s.setCore k v).stand j = s.stand j := rfl
@[simp] theorem State.stand_setGrove (s : State) (k j : Nat) (v : Grove) : (s.setGrove k v).stand j = s.stand j := rfl
@[simp] theorem State.stand_setCtx (s : State) (k j : Nat) (v : Ctx) : (s.setCtx k v).stand j = s.stand j := rfl
@[simp] theorem State.stand_setLink (s : State) (k j : Nat) (v : Link) : (s.setLink k v).stand j = s.stand j := rfl
@[simp] theorem State.stand_setGroup (s : State) (k j : Nat) (v : Group) : (s.setGroup k v).stand j = s.stand j := rfl
@[simp] theorem State.stand_setTask (s : State) (k j : Nat) (v : Task) : (s.setTask k v).stand j = s.stand j := rfl
@[simp] theorem State.ctxOf_setSlot (s : State) (k j : Nat) (v : Slot) : (s.setSlot k v).ctxOf j = s.ctxOf j := rfl
@[simp] theorem State.ctxOf_setCore (s : State) (k j : Nat) (v : Core) : (s.setCore k v).ctxOf j = s.ctxOf j := rfl
@[simp] theorem State.ctxOf_setGrove (s : State) (k j : Nat) (v : Grove) : (s.setGrove k v).ctxOf j = s.ctxOf j := rfl
@[simp] theorem State.ctxOf_setStand (s : State) (k j : Nat) (v : Stand) : (s.setStand k v).ctxOf j = s.ctxOf j := rfl
@[simp] theorem State.ctxOf_setLink (s : State) (k j : Nat) (v : Link) : (s.setLink k v).ctxOf j = s.ctxOf j := rfl
@[simp] theorem State.ctxOf_setGroup (s : State) (k j : Nat) (v : Group) : (s.setGroup k v).ctxOf j = s.ctxOf j := rfl
@[simp] theorem State.ctxOf_setTask (s : State) (k j : Nat) (v : Task) : (s.setTask k v).ctxOf j = s.ctxOf j := rfl
@[simp] theorem State.link_setSlot (s : State) (k j : Nat) (v : Slot) : (s.setSlot k v).link j = s.link j := rfl
@[simp] theorem State.link_setCore (s : State) (k j : Nat) (v : Core) : (s.setCore k v).link j = s.link j := rfl
@[simp] theorem State.link_setGrove (s : State) (k j : Nat) (v : Grove) : (s.setGrove k v).link j = s.link j := rfl
@[simp] theorem State.link_setStand (s : State) (k j : Nat) (v : Stand) : (s.setStand k v).link j = s.link j := rfl
@[simp] theorem State.link_setCtx (s : State) (k j : Nat) (v : Ctx) : (s.setCtx k v).link j = s.link j := rfl
@[simp] theorem State.link_setGroup (s : State) (k j : Nat) (v : Group) : (s.setGroup k v).link j = s.link j := rfl
@[simp] theorem State.link_setTask (s : State) (k j : Nat) (v : Task) : (s.setTask k v).link j = s.link j := rfl

@[simp] theorem State.modSlot_eq (s : State) (k : Nat) (f : Slot → Slot) : s.modSlot k f = s.setSlot k (f (s.slot k)) := rfl
@[simp] theorem State.modCore_eq (s : State) (k : Nat) (f : Core → Core) : s.modCore k f = s.setCore k (f (s.core k)) := rfl
@[simp] theorem State.modGrove_eq (s : State) (k : Nat) (f : Grove → Grove) : s.modGrove k f = s.setGrove k (f (s.grove k)) := rfl
@[simp] theorem State.modStand_eq (s : State) (k : Nat) (f : Stand → Stand) : s.modStand k f = s.setStand k (f (s.stand k)) := rfl
@[simp] theorem State.modCtx_eq (s : State) (k : Nat) (f : Ctx → Ctx) : s.modCtx k f = s.setCtx k (f (s.ctxOf k)) := rfl
@[simp] theorem State.modLink_eq (s : State) (k : Nat) (f : Link → Link) : s.modLink k f = s.setLink k (f (s.link k)) := rfl

@[simp] theorem State.modMe_eq (s : State) (f : Slot → Slot) : s.modMe f = s.setSlot s.cur (f s.me) := rfl
@[simp] theorem State.modMyCore_eq (s : State) (f : Core → Core) : s.modMyCore f = s.setCore (coreOf s.cur) (f s.myCore) := rfl
@[simp] theorem State.modMyGrove_eq (s : State) (f : Grove → Grove) : s.modMyGrove f = s.setGrove (groveOf s.cur) (f s.myGrove) := rfl
@[simp] theorem State.setSlot_me (s : State) (v : Slot) : (s.setSlot s.cur v).me = v := by simp [State.me]
@[simp] theorem State.setCore_me (s : State) (k : Nat) (v : Core) : (s.setCore k v).me = s.me := rfl
@[simp] theorem State.setGrove_me (s : State) (k : Nat) (v : Grove) : (s.setGrove k v).me = s.me := rfl
@[simp] theorem State.setTask_me (s : State) (k : Nat) (v : Task) : (s.setTask k v).me = s.me := rfl
@[simp] theorem State.setCore_myCore (s : State) (v : Core) : (s.setCore (coreOf s.cur) v).myCore = v := by simp [State.myCore]
@[simp] theorem State.setSlot_myCore (s : State) (k : Nat) (v : Slot) : (s.setSlot k v).myCore = s.myCore := rfl
@[simp] theorem State.setGrove_myCore (s : State) (k : Nat) (v : Grove) : (s.setGrove k v).myCore = s.myCore := rfl

theorem PMap.put_put {α : Type} (m : PMap α) (k : Nat) (v w : α) : PMap.put (PMap.put m k v) k w = PMap.put m k w := by
  induction m with
  | nil => simp [PMap.put]
  | cons p rest ih =>
    obtain ⟨i, u⟩ := p
    by_cases h1 : k < i
    · simp [PMap.put, h1]
    · by_cases h2 : k = i
      · simp [PMap.put, h2]
      · simp [PMap.put, h1, h2, ih]

@[simp] theorem State.setSlot_setSlot (s : State) (k : Nat) (v w : Slot) : (s.setSlot k v).setSlot k w = s.setSlot k w := by
  simp [State.setSlot, PMap.put_put]

@[simp] theorem State.setCore_setCore (s : State) (k : Nat) (v w : Core) : (s.setCore k v).setCore k w = s.setCore k w := by
  simp [State.setCore, PMap.put_put]

@[simp] theorem State.setGrove_setGrove (s : State) (k : Nat) (v w : Grove) : (s.setGrove k v).setGrove k w = s.setGrove k w := by
  simp [State.setGrove, PMap.put_put]

end Machine

end Sys2Proof
end

