-- ==== Sys2Proof/Laws/Memory.lean ====
section
/-! SUPPORT. Memories: what a read gives after a write, the canonical form, and that every operation on a memory keeps it. -/

namespace Sys2Proof.Machine

/-! ### Numbers as bytes -/

@[simp] theorem length_bytesOf (n v : Nat) : (bytesOf n v).length = n := by
  induction n generalizing v with
  | zero => rfl
  | succ n ih => simp [bytesOf, ih]

theorem natOf_bytesOf (n v : Nat) : natOf (bytesOf n v) = v % 256 ^ n := by
  induction n generalizing v with
  | zero => simp [bytesOf, natOf, Nat.mod_one]
  | succ n ih =>
    rw [bytesOf, natOf, ih, BitVec.toNat_ofNat, show 256 ^ (n + 1) = 2 ^ 8 * 256 ^ n by rw [pow_succ']; norm_num, Nat.mod_mul]
    norm_num

theorem natOf_lt (bs : List Byte) : natOf bs < 256 ^ bs.length := by
  induction bs with
  | nil => simp [natOf]
  | cons b rest ih =>
    have h := b.isLt
    simp only [natOf, List.length_cons, pow_succ']
    omega

theorem bytesOf_natOf (bs : List Byte) : bytesOf bs.length (natOf bs) = bs := by
  induction bs with
  | nil => rfl
  | cons b rest ih =>
    have h := b.isLt
    have h2 : (b.toNat + 256 * natOf rest) / 256 = natOf rest := by omega
    simp only [List.length_cons, bytesOf, natOf, h2, ih, List.cons.injEq, and_true]
    apply BitVec.eq_of_toNat_eq
    rw [BitVec.toNat_ofNat]
    omega

@[simp] theorem length_memRead (m : Mem) (a n : Nat) : (memRead m a n).length = n := by
  induction n generalizing a with
  | zero => rfl
  | succ n ih => simp [memRead, ih]

theorem getElem?_memRead (m : Mem) (a n i : Nat) : (memRead m a n)[i]? = if i < n then some (memByte m (a + i)) else none := by
  induction n generalizing a i with
  | zero => simp [memRead]
  | succ n ih =>
    cases i with
    | zero => simp [memRead]
    | succ i =>
      simp only [memRead, List.getElem?_cons_succ, ih, Nat.add_lt_add_iff_right]
      rw [Nat.add_right_comm, Nat.add_assoc]

/-! ### Reads after writes -/

theorem memByte_absent {m : Mem} {a : Nat} (h : ∀ c ∈ m, c.1 ≠ a) : memByte m a = 0 := by
  induction m with
  | nil => rfl
  | cons c rest ih =>
    obtain ⟨k, b⟩ := c
    simp only [memByte, if_neg (h _ List.mem_cons_self)]
    exact ih fun c hc => h c (List.mem_cons_of_mem _ hc)

theorem memByte_append_left {m n : Mem} {a : Nat} (h : ∀ c ∈ n, c.1 ≠ a) : memByte (m ++ n) a = memByte m a := by
  induction m with
  | nil => exact memByte_absent h
  | cons c rest ih => rw [List.cons_append, memByte, memByte, ih]

theorem memByte_append_right {m n : Mem} {a : Nat} (h : ∀ c ∈ m, c.1 ≠ a) : memByte (m ++ n) a = memByte n a := by
  induction m with
  | nil => rfl
  | cons c rest ih =>
    rw [List.cons_append, memByte, if_neg (h _ List.mem_cons_self)]
    exact ih fun d hd => h d (List.mem_cons_of_mem _ hd)

theorem memByte_filter_keep (m : Mem) (p : Host.Cell → Bool) {a : Nat} (h : ∀ b, p (a, b) = true) : memByte (m.filter p) a = memByte m a := by
  induction m with
  | nil => rfl
  | cons c rest ih =>
    obtain ⟨k, b⟩ := c
    by_cases hk : k = a
    · subst hk; simp [h, memByte]
    · by_cases hp : p (k, b) = true
      · simp [hp, memByte, hk, ih]
      · simp [hp, memByte, hk, ih]

theorem cells_range {a : Nat} {bs : List Byte} {c : Host.Cell} (h : c ∈ cells a bs) : a ≤ c.1 ∧ c.1 < a + bs.length ∧ c.2 ≠ 0 := by
  induction bs generalizing a with
  | nil => simp [cells] at h
  | cons b rest ih =>
    simp only [cells] at h
    rw [List.length_cons]
    split at h
    · have := ih h; exact ⟨by omega, by omega, this.2.2⟩
    · rcases List.mem_cons.mp h with rfl | h
      · exact ⟨le_refl _, by omega, ‹_›⟩
      · have := ih h; exact ⟨by omega, by omega, this.2.2⟩

theorem memByte_cells (a : Nat) (bs : List Byte) (i : Nat) : memByte (cells a bs) (a + i) = (bs[i]?).getD 0 := by
  induction bs generalizing a i with
  | nil => rfl
  | cons b rest ih =>
    cases i with
    | zero =>
      simp only [cells, Nat.add_zero, List.getElem?_cons_zero, Option.getD_some]
      split
      · next h =>
        rw [h]
        exact memByte_absent fun c hc => by have := (cells_range hc).1; omega
      · simp [memByte]
    | succ i =>
      have h := ih (a + 1) i
      rw [Nat.add_right_comm, Nat.add_assoc] at h
      simp only [cells, List.getElem?_cons_succ]
      split
      · exact h
      · simp only [memByte, if_neg (show a ≠ a + (i + 1) by omega)]
        exact h

theorem memByte_memWrite (m : Mem) (a : Nat) (bs : List Byte) (q : Nat) :
    memByte (memWrite m a bs) q = if a ≤ q ∧ q < a + bs.length then (bs[q - a]?).getD 0 else memByte m q := by
  have low : a ≤ q → ∀ c ∈ m.filter (fun c => decide (c.1 < a)), c.1 ≠ q := fun h c hc => by
    have : c.1 < a := by simpa using (List.mem_filter.mp hc).2
    omega
  have high : q < a + bs.length → ∀ c ∈ m.filter (fun c => decide (a + bs.length ≤ c.1)), c.1 ≠ q := fun h c hc => by
    have : a + bs.length ≤ c.1 := by simpa using (List.mem_filter.mp hc).2
    omega
  have mid : q < a ∨ a + bs.length ≤ q → ∀ c ∈ cells a bs, c.1 ≠ q := fun h c hc => by
    have := cells_range hc
    omega
  unfold memWrite
  by_cases h1 : q < a
  · rw [if_neg (by omega), memByte_append_left (high (by omega)), memByte_append_left (mid (.inl h1))]
    exact memByte_filter_keep m _ (by simp [h1])
  · by_cases h2 : q < a + bs.length
    · rw [if_pos ⟨by omega, h2⟩, memByte_append_left (high h2), memByte_append_right (low (by omega))]
      obtain ⟨i, rfl⟩ : ∃ i, q = a + i := ⟨q - a, by omega⟩
      rw [Nat.add_sub_cancel_left, memByte_cells]
    · rw [if_neg (by omega), memByte_append_right (fun c hc => (List.mem_append.mp hc).elim (low (by omega) c) (mid (by omega) c))]
      exact memByte_filter_keep m _ (by intro b; simp; omega)

/-- What was written is read. -/
theorem memRead_memWrite_same (m : Mem) (a : Nat) (bs : List Byte) : memRead (memWrite m a bs) a bs.length = bs := by
  apply List.ext_getElem?
  intro i
  rw [getElem?_memRead]
  split
  · next h => rw [memByte_memWrite, if_pos ⟨by omega, by omega⟩, Nat.add_sub_cancel_left, List.getElem?_eq_getElem h]; rfl
  · next h => rw [List.getElem?_eq_none (by omega)]

/-- A write leaves every byte outside it. -/
theorem memByte_memWrite_apart (m : Mem) {a q : Nat} {bs : List Byte} (h : q < a ∨ a + bs.length ≤ q) : memByte (memWrite m a bs) q = memByte m q := by
  rw [memByte_memWrite, if_neg (by omega)]

theorem memRead_memWrite_apart (m : Mem) {a p n : Nat} {bs : List Byte} (h : p + n ≤ a ∨ a + bs.length ≤ p) :
    memRead (memWrite m a bs) p n = memRead m p n := by
  apply List.ext_getElem?
  intro i
  rw [getElem?_memRead, getElem?_memRead]
  split
  · rw [memByte_memWrite_apart m (by omega)]
  · rfl

/-! ### The canonical form -/

theorem Mem.from_iff (m : Mem) (lo : Nat) : Mem.from lo m = true ↔ m.Pairwise (fun c d => c.1 < d.1) ∧ ∀ c ∈ m, lo ≤ c.1 ∧ c.2 ≠ 0 := by
  induction m generalizing lo with
  | nil => simp [Mem.from]
  | cons c rest ih =>
    obtain ⟨k, b⟩ := c
    simp only [Mem.from, Bool.and_eq_true, decide_eq_true_eq, bne_iff_ne, ne_eq, ih, List.pairwise_cons, List.mem_cons, forall_eq_or_imp]
    constructor
    · rintro ⟨⟨h1, h2⟩, h3, h4⟩
      exact ⟨⟨fun d hd => (h4 d hd).1, h3⟩, ⟨h1, h2⟩, fun d hd => ⟨by have := (h4 d hd).1; omega, (h4 d hd).2⟩⟩
    · rintro ⟨⟨h1, h2⟩, ⟨h3, h4⟩, h5⟩
      exact ⟨⟨h3, h4⟩, h2, fun d hd => ⟨h1 d hd, (h5 d hd).2⟩⟩

theorem Mem.wf_iff (m : Mem) : Mem.wf m = true ↔ m.Pairwise (fun c d => c.1 < d.1) ∧ ∀ c ∈ m, c.2 ≠ 0 := by
  simp [Mem.wf, Mem.from_iff]

theorem cells_pairwise (a : Nat) (bs : List Byte) : (cells a bs).Pairwise (fun c d => c.1 < d.1) := by
  induction bs generalizing a with
  | nil => simp [cells]
  | cons b rest ih =>
    simp only [cells]
    split
    · exact ih (a + 1)
    · exact List.pairwise_cons.mpr ⟨fun d hd => by have := (cells_range hd).1; simp only; omega, ih (a + 1)⟩

/-- A write keeps the canonical form. -/
theorem memWrite_wf {m : Mem} (h : Mem.wf m = true) (a : Nat) (bs : List Byte) : Mem.wf (memWrite m a bs) = true := by
  obtain ⟨h1, h2⟩ := (Mem.wf_iff m).mp h
  refine (Mem.wf_iff _).mpr ⟨?_, ?_⟩
  · unfold memWrite
    refine List.pairwise_append.mpr ⟨List.pairwise_append.mpr ⟨h1.filter _, cells_pairwise a bs, ?_⟩, h1.filter _, ?_⟩
    · intro c hc d hd
      have hl : c.1 < a := by simpa using (List.mem_filter.mp hc).2
      have := (cells_range hd).1
      omega
    · intro c hc d hd
      have hg : a + bs.length ≤ d.1 := by simpa using (List.mem_filter.mp hd).2
      rcases List.mem_append.mp hc with hc | hc
      · have hl : c.1 < a := by simpa using (List.mem_filter.mp hc).2
        omega
      · have := (cells_range hc).2.1
        omega
  · intro c hc
    unfold memWrite at hc
    rcases List.mem_append.mp hc with hc | hc
    · rcases List.mem_append.mp hc with hc | hc
      · exact h2 c (List.mem_filter.mp hc).1
      · exact (cells_range hc).2.2
    · exact h2 c (List.mem_filter.mp hc).1

/-- Two memories in canonical form that read the same everywhere are the same list. -/
theorem Mem.ext_wf {m n : Mem} (hm : Mem.wf m = true) (hn : Mem.wf n = true) (h : ∀ a, memByte m a = memByte n a) : m = n := by
  have byte : ∀ {l : Mem}, Mem.wf l = true → ∀ c ∈ l, memByte l c.1 = c.2 := by
    intro l hl
    obtain ⟨h1, -⟩ := (Mem.wf_iff l).mp hl
    clear hl
    induction l with
    | nil => intro c hc; cases hc
    | cons d rest ih =>
      obtain ⟨k, b⟩ := d
      intro c hc
      rcases List.mem_cons.mp hc with rfl | hc
      · simp [memByte]
      · have hlt := (List.pairwise_cons.mp h1).1 c hc
        simp only [memByte]
        rw [if_neg (by simp only at hlt; omega)]
        exact ih (List.pairwise_cons.mp h1).2 c hc
  have sub : ∀ {l k : Mem}, Mem.wf l = true → Mem.wf k = true → (∀ a, memByte l a = memByte k a) → ∀ c ∈ l, c ∈ k := by
    intro l k hl hk hb c hc
    have h1 := byte hl c hc
    rw [hb c.1] at h1
    by_contra hno
    have h2 := ((Mem.wf_iff l).mp hl).2 c hc
    by_cases hex : ∃ d ∈ k, d.1 = c.1
    · obtain ⟨d, hd, hdc⟩ := hex
      have h3 := byte hk d hd
      rw [hdc, h1] at h3
      exact hno (by rwa [show c = d from Prod.ext hdc.symm h3])
    · exact h2 (by rw [← h1]; exact memByte_absent fun d hd hq => hex ⟨d, hd, hq⟩)
  have sorted : ∀ {l : Mem}, Mem.wf l = true → l.Pairwise (fun c d => c.1 < d.1) := fun hl => ((Mem.wf_iff _).mp hl).1
  have nodup : ∀ {l : Mem}, Mem.wf l = true → l.Nodup := fun hl => (sorted hl).imp fun hlt he => by rw [he] at hlt; exact lt_irrefl _ hlt
  have perm : m.Perm n := (List.perm_ext_iff_of_nodup (nodup hm) (nodup hn)).mpr fun c =>
    ⟨sub hm hn h c, sub hn hm (fun a => (h a).symm) c⟩
  exact perm.eq_of_pairwise (fun c d _ _ h1 h2 => absurd h1 (by omega)) (sorted hm) (sorted hn)

/-! ### The form over a state -/

theorem pmap_all_put {α : Type} {m : PMap α} {p : Nat × α → Bool} {k : Nat} {v : α} (h : m.all p = true) (hv : p (k, v) = true) : (m.put k v).all p = true := by
  induction m with
  | nil => simpa [PMap.put] using hv
  | cons c rest ih =>
    obtain ⟨i, w⟩ := c
    simp only [List.all_cons, Bool.and_eq_true] at h
    simp only [PMap.put]
    split
    · simp [hv, h.1, h.2]
    · split
      · simp [hv, h.2]
      · simp [h.1, ih h.2]

theorem pmap_get_all {α : Type} {m : PMap α} {p : α → Bool} (h : (m.all fun q => p q.2) = true) {d : α} (hd : p d = true) (k : Nat) : p (PMap.get m k d) = true := by
  induction m with
  | nil => exact hd
  | cons c rest ih =>
    obtain ⟨i, w⟩ := c
    simp only [List.all_cons, Bool.and_eq_true] at h
    simp only [PMap.get, PMap.find]
    split
    · exact h.1
    · exact ih h.2

theorem State.memsWf_iff (s : State) : s.memsWf = true ↔
    Mem.wf s.mem = true ∧ Mem.wf s.hostMem = true ∧ Mem.wf s.flash = true ∧ Mem.wf s.mbReq = true ∧ Mem.wf s.mbResp = true ∧
    (s.cores.all fun q => Mem.wf q.2.tcm) = true ∧ (s.groves.all fun q => Mem.wf q.2.scratch) = true := by
  simp only [State.memsWf, Bool.and_eq_true, and_assoc]

theorem State.core_tcm_wf {s : State} (h : s.memsWf = true) (k : Nat) : Mem.wf (s.core k).tcm = true :=
  pmap_get_all (p := fun c : Core => Mem.wf c.tcm) ((State.memsWf_iff s).mp h).2.2.2.2.2.1 rfl k

theorem State.grove_scratch_wf {s : State} (h : s.memsWf = true) (g : Nat) : Mem.wf (s.grove g).scratch = true :=
  pmap_get_all (p := fun c : Grove => Mem.wf c.scratch) ((State.memsWf_iff s).mp h).2.2.2.2.2.2 rfl g

/-- A state that differs in no memory is in form with it. -/
theorem State.memsWf_of_same {s t : State} (h : s.memsWf = true) (h1 : t.mem = s.mem) (h2 : t.hostMem = s.hostMem) (h3 : t.flash = s.flash)
    (h4 : t.mbReq = s.mbReq) (h5 : t.mbResp = s.mbResp) (h6 : t.cores = s.cores) (h7 : t.groves = s.groves) : t.memsWf = true := by
  unfold State.memsWf at h ⊢
  rw [h1, h2, h3, h4, h5, h6, h7]
  exact h

theorem State.setSlot_memsWf {s : State} (h : s.memsWf = true) (k : Nat) (v : Slot) : (s.setSlot k v).memsWf = true :=
  State.memsWf_of_same h rfl rfl rfl rfl rfl rfl rfl

theorem State.setCore_memsWf {s : State} (h : s.memsWf = true) (k : Nat) {v : Core} (hv : Mem.wf v.tcm = true) : (s.setCore k v).memsWf = true := by
  obtain ⟨h1, h2, h3, h4, h5, h6, h7⟩ := (State.memsWf_iff s).mp h
  exact (State.memsWf_iff _).mpr ⟨h1, h2, h3, h4, h5, pmap_all_put h6 hv, h7⟩

theorem State.setGrove_memsWf {s : State} (h : s.memsWf = true) (g : Nat) {v : Grove} (hv : Mem.wf v.scratch = true) : (s.setGrove g v).memsWf = true := by
  obtain ⟨h1, h2, h3, h4, h5, h6, h7⟩ := (State.memsWf_iff s).mp h
  exact (State.memsWf_iff _).mpr ⟨h1, h2, h3, h4, h5, h6, pmap_all_put h7 hv⟩

/-- A core or a grove of the same memory. -/
theorem State.setCore_memsWf_same {s : State} (h : s.memsWf = true) (k : Nat) {v : Core} (hv : v.tcm = (s.core k).tcm) : (s.setCore k v).memsWf = true :=
  State.setCore_memsWf h k (hv ▸ State.core_tcm_wf h k)

theorem State.setGrove_memsWf_same {s : State} (h : s.memsWf = true) (g : Nat) {v : Grove} (hv : v.scratch = (s.grove g).scratch) : (s.setGrove g v).memsWf = true :=
  State.setGrove_memsWf h g (hv ▸ State.grove_scratch_wf h g)

/-- A write of TCM keeps the form. -/
theorem State.tcmWrite_memsWf {s : State} (h : s.memsWf = true) (core off : Nat) (bs : List Byte) : (s.tcmWrite core off bs).memsWf = true := by
  have h1 : (s.modCore core fun c => { c with tcm := memWrite c.tcm off bs }).memsWf = true :=
    State.setCore_memsWf h core (memWrite_wf (State.core_tcm_wf h core) off bs)
  unfold State.tcmWrite
  simp only
  split
  · exact h1
  · exact State.setGrove_memsWf h1 _ (State.grove_scratch_wf h1 _)

/-- A write of scratch keeps the form. -/
theorem State.scrWrite_memsWf {s : State} (h : s.memsWf = true) (g off : Nat) (bs : List Byte) : (s.scrWrite g off bs).memsWf = true :=
  State.setGrove_memsWf h g (memWrite_wf (State.grove_scratch_wf h g) off bs)

theorem State.shadow_memsWf {s : State} (h : s.memsWf = true) (inter : Bool) (sec : Nat) : (s.shadow inter sec).memsWf = true := by
  unfold State.shadow
  split
  · exact h
  · exact State.memsWf_of_same h rfl rfl rfl rfl rfl rfl rfl

theorem foldl_memsWf {α : Type} {f : State → α → State} (hf : ∀ s a, s.memsWf = true → (f s a).memsWf = true) {s : State} (h : s.memsWf = true) (l : List α) :
    (l.foldl f s).memsWf = true := by
  induction l generalizing s with
  | nil => exact h
  | cons a rest ih => exact ih (hf s a h)

theorem State.freeIndex_memsWf {s : State} (h : s.memsWf = true) (n : Nat) : (s.freeIndex n).2.memsWf = true :=
  State.memsWf_of_same (t := (s.freeIndex n).2) h rfl rfl rfl rfl rfl rfl rfl

/-- A write-back keeps the form. -/
theorem State.writeBack1_memsWf {s : State} (h : s.memsWf = true) (sec : Nat) : (s.writeBack1 sec).memsWf = true := by
  have h0 : ({ s with dirty := s.dirty.drop sec } : State).memsWf = true := State.memsWf_of_same h rfl rfl rfl rfl rfl rfl rfl
  unfold State.writeBack1
  split
  · exact h
  · simp only
    split
    · exact h0
    · exact State.memsWf_of_same h0 rfl rfl rfl rfl rfl rfl rfl

theorem State.makeDirty_memsWf {s : State} (h : s.memsWf = true) (inter : Bool) (sec : Nat) : (s.makeDirty inter sec).memsWf = true := by
  refine State.shadow_memsWf ?_ inter sec
  unfold State.makeRoom
  simp only
  split
  · exact h
  · split
    · exact h
    · exact foldl_memsWf (fun _ k hs => State.writeBack1_memsWf hs k) (State.freeIndex_memsWf h _) _

/-- A write of device memory keeps the form. -/
theorem State.devWrite_memsWf {s : State} (h : s.memsWf = true) (p : Nat) (inter : Bool) (bs : List Byte) : (s.devWrite p inter bs).memsWf = true := by
  have h0 := foldl_memsWf (f := fun st sec => st.makeDirty inter sec) (fun s a hs => State.makeDirty_memsWf hs inter a) h (sectorsOf p bs.length)
  obtain ⟨h1, h2, h3, h4, h5, h6, h7⟩ := (State.memsWf_iff _).mp h0
  exact (State.memsWf_iff _).mpr ⟨memWrite_wf h1 p bs, h2, h3, h4, h5, h6, h7⟩

/-- A write of host memory keeps the form. -/
theorem State.hostPut_memsWf {s : State} (h : s.memsWf = true) (p a : Nat) (bs : List Byte) : (s.hostPut p a bs).memsWf = true := by
  have h0 := foldl_memsWf (f := fun st sec => st.makeDirty true sec) (fun s a hs => State.makeDirty_memsWf hs true a) h (sectorsOf p bs.length)
  obtain ⟨h1, h2, h3, h4, h5, h6, h7⟩ := (State.memsWf_iff _).mp h0
  exact (State.memsWf_iff _).mpr ⟨h1, memWrite_wf h2 a bs, h3, h4, h5, h6, h7⟩

theorem State.barWrite_memsWf {s : State} (h : s.memsWf = true) (off : Nat) (bs : List Byte) : (s.barWrite off bs).memsWf = true := by
  obtain ⟨h1, h2, h3, h4, h5, h6, h7⟩ := (State.memsWf_iff s).mp h
  unfold State.barWrite
  simp only
  split
  · split
    · exact h
    · exact (State.memsWf_iff _).mpr ⟨h1, h2, h3, h4, memWrite_wf h5 _ _, h6, h7⟩
  · split
    · exact State.memsWf_of_same h rfl rfl rfl rfl rfl rfl rfl
    · split
      · exact State.memsWf_of_same h rfl rfl rfl rfl rfl rfl rfl
      · exact h

theorem State.bellWrite_memsWf {s : State} (h : s.memsWf = true) (q : Nat) (bs : List Byte) : (s.bellWrite q bs).memsWf = true := by
  unfold State.bellWrite
  simp only
  split
  · exact h
  · exact State.devWrite_memsWf h _ _ _

theorem State.windowWrite_memsWf {s : State} (h : s.memsWf = true) (g off : Nat) (bs : List Byte) : (s.windowWrite g off bs).memsWf = true := by
  unfold State.windowWrite
  split
  · exact State.tcmWrite_memsWf h _ _ _
  · split
    · exact State.scrWrite_memsWf h _ _ _
    · split
      · exact State.memsWf_of_same h rfl rfl rfl rfl rfl rfl rfl
      · exact h

/-- A write at any place keeps the form. -/
theorem State.poke_memsWf {s : State} (h : s.memsWf = true) (p : Nat) (inter : Bool) (bs : List Byte) : (s.poke p inter bs).memsWf = true := by
  unfold State.poke
  split
  · exact State.devWrite_memsWf h p inter bs
  · exact State.windowWrite_memsWf h _ _ bs
  · exact State.windowWrite_memsWf h _ _ bs
  · exact State.barWrite_memsWf h _ bs
  · exact State.bellWrite_memsWf h _ bs
  · exact State.hostPut_memsWf h _ _ bs
  · exact h
  · exact h

theorem State.traceAdd_memsWf {s : State} (h : s.memsWf = true) (home kind size p src : Nat) : (s.traceAdd home kind size p src).memsWf = true := by
  unfold State.traceAdd
  simp only
  split
  · exact h
  · exact State.setGrove_memsWf h home (State.grove_scratch_wf h home)

theorem State.combineElem_memsWf {s : State} (h : s.memsWf = true) (e : UpdElem) : (s.combineElem e).memsWf = true :=
  State.memsWf_of_same (State.poke_memsWf h e.pa e.inter _) rfl rfl rfl rfl rfl rfl rfl

/-- A combined update-only copy keeps the form. -/
theorem State.combineCopy_memsWf {s : State} (h : s.memsWf = true) (core sec : Nat) : (s.combineCopy core sec).memsWf = true := by
  unfold State.combineCopy
  refine foldl_memsWf (f := fun st e => (st.combineElem e).traceAdd (st.home e.pa e.inter) 2 (redWidth e.ty.toNat / 8) e.pa (st.source (core * 4))) ?_ ?_ _
  · exact fun s e hs => State.traceAdd_memsWf (State.combineElem_memsWf hs e) _ _ _ _ _
  · exact State.setCore_memsWf_same h core rfl

theorem State.combineAll_memsWf (sec n : Nat) {s : State} (h : s.memsWf = true) (cores : List Nat) : (s.combineAll sec n cores).memsWf = true := by
  induction n generalizing s cores with
  | zero => exact h
  | succ n ih =>
    unfold State.combineAll
    split
    · exact h
    · exact State.combineCopy_memsWf h _ _
    · next c rest _ => exact ih (State.combineCopy_memsWf (State.freeIndex_memsWf h (rest.length + 1)) _ _) _

theorem State.snoop_memsWf {s : State} (h : s.memsWf = true) (sec : Nat) : (s.snoop sec).memsWf = true := by
  unfold State.snoop
  split
  · exact h
  · exact State.memsWf_of_same h rfl rfl rfl rfl rfl rfl rfl

/-- A recall keeps the form. -/
theorem State.recall_memsWf {s : State} (h : s.memsWf = true) (sec : Nat) : (s.recall sec).memsWf = true := by
  unfold State.recall
  simp only
  split
  · exact State.snoop_memsWf h sec
  · exact State.combineAll_memsWf _ _ (State.snoop_memsWf h sec) _

theorem State.recallRange_memsWf {s : State} (h : s.memsWf = true) (p n : Nat) : (s.recallRange p n).memsWf = true :=
  foldl_memsWf (fun _ sec hs => State.recall_memsWf hs sec) h _

theorem all_map_groves {p : Grove → Bool} {f : Grove → Grove} (hf : ∀ g, p (f g) = p g) (l : List (Nat × Grove)) :
    ((l.map fun q => (q.1, f q.2)).all fun q => p q.2) = l.all fun q => p q.2 := by
  rw [List.all_map]
  exact congrArg l.all (funext fun q => hf q.2)

theorem State.notify_memsWf {s : State} (h : s.memsWf = true) (sec : Nat) : (s.notify sec).memsWf = true := by
  obtain ⟨h1, h2, h3, h4, h5, h6, h7⟩ := (State.memsWf_iff s).mp h
  refine (State.memsWf_iff _).mpr ⟨h1, h2, h3, h4, h5, h6, ?_⟩
  unfold State.notify
  refine Eq.trans ?_ h7
  exact all_map_groves (p := fun g => Mem.wf g.scratch)
    (f := fun g => { g with parks := g.parks.map fun pk => { pk with wait := pk.wait.noticed sec } }) (fun _ => rfl) s.groves

/-- A store that performs at its home keeps the form. -/
theorem State.perform_memsWf {s : State} (h : s.memsWf = true) (slot p : Nat) (inter : Bool) (bs : List Byte) (sig : Bool) (kind : Nat) :
    (s.perform slot p inter bs sig kind).memsWf = true := by
  have h1 := State.traceAdd_memsWf (State.poke_memsWf (State.recallRange_memsWf h p bs.length) p inter bs) ((s.recallRange p bs.length).home p inter) kind bs.length p
    ((s.recallRange p bs.length).source slot)
  unfold State.perform
  simp only
  split
  · exact State.notify_memsWf h1 _
  · exact h1

/-- What a core-path store leaves behind touches no memory. -/
theorem State.strongDone_memsWf {s : State} (h : s.memsWf = true) (before : State) (slot p n : Nat) : (s.strongDone before slot p n).memsWf = true := by
  unfold State.strongDone
  split
  iterate 2 exact State.memsWf_of_same h rfl rfl rfl rfl rfl rfl rfl
  all_goals exact h

/-- A core-path store keeps the form. -/
theorem State.strongPut_memsWf {s : State} (h : s.memsWf = true) (slot p : Nat) (inter : Bool) (bs : List Byte) (sig : Bool) (kind : Nat) :
    (s.strongPut slot p inter bs sig kind).memsWf = true :=
  State.strongDone_memsWf (State.perform_memsWf h slot p inter bs sig kind) s slot p bs.length

/-- A drained store buffer keeps the form. -/
theorem State.drainGo_memsWf (slot n : Nat) {s t : State} (h : s.memsWf = true) (ht : s.drainGo slot n = some t) : t.memsWf = true := by
  induction n generalizing s with
  | zero => simp only [State.drainGo, Option.some.injEq] at ht; exact ht ▸ h
  | succ n ih =>
    unfold State.drainGo at ht
    split at ht
    · simp only [Option.some.injEq] at ht; exact ht ▸ h
    · split at ht
      · simp at ht
      · exact ih (State.strongPut_memsWf (State.setSlot_memsWf h _ _) _ _ _ _ _ _) ht

theorem State.dropUpd_memsWf {s : State} (h : s.memsWf = true) (sec : Nat) : (s.dropUpd sec).memsWf = true :=
  foldl_memsWf (f := fun st c => st.modCore c fun k => { k with upd := k.upd.filter fun e => sectorOf e.pa != sec })
    (fun _ c hs => State.setCore_memsWf_same hs c rfl) h _

/-- The OR of a write-back keeps the form. -/
theorem State.orBit_memsWf {s : State} (h : s.memsWf = true) (sec : Nat) : (s.orBit sec).memsWf = true := by
  unfold State.orBit
  split
  · exact h
  · split
    · exact State.memsWf_of_same h rfl rfl rfl rfl rfl rfl rfl
    · exact State.devWrite_memsWf (State.recallRange_memsWf h _ _) _ _ _

theorem State.orsOut_memsWf {s : State} (h : s.memsWf = true) : s.orsOut.memsWf = true := by
  unfold State.orsOut
  split
  · exact h
  · exact foldl_memsWf (fun _ sec hs => State.orBit_memsWf hs sec) (State.memsWf_of_same (t := { s with wbOrs := [] }) h rfl rfl rfl rfl rfl rfl rfl) _

/-- A write-back keeps the form, with its OR. -/
theorem State.writeBackSec_memsWf {s : State} (h : s.memsWf = true) (sec : Nat) : (s.writeBackSec sec).memsWf = true :=
  State.orsOut_memsWf (State.writeBack1_memsWf h sec)

/-- What comes back from memory keeps the form. -/
theorem State.undo_memsWf {s : State} (h : s.memsWf = true) (sec : Nat) (d : Dram) : (s.undo sec d).memsWf = true := by
  obtain ⟨h1, h2, h3, h4, h5, h6, h7⟩ := (State.memsWf_iff s).mp h
  unfold State.undo
  split
  · exact (State.memsWf_iff _).mpr ⟨memWrite_wf h1 _ _, h2, h3, h4, h5, h6, h7⟩
  · exact (State.memsWf_iff _).mpr ⟨h1, memWrite_wf h2 _ _, h3, h4, h5, h6, h7⟩
  all_goals exact h

/-- A write that waited keeps the form when it performs. -/
theorem State.latePut_memsWf {s : State} (h : s.memsWf = true) (l : Late) : (s.latePut l).memsWf = true := by
  have h1 := State.poke_memsWf (State.recallRange_memsWf h l.st.pa l.st.bytes.length) l.st.pa l.st.inter l.st.bytes
  unfold State.latePut
  split
  · split
    · exact State.memsWf_of_same h rfl rfl rfl rfl rfl rfl rfl
    · exact h
  · split
    · exact State.strongPut_memsWf h _ _ _ _ _ _
    · simp only
      split
      · exact State.notify_memsWf h1 _
      · exact h1

/-- A write of the device keeps the form, whether it performs or waits. -/
theorem State.lateWrite_memsWf {s : State} (h : s.memsWf = true) (l : Late) : (s.lateWrite l).memsWf = true := by
  unfold State.lateWrite
  split
  · exact State.memsWf_of_same h rfl rfl rfl rfl rfl rfl rfl
  · exact State.latePut_memsWf h l

/-- Writes that perform after an unlock keep the form. -/
theorem State.flushLate_memsWf {s : State} (h : s.memsWf = true) : s.flushLate.memsWf = true := by
  unfold State.flushLate
  refine foldl_memsWf ?_ (State.memsWf_of_same (t := { s with late := [] }) h rfl rfl rfl rfl rfl rfl rfl) _
  intro st l hs
  split
  · exact State.memsWf_of_same hs rfl rfl rfl rfl rfl rfl rfl
  · exact State.latePut_memsWf hs l

/-- A write of a record keeps the form. -/
theorem State.recWrite_memsWf {s : State} (h : s.memsWf = true) (pa off : Nat) (bs : List Byte) : (s.recWrite pa off bs).memsWf = true :=
  State.lateWrite_memsWf h _

/-- A discarded sector keeps the form. -/
theorem State.discardSec_memsWf {s : State} (h : s.memsWf = true) (sec : Nat) : (s.discardSec sec).memsWf = true := by
  have h0 := State.snoop_memsWf (State.dropUpd_memsWf h sec) sec
  have h1 : ({ (s.dropUpd sec).snoop sec with
      hostHeld := ((s.dropUpd sec).snoop sec).hostHeld.filter fun h => h / 2 != sec } : State).memsWf = true :=
    State.memsWf_of_same h0 rfl rfl rfl rfl rfl rfl rfl
  unfold State.discardSec
  simp only
  split
  · next d _ =>
    have h2 := State.undo_memsWf h1 sec d
    exact State.memsWf_of_same h2 rfl rfl rfl rfl rfl rfl rfl
  · exact State.memsWf_of_same h0 rfl rfl rfl rfl rfl rfl rfl

/-- The module at reset is in form. -/
theorem State.reset_memsWf : State.reset.memsWf = true := rfl

end Sys2Proof.Machine
end

