-- ==== Sys2Proof/Laws/Ops.lean ====
section
/-! SUPPORT. What the named operations of a slot can do: registers, the guard, and the end of an instruction. -/

namespace Sys2Proof.Machine

/-! ### Registers -/

theorem Slot.setXr_zero (sl : Slot) (v : Word) : sl.setXr 0 v = sl := rfl

theorem Slot.xr_zero (sl : Slot) : sl.xr 0 = 0 := rfl

theorem Slot.setXr_pos (sl : Slot) {d : Reg} (h : d ≠ 0) (v : Word) : sl.setXr d v = { sl with x := sl.x.set d.toNat v d.isLt } := if_neg h

theorem Slot.xr_setXr (sl : Slot) (d r : Reg) (v : Word) : (sl.setXr d v).xr r = if r = d ∧ d ≠ 0 then v else sl.xr r := by
  by_cases hd : d = 0
  · rw [if_neg (fun h => h.2 hd), hd]
    rfl
  · rw [Slot.setXr_pos sl hd]
    by_cases h : r = d
    · rw [if_pos ⟨h, hd⟩, h, Slot.xr, if_neg hd]
      exact Vector.getElem_set_self d.isLt
    · rw [if_neg (fun e => h e.1)]
      have h2 : d.toNat ≠ r.toNat := fun e => h (BitVec.eq_of_toNat_eq e.symm)
      unfold Slot.xr
      split
      · rfl
      · exact Vector.getElem_set_ne d.isLt r.isLt h2

/-- Every field but x of a slot whose scalar register is written. -/
theorem Slot.setXr_frame (sl : Slot) (d : Reg) (v : Word) : sl.setXr d v = { sl with x := (sl.setXr d v).x } := by
  unfold Slot.setXr
  split <;> rfl

@[simp] theorem State.setX_eq (s : State) (d : Reg) (v : Word) : s.setX d v = s.setSlot s.cur (s.me.setXr d v) := rfl

@[simp] theorem State.advance_eq (s : State) : s.advance = s.setSlot s.cur { s.me with pc := s.me.npc } := rfl

/-! ### The end of an instruction -/

theorem guarded_acts {s : State} (h : s.acts) (e : Eff) : guarded s e = finish e := by
  simp [guarded, State.packetRule, h.1, h.2]

theorem guarded_skips {s : State} (h : s.me.packet = none) (g : s.me.guard = false) (e : Eff) : guarded s e = .next s.advance := by
  simp [guarded, State.packetRule, h, g, finish]

theorem always_acts {s : State} (h : s.me.packet = none) (e : Eff) : always s e = finish e := by
  simp [always, State.packetRule, h]

theorem firmwareOnly_acts {s : State} (h : s.acts) (f : s.isFw s.cur = true) (e : Eff) : firmwareOnly s e = finish e := by
  simp [firmwareOnly, State.packetRule, h.1, h.2, f]

theorem firmwareOnly_user {s : State} (f : s.isFw s.cur = false) (e : Eff) : firmwareOnly s e = .next (s.takeTrap s.cur Cause.privilege 0 0) := by
  simp [firmwareOnly, f, finish]

@[simp] theorem finish_next (s : State) : finish (.next s) = .next s.advance := rfl
@[simp] theorem finish_jump (s : State) (a : Addr) : finish (.jump s a) = .next (s.setSlot s.cur { s.me with pc := a, xfer := true }) := rfl
@[simp] theorem finish_hold (s : State) : finish (.hold s) = .next (s.setSlot s.cur { s.me with held := true }) := rfl
@[simp] theorem finish_left (s : State) : finish (.left s) = .next s := rfl
@[simp] theorem finish_trap (s : State) (cause : Nat) (addr : Word) (path : Nat) : finish (.trap s cause addr path) = .next (s.takeTrap s.cur cause addr path) := rfl
@[simp] theorem finish_xfault (s : State) (f : XFault) (addr : Word) : finish (.xfault s f addr) = .next (s.takeXFault s.cur f addr) := rfl

/-- Every end of an instruction is a next state. -/
theorem finish_isNext (e : Eff) : ∃ t, finish e = .next t := by
  cases e <;> exact ⟨_, rfl⟩

/-- A guarded instruction in full: the packet rule, then the guard, then its effect. -/
theorem guarded_cases (s : State) (e : Eff) :
    (s.me.packet.isSome = true ∧ guarded s e = .next (s.takeTrap s.cur Cause.illegal 0 0)) ∨
    (s.me.packet = none ∧ s.me.guard = false ∧ guarded s e = .next s.advance) ∨ (s.acts ∧ guarded s e = finish e) := by
  cases hp : s.me.packet with
  | some p => exact .inl ⟨rfl, by simp [guarded, State.packetRule, hp]⟩
  | none =>
    cases hg : s.me.guard with
    | false => exact .inr (.inl ⟨rfl, rfl, guarded_skips hp hg e⟩)
    | true => exact .inr (.inr ⟨⟨hg, hp⟩, guarded_acts ⟨hg, hp⟩ e⟩)

/-- A predicate instruction in full. -/
theorem always_cases (s : State) (e : Eff) :
    (s.me.packet.isSome = true ∧ always s e = .next (s.takeTrap s.cur Cause.illegal 0 0)) ∨ (s.me.packet = none ∧ always s e = finish e) := by
  cases hp : s.me.packet with
  | some p => exact .inl ⟨rfl, by simp [always, State.packetRule, hp]⟩
  | none => exact .inr ⟨rfl, always_acts hp e⟩

/-! ### Taking a trap -/

/-- A slot that runs no task: the whole of its trap entry. -/
theorem State.trapEntry_idle (s : State) (slot cause : Nat) (addr : Word) (path : Nat) (h : (s.slot slot).task = none) :
    s.trapEntry slot cause addr path = ((s.modSlot slot fun q => { q with
      faultCause := BitVec.ofNat 64 (cause + at_ path 12), faultAddr := addr, faultPc := q.pc
      packet := none, wait := none, held := false, stall := [], xfer := false, stop := none }).modSlot slot fun q => { q with st := .stopped }, none) := by
  unfold State.trapEntry
  simp [State.modSlot, h]

/-! ### Stores that wait -/

/-- A slot with nothing in its buffer has nothing to perform. -/
theorem State.drainAll_empty {s : State} {slot : Nat} (h : (s.slot slot).sbuf = []) : s.drainAll slot = some s := by
  simp [State.drainAll, h, State.drainGo]

/-- A release of such a slot only marks what it has stored. -/
theorem State.drain_empty {s : State} {slot : Nat} (h : (s.slot slot).sbuf = []) : s.drain slot = some (s.released slot) := by
  simp [State.drain, State.drainAll_empty h]

/-- While no home knows of a core-path store, a release and an acquire change nothing. -/
theorem State.released_of_none {s : State} (slot : Nat) (h : s.strong = []) : s.released slot = s := by
  obtain ⟨⟩ := s
  cases h
  rfl

theorem State.acquired_of_none {s : State} (slot : Nat) (h : s.strong = []) : s.acquired slot = s := by
  obtain ⟨⟩ := s
  cases h
  rfl

/-- An access that meets no unordered access of another size reads what stands there. -/
theorem State.strongRead_unmixed {s : State} {p n base : Nat} (bs : List Byte) (h : s.unmixed s.cur p n = true) : s.strongRead p n base bs = (bs, s) := by
  simp [State.strongRead, h]

end Sys2Proof.Machine
end

