-- ==== Sys2Proof/Tests/Slice0.lean ====
section
/-! SUPPORT. Tests: words of the specification's encodings, ill-formed terms, single steps, and for every statement states that meet its hypotheses. -/

open Sys2Proof Sys2Proof.Machine

namespace Sys2Proof.Tests

set_option Elab.async false

/-! ### Small states -/

/-- A translation of the first gigabyte of context 0 to the addresses themselves: readable, writable, executable, with future tags. -/
def onePage : TlbEntry := ⟨0, 0, 2 ^ 30, 0x6F, 2⟩

/-- A core whose program may use 32 KiB of TCM, with that translation. -/
def core0 : Core := { Core.reset with utop := 128, hamper := 8, dtlb := [onePage], itlb := [onePage] }

/-- The module with a user slot, slot 0 of core 0, at its turn. -/
def user (sl : Slot) : State := { State.reset with boot := .up, slots := [(0, { sl with st := .run })], cores := [(0, core0)] }

/-- The module with the first firmware slot at its turn. -/
def firmware (sl : Slot) : State :=
  { State.reset with boot := .up, cur := 512, slots := [(512, { sl with st := .run })], cores := [(128, core0)] }

/-- The two slots as reset leaves them. -/
def u0 : State := user Slot.reset
/-- The firmware slot as reset leaves it. -/
def f0 : State := firmware Slot.reset

/-- A slot with values in x5, x6 and x7. -/
def regs (a b c : Word) : Slot := { Slot.reset with x := ((Slot.reset.x.set 5 a).set 6 b).set 7 c }

/-- A slot with entries on its predicate stack. -/
def preds (depth : BitVec 5) (vals : BitVec 16) : Slot := { Slot.reset with prDepth := depth, prVals := vals }

/-- A result whose value and state meet a check. -/
def okAnd {α : Type} (r : Got α) (p : α → State → Bool) : Bool :=
  match r with
  | .ok a s => p a s
  | .no _ => false

/-- An outcome that is a next state which meets a check. -/
def nextAnd (r : Out) (p : State → Bool) : Bool :=
  match r with
  | .next t => p t
  | .fault _ | .refused _ => false

/-- A value that meets a check. -/
def isOk {ε α : Type} (r : Except ε α) (p : α → Bool) : Bool :=
  match r with
  | .ok a => p a
  | .error _ => false
/-! ### States that meet the hypotheses of each statement -/

theorem witness_IntegerResults : u0.acts ∧ f0.acts := by decide +kernel

theorem witness_UnaryAndImmediateResults : u0.acts ∧ (15 : Reg).toNat < 16 ∧ (0 : Nat) < 64 := by decide +kernel

theorem witness_ScalarWriteFrame : (31 : Reg) ≠ 0 ∧ (1 : Reg) ≠ 31 := by decide +kernel

theorem witness_PredicateStack :
    (u0.me.packet = none ∧ u0.me.prDepth.toNat < 16) ∧ (user (preds 15 0x7FFF)).me.prDepth.toNat < 16 ∧
    (16 ≤ (user (preds 16 0xFFFF)).me.prDepth.toNat ∧ (user (preds 16 0xFFFF)).me.packet = none) ∧
    (user (preds 16 0xFFFF)).me.prDepth.toNat ≤ 16 ∧ 2 ≤ (user (preds 2 1)).me.prDepth.toNat ∧ 1 ≤ (user (preds 1 1)).me.prDepth.toNat ∧
    (user (preds 1 1)).me.prDepth.toNat < 2 ∧ u0.me.prDepth.toNat = 0 ∧ (4 : BitVec 11) < 5 := by decide +kernel

theorem witness_BranchTargets : (user (regs 1 1 0)).acts := by decide +kernel

theorem witness_JumpsLink :
    (user (regs 0x400 0 0)).acts ∧ (((user (regs 0x400 0 0)).x 5 + 2).setWidth 48 : Addr).getLsbD 0 = false ∧
    (((user (regs 0x400 0 0)).x 5 + 3).setWidth 48 : Addr).getLsbD 0 = true := by decide +kernel

/-- A slot with two regions open: the inner returns to 0x842, the outer to 0x302; x1 names a target. -/
def regions (x1 : Word) : State :=
  user { Slot.reset with
    x := Slot.reset.x.set 1 x1, hampers := [(0, ⟨.opened, 1, [], [], []⟩), (1, ⟨.opened, 1, [], [], []⟩)], stack := [⟨1, 0x842⟩, ⟨0, 0x302⟩] }

theorem witness_RegionsOpenAndClose :
    (u0.acts ∧ u0.me.stack.length < 8 ∧ u0.me.hampers.length < 16 ∧ u0.me.freeIndex = some 0) ∧
    (let s := user { Slot.reset with stack := List.replicate 8 ⟨0, 0⟩ }
     s.acts ∧ 8 ≤ s.me.stack.length) ∧
    (let s := user { Slot.reset with hampers := (List.range 16).map fun i => (i, ⟨.closed, 1, [], [], []⟩) }
     s.acts ∧ 16 ≤ s.me.hampers.length ∧ s.me.stack = []) ∧
    ((regions 0x843).acts ∧ (((regions 0x843).x 1).setWidth 48 : Addr).getLsbD 0 = true) ∧
    ((((u0.x 1).setWidth 48 : Addr).getLsbD 0 = false) ∧ u0.me.stack = []) ∧
    ((((regions 0x842).x 1).setWidth 48 : Addr) = 0x842 ∧ (regions 0x842).me.hampers.find 1 = some ⟨.opened, 1, [], [], []⟩) ∧
    ((((regions 0x302).x 1).setWidth 48 : Addr) ≠ 0x842 ∧ ∃ q ∈ [(⟨0, 0x302⟩ : Region)], q.ret = ((regions 0x302).x 1).setWidth 48) ∧
    ((((regions 0x900).x 1).setWidth 48 : Addr) ≠ 0x842 ∧ ∀ q ∈ [(⟨0, 0x302⟩ : Region)], q.ret ≠ ((regions 0x900).x 1).setWidth 48) ∧
    (regions 0x900).me.stack = [⟨1, 0x842⟩, ⟨0, 0x302⟩] := by decide +kernel

theorem witness_FloatResults : (user (regs 0x3F80 0x3F80 0x3B80)).acts := by decide +kernel

theorem witness_RoundKeepsRepresentable :
    (∀ f ∈ [fmtF32, fmtBf16, fmtF16, fmtE4m3, fmtE5m2], 2 ^ f.width - 1 < 2 ^ f.width ∧ f.value 0 ≠ .nan) ∧ (2 : Nat) ^ 16 - 1 < 2 ^ 16 ∧
    fmtE4m3.value 0x7E ≠ .nan ∧ fmtF16.value 0x7C00 ≠ .nan := by decide +kernel

theorem witness_ConvertAndCompare :
    u0.acts ∧ (user (preds 15 0x7FFF)).acts ∧ (user (preds 15 0x7FFF)).me.prDepth.toNat < 16 := by decide +kernel

theorem witness_SpecialRegisterReads :
    u0.acts ∧ u0.isFw u0.cur = false ∧ (∀ n ∈ [0x00, 0x0C, 0x10, 0x14, 0x18, 0x24, 0x30, 0x36, 0x80, 0x91, 0xA0, 0xAF, 0xB0, 0xBD, 0xC0, 0xCF],
      (u0.srValue n).isSome = true) ∧
    ∀ n ∈ [0x0D, 0x0F, 0x15, 0x17, 0x25, 0x2F, 0x37, 0x7F, 0x92, 0x9F, 0xBE, 0xBF, 0xD0, 2 ^ 34 - 1], u0.srValue n = none := by decide +kernel

theorem witness_SpecialRegisterWrites :
    u0.acts ∧ u0.srValue 0x0D = none ∧ (u0.srValue 0x80 ≠ none ∧ srFw 0x80 = true ∧ u0.isFw u0.cur = false) ∧
    (let s := { f0 with groves := [(16, { Grove.reset with wallLock := true, wallBits := 0 })] }
     s.acts ∧ s.isFw s.cur = true ∧ (∀ n ∈ [0x89, 0xC0, 0xCF], s.srValue n ≠ none ∧ s.walled n = true) ∧
     s.srValue 0x8F ≠ none ∧ s.walled 0x8F = false ∧ s.myGrove.wallLock = true ∧ s.myGrove.wallBits.getLsbD 1 = false) ∧
    (∀ n ∈ [0x09, 0x22, 0x23, 0x24, 0x36, 0x80, 0x81, 0x82, 0x83, 0x84, 0x86, 0x88, 0x89, 0x8C, 0x8D, 0x91],
      f0.acts ∧ f0.srValue n ≠ none ∧ f0.isFw f0.cur = true ∧ f0.walled n = false ∧ f0.me.collecting = false ∧ f0.me.classCT = false ∧ f0.allOut) ∧
    f0.myCore.ctxCmd.getLsbD 31 = false ∧ f0.myCore.grpLaunch.getLsbD 63 = false ∧ f0.myCore.slCmd.getLsbD 63 = false ∧ f0.gqCtl.getLsbD 63 = false ∧
    (let q := { Slot.reset with task := some 1, cls := 2, taskH := some ⟨.opened, 0, [], [], []⟩ }
     let s := { f0 with slots := [(512, q)] }
     s.acts ∧ s.me.collecting = true ∧ s.me.classCT = true ∧ s.walled 0x91 = false ∧ s.srValue 0x91 ≠ none) := by decide +kernel

/-- A firmware slot whose grove's wall is open, with the threshold lock set or clear. -/
def fwWith (lock : Bool) (table : BitVec 16) : State := { f0 with gsLock := lock, pwTable := table }

theorem witness_RegisterWriteEffects :
    (u0.acts ∧ u0.me.task = none) ∧
    (let g : Group := { groupOf 0 0 0 [] with w := 1, h := 1, nchan := 8, st := .running, chans := List.replicate 8 ⟨0, [], [], true, false, []⟩ }
     let s := { user { Slot.reset with task := some 1, grp := 1 } with groups := [(1, g)] }
     s.acts ∧ s.me.task ≠ none ∧ s.groups.find s.me.grp = some g) ∧
    (f0.acts ∧ f0.isFw f0.cur = true ∧ f0.myGrove.wallLock = false) ∧
    (∀ lock, (fwWith lock 2400).acts ∧ (fwWith lock 2400).isFw 512 = true ∧ (fwWith lock 2400).gsLock = lock) ∧
    ((2400#64).toNat % 2 ^ 16 ≤ (fwWith false 2400).pwTable.toNat ∧ (fwWith false 2400).pwTable.toNat < (2401#64).toNat % 2 ^ 16) ∧
    (25 ≤ ((25#64).extractLsb' 0 5).toNat ∧ ((24#64).extractLsb' 0 5).toNat < 25) ∧
    (∀ i, i < 4 → ((0x0180#64).extractLsb' (16 * i) 16).extractLsb' 0 4 = 0#4) ∧
    ((0x0180#64).extractLsb' 0 16).extractLsb' 4 4 = 8#4 ∧ ((0x0101#64).extractLsb' 0 16).extractLsb' 0 4 ≠ 0#4 := by decide +kernel

theorem witness_FirmwareRegistersPrivileged : u0.acts ∧ u0.isFw u0.cur = false := by decide +kernel
/-- A vector slot: the shape's code, vl, and x5 to x7. -/
def vecs (shape : BitVec 6) (vl : BitVec 8) (a b c : Word) : Slot := { regs a b c with vshape := shape, vl := vl }

/-- 32 elements of 32 bits, the least group; 20 of them active, the rest tail. -/
def v32 : State := user (vecs 0x02 20 0x100 256 0)
/-- 128 elements of 8 bits in one register, the most that a shape has. -/
def v8 : State := user (vecs 0x00 128 0x100 256 0)
/-- 128 elements of 64 bits in eight registers. -/
def v64 : State := user (vecs 0x0F 128 0x100 8 0)

theorem witness_VectorLength : u0.acts ∧ v64.acts := by decide +kernel

theorem witness_VectorIntegerElements :
    (∀ s ∈ [v32, v8, v64], s.acts ∧ s.me.wf = true ∧ 0 < s.me.vl.toNat) ∧
    (let m : VMod := ⟨2, 1, false, false⟩
     m.ty.toNat < 8 ∧ m.sat = false ∧ vtyBits m.ty.toNat = v32.me.sh.sew ∧ v32.me.sh.bad3 31 30 30 v32.me.sh.sew m.scalar = false) ∧
    (let m : VMod := ⟨7, 0, false, true⟩
     m.ty.toNat < 8 ∧ vtyBits m.ty.toNat = v64.me.sh.sew ∧ v64.me.sh.bad3 24 16 5 v64.me.sh.sew m.scalar = false) ∧
    (let m : VMod := ⟨0, 0, false, false⟩
     vtyBits m.ty.toNat = v8.me.sh.sew ∧ v8.me.sh.bad3 1 1 1 v8.me.sh.sew m.scalar = false) := by decide +kernel

theorem witness_VectorFormsCompleteOrTrap :
    (v32.acts ∧ v32.me.wf = true) ∧ (v8.acts ∧ v8.me.wf = true) ∧ (v64.acts ∧ v64.me.wf = true) ∧
    (vtyBits 2 == 32 && !v32.me.sh.bad3 1 2 3 32 false) = true ∧ (vtyBits 3 == 32) = false ∧
    (vtyBits 8 == 32 && !v32.me.sh.bad3 1 2 3 32 false) = true ∧ (vtyBits 2 == 64 && !v64.me.sh.bad3 1 2 3 64 false) = false ∧
    (v32.me.sh.aligned 2 64 && v32.me.sh.aligned 4 32 && !v32.me.sh.clash 2 64 4 32) = true ∧ v32.me.sh.aligned 3 64 = false ∧
    (v32.me.sh.aligned 4 32 && v32.me.sh.aligned 2 64 && !v32.me.sh.clash 4 32 2 64) = true ∧
    (v32.me.sh.aligned 4 (vtyBits 9) && v32.me.sh.aligned 6 (vtyBits 2) && !v32.me.sh.clash 4 (vtyBits 9) 6 (vtyBits 2)) = true ∧
    (v32.me.sh.aligned 4 32 = true ∧ meets 3 1 4 (v32.me.sh.regs 32) = false ∧ 0 < v32.me.vl.toNat) := by decide +kernel

theorem witness_VectorBlocksComplete :
    ∀ vl ∈ [0, 32], let s := user (vecs 0x02 vl 0 0 0)
      s.acts ∧ s.me.wf = true ∧ s.me.sh.sew = 32 ∧ s.me.vl.toNat % 32 = 0 ∧
      ∀ bt ∈ [BlockTy.bx4, .bx6, .bx8], let g := s.me.sh.blockRegs (blockMant bt)
        4 % g = 0 ∧ 8 % s.me.sh.regs 32 = 0 ∧ meets 4 g 8 (s.me.sh.regs 32) = false ∧ meets 4 (s.me.sh.regs 32) 8 g = false ∧ 8 % g = 0 := by
  decide +kernel

theorem witness_VectorMaskResults :
    v32.acts ∧ v32.me.wf = true ∧ (1 : KReg) ≠ 0 ∧ (7 : KReg) ≠ 0 ∧ 0 < v32.me.vl.toNat ∧
    (let m : VMod := ⟨2, 0, false, false⟩
     m.ty.toNat < 8 ∧ vtyBits m.ty.toNat = v32.me.sh.sew ∧ m.sat = false ∧ v32.me.sh.aligned 2 v32.me.sh.sew = true ∧
     v32.me.sh.aligned 31 v32.me.sh.sew = true) := by decide +kernel

theorem witness_VectorPermuteResults :
    (∀ scalar, let m : VMod := ⟨2, 1, false, scalar⟩
      v32.acts ∧ v32.me.wf = true ∧ vtyBits m.ty.toNat = v32.me.sh.sew ∧ m.sat = false ∧ 0 < v32.me.vl.toNat ∧ m.scalar = scalar ∧
      v32.me.sh.bad3 1 2 3 v32.me.sh.sew m.scalar = false) ∧
    (let h := v32.me.sh
     h.aligned 1 h.sew = true ∧ h.aligned 2 h.sew = true ∧ h.touch 1 h.sew 2 h.sew = false ∧ h.aligned 3 h.sew = true ∧
     h.touch 1 h.sew 3 h.sew = false ∧ h.clash 1 h.sew 1 h.sew = false) := by decide +kernel

theorem witness_VectorTcmAccess :
    (let m : VMMod := ⟨2, 0, false, .tcm⟩
     v32.acts ∧ v32.me.wf = true ∧ m.space = .tcm ∧ m.sk = false ∧ 8 * 2 ^ m.width.toNat = v32.me.sh.sew ∧
     v32.me.sh.aligned 1 v32.me.sh.sew = true ∧ 0 < v32.me.vl.toNat ∧ v32.me.sh.aligned 2 v32.me.sh.sew = true ∧
     v32.me.sh.clash 1 v32.me.sh.sew 2 v32.me.sh.sew = false) ∧
    (∀ e, e < 20 → ∀ a ∈ [0x100 + e * 4, 0x100 + e * 256, 0x100 + e * 260], (BitVec.ofNat 64 a).toNat % 4 = 0 ∧
      (BitVec.ofNat 64 a).toNat + 4 ≤ v32.myCore.utop.toNat * 256 ∧ v32.tcmPoison 0 a 4 = false) ∧
    (∀ e, e < 20 → ∀ f, f < 20 → 0x100 + BitVec.ofNat 64 (e * 4) = 0x100 + BitVec.ofNat 64 (f * 4) → e = f) := by decide +kernel

/-- What a run of loads comes to, as numbers: how many elements it read, and the element that stops it. -/
def loadsOf (s : State) (m : VMMod) (w : Nat) (a : Nat → Word) (l : List Nat) : Nat × Option (Nat × Bool) :=
  match vloads s m w a l [] with
  | (res, _, none) => (res.length, none)
  | (res, _, some (e, eff)) => (res.length, some (e, eff.isTrap))

theorem witness_VectorMemoryAnySpace :
    (let m : VMMod := ⟨2, 0, false, .glob⟩
     v32.acts ∧ 8 * 2 ^ m.width.toNat = v32.me.sh.sew ∧ v32.me.sh.aligned 1 v32.me.sh.sew = true ∧
     loadsOf v32 m 32 (fun e => BitVec.ofNat 64 (0x1000 + e * 4)) (v32.me.sh.active (v32.me.kr 0)) = (20, none) ∧
     loadsOf v32 m 32 (fun e => BitVec.ofNat 64 (0x1002 + e * 4)) (v32.me.sh.active (v32.me.kr 0)) = (0, some (0, true)) ∧
     okAnd (vstores v32 m 32 (fun e => BitVec.ofNat 64 (0x1000 + e * 4)) (fun _ => 1) (v32.me.sh.active (v32.me.kr 0))) (fun _ _ => true) = true ∧
     okAnd (vstores v32 m 32 (fun e => BitVec.ofNat 64 (0x1002 + e * 4)) (fun _ => 1) (v32.me.sh.active (v32.me.kr 0))) (fun _ _ => true) = false ∧
     (vchecks v32 m 32 (fun e => BitVec.ofNat 64 (0x1000 + e * 4)) (fun _ => 1) (v32.me.sh.active (v32.me.kr 0))).isNone = true ∧
     (vchecks v32 m 32 (fun e => BitVec.ofNat 64 (0x1002 + e * 4)) (fun _ => 1) (v32.me.sh.active (v32.me.kr 0))).isSome = true ∧
     v32.me.sh.aligned 2 v32.me.sh.sew = true ∧ v32.me.sh.clash 1 v32.me.sh.sew 2 v32.me.sh.sew = false) := by decide +kernel

theorem witness_FirstFaultLoadShortens :
    v32.acts ∧ v32.me.wf = true ∧
    (let s := v32
     match vloads s ⟨2, 0, false, .glob⟩ 32 (fun e => BitVec.ofNat 64 (0x3FFFFFF0 + e * 4)) (s.me.sh.active (s.me.kr 0)) [] with
      | (res, _, some (e, .xfault f a b)) => res.length == 4 && e == 4 && (Eff.xfault f a b).isTrap
      | _ => false) = true ∧
    loadsOf v32 ⟨2, 0, false, .tcm⟩ 32 (fun e => BitVec.ofNat 64 (0x7FF0 + e * 4)) (v32.me.sh.active (v32.me.kr 0)) = (4, some (4, true)) := by
  decide +kernel
/-- A circular-buffer descriptor in TCM. -/
def cbDesc (base size slots prod cons : Nat) : List Byte :=
  bytesOf 4 base ++ bytesOf 4 size ++ bytesOf 4 slots ++ [1, 0, 0, 0] ++ bytesOf 4 prod ++ bytesOf 4 cons

/-- A core with two buffers: handle 1 at offset 0, handle 2 at offset 128, each with one filled slot. -/
def bufCore (f : Fmt) : Core :=
  { core0 with
    utop := 255, fmt := f, cbs := [(1, ⟨false, 0⟩), (2, ⟨false, 128⟩)]
    tcm := memWrite (memWrite [] 0 (cbDesc 0x4000 12288 2 1 0)) 128 (cbDesc 0xA000 8192 2 1 0) }

/-- A user slot on that core, with x5 to x7. -/
def bufs (f : Fmt) (a b c : Word) : State := { user (regs a b c) with cores := [(0, bufCore f)] }

theorem witness_CircularBufferOps :
    (let s := bufs ⟨1, 1, 0, false, 256, 0⟩ (2 ^ 62) 128 0
     s.acts ∧ s.myCore.handleBusy 3 = false ∧ (s.x 5).toNat = 2 ^ 62 ∧
     (s.x 6).toNat / 2 ^ 20 % 2 ^ 43 = 0 ∧ (s.x 6).toNat % 2 ^ 20 % 128 = 0 ∧ (s.x 6).toNat % 2 ^ 20 + 128 ≤ s.localEnd 0 false ∧
     s.localPoison 0 false 128 128 = false ∧ s.cbValid 0 (s.cbAt 0 false 128) = true ∧ s.cbValid 0 (s.cbAt 0 false 256) = false ∧
     (∃ q, s.cbOf 0 1 = some q ∧ s.localPoison 0 q.scr q.off 24 = false ∧ s.allOut ∧ s.myCore.mma = none ∧ 0 < 1 ∧ 1 ≤ q.slots ∧
       1 ≤ q.free ∧ 1 ≤ q.filled ∧ 2 ≤ q.slots ∧ q.free < 2 ∧ q.filled < 2) ∧
     s.cbOf 0 3 = none) := by
  refine ⟨by decide +kernel, by decide +kernel, by decide +kernel, by decide +kernel, by decide +kernel, by decide +kernel, by decide +kernel,
    by decide +kernel, by decide +kernel, ⟨⟨false, 0, 0x4000, 12288, 2, 1, 1, 0⟩, by decide +kernel⟩, by decide +kernel⟩

theorem witness_MatrixContextAndZero :
    u0.acts ∧ u0.myCore.mma = none ∧ ((0xFFFF0F55#64).extractLsb' 32 32 = 0 ∧ (0xFFFF0F55#64).extractLsb' 12 4 = 0) ∧
    ((2#64 ^ 32).extractLsb' 32 32 ≠ 0 ∨ (0x1000#64).extractLsb' 12 4 ≠ 0) := by decide +kernel

/-- The state of a matrix issue in a mode: both formats BF16, the latent buffer 32 columns wide. -/
def mxState (a : Word) : State := { bufs ⟨1, 1, 0, false, 256, 0⟩ a 0 0 with groves := [(0, { Grove.reset with latDc := 32 })] }

theorem witness_MatrixIssue :
    ∀ mode, mode < 4 →
      let s := mxState 0x200
      let f := s.myCore.fmt
      s.acts ∧ f.refuses mode 1 = false ∧ s.myCore.mma = none ∧ s.myGrove.gated = false ∧
      s.cbPoison 0 1 = none ∧ s.cbPoison 0 2 = none ∧ (∃ q, s.cbOf 0 1 = some q ∧ f.bSize mode 32 ≤ q.slotSize ∧ 0 < q.filled ∧ s.localPoison 0 q.scr (q.base + q.cons % q.slots * q.slotSize) (f.bSize mode 32) = false) ∧
      (mode = 1 → s.myCore.ringOut = none ∧ (s.ringAt s.myGrp 0).1 = 0) ∧ (2 ≤ mode → s.myGrove.latDc ≠ 0 ∧ s.myGrove.poisonLat = false) ∧
      ((s.x 5).toNat % 8 = 0 ∧ f.astride.toNat % 8 = 0 ∧ (s.x 5).toNat + 31 * f.astride.toNat + f.aBytes mode ≤ s.myCore.utop.toNat * 256 ∧
        ∀ r, r < 32 → s.tcmPoison 0 (0x200 + r * 256) (f.aBytes mode) = false) ∧
      ((2 : Reg).setWidth 4 ≠ (1 : HReg) ∧ ∃ z, s.cbOf 0 2 = some z ∧ 32 * f.aBytes mode ≤ z.slotSize ∧ 0 < z.filled ∧
        s.localPoison 0 z.scr (z.base + z.cons % z.slots * z.slotSize) (32 * f.aBytes mode) = false) ∧
      ({ s with groves := [(0, { Grove.reset with latDc := 32, gated := true })] }).myGrove.gated = true := by
  intro mode h
  have hb : (mxState 0x200).cbOf 0 1 = some ⟨false, 0, 0x4000, 12288, 2, 1, 1, 0⟩ := by decide +kernel
  have ha : (mxState 0x200).cbOf 0 2 = some ⟨false, 128, 0xA000, 8192, 2, 1, 1, 0⟩ := by decide +kernel
  refine ⟨by decide +kernel, ?_, by decide +kernel, by decide +kernel, by decide +kernel, by decide +kernel, ⟨_, hb, ?_⟩, ?_, ?_, ?_, ⟨by decide, ⟨_, ha, ?_⟩⟩, by decide +kernel⟩
  all_goals revert mode; decide +kernel

/-- A core with an integer mma in flight. -/
def mmaState (mode : BitVec 2) (f : Fmt) (out : Option RingOp) : State :=
  { bufs f 0 0 0 with cores := [(0, { bufCore f with
    ringOut := out, mma := some ⟨0, 0, none, mode, none, some 1, false, 0x200, 256, false, 0x4000, false, 0⟩ })] }

theorem witness_IntegerMatrixProduct :
    ∀ mode ∈ [0, 1], let s := mmaState mode ⟨5, 6, 0, false, 256, 0⟩ none
      (s.core 0).mma = some ⟨0, 0, none, mode, none, some 1, false, 0x200, 256, false, 0x4000, false, 0⟩ ∧ mode.toNat < 2 ∧
      isIntFmt (s.core 0).fmt.afmt.toNat = true ∧ isIntFmt (s.core 0).fmt.bfmt.toNat = true ∧ (s.core 0).fmt.sat = false ∧
      s.served 0 = 0 ∧ ({ s with cores := s.cores ++ [(5, s.core 0)], groves := [(0, { Grove.reset with serving := some 5 })] }).served 0 ≠ 0 := by decide +kernel

theorem witness_MatrixEvents :
    (∀ mode ∈ [2, 3], (mmaState mode ⟨1, 1, 0, false, 256, 2⟩ none).served 0 = 0 ∧ (mmaState mode ⟨1, 1, 0, false, 256, 2⟩ none).core 0 ≠ Core.reset ∧
      ((mmaState mode ⟨1, 1, 0, false, 256, 2⟩ none).core 0).mma.isSome = true ∧ 2 ≤ mode.toNat) ∧
    (let s := mmaState 0 ⟨5, 6, 0, false, 256, 0⟩ (some ⟨1, none, []⟩)
     (s.core 0).ringOut = some ⟨1, none, []⟩ ∧ s.eastCore 1 0 = none) ∧
    (let g : Group := { groupOf 0 0 0 [] with w := 2, h := 1, st := .running }
     let s := { mmaState 0 ⟨5, 6, 0, false, 256, 0⟩ (some ⟨1, none, []⟩) with groups := [(1, g)] }
     s.eastCore 1 0 = some 8 ∧ (s.core 8).ringIn = none) ∧
    (∀ q ∈ u0.cores, groveOfCore q.1 = 0 → q.2.mma = none) := by decide +kernel

theorem witness_LatentLoads :
    (let s := user (regs 0x80 32 512)
     s.acts ∧ (s.x 5).toNat % 128 = 0 ∧ s.latentBusy = false ∧ (s.x 5).toNat + 128 * 512 ≤ 2 ^ 20 ∧ s.scrPoison 0 0x80 (128 * 512) = false ∧
     (∀ dc ∈ [0, 32, 512], dc = 0 ∨ 32 ≤ dc ∧ dc ≤ 512 ∧ dc % 32 = 0)) ∧
    ((user (regs (2 ^ 20 - 128) 0 0)).x 5).toNat + 128 ≤ 2 ^ 20 ∧ (user (regs 0x81 0 0)).acts ∧ ((user (regs 0x81 0 0)).x 5).toNat % 128 ≠ 0 := by
  decide +kernel

theorem witness_MatrixDrain :
    let s := bufs ⟨5, 6, 4, false, 256, 0⟩ 256 0x1000 0
    (s.acts ∧ s.myCore.mma = none ∧ s.myCore.fmt.rm.toNat ≤ 4 ∧ drainFmtOk 8 = true ∧ s.myCore.fmt.isInt = decide (5 ≤ (8 : BitVec 4).toNat) ∧
      (s.x 6 + 0).toNat % drainSize 8 = 0 ∧ (s.x 5).toNat % drainSize 8 = 0 ∧ drainSize 8 = 4 ∧ 256 ≤ (s.x 5).toNat ∧
      (∀ i, i < 32 → (s.x 6 + 0 + BitVec.ofNat 64 i * s.x 5 + BitVec.ofNat 64 (0 * 4)).toNat + 64 * 4 ≤ s.localEnd 0 false) ∧
      (s.x 6 + 0).toNat + 31 * (s.x 5).toNat + 256 < 2 ^ 64) ∧
    (∀ i, i < 32 → (s.x 6 + 0 + BitVec.ofNat 64 i * s.x 5 + BitVec.ofNat 64 (32 * 1)).toNat + 32 * 1 ≤ s.localEnd 0 true) ∧
    drainFmtOk 5 = true ∧ s.myCore.fmt.isInt = decide (5 ≤ (5 : BitVec 4).toNat) ∧ drainSize 5 = 1 := by decide +kernel

/-- 48 descriptor bytes of a copy of n bytes between two places of TCM, one row, with or without a status word. -/
def copyDesc (src dst n : Nat) (status : Bool) : List Byte :=
  bytesOf 8 src ++ bytesOf 8 dst ++ bytesOf 4 n ++ bytesOf 4 1 ++ bytesOf 4 0 ++ bytesOf 4 0 ++ bytesOf 8 0 ++
  bytesOf 2 (if status then 0x400 else 0) ++ [0, if status then 0x85 else 0x05] ++ bytesOf 4 0

/-- A gather or scatter of 2 elements of 8 bytes in TCM, the index list at 0x300. -/
def gatherDesc : List Byte :=
  bytesOf 8 0x1000 ++ bytesOf 8 0x2000 ++ bytesOf 4 2 ++ bytesOf 4 8 ++ bytesOf 4 0 ++ bytesOf 4 4 ++ bytesOf 8 0x300 ++ bytesOf 2 0 ++ [0, 0x15] ++ bytesOf 4 0

/-- A user slot whose x5 names a descriptor in its TCM. -/
def engState (desc : List Byte) (copy gath : Engine) : State :=
  { user (regs 0x100 0 0) with cores := [(0, { core0 with tcm := memWrite [] 0x100 desc, copyEng := copy, gathEng := gath })] }

theorem witness_EngineIssue :
    (∀ kind, kind < 3 → let s := engState (if kind = 0 then copyDesc 0x1000 0x2000 128 true else gatherDesc) Engine.reset Engine.reset
      let d := engDesc (s.tcmRead 0 0x100 48)
      s.acts ∧ (s.x 5).toNat % 16 = 0 ∧ (s.x 5).toNat + 48 ≤ 32768 ∧ s.tcmPoison 0 0x100 48 = false ∧
      (d.hasStatus = true → d.status % 8 = 0 ∧ d.status + 8 ≤ 32768) ∧ d.illegal (kind == 0) = false ∧ d.localOut kind = false ∧
      (kind ≠ 0 → d.baseSkewed = false) ∧ s.cbBad 0 d kind = false ∧ Engine.reset.queue.length < 2 ∧ Engine.reset.back = [] ∧ d.dstGlobal = false ∧ s.me.collecting = false) ∧
    (let s := engState (copyDesc 0x1000 0x2000 128 false) { Engine.reset with fail := [⟨11, 0, 4, none, none⟩, ⟨10, 0x40, 0, none, none⟩] } Engine.reset
     s.acts ∧ s.myCore.copyEng.fail.find? s.mineToTrap = some ⟨10, 0x40, 0, none, none⟩ ∧ s.cur = 0 ∧ s.me.task = none) := by
  refine ⟨?_, by decide +kernel⟩
  intro kind h
  revert kind
  decide +kernel

/-- A copy command of that core. -/
def cmdOf (src n : Nat) (sp : Byte) : EngCmd := ⟨0, 0, none, 0, 0, (copyDesc src 0x2000 n false).set 43 sp, 0x100, 0, none, none, []⟩

/-- How a running copy comes to an end. -/
def outOf (s : State) : Nat :=
  match s.engRunOut 0 false with
  | (_, some none) => 1
  | (_, some (some (.fail c _ _))) => 100 + c
  | (_, some (some (.fault _))) => 2
  | (_, some (some .wait)) => 3
  | (_, none) => 4

theorem witness_EngineProgress :
    (let s := engState [] { Engine.reset with queue := [cmdOf 0x1000 128 0x05] } Engine.reset
     s.myCore.copyEng.queue = [cmdOf 0x1000 128 0x05] ∧ s.myCore.copyEng.run = none ∧ s.myCore.copyEng.fail = [] ∧ s.myCore.copyEng.fsrc.awaiting = none ∧
     s.myCore.copyEng.back = [] ∧ (s.grove 0).fenced = false ∧ s.hasIssuer (cmdOf 0x1000 128 0x05) = true ∧ s.cbReady 0 (engDesc (cmdOf 0x1000 128 0x05).desc) = true) ∧
    outOf (engState [] { Engine.reset with run := some (cmdOf 0x1000 128 0x05) } Engine.reset) = 1 ∧
    outOf (engState [] { Engine.reset with run := some (cmdOf (2 ^ 48) 128 0x04) } Engine.reset) = 100 + Cause.translation ∧
    outOf (engState [] { Engine.reset with run := some (cmdOf (2 ^ 40) 128 0x04) } Engine.reset) = 2 := by decide +kernel

theorem witness_LocalCopyMovesBytes :
    let s := engState [] { Engine.reset with run := some (cmdOf 0x1000 128 0x05) } Engine.reset
    let d := engDesc (cmdOf 0x1000 128 0x05).desc
    (s.core 0).copyEng.run = some (cmdOf 0x1000 128 0x05) ∧ (s.core 0).copyEng.fsrc.awaiting = none ∧ d.srcSpace = 1 ∧ d.dstSpace = 1 ∧
    d.cbMode = 0 ∧ d.hasStatus = false ∧ d.rows = 1 ∧ d.n = 128 ∧ d.src % 128 + d.n ≤ 128 ∧ d.dst % 128 + d.n ≤ 128 ∧ d.dst + d.n ≤ 2 ^ 16 ∧
    d.src + d.n ≤ 2 ^ 16 ∧ s.tcmPoison 0 d.src d.n = false := by decide +kernel
theorem witness_AddressChecks :
    u0.acts ∧ u0.allOut ∧ 2 ^ 48 ≤ ((user (regs 0 (2 ^ 48) 0)).x 6).toNat ∧ 2 ^ 32 ≤ ((user (regs 0 (2 ^ 32) 0)).x 6).toNat ∧
    ((user (regs 0 0x101 0)).x 6).toNat % 2 ≠ 0 ∧
    (let s := user (regs 0 0x7FFC 0)
     (s.x 6).toNat % 4 = 0 ∧ s.myCore.utop.toNat * 256 < (s.x 6).toNat + 8 ∧ (s.x 6).toNat < 2 ^ 31 ∧ s.me.task = none) ∧
    2 ^ 20 < ((user (regs 0 (2 ^ 20 - 4) 0)).x 6).toNat + 8 ∧
    (let s := { user (regs 0 0x12F8 0) with cores := [(0, { core0 with skewEn := true, skewBase := 0x10, skewRows := 2 })] }
     s.myCore.skewEn = true ∧ s.myCore.skewBase.toNat * 256 ≤ (s.x 6).toNat ∧
     (s.x 6).toNat + 8 ≤ s.myCore.skewBase.toNat * 256 + (s.myCore.skewRows.toNat + 1) * 256 ∧
     ¬ (0x12FC + 8 ≤ s.myCore.skewBase.toNat * 256 + (s.myCore.skewRows.toNat + 1) * 256)) := by decide +kernel

theorem witness_LocalAccess :
    (let s := user (regs 1 0x7FF8 3)
     s.acts ∧ s.allOut ∧ s.place .tcm false (s.x 6 + 0) 8 8 = .tcm 0x7FF8 ∧ s.tcmPoison 0 0x7FF8 8 = false ∧ s.me.collecting = false) ∧
    (let s := { user (regs 1 0x100 3) with groves := [(0, { Grove.reset with poisonTcm := [(0, 32)] })] }
     s.place .tcm false (s.x 6 + 0) 8 8 = .tcm 0x100 ∧ s.tcmPoison 0 0x100 8 = true) ∧
    (let s := user (regs 1 (2 ^ 20 - 8) 3)
     s.place .scr false (s.x 6 + 0) 8 8 = .scr (2 ^ 20 - 8) ∧ s.scrPoison 0 (2 ^ 20 - 8) 8 = false) := by decide +kernel

/-- A user slot in collecting mode: one open hamper. -/
def collecting (sl : Slot) : State := user { sl with hampers := [(0, ⟨.opened, 1, [], [], []⟩)], stack := [⟨0, 0x302⟩] }

theorem witness_GlobalAccess :
    (let s := user (regs 1 0x1000 3)
     s.acts ∧ (s.x 6 + 0).toNat < 2 ^ 48 ∧ (s.x 6 + 0).toNat % 8 = 0 ∧ s.allOut ∧ s.me.collecting = false ∧
     okAnd (s.xlate .load .plain (s.x 6 + 0) 8 true (s.x 6 + 0)) (fun q t => q.1 == 0x1000 && decide (t.openAt q.1 8) && decide t.direct && t.me.sbuf.isEmpty) = true ∧
     okAnd (s.xlate .store .plain (s.x 6 + 0) 8 true (s.x 6 + 0)) (fun q t => decide (t.openAt q.1 8) && t.me.sbuf.isEmpty && !t.me.collecting) = true ∧
     okAnd (s.xlate .atomic .plain (s.x 6) 8 true (s.x 6)) (fun q t => decide (t.quietAt q.1 8) && !t.me.collecting && decide (t.myCore.upd.length < 512)) = true) ∧
    (let s := user { regs 1 0x1000 3 with sbuf := [⟨0x1000, false, [1, 2, 3, 4, 5, 6, 7, 8], false⟩] }
     okAnd (s.xlate .load .plain (s.x 6 + 0) 8 true (s.x 6 + 0)) (fun q t => decide (t.openAt q.1 8) && decide t.direct &&
       decide (t.me.sbuf = [⟨0x1000, q.2, [1, 2, 3, 4, 5, 6, 7, 8], false⟩])) = true) ∧
    (let s := collecting (regs 1 0x1000 3)
     s.me.collecting = true ∧
     okAnd (s.xlate .store .plain (s.x 6 + 0) 8 true (s.x 6 + 0)) (fun _ t => t.me.collecting && (t.hamperPut [storeEntry 0 0x1000 (bytesOf 8 1)]).isSome) = true ∧
     okAnd (s.xlate .atomic .plain (s.x 6) 4 true (s.x 6)) (fun _ t => t.me.collecting && (t.hamperPut [⟨1, 0, 0x1000, 1, [], 0, none, 0⟩]).isSome) = true) ∧
    (let full : Hamper := ⟨.opened, 1, [], [], []⟩
     let s := { user { regs 1 0x1000 3 with hampers := [(0, full)], stack := [⟨0, 0x302⟩] } with cores := [(0, { core0 with hamper := 0 })] }
     okAnd (s.xlate .store .plain (s.x 6 + 0) 8 true (s.x 6 + 0)) (fun _ t => t.me.collecting && (t.hamperPut [storeEntry 0 0x1000 (bytesOf 8 1)]).isNone) = true) := by
  decide +kernel

/-- A user slot at a future, with a life for its loads and a list of deferrals. -/
def futures (life : BitVec 32) (full : Bool) (ds : List Defer) : State :=
  { user { regs 1 0x1000 3 with futLife := life } with tags := if full then [0x1000] else [], deferrals := ds }

/-- The checks that the future forms share. -/
def futureAt (s : State) (p : State → Nat → Bool → Bool) : Bool :=
  okAnd (s.xlate .load .future (s.x 6 + 0) 8 true (s.x 6 + 0)) fun q t =>
    decide t.direct && decide (t.quietAt q.1 8) && q.1 == 0x1000 && p t q.1 q.2

theorem witness_FutureResults :
    (futures 1 true []).acts ∧ (futures 1 true []).me.collecting = false ∧
    futureAt (futures 1 true []) (fun t p _ => t.isFull p) = true ∧
    futureAt (futures 0 false []) (fun t p _ => !t.isFull p && t.me.futLife == 0) = true ∧
    futureAt (futures 1 false []) (fun t p i => !t.isFull p && t.me.futLife != 0 && decide (t.deferCount (t.home p i) < 256)) = true ∧
    futureAt (futures 1 false (List.replicate 256 ⟨4, (futures 1 false []).home 0x1000 false, 0x2000, false, 1, 9⟩))
      (fun t p i => !t.isFull p && t.me.futLife != 0 && decide (256 ≤ t.deferCount (t.home p i))) = true ∧
    okAnd ((futures 1 false []).xlate .store .future (0x1000 + 0) 8 true (0x1000 + 0)) (fun q t =>
      !t.me.collecting && decide t.allOut && decide (t.openAt q.1 8) && t.gatesList.all (fun g => g.1 != q.1) && t.deferrals.all (fun d => d.pa != q.1)) = true ∧
    okAnd ((futures 1 false [⟨4, 0, 0x1000, true, 1, 9⟩]).xlate .store .future (0x1000 + 0) 8 true (0x1000 + 0)) (fun q t =>
      decide (t.deferrals = [⟨4, 0, 0x1000, true, 1, 9⟩]) && q.1 == 0x1000 && t.cur != 4) = true ∧
    (let s := { futures 1 false [⟨0, 0, 0x1000, true, 1, 9⟩] with tick := 9 }
     s.deferrals = [⟨0, 0, 0x1000, true, 1, 9⟩] ∧ 9 ≤ s.tick.toNat) ∧
    (let s := { futures 1 false [⟨0, 0, 0x1000, true, 1, 9⟩] with slots := [(0, { Slot.reset with stop := some .preempt })] }
     (s.slot 0).stop.isSome = true) := by decide +kernel

/-- A sector of memory that is dirty over the bytes kept for it. -/
def dirtyAt : PMap Dram := [(0x1000 / 128, ⟨List.replicate 128 7, false, false⟩)]

theorem witness_OrderingInstructions :
    u0.me.packet = none ∧ u0.acts ∧ (4 : BitVec 3).toNat ≤ 4 ∧ 5 ≤ (5 : BitVec 3).toNat ∧ (u0.drain u0.cur).isSome = true ∧
    (let s := { user { Slot.reset with sbuf := [⟨0x1000, true, [1], false⟩] } with commits := [⟨1, [], [], [], [0x1000 / 128], false, []⟩] }
     s.acts ∧ (s.drain s.cur).isNone = true) ∧
    ((0 : BitVec 4) ≠ 6 ∧ (6 : BitVec 4).toNat ≤ 6 ∧ (∀ f ∈ u0.myCore.copyEng.fail ++ u0.myCore.gathEng.fail, f.slot ≠ u0.cur) ∧ u0.myCore.mma = none) ∧
    (let s := { u0 with ctxs := [(0, { Ctx.reset with perm := 8 })] }
     (s.ctxOf s.me.ctx).perm.getLsbD 3 = true) ∧
    (let s := user (regs 0x1000 0 0)
     s.acts ∧ s.me.collecting = false ∧ (s.x 5).toNat + (s.x 6).toNat ≤ 2 ^ 48 ∧ s.x 6 = 0) ∧
    (∀ n ∈ [1, 128, 300], let s := { user (regs 0x1000 (BitVec.ofNat 64 n) 0) with dirty := dirtyAt }
      let k := min (s.x 6).toNat (128 - (s.x 5).toNat % 128)
      s.x 6 ≠ 0 ∧
      okAnd (s.xlate .load .plain (s.x 5) k false (s.x 5)) (fun q t => decide (t.openAt q.1 k) && t.pgDirty == 0 && State.same (t.drainSecs t.cur [q.1 / 128]) t) = true ∧
      okAnd (s.xlate .store .plain (s.x 5) k false (s.x 5)) (fun q t => decide (t.openAt q.1 k) && State.same (t.drainSecs t.cur [q.1 / 128]) t &&
        decide (t.dirty.find (q.1 / 128) = some ⟨List.replicate 128 7, false, false⟩)) = true) ∧
    (let s := user (regs 0x1000 8 0)
     okAnd (s.xlate .store .plain (s.x 5) 8 false (s.x 5)) (fun q t => decide (t.dirty.find (q.1 / 128) = none) && decide (t.openAt q.1 8)) = true) := by decide +kernel
/-- A user slot with two conditions at 0x100 of its TCM: a word that differs from 0, one that differs from 5. -/
def waits (sl : Slot) : State :=
  { user sl with cores := [(0, { core0 with tcm := memWrite (memWrite [] 0x100 (bytesOf 8 0x1000 ++ bytesOf 8 0)) 0x110 (bytesOf 8 0x1008 ++ bytesOf 8 5) })] }

/-- The conditions as wait reads them. -/
def condsOf (s : State) (a n : Nat) : List Cond := (List.range n).map fun i => condOf (s.tcmRead (coreOf s.cur) (a + 16 * i) 16)

theorem witness_WaitOutcomes :
    (let s := waits (regs 0 0x100 0)
     s.acts ∧ (s.x 6 + 0).toNat % 16 = 0 ∧ (s.x 6 + 0).toNat + 16 * (1 + 1) ≤ s.myCore.utop.toNat * 256 ∧ s.tcmPoison 0 0x100 32 = false ∧
     (∀ k ∈ condsOf s 0x100 2, k.bad = false ∧ k.skewed = false) ∧
     okAnd (s.condsXlate (condsOf s 0x100 2)) (fun cs t => cs.all fun k => k.kind != 2 && (k.kind != 4 || t.chanMember t.cur k.par.toNat)) = true) ∧
    (waits (regs 0 0x108 0)).acts ∧ ((waits (regs 0 0x108 0)).x 6 + 0).toNat % 16 ≠ 0 ∧
    ((waits (regs 0 0x7FF0 0)).x 6 + 0).toNat % 16 = 0 ∧
    (waits (regs 0 0x7FF0 0)).myCore.utop.toNat * 256 < ((waits (regs 0 0x7FF0 0)).x 6 + 0).toNat + 16 * (1 + 1) ∧
    (let s := u0
     let hold : Cond := ⟨0, 0, 0x1000, 0x1000, false, false, 5, false, false, false, false⟩
     let miss : Cond := ⟨0, 0, 0x1008, 0x1008, false, false, 0, false, false, false, false⟩
     let w := fun (cs : List Cond) (d : Nat) => (⟨.waitI, cs, true, 5, 0, d, 4⟩ : Wait)
     (∀ c ∈ [hold, miss], c.kind ≠ 3) ∧ s.commits = [] ∧ s.guest.held = [] ∧ (∀ q ∈ s.cores, q.2.upd = []) ∧
     State.same (s.drainSecs s.cur (nub (([hold, miss].filter Cond.inTable).map fun c => sectorOf c.pa))) s = true ∧
     (s.evalWait s.cur s.me.grp (fun _ => true) (w [hold] 9)).verdict = some 0 ∧ (s.evalWait s.cur s.me.grp (fun _ => true) (w [hold, miss] 0)).verdict = none ∧
     (w [hold, miss] 0).deadline ≤ (w [hold, miss] 0).start ∧ (w [hold, miss] 1).start < (w [hold, miss] 1).deadline) := by decide +kernel

/-- Memory with a barrier at 0x1000: count, arrived, generation, flags. -/
def barrier (count arrived gen : Nat) (flags : Byte) : Mem := memWrite [] 0x1000 (bytesOf 4 count ++ bytesOf 4 arrived ++ bytesOf 4 gen ++ [flags])

/-- A user slot that names the barrier and a generation. -/
def atBarrier (count arrived gen : Nat) (flags : Byte) : State := { user (regs 0 0x1000 2) with mem := barrier count arrived gen flags }

/-- A group of one grove whose cores 0 and 1 belong to channel 0. -/
def aGroup (ch : Chan) : Group := { groupOf 0x5000 0x5000 128 [] with
  w := 1, h := 1, nchan := 1, n0 := 1, n1 := 1, cmask := 3, st := .running, live := 2, seq := 2, chans := [ch], routeOk := true, loaded := true }

/-- A task of that group, its record at 0x2000. -/
def aTask (st : TaskSt) (cls : BitVec 2) : Task :=
  ⟨0, 0x2000, 0x2000, 1, cls, st, 0, 1, false, [], none, none, 0, none, 0, true, false, false, 0, 0, none, none⟩

/-- A user slot that runs the task. -/
def tasked (sl : Slot) (ch : Chan) : State :=
  { user { sl with task := some 1, grp := 1 } with groups := [(1, aGroup ch)], tasks := [(1, aTask .running 0)] }

theorem witness_BarriersAndChannels :
    (let s := atBarrier 3 2 1 0
     s.acts ∧ (0 : BitVec 27) = 0 ∧ 65535 < (65536 : BitVec 27).toNat ∧ (65535 : BitVec 27).toNat ≤ 65535 ∧ (s.x 6).toNat < 2 ^ 48 ∧ (s.x 6).toNat % 64 = 0 ∧
     okAnd (s.xlate .atomic .plain (s.x 6) 64 true (s.x 6)) (fun q t => !t.me.collecting && decide t.allOut && decide (t.quietAt q.1 64) &&
       natOf (memRead t.mem q.1 4) == 3 && natOf (memRead t.mem (q.1 + 12) 1) == 0 && (t.barEnter (t.home q.1 q.2) q.1).isSome) = true ∧
     okAnd (s.xlate .load .plain (s.x 6) 64 true (s.x 6)) (fun q t => t.me.task.isNone && t.commits.isEmpty && decide (t.quietAt q.1 64) &&
       State.same (t.drainSecs t.cur [q.1 / 128]) t && natOf (memRead t.mem (q.1 + 8) 4) != (t.x 7).toNat) = true) ∧
    (let s := atBarrier 3 2 2 0
     okAnd (s.xlate .load .plain (s.x 6) 64 true (s.x 6)) (fun q t => natOf (memRead t.mem (q.1 + 8) 4) == (t.x 7).toNat) = true) ∧
    (∀ b ∈ [barrier 3 2 1 0, barrier 0 0 0 0, barrier 3 0 0 2], let s := { tasked (regs 0 0x1000 2) ⟨0, [], [], false, false, []⟩ with mem := b }
     s.acts ∧ okAnd (s.xlate .load .plain (s.x 6) 64 true (s.x 6)) (fun q t => t.me.task.isSome && t.commits.isEmpty && decide (t.quietAt q.1 64) &&
       State.same (t.drainSecs t.cur [q.1 / 128]) t &&
       (natOf (memRead t.mem q.1 4) == 0 || natOf (memRead t.mem (q.1 + 12) 1) / 2 % 2 == 1 || (t.barEnter (t.home q.1 q.2) q.1).isSome)) = true) ∧
    (∀ s ∈ [atBarrier 0 0 0 0, atBarrier 3 0 0 2], okAnd (s.xlate .atomic .plain (s.x 6) 64 true (s.x 6)) (fun q t =>
      natOf (memRead t.mem q.1 4) == 0 || natOf (memRead t.mem (q.1 + 12) 1) / 2 % 2 == 1) = true) ∧
    (∀ ch ∈ [(⟨7, [], [], false, false, []⟩ : Chan), ⟨7, [1], [0], false, false, []⟩, ⟨7, [], [], false, true, []⟩], let s := tasked Slot.reset ch
      s.acts ∧ s.me.collecting = false ∧ s.allOut ∧ s.chanMember s.cur 0 = true ∧ s.groups.find s.me.grp = some (aGroup ch) ∧
      (aGroup ch).chans[0]? = some ch ∧ ch.arrived.contains (coreOf s.cur) = false ∧ (aGroup ch).members 0 = 2 ∧
      (ch.broken = true ∨ ch.arrived.length + 1 < 2 ∨ ch.arrived.length + 1 = 2 ∧ ch.next.length < 2)) := by decide +kernel

theorem witness_Messages :
    (let s := tasked (regs 0x4000 0x200 0) ⟨0, [], [], false, false, []⟩
     s.me.guard = true ∧ s.me.packet = none ∧ s.me.collecting = false ∧ isOk (s.msgDest (s.x 5)) (fun k => k == 4) = true ∧
     (s.x 6).toNat % 8 = 0 ∧ (s.x 6).toNat + 128 ≤ s.myCore.utop.toNat * 256 ∧ s.me.inbox = []) ∧
    (∀ n ∈ [0, 15, 16], let s := user { regs 1 2 3 with packet := some ⟨4, List.replicate n 9⟩ }
      s.me.guard = true ∧ s.me.packet = some ⟨4, List.replicate n 9⟩ ∧ s.allOut ∧ s.windowRoom 0 = true) ∧
    (let s := user { regs 1 0x204 3 with inbox := [15, 0] }
     (s.x 6).toNat % 8 ≠ 0 ∧ s.me.inbox = 15 :: [0] ∧ s.tcmPoison (coreOf s.cur) (s.myCore.inboxOff (slotNo s.cur) 15) 144 = false) ∧
    (let s := { user { regs 1 0x200 3 with inbox := [15] } with groves := [(0, { Grove.reset with poisonTcm := [(0, (u0.myCore.inboxOff 0 15 + 136) / 8)] })] }
     s.poisonWord (coreOf s.cur) false (s.myCore.inboxOff (slotNo s.cur) 15) 144 = some (u0.myCore.inboxOff 0 15 + 136)) := by decide +kernel

theorem witness_Messages_refused :
    ((collecting Slot.reset).me.guard = true ∧ (collecting Slot.reset).me.packet = none ∧ (collecting Slot.reset).me.collecting = true) ∧
    (∀ v ∈ [0x4000, 0x80000], let s := user (regs (BitVec.ofNat 64 v) 0x7F88 0)
      s.me.collecting = false ∧ (match s.msgDest (s.x 5) with
        | .error c => c == (if v = 0x4000 then Cause.permission else Cause.illegal)
        | .ok _ => false) = true ∧
      s.acts ∧ (s.x 6).toNat % 8 = 0 ∧ s.myCore.utop.toNat * 256 < (s.x 6).toNat + 128) ∧
    (∀ p ∈ [none, some ⟨4, [9]⟩], let s := user { preds 1 0 with packet := p }
      s.me.guard = false ∧ s.me.packet = p) ∧
    (∀ i ∈ [Instr.add 1 1 1, .msgOpen 5, .ecall], i.wf = true ∧ encode i ≠ [] ∧ (∀ r, i ≠ .msgPut r) ∧ i ≠ .msgEnd ∧
      (∀ x y z, i ≠ .pgPost x y z) ∧ ∀ x, i ≠ .pgReplay x) ∧
    (∀ i ∈ [Instr.pgPost 5 6 7, .pgReplay 5], i.wf = true ∧ encode i ≠ [] ∧ (∀ r, i ≠ .msgPut r) ∧ i ≠ .msgEnd) ∧
    (let sl := { Slot.reset with packet := some ⟨4, [9]⟩ }
     (user sl).me.packet = some ⟨4, [9]⟩ ∧ (user sl).isFw (user sl).cur = false ∧ (firmware sl).me.packet = some ⟨4, [9]⟩ ∧
     (firmware sl).isFw (firmware sl).cur = true) := by
  refine ⟨by decide +kernel, by decide +kernel, by decide +kernel, ?_, ?_, by decide +kernel⟩ <;>
  · intro i hi
    simp only [List.mem_cons, List.not_mem_nil, or_false] at hi
    rcases hi with rfl | rfl | rfl <;> refine ⟨by decide +kernel, by decide +kernel, ?_⟩ <;> simp

/-- Memory with a class D record at 0x3000 and a dependency counter at 0x3100. -/
def recMem (counter : Nat) : Mem := memWrite (memWrite [] 0x3000 (bytesOf 8 0x400)) 0x3100 (bytesOf 4 counter)

/-- A slot that names the record and the counter; queue 0 of context 0 is open. -/
def spawner (sl : Slot) (counter : Nat) : State := { user sl with mem := recMem counter, ctxs := [(0, { Ctx.reset with queues := [(true, 0)] })] }

/-- A slot whose task is of a class. -/
def ending (cls : BitVec 2) (h : Option Hamper) : State :=
  { user { Slot.reset with task := some 1, grp := 1, cls := cls, taskH := h } with
    groups := [(1, aGroup ⟨0, [], [], false, false, []⟩)], tasks := [(1, aTask .running cls)] }

/-- Page tables at 0x8000000 that map the first gigabyte as the helper translation does. -/
def tables (m : Mem) : Mem := memWrite (memWrite m 0x8000000 (bytesOf 8 0x8001001)) 0x8001000 (bytesOf 8 0x6F)

/-- A running context with these tables. -/
def aCtx : Ctx := { Ctx.reset with st := .running, ptroot := 0x8000000 }

/-- A slot whose task has spilled eight bytes, behind a home that has no translation. -/
def spilling (sl : Slot) : State :=
  { tasked { sl with x := sl.x.set 2 0x80000008 } ⟨0, [], [], false, false, []⟩ with
    mem := memWrite [] 0x2008 (bytesOf 8 0x9000), cores := [(0, { core0 with spill := 1 })] }

/-- The same slot with a home that is mapped, while a commit holds its sector or none does. -/
def spillHome (sl : Slot) (locked : Bool) : State :=
  { spilling sl with
    ctxs := [(0, aCtx)], mem := tables (memWrite [] 0x2008 (bytesOf 8 0x9000))
    commits := if locked then [⟨9, [], [], [], [0x9000 / 128], false, []⟩] else [] }

theorem witness_TaskInstructions :
    (let s := spawner (regs 0x3000 0x3100 0) 2
     s.acts ∧ okAnd (s.takeRecord (s.x 5)) (fun q t => !t.me.collecting && decide t.allOut && bits q.2 59 57 == 0 && t.windowRoom 0 &&
       okAnd (t.xlate .store .plain (s.x 6) 16 false (s.x 6)) (fun c u => !u.me.collecting && decide (u.quietAt c.1 16) && !u.locked q.1 64 &&
         State.same (u.drainSecs u.cur (sectorsOf c.1 16 ++ sectorsOf q.1 64)) u && natOf (memRead u.mem c.1 4) != 0)) = true) ∧
    (let s := { collecting (regs 0x3000 0x3100 0) with mem := recMem 2, ctxs := [(0, { Ctx.reset with queues := [(true, 0)] })] }
     s.acts ∧ okAnd (s.takeRecord (s.x 5)) (fun _ t => t.me.collecting && (t.hamperPut [⟨2, 0, 0x3000, 0, [], 0, none, 0⟩]).isSome &&
       okAnd (t.xlate .store .plain (s.x 6) 16 false (s.x 6)) (fun _ u => u.me.collecting && (u.hamperPut (depEntries 0x3100 0x3000)).isSome)) = true) ∧
    u0.me.task = none ∧ (tasked Slot.reset ⟨0, [], [], false, false, []⟩).me.task = some 1 ∧ (tasked Slot.reset ⟨0, [], [], false, false, []⟩).windowRoom 0 = true ∧
    (tasked Slot.reset ⟨0, [], [], false, false, []⟩).spillTrap 0 1 = none ∧ ((spilling Slot.reset).me.task = some 1 ∧ ((spilling Slot.reset).spillTrap 0 1).isSome = true) ∧
    (tasked Slot.reset ⟨0, [], [], false, false, []⟩).saveWaits 0 1 = false ∧ (spilling Slot.reset).saveWaits 0 1 = false ∧
    (∀ locked ∈ [true, false], let s := spillHome Slot.reset locked
      s.me.task = some 1 ∧ s.saveWaits 0 1 = locked ∧ (locked = false → s.spillTrap 0 1 = none)) ∧
    (regions 0).acts ∧ (regions 0).me.stack ≠ [] ∧ u0.me.stack = [] ∧ u0.allOut ∧
    (∀ cls ∈ [1, 2], let s := ending cls (some ⟨.opened, 0, [], [], []⟩)
      s.acts ∧ s.me.stack = [] ∧ s.allOut ∧ s.tasks.find 1 = some (aTask .running cls) ∧ s.me.cls = cls ∧
      uncaptured (⟨.opened, 0, [], [], []⟩ : Hamper).entries = false) ∧
    (let s := ending 0 none
     let s0 := s.planTouch ⟨s.cur, 0, 0⟩ (s.ownCounter (aTask .running 0)) []
     s.acts ∧ s.me.cls = 0 ∧ isOk (s0.commitPlan ⟨s0.cur, 0, 0⟩ (s0.ownCounter (aTask .running 0)) [])
       (fun q => !s0.blocked q.1 q.2 && !s0.underflow q.2 && !s0.recWaits noTask 0 q.2 q.1) = true) := by decide +kernel
/-- A translation of the second gigabyte: quilt pages. -/
def quiltPage : TlbEntry := ⟨0, 2 ^ 30, 2 ^ 30, 0x40000057, 2⟩

/-- A BF16 quilt of one row of two zeros, one LEAF rule: state and owner of its descriptor are given. The two CRC-32C values are of its version and its rule. -/
def quiltMem (drafting : Byte) (owner : Nat) : Mem :=
  let log := 0x40010000
  cells 0x40000000 (bytesOf 4 0x514C5431 ++ [0, 1, drafting, 0] ++ bytesOf 4 7 ++ bytesOf 4 1 ++ bytesOf 8 log ++ bytesOf 8 0 ++ bytesOf 8 owner ++
    bytesOf 8 log ++ bytesOf 8 0x10000 ++ bytesOf 8 0x3000 ++ bytesOf 8 0) ++
  cells log (bytesOf 4 1 ++ bytesOf 4 0 ++ [1] ++ zeros 7 ++ bytesOf 8 (log + 0x80) ++ bytesOf 8 1 ++ bytesOf 8 2 ++ bytesOf 8 1 ++ bytesOf 8 (log + 0x100)) ++
  cells (log + 124) (bytesOf 4 1381112879) ++ cells (log + 0x80) (bytesOf 8 (log + 0x1000)) ++
  cells (log + 0x100) (bytesOf 8 (log + 0x180) ++ bytesOf 8 1) ++ cells (log + 0x180) (bytesOf 8 0 ++ bytesOf 8 1) ++
  cells (log + 0x200) ([1, 1, 0, 0] ++ bytesOf 4 1 ++ bytesOf 8 2) ++
  cells (log + 0x200 + 124) (bytesOf 4 503569632) ++ cells (log + 0x1008) (bytesOf 8 (log + 0x201))

/-- A user slot with the quilt permission: handle 0 names the quilt; a request at 0x100 of TCM covers its row or rule 1. -/
def quiltState (sl : Slot) (req : List Byte) (drafting : Byte) (owner : Nat) : State :=
  { user { sl with qhandles := [(0, ⟨1, 7, 1, 0x40010000, 0x40000000⟩)], qgens := [(0, 1)] } with
    mem := quiltMem drafting owner, ctxs := [(0, { Ctx.reset with perm := 1 })], groves := [(0, { Grove.reset with latDc := 32, scratch := [(2, 1), (5, 0x20), (9, 0x40)] })]
    cores := [(0, { core0 with dtlb := [onePage, quiltPage], tcm := memWrite [] 0x100 req })] }

/-- A request: row 0, entries 0 to a last one, a rule, and a work area of 4 KiB. -/
def request (i1 rule : Nat) : List Byte :=
  bytesOf 4 0 ++ bytesOf 4 0 ++ bytesOf 4 i1 ++ bytesOf 4 rule ++ bytesOf 8 0 ++ bytesOf 4 0x1000 ++ bytesOf 4 0x1000 ++ bytesOf 8 0 ++ bytesOf 8 0

/-- A rule-engine operation that completes. -/
def ruleOk {α : Type} (s : State) (m : RuleM α) : Bool :=
  match m.run (QCtx.start s s.cur s.me.ctx) with
  | (.ok _, _) => true
  | (.error _, _) => false

/-- The handle of that slot. -/
def theHandle : QHandle := ⟨1, 7, 1, 0x40010000, 0x40000000⟩

theorem witness_QuiltReads_without_permission : u0.acts ∧ u0.quiltOk = false := by decide +kernel

set_option maxRecDepth 100000 in
theorem witness_QuiltReads_open :
    let s := quiltState (regs 0x200 0x40000000 0) (request 1 1) 0 0
    s.acts ∧ s.quiltOk = true ∧ s.myGrove.fsrcRule.awaiting = none ∧ (List.range 4).find? (fun i => (s.me.qhandles.find i).isNone) = some 1 ∧ ruleOk s (qOpen (s.x 6).toNat) = true ∧
    (user { regs 4 0 0 with qhandles := [(0, theHandle)] }).me.qhandle 4 = some (0, theHandle) ∧
    (let s := quiltState (regs 4 0 0) (request 1 1) 0 0
     s.acts ∧ s.me.qhandle (s.x 5) = some (0, theHandle) ∧ s.myGrove.fsrcRule.awaiting = none ∧
     (match (qPlace .atomic .quilt theHandle.ver.toNat 128).run (QCtx.start s s.cur s.me.ctx) with
       | (.ok p, q) => decide (q.s.openAt p.1 128) && q.s.me.cls != 2 && q.slot == q.s.cur
       | (.error _, _) => false) = true) := by decide +kernel

set_option maxRecDepth 100000 in
theorem witness_QuiltReads_records :
    let s := quiltState (regs 0x200 4 1) (request 1 1) 0 0
    s.acts ∧ s.quiltOk = true ∧ s.me.qhandle (s.x 6) = some (0, theHandle) ∧ (s.x 5).toNat % 8 = 0 ∧ s.areaOut false (s.x 5).toNat 128 = false ∧
    (s.x 7).toNat < 2 ^ 32 ∧ ruleOk s (do
      let w ← qView theHandle
      let r ← qRule w 1
      qRead .quilt r.addr r.addr 128) = true ∧ ruleOk s (qGet theHandle 1 1) = true ∧
    (s.areaOut true (s.x 5).toNat (8 + summSize 5) = false ∧ (5 : Nat) ≤ 5 ∧ (s.x 7).toNat < 2 ^ 48 ∧ ruleOk s (qSeek theHandle 5 1) = true) ∧
    (let v := (user (regs 0 0 (2 ^ 32))).x 7
     0 < v.toNat / 2 ^ 32 ∧ v.toNat / 2 ^ 32 ≤ 65536 ∧ ruleOk s (do
       let w ← qView theHandle
       let sp ← qSpine w 0
       qSplitAt w sp (sp.2 + w.length)) = true) := by decide +kernel

set_option maxRecDepth 100000 in
theorem witness_QuiltReads_requests :
    (∀ rule ∈ [0, 1], let s := quiltState (regs 0x200 4 0x100) (request rule rule) 0 0
      let r := reqOf (s.tcmRead 0 0x100 48)
      (s.x 7).toNat % 8 = 0 ∧ s.areaOut false (s.x 7).toNat 48 = false ∧ s.tcmPoison 0 0x100 48 = false ∧ r.work + r.worksize ≤ 2 ^ 20 ∧
      r.illegal true 0 = false ∧ s.areaOut false (s.x 5).toNat 16 = false ∧ r.counter = 0 ∧ ruleOk s (qEval theHandle 0 r) = true) ∧
    (let s := quiltState (regs 0x200 4 0x100) (request 0 0) 0 0
     let r := reqOf (s.tcmRead 0 0x100 48)
     r.illegal false 0 = false ∧ s.areaOut true (s.x 5).toNat (summSize 0 + 8) = false ∧ ruleOk s (qFoldRow theHandle 0 r) = true ∧
     r.illegal false 6 = false ∧ s.areaOut true (s.x 5).toNat 0 = false) := by decide +kernel

set_option maxRecDepth 100000 in
theorem witness_QuiltReads_attention :
    ruleOk (quiltState (regs 0x8000 4 0x100) (request 0 0) 0 0) (qAttn theHandle (reqOf (request 0 0))) = true := by decide +kernel

set_option maxRecDepth 100000 in
theorem witness_QuiltWrites :
    (collecting Slot.reset).acts ∧ (collecting Slot.reset).me.collecting = true ∧
    (u0.me.collecting = false ∧ u0.me.classCT = false ∧ u0.quiltOk = false) ∧
    (let s := quiltState (regs 0x200 0x40000001 0x300) (request 1 1) 0 0
     s.quiltOk = true ∧ (s.x 6).toNat % 128 ≠ 0) ∧
    (let s := quiltState (regs 0x200 0x40000000 0x300) (request 1 1) 0 0
     s.quiltOk = true ∧ ruleOk s (qPub 0x40000000 true) = true ∧ ruleOk s (qDesc 0x40000000) = true) ∧
    (let s := quiltState (regs 0x200 0x40000000 0x300) (request 1 1) 1 5
     s.acts ∧ s.quiltOk = true ∧ s.me.collecting = false ∧ (s.x 6).toNat % 128 = 0 ∧ ruleOk s (qPub 0x40000000 true) = true ∧
     (s.x 7).toNat % 128 = 0 ∧ s.areaOut false (s.x 7).toNat 128 = false ∧ s.tcmPoison 0 0x300 128 = false ∧
     ruleOk s (qApp 0x40000000 0x300 (s.tcmRead 0 0x300 128)) = true ∧ ruleOk s (qPut 0x40000000 (s.tcmRead 0 0x300 32)) = true ∧
     ruleOk s (qDesc 0x40000000) = true) := by decide +kernel

theorem witness_HamperLists :
    (let e : HEntry := ⟨0, 8, 0x1000, 7, [], 0, none, 0⟩
     let a : Hamper := ⟨.closed, 1, [e], [.share 0], []⟩
     let b : Hamper := ⟨.closed, 2, [], [], []⟩
     let s := user { regs 16 33 0 with hampers := [(0, a), (1, b)] }
     s.acts ∧ s.me.handle (s.x 5) = some (0, a) ∧ s.me.handle (s.x 6) = some (1, b) ∧ (0 : Nat) ≠ 1 ∧ s.me.handle (s.x 7) = none ∧
     a.frames = [] ∧ (s.x 6).toNat % 8 ≠ 0 ∧ (s.x 5).toNat % 8 = 0 ∧ s.me.collecting = false ∧ uncaptured a.entries = false ∧ s.allOut ∧
     (let s0 := s.planTouch ⟨s.cur, s.me.ctx, 0⟩ 0 a.entries
      isOk (s0.commitPlan ⟨s.cur, s.me.ctx, 0⟩ 0 a.entries) (fun q => !s0.blocked q.1 q.2 && !s0.underflow q.2) = false) ∧
     s.readBack s.cur b = b ∧
     (let s0 := s.planTouch ⟨s.cur, s.me.ctx, 0⟩ 0 b.entries
      isOk (s0.commitPlan ⟨s.cur, s.me.ctx, 0⟩ 0 b.entries) (fun q => !s0.blocked q.1 q.2 && !s0.sourceWaits noTask q.1 && !s0.pieceTrains q.1 q.2 &&
        !s0.underflow q.2 && !s0.recWaits noTask 0 q.2 q.1) = true)) ∧
    (let a : Hamper := ⟨.closed, 1, [⟨6, 0, 0x1000, 0, [], 0, some 0, 0⟩], [], []⟩
     let s := user { regs 16 33 0 with hampers := [(0, a)] }
     s.me.handle (s.x 5) = some (0, a) ∧ s.me.collecting = false ∧ uncaptured (s.readBack s.cur a).entries = true) ∧
    (let e : HEntry := ⟨0, 0xFF, 0x1000, 7, [], 0, none, 0⟩
     let a : Hamper := ⟨.closed, 1, [e], [.share 1], []⟩
     let s := ({ user { regs 16 0 (2 ^ 48) with hampers := [(0, a)] } with cores := [(0, { core0 with hamper := 4 })] }).hamperOut 0 a
     s.acts ∧ s.me.handle (s.x 5) = some (0, a) ∧ s.readBack s.cur a = a ∧ [UnitAt.share 1].Nodup ∧ a.bytes.length = 16 ∧
     s.tcmRead 0 (s.myCore.hamperOff 0 + 16) 16 = a.bytes ∧ (s.x 6).toNat ≤ e.ea.toNat ∧ e.ea.toNat < (s.x 7).toNat) ∧
    (let a : Hamper := ⟨.closed, 1, [], [], []⟩
     let s := user { regs 17 0 0 with hampers := [(0, ⟨.opened, 1, [], [], []⟩), (1, a)], stack := [⟨0, 0x302⟩] }
     s.me.collecting = true ∧ s.me.handle (s.x 5) = some (1, a) ∧ (s.appendAll a.entries).isSome = true) := by decide +kernel

theorem witness_PagingInstructions :
    (u0.acts ∧ u0.isFw u0.cur = false) ∧
    (let s := firmware (regs 63 0x1000 (2 ^ 48 - 0x1000))
     s.acts ∧ s.isFw s.cur = true ∧ (s.x 5).toNat < 64 ∧ (s.x 6).toNat + (s.x 7).toNat ≤ 2 ^ 48 ∧ 0 < (s.x 7).toNat ∧ s.allOut ∧
     s.cur ∉ s.guest.acked ∧ (∀ q ∈ s.guest.inval, q.1 ≠ some s.cur) ∧ s.guest.tlb = []) ∧
    ((firmware (regs 63 0x1000 0)).x 7).toNat = 0 ∧
    (∀ g ∈ [{ Guest.reset with acked := [512] }, { Guest.reset with inval := [(some 512, 9)] }, { Guest.reset with tlb := [⟨63, 0x2000, 0x1000, 0, 4⟩] }],
      let s := { firmware (regs 63 0x1000 0x2000) with guest := g }
      s.acts ∧ s.isFw s.cur = true ∧ (s.x 5).toNat < 64 ∧ (s.x 6).toNat + (s.x 7).toNat ≤ 2 ^ 48 ∧ 0 < (s.x 7).toNat ∧ s.allOut ∧ s.cur = 512 ∧
      (s.x 6).toNat = 0x1000 ∧ (s.x 7).toNat = 0x2000) ∧
    (512 ∈ { Guest.reset with acked := [512] }.acked ∧ 512 ∉ { Guest.reset with inval := [(some 512, 9)] }.acked ∧
      (∃ q ∈ { Guest.reset with inval := [(some 512, 9)] }.inval, q.1 = some 512) ∧
      (let g := { Guest.reset with tlb := [⟨63, 0x2000, 0x1000, 0, 4⟩] }
       512 ∉ g.acked ∧ g.inval = [] ∧
       ∃ e ∈ g.tlb, e.ctx = 63 ∧ e.va < (0x1000 + 0x2000 + 4095) / 4096 * 4096 ∧ 0x1000 / 4096 * 4096 < e.va + e.size)) ∧
    (64 ≤ ((firmware (regs 64 0 0)).x 5).toNat ∨ 2 ^ 48 < ((firmware (regs 0 (2 ^ 48) 1)).x 6).toNat + 1) ∧
    2 ^ 48 < ((firmware (regs 0 (2 ^ 48) 1)).x 6).toNat + ((firmware (regs 0 (2 ^ 48) 1)).x 7).toNat ∧
    ((firmware (regs 0x1020 0 0)).x 5).toNat % 64 ≠ 0 ∧ ((firmware (regs 0x1040 0 0)).x 5).toNat % 64 = 0 ∧
    (firmware (regs 0x1040 0 0)).openAt 0x1040 64 := by decide +kernel

theorem witness_TrapEntry :
    u0.acts ∧ (u0.slot 0).task = none ∧ ((tasked Slot.reset ⟨0, [], [], false, false, []⟩).slot 0).task = some 1 ∧
    (tasked Slot.reset ⟨0, [], [], false, false, []⟩).tasks.find 1 = some (aTask .running 0) ∧
    (tasked Slot.reset ⟨0, [], [], false, false, []⟩).saveWaits 0 1 = false ∧
    (((spillHome Slot.reset true).slot 0).task = some 1 ∧ (spillHome Slot.reset true).tasks.find 1 = some (aTask .running 0) ∧ (spillHome Slot.reset true).saveWaits 0 1 = true) ∧
    (let s := { u0 with trRing := 2, trHead := 1022, trTail := 0 }
     (s.slot 0).sbuf = [] ∧ (s.slot 0).record = none ∧ s.notices = [] ∧ s.trRing ≠ 0 ∧ s.trHead + 1 ≠ s.trTail ∧ s.openAt (2 * 32768 + 1022 * 32) 32) := by decide +kernel

/-- A READY task of context 0, which runs, and its queue entry. -/
def readyEntry : QEntry := ⟨1, 5, 0, 0, 1, none, 0⟩

/-- The entry again in a stand's queue, a task of a later key, and one pinned elsewhere. -/
def queued : List QEntry := [⟨2, 9, 0, 0, 1, none, 0⟩, readyEntry, ⟨3, 1, 0, 0, 1, some 77, 0⟩]

/-- An idle slot 0 of a running group; queues are the stands 0 and 1, win is grove 0's window. -/
def standing (take : Option (List (Nat × Option Nat))) (q0 q1 : List QEntry) (win : List Enq) (refusals : Nat) (disp : Bool) : State :=
  { u0 with
    slots := [(0, { Slot.reset with take := take })], groups := [(1, aGroup ⟨0, [], [], false, false, []⟩)],
    tasks := [(1, { aTask .ready 0 with dispatched := disp })], ctxs := [(0, { Ctx.reset with st := .running })],
    stands := [(0, { Stand.reset with queue := q0 }), (1, { Stand.reset with queue := q1 })],
    groves := [(0, { Grove.reset with window := win, refusals := refusals })] }

theorem witness_QueueEvents_window :
    (∀ q ∈ [(List.replicate 1024 readyEntry, false), ([], true), (List.replicate 1024 readyEntry, true)], ∀ n ∈ [0, 3],
      let s := standing none q.1 [] [⟨.record 1 0, false⟩] n q.2
      (s.grove 0).window = [] ++ ⟨.record 1 0, false⟩ :: [] ∧ s.tasks.find 1 = some { aTask .ready 0 with dispatched := q.2 } ∧
      (s.grove 0).refusals = n ∧ (s.grove 0).resendAt ≤ s.tick.toNat ∧
      s.refuses 0 0 = decide (q.1 ≠ []) ∧ s.reentry { aTask .ready 0 with dispatched := q.2 } 0 = q.2) ∧
    ((standing none [] [] [⟨.record 1 0, true⟩] 0 true).grove 0).window = [⟨.record 1 0, true⟩] := by decide +kernel

theorem witness_QueueEvents_dispatch :
    (let s := standing none queued [] [] 0 false
     s.standOfSlot 0 = some 0 ∧ s.idleSlot 0 = true ∧ (s.slot 0).take = none ∧ s.choose 0 0 = some readyEntry ∧ s.canTake 0 1 = true ∧
     s.tasks.find 1 = some { aTask .ready 0 with dispatched := false } ∧ (aTask .ready 0).frame = none ∧ (aTask .ready 0).spilled = 0 ∧ (aTask .ready 0).result = none) ∧
    (let s := standing none [] [] [] 0 false
     s.standOfSlot 0 = some 0 ∧ s.idleSlot 0 = true ∧ (s.slot 0).take = none ∧ s.choose 0 0 = none ∧ (s.slot 0).probeAt ≤ s.tick.toNat) ∧
    (standing none queued [] [] 0 false).frameIntact 0 1 = true ∧
    (let s := { standing none queued [] [] 0 false with
       tasks := [(1, { aTask .ready 0 with spilled := 8 })], ctxs := [(0, aCtx)], mem := tables [], commits := [⟨9, [], [], [], [0x8001000 / 128], false, []⟩] }
     s.choose 0 0 = some readyEntry ∧ s.canTake 0 1 = false) ∧
    ({ standing none queued [] [] 0 false with
      tasks := [(1, { aTask .ready 0 with frame := some ⟨[1], 0, [], [], none, [], none, [], [], 0, none⟩ })] }.frameIntact 0 1 = false) := by decide +kernel

theorem witness_QueueEvents_take :
    (let s := standing (some []) [] queued [] 0 false
     s.standOfSlot 0 = some 0 ∧ 1 ∈ neighbours 0 ∧ (s.offer 0 1).map (·.task) = some 1) ∧
    (let s := standing (some [(8, none), (1, some 1)]) [] queued [] 0 false
     (∀ m ∈ neighbours 0, ∃ r ∈ [(8, (none : Option Nat)), (1, some 1)], r.1 = m) ∧ s.bestTake 0 [(8, none), (1, some 1)] = some (1, readyEntry) ∧ s.canTake 0 1 = true ∧
     (let s1 := s.setSlot 0 { s.slot 0 with take := none, probeAt := 1 }
      s1.idleSlot 0 = true ∧ s1.eligible 0 readyEntry = true)) ∧
    (standing (some [(8, none), (1, none)]) [] [] [] 0 false).bestTake 0 [(8, none), (1, none)] = none := by decide +kernel

/-- A COMMITTING task with an open list, its counter of a value, and the commits that have begun. -/
def committing (cls : BitVec 2) (counter : Nat) (commits : List Commit) (others : PMap Task) : State :=
  { u0 with
    slots := [], groups := [(1, aGroup ⟨0, [], [], false, false, []⟩)], commits := commits,
    tasks := [(1, { aTask .committing cls with hamper := some ⟨.opened, 0, depEntries 0x3100 0x3000, [], []⟩ })] ++ others,
    ctxs := [(0, aCtx)], mem := tables (memWrite (recMem counter) 0x3108 (bytesOf 8 0x3000)) }

/-- The task of that state. -/
def committer (cls : BitVec 2) : Task := { aTask .committing cls with hamper := some ⟨.opened, 0, depEntries 0x3100 0x3000, [], []⟩ }

theorem witness_CommitEvents :
    (∀ cls ∈ [1, 2], let s := committing cls 2 [] []
      s.tasks.find 1 = some (committer cls) ∧ (∀ c ∈ s.commits, c.task ≠ 1) ∧ s.atFrontier (committer cls) = true ∧
      (s.slot (committer cls).slot).sbuf = [] ∧ (s.slot (committer cls).slot).notice = none) ∧
    (let s := committing 2 2 [] [(2, { aTask .running 2 with seq := 0 })]
     s.tasks.find 1 = some (committer 2) ∧ s.atFrontier (committer 2) = false) ∧
    (∀ other ∈ [[], [⟨2, [], [], [], [0x2000 / 128], false, []⟩]], let s := committing 1 2 (⟨1, [], [], [0x2000 / 128], [], false, []⟩ :: other) []
      s.commits.find? (fun c => c.task == 1) = some ⟨1, [], [], [0x2000 / 128], [], false, []⟩ ∧ s.lockedSec (0x2000 / 128) = decide (other ≠ [])) := by
  decide +kernel

theorem witness_CommitEvents_apply :
    (∀ cls ∈ [1, 2], ∀ n ∈ [0, 2], ∀ applied ∈ [false, true],
      let c : Commit := ⟨1, [], [(0x3100, false)], [], [0x3100 / 128], applied, []⟩
      let s := committing cls n [c] []
      s.commits.find? (fun c => c.task == 1) = some c ∧ c.todo = [] ∧ s.underflow c.counters = decide (n = 0) ∧
      s.sourceWaits 1 c.pieces = false ∧ s.pieceTrains c.pieces c.counters = false ∧ s.pieceRefused (s.ownPlace (committer cls) c) c.pieces = none ∧
      s.recWaits 1 (committer cls).ctx c.counters c.pieces = false ∧ s.unsent (groveOf (committer cls).slot) c.sends = []) ∧
    (let c : Commit := ⟨1, [], [], [], [], true, [7]⟩
     let s := { committing 1 2 [c] [] with groves := [(0, { Grove.reset with window := List.replicate 8 (⟨.record 3 0, false⟩ : Enq) ++ [(⟨.record 7 0, false⟩ : Enq)] })] }
     s.commits.find? (fun c => c.task == 1) = some c ∧ c.todo = [] ∧ s.unsent (groveOf (committer 1).slot) c.sends ≠ []) ∧
    (let s := { committing 1 2 [⟨9, [], [], [], [0x3000 / 128], false, []⟩] [] with mem := tables (memWrite (recMem 1) 0x3108 (bytesOf 8 0x3000)) }
     s.underflow [(0x3100, false)] = false ∧ s.recWaits 1 0 [(0x3100, false)] [] = true) := by
  decide +kernel

/-- A piece of a commit: a STORE or an ENGINE write at a place. -/
def pieceAt (kind : BitVec 4) (pa : Nat) (from_ : Option From) : Piece := ⟨⟨kind, 0, 0x2000, 7, [], 0, none, 0⟩, pa, false, 8, from_⟩

theorem witness_CommitEvents_pieces :
    (let c : Commit := ⟨1, [pieceAt 0 0x2000 none, pieceAt 6 0x2000 (some (.place 0x4000))], [], [], [0x2000 / 128], false, []⟩
     let s := committing 1 2 [c] []
     s.commits.find? (fun c => c.task == 1) = some c ∧ s.underflow c.counters = false ∧ s.recWaits 1 0 c.counters c.pieces = false ∧
     s.sourceWaits 1 c.pieces = false ∧ s.pieceTrains c.pieces c.counters = false ∧ s.pieceRefused none c.pieces = none ∧
     (committing 1 2 [c, ⟨9, [], [], [], [0x4000 / 128], false, []⟩] []).sourceWaits 1 c.pieces = true) ∧
    (let s := { committing 1 2 [] [] with links := [(0, { Link.reset with st := .training })] }
     s.sourceWaits 1 [pieceAt 0 hostBase none] = false ∧ s.pieceTrains [pieceAt 0 hostBase none] [] = true ∧ s.pieceTrains [] [(hostBase, false)] = true) ∧
    (let s := { committing 1 2 [] [] with links := [(0, { Link.reset with st := .up })] }
     let ps := [pieceAt 0 hostBase none]
     s.sourceWaits 1 ps = false ∧ s.pieceTrains ps [] = false ∧ s.pieceRefused none ps = some (Cause.permission, 0x2000) ∧
     (s.pieceRefused (some (hostBase, 0x3000)) []).isSome = true) := by decide +kernel

theorem witness_CommitEvents_plan :
    (∀ cls ∈ [1, 2], isOk ((committing cls 2 [] []).taskPlan (committer cls)) (fun _ => true) = true) ∧
    (let s := { committing 1 2 [] [] with ctxs := [] }
     (match s.taskPlan (committer 1) with
      | .error (.check f) => f.cause == Cause.translation
      | _ => false) = true) ∧
    (match ({ committing 1 2 [] [] with ctxs := [(0, { aCtx with perm := 2 })], mem := memWrite (tables (recMem 2)) 0x8001000 (bytesOf 8 (0xFFE0000000000 + 0x847)) }).taskPlan (committer 1) with
      | .error (.cause c _) => c == Cause.permission
      | _ => false) = true ∧
    (match ({ committing 1 2 [⟨9, [], [], [], [0x8000000 / 128], false, []⟩] [] with groups := [] }).taskPlan (committer 1) with
      | .error .wait => true
      | _ => false) = true ∧
    (let s := { committing 1 2 [] [] with
      ctxs := [(0, { aCtx with perm := 2 })], links := [(0, { Link.reset with st := .training })], mem := memWrite (tables (memWrite (recMem 1) 0x3108 (bytesOf 8 0x40000000))) 0x8001008 (bytesOf 8 0x86F)
      hwBase := [(0, 0)], hwLimit := [(0, 2 ^ 38)] }
     s.underflow [(0x3100, false)] = false ∧ s.recWaits 1 0 [(0x3100, false)] [] = true) := by decide +kernel

/-- A wait on an event bit. -/
def onBit (polled note : Bool) : Wait := ⟨.waitI, [⟨6, 0, 0, 0x40, false, polled, 0, note, false, false, false⟩], true, 13, 0, 0, 0⟩

/-- Slot 0 waits; the event word, and the parks and the window of its grove are given. -/
def waiting (w : Option Wait) (st : SlotSt) (v : Word) (parks : List Park) (task : Option Nat) : State :=
  { u0 with
    slots := [(0, { Slot.reset with wait := w, st := st, task := task, grp := 1 })], eventWord := v,
    tasks := [(1, aTask .suspended 0)], groups := [(1, aGroup ⟨0, [], [], false, false, []⟩)], groves := [(0, { Grove.reset with parks := parks })] }

/-- The slots of grove 0 whose waits a test picks. -/
def waitsOf (s : State) (pick : Cond → Bool) : List Nat := (s.slots.filter fun q => groveOf q.1 == 0 && (q.2.wait.any fun x => x.picked pick)).map (·.1)

theorem witness_WaitEvents_slot :
    ∀ v ∈ [0, 1], ∀ pick ∈ [Cond.due, fun c => c.polled, fun c => c.due || c.polled],
    let s := waiting (some (onBit true true)) .waiting (BitVec.ofNat 64 v) [] none
    (s.slot 0).wait = some (onBit true true) ∧ (s.slot 0).st = SlotSt.waiting ∧ State.same (s.recallWait pick (onBit true true)) s = true ∧ (s.grove 0).parks = [] ∧
    waitsOf s pick = [0] ∧ ((onBit true true).conds.filter fun c => pick c && s.condOpen c).filterMap (s.condPoison 0) = [] ∧
    (∀ c ∈ (onBit true true).conds, s.condPoison 0 c = none) ∧ (s.evalWait 0 (s.slot 0).grp pick (onBit true true)).verdict = (if v = 1 then some 0 else none) ∧
    (onBit true true).deadline ≤ s.tick.toNat := by
  decide +kernel

/-- A wait on a word of memory. -/
def onWord : Wait := ⟨.waitI, [⟨0, 0, 0x1000, 0x1000, false, true, 1, true, false, false, false⟩], true, 13, 0, 0, 0⟩

theorem witness_WaitEvents_poison :
    ∀ pick ∈ [Cond.due, fun c => c.polled],
    let s := { waiting (some onWord) .waiting 0 [] none with poison := [0x1000 / 128] }
    (s.slot 0).wait = some onWord ∧ (s.slot 0).st = SlotSt.waiting ∧ (s.grove 0).parks = [] ∧ waitsOf s pick = [0] ∧
    (onWord.conds.filter fun c => pick c && s.condOpen c).filterMap (s.condPoison 0) = [0x1000] := by
  decide +kernel

theorem witness_WaitEvents_parked :
    (let s := waiting none .idle 1 [⟨1, onBit false true⟩] none
     waitsOf s Cond.due = [] ∧ (s.grove 0).parks = [⟨1, onBit false true⟩] ∧ (onBit false true).picked Cond.due = true ∧
     s.tasks.find 1 = some (aTask .suspended 0) ∧ (∀ c ∈ (onBit false true).conds, s.condPoison 0 c = none) ∧
     State.same (s.recallWait Cond.due (onBit false true)) s = true ∧
     (s.evalWait 0 1 Cond.due (onBit false true)).verdict = some 0 ∧ s.windowRoom 0 = true) ∧
    (∀ n ∈ [0, 31], let s := waiting (some (onBit false false)) .waiting 0 (List.replicate n ⟨2, onBit false false⟩) (some 1)
      (s.slot 0).wait = some (onBit false false) ∧ (s.slot 0).st = SlotSt.waiting ∧ (s.slot 0).task = some 1 ∧ (onBit false false).hold ≤ s.tick.toNat ∧ s.spillTrap 0 1 = none ∧
      (s.grove 0).parks.length < 32 ∧ s.slots.find? (fun q => groveOf q.1 == 0 && q.2.st == .waiting && q.2.task.isSome &&
        (q.2.wait.any fun x => decide (x.hold ≤ s.tick.toNat))) = some (0, s.slot 0)) := by decide +kernel

/-- A wait on a barrier that has not entered the register. -/
def onBarrier : Wait := ⟨.barWait, [⟨3, 0, 0x1000, 0x1000, false, false, 0, false, false, false, false⟩], true, 13, 0, 5, 5⟩

theorem witness_WaitEvents_barrier :
    (∀ task ∈ [none, some 1], ∀ b ∈ [barrier 3 0 1 0, barrier 3 0 1 2], let s := { waiting (some onBarrier) .waiting 0 [] task with mem := b }
      (s.slot 0).wait = some onBarrier ∧ (s.grove 0).parks = [] ∧ onBarrier.conds = [⟨3, 0, 0x1000, 0x1000, false, false, 0, false, false, false, false⟩] ∧
      barDead (s.homeRead 0x1000 16) = decide (b = barrier 3 0 1 2) ∧
      (s.barEnter (s.home 0x1000 false) 0x1000).isSome = true ∧ (s.ownerOf 0).isSome = task.isSome) ∧
    (let s := { waiting none .idle 0 [⟨1, onBarrier⟩] none with mem := barrier 3 0 1 0 }
     barDead (s.homeRead 0x1000 16) = false ∧
     (s.slot 0).wait = none ∧ (s.grove (groveOf 0)).parks = [⟨1, onBarrier⟩] ∧ s.tasks.find 1 = some (aTask .suspended 0) ∧
     (s.barEnter (s.home 0x1000 false) 0x1000).isSome = true) ∧
    (let reg := (List.range 64).map fun i => 0x2000 + 64 * i
     let s := { waiting (some onBarrier) .waiting 0 [] none with
       groves := [(u0.home 0x1000 false, { Grove.reset with barReg := reg })]
       mem := reg.foldl (fun m p => memWrite m (p + 4) [1]) (barrier 3 0 1 0) }
     barDead (s.homeRead 0x1000 16) = false ∧ s.barEnter (s.home 0x1000 false) 0x1000 = none) := by decide +kernel

/-- Grove 0 sends one packet to slot 0, whose inbox is given. -/
def sending (inbox : List Nat) (refusals : Nat) : State :=
  { u0 with slots := [(0, { Slot.reset with inbox := inbox })], groves := [(0, { Grove.reset with window := [⟨.record 1 0, true⟩, ⟨.packet 0 [1], false⟩], refusals := refusals })] }

theorem witness_WaitEvents_packet :
    (∀ n ∈ [0, 3], ((sending [] n).grove 0).window = [⟨.record 1 0, true⟩] ++ ⟨.packet 0 [1], false⟩ :: [] ∧ ((sending [] n).grove 0).refusals = n ∧
      ((sending [] n).grove 0).resendAt ≤ (sending [] n).tick.toNat) ∧
    (∀ i, i < 16 → i ∈ ((sending (List.range 16) 0).slot 0).inbox) ∧
    (0 : Nat) < slotCount ∧ slotCount ≤ farSlot 1 32 ∧
    (∀ st ∈ [LinkSt.training, .up], { sending [] 0 with links := [(0, { Link.reset with st := st })] }.farWaits (farSlot 1 32) = decide (st = .training)) ∧
    (15 ∉ ((sending (List.range 15) 0).slot 0).inbox ∧ ∀ j, j < 15 → j ∈ ((sending (List.range 15) 0).slot 0).inbox) ∧
    0 ∉ ((sending [1, 15] 0).slot 0).inbox := by decide +kernel

/-- A buffered store of slot 0, and the commits that hold locks. -/
def storing (commits : List Commit) : State := { user { Slot.reset with sbuf := [⟨0x1000, false, [1, 2], false⟩] } with commits := commits }

/-- Core 0 holds a sector update-only. -/
def holding (pa : Nat) : State := { u0 with cores := [(0, { core0 with upd := [⟨pa, false, 0, 0, 5⟩] })] }

theorem witness_MemoryEvents :
    (∀ held ∈ [[], [⟨1, [], [], [], [0x1000 / 128], false, []⟩]], let s := storing held
      (s.slot 0).sbuf[0]? = some ⟨0x1000, false, [1, 2], false⟩ ∧ firstMeeting (s.slot 0).sbuf 0 = some 0 ∧
      s.locked 0x1000 2 = decide (held ≠ []) ∧ (held = [] → s.openAt 0x1000 2)) ∧
    u0.lockedSec 0 = false ∧ u0.guest.held = [] ∧ u0.updHolders 0 = [] ∧ u0.pgDirty = 0 ∧
    (∀ pa ∈ [0x1000, 2 ^ 38 - 4], let s := holding pa
      s.lockedSec (pa / 128) = false ∧ s.updHolders (pa / 128) = [0] ∧ (s.core 0).upd = [⟨pa, false, 0, 0, 5⟩] ∧ pa + redWidth 0 / 8 ≤ 2 ^ 38 ∧
      (s.core 0).holdsUpd (pa / 128) = true) ∧
    (let s := { State.reset with ctxs := [(0, aCtx)], mem := tables [] }
     s.walk 0 0x1234 = (.leaf 0x6F 2 (pageSize 2), 0x8001000, s) ∧ tlbFind (s.core 0).itlb 0 0x1234 = none ∧ tlbFind (s.core 0).dtlb 0 0x1234 = none ∧
     tlbFind (s.grove (groveOfCore 0)).l2tlb 0 0x1234 = none) ∧
    (let s := tasked Slot.reset ⟨0, [], [], false, false, []⟩
     (s.slot 0).st = SlotSt.run ∧ (s.slot 0).task = some 1 ∧ s.tasks.find 1 = some (aTask .running 0)) := by decide +kernel

/-- The quilt of quiltMem behind page tables, with an aperture over it. -/
def aperture (waits : Option FaultRec) : State :=
  let s := quiltState Slot.reset [] 0 0
  { s with
    ctxs := [(0, { aCtx with perm := 1 })], mem := memWrite (tables s.mem) 0x8001008 (bytesOf 8 0x40000057),
    apertures := [⟨2 ^ 45, 4096, 0x40000000, 0⟩], hostRec := waits }

set_option maxRecDepth 100000 in
theorem witness_MemoryEvents_aperture :
    ∀ w ∈ [none, some ⟨0, [], 0⟩], let s := aperture w
    s.apertureAt (2 ^ 45) = some ⟨2 ^ 45, 4096, 0x40000000, 0⟩ ∧ s.hostRec = w ∧
    (∀ p ∈ [[], [0x40010200 / 128]],
      (match (qExpand 0x40000000 (2 ^ 45 - 2 ^ 45) 4).run (QCtx.start { s with poison := p } noSlot 0) with
      | (.ok bs, _) => if p = [] then bs.all Option.isSome else bs.contains none
      | _ => false) = true) := by decide +kernel

/-- A stopped slot 0 with its reports and a stop. -/
def halted (notice : Option (List Byte)) (record : Option FaultRec) (stop : Option Stop) : State :=
  let sl : Slot := { Slot.reset with st := .stopped, task := some 1, grp := 1, notice := notice, record := record, stop := stop }
  { user sl with
    slots := [(0, sl)], trRing := 1, groups := [(1, aGroup ⟨0, [], [], false, false, []⟩)], tasks := [(1, aTask .running 0)],
    ctxs := [(0, { aCtx with fqbase := 0x40000 })], ctxBase := 1 }

/-- A fault record of context 0. -/
def aRecord : FaultRec := ⟨0, List.replicate 64 1, 0⟩

theorem witness_FaultEvents_notices :
    (let s := halted (some (List.replicate 32 1)) none none
     (s.slot 0).st = SlotSt.stopped ∧ (s.slot 0).saving = false ∧ (s.slot 0).record = none ∧ (s.slot 0).notice = some (List.replicate 32 1) ∧ (List.replicate 32 (1 : Byte)).length = 32 ∧
     (s.slot 0).sbuf = [] ∧ s.notices = [] ∧ s.trRing ≠ 0 ∧ s.trHead + 1 ≠ s.trTail ∧ s.openAt (s.trRing.toNat * 32768 + s.trHead.toNat * 32) 32) ∧
    (let s := { u0 with notices := [[1]], trRing := 1 }
     (s.slot 0).st ≠ SlotSt.stopped ∧ s.notices = [[1]] ∧ (s.noticePut [1]).isSome = true ∧ ({ s with trRing := 0 }.noticePut [1]).isNone = true) := by decide +kernel

theorem witness_FaultEvents_records :
    (∀ q ∈ [(none : Option Half), some 0, some 9], ∀ full ∈ [false, true],
      let s0 := halted none (some aRecord) none
      let s := { s0 with
        slots := [(0, { s0.slot 0 with fsrc := { FaultSrc.none with awaiting := q } })]
        ctxs := if full then [(0, { aCtx with ptroot := 0 })] else s0.ctxs }
      0 < noCore * 4 ∧ (s.recordPut aRecord).2 = !full ∧ (s.slot 0).st = SlotSt.stopped ∧ (s.slot 0).record = some aRecord ∧ (s.slot 0).sbuf = [] ∧
      (s.core (coreOf 0)).copyEng.record = none ∧ (s.core (coreOf 0)).gathEng.record = none ∧
      (s.pathSrc 0 (field aRecord.bytes 18 1)).awaiting = q ∧ (s.slot 0).saving = false) := by decide +kernel

theorem witness_FaultEvents_record_and_notice :
    (let s := halted (some (List.replicate 32 1)) (some aRecord) none
     let u := (((s.recordPut aRecord).1.setPathSrc 0 (field aRecord.bytes 18 1)
       { (s.recordPut aRecord).1.pathSrc 0 (field aRecord.bytes 18 1) with awaiting := some aRecord.seq }).modSlot 0 fun q => { q with record := none })
     (s.recordPut aRecord).2 = true ∧ (s.slot 0).notice = some (List.replicate 32 1) ∧ s.notices = [] ∧ (u.noticePut (List.replicate 32 1)).isSome = true) ∧
    ({ halted none (some aRecord) none with poison := [0x40000 / 128] }.recordBad aRecord = true) := by decide +kernel

theorem witness_FaultEvents_queue :
    (let s := halted none (some aRecord) none
     s.openAt (s.ctxDesc 0 + 24) 8 ∧ (s.ctxOf 0).fqbase ≠ 0 ∧
     (natOf (memRead s.mem (s.ctxDesc 0 + 24) 4) % 4096 + 1) % 4096 ≠ natOf (memRead s.mem (s.ctxDesc 0 + 28) 4) % 4096 ∧ aRecord.bytes.length = 64 ∧
     s.openAt ((s.ctxOf 0).fqbase + natOf (memRead s.mem (s.ctxDesc 0 + 24) 4) % 4096 * 64) 64 ∧ s.ctxDesc 0 + 28 ≤ (s.ctxOf 0).fqbase) ∧
    (let s := { halted none none none with slots := [], cores := [(0, { core0 with copyEng := { Engine.reset with record := some aRecord } })] }
     (s.recordPut aRecord).2 = true ∧ (s.slot 0).st ≠ SlotSt.stopped ∧ (s.core (coreOf 0)).copyEng.record = some aRecord ∧ (s.core (coreOf 0)).gathEng.record = none) ∧
    (let s := { halted none none none with ctxs := [(0, Ctx.reset)] }
     (s.ctxOf 0).fqbase = 0 ∧ (s.ctxOf 0).ptroot = 0 ∧ s.openAt (s.ctxDesc 0 + 24) 8) := by decide +kernel

theorem witness_FaultEvents_queue_at_zero :
    (let s := { halted none none none with ctxs := [(0, aCtx)], ctxBase := 64 }
     (s.ctxOf 0).fqbase = 0 ∧ (s.ctxOf 0).ptroot ≠ 0 ∧ s.openAt (s.ctxDesc 0 + 24) 8 ∧ s.openAt 0 64 ∧ 2 ^ 18 ≤ s.ctxDesc 0 + 24) := by decide +kernel

/-- A running slot with a stop. -/
def stopping (stop : Option Stop) (packet : Option Packet) : Slot := { Slot.reset with task := some 1, grp := 1, stop := stop, packet := packet }

theorem witness_FaultEvents_stops :
    (∀ stop ∈ [some Stop.preempt, some .watchdog, some .kill, none], ∀ packet ∈ [none, some ⟨4, []⟩], let s := tasked (stopping stop packet) ⟨0, [], [], false, false, []⟩
      (s.slot 0).st = SlotSt.run ∧ (s.slot 0).stop = stop ∧ (s.slot 0).packet = packet ∧ (s.slot 0).stall = []) ∧
    ((tasked { stopping (some .kill) none with stall := [1] } ⟨0, [], [], false, false, []⟩).slot 0).stall ≠ [] ∧
    (∀ locked ∈ [true, false], let s := { spillHome Slot.reset locked with slots := [(0, { (spillHome Slot.reset locked).slot 0 with st := .stopped, saving := true })] }
      (s.slot 0).st = SlotSt.stopped ∧ (s.slot 0).stop = none ∧ (s.slot 0).saving = true ∧ (s.slot 0).task = some 1 ∧ s.tasks.find 1 = some (aTask .running 0) ∧
      s.saveWaits 0 1 = locked) ∧
    (let s := halted none none (some .preempt)
     (s.slot 0).st = SlotSt.stopped ∧ (s.slot 0).stop = some .preempt ∧ (s.slot 0).task = some 1 ∧ s.tasks.find 1 = some (aTask .running 0) ∧
     s.saveWaits 0 1 = false ∧ s.windowRoom (groveOf 0) = true ∧ s.groups.find (aTask .running 0).grp = some (aGroup ⟨0, [], [], false, false, []⟩) ∧ (s.saveTask 0 1).2 = none) ∧
    ((spilling (stopping (some .preempt) none)).saveTask 0 1).2.isSome = true ∧
    (∀ n ∈ [0, 16], let sl := { Slot.reset with vl := BitVec.ofNat 8 (2 * n), vshape := 2, prDepth := BitVec.ofNat 5 n, prVals := BitVec.ofNat 16 (2 ^ n - 1), fpCtl := 0x3F04, faultCause := 0xF0FF }
      sl.vl.toNat ≤ shapeMax sl.vshape.toNat ∧ sl.prDepth.toNat ≤ 16 ∧ sl.prVals.toNat < 2 ^ sl.prDepth.toNat ∧ sl.rng ≠ 0 ∧
      sl.fpCtl.toNat < 2 ^ 14 ∧ sl.fpCtl.toNat % 256 ≤ 4 ∧ sl.faultCause &&& 0xF0FF = sl.faultCause) := by decide +kernel

/-- A FAULTED task at 0x2000 and a command word. -/
def commanded (cls : BitVec 2) (dead refused : Bool) (word : Word) : State :=
  { u0 with
    slots := [], tasks := [(1, { aTask .faulted cls with dead := dead, refused := refused })],
    groups := [(1, aGroup ⟨0, [], [], false, false, []⟩)], slQ := [⟨128, word⟩] }

theorem witness_FaultEvents_commands :
    (∀ op ∈ [1, 2, 3], ∀ cls ∈ [0, 1], ∀ dead ∈ [false, true], let s := commanded (BitVec.ofNat 2 cls) dead false (BitVec.ofNat 64 (0x2000 + op))
      s.slQ = [⟨128, BitVec.ofNat 64 (0x2000 + op)⟩] ∧ bits (BitVec.ofNat 64 (0x2000 + op)).toNat 2 0 = op ∧
      s.faultedAt (bits (BitVec.ofNat 64 (0x2000 + op)).toNat 47 6 * 64) = [1] ∧ s.faultedAt 0x3000 = [] ∧
      s.tasks.find 1 = some { aTask .faulted (BitVec.ofNat 2 cls) with dead := dead, refused := false }) ∧
    (∀ w ∈ [0x2000, 0x2004], (commanded 0 false false (BitVec.ofNat 64 w)).slQ = [⟨128, BitVec.ofNat 64 w⟩] ∧
      (bits (BitVec.ofNat 64 w).toNat 2 0 = 0 ∨ 3 < bits (BitVec.ofNat 64 w).toNat 2 0)) := by decide +kernel

theorem witness_FaultEvents_watchdog_and_fence :
    (u0.grove (groveOf 0)).wdRun.toNat = 0 ∧
    (let s := { tasked Slot.reset ⟨0, [], [], false, false, []⟩ with tick := 7, groves := [(0, { Grove.reset with wdRun := 7 })] }
     (s.grove (groveOf 0)).wdRun.toNat ≠ 0 ∧ (s.slot 0).task.isSome = true ∧ (s.slot 0).st = SlotSt.run ∧ (s.slot 0).stop = none ∧
     (s.slot 0).since + (s.grove (groveOf 0)).wdRun.toNat ≤ s.tick.toNat) ∧
    u0.logical 0 = some (0, 0) ∧ u0.logical 16 = none ∧
    (∀ n ∈ [999, 1000], ∀ m ∈ [0, 1], let s := { u0 with tick := BitVec.ofNat 48 n, groves := [(0, { Grove.reset with missed := m })] }
      (s.grove 0).fenced = false ∧ ((s.grove 0).pingAt ≤ s.tick.toNat ↔ n = 1000) ∧ (s.grove 0).missed = m) ∧
    (∀ q ∈ [(0, 0), (31, 31)], let s := { u0 with groves := [(u0.physGrove q.1 q.2, { Grove.reset with fenced := true })] }
      s.fwwidth = 1 ∧ s.remapOf q.2 = none ∧ (s.grove (s.physGrove q.1 q.2)).fenced = true ∧ s.claimed q.1 q.2 = false ∧
      (s.grove (gridIndex s.spare q.2)).fenced = false) ∧
    (u0.grove (u0.physGrove 0 0)).fenced = false := by decide +kernel

/-- A context descriptor that passes the checks, but for its weight field's neighbour. -/
def ctxBytes (bad : Nat) : List Byte :=
  zeros 8 ++ bytesOf 8 0x8000000 ++ bytesOf 8 0x40000 ++ zeros 8 ++ bytesOf 8 0x1000 ++ zeros 8 ++ bytesOf 2 4 ++ bytesOf 6 bad ++ zeros 8 ++ bytesOf 4 1

/-- A command for context 1 at the controller, the context in a state, a running slot of it or none. -/
def asked (op : Nat) (st : CtxSt) (stop : CtxStop) (bad : Nat) (busy : Bool) : State :=
  let sl : Slot := { Slot.reset with st := .run, task := some 1, grp := 1, ctx := 1 }
  { State.reset with
    slots := if busy then [(0, sl)] else [], ctxBase := 2, mem := memWrite [] 0x8100 (ctxBytes bad), ctxs := [(1, { Ctx.reset with st := st, stopping := stop })],
    ctxQ := [⟨130, BitVec.ofNat 64 (2 ^ 16 + op)⟩] }

/-- The command of that state. -/
def askedFor (op : Nat) : Pending := ⟨130, BitVec.ofNat 64 (2 ^ 16 + op)⟩

/-- An image of one instruction and one task-table entry, with a header checksum. -/
def imageBytes (crc : Nat) : List Byte :=
  bytesOf 4 0x4A584B31 ++ bytesOf 2 1 ++ zeros 2 ++ zeros 8 ++ bytesOf 4 128 ++ bytesOf 4 2 ++ zeros 8 ++ bytesOf 4 144 ++ bytesOf 4 1 ++ zeros 80 ++
  bytesOf 4 crc ++ zeros 4 ++ bytesOf 2 0xA800

/-- Memory with an image at 0x20000, or none that is valid, and a launch descriptor at 0x5000. -/
def imageMem (good : Bool) : Mem :=
  tables (memWrite (memWrite [] 0x20000 (imageBytes (if good then 3437098056 else 0))) 0x5000
    (zeros 2 ++ [1] ++ zeros 5 ++ bytesOf 8 0x20000 ++ bytesOf 8 0x10000 ++ zeros 4 ++ bytesOf 2 1 ++ bytesOf 2 1 ++ bytesOf 4 1 ++ bytesOf 4 1))

/-- A group in a state. -/
def groupIn (st : GrpSt) (peers : Bool) : Group :=
  { aGroup ⟨0, [], [], false, false, []⟩ with st := st, image := 0x20000, codebase := 0x10000, peers := peers, chans := [], nchan := 0 }

/-- The module with that group alone. -/
def launching (gs : PMap Group) (good : Bool) : State :=
  { State.reset with mem := imageMem good, ctxs := [(0, { aCtx with maxgroves := 4 })], groups := gs, nextGroup := 2 }

theorem witness_ContextAndGroupEvents_commands :
    (∀ op ∈ [0, 1, 2, 3, 4, 5, 6, 7, 15], ∀ st ∈ [CtxSt.free, .building, .ready, .running, .suspended, .faulted, .teardown], ∀ busy ∈ [true, false],
      let s := asked op st .none 0 busy
      s.ctxNext = some (askedFor op) ∧ cmdOp (askedFor op).word = op ∧ cmdCtx (askedFor op).word = 1 ∧ (s.ctxOf 1).st = st ∧ (askedFor op).core ≠ noCore ∧
      (s.slots.all fun q => !q.2.busyFor 1) = !busy ∧ s.gqBase = 0 ∧ s.openAt (s.ctxDesc 1) 256) ∧
    (∀ bad ∈ [0, 1], let s := asked 2 .building .none bad false
      ((s.ctxTake (askedFor 2)).ctxRead 1).1.map ctxOk = some (bad == 0)) ∧
    (let s := { asked 2 .building .none 0 false with poison := [0x8100 / 128] }
     (s.ctxTake (askedFor 2)).ctxRead 1 |>.1.isNone) := by decide +kernel

theorem witness_ContextAndGroupEvents_stops :
    (∀ p ∈ [(CtxStop.suspend, true), (.fault, true), (.teardown, true), (.suspend, false), (.teardown, false)], let s := asked 3 .running p.1 0 (!p.2)
      s.ctxQuiet 1 = p.2 ∧ (s.ctxOf 1).stopping = p.1 ∧ s.ctxFreed 1 = true) ∧
    (let s := { asked 5 .teardown .teardown 0 false with ctxs := [(1, { Ctx.reset with st := .teardown, stopping := .teardown, stopCore := some 130 })] }
     s.ctxQuiet 1 = true ∧ (s.ctxOf 1).stopping = CtxStop.teardown ∧ (s.ctxOf 1).stopCore = some 130 ∧ (130 : Nat) ≠ noCore) := by decide +kernel

/-- A group before its routers are written, or before its copy. -/
def unloaded (st : GrpSt) (peers : Bool) : Group :=
  { groupIn st peers with routeOk := false, loaded := false, im := imageOf ((imageBytes 3437098056).take 128) }

set_option maxRecDepth 100000 in
theorem witness_ContextAndGroupEvents_loading :
    let g := unloaded .loading false
    let s := launching [(1, g)] true
    (∀ t ∈ [s, { s with commits := [⟨9, [], [], [], [(0x20000 + g.im.codeOff) / 128], false, []⟩] }, { s with ctxs := [] }],
      t.groups.find 1 = some g ∧ t.routed = some (1, g)) ∧
    isOk (s.copyOf g) (fun _ => true) = true ∧
    (match { s with commits := [⟨9, [], [], [], [(0x20000 + g.im.codeOff) / 128], false, []⟩] }.copyOf g with
      | .error .wait => true
      | _ => false) = true ∧
    (match { s with ctxs := [] }.copyOf g with
      | .error (.fail _) => true
      | _ => false) = true := by decide +kernel

/-- Whether a router checks is a free choice, so that of a clearing with groves no evaluation says which of the two answers it gives; one without a grove on the way checks. -/
theorem witness_ContextAndGroupEvents_routing :
    (∀ peers ∈ [true, false], ∀ w ∈ [0, 1], let g := { unloaded .routing peers with w := w }
      let s := launching [(1, g)] true
      s.groups.find 1 = some g ∧ s.routed = some (1, g) ∧ g.st = GrpSt.routing ∧ g.peers = peers ∧ (w = 0 → (s.routeAll 1 g g.groves).2 = true)) ∧
    (let g := { unloaded .routing true with routeOk := true }
     (launching [(1, g)] true).groups.find 1 = some g ∧ g.st = GrpSt.routing ∧ g.peers = true ∧ g.routeOk = true) := by decide +kernel

theorem witness_ContextAndGroupEvents_groups :
    (∀ n ∈ [0, 1], let g := { groupIn .loading false with n0 := n }
      let s := launching [(1, g)] true
      s.groups.find 1 = some g ∧ (s.ctxOf g.ctx).st = CtxSt.running ∧ (s.ctxOf g.ctx).stopping = CtxStop.none ∧ g.ownCores.length = n ∧ g.launchCores.length = n ∧
      isOk (s.recordPlaces g (g.ownCores.map (·.1))) (fun _ => true) = true) ∧
    (∀ e ∈ [Engine.reset, { Engine.reset with run := some ⟨0, 0, none, 1, 0, [], 0, 0, none, none, []⟩ }], let g := groupIn .draining false
      let s := { launching [(1, g)] true with cores := [(0, { core0 with copyEng := e })] }
      s.groups.find 1 = some g ∧ g.st = GrpSt.draining ∧ s.groupEngines 1 g = e.run.isSome ∧ s.groupUpd g = []) ∧
    ((unloaded .loading false).st = GrpSt.loading ∧ (unloaded .loading false).loaded = false) ∧
    ((groupIn .broken false).st = GrpSt.broken ∧ (groupIn .broken false).freed = false) := by decide +kernel

set_option maxRecDepth 100000 in
theorem witness_ContextAndGroupEvents_claims :
    (∀ good ∈ [true, false], let s := { launching [] good with grpQ := [⟨128, 0x5000⟩] }
      s.routed = none ∧ s.claimAt = none ∧ s.grpQ = [⟨128, 0x5000⟩] ∧ (s.ctxOf 0).st ≠ CtxSt.free ∧ (s.ctxOf 0).st ≠ CtxSt.building ∧
      (match s.feRead 0 0x5000 128, s.fePlaces 0 .store 0x5000 128 with
        | .ok b, .ok [(pa, _)] =>
          (match s.claimCheck 0 (groupOf 0x5000 pa 128 b) b with
            | .ok _ => good
            | .refuse c _ => !good && c == 3
            | .wait => false)
        | _, _ => false) = true) ∧
    (let s := { launching [] true with grpQ := [⟨128, 0x5000⟩], commits := [⟨9, [], [], [], [0x20000 / 128], false, []⟩] }
     (match s.feRead 0 0x5000 128, s.fePlaces 0 .store 0x5000 128 with
        | .ok b, .ok [(pa, _)] =>
          (match s.claimCheck 0 (groupOf 0x5000 pa 128 b) b with
            | .wait => true
            | .ok _ | .refuse _ _ => false)
        | _, _ => false) = true) ∧
    (∀ good ∈ [true, false], let b := memRead (imageMem good) 0x5000 128
      let s := { launching [] good with grpQ := [⟨128, 0x5000⟩], claimAt := some (0x5000, b) }
      s.routed = none ∧ s.claimAt = some (0x5000, b) ∧
      (match s.claimCheck 0 (groupOf 0x5000 0x5000 128 b) b with
        | .ok _ => good
        | .refuse _ _ => !good
        | .wait => false) = true) ∧
    (({ State.reset with grpQ := [⟨128, 0x5000⟩] }.ctxOf 0).st = CtxSt.free) := by decide +kernel

/-- Link 13 in a state, and a command for it. -/
def linked (st : LinkSt) (op burst : Nat) : State :=
  { State.reset with links := [(13, { Link.reset with st := st, burst := burst })], lkQ := [⟨128, BitVec.ofNat 64 (13 * 256 + op)⟩] }

theorem witness_LinkAndGuestEvents_links :
    (∀ st ∈ [LinkSt.down, .training, .up, .degraded, .fenced], ∀ op ∈ [1, 2, 3, 4], ∀ burst ∈ [15, 16], let s := linked st op burst
      s.lkQ.find? (fun p => lkLink p.word == 13) = some ⟨128, BitVec.ofNat 64 (13 * 256 + op)⟩ ∧ lkOp (BitVec.ofNat 64 (13 * 256 + op)) = op ∧
      (s.link 13).st = st ∧ (s.link 13).burst = burst ∧ (st = .up → (s.link 13).works = true)) ∧
    ((13 : Nat) < 14 ∧ (0 : BitVec 8).toNat < 1 ∧ 1 ≤ (3 : BitVec 8).toNat ∧ (3 : BitVec 8).toNat < 4) := by decide +kernel

/-- Guest queue 0 of context 0 in a state (its table at 2048, its ring of 16 packets at 0x6000); link 13 and the guest are given. -/
def guested (qst : Nat) (op : Nat) (lk : LinkSt) (gu : Guest) : State :=
  { State.reset with
    gqBase := 1, links := [(13, { Link.reset with st := lk })], guest := gu, gqQ := [⟨128, BitVec.ofNat 64 op⟩],
    mem := tables (memWrite (memWrite (memWrite [] 2048 (bytesOf 8 0x6000 ++ [4, BitVec.ofNat 8 qst])) 0x6000 ([1, 1] ++ zeros 22 ++ bytesOf 8 0x7000 ++ bytesOf 8 0x7100)) 0x7100 (bytesOf 4 2)),
    ctxs := [(0, { aCtx with perm := 8 })] }

theorem witness_LinkAndGuestEvents_rates :
    (212#8).toNat ∈ [212] ∧ (32#8).toNat ∈ [32] ∧ (64#8).toNat ∈ [2, 5, 8, 16, 32, 64] ∧ (2#8).toNat ∈ [2, 1] ∧ (4#8).toNat ∈ [8, 4] ∧ (3#8).toNat ∉ [2, 1] := by
  decide +kernel

theorem witness_LinkAndGuestEvents_queues :
    (∀ op ∈ [0, 1, 2, 3], ∀ qst ∈ [0, 1, 2, 3, 4], ∀ lk ∈ [LinkSt.up, .fenced], let s := guested qst op lk Guest.reset
      s.gqQ = [⟨128, BitVec.ofNat 64 op⟩] ∧ gqOp (BitVec.ofNat 64 op) = op ∧ s.gqState (gqQueue (BitVec.ofNat 64 op)) = qst ∧ s.gqBase ≠ 0 ∧
      s.gqOk 0 = decide (lk = .up) ∧ (s.link 13).st = lk) ∧
    (guested 0 1 .up Guest.reset).openAt ((guested 0 1 .up Guest.reset).gqDesc 0) 64 := by decide +kernel

theorem witness_LinkAndGuestEvents_packets :
    (let s := guested 1 1 .up Guest.reset
     s.guestOpen 0 = true ∧ s.openAt (s.gqDesc 0 + 20) 4 ∧ s.walkRaw (s.gqCtx 0) (0x7000 : Addr).toNat = .leaf 0x6F 2 (2 ^ 30) ∧
     (∀ acc ∈ [Access.load, .store], (match s.guestXlate acc (s.gqCtx 0) (0x7000 : Addr).toNat 8, s.translateRaw ⟨0, s.gqCtx 0, 5⟩ acc .plain ((0x7000 : Addr).setWidth 64) 1 with
       | .ok p _, .ok q _ => p == 0x7000 && q == 0x7000
       | _, _ => false) = true) ∧ s.openAt 0x7000 8 ∧
     (match s.translateRaw ⟨0, s.gqCtx 0, 5⟩ .load .plain ((2 ^ 40 : Addr).setWidth 64) 1 with
       | .fail _ => true
       | _ => false) = true ∧ s.mayRecord 0 = true) ∧
    (∀ l ∈ [[(0, 0)], [(0, 3), (0, 0)], []], let s := guested 1 1 .up { Guest.reset with started := l }
      s.guestOpen 0 = true ∧ (s.guestBytes (s.gqCtx 0) (s.gqPacket 0 0) 64).1.isSome = true ∧
      (match s.guestBytes (s.gqCtx 0) (s.gqPacket 0 0) 64 with
        | (some pk, s1) => s1.packetReady 0 0 (field pk 1 1) == (l == [(0, 0)]) &&
          (let s2 := (s1.guestWalk (s1.gqCtx 0) (field pk 24 8)).guestWalk (s1.gqCtx 0) (field pk 32 8)
           match s2.packetTargets (s2.gqCtx 0) pk with
          | (.ok p i, .ok c j) => p == 0x7000 && c == 0x7100 && !i && !j && !s2.packetTrains (s2.gqCtx 0) (.ok c j)
          | _ => false)
        | (none, _) => false) = true) ∧
    (let s := { guested 1 1 .up Guest.reset with ctxs := [] }
     s.guestOpen 0 = true ∧ (s.guestBytes (s.gqCtx 0) (s.gqPacket 0 0) 64).1 = none) ∧
    (∀ q ∈ [(0x7000, 0, true), (0x7000, 2 ^ 40, false), (2 ^ 40, 0x7100, false)],
      let s := guested 1 1 .up Guest.reset
      let pk := [1, 1] ++ zeros 22 ++ bytesOf 8 q.1 ++ bytesOf 8 q.2.1 ++ zeros 24
      field pk 0 1 < 3 ∧ (match s.packetTargets 0 pk with
        | (.ok p i, .deny c) => q.2.2 && p == 0x7000 && !i && c == 0
        | (.fail _, .ok _ _) | (.ok _ _, .fail _) => !q.2.2
        | _ => false) = true) ∧
    (let s := { guested 1 1 .up Guest.reset with commits := [⟨1, [], [], [], [0x7000 / 128], false, []⟩] }
     (match s.packetTargets 0 ([1, 1] ++ zeros 22 ++ bytesOf 8 0x7000 ++ zeros 32) with
      | (.wait, _) => true
      | _ => false) = true) ∧
    (let s := guested 2 1 .up Guest.reset
     s.guestOpen 0 = true ∧ s.gqState 0 = 2 ∧ s.openAt (s.gqDesc 0 + 9) 1) := by decide +kernel

theorem witness_LinkAndGuestEvents_reports :
    (let s := guested 1 1 .up Guest.reset
     let l := s.reported 0 (s.recField (s.gqDesc 0) 20 4) 1
     l = [0] ∧ l.any (s.packetHeld 0) = false ∧ s.guest.reports = [] ∧ (s.startedFrom 0 l).2.openAt ((s.startedFrom 0 l).2.gqDesc 0 + 20) 4) ∧
    (let s := { guested 1 1 .up Guest.reset with commits := [⟨1, [], [], [], [0x6000 / 128], false, []⟩] }
     s.guestOpen 0 = true ∧ (s.reported 0 (s.recField (s.gqDesc 0) 20 4) 1).any (s.packetHeld 0) = true) ∧
    (let s := guested 1 1 .up { Guest.reset with reports := [(0, 1)] }
     s.guestOpen 0 = true ∧ ∃ r ∈ s.guest.reports, r.1 = 0) := by decide +kernel

theorem witness_LinkAndGuestEvents_bound :
    (let s := guested 1 1 .up { Guest.reset with inval := [(some 3, 5000)] }
     s.guest.inval = [(some 3, 5000)] ∧ s.guestUp = true ∧ s.boundMissed = false) ∧
    (let s := guested 1 1 .up { Guest.reset with inval := [(none, 0)], held := [(9, 0)] }
     s.boundMissed = true ∧ (s.link 13).st ≠ LinkSt.fenced) := by decide +kernel

/-- A mailbox command, and the boot state. -/
def mailed (w : Word) (told : Bool) : State := { State.reset with boot := .up, mbCmd := w, mbTold := told }

theorem witness_HostAndBootEvents_mailbox :
    ((mailed 0x8000000000000001 false).mbCmd.getLsbD 63 = true ∧ (mailed 0x8000000000000001 false).mbCmd.toNat % 2 ^ 16 = 1) ∧
    (∀ told ∈ [true, false], let s := mailed 0x8000000000000100 told
      s.mbCmd.getLsbD 63 = true ∧ 256 ≤ s.mbCmd.toNat % 2 ^ 16 ∧ s.mbTold = told ∧ s.boot = .up) ∧
    (mailed 0 false).mbCmd.getLsbD 63 = false ∧ bits (0x003F0001 : Word).toNat 15 0 = 1 ∧ bits (0x003F0001 : Word).toNat 31 16 < 64 ∧
    { State.reset with boot := .failed 2 }.boot = .failed 2 := by decide +kernel

theorem witness_HostAndBootEvents_memory :
    (let s := State.reset
     ([1, 2] : List Byte).length = 2 ∧ (2 ^ 38 - 2) % 128 + 2 ≤ 128 ∧ s.boot ≠ .up) ∧
    (let s := { State.reset with boot := .up }
     s.openAt (2 ^ 38 - 2) 2 ∧ s.quiltOwners (2 ^ 38 - 2) = []) ∧
    (let s := aperture none
     s.boot = .up ∧ s.openAt 0x40000000 8 ∧ s.quiltOwners 0x40000000 = [0] ∧ s.hostRec = none) := by decide +kernel

/-- A boot flash whose configuration table is good, or has another magic number: F in column 16, S in column 17, a limit of 600 W, an image of 8 bytes at 0x1000. -/
def flashOf (good : Bool) : Mem :=
  cells 0 (bytesOf 4 (if good then 0x4A434654 else 0) ++ bytesOf 2 1 ++ [16, 1, 17] ++ zeros 7 ++ bytesOf 2 600 ++ [50] ++ zeros 173 ++ bytesOf 8 0x1000 ++ bytesOf 8 8)

/-- The signature is open: with a table that fails, boot fails whatever it is; with a good one it decides. -/
theorem witness_HostAndBootEvents_boot :
    { State.reset with flash := flashOf true }.tableOk = true ∧ { State.reset with flash := flashOf false }.tableOk = false := by decide +kernel

theorem witness_HostAndBootEvents_power :
    State.reset.pwAt ≤ State.reset.tick.toNat ∧
    (∀ p ∈ [(2000, 15), (2000, 3), (100, 3), (580, 3)], let s := { State.reset with tick := 100, pwTable := 600, pwLim := 600, pwAvg := BitVec.ofNat 16 p.1, pwStep := BitVec.ofNat 4 p.2 }
      s.pwSince + 100 ≤ s.tick.toNat ∧
      ((600 < s.pwAvg.toNat ∧ 3 < s.pwStep.toNat) ∨ (600 < s.pwAvg.toNat ∧ s.pwStep.toNat ≤ 3) ∨ (s.pwAvg.toNat * 100 < 600 * 95 ∧ s.pwStep ≠ 15) ∨
        (600 * 95 ≤ s.pwAvg.toNat * 100 ∧ s.pwAvg.toNat ≤ 600))) ∧
    State.reset.tick.toNat < State.reset.pwSince + 100 := by decide +kernel

/-- The first firmware slot before the chain of an addition. -/
def atChain : State := { f0 with slots := [(512, { Slot.reset with st := .run, pc := 0x100 })], mem := memWrite [] 0x100 [0x61, 0x0A] }

theorem witness_StepRunsDecodedInstruction :
    (let s := atChain
     s.agenda = [] ∧ s.boot = .up ∧ s.ready s.cur = true ∧ okAnd s.fetch (fun i _ => decide (i = .sub 4 4 12)) = true ∧ s.isFw s.cur = true ∧
     s.me.xfer = false ∧ s.myCore.icache = [] ∧ s.openAt s.me.pc.toNat 2 ∧ decodeBytes (memRead s.mem s.me.pc.toNat (2 * 1)) = .instr (.sub 4 4 12) 1) ∧
    (let s := user (preds 1 0)
     s.me.guard = false ∧ s.me.packet = none) := by decide +kernel

theorem witness_DecodeInvertsEncode : (Instr.sub 4 4 12).wf = true ∧ encode (.sub 4 4 12) = [0x0A61] ∧ decodeWords [0x0A61] = .instr (.sub 4 4 12) 1 := by
  decide +kernel

theorem witness_StepKeepsForms : nextAnd (step atChain) (fun t => t.me.pc == 0x102) = true ∧ atChain.memsWf = true ∧ atChain.slotsWf = true := by
  decide +kernel

/-! ### Words of the page maps (R289 to R295), one for each instruction -/

theorem test_decode_scalar_1 :
    ∀ p ∈ ([([0xFB4C, 0x0890], .add 17 2 19),
      ([0xFB4C, 0x0891], .sub 17 2 19),
      ([0xFB4C, 0x0892], .and 17 2 19),
      ([0xFB4C, 0x0893], .or 17 2 19),
      ([0xFB4C, 0x0894], .xor 17 2 19),
      ([0xFB4C, 0x0895], .sll 17 2 19),
      ([0xFB4C, 0x0896], .srl 17 2 19),
      ([0xFB4C, 0x0897], .sra 17 2 19),
      ([0xFAD0, 0x1190], .mul 3 18 20),
      ([0xFAD0, 0x1191], .mulh 3 18 20),
      ([0xFAD0, 0x1192], .div 3 18 20),
      ([0xFAD0, 0x1193], .rem 3 18 20),
      ([0xFAD0, 0x1194], .min 3 18 20),
      ([0xFAD0, 0x1195], .max 3 18 20),
      ([0xFAD0, 0x1196], .slt 3 18 20),
      ([0xFB80, 0x1878], .sextB 16 31),
      ([0xFB80, 0x1879], .sextH 16 31),
      ([0xFB80, 0x187A], .sextW 16 31),
      ([0xFB80, 0x187B], .zextB 16 31),
      ([0xFB80, 0x187C], .zextH 16 31),
      ([0xFB80, 0x187D], .zextW 16 31),
      ([0x24F0], .clz 9 14),
      ([0x24F1], .ctz 9 14),
      ([0x24F2], .popc 9 14)] : List (List Half × Instr)),
    decodeWords p.1 = .instr p.2 p.1.length := by decide +kernel

theorem test_decode_scalar_2 :
    ∀ p ∈ ([([0xFB58, 0xF9FE, 0x2AD5], .addi 21 22 (-171)),
      ([0xFB58, 0xF9FE, 0x32D5], .andi 21 22 (-171)),
      ([0xFB58, 0xF9FE, 0x3AD5], .ori 21 22 (-171)),
      ([0xFB58, 0xF9FE, 0x42D5], .xori 21 22 (-171)),
      ([0xFA2C, 0x4D3F], .slli 10 11 63),
      ([0xFA2C, 0x553F], .srli 10 11 63),
      ([0xFA2C, 0x5D3F], .srai 10 11 63),
      ([0x63FF], .slti 7 7 (-1)),
      ([0xFB00, 0x6805], .cmpiEq 16 5),
      ([0x71C0], .cmpiLt 3 (-64)),
      ([0xFA80, 0x78F0], .cmpEq 1 30),
      ([0xFA80, 0x78F1], .cmpNe 1 30),
      ([0xFA80, 0x78F2], .cmpLt 1 30),
      ([0xFA80, 0x78F3], .cmpGe 1 30),
      ([0xFA80, 0x78F4], .cmpLtN 1 30),
      ([0xFA80, 0x78F5], .cmpGeN 1 30),
      ([0xFB00, 0xF900, 0x8690], .beq 29 2 (-256)),
      ([0xFB00, 0xF900, 0x8691], .bne 29 2 (-256)),
      ([0xFB00, 0xF900, 0x8692], .blt 29 2 (-256)),
      ([0xFB00, 0xF900, 0x8693], .bge 29 2 (-256)),
      ([0xFB00, 0xF900, 0x8694], .bltN 29 2 (-256)),
      ([0xFB00, 0xF900, 0x8695], .bgeN 29 2 (-256)),
      ([0xFA44, 0x8C00], .jal 17 (-1024)),
      ([0xF801, 0x9003], .call 2051)] : List (List Half × Instr)),
    decodeWords p.1 = .instr p.2 p.1.length := by decide +kernel

theorem test_decode_scalar_3 :
    ∀ p ∈ ([([0x9A80], .callC 640),
      ([0xFA80, 0xF807, 0xA248], .jalr 4 25 7),
      ([0xA800], .ret),
      ([0xA801], .pand),
      ([0xA802], .por),
      ([0xA803], .pnot),
      ([0xA804], .pend),
      ([0xFA5C, 0xFF28, 0xB2B0], .fadd 5 6 23 ⟨4, .f16, true⟩),
      ([0xFA5C, 0xFF28, 0xB2B1], .fsub 5 6 23 ⟨4, .f16, true⟩),
      ([0xFA5C, 0xFF28, 0xB2B2], .fmul 5 6 23 ⟨4, .f16, true⟩),
      ([0xFA5C, 0xFF28, 0xB2B3], .fdiv 5 6 23 ⟨4, .f16, true⟩),
      ([0xFA5C, 0xFF28, 0xB2B4], .fmadd 5 6 23 ⟨4, .f16, true⟩),
      ([0xFA5C, 0xFE10, 0xB2B5], .fmin 5 6 23 .bf16),
      ([0xFA5C, 0xFE10, 0xB2B6], .fmax 5 6 23 .bf16),
      ([0xFEC0, 0xB2B7], .fsqrt 5 6 ⟨3, .f32, false⟩),
      ([0xFB00, 0xFE62, 0xB920], .fcvt 18 4 .i64 .f16 1),
      ([0xFE20, 0xC448], .fcmpEq 8 9 .f16),
      ([0xFE20, 0xC449], .fcmpLt 8 9 .f16),
      ([0xFE20, 0xC44A], .fcmpLe 8 9 .f16),
      ([0xFB00, 0xC940], .rdsr 18 64),
      ([0xF801, 0xD681], .wrsr 13 129),
      ([0xF7FF], .hint 2047)] : List (List Half × Instr)),
    decodeWords p.1 = .instr p.2 p.1.length := by decide +kernel

theorem test_decode_vector_1 :
    ∀ p ∈ ([([0xFC01, 0xFE32, 0x0E20], .setvl 12 4 0x32),
      ([0xFC01, 0xFB00, 0xFFDC, 0xF9F8, 0x1090], .vle 17 2 ⟨3, 5, true, .scr⟩ (-8)),
      ([0xFC01, 0xFB4C, 0xFFDC, 0xF9F8, 0x1091], .vlse 17 2 19 ⟨3, 5, true, .scr⟩ (-8)),
      ([0xFC01, 0xFB4C, 0xFFDC, 0xF9F8, 0x1092], .vlxe 17 2 19 ⟨3, 5, true, .scr⟩ (-8)),
      ([0xFC01, 0xFB00, 0xFFDC, 0xF9F8, 0x1093], .vlff 17 2 ⟨3, 5, true, .scr⟩ (-8)),
      ([0xFC01, 0xFB00, 0xFFDC, 0xF9F8, 0x1094], .vlce 17 2 ⟨3, 5, true, .scr⟩ (-8)),
      ([0xFC01, 0xFB00, 0xFEA2, 0x1890], .vse 17 2 ⟨1, 2, false, .tcm⟩ 0),
      ([0xFC01, 0xFB4C, 0xFEA2, 0x1891], .vsse 17 2 19 ⟨1, 2, false, .tcm⟩ 0),
      ([0xFC01, 0xFB4C, 0xFEA2, 0x1892], .vsxe 17 2 19 ⟨1, 2, false, .tcm⟩ 0),
      ([0xFC01, 0xFB00, 0xFEA2, 0x1893], .vsce 17 2 ⟨1, 2, false, .tcm⟩ 0),
      ([0xFC01, 0xFB7C, 0xFF3A, 0x2218], .vadd 20 3 31 ⟨9, 6, true, false⟩),
      ([0xFC01, 0xFB7C, 0xFF3A, 0x2219], .vsub 20 3 31 ⟨9, 6, true, false⟩),
      ([0xFC01, 0xFB7C, 0xFF3A, 0x221A], .vmul 20 3 31 ⟨9, 6, true, false⟩),
      ([0xFC01, 0xFB7C, 0xFF3A, 0x221B], .vmin 20 3 31 ⟨9, 6, true, false⟩),
      ([0xFC01, 0xFB7C, 0xFF3A, 0x221C], .vmax 20 3 31 ⟨9, 6, true, false⟩),
      ([0xFC01, 0xFB7C, 0xFF3A, 0x221D], .vmulh 20 3 31 ⟨9, 6, true, false⟩),
      ([0xFC01, 0xFB7C, 0xFF3A, 0x221E], .vdiv 20 3 31 ⟨9, 6, true, false⟩),
      ([0xFC01, 0xFB7C, 0xFF3A, 0x221F], .vrem 20 3 31 ⟨9, 6, true, false⟩),
      ([0xFC01, 0xFB7C, 0xFE45, 0x2A18], .vand 20 3 31 ⟨2, 1, false, true⟩),
      ([0xFC01, 0xFB7C, 0xFE45, 0x2A19], .vor 20 3 31 ⟨2, 1, false, true⟩),
      ([0xFC01, 0xFB7C, 0xFE45, 0x2A1A], .vxor 20 3 31 ⟨2, 1, false, true⟩),
      ([0xFC01, 0xFB7C, 0xFE45, 0x2A1B], .vsll 20 3 31 ⟨2, 1, false, true⟩),
      ([0xFC01, 0xFB7C, 0xFE45, 0x2A1C], .vsrl 20 3 31 ⟨2, 1, false, true⟩),
      ([0xFC01, 0xFB7C, 0xFE45, 0x2A1D], .vsra 20 3 31 ⟨2, 1, false, true⟩)] : List (List Half × Instr)),
    decodeWords p.1 = .instr p.2 p.1.length := by decide +kernel

theorem test_decode_vector_2 :
    ∀ p ∈ ([([0xFC01, 0xFB7C, 0xFF3A, 0x3218], .vfma 20 3 31 ⟨9, 6, true, false⟩),
      ([0xFC01, 0xFB7C, 0xFF3A, 0x3219], .vfdiv 20 3 31 ⟨9, 6, true, false⟩),
      ([0xFC01, 0xFB7C, 0xFF00, 0x3202], .vsqrt 20 31 ⟨8, 0, false, false⟩),
      ([0xFC01, 0xFA98, 0xFEAC, 0x3A10], .vwadd 4 18 6 ⟨5, 3, false, false⟩),
      ([0xFC01, 0xFA98, 0xFEAC, 0x3A11], .vwmul 4 18 6 ⟨5, 3, false, false⟩),
      ([0xFC01, 0xFA98, 0xFF5C, 0x4210], .vredsum 4 18 6 ⟨10, 7, false, false⟩),
      ([0xFC01, 0xFA98, 0xFF5C, 0x4211], .vredmin 4 18 6 ⟨10, 7, false, false⟩),
      ([0xFC01, 0xFA98, 0xFF5C, 0x4212], .vredmax 4 18 6 ⟨10, 7, false, false⟩),
      ([0xFC01, 0xFAD8, 0xFE65, 0x4A10], .vmseq 4 18 22 ⟨3, 1, false, true⟩),
      ([0xFC01, 0xFAD8, 0xFE65, 0x4A11], .vmsne 4 18 22 ⟨3, 1, false, true⟩),
      ([0xFC01, 0xFAD8, 0xFE65, 0x4A12], .vmslt 4 18 22 ⟨3, 1, false, true⟩),
      ([0xFC01, 0xFAD8, 0xFE65, 0x4A13], .vmsle 4 18 22 ⟨3, 1, false, true⟩),
      ([0xFC01, 0xFA1C, 0x5090], .vmand 1 2 7),
      ([0xFC01, 0xFA1C, 0x5091], .vmor 1 2 7),
      ([0xFC01, 0x52B2], .vmnot 5 6),
      ([0xFC01, 0xFB00, 0x519B], .vpopc 19 3),
      ([0xFC01, 0x54BC], .vfirst 9 7),
      ([0xFC01, 0xFAD8, 0xFEC8, 0x5A10], .vmerge 4 18 22 ⟨6, 2, false, false⟩),
      ([0xFC01, 0xFAD8, 0xFEC8, 0x5A11], .vslideup 4 18 22 ⟨6, 2, false, false⟩),
      ([0xFC01, 0xFAD8, 0xFEC8, 0x5A12], .vslidedown 4 18 22 ⟨6, 2, false, false⟩),
      ([0xFC01, 0xFAD8, 0xFEC8, 0x5A13], .vrgather 4 18 22 ⟨6, 2, false, false⟩),
      ([0xFC01, 0xFA80, 0xFEC8, 0x5A14], .vcompress 4 18 ⟨6, 2, false, false⟩),
      ([0xFC01, 0xFB00, 0xFE96, 0x3A1A], .vnarrow 20 3 4 5 true),
      ([0xFC01, 0xFB00, 0xFF71, 0x3A1B], .vcvt 20 3 11 8 true)] : List (List Half × Instr)),
    decodeWords p.1 = .instr p.2 p.1.length := by decide +kernel

theorem test_decode_vector_3 :
    ∀ p ∈ ([([0xFC01, 0xFFA0, 0x3944], .vpack 2 8 .bx4),
      ([0xFC01, 0xFA80, 0xFFE0, 0x3945], .vunpack 2 24 .bx8),
      ([0xFC01, 0xFA80, 0xFE4D, 0x5A15], .vmv 4 18 2 3 .vx),
      ([0xFC01, 0xFA80, 0xFE62, 0x5A15], .vmv 4 18 3 0 .xv)] : List (List Half × Instr)),
    decodeWords p.1 = .instr p.2 p.1.length := by decide +kernel

theorem test_decode_matrix_1 :
    ∀ p ∈ ([([0xFC02, 0xFA80, 0x09A0], .cbCfg 3 20),
      ([0xFC02, 0xF802, 0x1783], .cbAdvP 15 259),
      ([0xFC02, 0x1981], .cbAdvC 3 1),
      ([0xFC02, 0xFB00, 0xFE01, 0x2280], .mxCfg 21 true),
      ([0xFC02, 0xFE02, 0x2800], .mxZero .right),
      ([0xFC02, 0xFB00, 0xFE01, 0x3618], .mma 28 3 false 1),
      ([0xFC02, 0xFB00, 0xFE01, 0x3619], .mmaRing 28 3 false 1),
      ([0xFC02, 0xFB00, 0xFE01, 0x361A], .mmaLx 28 3 false 1),
      ([0xFC02, 0xFB00, 0xFE01, 0x361B], .mmaLa 28 3 false 1),
      ([0xFC02, 0xFF09, 0x3618], .mma 12 3 true 9),
      ([0xFC02, 0xFB00, 0xFEB5, 0xF9F0, 0x3BB0], .mxDrain 23 6 (-16) 5 .scr true .left),
      ([0xFC02, 0xFB00, 0x4448], .ltLoad 24 9),
      ([0xFC02, 0x4481], .ltRot 9),
      ([0xFC02, 0xFB00, 0x4F80], .cp 31),
      ([0xFC02, 0xFB00, 0x4F81], .ga 31),
      ([0xFC02, 0xFB00, 0x4F82], .sc 31),
      ([0xFC02, 0xFB00, 0x4F83], .engStat 31)] : List (List Half × Instr)),
    decodeWords p.1 = .instr p.2 p.1.length := by decide +kernel

theorem test_decode_memory_1 :
    ∀ p ∈ ([([0xFC03, 0xFA80, 0xFEC6, 0xF910, 0x0AB3], .ld 5 22 3 ⟨.acq, 4, false, true, .scr⟩ (-240)),
      ([0xFC03, 0xFB80, 0xFF38, 0xF938, 0x1621], .st 28 20 1 ⟨.rel, 3, true, false, .glob⟩ (-200)),
      ([0xFC03, 0xFA80, 0xF810, 0x1AB0], .ldF 5 22 16),
      ([0xFC03, 0xFA80, 0xF810, 0x1AB1], .ldFTake 5 22 16),
      ([0xFC03, 0xFA80, 0xF810, 0x1AB2], .stF 5 22 16),
      ([0xFC03, 0xFA5C, 0xFFAC, 0x22B0], .amoAdd 5 6 23 ⟨.ar, 2, true, true, .glob⟩),
      ([0xFC03, 0xFA5C, 0xFFAC, 0x22B1], .amoSwap 5 6 23 ⟨.ar, 2, true, true, .glob⟩),
      ([0xFC03, 0xFA5C, 0xFFAC, 0x22B2], .amoAnd 5 6 23 ⟨.ar, 2, true, true, .glob⟩),
      ([0xFC03, 0xFA5C, 0xFFAC, 0x22B3], .amoOr 5 6 23 ⟨.ar, 2, true, true, .glob⟩),
      ([0xFC03, 0xFA5C, 0xFFAC, 0x22B4], .amoXor 5 6 23 ⟨.ar, 2, true, true, .glob⟩),
      ([0xFC03, 0xFA5C, 0xFFAC, 0x22B5], .amoMin 5 6 23 ⟨.ar, 2, true, true, .glob⟩),
      ([0xFC03, 0xFA5C, 0xFFAC, 0x22B6], .amoMax 5 6 23 ⟨.ar, 2, true, true, .glob⟩),
      ([0xFC03, 0xFA5C, 0xFFAC, 0x22B7], .amoCas 5 6 23 ⟨.ar, 2, true, true, .glob⟩),
      ([0xFC03, 0xFA5C, 0xFE01, 0x2AB0], .amoMinN 5 6 23 ⟨.none, 0, false, false, .tcm⟩),
      ([0xFC03, 0xFA5C, 0xFE01, 0x2AB1], .amoMaxN 5 6 23 ⟨.none, 0, false, false, .tcm⟩),
      ([0xFC03, 0xFB00, 0xFE06, 0x3030], .redAdd 16 6 true .scr),
      ([0xFC03, 0xFB00, 0xFE02, 0x3031], .redAddF32 16 6 .scr),
      ([0xFC03, 0xFB00, 0xFE06, 0x3032], .redMin 16 6 true .scr),
      ([0xFC03, 0xFB00, 0xFE06, 0x3033], .redMax 16 6 true .scr),
      ([0xFC03, 0xFB00, 0xFE06, 0x3034], .redMinN 16 6 true .scr),
      ([0xFC03, 0xFB00, 0xFE06, 0x3035], .redMaxN 16 6 true .scr),
      ([0xFC03, 0xFB00, 0xFE02, 0x3036], .redMinF32 16 6 .scr),
      ([0xFC03, 0xFB00, 0xFE02, 0x3037], .redMaxF32 16 6 .scr),
      ([0xFC03, 0x3804], .fence 4)] : List (List Half × Instr)),
    decodeWords p.1 = .instr p.2 p.1.length := by decide +kernel

theorem test_decode_memory_2 :
    ∀ p ∈ ([([0xFC03, 0x4125], .fenceX 5 2 1),
      ([0xFC03, 0xFA80, 0x4E18], .dcFlush 12 19),
      ([0xFC03, 0xFA80, 0x4E19], .dcDiscard 12 19),
      ([0xFC03, 0x5000], .icsync),
      ([0xFC03, 0xFA38, 0xF808, 0x5EFE], .wait 13 15 14 true 2 8),
      ([0xFC03, 0xFA80, 0xF803, 0x6220], .barArrive 4 20 3),
      ([0xFC03, 0xFAD4, 0x6221], .barWait 4 20 21),
      ([0xFC03, 0x6C87], .gbSync 9 7),
      ([0xFC03, 0xFB00, 0x7080], .msgOpen 17),
      ([0xFC03, 0x7401], .msgPut 8),
      ([0xFC03, 0x7002], .msgEnd),
      ([0xFC03, 0x744B], .recv 8 9),
      ([0xFC03, 0xFB00, 0x7B00], .tkSpawn 22),
      ([0xFC03, 0xFA80, 0x7E71], .tkDep 12 30),
      ([0xFC03, 0x7802], .tkYield),
      ([0xFC03, 0x7803], .tkEnd)] : List (List Half × Instr)),
    decodeWords p.1 = .instr p.2 p.1.length := by decide +kernel

theorem test_decode_rule_engine_1 :
    ∀ p ∈ ([([0xFC04, 0xFB00, 0x0820], .qlOpen 16 4),
      ([0xFC04, 0x0B01], .qlClose 6),
      ([0xFC04, 0xFAB4, 0x1605], .qlEval 5 12 16 13 false),
      ([0xFC04, 0xFAB4, 0x1E06], .qlFold 6 12 16 13 false),
      ([0xFC04, 0xFA94, 0x2603], .qlSeek 3 12 16 5 false),
      ([0xFC04, 0xFAB0, 0x2E88], .qlRec 13 17 12),
      ([0xFC04, 0xFAB0, 0x2E89], .qlGet 13 17 12 false),
      ([0xFC04, 0xFAB0, 0x2E8A], .qlSplit 13 17 12 false),
      ([0xFC04, 0xFAB0, 0x3688], .qlApp 13 17 12),
      ([0xFC04, 0xFAB0, 0x3689], .qlPut 13 17 12),
      ([0xFC04, 0xFA80, 0x370A], .qlPub 14 17 false),
      ([0xFC04, 0xFA80, 0x3918], .hlCat 2 19),
      ([0xFC04, 0xFA90, 0xF87F, 0x3919], .hlFilt 2 19 4 127),
      ([0xFC04, 0x391A], .hlRebase 2 3),
      ([0xFC04, 0xFB00, 0x3803], .hlApply 16),
      ([0xFC04, 0x3A84], .hlDrop 5),
      ([0xFC04, 0x3AB5], .hlLen 5 6),
      ([0xFC04, 0xFAB4, 0xFE01, 0x1604], .qlEval 4 12 16 13 true),
      ([0xFC04, 0xFAB4, 0xFE01, 0x2E01], .qlGet 12 16 13 true),
      ([0xFC04, 0xFA80, 0xFE01, 0x3222], .qlPub 4 20 true)] : List (List Half × Instr)),
    decodeWords p.1 = .instr p.2 p.1.length := by decide +kernel

theorem test_decode_system_1 :
    ∀ p ∈ ([([0xFC05, 0xFAA4, 0x0AA8], .pgPost 5 21 9),
      ([0xFC05, 0x0A81], .pgReplay 5),
      ([0xFC05, 0x1000], .ecall),
      ([0xFC05, 0x1100], .ebreak),
      ([0xFC05, 0x12A5], .trap 165)] : List (List Half × Instr)),
    decodeWords p.1 = .instr p.2 p.1.length := by decide +kernel

theorem test_decode_refuses :
    decodeWords [0xFE00, 0xFC01, 0x10A8] = .badChain 1 ∧ decodeWords [0xFA00, 0xFA00, 0x0A61] = .badChain 1 ∧
    decodeWords [0xF800, 0xF800, 0xF800, 0xF800, 0x2A20] = .badChain 3 ∧ decodeWords [0x0000] = .illegal 1 ∧ decodeWords [0xFC06, 0x0800] = .illegal 2 ∧
    decodeWords [0xFC00, 0x0800] = .illegal 2 ∧ decodeWords [0xD800] = .illegal 1 ∧ decodeWords [0x1007] = .illegal 1 ∧
    decodeWords [0xFE10, 0x0AE8] = .illegal 2 ∧ decodeWords [0xFA01, 0x0AE8] = .illegal 2 ∧ decodeWords [0xFC03, 0x4444] = .illegal 2 ∧
    decodeWords [0xFC01, 0xF000] = .illegal 2 := by decide +kernel

/-! ### Ill-formed terms, one at least for each check -/

theorem test_ill_formed_immediates :
    ∀ i ∈ ([.addi 1 2 0x200000000, .andi 1 1 0x200000000, .ori 1 2 0x80000000000000, .xori 1 2 0x7FFFFFFFFFFFFFF, .slti 17 1 0x200000000,
      .cmpiEq 17 0x200000000, .cmpiLt 1 0x200000000, .beq 1 2 0x4000000, .bne 1 2 (-0x4000001), .blt 17 2 0x4000000, .bge 1 17 0x4000000, .bltN 1 2 0x4000000,
      .bgeN 1 2 0x4000000, .jal 0 0x2000000000, .call 0x2000000000, .callC (-0x2000000001), .jalr 1 17 0x4000000,
      .vle 1 5 ⟨2, 0, false, .glob⟩ 0x20000, .vlse 1 5 17 ⟨2, 0, false, .glob⟩ 256, .vlxe 1 5 3 ⟨1, 0, false, .tcm⟩ (-257), .vlff 17 5 ⟨0, 0, false, .glob⟩ 0x20000,
      .vlce 1 5 ⟨0, 0, false, .glob⟩ 0x4000000, .vse 1 5 ⟨2, 0, false, .glob⟩ 0x20000, .vsse 1 5 17 ⟨2, 0, false, .glob⟩ 256, .vsxe 1 5 17 ⟨2, 0, false, .glob⟩ 256,
      .vsce 1 5 ⟨0, 0, false, .glob⟩ 0x4000000, .mxDrain 17 1 256 0 .tcm false .all, .ld 1 2 3 ⟨.none, 0, false, false, .glob⟩ 0x4000000,
      .st 17 2 3 ⟨.rel, 0, false, false, .glob⟩ 256, .ldF 1 2 0x4000000, .ldFTake 17 2 0x20000, .stF 1 17 0x20000, .wait 17 1 1 true 0 0x20000,
      .barArrive 17 1 0x40000] : List Instr), ¬WellFormed i := by decide +kernel

theorem test_ill_formed_codes :
    ∀ i ∈ ([.fadd 1 2 3 ⟨5, .f32, false⟩, .fsub 1 2 3 ⟨6, .f32, false⟩, .fmul 1 2 3 ⟨5, .f16, false⟩, .fdiv 1 2 3 ⟨6, .bf16, true⟩, .fmadd 1 2 3 ⟨5, .f32, false⟩,
      .fsqrt 1 2 ⟨6, .f32, false⟩, .fcvt 1 2 .f32 .f32 0, .fcvt 1 2 .i32 .n64 0, .fcvt 1 2 .f32 .f16 5, .vcvt 1 2 13 0 false, .vcvt 1 2 0 15 false, .vcvt 1 2 8 8 false,
      .vmv 1 2 13 0 .vv, .vmv 1 2 2 1 .xv, .vle 1 5 ⟨2, 0, true, .glob⟩ 0, .vse 1 5 ⟨2, 0, true, .tcm⟩ 0, .mma 17 1 true 0, .mmaRing 16 1 true 0, .mmaLx 31 1 true 0, .mmaLa 17 1 true 0,
      .mxDrain 1 2 0 7 .tcm false .all, .mxDrain 1 2 0 9 .tcm false .all, .mxDrain 1 2 0 0 .glob false .all,
      .ld 1 2 3 ⟨.rel, 0, false, false, .glob⟩ 0, .ld 1 2 3 ⟨.ar, 0, false, false, .glob⟩ 0, .ld 1 2 3 ⟨.none, 0, true, false, .glob⟩ 0, .ld 1 2 3 ⟨.none, 1, false, false, .glob⟩ 0,
      .ld 1 2 3 ⟨.acq, 5, false, false, .glob⟩ 0, .ld 1 2 3 ⟨.none, 0, false, true, .tcm⟩ 0, .st 1 2 3 ⟨.acq, 0, false, false, .glob⟩ 0, .st 1 2 3 ⟨.ar, 0, false, false, .glob⟩ 0,
      .st 1 2 3 ⟨.none, 0, true, false, .scr⟩ 0, .amoAdd 1 2 3 ⟨.none, 2, false, true, .glob⟩, .amoSwap 1 2 3 ⟨.ar, 7, false, true, .glob⟩, .amoCas 1 2 3 ⟨.ar, 0, true, true, .tcm⟩,
      .fence 5, .fenceX 3 3 0, .fenceX 7 0 0, .fenceX 0 7 0, .fenceX 0 1 5, .qlEval 6 1 2 3 false, .qlFold 7 1 2 3 true, .qlSeek 4 1 2 3 false, .qlSeek 6 1 2 3 false] : List Instr),
    ¬WellFormed i := by decide +kernel

/-! ### Single steps: the specification's worked examples, and values worked by hand from its rules -/

/-- The value of x7 after an instruction on slot 0 whose x5 and x6 are given. -/
def after (i : Instr) (a b : Word) : Option Word :=
  match exec i (user (regs a b 0)) with
  | .next t => some (t.x 7)
  | .fault _ | .refused _ => none

/-- The table of R303. -/
theorem test_div_rem :
    ∀ q ∈ [(7, 2, 3, 1), (-7, 2, -3, -1), (7, -2, -3, 1), (7, 0, -1, 7), (-2 ^ 63, -1, -2 ^ 63, 0)],
      after (.div 7 5 6) (BitVec.ofInt 64 q.1) (BitVec.ofInt 64 q.2.1) = some (BitVec.ofInt 64 q.2.2.1) ∧
      after (.rem 7 5 6) (BitVec.ofInt 64 q.1) (BitVec.ofInt 64 q.2.1) = some (BitVec.ofInt 64 q.2.2.2) := by decide +kernel

/-- R303: wraps, the upper product, shifts by the low six bits, signed order. -/
theorem test_integer :
    after (.add 7 5 6) (-1) 1 = some 0 ∧ after (.sub 7 5 6) 0 1 = some (-1) ∧ after (.mulh 7 5 6) (-1) 1 = some (-1) ∧
    after (.sll 7 5 6) 1 65 = some 2 ∧ after (.sra 7 5 6) 0x8000000000000000 63 = some (-1) ∧ after (.srl 7 5 6) 0x8000000000000000 63 = some 1 ∧
    after (.min 7 5 6) (-1) 0 = some (-1) ∧ after (.slt 7 5 6) (-1) 0 = some 1 ∧ after (.sextB 7 5) 0x80 0 = some (-128) ∧
    after (.zextW 7 5) (-1) 0 = some 0xFFFFFFFF ∧ after (.clz 7 5) 0 0 = some 64 ∧ after (.popc 7 5) (-1) 0 = some 64 ∧
    after (.slti 7 5 (-1)) (-2) 0 = some 1 := by decide +kernel

/-- The worked fmadd of R312, and the conversions of R313: RZ of 1 + 2^-8 in BF16; 2.5 by RNE and RU, -2.5 by RD, 3.0e9 and -1.0 clamped. -/
theorem test_float :
    nextAnd (exec (.fmadd 5 6 7 ⟨1, .bf16, false⟩) (user (regs 0x3F80 0x3F80 0x3B80))) (fun t => t.x 5 == 0x3F80 && bits t.me.fpCtl.toNat 13 8 == 1 <<< 4) = true ∧
    after (.fcvt 7 5 .i32 .f32 0) 0x40200000 0 = some 2 ∧ after (.fcvt 7 5 .i32 .f32 3) 0x40200000 0 = some 3 ∧
    after (.fcvt 7 5 .i32 .f32 2) 0xC0200000 0 = some (-3) ∧ after (.fcvt 7 5 .i32 .f32 0) 0x4F32D05E 0 = some 2147483647 ∧
    after (.fcvt 7 5 .n32 .f32 0) 0xBF800000 0 = some 0 := by decide +kernel

/-- R349: a request of 100 elements at w32 g1 gives 32; R347's bound. -/
theorem test_setvl : nextAnd (exec (.setvl 12 5 0x32) (user (regs 100 0 0))) (fun t => t.me.vl == 32 && t.me.vshape == 0x32 && t.x 12 == 32) = true := by
  decide +kernel

/-- R34, R363: 500.0 to E4M3 is NaN with of and nx; with .sat it is 448. -/
theorem test_vcvt :
    ∀ q ∈ [(false, 0x7F), (true, 0x7E)], nextAnd (exec (.vcvt 2 3 11 8 q.1)
      (user { Slot.reset with v := Slot.reset.v.set 3 0x43FA0000, vshape := 2, vl := 1 })) (fun t => (t.me.vr 2).toNat % 128 == q.2) = true := by decide +kernel

/-- R3: a store of four bytes lies in memory with its low byte first. -/
theorem test_store :
    nextAnd (exec (.st 5 6 2 ⟨.none, 0, false, false, .tcm⟩ 4) (user (regs 0x11223344 0x100 0))) (fun t =>
      (t.core 0).tcm == [(0x104, 0x44), (0x105, 0x33), (0x106, 0x22), (0x107, 0x11)]) = true := by decide +kernel

/-- R234, R235: a trap saves the pc, the cause and the address and stops the slot. -/
theorem test_trap :
    nextAnd (exec .ecall (user { Slot.reset with pc := 0x40, npc := 0x42 })) (fun t => t.me.faultCause.toNat % 256 == 18 && t.me.faultPc == 0x40 && t.me.st == .stopped) = true := by
  decide +kernel

/-- R306: a branch counts halfwords from its own chain; not taken, it goes to the next one. -/
theorem test_branch :
    (∀ q ∈ [(1, (0x3DE : Addr)), (0, 0x404)], nextAnd (exec (.bne 5 6 (-17)) (user { regs (BitVec.ofNat 64 q.1) 0 0 with pc := 0x400, npc := 0x404 }))
      (fun t => t.me.pc == q.2) = true) := by decide +kernel

end Sys2Proof.Tests
end

section
/-! PROOF. What an mma meets at its issue when nothing stands in its way: the operand checks of R381 pass, and the issue itself (R21, R379 to R382). -/

namespace Sys2Proof.Machine

/-! ### Poison of a local space -/

/-- A word of 8 bytes that a span of bytes touches. -/
theorem mem_span_words {off n w : Nat} (h : w ∈ span (off / 8) (ceilDiv (off + n) 8 - off / 8)) : 8 * w < off + n ∧ off < 8 * w + 8 := by
  obtain ⟨i, hi, rfl⟩ := List.mem_map.mp h
  have hlt := List.mem_range.mp hi
  unfold ceilDiv at hlt
  omega

theorem State.tcmPoison_word {s : State} {core off n w : Nat} (hlo : 8 * w < off + n) (hhi : off < 8 * w + 8)
    (h : s.tcmPoison core off n = false) : s.tcmPoison core (8 * w) 8 = false := by
  simp only [State.tcmPoison, List.any_eq_false, Bool.and_eq_true, beq_iff_eq, decide_eq_true_eq] at h ⊢
  rintro q hq ⟨⟨hcore, _⟩, _⟩
  exact h q hq ⟨⟨hcore, by omega⟩, by omega⟩

theorem State.scrPoison_word {s : State} {g off n w : Nat} (hlo : 8 * w < off + n) (hhi : off < 8 * w + 8)
    (h : s.scrPoison g off n = false) : s.scrPoison g (8 * w) 8 = false := by
  simp only [State.scrPoison, List.any_eq_false, Bool.and_eq_true, decide_eq_true_eq] at h ⊢
  rintro q hq ⟨_, _⟩
  exact h q hq ⟨by omega, by omega⟩

/-- Bytes without poison have no poisoned word. -/
theorem State.poisonWord_of_clean {s : State} {core : Nat} {scr : Bool} {off n : Nat} (h : s.localPoison core scr off n = false) :
    s.poisonWord core scr off n = none := by
  have hclean : ∀ w ∈ span (off / 8) (ceilDiv (off + n) 8 - off / 8), ¬s.localPoison core scr (8 * w) 8 = true := by
    intro w hw
    obtain ⟨hlo, hhi⟩ := mem_span_words hw
    cases scr with
    | false => exact Bool.eq_false_iff.mp (State.tcmPoison_word hlo hhi h)
    | true => exact Bool.eq_false_iff.mp (State.scrPoison_word hlo hhi h)
  rw [State.poisonWord, List.find?_eq_none.mpr hclean, Option.map_none]

/-! ### The operands of an mma (R381) -/

/-- A handle is bound to a buffer whose slots hold n bytes, and the slot at cons is filled and free of poison, as is the descriptor (R371, R381). -/
def State.SlotFull (s : State) (h : HReg) (z : Cb) (n : Nat) : Prop :=
  s.cbOf (coreOf s.cur) h.toNat = some z ∧ n ≤ z.slotSize ∧ 0 < z.filled ∧ s.cbPoison (coreOf s.cur) h.toNat = none ∧
  s.localPoison (coreOf s.cur) z.scr (z.slotAt z.cons) n = false

theorem State.SlotFull.bufFor {s : State} {h : HReg} {z : Cb} {n : Nat} (hz : s.SlotFull h z n) : s.bufFor h n = .ok z := by
  obtain ⟨hcb, hsize, -, hdesc, -⟩ := hz
  simp [State.bufFor, hcb, hdesc, Nat.not_lt.mpr hsize]

theorem State.SlotFull.filledSlot {s : State} {h : HReg} {z : Cb} {n : Nat} (hz : s.SlotFull h z n) (k : Nat → Eff) :
    s.filledSlot h z n k = k (z.slotAt z.cons) := by
  obtain ⟨-, -, hfill, -, hclean⟩ := hz
  simp [State.filledSlot, Nat.pos_iff_ne_zero.mp hfill, State.poisonWord_of_clean hclean]

theorem State.SlotFull.mmaB {s : State} {b : HReg} {q : Cb} {n : Nat} (hq : s.SlotFull b q n) (mode : Nat) (k : Option HReg → Bool → Nat → Eff) :
    s.mmaB mode b (some q) n k = k (some b) q.scr (q.slotAt q.cons) :=
  hq.filledSlot _

theorem State.SlotFull.mmaA {s : State} {a : HReg} {z : Cb} {n : Nat} (hz : s.SlotFull a z (32 * n)) (xa : Word) (stride : Nat)
    (k : Option HReg → Bool → Nat → Nat → Eff) : s.mmaA xa a (some z) stride n k = k (some a) z.scr (z.slotAt z.cons) n :=
  hz.filledSlot fun o => k (some a) z.scr o n

/-- The 32 rows of A in TCM, none of them poisoned. -/
theorem State.mmaA_rows {s : State} {xa : Word} {stride n : Nat}
    (hclean : ∀ r, r < 32 → s.tcmPoison (coreOf s.cur) (xa.toNat + r * stride) n = false) (a : HReg) (k : Option HReg → Bool → Nat → Nat → Eff) :
    s.mmaA xa a none stride n k = k none false xa.toNat stride := by
  have hrows : (List.range 32).findSome? (fun i => s.poisonWord (coreOf s.cur) false (xa.toNat + i * stride) n) = none :=
    List.findSome?_eq_none_iff.mpr fun r hr => State.poisonWord_of_clean (hclean r (List.mem_range.mp hr))
  simp only [State.mmaA, hrows]

/-! ### The issue (R21, R379, R380) -/

theorem groveOfCore_coreOf (k : Nat) : groveOfCore (coreOf k) = groveOf k := Nat.div_div_eq_div_mul k 4 8

/-- The state in which an mma of the slot's core is pending: the slot owns the accumulator, and a unit that serves no core serves this one. -/
def State.mmaPending (s : State) (op : MmaOp) : State :=
  let t := s.setCore (coreOf s.cur) { s.myCore with owner := some s.cur, mma := some op }
  if s.myGrove.serving.isNone then t.setGrove (groveOf s.cur) { s.myGrove with serving := some (coreOf s.cur % 8) } else t

theorem State.mmaEnter_pending (s : State) (op : MmaOp) :
    (s.modMyCore fun c => { c with mma := some op, owner := some s.cur }).mmaEnter (coreOf s.cur) = s.mmaPending op := by
  cases hserv : s.myGrove.serving with
  | none =>
    have hg : (s.grove (groveOf s.cur)).serving = none := hserv
    simp [State.mmaEnter, State.mmaPending, groveOfCore_coreOf, hg, State.myGrove]
  | some k =>
    have hg : (s.grove (groveOf s.cur)).serving = some k := hserv
    simp [State.mmaEnter, State.mmaPending, groveOfCore_coreOf, hg, hserv]

/-- With no earlier mma pending, and for a ring one the outgoing hold empty, only gated sub-arrays keep an mma from its issue: they are asked to wake. -/
theorem State.mmaIssue_idle {s : State} {op : MmaOp} (hidle : s.myCore.mma = none) (hout : op.mode = 1 → s.myCore.ringOut = none) :
    s.mmaIssue op = if s.myGrove.gated then .hold (s.modMyGrove fun g => { g with waking := true }) else .next (s.mmaPending op) := by
  have hfree : (s.myCore.mma.isSome || (decide (op.mode = 1) && s.myCore.ringOut.isSome)) = false := by
    by_cases hring : op.mode = 1
    · simp [hidle, hout hring]
    · simp only [hidle, hring, Option.isSome_none, decide_false, Bool.false_and, Bool.or_self]
  simp only [State.mmaIssue, hfree, Bool.false_eq_true, if_false, State.mmaEnter_pending]

/-- An instruction issues an mma and leaves t after its chain; on gated sub-arrays it asks for their wake and is held. -/
def State.IssuesOrWakes (s : State) (i : Instr) (t : State) : Prop :=
  if s.myGrove.gated then
    exec i s = .next ((s.setGrove (groveOf s.cur) { s.myGrove with waking := true }).setSlot s.cur { s.me with held := true })
  else exec i s = .next t.advance

theorem State.issuesOrWakes_of_mmaIssue {s : State} {i : Instr} {op : MmaOp} (hexec : exec i s = finish (s.mmaIssue op))
    (hidle : s.myCore.mma = none) (hout : op.mode = 1 → s.myCore.ringOut = none) : s.IssuesOrWakes i (s.mmaPending op) := by
  rw [State.mmaIssue_idle hidle hout] at hexec
  unfold State.IssuesOrWakes
  rw [hexec]
  cases s.myGrove.gated with
  | true => simp
  | false => simp

/-! ### The step of an mma, up to its issue -/

/-- The instruction of a mode of mma (R378). -/
def mmaInstr (mode : Nat) (a : Reg) (b : HReg) (asrc : Bool) (fmt : BitVec 4) : Instr :=
  if mode = 0 then .mma a b asrc fmt else if mode = 1 then .mmaRing a b asrc fmt else if mode = 2 then .mmaLx a b asrc fmt
  else .mmaLa a b asrc fmt

theorem exec_mmaInstr {mode : Nat} (hmode : mode < 4) (a : Reg) (b : HReg) (asrc : Bool) (fmt : BitVec 4) (s : State) :
    exec (mmaInstr mode a b asrc fmt) s = guarded s (mmaStep mode a b asrc fmt s) := by
  match mode, hmode with
  | 0, _ => rfl
  | 1, _ => rfl
  | 2, _ => rfl
  | 3, _ => rfl

/-- The mma of the slot in a mode, with its B operand in the slot at cons of a buffer. -/
def State.mmaOpOf (s : State) (mode : Nat) (b : HReg) (q : Cb) (ah : Option HReg) (ascr : Bool) (aoff stride : Nat) : MmaOp :=
  ⟨s.cur, s.myGrp, s.me.task, BitVec.ofNat 2 mode, ah, some b, ascr, aoff, stride, q.scr, q.slotAt q.cons, s.myCore.ltEn, s.myCore.ltOff⟩

section Step
variable {s : State} {mode : Nat} {b : HReg} {q : Cb} {fmt : BitVec 4}

/-- Orders 5 and 6 of R381 pass, and B stands in its slot: what is left is A. -/
theorem State.mmaGo_latent (hlat : 2 ≤ mode → s.myGrove.latDc ≠ 0 ∧ s.myGrove.poisonLat = false) {nb : Nat} (hq : s.SlotFull b q nb)
    (xa : Word) (ah : HReg) (ab : Option Cb) (na : Nat) :
    s.mmaGo mode xa ah b ab (some q) na nb =
      s.mmaA xa ah ab s.myCore.fmt.astride.toNat na fun h scr off stride => s.mmaIssue (s.mmaOpOf mode b q h scr off stride) := by
  by_cases hmode : 2 ≤ mode
  · obtain ⟨hwidth, hpoison⟩ := hlat hmode
    simp [State.mmaGo, hwidth, hpoison, hq.mmaB, State.mmaOpOf]
  · simp [State.mmaGo, hmode, hq.mmaB, State.mmaOpOf]

/-- B comes from the ring latch only in ring mode right of column 0 (R382). -/
theorem State.noLatch_of_column_zero (hcolumn : mode = 1 → (s.ringAt s.myGrp (coreOf s.cur)).1 = 0) :
    (decide (mode = 1) && decide ((s.ringAt s.myGrp (coreOf s.cur)).1 ≠ 0)) = false := by
  by_cases h : mode = 1
  · simp [hcolumn h]
  · simp [h]

variable (href : s.myCore.fmt.refuses mode fmt.toNat = false) (hq : s.SlotFull b q (s.myCore.fmt.bSize mode s.myGrove.latDc))
  (hcolumn : mode = 1 → (s.ringAt s.myGrp (coreOf s.cur)).1 = 0) (hlat : 2 ≤ mode → s.myGrove.latDc ≠ 0 ∧ s.myGrove.poisonLat = false)
include href hq hcolumn hlat

/-- An mma whose rows of A are in place in TCM goes on to its issue. -/
theorem mmaStep_rows (a : Reg) (hxa : (s.x a).toNat % 8 = 0) (hstride : s.myCore.fmt.astride.toNat % 8 = 0)
    (hend : (s.x a).toNat + 31 * s.myCore.fmt.astride.toNat + s.myCore.fmt.aBytes mode ≤ s.myCore.utop.toNat * 256)
    (hclean : ∀ r, r < 32 →
      s.tcmPoison (coreOf s.cur) ((s.x a).toNat + r * s.myCore.fmt.astride.toNat) (s.myCore.fmt.aBytes mode) = false) :
    mmaStep mode a b false fmt s = s.mmaIssue (s.mmaOpOf mode b q none false (s.x a).toNat s.myCore.fmt.astride.toNat) := by
  simp only [mmaStep, href, State.noLatch_of_column_zero hcolumn, hq.bufFor, hxa, hstride, Nat.not_lt.mpr hend]
  simp [Except.map, State.mmaGo_latent hlat hq, State.mmaA_rows hclean]

/-- An mma whose A is in the filled slot of another buffer goes on to its issue. -/
theorem mmaStep_slot (a : Reg) (hne : a.setWidth 4 ≠ b) {z : Cb} (hz : s.SlotFull (a.setWidth 4) z (32 * s.myCore.fmt.aBytes mode)) :
    mmaStep mode a b true fmt s =
      s.mmaIssue (s.mmaOpOf mode b q (some (a.setWidth 4)) z.scr (z.slotAt z.cons) (s.myCore.fmt.aBytes mode)) := by
  simp only [mmaStep, href, State.noLatch_of_column_zero hcolumn, hq.bufFor, hz.bufFor]
  simp [Except.map, hne, State.mmaGo_latent hlat hq, hz.mmaA]

end Step

/-- Settles O26: the checks of R381 pass, so that the step is its issue, and an issue only waits for the wake of gated sub-arrays. -/
theorem matrixIssue : Obligations.MatrixIssue := by
  intro s a b fmt asrc mode q hacts hmode core c f xa ah na nb i full issued runs href hidle hq hring hlat
  have hcolumn : mode = 1 → (s.ringAt s.myGrp (coreOf s.cur)).1 = 0 := fun h => (hring h).2
  have hout : BitVec.ofNat 2 mode = 1 → s.myCore.ringOut = none := by
    intro h
    refine (hring ?_).1
    have hval : mode % 2 ^ 2 = 1 := congrArg BitVec.toNat h
    omega
  have hexec : exec i s = finish (mmaStep mode a b asrc fmt s) := (exec_mmaInstr hmode a b asrc fmt s).trans (guarded_acts hacts _)
  refine ⟨?rows, ?slot⟩
  case rows =>
    rintro rfl hxa hstride hend hclean
    rw [mmaStep_rows href hq hcolumn hlat a hxa hstride hend hclean] at hexec
    exact State.issuesOrWakes_of_mmaIssue hexec hidle hout
  case slot =>
    rintro rfl hne z hz
    rw [mmaStep_slot href hq hcolumn hlat a hne hz] at hexec
    exact State.issuesOrWakes_of_mmaIssue hexec hidle hout

end Sys2Proof.Machine
end

section
/-! PROOF. The units that cold reset leaves (R249, log 2): a unit that no list holds is its reset value. -/

namespace Sys2Proof.Machine

theorem State.reset_slot (k : Nat) : State.reset.slot k = Slot.reset := rfl
theorem State.reset_grove (g : Nat) : State.reset.grove g = Grove.reset := rfl
theorem State.reset_ctxOf (c : Nat) : State.reset.ctxOf c = Ctx.reset := rfl
theorem State.reset_link (n : Nat) : State.reset.link n = Link.reset := rfl

theorem State.reset_slotsWf : State.reset.slotsWf = true := rfl

theorem Slot.reset_xr (r : Reg) : Slot.reset.xr r = 0 := by
  unfold Slot.xr
  split
  · rfl
  · exact Vector.getElem_replicate r.isLt

/-- R347: k0 reads as all ones whatever the slot holds. -/
theorem Slot.getLsbD_kr_zero (sl : Slot) (i : Nat) : (sl.kr 0).getLsbD i = decide (i < 128) := BitVec.getLsbD_allOnes

/-- No recipe but the first is set (R123). -/
theorem State.reset_recipes {i : Nat} (h : 0 < i) : State.reset.recipes.get i 0 = 0 := by
  have hne : 0 ≠ i := Nat.ne_of_lt h
  simp [State.reset, PMap.get, PMap.find, hne]

/-- Settles O60: the module's own registers are literals, and every unit is its reset value. -/
theorem resetValues : Obligations.ResetValues := by
  refine ⟨State.reset_memsWf, State.reset_slotsWf, ?module, ?ctxLink, ?slots, ?groves⟩
  case module =>
    exact ⟨rfl, rfl, rfl, rfl, rfl, rfl, rfl, rfl, rfl, fun _ => State.reset_recipes, rfl, rfl, rfl, rfl⟩
  case ctxLink =>
    intro k
    rw [State.reset_ctxOf, State.reset_link]
    exact ⟨rfl, rfl⟩
  case slots =>
    intro k
    rw [State.reset_slot]
    exact ⟨rfl, rfl, rfl, rfl, rfl, rfl, rfl, rfl, rfl, rfl, rfl, rfl, rfl, rfl, Slot.reset_xr, Slot.getLsbD_kr_zero _⟩
  case groves =>
    intro g
    rw [State.reset_grove]
    exact ⟨rfl, rfl, rfl⟩

end Sys2Proof.Machine
end

section
/-! PROOF. Rounding a value that the format holds (R33, R34, R40). -/

namespace Sys2Proof.Machine

/-! ### Patterns -/

/-- The three fields of a pattern, put together again. -/
theorem FFmt.signBit_add_fields (f : FFmt) {v : Nat} (hv : v < 2 ^ f.width) :
    f.signBit (bitAt v (f.eb + f.fb)) + (v / 2 ^ f.fb % 2 ^ f.eb * 2 ^ f.fb + v % 2 ^ f.fb) = v := by
  have hsign : flag (bitAt v (f.eb + f.fb)) = v / 2 ^ (f.eb + f.fb) := by
    have hlt : v / 2 ^ (f.eb + f.fb) < 2 := by
      rw [Nat.div_lt_iff_lt_mul (by positivity), ← pow_succ']
      exact hv.trans_eq (congrArg (2 ^ ·) (by unfold FFmt.width; omega))
    interval_cases h : v / 2 ^ (f.eb + f.fb) <;> simp [bitAt, flag, h]
  have hfrac := Nat.div_add_mod' v (2 ^ f.fb)
  have hexp := Nat.div_add_mod' (v / 2 ^ f.fb) (2 ^ f.eb)
  rw [Nat.div_div_eq_div_mul, ← pow_add, add_comm f.fb] at hexp
  calc f.signBit (bitAt v (f.eb + f.fb)) + (v / 2 ^ f.fb % 2 ^ f.eb * 2 ^ f.fb + v % 2 ^ f.fb)
      = (v / 2 ^ (f.eb + f.fb) * 2 ^ f.eb + v / 2 ^ f.fb % 2 ^ f.eb) * 2 ^ f.fb + v % 2 ^ f.fb := by
        rw [FFmt.signBit, hsign, pow_add]; ring
    _ = v := by rw [hexp, hfrac]

/-- A finite result whose exponent field and significand lie above the format's range (R33, R34). -/
def FFmt.overflows (f : FFmt) (ef : Int) (sig : Nat) : Bool :=
  if f.e4m3 then decide (15 < ef) || (decide (ef = 15) && sig == 15) else decide (Int.ofNat f.emax ≤ ef)

/-- A format whose exponent field has a normal value; E4M3 has its own widths (R32). -/
def FFmt.Regular (f : FFmt) : Prop := 2 ≤ f.eb ∧ (f.e4m3 = true → f.eb = 4 ∧ f.fb = 3)

theorem FFmt.regular_of_mem {f : FFmt} (h : f ∈ [fmtF32, fmtBf16, fmtF16, fmtE4m3, fmtE5m2]) : f.Regular := by
  revert f
  unfold FFmt.Regular
  decide

/-- What a pattern that is no NaN holds: an infinity, a subnormal or a zero, or a normal number in range. -/
theorem FFmt.value_cases {f : FFmt} (hf : f.Regular) {v : Nat} (hnan : f.value v ≠ .nan) :
    let neg := bitAt v (f.eb + f.fb)
    let e := v / 2 ^ f.fb % 2 ^ f.eb
    let m := v % 2 ^ f.fb
    (f.value v = .inf neg ∧ f.e4m3 = false ∧ e = f.emax ∧ m = 0) ∨
    (f.value v = .fin neg m (1 - Int.ofNat (f.bias + f.fb)) ∧ e = 0) ∨
    (f.value v = .fin neg (2 ^ f.fb + m) (Int.ofNat e - Int.ofNat (f.bias + f.fb)) ∧ 0 < e ∧ f.overflows (Int.ofNat e) (2 ^ f.fb + m) = false) := by
  intro neg e m
  cases hk : f.e4m3 with
  | true =>
    obtain ⟨heb, hfb⟩ := hf.2 hk
    have hlt : e < 2 ^ 4 := heb ▸ Nat.mod_lt _ (by positivity)
    have hml : m < 2 ^ 3 := hfb ▸ Nat.mod_lt _ (by positivity)
    have hval : f.value v = if e = 15 ∧ m = 7 then .nan else if e = 0 then .fin neg m (1 - Int.ofNat (f.bias + f.fb))
        else .fin neg (2 ^ f.fb + m) (Int.ofNat e - Int.ofNat (f.bias + f.fb)) := by
      simp only [FFmt.value, hk, if_true, neg, e, m]
    split_ifs at hval with htop hzero
    · exact absurd hval hnan
    · exact .inr (.inl ⟨hval, hzero⟩)
    · refine .inr (.inr ⟨hval, Nat.pos_of_ne_zero hzero, ?_⟩)
      simp only [FFmt.overflows, hk, if_true, hfb, Bool.or_eq_false_iff, Bool.and_eq_false_iff, decide_eq_false_iff_not, beq_eq_false_iff_ne,
        Int.ofNat_eq_natCast]
      omega
  | false =>
    have hlt : e < 2 ^ f.eb := Nat.mod_lt _ (by positivity)
    have hval : f.value v = if e = f.emax then (if m = 0 then .inf neg else .nan)
        else if e = 0 then .fin neg m (1 - Int.ofNat (f.bias + f.fb))
        else .fin neg (2 ^ f.fb + m) (Int.ofNat e - Int.ofNat (f.bias + f.fb)) := by
      simp only [FFmt.value, hk, Bool.false_eq_true, if_false, neg, e, m]
    split_ifs at hval with htop hfrac hzero
    · exact .inl ⟨hval, rfl, htop, hfrac⟩
    · exact absurd hval hnan
    · exact .inr (.inl ⟨hval, hzero⟩)
    · refine .inr (.inr ⟨hval, Nat.pos_of_ne_zero hzero, ?_⟩)
      have hemax : f.emax = 2 ^ f.eb - 1 := rfl
      simp only [FFmt.overflows, hk, Bool.false_eq_true, if_false, decide_eq_false_iff_not, Int.ofNat_eq_natCast]
      omega

/-! ### Rounding -/

/-- A number whose last place is already the format's keeps it: no bit is lost, and the fields are those of the number. -/
theorem FFmt.round_fin_exact {f : FFmt} {m : Nat} {e : Int} (hm : m ≠ 0) (hsig : m < 2 ^ (f.fb + 1))
    (hplace : max (Int.ofNat (Nat.log2 m) + e) (1 - Int.ofNat f.bias) = e + Int.ofNat f.fb)
    (hrange : f.overflows (e + Int.ofNat f.fb + Int.ofNat f.bias) m = false) (rm : Nat) (sat : Bool) (r : Nat) (neg : Bool) :
    f.round rm sat r (.fin neg m e) =
      (f.signBit neg + if m < 2 ^ f.fb then m else (e + Int.ofNat f.fb + Int.ofNat f.bias).toNat * 2 ^ f.fb + (m - 2 ^ f.fb), 0) := by
  have hqe : (if Int.ofNat (Nat.log2 m) + e < 1 - Int.ofNat f.bias then 1 - Int.ofNat f.bias else Int.ofNat (Nat.log2 m) + e) - Int.ofNat f.fb = e := by
    split <;> omega
  unfold FFmt.overflows at hrange
  simp only [FFmt.round, hm, if_false, hqe, le_refl, if_true, sub_self, Int.toNat_zero, pow_zero, mul_one, Nat.not_le.mpr hsig, decide_false,
    Bool.false_eq_true, hrange, Bool.not_true, Bool.false_and, add_zero]

theorem FFmt.round_zero (f : FFmt) (rm : Nat) (sat : Bool) (r : Nat) (neg : Bool) (e : Int) :
    f.round rm sat r (.fin neg 0 e) = (f.signBit neg, 0) := rfl

/-- A nonzero number below the least normal one, in units of the least subnormal. -/
theorem FFmt.round_subnormal {f : FFmt} (hf : f.Regular) {m : Nat} (hm : m ≠ 0) (hlt : m < 2 ^ f.fb) (rm : Nat) (sat : Bool) (r : Nat) (neg : Bool) :
    f.round rm sat r (.fin neg m (1 - Int.ofNat (f.bias + f.fb))) = (f.signBit neg + m, 0) := by
  have hlog : Nat.log2 m < f.fb := (Nat.log2_lt hm).mpr hlt
  have hemax : 1 < f.emax := by
    have hpow : 2 ^ 2 ≤ 2 ^ f.eb := Nat.pow_le_pow_right Nat.two_pos hf.1
    unfold FFmt.emax
    omega
  have hrange : f.overflows 1 m = false := by
    unfold FFmt.overflows
    split
    · rfl
    · exact decide_eq_false (by rw [Int.ofNat_eq_natCast]; omega)
  have hef : 1 - Int.ofNat (f.bias + f.fb) + Int.ofNat f.fb + Int.ofNat f.bias = 1 := by simp only [Int.ofNat_eq_natCast]; omega
  rw [FFmt.round_fin_exact hm (by omega) (by simp only [Int.ofNat_eq_natCast]; omega) (by rwa [hef]), if_pos hlt]

/-- A normal number in range, its leading one in place. -/
theorem FFmt.round_normal {f : FFmt} {m e : Nat} (hm : m < 2 ^ f.fb) (he : 0 < e) (hrange : f.overflows (Int.ofNat e) (2 ^ f.fb + m) = false)
    (rm : Nat) (sat : Bool) (r : Nat) (neg : Bool) :
    f.round rm sat r (.fin neg (2 ^ f.fb + m) (Int.ofNat e - Int.ofNat (f.bias + f.fb))) = (f.signBit neg + (e * 2 ^ f.fb + m), 0) := by
  have hlog : Nat.log2 (2 ^ f.fb + m) = f.fb := by
    rw [Nat.log2_eq_iff (by positivity)]
    omega
  have hef : Int.ofNat e - Int.ofNat (f.bias + f.fb) + Int.ofNat f.fb + Int.ofNat f.bias = Int.ofNat e := by simp only [Int.ofNat_eq_natCast]; omega
  rw [FFmt.round_fin_exact (by positivity) (by omega) (by rw [hlog]; simp only [Int.ofNat_eq_natCast]; omega) (by rwa [hef]), if_neg (by omega), hef, Nat.add_sub_cancel_left]
  rfl

/-- Settles O9: a pattern is an infinity, a zero, a subnormal or a normal number, and each rounds to its own fields. -/
theorem roundKeepsRepresentable : Obligations.RoundKeepsRepresentable := by
  intro f hmem rm r v sat hv _ hnan
  have hf := FFmt.regular_of_mem hmem
  have hpat := FFmt.signBit_add_fields f hv
  obtain ⟨hval, hk, he, hm⟩ | ⟨hval, he⟩ | ⟨hval, he, hrange⟩ := FFmt.value_cases hf hnan
  · rw [he, hm, add_zero] at hpat
    simp only [hval, FFmt.round, FFmt.infBits, hk, Bool.false_eq_true, if_false, hpat]
  · rw [he, zero_mul, zero_add] at hpat
    rw [hval]
    by_cases hm : v % 2 ^ f.fb = 0
    · rw [hm, add_zero] at hpat
      rw [hm, FFmt.round_zero, hpat]
    · rw [FFmt.round_subnormal hf hm (Nat.mod_lt _ (by positivity)), hpat]
  · rw [hval, FFmt.round_normal (Nat.mod_lt _ (by positivity)) he hrange, hpat]

end Sys2Proof.Machine
end

section
/-! PROOF. The rows of one special register's write: the checks that pass (R315), and what each register's write leaves. -/

namespace Sys2Proof.Machine

/-! ### Bit fields as words -/

/-- A bit field of a word's number is the field of its bits. -/
theorem bits_toNat {n w hi lo : Nat} (v : BitVec n) (h : hi + 1 - lo = w) : bits v.toNat hi lo = (v.extractLsb' lo w).toNat := by
  rw [bits, h, BitVec.extractLsb'_toNat, Nat.shiftRight_eq_div_pow]

/-- A bit field kept in its place is the word under its mask. -/
theorem ofNat_at_bits {n : Nat} (v : BitVec n) (hi lo : Nat) :
    BitVec.ofNat n (at_ (bits v.toNat hi lo) lo) = v &&& BitVec.ofNat n (at_ (2 ^ (hi + 1 - lo) - 1) lo) := by
  apply BitVec.eq_of_getLsbD_eq
  intro i hi'
  simp only [at_, bits, BitVec.getLsbD_ofNat, BitVec.getLsbD_and, Nat.testBit_mul_two_pow, Nat.testBit_mod_two_pow, Nat.testBit_two_pow_sub_one,
    Nat.testBit_div_two_pow]
  by_cases h : lo ≤ i
  · simp [h, hi', BitVec.testBit_toNat, Bool.and_comm]
  · simp [h]

/-- Two fields of one word, the lower one below the place of the other. -/
theorem ofNat_at_add {n x y lo : Nat} (hy : y < 2 ^ lo) : BitVec.ofNat n (at_ x lo + y) = BitVec.ofNat n (at_ x lo) ||| BitVec.ofNat n y := by
  rw [at_, Nat.mul_comm, Nat.two_pow_add_eq_or_of_lt hy, BitVec.ofNat_or]

theorem bits_eq_zero {n : Nat} (v : BitVec n) (hi lo : Nat) : bits v.toNat hi lo = 0 ↔ v.extractLsb' lo (hi + 1 - lo) = 0 := by
  rw [bits_toNat v rfl]
  exact BitVec.toNat_inj (y := 0)

/-! ### The checks of a write (R315) -/

/-- A write of a register that is no command register, by a core that may write it past its wall. -/
theorem guarded_wrChecked {s : State} {n : Nat} (hacts : s.acts) (hfw : srFw n = true → s.isFw s.cur = true) (hwall : s.walled n = false)
    (hcmd : srCommand n = false) (write : Word → State → Eff) (v : Word) : guarded s (wrChecked n write v s) = finish (write v s) := by
  rw [guarded_acts hacts]
  have hpriv : (srFw n && !s.isFw s.cur) = false := by
    cases h : srFw n with
    | false => rfl
    | true => simp [hfw h]
  simp [wrChecked, hpriv, hwall, hcmd]

/-- A wall stands before gq.base and the host windows alone (R253). -/
theorem State.walled_low (s : State) {n : Nat} (h : n < 0x89) : s.walled n = false := by
  have h1 : n ≠ 0x89 := by omega
  have h2 : ¬0xC0 ≤ n := by omega
  simp [State.walled, h1, h2]

theorem State.walled_open {s : State} (h : s.myGrove.wallLock = false) (n : Nat) : s.walled n = false := by
  simp [State.walled, h]

/-! ### What each register's write leaves, by the access code of its fields (R6) -/

section Writes
variable (s : State) (v : Word)

theorem finish_setSlot (q : Slot) : finish (.next (s.setSlot s.cur q)) = .next (s.setSlot s.cur { q with pc := q.npc }) := by
  simp only [finish_next, State.advance_eq, State.setSlot_cur, State.setSlot_me, State.setSlot_setSlot]

/-- The word that fp.ctl takes: the flags of v, and its mode unless that is reserved (R43). -/
def fpCtlWord (old v : Word) : Word := v &&& 0x3F00 ||| (if (v &&& 7).toNat ≤ 4 then v else old) &&& 7

theorem bits_two_zero (x : Word) : bits x.toNat 2 0 = (x &&& 7).toNat := by
  rw [BitVec.toNat_and]
  exact (congrArg (· % 8) (Nat.div_one x.toNat)).trans (Nat.and_two_pow_sub_one_eq_mod x.toNat 3).symm

theorem wrFpCtl_eq : wrFpCtl v s = .next (s.setSlot s.cur { s.me with fpCtl := fpCtlWord s.me.fpCtl v }) := by
  have hflags : BitVec.ofNat 64 (at_ (bits v.toNat 13 8) 8) = v &&& 0x3F00 := ofNat_at_bits v 13 8
  have hmode : (if (v &&& 7).toNat ≤ 4 then (v &&& 7).toNat else (s.me.fpCtl &&& 7).toNat) =
      ((if (v &&& 7).toNat ≤ 4 then v else s.me.fpCtl) &&& 7).toNat := by
    split <;> rfl
  have hlow : ((if (v &&& 7).toNat ≤ 4 then v else s.me.fpCtl) &&& 7).toNat < 2 ^ 8 := by
    rw [← bits_two_zero]
    exact (Nat.mod_lt _ (by norm_num)).trans (by norm_num : 2 ^ (2 + 1 - 0) < 2 ^ 8)
  simp only [wrFpCtl, State.modMe_eq, bits_two_zero, hmode, ofNat_at_add hlow, hflags, BitVec.ofNat_toNat, BitVec.setWidth_eq, fpCtlWord]

theorem fpCtlWord_reserved (old : Word) : fpCtlWord old v &&& ~~~0x3F07 = 0 := by
  rw [fpCtlWord, BitVec.and_or_distrib_right, BitVec.and_assoc, BitVec.and_assoc]
  simp

theorem fpCtlWord_flags (old : Word) : fpCtlWord old v &&& 0x3F00 = v &&& 0x3F00 := by
  rw [fpCtlWord, BitVec.and_or_distrib_right, BitVec.and_assoc, BitVec.and_assoc]
  simp

theorem fpCtlWord_mode (old : Word) : fpCtlWord old v &&& 7 = if (v &&& 7).toNat ≤ 4 then v &&& 7 else old &&& 7 := by
  rw [fpCtlWord, BitVec.and_or_distrib_right, BitVec.and_assoc, BitVec.and_assoc]
  split <;> simp

theorem wrPrStk_eq : wrPrStk v s = .next (if 16 < (v.extractLsb' 16 5).toNat then s
    else s.setSlot s.cur { s.me with prDepth := BitVec.ofNat 5 (v.extractLsb' 16 5).toNat, prVals := BitVec.ofNat 16 (v.toNat % 2 ^ (v.extractLsb' 16 5).toNat) }) := by
  have hdepth : bits v.toNat 20 16 = (v.extractLsb' 16 5).toNat := bits_toNat v rfl
  simp only [wrPrStk, hdepth, State.modMe_eq]

theorem wrFutCtl_eq : wrFutCtl v s = .next (s.setSlot s.cur { s.me with
    futLife := v.extractLsb' 16 32, futRefused := if v.extractLsb' 8 8 = 0#8 then s.me.futRefused else 0 }) := by
  simp [wrFutCtl, bits_eq_zero]

theorem wrSkewCfg_eq : wrSkewCfg v s = .next (s.setCore (coreOf s.cur) { s.myCore with
    skewBase := v.extractLsb' 20 12, skewRows := v.extractLsb' 8 12
    skewEn := v.getLsbD 32 && decide (((v.extractLsb' 20 12).toNat + (v.extractLsb' 8 12).toNat + 1) * 256 ≤ 2 ^ 20) }) := by
  have hbase : bits v.toNat 31 20 = (v.extractLsb' 20 12).toNat := bits_toNat v rfl
  have hrows : bits v.toNat 19 8 = (v.extractLsb' 8 12).toNat := bits_toNat v rfl
  simp only [wrSkewCfg, hbase, hrows, State.modMyCore_eq, BitVec.ofNat_toNat, BitVec.setWidth_eq, ← Nat.add_mul, ← Nat.add_assoc]
  rfl

theorem wrErrStat_eq : wrErrStat v s = .next (s.setGrove (groveOf s.cur) { s.myGrove with
    corr := if v.extractLsb' 32 32 = 0#32 then s.myGrove.corr else 0
    uncorr := if v.extractLsb' 16 16 = 0#16 then s.myGrove.uncorr else 0 }) := by
  simp [wrErrStat, bits_eq_zero]

theorem wrWdCtl_eq : wrWdCtl v s = .next (s.setGrove (groveOf s.cur) { s.myGrove with
    wdRun := v.extractLsb' 32 32, wdHang := if v.extractLsb' 16 16 = 0#16 then 1 else v.extractLsb' 16 16
    pingAt := s.tick.toNat + (if v.extractLsb' 16 16 = 0#16 then 1 else (v.extractLsb' 16 16).toNat) }) := by
  simp only [wrWdCtl, State.modMyGrove_eq, apply_ite BitVec.toNat]
  rfl

/-- The wall of a firmware core's grove takes its lock and its permit bits until it is locked (R253). -/
theorem wrFwWall_open (hfw : s.isFw s.cur = true) (hwall : s.myGrove.wallLock = false) :
    wrFwWall v s = .next (s.setGrove (groveOf s.cur) { s.myGrove with wallLock := v.getLsbD 63, wallBits := v.extractLsb' 4 4 }) := by
  simp only [wrFwWall, hfw, if_true, State.modMyGrove_eq, hwall, Bool.false_eq_true, if_false]

theorem toNat_extractLsb_zero : (v.extractLsb' 0 16).toNat = v.toNat % 2 ^ 16 := by
  rw [← bits_toNat v (hi := 15) rfl, bits, pow_zero, Nat.div_one]

theorem wrRqBackoff_eq : wrRqBackoff v s = .next { s with
    boMax := if v.extractLsb' 16 16 = 0#16 then 1 else v.extractLsb' 16 16
    boBase := if v.extractLsb' 0 16 = 0#16 then 1 else v.extractLsb' 0 16 } := by
  have hbase : v.setWidth 16 = v.extractLsb' 0 16 := BitVec.eq_of_toNat_eq (by rw [BitVec.toNat_setWidth, toNat_extractLsb_zero])
  simp only [wrRqBackoff, hbase]
  rfl

/-- A bound of gs.ctl is held between 1 and 200 (R233). -/
theorem wrGsCtl_open (hlock : s.gsLock = false) : wrGsCtl v s = .next { s with
    gsLock := v.getLsbD 63
    gsBound := if v.extractLsb' 8 8 = 0#8 then 1 else if 200#8 < v.extractLsb' 8 8 then 200 else v.extractLsb' 8 8 } := by
  have hbound : bits v.toNat 15 8 = (v.extractLsb' 8 8).toNat := bits_toNat v rfl
  have hzero : (v.extractLsb' 8 8).toNat = 0 ↔ v.extractLsb' 8 8 = 0#8 := BitVec.toNat_inj (y := 0#8)
  simp only [wrGsCtl, hlock, Bool.false_eq_true, if_false, hbound, hzero, BitVec.ofNat_toNat, BitVec.setWidth_eq, BitVec.lt_def]
  rfl

theorem wrGsCtl_locked (hlock : s.gsLock = true) : wrGsCtl v s = .next s := by
  simp only [wrGsCtl, hlock, if_true]

theorem wrPwLim_below (h : v.toNat % 2 ^ 16 ≤ s.pwTable.toNat) : wrPwLim v s = .next { s with pwLim := v.extractLsb' 0 16 } := by
  rw [wrPwLim, if_pos h, ← toNat_extractLsb_zero, BitVec.ofNat_toNat, BitVec.setWidth_eq]

/-- Above the table's limit and past an open wall, at most 2400 (R255). -/
theorem wrPwLim_above (h : s.pwTable.toNat < v.toNat % 2 ^ 16) (hwall : s.myGrove.wallLock = false) :
    wrPwLim v s = .next { s with pwLim := if 2400#16 < v.extractLsb' 0 16 then 2400 else v.extractLsb' 0 16 } := by
  have hclamp : BitVec.ofNat 16 (if 2400 < v.toNat % 2 ^ 16 then 2400 else v.toNat % 2 ^ 16) =
      if 2400#16 < v.extractLsb' 0 16 then 2400 else v.extractLsb' 0 16 := by
    simp only [← toNat_extractLsb_zero, BitVec.lt_def]
    split
    · next hgt => exact (if_pos hgt).symm
    · next hle =>
      rw [BitVec.ofNat_toNat, BitVec.setWidth_eq]
      exact (if_neg hle).symm
  simp only [wrPwLim, Nat.not_le.mpr h, if_false, hwall, Bool.false_and, Bool.false_eq_true, hclamp]

theorem wrRtCfg_ignored (h : 25 ≤ (v.extractLsb' 0 5).toNat) : wrRtCfg v s = .next s := by
  have hk : bits v.toNat 4 0 = (v.extractLsb' 0 5).toNat := bits_toNat v rfl
  simp only [wrRtCfg, hk, h, if_true]

theorem wrRtCfg_stored (h : (v.extractLsb' 0 5).toNat < 25) : wrRtCfg v s = .next { s with rtCfg := v &&& 0x000FFFFFFFFFF01F } := by
  have hk : ¬25 ≤ bits v.toNat 4 0 := by
    rw [bits_toNat v (w := 5) rfl]
    omega
  have hhigh : BitVec.ofNat 64 (at_ (bits v.toNat 51 12) 12) = v &&& 0x000FFFFFFFFFF000 := ofNat_at_bits v 51 12
  have hlow : BitVec.ofNat 64 (bits v.toNat 4 0) = v &&& 0x1F := by
    have hfield := ofNat_at_bits v 4 0
    rwa [at_, pow_zero, mul_one] at hfield
  have hlt : bits v.toNat 4 0 < 2 ^ 12 := by omega
  rw [wrRtCfg, if_neg hk, ofNat_at_add hlt, hhigh, hlow, ← BitVec.and_or_distrib_left]
  rfl

/-- A term of a recipe that may be stored: no reserved bit, and no reserved source under a weight (R95). -/
theorem termOk_iff (t : BitVec 16) :
    termOk t.toNat = true ↔ t.extractLsb' 0 4 = 0#4 ∧ (t.extractLsb' 8 8 = 0#8 ∨ (t.extractLsb' 4 4).toNat ≤ 8) := by
  have hsource : bits t.toNat 7 4 = (t.extractLsb' 4 4).toNat := bits_toNat t rfl
  simp only [termOk, Bool.and_eq_true, Bool.or_eq_true, beq_iff_eq, decide_eq_true_eq, bits_eq_zero, hsource]
  rfl

theorem recipe_all_iff : ((List.range 4).all fun i => termOk (bits v.toNat (16 * i + 15) (16 * i))) = true ↔
    ∀ i, i < 4 → (v.extractLsb' (16 * i) 16).extractLsb' 0 4 = 0#4 ∧
      ((v.extractLsb' (16 * i) 16).extractLsb' 8 8 = 0#8 ∨ ((v.extractLsb' (16 * i) 16).extractLsb' 4 4).toNat ≤ 8) := by
  have hterm : ∀ i, bits v.toNat (16 * i + 15) (16 * i) = (v.extractLsb' (16 * i) 16).toNat := fun i => bits_toNat v (by omega)
  simp only [List.all_eq_true, List.mem_range, hterm, termOk_iff]

theorem filterMap_range_getElem? {α β : Type} (f : Nat → α → β) (l : List α) :
    (List.range l.length).filterMap (fun i => (l[i]?).map (f i)) = l.mapIdx f := by
  induction l using List.reverseRecOn with
  | nil => rfl
  | append_singleton l a ih =>
    have hinit : (List.range l.length).filterMap (fun i => ((l ++ [a])[i]?).map (f i)) = l.mapIdx f := by
      rw [← ih]
      refine List.filterMap_congr fun i hi => ?_
      rw [List.getElem?_append_left (List.mem_range.mp hi)]
    simp [List.range_succ, List.mapIdx_concat, hinit]

/-- The channels of a clearing after a write of gb.stat from a grove (R318, R319). -/
def clearOverruns (v : Word) (grove : Nat) (cs : List Chan) : List Chan :=
  cs.mapIdx fun i c => if v.getLsbD i then { c with cleared := nub (c.cleared ++ [grove]) } else c

theorem wrGbStat_task {g : Group} (htask : s.me.task ≠ none) (hg : s.groups.find s.me.grp = some g) :
    wrGbStat v s = .next (s.setGroup s.me.grp { g with chans := clearOverruns v (groveOf s.cur) g.chans }) := by
  simp only [wrGbStat, Option.isSome_iff_ne_none.mpr htask, if_true, State.modGroup, hg, filterMap_range_getElem?, clearOverruns]

theorem wrGbStat_idle (htask : s.me.task = none) : wrGbStat v s = .next s := by
  simp [wrGbStat, htask]

end Writes

/-! ### The rows, on any core and on a firmware core whose wall is open -/

section Rows
variable {s : State} (hacts : s.acts) {n : Nat} (write : Word → State → Eff) (v : Word)
include hacts

theorem guarded_wrChecked_any {e : Eff} (he : write v s = e) (hlow : n < 0x89) (hfw : srFw n = false) (hcmd : srCommand n = false) :
    guarded s (wrChecked n write v s) = finish e :=
  he ▸ guarded_wrChecked hacts (fun h => absurd h (Bool.eq_false_iff.mp hfw)) (s.walled_low hlow) hcmd write v

theorem guarded_wrChecked_firmware (hfw : s.isFw s.cur = true) (hwall : s.myGrove.wallLock = false) {e : Eff} (he : write v s = e)
    (hcmd : srCommand n = false) : guarded s (wrChecked n write v s) = finish e :=
  he ▸ guarded_wrChecked hacts (fun _ => hfw) (State.walled_open hwall n) hcmd write v

end Rows

theorem srCommand_recipe (n : BitVec 4) : srCommand (0xA0 + n.toNat) = false := by
  revert n
  decide

theorem srCommand_window (n : BitVec 3) (limit : Bool) : srCommand (0xC0 + 2 * n.toNat + flag limit) = false := by
  revert n limit
  decide

/-- Settles O13: the checks of R315 pass, and each register's write leaves what its own lemma says. -/
theorem registerWriteEffects : Obligations.RegisterWriteEffects := by
  refine ⟨fun s v hacts => ?any, fun s v n w hacts hfw hwall => ?firmware⟩
  case any =>
    refine ⟨?rng, ?fpCtl, ?prStk, ?memDbg, ?futCtl, ?skew, ?errStat, ?gbIdle, ?gbTask⟩
    case rng => exact (guarded_wrChecked_any hacts wrRng v rfl (by decide) rfl rfl).trans (finish_setSlot s _)
    case fpCtl =>
      exact ⟨_, (guarded_wrChecked_any hacts wrFpCtl v (wrFpCtl_eq s v) (by decide) rfl rfl).trans (finish_setSlot s _),
        fpCtlWord_reserved v _, fpCtlWord_flags v _, fpCtlWord_mode v _⟩
    case prStk =>
      refine (guarded_wrChecked_any hacts wrPrStk v (wrPrStk_eq s v) (by decide) rfl rfl).trans ?_
      split
      · rfl
      · exact finish_setSlot s _
    case memDbg => exact (guarded_wrChecked_any hacts wrMemDbg v rfl (by decide) rfl rfl).trans (finish_setSlot s _)
    case futCtl => exact (guarded_wrChecked_any hacts wrFutCtl v (wrFutCtl_eq s v) (by decide) rfl rfl).trans (finish_setSlot s _)
    case skew => exact guarded_wrChecked_any hacts wrSkewCfg v (wrSkewCfg_eq s v) (by decide) rfl rfl
    case errStat => exact guarded_wrChecked_any hacts wrErrStat v (wrErrStat_eq s v) (by decide) rfl rfl
    case gbIdle => exact fun htask => guarded_wrChecked_any hacts wrGbStat v (wrGbStat_idle s v htask) (by decide) rfl rfl
    case gbTask =>
      intro g htask hg
      refine ⟨_, guarded_wrChecked_any hacts wrGbStat v (wrGbStat_task s v htask hg) (by decide) rfl rfl, List.length_mapIdx, fun i c hc => ?_⟩
      rw [clearOverruns, List.getElem?_mapIdx, hc]
      rfl
  case firmware =>
    intro _ _ _ _
    have hstored := recipe_all_iff v
    refine ⟨fun h => ?_, fun h => ?_, ?_, ?_, fun h => ?_, fun h => ?_, fun h => ?_, fun h => ?_, fun h => ?_, fun h => ?_, ?_, ?_, ?_, ?_⟩
    · exact guarded_wrChecked_firmware hacts (wrRecipe n.toNat) v hfw hwall (congrArg Eff.next (if_pos (hstored.mpr h))) (srCommand_recipe n)
    · exact guarded_wrChecked_firmware hacts (wrRecipe n.toNat) v hfw hwall (congrArg Eff.next (if_neg (mt hstored.mp h))) (srCommand_recipe n)
    · exact guarded_wrChecked_firmware hacts wrRqBackoff v hfw hwall (wrRqBackoff_eq s v) rfl
    · exact guarded_wrChecked_firmware hacts wrWdCtl v hfw hwall (wrWdCtl_eq s v) rfl
    · exact guarded_wrChecked_firmware hacts wrGsCtl v hfw hwall (wrGsCtl_locked s v h) rfl
    · exact guarded_wrChecked_firmware hacts wrGsCtl v hfw hwall (wrGsCtl_open s v h) rfl
    · exact guarded_wrChecked_firmware hacts wrPwLim v hfw hwall (wrPwLim_below s v h) rfl
    · exact guarded_wrChecked_firmware hacts wrPwLim v hfw hwall (wrPwLim_above s v h hwall) rfl
    · exact guarded_wrChecked_firmware hacts wrRtCfg v hfw hwall (wrRtCfg_ignored s v h) rfl
    · exact guarded_wrChecked_firmware hacts wrRtCfg v hfw hwall (wrRtCfg_stored s v h) rfl
    · exact guarded_wrChecked_firmware hacts wrFwWall v hfw hwall (wrFwWall_open s v hfw hwall) rfl
    · exact guarded_wrChecked_firmware hacts wrTrRing v hfw hwall rfl rfl
    · exact guarded_wrChecked_firmware hacts (wrHwWin w.toNat false) v hfw hwall rfl (srCommand_window w false)
    · exact guarded_wrChecked_firmware hacts (wrHwWin w.toNat true) v hfw hwall rfl (srCommand_window w true)

end Sys2Proof.Machine
end

section
/-! PROOF. The frame of a vector instruction: writes that stay in a group of registers (R347, R350), and the block forms (R38, R364). -/

namespace Sys2Proof.Machine

/-! ### Slots that differ in a group of vector registers -/

theorem Slot.vr_setVr_ne (sl : Slot) {q r : Reg} (v : VWord) (h : r ≠ q) : (sl.setVr q v).vr r = sl.vr r :=
  Vector.getElem_set_ne q.isLt r.isLt fun e => h (BitVec.eq_of_toNat_eq e.symm)

/-- q is sl but for the vector registers d to d + n - 1. -/
def Slot.VecOnly (sl q : Slot) (d : Reg) (n : Nat) : Prop :=
  q = { sl with v := q.v } ∧ ∀ r : Reg, r.toNat < d.toNat ∨ d.toNat + n ≤ r.toNat → q.vr r = sl.vr r

section VecOnly
variable {sl q t : Slot} {d : Reg} {n : Nat}

theorem Slot.VecOnly.refl (sl : Slot) (d : Reg) (n : Nat) : sl.VecOnly sl d n := ⟨rfl, fun _ _ => rfl⟩

theorem Slot.VecOnly.trans (h : sl.VecOnly q d n) (g : q.VecOnly t d n) : sl.VecOnly t d n := by
  obtain ⟨hq, hqr⟩ := h
  obtain ⟨ht, htr⟩ := g
  refine ⟨?_, fun r hr => (htr r hr).trans (hqr r hr)⟩
  rw [hq] at ht
  exact ht

theorem Slot.VecOnly.foldl {α : Type} {f : Slot → α → Slot} {l : List α} (h : ∀ q : Slot, ∀ a ∈ l, q.VecOnly (f q a) d n) (sl : Slot) :
    sl.VecOnly (l.foldl f sl) d n := by
  induction l generalizing sl with
  | nil => exact .refl sl d n
  | cons a rest ih =>
    exact (h sl a List.mem_cons_self).trans (ih (fun q b hb => h q b (List.mem_cons_of_mem a hb)) (f sl a))

variable (hd : d.toNat + n ≤ 32)
include hd

/-- An element of the group lies in its registers. -/
theorem Slot.setElem_vecOnly (sl : Slot) {w i : Nat} (v : Nat) (hi : i * w / 1024 < n) : sl.VecOnly (sl.setElem d w i v) d n := by
  refine ⟨rfl, fun r hr => Slot.vr_setVr_ne sl _ fun e => ?_⟩
  have hreg : (d + BitVec.ofNat 5 (i * w / 1024)).toNat = d.toNat + i * w / 1024 := by
    rw [BitVec.toNat_add, BitVec.toNat_ofNat]
    omega
  rw [e, hreg] at hr
  omega

theorem Slot.setElems_vecOnly (sl : Slot) {w : Nat} {l : List (Nat × Nat)} (hl : ∀ e ∈ l, e.1 * w / 1024 < n) : sl.VecOnly (sl.setElems d w l) d n :=
  .foldl (fun q e he => q.setElem_vecOnly hd e.2 (hl e he)) sl

/-- Bytes that end within the group. -/
theorem Slot.setBytes_vecOnly (sl : Slot) {off : Nat} {bs : List Byte} (hend : off + bs.length ≤ 128 * n) : sl.VecOnly (sl.setBytes d off bs) d n :=
  .foldl (fun q i hi => q.setElem_vecOnly hd _ (by have := List.mem_range.mp hi; omega)) sl

/-- Results and the zeros of the policies are elements below NMAX. -/
theorem Slot.putGroup_vecOnly (sl : Slot) {h : VSh} {w : Nat} (k : KWord) {res : List (Nat × Nat)} (hvl : h.vl ≤ h.nmax)
    (hres : ∀ e ∈ res, e.1 < h.nmax) (hw : 0 < w) (hn : h.nmax * w ≤ 1024 * n) : sl.VecOnly (sl.putGroup h d w k res) d n := by
  have hin : ∀ i, i < h.nmax → i * w / 1024 < n := by
    intro i hi
    rw [Nat.div_lt_iff_lt_mul (by norm_num)]
    have := Nat.mul_lt_mul_of_pos_right hi hw
    omega
  have hzero : ∀ {l : List Nat}, (∀ i ∈ l, i < h.nmax) → ∀ e ∈ zeroAt l, e.1 * w / 1024 < n := by
    intro l hl e he
    obtain ⟨i, hi, rfl⟩ := List.mem_map.mp he
    exact hin i (hl i hi)
  have hoff : ∀ i ∈ (if h.mz then (List.range h.vl).filter fun i => !k.getLsbD i else []), i < h.nmax := by
    intro i hi
    split at hi
    · have := List.mem_range.mp (List.mem_of_mem_filter hi)
      omega
    · cases hi
  have htail : ∀ i ∈ (if h.tz then h.tail else []), i < h.nmax := by
    intro i hi
    split at hi
    · obtain ⟨j, hj, rfl⟩ := List.mem_map.mp hi
      have := List.mem_range.mp hj
      omega
    · cases hi
  unfold Slot.putGroup
  split
  · exact .refl sl d n
  · exact ((sl.setElems_vecOnly hd fun e he => hin e.1 (hres e he)).trans (Slot.setElems_vecOnly hd _ (hzero hoff))).trans
      (Slot.setElems_vecOnly hd _ (hzero htail))

end VecOnly

/-! ### The frame of the state -/

theorem State.sameBytes_setSlot (s : State) (k : Nat) (v : Slot) : s.sameBytes (s.setSlot k v) := by
  intro p
  cases p <;> rfl

/-- Flags are sticky (R43). -/
theorem and_addFlags (ctl : Word) (fl : Nat) : ctl &&& addFlags ctl fl = ctl := by
  unfold addFlags
  ext i
  simp only [BitVec.getElem_and, BitVec.getElem_or]
  exact inf_sup_self

theorem Fp.and_raise_ctl (p : Fp) (fl : Nat) : p.ctl &&& (p.raise fl).ctl = p.ctl := and_addFlags p.ctl fl

/-- The end of an instruction that writes a group of registers and the slot's arithmetic side. -/
theorem State.vecFrame_advance {s : State} {q : Slot} {d : Reg} {n : Nat} (hq : s.me.VecOnly q d n) {p : Fp}
    (hctl : s.me.fpCtl &&& p.ctl = s.me.fpCtl) :
    s.vecFrame ((s.setSlot s.cur q).setFp p).advance d n ∧ ((s.setSlot s.cur q).setFp p).advance.me.fpCtl = p.ctl ∧
      ((s.setSlot s.cur q).setFp p).advance.me.rng = p.rng := by
  obtain ⟨hslot, hregs⟩ := hq
  simp only [State.vecFrame, State.setFp, State.modMe_eq, State.advance_eq, State.setSlot_cur, State.setSlot_me, State.setSlot_setSlot, and_true]
  refine ⟨?_, hregs, hctl, State.sameBytes_setSlot s _ _⟩
  rw [hslot]

/-- Writing back the arithmetic side that a slot has changes nothing. -/
theorem State.setFp_fp {s : State} {q : Slot} {d : Reg} {n : Nat} (hq : s.me.VecOnly q d n) : (s.setSlot s.cur q).setFp s.fp = s.setSlot s.cur q := by
  simp only [State.setFp, State.modMe_eq, State.setSlot_cur, State.setSlot_me, State.setSlot_setSlot]
  rw [hq.1]
  rfl

/-- The same where the arithmetic side stays. -/
theorem State.vecFrame_advance_regs {s : State} {q : Slot} {d : Reg} {n : Nat} (hq : s.me.VecOnly q d n) :
    s.vecFrame (s.setSlot s.cur q).advance d n ∧ (s.setSlot s.cur q).advance.me.fpCtl = s.me.fpCtl ∧ (s.setSlot s.cur q).advance.me.rng = s.me.rng := by
  have h := State.vecFrame_advance hq (p := s.fp) BitVec.and_self
  rwa [State.setFp_fp hq] at h

/-- An instruction that only goes on. -/
theorem State.vecFrame_advance_self (s : State) (d : Reg) (n : Nat) : s.vecFrame s.advance d n ∧ s.advance.me.rng = s.me.rng := by
  simp only [State.vecFrame, State.advance_eq, State.setSlot_me]
  exact ⟨⟨trivial, fun _ _ => rfl, BitVec.and_self, State.sameBytes_setSlot s _ _⟩, trivial⟩

/-! ### Block groups (R364) -/

theorem length_blockPack (w : Nat) (xs : List FVal) : (blockPack w xs).1.length = blockBytes w := by
  simp only [blockPack, blockBytes, List.length_append, length_bytesOf]

theorem length_blockValues (w : Nat) (bs : List Byte) : (blockValues w bs).length = 32 := by
  simp [blockValues]

theorem length_flatten_of_forall {α : Type} {l : List (List α)} {n : Nat} (h : ∀ x ∈ l, x.length = n) : l.flatten.length = l.length * n := by
  rw [List.length_flatten, List.sum_eq_card_nsmul _ n (by simpa using h), List.length_map, smul_eq_mul]

/-- The first register of an aligned group of a size that divides 32 leaves room for it. -/
theorem group_in_file {d : Reg} {g : Nat} (hg : g ∣ 32) (h : d.toNat % g = 0) : d.toNat + g ≤ 32 := by
  have hroom : g ≤ 32 - d.toNat := Nat.le_of_dvd (by omega) (Nat.dvd_sub hg (Nat.dvd_of_mod_eq_zero h))
  omega

theorem Slot.vl_le_nmax {sl : Slot} (h : sl.wf = true) : sl.sh.vl ≤ sl.sh.nmax := of_decide_eq_true (Bool.and_eq_true_iff.mp h).1

/-- NMAX of the shapes of 32-bit elements (R347). -/
theorem Slot.nmax_of_sew {sl : Slot} (h : sl.sh.sew = 32) : sl.sh.nmax = 32 ∨ sl.sh.nmax = 64 ∨ sl.sh.nmax = 128 := by
  have hsew : 8 * 2 ^ bits sl.vshape.toNat 1 0 = 32 := h
  have hg : bits sl.vshape.toNat 3 2 < 4 := Nat.mod_lt _ (by norm_num)
  have hn : sl.sh.nmax = Nat.min (1024 * 2 ^ bits sl.vshape.toNat 3 2 / 32) 128 := by rw [← hsew]; rfl
  rw [hn]
  interval_cases bits sl.vshape.toNat 3 2 <;> decide

section Blocks
variable {h : VSh} (hn : h.nmax = 32 ∨ h.nmax = 64 ∨ h.nmax = 128)
include hn

theorem VSh.regs_dvd : h.regs 32 ∣ 32 := by
  obtain hn | hn | hn := hn <;> simp [VSh.regs, hn]

theorem VSh.nmax_le_regs : h.nmax * 32 ≤ 1024 * h.regs 32 := by
  obtain hn | hn | hn := hn <;> simp [VSh.regs, hn]

/-- The blocks of vl elements fit in their group. -/
theorem VSh.blocks_fit (hvl : h.vl ≤ h.nmax) (bt : BlockTy) : h.vl / 32 * blockBytes (blockMant bt) ≤ 128 * h.blockRegs (blockMant bt) := by
  have hb : blockBytes (blockMant bt) ≤ 34 := by cases bt <;> decide
  have hmul : h.vl / 32 * blockBytes (blockMant bt) ≤ h.nmax / 32 * blockBytes (blockMant bt) :=
    Nat.mul_le_mul_right _ (Nat.div_le_div_right hvl)
  have hall : h.nmax / 32 * blockBytes (blockMant bt) ≤ 4 * 34 := Nat.mul_le_mul (by omega) hb
  unfold VSh.blockRegs
  split <;> omega

end Blocks

theorem VSh.blockRegs_dvd (h : VSh) (w : Nat) : h.blockRegs w ∣ 32 := by
  unfold VSh.blockRegs
  split <;> decide

theorem VSh.badBlock_legal {h : VSh} {d g r n : Nat} (hsew : h.sew = 32) (hvl : h.vl % 32 = 0) (hd : d % g = 0) (hr : r % n = 0)
    (hmeet : meets d g r n = false) : h.badBlock d g r n = false := by
  simp [VSh.badBlock, hsew, hvl, hd, hr, hmeet]

/-- The blocks that vpack makes of the elements of a group, with their flags (R38). -/
def State.packed (s : State) (a : Reg) (bt : BlockTy) : List (List Byte × Nat) :=
  (List.range (s.me.sh.vl / 32)).map fun j => blockPack (blockMant bt) ((List.range 32).map fun i => fmtF32.value (s.me.elem a 32 (32 * j + i)))

/-- Their bytes in a row (R364). -/
def State.packedBytes (s : State) (a : Reg) (bt : BlockTy) : List Byte := ((s.packed a bt).map (·.1)).flatten

theorem State.length_packedBytes (s : State) (a : Reg) (bt : BlockTy) : (s.packedBytes a bt).length = s.me.sh.vl / 32 * blockBytes (blockMant bt) := by
  have hblock : ∀ x ∈ (s.packed a bt).map (·.1), x.length = blockBytes (blockMant bt) := by simp [State.packed, length_blockPack]
  rw [State.packedBytes, length_flatten_of_forall hblock, List.length_map, State.packed, List.length_map, List.length_range]

/-- Blocks in a group of g registers, the rest of it tail (R364). -/
def Slot.putBlocks (sl : Slot) (d : Reg) (g : Nat) (bs : List Byte) : Slot :=
  (sl.setBytes d 0 bs).setBytes d bs.length (if sl.sh.tz then zeros (128 * g - bs.length) else [])

theorem Slot.putBlocks_vecOnly (sl : Slot) {d : Reg} {g : Nat} {bs : List Byte} (hd : d.toNat + g ≤ 32) (hfit : bs.length ≤ 128 * g) :
    sl.VecOnly (sl.putBlocks d g bs) d g := by
  have htail : bs.length + (if sl.sh.tz then zeros (128 * g - bs.length) else []).length ≤ 128 * g := by
    split
    · rw [zeros, List.length_replicate]
      omega
    · exact hfit
  exact (sl.setBytes_vecOnly hd (by omega)).trans (Slot.setBytes_vecOnly hd _ htail)

theorem exec_vpack_legal {s : State} {d a : Reg} {bt : BlockTy} (hacts : s.acts)
    (hlegal : s.me.sh.badBlock d.toNat (s.me.sh.blockRegs (blockMant bt)) a.toNat (s.me.sh.regs 32) = false) :
    exec (.vpack d a bt) s = .next (if s.me.sh.vl = 0 then s else
      (s.setSlot s.cur <| s.me.putBlocks d (s.me.sh.blockRegs (blockMant bt)) (s.packedBytes a bt)).setFp
        (s.fp.raise (if (s.packed a bt).any fun b => b.2 != 0 then flagNx else 0))).advance :=
  (guarded_acts hacts _).trans (congrArg finish (if_neg (Bool.eq_false_iff.mp hlegal)))

/-- The values of the blocks of a group (R37). -/
def State.unpacked (s : State) (a : Reg) (bt : BlockTy) : List FVal :=
  ((List.range (s.me.sh.vl / 32)).map fun j => blockValues (blockMant bt)
    ((List.range (blockBytes (blockMant bt))).map fun i => BitVec.ofNat 8 (s.me.elem a 8 (blockBytes (blockMant bt) * j + i)))).flatten

theorem State.length_unpacked (s : State) (a : Reg) (bt : BlockTy) : (s.unpacked a bt).length = s.me.sh.vl / 32 * 32 := by
  rw [State.unpacked, length_flatten_of_forall (n := 32) (by simp [length_blockValues]), List.length_map, List.length_range]

theorem exec_vunpack_legal {s : State} {d a : Reg} {bt : BlockTy} (hacts : s.acts)
    (hlegal : s.me.sh.badBlock d.toNat (s.me.sh.regs 32) a.toNat (s.me.sh.blockRegs (blockMant bt)) = false) :
    exec (.vunpack d a bt) s = .next (s.setSlot s.cur (s.me.putGroup s.me.sh d 32 (s.me.kr 0)
      ((List.range (s.unpacked a bt).length).map fun i => (i, (fmtF32.round 0 false 0 (((s.unpacked a bt)[i]?).getD (.fin false 0 0))).1)))).advance :=
  (guarded_acts hacts _).trans (congrArg finish (if_neg (Bool.eq_false_iff.mp hlegal)))

/-- Settles O18: the checks of R364 pass, and every byte or element written lies in the destination's group. -/
theorem vectorBlocksComplete : Obligations.VectorBlocksComplete := by
  intro s d a bt hacts hwf hsew hwhole h g
  have hn := Slot.nmax_of_sew hsew
  have hvl := Slot.vl_le_nmax hwf
  refine ⟨fun hd ha hmeet => ?pack, fun hd ha hmeet => ?unpack⟩
  case pack =>
    rw [exec_vpack_legal hacts (VSh.badBlock_legal hsew hwhole hd ha hmeet)]
    have hq := s.me.putBlocks_vecOnly (group_in_file (VSh.blockRegs_dvd _ _) hd)
      ((s.length_packedBytes a bt).trans_le (VSh.blocks_fit hn hvl bt))
    split
    · exact ⟨_, rfl, s.vecFrame_advance_self d g⟩
    · obtain ⟨hframe, -, hrng⟩ := State.vecFrame_advance hq (s.fp.and_raise_ctl _)
      exact ⟨_, rfl, hframe, hrng⟩
  case unpack =>
    rw [exec_vunpack_legal hacts (VSh.badBlock_legal hsew hwhole hd ha hmeet)]
    have hres : ∀ e ∈ (List.range (s.unpacked a bt).length).map fun i => (i, (fmtF32.round 0 false 0 (((s.unpacked a bt)[i]?).getD (.fin false 0 0))).1),
        e.1 < s.me.sh.nmax := by
      intro e he
      obtain ⟨i, hi, rfl⟩ := List.mem_map.mp he
      have hlt := List.mem_range.mp hi
      rw [State.length_unpacked] at hlt
      exact hlt.trans_le ((Nat.div_mul_le_self _ _).trans hvl)
    exact ⟨_, rfl, State.vecFrame_advance_regs
      (s.me.putGroup_vecOnly (group_in_file (VSh.regs_dvd hn) hd) _ hvl hres (by norm_num) (VSh.nmax_le_regs hn))⟩

end Sys2Proof.Machine
end

section
/-! PROOF. The completion of an integer mma: what it adds to the accumulator (R49), what it leaves in the ring's latches (R382), and the turn of the unit (R379, R380). -/

namespace Sys2Proof.Machine

/-! ### The accumulator -/

theorem PMap.find_map_key {α : Type} (g : Nat → α) {l : List Nat} {i : Nat} (h : i ∈ l) : PMap.find (l.map fun k => (k, g k)) i = some (g i) := by
  induction l with
  | nil => cases h
  | cons k rest ih =>
    rw [List.map_cons, PMap.find]
    by_cases hk : k = i
    · rw [if_pos hk, hk]
    · rw [if_neg hk]
      exact ih ((List.mem_cons.mp h).resolve_left (Ne.symm hk))

/-- What an accumulator element becomes, by its row, column, value and saturated bit. -/
abbrev AccMap := Nat → Nat → BitVec 32 × Bool → BitVec 32 × Bool

section MapAcc
variable (c : Core) (f : AccMap)

theorem Core.mapAcc_frame : c.mapAcc f = { c with acc := (c.mapAcc f).acc, accSat := (c.mapAcc f).accSat, accFree := none } := by
  simp only [Core.mapAcc]

@[simp] theorem Core.mapAcc_tcm : (c.mapAcc f).tcm = c.tcm := by simp only [Core.mapAcc]
@[simp] theorem Core.mapAcc_fmt : (c.mapAcc f).fmt = c.fmt := by simp only [Core.mapAcc]
@[simp] theorem Core.mapAcc_ringIn : (c.mapAcc f).ringIn = c.ringIn := by simp only [Core.mapAcc]
@[simp] theorem Core.mapAcc_ringOut : (c.mapAcc f).ringOut = c.ringOut := by simp only [Core.mapAcc]

theorem Core.accAt_mapAcc {i : Nat} (h : i < 2048) : (c.mapAcc f).accAt i = (f (i / 64) (i % 64) (c.accAt i, c.accSat.contains i)).1 := by
  have hfind : (c.mapAcc f).acc.find i = some (f (i / 64) (i % 64) (c.accAt i, c.accSat.contains i)).1 := by
    simp only [Core.mapAcc, List.map_map]
    exact PMap.find_map_key _ (List.mem_range.mpr h)
  rw [Core.accAt, hfind]

theorem Core.accSat_mapAcc {i : Nat} (h : i < 2048) : (c.mapAcc f).accSat.contains i = (f (i / 64) (i % 64) (c.accAt i, c.accSat.contains i)).2 := by
  rw [Bool.eq_iff_iff, List.contains_iff_mem]
  simp [Core.mapAcc, h]

end MapAcc

/-! ### Integer products (R49) -/

/-- A saturated element keeps its bound. -/
theorem foldl_accAddI_saturated (sat : Bool) (x : BitVec 32) (ps : List Int) : ps.foldl (accAddI sat) (x, true) = (x, true) := by
  induction ps with
  | nil => rfl
  | cons p rest ih => exact ih

/-- Additions that do not saturate are one sum modulo 2^32. -/
theorem foldl_accAddI_modular (x : BitVec 32) (ps : List Int) : ps.foldl (accAddI false) (x, false) = (x + BitVec.ofInt 32 ps.sum, false) := by
  induction ps generalizing x with
  | nil => simp
  | cons p rest ih =>
    have hstep : accAddI false (x, false) p = (x + BitVec.ofInt 32 p, false) := by
      simp [accAddI, BitVec.ofInt_add]
    rw [List.foldl_cons, hstep, ih, List.sum_cons, BitVec.ofInt_add, BitVec.add_assoc]

theorem isIntFmt_not_block {code : Nat} (h : isIntFmt code = true) : blockOfCode code = none := by
  simp only [isIntFmt, Bool.or_eq_true, beq_iff_eq] at h
  obtain (rfl | rfl) | rfl := h <;> rfl

/-- The products of row i and column j of a plain mma's operands, in ascending k. -/
def State.intProducts (s : State) (core : Nat) (op : MmaOp) (i j : Nat) : List Int :=
  let f := (s.core core).fmt
  (List.range (32 * f.steps)).map fun k =>
    intAt f.afmt.toNat (s.aRow core op i) k * intAt f.bfmt.toNat (s.bBytes core op f.bBytes) (k / 32 * 2048 + k % 32 * 64 + j)

/-- A plain or ring mma maps the accumulator, element by element; an integer one adds the products of R49 to it. -/
theorem State.plainRun_mapAcc (s : State) (core : Nat) (op : MmaOp) : ∃ f, s.plainRun core op = s.setCore core ((s.core core).mapAcc f) ∧
    (isIntFmt (s.core core).fmt.afmt.toNat = true → ∀ i j v, i < 32 →
      f i j v = (s.intProducts core op i j).foldl (accAddI (s.core core).fmt.sat) v) := by
  cases hint : isIntFmt (s.core core).fmt.afmt.toNat with
  | false =>
    refine Exists.imp (fun f h => ⟨h, nofun⟩) ?_
    unfold State.plainRun
    dsimp only
    split
    · exact ⟨_, rfl⟩
    · simp only [hint, Bool.false_eq_true, if_false]
      exact ⟨_, rfl⟩
  | true =>
    simp only [State.plainRun, isIntFmt_not_block hint, hint, if_true]
    refine ⟨_, rfl, fun _ i j v hi => ?_⟩
    simp [State.intProducts, stepsI, List.zipWith_map, hi]

/-- The element of row i and column j after an integer mma without saturation. -/
theorem Core.mapAcc_products {c : Core} {f : AccMap} {i j : Nat} {ps : List Int} (hi : i < 32) (hj : j < 64)
    (hf : ∀ v, f i j v = ps.foldl (accAddI false) v) :
    (c.mapAcc f).accSat.contains (i * 64 + j) = c.accSat.contains (i * 64 + j) ∧
    (c.accSat.contains (i * 64 + j) = true → (c.mapAcc f).accAt (i * 64 + j) = c.accAt (i * 64 + j)) ∧
    (c.accSat.contains (i * 64 + j) = false → (c.mapAcc f).accAt (i * 64 + j) = c.accAt (i * 64 + j) + BitVec.ofInt 32 ps.sum) := by
  have hlt : i * 64 + j < 2048 := by omega
  have hrow : (i * 64 + j) / 64 = i := by omega
  have hcol : (i * 64 + j) % 64 = j := by omega
  rw [Core.accSat_mapAcc c f hlt, Core.accAt_mapAcc c f hlt, hrow, hcol, hf]
  cases c.accSat.contains (i * 64 + j) with
  | true => simp [foldl_accAddI_saturated]
  | false => simp [foldl_accAddI_modular]

/-! ### The turn of the unit (R379) -/

theorem State.bBytes_setCore (s : State) (core : Nat) {d : Core} (htcm : d.tcm = (s.core core).tcm) (hring : d.ringIn = (s.core core).ringIn)
    (op : MmaOp) (n : Nat) : (s.setCore core d).bBytes core op n = s.bBytes core op n := by
  simp only [State.bBytes, State.localRead, State.tcmRead, State.scrRead, State.core_setCore_same, State.grove_setCore, htcm, hring]

theorem State.ringAt_setCore (s : State) (core grp k : Nat) (d : Core) : (s.setCore core d).ringAt grp k = s.ringAt grp k := rfl

theorem State.hasMma_setCore_done (s : State) (core k : Nat) {d : Core} (hd : d.mma = none) :
    (s.setCore core d).hasMma k = (k != core && s.hasMma k) := by
  by_cases h : k = core
  · simp [State.hasMma, h, hd]
  · simp [State.hasMma, State.core_setCore_ne s d h, h]

/-- The unit does not turn away from a core because its mma ends. -/
theorem State.served_setCore_done {s : State} {core : Nat} {d : Core} (hd : d.mma = none) (h : s.served core = core) :
    (s.setCore core d).served core = core := by
  simp only [State.served, State.grove_setCore] at h ⊢
  split
  · next k hk =>
    simp only [hk] at h
    rw [State.hasMma_setCore_done s core _ hd]
    split
    · next hother =>
      rw [Bool.and_eq_true] at hother
      rwa [if_pos hother.2] at h
    · rfl
  · rfl

/-- The core that the unit serves after one: the next with an mma, in round-robin order (R379). -/
def State.nextServed (s : State) (core : Nat) : Option Nat :=
  ((List.range 8).map fun i => (core % 8 + 1 + i) % 8).find? fun k =>
    groveOfCore core * 8 + k != core && (s.core (groveOfCore core * 8 + k)).mma.isSome

theorem State.mmaGone_setCore_done {s : State} {core : Nat} {d : Core} (hd : d.mma = none) (h : s.served core = core) :
    (s.setCore core d).mmaGone core =
      (s.setCore core d).setGrove (groveOfCore core) { s.grove (groveOfCore core) with lastMma := core % 8, serving := s.nextServed core } := by
  have hmma : ∀ (gr : Grove) (k : Nat), ((s.setCore core d).setGrove (groveOfCore core) gr).hasMma k = (k != core && (s.core k).mma.isSome) :=
    fun _ k => s.hasMma_setCore_done core k hd
  simp only [State.mmaGone, State.served_setCore_done hd h, if_true, State.serveNext, State.modGrove_eq, State.grove_setGrove_same,
    State.setGrove_setGrove, State.grove_setCore, hmma, State.nextServed]

/-! ### The end of a plain or ring mma (R380, R382) -/

/-- The core c after its mma: the accumulator mapped, its format context at no progress, and the ring's latches as the mode leaves them. -/
def State.mmaDone (s : State) (core : Nat) (op : MmaOp) (f : AccMap) : Core :=
  let c := s.core core
  let at_ := s.ringAt op.grp core
  { c.mapAcc f with
    mma := none
    fmt := { c.fmt with progress := 0 }
    ringOut := if op.mode = 1 then (if at_.1 + 1 < at_.2 then some ⟨op.grp, op.task, s.bBytes core op c.fmt.bBytes⟩ else none) else c.ringOut
    ringIn := if op.mode = 1 && op.bhandle.isNone then none else c.ringIn }

theorem State.mmaDone_frame (s : State) (core : Nat) (op : MmaOp) (f : AccMap) :
    let c := s.core core
    let d := s.mmaDone core op f
    d = { c with acc := d.acc, accSat := d.accSat, accFree := none, mma := none, fmt := { c.fmt with progress := 0 }, ringOut := d.ringOut, ringIn := d.ringIn } := by
  have hm := (s.core core).mapAcc_frame f
  simp only [State.mmaDone]
  generalize (s.core core).mapAcc f = m at hm ⊢
  rw [hm]

theorem State.mmaDone_accSat (s : State) (core : Nat) (op : MmaOp) (f : AccMap) :
    (s.mmaDone core op f).accSat = ((s.core core).mapAcc f).accSat := by simp only [State.mmaDone]

theorem State.mmaDone_accAt (s : State) (core : Nat) (op : MmaOp) (f : AccMap) (i : Nat) :
    (s.mmaDone core op f).accAt i = ((s.core core).mapAcc f).accAt i := by simp only [State.mmaDone, Core.accAt]

theorem State.mmaEnd_mapAcc (s : State) (core : Nat) (op : MmaOp) (f : AccMap) :
    (s.setCore core ((s.core core).mapAcc f)).mmaEnd core op = (s.setCore core (s.mmaDone core op f)).mmaGone core := by
  have hb := s.bBytes_setCore core (Core.mapAcc_tcm _ f) (Core.mapAcc_ringIn _ f) op
  simp only [State.mmaEnd, hb, State.ringAt_setCore, State.modCore_eq, State.core_setCore_same, State.setCore_setCore, State.mmaDone,
    Core.mapAcc_fmt, Core.mapAcc_ringIn, Core.mapAcc_ringOut]

/-- The completion of the plain or ring mma that the unit serves (R379, R380). -/
theorem exec_mmaComplete_served {s : State} {core : Nat} {op : MmaOp} (hop : (s.core core).mma = some op) (hmode : op.mode.toNat < 2)
    (h : s.served core = core) {f : AccMap} (hf : s.plainRun core op = s.setCore core ((s.core core).mapAcc f)) :
    exec (.mmaComplete core) s = .next ((s.setCore core (s.mmaDone core op f)).setGrove (groveOfCore core)
      { s.grove (groveOfCore core) with lastMma := core % 8, serving := s.nextServed core }) := by
  have hexec : exec (.mmaComplete core) s = .next (if s.served core = core then s.mmaPiece core else s) := rfl
  rw [hexec, if_pos h, State.mmaPiece, hop]
  dsimp only
  rw [if_pos hmode, hf, State.mmaEnd_mapAcc, State.mmaGone_setCore_done rfl h]

/-- Settles O27: the mma maps the accumulator element by element, each by a fold of additions that never saturate. -/
theorem integerMatrixProduct : Obligations.IntegerMatrixProduct := by
  intro s core op hop hmode c f bs g at_ next
  obtain ⟨e, hrun, hint⟩ := s.plainRun_mapAcc core op
  refine ⟨fun h => ?_, fun h => ⟨s.mmaDone core op e, exec_mmaComplete_served hop hmode h hrun, fun h0 => ?_, fun h1 => ?_, ?_, fun ha _ hsat i j hi hj => ?_⟩⟩
  · exact congrArg Host.Outcome.next (if_neg h)
  · simp [State.mmaDone, h0, c]
  · simp [State.mmaDone, h1, c, at_, bs, f]
  · exact s.mmaDone_frame core op e
  · rw [State.mmaDone_accSat, State.mmaDone_accAt]
    refine Core.mapAcc_products hi hj fun v => ?_
    rw [hint ha i j v hi, hsat]
    rfl

end Sys2Proof.Machine
end

section
/-! PROOF. Where an address may not lead (R51, R55, R59, R61, R323): what the checks of an effective address answer, and the load and the store that trap with it. -/

namespace Sys2Proof.Machine

/-! ### The checks of an address, one space at a time (R323 orders 1 to 3) -/

section Checks
variable (s : State) (sk : Bool) {e : Word} {n al : Nat}

theorem State.place_glob_out (h : 2 ^ 48 ≤ e.toNat) : s.place .glob sk e n al = .bad Cause.translation := if_pos h

theorem State.place_local_out {sp : Space} (hsp : sp ≠ .glob) (h : 2 ^ 32 ≤ e.toNat) : s.place sp sk e n al = .bad Cause.permission := by
  cases sp with
  | glob => exact absurd rfl hsp
  | tcm => exact if_pos h
  | scr => exact if_pos h

theorem State.place_misaligned {sp : Space} (hin : e.toNat < if sp = .glob then 2 ^ 48 else 2 ^ 32) (h : e.toNat % al ≠ 0) :
    s.place sp sk e n al = .bad Cause.misaligned := by
  cases sp with
  | glob => exact (if_neg (Nat.not_le.mpr hin)).trans (if_pos h)
  | tcm => exact (if_neg (Nat.not_le.mpr hin)).trans (if_pos h)
  | scr => exact (if_neg (Nat.not_le.mpr hin)).trans (if_pos h)

variable (hin : e.toNat < 2 ^ 32) (hal : e.toNat % al = 0)
include hin hal

/-- Past the user area there is only the spill window, which a slot without a task does not have (R55, log 61). -/
theorem State.place_tcm_past (hpast : s.myCore.utop.toNat * 256 < e.toNat + n) (hwindow : e.toNat < 2 ^ 31 ∨ s.me.task = none) :
    s.place .tcm sk e n al = .bad Cause.permission := by
  have huser : ¬e.toNat + n ≤ s.myCore.utop.toNat * 256 := Nat.not_le.mpr hpast
  simp only [State.place, Nat.not_le.mpr hin, hal, huser, if_false, ne_eq, not_true_eq_false]
  split
  · rfl
  · next hlow => simp [State.spillPlace, hwindow.resolve_left hlow]

theorem State.place_scr_past (hpast : 2 ^ 20 < e.toNat + n) : s.place .scr false e n al = .bad Cause.permission := by
  have hend : ¬e.toNat + n ≤ 0x100000 := Nat.not_le.mpr hpast
  simp only [State.place, Nat.not_le.mpr hin, hal, hend, Bool.false_eq_true, if_false, ne_eq, not_true_eq_false]

/-- A skewed access goes where its map leads, and traps where that leads nowhere (R61). -/
theorem State.place_skewed : s.place .scr true e n al = (s.myCore.skewMap e.toNat n).elim (.bad Cause.permission) .scr := by
  simp only [State.place, Nat.not_le.mpr hin, hal, if_true, if_false, ne_eq, not_true_eq_false]
  cases s.myCore.skewMap e.toNat n with
  | none => rfl
  | some p => rfl

end Checks

/-! ### The skewed region (R61) -/

/-- n bytes at an offset lie in the rows of a skewed region that is enabled. -/
def Core.InRows (c : Core) (o n : Nat) : Prop :=
  c.skewEn = true ∧ c.skewBase.toNat * 256 ≤ o ∧ o + n ≤ c.skewBase.toNat * 256 + (c.skewRows.toNat + 1) * 256

theorem Core.skewMap_outside {c : Core} {o n : Nat} (h : ¬c.InRows o n) : c.skewMap o n = none := by
  refine if_pos ?_
  simp only [Core.InRows, not_and_or, Bool.not_eq_true, not_le] at h
  simpa only [Bool.or_eq_true, Bool.not_eq_true', decide_eq_true_eq, or_assoc] using h

/-- Word j of row i stands at word (j + i) mod 32 of that row. -/
theorem Core.skewMap_inside {c : Core} {o n : Nat} (h : c.InRows o n) :
    let base := c.skewBase.toNat * 256
    c.skewMap o n = some (base + (o - base) / 256 * 256 + ((o - base) / 8 % 32 + (o - base) / 256) % 32 * 8 + o % 8) := by
  obtain ⟨hen, hlo, hhi⟩ := h
  have hword : ∀ r, r % 256 / 8 = r / 8 % 32 := fun r => by omega
  simp only [Core.skewMap, hen, Nat.not_lt.mpr hlo, Nat.not_lt.mpr hhi, hword, Bool.not_true, decide_false, Bool.or_false, Bool.false_eq_true,
    if_false, Option.some.injEq]
  omega

/-! ### The instructions that meet such an address -/

/-- A load and a store whose address leads nowhere trap with its cause and the effective address; a store that releases has no store to wait for (R323). -/
theorem exec_ld_st_bad {s : State} (hacts : s.acts) (hout : s.allOut) {a b : Reg} {size : BitVec 2} {m : MemMod} {imm : Word} {cause : Nat}
    (hbad : s.place m.space m.sk (s.x b + imm) (2 ^ size.toNat) (2 ^ size.toNat) = .bad cause) :
    exec (.ld a b size m imm) s = .next (s.takeTrap s.cur cause (s.x b + imm) 0) ∧
    exec (.st a b size m imm) s = .next (s.takeTrap s.cur cause (s.x b + imm) 0) := by
  refine ⟨(guarded_acts hacts _).trans ?load, (guarded_acts hacts _).trans ?store⟩
  case load => simp only [State.load, ea, hbad, Got.andThen, finish_trap]
  case store =>
    have hrel : ∀ rel k, relFirst s rel k = k s := fun rel k => by
      cases rel with
      | false => rfl
      | true => simp only [relFirst, State.release, hout, if_true]
    simp only [hrel, State.store, ea, length_bytesOf, hbad, Got.andThen, finish_trap]

/-- Settles O34: each clause is the check that answers first. -/
theorem addressChecks : Obligations.AddressChecks := by
  intro s a b size m imm hacts hout e n c traps base rows inRows
  have htraps : ∀ {cause}, s.place m.space m.sk e n n = .bad cause → traps cause := exec_ld_st_bad hacts hout
  refine ⟨?glob, ?far, ?misaligned, fun hin hal => ⟨?tcm, ?scr, ?outside, ?inside⟩⟩
  case glob =>
    intro hsp h
    rw [hsp] at htraps
    exact htraps (s.place_glob_out m.sk h)
  case far => exact fun hsp h => htraps (s.place_local_out m.sk hsp h)
  case misaligned => exact fun h hal => htraps (s.place_misaligned m.sk h hal)
  case tcm =>
    intro hsp hpast hwindow
    rw [hsp] at htraps
    exact htraps (s.place_tcm_past m.sk hin hal hpast hwindow)
  case scr =>
    intro hsp hsk hpast
    rw [hsp, hsk] at htraps
    exact htraps (s.place_scr_past hin hal hpast)
  case outside =>
    intro hsp hsk hrows
    rw [hsp, hsk] at htraps
    exact htraps (by rw [s.place_skewed hin hal, Core.skewMap_outside hrows, Option.elim_none])
  case inside =>
    intro _ _ hrows
    rw [s.place_skewed hin hal, Core.skewMap_inside hrows, Option.elim_some]

end Sys2Proof.Machine
end

section
/-! PROOF. The write of a special register by its number: the checks of wrsr in their order, and what each register takes (R315, R317 to R319, R253). -/

namespace Sys2Proof.Machine

/-! ### The checks of wrsr (R315) -/

/-- A register that exists, that the slot's core may write, and that no locked wall withholds. -/
def State.MayWrite (s : State) (n : Nat) : Prop := s.srValue n ≠ none ∧ (srFw n = true → s.isFw s.cur = true) ∧ s.walled n = false

section Checks
variable {s : State} {n : Nat} {write : Word → State → Eff} {v : Word}

theorem wrChecked_user (hfw : srFw n = true) (huser : s.isFw s.cur = false) :
    wrChecked n write v s = .trap s Cause.privilege (BitVec.ofNat 64 n) 0 := by
  simp [wrChecked, hfw, huser]

theorem wrChecked_walled (hwall : s.walled n = true) : wrChecked n write v s = .trap s Cause.privilege (BitVec.ofNat 64 n) 0 := by
  simp [wrChecked, hwall]

theorem State.MayWrite.wrChecked_eq (hmay : s.MayWrite n) : wrChecked n write v s =
    if srCommand n && (s.me.collecting || s.me.classCT) then .trap s Cause.collectForbidden (BitVec.ofNat 64 n) 0 else write v s := by
  obtain ⟨-, hfw, hwall⟩ := hmay
  have hpriv : (srFw n && !s.isFw s.cur) = false := by
    cases h : srFw n with
    | false => rfl
    | true => simp [hfw h]
  simp only [wrChecked, hpriv, hwall, Bool.false_eq_true, if_false]

end Checks

/-- A wall stands before gq.base and the host windows alone (R253). -/
theorem State.walled_outside (s : State) {n : Nat} (hbase : n ≠ 0x89) (hwindow : n < 0xC0) : s.walled n = false := by
  simp [State.walled, hbase, Nat.not_le.mpr hwindow]

section Wrsr
variable {s : State} (hacts : s.acts) (a : Reg) {num : BitVec 34}
include hacts

theorem exec_wrsr_missing (h : s.srValue num.toNat = none) :
    exec (.wrsr a num) s = .next (s.takeTrap s.cur Cause.illegal (num.setWidth 64) 0) := by
  refine (guarded_acts hacts _).trans ?_
  rw [h]
  rfl

theorem exec_wrsr_exists {n : Nat} (hn : num.toNat = n) (h : s.srValue n ≠ none) :
    exec (.wrsr a num) s = finish (wrChecked n (srWrite n) (s.x a) s) := by
  obtain ⟨w, hw⟩ := Option.ne_none_iff_exists'.mp h
  subst hn
  refine (guarded_acts hacts _).trans ?_
  rw [hw]

/-- A register's row of the table is its wrsr. -/
theorem exec_wrsr_row {n : Nat} (hn : num.toNat = n) (h : s.srValue n ≠ none) {write : Word → State → Eff} (hwrite : srWrite n = write) :
    exec (.wrsr a num) s = guarded s (wrChecked n write (s.x a) s) := by
  rw [exec_wrsr_exists hacts a hn h, hwrite, guarded_acts hacts]

/-- Past the checks the register takes the word. -/
theorem exec_wrsr_writes {n : Nat} (hn : num.toNat = n) (hmay : s.MayWrite n)
    (hcmd : srCommand n = true → s.me.collecting = false ∧ s.me.classCT = false) :
    exec (.wrsr a num) s = finish (srWrite n (s.x a) s) := by
  have hpass : (srCommand n && (s.me.collecting || s.me.classCT)) = false := by
    cases h : srCommand n with
    | false => rfl
    | true => simp [hcmd h]
  rw [exec_wrsr_exists hacts a hn hmay.1, hmay.wrChecked_eq, hpass]
  rfl

end Wrsr

/-! ### Registers in ranges of numbers (R318) -/

theorem srWrite_recipe (k : BitVec 4) : srWrite (0xA0 + k.toNat) = wrRecipe k.toNat := by
  have hk := k.isLt
  interval_cases k.toNat <;> rfl

theorem State.srValue_recipe (s : State) (k : BitVec 4) : s.srValue (0xA0 + k.toNat) ≠ none := by
  have hk := k.isLt
  interval_cases k.toNat <;> exact Option.some_ne_none _

theorem srWrite_window (k : BitVec 3) (limit : Bool) : srWrite (0xC0 + 2 * k.toNat + flag limit) = wrHwWin k.toNat limit := by
  have hk := k.isLt
  cases limit <;> interval_cases k.toNat <;> rfl

theorem State.srValue_window (s : State) (k : BitVec 3) (limit : Bool) : s.srValue (0xC0 + 2 * k.toNat + flag limit) ≠ none := by
  have hk := k.isLt
  cases limit <;> interval_cases k.toNat <;> exact Option.some_ne_none _

/-- The registers that no code writes: a wrsr of one is ignored (R6, R318). -/
def SrReadOnly (n : Nat) : Prop :=
  n ≤ 1 ∨ 5 ≤ n ∧ n ≤ 8 ∨ n = 0x0C ∨ 0x10 ≤ n ∧ n ≤ 0x14 ∨ 0x18 ≤ n ∧ n ≤ 0x20 ∨ 0x30 ≤ n ∧ n ≤ 0x32 ∨ n = 0x90 ∨ 0xB0 ≤ n ∧ n ≤ 0xBD

theorem SrReadOnly.ignored {n : Nat} (h : SrReadOnly n) (s : State) : s.srValue n ≠ none ∧ srWrite n = fun _ s => .next s := by
  rcases h with h | ⟨_, _⟩ | rfl | ⟨_, _⟩ | ⟨_, _⟩ | ⟨_, _⟩ | rfl | ⟨_, _⟩
  case inr.inr.inl | inr.inr.inr.inr.inr.inr.inl => exact ⟨Option.some_ne_none _, rfl⟩
  all_goals interval_cases n <;> exact ⟨Option.some_ne_none _, rfl⟩

theorem SrReadOnly.unprivileged {n : Nat} (h : SrReadOnly n) : srFw n = false ∧ srCommand n = false := by
  simp only [SrReadOnly] at h
  simp only [Machine.srFw, Machine.srCommand, Bool.or_eq_false_iff, Bool.and_eq_false_iff, beq_eq_false_iff_ne, decide_eq_false_iff_not, ne_eq]
  omega

theorem SrReadOnly.mayWrite {n : Nat} (h : SrReadOnly n) (s : State) : s.MayWrite n := by
  have hlow : n ≠ 0x89 ∧ n < 0xC0 := by
    simp only [SrReadOnly] at h
    omega
  exact ⟨(h.ignored s).1, fun hfw => absurd hfw (Bool.eq_false_iff.mp h.unprivileged.1), s.walled_outside hlow.1 hlow.2⟩

/-! ### The command registers (R317) -/

/-- Where every earlier store has performed, a release is past at once. -/
theorem State.release_of_allOut {s : State} (hout : s.allOut) (k : State → Eff) : s.release k = k s := by
  simp only [State.release, hout]

/-- The two fields of a command, the lower one from bit 0. -/
theorem ofNat_fields (v : Word) {hi lo top : Nat} (h : top < lo) :
    BitVec.ofNat 64 (at_ (bits v.toNat hi lo) lo + bits v.toNat top 0) =
      v &&& (BitVec.ofNat 64 (at_ (2 ^ (hi + 1 - lo) - 1) lo) ||| BitVec.ofNat 64 (2 ^ (top + 1) - 1)) := by
  have hlow : BitVec.ofNat 64 (bits v.toNat top 0) = v &&& BitVec.ofNat 64 (2 ^ (top + 1) - 1) := by
    have hfield := ofNat_at_bits v top 0
    rwa [at_, at_, pow_zero, mul_one, mul_one] at hfield
  have hlt : bits v.toNat top 0 < 2 ^ lo := (Nat.mod_lt _ (by positivity)).trans_le (Nat.pow_le_pow_right (by norm_num) h)
  rw [ofNat_at_add hlt, ofNat_at_bits, hlow, BitVec.and_or_distrib_left]

/-- A command with its busy bit above both fields (R317). -/
theorem ofNat_busy (v : Word) {busy hi lo top : Nat} (htop : top < lo) (hlo : lo ≤ hi) (hhi : hi < busy) :
    BitVec.ofNat 64 (at_ 1 busy + at_ (bits v.toNat hi lo) lo + bits v.toNat top 0) =
      v &&& (BitVec.ofNat 64 (at_ (2 ^ (hi + 1 - lo) - 1) lo) ||| BitVec.ofNat 64 (2 ^ (top + 1) - 1)) ||| BitVec.ofNat 64 (at_ 1 busy) := by
  have hlow : bits v.toNat top 0 < 2 ^ lo := (Nat.mod_lt _ (by positivity)).trans_le (Nat.pow_le_pow_right (by norm_num) htop)
  have hhigh : bits v.toNat hi lo < 2 ^ (hi + 1 - lo) := Nat.mod_lt _ (by positivity)
  have hlt : at_ (bits v.toNat hi lo) lo + bits v.toNat top 0 < 2 ^ busy := calc
    at_ (bits v.toNat hi lo) lo + bits v.toNat top 0 < (bits v.toNat hi lo + 1) * 2 ^ lo := by rw [at_, Nat.succ_mul]; omega
    _ ≤ 2 ^ (hi + 1 - lo) * 2 ^ lo := Nat.mul_le_mul_right _ hhigh
    _ = 2 ^ (hi + 1) := by rw [← pow_add, Nat.sub_add_cancel (by omega)]
    _ ≤ 2 ^ busy := Nat.pow_le_pow_right (by norm_num) hhi
  rw [Nat.add_assoc, ofNat_at_add hlt, ofNat_fields v htop, BitVec.or_comm]

section Commands
variable {s : State} (hout : s.allOut) (v : Word)
include hout

theorem wrCtxCmd_eq : wrCtxCmd v s = .next (if s.myCore.ctxCmd.getLsbD 31 then s else
    { s.setCore (coreOf s.cur) { s.myCore with ctxCmd := (v &&& 0x3F000F) ||| 0x80000000 } with
      ctxQ := s.ctxQ ++ [⟨coreOf s.cur, (v &&& 0x3F000F) ||| 0x80000000⟩] }) := by
  have hword : BitVec.ofNat 64 (at_ 1 31 + at_ (bits v.toNat 21 16) 16 + bits v.toNat 3 0) = (v &&& 0x3F000F) ||| 0x80000000 :=
    ofNat_busy v (by decide) (by decide) (by decide)
  rw [wrCtxCmd, State.release_of_allOut hout, hword, apply_ite Eff.next]
  rfl

theorem wrGrpLaunch_eq : wrGrpLaunch v s = .next (if s.myCore.grpLaunch.getLsbD 63 then s else
    { s.setCore (coreOf s.cur) { s.myCore with grpLaunch := (v &&& 0xFFFFFFFFFFBF) ||| 0x8000000000000000 } with
      grpQ := s.grpQ ++ [⟨coreOf s.cur, (v &&& 0xFFFFFFFFFFBF) ||| 0x8000000000000000⟩] }) := by
  have hword : BitVec.ofNat 64 (at_ 1 63 + at_ (bits v.toNat 47 7) 7 + bits v.toNat 5 0) = (v &&& 0xFFFFFFFFFFBF) ||| 0x8000000000000000 :=
    ofNat_busy v (by decide) (by decide) (by decide)
  rw [wrGrpLaunch, State.release_of_allOut hout, hword, apply_ite Eff.next]
  rfl

theorem wrSlCmd_eq : wrSlCmd v s = .next (if s.myCore.slCmd.getLsbD 63 then s else
    { s.setCore (coreOf s.cur) { s.myCore with slCmd := (v &&& 0xFFFFFFFFFFC7) ||| 0x8000000000000000 } with
      slQ := s.slQ ++ [⟨coreOf s.cur, (v &&& 0xFFFFFFFFFFC7) ||| 0x8000000000000000⟩] }) := by
  have hword : BitVec.ofNat 64 (at_ 1 63 + at_ (bits v.toNat 47 6) 6 + bits v.toNat 2 0) = (v &&& 0xFFFFFFFFFFC7) ||| 0x8000000000000000 :=
    ofNat_busy v (by decide) (by decide) (by decide)
  rw [wrSlCmd, State.release_of_allOut hout, hword, apply_ite Eff.next]
  rfl

theorem wrGqCtl_eq : wrGqCtl v s = .next (if s.gqCtl.getLsbD 63 then s else
    { s with gqCtl := (v &&& 0x1F07) ||| 0x8000000000000000, gqQ := s.gqQ ++ [⟨coreOf s.cur, (v &&& 0x1F07) ||| 0x8000000000000000⟩] }) := by
  have hword : BitVec.ofNat 64 (at_ 1 63 + at_ (bits v.toNat 12 8) 8 + bits v.toNat 2 0) = (v &&& 0x1F07) ||| 0x8000000000000000 :=
    ofNat_busy v (by decide) (by decide) (by decide)
  rw [wrGqCtl, State.release_of_allOut hout, hword, apply_ite Eff.next]

/-- An operation of lk.ctl that is listed, on a link that there is, goes to the IO die (R219). -/
theorem wrLkCtl_eq : wrLkCtl v s = .next { s with
    lkCtl := v &&& 0xF07
    lkQ := if (v.extractLsb' 8 4).toNat < 14 ∧ 1 ≤ (v.extractLsb' 0 3).toNat ∧ (v.extractLsb' 0 3).toNat ≤ 4 then
      s.lkQ ++ [⟨coreOf s.cur, v &&& 0xF07⟩] else s.lkQ } := by
  have hword : BitVec.ofNat 64 (at_ (bits v.toNat 11 8) 8 + bits v.toNat 2 0) = v &&& 0xF07 := ofNat_fields v (by decide)
  have hlink : bits v.toNat 11 8 = (v.extractLsb' 8 4).toNat := bits_toNat v rfl
  have hop : bits v.toNat 2 0 = (v.extractLsb' 0 3).toNat := bits_toNat v rfl
  rw [wrLkCtl, State.release_of_allOut hout]
  simp only [hword]
  simp only [hlink, hop]
  by_cases h : (v.extractLsb' 8 4).toNat < 14 ∧ 1 ≤ (v.extractLsb' 0 3).toNat ∧ (v.extractLsb' 0 3).toNat ≤ 4
  · have hrefused : ¬(14 ≤ (v.extractLsb' 8 4).toNat ∨ (v.extractLsb' 0 3).toNat = 0 ∨ 4 < (v.extractLsb' 0 3).toNat) := by omega
    simp only [Bool.or_eq_true, decide_eq_true_eq, or_assoc, if_pos h, if_neg hrefused]
  · have hrefused : 14 ≤ (v.extractLsb' 8 4).toNat ∨ (v.extractLsb' 0 3).toNat = 0 ∨ 4 < (v.extractLsb' 0 3).toNat := by omega
    simp only [Bool.or_eq_true, decide_eq_true_eq, or_assoc, if_neg h, if_pos hrefused]

end Commands

/-! ### A write that the slot goes on from -/

/-- The write is taken, or ignored, and the slot's next chain is as before. -/
def Eff.GoesOn (s : State) (e : Eff) : Prop := ∃ t, e = .next t ∧ t.me.npc = s.me.npc

theorem Eff.goesOn_of_me {s t : State} (h : t.me = s.me) : (Eff.next t).GoesOn s := ⟨t, rfl, congrArg Slot.npc h⟩

theorem Eff.goesOn_ite {s t u : State} {c : Prop} [Decidable c] (ht : (Eff.next t).GoesOn s) (hu : (Eff.next u).GoesOn s) :
    (Eff.next (if c then t else u)).GoesOn s := by
  split
  · exact ht
  · exact hu

theorem Eff.goesOn_modMe {s : State} {f : Slot → Slot} (h : (f s.me).npc = s.me.npc) : (Eff.next (s.modMe f)).GoesOn s :=
  ⟨_, rfl, by rw [State.modMe_eq, State.setSlot_me, h]⟩

theorem State.modGroup_me (s : State) (n : Nat) (f : Group → Group) : (s.modGroup n f).me = s.me := by
  unfold State.modGroup
  split
  · rfl
  · rfl

/-- A limit above the table's traps behind a locked wall that does not permit it (R253, R255). -/
theorem wrPwLim_walled {s : State} {v : Word} (habove : s.pwTable.toNat < v.toNat % 2 ^ 16) (hlock : s.myGrove.wallLock = true)
    (hbit : s.myGrove.wallBits.getLsbD 1 = false) : wrPwLim v s = .trap s Cause.privilege (BitVec.ofNat 64 0x8F) 0 := by
  simp only [wrPwLim, Nat.not_le.mpr habove, hlock, hbit, Bool.not_false, Bool.and_self, if_true, if_false]
  rfl

theorem wrPwLim_goesOn {s : State} {v : Word}
    (h : ¬(s.pwTable.toNat < v.toNat % 2 ^ 16 ∧ s.myGrove.wallLock = true ∧ s.myGrove.wallBits.getLsbD 1 = false)) : (wrPwLim v s).GoesOn s := by
  simp only [wrPwLim]
  split
  · exact Eff.goesOn_of_me rfl
  · next habove =>
    have hopen : (s.myGrove.wallLock && !s.myGrove.wallBits.getLsbD 1) = false := by
      simpa only [Nat.not_le.mp habove, true_and, ← Bool.not_eq_true', ← Bool.and_eq_true, Bool.not_eq_true] using h
    rw [hopen]
    exact Eff.goesOn_of_me rfl

/-- Every write that no wall refuses, and that is no command behind stores that wait, is taken or ignored at once. -/
theorem srWrite_goesOn {s : State} {v : Word} {n : Nat}
    (hraise : ¬(n = 0x8F ∧ s.pwTable.toNat < v.toNat % 2 ^ 16 ∧ s.myGrove.wallLock = true ∧ s.myGrove.wallBits.getLsbD 1 = false))
    (hout : srCommand n = true → s.allOut) : (srWrite n v s).GoesOn s := by
  have keeps : (Eff.next s).GoesOn s := Eff.goesOn_of_me rfl
  unfold srWrite
  split
  -- 0x02 to 0x0B: the slot's own, of which pr.stk may ignore the word
  · exact Eff.goesOn_modMe rfl
  · exact Eff.goesOn_modMe rfl
  · exact Eff.goesOn_ite keeps (Eff.goesOn_modMe rfl)
  · exact Eff.goesOn_modMe rfl
  · exact Eff.goesOn_modMe rfl
  · exact Eff.goesOn_modMe rfl
  -- 0x21 to 0x80: the core's, the grove's and ctx.base
  · exact Eff.goesOn_of_me rfl
  · exact Eff.goesOn_of_me rfl
  · exact Eff.goesOn_of_me rfl
  · exact Eff.goesOn_of_me rfl
  · exact Eff.goesOn_ite (Eff.goesOn_of_me (s.modGroup_me _ _)) keeps
  · exact Eff.goesOn_of_me rfl
  · exact Eff.goesOn_of_me rfl
  · exact Eff.goesOn_of_me rfl
  · exact Eff.goesOn_of_me rfl
  -- 0x81 to 0x83: commands
  · rw [wrCtxCmd_eq (hout rfl)]
    exact Eff.goesOn_ite keeps (Eff.goesOn_of_me rfl)
  · rw [wrGrpLaunch_eq (hout rfl)]
    exact Eff.goesOn_ite keeps (Eff.goesOn_of_me rfl)
  · rw [wrSlCmd_eq (hout rfl)]
    exact Eff.goesOn_ite keeps (Eff.goesOn_of_me rfl)
  -- 0x84 to 0x8C: the module's, of which rt.cfg and gs.ctl may ignore the word
  · exact Eff.goesOn_of_me rfl
  · exact Eff.goesOn_of_me rfl
  · exact Eff.goesOn_of_me rfl
  · exact Eff.goesOn_ite keeps (Eff.goesOn_of_me rfl)
  · exact Eff.goesOn_of_me rfl
  · exact Eff.goesOn_of_me rfl
  · exact Eff.goesOn_ite keeps (Eff.goesOn_of_me rfl)
  · exact Eff.goesOn_of_me rfl
  · exact Eff.goesOn_of_me rfl
  -- 0x8D to 0x91: lk.ctl, fw.wall, pw.lim and gq.ctl
  · rw [wrLkCtl_eq (hout rfl)]
    exact Eff.goesOn_of_me rfl
  · exact Eff.goesOn_ite (Eff.goesOn_of_me rfl) keeps
  · exact wrPwLim_goesOn fun h => hraise ⟨rfl, h⟩
  · rw [wrGqCtl_eq (hout rfl)]
    exact Eff.goesOn_ite keeps (Eff.goesOn_of_me rfl)
  -- the recipes, the host windows, and every number that no code writes
  · split
    · exact Eff.goesOn_ite (Eff.goesOn_of_me rfl) keeps
    · split
      · exact Eff.goesOn_ite (Eff.goesOn_of_me rfl) (Eff.goesOn_of_me rfl)
      · exact keeps

theorem finish_goesOn {s : State} {e : Eff} (h : e.GoesOn s) : ∃ t, finish e = .next t ∧ t.me.pc = s.me.npc := by
  obtain ⟨t, rfl, hnpc⟩ := h
  refine ⟨t.advance, rfl, ?_⟩
  rw [State.advance_eq, State.setSlot_me, hnpc]

theorem srCommand_iff (n : Nat) : srCommand n = true ↔ n = 0x81 ∨ n = 0x82 ∨ n = 0x83 ∨ n = 0x8D ∨ n = 0x91 := by
  simp only [srCommand, Bool.or_eq_true, beq_iff_eq, or_assoc]

/-- Settles O12: the checks answer in their order, and past them each register takes the word as its own write says. -/
theorem specialRegisterWrites : Obligations.SpecialRegisterWrites := by
  intro s a num hacts n v wr denied may command raises own leaves core queued
  have hnum : BitVec.ofNat 64 n = num.setWidth 64 := BitVec.ofNat_toNat 64 num
  have hexists : s.srValue n ≠ none → wr = finish (wrChecked n (srWrite n) v s) := exec_wrsr_exists hacts a rfl
  have hcommand : srCommand n = true ↔ command := srCommand_iff n
  have hwrites : may → (command → s.me.collecting = false ∧ s.me.classCT = false) → wr = finish (srWrite n v s) := fun hmay hcmd =>
    exec_wrsr_writes hacts a rfl hmay fun h => hcmd (hcommand.mp h)
  have howns : ∀ m {write}, s.srValue m ≠ none → srWrite m = write → ∀ i, exec i s = guarded s (wrChecked m write v s) → own m i :=
    fun m _ hval hwrite i hi hn => (exec_wrsr_row hacts a hn hval hwrite).trans hi.symm
  have hleaves : ∀ m {t}, srCommand m = false → srWrite m v s = .next t → leaves m t := by
    intro m t hcmd ht hn hmay
    have hno : ¬command := fun h => Bool.eq_false_iff.mp hcmd (hn ▸ hcommand.mpr h)
    rw [hwrites hmay fun h => absurd h hno, hn, ht, finish_next]
  have hqueued : ∀ m {busy : Bool} {t}, (s.allOut → srWrite m v s = .next (if busy then s else t)) →
      (busy = true → srWrite m v s = .next s) → queued m busy t := by
    intro m busy t hfree hbusy hn hmay hcoll hclass
    have hwr := hwrites hmay fun _ => ⟨hcoll, hclass⟩
    rw [hn] at hwr
    refine ⟨fun hb => ?_, fun hb hout => ?_⟩
    · rw [hwr, hbusy hb, finish_next]
    · rw [hwr, hfree hout, hb]
      rfl
  refine ⟨exec_wrsr_missing hacts a, ?user, ?walled, ?raised, ?collecting, ?completes, ?readOnly,
    howns 0x02 (Option.some_ne_none _) rfl _ rfl, howns 0x03 (Option.some_ne_none _) rfl _ rfl, howns 0x04 (Option.some_ne_none _) rfl _ rfl,
    howns 0x0A (Option.some_ne_none _) rfl _ rfl, howns 0x0B (Option.some_ne_none _) rfl _ rfl, howns 0x21 (Option.some_ne_none _) rfl _ rfl,
    howns 0x33 (Option.some_ne_none _) rfl _ rfl, howns 0x34 (Option.some_ne_none _) rfl _ rfl, howns 0x35 (Option.some_ne_none _) rfl _ rfl,
    howns 0x85 (Option.some_ne_none _) rfl _ rfl, howns 0x87 (Option.some_ne_none _) rfl _ rfl, howns 0x8A (Option.some_ne_none _) rfl _ rfl,
    howns 0x8B (Option.some_ne_none _) rfl _ rfl, howns 0x8E (Option.some_ne_none _) rfl _ rfl, howns 0x8F (Option.some_ne_none _) rfl _ rfl,
    fun k => howns _ (s.srValue_recipe k) (srWrite_recipe k) _ rfl,
    fun k => ⟨howns _ (s.srValue_window k false) (srWrite_window k false) _ rfl, fun hn =>
      howns _ (s.srValue_window k true) (srWrite_window k true) _ rfl (hn.trans (Nat.add_right_comm _ 1 _))⟩,
    hleaves 0x09 rfl rfl, hleaves 0x22 rfl rfl, hleaves 0x23 rfl rfl, hleaves 0x24 rfl rfl, hleaves 0x36 rfl rfl, hleaves 0x80 rfl rfl,
    hleaves 0x84 rfl ?position, hleaves 0x86 rfl rfl, hleaves 0x88 rfl rfl, hleaves 0x89 rfl rfl, hleaves 0x8C rfl ?tail,
    hqueued 0x81 (fun hout => wrCtxCmd_eq hout v) fun hb => if_pos hb, hqueued 0x82 (fun hout => wrGrpLaunch_eq hout v) fun hb => if_pos hb,
    hqueued 0x83 (fun hout => wrSlCmd_eq hout v) fun hb => if_pos hb, hqueued 0x8D (fun hout => wrLkCtl_eq hout v) fun hb => absurd hb Bool.false_ne_true,
    hqueued 0x91 (fun hout => wrGqCtl_eq hout v) fun hb => if_pos hb⟩
  case user =>
    intro h hfw huser
    exact (hexists h).trans (by rw [wrChecked_user hfw huser, hnum, finish_trap])
  case walled =>
    intro h _ hwall
    exact (hexists h).trans (by rw [wrChecked_walled hwall, hnum, finish_trap])
  case raised =>
    rintro hmay ⟨hn, habove, hlock, hbit⟩
    have hno : ¬command := fun h => by omega
    rw [hn] at hnum
    refine (hwrites hmay fun h => absurd h hno).trans ?_
    rw [hn]
    exact (congrArg finish (wrPwLim_walled habove hlock hbit)).trans (by rw [← hnum, finish_trap])
  case collecting =>
    intro hmay hcmd hcoll
    have hrefused : (srCommand n && (s.me.collecting || s.me.classCT)) = true := by
      simpa only [hcommand.mpr hcmd, Bool.true_and, Bool.or_eq_true] using hcoll
    exact (hexists hmay.1).trans (by rw [State.MayWrite.wrChecked_eq hmay, if_pos hrefused, hnum, finish_trap])
  case completes =>
    intro hmay hraise hcmd
    have hgoes : (srWrite n v s).GoesOn s := srWrite_goesOn hraise fun h => (hcmd (hcommand.mp h)).2.2
    rw [hwrites hmay fun h => ⟨(hcmd h).1, (hcmd h).2.1⟩]
    exact finish_goesOn hgoes
  case readOnly =>
    intro h
    have hro : SrReadOnly n := h
    have hno : ¬command := fun hc => Bool.eq_false_iff.mp hro.unprivileged.2 (hcommand.mpr hc)
    rw [hwrites (hro.mayWrite s) fun hc => absurd hc hno, (hro.ignored s).2, finish_next]
  case position => rw [← BitVec.setWidth_eq_extractLsb' (by decide : 2 ≤ 64)]; rfl
  case tail => rw [← BitVec.setWidth_eq_extractLsb' (by decide : 10 ≤ 64)]; rfl

end Sys2Proof.Machine
end

section
/-! PROOF. Instructions inside an open packet (R125, R281, R298): every chain but msg.put and msg.end meets the packet rule. -/

namespace Sys2Proof.Machine

/-- The two firmware-only instructions, whose privilege is checked before the packet rule (R281, R298). -/
def Instr.FirmwareOnly (i : Instr) : Prop := (∃ x y z, i = .pgPost x y z) ∨ ∃ x, i = .pgReplay x

/-- The instructions that build a packet. -/
def Instr.BuildsPacket (i : Instr) : Prop := (∃ r, i = .msgPut r) ∨ i = .msgEnd

/-- How an instruction is carried out: under the guard, whatever the guard, or under the guard of a firmware core alone (R298). -/
theorem exec_form {i : Instr} (hchain : encode i ≠ []) (hother : ¬Instr.BuildsPacket i) (s : State) :
    (∃ e, exec i s = guarded s e) ∨ (∃ e, exec i s = always s e) ∨ Instr.FirmwareOnly i ∧ ∃ e, exec i s = firmwareOnly s e := by
  cases i
  case msgPut r => exact absurd (.inl ⟨r, rfl⟩) hother
  case msgEnd => exact absurd (.inr rfl) hother
  case pgPost x y z => exact .inr (.inr ⟨.inl ⟨x, y, z, rfl⟩, _, rfl⟩)
  case pgReplay x => exact .inr (.inr ⟨.inr ⟨x, rfl⟩, _, rfl⟩)
  case vsqrt d r m =>
    refine .inl ?_
    change ∃ e, execVsqrt d r m s = guarded s e
    unfold execVsqrt
    split
    · exact ⟨_, rfl⟩
    · exact ⟨_, rfl⟩
  case add | sub | and | or | xor | sll | srl | sra | mul | mulh | div | rem | min | max | slt | sextB | sextH | sextW | zextB | zextH |
    zextW | clz | ctz | popc | addi | andi | ori | xori | slli | srli | srai | slti | beq | bne | blt | bge | bltN | bgeN | jal | call |
    callC | jalr | ret | fadd | fsub | fmul | fdiv | fmadd | fmin | fmax | fsqrt | fcvt | rdsr | wrsr | setvl | vle | vlse | vlxe | vlff |
    vlce | vse | vsse | vsxe | vsce | vadd | vsub | vmul | vmin | vmax | vmulh | vdiv | vrem | vand | vor | vxor | vsll | vsrl | vsra |
    vfma | vfdiv | vwadd | vwmul | vnarrow | vcvt | vpack | vunpack | vredsum | vredmin | vredmax | vmseq | vmsne | vmslt | vmsle |
    vmand | vmor | vmnot | vpopc | vfirst | vmerge | vslideup | vslidedown | vrgather | vcompress | vmv | cbCfg | cbAdvP | cbAdvC | mxCfg |
    mxZero | mma | mmaRing | mmaLx | mmaLa | mxDrain | ltLoad | ltRot | cp | ga | sc | engStat | ld | st | ldF | ldFTake | stF | amoAdd | amoSwap |
    amoAnd | amoOr | amoXor | amoMin | amoMax | amoCas | amoMinN | amoMaxN | redAdd | redAddF32 | redMin | redMax | redMinN | redMaxN |
    redMinF32 | redMaxF32 | fence | fenceX | dcFlush | dcDiscard | icsync | wait | barArrive | barWait | gbSync | msgOpen | recv |
    tkSpawn | tkDep | tkYield | tkEnd | qlOpen | qlClose | qlEval | qlFold | qlSeek | qlRec | qlGet | qlSplit | qlApp | qlPut | qlPub |
    hlCat | hlFilt | hlRebase | hlApply | hlDrop | hlLen | ecall | ebreak | trap =>
    exact .inl ⟨_, rfl⟩
  case cmpEq | cmpNe | cmpLt | cmpGe | cmpLtN | cmpGeN | cmpiEq | cmpiLt | pand | por | pnot | pend | fcmpEq | fcmpLt | fcmpLe | hint =>
    exact .inr (.inl ⟨_, rfl⟩)
  all_goals exact absurd rfl hchain

/-- Inside a packet any other chain traps ILLEGAL, but on a user core the firmware-only ones PRIVILEGE (R125, R281). -/
theorem exec_in_packet {s : State} (hopen : s.me.packet.isSome = true) {i : Instr} (hchain : encode i ≠ []) (hother : ¬Instr.BuildsPacket i) :
    (Instr.FirmwareOnly i → s.isFw s.cur = false → exec i s = .next (s.takeTrap s.cur Cause.privilege 0 0)) ∧
    (¬Instr.FirmwareOnly i ∨ s.isFw s.cur = true → exec i s = .next (s.takeTrap s.cur Cause.illegal 0 0)) := by
  have hrule : ∀ e, finish (s.packetRule e) = .next (s.takeTrap s.cur Cause.illegal 0 0) := fun e => by rw [State.packetRule, if_pos hopen, finish_trap]
  refine ⟨?user, fun hnot => ?others⟩
  case user =>
    rintro (⟨x, y, z, rfl⟩ | ⟨x, rfl⟩) huser
    · exact firmwareOnly_user huser _
    · exact firmwareOnly_user huser _
  case others =>
    obtain ⟨e, he⟩ | ⟨e, he⟩ | ⟨hfw, e, he⟩ := exec_form hchain hother s
    · exact he.trans (hrule _)
    · exact he.trans (hrule _)
    · rw [he, firmwareOnly, if_pos (hnot.resolve_left (not_not_intro hfw)), hrule]

end Sys2Proof.Machine
end

section
/-! PROOF. Packets and the inbox (R53, R125, R126, R336, R337). -/

namespace Sys2Proof.Machine

/-! ### Fields of bytes -/

/-- A field behind a first run of bytes. -/
theorem field_append_right {xs : List Byte} {off : Nat} (h : xs.length ≤ off) (ys : List Byte) (n : Nat) :
    field (xs ++ ys) off n = field ys (off - xs.length) n := by
  rw [field, field, List.drop_append, List.drop_eq_nil_of_le h, List.nil_append]

/-- The field that a list of bytes begins with. -/
theorem field_append_left (xs ys : List Byte) : field (xs ++ ys) 0 xs.length = natOf xs := by
  rw [field, List.drop_zero, List.take_left']
  rfl

theorem field_bytesOf_append (n v : Nat) (ys : List Byte) : field (bytesOf n v ++ ys) 0 n = v % 256 ^ n := by
  rw [← natOf_bytesOf, ← field_append_left (bytesOf n v) ys, length_bytesOf]

/-- Word i of a run of words. -/
theorem field_words (ws : List Word) (ys : List Byte) {i : Nat} (h : i < ws.length) :
    field ((ws.map fun w => bytesOf 8 w.toNat).flatten ++ ys) (8 * i) 8 = (ws.getD i 0).toNat := by
  induction ws generalizing i with
  | nil => exact absurd h (Nat.not_lt_zero i)
  | cons w ws ih =>
    rw [List.map_cons, List.flatten_cons, List.append_assoc]
    cases i with
    | zero =>
      rw [Nat.mul_zero, field_bytesOf_append]
      exact Nat.mod_eq_of_lt w.isLt
    | succ i =>
      have hlen : (bytesOf 8 w.toNat).length ≤ 8 * (i + 1) := by rw [length_bytesOf]; omega
      rw [field_append_right hlen, length_bytesOf, Nat.mul_succ, Nat.add_sub_cancel, ih (Nat.lt_of_succ_lt_succ h)]
      rfl

/-! ### The bytes of a packet (R126) -/

section Bytes
variable (s : State) (p : Packet)

/-- The source grove, the source slot, the length and twelve zero bytes stand before the words, zeros behind them. -/
theorem State.packetBytes_eq : ∃ src, s.packetBytes p = bytesOf 2 src ++ (bytesOf 1 (coreOf s.cur % 8 + 8 * slotNo s.cur) ++
    (bytesOf 1 p.words.length ++ (zeros 12 ++ ((p.words.map fun w => bytesOf 8 w.toNat).flatten ++ zeros (8 * (16 - p.words.length)))))) := by
  simp only [State.packetBytes, List.append_assoc]
  exact ⟨_, rfl⟩

theorem length_words (ws : List Word) : (ws.map fun w => bytesOf 8 w.toNat).flatten.length = 8 * ws.length := by
  rw [length_flatten_of_forall (n := 8), List.length_map, Nat.mul_comm]
  exact fun x hx => by
    obtain ⟨w, -, rfl⟩ := List.mem_map.mp hx
    exact length_bytesOf 8 _

theorem State.length_packetBytes : (s.packetBytes p).length = 16 + 8 * max 16 p.words.length := by
  obtain ⟨src, heq⟩ := s.packetBytes_eq p
  simp only [heq, List.length_append, length_bytesOf, length_words, zeros, List.length_replicate]
  omega

theorem State.packetBytes_source : field (s.packetBytes p) 2 1 = coreOf s.cur % 8 + 8 * slotNo s.cur := by
  obtain ⟨src, heq⟩ := s.packetBytes_eq p
  rw [heq, field_append_right (by rw [length_bytesOf]), length_bytesOf, field_bytesOf_append]
  unfold slotNo
  omega

theorem State.packetBytes_length : field (s.packetBytes p) 3 1 = p.words.length % 256 := by
  obtain ⟨src, heq⟩ := s.packetBytes_eq p
  rw [heq, ← List.append_assoc, field_append_right (by simp), List.length_append, length_bytesOf, length_bytesOf, field_bytesOf_append, pow_one]

theorem State.packetBytes_word {i : Nat} (h : i < p.words.length) : field (s.packetBytes p) (16 + 8 * i) 8 = (p.words.getD i 0).toNat := by
  obtain ⟨src, heq⟩ := s.packetBytes_eq p
  have hhead : (bytesOf 2 src ++ (bytesOf 1 (coreOf s.cur % 8 + 8 * slotNo s.cur) ++ (bytesOf 1 p.words.length ++ zeros 12))).length = 16 := by
    simp [zeros]
  rw [heq, ← List.append_assoc (bytesOf 1 p.words.length), ← List.append_assoc (bytesOf 1 _), ← List.append_assoc (bytesOf 2 src),
    field_append_right (by rw [hhead]; exact Nat.le_add_right 16 _), hhead, Nat.add_sub_cancel_left, field_words p.words _ h]

end Bytes

/-! ### TCM behind a write (R53, R245) -/

section Tcm
variable (s : State) (core off : Nat) (bs : List Byte)

/-- A write of TCM puts the bytes into the core, and beside that may take poison from the grove's list. -/
theorem State.tcmWrite_cases :
    let t := s.setCore core { s.core core with tcm := memWrite (s.core core).tcm off bs }
    s.tcmWrite core off bs = t ∨ ∃ ps, s.tcmWrite core off bs = t.setGrove (groveOfCore core) { s.grove (groveOfCore core) with poisonTcm := ps } := by
  simp only [State.tcmWrite]
  split
  · exact .inl rfl
  · exact .inr ⟨_, rfl⟩

theorem State.tcmWrite_me : (s.tcmWrite core off bs).me = s.me := by
  obtain h | ⟨ps, h⟩ := s.tcmWrite_cases core off bs <;> rw [h] <;> rfl

theorem State.tcmWrite_cur : (s.tcmWrite core off bs).cur = s.cur := by
  obtain h | ⟨ps, h⟩ := s.tcmWrite_cases core off bs <;> rw [h] <;> rfl

theorem State.tcmRead_tcmWrite_same : (s.tcmWrite core off bs).tcmRead core off bs.length = bs := by
  have hcore : (s.tcmWrite core off bs).core core = { s.core core with tcm := memWrite (s.core core).tcm off bs } := by
    obtain h | ⟨ps, h⟩ := s.tcmWrite_cases core off bs
    · rw [h, State.core_setCore_same]
    · rw [h, State.core_setGrove, State.core_setCore_same]
  rw [State.tcmRead, hcore, memRead_memWrite_same]

variable {s core off bs}

theorem State.byteAt_setCore_tcm {m : Mem} {q : MemAt} (h : ∀ a, q = .tcm core a → memByte m a = memByte (s.core core).tcm a) :
    (s.setCore core { s.core core with tcm := m }).byteAt q = s.byteAt q := by
  cases q with
  | device a => rfl
  | host a => rfl
  | scratch g a => rfl
  | tcm c a =>
    by_cases hc : c = core
    · subst hc
      simpa only [State.byteAt, State.core_setCore_same] using h a rfl
    · simp only [State.byteAt, State.core_setCore_ne s _ hc]

theorem State.byteAt_setGrove {g : Nat} {v : Grove} (hv : v.scratch = (s.grove g).scratch) (q : MemAt) : (s.setGrove g v).byteAt q = s.byteAt q := by
  cases q with
  | device a => rfl
  | host a => rfl
  | tcm c a => rfl
  | scratch n a =>
    by_cases hn : n = g
    · subst hn
      simp only [State.byteAt, State.grove_setGrove_same, hv]
    · simp only [State.byteAt, State.grove_setGrove_ne s _ hn]

theorem State.byteAt_tcmWrite_apart {q : MemAt} (h : ∀ j, j < bs.length → q ≠ .tcm core (off + j)) : (s.tcmWrite core off bs).byteAt q = s.byteAt q := by
  have hput : (s.setCore core { s.core core with tcm := memWrite (s.core core).tcm off bs }).byteAt q = s.byteAt q := by
    refine State.byteAt_setCore_tcm fun a ha => memByte_memWrite_apart _ ?_
    by_contra hin
    exact h (a - off) (by omega) (by rw [ha, Nat.add_sub_cancel' (by omega)])
  obtain hw | ⟨ps, hw⟩ := s.tcmWrite_cases core off bs
  · rw [hw, hput]
  · rw [hw]
    refine (State.byteAt_setGrove ?_ q).trans hput
    rfl

end Tcm

/-! ### The instructions of a packet -/

/-- A poisoned word found is one of the words that the bytes lie in. -/
theorem State.poisonWord_some {s : State} {core off n w : Nat} (h : s.poisonWord core false off n = some w) :
    s.tcmPoison core w 8 = true ∧ off < w + 8 ∧ w < off + n := by
  obtain ⟨k, hk, rfl⟩ := Option.map_eq_some_iff.mp h
  obtain ⟨hlo, hhi⟩ := mem_span_words (List.mem_of_find?_eq_some hk)
  have hbad : s.localPoison core false (8 * k) 8 = true := List.find?_some (p := fun k => s.localPoison core false (8 * k) 8) hk
  exact ⟨hbad, hhi, hlo⟩

/-- The slot's registers behind a packet that recv has taken. -/
theorem Slot.setXr_inbox (q : Slot) (d : Reg) (v : Word) (l : List Nat) : { q with inbox := l }.setXr d v = { q.setXr d v with inbox := l } := by
  unfold Slot.setXr
  split <;> rfl

/-- An instruction that changes its own slot alone and goes on. -/
theorem finish_modMe (s : State) (f : Slot → Slot) : finish (.next (s.modMe f)) = .next (s.setSlot s.cur { f s.me with pc := (f s.me).npc }) :=
  finish_setSlot s (f s.me)

section Build
variable {s : State}

/-- msg.open with a true guard and no packet open (R336, log 96). -/
theorem exec_msgOpen_acts (hacts : s.acts) (a : Reg) :
    (s.me.collecting = true → exec (.msgOpen a) s = .next (s.takeTrap s.cur Cause.collectForbidden 0 0)) ∧
    (s.me.collecting = false → (∀ k, s.msgDest (s.x a) = .ok k →
      exec (.msgOpen a) s = .next (s.setSlot s.cur { s.me with packet := some ⟨k, []⟩, pc := s.me.npc })) ∧
      ∀ cause, s.msgDest (s.x a) = .error cause → exec (.msgOpen a) s = .next (s.takeTrap s.cur cause 0 0)) := by
  refine ⟨fun hcol => ?_, fun hcol => ⟨fun k hk => ?_, fun cause hcause => ?_⟩⟩
  · refine (guarded_acts hacts _).trans ?_
    rw [if_pos hcol, finish_trap]
  · refine (guarded_acts hacts _).trans ?_
    rw [if_neg (by simp [hcol]), hk]
    exact finish_modMe s _
  · refine (guarded_acts hacts _).trans ?_
    rw [if_neg (by simp [hcol]), hcause]
    rfl

/-- With a false guard and no packet open msg.put and msg.end only go on (R298). -/
theorem exec_msgPut_skips (hguard : s.me.guard = false) (a : Reg) : exec (.msgPut a) s = .next s.advance := by
  change execMsgPut a s = _
  rw [execMsgPut, hguard]
  rfl

theorem exec_msgEnd_skips (hnone : s.me.packet = none) (hguard : s.me.guard = false) : exec .msgEnd s = .next s.advance := by
  change execMsgEnd s = _
  rw [execMsgEnd, hnone]
  simp only [hguard]
  rfl

theorem exec_msgPut_closed (hnone : s.me.packet = none) (hguard : s.me.guard = true) (a : Reg) :
    exec (.msgPut a) s = .next (s.takeTrap s.cur Cause.illegal 0 0) := by
  change execMsgPut a s = _
  rw [execMsgPut, hguard, hnone]
  rfl

theorem exec_msgEnd_closed (hnone : s.me.packet = none) (hguard : s.me.guard = true) :
    exec .msgEnd s = .next (s.takeTrap s.cur Cause.illegal 0 0) := by
  change execMsgEnd s = _
  rw [execMsgEnd, hnone]
  simp only [hguard]
  rfl

variable {p : Packet} (hp : s.me.packet = some p)
include hp

theorem exec_msgPut_open (hguard : s.me.guard = true) (a : Reg) : exec (.msgPut a) s =
    if p.words.length < 16 then .next (s.setSlot s.cur { s.me with packet := some { p with words := p.words ++ [s.x a] }, pc := s.me.npc })
    else .next (s.takeTrap s.cur Cause.illegal 0 0) := by
  change execMsgPut a s = _
  rw [execMsgPut, hguard, hp]
  simp only [if_true, apply_ite finish, finish_trap, finish_modMe]

theorem exec_msgEnd_false (hguard : s.me.guard = false) : exec .msgEnd s = .next (s.takeTrap s.cur Cause.illegal 0 0) := by
  change execMsgEnd s = _
  rw [execMsgEnd, hp]
  simp only [hguard]
  rfl

/-- The packet enters the grove's replay window (R125, R336). -/
theorem exec_msgEnd_enters (hguard : s.me.guard = true) (hout : s.allOut) (hroom : s.windowRoom (groveOf s.cur) = true) :
    exec .msgEnd s = .next ((s.setGrove (groveOf s.cur) { s.myGrove with window := s.myGrove.window ++ [⟨.packet p.dest (s.packetBytes p), false⟩] }).modMe
      fun q => { q with packet := none, pc := q.npc }) := by
  change execMsgEnd s = _
  rw [execMsgEnd, hp]
  simp only [hguard, if_true, State.release_of_allOut hout, hroom]
  rw [finish_modMe]
  rfl

end Build

/-- The state behind a recv that has taken a packet p whose other inbox entries are rest (R337). -/
def State.received (s : State) (a : Reg) (o : Nat) (p : List Byte) (rest : List Nat) : State :=
  let s1 := s.tcmWrite (coreOf s.cur) o (p.drop 16)
  (s1.acquired s1.cur).setSlot s.cur { (s.me.setXr a (BitVec.ofNat 64 (field p 0 4))) with inbox := rest, pc := s.me.npc }

section Received
variable (s : State) (a : Reg) (o : Nat) {p : List Byte} (hp : p.length = 144) (rest : List Nat)

theorem State.received_me : (s.received a o p rest).me = { (s.me.setXr a (BitVec.ofNat 64 (field p 0 4))) with inbox := rest, pc := s.me.npc } := by
  have hcur : (s.received a o p rest).cur = s.cur := s.tcmWrite_cur _ _ _
  rw [State.me, hcur]
  exact State.slot_setSlot_same _ _ _

include hp

theorem State.received_tcmRead : (s.received a o p rest).tcmRead (coreOf s.cur) o 128 = p.drop 16 := by
  have hlen : (p.drop 16).length = 128 := by rw [List.length_drop, hp]
  have hread := s.tcmRead_tcmWrite_same (coreOf s.cur) o (p.drop 16)
  rwa [hlen] at hread

theorem State.received_byteAt {q : MemAt} (hq : ∀ j, j < 128 → q ≠ .tcm (coreOf s.cur) (o + j)) :
    (s.received a o p rest).byteAt q = s.byteAt q := by
  have hlen : (p.drop 16).length = 128 := by rw [List.length_drop, hp]
  have hapart : (s.tcmWrite (coreOf s.cur) o (p.drop 16)).byteAt q = s.byteAt q := State.byteAt_tcmWrite_apart fun j hj => hq j (by omega)
  rw [← hapart]
  cases q <;> rfl

end Received

section Recv
variable {s : State} (hacts : s.acts) (a b : Reg)
include hacts

theorem exec_recv_misaligned (hal : (s.x b).toNat % 8 ≠ 0) : exec (.recv a b) s = .next (s.takeTrap s.cur Cause.misaligned (s.x b) 0) := by
  refine (guarded_acts hacts _).trans ?_
  rw [recvStep, if_pos hal, finish_trap]

theorem exec_recv_outside (hal : (s.x b).toNat % 8 = 0) (hout : s.myCore.utop.toNat * 256 < (s.x b).toNat + 128) :
    exec (.recv a b) s = .next (s.takeTrap s.cur Cause.permission (s.x b) 0) := by
  refine (guarded_acts hacts _).trans ?_
  rw [recvStep, if_neg (not_not_intro hal), if_pos hout, finish_trap]

variable {a b} (hal : (s.x b).toNat % 8 = 0) (hin : (s.x b).toNat + 128 ≤ s.myCore.utop.toNat * 256)
include hal hin

theorem exec_recv_empty (hempty : s.me.inbox = []) : exec (.recv a b) s = .next (s.setX a (BitVec.ofNat 64 (2 ^ 32))).advance := by
  refine (guarded_acts hacts _).trans ?_
  rw [recvStep, if_neg (not_not_intro hal), if_neg hin.not_gt, hempty, finish_next]

variable {i : Nat} {rest : List Nat} (hinbox : s.me.inbox = i :: rest)
include hinbox

theorem exec_recv_poisoned {w : Nat} (hw : s.poisonWord (coreOf s.cur) false (s.myCore.inboxOff (slotNo s.cur) i) 144 = some w) :
    exec (.recv a b) s = .next (s.takeTrap s.cur Cause.poison (BitVec.ofNat 64 w) 0) := by
  refine (guarded_acts hacts _).trans ?_
  rw [recvStep, if_neg (not_not_intro hal), if_neg hin.not_gt, hinbox]
  simp only [hw, finish_trap]

/-- The oldest packet's sixteen words go to user TCM, its first four bytes to the register (R126, R337). -/
theorem exec_recv_takes (hclean : s.tcmPoison (coreOf s.cur) (s.myCore.inboxOff (slotNo s.cur) i) 144 = false) :
    exec (.recv a b) s =
      .next (s.received a (s.x b).toNat (s.tcmRead (coreOf s.cur) (s.myCore.inboxOff (slotNo s.cur) i) 144) rest) := by
  let s1 := s.tcmWrite (coreOf s.cur) (s.x b).toNat ((s.tcmRead (coreOf s.cur) (s.myCore.inboxOff (slotNo s.cur) i) 144).drop 16)
  have hme : s1.me = s.me := s.tcmWrite_me _ _ _
  have hcur : s1.cur = s.cur := s.tcmWrite_cur _ _ _
  have hword : s.poisonWord (coreOf s.cur) false (s.myCore.inboxOff (slotNo s.cur) i) 144 = none := State.poisonWord_of_clean hclean
  refine (guarded_acts hacts _).trans ?_
  rw [recvStep, if_neg (not_not_intro hal), if_neg hin.not_gt, hinbox]
  simp only [hword, State.modMe_eq, State.setX_eq, State.setSlot_cur, State.setSlot_me, State.setSlot_setSlot, finish_setSlot]
  have hacq : (s1.acquired s1.cur).me = s.me := hme
  have hcurq : (s1.acquired s1.cur).cur = s.cur := hcur
  rw [hacq, hcurq, Slot.setXr_inbox, Slot.setXr_frame, State.received, Slot.setXr_frame]

end Recv

/-- Settles O41: the chains of a packet by its state, the others by the packet rule, recv by the inbox. -/
theorem messages : Obligations.Messages := by
  intro s a b illegal
  refine ⟨fun hguard hnone => ?closed, fun hnone hguard => ⟨exec_msgPut_skips hguard a, exec_msgEnd_skips hnone hguard⟩,
    fun k ws hp => ⟨?put, ?full, exec_msgEnd_false hp, ?ends, ?others⟩, fun hacts => ⟨?misaligned, ?outside, fun hal hin => ⟨?empty, ?oldest⟩⟩⟩
  case closed =>
    obtain ⟨hcol, hdest⟩ := exec_msgOpen_acts ⟨hguard, hnone⟩ a
    exact ⟨hcol, hdest, exec_msgPut_closed hnone hguard a, exec_msgEnd_closed hnone hguard⟩
  case put => exact fun hguard hlen => (exec_msgPut_open hp hguard a).trans (if_pos hlen)
  case full => exact fun hguard hlen => (exec_msgPut_open hp hguard a).trans (if_neg hlen.not_gt)
  case ends =>
    exact fun hguard hout hroom => ⟨s.packetBytes ⟨k, ws⟩, s.length_packetBytes _, s.packetBytes_length _, s.packetBytes_source _,
      fun i hi => s.packetBytes_word _ hi, exec_msgEnd_enters hp hguard hout hroom⟩
  case others =>
    intro i _ hchain hput hend
    have hother : ¬Instr.BuildsPacket i := by
      rintro (⟨r, rfl⟩ | rfl)
      · exact hput r rfl
      · exact hend rfl
    exact exec_in_packet (by rw [hp]; rfl) hchain hother
  case misaligned => exact exec_recv_misaligned hacts a b
  case outside => exact exec_recv_outside hacts a b
  case empty => exact exec_recv_empty hacts hal hin
  case oldest =>
    intro i rest hinbox off p
    have hlen : p.length = 144 := length_memRead _ _ _
    exact ⟨fun w hw => ⟨exec_recv_poisoned hacts hal hin hinbox hw, State.poisonWord_some hw⟩,
      fun hclean => ⟨_, exec_recv_takes hacts hal hin hinbox hclean, s.received_me .., s.received_tcmRead a _ hlen rest,
        fun q hq => s.received_byteAt a _ hlen rest hq⟩⟩

end Sys2Proof.Machine
end

section
/-! PROOF. The registers of a slot lost while the home of its task's spill is locked (R245, R237, R139; log 62). -/

namespace Sys2Proof.Machine

/-- A task with a record at 0x2000, which slot 0 runs. -/
def spillTask : Task := ⟨0, 0x2000, 0x2000, 1, 0, .running, 0, 1, false, [], none, none, 0, none, 0, true, false, false, 0, 0, none, none⟩

/-- A core with 32 KiB of user TCM whose slots have one page of spill. -/
def spillCore : Core := { Core.reset with utop := 128, spill := 1 }

/-- A slot that runs the task and whose stack pointer lies in its spill window. -/
def spillSlot : Slot := { Slot.reset with x := Slot.reset.x.set 2 0x80000008, task := some 1, grp := 1, st := .run }

/-- The record's pointer to the spill's home at 0x9000, under page tables that map the first GiB onto itself. -/
def spillMem : Mem :=
  memWrite (memWrite (memWrite [] 0x2008 (bytesOf 8 0x9000)) 0x8000000 (bytesOf 8 0x8001001)) 0x8001000 (bytesOf 8 0x6F)

/-- A commit holds the lock of that home's first sector. -/
def spillLocked : State :=
  { State.reset with
    boot := .up, slots := [(0, spillSlot)], cores := [(0, spillCore)], tasks := [(1, spillTask)], mem := spillMem
    ctxs := [(0, { Ctx.reset with st := .running, ptroot := 0x8000000 })]
    commits := [⟨9, [], [], [], [0x9000 / 128], false, []⟩] }

theorem spillLocked_task : (spillLocked.slot 0).st = .run ∧ (spillLocked.slot 0).task = some 1 ∧ spillLocked.tasks.find 1 = some spillTask := by
  decide +kernel

/-- The save waits for the lock, and the slot stops with its task still RUNNING (log 62). -/
theorem spillLocked_loses_registers :
    ((((spillLocked.uncorrUp 0).errEffect (.registers 0)).tasks.find 1).map fun v => (v.st, v.dead)) = some (.running, true) := by
  decide +kernel

/-- Refutes O51: its last clause on errors would have the task of lost registers FAULTED at once; where a commit holds the home of the task's spill, the save waits and the task is RUNNING until it is complete (log 62). -/
theorem not_memoryEvents : ¬ Obligations.MemoryEvents := by
  intro h
  obtain ⟨-, -, -, -, -, herr, -⟩ := h spillLocked 0 0 0 0 0 0 0 0 0 false
  obtain ⟨-, -, -, -, -, -, -, hregs⟩ := herr
  obtain ⟨hrun, htask, hfind⟩ := spillLocked_task
  obtain ⟨t, ht, hfaulted⟩ := hregs 1 spillTask hrun htask hfind
  obtain rfl : (spillLocked.uncorrUp 0).errEffect (.registers 0) = t := Host.Outcome.next.inj ht
  rw [spillLocked_loses_registers] at hfaulted
  exact absurd hfaulted (by decide)

end Sys2Proof.Machine
end

section
/-! PROOF. A SUSPEND while a trapped slot's save waits (R75, R237, R243; log 62). -/

namespace Sys2Proof.Machine

/-- Slot 0 of spillLocked has trapped and its save waits for the lock, when core 130 asks for a SUSPEND of the context. -/
def suspendDuringSave : State := { spillLocked.takeTrap 0 Cause.poison 0 0 with ctxQ := [⟨130, 3⟩] }

theorem suspendDuringSave_next : suspendDuringSave.ctxNext = some ⟨130, 3⟩ := by decide +kernel

theorem suspendDuringSave_running : (suspendDuringSave.ctxOf (cmdCtx 3)).st = .running := by decide +kernel

/-- The slot holds its task, no stop has arrived at it, and it is the one slot that is busy. -/
theorem suspendDuringSave_busy :
    (suspendDuringSave.slot 0).saving = true ∧ (suspendDuringSave.slot 0).stop = none ∧
    (suspendDuringSave.slot 0).busyFor (cmdCtx 3) = true ∧ ∃ q ∈ suspendDuringSave.slots, q.2.busyFor (cmdCtx 3) = true := by
  decide +kernel

/-- A slot that has stopped is sent no stop: its save is under way already (R237). -/
theorem suspendDuringSave_stop : ((suspendDuringSave.ctxServe 3 suspendCtx).slot 0).stop = none := by decide +kernel

/-- Refutes O53: its clause on SUSPEND would have a stop arrive at every slot of the context that is busy and has none; a trapped slot whose save waits is busy, and it has stopped, so that none arrives (log 62). -/
theorem not_contextAndGroupEvents : ¬ Obligations.ContextAndGroupEvents := by
  intro h
  obtain ⟨hcommands, -⟩ := h
  obtain ⟨-, -, -, hsuspend, -⟩ := hcommands suspendDuringSave ⟨130, 3⟩ suspendDuringSave_next
  obtain ⟨-, hserved⟩ := hsuspend rfl
  obtain ⟨t, ht, hstops, -⟩ := hserved (.inr suspendDuringSave_running)
  obtain rfl : suspendDuringSave.ctxServe 3 suspendCtx = t := Host.Outcome.next.inj ht
  obtain ⟨-, hnone, hbusy, hsome⟩ := suspendDuringSave_busy
  have hpreempt := hstops hsome 0 hbusy hnone
  rw [suspendDuringSave_stop] at hpreempt
  exact nomatch hpreempt

end Sys2Proof.Machine
end

section
/-! PROOF. A fault record whose queue's words are poisoned until the recall of an update-only copy (R65, R72, R142, R245; log 63). -/

namespace Sys2Proof.Machine

/-- The number at which R69's descriptor address falls on the first byte of user grove 0's window (R252). -/
def windowCtx : Nat := (hostBase + 0xFFE0000000000) / 256

/-- The descriptor's fqhead and fqtail are one TCM word of the grove, which is poisoned, and core 0 holds that word update-only: 64 bits, to which it adds 0. -/
def poisonedHead : State :=
  { State.reset with
    cores := [(0, { Core.reset with upd := [⟨windowCtx * 256 + 24, false, 1, 0, 0⟩] })]
    groves := [(0, { Grove.reset with poisonTcm := [(0, 3)] })]
    ctxs := [(windowCtx, { Ctx.reset with fqbase := 0x40000 })] }

/-- A record for that queue. -/
def headRecord : FaultRec := ⟨windowCtx, zeros 64, 0⟩

theorem poisonedHead_recordBad : poisonedHead.recordBad headRecord = true := by decide +kernel

/-- The recall combines the copy at its home, which covers the poisoned word wholly (R142, R245), and the record enters. -/
theorem poisonedHead_recordPut : (poisonedHead.recordPut headRecord).2 = true := by decide +kernel

/-- Refutes O52: its clause on poisoned places looks at them before the update-only copies of fqhead's sector are recalled, and State.recordPut looks after that. For a record of windowCtx that recall clears the poison, so that the record is written although its place was poisoned. The module has no context of that number (R69); the clause speaks of every record all the same. -/
theorem not_faultEvents : ¬ Obligations.FaultEvents := by
  intro h
  obtain ⟨-, -, hrecords, -⟩ := h poisonedHead 0 0 0 0 0
  obtain ⟨-, -, hpoisoned, -⟩ := hrecords headRecord
  have hwaits := hpoisoned poisonedHead_recordBad
  rw [poisonedHead_recordPut] at hwaits
  exact nomatch hwaits

end Sys2Proof.Machine
end

section
/-! PROOF. Device memory that stands open, and the task instructions tk.spawn, tk.dep, tk.yield and tk.end (R82 to R88, R338 to R341). -/

namespace Sys2Proof.Machine

/-! ### What nothing stands before is read as it stands -/

theorem sectorsOf_subset (p : Nat) {k n : Nat} (h : k ≤ n) : sectorsOf p k ⊆ sectorsOf p n := by
  intro sec hsec
  rcases Nat.eq_zero_or_pos k with rfl | hk
  · simp [sectorsOf] at hsec
  · have hkn : (p + k - 1) / 128 ≤ (p + n - 1) / 128 := Nat.div_le_div_right (by omega)
    simp only [sectorsOf, if_neg (show k ≠ 0 by omega), if_neg (show n ≠ 0 by omega), span, List.mem_map, List.mem_range] at hsec ⊢
    obtain ⟨i, hi, rfl⟩ := hsec
    exact ⟨i, by omega, rfl⟩

/-- A sector that neither the guest nor an update-only copy holds (R142, R231). -/
theorem State.recall_unheld {s : State} {sec : Nat} (hguest : s.guest.held = []) (hcopies : s.updHolders sec = []) : s.recall sec = s := by
  simp [State.recall, State.snoop, hguest, hcopies]

theorem State.recallRange_openAt {s : State} {p k n : Nat} (hopen : s.openAt p n) (hk : k ≤ n) : s.recallRange p k = s := by
  obtain ⟨-, -, -, hcopies, hguest, -⟩ := hopen
  have hall : ∀ l : List Nat, (∀ sec ∈ l, s.updHolders sec = []) → l.foldl State.recall s = s := by
    intro l
    induction l with
    | nil => exact fun _ => rfl
    | cons sec rest ih =>
      intro h
      rw [List.foldl_cons, State.recall_unheld hguest (h sec List.mem_cons_self)]
      exact ih fun q hq => h q (List.mem_cons_of_mem sec hq)
  exact hall _ fun sec hsec => hcopies sec (sectorsOf_subset p hk hsec)

theorem State.recField_openAt {s : State} {p k n : Nat} (hopen : s.openAt p n) (hk : k ≤ n) : s.recField p 0 k = natOf (memRead s.mem p k) := by
  have hrecall := State.recallRange_openAt hopen hk
  obtain ⟨hend, -, hlate, -⟩ := hopen
  have hpeek : s.peek p k = memRead s.mem p k := if_pos (by omega)
  simp [State.recField, State.devRead, hrecall, hlate, hpeek]

theorem State.collect_of_hamperPut {s t : State} {es : List HEntry} (h : s.hamperPut es = some t) (addr : Word) : s.collect es addr = .ok () t := by
  rw [State.collect, h]

/-- The task of a slot goes to its commit with what the slot has collected (R341). -/
def State.handedOver (s : State) (key : Nat) (t : Task) : State :=
  ((s.setTask key { t with hamper := s.me.taskH, sig := s.me.sig, slot := s.cur, endPc := s.me.pc }).endSlot s.cur).taskState key .committing

section Instructions
variable {s s1 : State} {a b : Reg} {pa w0 : Nat} (hacts : s.acts)
include hacts

/-! ### tk.spawn (R338) -/

theorem exec_tkSpawn_collects (htake : s.takeRecord (s.x a) = .ok (pa, w0) s1) (hcol : s1.me.collecting = true) {s2 : State}
    (hput : s1.hamperPut [⟨2, 0, (s.x a).setWidth 48, 0, [], 0, none, 0⟩] = some s2) : exec (.tkSpawn a) s = .next s2.advance := by
  refine (guarded_acts hacts _).trans ?_
  rw [htake, Got.andThen, if_pos hcol, State.collect_of_hamperPut hput, Got.andThen, finish_next]

theorem exec_tkSpawn_enqueues (htake : s.takeRecord (s.x a) = .ok (pa, w0) s1) (hcol : s1.me.collecting = false) (hout : s1.allOut)
    (hroom : bits w0 59 57 ≠ 0 ∨ s1.windowRoom (groveOf s1.cur) = true) :
    exec (.tkSpawn a) s = .next ((s1.newTask (s1.spawnGroup s1.cur) s1.me.ctx (s.x a).toNat pa (s1.childDepth s1.me.task) .ready).takeIn
      (taskKey s1.me.ctx (s.x a).toNat) (groveOf s1.cur) none).advance := by
  have hgo : (bits w0 59 57 = 0 && !s1.windowRoom (groveOf s1.cur)) = false := by
    rcases hroom with h | h <;> simp [h]
  refine (guarded_acts hacts _).trans ?_
  rw [htake, Got.andThen, if_neg (by simp [hcol]), spawnNow, State.release_of_allOut hout, hgo]
  rfl

/-! ### tk.dep (R339) -/

/-- The checks of tk.dep pass, and its two translations are made. -/
theorem exec_tkDep_checked (hin : (s.x b).toNat < 2 ^ 48) (hal : (s.x b).toNat % 16 = 0) (htake : s.takeRecord (s.x a) = .ok (pa, w0) s1)
    {s2 : State} {cp : Nat} {inter : Bool} (hx : s1.xlate .store .plain (s.x b) 16 false (s.x b) = .ok (cp, inter) s2) :
    exec (.tkDep a b) s = finish (if s2.me.collecting then (s2.collect (depEntries (s.x b).toNat (s.x a).toNat) (s.x b)).andThen fun _ s3 => .next s3
      else if s2.poisoned cp 16 then .trap s2 Cause.poison (s.x b) 0
      else depNow (s.x a).toNat pa cp inter s2) := by
  have hplace : s.place .glob false (s.x b) 16 16 = .glob (s.x b) true := by
    simp only [State.place, if_neg (Nat.not_le.mpr hin), hal, ne_eq, not_true_eq_false, if_false]
  refine (guarded_acts hacts _).trans ?_
  rw [hplace]
  simp only [htake, Got.andThen, hx]

theorem exec_tkDep_collects (hin : (s.x b).toNat < 2 ^ 48) (hal : (s.x b).toNat % 16 = 0) (htake : s.takeRecord (s.x a) = .ok (pa, w0) s1)
    {s2 : State} {cp : Nat} {inter : Bool} (hx : s1.xlate .store .plain (s.x b) 16 false (s.x b) = .ok (cp, inter) s2)
    (hcol : s2.me.collecting = true) {s3 : State} (hput : s2.hamperPut (depEntries (s.x b).toNat (s.x a).toNat) = some s3) :
    exec (.tkDep a b) s = .next s3.advance := by
  rw [exec_tkDep_checked hacts hin hal htake hx, if_pos hcol, State.collect_of_hamperPut hput, Got.andThen, finish_next]

omit hacts in
/-- A counter above zero is armed: the record is COUNTING, and its address stands behind a zero flag (R339). -/
theorem depNow_arms {va cp : Nat} {inter : Bool} (hopen : s.openAt cp 16) (hrec : s.locked pa 64 = false)
    (hdrained : s.drainSecs s.cur (sectorsOf cp 16 ++ sectorsOf pa 64) = s) (hcount : natOf (memRead s.mem cp 4) ≠ 0) :
    depNow va pa cp inter s =
      let s3 := s.newTask (s.spawnGroup s.cur) s.me.ctx va pa (s.childDepth s.me.task) .counting
      .next (s3.perform s3.cur (cp + 4) inter (zeros 4 ++ bytesOf 8 va) false 1) := by
  have hzero : (s.recField cp 0 4 == 0) = false := by simp [State.recField_openAt hopen (show 4 ≤ 16 by decide), hcount]
  have hrecall := State.recallRange_openAt hopen (Nat.le_refl 16)
  obtain ⟨-, hfree, -⟩ := hopen
  simp only [depNow, hfree, hrec, hdrained, hrecall, hzero, Bool.or_self, Bool.false_and, Bool.false_eq_true, if_false]
  rfl

theorem exec_tkDep_arms (hin : (s.x b).toNat < 2 ^ 48) (hal : (s.x b).toNat % 16 = 0) (htake : s.takeRecord (s.x a) = .ok (pa, w0) s1)
    {s2 : State} {cp : Nat} {inter : Bool} (hx : s1.xlate .store .plain (s.x b) 16 false (s.x b) = .ok (cp, inter) s2)
    (hcol : s2.me.collecting = false) (hquiet : s2.quietAt cp 16) (hrec : s2.locked pa 64 = false)
    (hdrained : s2.drainSecs s2.cur (sectorsOf cp 16 ++ sectorsOf pa 64) = s2) (hcount : natOf (memRead s2.mem cp 4) ≠ 0) :
    let s3 := s2.newTask (s2.spawnGroup s2.cur) s2.me.ctx (s.x a).toNat pa (s2.childDepth s2.me.task) .counting
    exec (.tkDep a b) s = .next (s3.perform s3.cur (cp + 4) inter (zeros 4 ++ bytesOf 8 (s.x a).toNat) false 1).advance := by
  obtain ⟨hopen, -⟩ := hquiet
  obtain ⟨-, -, -, -, -, hclean, -⟩ := id hopen
  rw [exec_tkDep_checked hacts hin hal htake hx, if_neg (by simp [hcol]), if_neg (by simp [hclean]), depNow_arms hopen hrec hdrained hcount]
  exact finish_next _

/-! ### tk.yield (R340) -/

theorem exec_tkYield_acts : exec .tkYield s = finish (yieldNow s) := guarded_acts hacts _

theorem exec_tkYield_idle (htask : s.me.task = none) : exec .tkYield s = .next s.advance := by
  rw [exec_tkYield_acts hacts, yieldNow, htask]
  rfl

theorem exec_tkYield_waits {key : Nat} (htask : s.me.task = some key) (hwaits : s.saveWaits s.cur key = true) :
    exec .tkYield s = .next (s.setSlot s.cur { s.me with held := true }) := by
  rw [exec_tkYield_acts hacts, yieldNow, htask]
  simp only [hwaits, if_true, finish_hold]

theorem exec_tkYield_suspends {key : Nat} (htask : s.me.task = some key) (hready : s.saveWaits s.cur key = false)
    (hspill : s.spillTrap s.cur key = none) (hroom : s.windowRoom (groveOf s.cur) = true) :
    exec .tkYield s = .next ((s.suspend s.cur none).enqueue key (groveOf s.cur)) := by
  rw [exec_tkYield_acts hacts, yieldNow, htask]
  simp only [hready, hspill, hroom, if_true, Bool.false_eq_true, if_false, finish_left]

theorem exec_tkYield_faults {key : Nat} (htask : s.me.task = some key) (hready : s.saveWaits s.cur key = false) {f : XFault}
    (hspill : s.spillTrap s.cur key = some f) : exec .tkYield s = .next (s.takeXFault s.cur f f.addr) := by
  rw [exec_tkYield_acts hacts, yieldNow, htask]
  simp only [hready, hspill, Bool.false_eq_true, if_false, finish_xfault]

/-! ### tk.end (R341) -/

theorem exec_tkEnd_inside_region (hstack : s.me.stack ≠ []) : exec .tkEnd s = .next (s.takeTrap s.cur Cause.illegal 0 0) := by
  refine (guarded_acts hacts _).trans ?_
  rw [if_neg (by simpa using hstack), finish_trap]

theorem exec_tkEnd_acts (hstack : s.me.stack = []) (hout : s.allOut) : exec .tkEnd s = finish (endNow s) := by
  refine (guarded_acts hacts _).trans ?_
  rw [if_pos (by simp [hstack]), State.release_of_allOut hout]

theorem exec_tkEnd_idle (hstack : s.me.stack = []) (hout : s.allOut) (htask : s.me.task = none) : exec .tkEnd s = .next (s.endSlot s.cur) := by
  rw [exec_tkEnd_acts hacts hstack hout, endNow, htask]
  rfl

variable {key : Nat} {t : Task}

theorem exec_tkEnd_classCT (hstack : s.me.stack = []) (hout : s.allOut) (htask : s.me.task = some key) (hfind : s.tasks.find key = some t)
    (hcls : s.me.cls = 1 ∨ s.me.cls = 2) (hcap : ∀ h, s.me.taskH = some h → uncaptured h.entries = false) :
    exec .tkEnd s = .next (if s.me.cls = 1 then (s.handedOver key t).commitStart key else s.handedOver key t) := by
  have hCT : s.me.classCT = true := by rcases hcls with h | h <;> simp [Slot.classCT, htask, h]
  have hcaptured : uncaptured ((s.me.taskH.map (·.entries)).getD []) = false := by
    cases hH : s.me.taskH with
    | none => rfl
    | some h => exact hcap h hH
  rw [exec_tkEnd_acts hacts hstack hout, endNow, htask]
  simp only [hfind, hCT, hcaptured, if_true, Bool.false_eq_true, if_false, endCollected, State.modTask, finish_left, beq_iff_eq]
  rfl

theorem exec_tkEnd_classD (hstack : s.me.stack = []) (hout : s.allOut) (htask : s.me.task = some key) (hfind : s.tasks.find key = some t)
    (hcls : s.me.cls = 0) : exec .tkEnd s = finish (endDirect key t s) := by
  have hD : s.me.classCT = false := by simp [Slot.classCT, hcls]
  rw [exec_tkEnd_acts hacts hstack hout, endNow, htask]
  simp only [hfind, hD, Bool.false_eq_true, if_false]

end Instructions

/-- A class D task whose counter can be taken down ends at once (R87, R341). -/
theorem endDirect_ends {s : State} {key : Nat} {t : Task} {ps : List Piece} {cs : List (Nat × Bool)} :
    let s0 := s.planTouch ⟨s.cur, t.ctx, 0⟩ (s.ownCounter t) []
    s0.commitPlan ⟨s0.cur, t.ctx, 0⟩ (s0.ownCounter t) [] = .ok (ps, cs) → s0.blocked ps cs = false → s0.underflow cs = false →
    s0.recWaits noTask t.ctx cs ps = false →
      let s1 := (s0.modTask key fun u => { u with slot := s0.cur }).endSlot s0.cur
      let s2 := s1.applyCommit s0.cur key ⟨t.grp, t.ctx, groveOf s0.cur, some key, none⟩ ps cs
      endDirect key t s = .left (s2.commitEnd key (s2.overfull s1 (groveOf s0.cur))) := by
  intro s0 hplan hblocked hunder hrec s1 s2
  simp only [endDirect, s0, hplan, hblocked, hunder, hrec, Bool.false_eq_true, if_false, s1, s2]

/-- Settles O42: each outcome of the four instructions is a lemma of its own, with the checks that lead to it. -/
theorem taskInstructions : Obligations.TaskInstructions := by
  intro s s1 a b pa w0 hacts x
  refine ⟨fun htake => ⟨fun hcol s2 hput => exec_tkSpawn_collects hacts htake hcol hput,
      fun hcol hout hroom => exec_tkSpawn_enqueues hacts htake hcol hout hroom⟩,
    fun s2 cp inter hin hal htake hx => ⟨fun hcol s3 hput => exec_tkDep_collects hacts hin hal htake hx hcol hput,
      fun hcol hquiet hrec hdrained hcount => exec_tkDep_arms hacts hin hal htake hx hcol hquiet hrec hdrained hcount⟩,
    exec_tkYield_idle hacts, fun key htask => ⟨exec_tkYield_waits hacts htask, fun hready =>
      ⟨exec_tkYield_suspends hacts htask hready, fun f hspill => exec_tkYield_faults hacts htask hready hspill⟩⟩,
    exec_tkEnd_inside_region hacts,
    fun hstack hout => ⟨exec_tkEnd_idle hacts hstack hout, fun key t htask hfind => ⟨fun hcls hcap => ?_, fun hcls hcap => ?_, fun hcls => ?_⟩⟩⟩
  · refine ⟨_, exec_tkEnd_classCT hacts hstack hout htask hfind (.inr hcls) hcap, ?_⟩
    rw [if_neg (by simp [hcls])]
    rfl
  · rw [exec_tkEnd_classCT hacts hstack hout htask hfind (.inl hcls) hcap, if_pos hcls]
    rfl
  · intro s0 ps cs hplan hblocked hunder hrec s1 s2
    rw [exec_tkEnd_classD hacts hstack hout htask hfind hcls, endDirect_ends hplan hblocked hunder hrec]
    rfl

end Sys2Proof.Machine
end

section
/-! PROOF. What accesses to the memories leave as it is: slots, ready queues, tasks and commits (R63, R139, R142). -/

namespace Sys2Proof.Machine

/-- What the device holds of its ready queues, its tasks and its commits. -/
structure Ledger where
  stands : PMap Stand
  tasks : PMap Task
  commits : List Commit

/-- The same, with its slots. -/
structure Books extends Ledger where
  slots : PMap Slot

/-- That part of a state. -/
def State.ledger (s : State) : Ledger := ⟨s.stands, s.tasks, s.commits⟩

/-- That part of a state, with its slots. -/
def State.books (s : State) : Books := ⟨s.ledger, s.slots⟩

theorem State.books_of_same {s t : State} (hslots : t.slots = s.slots) (hstands : t.stands = s.stands) (htasks : t.tasks = s.tasks)
    (hcommits : t.commits = s.commits) : t.books = s.books := by
  rw [State.books, State.books, State.ledger, State.ledger, hslots, hstands, htasks, hcommits]

theorem State.ledger_of_books {s t : State} (h : t.books = s.books) : t.ledger = s.ledger := congrArg Books.toLedger h

/-- A fold of steps that each keep something of the state keeps it. -/
theorem foldl_keeps {α β : Type} {obs : State → β} {f : State → α → State} (hf : ∀ s a, obs (f s a) = obs s) (s : State) (l : List α) :
    obs (l.foldl f s) = obs s := by
  induction l generalizing s with
  | nil => rfl
  | cons a rest ih => exact (ih (f s a)).trans (hf s a)

/-! ### Accesses to the memories -/

theorem State.tcmWrite_books (s : State) (core off : Nat) (bs : List Byte) : (s.tcmWrite core off bs).books = s.books := by
  unfold State.tcmWrite
  simp only
  split <;> rfl

theorem State.shadow_books (s : State) (inter : Bool) (sec : Nat) : (s.shadow inter sec).books = s.books := by
  unfold State.shadow
  split <;> rfl

theorem State.writeBack1_books (s : State) (sec : Nat) : (s.writeBack1 sec).books = s.books := by
  unfold State.writeBack1
  simp only
  split
  · rfl
  · split <;> rfl

theorem State.makeDirty_books (s : State) (inter : Bool) (sec : Nat) : (s.makeDirty inter sec).books = s.books := by
  refine (State.shadow_books _ inter sec).trans ?_
  unfold State.makeRoom
  simp only
  split
  · rfl
  · split
    · rfl
    · exact foldl_keeps State.writeBack1_books (s.freeIndex _).2 _

theorem State.devWrite_books (s : State) (p : Nat) (inter : Bool) (bs : List Byte) : (s.devWrite p inter bs).books = s.books :=
  foldl_keeps (f := fun st sec => st.makeDirty inter sec) (fun st sec => State.makeDirty_books st inter sec) s _

theorem State.hostPut_books (s : State) (p a : Nat) (bs : List Byte) : (s.hostPut p a bs).books = s.books :=
  foldl_keeps (f := fun st sec => st.makeDirty true sec) (fun st sec => State.makeDirty_books st true sec) s _

theorem State.barWrite_books (s : State) (off : Nat) (bs : List Byte) : (s.barWrite off bs).books = s.books := by
  unfold State.barWrite
  simp only
  split
  · split
    · rfl
    · exact State.books_of_same rfl rfl rfl rfl
  · split
    · exact State.books_of_same rfl rfl rfl rfl
    · split
      · exact State.books_of_same rfl rfl rfl rfl
      · rfl

theorem State.bellWrite_books (s : State) (q : Nat) (bs : List Byte) : (s.bellWrite q bs).books = s.books := by
  unfold State.bellWrite
  simp only
  split
  · rfl
  · exact State.devWrite_books s _ _ _

theorem State.windowWrite_books (s : State) (g off : Nat) (bs : List Byte) : (s.windowWrite g off bs).books = s.books := by
  unfold State.windowWrite
  split
  · exact State.tcmWrite_books s _ _ _
  · split
    · exact State.books_of_same rfl rfl rfl rfl
    · split
      · exact State.books_of_same rfl rfl rfl rfl
      · rfl

theorem State.poke_books (s : State) (p : Nat) (inter : Bool) (bs : List Byte) : (s.poke p inter bs).books = s.books := by
  unfold State.poke
  split
  · exact State.devWrite_books s p inter bs
  · exact State.windowWrite_books s _ _ bs
  · exact State.windowWrite_books s _ _ bs
  · exact State.barWrite_books s _ bs
  · exact State.bellWrite_books s _ bs
  · exact State.hostPut_books s p _ bs
  · rfl
  · rfl

theorem State.traceAdd_books (s : State) (home kind size p src : Nat) : (s.traceAdd home kind size p src).books = s.books := by
  unfold State.traceAdd
  simp only
  split <;> rfl

theorem State.combineElem_books (s : State) (e : UpdElem) : (s.combineElem e).books = s.books := State.poke_books s e.pa e.inter _

theorem State.combineCopy_books (s : State) (core sec : Nat) : (s.combineCopy core sec).books = s.books :=
  foldl_keeps (f := fun st e => (st.combineElem e).traceAdd (st.home e.pa e.inter) 2 (redWidth e.ty.toNat / 8) e.pa (st.source (core * 4)))
    (fun st e => (State.traceAdd_books _ _ _ _ _ _).trans (State.combineElem_books st e)) (s.setCore core _) _

theorem State.combineAll_books (sec n : Nat) (s : State) (cores : List Nat) : (s.combineAll sec n cores).books = s.books := by
  induction n generalizing s cores with
  | zero => rfl
  | succ n ih =>
    unfold State.combineAll
    split
    · rfl
    · exact State.combineCopy_books s _ sec
    · exact (ih _ _).trans (State.combineCopy_books _ _ sec)

theorem State.snoop_books (s : State) (sec : Nat) : (s.snoop sec).books = s.books := by
  unfold State.snoop
  split <;> rfl

theorem State.recall_books (s : State) (sec : Nat) : (s.recall sec).books = s.books := by
  unfold State.recall
  simp only
  split
  · exact State.snoop_books s sec
  · exact (State.combineAll_books _ _ _ _).trans (State.snoop_books s sec)

theorem State.recallRange_books (s : State) (p n : Nat) : (s.recallRange p n).books = s.books := foldl_keeps State.recall_books s _

theorem State.walkFrom_books (va : Nat) (levels : List Nat) (table : Nat) (s : State) : (State.walkFrom va levels table s).2.2.books = s.books := by
  induction levels generalizing table s with
  | nil => rfl
  | cons level rest ih =>
    unfold State.walkFrom
    simp only
    split
    · rfl
    · split
      · exact State.recall_books s _
      · split
        · exact State.recall_books s _
        · exact (ih _ _).trans (State.recall_books s _)

theorem State.walkTouch_books (s : State) (ctx : Nat) (vas : List Nat) : (s.walkTouch ctx vas).books = s.books := by
  refine foldl_keeps (f := fun st va => (st.walk ctx (va % 2 ^ 48)).2.2) (fun st va => ?_) s vas
  unfold State.walk
  simp only
  split
  · rfl
  · exact State.walkFrom_books _ _ _ st

theorem State.raiseIf_books (s : State) (ctx : Option Nat) : (s.raiseIf ctx).books = s.books := by cases ctx <;> rfl

/-! ### Writes of the device -/

/-- A notice reaches waits alone (R124). -/
theorem State.notify_ledger (s : State) (sec : Nat) : (s.notify sec).ledger = s.ledger := rfl

theorem State.perform_ledger (s : State) (slot p : Nat) (inter : Bool) (bs : List Byte) (sig : Bool) (kind : Nat) :
    (s.perform slot p inter bs sig kind).ledger = s.ledger := by
  have hput := State.ledger_of_books ((State.traceAdd_books (((s.recallRange p bs.length).poke p inter bs)) ((s.recallRange p bs.length).home p inter) kind bs.length p
    ((s.recallRange p bs.length).source slot)).trans ((State.poke_books _ p inter bs).trans (State.recallRange_books s p bs.length)))
  unfold State.perform
  simp only
  split
  · exact (State.notify_ledger _ _).trans hput
  · exact hput

theorem State.strongPut_ledger (s : State) (slot p : Nat) (inter : Bool) (bs : List Byte) (sig : Bool) (kind : Nat) :
    (s.strongPut slot p inter bs sig kind).ledger = s.ledger := by
  refine Eq.trans ?_ (State.perform_ledger s slot p inter bs sig kind)
  unfold State.strongPut State.strongDone
  split <;> rfl

/-- A write of the device that stands for no slot and sends no notice, as it performs. -/
theorem State.latePut_books (s : State) {l : Late} (hslot : l.slot = none) (hsig : l.st.sig = false) : (s.latePut l).books = s.books := by
  unfold State.latePut
  split
  · split <;> rfl
  · rw [hslot]
    simp only [hsig, Bool.false_eq_true, if_false]
    exact (State.poke_books _ _ _ _).trans (State.recallRange_books s _ _)

theorem State.latePut_ledger (s : State) (l : Late) : (s.latePut l).ledger = s.ledger := by
  have hput := State.ledger_of_books ((State.poke_books _ l.st.pa l.st.inter l.st.bytes).trans (State.recallRange_books s l.st.pa l.st.bytes.length))
  unfold State.latePut
  split
  · split <;> rfl
  · split
    · exact State.strongPut_ledger s _ _ _ _ _ _
    · simp only
      split
      · exact (State.notify_ledger _ _).trans hput
      · exact hput

/-- A write of a record, whether it performs or waits. -/
theorem State.recWrite_books (s : State) (pa off : Nat) (bs : List Byte) : (s.recWrite pa off bs).books = s.books := by
  unfold State.recWrite State.lateWrite
  split
  · rfl
  · exact State.latePut_books s rfl rfl

theorem State.recWrite_ledger (s : State) (pa off : Nat) (bs : List Byte) : (s.recWrite pa off bs).ledger = s.ledger :=
  State.ledger_of_books (State.recWrite_books s pa off bs)

theorem State.flushLate_ledger (s : State) : s.flushLate.ledger = s.ledger := by
  refine foldl_keeps (f := fun st (l : Late) => if st.mustWait l.st.pa l.st.bytes.length then { st with late := st.late ++ [l] } else st.latePut l)
    (fun st l => ?_) { s with late := [] } s.late
  split
  · rfl
  · exact State.latePut_ledger st l

@[simp] theorem State.recallRange_tasks (s : State) (p n : Nat) : (s.recallRange p n).tasks = s.tasks :=
  congrArg (fun b => b.tasks) (State.recallRange_books s p n)
@[simp] theorem State.recWrite_slots (s : State) (pa off : Nat) (bs : List Byte) : (s.recWrite pa off bs).slots = s.slots :=
  congrArg Books.slots (State.recWrite_books s pa off bs)
@[simp] theorem State.recWrite_stands (s : State) (pa off : Nat) (bs : List Byte) : (s.recWrite pa off bs).stands = s.stands :=
  congrArg Ledger.stands (State.recWrite_ledger s pa off bs)
@[simp] theorem State.recWrite_tasks (s : State) (pa off : Nat) (bs : List Byte) : (s.recWrite pa off bs).tasks = s.tasks :=
  congrArg Ledger.tasks (State.recWrite_ledger s pa off bs)
@[simp] theorem State.recWrite_commits (s : State) (pa off : Nat) (bs : List Byte) : (s.recWrite pa off bs).commits = s.commits :=
  congrArg Ledger.commits (State.recWrite_ledger s pa off bs)

/-! ### Tasks and commits -/

theorem State.modTask_known {s : State} {key : Nat} {t : Task} (h : s.tasks.find key = some t) (f : Task → Task) : s.modTask key f = s.setTask key (f t) := by
  rw [State.modTask, h]

@[simp] theorem State.taskState_slots (s : State) (key : Nat) (st : TaskSt) : (s.taskState key st).slots = s.slots := by
  unfold State.taskState
  split
  · exact State.recWrite_slots _ _ _ _
  · rfl

@[simp] theorem State.slot_taskState (s : State) (key : Nat) (st : TaskSt) (k : Nat) : (s.taskState key st).slot k = s.slot k := by
  rw [State.slot, State.slot, State.taskState_slots]

@[simp] theorem State.taskState_stands (s : State) (key : Nat) (st : TaskSt) : (s.taskState key st).stands = s.stands := by
  unfold State.taskState
  split
  · exact State.recWrite_stands _ _ _ _
  · rfl

@[simp] theorem State.taskState_commits (s : State) (key : Nat) (st : TaskSt) : (s.taskState key st).commits = s.commits := by
  unfold State.taskState
  split
  · exact State.recWrite_commits _ _ _ _
  · rfl

theorem State.taskState_tasks {s : State} {key : Nat} {t : Task} (h : s.tasks.find key = some t) (st : TaskSt) :
    (s.taskState key st).tasks = s.tasks.put key { t with st := st } := by
  rw [State.taskState, h]
  exact State.recWrite_tasks _ _ _ _

theorem State.taskState_find {s : State} {key : Nat} {t : Task} (h : s.tasks.find key = some t) (st : TaskSt) :
    (s.taskState key st).tasks.find key = some { t with st := st } := by
  rw [State.taskState_tasks h, PMap.find_put_same]

theorem State.setTask_taskState_find (s : State) (key : Nat) (t : Task) (st : TaskSt) :
    ((s.setTask key t).taskState key st).tasks.find key = some { t with st := st } := State.taskState_find (PMap.find_put_same _ _ _) st

/-- An unlock takes the commit off the list, and performs what waited for it (R139). -/
theorem State.unlock_ledger (s : State) (key : Nat) :
    (s.unlock key).ledger = ⟨s.stands, s.tasks, s.commits.filter fun c => c.task != key⟩ := by
  unfold State.unlock
  split
  · exact State.flushLate_ledger _
  · next hnone =>
    have hall : s.commits.filter (fun c => c.task != key) = s.commits :=
      List.filter_eq_self.mpr fun c hc => bne_iff_ne.mpr fun heq => hnone (List.any_eq_true.mpr ⟨c, hc, beq_iff_eq.mpr heq⟩)
    rw [hall]
    rfl

@[simp] theorem State.unlock_tasks (s : State) (key : Nat) : (s.unlock key).tasks = s.tasks := congrArg Ledger.tasks (State.unlock_ledger s key)

theorem State.unlock_commits (s : State) (key : Nat) : (s.unlock key).commits = s.commits.filter fun c => c.task != key :=
  congrArg Ledger.commits (State.unlock_ledger s key)

theorem PMap.find_drop {α : Type} (m : PMap α) (key : Nat) : PMap.find (m.drop key) key = none := by
  induction m with
  | nil => rfl
  | cons p rest ih =>
    obtain ⟨i, v⟩ := p
    by_cases hi : i = key
    · simpa [PMap.drop, hi] using ih
    · have hkeep : PMap.drop ((i, v) :: rest) key = (i, v) :: PMap.drop rest key := by simp [PMap.drop, hi]
      rw [hkeep, PMap.find, if_neg hi]
      exact ih

end Sys2Proof.Machine
end

section
/-! PROOF. The end of a task, and the life of a commit (R85, R87, R139, R146, R148, R166). -/

namespace Sys2Proof.Machine

/-! ### Ascending lists of sectors -/

theorem mem_insertBy {α : Type} (key : α → Nat) (v w : α) (l : List α) : w ∈ insertBy key v l ↔ w = v ∨ w ∈ l := by
  induction l with
  | nil => simp [insertBy]
  | cons a rest ih =>
    rw [insertBy]
    split
    · simp
    · simp only [List.mem_cons, ih]
      exact or_left_comm

theorem insertBy_ascending (v : Nat) {l : List Nat} (h : l.Pairwise (· ≤ ·)) : (insertBy id v l).Pairwise (· ≤ ·) := by
  induction l with
  | nil => simp [insertBy]
  | cons a rest ih =>
    obtain ⟨hfirst, hrest⟩ := List.pairwise_cons.mp h
    rw [insertBy]
    split
    · next hva =>
      refine List.pairwise_cons.mpr ⟨fun w hw => ?_, h⟩
      rcases List.mem_cons.mp hw with rfl | hw
      · exact Nat.le_of_lt hva
      · exact Nat.le_trans (Nat.le_of_lt hva) (hfirst w hw)
    · next hva =>
      refine List.pairwise_cons.mpr ⟨fun w hw => ?_, ih hrest⟩
      rcases (mem_insertBy id v w rest).mp hw with rfl | hw
      · exact Nat.le_of_not_lt hva
      · exact hfirst w hw

theorem sortBy_ascending (l : List Nat) : (sortBy id l).Pairwise (· ≤ ·) := by
  have hall : ∀ acc : List Nat, acc.Pairwise (· ≤ ·) → (l.foldl (fun acc v => insertBy id v acc) acc).Pairwise (· ≤ ·) := by
    induction l with
    | nil => exact fun _ h => h
    | cons v rest ih => exact fun acc h => ih _ (insertBy_ascending v h)
  exact hall [] List.Pairwise.nil

theorem mem_of_mem_nub {v : Nat} {l : List Nat} (h : v ∈ nub l) : v ∈ l := by
  induction l with
  | nil => exact h
  | cons a rest ih =>
    rcases List.mem_cons.mp h with rfl | h
    · exact List.mem_cons_self
    · exact List.mem_cons_of_mem a (ih (List.mem_of_mem_filter h))

theorem nub_strictly_ascending {l : List Nat} (h : l.Pairwise (· ≤ ·)) : (nub l).Pairwise (· < ·) := by
  induction l with
  | nil => exact List.Pairwise.nil
  | cons a rest ih =>
    obtain ⟨hfirst, hrest⟩ := List.pairwise_cons.mp h
    refine List.pairwise_cons.mpr ⟨fun w hw => ?_, (ih hrest).filter _⟩
    obtain ⟨hmem, hne⟩ := List.mem_filter.mp hw
    exact Nat.lt_of_le_of_ne (hfirst w (mem_of_mem_nub hmem)) (Ne.symm (by simpa using hne))

theorem lockList_ascending (ps : List Piece) (cs : List (Nat × Bool)) : (lockList ps cs).Pairwise (· < ·) :=
  nub_strictly_ascending (sortBy_ascending _)

/-! ### A task that is gone -/

theorem State.setPathSrc_ledger (s : State) (slot path : Nat) (f : FaultSrc) : (s.setPathSrc slot path f).ledger = s.ledger := by
  unfold State.setPathSrc
  split <;> rfl

theorem State.settleAwait_ledger (s : State) (t : Task) : (s.settleAwait t).ledger = s.ledger := by
  unfold State.settleAwait
  split
  · simp only
    split
    · exact State.setPathSrc_ledger _ _ _ _
    · rfl
  · rfl

theorem State.giveFrames_ledger (s : State) (ctx : Nat) (fs : List Nat) : (s.giveFrames ctx fs).ledger = s.ledger := by
  unfold State.giveFrames
  refine foldl_keeps (fun st f => ?_) s fs
  exact (State.recWrite_ledger _ _ _ _).trans (State.recWrite_ledger st f 0 _)

theorem State.readerGone_ledger (s : State) (pa : Nat) : (s.readerGone pa).ledger = s.ledger := by
  unfold State.readerGone
  simp only
  split
  · exact (State.recWrite_ledger _ _ _ _).trans (State.recWrite_ledger s _ _ _)
  · exact State.recWrite_ledger s _ _ _

theorem State.atQuilt_ledger (s : State) (ctx va : Nat) (o : Owed) {f : State → Nat → State} (hf : ∀ st p, (f st p).ledger = st.ledger) :
    (s.atQuilt ctx va o f).ledger = s.ledger := by
  have htouch := State.ledger_of_books (State.walkTouch_books s ctx [va])
  unfold State.atQuilt
  simp only
  split
  · next p _ _ =>
    have hrecall := (State.ledger_of_books (State.recallRange_books (s.walkTouch ctx [va]) p 128)).trans htouch
    split
    · exact htouch
    · split
      · exact hrecall
      · exact (hf _ _).trans hrecall
  · exact htouch
  · exact (State.ledger_of_books (State.raiseIf_books _ _)).trans htouch

theorem State.closeHandle_ledger (s : State) (ctx : Nat) (h : QHandle) : (s.closeHandle ctx h).ledger = s.ledger :=
  State.atQuilt_ledger s ctx h.ver.toNat (.close ctx h.ver) State.readerGone_ledger

theorem State.discardDraft_ledger (s : State) (d : Draft) : (s.discardDraft d).ledger = s.ledger := by
  refine State.atQuilt_ledger s d.ctx d.desc (.discard d) fun st p => ?_
  exact (State.recWrite_ledger _ _ _ _).trans ((State.recWrite_ledger _ _ _ _).trans (State.recWrite_ledger st _ _ _))

theorem State.dropDrafts_ledger (s : State) (key : Nat) : (s.dropDrafts key).ledger = s.ledger :=
  foldl_keeps State.discardDraft_ledger { s with drafts := s.drafts.filter fun d => d.task != key } _

/-- With a task's state its commit goes, and no other one. -/
theorem State.forgetTask_commits {s : State} {key : Nat} {t : Task} (h : s.tasks.find key = some t) :
    (s.forgetTask key).commits = s.commits.filter fun c => c.task != key := by
  have hfreed : ((s.settleAwait t).freeHampers t.ctx t.hampers).ledger = s.ledger := (State.giveFrames_ledger _ _ _).trans (State.settleAwait_ledger s t)
  unfold State.forgetTask
  rw [h]
  refine (State.unlock_commits _ key).trans (congrArg (List.filter _) (congrArg Ledger.commits (?_ : State.ledger _ = s.ledger)))
  refine (State.dropDrafts_ledger _ key).trans ?_
  cases t.frame with
  | none => exact hfreed
  | some b => exact (foldl_keeps (fun st q => State.closeHandle_ledger st t.ctx q) _ _).trans hfreed

theorem State.modGroup_ledger (s : State) (g : Nat) (f : Group → Group) : (s.modGroup g f).ledger = s.ledger := by
  unfold State.modGroup
  split <;> rfl

theorem State.groupWrite_ledger (s : State) (g off : Nat) (bs : List Byte) : (s.groupWrite g off bs).ledger = s.ledger := by
  unfold State.groupWrite
  split
  · exact State.recWrite_ledger s _ _ _
  · rfl

theorem State.groupState_ledger (s : State) (g : Nat) (st : GrpSt) : (s.groupState g st).ledger = s.ledger :=
  (State.groupWrite_ledger _ _ _ _).trans (State.modGroup_ledger s g _)

theorem State.live_ledger (s : State) (g : Nat) (up : Bool) : (s.live g up).ledger = s.ledger := by
  unfold State.live
  split
  · next gr _ =>
    simp only
    generalize (if up = true then gr.live + 1 else gr.live - 1) = n
    have hcount := State.groupWrite_ledger (s.setGroup g { gr with live := n }) g 68 (bytesOf 4 n)
    split
    · exact (State.groupState_ledger _ _ _).trans hcount
    · exact hcount
  · rfl

/-- A task that is DONE is known no more, and its commit holds nothing (R85). -/
theorem State.taskDone_gone {s : State} {key : Nat} {t : Task} (h : s.tasks.find key = some t) :
    (s.taskDone key).tasks.find key = none ∧ (s.taskDone key).commits = s.commits.filter fun c => c.task != key := by
  have hlive := State.live_ledger
    { (s.taskState key .done).forgetTask key with tasks := ((s.taskState key .done).forgetTask key).tasks.drop key } t.grp false
  have hdone : s.taskDone key =
      State.live { (s.taskState key .done).forgetTask key with tasks := ((s.taskState key .done).forgetTask key).tasks.drop key } t.grp false := by
    rw [State.taskDone, h]
  rw [hdone]
  constructor
  · exact (congrArg (fun m => PMap.find m key) (congrArg Ledger.tasks hlive)).trans (PMap.find_drop _ _)
  · refine (congrArg Ledger.commits hlive).trans ((State.forgetTask_commits (State.taskState_find h .done)).trans ?_)
    rw [State.taskState_commits]

theorem notMem_filter_task {key : Nat} {l : List Commit} : ∀ c ∈ l.filter (fun c => c.task != key), c.task ≠ key :=
  fun _ hc => bne_iff_ne.mp (List.mem_filter.mp hc).2

/-! ### A commit that is refused (R85, R166) -/

theorem State.noticePut_ledger {s t : State} {bs : List Byte} (h : s.noticePut bs = some t) : t.ledger = s.ledger := by
  unfold State.noticePut at h
  split at h
  · exact nomatch h
  · obtain rfl := Option.some.inj h
    exact State.recWrite_ledger s _ _ _

theorem State.postNotice_ledger (s : State) (bs : List Byte) : (s.postNotice bs).ledger = s.ledger := by
  unfold State.postNotice
  split
  · split
    · next h => exact State.noticePut_ledger h
    · rfl
  · rfl

/-- A refused commit whose notice need not wait: the task is FAULTED, and its locks are free (R85, R166). -/
theorem State.refuseCommit_ledger {s : State} {key : Nat} {t : Task} (h : s.tasks.find key = some t) (hbuf : (s.slot t.slot).sbuf = [])
    (hnotice : (s.slot t.slot).notice = none) (cause : Nat) (addr : Word) :
    (s.refuseCommit key cause addr).ledger =
      ⟨s.stands, s.tasks.put key { t with refused := true, st := .faulted }, s.commits.filter fun c => c.task != key⟩ := by
  have hfind : (s.setTask key { t with refused := true }).tasks.find key = some { t with refused := true } := PMap.find_put_same _ _ _
  unfold State.refuseCommit
  rw [h]
  simp only [State.drainAll_empty hbuf, hnotice, State.modTask_known h, Option.isSome_none, Bool.false_eq_true, if_false]
  refine (State.postNotice_ledger _ _).trans ((State.unlock_ledger _ key).trans ?_)
  rw [State.taskState_tasks hfind, State.taskState_commits, State.taskState_stands, State.setTask_tasks, State.setTask_commits, State.setTask_stands,
    PMap.put_put]

theorem State.refuseCommit_faulted {s : State} {key : Nat} {t : Task} (h : s.tasks.find key = some t) (hbuf : (s.slot t.slot).sbuf = [])
    (hnotice : (s.slot t.slot).notice = none) (cause : Nat) (addr : Word) :
    ((s.refuseCommit key cause addr).tasks.find key).map (fun v => (v.st, v.refused)) = some (.faulted, true) ∧
    ∀ c ∈ (s.refuseCommit key cause addr).commits, c.task ≠ key := by
  have hledger := State.refuseCommit_ledger h hbuf hnotice cause addr
  have htasks : (s.refuseCommit key cause addr).tasks = _ := congrArg Ledger.tasks hledger
  have hcommits : (s.refuseCommit key cause addr).commits = _ := congrArg Ledger.commits hledger
  rw [htasks, hcommits, PMap.find_put_same]
  exact ⟨rfl, notMem_filter_task⟩

/-! ### The events of a commit -/

/-- The state in which the checks of a commit are made: its walks have recalled what they met (R142). -/
def State.planned (s : State) (t : Task) : State := s.planTouch ⟨t.slot, t.ctx, 0⟩ (s.ownCounter t) (s.taskEntries t)

section Events
variable {s : State} {key : Nat} {t : Task} (hfind : s.tasks.find key = some t)
include hfind

/-- A class T task behind its domain's frontier does not begin (R146). -/
theorem exec_timedCommitStart_behind (hcls : t.cls = 2) (hbehind : s.atFrontier t = false) : exec (.timedCommitStart key) s = .next s := by
  have hmay : s.mayCommit key = false := by simp [State.mayCommit, hfind, hcls, hbehind]
  change Host.Outcome.next (if s.mayCommit key then s.commitStart key else s) = _
  rw [hmay]
  rfl

theorem exec_timedCommitStart_starts (hst : t.st = .committing) (hnew : ∀ c ∈ s.commits, c.task ≠ key) (hturn : t.cls ≠ 2 ∨ s.atFrontier t = true) :
    exec (.timedCommitStart key) s = .next (s.commitStart key) := by
  have hnone : (s.commits.any fun c => c.task == key) = false := by simpa using hnew
  have hmay : s.mayCommit key = true := by simpa [State.mayCommit, hfind, hst, hnone] using hturn
  change Host.Outcome.next (if s.mayCommit key then s.commitStart key else s) = _
  rw [hmay, if_pos rfl]

theorem State.commitStart_begins {ps : List Piece} {cs : List (Nat × Bool)} (hplan : (s.planned t).taskPlan t = .ok (ps, cs)) :
    let s1 := (s.planned t).recallLists ⟨t.slot, t.ctx, 0⟩ ((s.planned t).taskEntries t)
    s.commitStart key = { s1 with commits := s1.commits ++ [⟨key, ps, cs, lockList ps cs, [], false, []⟩] } := by
  unfold State.planned at hplan
  simp only [State.commitStart, hfind, hplan, State.planned]

theorem State.commitStart_waits (hplan : (s.planned t).taskPlan t = .error .wait) : s.commitStart key = s.planned t := by
  unfold State.planned at hplan
  simp only [State.commitStart, hfind, hplan, State.planned]

theorem State.commitStart_check {f : XFault} (hplan : (s.planned t).taskPlan t = .error (.check f)) :
    s.commitStart key = ((s.planned t).refuseCommit key f.cause f.addr).raiseIf (Refuse.check f).raises := by
  unfold State.planned at hplan
  simp only [State.commitStart, hfind, hplan, State.planned, Refuse.parts]

theorem State.commitStart_cause {cause : Nat} {addr : Word} (hplan : (s.planned t).taskPlan t = .error (.cause cause addr)) :
    s.commitStart key = (s.planned t).refuseCommit key cause addr := by
  unfold State.planned at hplan
  simp only [State.commitStart, hfind, hplan, State.planned, Refuse.parts, Refuse.raises, State.raiseIf]

omit hfind in
/-- A lock that another commit holds is waited for, a free one is taken (R139). -/
theorem State.lockNext_cases {c : Commit} {sec : Nat} {rest : List Nat} (hcommit : s.commits.find? (fun c => c.task == key) = some c) (htodo : c.todo = sec :: rest) :
    s.lockNext key = if s.lockedSec sec then s else { s with
      commits := s.commits.map fun d => if d.task = key then { d with todo := rest, held := d.held ++ [sec] } else d } := by
  simp only [State.lockNext, hcommit, htodo]

variable {c : Commit} (hcommit : s.commits.find? (fun c => c.task == key) = some c) (htodo : c.todo = [])
include hcommit htodo

theorem State.commitApply_applied (happlied : c.applied = true) : s.commitApply key = s.commitEnd key (s.unsent (groveOf t.slot) c.sends) := by
  simp only [State.commitApply, hfind, hcommit, htodo, happlied, List.isEmpty_nil, Bool.not_true, Bool.false_eq_true, if_false, if_true]

section Applies
variable (happlied : c.applied = false)
include happlied

theorem State.commitApply_source_waits (hwaits : s.sourceWaits key c.pieces = true ∨ s.pieceTrains c.pieces c.counters = true) :
    s.commitApply key = s := by
  have hor : (s.sourceWaits key c.pieces || s.pieceTrains c.pieces c.counters) = true := Bool.or_eq_true_iff.mpr hwaits
  simp only [State.commitApply, hfind, hcommit, htodo, happlied, hor, List.isEmpty_nil, Bool.not_true, Bool.false_eq_true, if_false, if_true]

variable (hsource : s.sourceWaits key c.pieces = false) (htrains : s.pieceTrains c.pieces c.counters = false)
include hsource htrains

theorem State.commitApply_refused {cause : Nat} {addr : Word} (hrefused : s.pieceRefused (s.ownPlace t c) c.pieces = some (cause, addr)) :
    s.commitApply key = s.refuseCommit key cause addr := by
  simp only [State.commitApply, hfind, hcommit, htodo, happlied, hsource, htrains, hrefused, List.isEmpty_nil, Bool.not_true, Bool.or_self,
    Bool.false_eq_true, if_false]

/-- With nothing to wait for and nothing refused, the counters decide, and then the records that are to enter (R87, R139). -/
theorem State.commitApply_admitted (hadmitted : s.pieceRefused (s.ownPlace t c) c.pieces = none) :
    s.commitApply key = if s.underflow c.counters then s.refuseCommit key Cause.counterUnderflow 0
      else if s.recWaits key t.ctx c.counters c.pieces then s
      else
        let s1 := if t.cls = 2 then s.conflicts key t c.pieces else s
        let s2 := s1.applyCommit t.slot key ⟨t.grp, t.ctx, groveOf t.slot, some key, if t.cls = 2 then some t.ts else none⟩ c.pieces c.counters
        s2.commitEnd key (s2.overfull s1 (groveOf t.slot)) := by
  simp only [State.commitApply, hfind, hcommit, htodo, happlied, hsource, htrains, hadmitted, List.isEmpty_nil, Bool.not_true, Bool.or_self,
    Bool.false_eq_true, if_false, beq_iff_eq]

end Applies

end Events

theorem State.commitEnd_gone {s : State} {key : Nat} {t : Task} (h : s.tasks.find key = some t) :
    (s.commitEnd key []).tasks.find key = none ∧ ∀ d ∈ (s.commitEnd key []).commits, d.task ≠ key := by
  have hend : s.commitEnd key [] = (s.unlock key).taskDone key := rfl
  have hknown : (s.unlock key).tasks.find key = some t := by rw [State.unlock_tasks, h]
  obtain ⟨hgone, hcommits⟩ := State.taskDone_gone hknown
  rw [hend, hcommits]
  exact ⟨hgone, notMem_filter_task⟩

theorem State.commitEnd_waits_tasks (s : State) (key : Nat) {waits : List Nat} (h : waits ≠ []) : (s.commitEnd key waits).tasks = s.tasks := by
  unfold State.commitEnd
  simp only
  rw [if_neg (by simpa using h)]
  exact State.unlock_tasks s key

/-- Settles O49: each event of a commit by the lemma on what it finds. -/
theorem commitEvents : Obligations.CommitEvents := by
  refine ⟨lockList_ascending, fun s key t hfind => ⟨fun hbuf hnotice cause addr => State.refuseCommit_faulted hfind hbuf hnotice cause addr,
    fun hst hnew => ⟨exec_timedCommitStart_behind hfind, fun hturn => ?_⟩,
    fun c hcommit => ⟨fun sec rest htodo => ?_, fun htodo happlied => ?_, fun htodo happlied => ?_⟩⟩⟩
  · have hstarts := exec_timedCommitStart_starts hfind hst hnew hturn
    rw [hstarts]
    exact ⟨fun ps cs hplan => congrArg _ (State.commitStart_begins hfind hplan), fun f hplan => congrArg _ (State.commitStart_check hfind hplan),
      fun cause addr hplan => congrArg _ (State.commitStart_cause hfind hplan), fun hplan => congrArg _ (State.commitStart_waits hfind hplan)⟩
  · have hnext : exec (.commitLockAcquire key) s = .next (s.lockNext key) := rfl
    rw [hnext, State.lockNext_cases hcommit htodo]
    exact ⟨fun hlocked => by rw [if_pos hlocked], fun hfree => by rw [if_neg (by simp [hfree])]⟩
  · have hnext : exec (.taskCommit key) s = .next (s.commitApply key) := rfl
    rw [hnext]
    refine ⟨fun hwaits => congrArg _ (State.commitApply_source_waits hfind hcommit htodo happlied hwaits), fun hsource htrains => ?_⟩
    refine ⟨fun cause addr hrefused => congrArg _ (State.commitApply_refused hfind hcommit htodo happlied hsource htrains hrefused),
      fun hadmitted hunder => ?_, fun hadmitted hunder hrec => ?_, fun hadmitted hunder hrec => ⟨fun hcls => ?_, fun hcls => ?_⟩⟩
    all_goals rw [State.commitApply_admitted hfind hcommit htodo happlied hsource htrains hadmitted]
    · rw [if_pos hunder]
    · rw [if_neg (by simp [hunder]), if_pos hrec]
    · rw [if_neg (by simp [hunder]), if_neg (by simp [hrec]), if_neg hcls, if_neg hcls]
    · rw [if_neg (by simp [hunder]), if_neg (by simp [hrec]), if_pos hcls, if_pos hcls]
  · have hnext : exec (.taskCommit key) s = .next (s.commitEnd key (s.unsent (groveOf t.slot) c.sends)) :=
      congrArg Host.Outcome.next (State.commitApply_applied hfind hcommit htodo happlied)
    refine ⟨fun hsent => ⟨_, hnext, ?_⟩, fun hunsent => ⟨_, hnext, State.commitEnd_waits_tasks s key hunsent⟩⟩
    rw [hsent]
    exact State.commitEnd_gone hfind

end Sys2Proof.Machine
end

section
/-! PROOF. The replay window, the ready queues, dispatch and taking (R90, R94 to R101, R165, R241). -/

namespace Sys2Proof.Machine

/-! ### What a grove sends (R99, R100) -/

section Window
variable {first rest : List Enq} {e : Enq} (hfirst : ∀ q ∈ first, q.acked = true) (hopen : e.acked = false)
include hfirst hopen

/-- The first entry that is not yet taken is the one that goes out, while it stands among the 8. -/
theorem Grove.sends_first {g : Grove} (hwindow : g.window = first ++ e :: rest) (hlen : first.length < 8) : g.sends = some e := by
  have htaken : first.find? (fun q => !q.acked) = none := List.find?_eq_none.mpr fun q hq => by simp [hfirst q hq]
  obtain ⟨k, hk⟩ : ∃ k, 8 - first.length = k + 1 := ⟨7 - first.length, by omega⟩
  rw [Grove.sends, hwindow, List.take_append, List.take_of_length_le (Nat.le_of_lt hlen), hk, List.take_succ_cons, List.find?_append, htaken]
  simp [hopen]

theorem ackFirst_first : ackFirst (first ++ e :: rest) = first ++ { e with acked := true } :: rest := by
  induction first with
  | nil => simp [ackFirst, hopen]
  | cons q more ih =>
    rw [List.cons_append, ackFirst, if_pos (hfirst q List.mem_cons_self), ih fun r hr => hfirst r (List.mem_cons_of_mem q hr), List.cons_append]

end Window

/-- The counters of R101 stop at 0xFFFF. -/
theorem upSat_eq (h : BitVec 16) : upSat h = BitVec.ofNat 16 (min 65535 (h.toNat + 1)) := by
  unfold upSat
  split
  · next hmax => subst hmax; rfl
  · next hmax =>
    have hne : h.toNat ≠ 65535 := fun heq => hmax (BitVec.eq_of_toNat_eq heq)
    have hlt : h.toNat < 2 ^ 16 := h.isLt
    have hone : (1 : BitVec 16).toNat = 1 := rfl
    apply BitVec.eq_of_toNat_eq
    rw [BitVec.toNat_add, BitVec.toNat_ofNat, hone]
    omega

/-- The back-off doubles with each refusal, from its base up to its bound (R100). -/
theorem State.backoff_succ (s : State) (n : Nat) : s.backoff (n + 1) = min s.boMax.toNat (s.boBase.toNat * 2 ^ min n 15) := by
  have hexp : (if n < 15 then n else 15) = min n 15 := by split <;> omega
  simp only [State.backoff, Nat.add_sub_cancel, hexp]
  split <;> omega

section Arrive
variable {s : State} {g key stand : Nat} {t : Task} {acked : Bool} (hsends : (s.grove g).sends = some ⟨.record key stand, acked⟩)
include hsends

theorem exec_enqueueArrive_record (hfresh : (s.grove g).refusals = 0) : exec (.enqueueArrive g) s = .next (s.recordArrive g key stand) := by
  change execEnqueueArrive g s = _
  rw [execEnqueueArrive, hsends]
  simp only [hfresh, if_true]

theorem exec_replayBackoffExpiry_record (hrefused : (s.grove g).refusals ≠ 0) (hdue : (s.grove g).resendAt ≤ s.tick.toNat) :
    exec (.replayBackoffExpiry g) s = .next (s.recordArrive g key stand) := by
  have hgo : ((s.grove g).refusals ≠ 0 && decide ((s.grove g).resendAt ≤ s.tick.toNat)) = true := by simp [hrefused, hdue]
  change execReplayBackoffExpiry g s = _
  simp only [execReplayBackoffExpiry, hgo, if_true, State.arrive, hsends]

omit hsends in
/-- A full queue refuses a record, and its grove backs off (R99, R100). -/
theorem State.recordArrive_refused (hfind : s.tasks.find key = some t) (hfull : s.refuses stand t.ctx = true) (hnew : s.reentry t stand = false) :
    s.recordArrive g key stand = (s.setGrove g { s.grove g with
      refusals := (s.grove g).refusals + 1
      resendAt := s.tick.toNat + min s.boMax.toNat (s.boBase.toNat * 2 ^ min (s.grove g).refusals 15) }).modStand stand
        fun q => { q with nacks := BitVec.ofNat 16 (min 65535 (q.nacks.toNat + 1)) } := by
  simp only [State.recordArrive, hfind, hfull, hnew, Bool.not_false, Bool.and_self, if_true, State.nacked, State.backoff_succ, upSat_eq, State.modGrove_eq]

omit hsends in
theorem State.recordArrive_enters (hfind : s.tasks.find key = some t) (hroom : s.refuses stand t.ctx = false ∨ s.reentry t stand = true) :
    s.recordArrive g key stand = (s.taken g).queueAdd stand key := by
  have hgo : (s.refuses stand t.ctx && !s.reentry t stand) = false := by rcases hroom with h | h <;> simp [h]
  simp only [State.recordArrive, hfind, hgo, Bool.false_eq_true, if_false]

end Arrive

/-! ### What leaves the window (R100, R165) -/

theorem PMap.find_map_value {α β : Type} (m : PMap α) (f : Nat → α → β) (k : Nat) :
    PMap.find (m.map fun q => (q.1, f q.1 q.2)) k = (PMap.find m k).map (f k) := by
  induction m with
  | nil => rfl
  | cons p rest ih =>
    obtain ⟨i, v⟩ := p
    simp only [List.map_cons, PMap.find]
    split
    · next hik => rw [hik]; rfl
    · exact ih

theorem State.unstall_slot (s : State) (g k : Nat) :
    (s.unstall g).slot k = if groveOf k = g then { s.slot k with stall := s.unsent g (s.slot k).stall } else s.slot k := by
  have hfind := PMap.find_map_value s.slots (fun i q => if groveOf i == g then { q with stall := s.unsent g q.stall } else q) k
  simp only [State.slot, State.unstall, PMap.get, hfind]
  cases PMap.find s.slots k with
  | none => simp only [Option.map_none, Option.getD_none]; split <;> rfl
  | some q => simp only [Option.map_some, Option.getD_some, beq_iff_eq]

theorem exec_enqueueAck_taken {s : State} {g : Nat} {e : Enq} {rest : List Enq} (hwindow : (s.grove g).window = e :: rest) (hacked : e.acked = true) :
    exec (.enqueueAck g) s = .next ((s.setGrove g { s.grove g with window := rest }).unstall g) := by
  change execEnqueueAck g s = _
  simp only [execEnqueueAck, State.modGrove, hwindow, hacked, if_true]

/-! ### Entering a queue (R94, R96) -/

theorem State.vtRaise_queue (s : State) (n ctx : Nat) (others : List Nat) : ((s.vtRaise n ctx others).stand n).queue = (s.stand n).queue := by
  unfold State.vtRaise
  simp only
  split
  · split
    · rw [State.modStand_eq, State.stand_setStand_same]
    · rfl
  · rfl

theorem State.queueAdd_queue {s : State} {n key : Nat} {t : Task} (hfind : s.tasks.find key = some t) :
    ((s.queueAdd n key).stand n).queue =
      (s.stand n).queue ++ [⟨key, s.rankKey t, t.ctx, s.recField t.half 58 1, t.grp, t.pin, s.tick.toNat⟩] := by
  have hstand : ∀ (u : State) (pa off : Nat) (bs : List Byte), (u.recWrite pa off bs).stand n = u.stand n := fun u pa off bs => by
    simp only [State.stand, State.recWrite_stands]
  unfold State.queueAdd
  rw [hfind]
  simp only [hstand, State.modStand_eq, State.stand_setStand_same]
  split
  · rw [State.vtRaise_queue]
  · rfl

/-! ### Choosing (R97) -/

/-- The lesser of an entry and the least one so far; of equal keys the earlier stays (R96). -/
def lesserEntry : Option QEntry → QEntry → Option QEntry
  | some b, e => if e.key < b.key then some e else some b
  | none, e => some e

theorem leastEntry_eq (l : List QEntry) : leastEntry l = l.foldl lesserEntry none := by
  unfold leastEntry
  congr 1
  funext acc e
  cases acc <;> rfl

theorem foldl_lesserEntry (l : List QEntry) (b : QEntry) :
    ∃ m, l.foldl lesserEntry (some b) = some m ∧ m ∈ b :: l ∧ ∀ f ∈ b :: l, m.key ≤ f.key := by
  induction l generalizing b with
  | nil => exact ⟨b, rfl, by simp, by simp⟩
  | cons a more ih =>
    rw [List.foldl_cons, lesserEntry]
    split
    · next hab =>
      obtain ⟨m, hm, hmem, hle⟩ := ih a
      refine ⟨m, hm, List.mem_cons_of_mem b hmem, fun f hf => ?_⟩
      rcases List.mem_cons.mp hf with rfl | hf
      · exact Int.le_trans (hle a List.mem_cons_self) (Int.le_of_lt hab)
      · exact hle f hf
    · next hab =>
      obtain ⟨m, hm, hmem, hle⟩ := ih b
      have hb : m.key ≤ b.key := hle b List.mem_cons_self
      refine ⟨m, hm, ?_, fun f hf => ?_⟩
      · rcases List.mem_cons.mp hmem with rfl | hmem
        · exact List.mem_cons_self
        · exact List.mem_cons_of_mem b (List.mem_cons_of_mem a hmem)
      · rcases List.mem_cons.mp hf with rfl | hf
        · exact hb
        · rcases List.mem_cons.mp hf with rfl | hf
          · exact Int.le_trans hb (Int.not_lt.mp hab)
          · exact hle f (List.mem_cons_of_mem b hf)

theorem leastEntry_least {l : List QEntry} {e : QEntry} (h : leastEntry l = some e) : e ∈ l ∧ ∀ f ∈ l, e.key ≤ f.key := by
  rw [leastEntry_eq] at h
  cases l with
  | nil => exact nomatch h
  | cons b more =>
    obtain ⟨m, hm, hspec⟩ := foldl_lesserEntry more b
    obtain rfl : m = e := Option.some.inj (hm.symm.trans h)
    exact hspec

/-- The chosen entry is one that the slot may run, and of its context none has a lesser key (R97). -/
theorem State.choose_least {s : State} {slot n : Nat} {e : QEntry} (h : s.choose slot n = some e) :
    e ∈ (s.stand n).queue ∧ s.eligible slot e = true ∧ ∀ f ∈ (s.stand n).queue, s.eligible slot f = true → f.ctx = e.ctx → e.key ≤ f.key := by
  unfold State.choose at h
  simp only at h
  split at h
  · next c _ =>
    obtain ⟨hmem, hleast⟩ := leastEntry_least h
    obtain ⟨hel, hctx⟩ := List.mem_filter.mp hmem
    obtain ⟨hqueue, heligible⟩ := List.mem_filter.mp hel
    refine ⟨hqueue, heligible, fun f hf hfe hfc => hleast f (List.mem_filter.mpr ⟨List.mem_filter.mpr ⟨hf, hfe⟩, ?_⟩)⟩
    rw [hfc]
    exact hctx
  · exact nomatch h

/-! ### Dispatch (R90, R97, R165, R241) -/

theorem vtStep_eq (weight : Nat) : vtStep weight = BitVec.ofNat 32 (65536 / max 1 weight) := by
  rcases Nat.eq_zero_or_pos weight with rfl | h
  · rfl
  · rw [vtStep, if_neg (Nat.ne_of_gt h), Nat.max_eq_right h]

/-- A dispatch that leaves no open wait has no transfer of its own to check (R276). -/
theorem State.landed_running {s : State} {slot : Nat} (h : (s.slot slot).st ≠ .waiting) : s.landed slot = some s := by
  rw [State.landed, if_pos (by simpa using h)]

section Dispatch
variable {s : State} {slot n : Nat} (hstand : s.standOfSlot slot = some n) (hidle : s.idleSlot slot = true) (hquiet : (s.slot slot).take = none)
include hstand hidle hquiet

theorem exec_taskDispatch_chosen {e : QEntry} (hchoose : s.choose slot n = some e) :
    exec (.taskDispatch slot) s =
      if !s.canTake slot e.task then .next s
      else if s.frameIntact slot e.task then .next (((((s.modStand n fun q => { q with
        vt := q.vt.put e.ctx (q.vt.get e.ctx 0 + vtStep (s.ctxOf e.ctx).weight.toNat) }).unlist n e.task).dispatch slot e.task).landed slot).getD s)
      else .fault .deviceBlockChanged := by
  change execTaskDispatch slot s = _
  simp only [execTaskDispatch, hstand, hidle, hquiet, hchoose, Option.isSome_none, Bool.not_true, Bool.or_self, Bool.false_eq_true, if_false]

omit hidle hquiet in
theorem exec_takeReprobe_served {e : QEntry} (hchoose : s.choose slot n = some e) : exec (.takeReprobe slot) s = .next s := by
  change execTakeReprobe slot s = _
  simp only [execTakeReprobe, hstand, hchoose, Option.isNone_some, Bool.and_false, Bool.false_eq_true, if_false]

/-- A slot whose stand has nothing for it probes, by either event (R98, log 37). -/
theorem exec_dispatch_probes (hdue : (s.slot slot).probeAt ≤ s.tick.toNat) (hnone : s.choose slot n = none) :
    exec (.taskDispatch slot) s = .next (s.setSlot slot { s.slot slot with take := some [] }) ∧
    exec (.takeReprobe slot) s = .next (s.setSlot slot { s.slot slot with take := some [] }) := by
  constructor
  · change execTaskDispatch slot s = _
    simp only [execTaskDispatch, hstand, hidle, hquiet, hnone, hdue, Option.isSome_none, Bool.not_true, Bool.or_self, Bool.false_eq_true, if_false, if_true,
      State.modSlot_eq]
  · change execTakeReprobe slot s = _
    simp only [execTakeReprobe, hstand, hidle, hquiet, hnone, hdue, Option.isNone_none, decide_true, Bool.and_self, if_true, State.modSlot_eq]

end Dispatch

/-- A slot as a dispatch without a frame leaves it (R90, R348). -/
def State.begun (s : State) (slot key : Nat) (t : Task) : Slot :=
  { (({ s.slot slot with
      task := some key, ctx := t.ctx, cls := t.cls, grp := t.grp, since := s.tick.toNat, st := .run, stop := none, held := false, stall := []
      reserved := none, xfer := true, packet := none, wait := none }).fresh s.fresh (s.recField t.half 0 8 % 2 ^ 48) (s.recField t.half 40 8)
        (s.recField t.half 48 8) t.va) with
    taskH := if t.cls == 1 || t.cls == 2 then some (t.hamper.getD ⟨.opened, 0, [], [], []⟩) else none
    hampers := [], stack := [], qhandles := [], sig := t.sig }

section Begin
variable {s : State} {slot key : Nat} {t : Task} (hframe : t.frame = none)
include hframe

theorem State.restore_begun (hresult : t.result = none) : s.restore slot key t = { s.setSlot slot (s.begun slot key t) with fresh := s.fresh + 64 } := by
  simp only [State.restore, hframe, hresult]
  rfl

/-- Nothing is restored, so that nothing stops the dispatch (R90, R211, R245). -/
theorem State.dispatch_unframed (hfind : s.tasks.find key = some t) (hspilled : t.spilled = 0) :
    s.dispatch slot key = ((((s.recallRange t.pa 64).restore slot key t).modTask key fun u => { u with
      frame := none, spilled := 0, hamper := none, result := none, awaiting := none, pin := none
      dispatched := true, slot := slot }).taskState key .running).acquired slot := by
  have hintact : (s.recallRange t.pa 64).restoreBad slot t = none := by rw [State.restoreBad, hframe]; rfl
  have hspill : ∀ home, (s.recallRange t.pa 64).spillFault slot t.ctx home 0 = none := fun _ => rfl
  simp only [State.dispatch, hfind, hintact, hspilled, hspill, State.spillIn, if_true]

theorem State.dispatch_begins (hfind : s.tasks.find key = some t) (hspilled : t.spilled = 0) (hresult : t.result = none) :
    (s.dispatch slot key).slot slot = (s.recallRange t.pa 64).begun slot key t ∧
    ((s.dispatch slot key).tasks.find key).map (·.st) = some .running := by
  have hknown : ({ (s.recallRange t.pa 64).setSlot slot ((s.recallRange t.pa 64).begun slot key t) with
      fresh := (s.recallRange t.pa 64).fresh + 64 } : State).tasks.find key = some t :=
    (congrArg (fun m => PMap.find m key) (State.recallRange_tasks s t.pa 64)).trans hfind
  rw [State.dispatch_unframed hframe hfind hspilled, State.restore_begun hframe hresult, State.modTask_known hknown]
  refine ⟨(State.slot_taskState _ key .running slot).trans (State.slot_setSlot_same _ _ _), ?_⟩
  exact congrArg (Option.map (·.st)) (State.setTask_taskState_find _ key _ .running)

end Begin

/-- The registers that R90 gives a task with no frame. -/
theorem State.begun_registers (s : State) (slot key : Nat) (t : Task) :
    let q := s.begun slot key t
    q.pc.toNat = s.recField t.half 0 8 % 2 ^ 48 ∧ q.vl = 0 ∧ q.prDepth = 0 ∧ q.fpCtl = 0 ∧ q.xr 2 = 0x80000000 ∧
    q.xr 4 = BitVec.ofNat 64 (s.recField t.half 40 8) ∧ q.xr 5 = BitVec.ofNat 64 (s.recField t.half 48 8) ∧ q.xr 6 = BitVec.ofNat 64 t.va := by
  refine ⟨(BitVec.toNat_ofNat _ _).trans (Nat.mod_mod _ _), rfl, rfl, rfl, ?_, ?_, ?_, ?_⟩
  · exact Vector.getElem_ofFn (i := 2) (by decide)
  · exact Vector.getElem_ofFn (i := 4) (by decide)
  · exact Vector.getElem_ofFn (i := 5) (by decide)
  · exact Vector.getElem_ofFn (i := 6) (by decide)

/-! ### Taking (R98) -/

/-- The slot once it has all the replies and takes nothing (R98). -/
def State.probed (s : State) (slot : Nat) : State := s.setSlot slot { s.slot slot with take := none, probeAt := s.tick.toNat + 1 }

section Take
variable {s : State} {slot n : Nat} {rs : List (Nat × Option Nat)} (htake : (s.slot slot).take = some rs) (hstand : s.standOfSlot slot = some n)
include htake hstand

theorem exec_takeServe_offers {stand : Nat} (hmine : stand ∈ neighbours n) (hnew : ∀ r ∈ rs, r.1 ≠ stand) :
    exec (.takeServe slot stand) s =
      .next (s.setSlot slot { s.slot slot with take := some (rs ++ [(stand, (s.offer slot stand).map (·.task))]) }) := by
  have hasks : ((neighbours n).contains stand && !rs.any fun r => r.1 == stand) = true := by simpa using ⟨hmine, fun a b h => hnew (a, b) h⟩
  change execTakeServe slot stand s = _
  simp only [execTakeServe, htake, hstand, hasks, if_true, State.modSlot_eq]

/-- Every neighbour stand has answered. -/
theorem exec_takeReply_all (hall : ∀ m ∈ neighbours n, ∃ r ∈ rs, r.1 = m) :
    exec (.takeReply slot) s = .next (match s.bestTake n rs with
      | some (m, e) =>
        if !s.canTake slot e.task then s
        else if (s.probed slot).idleSlot slot && (s.probed slot).eligible slot e then
          (((((s.probed slot).unlist m e.task).modStand m fun q => { q with taken := upSat q.taken }).dispatch slot e.task).landed slot).getD s
        else s.probed slot
      | none => s.probed slot) := by
  have hanswered : ((neighbours n).all fun m => rs.any fun r => r.1 == m) = true := by
    simp only [List.all_eq_true, List.any_eq_true, beq_iff_eq]
    exact hall
  change execTakeReply slot s = _
  simp only [execTakeReply, htake, hstand, hanswered, Bool.not_true, Bool.false_eq_true, if_false]
  rfl

end Take

/-- Settles O48: a window's first open entry arrives by either event, a stand chooses the least entry, and a dispatch without a frame gives the registers of R90. -/
theorem queueEvents : Obligations.QueueEvents := by
  intro s g slot n key gr sl
  refine ⟨fun first rest stand t hwindow hfirst hlen hfind => ?_, fun t hfind => State.queueAdd_queue hfind, fun e rest hwindow hacked => ?_,
    fun hstand hidle hquiet => ⟨fun e hchoose => ?_, exec_dispatch_probes hstand hidle hquiet⟩, fun e hchoose => State.choose_least hchoose,
    fun t hfind hframe hspilled hresult => ?_, fun rs stand htake hstand => ⟨exec_takeServe_offers htake hstand, fun hall => ?_⟩⟩
  · intro nack ack due
    have hsends := Grove.sends_first hfirst rfl hwindow hlen
    refine ⟨fun hfull hnew => ?_, fun hroom => ?_⟩
    · have hrefused := State.recordArrive_refused (g := g) hfind hfull hnew
      exact ⟨fun h => (exec_enqueueArrive_record hsends h).trans (congrArg _ hrefused),
        fun h hdue => (exec_replayBackoffExpiry_record hsends h hdue).trans (congrArg _ hrefused)⟩
    · have htaken : s.taken g = s.setGrove g { gr with refusals := 0, window := first ++ ⟨.record key stand, true⟩ :: rest } := by
        rw [State.taken, State.modGrove_eq, hwindow, ackFirst_first hfirst rfl]
      have henters := State.recordArrive_enters (g := g) hfind hroom
      rw [htaken] at henters
      exact ⟨fun h => (exec_enqueueArrive_record hsends h).trans (congrArg _ henters),
        fun h hdue => (exec_replayBackoffExpiry_record hsends h hdue).trans (congrArg _ henters)⟩
  · refine ⟨_, exec_enqueueAck_taken hwindow hacked, State.grove_setGrove_same s g _, fun k => ?_⟩
    rw [State.unstall_slot, State.slot_setGrove, State.unsent, State.grove_setGrove_same]
  · have hdispatch := exec_taskDispatch_chosen hstand hidle hquiet hchoose
    refine ⟨fun htake => ?_, fun htake hintact => ⟨?_, State.landed_running⟩, fun htake hintact => ?_, exec_takeReprobe_served hstand hchoose⟩
    · rw [hdispatch, htake]
      rfl
    · rw [hdispatch, htake, hintact, vtStep_eq]
      rfl
    · rw [hdispatch, htake, hintact]
      rfl
  · intro s1 u q
    obtain ⟨hq, hrunning⟩ := State.dispatch_begins (slot := slot) hframe hfind hspilled hresult
    have hslot : q = s1.begun slot key t := hq
    obtain ⟨hpc, hvl, hdepth, hctl, hx⟩ := s1.begun_registers slot key t
    rw [hslot]
    exact ⟨rfl, rfl, rfl, hpc, hvl, hdepth, hctl, hx.1, hx.2.1, hx.2.2.1, hx.2.2.2, hrunning⟩
  · have hreply := exec_takeReply_all htake hstand hall
    refine ⟨fun hnone => ?_, fun m e hbest hcan hidle heligible => ⟨?_, State.landed_running⟩⟩
    · rw [hreply, hnone]
      rfl
    · have hgoes : ((s.probed slot).idleSlot slot && (s.probed slot).eligible slot e) = true := Bool.and_eq_true_iff.mpr ⟨hidle, heligible⟩
      rw [hreply, hbest]
      simp only [hcan, hgoes, Bool.not_true, Bool.false_eq_true, if_false, if_true, upSat_eq]
      rfl

end Sys2Proof.Machine
end

section
/-! PROOF. A trap and a write of the device keep the tasks that a grove has parked (R124, R237, R333). -/

namespace Sys2Proof.Machine

/-! ### Parked tasks

A notice rewrites the waits that a grove has parked; it parks none and frees none. -/

/-- The tasks whose waits each grove has parked (R333). -/
def State.parkTasks (s : State) (g : Nat) : List Nat := (s.grove g).parks.map (·.task)

theorem State.parks_nil_of_parkTasks {s t : State} (h : t.parkTasks = s.parkTasks) {g : Nat} (hnone : (s.grove g).parks = []) : (t.grove g).parks = [] := by
  have hg : (t.grove g).parks.map (·.task) = (s.grove g).parks.map (·.task) := congrFun h g
  rw [hnone] at hg
  exact List.map_eq_nil_iff.mp hg

theorem State.parkTasks_of_groves {s t : State} (h : t.groves = s.groves) : t.parkTasks = s.parkTasks := by
  funext g
  rw [State.parkTasks, State.parkTasks, State.grove, State.grove, h]

theorem State.setGrove_parkTasks (s : State) (g : Nat) {v : Grove} (hv : v.parks = (s.grove g).parks) : (s.setGrove g v).parkTasks = s.parkTasks := by
  funext k
  by_cases hk : k = g
  · rw [hk, State.parkTasks, State.grove_setGrove_same, hv, State.parkTasks]
  · rw [State.parkTasks, State.grove_setGrove_ne s v hk, State.parkTasks]

theorem State.modSlot_parkTasks (s : State) (k : Nat) (f : Slot → Slot) : (s.modSlot k f).parkTasks = s.parkTasks := rfl

theorem State.modCore_parkTasks (s : State) (k : Nat) (f : Core → Core) : (s.modCore k f).parkTasks = s.parkTasks := rfl

theorem State.modTask_parkTasks (s : State) (key : Nat) (f : Task → Task) : (s.modTask key f).parkTasks = s.parkTasks := by
  unfold State.modTask
  split <;> rfl

theorem State.notify_parkTasks (s : State) (sec : Nat) : (s.notify sec).parkTasks = s.parkTasks := by
  funext g
  have hfind := PMap.find_map_value s.groves (fun _ (q : Grove) => { q with parks := q.parks.map fun (pk : Park) => { pk with wait := pk.wait.noticed sec } }) g
  simp only [State.parkTasks, State.grove, State.notify, PMap.get, hfind]
  cases PMap.find s.groves g with
  | none => rfl
  | some q => exact List.map_map

/-! #### Writes of the memories -/

theorem State.tcmWrite_parkTasks (s : State) (core off : Nat) (bs : List Byte) : (s.tcmWrite core off bs).parkTasks = s.parkTasks := by
  unfold State.tcmWrite
  simp only
  split
  · rfl
  · exact State.setGrove_parkTasks (s.modCore core _) _ rfl

theorem State.writeBack1_parkTasks (s : State) (sec : Nat) : (s.writeBack1 sec).parkTasks = s.parkTasks := by
  unfold State.writeBack1
  simp only
  split
  · rfl
  · split <;> rfl

theorem State.makeDirty_parkTasks (s : State) (inter : Bool) (sec : Nat) : (s.makeDirty inter sec).parkTasks = s.parkTasks := by
  have hroom : (s.makeRoom inter sec).parkTasks = s.parkTasks := by
    unfold State.makeRoom
    simp only
    split
    · rfl
    · split
      · rfl
      · exact foldl_keeps State.writeBack1_parkTasks (s.freeIndex _).2 _
  refine Eq.trans ?_ hroom
  unfold State.makeDirty State.shadow
  split <;> rfl

theorem State.devWrite_parkTasks (s : State) (p : Nat) (inter : Bool) (bs : List Byte) : (s.devWrite p inter bs).parkTasks = s.parkTasks :=
  foldl_keeps (f := fun st sec => st.makeDirty inter sec) (fun st sec => State.makeDirty_parkTasks st inter sec) s _

theorem State.hostPut_parkTasks (s : State) (p a : Nat) (bs : List Byte) : (s.hostPut p a bs).parkTasks = s.parkTasks :=
  foldl_keeps (f := fun st sec => st.makeDirty true sec) (fun st sec => State.makeDirty_parkTasks st true sec) s _

theorem State.barWrite_parkTasks (s : State) (off : Nat) (bs : List Byte) : (s.barWrite off bs).parkTasks = s.parkTasks := by
  unfold State.barWrite
  simp only
  split
  · split
    · rfl
    · exact State.parkTasks_of_groves rfl
  · split
    · exact State.parkTasks_of_groves rfl
    · split
      · exact State.parkTasks_of_groves rfl
      · rfl

theorem State.bellWrite_parkTasks (s : State) (q : Nat) (bs : List Byte) : (s.bellWrite q bs).parkTasks = s.parkTasks := by
  unfold State.bellWrite
  simp only
  split
  · rfl
  · exact State.devWrite_parkTasks s _ _ _

theorem State.windowWrite_parkTasks (s : State) (g off : Nat) (bs : List Byte) : (s.windowWrite g off bs).parkTasks = s.parkTasks := by
  unfold State.windowWrite
  split
  · exact State.tcmWrite_parkTasks s _ _ _
  · split
    · exact State.setGrove_parkTasks s g rfl
    · split
      · exact State.parkTasks_of_groves rfl
      · rfl

theorem State.poke_parkTasks (s : State) (p : Nat) (inter : Bool) (bs : List Byte) : (s.poke p inter bs).parkTasks = s.parkTasks := by
  unfold State.poke
  split
  · exact State.devWrite_parkTasks s p inter bs
  · exact State.windowWrite_parkTasks s _ _ bs
  · exact State.windowWrite_parkTasks s _ _ bs
  · exact State.barWrite_parkTasks s _ bs
  · exact State.bellWrite_parkTasks s _ bs
  · exact State.hostPut_parkTasks s p _ bs
  · rfl
  · rfl

theorem State.traceAdd_parkTasks (s : State) (home kind size p src : Nat) : (s.traceAdd home kind size p src).parkTasks = s.parkTasks := by
  unfold State.traceAdd
  simp only
  split
  · rfl
  · exact State.setGrove_parkTasks s home rfl

/-! #### Recalls and walks -/

theorem State.combineCopy_parkTasks (s : State) (core sec : Nat) : (s.combineCopy core sec).parkTasks = s.parkTasks :=
  foldl_keeps (f := fun st e => (st.combineElem e).traceAdd (st.home e.pa e.inter) 2 (redWidth e.ty.toNat / 8) e.pa (st.source (core * 4)))
    (fun st e => (State.traceAdd_parkTasks _ _ _ _ _ _).trans (State.poke_parkTasks st e.pa e.inter _)) (s.setCore core _) _

theorem State.combineAll_parkTasks (sec n : Nat) (s : State) (cores : List Nat) : (s.combineAll sec n cores).parkTasks = s.parkTasks := by
  induction n generalizing s cores with
  | zero => rfl
  | succ n ih =>
    unfold State.combineAll
    split
    · rfl
    · exact State.combineCopy_parkTasks s _ sec
    · exact (ih _ _).trans (State.combineCopy_parkTasks _ _ sec)

theorem State.recall_parkTasks (s : State) (sec : Nat) : (s.recall sec).parkTasks = s.parkTasks := by
  have hsnoop : (s.snoop sec).parkTasks = s.parkTasks := by
    unfold State.snoop
    split <;> rfl
  unfold State.recall
  simp only
  split
  · exact hsnoop
  · exact (State.combineAll_parkTasks _ _ _ _).trans hsnoop

theorem State.recallRange_parkTasks (s : State) (p n : Nat) : (s.recallRange p n).parkTasks = s.parkTasks := foldl_keeps State.recall_parkTasks s _

theorem State.walkFrom_parkTasks (va : Nat) (levels : List Nat) (table : Nat) (s : State) :
    (State.walkFrom va levels table s).2.2.parkTasks = s.parkTasks := by
  induction levels generalizing table s with
  | nil => rfl
  | cons level rest ih =>
    unfold State.walkFrom
    simp only
    split
    · rfl
    · split
      · exact State.recall_parkTasks s _
      · split
        · exact State.recall_parkTasks s _
        · exact (ih _ _).trans (State.recall_parkTasks s _)

theorem State.walkTouch_parkTasks (s : State) (ctx : Nat) (vas : List Nat) : (s.walkTouch ctx vas).parkTasks = s.parkTasks := by
  refine foldl_keeps (f := fun st va => (st.walk ctx (va % 2 ^ 48)).2.2) (fun st va => ?_) s vas
  unfold State.walk
  simp only
  split
  · rfl
  · exact State.walkFrom_parkTasks _ _ _ st

/-! #### Stores and device writes -/

theorem State.perform_parkTasks (s : State) (slot p : Nat) (inter : Bool) (bs : List Byte) (sig : Bool) (kind : Nat) :
    (s.perform slot p inter bs sig kind).parkTasks = s.parkTasks := by
  have hput := (State.traceAdd_parkTasks ((s.recallRange p bs.length).poke p inter bs) ((s.recallRange p bs.length).home p inter) kind bs.length p
    ((s.recallRange p bs.length).source slot)).trans ((State.poke_parkTasks _ p inter bs).trans (State.recallRange_parkTasks s p bs.length))
  unfold State.perform
  simp only
  split
  · exact (State.notify_parkTasks _ _).trans hput
  · exact hput

theorem State.strongPut_parkTasks (s : State) (slot p : Nat) (inter : Bool) (bs : List Byte) (sig : Bool) (kind : Nat) :
    (s.strongPut slot p inter bs sig kind).parkTasks = s.parkTasks := by
  refine Eq.trans ?_ (State.perform_parkTasks s slot p inter bs sig kind)
  unfold State.strongPut State.strongDone
  split <;> rfl

theorem State.drainGo_parkTasks (slot n : Nat) {s t : State} (h : s.drainGo slot n = some t) : t.parkTasks = s.parkTasks := by
  induction n generalizing s with
  | zero => exact congrArg State.parkTasks (Option.some.inj h).symm
  | succ n ih =>
    unfold State.drainGo at h
    split at h
    · exact congrArg State.parkTasks (Option.some.inj h).symm
    · split at h
      · exact nomatch h
      · exact (ih h).trans (State.strongPut_parkTasks (s.setSlot slot _) _ _ _ _ _ _)

theorem State.drainSecs_parkTasks (s : State) (slot : Nat) (secs : List Nat) : (s.drainSecs slot secs).parkTasks = s.parkTasks :=
  foldl_keeps (f := fun st (e : Stored) => st.strongPut slot e.pa e.inter e.bytes e.sig 0) (fun st _ => State.strongPut_parkTasks st _ _ _ _ _ _)
    (s.setSlot slot _) _

theorem State.lateWrite_parkTasks (s : State) (l : Late) : (s.lateWrite l).parkTasks = s.parkTasks := by
  have hput := (State.poke_parkTasks _ l.st.pa l.st.inter l.st.bytes).trans (State.recallRange_parkTasks s l.st.pa l.st.bytes.length)
  unfold State.lateWrite
  split
  · rfl
  · unfold State.latePut
    split
    · split <;> rfl
    · split
      · exact State.strongPut_parkTasks s _ _ _ _ _ _
      · simp only
        split
        · exact (State.notify_parkTasks _ _).trans hput
        · exact hput

theorem State.recWrite_parkTasks (s : State) (pa off : Nat) (bs : List Byte) : (s.recWrite pa off bs).parkTasks = s.parkTasks :=
  State.lateWrite_parkTasks s _

theorem State.taskState_parkTasks (s : State) (key : Nat) (st : TaskSt) : (s.taskState key st).parkTasks = s.parkTasks := by
  unfold State.taskState
  split
  · exact State.recWrite_parkTasks (s.setTask key _) _ _ _
  · rfl

/-! #### The matrix unit at a save (R379, R243) -/

theorem State.mmaGone_parkTasks (s : State) (core : Nat) : (s.mmaGone core).parkTasks = s.parkTasks := by
  have hserve : ∀ (t : State) (g : Nat), (t.serveNext g).parkTasks = t.parkTasks := fun t g => State.setGrove_parkTasks t g rfl
  unfold State.mmaGone
  simp only
  split
  · exact (hserve _ _).trans (State.setGrove_parkTasks s (groveOfCore core) rfl)
  · rfl

theorem State.mmaPiece_parkTasks (s : State) (core : Nat) : (s.mmaPiece core).parkTasks = s.parkTasks := by
  have hend : ∀ (t : State) (op : MmaOp), (t.mmaEnd core op).parkTasks = t.parkTasks := fun t _ => State.mmaGone_parkTasks (t.modCore core _) core
  unfold State.mmaPiece
  split
  · rfl
  · simp only
    split
    · exact hend (s.plainRun core _) _
    · split
      · exact hend (s.latentRun core _ _) _
      · rfl

theorem State.mmaFinish_parkTasks (s : State) (core : Nat) : (s.mmaFinish core).parkTasks = s.parkTasks := by
  refine foldl_keeps (f := fun st (_ : Nat) => if st.hasMma core then st.mmaRest (st.served core) else st) (fun st _ => ?_) s _
  split
  · exact foldl_keeps (f := fun u (_ : Nat) => u.mmaPiece (st.served core)) (fun u _ => State.mmaPiece_parkTasks u _) st _
  · rfl

/-! #### The save of a task (R56, R88, R89) -/

theorem State.saveBytes_parkTasks (s : State) (slot p : Nat) (bs : List Byte) : (s.saveBytes slot p bs).parkTasks = s.parkTasks :=
  foldl_keeps (f := fun st (q : Nat × List Byte) => st.lateWrite ⟨some slot, ⟨q.1, st.interOf q.1, q.2, false⟩, none⟩)
    (fun st _ => State.lateWrite_parkTasks st _) s _

theorem State.frameWrite_parkTasks (s : State) (slot off : Nat) (bs : List Byte) : (s.frameWrite slot off bs).parkTasks = s.parkTasks :=
  (State.saveBytes_parkTasks _ _ _ _).trans (State.tcmWrite_parkTasks s _ _ _)

theorem State.accOut_parkTasks (s : State) (slot : Nat) : (s.accOut slot).1.parkTasks = s.parkTasks := by
  unfold State.accOut
  extract_lets core mine s1 c s2
  have h1 : s1.parkTasks = s.parkTasks := by
    clear_value mine
    cases mine with
    | none => rfl
    | some op =>
      simp only [s1]
      split
      · exact State.mmaFinish_parkTasks s core
      · rfl
  have h2 : s2.parkTasks = s.parkTasks := (State.saveBytes_parkTasks s1 _ _ _).trans h1
  split
  · dsimp only
    split
    · exact (State.mmaGone_parkTasks _ core).trans ((State.modCore_parkTasks s2 core _).trans h2)
    · exact h2
  · exact h1

theorem State.engNote_parkTasks (s : State) (core slot : Nat) (e : Engine) : (s.engNote core slot e).parkTasks = s.parkTasks := by
  unfold State.engNote State.engStatus
  split
  · split
    · simp only
      split
      · exact State.tcmWrite_parkTasks s _ _ _
      · rfl
    · rfl
  · rfl

theorem State.saveFrame_parkTasks (s : State) (slot : Nat) : (s.saveFrame slot).1.parkTasks = s.parkTasks := by
  have hengines : ∀ t : State, (t.engOut slot).1.parkTasks = t.parkTasks := fun t =>
    (State.engNote_parkTasks _ _ _ _).trans (State.engNote_parkTasks t _ _ _)
  exact (hengines _).trans ((State.accOut_parkTasks _ slot).trans (State.frameWrite_parkTasks (s.freeBytes 176).2 _ _ _))

theorem State.writeBack_parkTasks (s : State) (slot key pc : Nat) (aff tframe : Bool) : (s.writeBack slot key pc aff tframe).parkTasks = s.parkTasks := by
  unfold State.writeBack
  split
  · exact State.recWrite_parkTasks s _ _ _
  · rfl

theorem State.spillOut_parkTasks (s : State) (slot home : Nat) : (s.spillOut slot home).1.parkTasks = s.parkTasks := by
  unfold State.spillOut
  split
  · rfl
  · split
    · rfl
    · simp only
      split
      · exact State.walkTouch_parkTasks s _ _
      · refine Eq.trans (foldl_keeps (obs := State.parkTasks) (fun st q => ?_) _ _) (State.walkTouch_parkTasks s _ _)
        split
        · exact (foldl_keeps (obs := State.parkTasks) (fun u w => State.perform_parkTasks u _ _ _ _ _ _) _ _).trans (State.drainSecs_parkTasks st _ _)
        all_goals rfl

theorem State.saveRest_parkTasks (s : State) (slot key n : Nat) (pinned : Bool) : (s.saveRest slot key n pinned).parkTasks = s.parkTasks := by
  have hframe := State.saveFrame_parkTasks s slot
  unfold State.saveRest
  generalize s.saveFrame slot = r at hframe ⊢
  exact (State.modTask_parkTasks _ key _).trans ((State.writeBack_parkTasks _ slot key _ true true).trans hframe)

theorem State.trapSave_parkTasks (s : State) (slot key : Nat) : (s.trapSave slot key).1.parkTasks = s.parkTasks := by
  have hspill := State.spillOut_parkTasks s slot (s.homePtr key)
  unfold State.trapSave State.saveTask
  generalize s.spillOut slot (s.homePtr key) = r at hspill ⊢
  obtain ⟨t, n, pinned, f⟩ := r
  dsimp only at hspill ⊢
  rw [State.modSlot_parkTasks, State.taskState_parkTasks, State.saveRest_parkTasks, hspill]

/-! #### The trap and its report (R72, R211, R237, R238) -/

theorem State.trapEntry_parkTasks (s : State) (slot cause : Nat) (addr : Word) (path : Nat) :
    (s.trapEntry slot cause addr path).1.parkTasks = s.parkTasks := by
  unfold State.trapEntry
  simp only
  split
  · split
    · rfl
    · exact State.trapSave_parkTasks (s.modSlot slot _) slot _
  · rfl

theorem State.setPathSrc_parkTasks (s : State) (slot path : Nat) (f : FaultSrc) : (s.setPathSrc slot path f).parkTasks = s.parkTasks := by
  unfold State.setPathSrc
  split
  · exact State.setGrove_parkTasks s _ rfl
  · rfl

theorem State.holdRecord_parkTasks (s : State) (slot : Nat) (key : Option Nat) (f : XFault) : (s.holdRecord slot key f).parkTasks = s.parkTasks := by
  unfold State.holdRecord
  extract_lets src old fs token s1 s2 s3
  have h1 : s1.parkTasks = s.parkTasks := State.setPathSrc_parkTasks s _ _ _
  have h2 : s2.parkTasks = s1.parkTasks := by
    cases key with
    | none => rfl
    | some k => exact State.modTask_parkTasks s1 k _
  split <;> exact h2.trans h1

theorem State.spillRecord_parkTasks (s : State) (slot : Nat) (key : Option Nat) (f : Option XFault) :
    (s.spillRecord slot key f).parkTasks = s.parkTasks := by
  unfold State.spillRecord
  split
  · rfl
  · next f =>
    split
    · cases (XRes.fail f).raises <;> rfl
    · exact State.holdRecord_parkTasks s slot key f

theorem State.recordPut_parkTasks (s : State) (r : FaultRec) : (s.recordPut r).1.parkTasks = s.parkTasks := by
  unfold State.recordPut
  extract_lets d s0 c head tail s1 s2
  have h0 : s0.parkTasks = s.parkTasks := State.recallRange_parkTasks s _ _
  split
  · exact h0
  · split
    · dsimp only
      split <;> exact h0
    · exact (State.notify_parkTasks _ _).trans ((State.recWrite_parkTasks s1 _ _ _).trans ((State.recWrite_parkTasks s0 _ _ _).trans h0))

theorem State.slotRecordPut_parkTasks (s : State) (slot : Nat) (r : FaultRec) : (s.slotRecordPut slot r).1.parkTasks = s.parkTasks := by
  have hput := State.recordPut_parkTasks s r
  unfold State.slotRecordPut
  simp only
  split
  · rfl
  · split
    · next s1 heq =>
      rw [heq] at hput
      exact (State.setPathSrc_parkTasks s1 _ _ _).trans hput
    · exact hput

theorem State.noticePut_parkTasks {s t : State} {bs : List Byte} (h : s.noticePut bs = some t) : t.parkTasks = s.parkTasks := by
  unfold State.noticePut at h
  split at h
  · exact nomatch h
  · obtain rfl := Option.some.inj h
    exact State.recWrite_parkTasks s _ _ _

theorem State.report_parkTasks (s : State) (slot : Nat) : (s.report slot).parkTasks = s.parkTasks := by
  unfold State.report
  split
  · rfl
  · split
    · rfl
    · next s1 hdrain =>
      have h1 : s1.parkTasks = s.parkTasks := State.drainGo_parkTasks slot _ hdrain
      extract_lets s2 sl
      have h2 : s2.parkTasks = s.parkTasks := by
        refine Eq.trans ?_ h1
        simp only [s2]
        split
        · next r _ =>
          have hput := State.slotRecordPut_parkTasks s1 slot r
          split <;> next heq => rw [heq] at hput; exact hput
        · rfl
      split
      · exact h2
      · split
        · split
          · exact h2
          · split
            · next s3 hnotice => exact (State.noticePut_parkTasks hnotice).trans h2
            · exact h2
        · split <;> exact h2

theorem State.takeTrap_parkTasks (s : State) (slot cause : Nat) (addr : Word) (path : Nat) : (s.takeTrap slot cause addr path).parkTasks = s.parkTasks :=
  (State.report_parkTasks _ slot).trans ((State.spillRecord_parkTasks _ _ _ _).trans (State.trapEntry_parkTasks s slot cause addr path))

theorem State.barEnter_parkTasks {s t : State} {home p : Nat} (h : s.barEnter home p = some t) : t.parkTasks = s.parkTasks := by
  unfold State.barEnter at h
  simp only at h
  split at h
  · obtain rfl := Option.some.inj h
    exact State.setGrove_parkTasks s home rfl
  · split at h
    · obtain rfl := Option.some.inj h
      exact State.setGrove_parkTasks s home rfl
    · exact nomatch h

end Sys2Proof.Machine
end

section
/-! PROOF. How a wait ends, parks or times out (R122 to R124, R245, R333). -/

namespace Sys2Proof.Machine

/-! ### The end of a wait (R122) -/

theorem Wait.ends_false (w : Wait) : w.ends false = w.verdict := by
  unfold Wait.ends
  cases w.verdict <;> rfl

/-- The time-out ends a wait in any case (R122). -/
theorem Wait.ends_true (w : Wait) : w.ends true = some (w.verdict.getD 1) := by
  unfold Wait.ends
  cases w.verdict <;> rfl

/-- A slot runs on behind its wait, whose register takes the value of the evaluation r (R122). -/
def State.waitEnded (s : State) (slot : Nat) (dst : Reg) (r : Wait) (status : Nat) : State :=
  (s.acquired slot).setSlot slot { ((s.slot slot).setXr dst (s.waitValue (s.slot slot).grp r status)) with
    wait := none, st := .run, pc := (s.slot slot).npc }

section Settle
variable {s : State} {slot : Nat} {w : Wait} {pick : Cond → Bool} (hwait : (s.slot slot).wait = some w) (hst : (s.slot slot).st = .waiting)
include hwait hst

/-- The first picked condition that reads a poisoned unit traps at the wait (R245, log 105). -/
theorem State.settleSlot_poisoned {addr : Word} {rest : List Word} (last : Bool)
    (hbad : (w.conds.filter fun c => pick c && s.condOpen c).filterMap (s.condPoison slot) = addr :: rest) :
    s.settleSlot pick last slot = s.takeTrap slot Cause.poison addr 0 := by
  have hfirst : (w.conds.filter fun c => pick c && s.condOpen c).findSome? (s.condPoison slot) = some addr := by
    rw [← List.head?_filterMap, hbad, List.head?_cons]
  simp only [State.settleSlot, hwait, hst, hfirst, bne_self_eq_false, Bool.false_eq_true, if_false]

section Sound
variable (hsound : (w.conds.filter fun c => pick c && s.condOpen c).findSome? (s.condPoison slot) = none) (hrecall : s.recallWait pick w = s)
include hsound hrecall

theorem State.settleSlot_ends {last : Bool} {status : Nat} (hends : (s.evalWait slot (s.slot slot).grp pick w).ends last = some status) :
    s.settleSlot pick last slot = s.waitEnded slot w.dst (s.evalWait slot (s.slot slot).grp pick w) status := by
  simp only [State.settleSlot, hwait, hst, hsound, hrecall, hends, bne_self_eq_false, Bool.false_eq_true, if_false]
  rfl

theorem State.settleSlot_stays {last : Bool} (hends : (s.evalWait slot (s.slot slot).grp pick w).ends last = none) :
    s.settleSlot pick last slot = s.setSlot slot { s.slot slot with wait := some (s.evalWait slot (s.slot slot).grp pick w) } := by
  simp only [State.settleSlot, hwait, hst, hsound, hrecall, hends, bne_self_eq_false, Bool.false_eq_true, if_false, State.modSlot_eq]

end Sound
end Settle

/-- An evaluation parks no task and frees none, even where it traps. -/
theorem State.settleSlot_parkTasks (s : State) (pick : Cond → Bool) (last : Bool) (slot : Nat) :
    (s.settleSlot pick last slot).parkTasks = s.parkTasks := by
  unfold State.settleSlot
  simp only
  split
  · rfl
  · next w _ =>
    have hrecall : (s.recallWait pick w).parkTasks = s.parkTasks := by
      refine foldl_keeps (f := fun st (c : Cond) => if pick c && c.reads && st.condOpen c then st.recallRange c.pa 8 else st) (fun st c => ?_) s w.conds
      split
      · exact State.recallRange_parkTasks st c.pa 8
      · rfl
    split
    · rfl
    · split
      · exact State.takeTrap_parkTasks s slot _ _ _
      · split <;> exact hrecall

/-! ### What a grove evaluates (R124, log 73) -/

/-- The slots of a grove that have a wait with something to evaluate. -/
def State.pickedSlots (s : State) (g : Nat) (pick : Cond → Bool) : List Nat :=
  (s.slots.filter fun q => groveOf q.1 == g && (q.2.wait.any fun x => x.picked pick)).map (·.1)

theorem State.settleGrove_eq (s : State) (g : Nat) (pick : Cond → Bool) :
    s.settleGrove g pick =
      let s1 := (s.pickedSlots g pick).foldl (fun st k => st.settleSlot pick false k) s
      (s1.parksByCore ((s1.grove g).parks.filter fun k => k.wait.picked pick)).foldl (fun st k => st.settlePark pick false g k) s1 := by
  have hmine : s.pickedSlots g pick = (s.slots.filter fun q => groveOf q.1 == g && (match q.2.wait with
      | some w => w.picked pick
      | none => false)).map (·.1) := by
    unfold State.pickedSlots
    refine congrArg _ (List.filter_congr fun q _ => ?_)
    cases q.2.wait <;> rfl
  rw [hmine]
  rfl

/-- One slot of the grove has something to evaluate, and nothing is parked. -/
theorem State.settleGrove_slot {s : State} {g slot : Nat} {pick : Cond → Bool} (hmine : s.pickedSlots g pick = [slot])
    (hparks : (s.grove g).parks = []) : s.settleGrove g pick = s.settleSlot pick false slot := by
  have hnone := State.parks_nil_of_parkTasks (State.settleSlot_parkTasks s pick false slot) hparks
  rw [State.settleGrove_eq, hmine]
  simp only [List.foldl_cons, List.foldl_nil, hnone, List.filter_nil]
  rfl

/-- No slot of the grove has something to evaluate, and one parked wait has. -/
theorem State.settleGrove_park {s : State} {g : Nat} {pick : Cond → Bool} {pk : Park} (hmine : s.pickedSlots g pick = [])
    (hparks : (s.grove g).parks = [pk]) (hpick : pk.wait.picked pick = true) : s.settleGrove g pick = s.settlePark pick false g pk := by
  rw [State.settleGrove_eq, hmine]
  simp only [List.foldl_nil, hparks, List.filter_cons, hpick, if_true, List.filter_nil]
  rfl

/-- The time of a slot's wait is up, and nothing is parked in its grove. -/
theorem exec_waitTimeout_due {s : State} {slot : Nat} {w : Wait} (hwait : (s.slot slot).wait = some w) (hdue : w.deadline ≤ s.tick.toNat)
    (hparks : (s.grove (groveOf slot)).parks = []) :
    exec (.waitTimeout slot) s = .next (s.settleSlot (fun c => c.due || c.polled) true slot) := by
  have hnone := State.parks_nil_of_parkTasks (State.settleSlot_parkTasks s (fun c => c.due || c.polled) true slot) hparks
  change execWaitTimeout slot s = _
  simp only [execWaitTimeout, hwait, hdue, decide_true, if_true, hnone, List.filter_nil]
  rfl

/-- A parked wait that ends is a READY record, with the grove as its origin (R93, R333). -/
theorem State.settlePark_ends {s : State} {g : Nat} {pick : Cond → Bool} {pk : Park} {t : Task} {status : Nat} (hparks : (s.grove g).parks = [pk])
    (hfind : s.tasks.find pk.task = some t) (hsound : ∀ c ∈ pk.wait.conds, s.condPoison t.slot c = none) (hrecall : s.recallWait pick pk.wait = s)
    (hroom : s.windowRoom g = true) (hverdict : (s.evalWait t.slot t.grp pick pk.wait).verdict = some status) :
    s.settlePark pick false g pk = (((s.setGrove g { s.grove g with parks := [] }).modTask pk.task fun u =>
      { u with result := some (pk.wait.dst, s.waitValue t.grp (s.evalWait t.slot t.grp pick pk.wait) status) }).enqueue pk.task g) := by
  have hclean : (pk.wait.conds.any fun c => pick c && s.condOpen c && (s.condPoison t.slot c).isSome) = false :=
    List.any_eq_false.mpr fun c hc => by simp [hsound c hc]
  have hvalue : ∀ v : Grove, (s.setGrove g v).waitValue = s.waitValue := fun _ => rfl
  simp only [State.settlePark, hfind, hclean, hrecall, Wait.ends_false, hverdict, hroom, Bool.false_eq_true, if_false, if_true, State.modGrove_eq,
    hvalue, hparks, List.filter_cons, bne_self_eq_false, List.filter_nil]

/-! ### The park (R123, R333) -/

theorem State.parkSlot_parks {s : State} {slot key : Nat} {w : Wait} (hwait : (s.slot slot).wait = some w) (hst : (s.slot slot).st = .waiting)
    (htask : (s.slot slot).task = some key) (hhold : w.hold ≤ s.tick.toNat) (hroom : (s.grove (groveOf slot)).parks.length < 32)
    (hsave : s.saveWaits slot key = false) (hspill : s.spillTrap slot key = none) :
    s.parkSlot slot = (s.suspend slot (some w)).modGrove (groveOf slot) fun q => { q with parks := q.parks ++ [⟨key, w⟩] } := by
  simp only [State.parkSlot, hwait, htask, hst, hhold, hroom, hsave, hspill, beq_self_eq_true, decide_true, Bool.and_self, Option.isSome_none,
    Bool.false_eq_true, if_false, if_true]

/-- The first slot of a grove that has waited past its hold parks when an entry is free (R333). -/
theorem exec_parkEntryFree_first {s : State} {g slot : Nat} {sl : Slot}
    (hfirst : s.slots.find? (fun q => groveOf q.1 == g && q.2.st == .waiting && q.2.task.isSome &&
      (q.2.wait.any fun x => decide (x.hold ≤ s.tick.toNat))) = some (slot, sl)) :
    exec (.parkEntryFree g) s = .next (s.parkSlot slot) := by
  have hany : ∀ o : Option Wait, (o.any fun x => decide (x.hold ≤ s.tick.toNat)) = (match o with
      | some w => decide (w.hold ≤ s.tick.toNat)
      | none => false) := fun o => by cases o <;> rfl
  simp only [hany] at hfirst
  change execParkEntryFree g s = _
  unfold execParkEntryFree
  exact congrArg (fun o : Option (Nat × Slot) => (.next (match o with
    | some q => s.parkSlot q.1
    | none => s) : Out)) hfirst

end Sys2Proof.Machine
end

section
/-! PROOF. Barriers enter their registers, packets reach their inboxes (R100, R116, R119, R125, R126, R139). -/

namespace Sys2Proof.Machine

/-! ### The barrier register (R116, R119, R139) -/

/-- A barrier's owner is written, where there is one (R116). -/
def State.ownerWritten (s : State) (pa : Nat) (owner : Option Nat) : State :=
  match owner with
  | some o => s.recWrite pa 16 (bytesOf 8 o)
  | none => s

theorem State.ownerWritten_parkTasks (s : State) (pa : Nat) (owner : Option Nat) : (s.ownerWritten pa owner).parkTasks = s.parkTasks := by
  cases owner with
  | none => rfl
  | some o => exact State.recWrite_parkTasks s pa 16 (bytesOf 8 o)

/-- The wait of a barrier finds its sector open, and the barrier BROKEN or the home's register with room; s1 is the state with the barrier in it (R119, R139). -/
def State.BarEnters (s : State) (c : Cond) (s1 : State) : Prop :=
  let s0 := s.recallRange c.pa 16
  s.locked c.pa 16 = false ∧
    (barDead (s0.peek c.pa 16) = true ∧ s1 = s0 ∨ barDead (s0.peek c.pa 16) = false ∧ s0.barEnter (s0.home c.pa c.inter) c.pa = some s1)

/-- Its sector is locked, or the register of a barrier that is not BROKEN is full. -/
def State.BarBlocked (s : State) (c : Cond) : Prop :=
  let s0 := s.recallRange c.pa 16
  s.locked c.pa 16 = true ∨ barDead (s0.peek c.pa 16) = false ∧ s0.barEnter (s0.home c.pa c.inter) c.pa = none

theorem State.BarEnters.parkTasks {s s1 : State} {c : Cond} (h : s.BarEnters c s1) : s1.parkTasks = s.parkTasks := by
  obtain ⟨_, ⟨_, rfl⟩ | ⟨_, henter⟩⟩ := h
  · exact State.recallRange_parkTasks s c.pa 16
  · exact (State.barEnter_parkTasks henter).trans (State.recallRange_parkTasks s c.pa 16)

theorem State.barWaits_single (s : State) (owner : Option Nat) {x : Wait} {c : Cond} (hconds : x.conds = [c]) :
    s.barWaits owner x = ((s.barTry owner c).1, { x with conds := [(s.barTry owner c).2] }) := by
  simp only [State.barWaits, hconds, List.foldl_cons, List.foldl_nil, List.nil_append]

section Barrier
variable {s : State} {x : Wait} {c : Cond} (hconds : x.conds = [c]) (hkind : c.kind = 3) (hout : c.entered = false) (owner : Option Nat)
include hconds hkind hout

theorem State.barWaits_enters {s1 : State} (h : s.BarEnters c s1) :
    s.barWaits owner x = (s1.ownerWritten c.pa owner, { x with conds := [{ c with entered := true }] }) := by
  obtain ⟨hopen, hlive⟩ := h
  have htry : s.barTry owner c = (s1.ownerWritten c.pa owner, { c with entered := true }) := by
    rcases hlive with ⟨hdead, rfl⟩ | ⟨hlive, henter⟩
    · simp only [State.barTry, hkind, hout, hopen, hdead, if_true, BitVec.ofNat_eq_ofNat, beq_self_eq_true, Bool.not_false, Bool.and_self]
      rfl
    · simp only [State.barTry, hkind, hout, hopen, hlive, henter, if_true, if_false, Bool.false_eq_true, BitVec.ofNat_eq_ofNat, beq_self_eq_true,
        Bool.not_false, Bool.and_self]
      rfl
  rw [State.barWaits_single s owner hconds, htry]

theorem State.barWaits_blocked (h : s.BarBlocked c) : s.barWaits owner x = (s, x) := by
  have htry : s.barTry owner c = (s, c) := by
    rcases hlock : s.locked c.pa 16 with _ | _
    · obtain ⟨hlive, hfull⟩ := h.resolve_left (by simp [hlock])
      simp only [State.barTry, hkind, hout, hlock, hlive, hfull, if_true, if_false, Bool.false_eq_true, BitVec.ofNat_eq_ofNat, beq_self_eq_true,
        Bool.not_false, Bool.and_self]
    · simp only [State.barTry, hlock, Bool.not_true, Bool.and_false, Bool.false_eq_true, if_false]
  rw [State.barWaits_single s owner hconds, htry, ← hconds]

end Barrier

theorem exec_barrierRegisterRetry_slot {s u : State} {slot : Nat} {x y : Wait} (hwait : (s.slot slot).wait = some x)
    (htry : s.barWaits (s.ownerOf slot) x = (u, y)) (hparks : (u.grove (groveOf slot)).parks = []) :
    exec (.barrierRegisterRetry slot) s = .next (u.modSlot slot fun q => { q with wait := some y }) := by
  change execBarrierRegisterRetry slot s = _
  simp only [execBarrierRegisterRetry, hwait, htry, State.modSlot_eq, State.grove_setSlot, hparks, List.foldl_nil]

theorem exec_barrierRegisterRetry_park {s u : State} {slot key : Nat} {t : Task} {x y : Wait} (hwait : (s.slot slot).wait = none)
    (hparks : (s.grove (groveOf slot)).parks = [⟨key, x⟩]) (hfind : s.tasks.find key = some t)
    (htry : s.barWaits (some (s.groupDesc t.grp)) x = (u, y)) :
    exec (.barrierRegisterRetry slot) s = .next (u.setPark (groveOf slot) key y) := by
  change execBarrierRegisterRetry slot s = _
  simp only [execBarrierRegisterRetry, hwait, hparks, hfind, Option.map_some, htry, List.foldl_cons, List.foldl_nil]

/-! ### Packets (R100, R125, R126) -/

section Packet
variable {s : State} {g k : Nat} {bs : List Byte} {acked : Bool} (hsends : (s.grove g).sends = some ⟨.packet k bs, acked⟩)
include hsends

theorem exec_msgDeliver_packet (hfresh : (s.grove g).refusals = 0) : exec (.msgDeliver g) s = .next (s.packetArrive g k bs) := by
  change execMsgDeliver g s = _
  rw [execMsgDeliver, hsends]
  simp only [hfresh, if_true]

theorem exec_replayBackoffExpiry_packet (hrefused : (s.grove g).refusals ≠ 0) (hdue : (s.grove g).resendAt ≤ s.tick.toNat) :
    exec (.replayBackoffExpiry g) s = .next (s.packetArrive g k bs) := by
  have hgo : ((s.grove g).refusals ≠ 0 && decide ((s.grove g).resendAt ≤ s.tick.toNat)) = true := by simp [hrefused, hdue]
  change execReplayBackoffExpiry g s = _
  simp only [execReplayBackoffExpiry, hgo, if_true, State.arrive, hsends]

end Packet

theorem State.taken_first {s : State} {g : Nat} {first rest : List Enq} {e : Enq} (hfirst : ∀ q ∈ first, q.acked = true) (hopen : e.acked = false)
    (hwindow : (s.grove g).window = first ++ e :: rest) :
    s.taken g = s.setGrove g { s.grove g with refusals := 0, window := first ++ { e with acked := true } :: rest } := by
  rw [State.taken, State.modGrove_eq, hwindow, ackFirst_first hfirst hopen]

/-- A packet for another module leaves once its link does not train (log 106). -/
theorem State.packetArrive_far (s : State) (g : Nat) {k : Nat} (bs : List Byte) (hfar : slotCount ≤ k) :
    s.packetArrive g k bs = if s.farWaits k then s else s.taken g := by
  rw [State.packetArrive, if_pos hfar]

section Near
variable {s : State} {k : Nat} (g : Nat) (bs : List Byte) (hnear : k < slotCount)
include hnear

/-- A full inbox refuses a packet, and the grove backs off (R99, R100). -/
theorem State.packetArrive_refused (hfull : ∀ i, i < 16 → i ∈ (s.slot k).inbox) :
    s.packetArrive g k bs = s.setGrove g { s.grove g with
      refusals := (s.grove g).refusals + 1
      resendAt := s.tick.toNat + min s.boMax.toNat (s.boBase.toNat * 2 ^ min (s.grove g).refusals 15) } := by
  have hnone : (List.range 16).find? (fun i => !(s.slot k).inbox.contains i) = none :=
    List.find?_eq_none.mpr fun i hi => by simpa using hfull i (List.mem_range.mp hi)
  simp only [State.packetArrive, if_neg (Nat.not_le.mpr hnear), hnone, State.nacked, State.backoff_succ, State.modGrove_eq]

/-- A packet takes the lowest free place of its inbox (log 18). -/
theorem State.packetArrive_lowest {i : Nat} (hi : i < 16) (hfree : i ∉ (s.slot k).inbox) (hlow : ∀ j, j < i → j ∈ (s.slot k).inbox) :
    s.packetArrive g k bs = ((s.taken g).tcmWrite (coreOf k) ((s.core (coreOf k)).inboxOff (slotNo k) i) bs).modSlot k
      fun q => { q with inbox := (s.slot k).inbox ++ [i] } := by
  have hfirst : (List.range 16).find? (fun j => !(s.slot k).inbox.contains j) = some i :=
    List.find?_range_eq_some.mpr ⟨by simpa using hfree, List.mem_range.mpr hi, fun j hj => by simpa using hlow j hj⟩
  have hslots : ((s.taken g).tcmWrite (coreOf k) ((s.core (coreOf k)).inboxOff (slotNo k) i) bs).slots = s.slots :=
    congrArg Books.slots (State.tcmWrite_books (s.taken g) _ _ bs)
  have hslot : ((s.taken g).tcmWrite (coreOf k) ((s.core (coreOf k)).inboxOff (slotNo k) i) bs).slot k = s.slot k := by
    rw [State.slot, hslots, State.slot]
  simp only [State.packetArrive, if_neg (Nat.not_le.mpr hnear), hfirst, State.modSlot_eq, hslot]

end Near

/-- Settles O50: the picked conditions are evaluated once and end the wait, keep it or trap, a barrier enters its register or waits, and the packet that a grove
sends first arrives, leaves or is refused. -/
theorem waitEvents : Obligations.WaitEvents := by
  intro s g slot w sl gr waits ended
  refine ⟨fun hwait hst hparks => ⟨?_, ?_⟩, ?_, ?_, fun x c hconds hkind hout hg => ?_, fun first rest k bs hwindow hfirst hlen => ?_⟩
  · intro i pick hevent hmine bad
    have hexec : exec i s = .next (s.settleSlot pick false slot) := by
      rw [← State.settleGrove_slot hmine hparks]
      simp only [List.mem_cons, Prod.mk.injEq, List.not_mem_nil, or_false] at hevent
      rcases hevent with ⟨rfl, rfl⟩ | ⟨rfl, rfl⟩ <;> rfl
    rw [hexec]
    refine ⟨fun addr rest hbad => congrArg _ (State.settleSlot_poisoned hwait hst false hbad), fun hclean hrecall => ?_⟩
    have hsound : (w.conds.filter fun c => pick c && s.condOpen c).findSome? (s.condPoison slot) = none := by
      rw [← List.head?_filterMap]
      exact congrArg List.head? hclean
    exact ⟨fun status hverdict => congrArg _ (State.settleSlot_ends hwait hst hsound hrecall ((Wait.ends_false _).trans hverdict)),
      fun hverdict => congrArg _ (State.settleSlot_stays hwait hst hsound hrecall ((Wait.ends_false _).trans hverdict))⟩
  · intro pick r hg hdue hclean hrecall
    have hsound : (w.conds.filter fun c => pick c && s.condOpen c).findSome? (s.condPoison slot) = none :=
      List.findSome?_eq_none_iff.mpr fun c hc => by
        obtain ⟨hmem, hpick⟩ := List.mem_filter.mp hc
        exact hclean c hmem (Bool.and_eq_true_iff.mp hpick).1
    subst hg
    exact (exec_waitTimeout_due hwait hdue hparks).trans (congrArg _ (State.settleSlot_ends hwait hst hsound hrecall (Wait.ends_true r)))
  · intro pk t status hmine hparks hpick hfind hsound hrecall hroom r hverdict
    exact congrArg _ ((State.settleGrove_park hmine hparks hpick).trans (State.settlePark_ends hparks hfind hsound hrecall hroom hverdict))
  · intro key hwait hst htask hhold hg hroom hsave hspill parked
    subst hg
    have hparked := State.parkSlot_parks hwait hst htask hhold hroom hsave hspill
    exact ⟨congrArg _ hparked, fun hfirst => (exec_parkEntryFree_first hfirst).trans (congrArg _ hparked)⟩
  · subst hg
    refine ⟨fun hwait hparks => ⟨fun hfull => ?_, fun s1 henters => ?_⟩, fun key t s1 hwait hparks hfind henters => ?_⟩
    · exact exec_barrierRegisterRetry_slot hwait (State.barWaits_blocked hconds hkind hout _ hfull) hparks
    · have hkeeps := (State.ownerWritten_parkTasks s1 c.pa (s.ownerOf slot)).trans (State.BarEnters.parkTasks henters)
      exact exec_barrierRegisterRetry_slot hwait (State.barWaits_enters hconds hkind hout _ henters) (State.parks_nil_of_parkTasks hkeeps hparks)
    · exact exec_barrierRegisterRetry_park hwait hparks hfind (State.barWaits_enters hconds hkind hout _ henters)
  · intro full due
    have hsends := Grove.sends_first hfirst rfl hwindow hlen
    have htaken := State.taken_first hfirst rfl hwindow
    have harrives : ∀ t : State, s.packetArrive g k bs = t → due t := fun t ht =>
      ⟨fun hfresh => (exec_msgDeliver_packet hsends hfresh).trans (congrArg _ ht),
        fun hrefused hdue => (exec_replayBackoffExpiry_packet hsends hrefused hdue).trans (congrArg _ ht)⟩
    refine ⟨fun hfar htrains => harrives _ ?_, fun hfar hup => harrives _ ?_, fun hnear hfull => harrives _ (State.packetArrive_refused g bs hnear hfull),
      fun i hnear hi hfree hlow => harrives _ ?_⟩
    · rw [State.packetArrive_far s g bs hfar, if_pos htrains]
    · rw [State.packetArrive_far s g bs hfar, if_neg (Bool.eq_false_iff.mp hup), htaken]
    · rw [State.packetArrive_lowest g bs hnear hi hfree hlow, htaken]

end Sys2Proof.Machine
end

section
/-! PROOF. How a wait begins (R119, R122 to R124, R139, R142, R332). -/

namespace Sys2Proof.Machine

/-! ### A wait apart from where its monitors stand (R124) -/

/-- A condition without the mark that the monitor table was full. -/
def Cond.unpolled (c : Cond) : Cond := { c with polled := false }

/-- A wait whose conditions carry no such mark. -/
def Wait.unpolled (w : Wait) : Wait := { w with conds := w.conds.map Cond.unpolled }

/-- A wait with its monitors installed at the slot's grove. -/
def State.installed (s : State) (w : Wait) : Wait := { w with conds := s.install (groveOf s.cur) w.conds }

theorem State.install_unpolled (s : State) (g : Nat) (cs : List Cond) : (s.install g cs).map Cond.unpolled = cs.map Cond.unpolled := by
  suffices h : ∀ (cs done : List Cond) (secs : List Nat),
      ((cs.foldl (fun (acc : List Cond × List Nat) c =>
        if !c.inTable || acc.2.contains (sectorOf c.pa) then (acc.1 ++ [c], acc.2)
        else if acc.2.length < 64 then (acc.1 ++ [c], acc.2 ++ [sectorOf c.pa])
        else (acc.1 ++ [{ c with polled := true }], acc.2)) (done, secs)).1).map Cond.unpolled = (done ++ cs).map Cond.unpolled from
    h cs [] (s.watchedSecs g)
  intro cs
  induction cs with
  | nil => intro done secs; rw [List.append_nil]; rfl
  | cons c rest ih =>
    intro done secs
    rw [List.foldl_cons]
    split
    · exact (ih _ _).trans (by rw [List.append_assoc]; rfl)
    · split
      · exact (ih _ _).trans (by rw [List.append_assoc]; rfl)
      · refine (ih _ _).trans ?_
        simp only [List.map_append, List.append_assoc]
        rfl

theorem State.installed_unpolled (s : State) (w : Wait) : (s.installed w).unpolled = w.unpolled :=
  congrArg (fun cs => { w with conds := cs }) (s.install_unpolled (groveOf s.cur) w.conds)

theorem Wait.verdict_unpolled (w : Wait) : w.unpolled.verdict = w.verdict := by
  simp only [Wait.verdict, Wait.unpolled, List.any_map, List.all_map]
  rfl

theorem maskOf_unpolled (cs : List Cond) : maskOf (cs.map Cond.unpolled) = maskOf cs := by
  induction cs with
  | nil => rfl
  | cons c rest ih => exact congrArg (fun m => flag c.holds + 2 * m) ih

theorem State.waitValue_unpolled (s : State) (grp : Nat) (w : Wait) (status : Nat) : s.waitValue grp w.unpolled status = s.waitValue grp w status := by
  obtain ⟨form, cs, all, dst, start, deadline, hold⟩ := w
  cases form with
  | waitI => exact congrArg (fun m => BitVec.ofNat 64 (at_ status 4 + m)) (maskOf_unpolled cs)
  | barWait => exact congrArg (fun m => BitVec.ofNat 64 (at_ status 4 + m)) (maskOf_unpolled cs)
  | gbSync => cases cs <;> rfl

/-- What an evaluation gives does not depend on the mark. -/
theorem State.evalWait_unpolled (s : State) (slot grp : Nat) (w : Wait) :
    (s.evalWait slot grp (fun _ => true) w).unpolled = s.evalWait slot grp (fun _ => true) w.unpolled := by
  have hcond : ∀ c : Cond, Cond.unpolled (if true && s.condOpen c then { c with holds := (s.condNow slot grp c).1, broke := (s.condNow slot grp c).2, note := false } else c)
      = if true && s.condOpen c.unpolled then { c.unpolled with holds := (s.condNow slot grp c.unpolled).1, broke := (s.condNow slot grp c.unpolled).2, note := false } else c.unpolled := by
    intro c
    have hopen : s.condOpen c.unpolled = s.condOpen c := rfl
    have hnow : s.condNow slot grp c.unpolled = s.condNow slot grp c := rfl
    rw [hopen, hnow]
    split <;> rfl
  simp only [State.evalWait, Wait.unpolled, List.map_map]
  exact congrArg (fun cs => { w with conds := cs }) (List.map_congr_left fun c _ => hcond c)

/-- Two states in which each condition of a wait stands the same evaluate it to the same. -/
theorem State.evalWait_congr {s t : State} {slot grp : Nat} {pick : Cond → Bool} {w : Wait}
    (h : ∀ c ∈ w.conds, t.condOpen c = s.condOpen c ∧ t.condNow slot grp c = s.condNow slot grp c) :
    t.evalWait slot grp pick w = s.evalWait slot grp pick w := by
  refine congrArg (fun cs => { w with conds := cs }) (List.map_congr_left fun c hc => ?_)
  obtain ⟨hopen, hnow⟩ := h c hc
  simp only [hopen, hnow]

/-! ### What a beginning wait meets (R119, R123, R139, R142) -/

/-- The sectors that a wait watches. -/
def Wait.secs (w : Wait) : List Nat := nub ((w.conds.filter Cond.inTable).map fun c => sectorOf c.pa)

/-- A wait that is installed stands at the slot. -/
def State.waitSet (s : State) (w : Wait) : State := s.modMe fun q => { q with wait := some (s.installed w) }

theorem State.waitSet_me (s : State) (w : Wait) : (s.waitSet w).me = { s.me with wait := some (s.installed w) } := State.setSlot_me s _

theorem State.waitSet_grp (s : State) (w : Wait) : (s.waitSet w).me.grp = s.me.grp := by rw [State.waitSet_me]

/-- Conditions of which none is on a barrier enter no register. -/
theorem State.barWaits_none (s : State) (owner : Option Nat) {w : Wait} (h : ∀ c ∈ w.conds, c.kind ≠ 3) : s.barWaits owner w = (s, w) := by
  suffices hfold : ∀ (cs done : List Cond), (∀ c ∈ cs, c.kind ≠ 3) →
      cs.foldl (fun (acc : State × List Cond) c => let q := acc.1.barTry owner c; (q.1, acc.2 ++ [q.2])) (s, done) = (s, done ++ cs) by
    simp only [State.barWaits, hfold w.conds [] h, List.nil_append]
  intro cs
  induction cs with
  | nil => intro done _; rw [List.append_nil]; rfl
  | cons c rest ih =>
    intro done hcs
    have hkind : (c.kind == 3#4) = false := beq_eq_false_iff_ne.mpr (hcs c List.mem_cons_self)
    have htry : s.barTry owner c = (s, c) := by
      simp only [State.barTry, hkind, Bool.false_and, Bool.false_eq_true, if_false]
    rw [List.foldl_cons]
    simp only [htry]
    rw [ih _ fun q hq => hcs q (List.mem_cons_of_mem c hq), List.append_assoc]
    rfl

/-- Where no place that an evaluation reads has a copy to recall, the evaluation recalls nothing. -/
theorem State.recallWait_unheld {s : State} {pick : Cond → Bool} {w : Wait} (h : ∀ c ∈ w.conds, c.reads = true → s.recallRange c.pa 8 = s) :
    s.recallWait pick w = s := by
  suffices hfold : ∀ cs : List Cond, (∀ c ∈ cs, c.reads = true → s.recallRange c.pa 8 = s) →
      cs.foldl (fun st c => if pick c && c.reads && st.condOpen c then st.recallRange c.pa 8 else st) s = s from hfold w.conds h
  intro cs
  induction cs with
  | nil => exact fun _ => rfl
  | cons c rest ih =>
    intro hcs
    rw [List.foldl_cons]
    split
    · next hread =>
      rw [hcs c List.mem_cons_self (Bool.and_eq_true_iff.mp (Bool.and_eq_true_iff.mp hread).1).2]
      exact ih fun q hq => hcs q (List.mem_cons_of_mem c hq)
    · exact ih fun q hq => hcs q (List.mem_cons_of_mem c hq)

theorem Slot.setXr_wait (q : Slot) (d : Reg) (v : Word) (o : Option Wait) : { q with wait := o }.setXr d v = { q.setXr d v with wait := o } := by
  unfold Slot.setXr
  split <;> rfl

/-- The register of a wait is written, and the wait is over. -/
theorem State.waitDone_setSlot (s : State) {q : Slot} {o : Option Wait} (hq : q = { s.me with wait := o }) (d : Reg) (v : Word) :
    (((s.setSlot s.cur q).setX d v).modMe fun sl => { sl with wait := none }) = s.modMe fun sl => { (sl.setXr d v) with wait := none } := by
  subst hq
  simp only [State.setX_eq, State.modMe_eq, State.setSlot_cur, State.setSlot_me, State.setSlot_setSlot, Slot.setXr_wait]

section Begin
variable {s u v : State} {w x : Wait} (hopen : w.secs.any s.lockedSec = false) (hdrain : s.drainSecs s.cur w.secs = u)
  (henter : (u.waitSet w).barWaits (u.ownerOf u.cur) (u.installed w) = (v, x)) (hrecall : v.recallWait (fun _ => true) x = v)
include hopen hdrain henter hrecall

/-- A wait that its conditions end at once, or that has no time (R122). -/
theorem State.beginWait_ends {status : Nat} (hends : (v.evalWait v.cur v.me.grp (fun _ => true) x).ends (decide (w.deadline ≤ w.start)) = some status) :
    s.beginWait w = .next (((v.acquired v.cur).setX w.dst (v.waitValue v.me.grp (v.evalWait v.cur v.me.grp (fun _ => true) x) status)).modMe fun q =>
      { q with wait := none }) := by
  subst hdrain
  simp only [State.waitSet, State.installed, Wait.secs] at hopen henter
  simp only [State.beginWait, hopen, henter, hrecall, hends, Bool.false_eq_true, if_false]

/-- A wait that goes on (R123). -/
theorem State.beginWait_stays (hends : (v.evalWait v.cur v.me.grp (fun _ => true) x).ends (decide (w.deadline ≤ w.start)) = none) :
    s.beginWait w = .left (v.modMe fun q => { q with wait := some (v.evalWait v.cur v.me.grp (fun _ => true) x), st := .waiting }) := by
  subst hdrain
  simp only [State.waitSet, State.installed, Wait.secs] at hopen henter
  simp only [State.beginWait, hopen, henter, hrecall, hends, Bool.false_eq_true, if_false]

end Begin

/-! ### A wait on no barrier (R122) -/

theorem State.recallRange_unheld {s : State} {p n : Nat} (hguest : s.guest.held = []) (hcopies : ∀ sec ∈ sectorsOf p n, s.updHolders sec = []) :
    s.recallRange p n = s := by
  suffices hall : ∀ l : List Nat, (∀ sec ∈ l, s.updHolders sec = []) → l.foldl State.recall s = s from hall _ hcopies
  intro l
  induction l with
  | nil => exact fun _ => rfl
  | cons sec rest ih =>
    intro h
    rw [List.foldl_cons, State.recall_unheld hguest (h sec List.mem_cons_self)]
    exact ih fun q hq => h q (List.mem_cons_of_mem sec hq)

theorem State.updHolders_none {s : State} (hcopies : ∀ q ∈ s.cores, q.2.upd = []) (sec : Nat) : s.updHolders sec = [] := by
  rw [State.updHolders, List.filter_eq_nil_iff.mpr, List.map_nil]
  intro q hq
  simp [Core.holdsUpd, hcopies q hq]

/-- Where no core holds a copy and the guest holds no line, no access recalls anything (R142, R231). -/
theorem State.recallRange_none {s : State} (hguest : s.guest.held = []) (hcopies : ∀ q ∈ s.cores, q.2.upd = []) (p n : Nat) : s.recallRange p n = s :=
  State.recallRange_unheld hguest fun sec _ => State.updHolders_none hcopies sec

/-- The places that a wait's signal conditions watch read the same while it stands at the slot. Only the slot's own wait record (R248) could read otherwise. -/
def State.WaitUnseen (s : State) (w : Wait) : Prop := ∀ c ∈ w.conds, c.kind = 0 → (s.waitSet w).peek c.pa 8 = s.peek c.pa 8

/-- Installing a wait changes no kind of a condition. -/
theorem State.installed_kinds (s : State) {w : Wait} (hkinds : ∀ c ∈ w.conds, c.kind ≠ 3) : ∀ c ∈ (s.installed w).conds, c.kind ≠ 3 := by
  intro c hc
  have hmem : c.unpolled ∈ w.conds.map Cond.unpolled := by
    rw [← State.install_unpolled s (groveOf s.cur)]
    exact List.mem_map_of_mem hc
  obtain ⟨k, hk, heq⟩ := List.mem_map.mp hmem
  rw [show c.kind = k.kind from (congrArg Cond.kind heq).symm]
  exact hkinds k hk

section Signals
variable {s : State} {w : Wait} (hguest : s.guest.held = []) (hcopies : ∀ q ∈ s.cores, q.2.upd = []) (hkinds : ∀ c ∈ w.conds, c.kind ≠ 3)
  (hunseen : s.WaitUnseen w) (hcommits : s.commits = []) (hdrained : s.drainSecs s.cur w.secs = s)
include hguest hcopies

theorem State.condNow_waitSet (grp : Nat) {c : Cond} (hkind : c.kind ≠ 3)
    (hread : c.kind = 0 → (s.waitSet w).peek c.pa 8 = s.peek c.pa 8) : (s.waitSet w).condNow s.cur grp c = s.condNow s.cur grp c := by
  have hplace : (s.waitSet w).homeRead c.pa 8 = (s.waitSet w).peek c.pa 8 ∧ s.homeRead c.pa 8 = s.peek c.pa 8 := by
    rw [State.homeRead, State.homeRead, State.recallRange_none hguest hcopies, State.recallRange_none (s := s.waitSet w) hguest hcopies]
    exact ⟨rfl, rfl⟩
  have hinbox : ((s.waitSet w).slot s.cur).inbox = (s.slot s.cur).inbox := by
    simp [State.waitSet, State.me]
  unfold State.condNow
  split
  · next h => rw [hplace.1, hplace.2, hread (BitVec.eq_of_toNat_eq h)]
  · rfl
  · rfl
  · next h => exact absurd (BitVec.eq_of_toNat_eq h) hkind
  · rfl
  · rw [hinbox]
  · rfl

include hkinds hunseen

/-- The installed wait evaluates to what the wait evaluates to before it is installed. -/
theorem State.evalWait_waitSet : ((s.waitSet w).evalWait s.cur s.me.grp (fun _ => true) (s.installed w)).unpolled =
    (s.evalWait s.cur s.me.grp (fun _ => true) w).unpolled := by
  rw [State.evalWait_unpolled, State.evalWait_unpolled, State.installed_unpolled]
  refine State.evalWait_congr fun c hc => ?_
  obtain ⟨k, hk, rfl⟩ := List.mem_map.mp hc
  exact ⟨rfl, State.condNow_waitSet (c := k.unpolled) hguest hcopies _ (hkinds k hk) (hunseen k hk)⟩

theorem State.ends_waitSet (last : Bool) : ((s.waitSet w).evalWait (s.waitSet w).cur (s.waitSet w).me.grp (fun _ => true) (s.installed w)).ends last =
    (s.evalWait s.cur s.me.grp (fun _ => true) w).ends last := by
  have hverdict : ((s.waitSet w).evalWait s.cur s.me.grp (fun _ => true) (s.installed w)).verdict =
      (s.evalWait s.cur s.me.grp (fun _ => true) w).verdict := by
    rw [← Wait.verdict_unpolled, State.evalWait_waitSet hguest hcopies hkinds hunseen, Wait.verdict_unpolled]
  rw [State.waitSet_grp, Wait.ends, Wait.ends]
  exact congrArg (fun v : Option Nat => match v with
    | some status => some status
    | none => if last = true then some 1 else none) hverdict

include hcommits hdrained

/-- A wait on no barrier that ends as it begins writes what its evaluation gives (R122). -/
theorem State.beginWait_signals_ends {status : Nat}
    (hends : (s.evalWait s.cur s.me.grp (fun _ => true) w).ends (decide (w.deadline ≤ w.start)) = some status) :
    finish (s.beginWait w) = .next (((s.acquired s.cur).modMe fun q =>
      { (q.setXr w.dst (s.waitValue s.me.grp (s.evalWait s.cur s.me.grp (fun _ => true) w) status)) with wait := none }).advance) := by
  have hbegin := State.beginWait_ends (s := s) (w := w) (by simp [State.lockedSec, hcommits]) hdrained
    (State.barWaits_none _ _ (s.installed_kinds hkinds))
    (State.recallWait_unheld fun c _ _ => State.recallRange_none (s := s.waitSet w) hguest hcopies c.pa 8)
    ((State.ends_waitSet hguest hcopies hkinds hunseen _).trans hends)
  have hvalue : (s.waitSet w).waitValue (s.waitSet w).me.grp
      ((s.waitSet w).evalWait (s.waitSet w).cur (s.waitSet w).me.grp (fun _ => true) (s.installed w)) status =
        s.waitValue s.me.grp (s.evalWait s.cur s.me.grp (fun _ => true) w) status := by
    rw [State.waitSet_grp, ← State.waitValue_unpolled]
    exact (congrArg (fun r => (s.waitSet w).waitValue s.me.grp r status) (State.evalWait_waitSet hguest hcopies hkinds hunseen)).trans
      (s.waitValue_unpolled s.me.grp _ status)
  have hacquired : (s.waitSet w).acquired s.cur = (s.acquired s.cur).setSlot s.cur { s.me with wait := some (s.installed w) } := rfl
  rw [hbegin, hvalue, finish_next]
  rw [show (s.waitSet w).cur = s.cur from rfl, hacquired]
  exact congrArg (fun t : State => (.next t.advance : Out)) (State.waitDone_setSlot (s.acquired s.cur) rfl w.dst _)

/-- A wait on no barrier that goes on stands at the slot with its evaluation, its monitors installed (R123). -/
theorem State.beginWait_signals_stays (hends : (s.evalWait s.cur s.me.grp (fun _ => true) w).ends (decide (w.deadline ≤ w.start)) = none) :
    ∃ cs, finish (s.beginWait w) = .next (s.modMe fun q => { q with wait := some { w with conds := cs }, st := .waiting }) ∧
      cs.map Cond.unpolled = (s.evalWait s.cur s.me.grp (fun _ => true) w).conds.map Cond.unpolled := by
  have hbegin := State.beginWait_stays (s := s) (w := w) (by simp [State.lockedSec, hcommits]) hdrained
    (State.barWaits_none _ _ (s.installed_kinds hkinds))
    (State.recallWait_unheld fun c _ _ => State.recallRange_none (s := s.waitSet w) hguest hcopies c.pa 8)
    ((State.ends_waitSet hguest hcopies hkinds hunseen _).trans hends)
  refine ⟨((s.waitSet w).evalWait s.cur (s.waitSet w).me.grp (fun _ => true) (s.installed w)).conds, ?_, ?_⟩
  · rw [hbegin, finish_left]
    refine congrArg (fun t : State => (.next t : Out)) ?_
    simp only [State.modMe_eq, State.waitSet_me]
    exact State.setSlot_setSlot s s.cur _ _
  · rw [State.waitSet_grp]
    exact congrArg Wait.conds (State.evalWait_waitSet hguest hcopies hkinds hunseen)

end Signals

/-! ### The wait instruction (R332) -/

/-- No element that fails a test is found where all pass. -/
theorem firstBad_none {cs : List Cond} {f : Cond → Bool} (h : ∀ c ∈ cs, f c = false) : firstBad cs f = none := by
  refine List.find?_eq_none.mpr fun i _ => ?_
  cases hget : cs[i]? with
  | none => simp
  | some c => simp [h c (List.mem_of_getElem? hget)]

section Block
variable {s : State} (hacts : s.acts) {a b c : Reg} {all : Bool} {n : BitVec 2} {imm : Word}
include hacts

theorem exec_wait_misaligned (hal : (s.x b + imm).toNat % 16 ≠ 0) :
    exec (.wait a b c all n imm) s = .next (s.takeTrap s.cur Cause.misaligned (s.x b + imm) 0) := by
  refine (guarded_acts hacts _).trans ?_
  rw [waitBlock, ea, if_pos hal, finish_trap]

theorem exec_wait_outside (hal : (s.x b + imm).toNat % 16 = 0)
    (hout : s.myCore.utop.toNat * 256 < (s.x b + imm).toNat + 16 * (n.toNat + 1)) :
    exec (.wait a b c all n imm) s = .next (s.takeTrap s.cur Cause.permission (s.x b + imm) 0) := by
  refine (guarded_acts hacts _).trans ?_
  rw [waitBlock, ea, if_neg (not_not_intro hal), if_pos hout, finish_trap]

/-- The conditions of a block. -/
def State.blockConds (s : State) (e n : Nat) : List Cond := (List.range n).map fun i => condOf (s.tcmRead (coreOf s.cur) (e + 16 * i) 16)

/-- A block in order begins its wait (orders 1 to 7 of R332). -/
theorem exec_wait_begins {s1 : State} {cs1 : List Cond} (hal : (s.x b + imm).toNat % 16 = 0)
    (hin : (s.x b + imm).toNat + 16 * (n.toNat + 1) ≤ s.myCore.utop.toNat * 256)
    (hclean : s.tcmPoison (coreOf s.cur) (s.x b + imm).toNat (16 * (n.toNat + 1)) = false)
    (hgood : ∀ k ∈ s.blockConds (s.x b + imm).toNat (n.toNat + 1), k.bad = false ∧ k.skewed = false)
    (hxlate : s.condsXlate (s.blockConds (s.x b + imm).toNat (n.toNat + 1)) = .ok cs1 s1)
    (hready : ∀ k ∈ cs1, k.kind ≠ 2 ∧ (k.kind = 4 → s1.chanMember s1.cur k.par.toNat = true)) :
    exec (.wait a b c all n imm) s = finish (s1.beginWait (s1.mkWait .waitI cs1 all a (s.x c).toNat)) := by
  have hsound : s.poisonWord (coreOf s.cur) false (s.x b + imm).toNat (16 * (n.toNat + 1)) = none := State.poisonWord_of_clean hclean
  have hbad : firstBad (s.blockConds (s.x b + imm).toNat (n.toNat + 1)) Cond.bad = none := firstBad_none fun k hk => (hgood k hk).1
  have hskew : (s.blockConds (s.x b + imm).toNat (n.toNat + 1)).find? Cond.skewed = none :=
    List.find?_eq_none.mpr fun k hk => Bool.eq_false_iff.mp (hgood k hk).2
  have hbuffers : ∀ k ∈ cs1, (k.kind == 2) = false := fun k hk => beq_eq_false_iff_ne.mpr (hready k hk).1
  have hgo : waitGo (s.x b + imm) cs1 all a (s.x c).toNat s1 = s1.beginWait (s1.mkWait .waitI cs1 all a (s.x c).toNat) := by
    have hbound : firstBad cs1 (fun c => c.kind == 2 && (s1.cbOf (coreOf s1.cur) c.par.toNat).isNone) = none :=
      firstBad_none fun k hk => by rw [hbuffers k hk, Bool.false_and]
    have hmember : firstBad cs1 (fun c => c.kind == 4 && !s1.chanMember s1.cur c.par.toNat) = none :=
      firstBad_none fun k hk => by
        rcases hkind : k.kind == 4 with _ | _
        · rfl
        · rw [(hready k hk).2 (beq_iff_eq.mp hkind)]; rfl
    have hnone : (cs1.filter fun c => c.kind == 2) = [] := List.filter_eq_nil_iff.mpr fun k hk => Bool.eq_false_iff.mp (hbuffers k hk)
    simp only [waitGo, hbound, hmember, hnone, List.foldr_nil]
  refine (guarded_acts hacts _).trans ?_
  rw [waitBlock, ea, if_neg (not_not_intro hal), if_neg (Nat.not_lt.mpr hin), hsound]
  simp only [State.blockConds] at hbad hskew hxlate
  simp only [hbad, hskew, hxlate, Got.andThen, hgo]

end Block

end Sys2Proof.Machine
end

section
/-! PROOF. Barriers in memory, and an arrival at one (R63, R116, R117, R130, R334). -/

namespace Sys2Proof.Machine

/-! ### The bytes of a barrier (R116, R117) -/

theorem field_memRead (m : Mem) (p : Nat) {n off k : Nat} (h : off + k ≤ n) : field (memRead m p n) off k = natOf (memRead m (p + off) k) := by
  refine congrArg natOf (List.ext_getElem? fun i => ?_)
  rw [List.getElem?_take, List.getElem?_drop, getElem?_memRead, getElem?_memRead, Nat.add_assoc]
  split
  · rw [if_pos (by omega)]
  · rfl

theorem length_patch {bs new : List Byte} {off : Nat} (h : off + new.length ≤ bs.length) : (patch bs off new).length = bs.length := by
  simp only [patch, List.length_append, List.length_take, List.length_drop]
  omega

theorem getElem?_patch {bs new : List Byte} {off : Nat} (h : off + new.length ≤ bs.length) (i : Nat) :
    (patch bs off new)[i]? = if off ≤ i ∧ i < off + new.length then new[i - off]? else bs[i]? := by
  have htake : (bs.take off).length = off := List.length_take_of_le (by omega)
  rw [patch, List.append_assoc, List.getElem?_append, htake]
  by_cases hlow : i < off
  · rw [if_pos hlow, if_neg (by omega), List.getElem?_take_of_lt hlow]
  · rw [if_neg hlow, List.getElem?_append]
    by_cases hmid : i - off < new.length
    · rw [if_pos hmid, if_pos (by omega)]
    · rw [if_neg hmid, if_neg (by omega), List.getElem?_drop, show off + new.length + (i - off - new.length) = i by omega]

theorem getElem?_field (bs : List Byte) (off n i : Nat) : ((bs.drop off).take n)[i]? = if i < n then bs[off + i]? else none := by
  rw [List.getElem?_take, List.getElem?_drop]

section Patch
variable {bs : List Byte} {off n : Nat} (h : off + n ≤ bs.length) (v : Nat)
include h

theorem length_patch_bytesOf : (patch bs off (bytesOf n v)).length = bs.length := length_patch (by rwa [length_bytesOf])

theorem field_patch_same : field (patch bs off (bytesOf n v)) off n = v % 256 ^ n := by
  rw [← natOf_bytesOf]
  refine congrArg natOf (List.ext_getElem? fun i => ?_)
  rw [getElem?_field, getElem?_patch (by rwa [length_bytesOf]), Nat.add_sub_cancel_left, length_bytesOf]
  split
  · rw [if_pos (by omega)]
  · rw [List.getElem?_eq_none (by rw [length_bytesOf]; omega)]

theorem field_patch_apart {pos k : Nat} (hapart : pos + k ≤ off ∨ off + n ≤ pos) : field (patch bs off (bytesOf n v)) pos k = field bs pos k := by
  refine congrArg natOf (List.ext_getElem? fun i => ?_)
  rw [getElem?_field, getElem?_field, getElem?_patch (by rwa [length_bytesOf]), length_bytesOf]
  split
  · rw [if_neg (by omega)]
  · rfl

end Patch

/-- What an arrival leaves in the barrier (R117). -/
theorem barAfter_fields {bs : List Byte} (hlen : bs.length = 64) (n o : Nat) (hcount : field bs 0 4 ≠ 0) :
    let new := (barAfter bs n o).1
    let sum := field bs 4 4 + n
    new.length = 64 ∧ field new 0 4 = field bs 0 4 ∧ field new 4 4 = sum % field bs 0 4 ∧
    field new 8 4 = (field bs 8 4 + sum / field bs 0 4) % 2 ^ 32 ∧
    field new 12 1 = (if sum < field bs 0 4 then field bs 12 1 else if sum = field bs 0 4 then field bs 12 1 % 4 else (field bs 12 1 ||| 1) % 4) ∧
    field new 16 8 = o % 2 ^ 64 := by
  intro new sum
  have hfield : ∀ off n, off + n ≤ 64 → field bs off n < 256 ^ n := fun off n h => by
    have := natOf_lt ((bs.drop off).take n)
    rwa [List.length_take, List.length_drop, hlen, Nat.min_eq_left (by omega)] at this
  have hc := hfield 0 4 (by decide)
  have hg := hfield 8 4 (by decide)
  by_cases hfull : field bs 0 4 ≤ sum
  · have hnew : new = patch (patch (patch (patch bs 4 (bytesOf 4 (sum % field bs 0 4))) 8 (bytesOf 4 (field bs 8 4 + sum / field bs 0 4))) 12
        (bytesOf 1 (if field bs 0 4 < sum then field bs 12 1 % 4 ||| 1 else field bs 12 1 % 4))) 16 (bytesOf 8 o) := by
      simp only [new, barAfter]
      rw [if_pos hfull]
    have hsum : sum % field bs 0 4 < 256 ^ 4 := (Nat.mod_lt _ (Nat.pos_of_ne_zero hcount)).trans hc
    have hlen1 := (length_patch_bytesOf (bs := bs) (off := 4) (n := 4) (by omega) (sum % field bs 0 4)).trans hlen
    have hlen2 := (length_patch_bytesOf (off := 8) (n := 4) (by rw [hlen1]; decide) (field bs 8 4 + sum / field bs 0 4)).trans hlen1
    have hlen3 := (length_patch_bytesOf (off := 12) (n := 1) (by rw [hlen2]; decide)
      (if field bs 0 4 < sum then field bs 12 1 % 4 ||| 1 else field bs 12 1 % 4)).trans hlen2
    rw [hnew]
    refine ⟨(length_patch_bytesOf (by omega) o).trans hlen3, ?_, ?_, ?_, ?_, field_patch_same (by omega) o⟩
    · rw [field_patch_apart (by omega) o (by omega), field_patch_apart (by omega) _ (by omega), field_patch_apart (by omega) _ (by omega),
        field_patch_apart (by omega) _ (by omega)]
    · rw [field_patch_apart (by omega) o (by omega), field_patch_apart (by omega) _ (by omega), field_patch_apart (by omega) _ (by omega),
        field_patch_same (by omega), Nat.mod_eq_of_lt hsum]
    · rw [field_patch_apart (by omega) o (by omega), field_patch_apart (by omega) _ (by omega), field_patch_same (by omega)]
      rfl
    · rw [field_patch_apart (by omega) o (by omega), field_patch_same (by omega)]
      have hlow : field bs 12 1 % 4 < 4 := Nat.mod_lt _ (by decide)
      by_cases hover : field bs 0 4 < sum
      · have hor : (field bs 12 1 ||| 1) % 4 = field bs 12 1 % 4 ||| 1 := Nat.or_mod_two_pow (n := 2)
        have hsmall : field bs 12 1 % 4 ||| 1 < 2 ^ 2 := Nat.or_lt_two_pow hlow (by decide)
        rw [if_pos hover, if_neg (by omega), if_neg (by omega), hor, Nat.mod_eq_of_lt (by omega)]
      · rw [if_neg hover, if_neg (by omega), if_pos (by omega), Nat.mod_eq_of_lt (by omega)]
  · have hnew : new = patch (patch bs 4 (bytesOf 4 sum)) 16 (bytesOf 8 o) := by
      simp only [new, barAfter]
      rw [if_neg hfull]
    have hsum : sum % field bs 0 4 = sum ∧ sum / field bs 0 4 = 0 := ⟨Nat.mod_eq_of_lt (by omega), Nat.div_eq_of_lt (by omega)⟩
    have hlen1 := (length_patch_bytesOf (bs := bs) (off := 4) (n := 4) (by omega) sum).trans hlen
    rw [hnew, hsum.1, hsum.2, if_pos (by omega)]
    refine ⟨(length_patch_bytesOf (by omega) o).trans hlen1, ?_, ?_, ?_, ?_, field_patch_same (by omega) o⟩
    · rw [field_patch_apart (by omega) o (by omega), field_patch_apart (by omega) sum (by omega)]
    · rw [field_patch_apart (by omega) o (by omega), field_patch_same (by omega) sum, Nat.mod_eq_of_lt (by omega)]
    · rw [field_patch_apart (by omega) o (by omega), field_patch_apart (by omega) sum (by omega), Nat.add_zero]
      exact (Nat.mod_eq_of_lt hg).symm
    · rw [field_patch_apart (by omega) o (by omega), field_patch_apart (by omega) sum (by omega)]

/-! ### A write of device memory at a place that stands open (R63, R117, R130) -/

/-- The state t differs from s in its books of dirty sectors alone. -/
def State.DirtyOnly (s t : State) : Prop := ∃ d o f, t = { s with dirty := d, wbOrs := o, fresh := f }

theorem State.DirtyOnly.refl (s : State) : s.DirtyOnly s := ⟨_, _, _, rfl⟩

theorem State.DirtyOnly.trans {s t u : State} (h : s.DirtyOnly t) (g : t.DirtyOnly u) : s.DirtyOnly u := by
  obtain ⟨_, _, _, rfl⟩ := h
  obtain ⟨d, o, f, rfl⟩ := g
  exact ⟨d, o, f, rfl⟩

theorem State.DirtyOnly.foldl {α : Type} {f : State → α → State} (h : ∀ (t : State) a, t.DirtyOnly (f t a)) (s : State) (l : List α) : s.DirtyOnly (l.foldl f s) := by
  induction l generalizing s with
  | nil => exact .refl s
  | cons a rest ih => exact (h s a).trans (ih (f s a))

theorem State.writeBack1_dirtyOnly (s : State) (sec : Nat) : s.DirtyOnly (s.writeBack1 sec) := by
  unfold State.writeBack1
  simp only
  split
  · exact .refl s
  · split <;> exact ⟨_, _, _, rfl⟩

theorem State.makeDirty_dirtyOnly (s : State) (inter : Bool) (sec : Nat) : s.DirtyOnly (s.makeDirty inter sec) := by
  have hroom : s.DirtyOnly (s.makeRoom inter sec) := by
    unfold State.makeRoom
    simp only
    split
    · exact .refl s
    · split
      · exact .refl s
      · exact State.DirtyOnly.trans ⟨_, _, _, rfl⟩ (.foldl State.writeBack1_dirtyOnly _ _)
  have hshadow : ∀ t : State, t.DirtyOnly (t.shadow inter sec) := fun t => by
    unfold State.shadow
    split <;> exact ⟨_, _, _, rfl⟩
  exact hroom.trans (hshadow _)

/-- What a write of device memory leaves: the bytes in the memory, everything else that holds bytes as it was, and of its own slot no more than the wait changed
(which a notice reaches, R124). -/
structure State.Wrote (s t : State) (p : Nat) (bs : List Byte) : Prop where
  mem : t.mem = memWrite s.mem p bs
  hostMem : t.hostMem = s.hostMem
  cores : t.cores = s.cores
  scratch : ∀ g, (t.grove g).scratch = (s.grove g).scratch
  guest : t.guest = s.guest
  commits : t.commits = s.commits
  cur : t.cur = s.cur
  me : ∃ o, t.me = { s.me with wait := o }

theorem State.devWrite_wrote (s : State) (p : Nat) (inter : Bool) (bs : List Byte) : s.Wrote (s.devWrite p inter bs) p bs := by
  have hdirty : s.DirtyOnly ((sectorsOf p bs.length).foldl (fun st sec => st.makeDirty inter sec) s) :=
    .foldl (fun t sec => t.makeDirty_dirtyOnly inter sec) s _
  obtain ⟨d, o, f, hdirty⟩ := hdirty
  unfold State.devWrite
  simp only [hdirty]
  exact ⟨rfl, rfl, rfl, fun _ => rfl, rfl, rfl, rfl, _, rfl⟩

theorem State.scratch_setGrove {s : State} {g : Nat} {v : Grove} (hv : v.scratch = (s.grove g).scratch) (n : Nat) :
    ((s.setGrove g v).grove n).scratch = (s.grove n).scratch := by
  by_cases hn : n = g
  · subst hn
    rw [State.grove_setGrove_same, hv]
  · rw [State.grove_setGrove_ne _ _ hn]

theorem State.Wrote.traceAdd {s t : State} {p : Nat} {bs : List Byte} (h : s.Wrote t p bs) (home kind size a src : Nat) :
    s.Wrote (t.traceAdd home kind size a src) p bs := by
  obtain ⟨hmem, hhost, hcores, hscratch, hguest, hcommits, hcur, hme⟩ := h
  unfold State.traceAdd
  simp only
  split
  · exact ⟨hmem, hhost, hcores, hscratch, hguest, hcommits, hcur, hme⟩
  · refine ⟨hmem, hhost, hcores, fun g => (State.scratch_setGrove ?_ g).trans (hscratch g), hguest, hcommits, hcur, hme⟩
    rfl

theorem State.Wrote.notify {s t : State} {p : Nat} {bs : List Byte} (h : s.Wrote t p bs) (sec : Nat) : s.Wrote (t.notify sec) p bs := by
  obtain ⟨hmem, hhost, hcores, hscratch, hguest, hcommits, hcur, o, hme⟩ := h
  refine ⟨hmem, hhost, hcores, fun g => ?_, hguest, hcommits, hcur, ?_⟩
  · have hfind := PMap.find_map_value t.groves (fun _ (q : Grove) => { q with parks := q.parks.map fun (pk : Park) => { pk with wait := pk.wait.noticed sec } }) g
    rw [← hscratch g]
    simp only [State.grove, State.notify, PMap.get, hfind]
    cases PMap.find t.groves g <;> rfl
  · have hfind := PMap.find_map_value t.slots (fun _ (q : Slot) => { q with wait := q.wait.map fun (w : Wait) => w.noticed sec }) t.cur
    have hslot : ∃ o, (t.notify sec).me = { t.me with wait := o } := by
      simp only [State.me, State.slot, State.notify, PMap.get, hfind]
      cases PMap.find t.slots t.cur with
      | none => exact ⟨_, rfl⟩
      | some q => exact ⟨_, rfl⟩
    obtain ⟨o', hslot⟩ := hslot
    exact ⟨o', by rw [hslot, hme]⟩

theorem State.poke_device (s : State) {p : Nat} (inter : Bool) (bs : List Byte) (hdevice : p < 2 ^ 38) : s.poke p inter bs = s.devWrite p inter bs := by
  have hregion : s.regionOf p = .device := if_pos hdevice
  rw [State.poke, hregion]

theorem State.perform_wrote {s : State} {p : Nat} {bs : List Byte} (hdevice : p < 2 ^ 38) (hrecall : s.recallRange p bs.length = s) (slot : Nat) (inter sig : Bool) (kind : Nat) :
    s.Wrote (s.perform slot p inter bs sig kind) p bs := by
  unfold State.perform
  rw [hrecall]
  simp only [State.poke_device s inter bs hdevice]
  have hput := (s.devWrite_wrote p inter bs).traceAdd (s.home p inter) kind bs.length p (s.source slot)
  split
  · exact hput.notify _
  · exact hput

theorem State.Wrote.byteAt {s t : State} {p : Nat} {bs : List Byte} (h : s.Wrote t p bs) {q : MemAt} (hq : ∀ j, j < bs.length → q ≠ .device (p + j)) :
    t.byteAt q = s.byteAt q := by
  obtain ⟨hmem, hhost, hcores, hscratch, -⟩ := h
  cases q with
  | device a =>
    simp only [State.byteAt, hmem]
    refine memByte_memWrite_apart _ ?_
    by_contra hin
    exact hq (a - p) (by omega) (by rw [Nat.add_sub_cancel' (by omega)])
  | host a => simp only [State.byteAt, hhost]
  | tcm c a => simp only [State.byteAt, State.core, hcores]
  | scratch g a => simp only [State.byteAt, hscratch]

/-! ### An arrival at a barrier (R117, R334) -/

theorem exec_barArrive_illegal {s : State} (hacts : s.acts) (a b : Reg) {n : BitVec 27} (hn : n = 0 ∨ 65535 < n.toNat) :
    exec (.barArrive a b n) s = .next (s.takeTrap s.cur Cause.illegal 0 0) := by
  refine (guarded_acts hacts _).trans ?_
  rw [if_pos (by simpa using hn), finish_trap]

/-- The checks of a barrier operand pass (R116). -/
theorem State.barrier_sound {s s1 : State} {e : Word} {acc : Access} {p : Nat} {inter : Bool} (hin : e.toNat < 2 ^ 48) (hal : e.toNat % 64 = 0)
    (hxlate : s.xlate acc .plain e 64 true e = .ok (p, inter) s1) (hclean : s1.poisoned p 64 = false) : s.barrier e acc = .ok (p, inter) s1 := by
  have hplace : s.place .glob false e 64 64 = .glob e true := by
    simp only [State.place, if_neg (Nat.not_le.mpr hin), hal, ne_eq, not_true_eq_false, if_false]
  simp only [State.barrier, hal, hplace, hxlate, Got.bind, hclean, ne_eq, not_true_eq_false, if_false, Bool.false_eq_true]

/-- A word of the barrier at a place. -/
def State.barWord (s : State) (p off : Nat) : Nat := natOf (memRead s.mem (p + off) 4)

/-- The barrier at a place is unusable or BROKEN (R116, R117). -/
def State.BarDead (s : State) (p : Nat) : Prop := s.barWord p 0 = 0 ∨ natOf (memRead s.mem (p + 12) 1) / 2 % 2 = 1

theorem barDead_memRead (s : State) (p : Nat) {n : Nat} (h : 13 ≤ n) : barDead (memRead s.mem p n) = true ↔ s.BarDead p := by
  rw [barDead, field_memRead s.mem p (show 0 + 4 ≤ n by omega), field_memRead s.mem p (show 12 + 1 ≤ n by omega)]
  simp only [bitAt, Bool.or_eq_true, beq_iff_eq, pow_one]
  rfl

theorem State.peek_openAt {s : State} {p n k : Nat} (hopen : s.openAt p n) (h : k ≤ n) : s.peek p k = memRead s.mem p k := if_pos (by have := hopen.1; omega)

section Arrive
variable {s s1 : State} {a b : Reg} {n : BitVec 27} {p : Nat} {inter : Bool} (hacts : s.acts) (hlow : 0 < n.toNat) (hhigh : n.toNat ≤ 65535)
  (hin : (s.x b).toNat < 2 ^ 48) (hal : (s.x b).toNat % 64 = 0) (hxlate : s.xlate .atomic .plain (s.x b) 64 true (s.x b) = .ok (p, inter) s1)
  (hcol : s1.me.collecting = false) (hout : s1.allOut) (hquiet : s1.quietAt p 64)
include hacts hlow hhigh hin hal hxlate hcol hout

theorem exec_barArrive_arrives (hclean : s1.poisoned p 64 = false) : exec (.barArrive a b n) s = finish (barAt a n.toNat p inter (s.x b) s1) := by
  have hn : ¬ (n = 0 ∨ 65535 < n.toNat) := by
    rintro (rfl | h)
    · exact absurd hlow (by decide)
    · omega
  refine (guarded_acts hacts _).trans ?_
  rw [if_neg (by simpa using hn), State.barrier_sound hin hal hxlate hclean]
  simp only [Got.andThen, hcol, Bool.false_eq_true, if_false]
  rw [State.release_of_allOut hout]

end Arrive

/-- A barrier that enters a register changes that register alone (R119). -/
theorem State.barEnter_eq {s t : State} {home p : Nat} (h : s.barEnter home p = some t) : ∃ reg, t = s.setGrove home { s.grove home with barReg := reg } := by
  unfold State.barEnter at h
  simp only at h
  split at h
  · exact ⟨_, (Option.some.inj h).symm⟩
  · split at h
    · exact ⟨_, (Option.some.inj h).symm⟩
    · exact nomatch h

section BarAt
variable {s : State} {p : Nat} {inter : Bool} (hquiet : s.quietAt p 64) (d : Reg) (n : Nat) (addr : Word)
include hquiet

theorem barAt_dead (hdead : s.BarDead p) : barAt d n p inter addr s = .next (s.setX d (barResult 2 (s.barWord p 8))) := by
  obtain ⟨hopen, hdrained⟩ := hquiet
  have hrecall := State.recallRange_openAt hopen (Nat.le_refl 64)
  have hpeek := State.peek_openAt hopen (Nat.le_refl 64)
  have hgen := field_memRead s.mem p (show 8 + 4 ≤ 64 by decide)
  have hbroken : barDead (memRead s.mem p 64) = true := (barDead_memRead s p (by decide)).mpr hdead
  obtain ⟨-, hfree, -, -, -, -, hmix, -⟩ := hopen
  simp only [barAt, hfree, State.mixClash, hmix, hdrained, hrecall, hpeek, hbroken, hgen, Bool.false_and,
    Bool.false_eq_true, if_false, if_true]
  rfl

/-- The barrier after an arrival of n by the slot in turn, with its owner where that runs a task (R116, R117). -/
def State.barArrived (s : State) (p n : Nat) : List Byte × Bool :=
  barAfter (memRead s.mem p 64) n ((s.ownerOf s.cur).getD (field (memRead s.mem p 64) 16 8))

theorem barAt_arrives (hlive : ¬ s.BarDead p) {s2 : State} (henter : s.barEnter (s.home p inter) p = some s2) :
    barAt d n p inter addr s = .next (((s2.perform s2.cur p inter (s.barArrived p n).1 (s.barArrived p n).2 1).mixRecord p 64 inter).setX d
      (barResult 0 (s.barWord p 8))) := by
  obtain ⟨hopen, hdrained⟩ := hquiet
  have hrecall := State.recallRange_openAt hopen (Nat.le_refl 64)
  have hpeek := State.peek_openAt hopen (Nat.le_refl 64)
  have hgen := field_memRead s.mem p (show 8 + 4 ≤ 64 by decide)
  have hme : s2.ownerOf s2.cur = s.ownerOf s.cur := by
    obtain ⟨reg, rfl⟩ := State.barEnter_eq henter
    rfl
  have hsound : barDead (memRead s.mem p 64) = false := Bool.eq_false_iff.mpr (mt (barDead_memRead s p (by decide)).mp hlive)
  obtain ⟨-, hfree, -, -, -, -, hmix, -⟩ := hopen
  simp only [barAt, hfree, State.mixClash, hmix, hdrained, hrecall, hpeek, hsound, hgen, henter, hme, Bool.false_and,
    Bool.false_eq_true, if_false]
  rfl

end BarAt


theorem State.setSlot_advance (s : State) (q : Slot) : (s.setSlot s.cur q).advance = s.setSlot s.cur { q with pc := q.npc } := by
  simp only [State.advance_eq, State.setSlot_cur, State.setSlot_me, State.setSlot_setSlot]

theorem Slot.setXr_npc (q : Slot) (d : Reg) (v : Word) : (q.setXr d v).npc = q.npc := by rw [Slot.setXr_frame]

/-- The registers of a slot that goes on with a value, whatever its wait was. -/
theorem State.setX_advance_me {s t : State} {o : Option Wait} (hme : t.me = { s.me with wait := o }) (d : Reg) (v : Word) :
    (t.setX d v).advance.me.x = (s.me.setXr d v).x ∧ (t.setX d v).advance.me.pc = s.me.npc := by
  have hgone : (t.setX d v).advance.me = { { s.me.setXr d v with wait := o } with pc := (s.me.setXr d v).npc } := by
    rw [State.setX_eq, State.setSlot_advance, State.setSlot_me, hme, Slot.setXr_wait]
  rw [hgone]
  exact ⟨rfl, Slot.setXr_npc _ _ _⟩

theorem natOf_field_of_write {m : Mem} {p : Nat} {bs : List Byte} {off n : Nat} (h : off + n ≤ bs.length) :
    natOf (memRead (memWrite m p bs) (p + off) n) = field bs off n := by
  rw [← field_memRead _ p h, memRead_memWrite_same]

theorem State.Wrote.of_setGrove {s u t : State} {g p : Nat} {v : Grove} {bs : List Byte} (hu : u = s.setGrove g v) (hv : v.scratch = (s.grove g).scratch)
    (h : u.Wrote t p bs) : s.Wrote t p bs := by
  subst hu
  obtain ⟨hmem, hhost, hcores, hscratch, hguest, hcommits, hcur, hme⟩ := h
  exact ⟨hmem, hhost, hcores, fun n => (hscratch n).trans (State.scratch_setGrove hv n), hguest, hcommits, hcur, hme⟩

section Live
variable {s s2 : State} {p : Nat} {inter : Bool} (hquiet : s.quietAt p 64) (n : Nat) (hlive : ¬ s.BarDead p)
  (henter : s.barEnter (s.home p inter) p = some s2)
include hquiet hlive henter

omit hquiet henter in
theorem State.barArrived_fields :
    let new := (s.barArrived p n).1
    let sum := s.barWord p 4 + n
    let flags := natOf (memRead s.mem (p + 12) 1)
    new.length = 64 ∧ field new 0 4 = s.barWord p 0 ∧ field new 4 4 = sum % s.barWord p 0 ∧ field new 8 4 = (s.barWord p 8 + sum / s.barWord p 0) % 2 ^ 32 ∧
    field new 12 1 = (if sum < s.barWord p 0 then flags else if sum = s.barWord p 0 then flags % 4 else (flags ||| 1) % 4) ∧
    (s.me.task ≠ none → field new 16 8 = s.groupDesc s.me.grp % 2 ^ 64) := by
  have hword : ∀ off k, off + k ≤ 64 → field (memRead s.mem p 64) off k = natOf (memRead s.mem (p + off) k) := fun off k h => field_memRead s.mem p h
  have hcount : field (memRead s.mem p 64) 0 4 ≠ 0 := by
    rw [hword 0 4 (by decide)]
    exact fun h => hlive (.inl h)
  obtain ⟨hlen, h0, h4, h8, h12, h16⟩ := barAfter_fields (length_memRead s.mem p 64) n ((s.ownerOf s.cur).getD (field (memRead s.mem p 64) 16 8)) hcount
  rw [hword 0 4 (by decide)] at h0 h4 h8 h12
  rw [hword 4 4 (by decide)] at h4 h8 h12
  rw [hword 8 4 (by decide)] at h8
  rw [hword 12 1 (by decide)] at h12
  refine ⟨hlen, h0, h4, h8, h12, fun htask => h16.trans ?_⟩
  have howner : s.ownerOf s.cur = some (s.groupDesc s.me.grp) := if_pos (Option.isSome_iff_ne_none.mpr htask)
  rw [howner]
  rfl

theorem State.barArrived_wrote : s.Wrote (s2.perform s2.cur p inter (s.barArrived p n).1 (s.barArrived p n).2 1) p (s.barArrived p n).1 := by
  obtain ⟨⟨hend, -, -, hcopies, hguest, -⟩, -⟩ := hquiet
  obtain ⟨hlen, -⟩ := State.barArrived_fields n hlive
  obtain ⟨reg, hreg⟩ := State.barEnter_eq henter
  have hrecall : s2.recallRange p (s.barArrived p n).1.length = s2 := by
    rw [hlen]
    exact State.recallRange_unheld (by rw [hreg]; exact hguest) (by rw [hreg]; exact hcopies)
  exact State.Wrote.of_setGrove hreg rfl (State.perform_wrote (by omega) hrecall _ inter _ 1)

/-- A live barrier that has its entry takes an arrival (R117). -/
theorem barAt_takes (d : Reg) (addr : Word) : ∃ t, finish (barAt d n p inter addr s) = .next t ∧
    t.mem = memWrite s.mem p (s.barArrived p n).1 ∧ t.me.x = (s.me.setXr d (barResult 0 (s.barWord p 8))).x ∧ t.me.pc = s.me.npc ∧
    ∀ q, (∀ j, j < 64 → q ≠ .device (p + j)) → t.byteAt q = s.byteAt q := by
  have hwrote := State.barArrived_wrote hquiet n hlive henter
  obtain ⟨hlen, -⟩ := State.barArrived_fields n hlive
  have hlater : ∀ q, (∀ j, j < 64 → q ≠ .device (p + j)) →
      (s2.perform s2.cur p inter (s.barArrived p n).1 (s.barArrived p n).2 1).byteAt q = s.byteAt q := fun q hq => hwrote.byteAt (by rwa [hlen])
  rw [barAt_arrives hquiet d n addr hlive henter, finish_next]
  obtain ⟨⟨-, -, -, -, -, -, hmix, -⟩, -⟩ := hquiet
  generalize s2.perform s2.cur p inter (s.barArrived p n).1 (s.barArrived p n).2 1 = u at hwrote hlater
  obtain ⟨hmem, -, -, -, -, -, -, o, hme⟩ := hwrote
  have hoff : u.me.memMix = false := by rw [hme]; exact hmix
  obtain ⟨hx, hpc⟩ := State.setX_advance_me hme d (barResult 0 (s.barWord p 8))
  rw [State.mixRecord, hoff]
  refine ⟨_, rfl, hmem, hx, hpc, fun q hq => ?_⟩
  exact ((State.sameBytes_setSlot _ _ _ q).trans (State.sameBytes_setSlot _ _ _ q)).trans (hlater q hq)

end Live

theorem barResult_satisfied (g : Nat) : barResult 0 g = BitVec.ofNat 64 (g * 2 ^ 32) := by
  rw [barResult, at_, at_, Nat.zero_mul, Nat.add_zero]

section Arrive
variable {s s1 : State} {a b : Reg} {n : BitVec 27} {p : Nat} {inter : Bool} (hacts : s.acts) (hlow : 0 < n.toNat) (hhigh : n.toNat ≤ 65535)
  (hin : (s.x b).toNat < 2 ^ 48) (hal : (s.x b).toNat % 64 = 0) (hxlate : s.xlate .atomic .plain (s.x b) 64 true (s.x b) = .ok (p, inter) s1)
  (hcol : s1.me.collecting = false) (hout : s1.allOut) (hquiet : s1.quietAt p 64)
include hacts hlow hhigh hin hal hxlate hcol hout hquiet

theorem exec_barArrive_dead (hdead : s1.BarDead p) :
    exec (.barArrive a b n) s = .next (s1.setX a (BitVec.ofNat 64 (s1.barWord p 8 * 2 ^ 32 + 32))).advance := by
  obtain ⟨-, -, -, -, -, hclean, -⟩ := hquiet.1
  rw [exec_barArrive_arrives hacts hlow hhigh hin hal hxlate hcol hout hclean, barAt_dead hquiet a n.toNat (s.x b) hdead, finish_next]
  rfl

theorem exec_barArrive_live (hlive : ¬ s1.BarDead p) {s2 : State} (henter : s1.barEnter (s1.home p inter) p = some s2) :
    ∃ t, exec (.barArrive a b n) s = .next t ∧ t.barWord p 0 = s1.barWord p 0 ∧ t.barWord p 4 = (s1.barWord p 4 + n.toNat) % s1.barWord p 0 ∧
      t.barWord p 8 = (s1.barWord p 8 + (s1.barWord p 4 + n.toNat) / s1.barWord p 0) % 2 ^ 32 ∧
      (let f := natOf (memRead s1.mem (p + 12) 1)
       natOf (memRead t.mem (p + 12) 1) = if s1.barWord p 4 + n.toNat < s1.barWord p 0 then f
        else if s1.barWord p 4 + n.toNat = s1.barWord p 0 then f % 4 else (f ||| 1) % 4) ∧
      (s1.me.task ≠ none → natOf (memRead t.mem (p + 16) 8) = s1.groupDesc s1.me.grp % 2 ^ 64) ∧
      t.me.x = (s1.me.setXr a (BitVec.ofNat 64 (s1.barWord p 8 * 2 ^ 32))).x ∧ t.me.pc = s1.me.npc ∧
      ∀ q, (∀ j, j < 64 → q ≠ .device (p + j)) → t.byteAt q = s1.byteAt q := by
  obtain ⟨-, -, -, -, -, hclean, -⟩ := hquiet.1
  obtain ⟨t, hfinish, hmem, hx, hpc, hbytes⟩ := barAt_takes hquiet n.toNat hlive henter a (s.x b)
  rw [barResult_satisfied] at hx
  obtain ⟨hlen, h0, h4, h8, h12, h16⟩ := State.barArrived_fields n.toNat hlive
  have hfield : ∀ off k, off + k ≤ 64 → natOf (memRead t.mem (p + off) k) = field (s1.barArrived p n.toNat).1 off k := fun off k h => by
    rw [hmem]
    exact natOf_field_of_write (by omega)
  exact ⟨t, (exec_barArrive_arrives hacts hlow hhigh hin hal hxlate hcol hout hclean).trans hfinish, (hfield 0 4 (by decide)).trans h0,
    (hfield 4 4 (by decide)).trans h4, (hfield 8 4 (by decide)).trans h8, (hfield 12 1 (by decide)).trans h12,
    fun htask => (hfield 16 8 (by decide)).trans (h16 htask), hx, hpc, hbytes⟩

end Arrive

end Sys2Proof.Machine
end

section
/-! PROOF. Channels, and an arrival at one (R120, R335). -/

namespace Sys2Proof.Machine

/-! ### An arrival at a channel (R120, R335) -/

/-- The condition that gb.sync waits on. -/
def chanCond (k : Nat) (gen : BitVec 32) : Cond := ⟨4, BitVec.ofNat 12 k, 0, 0, false, false, gen.setWidth 64, false, false, false, false⟩

theorem chanCond_channel {k : Nat} (hk : k < 8) (gen : BitVec 32) : (chanCond k gen).par.toNat % 8 = k := by
  rw [chanCond, BitVec.toNat_ofNat]
  omega

/-- The wait of a gb.sync. -/
def State.chanWait (s : State) (d : Reg) (k : Nat) (gen : BitVec 32) : Wait := s.mkWait .gbSync [chanCond k gen] false d (2 ^ 32)

theorem State.chanWait_deadline (s : State) (d : Reg) (k : Nat) (gen : BitVec 32) : (s.chanWait d k gen).start < (s.chanWait d k gen).deadline := by
  simp only [State.chanWait, State.mkWait]
  split <;> omega

/-- A channel needs no monitor (R124). -/
theorem State.installed_chanWait (s u : State) (d : Reg) (k : Nat) (gen : BitVec 32) : u.installed (s.chanWait d k gen) = s.chanWait d k gen := rfl

theorem State.waitValue_chan {t : State} {grp k : Nat} (hk : k < 8) {ch : Chan} (hchan : t.chanOf grp k = some ch) (gen : BitVec 32) {w : Wait}
    {rest : Cond} (hform : w.form = .gbSync) (hconds : w.conds = [rest]) (hpar : rest.par = (chanCond k gen).par) (status : Nat) :
    t.waitValue grp w status = BitVec.ofNat 64 (at_ ch.gen.toNat 32 + at_ status 4) := by
  simp only [State.waitValue, hform, hconds, hpar, chanCond_channel hk, hchan]

theorem State.evalWait_chan {s t : State} {slot grp k : Nat} (hk : k < 8) {ch : Chan} (hchan : t.chanOf grp k = some ch) (hsound : ch.broken = false)
    (d : Reg) (gen : BitVec 32) :
    t.evalWait slot grp (fun _ => true) (s.chanWait d k gen) =
      { s.chanWait d k gen with conds := [{ chanCond k gen with holds := ch.gen.toNat != gen.toNat }] } := by
  have hopen : t.condOpen (chanCond k gen) = true := rfl
  have hnow : t.condNow slot grp (chanCond k gen) = (ch.gen.toNat != gen.toNat, false) := by
    have hval : (chanCond k gen).val.toNat = gen.toNat := BitVec.toNat_setWidth_of_le (by decide)
    have hkind : (chanCond k gen).kind.toNat = 4 := rfl
    unfold State.condNow
    rw [hkind]
    simp only [chanCond_channel hk, hchan, hsound, hval, Bool.false_eq_true, if_false]
  have hconds : (s.chanWait d k gen).conds = [chanCond k gen] := rfl
  simp only [State.evalWait, hconds, List.map_cons, List.map_nil, hopen, hnow, Bool.and_self, if_true]
  rfl

theorem State.drainSecs_nil (s : State) (slot : Nat) : s.drainSecs slot [] = s.setSlot slot (s.slot slot) := by
  simp [State.drainSecs]

/-- A slot whose wait, on a channel, is installed. -/
def State.waitsOn (s : State) (w : Wait) : State := s.setSlot s.cur { s.me with wait := some w }

theorem State.waitsOn_me (s : State) (w : Wait) : (s.waitsOn w).me = { s.me with wait := some w } := State.setSlot_me s _

/-- A slot behind its wait: what the wait writes, and no wait (R122). -/
def State.waitPast (s : State) (d : Reg) (v : Word) : State := (((s.acquired s.cur).setX d v).modMe fun q => { q with wait := none }).advance

theorem State.waitPast_eq (s : State) (d : Reg) (v : Word) :
    s.waitPast d v = (s.acquired s.cur).setSlot s.cur { s.me.setXr d v with wait := none, pc := s.me.npc } := by
  have hme : (s.acquired s.cur).me = s.me := rfl
  have hnpc := Slot.setXr_npc s.me d v
  simp only [State.waitPast, State.setX_eq, State.modMe_eq, State.advance_eq, State.setSlot_cur, State.setSlot_me, State.setSlot_setSlot, hme, hnpc]
  rfl

theorem State.waitPast_me (s : State) (d : Reg) (v : Word) : (s.waitPast d v).me = { s.me.setXr d v with wait := none, pc := s.me.npc } := by
  rw [State.waitPast_eq]
  exact State.setSlot_me (s.acquired s.cur) _

section Channel
variable {s : State} {d : Reg} {k : Nat} {gen : BitVec 32}

/-- No lock and no store stands before a wait on a channel (R124, R130). -/
theorem State.chanWait_begins (t : State) : (s.chanWait d k gen).secs.any t.lockedSec = false ∧
    t.drainSecs t.cur (s.chanWait d k gen).secs = t.setSlot t.cur t.me ∧
    ((t.setSlot t.cur t.me).waitSet (s.chanWait d k gen)).barWaits ((t.setSlot t.cur t.me).ownerOf (t.setSlot t.cur t.me).cur)
      ((t.setSlot t.cur t.me).installed (s.chanWait d k gen)) = (t.waitsOn (s.chanWait d k gen), s.chanWait d k gen) ∧
    (t.waitsOn (s.chanWait d k gen)).recallWait (fun _ => true) (s.chanWait d k gen) = t.waitsOn (s.chanWait d k gen) := by
  have hcond : ∀ c ∈ (s.chanWait d k gen).conds, c = chanCond k gen := fun c hc => List.mem_singleton.mp hc
  refine ⟨rfl, State.drainSecs_nil t t.cur, ?_, State.recallWait_unheld fun c hc hread => ?_⟩
  · have hset : (t.setSlot t.cur t.me).waitSet (s.chanWait d k gen) = t.waitsOn (s.chanWait d k gen) := by
      simp only [State.waitSet, State.modMe_eq, State.setSlot_cur, State.setSlot_me, State.setSlot_setSlot, State.installed_chanWait]
      rfl
    rw [hset, State.installed_chanWait]
    exact State.barWaits_none _ _ fun c hc => by rw [hcond c hc]; exact (by decide : (4#4) ≠ 3)
  · rw [hcond c hc] at hread
    exact absurd hread (by simp [Cond.reads, chanCond])

variable (hk : k < 8) {t : State} {ch : Chan} (hchan : t.chanOf t.me.grp k = some ch) (hsound : ch.broken = false)
include hk hchan hsound

theorem State.evalWait_waitsOn : (t.waitsOn (s.chanWait d k gen)).evalWait (t.waitsOn (s.chanWait d k gen)).cur (t.waitsOn (s.chanWait d k gen)).me.grp (fun _ => true)
    (s.chanWait d k gen) = { s.chanWait d k gen with conds := [{ chanCond k gen with holds := ch.gen.toNat != gen.toNat }] } := by
  have hgrp : (t.waitsOn (s.chanWait d k gen)).me.grp = t.me.grp := by rw [State.waitsOn_me]
  have hstands : (t.waitsOn (s.chanWait d k gen)).chanOf t.me.grp k = some ch := hchan
  rw [hgrp, State.evalWait_chan hk hstands hsound]

/-- The channel's generation has advanced (R120). -/
theorem State.beginWait_chan_ends (hnew : ch.gen ≠ gen) : ∃ u, finish (t.beginWait (s.chanWait d k gen)) = .next u ∧
    u.me.x = (t.me.setXr d (BitVec.ofNat 64 (ch.gen.toNat * 2 ^ 32))).x ∧ u.me.pc = t.me.npc ∧ u.me.wait = none ∧ u.chanOf t.me.grp k = some ch := by
  obtain ⟨hopen, hdrain, henter, hrecall⟩ := State.chanWait_begins (s := s) (d := d) (k := k) (gen := gen) t
  have heval := State.evalWait_waitsOn (s := s) (d := d) (gen := gen) hk hchan hsound
  have hdiffers : (ch.gen.toNat != gen.toNat) = true := by simpa [BitVec.toNat_inj] using hnew
  rw [hdiffers] at heval
  have hbegin := State.beginWait_ends hopen hdrain henter hrecall (status := 0) (by rw [heval]; rfl)
  have hvalue := State.waitValue_chan (t := t.waitsOn (s.chanWait d k gen)) hk hchan gen
    (w := { s.chanWait d k gen with conds := [{ chanCond k gen with holds := true }] }) rfl rfl rfl 0
  rw [hbegin, heval]
  refine ⟨(t.waitsOn (s.chanWait d k gen)).waitPast d (BitVec.ofNat 64 (ch.gen.toNat * 2 ^ 32)), ?_, ?_⟩
  · have hgrp : (t.waitsOn (s.chanWait d k gen)).me.grp = t.me.grp := by rw [State.waitsOn_me]
    rw [hgrp, hvalue, at_, at_, Nat.zero_mul, Nat.add_zero]
    rfl
  · rw [State.waitPast_me, State.waitsOn_me, Slot.setXr_wait]
    refine ⟨rfl, rfl, rfl, ?_⟩
    rw [State.waitPast_eq]
    exact hchan

/-- The channel's generation stands (R120). -/
theorem State.beginWait_chan_stays (hsame : ch.gen = gen) : ∃ u, finish (t.beginWait (s.chanWait d k gen)) = .next u ∧
    u.me.st = .waiting ∧ u.me.pc = t.me.pc ∧ u.chanOf t.me.grp k = some ch := by
  obtain ⟨hopen, hdrain, henter, hrecall⟩ := State.chanWait_begins (s := s) (d := d) (k := k) (gen := gen) t
  have heval := State.evalWait_waitsOn (s := s) (d := d) (gen := gen) hk hchan hsound
  have hequal : (ch.gen.toNat != gen.toNat) = false := by simp [hsame]
  rw [hequal] at heval
  have htime : decide ((s.chanWait d k gen).deadline ≤ (s.chanWait d k gen).start) = false :=
    decide_eq_false (Nat.not_le.mpr (s.chanWait_deadline d k gen))
  have hbegin := State.beginWait_stays hopen hdrain henter hrecall (by rw [heval, htime]; rfl)
  rw [hbegin, heval, finish_left]
  refine ⟨_, rfl, ?_⟩
  simp only [State.modMe_eq, State.setSlot_me, State.waitsOn_me, true_and]
  exact hchan

end Channel

theorem getElem?_modifyAt {α : Type} (f : α → α) (l : List α) (k : Nat) : (modifyAt f l k)[k]? = l[k]?.map f := by
  induction l generalizing k with
  | nil => rfl
  | cons a rest ih =>
    cases k with
    | zero => rfl
    | succ k => exact ih k

/-- A generation that some member has yet to arrive in stands (R120). -/
theorem Chan.advance_open {members fuel : Nat} {c : Chan} (h : c.arrived.length < members) : Chan.advance members fuel c = c := by
  cases fuel with
  | zero => rfl
  | succ n => exact if_neg (Nat.not_le.mpr h)

/-- The last arrival advances a generation, in which the early arrivals then stand (R120). -/
theorem Chan.advance_once {members fuel : Nat} {c : Chan} (hfull : members ≤ c.arrived.length) (hnext : c.next.length < members) :
    Chan.advance members (fuel + 1) c = { c with gen := c.gen + 1, arrived := c.next, next := [] } :=
  (if_pos hfull).trans (Chan.advance_open hnext)

theorem Chan.arrive_first {c : Chan} {core : Nat} (h : c.arrived.contains core = false) : c.arrive core = { c with arrived := c.arrived ++ [core] } :=
  if_neg (Bool.eq_false_iff.mp h)

section Sync
variable {s : State} {g : Group} {ch : Chan} {k : BitVec 3} (hgroup : s.groups.find s.me.grp = some g) (hchan : g.chans[k.toNat]? = some ch)
include hgroup hchan

theorem State.chanOf_group : s.chanOf s.me.grp k.toNat = some ch := by
  rw [State.chanOf, hgroup]
  exact hchan

/-- The group with a channel put in the place of another. -/
def State.chanPut (s : State) (g : Group) (k : Nat) (new : Chan) : State := s.setGroup s.me.grp { g with chans := modifyAt (fun _ => new) g.chans k }

omit hgroup in
theorem State.chanOf_chanPut (new : Chan) : (s.chanPut g k.toNat new).chanOf s.me.grp k.toNat = some new := by
  have hfind : (s.chanPut g k.toNat new).groups.find s.me.grp = some { g with chans := modifyAt (fun _ => new) g.chans k.toNat } := PMap.find_put_same _ _ _
  rw [State.chanOf, hfind]
  exact (getElem?_modifyAt _ _ _).trans (by rw [hchan]; rfl)

theorem gbArrive_broken (d : Reg) (hbroken : ch.broken = true) :
    gbArrive d k.toNat s = .next ((s.acquired s.cur).setX d (BitVec.ofNat 64 (ch.gen.toNat * 2 ^ 32 + 32))) := by
  have hstands := State.chanOf_group hgroup hchan
  have hvalue := State.waitValue_chan (t := s) k.isLt hstands ch.gen (w := s.chanWait d k.toNat ch.gen) rfl rfl rfl 2
  simp only [gbArrive, hstands, hgroup, hbroken, if_true]
  exact congrArg (fun v => Eff.next ((s.acquired s.cur).setX d v)) hvalue

theorem gbArrive_sound (d : Reg) (hsound : ch.broken = false) (hfirst : ch.arrived.contains (coreOf s.cur) = false) :
    gbArrive d k.toNat s = (s.chanPut g k.toNat (Chan.advance (g.members k.toNat) 2 { ch with arrived := ch.arrived ++ [coreOf s.cur] })).beginWait
      (s.chanWait d k.toNat ch.gen) := by
  have hput : ∀ f, s.modGroup s.me.grp f = s.setGroup s.me.grp (f g) := fun f => by rw [State.modGroup, hgroup]
  simp only [gbArrive, State.chanOf_group hgroup hchan, hgroup, hsound, hput, Chan.arrive_first hfirst, Bool.false_eq_true, if_false]
  rfl

end Sync

section Exec
variable {s : State} (hacts : s.acts) {k : BitVec 3} (hcol : s.me.collecting = false) (hout : s.allOut) (hmember : s.chanMember s.cur k.toNat = true)
  {g : Group} {ch : Chan} (hgroup : s.groups.find s.me.grp = some g) (hchan : g.chans[k.toNat]? = some ch)
  (hfirst : ch.arrived.contains (coreOf s.cur) = false)
include hacts hcol hout hmember

theorem exec_gbSync_arrives (r : BitVec 4) : exec (.gbSync r k) s = finish (gbArrive (r.setWidth 5) k.toNat s) := by
  refine (guarded_acts hacts _).trans ?_
  rw [hcol, hmember, State.release_of_allOut hout]
  rfl

include hgroup hchan

theorem exec_gbSync_broken (r : BitVec 4) (hbroken : ch.broken = true) : exec (.gbSync r k) s =
    .next ((s.acquired s.cur).setX (r.setWidth 5) (BitVec.ofNat 64 (ch.gen.toNat * 2 ^ 32 + 32))).advance := by
  rw [exec_gbSync_arrives hacts hcol hout hmember, gbArrive_broken hgroup hchan _ hbroken, finish_next]

include hfirst

theorem exec_gbSync_waits (r : BitVec 4) (hsound : ch.broken = false) (hmore : ch.arrived.length + 1 < g.members k.toNat) :
    ∃ t, exec (.gbSync r k) s = .next t ∧ t.me.st = .waiting ∧ t.me.pc = s.me.pc ∧
      t.chanOf s.me.grp k.toNat = some { ch with arrived := ch.arrived ++ [coreOf s.cur] } := by
  have hopen : Chan.advance (g.members k.toNat) 2 { ch with arrived := ch.arrived ++ [coreOf s.cur] } = { ch with arrived := ch.arrived ++ [coreOf s.cur] } :=
    Chan.advance_open (by rwa [List.length_append])
  rw [exec_gbSync_arrives hacts hcol hout hmember, gbArrive_sound hgroup hchan _ hsound hfirst, hopen]
  exact State.beginWait_chan_stays (t := s.chanPut g k.toNat _) k.isLt (State.chanOf_chanPut hchan _) hsound rfl

theorem exec_gbSync_last (r : BitVec 4) (hsound : ch.broken = false) (hlast : ch.arrived.length + 1 = g.members k.toNat)
    (hnext : ch.next.length < g.members k.toNat) :
    ∃ t, exec (.gbSync r k) s = .next t ∧ t.me.x = (s.me.setXr (r.setWidth 5) (BitVec.ofNat 64 ((ch.gen + 1).toNat * 2 ^ 32))).x ∧
      t.me.pc = s.me.npc ∧ t.me.wait = none ∧ t.chanOf s.me.grp k.toNat = some { ch with gen := ch.gen + 1, arrived := ch.next, next := [] } := by
  have hfull : Chan.advance (g.members k.toNat) 2 { ch with arrived := ch.arrived ++ [coreOf s.cur] } =
      { ch with gen := ch.gen + 1, arrived := ch.next, next := [] } :=
    Chan.advance_once (fuel := 1) (c := { ch with arrived := ch.arrived ++ [coreOf s.cur] }) (by rw [List.length_append]; exact hlast.ge) hnext
  have hnew : ch.gen + 1 ≠ ch.gen := by bv_omega
  rw [exec_gbSync_arrives hacts hcol hout hmember, gbArrive_sound hgroup hchan _ hsound hfirst, hfull]
  obtain ⟨u, hu, hx, hpc, hwait, hput⟩ := State.beginWait_chan_ends (s := s) (d := r.setWidth 5) (gen := ch.gen) k.isLt
    (State.chanOf_chanPut (s := s) hchan { ch with gen := ch.gen + 1, arrived := ch.next, next := [] }) hsound hnew
  exact ⟨u, hu, hx, hpc, hwait, hput⟩

end Exec

end Sys2Proof.Machine
end

section
/-! PROOF. A wait on a barrier (R116, R118, R119, R130, R334). -/

namespace Sys2Proof.Machine

/-! ### Stores of the slot itself that stand in no way (R130) -/

theorem State.notify_sbuf (s : State) (sec k : Nat) : ((s.notify sec).slot k).sbuf = (s.slot k).sbuf := by
  have hfind := PMap.find_map_value s.slots (fun _ (q : Slot) => { q with wait := q.wait.map fun (w : Wait) => w.noticed sec }) k
  simp only [State.slot, State.notify, PMap.get, hfind]
  cases PMap.find s.slots k <;> rfl

/-- What performs leaves the buffers as they are (R62). -/
theorem State.strongPut_sbuf (s : State) (slot p : Nat) (inter : Bool) (bs : List Byte) (sig : Bool) (kind k : Nat) :
    ((s.strongPut slot p inter bs sig kind).slot k).sbuf = (s.slot k).sbuf := by
  have hbooks : (((s.recallRange p bs.length).poke p inter bs).traceAdd ((s.recallRange p bs.length).home p inter) kind bs.length p
      ((s.recallRange p bs.length).source slot)).slots = s.slots :=
    congrArg Books.slots ((State.traceAdd_books _ _ _ _ _ _).trans ((State.poke_books _ p inter bs).trans (State.recallRange_books s p bs.length)))
  have hperform : ((s.perform slot p inter bs sig kind).slot k).sbuf = (s.slot k).sbuf := by
    unfold State.perform
    simp only
    split
    · rw [State.notify_sbuf, State.slot, hbooks, State.slot]
    · rw [State.slot, hbooks, State.slot]
  rw [← hperform]
  unfold State.strongPut State.strongDone
  split <;> rfl

theorem State.drainSecs_sbuf (s : State) (k : Nat) (secs : List Nat) :
    ((s.drainSecs k secs).slot k).sbuf = (s.slot k).sbuf.filter fun e => !secs.contains (sectorOf e.pa) := by
  refine (foldl_keeps (obs := fun t => (t.slot k).sbuf) (f := fun t (e : Stored) => t.strongPut k e.pa e.inter e.bytes e.sig 0)
    (fun t e => State.strongPut_sbuf t k e.pa e.inter e.bytes e.sig 0 k) _ _).trans ?_
  simp only [State.slot_setSlot_same]

/-- A slot with no store to some sectors drains none. -/
theorem State.drainSecs_none {s : State} {secs : List Nat} (h : (s.me.sbuf.filter fun e => secs.contains (sectorOf e.pa)) = []) :
    s.drainSecs s.cur secs = s.setSlot s.cur s.me := by
  have hkept : (s.me.sbuf.filter fun e => !secs.contains (sectorOf e.pa)) = s.me.sbuf :=
    List.filter_eq_self.mpr fun e he => by simpa using List.filter_eq_nil_iff.mp h e he
  simp only [State.me] at h hkept
  simp only [State.drainSecs, h, hkept, List.foldl_nil]
  rfl

/-- Where the drain of some sectors changes nothing, the slot buffers no store to them, and it stands in the module's list. -/
theorem State.of_drainSecs_eq {s : State} {secs : List Nat} (h : s.drainSecs s.cur secs = s) :
    (s.me.sbuf.filter fun e => secs.contains (sectorOf e.pa)) = [] ∧ s.setSlot s.cur s.me = s := by
  have hnone : (s.me.sbuf.filter fun e => secs.contains (sectorOf e.pa)) = [] := by
    have hkept := s.drainSecs_sbuf s.cur secs
    rw [h] at hkept
    refine List.filter_eq_nil_iff.mpr fun e he => ?_
    rw [State.me, hkept] at he
    simpa using (List.mem_filter.mp he).2
  exact ⟨hnone, (State.drainSecs_none hnone).symm.trans h⟩

/-- A slot that keeps its buffer, and has no store to some sectors, still drains none of them. -/
theorem State.drainSecs_setSlot {s : State} {secs : List Nat} (h : s.drainSecs s.cur secs = s) {q : Slot} (hq : q.sbuf = s.me.sbuf) :
    (s.setSlot s.cur q).drainSecs s.cur secs = s.setSlot s.cur q := by
  have hnone : ((s.setSlot s.cur q).me.sbuf.filter fun e => secs.contains (sectorOf e.pa)) = [] := by
    rw [State.setSlot_me, hq]
    exact (State.of_drainSecs_eq h).1
  refine (State.drainSecs_none hnone).trans ?_
  rw [State.setSlot_me]
  exact State.setSlot_setSlot s s.cur q q

/-- A read for the signature changes no more of a slot that stands in the list than the signature (R147). -/
theorem State.sigRead_eq {s : State} (hstands : s.setSlot s.cur s.me = s) (p n : Nat) : ∃ sig, s.sigRead s.cur p n = s.setSlot s.cur { s.me with sig := sig } := by
  unfold State.sigRead
  simp only
  split
  · exact ⟨_, rfl⟩
  · exact ⟨s.me.sig, hstands.symm⟩

/-! ### A wait on a barrier (R116, R118, R119, R334) -/

theorem sectorsOf_within (p : Nat) {n off k : Nat} (h : off + k ≤ n) : sectorsOf (p + off) k ⊆ sectorsOf p n := by
  intro sec hsec
  rcases Nat.eq_zero_or_pos k with rfl | hk
  · simp [sectorsOf] at hsec
  · have hlow : p / 128 ≤ (p + off) / 128 := Nat.div_le_div_right (by omega)
    have hhigh : (p + off + k - 1) / 128 ≤ (p + n - 1) / 128 := Nat.div_le_div_right (by omega)
    simp only [sectorsOf, if_neg (show k ≠ 0 by omega), if_neg (show n ≠ 0 by omega), span, List.mem_map, List.mem_range] at hsec ⊢
    obtain ⟨i, hi, rfl⟩ := hsec
    exact ⟨(p + off) / 128 + i - p / 128, by omega, by omega⟩

/-- The device's own write at an open place of the module's memory performs at once (R139). -/
theorem State.recWrite_wrote {s : State} {p off : Nat} {bs : List Byte} (hdevice : p + off < 2 ^ 38) (hcommits : s.commits = [])
    (hrecall : s.recallRange (p + off) bs.length = s) : s.Wrote (s.recWrite p off bs) (p + off) bs := by
  have hregion : s.regionOf (p + off) = .device := if_pos hdevice
  have hgoes : s.mustWait (p + off) bs.length = false := by
    simp only [State.mustWait, State.locked, State.hostLinkIn, hcommits, hregion]
    rfl
  have hadmitted : s.hostRefused (p + off) bs.length = none := by
    rw [State.hostRefused, hregion]
  have hput : s.recWrite p off bs = s.devWrite (p + off) (s.interOf (p + off)) bs := by
    simp only [State.recWrite, State.lateWrite, hgoes, State.latePut, hadmitted, hrecall, State.poke_device s _ bs hdevice, Bool.false_eq_true, if_false]
  rw [hput]
  exact s.devWrite_wrote _ _ _

/-- The condition of a bar.wait. -/
def barCond (e : Addr) (p : Nat) (inter : Bool) (gen : Word) : Cond := ⟨3, 0, e, p, inter, false, gen, false, false, false, false⟩

/-- The wait of a bar.wait. -/
def State.barrierWait (s : State) (d : Reg) (e : Addr) (p : Nat) (inter : Bool) (gen : Word) : Wait :=
  s.mkWait .barWait [barCond e p inter gen] false d (2 ^ 32)

theorem State.barrierWait_deadline (s : State) (d : Reg) (e : Addr) (p : Nat) (inter : Bool) (gen : Word) :
    (s.barrierWait d e p inter gen).start < (s.barrierWait d e p inter gen).deadline := by
  simp only [State.barrierWait, State.mkWait]
  split <;> omega

/-- Installing one condition may find the monitor table full, and changes no more (R124). -/
theorem State.installed_single (s : State) {w : Wait} {c : Cond} (hconds : w.conds = [c]) :
    ∃ polled, s.installed w = { w with conds := [{ c with polled := polled }] } := by
  have hmap := s.install_unpolled (groveOf s.cur) w.conds
  rw [hconds] at hmap
  obtain ⟨c', hc', hsame⟩ := List.map_eq_singleton_iff.mp hmap
  refine ⟨c'.polled, ?_⟩
  rw [State.installed, hconds, hc']
  congr 2
  calc c' = { c'.unpolled with polled := c'.polled } := rfl
    _ = { c with polled := c'.polled } := by rw [hsame]; rfl

/-- What stands of a state s while a slot's wait on a barrier at p begins: everything but the slot's signature and wait, the barrier register, and the barrier's owner,
which a slot that runs no task leaves (R116, log 54). -/
structure State.AtBarrier (s v : State) (p : Nat) : Prop where
  cur : v.cur = s.cur
  guest : v.guest = s.guest
  commits : v.commits = s.commits
  cores : v.cores = s.cores
  me : ∃ sig wait, v.me = { s.me with sig := sig, wait := wait }
  bytes : ∀ q, (∀ j, j < 8 → q ≠ .device (p + 16 + j)) → v.byteAt q = s.byteAt q
  idle : s.me.task = none → s.sameBytes v

/-- The barrier's owner is the slot's group (R116). -/
def State.Owned (s v : State) (p : Nat) : Prop := s.me.task ≠ none → natOf (memRead v.mem (p + 16) 8) = s.groupDesc s.me.grp % 2 ^ 64

theorem State.AtBarrier.setGrove {s v : State} {p g : Nat} (h : s.AtBarrier v p) {k : Grove} (hk : k.scratch = (v.grove g).scratch) :
    s.AtBarrier (v.setGrove g k) p := by
  obtain ⟨hcur, hguest, hcommits, hcores, hme, hbytes, hidle⟩ := h
  exact ⟨hcur, hguest, hcommits, hcores, hme, fun q hq => (State.byteAt_setGrove hk q).trans (hbytes q hq),
    fun htask q => (State.byteAt_setGrove hk q).trans (hidle htask q)⟩

theorem State.ownerOf_task {s : State} (h : s.me.task ≠ none) : s.ownerOf s.cur = some (s.groupDesc s.me.grp) := if_pos (Option.isSome_iff_ne_none.mpr h)

theorem State.ownerOf_idle {s : State} (h : s.me.task = none) : s.ownerOf s.cur = none := by
  have hnone : (s.slot s.cur).task = none := h
  simp [State.ownerOf, hnone]

theorem State.AtBarrier.ownerWritten {s v : State} {p : Nat} (h : s.AtBarrier v p) (hend : p + 64 ≤ 2 ^ 38) (hcommits : s.commits = []) (hguest : s.guest.held = [])
    (hcopies : ∀ sec ∈ sectorsOf p 64, s.updHolders sec = []) :
    s.AtBarrier (v.ownerWritten p (s.ownerOf s.cur)) p ∧ s.Owned (v.ownerWritten p (s.ownerOf s.cur)) p := by
  by_cases htask : s.me.task = none
  · rw [State.ownerOf_idle htask]
    exact ⟨h, fun hsome => absurd htask hsome⟩
  · rw [State.ownerOf_task htask]
    obtain ⟨hcur, hguest', hcommits', hcores, ⟨sig, wait, hme⟩, hbytes, -⟩ := h
    have hrecall : v.recallRange (p + 16) 8 = v := State.recallRange_unheld (by rw [hguest', hguest]) fun sec hsec => by
      rw [State.updHolders, hcores]
      exact hcopies sec (sectorsOf_within p (by decide) hsec)
    have hwrote : v.Wrote (v.recWrite p 16 (bytesOf 8 (s.groupDesc s.me.grp))) (p + 16) (bytesOf 8 (s.groupDesc s.me.grp)) :=
      State.recWrite_wrote (by omega) (hcommits'.trans hcommits) (by rwa [length_bytesOf])
    have hkept : ∀ q, (∀ j, j < 8 → q ≠ .device (p + 16 + j)) → (v.recWrite p 16 (bytesOf 8 (s.groupDesc s.me.grp))).byteAt q = s.byteAt q := fun q hq =>
      (hwrote.byteAt (by rwa [length_bytesOf])).trans (hbytes q hq)
    obtain ⟨hmem, -, hwcores, -, hwguest, hwcommits, hwcur, o, hwme⟩ := hwrote
    refine ⟨⟨hwcur.trans hcur, hwguest.trans hguest', hwcommits.trans hcommits', hwcores.trans hcores, ⟨sig, o, by rw [State.ownerWritten, hwme, hme]⟩, hkept,
      fun hnone => absurd hnone htask⟩, fun _ => ?_⟩
    have hread := memRead_memWrite_same v.mem (p + 16) (bytesOf 8 (s.groupDesc s.me.grp))
    rw [length_bytesOf] at hread
    rw [State.ownerWritten, hmem, hread, natOf_bytesOf]
    rfl

theorem State.AtBarrier.low_bytes {s v : State} {p off k : Nat} (h : s.AtBarrier v p) (hoff : off + k ≤ 16) :
    memRead v.mem (p + off) k = memRead s.mem (p + off) k := by
  refine List.ext_getElem? fun i => ?_
  rw [getElem?_memRead, getElem?_memRead]
  split
  · next hi =>
    have hbyte := h.bytes (.device (p + off + i)) fun j _ => by
      rw [ne_eq, MemAt.device.injEq]
      omega
    exact congrArg some hbyte
  · rfl

theorem State.AtBarrier.barWord {s v : State} {p off : Nat} (h : s.AtBarrier v p) (hoff : off + 4 ≤ 16) : v.barWord p off = s.barWord p off :=
  congrArg natOf (h.low_bytes hoff)

theorem State.AtBarrier.dead_iff {s v : State} {p : Nat} (h : s.AtBarrier v p) : v.BarDead p ↔ s.BarDead p := by
  rw [State.BarDead, State.BarDead, h.barWord (by decide), h.low_bytes (off := 12) (k := 1) (by decide)]

section Evaluate
variable {s v : State} {p : Nat} (hat : s.AtBarrier v p) (hend : p + 64 ≤ 2 ^ 38) (hcommits : s.commits = []) (hguest : s.guest.held = [])
  (hcopies : ∀ sec ∈ sectorsOf p 64, s.updHolders sec = [])
include hat hguest hcopies

theorem State.AtBarrier.recallRange {n : Nat} (hn : n ≤ 64) : v.recallRange p n = v :=
  State.recallRange_unheld (by rw [hat.guest, hguest]) fun sec hsec => by
    rw [State.updHolders, hat.cores]
    exact hcopies sec (sectorsOf_within p (off := 0) (by omega) hsec)

include hend hcommits

/-- How a wait on a barrier evaluates: BROKEN where it is dead, else satisfied where its generation is another (R118). -/
theorem State.AtBarrier.evalWait {x : Wait} {c : Cond} (hconds : x.conds = [c]) (hkind : c.kind = 3) (hpa : c.pa = p) (slot grp : Nat) :
    (s.BarDead p → v.evalWait slot grp (fun _ => true) x = { x with conds := [{ c with holds := false, broke := true, note := false }] }) ∧
    (¬ s.BarDead p → v.evalWait slot grp (fun _ => true) x =
      { x with conds := [{ c with holds := s.barWord p 8 != c.val.toNat, broke := false, note := false }] }) := by
  have hopen : v.condOpen c = true := by
    simp [State.condOpen, State.lockedSec, hat.commits, hcommits]
  have hread : v.homeRead p 16 = memRead v.mem p 16 := by
    rw [State.homeRead, hat.recallRange hguest hcopies (by decide)]
    exact if_pos (by omega)
  have hgen : field (memRead v.mem p 16) 8 4 = s.barWord p 8 := (field_memRead v.mem p (by decide)).trans (hat.barWord (by decide))
  have hnow : v.condNow slot grp c = if barDead (memRead v.mem p 16) then (false, true) else (s.barWord p 8 != c.val.toNat, false) := by
    have hnum : c.kind.toNat = 3 := by rw [hkind]; rfl
    unfold State.condNow
    rw [hnum]
    simp only [hpa, hread, hgen]
  have heval : ∀ r, v.condNow slot grp c = r → v.evalWait slot grp (fun _ => true) x = { x with conds := [{ c with holds := r.1, broke := r.2, note := false }] } := by
    intro r hr
    simp only [State.evalWait, hconds, List.map_cons, List.map_nil, hopen, hr, Bool.and_self, if_true]
  have hdead : barDead (memRead v.mem p 16) = true ↔ s.BarDead p := (barDead_memRead v p (by decide)).trans hat.dead_iff
  exact ⟨fun h => heval _ (hnow.trans (if_pos (hdead.mpr h))), fun h => heval _ (hnow.trans (if_neg (mt hdead.mp h)))⟩

end Evaluate

/-- The status of a wait on one condition (R122). -/
theorem Wait.ends_single {w : Wait} (hall : w.all = false) (c : Cond) (last : Bool) :
    ({ w with conds := [c] } : Wait).ends last = if c.broke then some 2 else if c.holds then some 0 else if last then some 1 else none := by
  simp only [Wait.ends, Wait.verdict, hall, List.any_cons, List.any_nil, Bool.or_false, Bool.false_eq_true, if_false]
  cases c.broke <;> cases c.holds <;> rfl

section Enters
variable {s v : State} {p : Nat} {inter : Bool} (hat : s.AtBarrier v p) (hend : p + 64 ≤ 2 ^ 38) (hcommits : s.commits = []) (hguest : s.guest.held = [])
  (hcopies : ∀ sec ∈ sectorsOf p 64, s.updHolders sec = [])
include hat hend hcommits hguest hcopies

/-- A wait on a barrier enters the register and writes the owner, where the barrier is BROKEN or the register has room; else it only stands (R116, R119). -/
theorem State.AtBarrier.barWaits {x : Wait} {c : Cond} (hconds : x.conds = [c]) (hkind : c.kind = 3) (hnew : c.entered = false) (hpa : c.pa = p)
    (hinter : c.inter = inter) : ∃ u c', v.barWaits (s.ownerOf s.cur) x = (u, { x with conds := [c'] }) ∧ c'.kind = 3 ∧ c'.pa = p ∧ c'.val = c.val ∧
      c'.holds = c.holds ∧ s.AtBarrier u p ∧ (s.BarDead p ∨ v.barEnter (v.home p inter) p ≠ none → s.Owned u p) := by
  have hopen : v.locked c.pa 16 = false := by simp [State.locked, hat.commits, hcommits]
  have hrecall : v.recallRange c.pa 16 = v := by rw [hpa]; exact hat.recallRange hguest hcopies (by decide)
  have hpeek : v.peek c.pa 16 = memRead v.mem p 16 := by rw [hpa]; exact if_pos (by omega)
  have hdead : barDead (memRead v.mem p 16) = true ↔ s.BarDead p := (barDead_memRead v p (by decide)).trans hat.dead_iff
  have henters : ∀ u, v.BarEnters c u → s.AtBarrier u p → ∃ u c', v.barWaits (s.ownerOf s.cur) x = (u, { x with conds := [c'] }) ∧ c'.kind = 3 ∧ c'.pa = p ∧
      c'.val = c.val ∧ c'.holds = c.holds ∧ s.AtBarrier u p ∧ (s.BarDead p ∨ v.barEnter (v.home p inter) p ≠ none → s.Owned u p) := by
    intro u hu hatu
    obtain ⟨hown, howned⟩ := hatu.ownerWritten hend hcommits hguest hcopies
    exact ⟨_, _, State.barWaits_enters hconds hkind hnew _ hu, hkind, hpa, rfl, rfl, by rw [hpa]; exact hown, fun _ => by rw [hpa]; exact howned⟩
  by_cases hbroken : s.BarDead p
  · refine henters v ⟨hopen, .inl ⟨?_, hrecall.symm⟩⟩ hat
    rw [hrecall, hpeek]
    exact hdead.mpr hbroken
  · have hlive : barDead ((v.recallRange c.pa 16).peek c.pa 16) = false := by
      rw [hrecall, hpeek]
      exact Bool.eq_false_iff.mpr (mt hdead.mp hbroken)
    obtain hroom | ⟨u, hroom⟩ := Option.eq_none_or_eq_some (v.barEnter (v.home p inter) p)
    · have hblocked : v.BarBlocked c := .inr ⟨hlive, by rw [hrecall, hpa, hinter]; exact hroom⟩
      refine ⟨v, c, (State.barWaits_blocked hconds hkind hnew _ hblocked).trans (by rw [← hconds]), hkind, hpa, rfl, rfl, hat, ?_⟩
      rintro (h | h)
      · exact absurd h hbroken
      · exact absurd hroom h
    · obtain ⟨reg, hreg⟩ := State.barEnter_eq hroom
      refine henters u ⟨hopen, .inr ⟨hlive, ?_⟩⟩ ?_
      · rw [hrecall, hpa, hinter]
        exact hroom
      · rw [hreg]
        exact hat.setGrove rfl

end Enters

theorem State.byteAt_waitPast (s : State) (d : Reg) (v : Word) (q : MemAt) : (s.waitPast d v).byteAt q = s.byteAt q := by
  rw [State.waitPast_eq]
  exact State.sameBytes_setSlot (s.acquired s.cur) s.cur _ q

/-- What a bar.wait leaves (R118, R122): the owner as the register allows, and by the barrier's state the end of the wait with its status, or the wait. -/
structure State.BarWaited (s t : State) (d : Reg) (p : Nat) (gen : Word) : Prop where
  bytes : ∀ q, (∀ j, j < 8 → q ≠ .device (p + 16 + j)) → t.byteAt q = s.byteAt q
  idle : s.me.task = none → s.sameBytes t
  dead : s.BarDead p → t.me.x = (s.me.setXr d 32).x ∧ t.me.pc = s.me.npc ∧ t.me.wait = none
  past : ¬ s.BarDead p → s.barWord p 8 ≠ gen.toNat → t.me.x = (s.me.setXr d 1).x ∧ t.me.pc = s.me.npc ∧ t.me.wait = none
  waits : ¬ s.BarDead p → s.barWord p 8 = gen.toNat → t.me.x = s.me.x ∧ t.me.pc = s.me.pc ∧ t.me.st = .waiting

theorem Slot.setXr_x {q r : Slot} (h : q.x = r.x) (d : Reg) (v : Word) : (q.setXr d v).x = (r.setXr d v).x := by
  unfold Slot.setXr
  split
  · exact h
  · exact congrArg (fun x => x.set d.toNat v d.isLt) h

/-- A wait on a barrier that ends at once. -/
theorem State.AtBarrier.waitPast {s v : State} {p : Nat} (hat : s.AtBarrier v p) (d : Reg) (val : Word) :
    (v.waitPast d val).me.x = (s.me.setXr d val).x ∧ (v.waitPast d val).me.pc = s.me.npc ∧ (v.waitPast d val).me.wait = none := by
  obtain ⟨sig, wait, hme⟩ := hat.me
  rw [State.waitPast_me]
  exact ⟨Slot.setXr_x (by rw [hme]) d val, by rw [hme], rfl⟩

/-- The value of a wait on one condition (R122). -/
theorem State.waitValue_single (s : State) (grp : Nat) {w : Wait} (hform : w.form = .barWait) (c : Cond) (status : Nat) :
    s.waitValue grp { w with conds := [c] } status = BitVec.ofNat 64 (at_ status 4 + flag c.holds) := by
  simp only [State.waitValue, hform, maskOf, Nat.mul_zero, Nat.add_zero]

section Begin
variable {s : State} {p : Nat} {inter : Bool} (hend : p + 64 ≤ 2 ^ 38) (hcommits : s.commits = []) (hguest : s.guest.held = [])
  (hcopies : ∀ sec ∈ sectorsOf p 64, s.updHolders sec = [])
include hend hcommits hguest hcopies

/-- A wait on a barrier, past its entry, by what it evaluates to. -/
theorem State.AtBarrier.settles {v u : State} {w : Wait} {c : Cond} (hat : s.AtBarrier v p) (hopen : w.secs.any u.lockedSec = false)
    (hdrain : u.drainSecs u.cur w.secs = u) (henter : (u.waitSet w).barWaits (u.ownerOf u.cur) (u.installed w) = (v, { w with conds := [c] }))
    (hform : w.form = .barWait) (hall : w.all = false) (htime : w.start < w.deadline) (hkind : c.kind = 3) (hpa : c.pa = p) :
    ∃ t, finish (u.beginWait w) = .next t ∧ s.BarWaited t w.dst p c.val ∧ ∀ q, t.byteAt q = v.byteAt q := by
  have hrecall : v.recallWait (fun _ => true) { w with conds := [c] } = v := State.recallWait_unheld fun k hk _ => by
    rw [List.mem_singleton.mp hk, hpa]
    exact hat.recallRange hguest hcopies (by decide)
  obtain ⟨hdead, hlive⟩ := hat.evalWait hend hcommits hguest hcopies (x := { w with conds := [c] }) rfl hkind hpa v.cur v.me.grp
  have hlast : decide (w.deadline ≤ w.start) = false := decide_eq_false (Nat.not_le.mpr htime)
  have hkept : ∀ t : State, (∀ q, t.byteAt q = v.byteAt q) →
      (∀ q, (∀ j, j < 8 → q ≠ .device (p + 16 + j)) → t.byteAt q = s.byteAt q) ∧ (s.me.task = none → s.sameBytes t) := fun t ht =>
    ⟨fun q hq => (ht q).trans (hat.bytes q hq), fun hnone q => (ht q).trans (hat.idle hnone q)⟩
  have hends : ∀ {status : Nat} {k : Cond}, v.evalWait v.cur v.me.grp (fun _ => true) { w with conds := [c] } = { w with conds := [k] } →
      ({ w with conds := [k] } : Wait).ends (decide (w.deadline ≤ w.start)) = some status →
      finish (u.beginWait w) = .next (v.waitPast w.dst (BitVec.ofNat 64 (at_ status 4 + flag k.holds))) := by
    intro status k heval hstatus
    rw [State.beginWait_ends hopen hdrain henter hrecall (by rw [heval]; exact hstatus), heval, State.waitValue_single v _ hform]
    rfl
  by_cases hbroken : s.BarDead p
  · obtain ⟨hbytes, hidle⟩ := hkept (v.waitPast w.dst 32) (v.byteAt_waitPast w.dst 32)
    exact ⟨_, hends (status := 2) (hdead hbroken) (Wait.ends_single hall _ _), ⟨hbytes, hidle, fun _ => hat.waitPast w.dst 32, absurd hbroken, absurd hbroken⟩,
      v.byteAt_waitPast w.dst 32⟩
  · by_cases hgen : s.barWord p 8 = c.val.toNat
    · have hholds : (s.barWord p 8 != c.val.toNat) = false := by simpa using hgen
      rw [hholds] at hlive
      have hstays := State.beginWait_stays hopen hdrain henter hrecall (by
        rw [hlive hbroken, hlast]
        exact Wait.ends_single hall _ _)
      have hsame : ∀ q, (v.modMe fun q => { q with wait := some (v.evalWait v.cur v.me.grp (fun _ => true) { w with conds := [c] }), st := .waiting }).byteAt q =
          v.byteAt q := State.sameBytes_setSlot v v.cur _
      obtain ⟨hbytes, hidle⟩ := hkept _ hsame
      obtain ⟨sig, wait, hme⟩ := hat.me
      refine ⟨_, (congrArg finish hstays).trans (finish_left _), ⟨hbytes, hidle, fun h => absurd h hbroken, fun _ h => absurd hgen h, fun _ _ => ?_⟩, hsame⟩
      rw [State.modMe_eq, State.setSlot_me, hme]
      exact ⟨rfl, rfl, rfl⟩
    · have hholds : (s.barWord p 8 != c.val.toNat) = true := by simpa using hgen
      rw [hholds] at hlive
      obtain ⟨hbytes, hidle⟩ := hkept (v.waitPast w.dst 1) (v.byteAt_waitPast w.dst 1)
      exact ⟨_, hends (status := 0) (hlive hbroken) (Wait.ends_single hall _ _), ⟨hbytes, hidle, fun h => absurd h hbroken, fun _ _ => hat.waitPast w.dst 1,
        fun _ h => absurd h hgen⟩, v.byteAt_waitPast w.dst 1⟩

end Begin

/-- A wait of which every condition is on the barrier at a place. -/
def Wait.OnlyOn (w : Wait) (p : Nat) : Prop := ∀ c ∈ w.conds, c.kind = 3 ∧ c.pa = p

/-- The slot in turn with a signature and a wait. -/
def State.waitsAt (s : State) (sig : BitVec 2048) (wait : Option Wait) : State := s.setSlot s.cur { s.me with sig := sig, wait := wait }

theorem State.waitsAt_me (s : State) (sig : BitVec 2048) (wait : Option Wait) : (s.waitsAt sig wait).me = { s.me with sig := sig, wait := wait } :=
  State.setSlot_me s _

theorem State.atBarrier_waitsAt (s : State) (p : Nat) (sig : BitVec 2048) (wait : Option Wait) : s.AtBarrier (s.waitsAt sig wait) p :=
  ⟨rfl, rfl, rfl, rfl, ⟨sig, wait, s.waitsAt_me sig wait⟩, fun q _ => State.sameBytes_setSlot s s.cur _ q, fun _ q => State.sameBytes_setSlot s s.cur _ q⟩

theorem State.ownerOf_waitsAt (s : State) (sig : BitVec 2048) (wait : Option Wait) : (s.waitsAt sig wait).ownerOf s.cur = s.ownerOf s.cur := by
  have hslot : (s.waitsAt sig wait).slot s.cur = { s.me with sig := sig, wait := wait } := s.waitsAt_me sig wait
  simp only [State.ownerOf, hslot]
  rfl

section Begin
variable {s : State} {p : Nat} {inter : Bool} (hcommits : s.commits = []) (hquiet : s.quietAt p 64) (hdrained : s.drainSecs s.cur [p / 128] = s)
include hcommits hquiet hdrained

/-- A bar.wait once its operand is translated: what it leaves, and that it writes the owner where the register of the barrier's home has room while the wait stands at
the slot (R116, R119). -/
theorem State.beginWait_barrier (sig : BitVec 2048) (d : Reg) (e : Addr) (gen : Word) :
    ∃ t x, finish ((s.waitsAt sig s.me.wait).beginWait ((s.waitsAt sig s.me.wait).barrierWait d e p inter gen)) = .next t ∧ s.BarWaited t d p gen ∧
      x.conds ≠ [] ∧ x.OnlyOn p ∧ (s.BarDead p ∨ (s.waitsAt sig (some x)).barEnter (s.home p inter) p ≠ none → s.Owned t p) := by
  obtain ⟨⟨hend, -, -, hcopies, hguest, -⟩, -⟩ := hquiet
  obtain ⟨w, hw⟩ : ∃ w, w = (s.waitsAt sig s.me.wait).barrierWait d e p inter gen := ⟨_, rfl⟩
  obtain ⟨polled, hinst⟩ := (s.waitsAt sig s.me.wait).installed_single (w := w) (c := barCond e p inter gen) (by rw [hw]; rfl)
  have hset : (s.waitsAt sig s.me.wait).waitSet w = s.waitsAt sig (some ((s.waitsAt sig s.me.wait).installed w)) := by
    rw [State.waitSet, State.modMe_eq, State.waitsAt_me]
    exact State.setSlot_setSlot s s.cur _ _
  have honly : ((s.waitsAt sig s.me.wait).installed w).OnlyOn p := by
    rw [hinst]
    intro c hc
    rw [List.mem_singleton.mp hc]
    exact ⟨rfl, rfl⟩
  obtain ⟨v, c, henter, hkind, hpa, hval, -, hat, howned⟩ := (s.atBarrier_waitsAt p sig (some ((s.waitsAt sig s.me.wait).installed w))).barWaits (inter := inter) hend
    hcommits hguest hcopies (x := (s.waitsAt sig s.me.wait).installed w) (c := { barCond e p inter gen with polled := polled }) (by rw [hinst]) rfl rfl rfl rfl
  have hbegin : ((s.waitsAt sig s.me.wait).waitSet w).barWaits ((s.waitsAt sig s.me.wait).ownerOf (s.waitsAt sig s.me.wait).cur)
      ((s.waitsAt sig s.me.wait).installed w) = (v, { w with conds := [c] }) := by
    rw [hset]
    refine (congrArg (fun o => State.barWaits _ o _) (s.ownerOf_waitsAt sig s.me.wait)).trans (henter.trans ?_)
    rw [hinst]
  have hdrain : (s.waitsAt sig s.me.wait).drainSecs (s.waitsAt sig s.me.wait).cur w.secs = s.waitsAt sig s.me.wait := by
    rw [hw]
    exact State.drainSecs_setSlot hdrained rfl
  have hopen : w.secs.any (s.waitsAt sig s.me.wait).lockedSec = false := by
    refine List.any_eq_false.mpr fun sec _ => ?_
    simp [State.lockedSec, State.waitsAt, hcommits]
  obtain ⟨t, ht, hwaited, hbytes⟩ := hat.settles hend hcommits hguest hcopies hopen hdrain hbegin (by rw [hw]; rfl) (by rw [hw]; rfl)
    (by rw [hw]; exact State.barrierWait_deadline _ d e p inter gen) hkind hpa
  rw [← hw]
  refine ⟨t, _, ht, ?_, by rw [hinst]; exact List.cons_ne_nil _ _, honly, fun hroom htask => ?_⟩
  · rw [hval, hw] at hwaited
    exact hwaited
  · have hmem : memRead t.mem (p + 16) 8 = memRead v.mem (p + 16) 8 := List.ext_getElem? fun i => by
      rw [getElem?_memRead, getElem?_memRead]
      exact if_congr Iff.rfl (congrArg some (hbytes (.device (p + 16 + i)))) rfl
    rw [hmem]
    exact howned hroom htask

end Begin

/-- A bar.wait that passes the checks of its operand (R334). -/
theorem exec_barWait_begins {s s1 : State} {a b c : Reg} {p : Nat} {inter : Bool} (hacts : s.acts) (hin : (s.x b).toNat < 2 ^ 48) (hal : (s.x b).toNat % 64 = 0)
    (hxlate : s.xlate .load .plain (s.x b) 64 true (s.x b) = .ok (p, inter) s1) (hclean : s1.poisoned p 64 = false) (hmix : s1.me.memMix = false) :
    exec (.barWait a b c) s = finish ((s1.sigRead s1.cur p 8).beginWait
      ((s1.sigRead s1.cur p 8).barrierWait a ((s.x b).setWidth 48) p inter ((s1.sigRead s1.cur p 8).x c))) := by
  refine (guarded_acts hacts _).trans ?_
  rw [State.barrier_sound hin hal hxlate hclean]
  simp only [Got.andThen, State.mixClash, hmix, Bool.false_and, Bool.false_eq_true, if_false]
  rfl


/-- What a bar.wait leaves, and when it has written the owner. -/
theorem exec_barWait_outcome {s s1 : State} {a b c : Reg} {p : Nat} {inter : Bool} (hacts : s.acts) (hin : (s.x b).toNat < 2 ^ 48) (hal : (s.x b).toNat % 64 = 0)
    (hxlate : s.xlate .load .plain (s.x b) 64 true (s.x b) = .ok (p, inter) s1) (hcommits : s1.commits = []) (hquiet : s1.quietAt p 64)
    (hdrained : s1.drainSecs s1.cur [p / 128] = s1) :
    ∃ t sig x, exec (.barWait a b c) s = .next t ∧ s1.BarWaited t a p (s1.x c) ∧ x.conds ≠ [] ∧ x.OnlyOn p ∧
      (s1.BarDead p ∨ (s1.waitsAt sig (some x)).barEnter (s1.home p inter) p ≠ none → s1.Owned t p) := by
  obtain ⟨-, -, -, -, -, hclean, hmix, -⟩ := hquiet.1
  obtain ⟨sig, hsig⟩ := State.sigRead_eq (State.of_drainSecs_eq hdrained).2 p 8
  have hread : s1.sigRead s1.cur p 8 = s1.waitsAt sig s1.me.wait := hsig
  have hx : (s1.waitsAt sig s1.me.wait).x c = s1.x c := by
    rw [State.x, State.waitsAt_me]
    rfl
  obtain ⟨t, x, ht, hwaited, hsome, honly, howned⟩ := State.beginWait_barrier (inter := inter) hcommits hquiet hdrained sig a ((s.x b).setWidth 48) (s1.x c)
  refine ⟨t, sig, x, ?_, hwaited, hsome, honly, howned⟩
  rw [exec_barWait_begins hacts hin hal hxlate hclean hmix, hread, hx, ht]

end Sys2Proof.Machine
end

section
/-! PROOF. What the free layout of a wait record decides (R142, R248; log 4). -/

namespace Sys2Proof.Machine

/-! ### A wait record that shows no wait -/

/-- A slot's wait record does not tell one wait from another, nor from none: nothing but the slot's state shows in it. The layout of a record is a free value
(log 4), so that the model neither has this nor its contrary. -/
def WaitRecordsBlank : Prop := ∀ st kinds addr start i, Config.waitRecord st kinds addr start i = Config.waitRecord st [] 0 0 i

theorem WaitRecordsBlank.waitByte (hblank : WaitRecordsBlank) (s : State) (k i : Nat) :
    s.waitByte k i = Config.waitRecord (s.slot k).st.code [] 0 0 i := by
  unfold State.waitByte
  simp only
  split
  · exact hblank _ _ _ _ _
  · rfl

/-- Then no place reads otherwise for a change of slots that keeps their states. -/
theorem WaitRecordsBlank.peek (hblank : WaitRecordsBlank) {s : State} {slots : PMap Slot}
    (hst : ∀ k, (slots.get k Slot.reset).st = (s.slot k).st) (p n : Nat) : State.peek { s with slots := slots } p n = s.peek p n := by
  have hrecord : ∀ k i, State.waitByte { s with slots := slots } k i = s.waitByte k i := fun k i => by
    rw [hblank.waitByte, hblank.waitByte, State.slot, hst k]
  have hwindow : ∀ g off, State.windowByte { s with slots := slots } g off = s.windowByte g off := fun g off => by
    unfold State.windowByte
    rw [hrecord]
    rfl
  have hbyte : ∀ q, State.peekByte { s with slots := slots } q = s.peekByte q := fun q => by
    have hregion : State.regionOf { s with slots := slots } q = s.regionOf q := rfl
    unfold State.peekByte
    rw [hregion]
    cases s.regionOf q with
    | userWindow g off => exact hwindow g off
    | fwWindow g off => exact hwindow g off
    | device => rfl
    | trace g off => rfl
    | bar0 off => rfl
    | doorbell q off => rfl
    | hostMem a => rfl
    | hole => rfl
  unfold State.peek
  split
  · rfl
  · exact List.map_congr_left fun i _ => hbyte _

theorem WaitRecordsBlank.unseen (hblank : WaitRecordsBlank) (s : State) (w : Wait) : s.WaitUnseen w := by
  refine fun c _ _ => hblank.peek (fun k => ?_) c.pa 8
  by_cases hk : k = s.cur
  · subst hk
    rw [PMap.get_put_same]
  · rw [PMap.get_put_ne _ _ _ hk]
    rfl

/-- What O39 states, under the assumption that a wait record shows no wait. O39 itself stays open: the assumption is about a free value (R248, log 4). Without it the
evaluation before the wait stands at the slot and the one after may differ, for a condition on a word of the slot's own wait record. -/
theorem waitOutcomes_of_blank (hblank : WaitRecordsBlank) : Obligations.WaitOutcomes := by
  refine ⟨fun s s1 a b c all n imm cs1 hacts => ⟨exec_wait_misaligned hacts, exec_wait_outside hacts, exec_wait_begins hacts⟩, ?_⟩
  intro s w hkinds hcommits hguest hcopies hdrained r ends
  have hunseen := hblank.unseen s w
  have hends : ∀ {status : Nat}, r.ends (decide (w.deadline ≤ w.start)) = some status → ends status :=
    fun h => State.beginWait_signals_ends hguest hcopies hkinds hunseen hcommits hdrained h
  refine ⟨fun status hverdict => hends ?_, fun hverdict htime => hends ?_, fun hverdict htime => ?_⟩
  · simp only [Wait.ends, hverdict]
  · simp only [Wait.ends, hverdict, htime, decide_true, if_true]
  · refine State.beginWait_signals_stays hguest hcopies hkinds hunseen hcommits hdrained ?_
    simp only [Wait.ends]
    rw [show (s.evalWait s.cur s.me.grp (fun _ => true) w).verdict = none from hverdict]
    simp [Nat.not_le.mpr htime]

/-! ### Accesses that look at no slot (R142, log 4) -/

/-- The state with other slots. -/
def State.withSlots (s : State) (slots : PMap Slot) : State := { s with slots := slots }

/-- The slots stand as those of a state do. -/
def State.StandsAs (s : State) (slots : PMap Slot) : Prop := ∀ k, (slots.get k Slot.reset).st = (s.slot k).st

/-- A step that keeps the slots, and does the same beside other slots that stand as these do. -/
def SlotBlind (f : State → State) : Prop := ∀ s slots, s.StandsAs slots → f (s.withSlots slots) = (f s).withSlots slots ∧ (f s).slots = s.slots

theorem SlotBlind.comp {f g : State → State} (hg : SlotBlind g) (hf : SlotBlind f) : SlotBlind fun s => g (f s) := by
  intro s slots hs
  obtain ⟨hfeq, hfkeep⟩ := hf s slots hs
  obtain ⟨hgeq, hgkeep⟩ := hg (f s) slots fun k => (hs k).trans (by rw [State.slot, State.slot, hfkeep])
  exact ⟨(congrArg g hfeq).trans hgeq, hgkeep.trans hfkeep⟩

theorem SlotBlind.id : SlotBlind fun s => s := fun _ _ _ => ⟨rfl, rfl⟩

theorem SlotBlind.foldl {α : Type} {f : State → α → State} (h : ∀ a, SlotBlind fun s => f s a) (l : List α) : SlotBlind fun s => l.foldl f s := by
  induction l with
  | nil => exact .id
  | cons a rest ih => exact ih.comp (h a)

/-- A step that is a choice by what no slot shows. -/
theorem SlotBlind.ite {c : State → Prop} [∀ s, Decidable (c s)] (hc : ∀ s slots, c (s.withSlots slots) ↔ c s) {f g : State → State} (hf : SlotBlind f) (hg : SlotBlind g) :
    SlotBlind fun s => if c s then f s else g s := by
  intro s slots hs
  by_cases h : c s
  · simp only [if_pos h, if_pos ((hc s slots).mpr h)]
    exact hf s slots hs
  · simp only [if_neg h, if_neg (mt (hc s slots).mp h)]
    exact hg s slots hs

theorem writeBack1_slotBlind (sec : Nat) : SlotBlind fun s => s.writeBack1 sec := by
  intro s slots hs
  have hb : ∀ d, State.bitmapAt { s.withSlots slots with dirty := d } sec = State.bitmapAt { s with dirty := d } sec := fun _ => rfl
  refine ⟨?_, congrArg Books.slots (State.writeBack1_books s sec)⟩
  simp only [State.writeBack1, hb]
  rw [show (s.withSlots slots).dirty = s.dirty from rfl]
  split
  · rfl
  · split <;> rfl

section Blank
variable (hblank : WaitRecordsBlank)
include hblank

theorem shadow_slotBlind (inter : Bool) (sec : Nat) : SlotBlind fun s => s.shadow inter sec := by
  intro s slots hs
  refine ⟨?_, congrArg Books.slots (State.shadow_books s inter sec)⟩
  have hpeek : (s.withSlots slots).peek (sec * 128) 128 = s.peek (sec * 128) 128 := hblank.peek hs _ _
  simp only [State.shadow, hpeek]
  rw [show (s.withSlots slots).dirty = s.dirty from rfl]
  split <;> rfl

omit hblank in
theorem makeRoom_slotBlind (inter : Bool) (sec : Nat) : SlotBlind fun s => s.makeRoom inter sec := by
  refine SlotBlind.ite (c := fun s => s.dirty.length < 512) (fun _ _ => Iff.rfl) .id ?_
  intro s slots hs
  have hgone := fun (l : List Nat) n => SlotBlind.foldl writeBack1_slotBlind l (s.freeIndex n).2 slots hs
  simp only
  have hhome : ∀ a i, (s.withSlots slots).home a i = s.home a i := fun _ _ => rfl
  simp only [hhome]
  rw [show (s.withSlots slots).dirty = s.dirty from rfl]
  split
  · exact ⟨rfl, rfl⟩
  · exact hgone _ _

theorem makeDirty_slotBlind (inter : Bool) (sec : Nat) : SlotBlind fun s => s.makeDirty inter sec :=
  (shadow_slotBlind hblank inter sec).comp (makeRoom_slotBlind inter sec)

theorem devWrite_slotBlind (p : Nat) (inter : Bool) (bs : List Byte) : SlotBlind fun s => s.devWrite p inter bs := by
  have hfold := SlotBlind.foldl (f := fun st sec => st.makeDirty inter sec) (makeDirty_slotBlind hblank inter) (sectorsOf p bs.length)
  refine SlotBlind.comp (g := fun s1 => ({ s1 with mem := memWrite s1.mem p bs, hostHeld := s1.hostHeld.filter fun h => !(decide (p < h * 64 + 64) && decide (h * 64 < p + bs.length)) } : State).covered p bs.length |>.unpoison p bs.length) ?_ hfold
  exact fun _ _ _ => ⟨rfl, rfl⟩

theorem hostPut_slotBlind (p a : Nat) (bs : List Byte) : SlotBlind fun s => s.hostPut p a bs := by
  have hfold := SlotBlind.foldl (f := fun st sec => st.makeDirty true sec) (makeDirty_slotBlind hblank true) (sectorsOf p bs.length)
  exact SlotBlind.comp (g := fun s1 => (({ s1 with hostMem := memWrite s1.hostMem a bs } : State).covered p bs.length).unpoison p bs.length)
    (fun _ _ _ => ⟨rfl, rfl⟩) hfold

omit hblank in
theorem tcmWrite_slotBlind (core off : Nat) (bs : List Byte) : SlotBlind fun s => s.tcmWrite core off bs := by
  refine .ite (c := fun s => (s.grove (groveOfCore core)).poisonTcm.isEmpty = true) (f := fun s => s.modCore core fun c => { c with tcm := memWrite c.tcm off bs })
    (fun _ _ => Iff.rfl) (fun _ _ _ => ⟨rfl, rfl⟩) ?_
  exact fun _ _ _ => ⟨rfl, rfl⟩

omit hblank in
theorem windowWrite_slotBlind (g off : Nat) (bs : List Byte) : SlotBlind fun s => s.windowWrite g off bs :=
  .ite (fun _ _ => Iff.rfl) (tcmWrite_slotBlind _ _ bs) (.ite (fun _ _ => Iff.rfl) (fun _ _ _ => ⟨rfl, rfl⟩) (.ite (fun _ _ => Iff.rfl) (fun _ _ _ => ⟨rfl, rfl⟩) .id))

omit hblank in
theorem barWrite_slotBlind (off : Nat) (bs : List Byte) : SlotBlind fun s => s.barWrite off bs :=
  .ite (fun _ _ => Iff.rfl) (.ite (fun _ _ => Iff.rfl) .id fun _ _ _ => ⟨rfl, rfl⟩) (.ite (fun _ _ => Iff.rfl) (fun _ _ _ => ⟨rfl, rfl⟩)
    (.ite (fun _ _ => Iff.rfl) (fun _ _ _ => ⟨rfl, rfl⟩) .id))

theorem bellWrite_slotBlind (q : Nat) (bs : List Byte) : SlotBlind fun s => s.bellWrite q bs := by
  refine .ite (fun _ _ => Iff.rfl) .id fun s slots hs => ?_
  exact devWrite_slotBlind hblank _ _ _ s slots hs

theorem poke_slotBlind (p : Nat) (inter : Bool) (bs : List Byte) : SlotBlind fun s => s.poke p inter bs := by
  intro s slots hs
  refine ⟨?_, congrArg Books.slots (State.poke_books s p inter bs)⟩
  have hregion : (s.withSlots slots).regionOf p = s.regionOf p := rfl
  simp only [State.poke]
  rw [hregion]
  split
  · exact (devWrite_slotBlind hblank p inter bs s slots hs).1
  · exact (windowWrite_slotBlind _ _ bs s slots hs).1
  · exact (windowWrite_slotBlind _ _ bs s slots hs).1
  · exact (barWrite_slotBlind _ bs s slots hs).1
  · exact (bellWrite_slotBlind hblank _ bs s slots hs).1
  · exact (hostPut_slotBlind hblank p _ bs s slots hs).1
  · rfl
  · rfl

omit hblank in
theorem traceAdd_slotBlind (home kind size p src : Nat) : SlotBlind fun s => s.traceAdd home kind size p src :=
  .ite (fun _ _ => Iff.rfl) .id fun _ _ _ => ⟨rfl, rfl⟩

/-- A copy's element combines with what its home holds (R142). -/
theorem combineElem_slotBlind (e : UpdElem) : SlotBlind fun s => s.combineElem e := by
  intro s slots hs
  refine ⟨?_, congrArg Books.slots (State.combineElem_books s e)⟩
  have hpeek : (s.withSlots slots).peek e.pa (redWidth e.ty.toNat / 8) = s.peek e.pa (redWidth e.ty.toNat / 8) := hblank.peek hs _ _
  simp only [State.combineElem, hpeek, (poke_slotBlind hblank e.pa e.inter _ s slots hs).1]
  rfl

theorem combineCopy_slotBlind (core sec : Nat) : SlotBlind fun s => s.combineCopy core sec := by
  intro s slots hs
  have hstep : ∀ e : UpdElem, SlotBlind fun st => (st.combineElem e).traceAdd (st.home e.pa e.inter) 2 (redWidth e.ty.toNat / 8) e.pa (st.source (core * 4)) := by
    intro e t slots ht
    obtain ⟨heq, hkeep⟩ := combineElem_slotBlind hblank e t slots ht
    obtain ⟨htrace, -⟩ := traceAdd_slotBlind (t.home e.pa e.inter) 2 (redWidth e.ty.toNat / 8) e.pa (t.source (core * 4)) (t.combineElem e) slots
      fun k => (ht k).trans (by rw [State.slot, State.slot, hkeep])
    refine ⟨?_, (congrArg Books.slots (State.traceAdd_books _ _ _ _ _ _)).trans hkeep⟩
    exact (congrArg (fun u : State => u.traceAdd (t.home e.pa e.inter) 2 (redWidth e.ty.toNat / 8) e.pa (t.source (core * 4))) heq).trans htrace
  exact SlotBlind.foldl hstep _ (s.setCore core _) slots hs

theorem combineAll_slotBlind (sec n : Nat) (cores : List Nat) : SlotBlind fun s => s.combineAll sec n cores := by
  induction n generalizing cores with
  | zero => exact .id
  | succ n ih =>
    intro s slots hs
    match cores with
    | [] => exact ⟨rfl, rfl⟩
    | [c] => exact combineCopy_slotBlind hblank c sec s slots hs
    | c :: d :: rest =>
      exact (ih _).comp (combineCopy_slotBlind hblank _ sec) (s.freeIndex (rest.length + 2)).2 slots hs

theorem recall_slotBlind (sec : Nat) : SlotBlind fun s => s.recall sec := by
  have hsnoop : SlotBlind fun s => s.snoop sec := .ite (fun _ _ => Iff.rfl) .id fun _ _ _ => ⟨rfl, rfl⟩
  refine SlotBlind.comp (g := fun s => if (s.updHolders sec).isEmpty then s else s.combineAll sec (s.updHolders sec).length (s.updHolders sec)) ?_ hsnoop
  exact .ite (fun _ _ => Iff.rfl) .id fun s slots hs => combineAll_slotBlind hblank sec _ _ s slots hs

theorem recallRange_slotBlind (p n : Nat) : SlotBlind fun s => s.recallRange p n := .foldl (recall_slotBlind hblank) _

/-- What the device reads does not depend on the slots, but on how they stand. -/
theorem recField_withSlots {s : State} {slots : PMap Slot} (hs : s.StandsAs slots) (pa off n : Nat) : (s.withSlots slots).recField pa off n = s.recField pa off n := by
  obtain ⟨heq, hkeep⟩ := recallRange_slotBlind hblank (pa + off) n s slots hs
  have hpeek : ((s.withSlots slots).recallRange (pa + off) n).peek (pa + off) n = (s.recallRange (pa + off) n).peek (pa + off) n :=
    (congrArg (fun t => State.peek t (pa + off) n) heq).trans
      (hblank.peek (fun k => (hs k).trans (by rw [State.slot, State.slot, hkeep])) _ _)
  simp only [State.recField, State.devRead, hpeek]
  rfl

end Blank

theorem PMap.any_put {α : Type} {m : PMap α} {k : Nat} {v : α} {f : Nat × α → Bool} (h : (m.put k v).any f = true) : f (k, v) = true ∨ m.any f = true := by
  induction m with
  | nil => exact .inl (by simpa [PMap.put] using h)
  | cons q rest ih =>
    obtain ⟨i, w⟩ := q
    unfold PMap.put at h
    split at h
    · rw [List.any_cons, Bool.or_eq_true] at h
      exact h
    · split at h
      · rw [List.any_cons, Bool.or_eq_true] at h
        exact h.imp_right fun hr => by rw [List.any_cons, hr, Bool.or_true]
      · rw [List.any_cons, Bool.or_eq_true] at h
        rcases h with h | h
        · exact .inr (by rw [List.any_cons, h, Bool.true_or])
        · exact (ih h).imp_right fun hr => by rw [List.any_cons, hr, Bool.or_true]

theorem PMap.any_put_self {α : Type} (m : PMap α) {k : Nat} {v : α} {f : Nat × α → Bool} (h : f (k, v) = true) : (m.put k v).any f = true := by
  induction m with
  | nil => simpa [PMap.put] using h
  | cons q rest ih =>
    obtain ⟨i, w⟩ := q
    unfold PMap.put
    split
    · rw [List.any_cons, h, Bool.true_or]
    · split
      · rw [List.any_cons, h, Bool.true_or]
      · rw [List.any_cons, ih, Bool.or_true]

/-- Some slot waits on the barrier at a place. -/
def waitedOn (slots : PMap Slot) (p : Nat) : Bool := slots.any fun q => match q.2.wait with
  | some w => w.onBarrier p
  | none => false

/-- Some parked wait is on it. -/
def parkedOn (groves : PMap Grove) (p : Nat) : Bool := groves.any fun q => q.2.parks.any fun k => k.wait.onBarrier p

theorem State.barLive_eq (s : State) (p : Nat) :
    s.barLive p = (!bitAt (s.recField p 12 1) 1 && (s.recField p 4 4 != 0 || waitedOn s.slots p || parkedOn s.groves p)) := rfl

/-- A live barrier at an open place reads as live for the register. -/
theorem State.live_flags {s : State} {p : Nat} (hopen : s.openAt p 64) (hlive : ¬ s.BarDead p) : bitAt (s.recField p 12 1) 1 = false := by
  obtain ⟨hend, -, hlate, hcopies, hguest, -⟩ := hopen
  have hrecall : s.recallRange (p + 12) 1 = s := State.recallRange_unheld hguest fun sec hsec => hcopies sec (sectorsOf_within p (by decide) hsec)
  have hpeek : s.peek (p + 12) 1 = memRead s.mem (p + 12) 1 := if_pos (by omega)
  have hflags : s.recField p 12 1 = natOf (memRead s.mem (p + 12) 1) := by
    simp [State.recField, State.devRead, hrecall, hlate, hpeek]
  rw [hflags, bitAt, Bool.eq_false_iff, ne_eq, beq_iff_eq]
  exact fun h => hlive (.inr h)

section Room
variable (hblank : WaitRecordsBlank) {s : State} {p : Nat} {x : Wait} (hon : x.OnlyOn p) (sig : BitVec 2048)
include hblank

theorem State.recField_waitsAt (pa off n : Nat) : (s.waitsAt sig (some x)).recField pa off n = s.recField pa off n :=
  recField_withSlots hblank (s := s) (fun k => by
    by_cases hk : k = s.cur
    · subst hk
      rw [PMap.get_put_same]
      rfl
    · rw [PMap.get_put_ne _ _ _ hk]
      rfl) pa off n

include hon

/-- A wait on one barrier keeps no other in its register (R119). -/
theorem State.barLive_of_waitsAt {q : Nat} (hq : q ≠ p) (h : (s.waitsAt sig (some x)).barLive q = true) : s.barLive q = true := by
  have hown : x.onBarrier q = false := List.any_eq_false.mpr fun c hc => by
    obtain ⟨-, hpa⟩ := hon c hc
    simp [hpa, Ne.symm hq]
  have hwaited : waitedOn (s.waitsAt sig (some x)).slots q = true → waitedOn s.slots q = true := fun hany =>
    (PMap.any_put hany).resolve_left fun hself => absurd (hself.symm.trans hown) (by decide)
  rw [State.barLive_eq, State.recField_waitsAt hblank, State.recField_waitsAt hblank] at h
  rw [State.barLive_eq]
  simp only [Bool.and_eq_true, Bool.or_eq_true] at h ⊢
  exact ⟨h.1, h.2.imp_left fun hl => hl.imp_right hwaited⟩

/-- The barrier that a wait is on stays in its register. -/
theorem State.barLive_waitsAt (hsome : x.conds ≠ []) (hsound : bitAt (s.recField p 12 1) 1 = false) : (s.waitsAt sig (some x)).barLive p = true := by
  have hown : x.onBarrier p = true := by
    obtain ⟨c, hc⟩ := List.exists_mem_of_ne_nil _ hsome
    obtain ⟨hkind, hpa⟩ := hon c hc
    exact List.any_eq_true.mpr ⟨c, hc, by simp [hkind, hpa]⟩
  have hwaited : waitedOn (s.waitsAt sig (some x)).slots p = true := PMap.any_put_self _ hown
  rw [State.barLive_eq, State.recField_waitsAt hblank, hsound, hwaited]
  simp

/-- The register of a barrier's home has room for it with the wait at the slot where it has without (R119). -/
theorem State.barEnter_waitsAt (hsome : x.conds ≠ []) (hsound : bitAt (s.recField p 12 1) 1 = false) {home : Nat} (h : s.barEnter home p ≠ none) :
    (s.waitsAt sig (some x)).barEnter home p ≠ none := by
  by_cases hmem : p ∈ (s.grove home).barReg
  · have hin : (((s.waitsAt sig (some x)).grove home).barReg.filter (s.waitsAt sig (some x)).barLive).contains p = true := by
      rw [List.contains_iff_mem]
      exact List.mem_filter.mpr ⟨hmem, State.barLive_waitsAt hblank hon sig hsome hsound⟩
    simp only [State.barEnter, hin, if_true]
    exact Option.some_ne_none _
  · have hroom : ((s.grove home).barReg.filter s.barLive).length < 64 := by
      by_contra hfull
      refine h ?_
      have hout : ((s.grove home).barReg.filter s.barLive).contains p = false := by
        rw [Bool.eq_false_iff, ne_eq, List.contains_iff_mem]
        exact fun hin => hmem (List.mem_filter.mp hin).1
      simp only [State.barEnter, hout, if_neg hfull, Bool.false_eq_true, if_false]
    have hfewer : (((s.waitsAt sig (some x)).grove home).barReg.filter (s.waitsAt sig (some x)).barLive).length ≤ ((s.grove home).barReg.filter s.barLive).length := by
      rw [← List.countP_eq_length_filter, ← List.countP_eq_length_filter]
      exact List.countP_mono_left fun q hq hlive => State.barLive_of_waitsAt hblank hon sig (fun heq => hmem (heq ▸ hq)) hlive
    unfold State.barEnter
    simp only
    split
    · exact Option.some_ne_none _
    · rw [if_pos (by omega)]
      exact Option.some_ne_none _

end Room

/-- What O40 states, under the assumption that a wait record shows no wait. O40 itself stays open: the assumption is about a free value (R248, log 4). Without it the
register may have room for the barrier before the wait stands at the slot and none after, where another barrier of the register lies in the slot's own wait record. -/
theorem barriersAndChannels_of_blank (hblank : WaitRecordsBlank) : Obligations.BarriersAndChannels := by
  intro s s1 a b c n p inter hacts e word count sum gen broken
  refine ⟨exec_barArrive_illegal hacts a b, fun hlow hhigh hin hal hxlate hcol hout hquiet =>
      ⟨exec_barArrive_dead hacts hlow hhigh hin hal hxlate hcol hout hquiet,
        fun hcount hbroken s2 henter => exec_barArrive_live hacts hlow hhigh hin hal hxlate hcol hout hquiet (not_or.mpr ⟨hcount, hbroken⟩) henter⟩,
    fun hin hal hxlate hcommits hquiet hdrained => ?_,
    fun r k g ch hcol hout hmember hgroup hchan hfirst => ⟨exec_gbSync_broken hacts hcol hout hmember hgroup hchan r,
      exec_gbSync_waits hacts hcol hout hmember hgroup hchan hfirst r, exec_gbSync_last hacts hcol hout hmember hgroup hchan hfirst r⟩⟩
  obtain ⟨t, sig, x, hexec, ⟨hbytes, hidle, hdead, hpast, hwaits⟩, hsome, honly, howned⟩ :=
    exec_barWait_outcome (a := a) (c := c) hacts hin hal hxlate hcommits hquiet hdrained
  refine ⟨t, hexec, hidle, fun htask => ⟨hbytes, fun hroom => howned ?_ htask⟩, hdead, fun hcount hbroken => hpast (not_or.mpr ⟨hcount, hbroken⟩),
    fun hcount hbroken => hwaits (not_or.mpr ⟨hcount, hbroken⟩)⟩
  by_cases hbroken : s1.BarDead p
  · exact .inl hbroken
  · have henter : s1.barEnter (s1.home p inter) p ≠ none := (or_assoc.mpr hroom).resolve_left hbroken
    refine .inr (State.barEnter_waitsAt hblank honly sig hsome (State.live_flags hquiet.1 hbroken) henter)

/-! ### What O39 says of a wait record -/

/-- A module of which slot 0 runs and has the turn. -/
def oneRuns : State := { State.reset with slots := [(0, { Slot.reset with st := .run })] }

/-- The place of a byte of the wait record of slot 0, in the user window of its grove (R248, R252). -/
def recordPlace (i : Nat) : Nat := hostBase + 0xFFE0000000000 + 0x200000 + i

theorem peekByte_recordPlace (slots : PMap Slot) {i : Nat} (hi : i < 64) : (oneRuns.withSlots slots).peekByte (recordPlace i) = (oneRuns.withSlots slots).waitByte 0 i := by
  have hoff : recordPlace i - hostBase - 0xFFE0000000000 = 0x200000 + i := by unfold recordPlace; omega
  have hgrove : (oneRuns.withSlots slots).physGrove 0 0 = 0 := (show oneRuns.physGrove 0 0 = 0 by decide +kernel)
  have hregion : (oneRuns.withSlots slots).regionOf (recordPlace i) = .userWindow 0 (0x200000 + i) := by
    have hfar : ¬ recordPlace i < 2 ^ 38 ∧ ¬ recordPlace i < hostBase := by unfold recordPlace hostBase; omega
    have hin : (decide (0xFFE0000000000 ≤ recordPlace i - hostBase) && decide (recordPlace i - hostBase < 0xFFE0000000000 + 1024 * 2 ^ 24)) = true := by
      rw [Bool.and_eq_true, decide_eq_true_eq, decide_eq_true_eq]
      unfold recordPlace
      omega
    have hn : (recordPlace i - hostBase - 0xFFE0000000000) / 2 ^ 24 = 0 := by omega
    have hrest : (recordPlace i - hostBase) % 2 ^ 24 = 0x200000 + i := by unfold recordPlace; omega
    simp only [State.regionOf, if_neg hfar.1, if_neg hfar.2, hin, if_true, hn, hrest]
    rw [show 0 % 32 = 0 from rfl, show 0 / 32 = 0 from rfl, hgrove]
  have hslot : 0 * 32 + (0x200000 + i - 0x200000) / 64 = 0 ∧ (0x200000 + i - 0x200000) % 64 = i := by omega
  rw [State.peekByte, hregion]
  simp only [State.windowByte, if_neg (show ¬ 0x200000 + i < 0x80000 by omega), if_neg (show ¬ 0x200000 + i < 0x200000 by omega),
    if_pos (show 0x200000 + i < 0x300000 by omega), hslot.1, hslot.2]

theorem peek_recordPlace (slots : PMap Slot) {i : Nat} (hi : i + 8 ≤ 64) :
    (oneRuns.withSlots slots).peek (recordPlace i) 8 = (List.range 8).map fun j => (oneRuns.withSlots slots).waitByte 0 (i + j) := by
  have hfar : ¬ recordPlace i + 8 ≤ 2 ^ 38 := by unfold recordPlace hostBase; omega
  refine (if_neg hfar).trans (List.map_congr_left fun j hj => ?_)
  have hj := List.mem_range.mp hj
  rw [show recordPlace i + j = recordPlace (i + j) from Nat.add_assoc _ _ _]
  exact peekByte_recordPlace slots (by omega)

/-- The word of the record at a place of it, in a state of that module. -/
def recordWord (s : State) (i : Nat) : Nat := natOf (s.peek (recordPlace i) 8)

/-- A signal condition on a word of the record, for another value than that word has without a wait. -/
def recordCond (i : Nat) (addr : Addr) : Cond :=
  ⟨0, 0, addr, recordPlace i, false, true, BitVec.ofNat 64 (recordWord oneRuns i), false, false, false, false⟩

/-- A wait of no time on it. -/
def recordWait (i : Nat) (addr : Addr) (start : Nat) : Wait := ⟨.waitI, [recordCond i addr], true, 5, start, 0, 0⟩

section Record
variable (i : Nat) (addr : Addr) (start : Nat)

theorem recordWord_lt (s : State) : recordWord s i < 2 ^ 64 := by
  have hlen : (s.peek (recordPlace i) 8).length = 8 := by
    unfold State.peek
    split
    · exact length_memRead _ _ _
    · rw [List.length_map, List.length_range]
  have hlt := natOf_lt (s.peek (recordPlace i) 8)
  rwa [hlen] at hlt

theorem evalWait_record {t : State} (hcores : t.cores = []) (hguest : t.guest.held = []) (hcommits : t.commits = []) :
    t.evalWait 0 0 (fun _ => true) (recordWait i addr start) =
      { recordWait i addr start with conds := [{ recordCond i addr with holds := recordWord t i != recordWord oneRuns i, broke := false, note := false }] } := by
  have hopen : t.condOpen (recordCond i addr) = true := by simp [State.condOpen, State.lockedSec, hcommits]
  have hread : t.homeRead (recordPlace i) 8 = t.peek (recordPlace i) 8 := by
    rw [State.homeRead, State.recallRange_none hguest (by rw [hcores]; exact fun q hq => nomatch hq)]
  have hval : (recordCond i addr).val.toNat = recordWord oneRuns i := Nat.mod_eq_of_lt (recordWord_lt i oneRuns)
  have hnow : t.condNow 0 0 (recordCond i addr) = (recordWord t i != recordWord oneRuns i, false) := by
    have hnum : (recordCond i addr).kind.toNat = 0 := rfl
    unfold State.condNow
    rw [hnum]
    simp only [hval]
    rw [show (recordCond i addr).pa = recordPlace i from rfl, hread]
    rfl
  have hconds : (recordWait i addr start).conds = [recordCond i addr] := rfl
  simp only [State.evalWait, hconds, List.map_cons, List.map_nil, hopen, hnow, Bool.and_self, if_true]

end Record

/-- O39 would have the words of a slot's wait record show no wait. -/
theorem recordWord_of_waitOutcomes (h : Obligations.WaitOutcomes) (i : Nat) (addr : Addr) (start : Nat) :
    recordWord (oneRuns.waitSet (recordWait i addr start)) i = recordWord oneRuns i := by
  by_contra hne
  have hdrained : oneRuns.drainSecs oneRuns.cur (recordWait i addr start).secs = oneRuns := rfl
  have hkinds : ∀ c ∈ (recordWait i addr start).conds, c.kind ≠ 3 :=
    fun c hc => by rw [List.mem_singleton.mp hc]; exact (by decide : (0#4) ≠ 3)
  obtain ⟨-, hlate, -⟩ := h.2 oneRuns (recordWait i addr start) hkinds rfl rfl (fun q hq => nomatch hq) hdrained
  have heval := evalWait_record i addr start (t := oneRuns) rfl rfl rfl
  have hset := evalWait_record i addr start (t := oneRuns.waitSet (recordWait i addr start)) rfl rfl rfl
  rw [bne_self_eq_false] at heval
  rw [bne_iff_ne.mpr hne] at hset
  have hgrp : (oneRuns.waitSet (recordWait i addr start)).me.grp = 0 := rfl
  have hbegin := State.beginWait_ends (s := oneRuns) (w := recordWait i addr start) (status := 0) rfl hdrained
    (State.barWaits_none _ _ (oneRuns.installed_kinds hkinds))
    (State.recallWait_unheld fun c _ _ => State.recallRange_none (s := oneRuns.waitSet (recordWait i addr start)) rfl (fun q hq => nomatch hq) _ _) (by
      refine (congrArg (fun x : Wait => x.ends _) hset).trans ?_
      rfl)
  have hends := hlate ((congrArg Wait.verdict heval).trans rfl) (Nat.zero_le _)
  have hwritten : (1 : Word) = 16 := calc
    (1 : Word) = (oneRuns.waitSet (recordWait i addr start)).waitValue 0
        ((oneRuns.waitSet (recordWait i addr start)).evalWait 0 0 (fun _ => true) (recordWait i addr start)) 0 := by rw [hset]; rfl
    _ = oneRuns.waitValue 0 (oneRuns.evalWait 0 0 (fun _ => true) (recordWait i addr start)) 1 := by
      rw [hbegin] at hends
      exact congrArg (fun t : State => t.me.xr 5) (Host.Outcome.next.inj hends)
    _ = 16 := by rw [heval]; rfl
  exact absurd hwritten (by decide)

/-- O39 would have the bytes of a slot's wait record show no wait, which the free layout of the record (log 4) neither says nor denies. -/
theorem waitRecord_of_waitOutcomes (h : Obligations.WaitOutcomes) (addr : Addr) (start : Nat) {i j : Nat} (hi : i + 8 ≤ 64) (hj : j < 8) :
    Config.waitRecord 1 [0] addr.toNat start (i + j) = Config.waitRecord 1 [] 0 0 (i + j) := by
  have hword := recordWord_of_waitOutcomes h i addr start
  have hset : oneRuns.waitSet (recordWait i addr start) = oneRuns.withSlots (oneRuns.slots.put 0 { oneRuns.me with wait := some (recordWait i addr start) }) := rfl
  have hread : ∀ slots, (oneRuns.withSlots slots).peek (recordPlace i) 8 = bytesOf 8 (recordWord (oneRuns.withSlots slots) i) := fun slots => by
    rw [recordWord, peek_recordPlace slots hi]
    exact (bytesOf_natOf ((List.range 8).map fun j => (oneRuns.withSlots slots).waitByte 0 (i + j))).symm
  have hbytes := (peek_recordPlace (oneRuns.slots.put 0 { oneRuns.me with wait := some (recordWait i addr start) }) hi).symm.trans ((hread _).trans
    ((congrArg (bytesOf 8) ((congrArg (fun t => recordWord t i) hset.symm).trans hword)).trans ((hread oneRuns.slots).symm.trans (peek_recordPlace oneRuns.slots hi))))
  exact List.map_inj_left.mp hbytes j (List.mem_range.mpr hj)

end Sys2Proof.Machine
end

section
/-! PROOF. Accesses of the core path to global memory that nothing stands before (R129, R130, R140, R141, R155, R322, R324, R325). -/

namespace Sys2Proof.Machine

/-! ### What an open access passes (R138, R147, R323) -/

theorem State.place_glob_in (s : State) (sk : Bool) {e : Word} {n al : Nat} (hin : e.toNat < 2 ^ 48) (hal : e.toNat % al = 0) :
    s.place .glob sk e n al = .glob e true := by
  simp only [State.place, if_neg (Nat.not_le.mpr hin), hal, ne_eq, not_true_eq_false, if_false]

/-- Only a class T task keeps a signature (R147). -/
theorem State.sigRead_direct {s : State} (h : s.direct) (p n : Nat) : s.sigRead s.cur p n = s := by
  obtain ⟨-, hclass⟩ := h
  refine if_neg fun hsig => ?_
  obtain ⟨htask, hT⟩ := Bool.and_eq_true_iff.mp hsig
  have hclass' : (s.me.task.isSome && (s.me.cls == 1 || s.me.cls == 2)) = false := hclass
  rw [show s.me.task.isSome = true from htask, show (s.me.cls == 2) = true from hT, Bool.or_true] at hclass'
  exact absurd hclass' (by decide)

theorem State.mixClash_off {s : State} (h : s.me.memMix = false) (p n : Nat) (inter : Bool) : s.mixClash p n inter = false := by
  simp only [State.mixClash, h, Bool.false_and]

theorem State.mixRecord_off {s : State} (h : s.me.memMix = false) (p n : Nat) (inter : Bool) : s.mixRecord p n inter = s := by
  simp only [State.mixRecord, h, Bool.false_eq_true, if_false]

theorem State.regionOf_device (s : State) {p : Nat} (h : p < 2 ^ 38) : s.regionOf p = .device := if_pos h

theorem relFirst_of_allOut {s : State} (hout : s.allOut) (rel : Bool) (k : State → Eff) : relFirst s rel k = k s := by
  cases rel with
  | false => rfl
  | true => exact State.release_of_allOut hout k

/-! An acquire only marks what homes remember of stores (R133). -/

theorem State.acqIf_me (s : State) (o : Ord) : (s.acqIf o).me = s.me := by cases o <;> rfl

theorem State.acqIf_mem (s : State) (o : Ord) : (s.acqIf o).mem = s.mem := by cases o <;> rfl

theorem State.acqIf_sameBytes (s : State) (o : Ord) : s.sameBytes (s.acqIf o) := by
  intro q
  cases o <;> cases q <;> rfl

/-- The end of an instruction that writes a register touches no byte. -/
theorem State.setX_advance_sameBytes (s : State) (d : Reg) (v : Word) : s.sameBytes (s.setX d v).advance :=
  fun q => (State.sameBytes_setSlot _ _ _ q).trans (State.sameBytes_setSlot _ _ _ q)

theorem memRead_memWrite_bytesOf (m : Mem) (p n v : Nat) : memRead (memWrite m p (bytesOf n v)) p n = bytesOf n v := by
  have hread := memRead_memWrite_same m p (bytesOf n v)
  rwa [length_bytesOf] at hread

/-! ### A load (R129, R130, R322) -/

/-- One buffered store that covers a read whole gives all its bytes. -/
theorem forwardBytes_whole (p : Nat) (inter g : Bool) {bs under : List Byte} (h : bs.length = under.length) :
    forwardBytes [⟨p, inter, bs, g⟩] p under = bs := by
  have hat : ∀ i ∈ List.range under.length, (if p ≤ p + i && p + i < p + bs.length then (bs[p + i - p]?).getD 0 else (under[i]?).getD 0) = (bs[i]?).getD 0 := by
    intro i hi
    have hlt := List.mem_range.mp hi
    rw [if_pos (by simpa using by omega), Nat.add_sub_cancel_left]
  simp only [forwardBytes, List.foldl_cons, List.foldl_nil]
  rw [List.map_congr_left hat, ← h]
  refine List.ext_getElem? fun i => ?_
  by_cases hi : i < bs.length
  · simp [List.getElem?_map, List.getElem?_range hi, List.getElem?_eq_getElem hi]
  · simp [hi]

theorem State.loadGlob_openAt {s s1 : State} {need : Need} {e addr : Word} {n p : Nat} {inter : Bool} (coll : Bool)
    (hxlate : s.xlate .load need e n true addr = .ok (p, inter) s1) (hopen : s1.openAt p n) (hdirect : s1.direct) :
    s.loadGlob e coll n need true addr = .ok (forwardBytes s1.me.sbuf p (memRead s1.mem p n)) s1 := by
  have hrecall := State.recallRange_openAt hopen (Nat.le_refl n)
  have hpeek := State.peek_openAt hopen (Nat.le_refl n)
  have hsig := State.sigRead_direct hdirect p n
  obtain ⟨-, hfree, -, -, -, hclean, hmix, hunmixed, -⟩ := hopen
  simp only [State.loadGlob, hxlate, Got.bind, hfree, hrecall, hclean, State.mixClash_off hmix, hsig, hdirect.1, Bool.and_false, Bool.false_eq_true,
    if_false, State.strongRead_unmixed _ hunmixed, State.slotBytes, hpeek]
  rfl

/-! ### A store (R62) -/

/-- A store to device memory by a slot with an empty buffer waits there. -/
theorem State.storeAt_buffers {s : State} {p : Nat} {bs : List Byte} (hopen : s.openAt p bs.length) (hbytes : 0 < bs.length)
    (hcol : s.me.collecting = false) (hempty : s.me.sbuf = []) (inter : Bool) (e : Word) (coll sig : Bool) (addr : Word) :
    s.storeAt p inter e coll bs sig addr = .ok () (s.setSlot s.cur { s.me with sbuf := [⟨p, inter, bs, sig⟩] }) := by
  obtain ⟨hend, -, -, -, -, -, hmix, -⟩ := hopen
  have hbuffer : s.bufferStore s.cur ⟨p, inter, bs, sig⟩ = some (s.setSlot s.cur { s.me with sbuf := [⟨p, inter, bs, sig⟩] }) := by
    have hempty' : (s.slot s.cur).sbuf = [] := hempty
    simp [State.bufferStore, hempty', nub, State.me]
  simp only [State.storeAt, hcol, Bool.and_false, State.mixClash_off hmix, State.regionOf_device s (show p < 2 ^ 38 by omega), hbuffer,
    State.setSlot_me, hmix, Bool.false_eq_true, if_false]

/-! ### The load and the store of a global address (R155, R322) -/

section Memory
variable {s s1 : State} {a b : Reg} {size : BitVec 2} {m : MemMod} {imm : Word} {p : Nat} {inter : Bool} (hacts : s.acts) (hspace : m.space = .glob)
  (hin : (s.x b + imm).toNat < 2 ^ 48) (hal : (s.x b + imm).toNat % 2 ^ size.toNat = 0)
include hacts hspace hin hal

theorem exec_ld_glob (hxlate : s.xlate .load .plain (s.x b + imm) (2 ^ size.toNat) true (s.x b + imm) = .ok (p, inter) s1)
    (hopen : s1.openAt p (2 ^ size.toNat)) (hdirect : s1.direct) :
    exec (.ld a b size m imm) s = .next ((s1.acqIf m.ord).setX a
      (BitVec.ofNat 64 (natOf (forwardBytes s1.me.sbuf p (memRead s1.mem p (2 ^ size.toNat)))))).advance := by
  refine (guarded_acts hacts _).trans ?_
  simp only [State.load, ea, hspace, State.place_glob_in s m.sk hin hal, State.loadGlob_openAt true hxlate hopen hdirect, Got.andThen, finish_next]

variable (hxlate : s.xlate .store .plain (s.x b + imm) (2 ^ size.toNat) true (s.x b + imm) = .ok (p, inter) s1)
include hxlate

/-- Past the checks, a store is what its place does with it; a release has no store left to wait for. -/
theorem exec_st_glob (hrel : s.me.collecting = true ∨ s.allOut) : exec (.st a b size m imm) s =
    finish ((s1.storeAt p inter (s.x b + imm) true (bytesOf (2 ^ size.toNat) (s.x a).toNat) m.sig (s.x b + imm)).andThen fun _ s2 => .next s2) := by
  refine (guarded_acts hacts _).trans ?_
  have hfirst : ∀ k, relFirst s (Ord.isRel m.ord && !(s.me.collecting && m.space == .glob)) k = k s := by
    intro k
    rcases hrel with hcol | hout
    · rw [hcol, hspace]
      exact if_neg (by simp)
    · exact relFirst_of_allOut hout _ k
  rw [hfirst]
  simp only [State.store, ea, hspace, length_bytesOf, State.place_glob_in s m.sk hin hal, hxlate, Got.bind]

theorem exec_st_buffers (hout : s.allOut) (hcol : s1.me.collecting = false) (hopen : s1.openAt p (2 ^ size.toNat)) (hempty : s1.me.sbuf = []) :
    exec (.st a b size m imm) s =
      .next (s1.setSlot s1.cur { s1.me with sbuf := [⟨p, inter, bytesOf (2 ^ size.toNat) (s.x a).toNat, m.sig⟩] }).advance := by
  have hlen : (bytesOf (2 ^ size.toNat) (s.x a).toNat).length = 2 ^ size.toNat := length_bytesOf _ _
  rw [exec_st_glob hacts hspace hin hal hxlate (.inr hout),
    State.storeAt_buffers (by rwa [hlen]) (by rw [hlen]; positivity) hcol hempty inter _ true m.sig _]
  rfl

/-- A collected store is an entry, or finds no room for one (R155, R160). -/
theorem exec_st_collects (hcol : s.me.collecting = true) (hcol1 : s1.me.collecting = true) :
    exec (.st a b size m imm) s =
      finish ((s1.collect [storeEntry (if m.sig then 5 else 0) (s.x b + imm).toNat (bytesOf (2 ^ size.toNat) (s.x a).toNat)] (s.x b + imm)).andThen
        fun _ s2 => .next s2) := by
  rw [exec_st_glob hacts hspace hin hal hxlate (.inl hcol), State.storeAt, hcol1]
  rfl

end Memory

/-- Without room for its entries an instruction traps HAMPER_CAPACITY (R160). -/
theorem State.collect_of_full {s : State} {es : List HEntry} (h : s.hamperPut es = none) (addr : Word) :
    s.collect es addr = .no (.trap s Cause.hamperCapacity addr 0) := by
  rw [State.collect, h]

/-! ### An atomic (R140, R324) -/

/-- What a performed store leaves in the books of unordered accesses touches no byte and no slot (R138). -/
theorem State.Wrote.strongDone {s t : State} {p : Nat} {bs : List Byte} (h : s.Wrote t p bs) (before : State) (slot a n : Nat) :
    s.Wrote (t.strongDone before slot a n) p bs := by
  obtain ⟨hmem, hhost, hcores, hscratch, hguest, hcommits, hcur, hme⟩ := h
  unfold State.strongDone
  split <;> exact ⟨hmem, hhost, hcores, hscratch, hguest, hcommits, hcur, hme⟩

/-- A store of the core path that performs at an open place writes its bytes there. -/
theorem State.strongPut_wrote {s : State} {p n : Nat} {bs : List Byte} (hopen : s.openAt p n) (hlen : bs.length = n) (hbytes : 0 < n) (slot : Nat)
    (inter sig : Bool) (kind : Nat) : s.Wrote (s.strongPut slot p inter bs sig kind) p bs := by
  have hend := hopen.1
  refine (State.perform_wrote (by omega) ?_ slot inter sig kind).strongDone s slot p bs.length
  rw [hlen]
  exact State.recallRange_openAt hopen (Nat.le_refl n)

theorem State.rmwHome_quiet {s : State} {p n : Nat} (hquiet : s.quietAt p n) (hbytes : 0 < n) (inter : Bool) (f : Nat → Nat) (sig : Bool) (addr : Word) :
    s.rmwHome p inter n f sig addr =
      .ok (natOf (memRead s.mem p n)) (s.strongPut s.cur p inter (bytesOf n (f (natOf (memRead s.mem p n)))) sig 1) := by
  obtain ⟨hopen, hdrained⟩ := hquiet
  have hrecall := State.recallRange_openAt hopen (Nat.le_refl n)
  have hpeek := State.peek_openAt hopen (Nat.le_refl n)
  obtain ⟨-, -, -, -, -, -, -, o, hme⟩ := State.strongPut_wrote hopen (length_bytesOf n (f (natOf (memRead s.mem p n)))) hbytes s.cur inter sig 1
  obtain ⟨-, hfree, -, -, -, hclean, hmix, hunmixed, -⟩ := hopen
  have hoff : (s.strongPut s.cur p inter (bytesOf n (f (natOf (memRead s.mem p n)))) sig 1).me.memMix = false := by
    rw [hme]
    exact hmix
  simp only [State.rmwHome, hfree, hdrained, hrecall, hclean, State.mixClash_off hmix, State.strongRead_unmixed _ hunmixed, hpeek,
    State.mixRecord_off hoff, Bool.false_eq_true, if_false]

/-- The width of an atomic's word (R324). -/
def amoWidth (m : AtomMod) : Nat := if m.wide then 64 else 32

theorem amoWidth_cases (m : AtomMod) : amoWidth m = 64 ∨ amoWidth m = 32 := by
  unfold amoWidth
  cases m.wide with
  | true => exact .inl rfl
  | false => exact .inr rfl

theorem two_pow_amoWidth (m : AtomMod) : 256 ^ (amoWidth m / 8) = 2 ^ amoWidth m := by
  rcases amoWidth_cases m with hw | hw
  · rw [hw]; norm_num
  · rw [hw]; norm_num

theorem amoNew_lt (f w old op exp : Nat) : amoNew f w old op exp < 2 ^ w := Nat.mod_lt _ (by positivity)

/-- What each atomic makes of its word (R324). -/
theorem amoNew_values {w old : Nat} (h : old < 2 ^ w) (x y : Nat) :
    let op := x % 2 ^ w
    amoNew 0 w old x y = (old + op) % 2 ^ w ∧ amoNew 1 w old x y = op % 2 ^ w ∧ amoNew 2 w old x y = (old &&& op) % 2 ^ w ∧
    amoNew 3 w old x y = (old ||| op) % 2 ^ w ∧ amoNew 4 w old x y = (old ^^^ op) % 2 ^ w ∧
    amoNew 5 w old x y = (if sInt w op < sInt w old then op else old) % 2 ^ w ∧
    amoNew 6 w old x y = (if sInt w old < sInt w op then op else old) % 2 ^ w ∧
    amoNew 7 w old x y = (if old = y % 2 ^ w then op else old) % 2 ^ w ∧
    amoNew 8 w old x y = min old op % 2 ^ w ∧ amoNew 9 w old x y = max old op % 2 ^ w := by
  intro op
  have hold : old % 2 ^ w = old := Nat.mod_eq_of_lt h
  have hmin : (if op < old then op else old) = min old op := by split <;> omega
  have hmax : (if old < op then op else old) = max old op := by split <;> omega
  rw [← hmin, ← hmax]
  simp only [amoNew, hold, op, and_self]

section Atomic
variable {s s1 : State} {a b c : Reg} {m : AtomMod} {p : Nat} {inter : Bool} (hacts : s.acts) (hspace : m.space = .glob)
  (hin : (s.x b).toNat < 2 ^ 48) (hal : (s.x b).toNat % (amoWidth m / 8) = 0)
  (hxlate : s.xlate .atomic .plain (s.x b) (amoWidth m / 8) true (s.x b) = .ok (p, inter) s1) (hout : s.allOut) (hcol : s.me.collecting = false)
  (hquiet : s1.quietAt p (amoWidth m / 8))
include hacts hspace hin hal hxlate hout hcol hquiet

/-- An atomic is one store at the home of what it makes of the word there, and gives the slot what stood there. -/
theorem amo_home (f : Nat) (signed : Bool) {old new : Nat} (hold : natOf (memRead s1.mem p (amoWidth m / 8)) = old)
    (hnew : amoNew f (amoWidth m) old (s.x c).toNat (s.x a).toNat = new) :
    amo a b c m f signed s = .next (((s1.strongPut s1.cur p inter (bytesOf (amoWidth m / 8) new) m.sig 1).acqIf m.ord).setX a
      (if signed then BitVec.ofInt 64 (sInt (amoWidth m) old) else BitVec.ofNat 64 old)).advance := by
  have hbytes : 0 < amoWidth m / 8 := by have := amoWidth_cases m; omega
  have hrmw : s.rmw m.space (s.x b) (amoWidth m / 8) (fun was => amoNew f (amoWidth m) was (s.x c).toNat (s.x a).toNat) m.sig =
      .ok old (s1.strongPut s1.cur p inter (bytesOf (amoWidth m / 8) new) m.sig 1) := by
    simp only [State.rmw, hspace, State.place_glob_in s false hin hal, hxlate, Got.bind, State.rmwHome_quiet hquiet hbytes, hold, hnew]
  have hexec : amo a b c m f signed s = finish (relFirst s (Ord.isRel m.ord) fun s1 =>
      (s1.rmw m.space (s1.x b) (amoWidth m / 8) (fun was => amoNew f (amoWidth m) was (s1.x c).toNat (s1.x a).toNat) m.sig).andThen fun was s2 =>
        .next ((s2.acqIf m.ord).setX a (if signed then BitVec.ofInt 64 (sInt (amoWidth m) was) else BitVec.ofNat 64 was))) := by
    refine (guarded_acts hacts _).trans (congrArg finish (if_neg ?_))
    rw [hcol]
    exact Bool.false_ne_true
  rwa [relFirst_of_allOut hout, hrmw] at hexec

/-- An atomic leaves its new value at the home and the old one in its register, and no other byte changes. -/
theorem amo_quiet (f : Nat) (signed : Bool) :
    let old := natOf (memRead s1.mem p (amoWidth m / 8))
    ∃ t, amo a b c m f signed s = .next t ∧ natOf (memRead t.mem p (amoWidth m / 8)) = amoNew f (amoWidth m) old (s.x c).toNat (s.x a).toNat ∧
      (∀ q, (∀ j, j < amoWidth m / 8 → q ≠ .device (p + j)) → t.byteAt q = s1.byteAt q) ∧
      t.me.x = (s1.me.setXr a (if signed then BitVec.ofInt 64 (sInt (amoWidth m) old) else BitVec.ofNat 64 old)).x ∧ t.me.pc = s1.me.npc := by
  intro old
  have hlt := amoNew_lt f (amoWidth m) old (s.x c).toNat (s.x a).toNat
  generalize hnew : amoNew f (amoWidth m) old (s.x c).toNat (s.x a).toNat = new at hlt ⊢
  have hexec := amo_home hacts hspace hin hal hxlate hout hcol hquiet f signed rfl hnew
  have hbytes : 0 < amoWidth m / 8 := by have := amoWidth_cases m; omega
  have hwrote := State.strongPut_wrote hquiet.1 (length_bytesOf (amoWidth m / 8) new) hbytes s1.cur inter m.sig 1
  generalize s1.strongPut s1.cur p inter (bytesOf (amoWidth m / 8) new) m.sig 1 = u at hwrote hexec
  have hbyte : ∀ q, (∀ j, j < amoWidth m / 8 → q ≠ .device (p + j)) → u.byteAt q = s1.byteAt q :=
    fun q hq => hwrote.byteAt (by rwa [length_bytesOf])
  obtain ⟨hmem, -, -, -, -, -, -, o, hme⟩ := hwrote
  obtain ⟨hx, hpc⟩ := State.setX_advance_me ((u.acqIf_me m.ord).trans hme) a (if signed then BitVec.ofInt 64 (sInt (amoWidth m) old) else BitVec.ofNat 64 old)
  refine ⟨_, hexec, ?_, fun q hq => ?_, hx, hpc⟩
  · have hread : memRead (u.acqIf m.ord).mem p (amoWidth m / 8) = bytesOf (amoWidth m / 8) new := by
      rw [State.acqIf_mem, hmem, memRead_memWrite_bytesOf]
    refine (congrArg natOf hread).trans ((natOf_bytesOf _ _).trans (Nat.mod_eq_of_lt ?_))
    rwa [two_pow_amoWidth]
  · exact (State.setX_advance_sameBytes _ _ _ q).trans ((u.acqIf_sameBytes m.ord q).trans (hbyte q hq))

end Atomic

/-! ### A reduction (R141, R325) -/

theorem length_nub_le (l : List Nat) : (nub l).length ≤ l.length := by
  induction l with
  | nil => exact le_refl 0
  | cons a rest ih => exact Nat.succ_le_succ ((List.length_filter_le _ _).trans ih)

/-- A core with fewer than 512 elements has room for one more line (R20, R142). -/
theorem State.updRoom_free {s : State} {core : Nat} (h : (s.core core).upd.length < 512) (sec : Nat) : s.updRoom core sec = some s := by
  have hlines : (nub ((s.core core).upd.map fun e => sectorOf e.pa)).length < 512 :=
    ((length_nub_le _).trans_eq (List.length_map _)).trans_lt h
  simp only [State.updRoom, hlines, decide_true, Bool.or_true, if_true]

section Reduce
variable {s s1 : State} {e : Word} {ty op v p : Nat} {inter : Bool} (hin : e.toNat < 2 ^ 48) (hal : e.toNat % (redWidth ty / 8) = 0)
  (hxlate : s.xlate .atomic .plain e (redWidth ty / 8) true e = .ok (p, inter) s1)
include hin hal hxlate

theorem State.reduce_folds (hcol : s1.me.collecting = false) (hquiet : s1.quietAt p (redWidth ty / 8)) (hroom : s1.myCore.upd.length < 512) :
    s.reduce .glob e ty op v = .next ((s1.modMyCore fun c => c.fold p inter ty op v).strongDone s1 s1.cur p (redWidth ty / 8)) := by
  obtain ⟨⟨hend, hfree, -, -, -, -, hmix, -⟩, hdrained⟩ := hquiet
  have hbytes : 0 < redWidth ty / 8 := by
    unfold redWidth
    split <;> decide
  have hoff : ((s1.modMyCore fun c => c.fold p inter ty op v).strongDone s1 s1.cur p (redWidth ty / 8)).me.memMix = false := by
    unfold State.strongDone
    split <;> exact hmix
  simp only [State.reduce, State.place_glob_in s false hin hal, hxlate, Got.andThen, hcol, Bool.and_false,
    State.regionOf_device s1 (show p < 2 ^ 38 by omega), hfree, State.mixClash_off hmix, hdrained, State.updRoom_free hroom,
    State.mixRecord_off hoff, Bool.false_eq_true, if_false]

theorem State.reduce_collects (hcol : s1.me.collecting = true) {s2 : State}
    (hput : s1.hamperPut [⟨1, BitVec.ofNat 12 (ty + 16 * op), e.setWidth 48, BitVec.ofNat 64 (v % 2 ^ redWidth ty), [], 0, none, 0⟩] = some s2) :
    s.reduce .glob e ty op v = .next s2 := by
  rw [show 16 * op = at_ op 4 from Nat.mul_comm _ _] at hput
  simp only [State.reduce, State.place_glob_in s false hin hal, hxlate, Got.andThen, hcol, Bool.and_true, if_true,
    State.collect_of_hamperPut hput]

end Reduce

/-- The reductions to global memory, each with its type and operation (R156, R325). -/
def globalReds (a b : Reg) (wide : Bool) : List (Instr × Nat × Nat) :=
  [(.redAdd a b wide .glob, redType wide true, 0), (.redMin a b wide .glob, redType wide true, 1),
    (.redMax a b wide .glob, redType wide true, 2), (.redMinN a b wide .glob, redType wide false, 1), (.redMaxN a b wide .glob, redType wide false, 2)] ++
    (if wide then [] else [(.redAddF32 a b .glob, 4, 0), (.redMinF32 a b .glob, 4, 1), (.redMaxF32 a b .glob, 4, 2)])

theorem exec_globalReds {a b : Reg} {wide : Bool} {r : Instr × Nat × Nat} (hr : r ∈ globalReds a b wide) (s : State) :
    redWidth r.2.1 = (if wide then 64 else 32) ∧ exec r.1 s = guarded s (s.reduce .glob (s.x b) r.2.1 r.2.2 (s.x a).toNat) := by
  cases wide with
  | true =>
    simp only [globalReds, if_true, List.append_nil, List.mem_cons, List.not_mem_nil, or_false] at hr
    rcases hr with rfl | rfl | rfl | rfl | rfl <;> exact ⟨rfl, rfl⟩
  | false =>
    simp only [globalReds, Bool.false_eq_true, if_false, List.cons_append, List.nil_append, List.mem_cons, List.not_mem_nil, or_false] at hr
    rcases hr with rfl | rfl | rfl | rfl | rfl | rfl | rfl | rfl <;> exact ⟨rfl, rfl⟩

/-- Settles O36: each access passes the checks of its address, and nothing stands before it. -/
theorem globalAccess : Obligations.GlobalAccess := by
  intro s s1 a b c size m k imm wide p inter hacts hm hk e n x wa old op exp w amo reds
  refine ⟨fun hin hal => ⟨?load, ?store, ?collect⟩, ?atomic, ?reduce⟩
  case load =>
    intro hxlate hopen hdirect
    have hexec := exec_ld_glob (a := a) hacts hm hin hal hxlate hopen hdirect
    refine ⟨fun hempty => ?_, fun bs g hone hlen => ?_⟩
    · rwa [hempty] at hexec
    · rwa [hone, forwardBytes_whole p inter g (hlen.trans (length_memRead _ _ _).symm)] at hexec
  case store => exact fun hxlate hout _ hcol hopen hempty => exec_st_buffers hacts hm hin hal hxlate hout hcol hopen hempty
  case collect =>
    intro hxlate hcol hcol1
    have hexec := exec_st_collects (a := a) hacts hm hin hal hxlate hcol hcol1
    refine ⟨fun s2 hput => ?_, fun hfull => ?_⟩
    · rwa [State.collect_of_hamperPut hput] at hexec
    · rwa [State.collect_of_full hfull] at hexec
  case atomic =>
    intro hin hal hxlate hout hcol hquiet
    have hold : old < 2 ^ wa := by
      have hlt := natOf_lt (memRead s1.mem p (wa / 8))
      rw [length_memRead] at hlt
      rwa [show wa = amoWidth k from rfl, two_pow_amoWidth] at hlt
    have hamo : ∀ (i : Instr) (f : Nat) (signed : Bool) (v : Nat), exec i s = Machine.amo a b c k f signed s →
        amoNew f wa old (s.x c).toNat (s.x a).toNat = v % 2 ^ wa → amo i signed v := by
      intro i f signed v hexec hval
      obtain ⟨t, hnext, hword, hbytes, hx, hpc⟩ := amo_quiet hacts hk hin hal hxlate hout hcol hquiet f signed (a := a) (c := c)
      exact ⟨t, hexec.trans hnext, hword.trans hval, hbytes, hx, hpc⟩
    obtain ⟨hadd, hswap, hand, hor, hxor, hmin, hmax, hcas, hminN, hmaxN⟩ := amoNew_values hold (s.x c).toNat (s.x a).toNat
    exact ⟨hamo _ 0 true _ rfl hadd, hamo _ 1 true _ rfl hswap, hamo _ 2 true _ rfl hand, hamo _ 3 true _ rfl hor, hamo _ 4 true _ rfl hxor,
      hamo _ 5 true _ rfl hmin, hamo _ 6 true _ rfl hmax, hamo _ 7 true _ rfl hcas, hamo _ 8 false _ rfl hminN, hamo _ 9 false _ rfl hmaxN⟩
  case reduce =>
    intro hin hal hxlate r hr
    obtain ⟨hwidth, hexec⟩ := exec_globalReds (show r ∈ globalReds a b wide from hr) s
    have hw : w = redWidth r.2.1 := hwidth.symm
    rw [hw] at hal hxlate
    rw [hexec, guarded_acts hacts, hw]
    refine ⟨fun hcol hquiet hroom => ?_, fun hcol s2 hput => ?_⟩
    · rw [State.reduce_folds hin hal hxlate hcol hquiet hroom, finish_next]
    · rw [State.reduce_collects hin hal hxlate hcol hput, finish_next]

end Sys2Proof.Machine
end

section
/-! PROOF. What accesses to the memories leave as it is: whose turn it is, and the books of futures (R130, R142, R143). -/

namespace Sys2Proof.Machine

/-! ### Writes, recalls and stores -/

/-- Whose turn it is, and what the device holds of futures. -/
structure Turn where
  cur : Nat
  tags : List Nat
  gatesList : List (Nat × Nat)
  deferrals : List Defer

/-- That part of a state. -/
def State.turn (s : State) : Turn := ⟨s.cur, s.tags, s.gatesList, s.deferrals⟩

theorem State.turn_of_same {s t : State} (hcur : t.cur = s.cur) (htags : t.tags = s.tags) (hgates : t.gatesList = s.gatesList)
    (hdeferrals : t.deferrals = s.deferrals) : t.turn = s.turn := by
  rw [State.turn, State.turn, hcur, htags, hgates, hdeferrals]

theorem State.tcmWrite_turn (s : State) (core off : Nat) (bs : List Byte) : (s.tcmWrite core off bs).turn = s.turn := by
  unfold State.tcmWrite
  simp only
  split <;> rfl

theorem State.DirtyOnly.turn {s t : State} (h : s.DirtyOnly t) : t.turn = s.turn := by
  obtain ⟨_, _, _, rfl⟩ := h
  rfl

theorem State.devWrite_turn (s : State) (p : Nat) (inter : Bool) (bs : List Byte) : (s.devWrite p inter bs).turn = s.turn :=
  foldl_keeps (f := fun st sec => st.makeDirty inter sec) (fun st sec => (st.makeDirty_dirtyOnly inter sec).turn) s _

theorem State.hostPut_turn (s : State) (p a : Nat) (bs : List Byte) : (s.hostPut p a bs).turn = s.turn :=
  foldl_keeps (f := fun st sec => st.makeDirty true sec) (fun st sec => (st.makeDirty_dirtyOnly true sec).turn) s _

theorem State.barWrite_turn (s : State) (off : Nat) (bs : List Byte) : (s.barWrite off bs).turn = s.turn := by
  unfold State.barWrite
  simp only
  split
  · split
    · rfl
    · exact State.turn_of_same rfl rfl rfl rfl
  · split
    · exact State.turn_of_same rfl rfl rfl rfl
    · split
      · exact State.turn_of_same rfl rfl rfl rfl
      · rfl

theorem State.bellWrite_turn (s : State) (q : Nat) (bs : List Byte) : (s.bellWrite q bs).turn = s.turn := by
  unfold State.bellWrite
  simp only
  split
  · rfl
  · exact State.devWrite_turn s _ _ _

theorem State.windowWrite_turn (s : State) (g off : Nat) (bs : List Byte) : (s.windowWrite g off bs).turn = s.turn := by
  unfold State.windowWrite
  split
  · exact State.tcmWrite_turn s _ _ _
  · split
    · rfl
    · split
      · exact State.turn_of_same rfl rfl rfl rfl
      · rfl

theorem State.poke_turn (s : State) (p : Nat) (inter : Bool) (bs : List Byte) : (s.poke p inter bs).turn = s.turn := by
  unfold State.poke
  split
  · exact State.devWrite_turn s p inter bs
  · exact State.windowWrite_turn s _ _ bs
  · exact State.windowWrite_turn s _ _ bs
  · exact State.barWrite_turn s _ bs
  · exact State.bellWrite_turn s _ bs
  · exact State.hostPut_turn s p _ bs
  · rfl
  · rfl

theorem State.traceAdd_turn (s : State) (home kind size p src : Nat) : (s.traceAdd home kind size p src).turn = s.turn := by
  unfold State.traceAdd
  simp only
  split <;> rfl

theorem State.combineCopy_turn (s : State) (core sec : Nat) : (s.combineCopy core sec).turn = s.turn :=
  foldl_keeps (f := fun st e => (st.combineElem e).traceAdd (st.home e.pa e.inter) 2 (redWidth e.ty.toNat / 8) e.pa (st.source (core * 4)))
    (fun st e => (State.traceAdd_turn _ _ _ _ _ _).trans (State.poke_turn st e.pa e.inter _)) (s.setCore core _) _

theorem State.combineAll_turn (sec n : Nat) (s : State) (cores : List Nat) : (s.combineAll sec n cores).turn = s.turn := by
  induction n generalizing s cores with
  | zero => rfl
  | succ n ih =>
    unfold State.combineAll
    split
    · rfl
    · exact State.combineCopy_turn s _ sec
    · exact (ih _ _).trans (State.combineCopy_turn _ _ sec)

theorem State.recall_turn (s : State) (sec : Nat) : (s.recall sec).turn = s.turn := by
  have hsnoop : (s.snoop sec).turn = s.turn := by
    unfold State.snoop
    split <;> rfl
  unfold State.recall
  simp only
  split
  · exact hsnoop
  · exact (State.combineAll_turn _ _ _ _).trans hsnoop

theorem State.perform_turn (s : State) (slot p : Nat) (inter : Bool) (bs : List Byte) (sig : Bool) (kind : Nat) :
    (s.perform slot p inter bs sig kind).turn = s.turn := by
  have hput := (State.traceAdd_turn ((s.recallRange p bs.length).poke p inter bs) ((s.recallRange p bs.length).home p inter) kind bs.length p
    ((s.recallRange p bs.length).source slot)).trans ((State.poke_turn _ p inter bs).trans (foldl_keeps State.recall_turn s _))
  unfold State.perform
  simp only
  split
  · exact hput
  · exact hput

theorem State.strongPut_turn (s : State) (slot p : Nat) (inter : Bool) (bs : List Byte) (sig : Bool) (kind : Nat) :
    (s.strongPut slot p inter bs sig kind).turn = s.turn := by
  refine Eq.trans ?_ (State.perform_turn s slot p inter bs sig kind)
  unfold State.strongPut State.strongDone
  split <;> rfl

end Sys2Proof.Machine
end

section
/-! PROOF. Fences, cache maintenance, icsync and the hint (R130, R132, R135, R295, R328 to R331). -/

namespace Sys2Proof.Machine

/-! ### A drained buffer (R132) -/

theorem State.drainGo_turn (slot n : Nat) {s t : State} (h : s.drainGo slot n = some t) : t.turn = s.turn := by
  induction n generalizing s with
  | zero => exact congrArg State.turn (Option.some.inj h).symm
  | succ n ih =>
    unfold State.drainGo at h
    split at h
    · exact congrArg State.turn (Option.some.inj h).symm
    · split at h
      · exact nomatch h
      · exact (ih h).trans (State.strongPut_turn (s.setSlot slot _) _ _ _ _ _ _)

/-- A drain with enough fuel leaves no store in the buffer. -/
theorem State.drainGo_sbuf (slot n : Nat) {s t : State} (h : s.drainGo slot n = some t) (hfuel : (s.slot slot).sbuf.length ≤ n) :
    (t.slot slot).sbuf = [] := by
  induction n generalizing s with
  | zero =>
    obtain rfl := Option.some.inj h
    exact List.length_eq_zero_iff.mp (Nat.le_zero.mp hfuel)
  | succ n ih =>
    unfold State.drainGo at h
    split at h
    · next hnone =>
      obtain rfl := Option.some.inj h
      exact hnone
    · next st rest hbuf =>
      split at h
      · exact nomatch h
      · refine ih h ?_
        rw [State.performFirst, State.strongPut_sbuf, State.slot_setSlot_same, hbuf]
        rw [hbuf] at hfuel
        exact Nat.le_of_succ_le_succ hfuel

/-- A release that goes on leaves the slot with an empty buffer (R130, R132). -/
theorem State.drain_sbuf {s t : State} (h : s.drain s.cur = some t) : t.me.sbuf = [] := by
  obtain ⟨u, hu, rfl⟩ := Option.map_eq_some_iff.mp h
  have hcur : u.cur = s.cur := congrArg Turn.cur (State.drainGo_turn s.cur _ hu)
  have hbuf := State.drainGo_sbuf s.cur _ hu (le_refl _)
  show (u.slot u.cur).sbuf = []
  rw [hcur, hbuf]

theorem State.release_of_drain {s t : State} (h : s.drain s.cur = some t) (k : State → Eff) : s.release k = k t := by
  simp only [State.release, h]

theorem State.release_blocked {s : State} (h : s.drain s.cur = none) (k : State → Eff) : s.release k = .hold s := by
  simp only [State.release, h]

/-! ### Fences (R132, R135, R328, R329) -/

theorem exec_fence {s : State} (hacts : s.acts) (scope : BitVec 3) :
    exec (.fence scope) s = finish (if 5 ≤ scope.toNat then .trap s Cause.illegal 0 0 else s.release .next) := guarded_acts hacts _

/-- No failed command of the slot waits in an engine, so that nothing traps at it (R236). -/
theorem State.engTrap_none {s : State} {gather : Bool} (h : ∀ f ∈ (s.myCore.eng gather).fail, f.slot ≠ s.cur) (k : Eff) : s.engTrap gather k = k := by
  have hfind : (s.myCore.eng gather).fail.find? s.mineToTrap = none := by
    refine List.find?_eq_none.mpr fun f hf hmine => h f hf ?_
    simp only [State.mineToTrap, Bool.and_eq_true, beq_iff_eq] at hmine
    exact hmine.1
  rw [State.engTrap, hfind]

theorem State.mmaBusy_none {s : State} (h : ∀ m, s.myCore.mma = some m → m.slot ≠ s.cur) : s.mmaBusy = false := by
  unfold State.mmaBusy
  split
  · next m hm => exact beq_eq_false_iff_ne.mpr (h m hm)
  · rfl

/-- A fence.x in order, of a slot with no failed command and no mma, waits for its core path alone (R135). -/
theorem exec_fenceX {s : State} (hacts : s.acts) {scope : BitVec 3} {p q : BitVec 4} (hscope : scope.toNat ≤ 4) (hne : p ≠ q)
    (hp : p.toNat ≤ 6) (hq : q.toNat ≤ 6)
    (hbell : p = 5 ∨ q = 5 → (s.ctxOf s.me.ctx).perm.getLsbD 3 = true)
    (hfail : ∀ f ∈ s.myCore.copyEng.fail ++ s.myCore.gathEng.fail, f.slot ≠ s.cur) (hmma : ∀ m, s.myCore.mma = some m → m.slot ≠ s.cur) :
    exec (.fenceX p q scope) s = finish (if p = 0 then s.release .next else .next s) := by
  have hlegal : (decide (p = q) || decide (7 ≤ p.toNat) || decide (7 ≤ q.toNat) || decide (5 ≤ scope.toNat) ||
      ((decide (p = 5) || decide (q = 5)) && !(s.ctxOf s.me.ctx).perm.getLsbD 3)) = false := by
    simp only [hne, Nat.not_le.mpr (Nat.lt_succ_of_le hp), Nat.not_le.mpr (Nat.lt_succ_of_le hq), Nat.not_le.mpr (Nat.lt_succ_of_le hscope), decide_false,
      Bool.false_or, Bool.and_eq_false_iff, Bool.not_eq_false', Bool.or_eq_false_iff, decide_eq_false_iff_not]
    by_cases h : p = 5 ∨ q = 5
    · exact .inr (hbell h)
    · exact .inl (not_or.mp h)
  have hcopy : ∀ k, s.engTrap false k = k := State.engTrap_none fun f hf => hfail f (List.mem_append_left _ hf)
  have hgath : ∀ k, s.engTrap true k = k := State.engTrap_none fun f hf => hfail f (List.mem_append_right _ hf)
  refine (guarded_acts hacts _).trans ?_
  simp only [hlegal, hcopy, hgath, State.mmaBusy_none hmma, Bool.and_false, Bool.false_eq_true, if_false, ite_self]

/-! ### Write-backs and discards (R63, R67, R214, R330) -/

/-- Without a dirty bitmap a write-back has no bit to set (R214). -/
theorem State.orBit_no_bitmap {s : State} (h : s.pgDirty = 0) (sec : Nat) : s.orBit sec = s := by
  have hnone : s.bitmapAt sec = none := by simp [State.bitmapAt, h]
  rw [State.orBit, hnone]

theorem State.orsOut_no_bitmap {s : State} (h : s.pgDirty = 0) : s.orsOut = { s with wbOrs := [] } := by
  unfold State.orsOut
  split
  · next hnil =>
    rw [← List.isEmpty_iff.mp hnil]
  · exact List.foldl_fixed' (fun sec => State.orBit_no_bitmap (s := { s with wbOrs := [] }) h sec) s.wbOrs

/-- A written-back sector is clean, and nothing else of the state changes but the bits to come (R63). -/
theorem State.writeBackSec_clean {s : State} (h : s.pgDirty = 0) (sec : Nat) :
    ∃ d, s.writeBackSec sec = { s with dirty := d, wbOrs := [] } ∧ PMap.find d sec = none := by
  cases hdirty : PMap.find s.dirty sec with
  | none =>
    have hkept : s.writeBack1 sec = s := if_pos (by rw [hdirty]; rfl)
    rw [State.writeBackSec, hkept, State.orsOut_no_bitmap h]
    exact ⟨s.dirty, rfl, hdirty⟩
  | some d =>
    have hdrop : s.writeBack1 sec = { s with dirty := s.dirty.drop sec } := by
      have hnone : ({ s with dirty := s.dirty.drop sec } : State).bitmapAt sec = none := by simp [State.bitmapAt, h]
      simp only [State.writeBack1, hdirty, hnone, Option.isNone_some, Bool.false_eq_true, if_false]
    rw [State.writeBackSec, hdrop, State.orsOut_no_bitmap (s := { s with dirty := s.dirty.drop sec }) h]
    exact ⟨_, rfl, PMap.find_drop _ _⟩

/-- A discarded sector is clean, and holds again what memory held beneath it (R67). -/
theorem State.discardSec_undone {s : State} {sec : Nat} (hcopies : s.updHolders sec = []) (hguest : s.guest.held = []) (hdevice : sec * 128 < 2 ^ 38) :
    ∃ d held poison mem, s.discardSec sec = { s with dirty := d, hostHeld := held, poison := poison, mem := mem } ∧ PMap.find d sec = none ∧
      mem = (PMap.find s.dirty sec).elim s.mem fun under => memWrite s.mem (sec * 128) under.bytes := by
  have hdropped : (s.dropUpd sec).snoop sec = s := by
    simp [State.dropUpd, hcopies, State.snoop, hguest]
  cases hdirty : PMap.find s.dirty sec with
  | none =>
    simp only [State.discardSec, hdropped, hdirty]
    exact ⟨s.dirty, _, s.poison, s.mem, rfl, hdirty, rfl⟩
  | some under =>
    simp only [State.discardSec, hdropped, hdirty, State.undo, State.regionOf_device _ hdevice]
    exact ⟨_, _, _, _, rfl, PMap.find_drop _ _, rfl⟩

/-! ### The step of a dc instruction (R330) -/

/-- The slot of a dc instruction behind k bytes: its registers name what is left. -/
def dcMoved (a b : Reg) (k : Nat) (q : Slot) : Slot :=
  let r := q.setXr a (q.xr a + BitVec.ofNat 64 k)
  r.setXr b (r.xr b - BitVec.ofNat 64 k)

/-- The end of a dc step over k bytes: the chain issues again until nothing is left. -/
def dcNext (a b : Reg) (k : Nat) (s : State) : Eff :=
  let t := s.setSlot s.cur (dcMoved a b k s.me)
  if t.x b = 0 then .next t else .left t

theorem dcNext_eq (a b : Reg) (k : Nat) (s : State) : dcNext a b k s =
    (let s1 := s.setX a (s.x a + BitVec.ofNat 64 k)
     let s2 := s1.setX b (s1.x b - BitVec.ofNat 64 k)
     if s2.x b = 0 then .next s2 else .left s2) := by
  simp only [dcNext, dcMoved, State.x, State.setX_eq, State.setSlot_cur, State.setSlot_me, State.setSlot_setSlot]

theorem Slot.setXr_pc (q : Slot) (d : Reg) (v : Word) : (q.setXr d v).pc = q.pc := by rw [Slot.setXr_frame]

section Moved
variable {a b : Reg} (hab : a ≠ b) (ha : a ≠ 0) (hb : b ≠ 0) (k : Nat)
include hab ha hb

theorem dcMoved_xr (q : Slot) : (dcMoved a b k q).xr a = q.xr a + BitVec.ofNat 64 k ∧ (dcMoved a b k q).xr b = q.xr b - BitVec.ofNat 64 k := by
  have hkept : (q.setXr a (q.xr a + BitVec.ofNat 64 k)).xr b = q.xr b := by rw [Slot.xr_setXr, if_neg fun h => hab h.1.symm]
  rw [dcMoved, hkept]
  refine ⟨?_, ?_⟩
  · rw [Slot.xr_setXr, if_neg fun h => hab h.1, Slot.xr_setXr, if_pos ⟨rfl, ha⟩]
  · rw [Slot.xr_setXr, if_pos ⟨rfl, hb⟩]

/-- A dc step moves its two registers over the k bytes and touches no byte itself; the pc goes on once none is left. -/
theorem finish_dcNext (s : State) : ∃ t, finish (dcNext a b k s) = .next t ∧
    (t.x a = s.x a + BitVec.ofNat 64 k ∧ t.x b = s.x b - BitVec.ofNat 64 k ∧
      t.me.pc = if s.x b = BitVec.ofNat 64 k then s.me.npc else s.me.pc) ∧
    s.sameBytes t ∧ t.mem = s.mem ∧ t.dirty = s.dirty := by
  obtain ⟨hxa, hxb⟩ := dcMoved_xr hab ha hb k s.me
  have hpc : (dcMoved a b k s.me).pc = s.me.pc ∧ (dcMoved a b k s.me).npc = s.me.npc := by
    simp only [dcMoved, Slot.setXr_pc, Slot.setXr_npc, true_and]
  have hdone : (s.setSlot s.cur (dcMoved a b k s.me)).x b = 0 ↔ s.x b = BitVec.ofNat 64 k := by
    rw [State.x, State.setSlot_me, hxb]
    exact sub_eq_zero
  have hend : ∀ {q : Slot}, q.x = (dcMoved a b k s.me).x → (s.setSlot s.cur q).x a = s.x a + BitVec.ofNat 64 k ∧
      (s.setSlot s.cur q).x b = s.x b - BitVec.ofNat 64 k ∧ (s.setSlot s.cur q).me.pc = q.pc := by
    intro q hq
    have hregs : ∀ r, q.xr r = (dcMoved a b k s.me).xr r := fun r => by rw [Slot.xr, Slot.xr, hq]
    simp only [State.x, State.setSlot_me, hregs]
    exact ⟨hxa, hxb, trivial⟩
  by_cases hleft : s.x b = BitVec.ofNat 64 k
  · obtain ⟨h1, h2, h3⟩ := hend (q := { dcMoved a b k s.me with pc := (dcMoved a b k s.me).npc }) rfl
    rw [dcNext, if_pos (hdone.mpr hleft), finish_setSlot, if_pos hleft]
    exact ⟨_, rfl, ⟨h1, h2, h3.trans hpc.2⟩, State.sameBytes_setSlot _ _ _, rfl, rfl⟩
  · obtain ⟨h1, h2, h3⟩ := hend (q := dcMoved a b k s.me) rfl
    rw [dcNext, if_neg (mt hdone.mp hleft), finish_left, if_neg hleft]
    exact ⟨_, rfl, ⟨h1, h2, h3.trans hpc.1⟩, State.sameBytes_setSlot _ _ _, rfl, rfl⟩

end Moved

section Dc
variable {s s1 : State} {a b : Reg} {pa : Nat} {inter : Bool} (hcol : s.me.collecting = false) (hend : (s.x a).toNat + (s.x b).toNat ≤ 2 ^ 48)
include hcol hend

theorem dcStep_nothing (hlen : s.x b = 0) (flush : Bool) : dcStep a b flush s = .next s := by
  have hzero : (s.x b).toNat = 0 := congrArg BitVec.toNat hlen
  rw [hzero] at hend
  simp only [dcStep, hcol, hzero, Nat.not_lt.mpr hend, Bool.and_false, Bool.false_eq_true, if_false, if_true]

/-- A dc instruction at a sector that nothing stands before acts on it and moves on. -/
theorem dcStep_sector (hlen : s.x b ≠ 0) (flush : Bool) {k : Nat} (hk : k = min (s.x b).toNat (128 - (s.x a).toNat % 128))
    (hxlate : s.xlate (if flush then .load else .store) .plain (s.x a) k false (s.x a) = .ok (pa, inter) s1) (hopen : s1.openAt pa k)
    (hdrained : s1.drainSecs s1.cur [pa / 128] = s1) (hbitmap : flush = true → s1.pgDirty = 0) :
    dcStep a b flush s = dcNext a b k (s1.dcSector flush pa) ∧ pa < 2 ^ 38 ∧ s1.updHolders (pa / 128) = [] := by
  have hpos : (s.x b).toNat ≠ 0 := fun h => hlen (BitVec.eq_of_toNat_eq h)
  have hbytes : 0 < k := by omega
  obtain ⟨hlast, hfree, -, hcopies, hguest, -⟩ := hopen
  have hmine : s1.updHolders (pa / 128) = [] := hcopies _ (by
    simp only [sectorsOf, if_neg (Nat.pos_iff_ne_zero.mp hbytes), span, List.mem_map, List.mem_range]
    exact ⟨0, by have := Nat.div_le_div_right (c := 128) (show pa ≤ pa + k - 1 by omega); omega, rfl⟩)
  have hready : s1.dcReady flush pa = s1 := by
    have hrecall : s1.recall (sectorOf pa) = s1 := State.recall_unheld hguest hmine
    simp only [State.dcReady, show s1.drainSecs s1.cur [sectorOf pa] = s1 from hdrained, hrecall, ite_self]
  have hgoes : (flush && s1.writeBackWaits (sectorOf pa)) = false := by
    cases flush with
    | false => rfl
    | true =>
      have hnone : s1.bitmapAt (sectorOf pa) = none := by simp [State.bitmapAt, hbitmap rfl]
      simp [State.writeBackWaits, hnone]
  have hwide : (if (s.x b).toNat < sectorLeft (s.x a).toNat then (s.x b).toNat else sectorLeft (s.x a).toNat) = k := by
    rw [hk, sectorLeft]
    split <;> omega
  refine ⟨?_, by omega, hmine⟩
  rw [dcNext_eq]
  simp only [dcStep, hcol, Nat.not_lt.mpr hend, hpos, hwide, hxlate, Got.andThen, hfree, hready, hgoes, Bool.and_false, Bool.false_eq_true, if_false]

end Dc

/-- Settles O38: a fence is a drain of the slot's buffer, and a dc step acts on one open sector and moves its registers over it. -/
theorem orderingInstructions : Obligations.OrderingInstructions := by
  intro s s1 a b scope p q pa inter h
  refine ⟨?hint, ?fence, ?illegal, ?fenceX, ?icsync, ?dc⟩
  case hint => exact fun hnone => always_acts hnone _
  case fence =>
    intro hacts hscope
    have hexec := exec_fence hacts scope
    rw [if_neg (by omega)] at hexec
    refine ⟨fun hdrain => ⟨?_, State.drain_sbuf hdrain⟩, fun hblocked => ?_⟩
    · rwa [State.release_of_drain hdrain] at hexec
    · rwa [State.release_blocked hblocked] at hexec
  case illegal =>
    intro hacts hscope
    rw [exec_fence hacts scope, if_pos hscope, finish_trap]
  case fenceX =>
    intro hacts hscope hne hp hq hbell hfail hmma
    have hexec := exec_fenceX hacts hscope hne hp hq hbell hfail hmma
    refine ⟨fun hpath hdrain => ?_, fun hpath => ?_⟩
    · rwa [if_pos hpath, State.release_of_drain hdrain] at hexec
    · rwa [if_neg hpath] at hexec
  case icsync => exact fun hacts => guarded_acts hacts _
  case dc =>
    intro hacts hab ha hb hcol hend
    have hexec : exec (.dcFlush a b) s = finish (dcStep a b true s) ∧ exec (.dcDiscard a b) s = finish (dcStep a b false s) :=
      ⟨guarded_acts hacts _, guarded_acts hacts _⟩
    rw [hexec.1, hexec.2]
    refine ⟨fun hlen => ?_, fun hlen => ?_⟩
    · rw [dcStep_nothing hcol hend hlen, dcStep_nothing hcol hend hlen, finish_next]
      exact ⟨rfl, rfl⟩
    intro k moved
    refine ⟨fun hxlate hopen hdrained hbitmap => ?flush, fun hxlate hopen hdrained => ?discard⟩
    case flush =>
      obtain ⟨hstep, -, -⟩ := dcStep_sector hcol hend hlen true rfl hxlate hopen hdrained fun _ => hbitmap
      obtain ⟨d, hclean, hgone⟩ := State.writeBackSec_clean hbitmap (pa / 128)
      obtain ⟨t, hnext, hmoved, hbytes, -, hdirty⟩ := finish_dcNext hab ha hb k (s1.dcSector true pa)
      rw [show s1.dcSector true pa = _ from hclean] at hmoved hbytes hdirty
      refine ⟨t, (congrArg finish hstep).trans hnext, hmoved, hdirty ▸ hgone, fun r => (hbytes r).trans ?_⟩
      cases r <;> rfl
    case discard =>
      obtain ⟨hstep, hdevice, hcopies⟩ := dcStep_sector hcol hend hlen false rfl hxlate hopen hdrained fun h => nomatch h
      obtain ⟨-, -, -, -, hguest, -⟩ := hopen
      obtain ⟨d, held, poison, mem, hundone, hgone, hmem⟩ := State.discardSec_undone hcopies hguest (show pa / 128 * 128 < 2 ^ 38 by omega)
      obtain ⟨t, hnext, hmoved, hbytes, htmem, hdirty⟩ := finish_dcNext hab ha hb k (s1.dcSector false pa)
      rw [show s1.dcSector false pa = _ from hundone] at hmoved hbytes htmem hdirty
      refine ⟨t, (congrArg finish hstep).trans hnext, hmoved, hdirty ▸ hgone, fun hnone => ?_, fun under hunder hlen => ?_⟩
      · rw [hnone, Option.elim_none] at hmem
        rw [hmem] at hbytes
        intro r
        refine (hbytes r).trans ?_
        cases r <;> rfl
      · rw [hunder, Option.elim_some] at hmem
        have hwrote : s1.Wrote { s1 with dirty := d, hostHeld := held, poison := poison, mem := mem } (pa / 128 * 128) under.bytes :=
          ⟨hmem, rfl, rfl, fun _ => rfl, rfl, rfl, rfl, _, rfl⟩
        have hread := memRead_memWrite_same s1.mem (pa / 128 * 128) under.bytes
        rw [hlen, ← hmem] at hread
        exact ⟨(congrArg (memRead · _ _) htmem).trans hread, fun r hr => (hbytes r).trans (hwrote.byteAt (by rwa [hlen]))⟩

end Sys2Proof.Machine
end

section
/-! PROOF. Futures: their loads and fills, and how a deferral ends (R133, R143, R144, R326, R327). -/

namespace Sys2Proof.Machine

/-! ### The tag of a future (R143) -/

theorem State.setTag_full (s : State) (p : Nat) : ∃ tags, s.setTag p true = { s with tags := tags } ∧ tags.contains p = true := by
  by_cases hfull : s.tags.contains p = true
  · exact ⟨s.tags, if_pos hfull, hfull⟩
  · refine ⟨insertBy id p s.tags, if_neg hfull, ?_⟩
    rw [List.contains_iff_mem, mem_insertBy]
    exact .inl rfl

theorem State.setTag_empty (s : State) (p : Nat) : (s.setTag p false).isFull p = false := by
  simp [State.isFull, State.setTag]

/-! ### A load of a future (R143, R326) -/

/-- The load of a full future takes its value, with an acquire (R133). -/
def State.futureTaken (s : State) (d : Reg) (p : Nat) (take : Bool) : State :=
  let t := ((s.acquired s.cur).setX d (BitVec.ofNat 64 (natOf (memRead s.mem p 8)))).modMe fun q => { q with futStatus := 0 }
  if take then t.setTag p false else t

/-- The two loads of a future. -/
def ldFutureInstr (a b : Reg) (imm : Word) (take : Bool) : Instr := if take then .ldFTake a b imm else .ldF a b imm

theorem exec_ldFutureInstr {s : State} (hacts : s.acts) (a b : Reg) (imm : Word) (take : Bool) :
    exec (ldFutureInstr a b imm take) s = finish (ldFuture a b imm take s) := by
  cases take <;> exact guarded_acts hacts _

/-- A load of a future that nothing stands before takes it, or is deferred. -/
theorem ldFuture_quiet {s s1 : State} {a b : Reg} {imm : Word} {take : Bool} {p : Nat} {inter : Bool} (hin : (s.x b + imm).toNat < 2 ^ 48)
    (hal : (s.x b + imm).toNat % 8 = 0) (hxlate : s.xlate .load .future (s.x b + imm) 8 true (s.x b + imm) = .ok (p, inter) s1)
    (hcol : s.me.collecting = false) (hdirect : s1.direct) (hquiet : s1.quietAt p 8) :
    ldFuture a b imm take s = if s1.isFull p then .next (s1.futureTaken a p take) else deferLoad s1 p (s1.home p inter) take a := by
  obtain ⟨hopen, hdrained⟩ := hquiet
  have hrecall := State.recallRange_openAt hopen (Nat.le_refl 8)
  have hpeek := State.peek_openAt hopen (Nat.le_refl 8)
  obtain ⟨-, hfree, -, -, -, hclean, hmix, hunmixed, -⟩ := hopen
  simp only [ldFuture, ea, hcol, Bool.and_false, State.place_glob_in s false hin hal, hxlate, Got.andThen, loadFuture, hfree, hdrained, hrecall, hclean,
    State.sigRead_direct hdirect, State.mixClash_off hmix, State.strongRead_unmixed _ hunmixed, hpeek, Bool.false_eq_true, if_false]
  rfl

theorem State.futureTaken_end (s : State) (d : Reg) (p : Nat) (take : Bool) : ∃ t, finish (.next (s.futureTaken d p take)) = .next t ∧ s.sameBytes t ∧
    t.me = { s.me with x := (s.me.setXr d (BitVec.ofNat 64 (natOf (memRead s.mem p 8)))).x, futStatus := 0, pc := s.me.npc } ∧
    t.isFull p = if take then false else s.isFull p := by
  have hme : ∀ u : State, u.me = (((s.acquired s.cur).setX d (BitVec.ofNat 64 (natOf (memRead s.mem p 8)))).modMe fun q => { q with futStatus := 0 }).me →
      u.advance.me = { s.me with x := (s.me.setXr d (BitVec.ofNat 64 (natOf (memRead s.mem p 8)))).x, futStatus := 0, pc := s.me.npc } := by
    intro u hu
    have hacq : (s.acquired s.cur).me = s.me := rfl
    rw [State.advance_eq, State.setSlot_me, hu, State.modMe_eq, State.setSlot_me, State.setX_eq, State.setSlot_me, hacq, Slot.setXr_frame]
  have hbytes : ∀ tags, s.sameBytes ({ ((s.acquired s.cur).setX d (BitVec.ofNat 64 (natOf (memRead s.mem p 8)))).modMe (fun q => { q with futStatus := 0 })
      with tags := tags } : State).advance := by
    intro tags q
    cases q <;> rfl
  cases take with
  | false => exact ⟨_, rfl, hbytes s.tags, hme _ rfl, rfl⟩
  | true => exact ⟨_, rfl, hbytes _, hme _ rfl, State.setTag_empty _ p⟩

/-! ### A load of an empty future (R144) -/

/-- The count of refused loads stays at its largest value (R144). -/
theorem saturated_succ (r : BitVec 8) : (if r = 0xFF then 0xFF else r + 1 : BitVec 8).toNat = min 255 (r.toNat + 1) := by
  have hlt := r.isLt
  split
  · next h => rw [h]; rfl
  · next h =>
    have hne : r.toNat ≠ 255 := fun hr => h (BitVec.eq_of_toNat_eq hr)
    rw [BitVec.toNat_add, show BitVec.toNat (1 : BitVec 8) = 1 from rfl]
    omega

/-- What a load of a future may change of its slot, beside no byte: the status, the count of refusals, the register, whether the slot waits, and the pc (R143, R144). -/
def State.FutureEnd (s t : State) (status : BitVec 2) (pc : Addr) : Prop :=
  s.sameBytes t ∧ t.me = { s.me with x := t.me.x, futStatus := status, futRefused := t.me.futRefused, st := t.me.st, pc := pc }

section Empty
variable {s : State} (p home : Nat) (take : Bool) (d : Reg)

theorem deferLoad_expired (hlife : s.me.futLife = 0) : deferLoad s p home take d = .next (s.setSlot s.cur { s.me with futStatus := 1 }) := by
  simp only [deferLoad, hlife, if_true, State.modMe_eq]

theorem deferLoad_refused (hlife : s.me.futLife ≠ 0) (hfull : 256 ≤ s.deferCount home) : deferLoad s p home take d =
    .next (s.setSlot s.cur { s.me with futStatus := 2, futRefused := if s.me.futRefused = 0xFF then 0xFF else s.me.futRefused + 1 }) := by
  simp only [deferLoad, hlife, hfull, if_true, if_false, State.modMe_eq]

theorem deferLoad_deferred (hlife : s.me.futLife ≠ 0) (hroom : s.deferCount home < 256) : deferLoad s p home take d =
    .left { s.setSlot s.cur { s.me with st := .waiting } with
      deferrals := s.deferrals ++ [⟨s.cur, home, p, take, d, s.tick.toNat + s.me.futLife.toNat⟩] } := by
  simp only [deferLoad, hlife, Nat.not_le.mpr hroom, if_false, State.modMe_eq]
  rfl

/-- A load of an empty future ends at once without a value, is refused by a full buffer, or leaves its slot waiting with one deferral more. -/
theorem deferLoad_end : ∃ t, finish (deferLoad s p home take d) = .next t ∧ t.me.x = s.me.x ∧ t.tags = s.tags ∧
    (s.me.futLife = 0 → s.FutureEnd t 1 s.me.npc ∧ t.deferrals = s.deferrals) ∧
    (s.me.futLife ≠ 0 → 256 ≤ s.deferCount home → s.FutureEnd t 2 s.me.npc ∧ t.deferrals = s.deferrals ∧
      t.me.futRefused.toNat = min 255 (s.me.futRefused.toNat + 1)) ∧
    (s.me.futLife ≠ 0 → s.deferCount home < 256 → s.FutureEnd t s.me.futStatus s.me.pc ∧ t.me.st = .waiting ∧
      t.deferrals = s.deferrals ++ [⟨s.cur, home, p, take, d, s.tick.toNat + s.me.futLife.toNat⟩]) := by
  by_cases hlife : s.me.futLife = 0
  · rw [deferLoad_expired p home take d hlife, finish_setSlot]
    refine ⟨_, rfl, by rw [State.setSlot_me], rfl, fun _ => ⟨⟨State.sameBytes_setSlot _ _ _, by rw [State.setSlot_me]⟩, rfl⟩, fun h => absurd hlife h,
      fun h => absurd hlife h⟩
  · rcases Nat.lt_or_ge (s.deferCount home) 256 with hroom | hfull
    · have hme : ∀ ds, ({ s.setSlot s.cur { s.me with st := .waiting } with deferrals := ds } : State).me = { s.me with st := .waiting } :=
        fun _ => State.setSlot_me s _
      rw [deferLoad_deferred p home take d hlife hroom, finish_left]
      refine ⟨_, rfl, by rw [hme], rfl, fun h => absurd h hlife, fun _ h => absurd h (Nat.not_le.mpr hroom), fun _ _ => ⟨⟨?_, by rw [hme]⟩, by rw [hme], rfl⟩⟩
      exact State.sameBytes_setSlot s s.cur { s.me with st := .waiting }
    · rw [deferLoad_refused p home take d hlife hfull, finish_setSlot]
      refine ⟨_, rfl, by rw [State.setSlot_me], rfl, fun h => absurd h hlife, fun _ _ => ⟨⟨State.sameBytes_setSlot _ _ _, by rw [State.setSlot_me]⟩, rfl, ?_⟩,
        fun _ h => absurd h (Nat.not_lt.mpr hfull)⟩
      rw [State.setSlot_me]
      exact saturated_succ _

end Empty

/-! ### A store that performs, for every slot (R62, R124) -/

theorem State.notify_slot (s : State) (sec k : Nat) : ∃ o, (s.notify sec).slot k = { s.slot k with wait := o } := by
  have hfind := PMap.find_map_value s.slots (fun _ (q : Slot) => { q with wait := q.wait.map fun (w : Wait) => w.noticed sec }) k
  simp only [State.slot, State.notify, PMap.get, hfind]
  cases PMap.find s.slots k with
  | none => exact ⟨_, rfl⟩
  | some q => exact ⟨_, rfl⟩

/-- A store that performs changes no more of any slot than its wait, which a notice reaches. -/
theorem State.strongPut_slot (s : State) (slot p : Nat) (inter : Bool) (bs : List Byte) (sig : Bool) (kind k : Nat) :
    ∃ o, (s.strongPut slot p inter bs sig kind).slot k = { s.slot k with wait := o } := by
  have hbooks : (((s.recallRange p bs.length).poke p inter bs).traceAdd ((s.recallRange p bs.length).home p inter) kind bs.length p
      ((s.recallRange p bs.length).source slot)).slots = s.slots :=
    congrArg Books.slots ((State.traceAdd_books _ _ _ _ _ _).trans ((State.poke_books _ p inter bs).trans (State.recallRange_books s p bs.length)))
  have hput : (((s.recallRange p bs.length).poke p inter bs).traceAdd ((s.recallRange p bs.length).home p inter) kind bs.length p
      ((s.recallRange p bs.length).source slot)).slot k = s.slot k := by rw [State.slot, hbooks, State.slot]
  have hperform : ∃ o, (s.perform slot p inter bs sig kind).slot k = { s.slot k with wait := o } := by
    unfold State.perform
    simp only
    split
    · rw [← hput]
      exact State.notify_slot _ _ k
    · exact ⟨_, hput⟩
  obtain ⟨o, ho⟩ := hperform
  refine ⟨o, Eq.trans ?_ ho⟩
  unfold State.strongPut State.strongDone
  split <;> rfl

/-! ### The answer to deferred loads (R143, R144) -/

theorem State.gatesAt_none {s : State} {p : Nat} (h : ∀ q ∈ s.gatesList, q.1 ≠ p) (inter : Bool) : s.gatesAt p inter = s := by
  have hmine : (s.gatesList.filter fun q => q.1 == p) = [] := List.filter_eq_nil_iff.mpr fun q hq => by simpa using h q hq
  have hrest : (s.gatesList.filter fun q => q.1 != p) = s.gatesList := List.filter_eq_self.mpr fun q hq => by simpa using h q hq
  simp only [State.gatesAt, hmine, hrest, List.foldl_nil]

/-- The bytes of a state's memories, with its device memory as a list. -/
def State.content (s : State) : Mem × (MemAt → Byte) := (s.mem, s.byteAt)

theorem State.setTag_content (s : State) (p : Nat) (full : Bool) : (s.setTag p full).content = s.content := by
  unfold State.setTag
  split
  · split <;> rfl
  · rfl

theorem State.answer_content (s : State) (d : Defer) (status : Nat) : (s.answer d status).content = s.content := by
  unfold State.answer
  simp only
  split <;> rfl

/-- Answers touch no byte. -/
theorem State.answerAll_content (s : State) (p : Nat) : (s.answerAll p).content = s.content := by
  unfold State.answerAll
  refine foldl_keeps (obs := State.content) (fun st d => ?_) s _
  simp only
  split
  · split
    · exact (State.setTag_content _ _ _).trans (State.answer_content _ _ _)
    · exact State.answer_content _ _ _
  · rfl

theorem State.setGrove_content {s : State} {g : Nat} {v : Grove} (hv : v.scratch = (s.grove g).scratch) : (s.setGrove g v).content = s.content := by
  refine Prod.ext rfl (funext fun q => ?_)
  cases q with
  | device a => rfl
  | host a => rfl
  | tcm core a => rfl
  | scratch k a => exact congrArg (memByte · a) (State.scratch_setGrove hv k)

/-- A record of debug mode is in a grove, beside its bytes, and touches neither slots nor futures (R138). -/
theorem State.mixRecord_eq (s : State) (p n : Nat) (inter : Bool) : ∃ groves, s.mixRecord p n inter = { s with groves := groves } ∧
    (s.mixRecord p n inter).content = s.content := by
  unfold State.mixRecord
  split
  · exact ⟨_, rfl, State.setGrove_content rfl⟩
  · exact ⟨s.groves, rfl, rfl⟩

theorem State.answerAll_none {s : State} {p : Nat} (h : ∀ d ∈ s.deferrals, d.pa ≠ p) : s.answerAll p = s := by
  have hmine : (s.deferrals.filter fun d => d.pa == p) = [] := List.filter_eq_nil_iff.mpr fun d hd => by simpa using h d hd
  rw [State.answerAll, hmine, List.foldl_nil]

/-- The one deferred load of a full future takes its value, and a .take empties it. -/
theorem State.answerAll_one {s : State} {p : Nat} {d : Defer} (hone : s.deferrals = [d]) (hpa : d.pa = p) (hfull : s.isFull p = true) :
    s.answerAll p = if d.take then (s.answer d 0).setTag p false else s.answer d 0 := by
  have hmine : (s.deferrals.filter fun e => e.pa == p) = [d] := by simp [hone, hpa]
  simp only [State.answerAll, hmine, List.foldl_cons, List.foldl_nil, hfull, if_true]

/-- What the answer of the one deferred load leaves. -/
theorem State.answerAll_one_end {s : State} {p : Nat} {d : Defer} (hone : s.deferrals = [d]) (hpa : d.pa = p) (hfull : s.isFull p = true) {v : Word}
    (hval : BitVec.ofNat 64 (natOf (s.peek p 8)) = v) :
    (s.answerAll p).isFull p = !d.take ∧ (s.answerAll p).deferrals = [] ∧ (s.answerAll p).cur = s.cur ∧
    (s.answerAll p).slot d.slot = { (s.slot d.slot).setXr d.dst v with futStatus := 0, st := .run, pc := (s.slot d.slot).npc } := by
  have hgone : (s.answer d 0).deferrals = [] := by
    have hrest : (s.deferrals.filter fun e => e.slot != d.slot) = [] := by simp [hone]
    exact hrest
  have hslot : (s.answer d 0).slot d.slot =
      { (s.slot d.slot).setXr d.dst v with futStatus := 0, st := .run, pc := (s.slot d.slot).npc } := by
    rw [← hval, ← hpa]
    exact State.slot_setSlot_same _ _ _
  rw [State.answerAll_one hone hpa hfull]
  cases d.take with
  | false => exact ⟨hfull, hgone, rfl, hslot⟩
  | true => exact ⟨State.setTag_empty _ p, hgone, rfl, hslot⟩

/-! ### A fill (R143, R326) -/

section Fill
variable {s : State} {p : Nat} {inter : Bool} (hopen : s.openAt p 8) (hgates : ∀ q ∈ s.gatesList, q.1 ≠ p) (v : Word)
include hopen hgates

/-- A fill is a store that performs, and then the answers over the full future. -/
theorem State.fill_open : ∃ u : State, s.fill s.cur p inter v 0 = u.answerAll p ∧ s.Wrote u p (bytesOf 8 v.toNat) ∧ u.isFull p = true ∧
    u.cur = s.cur ∧ u.deferrals = s.deferrals ∧ ∀ k, ∃ o, u.slot k = { s.slot k with wait := o } := by
  have hturn := s.strongPut_turn s.cur p inter (bytesOf 8 v.toNat) true 0
  have hslot := fun k => s.strongPut_slot s.cur p inter (bytesOf 8 v.toNat) true 0 k
  have hwrote := State.strongPut_wrote hopen (length_bytesOf 8 v.toNat) (by decide) s.cur inter true 0
  have hfill : s.fill s.cur p inter v 0 = (((s.strongPut s.cur p inter (bytesOf 8 v.toNat) true 0).setTag p true).gatesAt p inter).answerAll p := rfl
  generalize s.strongPut s.cur p inter (bytesOf 8 v.toNat) true 0 = u at hturn hslot hwrote hfill
  obtain ⟨tags, htag, hfull⟩ := u.setTag_full p
  have hnone : ∀ q ∈ ({ u with tags := tags } : State).gatesList, q.1 ≠ p := by
    rw [show ({ u with tags := tags } : State).gatesList = s.gatesList from congrArg Turn.gatesList hturn]
    exact hgates
  rw [htag, State.gatesAt_none hnone] at hfill
  obtain ⟨hmem, hhost, hcores, hscratch, hguest, hcommits, hcur, hme⟩ := hwrote
  exact ⟨_, hfill, ⟨hmem, hhost, hcores, hscratch, hguest, hcommits, hcur, hme⟩, hfull, hcur, congrArg Turn.deferrals hturn, hslot⟩

/-- What a fill leaves, with the record of a slot in debug mode. -/
theorem State.fill_end : ∃ t, (s.fill s.cur p inter v 0).mixRecord p 8 inter = t ∧ memRead t.mem p 8 = bytesOf 8 v.toNat ∧
    (∀ q, (∀ j, j < 8 → q ≠ .device (p + j)) → t.byteAt q = s.byteAt q) ∧
    ((∀ d ∈ s.deferrals, d.pa ≠ p) → t.isFull p = true ∧ t.deferrals = s.deferrals ∧ t.me.x = s.me.x) ∧
    (∀ d, s.deferrals = [d] → d.pa = p → t.cur = s.cur ∧ t.isFull p = !d.take ∧ t.deferrals = [] ∧
      (t.slot d.slot).x = ((s.slot d.slot).setXr d.dst v).x ∧ (t.slot d.slot).futStatus = 0 ∧ (t.slot d.slot).st = .run) := by
  obtain ⟨u, hfill, hwrote, hfull, hcur, hdef, hslot⟩ := State.fill_open (inter := inter) hopen hgates v
  obtain ⟨groves, hmix, hcontent⟩ := (u.answerAll p).mixRecord_eq p 8 inter
  have hsame : ((u.answerAll p).mixRecord p 8 inter).content = u.content := hcontent.trans (u.answerAll_content p)
  rw [hfill]
  refine ⟨_, rfl, ?_, fun q hq => ?_, fun hnone => ?_, fun d hone hpa => ?_⟩
  · rw [show ((u.answerAll p).mixRecord p 8 inter).mem = u.mem from congrArg Prod.fst hsame, hwrote.mem, memRead_memWrite_bytesOf]
  · refine (congrFun (congrArg Prod.snd hsame) q).trans (hwrote.byteAt fun j hj => hq j ?_)
    rwa [length_bytesOf] at hj
  · have hkept : u.answerAll p = u := State.answerAll_none (by rwa [hdef])
    obtain ⟨o, hme⟩ := hslot s.cur
    rw [hmix, hkept]
    refine ⟨hfull, hdef, ?_⟩
    show (u.slot u.cur).x = _
    rw [hcur, hme]
    rfl
  · have hpeek : u.peek p 8 = bytesOf 8 v.toNat := by
      have hend := hopen.1
      rw [State.peek, if_pos (by omega), hwrote.mem, memRead_memWrite_bytesOf]
    have hval : BitVec.ofNat 64 (natOf (u.peek p 8)) = v := by
      rw [hpeek, natOf_bytesOf, show 256 ^ 8 = 2 ^ 64 by norm_num, Nat.mod_eq_of_lt v.isLt, BitVec.ofNat_toNat, BitVec.setWidth_eq]
    obtain ⟨htag, hgone, hc, hanswer⟩ := State.answerAll_one_end (hdef.trans hone) hpa hfull hval
    obtain ⟨o, hd⟩ := hslot d.slot
    rw [hmix]
    refine ⟨hc.trans hcur, htag, hgone, ?_, ?_, ?_⟩
    · show ((u.answerAll p).slot d.slot).x = _
      rw [hanswer]
      exact Slot.setXr_x (by rw [hd]) _ _
    · show ((u.answerAll p).slot d.slot).futStatus = _
      rw [hanswer]
    · show ((u.answerAll p).slot d.slot).st = _
      rw [hanswer]

end Fill

section Store
variable {s s1 : State} {a b : Reg} {imm : Word} {p : Nat} {inter : Bool} (hacts : s.acts) (hin : (s.x b + imm).toNat < 2 ^ 48)
  (hal : (s.x b + imm).toNat % 8 = 0) (hxlate : s.xlate .store .future (s.x b + imm) 8 true (s.x b + imm) = .ok (p, inter) s1)
  (hcol : s1.me.collecting = false) (hout : s1.allOut) (hopen : s1.openAt p 8)
include hacts hin hal hxlate hcol hout hopen

theorem exec_stF_fills : exec (.stF a b imm) s = .next ((s1.fill s1.cur p inter (s1.x a) 0).mixRecord p 8 inter).advance := by
  obtain ⟨-, hfree, -, -, -, -, hmix, -⟩ := hopen
  refine (guarded_acts hacts _).trans ?_
  simp only [ea, State.place_glob_in s false hin hal, hxlate, Got.andThen, hcol, State.release_of_allOut hout, hfree, State.mixClash_off hmix,
    Bool.false_eq_true, if_false, finish_next]

end Store

/-! ### The ends of a deferral (R144, R327) -/

section Ends
variable {s : State} {d : Defer} (hone : s.deferrals = [d])
include hone

theorem exec_deferralExpiry_due (hdue : d.expire ≤ s.tick.toNat) : exec (.deferralExpiry d.slot) s = .next (s.answer d 1) := by
  have hfind : s.deferrals.find? (fun q => q.slot == d.slot && decide (q.expire ≤ s.tick.toNat)) = some d := by simp [hone, hdue]
  show execDeferralExpiry d.slot s = _
  rw [execDeferralExpiry, hfind]

/-- The answer without a value leaves the register, gives the status, and lets the slot go on. -/
theorem State.answer_status (status : Nat) (hstatus : status ≠ 0) : s.answer d status =
    { s.setSlot d.slot { s.slot d.slot with futStatus := BitVec.ofNat 2 status, st := .run, pc := (s.slot d.slot).npc } with deferrals := [] } := by
  have hrest : (s.deferrals.filter fun q => q.slot != d.slot) = [] := by simp [hone]
  simp only [State.answer, hstatus, if_false, State.modSlot_eq, State.setSlot_deferrals, hrest]

theorem exec_futureCancel_stopped (hstop : (s.slot d.slot).stop.isSome = true) : exec (.futureCancel d.slot) s =
    .next { s.setSlot d.slot { s.slot d.slot with st := .run } with deferrals := [] } := by
  have hrest : (s.deferrals.filter fun q => q.slot != d.slot) = [] := by simp [hone]
  have hany : (s.deferrals.any fun q => q.slot == d.slot) = true := by simp [hone]
  show execFutureCancel d.slot s = _
  rw [execFutureCancel, hstop, hany, hrest]
  rfl

end Ends

/-- Settles O37: a load takes the value or is deferred, a fill answers the loads deferred at it, and each end of a deferral is one event. -/
theorem futureResults : Obligations.FutureResults := by
  intro s s1 a b imm take p slot inter e ld
  refine ⟨fun hacts hin hal hxlate hcol hdirect hquiet => ?load, fun hacts hin hal hxlate hcol hout hopen hgates => ?store,
    fun d hone hslot => ⟨?expiry, ?cancel⟩⟩
  case load =>
    intro same
    have hexec : exec ld s = finish (if s1.isFull p then .next (s1.futureTaken a p take) else deferLoad s1 p (s1.home p inter) take a) :=
      (exec_ldFutureInstr hacts a b imm take).trans (congrArg finish (ldFuture_quiet hin hal hxlate hcol hdirect hquiet))
    refine ⟨fun hfull => ?full, fun hempty => ?empty⟩
    case full =>
      obtain ⟨t, hnext, hbytes, hme, htag⟩ := s1.futureTaken_end a p take
      rw [if_pos hfull, hnext] at hexec
      refine ⟨t, hexec, ⟨hbytes, by rw [hme]⟩, ?_, by rw [hme], by rw [hme]⟩
      rw [htag, hfull]
      cases take <;> rfl
    case empty =>
      rw [if_neg (by rw [hempty]; exact Bool.false_ne_true)] at hexec
      obtain ⟨t, hnext, hends⟩ := deferLoad_end (s := s1) p (s1.home p inter) take a
      exact ⟨t, hexec.trans hnext, hends⟩
  case store =>
    obtain ⟨t, hfill, hmem, hbytes, hnone, hone⟩ := State.fill_end (inter := inter) hopen hgates (s1.x a)
    have hexec := exec_stF_fills (a := a) hacts hin hal hxlate hcol hout hopen
    rw [hfill] at hexec
    refine ⟨_, hexec, hmem, fun q hq => (State.sameBytes_setSlot _ _ _ q).trans (hbytes q hq), fun hno => ?_, fun d hd hpa hother => ?_⟩
    · obtain ⟨htag, hdef, hx⟩ := hnone hno
      refine ⟨htag, hdef, ?_⟩
      rw [State.advance_eq, State.setSlot_me]
      exact hx
    · obtain ⟨hcur, htag, hgone, hanswer⟩ := hone d hd hpa
      have hslot : t.advance.slot d.slot = t.slot d.slot := State.slot_setSlot_ne _ _ (by rwa [hcur])
      rw [hslot]
      exact ⟨htag, hgone, hanswer⟩
  case expiry =>
    intro hdue
    rw [← hslot, exec_deferralExpiry_due hone hdue, State.answer_status hone 1 Nat.one_ne_zero]
    rfl
  case cancel =>
    intro hstop
    rw [← hslot] at hstop ⊢
    exact exec_futureCancel_stopped hone hstop

end Sys2Proof.Machine
end

section
/-! PROOF. The operations on the list of a CLOSED hamper (R156, R161, R163 to R166, R342). -/

namespace Sys2Proof.Machine

/-! ### A unit of a hamper's storage (R53, R156, R160) -/

theorem State.latePut_turn (s : State) (l : Late) : (s.latePut l).turn = s.turn := by
  have hput : ((s.recallRange l.st.pa l.st.bytes.length).poke l.st.pa l.st.inter l.st.bytes).turn = s.turn :=
    (State.poke_turn _ _ _ _).trans (foldl_keeps State.recall_turn s _)
  unfold State.latePut
  split
  · split <;> rfl
  · split
    · exact State.strongPut_turn s _ _ _ _ _ _
    · simp only
      split
      · exact hput
      · exact hput

theorem State.recWrite_turn (s : State) (pa off : Nat) (bs : List Byte) : (s.recWrite pa off bs).turn = s.turn := by
  unfold State.recWrite State.lateWrite
  split
  · rfl
  · exact State.latePut_turn s _

/-- Write one unit at its place. -/
def State.unitPut (s : State) (slot : Nat) (u : UnitAt) (bs : List Byte) : State :=
  match u with
  | .share n => s.tcmWrite (coreOf slot) ((s.core (coreOf slot)).hamperOff (slotNo slot) + 16 * n) bs
  | .frame p => s.recWrite p 0 bs

section Units
variable (s : State) (slot : Nat) (places : List UnitAt) (u : UnitAt) (bs : List Byte)

theorem State.unitsPut_eq_foldl : s.unitsPut slot places bs =
    (List.zip (List.range places.length) places).foldl (fun st q => st.unitPut slot q.2 ((bs.drop (16 * q.1)).take 16)) s := rfl

/-- The last unit is written behind the others. -/
theorem State.unitsPut_concat : s.unitsPut slot (places ++ [u]) bs =
    (s.unitsPut slot places bs).unitPut slot u ((bs.drop (16 * places.length)).take 16) := by
  rw [State.unitsPut_eq_foldl, State.unitsPut_eq_foldl, List.length_append, List.length_singleton, List.range_succ,
    List.zip_append List.length_range, List.foldl_append]
  rfl

theorem State.unitPut_me_cur : (s.unitPut slot u bs).me = s.me ∧ (s.unitPut slot u bs).cur = s.cur := by
  have hkeeps : (s.unitPut slot u bs).slots = s.slots ∧ (s.unitPut slot u bs).cur = s.cur := by
    cases u with
    | share n => exact ⟨congrArg Books.slots (s.tcmWrite_books _ _ bs), s.tcmWrite_cur _ _ bs⟩
    | frame p => exact ⟨s.recWrite_slots p 0 bs, congrArg Turn.cur (s.recWrite_turn p 0 bs)⟩
  obtain ⟨hslots, hcur⟩ := hkeeps
  exact ⟨by rw [State.me, State.me, State.slot, State.slot, hslots, hcur], hcur⟩

/-- Wherever the units lie, the slot in turn and its registers stay. -/
theorem State.unitsPut_me_cur : (s.unitsPut slot places bs).me = s.me ∧ (s.unitsPut slot places bs).cur = s.cur := by
  rw [State.unitsPut_eq_foldl]
  exact ⟨foldl_keeps (obs := State.me) (fun st (q : Nat × UnitAt) => (st.unitPut_me_cur slot q.2 _).1) s _,
    foldl_keeps (obs := State.cur) (fun st (q : Nat × UnitAt) => (st.unitPut_me_cur slot q.2 _).2) s _⟩

end Units

/-! ### Units in the slot's share of TCM (R53, R160) -/

/-- A write of TCM changes cores and groves alone, and no core's carve-outs. -/
theorem State.tcmWrite_frame (s : State) (core off : Nat) (bs : List Byte) :
    s.tcmWrite core off bs = { s with cores := (s.tcmWrite core off bs).cores, groves := (s.tcmWrite core off bs).groves } ∧
    ∀ c n, ((s.tcmWrite core off bs).core c).hamperOff n = (s.core c).hamperOff n := by
  have hoff : ∀ c n, ((s.setCore core { s.core core with tcm := memWrite (s.core core).tcm off bs }).core c).hamperOff n = (s.core c).hamperOff n := by
    intro c n
    by_cases hc : c = core
    · rw [hc, State.core_setCore_same]
      rfl
    · rw [State.core_setCore_ne s _ hc]
  obtain h | ⟨ps, h⟩ := s.tcmWrite_cases core off bs
  · rw [h]
    exact ⟨rfl, hoff⟩
  · rw [h]
    exact ⟨rfl, hoff⟩

/-- A write of TCM leaves the bytes of a range that it does not meet. -/
theorem State.tcmRead_tcmWrite_apart (s : State) {core off a n : Nat} {bs : List Byte} (h : a + n ≤ off ∨ off + bs.length ≤ a) :
    (s.tcmWrite core off bs).tcmRead core a n = s.tcmRead core a n := by
  have hput : (s.setCore core { s.core core with tcm := memWrite (s.core core).tcm off bs }).tcmRead core a n = s.tcmRead core a n := by
    rw [State.tcmRead, State.core_setCore_same]
    exact memRead_memWrite_apart _ h
  obtain hw | ⟨ps, hw⟩ := s.tcmWrite_cases core off bs
  · rw [hw, hput]
  · rw [hw, State.tcmRead, State.core_setGrove]
    exact hput

/-- Every unit lies in the slot's share of TCM. -/
def InShare (places : List UnitAt) : Prop := ∀ u ∈ places, ∃ k, u = .share k

theorem inShare_concat {places : List UnitAt} {u : UnitAt} (h : InShare (places ++ [u])) : InShare places ∧ ∃ k, u = .share k :=
  ⟨fun v hv => h v (List.mem_append_left _ hv), h u (List.mem_append_right _ List.mem_cons_self)⟩

section Share
variable (s : State) (slot : Nat) {places : List UnitAt} (bs : List Byte) (hshare : InShare places)
include hshare

theorem State.unitsPut_share_frame :
    s.unitsPut slot places bs = { s with cores := (s.unitsPut slot places bs).cores, groves := (s.unitsPut slot places bs).groves } ∧
    ∀ c n, ((s.unitsPut slot places bs).core c).hamperOff n = (s.core c).hamperOff n := by
  induction places using List.reverseRecOn with
  | nil => exact ⟨rfl, fun _ _ => rfl⟩
  | append_singleton places u ih =>
    obtain ⟨hplaces, k, rfl⟩ := inShare_concat hshare
    obtain ⟨hstate, hoff⟩ := ih hplaces
    rw [State.unitsPut_concat]
    obtain ⟨hstate1, hoff1⟩ := (s.unitsPut slot places bs).tcmWrite_frame (coreOf slot)
      (((s.unitsPut slot places bs).core (coreOf slot)).hamperOff (slotNo slot) + 16 * k) ((bs.drop (16 * places.length)).take 16)
    refine ⟨hstate1.trans ?_, fun c n => (hoff1 c n).trans (hoff c n)⟩
    rw [hstate]
    rfl

/-- The last of the units is a write of TCM at its number. -/
theorem State.unitsPut_concat_share (k : Nat) : s.unitsPut slot (places ++ [.share k]) bs =
    (s.unitsPut slot places bs).tcmWrite (coreOf slot) ((s.core (coreOf slot)).hamperOff (slotNo slot) + 16 * k)
      ((bs.drop (16 * places.length)).take 16) := by
  obtain ⟨-, hoff⟩ := s.unitsPut_share_frame slot bs hshare
  rw [State.unitsPut_concat, State.unitPut, hoff]

/-- No byte beside the units changes. -/
theorem State.byteAt_unitsPut_share {p : MemAt} (hp : ∀ k j, UnitAt.share k ∈ places → j < 16 →
    p ≠ .tcm (coreOf slot) ((s.core (coreOf slot)).hamperOff (slotNo slot) + 16 * k + j)) : (s.unitsPut slot places bs).byteAt p = s.byteAt p := by
  induction places using List.reverseRecOn with
  | nil => rfl
  | append_singleton places u ih =>
    obtain ⟨hplaces, k, rfl⟩ := inShare_concat hshare
    rw [State.unitsPut_concat_share s slot bs hplaces]
    have hunit : ∀ j, j < ((bs.drop (16 * places.length)).take 16).length →
        p ≠ .tcm (coreOf slot) ((s.core (coreOf slot)).hamperOff (slotNo slot) + 16 * k + j) := fun j hj =>
      hp k j (List.mem_append_right _ List.mem_cons_self) (hj.trans_le (List.length_take_le _ _))
    exact (State.byteAt_tcmWrite_apart hunit).trans (ih hplaces fun n j hn => hp n j (List.mem_append_left _ hn))

/-- Each unit holds its sixteen bytes, where no place stands twice. -/
theorem State.tcmRead_unitsPut_share (hnodup : places.Nodup) (hlen : 16 * places.length ≤ bs.length) {i k : Nat} (hi : places[i]? = some (.share k)) :
    (s.unitsPut slot places bs).tcmRead (coreOf slot) ((s.core (coreOf slot)).hamperOff (slotNo slot) + 16 * k) 16 = (bs.drop (16 * i)).take 16 := by
  induction places using List.reverseRecOn with
  | nil => exact nomatch hi
  | append_singleton places u ih =>
    obtain ⟨hplaces, n, rfl⟩ := inShare_concat hshare
    rw [List.length_append, List.length_singleton] at hlen
    have hchunk : ((bs.drop (16 * places.length)).take 16).length = 16 := by
      rw [List.length_take, List.length_drop]
      omega
    rw [State.unitsPut_concat_share s slot bs hplaces]
    obtain ⟨hfresh, hrest⟩ : UnitAt.share n ∉ places ∧ places.Nodup := (List.nodup_concat _ _).mp (List.concat_eq_append ▸ hnodup)
    by_cases hlast : i < places.length
    · rw [List.getElem?_append_left hlast] at hi
      have hne : k ≠ n := fun heq => hfresh (heq ▸ List.mem_of_getElem? hi)
      rw [State.tcmRead_tcmWrite_apart _ (by rw [hchunk]; omega)]
      exact ih hplaces hrest (by omega) hi
    · rw [List.getElem?_append_right (not_lt.mp hlast), List.getElem?_singleton] at hi
      obtain ⟨hzero, heq⟩ := Option.ite_none_right_eq_some.mp hi
      obtain rfl : n = k := UnitAt.share.inj (Option.some.inj heq)
      obtain rfl : i = places.length := by omega
      have hread := (s.unitsPut slot places bs).tcmRead_tcmWrite_same (coreOf slot)
        ((s.core (coreOf slot)).hamperOff (slotNo slot) + 16 * n) ((bs.drop (16 * places.length)).take 16)
      rwa [hchunk] at hread

end Share

/-! ### What hl.filt leaves (R164; logs 18 and 55) -/

/-- The hamper of the entries that hl.filt keeps, its units the first ones of the hamper's. -/
def Hamper.filtered (h : Hamper) (lo hi : Word) (kmask : BitVec 7) : Hamper :=
  let es := h.entries.filter fun e => e.kept lo hi kmask
  { h with entries := es, places := h.places.take (es.map HEntry.size).sum }

section Filtered
variable (s : State) (q : Slot) (g : Hamper)

/-- The state behind a hamper's units written, with the slot's registers changed before. -/
def State.stored : State := ((s.setSlot s.cur q).hamperOut s.cur g).advance

theorem State.stored_me : (s.stored q g).me = { q with pc := q.npc } := by
  obtain ⟨hme, -⟩ := (s.setSlot s.cur q).unitsPut_me_cur s.cur g.places g.bytes
  rw [State.stored, State.advance_eq, State.setSlot_me, State.hamperOut, hme, State.setSlot_me]

variable (hshare : InShare g.places)
include hshare

theorem State.stored_frame : s.stored q g = { s with slots := (s.stored q g).slots, cores := (s.stored q g).cores, groves := (s.stored q g).groves } := by
  obtain ⟨hstate, -⟩ := (s.setSlot s.cur q).unitsPut_share_frame s.cur g.bytes hshare
  rw [State.stored, State.advance_eq, State.hamperOut, hstate]
  rfl

theorem State.byteAt_stored {p : MemAt}
    (hp : ∀ k j, UnitAt.share k ∈ g.places → j < 16 → p ≠ .tcm (coreOf s.cur) (s.myCore.hamperOff (slotNo s.cur) + 16 * k + j)) :
    (s.stored q g).byteAt p = s.byteAt p :=
  calc (s.stored q g).byteAt p
      = ((s.setSlot s.cur q).unitsPut s.cur g.places g.bytes).byteAt p := State.sameBytes_setSlot _ _ _ p
    _ = (s.setSlot s.cur q).byteAt p := State.byteAt_unitsPut_share _ s.cur g.bytes hshare hp
    _ = s.byteAt p := State.sameBytes_setSlot s s.cur q p

theorem State.tcmRead_stored (hnodup : g.places.Nodup) (hlen : g.bytes.length = 16 * g.places.length) {k u : Nat} (hu : g.places[k]? = some (.share u)) :
    (s.stored q g).tcmRead (coreOf s.cur) (s.myCore.hamperOff (slotNo s.cur) + 16 * u) 16 = (g.bytes.drop (16 * k)).take 16 :=
  State.tcmRead_unitsPut_share (s.setSlot s.cur q) s.cur g.bytes hshare hnodup hlen.ge hu

end Filtered

/-! ### The hamper of a handle (R161, R163) -/

theorem withHandle_none {s : State} {v : Word} (h : s.me.handle v = none) (k : Nat → Hamper → Eff) : withHandle s v k = .trap s Cause.illegal v 0 := by
  rw [withHandle, h]

theorem withHandle_some {s : State} {v : Word} {i : Nat} {h0 : Hamper} (h : s.me.handle v = some (i, h0)) (k : Nat → Hamper → Eff) :
    withHandle s v k = k i (s.readBack s.cur h0) := by
  rw [withHandle, h]

/-- Each of the six instructions is guarded and begins with the hamper that its first register names. -/
theorem exec_hl_form (s : State) (a b c : Reg) (kmask : BitVec 7) : ∀ i ∈ [Instr.hlCat a b, .hlFilt a b c kmask, .hlRebase a b, .hlApply a, .hlDrop a, .hlLen a b],
    ∃ k, exec i s = guarded s (withHandle s (s.x a) k) := by
  simp only [List.forall_mem_cons]
  exact ⟨⟨_, rfl⟩, ⟨_, rfl⟩, ⟨_, rfl⟩, ⟨_, rfl⟩, ⟨_, rfl⟩, ⟨_, rfl⟩, nofun⟩

section Handle
variable {s : State} (hacts : s.acts)
include hacts

/-- A word that names no CLOSED hamper traps ILLEGAL with it. -/
theorem guarded_withHandle_none {v : Word} (h : s.me.handle v = none) (k : Nat → Hamper → Eff) :
    guarded s (withHandle s v k) = .next (s.takeTrap s.cur Cause.illegal v 0) := by
  rw [guarded_acts hacts, withHandle_none h, finish_trap]

variable {a : Reg} {i : Nat} {h0 : Hamper} (hhandle : s.me.handle (s.x a) = some (i, h0))
include hhandle

theorem guarded_withHandle (k : Nat → Hamper → Eff) : guarded s (withHandle s (s.x a) k) = finish (k i (s.readBack s.cur h0)) := by
  rw [guarded_acts hacts, withHandle_some hhandle]

/-! ### hl.cat, hl.rebase, hl.drop (R164) -/

theorem exec_hlCat_joins {b : Reg} {j : Nat} {g0 : Hamper} (hother : s.me.handle (s.x b) = some (j, g0)) (hij : i ≠ j) :
    let h := s.readBack s.cur h0
    let g := s.readBack s.cur g0
    exec (.hlCat a b) s = .next (s.setSlot s.cur { s.me with
      hampers := (s.me.hampers.put i { h with entries := h.entries ++ g.entries, places := h.places ++ g.places, frames := h.frames ++ g.frames }).drop j
      pc := s.me.npc }) := by
  refine (guarded_withHandle hacts hhandle _).trans ?_
  rw [withHandle_some hother, if_neg hij]
  exact finish_modMe s _

theorem exec_hlCat_noOther {b : Reg} (hother : s.me.handle (s.x b) = none) :
    exec (.hlCat a b) s = .next (s.takeTrap s.cur Cause.illegal (s.x b) 0) := by
  refine (guarded_withHandle hacts hhandle _).trans ?_
  rw [withHandle_none hother, finish_trap]

theorem exec_hlRebase_moves {b : Reg} (hal : (s.x b).toNat % 8 = 0) :
    let h := s.readBack s.cur h0
    exec (.hlRebase a b) s = .next (s.setSlot s.cur { s.me with pc := s.me.npc, hampers := s.me.hampers.put i { h with
      entries := h.entries.map fun e => if e.kind = 2 ∨ e.kind = 3 then e else { e with off := e.off + (s.x b).setWidth 48 } } }) := by
  refine (guarded_withHandle hacts hhandle _).trans ?_
  rw [if_neg (not_not_intro hal), finish_modMe]
  simp only [Bool.or_eq_true, beq_iff_eq]

theorem exec_hlRebase_misaligned {b : Reg} (hal : (s.x b).toNat % 8 ≠ 0) :
    exec (.hlRebase a b) s = .next (s.takeTrap s.cur Cause.misaligned 0 0) := by
  refine (guarded_withHandle hacts hhandle _).trans ?_
  rw [if_pos hal, finish_trap]

theorem exec_hlDrop_frameless (hframes : (s.readBack s.cur h0).frames = []) :
    exec (.hlDrop a) s = .next (s.setSlot s.cur { s.me with hampers := s.me.hampers.drop i, pc := s.me.npc }) := by
  have hfree : s.freeHampers s.me.ctx [s.readBack s.cur h0] = s := by
    rw [State.freeHampers, List.map_singleton, hframes]
    rfl
  refine (guarded_withHandle hacts hhandle _).trans ?_
  rw [hfree, finish_modMe]

/-! ### hl.filt (R164) -/

theorem exec_hlFilt_stores (b c : Reg) (kmask : BitVec 7) :
    let g := (s.readBack s.cur h0).filtered (s.x b) (s.x c) kmask
    exec (.hlFilt a b c kmask) s = .next (s.stored { s.me with hampers := s.me.hampers.put i g } g) :=
  (guarded_withHandle hacts hhandle _).trans rfl

/-! ### hl.apply (R165, R166) -/

theorem exec_hlApply_appends (hcol : s.me.collecting = true) {t : State} (happend : s.appendAll (s.readBack s.cur h0).entries = some t) :
    exec (.hlApply a) s = .next t.advance := by
  refine (guarded_withHandle hacts hhandle _).trans ?_
  rw [if_pos hcol, happend, finish_next]

/-- Outside collecting mode an entry whose capture is not done is waited for (R157). -/
theorem exec_hlApply_holds (hcol : s.me.collecting = false) (hcap : uncaptured (s.readBack s.cur h0).entries = true) :
    exec (.hlApply a) s = .next (s.setSlot s.cur { s.me with held := true }) := by
  refine (guarded_withHandle hacts hhandle _).trans ?_
  rw [if_neg (Bool.eq_false_iff.mp hcol), if_pos hcap, finish_hold]

theorem exec_hlApply_direct (hcol : s.me.collecting = false) (hcap : uncaptured (s.readBack s.cur h0).entries = false) (hout : s.allOut) :
    exec (.hlApply a) s = finish (applyDirect (s.readBack s.cur h0).entries s) := by
  refine (guarded_withHandle hacts hhandle _).trans ?_
  rw [if_neg (Bool.eq_false_iff.mp hcol), if_neg (Bool.eq_false_iff.mp hcap), State.release_of_allOut hout]

end Handle

/-- A direct apply that nothing refuses and that waits for nothing is one commit (R139, R165). -/
theorem applyDirect_commits {s s0 : State} {es : List HEntry} {ps : List Piece} {cs : List (Nat × Bool)}
    (hwalked : s.planTouch ⟨s.cur, s.me.ctx, 0⟩ 0 es = s0) (hplan : s0.commitPlan ⟨s.cur, s.me.ctx, 0⟩ 0 es = .ok (ps, cs))
    (hblocked : s0.blocked ps cs = false) (hsource : s0.sourceWaits noTask ps = false) (htrains : s0.pieceTrains ps cs = false)
    (hunder : s0.underflow cs = false) (hrec : s0.recWaits noTask s0.me.ctx cs ps = false) :
    applyDirect es s = .next (((s0.recallLists ⟨s.cur, s.me.ctx, 0⟩ es).applyCommit s0.cur noTask
      ⟨s0.spawnGroup s0.cur, s0.me.ctx, groveOf s0.cur, s0.me.task, none⟩ ps cs).stallFull s0) := by
  simp only [applyDirect, hwalked, hplan, hblocked, hsource, htrains, hunder, hrec, Bool.or_self, Bool.false_eq_true, if_false]

/-- Settles O45: a word that names no CLOSED hamper traps; else each operation changes the list of its hamper, hl.filt the storage too, and hl.apply appends or commits. -/
theorem hamperLists : Obligations.HamperLists := by
  intro s a b c kmask hacts
  refine ⟨fun hnone instr hinstr => ?illegal, fun i h0 hhandle => ⟨?len, fun j g0 hother hij => exec_hlCat_joins hacts hhandle hother hij,
    exec_hlCat_noOther hacts hhandle, ?filt, exec_hlRebase_moves hacts hhandle, exec_hlRebase_misaligned hacts hhandle,
    exec_hlDrop_frameless hacts hhandle, fun hcol t => exec_hlApply_appends hacts hhandle hcol, exec_hlApply_holds hacts hhandle, ?commit⟩⟩
  case illegal =>
    obtain ⟨k, hform⟩ := exec_hl_form s a b c kmask instr hinstr
    exact hform.trans (guarded_withHandle_none hacts hnone k)
  case len => exact (guarded_withHandle hacts hhandle _).trans (finish_next _)
  case filt =>
    intro es g at16
    exact ⟨_, exec_hlFilt_stores hacts hhandle b c kmask, s.stored_me _ g, fun hshare => ⟨s.stored_frame _ g hshare,
      fun p hp => s.byteAt_stored _ g hshare (p := p) hp, fun hnodup hlen k u => s.tcmRead_stored _ g hshare hnodup hlen⟩⟩
  case commit =>
    intro hcol hcap hout s0 ps cs hplan hblocked hsource htrains hunder hrec
    rw [exec_hlApply_direct hacts hhandle hcol hcap hout, applyDirect_commits rfl hplan hblocked hsource htrains hunder hrec, finish_next]

end Sys2Proof.Machine
end

section
/-! PROOF. The quilt instructions: what their checks let through, and the rule engine's answer as their result (R178, R180, R183, R391 to R397). -/

namespace Sys2Proof.Machine

/-! ### The rule engine (R211, R391) -/

/-- An operation goes on from what its first part gives. -/
theorem RuleM.run_bind_ok {α β : Type} {m : RuleM α} {q q' : QCtx} {v : α} (h : m.run q = (.ok v, q')) (f : α → RuleM β) :
    (m >>= f).run q = (f v).run q' := by
  have hrun : (m >>= f).run q = (match m.run q with
    | (.ok v, q') => (f v).run q'
    | (.error e, q') => (.error e, q')) := by
    show (ExceptT.bindCont f (m.run q).1) (m.run q).2 = _
    rcases m.run q with ⟨_ | _, _⟩ <;> rfl
  rw [hrun, h]

/-- An operation that reads the engine's own state first. -/
theorem RuleM.run_get_bind {β : Type} (f : QCtx → RuleM β) (q : QCtx) : (get >>= f : RuleM β).run q = (f q).run q := rfl

/-- While no earlier failed check stops the grove's engine, an operation that completes gives its value (R211). -/
theorem ruleRun_ok {α : Type} {s : State} {m : RuleM α} {v : α} {q : QCtx} (hidle : s.myGrove.fsrcRule.awaiting = none)
    (hrun : m.run (QCtx.start s s.cur s.me.ctx) = (.ok v, q)) (k : α → State → Eff) : ruleRun s m k = k v q.s := by
  simp only [ruleRun, hidle, hrun, Option.isSome_none, Bool.false_eq_true, if_false]

/-- Bytes that nothing stands before are read as they stand, and the read leaves nothing behind (R139, R142, R147). -/
theorem qTake_openAt {q : QCtx} {p n : Nat} (hopen : q.s.openAt p n) (hsig : q.s.sigRead q.slot p n = q.s) :
    (qTake p n).run q = (.ok (some (memRead q.s.mem p n)), q) := by
  have hrecall := State.recallRange_openAt hopen (Nat.le_refl n)
  have hpeek := State.peek_openAt hopen (Nat.le_refl n)
  obtain ⟨-, hfree, -, -, -, hclean, -⟩ := hopen
  rw [qTake, RuleM.run_get_bind]
  simp only [hfree, hrecall, hsig, hclean, hpeek, Bool.false_eq_true, if_false]
  rfl

section Checks
variable {s : State} (hacts : s.acts)
include hacts

/-! ### The quilt permission and the handle (R183, R391) -/

theorem quilted_forbidden (hperm : s.quiltOk = false) (e : Eff) : quilted s e = .next (s.takeTrap s.cur Cause.permission 0 4) := by
  rw [quilted, guarded_acts hacts, hperm]
  exact finish_trap s _ _ _

theorem quilted_permitted (hperm : s.quiltOk = true) (e : Eff) : quilted s e = finish e := by
  rw [quilted, guarded_acts hacts, hperm]
  rfl

theorem quilted_withQuilt (hperm : s.quiltOk = true) {w : Word} {i : Nat} {h : QHandle} (hhandle : s.me.qhandle w = some (i, h)) (k : Nat → QHandle → Eff) :
    quilted s (withQuilt s w k) = finish (k i h) := by
  rw [quilted_permitted hacts hperm, withQuilt, hhandle]

end Checks

/-- A reading instruction stores the bytes of its operation at its offset and goes on (R393). -/
theorem finish_ruleRun_put {s : State} {m : RuleM (List Byte)} {bs : List Byte} {q : QCtx} (hidle : s.myGrove.fsrcRule.awaiting = none)
    (hrun : m.run (QCtx.start s s.cur s.me.ctx) = (.ok bs, q)) (scr : Bool) (off : Nat) :
    finish (ruleRun s m fun bs s1 => putResult scr off bs s1) = .next (q.s.localWrite (coreOf q.s.cur) scr off bs).advance := by
  rw [ruleRun_ok hidle hrun, putResult, finish_next]

/-! ### Fields of an operand word -/

theorem bits_eq_mod (v hi : Nat) : bits v hi 0 = v % 2 ^ (hi + 1) := by
  rw [bits, pow_zero, Nat.div_one, Nat.sub_zero]

theorem bits_eq_zero_of_lt {v lo : Nat} (h : v < 2 ^ lo) (hi : Nat) : bits v hi lo = 0 := by
  rw [bits, Nat.div_eq_of_lt h, Nat.zero_mod]

theorem bits_eq_div {v hi lo : Nat} (hlo : lo ≤ hi + 1) (h : v < 2 ^ (hi + 1)) : bits v hi lo = v / 2 ^ lo := by
  refine Nat.mod_eq_of_lt (Nat.div_lt_of_lt_mul ?_)
  rwa [← pow_add, Nat.add_sub_cancel' hlo]

/-! ### ql.open (R183, R392) -/

/-- The slot behind an instruction that changes it and then writes a register. -/
theorem State.modMe_setX_advance_me (s : State) (f : Slot → Slot) (d : Reg) (v : Word) :
    ((s.modMe f).setX d v).advance.me = { (f s.me).setXr d v with pc := (f s.me).npc } := by
  have hme : ∀ (t : State) (g : Slot → Slot), (t.modMe g).me = g t.me := fun t g => t.setSlot_me (g t.me)
  rw [State.advance, hme, State.setX, hme, hme, Slot.setXr_frame]

/-- The handle that ql.open leaves in a slot: the next generation of its index, the quilt's id and epoch of the descriptor d, the version record and the descriptor's address. -/
def Slot.openedHandle (q : Slot) (i cur : Nat) (d : List Byte) (desc : Word) : QHandle :=
  ⟨q.qgens.get i 0 + 1, BitVec.ofNat 64 (field d 8 4), BitVec.ofNat 64 (field d 12 2), BitVec.ofNat 64 cur, desc⟩

/-- Knowing an aperture changes no slot (R186). -/
theorem State.noteAperture_me (s : State) (va : Word) (ctx : Nat) (d : List Byte) : (s.noteAperture va ctx d).me = s.me := by
  unfold State.noteAperture
  simp only
  split <;> rfl

/-- ql.open gives a handle at the free index that it found, and changes no more of the slot. -/
theorem exec_qlOpen_opens {s : State} (hacts : s.acts) (hperm : s.quiltOk = true) {i : Nat}
    (hfree : ((List.range 4).find? fun i => (s.me.qhandles.find i).isNone) = some i) {a b : Reg} {cur : Nat} {d : List Byte} {q : QCtx}
    (hidle : s.myGrove.fsrcRule.awaiting = none) (hrun : (qOpen (s.x b).toNat).run (QCtx.start s s.cur s.me.ctx) = (.ok (cur, d), q))
    {h : QHandle} (hnew : h = q.s.me.openedHandle i cur d (s.x b)) :
    ∃ t, exec (.qlOpen a b) s = .next t ∧
      t.me = { (q.s.me.setXr a (BitVec.ofNat 64 (i + 4 * h.gen.toNat))) with
        qgens := q.s.me.qgens.put i h.gen, qhandles := q.s.me.qhandles.put i h, pc := q.s.me.npc } := by
  subst hnew
  have hexec : exec (.qlOpen a b) s = finish (openStep a (s.x b) s) := quilted_permitted hacts hperm _
  rw [openStep, hfree] at hexec
  refine ⟨_, hexec.trans ((congrArg finish (ruleRun_ok hidle hrun _)).trans (finish_next _)), ?_⟩
  rw [State.modMe_setX_advance_me, State.noteAperture_me, Nat.mul_comm 4]
  unfold Slot.setXr
  split <;> rfl

/-! ### Open places that the device writes (R139, R142, R231) -/

/-- No lock, no line of the guest and no update-only copy stands before a device write of n bytes. -/
def State.Unhindered (s : State) (p n : Nat) : Prop :=
  p + n ≤ 2 ^ 38 ∧ s.locked p n = false ∧ s.guest.held = [] ∧ ∀ sec ∈ sectorsOf p n, s.updHolders sec = []

theorem State.unhindered_of_openAt {s : State} {p n : Nat} (hopen : s.openAt p n) : s.Unhindered p n := by
  obtain ⟨hend, hfree, -, hcopies, hguest, -⟩ := hopen
  exact ⟨hend, hfree, hguest, hcopies⟩

theorem State.Unhindered.within {s : State} {p n off k : Nat} (h : s.Unhindered p n) (hk : off + k ≤ n) : s.Unhindered (p + off) k := by
  obtain ⟨hend, hfree, hguest, hcopies⟩ := h
  have hsub := sectorsOf_within p hk
  refine ⟨by omega, ?_, hguest, fun sec hsec => hcopies sec (hsub hsec)⟩
  rw [State.locked, Bool.and_eq_false_iff, List.any_eq_false] at hfree ⊢
  exact hfree.imp_right fun hsecs sec hsec => hsecs sec (hsub hsec)

theorem State.Unhindered.recallRange {s : State} {p n : Nat} (h : s.Unhindered p n) : s.recallRange p n = s :=
  State.recallRange_unheld h.2.2.1 h.2.2.2

/-- Writes of device memory leave a place as unhindered as it was. -/
theorem State.Unhindered.wrote {s t : State} {p n a : Nat} {bs : List Byte} (h : s.Unhindered p n) (hwrote : s.Wrote t a bs) : t.Unhindered p n := by
  obtain ⟨hend, hfree, hguest, hcopies⟩ := h
  refine ⟨hend, ?_, by rw [hwrote.guest, hguest], fun sec hsec => ?_⟩
  · have hsecs : t.lockedSec = s.lockedSec := funext fun sec => by rw [State.lockedSec, hwrote.commits, State.lockedSec]
    rwa [State.locked, hwrote.commits, hsecs]
  · simpa only [State.updHolders, hwrote.cores] using hcopies sec hsec

/-- The device's own write at an unhindered place performs at once (R139). -/
theorem State.Unhindered.recWrite_wrote {s : State} {p off n : Nat} {bs : List Byte} (h : s.Unhindered p n) (hlen : off + bs.length ≤ n) (hpos : 0 < bs.length) :
    s.Wrote (s.recWrite p off bs) (p + off) bs := by
  have hat := h.within hlen
  have hrecall := hat.recallRange
  obtain ⟨hend, hfree, -, -⟩ := hat
  have hdevice : p + off < 2 ^ 38 := by omega
  have hgoes : s.mustWait (p + off) bs.length = false := by
    rw [State.mustWait, hfree, State.hostLinkIn, State.regionOf_device s hdevice]
    rfl
  have hadmitted : s.hostRefused (p + off) bs.length = none := by
    rw [State.hostRefused, State.regionOf_device s hdevice]
  have hput : s.recWrite p off bs = s.devWrite (p + off) (s.interOf (p + off)) bs := by
    simp only [State.recWrite, State.lateWrite, hgoes, State.latePut, hadmitted, hrecall, State.poke_device s _ bs hdevice, Bool.false_eq_true, if_false]
  rw [hput]
  exact s.devWrite_wrote _ _ _

/-! ### ql.close (R183, R184, R392) -/

/-- Nor does that write change the slot whose turn it is. -/
theorem State.Unhindered.recWrite_me {s : State} {p off n : Nat} {bs : List Byte} (h : s.Unhindered p n) (hlen : off + bs.length ≤ n) (hpos : 0 < bs.length) :
    (s.recWrite p off bs).me = s.me := by
  rw [State.me, State.slot, State.recWrite_slots, (h.recWrite_wrote hlen hpos).cur, State.me, State.slot]

/-- A reader less at an open version record: its count is one lower, and no slot changes. -/
theorem State.readerGone_openAt {s : State} {p : Nat} (hopen : s.openAt p 128) :
    natOf (memRead (s.readerGone p).mem (p + 4) 4) = natOf (memRead s.mem (p + 4) 4) - 1 ∧ (s.readerGone p).me = s.me := by
  have hfree := State.unhindered_of_openAt hopen
  have hcount : s.recField p 4 4 = natOf (memRead s.mem (p + 4) 4) := by
    have hrecall := (hfree.within (off := 4) (k := 4) (by omega)).recallRange
    obtain ⟨hend, -, hlate, -⟩ := hopen
    have hpeek : s.peek (p + 4) 4 = memRead s.mem (p + 4) 4 := if_pos (by omega)
    simp only [State.recField, State.devRead, hrecall, hlate, hpeek, List.isEmpty_nil, if_true]
  have hlt := natOf_lt (memRead s.mem (p + 4) 4)
  rw [length_memRead] at hlt
  rw [State.readerGone, hcount]
  generalize hleft : natOf (memRead s.mem (p + 4) 4) - 1 = r
  have hcounted := hfree.recWrite_wrote (off := 4) (bs := bytesOf 4 r) (by simp) (by simp)
  have hme := hfree.recWrite_me (off := 4) (bs := bytesOf 4 r) (by simp) (by simp)
  have hread : natOf (memRead (s.recWrite p 4 (bytesOf 4 r)).mem (p + 4) 4) = r := by
    rw [hcounted.mem, memRead_memWrite_bytesOf, natOf_bytesOf, Nat.mod_eq_of_lt (by omega)]
  have hfree1 := hfree.wrote hcounted
  split
  · have hdead := hfree1.recWrite_wrote (off := 8) (bs := bytesOf 1 3) (by simp) (by simp)
    refine ⟨?_, (hfree1.recWrite_me (by simp) (by simp)).trans hme⟩
    rw [hdead.mem, memRead_memWrite_apart _ (Or.inl (by omega)), hread]
  · exact ⟨hread, hme⟩

/-- The engine's part of ql.close, at an open version record, in an operation that keeps no signature. -/
theorem qClose_openAt {q0 q : QCtx} {ver p : Nat} {inter : Bool} (hplace : (qPlace .atomic .quilt ver 128).run q0 = (.ok (p, inter), q))
    (hopen : q.s.openAt p 128) (hsig : q.s.sigRead q.slot p 128 = q.s) : (qClose ver).run q0 = (.ok (), { q with s := q.s.readerGone p }) := by
  rw [qClose, RuleM.run_bind_ok hplace]
  exact RuleM.run_bind_ok (qTake_openAt hopen hsig) _

/-- ql.close takes a reader away and frees the handle. -/
theorem exec_qlClose_closes {s : State} (hacts : s.acts) (hperm : s.quiltOk = true) {a : Reg} {i : Nat} {h : QHandle}
    (hhandle : s.me.qhandle (s.x a) = some (i, h)) (hidle : s.myGrove.fsrcRule.awaiting = none) {p : Nat} {inter : Bool} {q : QCtx}
    (hplace : (qPlace .atomic .quilt h.ver.toNat 128).run (QCtx.start s s.cur s.me.ctx) = (.ok (p, inter), q)) (hopen : q.s.openAt p 128)
    (hclass : q.s.me.cls ≠ 2) (hslot : q.slot = q.s.cur) :
    ∃ t, exec (.qlClose a) s = .next t ∧ natOf (memRead t.mem (p + 4) 4) = natOf (memRead q.s.mem (p + 4) 4) - 1 ∧
      t.me = { q.s.me with qhandles := q.s.me.qhandles.drop i, pc := q.s.me.npc } := by
  have hsig : q.s.sigRead q.slot p 128 = q.s := by
    rw [hslot]
    exact if_neg fun hT => hclass (eq_of_beq (Bool.and_eq_true_iff.mp hT).2)
  obtain ⟨hcount, hme⟩ := State.readerGone_openAt hopen
  refine ⟨_, (quilted_withQuilt hacts hperm hhandle _).trans
    ((congrArg finish (ruleRun_ok hidle (qClose_openAt hplace hopen hsig) _)).trans (finish_modMe _ _)), hcount, ?_⟩
  rw [State.setSlot_me, hme]

/-! ### The readers that store a result (R393 to R396) -/

/-- What ql.rec asks of the rule engine: the record of an id of the version, with all below it checked (R396). -/
def recRead (h : QHandle) (id : Nat) : RuleM (List Byte) := do
  let w ← qView h
  if id = 0 || w.nrules < id then qTrap Cause.permission 0
  else
    let r ← qRule w id
    qRead .quilt r.addr r.addr 128

/-- What ql.get asks of it: count elements from a flat position on, where the format lets them fit their area (R396). -/
def State.getRead (s : State) (scr : Bool) (off : Nat) (h : QHandle) (p count : Nat) : RuleM (List Byte) := do
  let d ← qDesc h.desc.toNat
  if s.areaOut scr off (ceilDiv (count * unitSize (field d 5 1)) (granule (field d 5 1) * 8)) then qTrap Cause.permission 0
  else qGet h p count

/-- What ql.split asks of it: the split points of k parts of a row (R200). -/
def splitRead (h : QHandle) (row k : Nat) : RuleM (List Byte) := do
  let w ← qView h
  if w.rows ≤ row then qTrap Cause.permission 0
  else
    let sp ← qSpine w row
    let parts ← (List.range k).mapM fun j => qSplitAt w sp (j * (sp.2 + w.length) / k)
    pure parts.flatten

/-- The checks of a request pass, and the instruction goes on with its block (R393). -/
theorem withRequest_passes {s : State} {o c : Word} {scr eval : Bool} {op : Nat} {n : QReq → Nat} {r : QReq} (ho : o.toNat % 8 = 0) (hc : c.toNat % 8 = 0)
    (hblock : s.areaOut false c.toNat 48 = false) (hclean : s.tcmPoison (coreOf s.cur) c.toNat 48 = false)
    (hr : reqOf (s.tcmRead (coreOf s.cur) c.toNat 48) = r) (hwork : r.work + r.worksize ≤ 2 ^ 20) (hlegal : r.illegal eval op = false)
    (harea : s.areaOut (scr || op == 6) o.toNat (n r) = false) (hscr : op = 6 → scr = true) (k : QReq → Eff) : withRequest o c scr eval op n s k = k r := by
  have hplace : (op == 6 && !scr) = false := by
    by_cases h : op = 6
    · rw [hscr h, Bool.not_true, Bool.and_false]
    · rw [beq_false_of_ne h, Bool.false_and]
  simp only [withRequest, ho, hc, hblock, hclean, hr, harea, Nat.not_lt.mpr hwork, hlegal, hplace, ne_eq, not_true_eq_false, decide_false, Bool.or_self,
    Bool.false_eq_true, if_false]

section Readers
variable {s : State} (hacts : s.acts) (hperm : s.quiltOk = true) {b : Reg} {i : Nat} {h : QHandle} (hhandle : s.me.qhandle (s.x b) = some (i, h))
  (hidle : s.myGrove.fsrcRule.awaiting = none) {bs : List Byte} {q : QCtx}
include hacts hperm hhandle hidle

/-- A reading instruction whose checks leave an operation of the rule engine stores the bytes of that operation and goes on. -/
theorem reader_stores {i' : Instr} {k : QHandle → Eff} {m : RuleM (List Byte)} {scr : Bool} {off : Nat}
    (hexec : exec i' s = quilted s (withQuilt s (s.x b) fun _ h => k h)) (hchecks : k h = ruleRun s m fun bs s1 => putResult scr off bs s1)
    (hrun : m.run (QCtx.start s s.cur s.me.ctx) = (.ok bs, q)) : exec i' s = .next (q.s.localWrite (coreOf q.s.cur) scr off bs).advance := by
  rw [hexec, quilted_withQuilt hacts hperm hhandle, hchecks, finish_ruleRun_put hidle hrun]

theorem exec_qlRec_stores {a c : Reg} (ho : (s.x a).toNat % 8 = 0) (hroom : s.areaOut false (s.x a).toNat 128 = false) (hid : (s.x c).toNat < 2 ^ 32)
    (hrun : (recRead h (s.x c).toNat).run (QCtx.start s s.cur s.me.ctx) = (.ok bs, q)) :
    exec (.qlRec a b c) s = .next (q.s.localWrite (coreOf q.s.cur) false (s.x a).toNat bs).advance := by
  refine reader_stores hacts hperm hhandle hidle (k := fun h => recStep (s.x a) (s.x c) h s) rfl ?_ hrun
  simp only [recStep, ho, hroom, bits_eq_zero_of_lt hid, ne_eq, not_true_eq_false, Bool.false_eq_true, if_false]
  rfl

theorem exec_qlGet_stores {a c : Reg} {scr : Bool}
    (hrun : (s.getRead scr (s.x a).toNat h ((s.x c).toNat % 2 ^ 48) ((s.x c).toNat / 2 ^ 48 + 1)).run (QCtx.start s s.cur s.me.ctx) = (.ok bs, q)) :
    exec (.qlGet a b c scr) s = .next (q.s.localWrite (coreOf q.s.cur) scr (s.x a).toNat bs).advance := by
  refine reader_stores hacts hperm hhandle hidle (k := fun h => getStep (s.x a) (s.x c) scr h s) rfl ?_ hrun
  simp only [getStep, bits_eq_mod, bits_eq_div (show 48 ≤ 63 + 1 by decide) (s.x c).isLt]
  rfl

theorem exec_qlSeek_stores {op : BitVec 3} {a c : Reg} {scr : Bool} (hop : op.toNat ≤ 5) (hdot : op ≠ 4) (ho : (s.x a).toNat % 8 = 0)
    (hroom : s.areaOut scr (s.x a).toNat (8 + summSize op.toNat) = false) (hpos : (s.x c).toNat < 2 ^ 48)
    (hrun : (qSeek h op.toNat (s.x c).toNat).run (QCtx.start s s.cur s.me.ctx) = (.ok bs, q)) :
    exec (.qlSeek op a b c scr) s = .next (q.s.localWrite (coreOf q.s.cur) scr (s.x a).toNat bs).advance := by
  have hallowed : (op = 4 || 5 < op.toNat) = false := by simp [show ¬op = 4#3 from hdot, hop]
  refine reader_stores hacts hperm hhandle hidle (k := fun h => seekStep op.toNat (s.x a) (s.x c) scr h s) ?_ ?_ hrun
  · show execQlSeek op a b c scr s = _
    rw [execQlSeek, hallowed]
    rfl
  · simp only [seekStep, ho, hroom, bits_eq_zero_of_lt hpos, ne_eq, not_true_eq_false, Bool.false_eq_true, if_false]

theorem exec_qlSplit_stores {a c : Reg} {scr : Bool} (hpos : 0 < (s.x c).toNat / 2 ^ 32) (hparts : (s.x c).toNat / 2 ^ 32 ≤ 65536)
    (hroom : s.areaOut scr (s.x a).toNat (16 * ((s.x c).toNat / 2 ^ 32)) = false)
    (hrun : (splitRead h ((s.x c).toNat % 2 ^ 32) ((s.x c).toNat / 2 ^ 32)).run (QCtx.start s s.cur s.me.ctx) = (.ok bs, q)) :
    exec (.qlSplit a b c scr) s = .next (q.s.localWrite (coreOf q.s.cur) scr (s.x a).toNat bs).advance := by
  have hlow : (s.x c).toNat < 2 ^ 49 := by omega
  refine reader_stores hacts hperm hhandle hidle (k := fun h => splitStep (s.x a) (s.x c) scr h s) rfl ?_ hrun
  simp only [splitStep, bits_eq_mod, bits_eq_div (show 32 ≤ 48 + 1 by decide) hlow, bits_eq_zero_of_lt hlow, Nat.pos_iff_ne_zero.mp hpos, Nat.not_lt.mpr hparts,
    hroom, ne_eq, not_true_eq_false, decide_false, Bool.or_self, Bool.false_eq_true, if_false]
  rfl

section Requests
variable {a c : Reg} {scr : Bool} {op : BitVec 3} {r : QReq} (ho : (s.x a).toNat % 8 = 0) (hc : (s.x c).toNat % 8 = 0)
  (hblock : s.areaOut false (s.x c).toNat 48 = false) (hclean : s.tcmPoison (coreOf s.cur) (s.x c).toNat 48 = false)
  (hr : reqOf (s.tcmRead (coreOf s.cur) (s.x c).toNat 48) = r) (hwork : r.work + r.worksize ≤ 2 ^ 20)
include ho hc hblock hclean hr hwork

theorem exec_qlEval_stores (hop : op.toNat ≤ 5) (hlegal : r.illegal true op.toNat = false)
    (hroom : s.areaOut scr (s.x a).toNat (if r.rule ≠ 0 then summSize op.toNat + 8 else 16) = false) (hcounter : r.counter = 0)
    (hrun : (withNodes r (qEval h op.toNat r)).run (QCtx.start s s.cur s.me.ctx) = (.ok bs, q)) :
    exec (.qlEval op a b c scr) s = .next (q.s.localWrite (coreOf q.s.cur) scr (s.x a).toNat bs).advance := by
  have hplain : (op.toNat == 6) = false := beq_false_of_ne (by omega)
  refine reader_stores hacts hperm hhandle hidle (k := fun h => evalStep op.toNat (s.x a) (s.x c) scr h s) ?_ ?_ hrun
  · show execQlEval op a b c scr s = _
    rw [execQlEval, if_neg (Nat.not_lt.mpr hop)]
  · rw [evalStep, withRequest_passes ho hc hblock hclean hr hwork hlegal (by rwa [hplain, Bool.or_false]) (fun h6 => absurd h6 (by omega))]
    simp only [evalCount, hcounter, if_true]

theorem exec_qlFold_row_stores (hop : op.toNat ≤ 5) (hlegal : r.illegal false op.toNat = false)
    (hroom : s.areaOut scr (s.x a).toNat (summSize op.toNat + 8) = false)
    (hrun : (withNodes r (qFoldRow h op.toNat r)).run (QCtx.start s s.cur s.me.ctx) = (.ok bs, q)) :
    exec (.qlFold op a b c scr) s = .next (q.s.localWrite (coreOf q.s.cur) scr (s.x a).toNat bs).advance := by
  have hrow : op.toNat ≠ 6 := by omega
  refine reader_stores hacts hperm hhandle hidle (k := fun h => foldStep op.toNat (s.x a) (s.x c) scr h s) ?_ ?_ hrun
  · show execQlFold op a b c scr s = _
    rw [execQlFold, if_neg (by omega)]
  · simp only [foldStep, hrow, if_false]
    exact withRequest_passes ho hc hblock hclean hr hwork hlegal (by rwa [beq_false_of_ne hrow, Bool.or_false]) (fun h6 => absurd h6 hrow) _

theorem exec_qlFold_attn_stores (hop : op = 6) (hscr : scr = true) (hlegal : r.illegal false 6 = false)
    (hroom : s.areaOut scr (s.x a).toNat (s.attnSize r) = false)
    (hrun : (withNodes r (qAttn h r)).run (QCtx.start s s.cur s.me.ctx) = (.ok bs, q)) :
    exec (.qlFold op a b c scr) s = .next (q.s.localWrite (coreOf q.s.cur) scr (s.x a).toNat bs).advance := by
  subst hop hscr
  refine reader_stores hacts hperm hhandle hidle (k := fun h => foldStep 6 (s.x a) (s.x c) true h s) rfl ?_ hrun
  simp only [foldStep, if_true]
  exact withRequest_passes (scr := true) ho hc hblock hclean hr hwork hlegal hroom (fun _ => rfl) _

end Requests
end Readers

/-- Settles O43: without the permission every reading instruction traps; with it each is its operation of the rule engine, once its checks pass. -/
theorem quiltReads : Obligations.QuiltReads := by
  intro s op a b c scr hacts core o v run puts room
  refine ⟨fun hperm instr hinstr => ?forbidden, fun hperm => ⟨fun i hfree cur d q hidle hrun => ?opens, fun i h p inter q hhandle hidle hplace hopen hclass hslot => ?closes,
    fun i h hhandle => ⟨?record, ?get, ?seek, ?split, ?requests⟩⟩⟩
  case forbidden =>
    have hquilted : ∃ e, exec instr s = quilted s e := by
      simp only [List.mem_cons, List.not_mem_nil, or_false] at hinstr
      rcases hinstr with rfl | rfl | rfl | rfl | rfl | rfl | rfl | rfl <;> exact ⟨_, rfl⟩
    obtain ⟨e, he⟩ := hquilted
    rw [he, quilted_forbidden hacts hperm]
  case opens =>
    obtain ⟨t, hexec, hme⟩ := exec_qlOpen_opens (a := a) hacts hperm hfree hidle hrun rfl
    exact ⟨t, hexec, hme⟩
  case closes => exact exec_qlClose_closes hacts hperm hhandle hidle hplace hopen hclass hslot
  case record => exact fun ho hroom hid bs q hidle hrun => exec_qlRec_stores hacts hperm hhandle hidle ho hroom hid hrun
  case get => exact fun bs q hidle hrun => exec_qlGet_stores hacts hperm hhandle hidle hrun
  case seek => exact fun hop hdot ho hroom hpos bs q hidle hrun => exec_qlSeek_stores hacts hperm hhandle hidle hop hdot ho hroom hpos hrun
  case split => exact fun hpos hparts hroom bs q hidle hrun => exec_qlSplit_stores hacts hperm hhandle hidle hpos hparts hroom hrun
  case requests =>
    intro ho hc hblock hclean r hwork
    exact ⟨
      fun hop hlegal hroom hcounter bs q hidle hrun =>
        exec_qlEval_stores hacts hperm hhandle hidle ho hc hblock hclean rfl hwork hop hlegal hroom hcounter hrun,
      fun hop hlegal hroom bs q hidle hrun => exec_qlFold_row_stores hacts hperm hhandle hidle ho hc hblock hclean rfl hwork hop hlegal hroom hrun,
      fun hop hscr hlegal hroom bs q hidle hrun => exec_qlFold_attn_stores hacts hperm hhandle hidle ho hc hblock hclean rfl hwork hop hscr hlegal hroom hrun⟩

end Sys2Proof.Machine
end

section
/-! PROOF. The writers of a quilt: their checks, their status, and a quilt that is busy (R178, R180, R181, R397). -/

namespace Sys2Proof.Machine

/-- No byte of none is poisoned. -/
theorem State.tcmPoison_none (s : State) (core : Nat) : s.tcmPoison core 0 0 = false := by
  simp [State.tcmPoison]

section Writers
variable {s : State} {a b c : Reg} {renew : Bool} (hacts : s.acts)
include hacts

/-- The three writers are one form, by their operand and their operation of the rule engine. -/
theorem exec_writer_form {instr : Instr} (hinstr : instr ∈ [Instr.qlApp a b c, .qlPut a b c, .qlPub a b renew]) :
    ∃ o n al m, exec instr s = finish (qWriter a (s.x b) o n al m s) := by
  simp only [List.mem_cons, List.not_mem_nil, or_false] at hinstr
  rcases hinstr with rfl | rfl | rfl <;> exact ⟨_, _, _, _, guarded_acts hacts _⟩

theorem exec_writer_collecting (hcol : s.me.collecting = true) {instr : Instr} (hinstr : instr ∈ [Instr.qlApp a b c, .qlPut a b c, .qlPub a b renew]) :
    exec instr s = .next (s.takeTrap s.cur Cause.collectForbidden 0 4) := by
  obtain ⟨o, n, al, m, hform⟩ := exec_writer_form hacts hinstr
  rw [hform, qWriter, hcol, Bool.true_or, if_pos rfl, finish_trap]

variable (hdirect : s.direct)
include hdirect

theorem exec_writer_forbidden (hperm : s.quiltOk = false) {instr : Instr} (hinstr : instr ∈ [Instr.qlApp a b c, .qlPut a b c, .qlPub a b renew]) :
    exec instr s = .next (s.takeTrap s.cur Cause.permission 0 4) := by
  obtain ⟨o, n, al, m, hform⟩ := exec_writer_form hacts hinstr
  obtain ⟨hcol, hclass⟩ := hdirect
  simp only [hform, qWriter, hcol, hclass, hperm, Bool.or_self, Bool.not_false, Bool.false_eq_true, if_true, if_false, finish_trap]

variable (hperm : s.quiltOk = true)
include hperm

theorem exec_writer_misaligned (hdesc : (s.x b).toNat % 128 ≠ 0) {instr : Instr} (hinstr : instr ∈ [Instr.qlApp a b c, .qlPut a b c, .qlPub a b renew]) :
    exec instr s = .next (s.takeTrap s.cur Cause.misaligned (s.x b) 4) := by
  obtain ⟨o, n, al, m, hform⟩ := exec_writer_form hacts hinstr
  obtain ⟨hcol, hclass⟩ := hdirect
  simp only [hform, qWriter, hcol, hclass, hperm, Bool.or_self, Bool.not_true, Bool.false_eq_true, if_false, if_pos hdesc, finish_trap]

/-- A writer whose checks pass has the status of its operation as its result and goes on. -/
theorem writer_status (hdesc : (s.x b).toNat % 128 = 0) (hidle : s.myGrove.fsrcRule.awaiting = none) {o : Word} {n al : Nat} {m : RuleM Word} {instr : Instr}
    (hexec : exec instr s = guarded s (qWriter a (s.x b) o n al m s)) (hal : o.toNat % al = 0) (hroom : (n ≠ 0 && s.areaOut false o.toNat n) = false)
    (hclean : s.tcmPoison (coreOf s.cur) o.toNat n = false) {w : Word} {q : QCtx} (hrun : m.run (QCtx.start s s.cur s.me.ctx) = (.ok w, q)) :
    exec instr s = .next (q.s.setX a w).advance := by
  obtain ⟨hcol, hclass⟩ := hdirect
  rw [hexec, guarded_acts hacts]
  simp only [qWriter, hcol, hclass, hperm, hdesc, hal, hroom, hclean, Bool.or_self, Bool.not_true, Bool.false_eq_true, ne_eq, not_true_eq_false, if_false]
  rw [ruleRun_ok hidle hrun, finish_next]

theorem exec_qlPub_status (hdesc : (s.x b).toNat % 128 = 0) (hidle : s.myGrove.fsrcRule.awaiting = none) {w : Word} {q : QCtx}
    (hrun : (qPub (s.x b).toNat renew).run (QCtx.start s s.cur s.me.ctx) = (.ok w, q)) : exec (.qlPub a b renew) s = .next (q.s.setX a w).advance :=
  writer_status hacts hdirect hperm hdesc hidle rfl (Nat.mod_one _) rfl (s.tcmPoison_none _) hrun

end Writers

/-- A publication without a draft of one's own is busy, and reads no more than the descriptor (R180, R181). -/
theorem qPub_busy {da : Nat} {renew : Bool} {q0 q : QCtx} {d : List Byte} (hdesc : (qDesc da).run q0 = (.ok d, q))
    (hother : field d 6 1 = 0 ∨ field d 32 8 ≠ q0.s.ownerWord q0.slot) : (qPub da renew).run q0 = (.ok qBusy, q) := by
  rw [qPub, RuleM.run_get_bind, RuleM.run_bind_ok hdesc, if_pos (by simpa using hother)]
  rfl

/-- Settles O44: collecting mode, the permission and the alignment are looked at in this order; past them the status of the operation is the result. -/
theorem quiltWrites : Obligations.QuiltWrites := by
  intro s a b c renew hacts core o da gives all
  refine ⟨fun hcol instr hinstr => exec_writer_collecting hacts hcol hinstr, fun hcol hclass => ?_⟩
  have hdirect : s.direct := ⟨hcol, hclass⟩
  refine ⟨fun hperm instr hinstr => exec_writer_forbidden hacts hdirect hperm hinstr,
    fun hperm hdesc instr hinstr => exec_writer_misaligned hacts hdirect hperm hdesc hinstr, fun hperm hdesc => ⟨?publish, ?append, ?put, ?busy⟩⟩
  case publish => exact fun w q hidle hrun => exec_qlPub_status hacts hdirect hperm hdesc hidle hrun
  case append =>
    exact fun hal hroom hclean w q hidle hrun =>
      writer_status hacts hdirect hperm hdesc hidle rfl hal ((Bool.and_eq_false_iff).mpr (.inr hroom)) hclean hrun
  case put =>
    exact fun hal hroom hclean w q hidle hrun =>
      writer_status hacts hdirect hperm hdesc hidle rfl hal ((Bool.and_eq_false_iff).mpr (.inr hroom)) hclean hrun
  case busy => exact fun d q hidle hdescriptor hother => exec_qlPub_status hacts hdirect hperm hdesc hidle (qPub_busy hdescriptor hother)

end Sys2Proof.Machine
end

section
/-! PROOF. The host port: the event word, the mailbox and the registers of BAR0 (R221, R249, R254, R256). -/

namespace Sys2Proof.Machine

/-! ### The event word (R221, R332) -/

/-- A notice reaches waits, and no byte (R124). -/
theorem State.notify_sameBytes (s : State) (sec : Nat) : s.sameBytes (s.notify sec) := by
  intro q
  cases q with
  | device a => rfl
  | host a => rfl
  | tcm c a => rfl
  | scratch g a =>
    have hfind := PMap.find_map_value s.groves (fun _ (q : Grove) => { q with parks := q.parks.map fun (pk : Park) => { pk with wait := pk.wait.noticed sec } }) g
    simp only [State.byteAt, State.grove, State.notify, PMap.get, hfind]
    cases PMap.find s.groves g <;> rfl

theorem State.eventSet_sameBytes (s : State) (v : Word) : s.sameBytes (s.eventSet v) := by
  intro q
  refine (State.notify_sameBytes { s with eventWord := v } _ q).trans ?_
  cases q <;> rfl

theorem exec_hostEventWordWrite_sets (s : State) (v : Word) : ∃ t, exec (.hostEventWordWrite v) s = .next t ∧ t.eventWord = v ∧ s.sameBytes t := by
  refine ⟨_, rfl, rfl, fun q => Eq.trans ?_ (s.eventSet_sameBytes v q)⟩
  cases q <;> rfl

/-! ### The mailbox (R221, R256) -/

theorem State.mbOp_eq (s : State) : s.mbOp = s.mbCmd.toNat % 2 ^ 16 := bits_eq_mod _ _

@[simp] theorem length_fit (n : Nat) (bs : List Byte) : (fit n bs).length = n := by
  simp [fit, zeros]

/-- What is written from an address on reads back, as far as the bytes go. -/
theorem memRead_memWrite_front (m : Mem) (a : Nat) (front rest : List Byte) : memRead (memWrite m a (front ++ rest)) a front.length = front := by
  refine List.ext_getElem? fun i => ?_
  have hall := congrArg (·[i]?) (memRead_memWrite_same m a (front ++ rest))
  simp only [getElem?_memRead, List.length_append] at hall ⊢
  split
  · next hi => rw [if_pos (by omega), List.getElem?_append_left hi] at hall; exact hall
  · next hi => rw [List.getElem?_eq_none (Nat.le_of_not_lt hi)]

theorem State.length_reportBody (s : State) : s.reportBody.length = 160 := by
  rw [State.reportBody, List.length_append, length_memRead, length_fit]

/-- ATTEST in progress: the report's 160 bytes stand in the response, and the command completes. -/
theorem exec_attest_reports {s : State} (hbusy : s.mbBusy = true) (hop : s.mbOp = 1) :
    ∃ t, exec .attest s = .next t ∧ t.mbCmd = (s.mbDone 0).mbCmd ∧ t.vectors = (s.mbDone 0).vectors ∧ memRead t.mbResp 0 160 = s.reportBody := by
  have hserved : (s.mbBusy && s.mbOp == 1) = true := by rw [hbusy, hop]; rfl
  refine ⟨_, congrArg Host.Outcome.next (if_pos hserved), rfl, rfl, ?_⟩
  have hread := memRead_memWrite_front s.mbResp 0 s.reportBody (fit 3309 (Config.signReport s.reportBody))
  rwa [State.length_reportBody] at hread

theorem exec_attest_idle {s : State} (hidle : s.mbBusy = false) : exec .attest s = .next s := by
  have h : (s.mbBusy && s.mbOp == 1) = false := by rw [hidle, Bool.false_and]
  exact congrArg Host.Outcome.next (if_neg (Bool.eq_false_iff.mp h))

theorem exec_mailboxComplete_done {s : State} (hbusy : s.mbBusy = true) (hop : 256 ≤ s.mbOp) (status : BitVec 7) :
    exec (.mailboxComplete status) s = .next (s.mbDone status.toNat) := by
  have h : (s.mbBusy && decide (0x100 ≤ s.mbOp)) = true := by rw [hbusy, decide_eq_true hop]; rfl
  exact congrArg Host.Outcome.next (if_pos h)

theorem exec_mailboxComplete_idle {s : State} (hidle : s.mbBusy = false) (status : BitVec 7) : exec (.mailboxComplete status) s = .next s := by
  have h : (s.mbBusy && decide (0x100 ≤ s.mbOp)) = false := by rw [hidle, Bool.false_and]
  exact congrArg Host.Outcome.next (if_neg (Bool.eq_false_iff.mp h))

theorem exec_mailboxFwOp_tells {s : State} (hbusy : s.mbBusy = true) (hop : 256 ≤ s.mbOp) (hnew : s.mbTold = false) :
    exec .mailboxFwOp s = .next { s.eventSet (s.eventWord ||| 0x8000) with mbTold := true } := by
  have h : (s.mbBusy && decide (0x100 ≤ s.mbOp) && !s.mbTold) = true := by rw [hbusy, decide_eq_true hop, hnew]; rfl
  exact congrArg Host.Outcome.next (if_pos h)

theorem exec_mailboxFwOp_told {s : State} (htold : s.mbTold = true) : exec .mailboxFwOp s = .next s := by
  have h : (s.mbBusy && decide (0x100 ≤ s.mbOp) && !s.mbTold) = false := by rw [htold, Bool.not_true, Bool.and_false]
  exact congrArg Host.Outcome.next (if_neg (Bool.eq_false_iff.mp h))

theorem State.mbStart_busy {s : State} (hbusy : s.mbBusy = true) (v : Word) : s.mbStart v = s := if_pos hbusy

/-- A command of a known op with a vector below 64 starts with its low word. -/
theorem State.mbStart_known {s : State} (hidle : s.mbBusy = false) {v : Word} (hop : bits v.toNat 15 0 = 1 ∨ 256 ≤ bits v.toNat 15 0) (hvec : bits v.toNat 31 16 < 64) :
    s.mbStart v = { s with mbCmd := BitVec.ofNat 64 (2 ^ 63 + v.toNat % 2 ^ 32), mbTold := false } := by
  have hknown : (decide (bits v.toNat 15 0 = 1) || decide (0x100 ≤ bits v.toNat 15 0)) = true := by simpa using hop
  have hword : at_ 1 63 + at_ (bits v.toNat 31 16) 16 + bits v.toNat 15 0 = 2 ^ 63 + v.toNat % 2 ^ 32 := by
    simp only [bits, at_]
    omega
  simp only [State.mbStart, hidle, hvec, if_true, hknown, hword, Bool.false_eq_true, if_false]

/-! ### BAR0 (R221, R249, R254) -/

section Writes
variable {s : State} {off size : Nat} {v : Word}

theorem exec_hostBar0Write_malformed (h : (size ≠ 4 ∧ size ≠ 8) ∨ off % size ≠ 0 ∨ 2 ^ 20 < off + size) :
    exec (.hostBar0Write off size v) s = .next { s with reply := .abort } := by
  have hform : barForm off size = false := by
    rw [Bool.eq_false_iff, barForm]
    simp only [ne_eq, Bool.and_eq_true, Bool.or_eq_true, beq_iff_eq, decide_eq_true_eq]
    omega
  refine congrArg Host.Outcome.next ?_
  rw [State.barHostWrite, hform, Bool.not_false, if_pos rfl]

theorem barForm_word (hal : off % 8 = 0) (hin : off + 8 ≤ 2 ^ 20) : barForm off 8 = true := by
  rw [barForm, hal, decide_eq_true hin]
  rfl

variable (hal : off % 8 = 0) (hin : off + 8 ≤ 2 ^ 20)
include hal hin

/-- After a boot that failed no register takes a write (R249). -/
theorem exec_hostBar0Write_failed {k : Nat} (hboot : s.boot = .failed k) : exec (.hostBar0Write off 8 v) s = .next { s with reply := .none } := by
  refine congrArg Host.Outcome.next ?_
  simp only [State.barHostWrite, barForm_word hal hin, hboot, Bool.not_true, Bool.false_eq_true, if_false]

theorem exec_hostBar0Write_up (hboot : s.boot = .up) {t : State} (hreg : s.barHost off 8 v = t) :
    exec (.hostBar0Write off 8 v) s = .next { t with reply := .none } := by
  subst hreg
  refine congrArg Host.Outcome.next ?_
  simp only [State.barHostWrite, barForm_word hal hin, hboot, Bool.not_true, Bool.false_eq_true, if_false]

end Writes

/-- A write of a whole register leaves nothing of the old value. -/
theorem regPatch_whole (old v : Word) : regPatch old 0 8 v = v := by
  have hpatch : patch (bytesOf 8 old.toNat) 0 (bytesOf 8 v.toNat) = bytesOf 8 v.toNat := by
    simp [patch, List.drop_eq_nil_of_le]
  rw [regPatch, hpatch, natOf_bytesOf, Nat.mod_eq_of_lt (by have := v.isLt; omega), BitVec.ofNat_toNat, BitVec.setWidth_eq]

section Registers
variable (s : State) (v : Word) {n : Nat}

theorem State.barHost_windowBase (h : n < 8) :
    s.barHost (0x100 + 16 * n) 8 v = { s with hwBase := s.hwBase.put n (BitVec.ofNat 64 (v.toNat / 4096 * 4096)) } := by
  have hrange : (decide (0x100 ≤ 0x100 + 16 * n) && decide (0x100 + 16 * n < 0x180)) = true := by simp; omega
  have hindex : (0x100 + 16 * n - 0x100) / 16 = n := by omega
  have hlow : (0x100 + 16 * n) % 16 < 8 := by omega
  have hbyte : (0x100 + 16 * n) % 8 = 0 := by omega
  rw [State.barHost, if_pos hrange]
  simp only [hindex, hlow, hbyte, if_true, regPatch_whole]

theorem State.barHost_windowLimit (h : n < 8) :
    s.barHost (0x108 + 16 * n) 8 v = { s with hwLimit := s.hwLimit.put n (BitVec.ofNat 64 (v.toNat / 4096 * 4096)) } := by
  have hrange : (decide (0x100 ≤ 0x108 + 16 * n) && decide (0x108 + 16 * n < 0x180)) = true := by simp; omega
  have hindex : (0x108 + 16 * n - 0x100) / 16 = n := by omega
  have hhigh : ¬(0x108 + 16 * n) % 16 < 8 := by omega
  have hbyte : (0x108 + 16 * n) % 8 = 0 := by omega
  rw [State.barHost, if_pos hrange]
  simp only [hindex, hhigh, hbyte, if_false, regPatch_whole]

/-- Past the host windows and off the event word. -/
theorem State.barHost_beyond {off : Nat} (hwindow : off < 0x100 ∨ 0x180 ≤ off) (hevent : off / 8 ≠ 0x30) :
    s.barHost off 8 v = if off = 0x400 then s.mbStart v
      else if 0x1000 ≤ off && off < 0x2000 then { s with mbReq := memWrite s.mbReq (off - 0x1000) (bytesOf 8 v.toNat) } else s := by
  have hrange : (decide (0x100 ≤ off) && decide (off < 0x180)) = false := by
    rw [Bool.eq_false_iff]
    simp only [ne_eq, Bool.and_eq_true, decide_eq_true_eq]
    omega
  rw [State.barHost, if_neg (Bool.eq_false_iff.mp hrange), if_neg (by omega)]

theorem State.barHost_request (h : n < 512) : s.barHost (0x1000 + 8 * n) 8 v = { s with mbReq := memWrite s.mbReq (8 * n) (bytesOf 8 v.toNat) } := by
  have hrange : (decide (0x1000 ≤ 0x1000 + 8 * n) && decide (0x1000 + 8 * n < 0x2000)) = true := by simp; omega
  rw [s.barHost_beyond v (.inr (by omega)) (by omega), if_neg (by omega), if_pos hrange, Nat.add_sub_cancel_left]

/-- Registers that are not listed as RW ignore a write. -/
theorem State.barHost_ignored {off : Nat} (h : off < 0x100 ∨ 0x200 ≤ off ∧ off < 0x400) : s.barHost off 8 v = s := by
  have hrange : (decide (0x1000 ≤ off) && decide (off < 0x2000)) = false := by
    rw [decide_eq_false (by omega), Bool.false_and]
  rw [s.barHost_beyond v (by omega) (by omega), if_neg (by omega), if_neg (Bool.eq_false_iff.mp hrange)]

theorem State.barHost_command : s.barHost 0x400 8 v = s.mbStart v := by
  rw [s.barHost_beyond v (.inr (by decide)) (by decide), if_pos rfl]

end Registers

end Sys2Proof.Machine
end

section
/-! PROOF. The host's accesses to memory, and its records (R168, R211, R222, R249). -/

namespace Sys2Proof.Machine

/-! ### What accesses to the memories leave of the host as a source (R211) -/

theorem State.DirtyOnly.hostSrc {s t : State} (h : s.DirtyOnly t) : t.hostSrc = s.hostSrc := by
  obtain ⟨_, _, _, rfl⟩ := h
  rfl

theorem State.devWrite_hostSrc (s : State) (p : Nat) (inter : Bool) (bs : List Byte) : (s.devWrite p inter bs).hostSrc = s.hostSrc :=
  (State.DirtyOnly.foldl (fun t sec => t.makeDirty_dirtyOnly inter sec) s (sectorsOf p bs.length)).hostSrc

theorem State.hostPut_hostSrc (s : State) (p a : Nat) (bs : List Byte) : (s.hostPut p a bs).hostSrc = s.hostSrc :=
  (State.DirtyOnly.foldl (fun t sec => t.makeDirty_dirtyOnly true sec) s (sectorsOf p bs.length)).hostSrc

theorem State.windowWrite_hostSrc (s : State) (g off : Nat) (bs : List Byte) : (s.windowWrite g off bs).hostSrc = s.hostSrc := by
  unfold State.windowWrite State.tcmWrite
  simp only
  split
  · split <;> rfl
  · split
    · rfl
    · split <;> rfl

theorem State.barWrite_hostSrc (s : State) (off : Nat) (bs : List Byte) : (s.barWrite off bs).hostSrc = s.hostSrc := by
  unfold State.barWrite
  simp only
  split
  · split <;> rfl
  · split
    · rfl
    · split <;> rfl

theorem State.bellWrite_hostSrc (s : State) (q : Nat) (bs : List Byte) : (s.bellWrite q bs).hostSrc = s.hostSrc := by
  unfold State.bellWrite
  simp only
  split
  · rfl
  · exact State.devWrite_hostSrc s _ _ _

theorem State.poke_hostSrc (s : State) (p : Nat) (inter : Bool) (bs : List Byte) : (s.poke p inter bs).hostSrc = s.hostSrc := by
  unfold State.poke
  split
  · exact State.devWrite_hostSrc s p inter bs
  · exact State.windowWrite_hostSrc s _ _ bs
  · exact State.windowWrite_hostSrc s _ _ bs
  · exact State.barWrite_hostSrc s _ bs
  · exact State.bellWrite_hostSrc s _ bs
  · exact State.hostPut_hostSrc s p _ bs
  · rfl
  · rfl

theorem State.traceAdd_hostSrc (s : State) (home kind size p src : Nat) : (s.traceAdd home kind size p src).hostSrc = s.hostSrc := by
  unfold State.traceAdd
  simp only
  split <;> rfl

theorem State.combineCopy_hostSrc (s : State) (core sec : Nat) : (s.combineCopy core sec).hostSrc = s.hostSrc :=
  foldl_keeps (obs := State.hostSrc) (f := fun st e => (st.combineElem e).traceAdd (st.home e.pa e.inter) 2 (redWidth e.ty.toNat / 8) e.pa (st.source (core * 4)))
    (fun st e => (State.traceAdd_hostSrc _ _ _ _ _ _).trans (State.poke_hostSrc st e.pa e.inter _)) (s.setCore core _) _

theorem State.combineAll_hostSrc (sec n : Nat) (s : State) (cores : List Nat) : (s.combineAll sec n cores).hostSrc = s.hostSrc := by
  induction n generalizing s cores with
  | zero => rfl
  | succ n ih =>
    unfold State.combineAll
    split
    · rfl
    · exact State.combineCopy_hostSrc s _ sec
    · exact (ih _ _).trans (State.combineCopy_hostSrc _ _ sec)

theorem State.recallRange_hostSrc (s : State) (p n : Nat) : (s.recallRange p n).hostSrc = s.hostSrc := by
  refine foldl_keeps (obs := State.hostSrc) (fun st sec => ?_) s _
  have hsnoop : (st.snoop sec).hostSrc = st.hostSrc := by
    unfold State.snoop
    split <;> rfl
  unfold State.recall
  simp only
  split
  · exact hsnoop
  · exact (State.combineAll_hostSrc _ _ _ _).trans hsnoop

/-- A write of a record, whether it performs, waits or is refused. -/
theorem State.recWrite_hostSrc (s : State) (pa off : Nat) (bs : List Byte) : (s.recWrite pa off bs).hostSrc = s.hostSrc := by
  unfold State.recWrite State.lateWrite State.latePut
  split
  · rfl
  · split
    · rfl
    · exact (State.poke_hostSrc _ _ _ _).trans (State.recallRange_hostSrc s _ _)

theorem State.recordPut_hostSrc (s : State) (r : FaultRec) : (s.recordPut r).1.hostSrc = s.hostSrc := by
  unfold State.recordPut
  extract_lets d s0 c head tail s1 s2
  have h0 : s0.hostSrc = s.hostSrc := State.recallRange_hostSrc s _ _
  split
  · exact h0
  · split
    · dsimp only
      split <;> exact h0
    · exact (State.recWrite_hostSrc s1 _ _ _).trans ((State.recWrite_hostSrc s0 _ _ _).trans h0)

/-- A record of the host is the next of its source, whether it finds room or waits (R72, R211). -/
theorem State.hostRecord_seq (s : State) (ctx a acc : Nat) : (s.hostRecord ctx a acc).hostSrc.seq = s.hostSrc.seq + 1 := by
  unfold State.hostRecord
  extract_lets src fs f r s1
  have hput : (s1.recordPut r).1.hostSrc.seq = s.hostSrc.seq + 1 := congrArg FaultSrc.seq (s1.recordPut_hostSrc r)
  split
  next s2 done hrec =>
    rw [hrec] at hput
    split <;> exact hput

/-! ### An access (R168, R222, R249) -/

theorem isDevice_of_lt {p : Nat} (h : p < 2 ^ 38) : isDevice p = true := decide_eq_true h

theorem mem_nub {v : Nat} {l : List Nat} : v ∈ nub l ↔ v ∈ l := by
  refine ⟨mem_of_mem_nub, fun h => ?_⟩
  induction l with
  | nil => exact h
  | cons a rest ih =>
    by_cases hv : v = a
    · exact hv ▸ List.mem_cons_self
    · have hrest := (List.mem_cons.mp h).resolve_left hv
      exact List.mem_cons_of_mem a (List.mem_filter.mpr ⟨ih hrest, by simpa using hv⟩)

theorem mem_halvesOf {p n h : Nat} (hn : 0 < n) : h ∈ halvesOf p n ↔ p / 64 ≤ h ∧ h ≤ (p + n - 1) / 64 := by
  have hle : p / 64 ≤ (p + n - 1) / 64 := Nat.div_le_div_right (by omega)
  simp only [halvesOf, if_neg (show n ≠ 0 by omega), span, List.mem_map, List.mem_range]
  constructor
  · rintro ⟨i, hi, rfl⟩
    omega
  · rintro ⟨hlow, hhigh⟩
    exact ⟨h - p / 64, by omega, by omega⟩

section Access
variable {s : State} {a size : Nat} {wr : Option (List Byte)}

section Served
variable (hsize : 0 < size) (hwr : ∀ bs ∈ wr, bs.length = size) (hsec : a % 128 + size ≤ 128) (hdevice : a < 2 ^ 38)
include hsize hwr hsec hdevice

/-- Until boot has succeeded device memory has no completer (log 45). -/
theorem exec_hostMemoryAccess_inReset (hboot : s.boot ≠ .up) : exec (.hostMemoryAccess a size wr) s = .next { s with reply := .abort } := by
  show execHostMemoryAccess a size wr s = _
  unfold execHostMemoryAccess
  extract_lets n
  have hn : n = size := by
    cases wr with
    | none => rfl
    | some bs => exact hwr bs rfl
  have hreset : (s.boot != .up && (isDevice a || (s.apertureAt (a % hostBase)).isSome)) = true := by
    rw [isDevice_of_lt hdevice, Bool.true_or, Bool.and_true]
    exact bne_iff_ne.mpr hboot
  rw [hn, if_neg (by simp; omega), if_pos hreset]

theorem exec_hostMemoryAccess_up (hboot : s.boot = .up) : exec (.hostMemoryAccess a size wr) s = .next (s.hostPlace a size wr) := by
  show execHostMemoryAccess a size wr s = _
  unfold execHostMemoryAccess
  extract_lets n
  have hn : n = size := by
    cases wr with
    | none => rfl
    | some bs => exact hwr bs rfl
  rw [hn, if_neg (by simp; omega), if_neg (by rw [hboot]; simp), State.regionOf_device s hdevice]

end Served

variable (hopen : s.openAt a size)
include hopen

/-- A place that no context maps as a Q page is read, or written, at its home. -/
theorem State.hostPlace_plain (hplain : s.quiltOwners a = []) :
    s.hostPlace a size none = s.hostRead a size ∧ ∀ bs, s.hostPlace a size (some bs) = s.hostWrite a bs := by
  have hfree := hopen.2.1
  have howners : (if isDevice a then s.quiltOwners a else []) = [] := by rw [hplain, ite_self]
  constructor
  · simp only [State.hostPlace, hfree, howners, Bool.false_eq_true, if_false, List.isEmpty_nil, Bool.not_true]
  · intro bs
    simp only [State.hostPlace, hfree, howners, Bool.false_eq_true, if_false, List.isEmpty_nil, Bool.not_true]

/-- A byte of a place without poison has none (R245). -/
theorem State.poisoned_within {i : Nat} (hi : i < size) : s.poisoned (a + i) 1 = false := by
  obtain ⟨hend, -, -, -, -, hclean, -⟩ := hopen
  rw [State.poisoned, State.regionOf_device s (by omega)] at hclean ⊢
  rw [List.any_eq_false] at hclean ⊢
  exact fun sec hsec => hclean sec (sectorsOf_within a (by omega) hsec)

/-- At an open place no byte is marked. -/
theorem State.peekMarked_openAt : markedReply (s.peekMarked a size) = .data (memRead s.mem a size) := by
  have hpeek := State.peek_openAt hopen (Nat.le_refl size)
  have hmarked : s.peekMarked a size = (memRead s.mem a size).map some := by
    rw [State.peekMarked, hpeek]
    have hall : ∀ q ∈ List.zip (List.range size) (memRead s.mem a size), (if s.poisoned (a + q.1) 1 then none else some q.2) = some q.2 := by
      intro q hq
      have hi := List.mem_range.mp (List.of_mem_zip hq).1
      rw [State.poisoned_within hopen hi, if_neg Bool.false_ne_true]
    have hzip : ((List.range size).zip (memRead s.mem a size)).map Prod.snd = memRead s.mem a size := List.map_snd_zip (by simp)
    rw [List.map_congr_left hall]
    exact List.map_map.symm.trans (congrArg (List.map some) hzip)
  rw [hmarked, markedReply, if_pos (by simp)]
  simp

variable (hsize : 0 < size)
include hsize

/-- A place of a Q page of one context: the access is refused, with a record to that context (R168). -/
theorem State.hostPlace_quilt {c : Nat} (howner : s.quiltOwners a = [c]) (hrec : s.hostRec = none) (wr : Option (List Byte)) :
    (s.hostPlace a size wr).reply = .abort ∧ (s.hostPlace a size wr).hostSrc.seq = s.hostSrc.seq + 1 := by
  obtain ⟨hend, hfree, -⟩ := hopen
  have hdevice : isDevice a = true := isDevice_of_lt (by omega)
  simp only [State.hostPlace, hfree, hdevice, howner, State.hostQuilt, hrec, State.freeIndex, Bool.false_eq_true, if_false, if_true, List.isEmpty_cons,
    Bool.not_false, Option.isSome_none]
  exact ⟨trivial, State.hostRecord_seq _ _ _ _⟩

/-- A read answers with the bytes as they stand, and the host then holds the halves that it touched (R222). -/
theorem State.hostRead_openAt : ∃ held, s.hostRead a size = { s with reply := .data (memRead s.mem a size), hostHeld := held } ∧
    ∀ h, h ∈ held ↔ h ∈ s.hostHeld ∨ a / 64 ≤ h ∧ h ≤ (a + size - 1) / 64 := by
  have hrecall := State.recallRange_openAt hopen (Nat.le_refl size)
  have hreply := State.peekMarked_openAt hopen
  have hdevice : isDevice a = true := isDevice_of_lt (by have := hopen.1; omega)
  refine ⟨nub (s.hostHeld ++ halvesOf a size), ?_, fun h => ?_⟩
  · simp only [State.hostRead, hrecall, hreply, hdevice, if_true]
  · rw [mem_nub, List.mem_append, mem_halvesOf hsize]

/-- A write performs at its home and touches no other byte (R129, R152). -/
theorem State.hostWrite_openAt {bs : List Byte} (hlen : bs.length = size) : s.Wrote (s.hostWrite a bs) a bs := by
  have hrecall := State.recallRange_openAt hopen (Nat.le_of_eq hlen)
  have hlow : a < 2 ^ 38 := by have := hopen.1; omega
  have hput := (s.devWrite_wrote a (s.interOf a) bs).traceAdd ((s.devWrite a (s.interOf a) bs).home a (s.interOf a)) 0 bs.length a 0x8000
  simp only [State.hostWrite, hrecall, isDevice_of_lt hlow, if_true, State.poke_device s _ bs hlow]
  obtain ⟨hmem, hhost, hcores, hscratch, hguest, hcommits, hcur, hme⟩ := hput
  exact ⟨hmem, hhost, hcores, hscratch, hguest, hcommits, hcur, hme⟩

end Access

end Sys2Proof.Machine
end

section
/-! PROOF. Cold reset by the steps of the boot ROM, and the power clamp (R249 to R251, R255). -/

namespace Sys2Proof.Machine

/-! ### What the boot ROM reads of the flash (R250) -/

theorem State.tableOk_of_flash {s t : State} (h : t.flash = s.flash) : t.tableOk = s.tableOk := by
  have htbl : t.tbl = s.tbl := funext fun off => funext fun n => by rw [State.tbl, h, State.tbl]
  have hwindow : t.windowFine = s.windowFine := funext fun n => by simp only [State.windowFine, htbl]
  have hroles : t.roleList = s.roleList := funext fun w => by simp only [State.roleList, htbl]
  simp only [State.tableOk, htbl, hwindow, hroles]

theorem State.tbl_lt (s : State) (off n : Nat) : s.tbl off n < 256 ^ n := by
  have h := natOf_lt (memRead s.flash off n)
  rwa [length_memRead] at h

theorem State.tableOk_width {s : State} (h : s.tableOk = true) : s.tbl 7 1 = 1 ∨ s.tbl 7 1 = 2 := by
  simp only [State.tableOk, columnsOk, Bool.and_eq_true, Bool.or_eq_true, beq_iff_eq] at h
  omega

/-! ### Every unit of a list changed (R249) -/

theorem State.foldl_modGrove (f : Grove → Grove) (l : List Nat) (s : State) :
    ∃ gs, l.foldl (fun st g => st.modGrove g f) s = { s with groves := gs } := by
  induction l generalizing s with
  | nil => exact ⟨_, rfl⟩
  | cons a rest ih =>
    obtain ⟨gs, hgs⟩ := ih (s.modGrove a f)
    exact ⟨gs, hgs⟩

theorem State.foldl_modSlot (f : Slot → Slot) (l : List Nat) (s : State) :
    ∃ ss, l.foldl (fun st k => st.modSlot k f) s = { s with slots := ss } := by
  induction l generalizing s with
  | nil => exact ⟨_, rfl⟩
  | cons a rest ih =>
    obtain ⟨ss, hss⟩ := ih (s.modSlot a f)
    exact ⟨ss, hss⟩

/-- What a change of a grove brings about, it has brought about for every grove of the list. -/
theorem State.grove_foldl_modGrove {f : Grove → Grove} {P : Grove → Prop} (hf : ∀ q, P (f q)) {g : Nat} (l : List Nat) (s : State) (hg : g ∈ l ∨ P (s.grove g)) :
    P ((l.foldl (fun st g => st.modGrove g f) s).grove g) := by
  induction l generalizing s with
  | nil => exact hg.resolve_left (List.not_mem_nil)
  | cons a rest ih =>
    refine ih (s.modGrove a f) ?_
    by_cases ha : g = a
    · subst ha
      exact .inr (by rw [State.modGrove_eq, State.grove_setGrove_same]; exact hf _)
    · rw [State.modGrove_eq, State.grove_setGrove_ne _ _ ha]
      exact hg.imp_left fun h => (List.mem_cons.mp h).resolve_left ha

theorem State.slot_foldl_modSlot {f : Slot → Slot} {P : Slot → Prop} (hf : ∀ q, P (f q)) {k : Nat} (l : List Nat) (s : State) (hk : k ∈ l ∨ P (s.slot k)) :
    P ((l.foldl (fun st k => st.modSlot k f) s).slot k) := by
  induction l generalizing s with
  | nil => exact hk.resolve_left (List.not_mem_nil)
  | cons a rest ih =>
    refine ih (s.modSlot a f) ?_
    by_cases ha : k = a
    · subst ha
      exact .inr (by rw [State.modSlot_eq, State.slot_setSlot_same]; exact hf _)
    · rw [State.modSlot_eq, State.slot_setSlot_ne _ _ ha]
      exact hk.imp_left fun h => (List.mem_cons.mp h).resolve_left ha

/-! ### The firmware groves (R13, R14) -/

/-- The groves of the firmware columns: w columns from column f on. -/
def fwGroves (f w : Nat) : List Nat := (List.range 32).flatMap fun py => (List.range w).map fun i => gridIndex (f + i) py

theorem mem_fwGroves {f w g : Nat} (hg : g < 34 * 32) (hlow : f ≤ g % 34) (hhigh : g % 34 < f + w) : g ∈ fwGroves f w := by
  refine List.mem_flatMap.mpr ⟨g / 34, List.mem_range.mpr (by omega), List.mem_map.mpr ⟨g % 34 - f, List.mem_range.mpr (by omega), ?_⟩⟩
  rw [gridIndex]
  omega

theorem mem_slots_of_grove (k : Nat) : k ∈ span (groveOf k * 32) 32 :=
  List.mem_map.mpr ⟨k % 32, List.mem_range.mpr (Nat.mod_lt _ (by decide)), by rw [groveOf]; omega⟩

theorem State.groveOf_mem_fwGroves {s : State} {k : Nat} (hk : k < 4 * 8 * 34 * 32) (hfw : s.isFw k = true) :
    groveOf k ∈ fwGroves s.fwcol.toNat s.fwwidth.toNat := by
  obtain ⟨hlow, hhigh⟩ := Bool.and_eq_true_iff.mp hfw
  exact mem_fwGroves (by rw [groveOf]; omega) (of_decide_eq_true hlow) (of_decide_eq_true hhigh)

/-! ### The steps of the boot ROM (R249) -/

theorem State.pagerCarve_cores (s : State) : ∃ cs, s.pagerCarve = { s with cores := cs } := by
  unfold State.pagerCarve
  split <;> exact ⟨_, rfl⟩

/-- Steps 4 and 5 set the module's registers from the table and lock the wall of every firmware grove. -/
theorem State.bootMeasure_registers {s r : State} (hr : s.bootRegisters.bootMeasure = r) :
    r.fwcol = BitVec.ofNat 8 (s.tbl 6 1) ∧ r.fwwidth = BitVec.ofNat 2 (s.tbl 7 1) ∧ r.spare = s.tbl 8 1 ∧ r.gsLock = true ∧
    r.pwLim = BitVec.ofNat 16 (s.tbl 16 2) ∧ r.mem = s.mem ∧ ∀ g ∈ fwGroves (s.tbl 6 1) (s.tbl 7 1), (r.grove g).wallLock = true := by
  subst hr
  unfold State.bootRegisters
  extract_lets w f lim wall s1
  have hlocked := fun g hg => State.grove_foldl_modGrove (f := fun q => { q with wallLock := true, wallBits := wall }) (P := fun q => q.wallLock = true)
    (fun _ => rfl) (g := g) (fwGroves f w) s1 (.inl hg)
  obtain ⟨gs, hgs⟩ := State.foldl_modGrove (fun q => { q with wallLock := true, wallBits := wall }) (fwGroves f w) s1
  rw [fwGroves] at hgs
  refine ⟨?_, ?_, ?_, ?_, ?_, ?_, hlocked⟩ <;> rw [hgs] <;> rfl

/-- Step 6 starts every slot of the firmware groves at address 0 (R427, log 7). -/
theorem State.bootRelease_starts (s : State) : ∃ cs ss,
    s.bootRelease = { s with cores := cs, slots := ss, boot := .up, bootWord := 0xFF, cur := s.fwcol.toNat * 32 } ∧
    ∀ k, groveOf k ∈ fwGroves s.fwcol.toNat s.fwwidth.toNat → (ss.get k Slot.reset).st = .run ∧ (ss.get k Slot.reset).pc = 0 := by
  unfold State.bootRelease
  extract_lets groves s1 s2
  obtain ⟨ss, hss⟩ := State.foldl_modSlot (fun q => { q with st := .run, pc := 0 }) (groves.flatMap fun g => span (g * 32) 32) s
  obtain ⟨cs, hcs⟩ := s1.pagerCarve_cores
  refine ⟨cs, ss, ?_, fun k hk => ?_⟩
  · rw [show s2 = _ from hcs, show s1 = _ from hss]
  · have hruns := State.slot_foldl_modSlot (f := fun q => { q with st := .run, pc := 0 }) (P := fun q => q.st = .run ∧ q.pc = 0) (fun _ => ⟨rfl, rfl⟩)
      (groves.flatMap fun g => span (g * 32) 32) s (.inl (List.mem_flatMap.mpr ⟨groveOf k, hk, mem_slots_of_grove k⟩))
    rw [hss] at hruns
    exact hruns

/-- Steps 4 to 6, once the table has passed. -/
theorem State.bootSteps_up {s t : State} (htable : s.tableOk = true) (ht : s.bootRegisters.bootMeasure.bootRelease = t) :
    t.boot = .up ∧ t.bootWord = 0xFF ∧ t.fwcol.toNat = s.tbl 6 1 ∧ t.fwwidth.toNat = s.tbl 7 1 ∧ t.spare = s.tbl 8 1 ∧ t.gsLock = true ∧
    t.pwLim.toNat = s.tbl 16 2 ∧ t.mem = s.mem ∧
    ∀ k, k < 4 * 8 * 34 * 32 → t.isFw k = true → (t.slot k).st = .run ∧ (t.slot k).pc = 0 ∧ (t.grove (groveOf k)).wallLock = true := by
  generalize hr : s.bootRegisters.bootMeasure = r at ht
  obtain ⟨hcol, hwid, hspare, hlock, hlim, hmem, hwalls⟩ := State.bootMeasure_registers hr
  obtain ⟨cs, ss, hrelease, hruns⟩ := r.bootRelease_starts
  have hwidth := State.tableOk_width htable
  have hcolNat : r.fwcol.toNat = s.tbl 6 1 := by
    rw [hcol, BitVec.toNat_ofNat]
    exact Nat.mod_eq_of_lt (s.tbl_lt 6 1)
  have hwidNat : r.fwwidth.toNat = s.tbl 7 1 := by
    rw [hwid, BitVec.toNat_ofNat]
    exact Nat.mod_eq_of_lt (by omega)
  have hlimNat : r.pwLim.toNat = s.tbl 16 2 := by
    rw [hlim, BitVec.toNat_ofNat]
    exact Nat.mod_eq_of_lt (s.tbl_lt 16 2)
  subst ht
  rw [hrelease]
  refine ⟨rfl, rfl, hcolNat, hwidNat, hspare, hlock, hlimNat, hmem, fun k hk hfw => ?_⟩
  have hgrove : groveOf k ∈ fwGroves r.fwcol.toNat r.fwwidth.toNat := State.groveOf_mem_fwGroves (s := r) hk hfw
  obtain ⟨hst, hpc⟩ := hruns k hgrove
  rw [hcolNat, hwidNat] at hgrove
  exact ⟨hst, hpc, hwalls _ hgrove⟩

section Steps
variable {s : State}

theorem State.bootRun_refused (hfits : (Config.signatureHolds (memRead s.flash 0 3565) && s.tableOk) = false) : s.bootRun = s.bootFail 2 :=
  if_pos (by rw [← Bool.not_and, hfits, Bool.not_false])

variable (hfits : (Config.signatureHolds (memRead s.flash 0 3565) && s.tableOk) = true)
include hfits

/-- The signature and the table hold: the image goes to memory, and its digest decides. -/
theorem State.bootRun_loads {image digest : List Byte} (himage : memRead s.flash (s.tbl 192 8) (s.tbl 200 8) = image)
    (hdigest : memRead s.flash 208 32 = digest) :
    s.bootRun = if fit 32 (shake256 image) ≠ digest then { s with mem := memWrite s.mem 0 image }.bootFail 3
      else { s with mem := memWrite s.mem 0 image }.bootRegisters.bootMeasure.bootRelease := by
  subst himage hdigest
  exact if_neg (by rw [← Bool.not_and, hfits, Bool.not_true]; exact Bool.false_ne_true)

end Steps

/-- The module as a cold reset finds it. -/
theorem State.coldStart_eq (s : State) : s.coldStart =
    if s.boot = .held then s else { State.reset with flash := s.flash, hostMem := s.hostBeneath, agenda := s.agenda, fresh := s.fresh } := by
  unfold State.coldStart
  split
  · next h => rw [if_pos h]
  · next h => rw [if_neg (by rw [h]; exact nofun)]
  · next h => rw [if_neg (by rw [h]; exact nofun)]

/-! ### The clamp (R255) -/

section Power
variable {s : State}

theorem exec_powerSample_samples (hdue : s.pwAt ≤ s.tick.toNat) (watts : Nat) : ∃ t, exec (.powerSample watts) s = .next t ∧
    t.pwLog = (watts :: s.pwLog).take 10000 ∧ t.pwAvg = BitVec.ofNat 16 (t.pwLog.sum / t.pwLog.length) ∧ t.pwAt = s.tick.toNat + 1 := by
  refine ⟨_, congrArg Host.Outcome.next (if_pos hdue), rfl, ?_, rfl⟩
  rw [List.sum_eq_foldl]
  rfl

theorem exec_clampStep_waits (hsoon : s.tick.toNat < s.pwSince + 100) : exec .clampStep s = .next s := congrArg Host.Outcome.next (if_pos hsoon)

variable (hdue : s.pwSince + 100 ≤ s.tick.toNat)
include hdue

/-- Once 100 ticks have passed since the last step, the average decides. -/
theorem exec_clampStep_due : exec .clampStep s = .next (
    if min s.pwTable.toNat s.pwLim.toNat < s.pwAvg.toNat then (if s.pwStep.toNat ≤ 3 then s else { s with pwStep := s.pwStep - 1, pwSince := s.tick.toNat })
    else if s.pwAvg.toNat * 100 < min s.pwTable.toNat s.pwLim.toNat * 95 then
      (if s.pwStep = 15 then s else { s with pwStep := s.pwStep + 1, pwSince := s.tick.toNat })
    else s) :=
  congrArg Host.Outcome.next (if_neg (Nat.not_lt.mpr hdue))

end Power

end Sys2Proof.Machine
end

section
/-! PROOF. The events of the host port, of boot and of the clamp (R168, R221, R222, R249 to R256). -/

namespace Sys2Proof.Machine

section ColdReset
variable {s s0 : State} (hstart : s.coldStart = s0)
include hstart

/-- The flash stays, and with it the table (R249, R250). -/
theorem State.coldStart_flash : s0.flash = s.flash := by
  subst hstart
  unfold State.coldStart
  split <;> rfl

theorem State.coldStart_tbl (off n : Nat) : s0.tbl off n = s.tbl off n := by
  rw [State.tbl, State.coldStart_flash hstart, State.tbl]

theorem State.coldStart_fits :
    (Config.signatureHolds (memRead s0.flash 0 3565) && s0.tableOk) = (Config.signatureHolds (memRead s.flash 0 3565) && s.tableOk) := by
  have hflash := State.coldStart_flash hstart
  rw [State.tableOk_of_flash hflash, hflash]

theorem exec_coldReset_refused (hfits : (Config.signatureHolds (memRead s.flash 0 3565) && s.tableOk) = false) :
    exec .coldReset s = .next { s0 with boot := .failed 2, bootWord := 2 } := by
  refine congrArg Host.Outcome.next ?_
  rw [hstart]
  exact State.bootRun_refused ((State.coldStart_fits hstart).trans hfits)

variable (hfits : (Config.signatureHolds (memRead s.flash 0 3565) && s.tableOk) = true) {image digest : List Byte}
  (himage : memRead s.flash (s.tbl 192 8) (s.tbl 200 8) = image) (hdigest : memRead s.flash 208 32 = digest)
include hfits himage hdigest

/-- The steps of the boot ROM past the signature and the table, from what a cold reset finds. -/
theorem exec_coldReset_loads : exec .coldReset s = .next (
    if fit 32 (shake256 image) ≠ digest then { s0 with mem := memWrite s0.mem 0 image }.bootFail 3
    else { s0 with mem := memWrite s0.mem 0 image }.bootRegisters.bootMeasure.bootRelease) := by
  refine congrArg Host.Outcome.next ?_
  rw [← State.coldStart_flash hstart] at himage hdigest
  rw [← State.coldStart_tbl hstart, ← State.coldStart_tbl hstart] at himage
  rw [hstart]
  exact State.bootRun_loads ((State.coldStart_fits hstart).trans hfits) himage hdigest

theorem exec_coldReset_wrongImage (hwrong : fit 32 (shake256 image) ≠ digest) :
    exec .coldReset s = .next { s0 with mem := memWrite s0.mem 0 image, boot := .failed 3, bootWord := 3 } :=
  (exec_coldReset_loads hstart hfits himage hdigest).trans (congrArg Host.Outcome.next (if_pos hwrong))

theorem exec_coldReset_up (hright : fit 32 (shake256 image) = digest) : ∃ t, exec .coldReset s = .next t ∧ t.boot = .up ∧ t.bootWord = 0xFF ∧
    t.fwcol.toNat = s.tbl 6 1 ∧ t.fwwidth.toNat = s.tbl 7 1 ∧ t.spare = s.tbl 8 1 ∧ t.gsLock = true ∧ t.pwLim.toNat = s.tbl 16 2 ∧
    t.mem = memWrite s0.mem 0 image ∧
    ∀ k, k < 4 * 8 * 34 * 32 → t.isFw k = true → (t.slot k).st = .run ∧ (t.slot k).pc = 0 ∧ (t.grove (groveOf k)).wallLock = true := by
  have hexec := (exec_coldReset_loads hstart hfits himage hdigest).trans (congrArg Host.Outcome.next (if_neg (not_not.mpr hright)))
  generalize hloaded : { s0 with mem := memWrite s0.mem 0 image } = s1 at hexec
  have hflash : s1.flash = s.flash := by
    rw [← State.coldStart_flash hstart, ← hloaded]
  have hmem : s1.mem = memWrite s0.mem 0 image := (congrArg State.mem hloaded).symm
  have htbl : ∀ off n, s1.tbl off n = s.tbl off n := fun off n => by rw [State.tbl, hflash, State.tbl]
  have htable := (State.tableOk_of_flash hflash).trans (Bool.and_eq_true_iff.mp hfits).2
  have hup := State.bootSteps_up htable rfl
  rw [htbl, htbl, htbl, htbl, hmem] at hup
  exact ⟨_, hexec, hup⟩

end ColdReset

/-- Settles O55: each event of the host, of boot and of the clamp by the lemma on what it finds. -/
theorem hostAndBootEvents : Obligations.HostAndBootEvents := by
  intro s v off size n a watts status
  refine ⟨exec_hostEventWordWrite_sets s v, ?busy, fun hidle => ⟨exec_mailboxComplete_idle hidle status, exec_attest_idle hidle⟩, ?bar0,
    fun bs hsize hlen hsec hlow hboot wr hwr => ?inReset, fun bs hboot hsize hlen hsec hopen => ?memory, ?reset,
    fun hdue => exec_powerSample_samples hdue watts, ?clamp⟩
  case busy =>
    intro hbusy done
    rw [← State.mbOp_eq]
    refine ⟨fun hop => ?_, fun hop => ⟨⟨_, exec_mailboxComplete_done hbusy hop status, rfl, rfl⟩,
      fun hnew => ⟨_, exec_mailboxFwOp_tells hbusy hop hnew, rfl, rfl⟩, exec_mailboxFwOp_told⟩⟩
    obtain ⟨t, hexec, hcmd, hvectors, hreport⟩ := exec_attest_reports hbusy hop
    exact ⟨t, hexec, ⟨hcmd, hvectors⟩, hreport⟩
  case bar0 =>
    intro w
    refine ⟨exec_hostBar0Write_malformed, fun hboot => ⟨fun hn => ⟨?_, ?_⟩, fun hn => ?_, fun hn => ⟨?_, ?_⟩, fun hbusy => ?_, fun hidle hop hvec => ?_⟩,
      fun k hboot hal hin => exec_hostBar0Write_failed hal hin hboot⟩
    · exact exec_hostBar0Write_up (by omega) (by omega) hboot (s.barHost_windowBase v hn)
    · exact exec_hostBar0Write_up (by omega) (by omega) hboot (s.barHost_windowLimit v hn)
    · refine ⟨_, exec_hostBar0Write_up (by omega) (by omega) hboot (s.barHost_request v hn), memRead_memWrite_bytesOf _ _ _ _, fun i hi => ?_⟩
      exact memByte_memWrite_apart _ (by rwa [length_bytesOf])
    · exact exec_hostBar0Write_up (by omega) (by omega) hboot (s.barHost_ignored v (by omega))
    · exact exec_hostBar0Write_up (by omega) (by omega) hboot (s.barHost_ignored v (by omega))
    · exact exec_hostBar0Write_up (by omega) (by omega) hboot ((s.barHost_command v).trans (State.mbStart_busy hbusy v))
    · exact ⟨_, exec_hostBar0Write_up (by omega) (by omega) hboot ((s.barHost_command v).trans (State.mbStart_known hidle hop hvec)), rfl, rfl⟩
  case inReset =>
    refine exec_hostMemoryAccess_inReset hsize (fun bs' hbs => ?_) hsec hlow hboot
    simp only [List.mem_cons, List.not_mem_nil, or_false] at hwr
    rcases hwr with rfl | rfl
    · exact absurd hbs (by simp)
    · rwa [← Option.mem_some.mp hbs]
  case memory =>
    have hlow : a < 2 ^ 38 := by have := hopen.1; omega
    have hread : exec (.hostMemoryAccess a size none) s = .next (s.hostPlace a size none) := exec_hostMemoryAccess_up hsize nofun hsec hlow hboot
    have hwrite : exec (.hostMemoryAccess a size (some bs)) s = .next (s.hostPlace a size (some bs)) :=
      exec_hostMemoryAccess_up hsize (fun bs' hbs => by rwa [← Option.mem_some.mp hbs]) hsec hlow hboot
    refine ⟨fun hplain => ?_, fun c howner hrec => ⟨_, hread, State.hostPlace_quilt hopen hsize howner hrec none⟩⟩
    obtain ⟨hplaceR, hplaceW⟩ := State.hostPlace_plain hopen hplain
    obtain ⟨held, hheld, hhalves⟩ := State.hostRead_openAt hopen hsize
    have hwrote := State.hostWrite_openAt hopen hsize hlen
    rw [hplaceR, hheld] at hread
    rw [hplaceW] at hwrite
    refine ⟨⟨_, hread, rfl, hhalves⟩, _, hwrite, ?_, rfl, fun r hr => hwrote.byteAt (hlen ▸ hr)⟩
    rw [hwrote.mem, ← hlen, memRead_memWrite_same]
  case reset =>
    intro s0 image fits digest
    have hstart : s.coldStart = s0 := s.coldStart_eq
    exact ⟨exec_coldReset_refused hstart, exec_coldReset_wrongImage hstart (hdigest := rfl) (himage := rfl),
      exec_coldReset_up hstart (hdigest := rfl) (himage := rfl)⟩
  case clamp =>
    intro lim avg step
    refine ⟨exec_clampStep_waits, fun hdue => ?_⟩
    have hstep := exec_clampStep_due hdue
    refine ⟨fun hover hroom => ?_, fun hover hfloor => ?_, fun hunder htop => ?_, fun hnear hwithin => ?_⟩
    · rwa [if_pos hover, if_neg (Nat.not_le.mpr hroom)] at hstep
    · rwa [if_pos hover, if_pos hfloor] at hstep
    · rwa [if_neg (by omega), if_pos hunder, if_neg htop] at hstep
    · rwa [if_neg (Nat.not_lt.mpr hwithin), if_neg (Nat.not_lt.mpr hnear)] at hstep

end Sys2Proof.Machine
end

section
/-! PROOF. pg.post and pg.replay (R210, R213, R231, R343, R344). -/

namespace Sys2Proof.Machine

/-! ### What an invalidation takes from the TLBs (R210) -/

theorem TlbEntry.meets_iff {e : TlbEntry} {ctx lo hi : Nat} : e.meets ctx lo hi = true ↔ e.ctx = ctx ∧ e.va < hi ∧ lo < e.va + e.size := by
  simp only [TlbEntry.meets, Bool.and_eq_true, decide_eq_true_eq, and_assoc]

theorem mem_filter_not_meets {l : List TlbEntry} {e : TlbEntry} {ctx lo hi : Nat} :
    (e ∈ l.filter fun e => !e.meets ctx lo hi) ↔ e ∈ l ∧ ¬ (e.ctx = ctx ∧ e.va < hi ∧ lo < e.va + e.size) := by
  rw [List.mem_filter, Bool.not_eq_true', ← Bool.not_eq_true, TlbEntry.meets_iff]

theorem any_meets_iff {l : List TlbEntry} {ctx lo hi : Nat} :
    (l.any fun e => e.meets ctx lo hi) = true ↔ ∃ e ∈ l, e.ctx = ctx ∧ e.va < hi ∧ lo < e.va + e.size := by
  simp only [List.any_eq_true, TlbEntry.meets_iff]

theorem State.tlbDrop_core (s : State) (ctx lo hi k : Nat) :
    (s.tlbDrop ctx lo hi).core k = { s.core k with
      dtlb := (s.core k).dtlb.filter fun e => !e.meets ctx lo hi, itlb := (s.core k).itlb.filter fun e => !e.meets ctx lo hi } := by
  have hfind := PMap.find_map_value s.cores (fun _ (q : Core) => { q with
    dtlb := q.dtlb.filter fun e => !e.meets ctx lo hi, itlb := q.itlb.filter fun e => !e.meets ctx lo hi }) k
  simp only [State.core, State.tlbDrop, PMap.get, hfind]
  cases PMap.find s.cores k <;> rfl

theorem State.tlbDrop_grove (s : State) (ctx lo hi k : Nat) :
    (s.tlbDrop ctx lo hi).grove k = { s.grove k with l2tlb := (s.grove k).l2tlb.filter fun e => !e.meets ctx lo hi } := by
  have hfind := PMap.find_map_value s.groves (fun _ (q : Grove) => { q with l2tlb := q.l2tlb.filter fun e => !e.meets ctx lo hi }) k
  simp only [State.grove, State.tlbDrop, PMap.get, hfind]
  cases PMap.find s.groves k <;> rfl

/-- No TLB of the device holds a translation that meets a range any more, the data TLBs keep all their others, and no byte changes (R210). -/
def State.Invalidated (s t : State) (ctx lo hi : Nat) : Prop :=
  let meets := fun (e : TlbEntry) => e.ctx = ctx ∧ e.va < hi ∧ lo < e.va + e.size
  s.sameBytes t ∧ (∀ k e, e ∈ (t.core k).dtlb ∨ e ∈ (t.core k).itlb → ¬ meets e) ∧ (∀ k e, e ∈ (t.grove k).l2tlb → ¬ meets e) ∧
  ∀ k e, e ∈ (s.core k).dtlb → ¬ meets e → e ∈ (t.core k).dtlb

/-- It depends on the memories, the cores and the groves alone. -/
theorem State.Invalidated.of_same {s t u : State} {ctx lo hi : Nat} (h : s.Invalidated t ctx lo hi) (hmem : u.mem = t.mem) (hhost : u.hostMem = t.hostMem)
    (hcores : u.cores = t.cores) (hgroves : u.groves = t.groves) : s.Invalidated u ctx lo hi := by
  have hcore : u.core = t.core := funext fun k => by rw [State.core, State.core, hcores]
  have hgrove : u.grove = t.grove := funext fun k => by rw [State.grove, State.grove, hgroves]
  have hbyte : u.byteAt = t.byteAt := funext fun p => by cases p <;> simp only [State.byteAt, hmem, hhost, hcore, hgrove]
  unfold State.Invalidated State.sameBytes at h ⊢
  rwa [hbyte, hcore, hgrove]

theorem State.tlbDrop_invalidated (s : State) (ctx lo hi : Nat) : s.Invalidated (s.tlbDrop ctx lo hi) ctx lo hi := by
  refine ⟨fun p => ?_, fun k e he => ?_, fun k e he => ?_, fun k e he hkept => ?_⟩
  · cases p with
    | device a => rfl
    | host a => rfl
    | tcm c off => rw [State.byteAt, State.byteAt, State.tlbDrop_core]
    | scratch g off => rw [State.byteAt, State.byteAt, State.tlbDrop_grove]
  · rw [State.tlbDrop_core] at he
    exact he.elim (fun h => (mem_filter_not_meets.mp h).2) fun h => (mem_filter_not_meets.mp h).2
  · rw [State.tlbDrop_grove] at he
    exact (mem_filter_not_meets.mp he).2
  · rw [State.tlbDrop_core]
    exact mem_filter_not_meets.mpr ⟨he, hkept⟩

/-! ### pg.post on a firmware core (R231, R343) -/

section Post
variable {s : State} {a b c : Reg} (hacts : s.acts) (hfw : s.isFw s.cur = true)
include hacts hfw

theorem exec_pgPost_illegal (hrange : 64 ≤ (s.x a).toNat ∨ 2 ^ 48 < (s.x b).toNat + (s.x c).toNat) :
    exec (.pgPost a b c) s = .next (s.takeTrap s.cur Cause.illegal 0 0) := by
  refine (firmwareOnly_acts hacts hfw _).trans ?_
  by_cases hctx : 64 ≤ (s.x a).toNat
  · rw [if_pos hctx, finish_trap]
  · rw [if_neg hctx, if_pos (hrange.resolve_left hctx), finish_trap]

variable (hctx : (s.x a).toNat < 64) (hrange : (s.x b).toNat + (s.x c).toNat ≤ 2 ^ 48) (hout : s.allOut)
include hctx hrange hout

/-- With its operands in order and every earlier store performed, pg.post looks at the guest's acknowledgement first. -/
theorem exec_pgPost_inRange : exec (.pgPost a b c) s = finish (
    if s.guest.acked.contains s.cur then .next { s with guest := { s.guest with acked := s.guest.acked.filter (· != s.cur) } }
    else if s.guest.inval.any fun q => q.1 == some s.cur then .hold s
    else if (s.x c).toNat = 0 then .next s
    else postRange (s.x a).toNat (s.x b).toNat (s.x c).toNat s) := by
  refine (firmwareOnly_acts hacts hfw _).trans ?_
  rw [if_neg (Nat.not_le.mpr hctx), if_neg (Nat.not_lt.mpr hrange), postStep, State.release_of_allOut hout]

theorem exec_pgPost_acknowledged (hacked : s.cur ∈ s.guest.acked) : exec (.pgPost a b c) s =
    .next { s with guest := { s.guest with acked := s.guest.acked.filter (· != s.cur) } }.advance := by
  rw [exec_pgPost_inRange hacts hfw hctx hrange hout, if_pos (List.contains_iff_mem.mpr hacked), finish_next]

variable (hacked : s.cur ∉ s.guest.acked)
include hacked

theorem exec_pgPost_waits (hdue : ∃ q ∈ s.guest.inval, q.1 = some s.cur) :
    exec (.pgPost a b c) s = .next (s.setSlot s.cur { s.me with held := true }) := by
  have hany : (s.guest.inval.any fun q => q.1 == some s.cur) = true := by simpa only [List.any_eq_true, beq_iff_eq] using hdue
  rw [exec_pgPost_inRange hacts hfw hctx hrange hout, if_neg (mt List.contains_iff_mem.mp hacked), if_pos hany, finish_hold]

variable (hnone : ∀ q ∈ s.guest.inval, q.1 ≠ some s.cur)
include hnone

theorem exec_pgPost_first : exec (.pgPost a b c) s = finish (
    if (s.x c).toNat = 0 then .next s else postRange (s.x a).toNat (s.x b).toNat (s.x c).toNat s) := by
  have hany : ¬ (s.guest.inval.any fun q => q.1 == some s.cur) = true := by
    simpa only [List.any_eq_true, beq_iff_eq, not_exists, not_and] using hnone
  rw [exec_pgPost_inRange hacts hfw hctx hrange hout, if_neg (mt List.contains_iff_mem.mp hacked), if_neg hany]

end Post

theorem pageRange_eq (start len : Nat) : pageRange start len = (start / 4096 * 4096, (start + len + 4095) / 4096 * 4096) := by
  rw [pageRange, ceilDiv, Nat.add_sub_assoc (by decide)]

/-- Where the guest holds no translation of the range, the invalidation is over at once (R210). -/
theorem postRange_unheld {s : State} {ctx start len lo hi : Nat} (hpages : pageRange start len = (lo, hi))
    (hguest : ∀ e ∈ s.guest.tlb, ¬ (e.ctx = ctx ∧ e.va < hi ∧ lo < e.va + e.size)) : postRange ctx start len s = .next (s.tlbDrop ctx lo hi) := by
  have hany : ¬ (s.guest.tlb.any fun e => e.meets ctx lo hi) = true := by
    rw [any_meets_iff]
    exact fun ⟨e, he, hmeets⟩ => hguest e he hmeets
  rw [postRange, hpages]
  exact if_neg hany

/-- Where it holds one, the slot waits for its acknowledgement (R231, R232). -/
theorem postRange_held {s : State} {ctx start len lo hi : Nat} (hpages : pageRange start len = (lo, hi))
    (hguest : ∃ e ∈ s.guest.tlb, e.ctx = ctx ∧ e.va < hi ∧ lo < e.va + e.size) : postRange ctx start len s =
    .hold { s.tlbDrop ctx lo hi with guest := { s.guest with
      tlb := s.guest.tlb.filter fun e => !e.meets ctx lo hi, inval := s.guest.inval ++ [(some s.cur, s.tick.toNat + s.boundTicks)] } } := by
  rw [postRange, hpages]
  exact if_pos (any_meets_iff.mpr hguest)

/-! ### pg.replay on a firmware core (R344) -/

section Replay
variable {s : State} {a : Reg} (hacts : s.acts) (hfw : s.isFw s.cur = true)
include hacts hfw

theorem exec_pgReplay_misaligned (hal : (s.x a).toNat % 64 ≠ 0) : exec (.pgReplay a) s = .next (s.takeTrap s.cur Cause.misaligned (s.x a) 0) :=
  (firmwareOnly_acts hacts hfw _).trans (congrArg finish (if_pos hal))

theorem exec_pgReplay_openAt (hal : (s.x a).toNat % 64 = 0) (hopen : s.openAt (s.x a).toNat 64) :
    exec (.pgReplay a) s = .next (s.replay (memRead s.mem (s.x a).toNat 64)).advance := by
  have hrecall := State.recallRange_openAt hopen (Nat.le_refl 64)
  have hpeek := State.peek_openAt hopen (Nat.le_refl 64)
  obtain ⟨-, hfree, -, -, -, hclean, -⟩ := hopen
  have hstep : replayStep (s.x a).toNat s = .next (s.replay (memRead s.mem (s.x a).toNat 64)) := by
    simp only [replayStep, hfree, hrecall, hclean, hpeek, Bool.false_eq_true, if_false]
  refine (firmwareOnly_acts hacts hfw _).trans ?_
  rw [if_neg (not_not.mpr hal), hstep, finish_next]

end Replay

/-- Settles O46: outside the firmware column the privilege check comes first; on it, pg.post drops what meets the pages of its range and waits where the guest
held some of it, and pg.replay reads its record where it stands. -/
theorem pagingInstructions : Obligations.PagingInstructions := by
  refine ⟨fun s a b c huser => ⟨firmwareOnly_user huser _, firmwareOnly_user huser _⟩, fun s a b c hacts => ?_⟩
  intro ctx start len lo hi hfw
  have hpages : pageRange start len = (lo, hi) := pageRange_eq start len
  refine ⟨exec_pgPost_illegal hacts hfw, fun hctx hrange hout => ?_, exec_pgReplay_misaligned hacts hfw, exec_pgReplay_openAt hacts hfw⟩
  intro meets dropped
  refine ⟨exec_pgPost_acknowledged hacts hfw hctx hrange hout, exec_pgPost_waits hacts hfw hctx hrange hout, fun hacked hnone => ?_⟩
  have hfirst := exec_pgPost_first hacts hfw hctx hrange hout hacked hnone
  have hdropped := s.tlbDrop_invalidated ctx lo hi
  refine ⟨fun hlen => ?_, fun hlen hguest => ?_, fun hlen hguest => ?_⟩
  · rw [hfirst, if_pos hlen, finish_next]
  · rw [hfirst, if_neg (Nat.ne_of_gt hlen), postRange_unheld hpages hguest]
    exact ⟨_, rfl, State.setSlot_me (s.tlbDrop ctx lo hi) _, hdropped.of_same rfl rfl rfl rfl, rfl⟩
  · rw [hfirst, if_neg (Nat.ne_of_gt hlen), postRange_held hpages hguest, finish_hold]
    exact ⟨_, rfl, State.setSlot_me _ _, hdropped.of_same rfl rfl rfl rfl, fun e he => (mem_filter_not_meets.mp he).2, rfl⟩

end Sys2Proof.Machine
end

section
/-! PROOF. What leaves the links as they are: accesses to the memories, the ends of tasks and of groups, and the fence of the guest (R217, R232). -/

namespace Sys2Proof.Machine

/-! ### Accesses to the memories -/

theorem State.DirtyOnly.links {s t : State} (h : s.DirtyOnly t) : t.links = s.links := by
  obtain ⟨_, _, _, rfl⟩ := h
  rfl

@[simp] theorem State.devWrite_links (s : State) (p : Nat) (inter : Bool) (bs : List Byte) : (s.devWrite p inter bs).links = s.links :=
  (State.DirtyOnly.foldl (fun t sec => t.makeDirty_dirtyOnly inter sec) s (sectorsOf p bs.length)).links

@[simp] theorem State.hostPut_links (s : State) (p a : Nat) (bs : List Byte) : (s.hostPut p a bs).links = s.links :=
  (State.DirtyOnly.foldl (fun t sec => t.makeDirty_dirtyOnly true sec) s (sectorsOf p bs.length)).links

@[simp] theorem State.tcmWrite_links (s : State) (core off : Nat) (bs : List Byte) : (s.tcmWrite core off bs).links = s.links := by
  unfold State.tcmWrite
  simp only
  split <;> rfl

@[simp] theorem State.windowWrite_links (s : State) (g off : Nat) (bs : List Byte) : (s.windowWrite g off bs).links = s.links := by
  unfold State.windowWrite
  split
  · exact State.tcmWrite_links s _ _ bs
  · split
    · rfl
    · split <;> rfl

@[simp] theorem State.barWrite_links (s : State) (off : Nat) (bs : List Byte) : (s.barWrite off bs).links = s.links := by
  unfold State.barWrite
  simp only
  split
  · split <;> rfl
  · split
    · rfl
    · split <;> rfl

@[simp] theorem State.bellWrite_links (s : State) (q : Nat) (bs : List Byte) : (s.bellWrite q bs).links = s.links := by
  unfold State.bellWrite
  simp only
  split
  · rfl
  · exact State.devWrite_links s _ _ _

/-- Registers of the host port and doorbells included, a write reaches no link. -/
@[simp] theorem State.poke_links (s : State) (p : Nat) (inter : Bool) (bs : List Byte) : (s.poke p inter bs).links = s.links := by
  unfold State.poke
  split <;> simp only [State.devWrite_links, State.windowWrite_links, State.barWrite_links, State.bellWrite_links, State.hostPut_links]

@[simp] theorem State.traceAdd_links (s : State) (home kind size p src : Nat) : (s.traceAdd home kind size p src).links = s.links := by
  unfold State.traceAdd
  simp only
  split <;> rfl

@[simp] theorem State.notify_links (s : State) (sec : Nat) : (s.notify sec).links = s.links := rfl

@[simp] theorem State.combineCopy_links (s : State) (core sec : Nat) : (s.combineCopy core sec).links = s.links :=
  foldl_keeps (obs := State.links) (f := fun st e => (st.combineElem e).traceAdd (st.home e.pa e.inter) 2 (redWidth e.ty.toNat / 8) e.pa (st.source (core * 4)))
    (fun st e => (State.traceAdd_links _ _ _ _ _ _).trans (State.poke_links st e.pa e.inter _)) (s.setCore core _) _

@[simp] theorem State.combineAll_links (sec n : Nat) (s : State) (cores : List Nat) : (s.combineAll sec n cores).links = s.links := by
  induction n generalizing s cores with
  | zero => rfl
  | succ n ih =>
    unfold State.combineAll
    split
    · rfl
    · exact State.combineCopy_links s _ sec
    · exact (ih _ _).trans (State.combineCopy_links _ _ sec)

@[simp] theorem State.recall_links (s : State) (sec : Nat) : (s.recall sec).links = s.links := by
  have hsnoop : (s.snoop sec).links = s.links := by
    unfold State.snoop
    split <;> rfl
  unfold State.recall
  simp only
  split
  · exact hsnoop
  · exact (State.combineAll_links _ _ _ _).trans hsnoop

@[simp] theorem State.recallRange_links (s : State) (p n : Nat) : (s.recallRange p n).links = s.links := foldl_keeps State.recall_links s _

theorem State.walkFrom_links (va : Nat) (levels : List Nat) (table : Nat) (s : State) : (State.walkFrom va levels table s).2.2.links = s.links := by
  induction levels generalizing table s with
  | nil => rfl
  | cons level rest ih =>
    unfold State.walkFrom
    simp only
    split
    · rfl
    · split
      · exact State.recall_links s _
      · split
        · exact State.recall_links s _
        · exact (ih _ _).trans (State.recall_links s _)

@[simp] theorem State.walkTouch_links (s : State) (ctx : Nat) (vas : List Nat) : (s.walkTouch ctx vas).links = s.links := by
  refine foldl_keeps (obs := State.links) (f := fun st va => (st.walk ctx (va % 2 ^ 48)).2.2) (fun st va => ?_) s vas
  unfold State.walk
  simp only
  split
  · rfl
  · exact State.walkFrom_links _ _ _ st

@[simp] theorem State.raiseIf_links (s : State) (ctx : Option Nat) : (s.raiseIf ctx).links = s.links := by cases ctx <;> rfl

/-! ### Stores, and writes of the device -/

@[simp] theorem State.strongPut_links (s : State) (slot p : Nat) (inter : Bool) (bs : List Byte) (sig : Bool) (kind : Nat) :
    (s.strongPut slot p inter bs sig kind).links = s.links := by
  have hperform : (s.perform slot p inter bs sig kind).links = s.links := by
    unfold State.perform
    simp only
    split <;> simp only [State.notify_links, State.traceAdd_links, State.poke_links, State.recallRange_links]
  refine Eq.trans ?_ hperform
  unfold State.strongPut State.strongDone
  split <;> rfl

theorem State.drainGo_links (slot n : Nat) {s t : State} (h : s.drainGo slot n = some t) : t.links = s.links := by
  induction n generalizing s with
  | zero => exact congrArg State.links (Option.some.inj h).symm
  | succ n ih =>
    unfold State.drainGo at h
    split at h
    · exact congrArg State.links (Option.some.inj h).symm
    · split at h
      · exact nomatch h
      · exact (ih h).trans (State.strongPut_links (s.setSlot slot _) _ _ _ _ _ _)

@[simp] theorem State.latePut_links (s : State) (l : Late) : (s.latePut l).links = s.links := by
  unfold State.latePut
  split
  · split <;> rfl
  · split
    · exact State.strongPut_links s _ _ _ _ _ _
    · simp only
      split <;> simp only [State.notify_links, State.poke_links, State.recallRange_links]

@[simp] theorem State.recWrite_links (s : State) (pa off : Nat) (bs : List Byte) : (s.recWrite pa off bs).links = s.links := by
  unfold State.recWrite State.lateWrite
  split
  · rfl
  · exact State.latePut_links s _

@[simp] theorem State.unlock_links (s : State) (key : Nat) : (s.unlock key).links = s.links := by
  have hflush : ∀ t : State, t.flushLate.links = t.links := fun t => by
    refine foldl_keeps (obs := State.links)
      (f := fun st (l : Late) => if st.mustWait l.st.pa l.st.bytes.length then { st with late := st.late ++ [l] } else st.latePut l)
      (fun st l => ?_) { t with late := [] } t.late
    split
    · rfl
    · exact State.latePut_links st l
  unfold State.unlock
  split
  · exact hflush _
  · rfl

@[simp] theorem State.recordPut_links (s : State) (r : FaultRec) : (s.recordPut r).1.links = s.links := by
  unfold State.recordPut
  extract_lets d s0 c head tail s1 s2
  have h0 : s0.links = s.links := State.recallRange_links s _ _
  split
  · exact h0
  · split
    · dsimp only
      split <;> exact h0
    · exact (State.recWrite_links s1 _ _ _).trans ((State.recWrite_links s0 _ _ _).trans h0)

/-! ### The report of a slot (R72, R237, R238) -/

@[simp] theorem State.setPathSrc_links (s : State) (slot path : Nat) (f : FaultSrc) : (s.setPathSrc slot path f).links = s.links := by
  unfold State.setPathSrc
  split <;> rfl

theorem State.slotRecordPut_links (s : State) (slot : Nat) (r : FaultRec) : (s.slotRecordPut slot r).1.links = s.links := by
  have hput := State.recordPut_links s r
  unfold State.slotRecordPut
  simp only
  split
  · rfl
  · split
    · next s1 heq =>
      rw [heq] at hput
      exact (State.setPathSrc_links s1 _ _ _).trans hput
    · exact hput

theorem State.noticePut_links {s t : State} {bs : List Byte} (h : s.noticePut bs = some t) : t.links = s.links := by
  unfold State.noticePut at h
  split at h
  · exact nomatch h
  · obtain rfl := Option.some.inj h
    exact State.recWrite_links s _ _ _

@[simp] theorem State.report_links (s : State) (slot : Nat) : (s.report slot).links = s.links := by
  unfold State.report
  split
  · rfl
  · split
    · rfl
    · next s1 hdrain =>
      have h1 : s1.links = s.links := State.drainGo_links slot _ hdrain
      extract_lets s2 sl
      have h2 : s2.links = s.links := by
        refine Eq.trans ?_ h1
        simp only [s2]
        split
        · next r _ =>
          have hput := State.slotRecordPut_links s1 slot r
          split <;> next heq => rw [heq] at hput; exact hput
        · rfl
      split
      · exact h2
      · split
        · split
          · exact h2
          · split
            · next s3 hnotice => exact (State.noticePut_links hnotice).trans h2
            · exact h2
        · split <;> exact h2

/-! ### The end of a task (R85, R167, R183, R244) -/

@[simp] theorem State.giveFrames_links (s : State) (ctx : Nat) (fs : List Nat) : (s.giveFrames ctx fs).links = s.links := by
  unfold State.giveFrames
  refine foldl_keeps (obs := State.links) (fun st f => ?_) s fs
  exact (State.recWrite_links _ _ _ _).trans (State.recWrite_links st f 0 _)

theorem State.atQuilt_links (s : State) (ctx va : Nat) (o : Owed) {f : State → Nat → State} (hf : ∀ st p, (f st p).links = st.links) :
    (s.atQuilt ctx va o f).links = s.links := by
  unfold State.atQuilt
  simp only
  split
  · split
    · exact State.walkTouch_links s ctx [va]
    · split <;> simp only [hf, State.recallRange_links, State.walkTouch_links]
  · exact State.walkTouch_links s ctx [va]
  · rw [State.raiseIf_links, State.walkTouch_links]

@[simp] theorem State.closeHandle_links (s : State) (ctx : Nat) (h : QHandle) : (s.closeHandle ctx h).links = s.links := by
  refine State.atQuilt_links s ctx h.ver.toNat (.close ctx h.ver) fun st p => ?_
  unfold State.readerGone
  simp only
  split <;> simp only [State.recWrite_links]

theorem State.closeHandles_links (s : State) (ctx : Nat) (hs : List QHandle) :
    (hs.foldl (fun (st : State) h => st.closeHandle ctx h) s).links = s.links :=
  foldl_keeps (obs := State.links) (fun st h => State.closeHandle_links st ctx h) s hs

@[simp] theorem State.dropDrafts_links (s : State) (key : Nat) : (s.dropDrafts key).links = s.links := by
  refine foldl_keeps (obs := State.links) (fun st d => ?_) { s with drafts := s.drafts.filter fun d => d.task != key } _
  exact State.atQuilt_links st d.ctx d.desc (.discard d) fun u p => by simp only [State.recWrite_links]

@[simp] theorem State.mmaFinish_links (s : State) (core : Nat) : (s.mmaFinish core).links = s.links := by
  have hgone : ∀ (t : State) (c : Nat), (t.mmaGone c).links = t.links := fun t c => by
    unfold State.mmaGone
    simp only
    split <;> rfl
  have hpiece : ∀ (t : State) (c : Nat), (t.mmaPiece c).links = t.links := fun t c => by
    unfold State.mmaPiece
    split
    · rfl
    · simp only
      split
      · exact hgone _ c
      · split
        · exact hgone _ c
        · rfl
  refine foldl_keeps (obs := State.links) (f := fun st (_ : Nat) => if st.hasMma core then st.mmaRest (st.served core) else st) (fun st _ => ?_) s _
  split
  · exact foldl_keeps (obs := State.links) (f := fun u (_ : Nat) => u.mmaPiece (st.served core)) (fun u _ => hpiece u _) st _
  · rfl

@[simp] theorem State.engStatus_links (s : State) (core : Nat) (c : EngCmd) (v : Nat) : (s.engStatus core c v).links = s.links := by
  unfold State.engStatus
  simp only
  split
  · exact State.tcmWrite_links s _ _ _
  · rfl

@[simp] theorem State.engAbandon_links (s : State) (slot : Nat) : (s.engAbandon slot).links = s.links := by
  have hnote : ∀ (t : State) (core : Nat) (e : Engine), (t.engNote core slot e).links = t.links := fun t core e => by
    unfold State.engNote
    split
    · split
      · exact State.engStatus_links t _ _ _
      · rfl
    · rfl
  exact (hnote _ _ _).trans (hnote _ _ _)

@[simp] theorem State.stripSlot_links (s : State) (slot : Nat) : (s.stripSlot slot).links = s.links := by
  unfold State.stripSlot
  extract_lets sl s1 s2 busy s3
  have h2 : s2.links = s.links := (State.closeHandles_links s1 _ _).trans (State.giveFrames_links s _ _)
  refine (State.engAbandon_links _ slot).trans ?_
  split
  · rw [State.mmaFinish_links, h2]
  · exact h2

@[simp] theorem State.killOnSlot_links (s : State) (key : Nat) : (s.killOnSlot key).links = s.links := by
  unfold State.killOnSlot
  split
  · split
    · rw [State.report_links, State.modSlot_eq, State.setSlot_links, State.stripSlot_links]
    · exact State.stripSlot_links s _
  · rfl

@[simp] theorem State.engForget_links (s : State) (key : Nat) : (s.engForget key).links = s.links := by
  unfold State.engForget
  extract_lets mine note off s1
  have hnote : ∀ (core : Nat) (t : State) (e : Engine), (note core t e).links = t.links := fun core t e => by
    simp only [note]
    split
    · split
      · exact State.engStatus_links t _ _ _
      · rfl
    · rfl
  have h1 : s1.links = s.links := by
    refine foldl_keeps (obs := State.links) (fun st q => ?_) s s.cores
    exact (hnote q.1 _ q.2.gathEng).trans (hnote q.1 st q.2.copyEng)
  exact h1

@[simp] theorem State.forgetTask_links (s : State) (key : Nat) : (s.forgetTask key).links = s.links := by
  unfold State.forgetTask
  split
  · rfl
  · next t _ =>
    extract_lets s1 s2 s3
    have hsettled : (s.settleAwait t).links = s.links := by
      unfold State.settleAwait
      split
      · simp only
        split
        · exact State.setPathSrc_links s _ _ _
        · rfl
      · rfl
    have h1 : s1.links = s.links := (State.giveFrames_links _ _ _).trans hsettled
    have h2 : s2.links = s.links := by
      simp only [s2]
      split
      · exact (State.closeHandles_links s1 _ _).trans h1
      · exact h1
    exact (State.unlock_links _ key).trans ((State.dropDrafts_links s2 key).trans h2)

@[simp] theorem State.killTask_links (s : State) (key : Nat) : (s.killTask key).links = s.links :=
  (State.forgetTask_links _ key).trans ((State.engForget_links _ key).trans (State.killOnSlot_links s key))

/-! ### A group that breaks (R115, R119, R225) -/

@[simp] theorem State.modGroup_links (s : State) (g : Nat) (f : Group → Group) : (s.modGroup g f).links = s.links := by
  unfold State.modGroup
  split <;> rfl

@[simp] theorem State.groupWrite_links (s : State) (g off : Nat) (bs : List Byte) : (s.groupWrite g off bs).links = s.links := by
  unfold State.groupWrite
  split
  · exact State.recWrite_links s _ _ _
  · rfl

@[simp] theorem State.groupState_links (s : State) (g : Nat) (st : GrpSt) : (s.groupState g st).links = s.links := by
  rw [State.groupState, State.groupWrite_links, State.modGroup_links]

@[simp] theorem State.groupFree_links (s : State) (g : Nat) : (s.groupFree g).links = s.links := by
  have hgone : ∀ (t : State) (ctx : Nat), (t.groupGone ctx).links = t.links := fun t ctx => by
    unfold State.groupGone State.ctxGroups State.ctxState
    simp only
    split <;> simp only [State.recWrite_links, State.modCtx_eq, State.setCtx_links]
  unfold State.groupFree
  split
  · exact (hgone _ _).trans (State.modGroup_links s g _)
  · rfl

@[simp] theorem State.groupRefuse_links (s : State) (g cause : Nat) : (s.groupRefuse g cause).links = s.links := by
  unfold State.groupRefuse
  split
  · exact (State.groupWrite_links _ _ _ _).trans ((State.groupState_links _ _ _).trans ((State.groupFree_links _ _).trans (State.modGroup_links s g _)))
  · rfl

@[simp] theorem State.breakBarriers_links (s : State) (desc : Nat) : (s.breakBarriers desc).links = s.links := by
  refine foldl_keeps (obs := State.links) (fun st q => foldl_keeps (obs := State.links) (fun u p => ?_) st _) s _
  split
  · exact State.recWrite_links u _ _ _
  · rfl

@[simp] theorem State.breakGroup_links (s : State) (g cause : Nat) : (s.breakGroup g cause).links = s.links := by
  unfold State.breakGroup
  split
  · rfl
  · next gr _ =>
    extract_lets s1 s2 s3 s4 s5
    split
    · rfl
    · split
      · exact State.groupRefuse_links s g 1
      · have h3 : s3.links = s.links := by
          simp only [s3, s2, s1, State.groupWrite_links, State.groupState_links, State.modGroup_links, State.breakBarriers_links]
        have h4 : s4.links = s.links := (foldl_keeps State.killTask_links s3 _).trans h3
        have h5 : s5.links = s.links := by
          simp only [s5]
          split <;> exact h4
        exact h5

/-- The groups that break with a link change no link (R225). -/
@[simp] theorem State.breakRoutes_links (s : State) (link : Nat) : (s.breakRoutes link).links = s.links :=
  foldl_keeps (obs := State.links) (fun st n => State.breakGroup_links st n 9) s _

/-! ### What the guest's agent writes (R211, R230 to R232) -/

@[simp] theorem State.guestWalk_links (s : State) (ctx va : Nat) : (s.guestWalk ctx va).links = s.links := by
  unfold State.guestWalk
  split
  · rfl
  · exact State.walkTouch_links s ctx [va]

@[simp] theorem State.guestPut_links (s : State) (p : Nat) (inter : Bool) (bs : List Byte) (kind : Nat) (sig : Bool) :
    (s.guestPut p inter bs kind sig).links = s.links := by
  unfold State.guestPut
  simp only
  split <;> simp only [State.notify_links, State.traceAdd_links, State.poke_links, State.recallRange_links]

@[simp] theorem State.guestRecord_links (s : State) (q : Nat) (idx : Option Nat) (f : XFault) (progress : Nat) :
    (s.guestRecord q idx f progress).links = s.links := by
  unfold State.guestRecord
  extract_lets fs token r g s1 s2
  have h2 : s2.links = s.links := by
    simp only [s2]
    split <;> rfl
  have hput : (s2.recordPut r).1.links = s.links := (State.recordPut_links s2 r).trans h2
  split <;> next heq => rw [heq] at hput; exact hput

@[simp] theorem State.guestWord_links (s : State) (q ctx va v : Nat) : (s.guestWord q ctx va v).links = s.links := by
  have hdenied : ∀ (t : State) (b : LateBad), (t.guestDenied b).links = t.links := fun t b => by
    unfold State.guestDenied
    split
    · exact State.guestRecord_links t _ _ _ _
    · rfl
  unfold State.guestWord
  split
  · rfl
  · simp only
    split
    · split
      · exact State.guestWalk_links s ctx va
      · rw [State.guestPut_links, State.guestWalk_links]
    · rw [State.raiseIf_links, hdenied, State.guestWalk_links]
    · exact State.guestWalk_links s ctx va
    · exact State.guestWalk_links s ctx va

@[simp] theorem State.packetDone_links (s : State) (q i status : Nat) : (s.packetDone q i status).links = s.links := by
  unfold State.packetDone
  simp only
  split
  · split <;> simp only [State.guestWord_links, State.recallRange_links, State.guestWalk_links]
  · rw [State.raiseIf_links, State.guestWalk_links]

/-- The fence of the guest takes its packets, lines and queues, and no link (R232). -/
@[simp] theorem State.guestFence_links (s : State) : s.guestFence.links = s.links := by
  unfold State.guestFence
  extract_lets g s1 s2
  have h1 : s1.links = s.links := foldl_keeps (obs := State.links)
    (f := fun st (p : Nat × Nat) => st.packetDone p.1 p.2 4) (fun st p => State.packetDone_links st p.1 p.2 4) s _
  refine Eq.trans (?_ : s2.links = s1.links) h1
  simp only [s2]
  split
  · rfl
  · refine foldl_keeps (obs := State.links) (fun st q => ?_) s1 _
    split
    · rfl
    · exact State.recWrite_links st _ _ _

end Sys2Proof.Machine
end

section
/-! PROOF. The states of a link: commands, training, replays and retrains (R217 to R219, R224, R225). -/

namespace Sys2Proof.Machine

/-- A counter that stays at its greatest value. -/
theorem countUp_eq {w : Nat} (v : BitVec w) : (if v = BitVec.allOnes w then v else v + 1) = BitVec.ofNat w (min (2 ^ w - 1) (v.toNat + 1)) := by
  split
  · next hfull =>
    have hmin : min (2 ^ w - 1) (v.toNat + 1) = v.toNat := by rw [hfull, BitVec.toNat_allOnes, Nat.min_eq_left (Nat.le_succ _)]
    rw [hmin, BitVec.ofNat_toNat, BitVec.setWidth_eq]
  · next hroom =>
    have hlt : v.toNat ≠ 2 ^ w - 1 := fun h => hroom (BitVec.eq_of_toNat_eq (h.trans BitVec.toNat_allOnes.symm))
    rw [Nat.min_eq_right (by have := v.isLt; omega), BitVec.ofNat_add, BitVec.ofNat_toNat, BitVec.setWidth_eq]
    rfl

theorem State.link_of_links {s t : State} (h : t.links = s.links) (link : Nat) : t.link link = s.link link := by rw [State.link, State.link, h]

/-- A link as it enters TRAINING: no lane, no replay, one entry more (R217, R218). -/
def Link.inTraining (l : Link) (tick : Nat) : Link :=
  { l with st := .training, width := 0, rate := 0, replays := 0, burst := 0, since := tick, retrains := BitVec.ofNat 8 (min 255 (l.retrains.toNat + 1)) }

theorem State.linkTrain_eq (s : State) (link : Nat) : s.linkTrain link = s.setLink link ((s.link link).inTraining s.tick.toNat) := by
  rw [State.linkTrain, State.modLink_eq, Link.inTraining]
  exact congrArg (fun r => s.setLink link { s.link link with
    st := .training, width := 0, rate := 0, replays := 0, burst := 0, since := s.tick.toNat, retrains := r }) (countUp_eq _)

/-! ### What a link is when it goes down, and when it is fenced (R217) -/

theorem State.linkDown_link (s : State) (link : Nat) : (s.linkDown link).link link = { s.link link with st := .down, width := 0, rate := 0 } :=
  (State.link_of_links (State.breakRoutes_links _ link) link).trans (State.link_setLink_same s link _)

theorem State.linkFence_st (s : State) (link : Nat) : ((s.linkFence link).link link).st = .fenced := by
  have hbroken := State.link_of_links (State.breakRoutes_links (s.modLink link fun l => { l with st := .fenced, width := 0, rate := 0 }) link) link
  rw [State.modLink_eq, State.link_setLink_same] at hbroken
  unfold State.linkFence
  split
  · next hfenced => exact beq_iff_eq.mp hfenced
  · simp only
    split
    · rw [State.link_of_links (State.guestFence_links _), State.modLink_eq, hbroken]
    · rw [State.modLink_eq, hbroken]

/-! ### Commands (R219) -/

section Commands
variable {s : State} {link : Nat} {p : Pending} (hfind : s.lkQ.find? (fun p => lkLink p.word == link) = some p)
include hfind

/-- The oldest command for a link leaves the queue and is carried out. -/
theorem State.lkServe_oldest {op : Nat} (hop : lkOp p.word = op) (f : State → State) : s.lkServe link op f = f { s with lkQ := s.lkQ.erase p } := by
  rw [State.lkServe, hfind]
  exact if_pos hop

theorem exec_lkEnable (hop : lkOp p.word = 1) : exec (.lkEnable link) s =
    .next (if (s.link link).st = .down then { s with lkQ := s.lkQ.erase p }.setLink link ((s.link link).inTraining s.tick.toNat)
      else { s with lkQ := s.lkQ.erase p }) := by
  refine congrArg Host.Outcome.next ((State.lkServe_oldest hfind hop _).trans ?_)
  simp only [State.linkEnable, State.linkTrain_eq, beq_iff_eq]
  rfl

theorem exec_lkRetrain (hop : lkOp p.word = 2) : exec (.lkRetrain link) s =
    .next (if (s.link link).works then { s with lkQ := s.lkQ.erase p }.setLink link ((s.link link).inTraining s.tick.toNat)
      else { s with lkQ := s.lkQ.erase p }) := by
  refine congrArg Host.Outcome.next ((State.lkServe_oldest hfind hop _).trans ?_)
  simp only [State.linkRetrain, State.linkTrain_eq]
  rfl

theorem exec_lkFence (hop : lkOp p.word = 3) : exec (.lkFence link) s = .next ({ s with lkQ := s.lkQ.erase p }.linkFence link) :=
  congrArg Host.Outcome.next (State.lkServe_oldest hfind hop _)

theorem exec_lkUnfence (hop : lkOp p.word = 4) : exec (.lkUnfence link) s =
    .next (if (s.link link).st = .fenced then { s with lkQ := s.lkQ.erase p }.linkDown link else { s with lkQ := s.lkQ.erase p }) := by
  refine congrArg Host.Outcome.next ((State.lkServe_oldest hfind hop _).trans ?_)
  simp only [State.linkUnfence, beq_iff_eq]
  rfl

end Commands

/-! ### Training (R217, R220, R224, R226) -/

/-- Outside TRAINING the outcomes of a training change nothing. -/
theorem exec_linkTrained_elsewhere {s : State} {link : Nat} (hst : (s.link link).st ≠ .training) (width rate : BitVec 8) :
    ∀ i ∈ [Instr.linkTrainedFull link rate, .linkTrainedReduced link width rate, .linkTrainingFail link, .linkTrainingTimeout link], exec i s = .next s := by
  have hskip : ∀ f, s.ifTraining link f = s := fun f => if_neg (by simp [hst])
  simp only [List.forall_mem_cons, List.not_mem_nil, false_implies, implies_true, and_true]
  exact ⟨congrArg Host.Outcome.next (hskip _), congrArg Host.Outcome.next (hskip _), congrArg Host.Outcome.next (hskip _),
    congrArg Host.Outcome.next (hskip _)⟩

section Training
variable {s : State} {link : Nat} (hlink : link < 14) (hst : (s.link link).st = .training)
include hlink hst

theorem State.ifTraining_training (f : State → State) : s.ifTraining link f = f s := if_pos (by simp [hlink, hst])

theorem exec_linkTrainedFull (rate : BitVec 8) : exec (.linkTrainedFull link rate) s = .next (
    if rate.toNat ∈ linkRates link then s.setLink link { s.link link with st := .up, width := if link = 13 then 4 else 16, rate := rate } else s) := by
  have hwidth : BitVec.ofNat 8 (fullWidth link) = if link = 13 then 4 else 16 := by
    rw [fullWidth]
    split <;> rfl
  refine congrArg Host.Outcome.next ((State.ifTraining_training hlink hst _).trans ?_)
  simp only [List.contains_iff_mem, hwidth, State.modLink_eq]

theorem exec_linkTrainedReduced_narrow {width : BitVec 8} (hwidth : width.toNat < leastWidth link) (rate : BitVec 8) :
    exec (.linkTrainedReduced link width rate) s = .next (s.linkDown link) :=
  congrArg Host.Outcome.next ((State.ifTraining_training hlink hst _).trans (if_pos hwidth))

theorem exec_linkTrainedReduced_wide {width : BitVec 8} (hwidth : leastWidth link ≤ width.toNat) (rate : BitVec 8) :
    exec (.linkTrainedReduced link width rate) s = .next (if width.toNat ∈ reducedWidths link ∧ rate.toNat ∈ linkRates link
      then s.setLink link { s.link link with st := .degraded, width := width, rate := rate } else s) := by
  refine congrArg Host.Outcome.next ((State.ifTraining_training hlink hst _).trans ((if_neg (Nat.not_lt.mpr hwidth)).trans ?_))
  simp only [Bool.and_eq_true, List.contains_iff_mem, State.modLink_eq]

theorem exec_linkTrainingFail : exec (.linkTrainingFail link) s = .next (s.linkDown link) :=
  congrArg Host.Outcome.next (State.ifTraining_training hlink hst _)

theorem exec_linkTrainingTimeout : exec (.linkTrainingTimeout link) s =
    .next (if (s.link link).since + 10000 ≤ s.tick.toNat then s.linkDown link else s) :=
  congrArg Host.Outcome.next (State.ifTraining_training hlink hst _)

end Training

/-! ### Replays (R217, R218, R224) -/

section Replays
variable {s : State} {link : Nat} (hworks : (s.link link).works = true)
include hworks

theorem exec_linkErrorThreshold : exec (.linkErrorThreshold link) s =
    .next (if 16 ≤ (s.link link).burst then s.setLink link ((s.link link).inTraining s.tick.toNat) else s) := by
  refine congrArg Host.Outcome.next ?_
  simp only [hworks, Bool.true_and, decide_eq_true_eq, State.linkTrain_eq]

theorem exec_flitCrcReplay (hlink : link < 14) : exec (.flitCrcReplay link) s = .next (s.setLink link { s.link link with
    replays := BitVec.ofNat 16 (min 65535 ((s.link link).replays.toNat + 1))
    burst := if (s.link link).burstTick = s.tick.toNat then (s.link link).burst + 1 else 1
    burstTick := s.tick.toNat }) := by
  refine congrArg Host.Outcome.next ((if_pos (by simp [hlink, hworks])).trans ?_)
  exact congrArg (fun r => s.setLink link { s.link link with
    replays := r, burst := if (s.link link).burstTick = s.tick.toNat then (s.link link).burst + 1 else 1, burstTick := s.tick.toNat }) (countUp_eq _)

end Replays

end Sys2Proof.Machine
end

section
/-! PROOF. The commands of gq.ctl, and a guest queue's descriptor as the device writes it (R227, R228, R232, R233). -/

namespace Sys2Proof.Machine

/-! ### A descriptor that the device writes (R227) -/

/-- A write of a guest queue's descriptor at an unhindered place: beside what any write leaves, the base of the table, the commands and the late writes stay. -/
structure State.DescWrote (s t : State) (p : Nat) (bs : List Byte) : Prop extends s.Wrote t p bs where
  base : t.gqBase = s.gqBase
  cmds : t.gqQ = s.gqQ
  late : t.late = s.late

theorem State.devWrite_descWrote (s : State) (p : Nat) (inter : Bool) (bs : List Byte) : s.DescWrote (s.devWrite p inter bs) p bs := by
  have hdirty : s.DirtyOnly ((sectorsOf p bs.length).foldl (fun st sec => st.makeDirty inter sec) s) :=
    .foldl (fun t sec => t.makeDirty_dirtyOnly inter sec) s _
  refine ⟨s.devWrite_wrote p inter bs, ?_, ?_, ?_⟩ <;>
  · unfold State.devWrite
    obtain ⟨d, o, f, hdirty⟩ := hdirty
    simp only [hdirty]
    rfl

theorem State.recWrite_descWrote {s : State} {p off : Nat} {bs : List Byte} (h : s.Unhindered (p + off) bs.length) (hpos : 0 < bs.length) :
    s.DescWrote (s.recWrite p off bs) (p + off) bs := by
  have hrecall := h.recallRange
  obtain ⟨hend, hfree, -, -⟩ := h
  have hdevice : p + off < 2 ^ 38 := by omega
  have hgoes : s.mustWait (p + off) bs.length = false := by
    rw [State.mustWait, hfree, State.hostLinkIn, State.regionOf_device s hdevice]
    rfl
  have hreaches : s.hostRefused (p + off) bs.length = none := by
    rw [State.hostRefused, State.regionOf_device s hdevice]
  have hput : s.recWrite p off bs = s.devWrite (p + off) (s.interOf (p + off)) bs := by
    simp only [State.recWrite, State.lateWrite, hgoes, State.latePut, hreaches, hrecall, State.poke_device s _ bs hdevice, Bool.false_eq_true, if_false]
  rw [hput]
  exact s.devWrite_descWrote _ _ _

theorem State.DescWrote.gqDesc {s t : State} {p : Nat} {bs : List Byte} (h : s.DescWrote t p bs) (q : Nat) : t.gqDesc q = s.gqDesc q := by
  rw [State.gqDesc, State.gqDesc, h.base]

/-- The state byte of a queue whose descriptor nothing hinders (R227). -/
theorem State.gqState_unhindered {s : State} {q : Nat} (hbase : s.gqBase ≠ 0) (hfree : s.Unhindered (s.gqDesc q + 9) 1) (hlate : s.late = []) :
    s.gqState q = natOf (memRead s.mem (s.gqDesc q + 9) 1) := by
  have hpeek : s.peek (s.gqDesc q + 9) 1 = memRead s.mem (s.gqDesc q + 9) 1 := if_pos hfree.1
  simp only [State.gqState, if_neg hbase, State.recField, State.devRead, hfree.recallRange, hlate, hpeek, List.isEmpty_nil, if_true]

section Set
variable {s : State} {q v : Nat} (hfree : s.Unhindered (s.gqDesc q + 9) 1)
include hfree

theorem State.gqSet_descWrote : s.DescWrote (s.gqSet q v) (s.gqDesc q + 9) (bytesOf 1 v) :=
  State.recWrite_descWrote (by rwa [length_bytesOf]) (by simp)

/-- What the state byte holds once it is written, in any state that agrees with the write on the memory and has nothing in the way. -/
theorem State.gqState_of_gqSet {t : State} (hbase : s.gqBase ≠ 0) (hlate : s.late = []) (hv : v < 256) (hmem : t.mem = (s.gqSet q v).mem)
    (htable : t.gqBase = (s.gqSet q v).gqBase) (hwaits : t.late = (s.gqSet q v).late) (hopen : t.Unhindered (s.gqDesc q + 9) 1) : t.gqState q = v := by
  have hset := State.gqSet_descWrote (v := v) hfree
  have hbase' : t.gqBase = s.gqBase := htable.trans hset.base
  have hdesc : t.gqDesc q = s.gqDesc q := by rw [State.gqDesc, State.gqDesc, hbase']
  rw [State.gqState_unhindered (hbase' ▸ hbase) (hdesc.symm ▸ hopen) (hwaits.trans (hset.late.trans hlate)), hdesc, hmem, hset.mem,
    memRead_memWrite_bytesOf, natOf_bytesOf, Nat.mod_eq_of_lt (by omega)]

end Set

/-! ### Commands (R228) -/

section Commands
variable {s : State} {p : Pending} {rest : List Pending} (hcmd : s.gqQ = p :: rest)
include hcmd

/-- A command that is none is answered with status 3, whoever serves it (R228). -/
theorem State.gqServe_unknown (hop : gqOp p.word = 0 ∨ 2 < gqOp p.word) (op : Nat) (f : State → Pending → State) : s.gqServe op f = s.gqReply 3 := by
  rw [State.gqServe, hcmd]
  exact if_pos (by simpa using hop)

theorem State.gqServe_known {op : Nat} (hop : gqOp p.word = op) (hlow : 0 < op) (hhigh : op ≤ 2) (f : State → Pending → State) :
    s.gqServe op f = f s p := by
  rw [State.gqServe, hcmd]
  exact (if_neg (by simp; omega)).trans (if_pos hop)

section Enable
variable (hop : gqOp p.word = 1)
include hop

theorem exec_gqEnable : exec .gqEnable s = .next (gqEnableStep s p) :=
  congrArg Host.Outcome.next (State.gqServe_known hcmd hop (by decide) (by decide) _)

theorem exec_gqEnable_busy (hst : s.gqState (gqQueue p.word) ≠ 0) : exec .gqEnable s = .next (s.gqReply 1) :=
  (exec_gqEnable hcmd hop).trans (congrArg Host.Outcome.next (if_pos hst))

theorem exec_gqEnable_refused (hst : s.gqState (gqQueue p.word) = 0) (hbad : s.gqBase = 0 ∨ s.gqOk (gqQueue p.word) = false) :
    exec .gqEnable s = .next (s.gqReply 2) := by
  refine (exec_gqEnable hcmd hop).trans (congrArg Host.Outcome.next ((if_neg (not_not.mpr hst)).trans (if_neg ?_)))
  rcases hbad with h | h <;> simp [h]

/-- An ENABLE that passes its checks leaves both indexes 0 and the queue ACTIVE. -/
theorem exec_gqEnable_enables (hst : s.gqState (gqQueue p.word) = 0) (hbase : s.gqBase ≠ 0) (hok : s.gqOk (gqQueue p.word) = true)
    (hopen : s.openAt (s.gqDesc (gqQueue p.word)) 64) : ∃ t, exec .gqEnable s = .next t ∧ t.gqState (gqQueue p.word) = 1 ∧
      natOf (memRead t.mem (s.gqDesc (gqQueue p.word) + 16) 8) = 0 ∧ t.gqQ = rest := by
  have hstep : gqEnableStep s p =
      ((s.recWrite (s.gqDesc (gqQueue p.word)) 16 (zeros 8)).gqSet (gqQueue p.word) 1).gqReply 0 := by
    rw [gqEnableStep, if_neg (not_not.mpr hst), if_pos (by rw [hok, decide_eq_true hbase]; rfl)]
  have hrun := (exec_gqEnable hcmd hop).trans (congrArg Host.Outcome.next hstep)
  generalize gqQueue p.word = q at hrun hopen ⊢
  have hlate := hopen.2.2.1
  have hfree := State.unhindered_of_openAt hopen
  have hindexes : s.DescWrote (s.recWrite (s.gqDesc q) 16 (zeros 8)) (s.gqDesc q + 16) (zeros 8) :=
    State.recWrite_descWrote (hfree.within (off := 16) (k := 8) (by decide)) (by decide)
  have hdesc := hindexes.gqDesc q
  generalize s.recWrite (s.gqDesc q) 16 (zeros 8) = u at hrun hindexes hdesc
  have hfreeU := hfree.wrote hindexes.toWrote
  have hat : u.Unhindered (u.gqDesc q + 9) 1 := by
    rw [hdesc]
    exact hfreeU.within (off := 9) (k := 1) (by decide)
  have hset := State.gqSet_descWrote (v := 1) hat
  refine ⟨_, hrun, ?_, ?_, ?_⟩
  · exact State.gqState_of_gqSet (v := 1) hat (by rwa [hindexes.base]) (hindexes.late.trans hlate) (by decide) rfl rfl rfl (hat.wrote hset.toWrote :)
  · show natOf (memRead (u.gqSet q 1).mem (s.gqDesc q + 16) 8) = 0
    have hread := memRead_memWrite_same s.mem (s.gqDesc q + 16) (zeros 8)
    rw [hset.mem, hdesc, memRead_memWrite_apart _ (Or.inr (by rw [length_bytesOf]; omega)), hindexes.mem]
    exact congrArg natOf hread
  · show (u.gqSet q 1).gqQ.drop 1 = rest
    rw [hset.cmds, hindexes.cmds, hcmd]
    rfl

end Enable

section Disable
variable (hop : gqOp p.word = 2)
include hop

/-- DISABLE answers by the state of its queue, which quiesces first where it is ACTIVE (R228, R233; log 44). -/
theorem exec_gqDisable : exec .gqDisable s = .next (gqDisableStep s p) :=
  congrArg Host.Outcome.next (State.gqServe_known hcmd hop (by decide) (by decide) _)

end Disable
end Commands

section Disable
variable {s : State} {p : Pending}

theorem gqDisableStep_disabled (hst : s.gqState (gqQueue p.word) = 0) : gqDisableStep s p = s.gqReply 0 := if_pos hst

theorem gqDisableStep_active (hst : s.gqState (gqQueue p.word) = 1) :
    gqDisableStep s p = { s.quiesce (gqQueue p.word) with gqQ := [⟨p.core, p.word ||| (1 <<< 32)⟩] } := by
  simp only [gqDisableStep, hst, one_ne_zero, if_false, if_true]

theorem gqDisableStep_quiescing (hst : s.gqState (gqQueue p.word) = 2) : gqDisableStep s p = if gqWaiting p then s else s.gqReply 1 := by
  simp only [gqDisableStep, hst, OfNat.ofNat_ne_zero, OfNat.ofNat_ne_one, if_false, if_true]

theorem gqDisableStep_quiesced (hst : s.gqState (gqQueue p.word) = 3) : gqDisableStep s p = (s.gqOff (gqQueue p.word)).gqReply 0 := by
  simp [gqDisableStep, hst]

/-- A BROKEN queue is DISABLED once its link is no longer FENCED. -/
theorem gqDisableStep_broken (hst : s.gqState (gqQueue p.word) = 4) : gqDisableStep s p =
    if (s.link 13).st = .fenced then s.gqReply 1 else (s.gqOff (gqQueue p.word)).gqReply 0 := by
  simp only [gqDisableStep, hst]
  by_cases hfenced : (s.link 13).st = .fenced <;> simp [hfenced]

end Disable

end Sys2Proof.Machine
end

section
/-! PROOF. The agent and the guest: reports, packets, translations, coherent accesses, quiescing and the bound (R210, R230 to R233). -/

namespace Sys2Proof.Machine

/-! ### Reports of a queue's read index (R230) -/

section Reports
variable {s : State} {q : Nat} (hguest : s.guestOpen q = true) (read : BitVec 32)
include hguest

/-- A report waits behind an earlier one of its queue, or while the agent cannot read a packet of it. -/
theorem exec_guestReadReport_waits
    (hwaits : (s.reported q (s.recField (s.gqDesc q) 20 4) read.toNat).any (s.packetHeld q) = true ∨ ∃ r ∈ s.guest.reports, r.1 = q) :
    exec (.guestReadReport q read) s = .next { s with guest := { s.guest with reports := s.guest.reports ++ [(q, read)] } } := by
  refine congrArg Host.Outcome.next ?_
  by_cases hearlier : s.guest.reports.any (fun r => r.1 == q) = true
  · exact if_pos (by rw [hguest, hearlier]; rfl)
  · have hheld := hwaits.resolve_right fun ⟨r, hr, hq⟩ => hearlier (List.any_eq_true.mpr ⟨r, hr, beq_iff_eq.mpr hq⟩)
    refine (if_neg (by rw [hguest, Bool.true_and]; exact hearlier)).trans ?_
    rw [State.readReport, if_pos hguest]
    exact if_pos hheld

variable (hreadable : (s.reported q (s.recField (s.gqDesc q) 20 4) read.toNat).any (s.packetHeld q) = false) (hfirst : ∀ r ∈ s.guest.reports, r.1 ≠ q)
include hreadable hfirst

/-- The agent writes the read index, and the packets up to it have started. -/
theorem exec_guestReadReport_starts {new : List (Nat × Nat)} {s1 : State}
    (hnew : s.startedFrom q (s.reported q (s.recField (s.gqDesc q) 20 4) read.toNat) = (new, s1)) (hopen : s1.openAt (s1.gqDesc q + 20) 4) :
    ∃ t, exec (.guestReadReport q read) s = .next t ∧ natOf (memRead t.mem (s1.gqDesc q + 20) 4) = read.toNat ∧
      t.guest.started = s1.guest.started ++ new := by
  have hearlier : ¬ s.guest.reports.any (fun r => r.1 == q) = true := by
    simpa only [List.any_eq_true, beq_iff_eq, not_exists, not_and] using hfirst
  have hrun : exec (.guestReadReport q read) s = .next (s.readReport q read) :=
    congrArg Host.Outcome.next (if_neg (by rw [hguest, Bool.true_and]; exact hearlier))
  have hwrote : s1.DescWrote (s1.recWrite (s1.gqDesc q) 20 (bytesOf 4 read.toNat)) (s1.gqDesc q + 20) (bytesOf 4 read.toNat) :=
    State.recWrite_descWrote (by rw [length_bytesOf]; exact State.unhindered_of_openAt hopen) (by simp)
  generalize hput : s1.recWrite (s1.gqDesc q) 20 (bytesOf 4 read.toNat) = s2 at hwrote
  have hread : s.readReport q read = { s2 with guest := { s2.guest with started := s2.guest.started ++ new } } := by
    rw [State.readReport, if_pos hguest, ← hput]
    generalize s.reported q (s.recField (s.gqDesc q) 20 4) read.toNat = started at hreadable hnew ⊢
    refine (if_neg (by rw [hreadable]; decide)).trans ?_
    rw [hnew]
  have hindex : natOf (memRead s2.mem (s1.gqDesc q + 20) 4) = read.toNat := by
    rw [hwrote.mem, memRead_memWrite_bytesOf, natOf_bytesOf]
    exact Nat.mod_eq_of_lt read.isLt
  exact ⟨_, hrun.trans (congrArg Host.Outcome.next hread), hindex, congrArg (fun g => g.started ++ new) hwrote.guest⟩

end Reports

/-! ### The completion of a packet (R230) -/

/-- What a packet that is ready does, by the answers for its two targets. -/
def State.packetServed (s : State) (q i : Nat) (pk : List Byte) (status : Nat) (word cnt : XRes) : State :=
  match word, cnt with
  | .wait, _ | _, .wait => s
  | .fail f, _ | _, .fail f => s.packetFault q i f
  | done, cnt => if s.packetTrains (s.gqCtx q) cnt then s else s.packetEnd q i pk status done cnt

section Served
variable {s : State} {q i status : Nat} {pk : List Byte} {word cnt : XRes}

theorem State.packetServed_waits (h : word = .wait ∨ cnt = .wait) : s.packetServed q i pk status word cnt = s := by
  rcases h with rfl | rfl
  · rfl
  · cases word <;> rfl

theorem State.packetServed_wordFails {f : XFault} (h : word = .fail f) (hcnt : cnt ≠ .wait) :
    s.packetServed q i pk status word cnt = s.packetFault q i f := by
  subst h
  cases cnt with
  | wait => exact absurd rfl hcnt
  | ok | fail | deny => rfl

theorem State.packetServed_countFails {f : XFault} (h : cnt = .fail f) (hword : word ≠ .wait) (hsound : ¬ ∃ g, word = .fail g) :
    s.packetServed q i pk status word cnt = s.packetFault q i f := by
  subst h
  cases word with
  | wait => exact absurd rfl hword
  | fail g => exact absurd ⟨g, rfl⟩ hsound
  | ok | deny => rfl

theorem State.packetServed_sound (hword : word ≠ .wait) (hcnt : cnt ≠ .wait) (hw : ¬ ∃ g, word = .fail g) (hc : ¬ ∃ g, cnt = .fail g) :
    s.packetServed q i pk status word cnt = if s.packetTrains (s.gqCtx q) cnt then s else s.packetEnd q i pk status word cnt := by
  cases word with
  | wait => exact absurd rfl hword
  | fail g => exact absurd ⟨g, rfl⟩ hw
  | ok | deny =>
    cases cnt with
    | wait => exact absurd rfl hcnt
    | fail g => exact absurd ⟨g, rfl⟩ hc
    | ok | deny => rfl

end Served

section Complete
variable {s s1 : State} {q : Nat} {idx : BitVec 32} {status : BitVec 8} (hguest : s.guestOpen q = true)
include hguest

theorem exec_guestPacketComplete_unread (hbytes : s.guestBytes (s.gqCtx q) (s.gqPacket q idx.toNat) 64 = (none, s1)) :
    exec (.guestPacketComplete q idx status) s = .next s1 := by
  refine congrArg Host.Outcome.next ((if_pos hguest).trans ?_)
  rw [hbytes]

variable {pk : List Byte} (hbytes : s.guestBytes (s.gqCtx q) (s.gqPacket q idx.toNat) 64 = (some pk, s1))
include hbytes

theorem exec_guestPacketComplete_unready (hready : s1.packetReady q idx.toNat (field pk 1 1) = false) :
    exec (.guestPacketComplete q idx status) s = .next s1 := by
  refine congrArg Host.Outcome.next ((if_pos hguest).trans ?_)
  rw [hbytes]
  exact if_pos (by rw [hready]; rfl)

theorem exec_guestPacketComplete_ready (hready : s1.packetReady q idx.toNat (field pk 1 1) = true) {s2 : State}
    (hwalked : (s1.guestWalk (s1.gqCtx q) (field pk 24 8)).guestWalk (s1.gqCtx q) (field pk 32 8) = s2) {word cnt : XRes}
    (htargets : s2.packetTargets (s2.gqCtx q) pk = (word, cnt)) :
    exec (.guestPacketComplete q idx status) s = .next (s2.packetServed q idx.toNat pk status.toNat word cnt) := by
  refine congrArg Host.Outcome.next ((if_pos hguest).trans ?_)
  rw [hbytes]
  refine (if_neg (by rw [hready]; decide)).trans ?_
  simp only [hwalked, htargets]
  cases word <;> cases cnt <;> rfl

end Complete

/-- A write of the guest at an unhindered place performs at its home (R129, R231). -/
theorem State.guestPut_wrote {s : State} {p : Nat} {bs : List Byte} (hfree : s.Unhindered p bs.length) (hpos : 0 < bs.length) (inter : Bool) (kind : Nat)
    (sig : Bool) : s.Wrote (s.guestPut p inter bs kind sig) p bs := by
  have hdevice : p < 2 ^ 38 := by have := hfree.1; omega
  have hput := (s.devWrite_wrote p inter bs).traceAdd (s.home p inter) kind bs.length p 0x8001
  simp only [State.guestPut, hfree.recallRange, State.poke_device s inter bs hdevice]
  split
  · exact hput.notify _
  · exact hput

/-- The completion word of a packet of a known type that names no counter: its value, with status 1. -/
theorem State.packetEnd_word {s : State} {q i p : Nat} {pk : List Byte} (htype : field pk 0 1 < 3) (hopen : s.openAt p 8) :
    memRead (s.packetEnd q i pk 1 (.ok p false) (.deny 0)).mem p 8 = bytesOf 8 (field pk 56 8 % 2 ^ 56 * 256 + 1) := by
  have hword : at_ (field pk 56 8 % 2 ^ 56) 8 + packetStatus (field pk 0 1) 1 false = field pk 56 8 % 2 ^ 56 * 256 + 1 := by
    rw [packetStatus, if_neg (Nat.not_le.mpr htype)]
    rfl
  generalize field pk 56 8 % 2 ^ 56 * 256 + 1 = w at hword ⊢
  have hfree : State.Unhindered { s with guest := { s.guest with started := s.guest.started.filter fun p => p != (q, i) } } p (bytesOf 8 w).length := by
    rw [length_bytesOf]
    exact (State.unhindered_of_openAt hopen :)
  have hput := State.guestPut_wrote hfree (by simp) false 0 true
  simp only [State.packetEnd, hword, hput.mem, memRead_memWrite_bytesOf]

/-! ### The translation agent (R231) -/

section Agent
variable {s : State} {q : Nat} (hguest : s.guestOpen q = true) (va : Addr) (acc : Access)
include hguest

/-- A good translation may be cached by the guest. -/
theorem exec_guestTranslationRequest_ok {pte level size p : Nat} {inter : Bool}
    (hwalk : (s.walkTouch (s.gqCtx q) [va.toNat]).walkRaw (s.gqCtx q) va.toNat = .leaf pte level size)
    (hok : (s.walkTouch (s.gqCtx q) [va.toNat]).translateRaw ⟨0, s.gqCtx q, 5⟩ acc .plain (va.setWidth 64) 1 = .ok p inter) :
    ∃ t e, exec (.guestTranslationRequest q va acc) s = .next t ∧ e ∈ t.guest.tlb ∧ e.pte = BitVec.ofNat 64 pte ∧ e.size = size ∧ e.ctx = s.gqCtx q ∧
      t = { s.walkTouch (s.gqCtx q) [va.toNat] with guest := { (s.walkTouch (s.gqCtx q) [va.toNat]).guest with tlb := t.guest.tlb } } := by
  have hrun : exec (.guestTranslationRequest q va acc) s = .next (
      let t := s.walkTouch (s.gqCtx q) [va.toNat]
      let e : TlbEntry := ⟨s.gqCtx q, va.toNat / size * size, size, BitVec.ofNat 64 pte, level⟩
      { t with guest := { t.guest with tlb := e :: t.guest.tlb.filter fun o => o != e } }) := by
    refine congrArg Host.Outcome.next ((if_pos hguest).trans ?_)
    simp only [hwalk, hok]
  exact ⟨_, _, hrun, List.mem_cons_self, rfl, rfl, rfl, rfl⟩

/-- The record of a failed check names the packet, which it pauses (R211). The context of the check is the one that the queue's descriptor names behind the walk. -/
theorem exec_guestFaultRecord_fails {idx : BitVec 32} {f : XFault} (progress : Nat) (hmay : s.mayRecord q = true)
    (hstarted : s.guest.started.contains (q, idx.toNat) = true)
    (hfail : (s.walkTouch (s.gqCtx q) [va.toNat]).translateRaw ⟨0, (s.walkTouch (s.gqCtx q) [va.toNat]).gqCtx q, 5⟩ acc .plain (va.setWidth 64) 1 = .fail f) :
    exec (.guestFaultRecord q idx va acc progress) s = .next ((s.walkTouch (s.gqCtx q) [va.toNat]).guestRecord q (some idx.toNat) f progress) := by
  refine congrArg Host.Outcome.next ((if_pos (by rw [hguest, hmay, hstarted]; rfl)).trans ?_)
  simp only [hfail]

variable {f : XFault} (hfail : (s.walkTouch (s.gqCtx q) [va.toNat]).translateRaw ⟨0, s.gqCtx q, 5⟩ acc .plain (va.setWidth 64) 1 = .fail f)
include hfail

/-- A failed one is returned to it. -/
theorem exec_guestTranslationRequest_fails :
    exec (.guestTranslationRequest q va acc) s = .next ((s.walkTouch (s.gqCtx q) [va.toNat]).raiseIf (XRes.fail f).raises) := by
  refine congrArg Host.Outcome.next ((if_pos hguest).trans ?_)
  simp only [hfail]
  cases (s.walkTouch (s.gqCtx q) [va.toNat]).walkRaw (s.gqCtx q) va.toNat <;> rfl

end Agent

/-! ### Coherent accesses (R231) -/

section Coherent
variable {s s1 : State} {q p : Nat} {va : Addr} {inter : Bool} (hguest : s.guestOpen q = true) (hal : va.toNat % 8 = 0)
  (hwalked : s.guestWalk (s.gqCtx q) va.toNat = s1) (hopen : s1.openAt p 8)
include hguest hal hwalked hopen

/-- At an open place a load, and the write-back of a line that the guest does not hold, change nothing. -/
theorem exec_guestCoherentAccess_load (hok : s1.guestXlate .load (s.gqCtx q) va.toNat 8 = .ok p inter) :
    exec (.guestCoherentAccess q va .load) s = .next s1 ∧ exec (.guestCoherentAccess q va .writeBack) s = .next s1 := by
  have hcond : (s.guestOpen q && va.toNat % 8 == 0) = true := by rw [hguest, hal]; rfl
  have hrecall := State.recallRange_openAt hopen (Nat.le_refl 8)
  obtain ⟨-, hfree, -, -, hheld, -⟩ := hopen
  constructor
  · refine congrArg Host.Outcome.next ((if_pos hcond).trans ?_)
    simp only [hwalked, reqAccess, hok, hfree, hheld, hrecall, Bool.false_eq_true, if_false, List.any_nil]
  · have hsame : { s1 with guest := { s1.guest with held := s1.guest.held.filter fun h => h.1 != sectorOf p } } = s1 := by
      have hnone : (s1.guest.held.filter fun h => h.1 != sectorOf p) = s1.guest.held := by rw [hheld]; rfl
      rw [hnone]
    refine congrArg Host.Outcome.next ((if_pos hcond).trans ?_)
    simp only [hwalked, reqAccess, hok, hfree, Bool.false_eq_true, if_false]
    exact hsame

/-- A store performs at the home, and the guest then holds the sector modified. -/
theorem exec_guestCoherentAccess_store (v : Word) (hok : s1.guestXlate .store (s.gqCtx q) va.toNat 8 = .ok p inter) :
    ∃ t, exec (.guestCoherentAccess q va (.store v)) s = .next t ∧ memRead t.mem p 8 = bytesOf 8 v.toNat ∧
      t.guest.held = [(p / 128, s.gqCtx q)] ∧ ∀ r, (∀ j, j < 8 → r ≠ .device (p + j)) → t.byteAt r = s1.byteAt r := by
  have hcond : (s.guestOpen q && va.toNat % 8 == 0) = true := by rw [hguest, hal]; rfl
  have hput : s1.Wrote (s1.guestPut p inter (bytesOf 8 v.toNat) 0 false) p (bytesOf 8 v.toNat) :=
    State.guestPut_wrote (by rw [length_bytesOf]; exact State.unhindered_of_openAt hopen) (by simp) inter 0 false
  have hrun : exec (.guestCoherentAccess q va (.store v)) s = .next (s1.guestStore (s.gqCtx q) p inter v) := by
    refine congrArg Host.Outcome.next ((if_pos hcond).trans ?_)
    simp only [hwalked, reqAccess, hok, hopen.2.1, Bool.false_eq_true, if_false]
  refine ⟨_, hrun, ?_, ?_, fun r hr => ?_⟩
  · exact (congrArg (fun m => memRead m p 8) hput.mem).trans (memRead_memWrite_bytesOf _ _ _ _)
  · show (s1.guestPut p inter (bytesOf 8 v.toNat) 0 false).guest.held ++ _ = _
    rw [hput.guest, hopen.2.2.2.2.1]
    rfl
  · have hbyte : (s1.guestStore (s.gqCtx q) p inter v).byteAt r = (s1.guestPut p inter (bytesOf 8 v.toNat) 0 false).byteAt r := by cases r <;> rfl
    exact hbyte.trans (hput.byteAt (by rwa [length_bytesOf]))

end Coherent

/-! ### Quiescing, invalidations and the bound (R210, R231 to R233) -/

theorem State.works_of_guestOpen {s : State} {q : Nat} (h : s.guestOpen q = true) : (s.link 13).works = true := by
  simp only [State.guestOpen, Bool.and_eq_true] at h
  exact h.1.2

theorem State.gqBase_of_gqState {s : State} {q : Nat} (h : s.gqState q ≠ 0) : s.gqBase ≠ 0 := fun hbase => h (if_pos hbase)

/-- A queue that answers is QUIESCED, and the guest holds nothing more of its context (R232). -/
theorem exec_guestQuiesced_answers {s : State} {q : Nat} (hworks : (s.link 13).works = true) (hq : q < 32) (hst : s.gqState q = 2)
    (hopen : s.openAt (s.gqDesc q + 9) 1) : ∃ t, exec (.guestQuiesced q) s = .next t ∧ t.gqState q = 3 ∧
      (∀ e ∈ t.guest.tlb, e.ctx ≠ s.gqCtx q) ∧ ∀ h ∈ t.guest.held, h.2 ≠ s.gqCtx q := by
  have hfree := State.unhindered_of_openAt hopen
  obtain ⟨-, -, hlate, -⟩ := hopen
  have hset := State.gqSet_descWrote (v := 3) hfree
  obtain ⟨hend, hunlocked, hheld, hcopies⟩ := hfree.wrote hset.toWrote
  refine ⟨_, congrArg Host.Outcome.next (if_pos (by simp [hq, hworks, hst])), ?_, fun e he => ?_, fun h hh => ?_⟩
  · refine State.gqState_of_gqSet (v := 3) hfree (State.gqBase_of_gqState (by rw [hst]; decide)) hlate (by decide) rfl rfl rfl ⟨hend, hunlocked, ?_, hcopies⟩
    show List.filter _ (s.gqSet q 3).guest.held = []
    rw [hheld]
    rfl
  · exact bne_iff_ne.mp (List.mem_filter.mp he).2
  · exact bne_iff_ne.mp (List.mem_filter.mp hh).2

theorem exec_guestInvalidationAck_oldest {s : State} {k : Option Nat} {due : Nat} {rest : List (Option Nat × Nat)}
    (hinval : s.guest.inval = (k, due) :: rest) (hup : s.guestUp = true) : exec .guestInvalidationAck s =
      .next { s with guest := { s.guest with inval := rest, acked := s.guest.acked ++ k.toList } } := by
  refine congrArg Host.Outcome.next ?_
  rw [hinval]
  refine (if_pos hup).trans ?_
  cases k <;> rfl

/-- No route of a group runs over the guest's link (R107, R225). -/
theorem State.breakRoutes_guest (s : State) : s.breakRoutes 13 = s := by
  have hroute : ∀ (k n side : Nat), k ∈ [4, 7] → 13 ≠ k + Config.routePort n side % 3 := fun k n side hk => by
    have := Nat.mod_lt (Config.routePort n side) (show 0 < 3 by decide)
    simp only [List.mem_cons, List.not_mem_nil, or_false] at hk
    omega
  have hnone : (s.groups.filter fun (q : Nat × Group) => s.carries 13 q.1 q.2) = [] := List.filter_eq_nil_iff.mpr fun q _ => by
    simp [State.carries, hroute 4 q.1 0 (by decide), hroute 7 q.1 1 (by decide)]
  rw [State.breakRoutes, hnone]
  rfl

/-- Held sectors are poison once the guest is fenced, and nothing of its packets, lines and translations is left (R232). -/
theorem State.guestFence_guest (s : State) : s.guestFence.guest.started = [] ∧ s.guestFence.guest.held = [] ∧ s.guestFence.guest.tlb = [] ∧
    s.guestFence.guest.inval = [] ∧ ∀ h ∈ s.guest.held, h.1 ∈ s.guestFence.poison := by
  have hpoison : ∀ (held : List (Nat × Nat)) (l : List Nat), (∀ v ∈ l, v ∈ held.foldl (fun l q => if l.contains q.1 then l else insertBy id q.1 l) l) ∧
      ∀ h ∈ held, h.1 ∈ held.foldl (fun l q => if l.contains q.1 then l else insertBy id q.1 l) l := by
    intro held
    induction held with
    | nil => exact fun l => ⟨fun v hv => hv, fun h hh => nomatch hh⟩
    | cons h rest ih =>
      intro l
      have hstep : (∀ v ∈ l, v ∈ if l.contains h.1 then l else insertBy id h.1 l) ∧ h.1 ∈ if l.contains h.1 then l else insertBy id h.1 l := by
        split
        · next hin => exact ⟨fun v hv => hv, List.contains_iff_mem.mp hin⟩
        · exact ⟨fun v hv => (mem_insertBy id h.1 v l).mpr (.inr hv), (mem_insertBy id h.1 h.1 l).mpr (.inl rfl)⟩
      obtain ⟨hold, hnew⟩ := ih (if l.contains h.1 then l else insertBy id h.1 l)
      exact ⟨fun v hv => hold v (hstep.1 v hv), List.forall_mem_cons.mpr ⟨hold h.1 hstep.2, hnew⟩⟩
  exact ⟨rfl, rfl, rfl, rfl, (hpoison s.guest.held _).2⟩

theorem exec_guestBoundExpiry_met {s : State} (hmet : s.boundMissed = false) : exec .guestBoundExpiry s = .next s :=
  congrArg Host.Outcome.next (if_neg (by rw [hmet]; decide))

/-- A guest that misses the bound is fenced with its link (R232). -/
theorem exec_guestBoundExpiry_missed {s : State} (hmissed : s.boundMissed = true) (hst : (s.link 13).st ≠ .fenced) :
    ∃ t, exec .guestBoundExpiry s = .next t ∧ (t.link 13).st = .fenced ∧ t.guest.started = [] ∧ t.guest.held = [] ∧ t.guest.tlb = [] ∧
      t.guest.inval = [] ∧ ∀ h ∈ s.guest.held, h.1 ∈ t.poison := by
  have hfence : s.linkFence 13 = (s.setLink 13 { s.link 13 with st := .fenced, width := 0, rate := 0 }).guestFence := by
    rw [State.linkFence, if_neg (by simpa using hst), State.breakRoutes_guest]
    rfl
  refine ⟨_, congrArg Host.Outcome.next (if_pos hmissed), s.linkFence_st 13, ?_⟩
  rw [hfence]
  exact (s.setLink 13 _).guestFence_guest

end Sys2Proof.Machine
end

section
/-! PROOF. The events of links and of the guest: O54 stands or falls with the context of a fault record (R211, R231). -/

namespace Sys2Proof.Machine

/-- The clause of O54 on GUEST_FAULT_RECORD: the record is the one of the context that the queue's descriptor names before the agent walks. -/
def RecordsContextBeforeWalk : Prop :=
  ∀ (s : State) (q : Nat) (idx : BitVec 32) (va : Addr) (acc : Access) (progress : Nat) (f : XFault), s.guestOpen q = true →
    (s.walkTouch (s.gqCtx q) [va.toNat]).translateRaw ⟨0, s.gqCtx q, 5⟩ acc .plain (va.setWidth 64) 1 = .fail f →
    s.mayRecord q = true → s.guest.started.contains (q, idx.toNat) = true →
    exec (.guestFaultRecord q idx va acc progress) s = .next ((s.walkTouch (s.gqCtx q) [va.toNat]).guestRecord q (some idx.toNat) f progress)

/-- Every other clause of O54 holds, by the rules of its events above. -/
theorem linkAndGuestEvents_iff : Obligations.LinkAndGuestEvents ↔ RecordsContextBeforeWalk := by
  constructor
  · intro h s q idx va acc progress f hguest hfail hmay hstarted
    obtain ⟨-, -, hpackets, -⟩ := h
    obtain ⟨-, -, -, -, hagent, -⟩ := hpackets s q 0 idx 0 va acc progress hguest
    exact (hagent.2 f hfail).2 hmay hstarted
  · intro hrecords
    refine ⟨fun s link width rate => ?links, fun s p rest hcmd => ?commands, fun s q read idx status va acc progress hguest => ?packets,
      fun s k due rest => ?bound⟩
    case links =>
      intro l train
      refine ⟨fun p hfind => ⟨exec_lkEnable hfind, exec_lkRetrain hfind, exec_lkFence hfind, exec_lkUnfence hfind⟩,
        congrArg Link.st (s.linkDown_link link), congrArg Link.width (s.linkDown_link link), s.linkFence_st link,
        fun hlink => ⟨fun hst => ?_, fun hst => ?_, fun hworks => ?_⟩⟩
      · exact exec_linkTrained_elsewhere hst width rate
      · exact ⟨exec_linkTrainedFull hlink hst rate, fun hwidth => exec_linkTrainedReduced_narrow hlink hst hwidth rate,
          fun hwidth => exec_linkTrainedReduced_wide hlink hst hwidth rate, exec_linkTrainingFail hlink hst, exec_linkTrainingTimeout hlink hst⟩
      · exact ⟨exec_linkErrorThreshold hworks, exec_flitCrcReplay hworks hlink⟩
    case commands =>
      intro q st
      refine ⟨fun hop => ?_, fun hop => ?_, fun hop => ?_⟩
      · exact ⟨congrArg Host.Outcome.next (State.gqServe_unknown hcmd hop 1 _), congrArg Host.Outcome.next (State.gqServe_unknown hcmd hop 2 _)⟩
      · exact ⟨exec_gqEnable_busy hcmd hop, exec_gqEnable_refused hcmd hop, exec_gqEnable_enables hcmd hop⟩
      · rw [exec_gqDisable hcmd hop]
        refine ⟨fun hst => ?_, fun hst => ?_, fun hst => ?_, fun hst => ?_, fun hst => ?_⟩
        · rw [gqDisableStep_disabled hst]
        · rw [gqDisableStep_active hst]
        · rw [gqDisableStep_quiescing hst]
        · rw [gqDisableStep_quiesced hst]
        · rw [gqDisableStep_broken hst]
    case packets =>
      intro ctx
      refine ⟨⟨exec_guestReadReport_waits hguest read, fun new s1 hreadable hfirst => exec_guestReadReport_starts hguest read hreadable hfirst⟩,
        fun s1 => exec_guestPacketComplete_unread hguest, fun pk s1 hbytes => ?_, ?_,
        ⟨fun pte level size p inter => exec_guestTranslationRequest_ok hguest va acc, fun f hfail =>
          ⟨exec_guestTranslationRequest_fails hguest va acc hfail, hrecords s q idx va acc progress f hguest hfail⟩⟩,
        fun p inter v hal hopen => ⟨exec_guestCoherentAccess_load hguest hal rfl hopen, exec_guestCoherentAccess_store hguest hal rfl hopen v⟩,
        exec_guestQuiesced_answers (State.works_of_guestOpen hguest)⟩
      · refine ⟨exec_guestPacketComplete_unready hguest hbytes, fun hready word cnt htargets => ?_⟩
        have hrun := exec_guestPacketComplete_ready (status := status) hguest hbytes hready rfl htargets
        refine ⟨fun hwait => ?_, fun f hf hcnt => ?_, fun f hf hword hsound => ?_, fun hword hcnt hw hc => ?_⟩
        · exact hrun.trans (congrArg Host.Outcome.next (State.packetServed_waits hwait))
        · exact hrun.trans (congrArg Host.Outcome.next (State.packetServed_wordFails hf hcnt))
        · exact hrun.trans (congrArg Host.Outcome.next (State.packetServed_countFails hf hword hsound))
        · exact hrun.trans (congrArg Host.Outcome.next (State.packetServed_sound hword hcnt hw hc))
      · rintro p word cnt pk rfl rfl htype hopen
        exact State.packetEnd_word htype hopen
    case bound => exact ⟨exec_guestInvalidationAck_oldest, exec_guestBoundExpiry_met, exec_guestBoundExpiry_missed⟩

/-! ### A walk that changes the context of a queue

The walk of context 0 at 0x780000000000 reads its table entry in the last sector before the descriptor of queue 0. A core holds that sector update-only,
with an element that crosses into the descriptor's sector, and it holds that one too: the crossing element's byte makes the sum there carry into the context
field. A reduction traps at such an address (R52), but the statement speaks of every state. -/

/-- That state: guest queue 0 is ACTIVE, and its packet 0 has started. -/
def crossingCopy : State :=
  { State.reset with
    gqBase := 3
    cores := [(0, { Core.reset with upd :=
      [⟨6143, false, 3, 0, 0x100000000⟩, ⟨6147, false, 3, 0, 0x00FFFFFFFFFFFFFF⟩, ⟨6150, false, 2, 0, 0x02000000⟩] })]
    links := [(13, { Link.reset with st := .up })]
    guest := { Guest.reset with started := [(0, 0)] }
    ctxs := [(0, { Ctx.reset with ptroot := 4096 })] }

theorem crossingCopy_open : crossingCopy.guestOpen 0 = true ∧ crossingCopy.gqCtx 0 = 0 ∧ crossingCopy.mayRecord 0 = true ∧
    crossingCopy.guest.started.contains (0, (0 : BitVec 32).toNat) = true := by decide +kernel

/-- The failed check that the agent finds there for this address in a context. -/
def noEntry (ctx : Nat) : XFault := ⟨ctx, 0x780000000000, 0, 1, 0, 5, 1, Cause.translation, false⟩

/-- Behind the walk the queue's descriptor names context 1, which has no page table, so that the check fails in it as well. -/
theorem crossingCopy_walked : (crossingCopy.walkTouch 0 [0x780000000000]).gqCtx 0 = 1 ∧
    ∀ ctx ∈ [0, 1], (crossingCopy.walkTouch 0 [0x780000000000]).translateRaw ⟨0, ctx, 5⟩ .load .plain 0x780000000000 1 = .fail (noEntry ctx) := by
  decide +kernel

/-- The record of context 1 waits at its queue, as the one of context 0 does not. -/
theorem crossingCopy_records :
    (((crossingCopy.walkTouch 0 [0x780000000000]).guestRecord 0 (some 0) (noEntry 1) 0).guest.record.find 0).isSome = true ∧
    (((crossingCopy.walkTouch 0 [0x780000000000]).guestRecord 0 (some 0) (noEntry 0) 0).guest.record.find 0).isSome = false := by decide +kernel

theorem not_recordsContextBeforeWalk : ¬ RecordsContextBeforeWalk := by
  intro h
  obtain ⟨hguest, hctx, hmay, hstarted⟩ := crossingCopy_open
  obtain ⟨hwalked, hfail⟩ := crossingCopy_walked
  have hclaim := h crossingCopy 0 0 0x780000000000 .load 0 (noEntry 0) hguest
  have hmodel := exec_guestFaultRecord_fails (f := noEntry 1) hguest 0x780000000000 .load 0 hmay hstarted
  rw [hctx] at hclaim hmodel
  have hsame := (hmodel (hwalked ▸ hfail 1 (by decide))).symm.trans (hclaim (hfail 0 (by decide)) hmay hstarted)
  obtain ⟨hwaits, hwritten⟩ := crossingCopy_records
  have hrecord := congrArg (fun t => (t.guest.record.find 0).isSome) (Host.Outcome.next.inj hsame)
  exact Bool.noConfusion (hwaits.symm.trans (hrecord.trans hwritten))

/-- Refutes O54: GUEST_FAULT_RECORD reads the queue's context behind the walk, which may recall an update-only copy whose element crosses into the queue's
descriptor; in crossingCopy the record is of context 1, where the statement has it of context 0. -/
theorem not_linkAndGuestEvents : ¬ Obligations.LinkAndGuestEvents := fun h => not_recordsContextBeforeWalk (linkAndGuestEvents_iff.mp h)

end Sys2Proof.Machine
end
section
/-! PROOF. Page 0, integers: what each operation writes (R303 to R305), the frame of a register write (R297), the compares and the predicate stack (R300 to R302). -/

namespace Sys2Proof.Machine

/-! ### Arithmetic on words -/

theorem toNat_and_63 (b : Word) : (b &&& 63).toNat = b.toNat % 64 := by
  rw [BitVec.toNat_and]
  exact Nat.and_two_pow_sub_one_eq_mod _ 6

theorem sshiftRight_eq_ofInt (a : Word) (n : Nat) : a.sshiftRight n = BitVec.ofInt 64 (a.toInt / 2 ^ n) := by
  rw [BitVec.sshiftRight_eq, Int.shiftRight_eq_div_pow]
  norm_cast

theorem ofInt_mulS (a b : Word) : BitVec.ofInt 64 (mulS a b) = a * b := by
  rw [mulS, BitVec.ofInt_mul, BitVec.ofInt_toInt, BitVec.ofInt_toInt]

/-- The high half of a product of 128 bits is the exact product divided by 2^64. -/
theorem ofInt_mulS_high (a b : Word) :
    BitVec.ofInt 64 (mulS a b / 2 ^ 64) = ((a.signExtend 128 * b.signExtend 128).extractLsb' 64 64) := by
  have hprod : a.signExtend 128 * b.signExtend 128 = BitVec.ofInt 128 (mulS a b) := by
    rw [mulS, BitVec.ofInt_mul]
    rfl
  rw [hprod]
  apply BitVec.eq_of_toNat_eq
  rw [BitVec.extractLsb'_toNat, BitVec.toNat_ofInt, BitVec.toNat_ofInt, Nat.shiftRight_eq_div_pow]
  omega

theorem divS_eq (a b : Word) : divS a b = if b = 0 then -1 else a.sdiv b := by
  unfold divS
  split
  · rfl
  · split
    · next h =>
      obtain ⟨ha, hb⟩ : a = BitVec.ofNat 64 (2 ^ 63) ∧ b = -1 := by simpa using h
      rw [ha, hb]
      decide
    · exact BitVec.eq_of_toInt_eq (by rw [BitVec.toInt_ofInt, BitVec.toInt_sdiv])

theorem remS_eq (a b : Word) : remS a b = if b = 0 then a else a.srem b := by
  unfold remS
  split
  · rfl
  · split
    · next h =>
      obtain ⟨ha, hb⟩ : a = BitVec.ofNat 64 (2 ^ 63) ∧ b = -1 := by simpa using h
      rw [ha, hb]
      decide
    · rw [← BitVec.toInt_srem, BitVec.ofInt_toInt]

theorem slt_iff (a b : Word) : a.slt b = true ↔ a.toInt < b.toInt := BitVec.slt_iff_toInt_lt

/-- Where two words compare equal they are the same, so that the lesser of them is named by either order. -/
theorem ite_slt_eq (a b x y : Word) (h : a = b → x = y) : (if a.slt b then x else y) = if a.toInt ≤ b.toInt then x else y := by
  by_cases hlt : a.toInt < b.toInt
  · rw [if_pos ((slt_iff a b).mpr hlt), if_pos (by omega)]
  · rw [if_neg (fun c => hlt ((slt_iff a b).mp c))]
    split
    · exact (h (BitVec.eq_of_toInt_eq (by omega))).symm
    · rfl

theorem boolWord_slt (a b : Word) : boolWord (a.slt b) = if a.toInt < b.toInt then 1 else 0 := by
  by_cases h : a.toInt < b.toInt
  · rw [if_pos h, (slt_iff a b).mpr h]
    rfl
  · rw [if_neg h, Bool.eq_false_iff.mpr fun c => h ((slt_iff a b).mp c)]
    rfl

/-! ### Register results (R303 to R305) -/

theorem bin2_acts {s : State} (hacts : s.acts) (d a b : Reg) (f : Word → Word → Word) :
    bin2 s d a b f = .next (s.setX d (f (s.x a) (s.x b))).advance := guarded_acts hacts _

theorem un1_acts {s : State} (hacts : s.acts) (d a : Reg) (f : Word → Word) : un1 s d a f = .next (s.setX d (f (s.x a))).advance :=
  guarded_acts hacts _

/-- Settles O1: each operation is one function of its two sources. -/
theorem integerResults : Obligations.IntegerResults := by
  intro s d a b hacts
  refine ⟨bin2_acts hacts d a b _, bin2_acts hacts d a b _, bin2_acts hacts d a b _, bin2_acts hacts d a b _, bin2_acts hacts d a b _,
    ?sll, ?srl, ?sra, ?mul, ?mulh, ?div, ?rem, ?min, ?max, ?slt⟩
  case sll => rw [BitVec.shiftLeft_eq', toNat_and_63]; exact (bin2_acts hacts d a b _ : execSll d a b s = _)
  case srl => rw [BitVec.ushiftRight_eq', toNat_and_63]; exact (bin2_acts hacts d a b _ : execSrl d a b s = _)
  case sra => rw [← sshiftRight_eq_ofInt]; exact (bin2_acts hacts d a b _ : execSra d a b s = _)
  case mul => rw [← ofInt_mulS]; exact (bin2_acts hacts d a b _ : execMul d a b s = _)
  case mulh => rw [← ofInt_mulS_high]; exact (bin2_acts hacts d a b _ : execMulh d a b s = _)
  case div => rw [← divS_eq]; exact (bin2_acts hacts d a b _ : execDiv d a b s = _)
  case rem => rw [← remS_eq]; exact (bin2_acts hacts d a b _ : execRem d a b s = _)
  case min => rw [← ite_slt_eq _ _ _ _ id]; exact (bin2_acts hacts d a b _ : execMin d a b s = _)
  case max => rw [← ite_slt_eq _ _ _ _ Eq.symm]; exact (bin2_acts hacts d a b _ : execMax d a b s = _)
  case slt => rw [← boolWord_slt]; exact (bin2_acts hacts d a b _ : execSlt d a b s = _)

end Sys2Proof.Machine
end
section
/-! PROOF. Words and chains: the fields of a word written by the encoder, and what the scan makes of a chain's words (R269 to R275). -/

namespace Sys2Proof

/-! ### The fields of a word (R269) -/

section Fields
variable (major : BitVec 5) (a b : BitVec 4) (f : BitVec 3) (i : BitVec 7) (j : BitVec 11)

@[simp] theorem mkRR_major : (mkRR major a b f).extractLsb' 11 5 = major := BitVec.extractLsb'_append_eq_left (b := a ++ (b ++ f))
@[simp] theorem mkRR_fa : (mkRR major a b f).extractLsb' 7 4 = a :=
  (BitVec.extractLsb'_append_eq_of_add_le (xhi := major) (by decide)).trans (BitVec.extractLsb'_append_eq_left (b := b ++ f))
@[simp] theorem mkRR_fb : (mkRR major a b f).extractLsb' 3 4 = b :=
  (BitVec.extractLsb'_append_eq_of_add_le (xhi := major) (by decide)).trans
    ((BitVec.extractLsb'_append_eq_of_add_le (xhi := a) (by decide)).trans (BitVec.extractLsb'_append_eq_left (b := f)))
@[simp] theorem mkRR_ff : (mkRR major a b f).extractLsb' 0 3 = f :=
  (BitVec.extractLsb'_append_eq_of_add_le (xhi := major) (by decide)).trans
    ((BitVec.extractLsb'_append_eq_of_add_le (xhi := a) (by decide)).trans (BitVec.extractLsb'_append_eq_right (a := b)))
@[simp] theorem mkRI_major : (mkRI major a i).extractLsb' 11 5 = major := BitVec.extractLsb'_append_eq_left (b := a ++ i)
@[simp] theorem mkRI_fa : (mkRI major a i).extractLsb' 7 4 = a :=
  (BitVec.extractLsb'_append_eq_of_add_le (xhi := major) (by decide)).trans (BitVec.extractLsb'_append_eq_left (b := i))
@[simp] theorem mkRI_i7 : (mkRI major a i).extractLsb' 0 7 = i :=
  (BitVec.extractLsb'_append_eq_of_add_le (xhi := major) (by decide)).trans (BitVec.extractLsb'_append_eq_right (a := a))
@[simp] theorem mkJ_major : (mkJ major j).extractLsb' 11 5 = major := BitVec.extractLsb'_append_eq_left (b := j)
@[simp] theorem mkJ_i11 : (mkJ major j).extractLsb' 0 11 = j := BitVec.extractLsb'_append_eq_right (a := major)

end Fields

section Lead
variable (kind : BitVec 2) (p : BitVec 9)

@[simp] theorem leadWord_kind : (leadWord kind p).extractLsb' 9 2 = kind :=
  (BitVec.extractLsb'_append_eq_of_add_le (xhi := 31#5) (by decide)).trans (BitVec.extractLsb'_append_eq_left (b := p))
@[simp] theorem leadWord_payload : (leadWord kind p).extractLsb' 0 9 = p :=
  (BitVec.extractLsb'_append_eq_of_add_le (xhi := 31#5) (by decide)).trans (BitVec.extractLsb'_append_eq_right (a := kind))
@[simp] theorem isLead_leadWord : isLead (leadWord kind p) = true :=
  beq_iff_eq.mpr (BitVec.extractLsb'_append_eq_left (b := kind ++ p))

end Lead

/-! ### The scan (R275) -/

theorem Scan.word_base (p : Scan) {w : Half} (h : isLead w = false) : p.word w = .whole ⟨p.page, p.reg, p.md, p.imms, w⟩ := by
  simp [Scan.word, h]

theorem Scan.word_imm (p : Scan) (v : BitVec 9) (hcount : p.count < 4) (himms : p.imms.length < 3) :
    p.word (leadWord 0#2 v) = .more { p with stage := 4, count := p.count + 1, imms := p.imms ++ [v] } := by
  simp [Scan.word, Nat.not_le.mpr hcount, Nat.not_le.mpr himms]

/-- IMM words and a base word end a chain. -/
theorem scanWords_imms {base : Half} (hbase : isLead base = false) (rest : List Half) (imms : List (BitVec 9)) (p : Scan) (k : Nat)
    (hcount : p.count + imms.length ≤ 4) (himms : p.imms.length + imms.length ≤ 3) :
    scanWords (imms.map (leadWord 0#2) ++ base :: rest) p k = .chain ⟨p.page, p.reg, p.md, p.imms ++ imms, base⟩ (k + imms.length + 1) := by
  induction imms generalizing p k with
  | nil => simp [scanWords, p.word_base hbase]
  | cons v imms ih =>
    rw [List.length_cons] at hcount himms
    simp only [List.map_cons, List.cons_append, scanWords, p.word_imm v (by omega) (by omega)]
    rw [ih _ _ (by simp only; omega) (by simp only [List.length_append, List.length_singleton]; omega)]
    simp only [List.append_assoc, List.singleton_append, List.length_cons, Scanned.chain.injEq, true_and]
    omega

/-- The leading words of a chain but its IMM words. -/
def Chain.heads (c : Chain) : Nat := c.page.toList.length + c.reg.toList.length + c.md.toList.length

/-- The words of a chain are read as that chain. -/
theorem scanWords_words {c : Chain} (hbase : isLead c.base = false) (himms : c.imms.length ≤ 3) (hcount : c.heads + c.imms.length ≤ 4) (rest : List Half) :
    scanWords (c.words ++ rest) Scan.start 0 = .chain c c.words.length := by
  obtain ⟨page, reg, md, imms, base⟩ := c
  cases page <;> cases reg <;> cases md
  all_goals
    simp only [Chain.heads, Option.toList, List.length_nil, List.length_singleton] at hcount himms hbase
    simp [Chain.words, scanWords, Scan.word, Scan.start]
    rw [scanWords_imms hbase rest imms _ _ (by simp only; omega) (by simpa using himms)]
    simp <;> omega

/-- A scan that reaches a chain reads at most four leading words. -/
theorem scanWords_length {ws : List Half} {p : Scan} {k n : Nat} {c : Chain} (hcount : p.count ≤ 4) (h : scanWords ws p k = .chain c n) :
    n + p.count ≤ k + 5 := by
  induction ws generalizing p k with
  | nil => simp [scanWords] at h
  | cons w ws ih =>
    rw [scanWords] at h
    split at h
    · simp only [Scanned.chain.injEq] at h
      omega
    · simp at h
    · next q hq =>
      obtain ⟨hp, hq⟩ : p.count < 4 ∧ q.count = p.count + 1 := by
        unfold Scan.word at hq
        simp only at hq
        split at hq
        · simp at hq
        · split at hq
          · simp at hq
          · next hfour =>
            refine ⟨by omega, ?_⟩
            split at hq <;> split at hq <;> simp only [reduceCtorEq, ScanStep.more.injEq] at hq <;> exact hq ▸ rfl
      have := ih (by omega) h
      omega

/-- Decoding a chain from its own words is decoding the chain. -/
theorem decodeWords_words {c : Chain} (hbase : isLead c.base = false) (himms : c.imms.length ≤ 3) (hcount : c.heads + c.imms.length ≤ 4) (rest : List Half) :
    decodeWords (c.words ++ rest) = match decodeChain c with
      | some i => .instr i c.words.length
      | none => .illegal c.words.length := by
  simp only [decodeWords, scanWords_words hbase himms hcount] <;> rfl

end Sys2Proof
end
section
/-! PROOF. Immediates and the optional leading words: what the decoder reads of what the encoder writes (R261, R273, R279). -/

namespace Sys2Proof

/-! ### Immediates (R279) -/

theorem extractLsb'_append_setWidth {w : Nat} (v : BitVec w) (m n : Nat) : v.extractLsb' m n ++ v.setWidth m = v.setWidth (n + m) := by
  apply BitVec.eq_of_getLsbD_eq
  intro i hi
  simp only [BitVec.getLsbD_append, BitVec.getLsbD_setWidth, BitVec.getLsbD_extractLsb', hi, decide_true, Bool.true_and]
  split
  · next h => simp [h]
  · next h => rw [show m + (i - m) = i by omega, decide_eq_true (by omega), Bool.true_and]

section Immediates
variable (w : Nat) (v : Word)

/-- The parts of a value, from its base field up. -/
theorem setWidth_parts (n : Nat) : v.extractLsb' (w + n) 9 ++ v.setWidth (n + w) = v.setWidth (9 + (n + w)) := by
  rw [Nat.add_comm w n, extractLsb'_append_setWidth]

variable {w v}

theorem immS_none (h : ((v.setWidth w).signExtend 64 == v) = true) : immS [] (v.setWidth w) = v := beq_iff_eq.mp h

theorem immS_one (h : ((v.setWidth (w + 9)).signExtend 64 == v) = true) : immS [v.extractLsb' w 9] (v.setWidth w) = v := by
  rw [immS, extractLsb'_append_setWidth, Nat.add_comm 9 w]
  exact beq_iff_eq.mp h

theorem immS_two (h : ((v.setWidth (w + 18)).signExtend 64 == v) = true) :
    immS [v.extractLsb' (w + 9) 9, v.extractLsb' w 9] (v.setWidth w) = v := by
  rw [immS, extractLsb'_append_setWidth, setWidth_parts, show 9 + (9 + w) = w + 18 by omega]
  exact beq_iff_eq.mp h

theorem immS_three (h : ((v.setWidth (w + 27)).signExtend 64 == v) = true) :
    immS [v.extractLsb' (w + 18) 9, v.extractLsb' (w + 9) 9, v.extractLsb' w 9] (v.setWidth w) = v := by
  rw [immS, extractLsb'_append_setWidth, setWidth_parts, show 9 + (9 + w) = 18 + w by omega, setWidth_parts, show 9 + (18 + w) = w + 27 by omega]
  exact beq_iff_eq.mp h

theorem signExtend_zero (n : Nat) : (0#64 |>.setWidth n).signExtend 64 = 0#64 := by
  rw [BitVec.setWidth_zero, BitVec.signExtend, BitVec.toInt_zero]
  rfl

/-- A value that fits n IMM words is written in at most n, and read again. -/
theorem immS_immsS {n : Nat} (hn : n ≤ 3) (h : fitsS n w v = true) : (immsS w v).length ≤ n ∧ immS (immsS w v) (v.setWidth w) = v := by
  have hfit : ((v.setWidth (w + 9 * n)).signExtend 64 == v) = true ∨ v = 0 := by
    simp only [fitsS, Bool.or_eq_true, Bool.and_eq_true, beq_iff_eq] at h
    exact h.imp (fun h => beq_iff_eq.mpr h.2) id
  unfold immsS
  split
  · next h0 => exact ⟨Nat.zero_le _, immS_none h0⟩
  next h0 =>
  replace hfit := hfit.resolve_right fun hz => h0 (by rw [hz]; exact beq_iff_eq.mpr (signExtend_zero w))
  have h1 : n ≠ 0 := by rintro rfl; exact h0 hfit
  split
  · next h1' => exact ⟨by simp; omega, immS_one h1'⟩
  next h1' =>
  have h2 : n ≠ 1 := by rintro rfl; exact h1' hfit
  split
  · next h2' => exact ⟨by simp; omega, immS_two h2'⟩
  next h2' =>
  have h3 : n ≠ 2 := by rintro rfl; exact h2' hfit
  obtain rfl : n = 3 := by omega
  exact ⟨by simp, immS_three hfit⟩

theorem setWidth_setWidth_of_lt {n : Nat} (h : v.toNat < 2 ^ n) : (v.setWidth n).setWidth 64 = v := by
  apply BitVec.eq_of_toNat_eq
  rw [BitVec.toNat_setWidth, BitVec.toNat_setWidth, Nat.mod_eq_of_lt h, Nat.mod_eq_of_lt v.isLt]

/-- An unsigned value, likewise. -/
theorem immU_immsU {n : Nat} (hn : n ≤ 3) (h : fitsU n w v.toNat = true) : (immsU w v).length ≤ n ∧ immU (immsU w v) (v.setWidth w) = v := by
  have hfit : v.toNat < 2 ^ (w + 9 * n) := by simpa [fitsU] using h
  unfold immsU
  split
  · next h0 => exact ⟨Nat.zero_le _, setWidth_setWidth_of_lt h0⟩
  next h0 =>
  have h1 : n ≠ 0 := fun hz => h0 (by simpa [hz] using hfit)
  split
  · next h1' =>
    refine ⟨by simp; omega, ?_⟩
    rw [immU, extractLsb'_append_setWidth, Nat.add_comm 9 w]
    exact setWidth_setWidth_of_lt h1'
  next h1' =>
  have h2 : n ≠ 1 := fun hz => h1' (by simpa [hz] using hfit)
  split
  · next h2' =>
    refine ⟨by simp; omega, ?_⟩
    rw [immU, extractLsb'_append_setWidth, setWidth_parts, show 9 + (9 + w) = w + 18 by omega]
    exact setWidth_setWidth_of_lt h2'
  next h2' =>
  have h3 : n ≠ 2 := fun hz => h2' (by simpa [hz] using hfit)
  obtain rfl : n = 3 := by omega
  refine ⟨by simp, ?_⟩
  rw [immU, extractLsb'_append_setWidth, setWidth_parts, show 9 + (9 + w) = 18 + w by omega, setWidth_parts, show 9 + (18 + w) = w + 27 by omega]
  exact setWidth_setWidth_of_lt hfit

end Immediates

/-! ### Registers (R270, R273) -/

section Registers
variable (a b c : Reg)

@[simp] theorem regBits_ah : (regBits a b c).extractLsb' 8 1 = a.extractLsb' 4 1 :=
  BitVec.extractLsb'_append_eq_left (b := b.extractLsb' 4 1 ++ (c ++ 0#2))
@[simp] theorem regBits_bh : (regBits a b c).extractLsb' 7 1 = b.extractLsb' 4 1 :=
  (BitVec.extractLsb'_append_eq_of_add_le (xhi := a.extractLsb' 4 1) (by decide)).trans (BitVec.extractLsb'_append_eq_left (b := c ++ 0#2))
@[simp] theorem regBits_c : (regBits a b c).extractLsb' 2 5 = c :=
  (BitVec.extractLsb'_append_eq_of_add_le (xhi := a.extractLsb' 4 1) (by decide)).trans
    ((BitVec.extractLsb'_append_eq_of_add_le (xhi := b.extractLsb' 4 1) (by decide)).trans (BitVec.extractLsb'_append_eq_left (b := 0#2)))
@[simp] theorem regBits_reserved : (regBits a b c).extractLsb' 0 2 = 0 :=
  (BitVec.extractLsb'_append_eq_of_add_le (xhi := a.extractLsb' 4 1) (by decide)).trans
    ((BitVec.extractLsb'_append_eq_of_add_le (xhi := b.extractLsb' 4 1) (by decide)).trans (BitVec.extractLsb'_append_eq_right (a := c)))

/-- A register is its high bit and its low four. -/
@[simp] theorem reg_parts : (a.extractLsb' 4 1 ++ lo4 a : Reg) = a := by revert a; decide

theorem extractLsb'_of_low (h : high a = false) : a.extractLsb' 4 1 = 0 := by revert a; decide

theorem regBits_low (ha : high a = false) (hb : high b = false) : regBits a b 0 = 0 := by
  rw [regBits, extractLsb'_of_low a ha, extractLsb'_of_low b hb]
  rfl

/-- A REG word that is left out where it is not needed reads as the same registers. -/
theorem regIf_getD {need : Bool} {p : BitVec 9} (h : need = false → p = 0) : (regIf need p).getD 0 = p := by
  cases need
  · exact (h rfl).symm
  · rfl

theorem regIf_abc_getD : (regIf (high a || high b || c != 0) (regBits a b c)).getD 0 = regBits a b c := by
  refine regIf_getD fun h => ?_
  simp only [Bool.or_eq_false_iff, bne_eq_false_iff_eq] at h
  obtain ⟨⟨ha, hb⟩, rfl⟩ := h
  exact regBits_low a b ha hb

end Registers

/-! ### Modifiers (R282 to R287) -/

/-- A MOD word that is left out where it is zero reads as the same bits. -/
@[simp] theorem modIf_getD (p : BitVec 9) : (modIf p).getD 0#9 = p := by
  unfold modIf
  split
  · next h => exact (beq_iff_eq.mp h).symm
  · rfl

end Sys2Proof
end
section
/-! PROOF. The forms of the encoder: what the rows of the opcode maps read of each (R279 to R288). -/

namespace Sys2Proof

/-! ### Chains that the scan can read (R275) -/

/-- A chain that the scan can read: its base word is none of the leading words, and they are at most four, three of them IMM (R275). -/
def Chain.Fits (c : Chain) : Prop := isLead c.base = false ∧ c.imms.length ≤ 3 ∧ c.heads + c.imms.length ≤ 4

theorem room_le (p r m : Bool) : room p r m ≤ 3 := Nat.min_le_left _ _

theorem length_toList_le {α : Type} {o : Option α} {b : Bool} (h : o.isSome = true → b = true) : o.toList.length ≤ b.toNat := by
  cases o
  · exact Nat.zero_le _
  · rw [h rfl]
    exact le_refl _

/-- The IMM words that the other leading words leave room for fit. -/
theorem Chain.fits_of_room {c : Chain} {p r m : Bool} (hbase : isLead c.base = false) (hp : c.page.isSome = true → p = true)
    (hr : c.reg.isSome = true → r = true) (hm : c.md.isSome = true → m = true) (hlen : c.imms.length ≤ room p r m) : c.Fits := by
  have h1 := length_toList_le hp
  have h2 := length_toList_le hr
  have h3 := length_toList_le hm
  have hp := Bool.toNat_le p
  have hr := Bool.toNat_le r
  have hm := Bool.toNat_le m
  unfold room at hlen
  exact ⟨hbase, by omega, by unfold Chain.heads; omega⟩

/-- A chain with no IMM word fits. -/
theorem Chain.fits_of_short {c : Chain} (hbase : isLead c.base = false) (himms : c.imms = []) : c.Fits :=
  Chain.fits_of_room (p := true) (r := true) (m := true) hbase (fun _ => rfl) (fun _ => rfl) (fun _ => rfl) (by simp [himms])

theorem isLead_mkRR {major : BitVec 5} (h : major ≠ 31) (a b : BitVec 4) (f : BitVec 3) : isLead (mkRR major a b f) = false := by
  rw [isLead, mkRR_major]
  exact beq_eq_false_iff_ne.mpr h
theorem isLead_mkRI {major : BitVec 5} (h : major ≠ 31) (a : BitVec 4) (i : BitVec 7) : isLead (mkRI major a i) = false := by
  rw [isLead, mkRI_major]
  exact beq_eq_false_iff_ne.mpr h
theorem isLead_mkJ {major : BitVec 5} (h : major ≠ 31) (j : BitVec 11) : isLead (mkJ major j) = false := by
  rw [isLead, mkJ_major]
  exact beq_eq_false_iff_ne.mpr h

/-! ### Fixed forms with a, b and c -/

section Fix
variable (page : BitVec 9) (major : BitVec 5) (f : BitVec 3) (md : Option (BitVec 9)) (imms : List (BitVec 9)) (a b c : Reg)

@[simp] theorem encFix_major : (encFix page major f md imms a b c).major = major.toNat := congrArg BitVec.toNat (mkRR_major _ _ _ _)
@[simp] theorem encFix_ff : (encFix page major f md imms a b c).ff = f.toNat := congrArg BitVec.toNat (mkRR_ff _ _ _ _)
@[simp] theorem encFix_base_ff : (encFix page major f md imms a b c).base.extractLsb' 0 3 = f := mkRR_ff _ _ _ _
@[simp] theorem encFix_fa : (encFix page major f md imms a b c).fa = lo4 a := mkRR_fa _ _ _ _
@[simp] theorem encFix_fb : (encFix page major f md imms a b c).fb = lo4 b := mkRR_fb _ _ _ _
@[simp] theorem encFix_rp : (encFix page major f md imms a b c).rp = regBits a b c := regIf_abc_getD a b c
@[simp] theorem encFix_regOk : (encFix page major f md imms a b c).regOk = true := by simp [Chain.regOk]
@[simp] theorem encFix_ra : (encFix page major f md imms a b c).ra = a := by simp [Chain.ra]
@[simp] theorem encFix_rb : (encFix page major f md imms a b c).rb = b := by simp [Chain.rb]
@[simp] theorem encFix_rc : (encFix page major f md imms a b c).rc = c := by simp [Chain.rc]
@[simp] theorem encFix_unOk : (encFix page major f md imms a b c).unOk = (c == 0) := by simp [Chain.unOk]
@[simp] theorem encFix_ahZero : (encFix page major f md imms a b c).ahZero = !high a := by
  rw [Chain.ahZero, encFix_rp, regBits_ah]
  revert a
  decide
@[simp] theorem encFix_bhZero : (encFix page major f md imms a b c).bhZero = !high b := by
  rw [Chain.bhZero, encFix_rp, regBits_bh]
  revert b
  decide
@[simp] theorem encFix_bZero : (encFix page major f md imms a b c).bZero = (b == 0) := by
  rw [Chain.bZero, encFix_fb, encFix_bhZero]
  revert b
  decide
@[simp] theorem encFix_noMod : (encFix page major f md imms a b c).noMod = (md == none) := rfl
@[simp] theorem encFix_noImm : (encFix page major f md imms a b c).noImm = imms.isEmpty := rfl
@[simp] theorem encFix_mp : (encFix page major f md imms a b c).mp = md.getD 0#9 := rfl
@[simp] theorem encFix_off : (encFix page major f md imms a b c).off = immS imms (0#0) := rfl
@[simp] theorem encFix_imms : (encFix page major f md imms a b c).imms = imms := rfl

variable {page major f md imms a b c}

theorem encFix_fits (hmajor : major ≠ 31) (hlen : imms.length ≤ room (page != 0) (high a || high b || c != 0) md.isSome) :
    (encFix page major f md imms a b c).Fits := by
  refine Chain.fits_of_room (isLead_mkRR hmajor _ _ _) ?_ ?_ (fun h => h) hlen
  · show (pg page).isSome = true → _
    unfold pg
    split <;> simp_all
  · show (regIf _ _).isSome = true → _
    unfold regIf
    split <;> simp_all

theorem encFix_fits_short (hmajor : major ≠ 31) : (encFix page major f md [] a b c).Fits :=
  Chain.fits_of_short (isLead_mkRR hmajor _ _ _) rfl

end Fix

/-! A mask or a handle in the place of a register is a low register. -/

theorem lo4_mask (k : KReg) : lo4 (k.setWidth 5) = k.setWidth 4 := by revert k; decide
theorem high_mask (k : KReg) : high (k.setWidth 5) = false := by revert k; decide
theorem ah_mask (k : KReg) : BitVec.extractLsb' 4 1 (k.setWidth 5 : Reg) = 0 := by revert k; decide
theorem lo4_handle (h : HReg) : lo4 (h.setWidth 5) = h := by revert h; decide
theorem high_handle (h : HReg) : high (h.setWidth 5) = false := by revert h; decide
theorem ah_handle (h : HReg) : BitVec.extractLsb' 4 1 (h.setWidth 5 : Reg) = 0 := by revert h; decide

theorem encVcmp_eq (f : BitVec 3) (k : KReg) (b c : Reg) (m : VMod) : encVcmp f k b c m = encFix 1 9 f (modIf m.bits) [] (k.setWidth 5) b c := by
  simp [encVcmp, encFix, lo4_mask, high_mask, regBits, ah_mask]

theorem encK_eq (f : BitVec 3) (k kb kc : KReg) : encK f k kb kc = encFix 1 10 f none [] (k.setWidth 5) (kb.setWidth 5) (kc.setWidth 5) := by
  have hkc : (kc != 0) = ((kc.setWidth 5 : Reg) != 0) := by revert kc; decide
  rw [encK, hkc]
  simp [encFix, lo4_mask, high_mask, regBits, ah_mask]

theorem encMma_eq (f : BitVec 3) (a : Reg) (b : HReg) (asrc : Bool) (fmt : BitVec 4) :
    encMma f a b asrc fmt = encFix 2 6 f (modIf (one asrc ++ (0#4 ++ fmt))) [] a (b.setWidth 5) 0 := by
  simp [encMma, encFix, lo4_handle, high_handle, regBits, ah_handle]

theorem encCbCfg_eq (h : HReg) (b : Reg) :
    (⟨pg 2, regIf (high b) (regBits 0 b 0), none, [], mkRR 1 h (lo4 b) 0⟩ : Chain) = encFix 2 1 0 none [] (h.setWidth 5) b 0 := by
  simp [encFix, lo4_handle, high_handle, regBits, ah_handle]

/-! ### bin forms (R280) -/

section Bin
variable (page : BitVec 9) (major : BitVec 5) (f : BitVec 3) (md : Option (BitVec 9)) (d a b : Reg)

/-- A bin form is two-address with low registers, or has its REG word. -/
theorem encBin_cases : (d = a ∧ high d = false ∧ high b = false ∧ encBin page major f md d a b = ⟨pg page, none, md, [], mkRR major (lo4 d) (lo4 b) f⟩) ∨
    encBin page major f md d a b = ⟨pg page, some (regBits d a b), md, [], mkRR major (lo4 d) (lo4 a) f⟩ := by
  unfold encBin
  split
  · next h =>
    simp only [Bool.and_eq_true, beq_iff_eq, Bool.not_eq_true'] at h
    exact .inl ⟨h.1.1, h.1.2, h.2, rfl⟩
  · exact .inr rfl

@[simp] theorem encBin_major : (encBin page major f md d a b).major = major.toNat := by
  unfold encBin
  split <;> exact congrArg BitVec.toNat (mkRR_major _ _ _ _)
@[simp] theorem encBin_ff : (encBin page major f md d a b).ff = f.toNat := by
  unfold encBin
  split <;> exact congrArg BitVec.toNat (mkRR_ff _ _ _ _)
@[simp] theorem encBin_noMod : (encBin page major f md d a b).noMod = (md == none) := by unfold encBin; split <;> rfl
@[simp] theorem encBin_noImm : (encBin page major f md d a b).noImm = true := by unfold encBin; split <;> rfl
@[simp] theorem encBin_mp : (encBin page major f md d a b).mp = md.getD 0#9 := by unfold encBin; split <;> rfl
@[simp] theorem encBin_pageNum : (encBin page major f md d a b).pageNum = Chain.pageNum ⟨pg page, none, none, [], 0⟩ := by unfold encBin; split <;> rfl

/-- A low register without a REG word. -/
theorem reg_low {r : Reg} (h : high r = false) : (0#1 ++ lo4 r : Reg) = r := by revert r; decide

@[simp] theorem encBin_bin : (encBin page major f md d a b).bin = (d, a, b) := by
  rcases encBin_cases page major f md d a b with ⟨rfl, hd, hb, h⟩ | h
  · rw [h]
    simp [Chain.bin, Chain.ra, Chain.rb, Chain.rp, Chain.fa, Chain.fb, reg_low hd, reg_low hb]
  · rw [h]
    simp [Chain.bin, Chain.rb, Chain.rc, Chain.ra, Chain.rp, Chain.fa, Chain.fb]

@[simp] theorem encBin_regOk : (encBin page major f md d a b).regOk = true := by
  rcases encBin_cases page major f md d a b with ⟨_, _, _, h⟩ | h <;> rw [h] <;> simp [Chain.regOk, Chain.rp]

theorem encBin_fits (hmajor : major ≠ 31) : (encBin page major f md d a b).Fits := by
  unfold encBin
  split <;> exact Chain.fits_of_short (isLead_mkRR hmajor _ _ _) rfl

/-- A form of one source in the place of s2 (R289). -/
theorem encSqrt_cases : (high d = false ∧ high b = false ∧ encSqrt page major f md d b = ⟨pg page, none, md, [], mkRR major (lo4 d) (lo4 b) f⟩) ∨
    encSqrt page major f md d b = ⟨pg page, some (regBits d 0 b), md, [], mkRR major (lo4 d) 0 f⟩ := by
  unfold encSqrt
  split
  · next h =>
    simp only [Bool.and_eq_true, Bool.not_eq_true'] at h
    exact .inl ⟨h.1, h.2, rfl⟩
  · exact .inr rfl

@[simp] theorem encSqrt_major : (encSqrt page major f md d b).major = major.toNat := by
  unfold encSqrt
  split <;> exact congrArg BitVec.toNat (mkRR_major _ _ _ _)
@[simp] theorem encSqrt_ff : (encSqrt page major f md d b).ff = f.toNat := by
  unfold encSqrt
  split <;> exact congrArg BitVec.toNat (mkRR_ff _ _ _ _)
@[simp] theorem encSqrt_noImm : (encSqrt page major f md d b).noImm = true := by unfold encSqrt; split <;> rfl
@[simp] theorem encSqrt_mp : (encSqrt page major f md d b).mp = md.getD 0#9 := by unfold encSqrt; split <;> rfl
@[simp] theorem encSqrt_pageNum : (encSqrt page major f md d b).pageNum = Chain.pageNum ⟨pg page, none, none, [], 0⟩ := by unfold encSqrt; split <;> rfl

theorem encSqrt_regs : (encSqrt page major f md d b).ra = d ∧ (encSqrt page major f md d b).s2 = b ∧ (encSqrt page major f md d b).sqrtOk = true := by
  rcases encSqrt_cases page major f md d b with ⟨hd, hb, h⟩ | h
  · rw [h]
    simp [Chain.s2, Chain.sqrtOk, Chain.noReg, Chain.regOk, Chain.bin, Chain.ra, Chain.rb, Chain.rp, Chain.fa, Chain.fb, reg_low hd, reg_low hb]
  · rw [h]
    simp [Chain.s2, Chain.sqrtOk, Chain.noReg, Chain.regOk, Chain.bin, Chain.bZero, Chain.bhZero, Chain.rc, Chain.ra, Chain.rp, Chain.fa, Chain.fb]

theorem encSqrt_fits (hmajor : major ≠ 31) : (encSqrt page major f md d b).Fits := by
  unfold encSqrt
  split <;> exact Chain.fits_of_short (isLead_mkRR hmajor _ _ _) rfl

end Bin

/-! ### ri forms (R280) -/

section Ri
variable (major : BitVec 5) (d a : Reg) (imms : List (BitVec 9)) (i : BitVec 7)

@[simp] theorem encRi_major : (encRi major d a imms i).major = major.toNat := congrArg BitVec.toNat (mkRI_major _ _ _)
@[simp] theorem encRi_i7 : (encRi major d a imms i).i7 = i := mkRI_i7 _ _ _
@[simp] theorem encRi_noMod : (encRi major d a imms i).noMod = true := rfl
@[simp] theorem encRi_imms : (encRi major d a imms i).imms = imms := rfl
@[simp] theorem encRi_noImm : (encRi major d a imms i).noImm = imms.isEmpty := rfl

theorem encRi_regs : (encRi major d a imms i).ri = (d, a) ∧ (encRi major d a imms i).riOk = true := by
  cases hin : inPlace d a with
  | true =>
    obtain ⟨rfl, hd⟩ : d = a ∧ high d = false := by simpa [inPlace] using hin
    simp [encRi, hin, regIf, Chain.ri, Chain.riOk, Chain.regOk, Chain.bhZero, Chain.ra, Chain.rp, Chain.fa, reg_low hd]
  | false => simp [encRi, hin, regIf, Chain.ri, Chain.riOk, Chain.regOk, Chain.bhZero, Chain.ra, Chain.rc, Chain.rp, Chain.fa]

@[simp] theorem encRi_ri : (encRi major d a imms i).ri = (d, a) := (encRi_regs major d a imms i).1
@[simp] theorem encRi_riOk : (encRi major d a imms i).riOk = true := (encRi_regs major d a imms i).2

theorem regIf_isSome {need : Bool} {p : BitVec 9} (h : (regIf need p).isSome = true) : need = true := by
  cases need
  · exact absurd h (by simp [regIf])
  · rfl

theorem encRi_fits (hmajor : major ≠ 31) (hlen : imms.length ≤ room false (!inPlace d a) false) : (encRi major d a imms i).Fits :=
  Chain.fits_of_room (isLead_mkRI hmajor _ _) (fun h => h) regIf_isSome (fun h => h) hlen

theorem regIf_a_getD : (regIf (high a) (regBits a 0 0)).getD 0 = regBits a 0 0 := regIf_getD fun h => regBits_low a 0 h rfl

@[simp] theorem encA7_major : (encA7 major a imms i).major = major.toNat := congrArg BitVec.toNat (mkRI_major _ _ _)
@[simp] theorem encA7_i7 : (encA7 major a imms i).i7 = i := mkRI_i7 _ _ _
@[simp] theorem encA7_noMod : (encA7 major a imms i).noMod = true := rfl
@[simp] theorem encA7_imms : (encA7 major a imms i).imms = imms := rfl
@[simp] theorem encA7_rp : (encA7 major a imms i).rp = regBits a 0 0 := regIf_a_getD a
@[simp] theorem encA7_riOk : (encA7 major a imms i).riOk = true := by simp [Chain.riOk, Chain.regOk, Chain.bhZero]
@[simp] theorem encA7_rc : (encA7 major a imms i).rc = 0 := by simp [Chain.rc]
@[simp] theorem encA7_ra : (encA7 major a imms i).ra = a := by
  have hfa : (encA7 major a imms i).fa = lo4 a := mkRI_fa _ _ _
  simp [Chain.ra, hfa]

theorem encA7_fits (hmajor : major ≠ 31) (hlen : imms.length ≤ room false (high a) false) : (encA7 major a imms i).Fits :=
  Chain.fits_of_room (isLead_mkRI hmajor _ _) (fun h => h) regIf_isSome (fun h => h) hlen

end Ri

end Sys2Proof
end
section
/-! PROOF. The rows of the opcode maps on the encoder's chains, one lemma for each form (R279 to R294). -/

namespace Sys2Proof

/-! ### MOD layouts (R282 to R288) -/

theorem fMod_bits (m : FMod) : fMod m.bits = some m := by
  obtain ⟨rm, ty, sat⟩ := m
  cases ty <;> revert rm sat <;> decide

theorem fTyOnly_bits (ty : FTy) : fTyOnly (FMod.bits ⟨0#3, ty, false⟩) = some ty := by cases ty <;> rfl

theorem memMod_bits (m : MemMod) : memMod m.bits = some m := by
  obtain ⟨ord, scope, sig, sk, space⟩ := m
  cases ord <;> cases space <;> revert scope sig sk <;> decide

theorem atomMod_bits (m : AtomMod) : atomMod m.bits = some m := by
  obtain ⟨ord, scope, sig, wide, space⟩ := m
  cases ord <;> cases space <;> revert scope sig wide <;> decide

theorem vmMod_bits (m : VMMod) : vmMod m.bits = some m := by
  obtain ⟨width, mask, sk, space⟩ := m
  cases space <;> revert width mask sk <;> decide

theorem vMod_bits (m : VMod) : vMod m.bits = m := by
  obtain ⟨ty, mask, sat, scalar⟩ := m
  revert ty mask sat scalar
  decide

theorem cvt_bits (rm : BitVec 3) (dst src : CvtTy) : let p : BitVec 9 := rm ++ (dst.code ++ src.code)
    cvtOf (p.extractLsb' 3 3) = some dst ∧ cvtOf (p.extractLsb' 0 3) = some src ∧ p.extractLsb' 6 3 = rm := by
  cases dst <;> cases src <;> revert rm <;> decide

theorem vnarrow_bits (ty : BitVec 4) (mask : KReg) (sat : Bool) : let p : BitVec 9 := ty ++ (mask ++ (one sat ++ 0#1))
    p.extractLsb' 5 4 = ty ∧ p.extractLsb' 2 3 = mask ∧ bit p 1 = sat ∧ bit p 0 = false := by
  revert ty mask sat
  decide

theorem vcvt_bits (dst src : BitVec 4) (sat : Bool) : let p : BitVec 9 := dst ++ (src ++ one sat)
    p.extractLsb' 5 4 = dst ∧ p.extractLsb' 1 4 = src ∧ bit p 0 = sat := by
  revert dst src sat
  decide

theorem vmv_bits (ty : BitVec 4) (mask : KReg) (form : MvForm) : let p : BitVec 9 := ty ++ (mask ++ form.code)
    p.extractLsb' 5 4 = ty ∧ p.extractLsb' 2 3 = mask ∧ mvOf (p.extractLsb' 0 2) = some form := by
  cases form <;> revert ty mask <;> decide

theorem block_bits (bt : BlockTy) : let p : BitVec 9 := bt.code ++ 0#5
    blockOf (p.extractLsb' 5 4) = some bt ∧ p.extractLsb' 0 5 = 0 := by
  cases bt <;> decide

theorem mma_bits (asrc : Bool) (fmt : BitVec 4) : let p : BitVec 9 := one asrc ++ (0#4 ++ fmt)
    p.extractLsb' 4 4 = 0 ∧ p.extractLsb' 0 4 = fmt ∧ bit p 8 = asrc := by
  revert asrc fmt
  decide

theorem drain_bits (fmt : BitVec 4) (space : Space) (zero : Bool) (cols : Cols) :
    let p : BitVec 9 := fmt ++ (space.code ++ (one zero ++ cols.code))
    spaceOf (p.extractLsb' 3 2) = some space ∧ colsOf (p.extractLsb' 0 2) = some cols ∧ p.extractLsb' 5 4 = fmt ∧ bit p 2 = zero := by
  cases space <;> cases cols <;> revert fmt zero <;> decide

theorem red_bits (wide : Bool) (space : Space) : let p : BitVec 9 := 0#6 ++ (one wide ++ space.code)
    atomMod p = some ⟨.none, 0, false, wide, space⟩ ∧ p.extractLsb' 3 6 = 0 ∧ (wide = false → p.extractLsb' 2 7 = 0) := by
  cases space <;> revert wide <;> decide

theorem cols_bits (cols : Cols) : let p : BitVec 9 := 0#7 ++ cols.code
    colsOf (p.extractLsb' 0 2) = some cols ∧ p.extractLsb' 2 7 = 0 := by
  cases cols <;> decide

/-- A MOD payload of bit 0 alone. -/
theorem one_bits (b : Bool) : let p : BitVec 9 := 0#8 ++ one b
    p.extractLsb' 1 8 = 0 ∧ bit p 0 = b := by
  revert b
  decide

theorem shape_bits (shape : BitVec 6) : (shape.setWidth 9).extractLsb' 6 3 = 0 ∧ (shape.setWidth 9).setWidth 6 = shape := by
  revert shape
  decide

/-- A MOD word is left out only where none is needed. -/
theorem modIf_isSome (p : BitVec 9) : (modIf p).isSome = (p != 0) := by
  unfold modIf
  split <;> simp_all

theorem memMod_needed (m : MemMod) : (modIf m.bits).isSome = m.needed := by
  obtain ⟨ord, scope, sig, sk, space⟩ := m
  cases ord <;> cases space <;> revert scope sig sk <;> decide

theorem vmMod_needed (m : VMMod) : (modIf m.bits).isSome = m.needed := by
  obtain ⟨width, mask, sk, space⟩ := m
  cases space <;> revert width mask sk <;> decide

/-! ### Rows of page 0 -/

section Rows
variable {page : BitVec 9} {major : BitVec 5} {f : BitVec 3} {md : BitVec 9} {imms : List (BitVec 9)} {d a b c : Reg} {i : BitVec 7} {j : BitVec 11} {v : Word}

theorem binRow_encBin {k : Reg → Reg → Reg → Instr} : (encBin page major f none d a b).binRow k = some (k d a b) := by simp [Chain.binRow, keep]

theorem unRow_encFix {k : Reg → Reg → Instr} : (encFix page major f none [] a b 0).unRow k = some (k a b) := by simp [Chain.unRow, keep]

theorem riRow_encRi {k : Reg → Reg → Word → Instr} (hv : immS imms i = v) : (encRi major d a imms i).riRow k = some (k d a v) := by
  simp [Chain.riRow, keep, hv]

theorem shRow_encRi {k : Reg → Reg → BitVec 6 → Instr} {sh : BitVec 6} : (encRi major d a [] (sh.setWidth 7)).shRow k = some (k d a sh) := by
  have hsh : bit (sh.setWidth 7) 6 = false ∧ (sh.setWidth 7).setWidth 6 = sh := by revert sh; decide
  simp only [Chain.shRow, encRi_riOk, encRi_noMod, encRi_noImm, encRi_i7, encRi_ri, hsh]
  rfl

theorem cmpiRow_encA7 {k : Reg → Word → Instr} (hv : immS imms i = v) : (encA7 major a imms i).cmpiRow k = some (k a v) := by
  simp [Chain.cmpiRow, keep, hv]

theorem brRow_encFix {k : Reg → Reg → Word → Instr} (hv : immS imms (0#0) = v) : (encFix page major f none imms a b 0).brRow k = some (k a b v) := by
  simp [Chain.brRow, keep, hv]

theorem jRow_encJ {k : Word → Instr} (hv : immS imms j = v) : (encJ page major imms j).jRow k = some (k v) := by
  have hj : (encJ page major imms j).i11 = j := mkJ_i11 _ _
  simp only [Chain.jRow, hj]
  exact congrArg (fun v => some (k v)) hv

theorem fRow_encBin {k : Reg → Reg → Reg → FMod → Instr} {m : FMod} : (encBin page major f (modIf m.bits) d a b).fRow k = some (k d a b m) := by
  simp [Chain.fRow, fMod_bits, keep]

theorem fmRow_encBin {k : Reg → Reg → Reg → FTy → Instr} {ty : FTy} :
    (encBin page major f (modIf (FMod.bits ⟨0, ty, false⟩)) d a b).fmRow k = some (k d a b ty) := by
  simp [Chain.fmRow, modIf_getD, fTyOnly_bits, keep]

theorem fcRow_encFix {k : Reg → Reg → FTy → Instr} {ty : FTy} :
    (encFix page major f (modIf (FMod.bits ⟨0, ty, false⟩)) [] a b 0).fcRow k = some (k a b ty) := by
  simp [Chain.fcRow, fTyOnly_bits, keep]

/-! ### Rows of page 1 -/

theorem vm2Row_encFix {k : Reg → Reg → VMMod → Word → Instr} {m : VMMod} (hv : immS imms (0#0) = v) :
    (encFix page major f (modIf m.bits) imms a b 0).vm2Row k = some (k a b m v) := by
  simp [Chain.vm2Row, vmMod_bits, keep, hv]

theorem vm3Row_encFix {k : Reg → Reg → Reg → VMMod → Word → Instr} {m : VMMod} (hv : immS imms (0#0) = v) :
    (encFix page major f (modIf m.bits) imms a b c).vm3Row k = some (k a b c m v) := by
  simp [Chain.vm3Row, vmMod_bits, keep, hv]

theorem vRow_encBin {k : Reg → Reg → Reg → VMod → Instr} {m : VMod} : (encBin page major f (modIf m.bits) d a b).vRow k = some (k d a b m) := by
  simp [Chain.vRow, vMod_bits, keep]

theorem vfixRow_encFix {k : Reg → Reg → Reg → VMod → Instr} {m : VMod} :
    (encFix page major f (modIf m.bits) [] a b c).vfixRow k = some (k a b c m) := by
  simp [Chain.vfixRow, vMod_bits, keep]

/-- A mask's three bits in a register's field. -/
theorem mask_field (q : KReg) : bit (q.setWidth 4) 3 = false ∧ (q.setWidth 4).setWidth 3 = q := by revert q; decide

theorem vcmpRow_encVcmp {k : KReg → Reg → Reg → VMod → Instr} {q : KReg} {m : VMod} : (encVcmp f q b c m).vcmpRow k = some (k q b c m) := by
  rw [encVcmp_eq]
  simp [Chain.vcmpRow, vMod_bits, keep, high_mask, lo4_mask, mask_field]

theorem kRow_encK {k : KReg → KReg → KReg → Instr} {q r t : KReg} : (encK f q r t).kRow k = some (k q r t) := by
  have hc : (t.setWidth 5).extractLsb' 3 2 = 0 ∧ (t.setWidth 5).setWidth 3 = t := by revert t; decide
  rw [encK_eq]
  simp only [Chain.kRow, Chain.kbOk, encFix_regOk, encFix_noMod, encFix_noImm, encFix_ahZero, encFix_bhZero, encFix_fa, encFix_fb, encFix_rc,
    lo4_mask, high_mask, mask_field, hc]
  rfl

theorem kxRow_encFix {k : Reg → KReg → Instr} {q : KReg} : (encFix page major f none [] a (q.setWidth 5) 0).kxRow k = some (k a q) := by
  simp [Chain.kxRow, Chain.kbOk, keep, high_mask, lo4_mask, mask_field]

theorem blockRow_encFix {k : Reg → Reg → BlockTy → Instr} {bt : BlockTy} :
    (encFix page major f (modIf (bt.code ++ 0#5)) [] a b 0).blockRow k = some (k a b bt) := by
  simp only [Chain.blockRow, encFix_mp, modIf_getD, block_bits, encFix_unOk, encFix_noImm, encFix_ra, encFix_rb]
  rfl

/-! ### Rows of pages 2 to 5 -/

theorem mmaRow_encMma {k : Reg → HReg → Bool → BitVec 4 → Instr} {h : HReg} {asrc : Bool} {fmt : BitVec 4} (hfmt : fmt.toNat < 13) :
    (encMma f a h asrc fmt).mmaRow k = some (k a h asrc fmt) := by
  rw [encMma_eq]
  simp only [Chain.mmaRow, encFix_mp, modIf_getD, mma_bits, encFix_unOk, encFix_noImm, encFix_bhZero, encFix_ra, encFix_fb, high_handle, lo4_handle,
    decide_eq_true hfmt]
  rfl

theorem aRow_encFix {k : Reg → Instr} : (encFix page major f none [] a 0 0).aRow k = some (k a) := by simp [Chain.aRow, keep]

theorem amoRow_encFix {k : Reg → Reg → Reg → AtomMod → Instr} {m : AtomMod} :
    (encFix page major f (modIf m.bits) [] a b c).amoRow k = some (k a b c m) := by
  simp [Chain.amoRow, atomMod_bits, keep]

theorem redRow_encRed {k : Reg → Reg → Bool → Space → Instr} {wide : Bool} {space : Space} :
    (encRed f a b wide space).redRow k = some (k a b wide space) := by
  simp only [encRed, Chain.redRow, encFix_mp, modIf_getD, red_bits, encFix_unOk, encFix_noImm, encFix_ra, encFix_rb]
  rfl

theorem redFRow_encRed {k : Reg → Reg → Space → Instr} {space : Space} : (encRed f a b false space).redFRow k = some (k a b space) := by
  simp only [encRed, Chain.redFRow, encFix_mp, modIf_getD, red_bits, encFix_unOk, encFix_noImm, encFix_ra, encFix_rb, (red_bits false space).2.2 rfl]
  rfl

theorem abRow_encFix {k : Reg → Reg → Instr} : (encFix page major f none [] a b 0).abRow k = some (k a b) := by simp [Chain.abRow, keep]

theorem abcRow_encFix {k : Reg → Reg → Reg → Instr} : (encFix page major f none [] a b c).abcRow k = some (k a b c) := by simp [Chain.abcRow, keep]

theorem bareRow_encFix {x : Instr} : (encFix page major f none [] 0 0 0).bareRow x = some x := by simp [Chain.bareRow, keep]

theorem qlRow_encFix {k : Reg → Reg → Reg → Bool → Instr} {scr : Bool} :
    (encFix page major f (modIf (0#8 ++ one scr)) [] a b c).qlRow k = some (k a b c scr) := by
  simp only [Chain.qlRow, encFix_mp, modIf_getD, one_bits, encFix_regOk, encFix_noImm, encFix_ra, encFix_rb, encFix_rc]
  rfl

theorem ql0Row_encFix {k : Reg → Reg → Reg → Instr} : (encFix page major f none [] a b c).ql0Row k = some (k a b c) := by simp [Chain.ql0Row, keep]

end Rows

end Sys2Proof
end
section
/-! PROOF. Every chain that the encoder writes is decoded as the instruction that it was written for (R269 to R294). -/

namespace Sys2Proof

/-- The chain of an instruction, where it has one, is read as the instruction, and the scan can read it. -/
def Instr.Decodes (i : Instr) : Prop := ∀ c, encodeChain i = some c → rawChain c = some i ∧ c.Fits

/-- A chain whose row of the map gives the instruction. -/
theorem decodes_of {i : Instr} {c : Chain} {row : Option Instr} (henc : encodeChain i = some c) (hrow : rawChain c = row) (hi : row = some i)
    (hfits : c.Fits) : i.Decodes := by
  intro c' hc
  obtain rfl : c = c' := Option.some.inj (henc.symm.trans hc)
  exact ⟨hrow.trans hi, hfits⟩

section Pages
variable {c : Chain}

theorem rawChain_page0 (h : c.pageNum = some 0) : rawChain c = decodePage0 c := by unfold rawChain; rw [h]; rfl
theorem rawChain_page1 (h : c.pageNum = some 1) : rawChain c = decodePage1 c := by unfold rawChain; rw [h]; rfl
theorem rawChain_page2 (h : c.pageNum = some 2) : rawChain c = decodePage2 c := by unfold rawChain; rw [h]; rfl
theorem rawChain_page3 (h : c.pageNum = some 3) : rawChain c = decodePage3 c := by unfold rawChain; rw [h]; rfl
theorem rawChain_page4 (h : c.pageNum = some 4) : rawChain c = decodePage4 c := by unfold rawChain; rw [h]; rfl
theorem rawChain_page5 (h : c.pageNum = some 5) : rawChain c = decodePage5 c := by unfold rawChain; rw [h]; rfl

end Pages

theorem immS_off {n : Nat} {v : Word} (hn : n ≤ 3) (h : fitsS n 0 v = true) : (immsS 0 v).length ≤ n ∧ immS (immsS 0 v) (0#0) = v := by
  have := immS_immsS hn h
  rwa [BitVec.of_length_zero (x := v.setWidth 0)] at this

theorem encFix_fits_ab {page : BitVec 9} {major : BitVec 5} {f : BitVec 3} {md : Option (BitVec 9)} {imms : List (BitVec 9)} {a b : Reg}
    (hmajor : major ≠ 31) (hlen : imms.length ≤ room (page != 0) (high a || high b) md.isSome) : (encFix page major f md imms a b 0).Fits :=
  encFix_fits hmajor (by simpa using hlen)

theorem encJ_major (page : BitVec 9) (major : BitVec 5) (imms : List (BitVec 9)) (j : BitVec 11) : (encJ page major imms j).major = major.toNat :=
  congrArg BitVec.toNat (mkJ_major _ _)

@[simp] theorem encJ_i11 (page : BitVec 9) (major : BitVec 5) (imms : List (BitVec 9)) (j : BitVec 11) : (encJ page major imms j).i11 = j := mkJ_i11 _ _

theorem encJ_fits {page : BitVec 9} {major : BitVec 5} {imms : List (BitVec 9)} {j : BitVec 11} (hmajor : major ≠ 31)
    (hlen : imms.length ≤ room (page != 0) false false) : (encJ page major imms j).Fits := by
  refine Chain.fits_of_room (isLead_mkJ hmajor _) ?_ (fun h => h) (fun h => h) hlen
  show (pg page).isSome = true → _
  unfold pg
  split <;> simp_all

/-! ### Rows of one instruction alone -/

section Singles
variable {c : Chain}

theorem decodePage0_jal (hmajor : c.major = 17) :
    decodePage0 c = keep (c.regOk && c.ahZero && c.bhZero && c.noMod) (.jal c.rc (immS c.imms c.i11)) := by
  unfold decodePage0
  rw [hmajor]
  rfl

theorem decodePage0_rdsr (hmajor : c.major = 25) :
    decodePage0 c = keep (c.riOk && c.rc == 0 && c.noMod) (.rdsr c.ra ((immU c.imms c.i7).setWidth 34)) := by
  unfold decodePage0
  rw [hmajor]
  rfl

theorem decodePage0_wrsr (hmajor : c.major = 26) :
    decodePage0 c = keep (c.riOk && c.rc == 0 && c.noMod) (.wrsr c.ra ((immU c.imms c.i7).setWidth 34)) := by
  unfold decodePage0
  rw [hmajor]
  rfl

theorem decodePage0_hint (hmajor : c.major = 30) :
    decodePage0 c = some (.hint c.i11) := by
  unfold decodePage0
  rw [hmajor]
  rfl

theorem decodePage1_setvl (hmajor : c.major = 1) (hff : c.ff = 0) :
    decodePage1 c = keep (c.unOk && c.noImm && c.mp.extractLsb' 6 3 == 0) (.setvl c.ra c.rb (c.mp.setWidth 6)) := by
  unfold decodePage1
  rw [hmajor, hff]
  rfl

theorem decodePage1_vsqrt (hmajor : c.major = 6) (hff : c.ff = 2) :
    decodePage1 c = keep (c.sqrtOk && c.noImm) (.vsqrt c.ra c.s2 (vMod c.mp)) := by
  unfold decodePage1
  rw [hmajor, hff]
  rfl

theorem decodePage1_vnarrow (hmajor : c.major = 7) (hff : c.ff = 2) :
    decodePage1 c = keep (c.unOk && c.noImm && !bit c.mp 0) (.vnarrow c.ra c.rb (c.mp.extractLsb' 5 4) (c.mp.extractLsb' 2 3) (bit c.mp 1)) := by
  unfold decodePage1
  rw [hmajor, hff]
  rfl

theorem decodePage1_vcvt (hmajor : c.major = 7) (hff : c.ff = 3) :
    decodePage1 c = keep (c.unOk && c.noImm) (.vcvt c.ra c.rb (c.mp.extractLsb' 5 4) (c.mp.extractLsb' 1 4) (bit c.mp 0)) := by
  unfold decodePage1
  rw [hmajor, hff]
  rfl

theorem decodePage1_vmnot (hmajor : c.major = 10) (hff : c.ff = 2) :
    decodePage1 c = keep (c.unOk && c.noMod && c.noImm && c.ahZero && !bit c.fa 3 && c.kbOk) (.vmnot (c.fa.setWidth 3) (c.fb.setWidth 3)) := by
  unfold decodePage1
  rw [hmajor, hff]
  rfl

theorem decodePage1_vcompress (hmajor : c.major = 11) (hff : c.ff = 4) :
    decodePage1 c = keep (c.unOk && c.noImm) (.vcompress c.ra c.rb (vMod c.mp)) := by
  unfold decodePage1
  rw [hmajor, hff]
  rfl

theorem decodePage2_cbCfg (hmajor : c.major = 1) (hff : c.ff = 0) :
    decodePage2 c = keep (c.unOk && c.noMod && c.noImm && c.ahZero) (.cbCfg c.fa c.rb) := by
  unfold decodePage2
  rw [hmajor, hff]
  rfl

theorem decodePage2_cbAdvP (hmajor : c.major = 2) :
    decodePage2 c = keep (c.noReg && c.noMod) (.cbAdvP c.fa ((immU c.imms c.i7).setWidth 34)) := by
  unfold decodePage2
  rw [hmajor]
  rfl

theorem decodePage2_cbAdvC (hmajor : c.major = 3) :
    decodePage2 c = keep (c.noReg && c.noMod) (.cbAdvC c.fa ((immU c.imms c.i7).setWidth 34)) := by
  unfold decodePage2
  rw [hmajor]
  rfl

theorem decodePage2_mxCfg (hmajor : c.major = 4) (hff : c.ff = 0) :
    decodePage2 c = keep (c.unOk && c.noImm && c.bZero && c.mp.extractLsb' 1 8 == 0) (.mxCfg c.ra (bit c.mp 0)) := by
  unfold decodePage2
  rw [hmajor, hff]
  rfl

theorem decodePage2_ltLoad (hmajor : c.major = 8) (hff : c.ff = 0) :
    decodePage2 c = keep (c.unOk && c.noImm && c.mp == 0) (.ltLoad c.ra c.rb) := by
  unfold decodePage2
  rw [hmajor, hff]
  rfl

theorem decodePage2_ltRot (hmajor : c.major = 8) (hff : c.ff = 1) :
    decodePage2 c = keep (c.unOk && c.noImm && c.mp == 0 && c.bZero) (.ltRot c.ra) := by
  unfold decodePage2
  rw [hmajor, hff]
  rfl

theorem decodePage3_fence (hmajor : c.major = 7) :
    decodePage3 c = keep (c.plain && c.i11.extractLsb' 3 8 == 0) (.fence (c.i11.setWidth 3)) := by
  unfold decodePage3
  rw [hmajor]
  rfl

theorem decodePage3_fenceX (hmajor : c.major = 8) :
    decodePage3 c = keep c.plain (.fenceX (c.i11.extractLsb' 0 4) (c.i11.extractLsb' 4 4) (c.i11.extractLsb' 8 3)) := by
  unfold decodePage3
  rw [hmajor]
  rfl

theorem decodePage3_wait (hmajor : c.major = 11) :
    decodePage3 c = keep (c.regOk && c.noMod) (.wait c.ra c.rb c.rc (bit c.base 2) (c.base.extractLsb' 0 2) c.off) := by
  unfold decodePage3
  rw [hmajor]
  rfl

theorem decodePage3_barArrive (hmajor : c.major = 12) (hff : c.ff = 0) :
    decodePage3 c = keep (c.unOk && c.noMod) (.barArrive c.ra c.rb ((immU c.imms (0#0)).setWidth 27)) := by
  unfold decodePage3
  rw [hmajor, hff]
  rfl

theorem decodePage3_gbSync (hmajor : c.major = 13) :
    decodePage3 c = keep (c.plain && c.i7.extractLsb' 3 4 == 0) (.gbSync c.fa (c.i7.setWidth 3)) := by
  unfold decodePage3
  rw [hmajor]
  rfl

theorem decodePage4_qlPub (hmajor : c.major = 6) (hff : c.ff = 2) :
    decodePage4 c = keep (c.unOk && c.noImm && c.mp.extractLsb' 1 8 == 0) (.qlPub c.ra c.rb (bit c.mp 0)) := by
  unfold decodePage4
  rw [hmajor, hff]
  rfl

theorem decodePage4_hlFilt (hmajor : c.major = 7) (hff : c.ff = 1) :
    decodePage4 c = keep (c.regOk && c.noMod && (immU c.imms (0#0)).toNat < 128) (.hlFilt c.ra c.rb c.rc ((immU c.imms (0#0)).setWidth 7)) := by
  unfold decodePage4
  rw [hmajor, hff]
  rfl

theorem decodePage0_fsqrt (hmajor : c.major = 22) (hff : c.ff = 7) {m : FMod} (hm : fMod c.mp = some m) :
    decodePage0 c = keep (c.sqrtOk && c.noImm) (.fsqrt c.ra c.s2 m) := by
  unfold decodePage0
  rw [hmajor, hff]
  show (match fMod c.mp with | some m => keep (c.sqrtOk && c.noImm) (Instr.fsqrt c.ra c.s2 m) | none => none) = _
  rw [hm]

theorem decodePage0_fcvt (hmajor : c.major = 23) (hff : c.ff = 0) {d s : CvtTy} (hd : cvtOf (c.mp.extractLsb' 3 3) = some d)
    (hs : cvtOf (c.mp.extractLsb' 0 3) = some s) :
    decodePage0 c = keep (c.unOk && c.noImm) (.fcvt c.ra c.rb d s (c.mp.extractLsb' 6 3)) := by
  unfold decodePage0
  rw [hmajor, hff]
  show (match cvtOf (c.mp.extractLsb' 3 3), cvtOf (c.mp.extractLsb' 0 3) with | some d, some s => keep (c.unOk && c.noImm) (Instr.fcvt c.ra c.rb d s (c.mp.extractLsb' 6 3)) | _, _ => none) = _
  rw [hd, hs]

theorem decodePage1_vmv (hmajor : c.major = 11) (hff : c.ff = 5) {form : MvForm} (hform : mvOf (c.mp.extractLsb' 0 2) = some form) :
    decodePage1 c = keep (c.unOk && c.noImm) (.vmv c.ra c.rb (c.mp.extractLsb' 5 4) (c.mp.extractLsb' 2 3) form) := by
  unfold decodePage1
  rw [hmajor, hff]
  show (match mvOf (c.mp.extractLsb' 0 2) with | some m => keep (c.unOk && c.noImm) (Instr.vmv c.ra c.rb (c.mp.extractLsb' 5 4) (c.mp.extractLsb' 2 3) m) | none => none) = _
  rw [hform]

theorem decodePage2_mxZero (hmajor : c.major = 5) {k : Cols} (hk : colsOf (c.mp.extractLsb' 0 2) = some k) :
    decodePage2 c = keep (c.noReg && c.noImm && c.i11 == 0 && c.mp.extractLsb' 2 7 == 0) (.mxZero k) := by
  unfold decodePage2
  rw [hmajor]
  show (match colsOf (c.mp.extractLsb' 0 2) with | some k => keep (c.noReg && c.noImm && c.i11 == 0 && c.mp.extractLsb' 2 7 == 0) (Instr.mxZero k) | none => none) = _
  rw [hk]

theorem decodePage2_mxDrain (hmajor : c.major = 7) (hff : c.ff = 0) {s : Space} {k : Cols} (hs : spaceOf (c.mp.extractLsb' 3 2) = some s)
    (hk : colsOf (c.mp.extractLsb' 0 2) = some k) :
    decodePage2 c = keep c.unOk (.mxDrain c.ra c.rb c.off (c.mp.extractLsb' 5 4) s (bit c.mp 2) k) := by
  unfold decodePage2
  rw [hmajor, hff]
  show (match spaceOf (c.mp.extractLsb' 3 2), colsOf (c.mp.extractLsb' 0 2) with | some s, some k => keep c.unOk (Instr.mxDrain c.ra c.rb c.off (c.mp.extractLsb' 5 4) s (bit c.mp 2) k) | _, _ => none) = _
  rw [hs, hk]

theorem decodePage3_ld (hmajor : c.major = 1) {m : MemMod} (hm : memMod c.mp = some m) :
    decodePage3 c = keep (c.unOk && !bit c.base 2) (.ld c.ra c.rb (c.base.extractLsb' 0 2) m c.off) := by
  unfold decodePage3
  rw [hmajor]
  show (match memMod c.mp with | some m => keep (c.unOk && !bit c.base 2) (Instr.ld c.ra c.rb (c.base.extractLsb' 0 2) m c.off) | none => none) = _
  rw [hm]

theorem decodePage3_st (hmajor : c.major = 2) {m : MemMod} (hm : memMod c.mp = some m) :
    decodePage3 c = keep (c.unOk && !bit c.base 2) (.st c.ra c.rb (c.base.extractLsb' 0 2) m c.off) := by
  unfold decodePage3
  rw [hmajor]
  show (match memMod c.mp with | some m => keep (c.unOk && !bit c.base 2) (Instr.st c.ra c.rb (c.base.extractLsb' 0 2) m c.off) | none => none) = _
  rw [hm]

end Singles

/-! ### Immediates of one instruction alone -/

/-- A register number or a count of 34 bits needs no more than three IMM words. -/
theorem immU_count (n : BitVec 34) : (immsU 7 (n.setWidth 64)).length ≤ 3 ∧ (immU (immsU 7 (n.setWidth 64)) (n.setWidth 7)).setWidth 34 = n := by
  have hn : (n.setWidth 64).toNat = n.toNat := by
    rw [BitVec.toNat_setWidth]
    omega
  obtain ⟨hlen, hv⟩ := immU_immsU (w := 7) (v := n.setWidth 64) (n := 3) (le_refl _) (by
    simp only [fitsU, hn, decide_eq_true_eq]
    omega)
  refine ⟨hlen, ?_⟩
  rw [BitVec.setWidth_setWidth_of_le _ (by decide)] at hv
  rw [hv, BitVec.setWidth_setWidth_of_le _ (by decide), BitVec.setWidth_eq]

theorem immU_off {n : Nat} {v : Word} (hn : n ≤ 3) (h : fitsU n 0 v.toNat = true) : (immsU 0 v).length ≤ n ∧ immU (immsU 0 v) (0#0) = v := by
  have := immU_immsU hn h
  rwa [BitVec.of_length_zero (x := v.setWidth 0)] at this

section Fields
variable (p q : BitVec 4) (scope k : BitVec 3) (size n : BitVec 2) (all : Bool) (e : BitVec 8)

theorem fenceX_fields : ((scope ++ (q ++ p) : BitVec 11).extractLsb' 0 4 = p) ∧ ((scope ++ (q ++ p) : BitVec 11).extractLsb' 4 4 = q) ∧
    ((scope ++ (q ++ p) : BitVec 11).extractLsb' 8 3 = scope) :=
  ⟨(BitVec.extractLsb'_append_eq_of_add_le (xhi := scope) (by decide)).trans (BitVec.extractLsb'_append_eq_right (a := q)),
    (BitVec.extractLsb'_append_eq_of_add_le (xhi := scope) (by decide)).trans (BitVec.extractLsb'_append_eq_left (b := p)),
    BitVec.extractLsb'_append_eq_left (b := q ++ p)⟩

theorem fence_fields : (scope.setWidth 11).extractLsb' 3 8 = 0#8 ∧ (scope.setWidth 11).setWidth 3 = scope := by revert scope; decide

theorem gbSync_fields : (k.setWidth 7).extractLsb' 3 4 = 0#4 ∧ (k.setWidth 7).setWidth 3 = k := by revert k; decide

theorem trap_fields : (2#3 ++ e : BitVec 11).extractLsb' 8 3 = 2#3 ∧ (2#3 ++ e : BitVec 11).setWidth 8 = e :=
  ⟨BitVec.extractLsb'_append_eq_left (b := e), BitVec.setWidth_append_eq_right (a := 2#3)⟩

end Fields

/-- The low bits of a word are those of its f field. -/
theorem low_fields (v : Half) : bit v 2 = bit (v.extractLsb' 0 3) 2 ∧ v.extractLsb' 0 2 = (v.extractLsb' 0 3).extractLsb' 0 2 := by
  refine ⟨by simp [bit, BitVec.getLsbD_extractLsb'], BitVec.eq_of_getLsbD_eq fun i hi => ?_⟩
  simp only [BitVec.getLsbD_extractLsb', Nat.zero_add, hi, decide_true, Bool.true_and, decide_eq_true (show i < 3 by omega)]

/-- The f field of a fixed form as the low bits of its base word. -/
theorem encFix_base_low (page : BitVec 9) (major : BitVec 5) (f : BitVec 3) (md : Option (BitVec 9)) (imms : List (BitVec 9)) (a b c : Reg) :
    bit (encFix page major f md imms a b c).base 2 = bit f 2 ∧ (encFix page major f md imms a b c).base.extractLsb' 0 2 = f.extractLsb' 0 2 := by
  have h := low_fields (encFix page major f md imms a b c).base
  rwa [encFix_base_ff] at h

theorem decodePage5_trap {c : Chain} (hmajor : c.major = 2) (hplain : c.plain = true) (hkind : (c.i11.extractLsb' 8 3).toNat = 2) :
    decodePage5 c = some (.trap (c.i11.setWidth 8)) := by
  unfold decodePage5
  rw [hmajor, hplain, hkind]
  rfl

theorem size_fields (size : BitVec 2) : bit (size.setWidth 3) 2 = false ∧ (size.setWidth 3).extractLsb' 0 2 = size := by revert size; decide

section H
variable (major : BitVec 5) (h : HReg) (n : BitVec 34)

theorem encH_major : (encH major h n).major = major.toNat := congrArg BitVec.toNat (mkRI_major _ _ _)
theorem encH_fa : (encH major h n).fa = h := mkRI_fa _ _ _
theorem encH_i7 : (encH major h n).i7 = n.setWidth 7 := mkRI_i7 _ _ _
theorem encH_imms : (encH major h n).imms = immsU 7 (n.setWidth 64) := rfl

variable {major h n}

theorem encH_fits (hmajor : major ≠ 31) (hlen : (immsU 7 (n.setWidth 64)).length ≤ 3) : (encH major h n).Fits :=
  Chain.fits_of_room (p := true) (r := false) (m := false) (isLead_mkRI hmajor _ _) (fun _ => rfl) (fun h => h) (fun h => h) hlen

end H

/-! ### Instructions with a row of their own -/

theorem decodes_jal (link : Reg) (off : Word) (hwf : (Instr.jal link off).wf = true) : (Instr.jal link off).Decodes := by
  obtain ⟨hlen, hv⟩ := immS_immsS (room_le ..) hwf
  have hrp : (regIf (link != 0#5) (regBits 0#5 0#5 link)).getD 0#9 = regBits 0#5 0#5 link := regIf_getD fun h => by rw [bne_eq_false_iff_eq.mp h]; rfl
  refine decodes_of rfl ((rawChain_page0 rfl).trans (decodePage0_jal (congrArg BitVec.toNat (mkJ_major _ _)))) ?_
    (Chain.fits_of_room (isLead_mkJ (by decide) _) (fun h => h) regIf_isSome (fun h => h) hlen)
  simp [keep, Chain.regOk, Chain.ahZero, Chain.bhZero, Chain.noMod, Chain.rc, Chain.rp, Chain.i11, hrp, hv]

theorem decodes_fsqrt (d s : Reg) (m : FMod) : (Instr.fsqrt d s m).Decodes := by
  obtain ⟨hd, hs, hok⟩ := encSqrt_regs 0 22 7 (modIf m.bits) d s
  refine decodes_of rfl ((rawChain_page0 (encSqrt_pageNum ..)).trans (decodePage0_fsqrt (encSqrt_major ..) (encSqrt_ff ..) (m := m) ?_)) ?_
    (encSqrt_fits _ _ _ _ _ _ (by decide))
  · rw [encSqrt_mp, modIf_getD, fMod_bits]
  · rw [hd, hs, hok, encSqrt_noImm]
    rfl

theorem decodes_vsqrt (d s : Reg) (m : VMod) : (Instr.vsqrt d s m).Decodes := by
  obtain ⟨hd, hs, hok⟩ := encSqrt_regs 1 6 2 (modIf m.bits) d s
  refine decodes_of rfl ((rawChain_page1 (encSqrt_pageNum ..)).trans (decodePage1_vsqrt (encSqrt_major ..) (encSqrt_ff ..))) ?_
    (encSqrt_fits _ _ _ _ _ _ (by decide))
  rw [hd, hs, hok, encSqrt_noImm, encSqrt_mp, modIf_getD, vMod_bits]
  rfl

theorem decodes_fcvt (d s : Reg) (dst src : CvtTy) (rm : BitVec 3) : (Instr.fcvt d s dst src rm).Decodes := by
  obtain ⟨hdst, hsrc, hrm⟩ := cvt_bits rm dst src
  refine decodes_of rfl ((rawChain_page0 rfl).trans (decodePage0_fcvt (encFix_major ..) (encFix_ff ..) (d := dst) (s := src) ?_ ?_)) ?_
    (encFix_fits_short (by decide))
  · rw [encFix_mp, modIf_getD, hdst]
  · rw [encFix_mp, modIf_getD, hsrc]
  · simp [keep, hrm]

theorem decodes_rdsr (d : Reg) (num : BitVec 34) : (Instr.rdsr d num).Decodes := by
  obtain ⟨hlen, hv⟩ := immU_count num
  refine decodes_of rfl ((rawChain_page0 rfl).trans (decodePage0_rdsr (encA7_major ..))) ?_
    (encA7_fits _ _ _ _ (by decide) (hlen.trans (by cases high d <;> decide)))
  simp [keep, hv]

theorem decodes_wrsr (s : Reg) (num : BitVec 34) : (Instr.wrsr s num).Decodes := by
  obtain ⟨hlen, hv⟩ := immU_count num
  refine decodes_of rfl ((rawChain_page0 rfl).trans (decodePage0_wrsr (encA7_major ..))) ?_
    (encA7_fits _ _ _ _ (by decide) (hlen.trans (by cases high s <;> decide)))
  simp [keep, hv]

theorem decodes_hint (e : BitVec 11) : (Instr.hint e).Decodes := by
  exact decodes_of rfl ((rawChain_page0 rfl).trans (decodePage0_hint (encJ_major ..))) (by rw [encJ_i11]) (encJ_fits (by decide) (Nat.zero_le _))

theorem decodes_setvl (d s : Reg) (shape : BitVec 6) : (Instr.setvl d s shape).Decodes := by
  exact decodes_of rfl ((rawChain_page1 rfl).trans (decodePage1_setvl (encFix_major ..) (encFix_ff ..))) (by simp [keep, shape_bits])
    (encFix_fits_short (by decide))

theorem decodes_vnarrow (d s : Reg) (ty : BitVec 4) (mask : KReg) (sat : Bool) : (Instr.vnarrow d s ty mask sat).Decodes := by
  obtain ⟨hty, hmask, hsat, hlow⟩ := vnarrow_bits ty mask sat
  refine decodes_of rfl ((rawChain_page1 rfl).trans (decodePage1_vnarrow (encFix_major ..) (encFix_ff ..))) ?_ (encFix_fits_short (by decide))
  rw [encFix_mp, modIf_getD, hty, hmask, hsat, hlow, encFix_unOk, encFix_noImm, encFix_ra, encFix_rb]
  rfl

theorem decodes_vcvt (d s : Reg) (dst src : BitVec 4) (sat : Bool) : (Instr.vcvt d s dst src sat).Decodes := by
  obtain ⟨hdst, hsrc, hsat⟩ := vcvt_bits dst src sat
  refine decodes_of rfl ((rawChain_page1 rfl).trans (decodePage1_vcvt (encFix_major ..) (encFix_ff ..))) ?_ (encFix_fits_short (by decide))
  rw [encFix_mp, modIf_getD, hdst, hsrc, hsat, encFix_unOk, encFix_noImm, encFix_ra, encFix_rb]
  rfl

theorem decodes_vmnot (k kb : KReg) : (Instr.vmnot k kb).Decodes := by
  refine decodes_of (congrArg some (encK_eq 2 k kb 0)) ((rawChain_page1 rfl).trans (decodePage1_vmnot (encFix_major ..) (encFix_ff ..))) ?_
    (encFix_fits_short (by decide))
  simp [keep, Chain.kbOk, high_mask, lo4_mask, mask_field]

theorem decodes_vcompress (d b : Reg) (m : VMod) : (Instr.vcompress d b m).Decodes := by
  exact decodes_of rfl ((rawChain_page1 rfl).trans (decodePage1_vcompress (encFix_major ..) (encFix_ff ..))) (by simp [keep, vMod_bits])
    (encFix_fits_short (by decide))

theorem decodes_vmv (d s : Reg) (ty : BitVec 4) (mask : KReg) (form : MvForm) : (Instr.vmv d s ty mask form).Decodes := by
  obtain ⟨hty, hmask, hform⟩ := vmv_bits ty mask form
  refine decodes_of rfl ((rawChain_page1 rfl).trans (decodePage1_vmv (encFix_major ..) (encFix_ff ..) (form := form) ?_)) ?_
    (encFix_fits_short (by decide))
  · rw [encFix_mp, modIf_getD, hform]
  · rw [encFix_mp, modIf_getD, hty, hmask, encFix_unOk, encFix_noImm, encFix_ra, encFix_rb]
    rfl

theorem decodes_cbCfg (h : HReg) (b : Reg) : (Instr.cbCfg h b).Decodes := by
  refine decodes_of (congrArg some (encCbCfg_eq h b)) ((rawChain_page2 rfl).trans (decodePage2_cbCfg (encFix_major ..) (encFix_ff ..))) ?_
    (encFix_fits_short (by decide))
  simp [keep, high_handle, lo4_handle]

theorem decodes_cbAdvP (h : HReg) (n : BitVec 34) : (Instr.cbAdvP h n).Decodes := by
  obtain ⟨hlen, hv⟩ := immU_count n
  refine decodes_of rfl ((rawChain_page2 rfl).trans (decodePage2_cbAdvP (encH_major ..))) ?_ (encH_fits (by decide) hlen)
  rw [encH_fa, encH_i7, encH_imms, hv]
  rfl

theorem decodes_cbAdvC (h : HReg) (n : BitVec 34) : (Instr.cbAdvC h n).Decodes := by
  obtain ⟨hlen, hv⟩ := immU_count n
  refine decodes_of rfl ((rawChain_page2 rfl).trans (decodePage2_cbAdvC (encH_major ..))) ?_ (encH_fits (by decide) hlen)
  rw [encH_fa, encH_i7, encH_imms, hv]
  rfl

theorem decodes_mxCfg (a : Reg) (zero : Bool) : (Instr.mxCfg a zero).Decodes := by
  obtain ⟨hlow, hzero⟩ := one_bits zero
  refine decodes_of rfl ((rawChain_page2 rfl).trans (decodePage2_mxCfg (encFix_major ..) (encFix_ff ..))) ?_ (encFix_fits_short (by decide))
  rw [encFix_mp, modIf_getD, hlow, hzero, encFix_unOk, encFix_noImm, encFix_bZero, encFix_ra]
  rfl

theorem decodes_mxZero (cols : Cols) : (Instr.mxZero cols).Decodes := by
  obtain ⟨hcols, hlow⟩ := cols_bits cols
  have hmajor : (⟨pg 2, none, modIf (0#7 ++ cols.code), [], mkJ 5 0⟩ : Chain).major = 5 := congrArg BitVec.toNat (mkJ_major 5 0)
  have hi : (⟨pg 2, none, modIf (0#7 ++ cols.code), [], mkJ 5 0⟩ : Chain).i11 = 0 := mkJ_i11 5 0
  have hmp : (⟨pg 2, none, modIf (0#7 ++ cols.code), [], mkJ 5 0⟩ : Chain).mp = 0#7 ++ cols.code := modIf_getD _
  refine decodes_of rfl (rawChain_page2 rfl) ((decodePage2_mxZero hmajor (k := cols) (by rw [hmp, hcols])).trans ?_)
    (Chain.fits_of_short (isLead_mkJ (by decide) _) rfl)
  rw [hmp, hlow, hi]
  rfl

/-- No drain that is well-formed leaves out its MOD prefix. -/
theorem drain_mod {fmt : BitVec 4} {space : Space} {zero : Bool} {cols : Cols} (hglob : space ≠ .glob) :
    (modIf (fmt ++ (space.code ++ (one zero ++ cols.code)))).isSome = true := by
  cases space with
  | glob => exact absurd rfl hglob
  | tcm => cases cols <;> revert fmt zero <;> decide
  | scr => cases cols <;> revert fmt zero <;> decide

theorem decodes_mxDrain (a b : Reg) (imm : Word) (fmt : BitVec 4) (space : Space) (zero : Bool) (cols : Cols) (hwf : (Instr.mxDrain a b imm fmt space zero cols).wf = true) : (Instr.mxDrain a b imm fmt space zero cols).Decodes := by
  obtain ⟨hspace, hcols, hfmt, hzero⟩ := drain_bits fmt space zero cols
  obtain ⟨hok, hfits⟩ := Bool.and_eq_true_iff.mp hwf
  obtain ⟨hlen, hv⟩ := immS_off (room_le ..) hfits
  have hmod : (modIf (fmt ++ (space.code ++ (one zero ++ cols.code)))).isSome = true := by
    have hglob : space ≠ .glob := by simpa using (Bool.and_eq_true_iff.mp hok).2
    exact drain_mod hglob
  refine decodes_of rfl ((rawChain_page2 rfl).trans (decodePage2_mxDrain (encFix_major ..) (encFix_ff ..) (s := space) (k := cols) ?_ ?_)) ?_
    (encFix_fits_ab (by decide) (hmod ▸ hlen))
  · rw [encFix_mp, modIf_getD, hspace]
  · rw [encFix_mp, modIf_getD, hcols]
  · rw [encFix_mp, modIf_getD, hfmt, hzero, encFix_unOk, encFix_off, hv, encFix_ra, encFix_rb]
    rfl

theorem decodes_ltLoad (a b : Reg) : (Instr.ltLoad a b).Decodes := by
  exact decodes_of rfl ((rawChain_page2 rfl).trans (decodePage2_ltLoad (encFix_major ..) (encFix_ff ..))) (by simp [keep]) (encFix_fits_short (by decide))

theorem decodes_ltRot (a : Reg) : (Instr.ltRot a).Decodes := by
  exact decodes_of rfl ((rawChain_page2 rfl).trans (decodePage2_ltRot (encFix_major ..) (encFix_ff ..))) (by simp [keep]) (encFix_fits_short (by decide))

theorem decodes_ld (a b : Reg) (size : BitVec 2) (m : MemMod) (imm : Word) (hwf : (Instr.ld a b size m imm).wf = true) : (Instr.ld a b size m imm).Decodes := by
  obtain ⟨hbit, hlow⟩ := encFix_base_low 3 1 (size.setWidth 3) (modIf m.bits) (immsS 0 imm) a b 0
  obtain ⟨hlen, hv⟩ := immS_off (room_le ..) (Bool.and_eq_true_iff.mp hwf).2
  refine decodes_of rfl ((rawChain_page3 rfl).trans (decodePage3_ld (encFix_major ..) (m := m) ?_)) ?_
    (encFix_fits_ab (by decide) (memMod_needed m ▸ hlen))
  · rw [encFix_mp, modIf_getD, memMod_bits]
  · rw [hbit, hlow, (size_fields size).1, (size_fields size).2, encFix_unOk, encFix_off, hv, encFix_ra, encFix_rb]
    rfl

theorem decodes_st (a b : Reg) (size : BitVec 2) (m : MemMod) (imm : Word) (hwf : (Instr.st a b size m imm).wf = true) : (Instr.st a b size m imm).Decodes := by
  obtain ⟨hbit, hlow⟩ := encFix_base_low 3 2 (size.setWidth 3) (modIf m.bits) (immsS 0 imm) a b 0
  obtain ⟨hlen, hv⟩ := immS_off (room_le ..) (Bool.and_eq_true_iff.mp hwf).2
  refine decodes_of rfl ((rawChain_page3 rfl).trans (decodePage3_st (encFix_major ..) (m := m) ?_)) ?_
    (encFix_fits_ab (by decide) (memMod_needed m ▸ hlen))
  · rw [encFix_mp, modIf_getD, memMod_bits]
  · rw [hbit, hlow, (size_fields size).1, (size_fields size).2, encFix_unOk, encFix_off, hv, encFix_ra, encFix_rb]
    rfl

theorem decodes_fence (scope : BitVec 3) : (Instr.fence scope).Decodes := by
  refine decodes_of rfl ((rawChain_page3 rfl).trans (decodePage3_fence (encJ_major ..))) ?_ (encJ_fits (by decide) (Nat.zero_le _))
  rw [encJ_i11, (fence_fields scope).1, (fence_fields scope).2]
  rfl

theorem decodes_fenceX (p q : BitVec 4) (scope : BitVec 3) : (Instr.fenceX p q scope).Decodes := by
  obtain ⟨hp, hq, hscope⟩ := fenceX_fields p q scope
  refine decodes_of rfl ((rawChain_page3 rfl).trans (decodePage3_fenceX (encJ_major ..))) ?_ (encJ_fits (by decide) (Nat.zero_le _))
  rw [encJ_i11, hp, hq, hscope]
  rfl

theorem decodes_icsync : (Instr.icsync).Decodes := by
  exact decodes_of rfl (rawChain_page3 rfl) rfl (encJ_fits (by decide) (Nat.zero_le _))

theorem decodes_wait (a b c : Reg) (all : Bool) (n : BitVec 2) (imm : Word) (hwf : (Instr.wait a b c all n imm).wf = true) : (Instr.wait a b c all n imm).Decodes := by
  obtain ⟨hbit, hlow⟩ := encFix_base_low 3 11 (one all ++ n) none (immsS 0 imm) a b c
  have hf : bit (one all ++ n : BitVec 3) 2 = all ∧ (one all ++ n : BitVec 3).extractLsb' 0 2 = n := by
    clear hbit hlow hwf
    revert all n
    decide
  obtain ⟨hlen, hv⟩ := immS_off (room_le ..) hwf
  refine decodes_of rfl ((rawChain_page3 rfl).trans (decodePage3_wait (encFix_major ..))) ?_ (encFix_fits (by decide) hlen)
  rw [hbit, hlow, hf.1, hf.2, encFix_regOk, encFix_noMod, encFix_off, hv, encFix_ra, encFix_rb, encFix_rc]
  rfl

theorem decodes_barArrive (a b : Reg) (n : BitVec 27) (hwf : (Instr.barArrive a b n).wf = true) : (Instr.barArrive a b n).Decodes := by
  have hn : (n.setWidth 64).toNat = n.toNat := by
    rw [BitVec.toNat_setWidth]
    omega
  obtain ⟨hlen, hv⟩ := immU_off (v := n.setWidth 64) (room_le ..) (by rw [hn]; exact hwf)
  refine decodes_of rfl ((rawChain_page3 rfl).trans (decodePage3_barArrive (encFix_major ..) (encFix_ff ..))) ?_ (encFix_fits_ab (by decide) hlen)
  rw [encFix_imms, hv, BitVec.setWidth_setWidth_of_le _ (by decide), BitVec.setWidth_eq, encFix_unOk, encFix_noMod, encFix_ra, encFix_rb]
  rfl

theorem decodes_gbSync (a : BitVec 4) (k : BitVec 3) : (Instr.gbSync a k).Decodes := by
  refine decodes_of rfl ((rawChain_page3 rfl).trans (decodePage3_gbSync (congrArg BitVec.toNat (mkRI_major _ _ _)))) ?_
    (Chain.fits_of_short (isLead_mkRI (by decide) _ _) rfl)
  simp [keep, Chain.plain, Chain.noReg, Chain.noMod, Chain.noImm, Chain.i7, Chain.fa, gbSync_fields]

theorem decodes_qlPub (a b : Reg) (renew : Bool) : (Instr.qlPub a b renew).Decodes := by
  obtain ⟨hlow, hrenew⟩ := one_bits renew
  refine decodes_of rfl ((rawChain_page4 rfl).trans (decodePage4_qlPub (encFix_major ..) (encFix_ff ..))) ?_ (encFix_fits_short (by decide))
  rw [encFix_mp, modIf_getD, hlow, hrenew, encFix_unOk, encFix_noImm, encFix_ra, encFix_rb]
  rfl

theorem decodes_hlFilt (a b c : Reg) (kmask : BitVec 7) : (Instr.hlFilt a b c kmask).Decodes := by
  have hk : (kmask.setWidth 64).toNat = kmask.toNat := by
    rw [BitVec.toNat_setWidth]
    omega
  obtain ⟨hlen, hv⟩ := immU_off (n := 1) (v := kmask.setWidth 64) (by decide) (by
    simp only [fitsU, hk, decide_eq_true_eq]
    omega)
  refine decodes_of rfl ((rawChain_page4 rfl).trans (decodePage4_hlFilt (encFix_major ..) (encFix_ff ..))) ?_
    (encFix_fits (by decide) (hlen.trans (by cases high a || high b || c != 0 <;> decide)))
  rw [encFix_imms, hv, hk, decide_eq_true kmask.isLt, BitVec.setWidth_setWidth_of_le _ (by decide), BitVec.setWidth_eq, encFix_regOk, encFix_noMod,
    encFix_ra, encFix_rb, encFix_rc]
  rfl

theorem decodes_trap (e : BitVec 8) : (Instr.trap e).Decodes := by
  obtain ⟨hkind, he⟩ := trap_fields e
  refine decodes_of rfl ((rawChain_page5 rfl).trans (decodePage5_trap (encJ_major ..) rfl ?_)) ?_ (encJ_fits (by decide) (Nat.zero_le _))
  · rw [encJ_i11, hkind]
    rfl
  · rw [encJ_i11, he]

/-- Each constructor by its form. -/
theorem decodes_of_wf (i : Instr) (hwf : i.wf = true) : i.Decodes := by
  cases i
  case add d s1 s2 | sub d s1 s2 | and d s1 s2 | or d s1 s2 | xor d s1 s2 | sll d s1 s2 | srl d s1 s2 | sra d s1 s2 | mul d s1 s2 | mulh d s1 s2 |
      div d s1 s2 | rem d s1 s2 | min d s1 s2 | max d s1 s2 | slt d s1 s2 =>
    exact decodes_of rfl ((rawChain_page0 (encBin_pageNum ..)).trans (by unfold decodePage0; rw [encBin_major, encBin_ff]; rfl)) binRow_encBin (encBin_fits _ _ _ _ _ _ _ (by decide))
  case fadd d s1 s2 m | fsub d s1 s2 m | fmul d s1 s2 m | fdiv d s1 s2 m | fmadd d s1 s2 m =>
    exact decodes_of rfl ((rawChain_page0 (encBin_pageNum ..)).trans (by unfold decodePage0; rw [encBin_major, encBin_ff]; rfl)) fRow_encBin (encBin_fits _ _ _ _ _ _ _ (by decide))
  case fmin d s1 s2 ty | fmax d s1 s2 ty =>
    exact decodes_of rfl ((rawChain_page0 (encBin_pageNum ..)).trans (by unfold decodePage0; rw [encBin_major, encBin_ff]; rfl)) fmRow_encBin (encBin_fits _ _ _ _ _ _ _ (by decide))
  case vadd d s1 s2 m | vsub d s1 s2 m | vmul d s1 s2 m | vmin d s1 s2 m | vmax d s1 s2 m | vmulh d s1 s2 m | vdiv d s1 s2 m | vrem d s1 s2 m |
      vand d s1 s2 m | vor d s1 s2 m | vxor d s1 s2 m | vsll d s1 s2 m | vsrl d s1 s2 m | vsra d s1 s2 m | vfma d s1 s2 m | vfdiv d s1 s2 m =>
    exact decodes_of rfl ((rawChain_page1 (encBin_pageNum ..)).trans (by unfold decodePage1; rw [encBin_major, encBin_ff]; rfl)) vRow_encBin (encBin_fits _ _ _ _ _ _ _ (by decide))
  case sextB d s | sextH d s | sextW d s | zextB d s | zextH d s | zextW d s | clz d s | ctz d s | popc d s | cmpEq a b | cmpNe a b | cmpLt a b |
      cmpGe a b | cmpLtN a b | cmpGeN a b =>
    exact decodes_of rfl ((rawChain_page0 rfl).trans (by unfold decodePage0; rw [encFix_major, encFix_ff]; rfl)) unRow_encFix (encFix_fits_short (by decide))
  case fcmpEq a b ty | fcmpLt a b ty | fcmpLe a b ty =>
    exact decodes_of rfl ((rawChain_page0 rfl).trans (by unfold decodePage0; rw [encFix_major, encFix_ff]; rfl)) fcRow_encFix (encFix_fits_short (by decide))
  case vwadd d b c m | vwmul d b c m | vredsum d b c m | vredmin d b c m | vredmax d b c m | vmerge d b c m | vslideup d b c m | vslidedown d b c m |
      vrgather d b c m =>
    exact decodes_of rfl ((rawChain_page1 rfl).trans (by unfold decodePage1; rw [encFix_major, encFix_ff]; rfl)) vfixRow_encFix (encFix_fits_short (by decide))
  case vpack d s bt | vunpack d s bt =>
    exact decodes_of rfl ((rawChain_page1 rfl).trans (by unfold decodePage1; rw [encFix_major, encFix_ff]; rfl)) blockRow_encFix (encFix_fits_short (by decide))
  case vpopc d kb | vfirst d kb =>
    exact decodes_of rfl ((rawChain_page1 rfl).trans (by unfold decodePage1; rw [encFix_major, encFix_ff]; rfl)) kxRow_encFix (encFix_fits_short (by decide))
  case cp a | ga a | sc a | engStat a =>
    exact decodes_of rfl ((rawChain_page2 rfl).trans (by unfold decodePage2; rw [encFix_major, encFix_ff]; rfl)) aRow_encFix (encFix_fits_short (by decide))
  case msgOpen a | msgPut a | tkSpawn a =>
    exact decodes_of rfl ((rawChain_page3 rfl).trans (by unfold decodePage3; rw [encFix_major, encFix_ff]; rfl)) aRow_encFix (encFix_fits_short (by decide))
  case amoAdd a b c m | amoSwap a b c m | amoAnd a b c m | amoOr a b c m | amoXor a b c m | amoMin a b c m | amoMax a b c m | amoCas a b c m |
      amoMinN a b c m | amoMaxN a b c m =>
    exact decodes_of rfl ((rawChain_page3 rfl).trans (by unfold decodePage3; rw [encFix_major, encFix_ff]; rfl)) amoRow_encFix (encFix_fits_short (by decide))
  case dcFlush a b | dcDiscard a b | recv a b | tkDep a b =>
    exact decodes_of rfl ((rawChain_page3 rfl).trans (by unfold decodePage3; rw [encFix_major, encFix_ff]; rfl)) abRow_encFix (encFix_fits_short (by decide))
  case barWait a b c =>
    exact decodes_of rfl ((rawChain_page3 rfl).trans (by unfold decodePage3; rw [encFix_major, encFix_ff]; rfl)) abcRow_encFix (encFix_fits_short (by decide))
  case msgEnd | tkYield | tkEnd =>
    exact decodes_of rfl ((rawChain_page3 rfl).trans (by unfold decodePage3; rw [encFix_major, encFix_ff]; rfl)) bareRow_encFix (encFix_fits_short (by decide))
  case qlOpen a b | hlCat a b | hlRebase a b | hlLen a b =>
    exact decodes_of rfl ((rawChain_page4 rfl).trans (by unfold decodePage4; rw [encFix_major, encFix_ff]; rfl)) abRow_encFix (encFix_fits_short (by decide))
  case qlClose a | hlApply a | hlDrop a =>
    exact decodes_of rfl ((rawChain_page4 rfl).trans (by unfold decodePage4; rw [encFix_major, encFix_ff]; rfl)) aRow_encFix (encFix_fits_short (by decide))
  case qlRec a b c | qlApp a b c | qlPut a b c =>
    exact decodes_of rfl ((rawChain_page4 rfl).trans (by unfold decodePage4; rw [encFix_major, encFix_ff]; rfl)) ql0Row_encFix (encFix_fits_short (by decide))
  case pgPost a b c =>
    exact decodes_of rfl ((rawChain_page5 rfl).trans (by unfold decodePage5; rw [encFix_major, encFix_ff]; rfl)) abcRow_encFix (encFix_fits_short (by decide))
  case pgReplay a =>
    exact decodes_of rfl ((rawChain_page5 rfl).trans (by unfold decodePage5; rw [encFix_major, encFix_ff]; rfl)) aRow_encFix (encFix_fits_short (by decide))
  case redAdd a b wide space | redMin a b wide space | redMax a b wide space | redMinN a b wide space | redMaxN a b wide space =>
    exact decodes_of rfl ((rawChain_page3 rfl).trans (by unfold decodePage3 encRed; rw [encFix_major, encFix_ff]; rfl)) redRow_encRed (encFix_fits_short (by decide))
  case redAddF32 a b space | redMinF32 a b space | redMaxF32 a b space =>
    exact decodes_of rfl ((rawChain_page3 rfl).trans (by unfold decodePage3 encRed; rw [encFix_major, encFix_ff]; rfl)) redFRow_encRed (encFix_fits_short (by decide))
  case beq a b off | bne a b off | blt a b off | bge a b off | bltN a b off | bgeN a b off | jalr link b off =>
    obtain ⟨hlen, hv⟩ := immS_off (room_le ..) hwf
    exact decodes_of rfl ((rawChain_page0 rfl).trans (by unfold decodePage0; rw [encFix_major, encFix_ff]; rfl)) (brRow_encFix hv) (encFix_fits_ab (by decide) hlen)
  case ldF a b imm | ldFTake a b imm | stF a b imm =>
    obtain ⟨hlen, hv⟩ := immS_off (room_le ..) hwf
    exact decodes_of rfl ((rawChain_page3 rfl).trans (by unfold decodePage3; rw [encFix_major, encFix_ff]; rfl)) (brRow_encFix hv) (encFix_fits_ab (by decide) hlen)
  case vle d b m imm | vlff d b m imm | vlce d b m imm | vse d b m imm | vsce d b m imm =>
    obtain ⟨hlen, hv⟩ := immS_off (room_le ..) (Bool.and_eq_true_iff.mp hwf).2
    exact decodes_of rfl ((rawChain_page1 rfl).trans (by unfold decodePage1; rw [encFix_major, encFix_ff]; rfl)) (vm2Row_encFix hv) (encFix_fits_ab (by decide) (vmMod_needed m ▸ hlen))
  case vlse d b c m imm | vlxe d b c m imm | vsse d b c m imm | vsxe d b c m imm =>
    obtain ⟨hlen, hv⟩ := immS_off (room_le ..) (Bool.and_eq_true_iff.mp hwf).2
    exact decodes_of rfl ((rawChain_page1 rfl).trans (by unfold decodePage1; rw [encFix_major, encFix_ff]; rfl)) (vm3Row_encFix hv) (encFix_fits (by decide) (vmMod_needed m ▸ hlen))
  case addi d s imm | andi d s imm | ori d s imm | xori d s imm | slti d s imm =>
    obtain ⟨hlen, hv⟩ := immS_immsS (room_le ..) hwf
    exact decodes_of rfl ((rawChain_page0 rfl).trans (by unfold decodePage0; rw [encRi_major]; rfl)) (riRow_encRi hv) (encRi_fits _ _ _ _ _ (by decide) hlen)
  case slli d s sh | srli d s sh | srai d s sh =>
    exact decodes_of rfl ((rawChain_page0 rfl).trans (by unfold decodePage0; rw [encRi_major]; rfl)) shRow_encRi (encRi_fits _ _ _ _ _ (by decide) (Nat.zero_le _))
  case cmpiEq a imm | cmpiLt a imm =>
    obtain ⟨hlen, hv⟩ := immS_immsS (room_le ..) hwf
    exact decodes_of rfl ((rawChain_page0 rfl).trans (by unfold decodePage0; rw [encA7_major]; rfl)) (cmpiRow_encA7 hv) (encA7_fits _ _ _ _ (by decide) hlen)
  case call off | callC off =>
    obtain ⟨hlen, hv⟩ := immS_immsS (room_le ..) hwf
    exact decodes_of rfl ((rawChain_page0 rfl).trans (by unfold decodePage0; rw [encJ_major]; rfl)) (jRow_encJ hv) (encJ_fits (by decide) hlen)
  case vmseq k b c m | vmsne k b c m | vmslt k b c m | vmsle k b c m =>
    exact decodes_of rfl ((rawChain_page1 rfl).trans (by unfold decodePage1; rw [encVcmp_eq, encFix_major, encFix_ff]; rfl)) (encVcmp_eq .. ▸ vcmpRow_encVcmp) (encVcmp_eq .. ▸ encFix_fits_short (by decide))
  case vmand k kb kc | vmor k kb kc =>
    exact decodes_of rfl ((rawChain_page1 rfl).trans (by unfold decodePage1; rw [encK_eq, encFix_major, encFix_ff]; rfl)) (encK_eq .. ▸ kRow_encK) (encK_eq .. ▸ encFix_fits_short (by decide))
  case mma a b asrc fmt | mmaRing a b asrc fmt | mmaLx a b asrc fmt | mmaLa a b asrc fmt =>
    exact decodes_of rfl ((rawChain_page2 rfl).trans (by unfold decodePage2; rw [encMma_eq, encFix_major, encFix_ff]; rfl))
      (encMma_eq .. ▸ mmaRow_encMma (of_decide_eq_true (Bool.and_eq_true_iff.mp hwf).2)) (encMma_eq .. ▸ encFix_fits_short (by decide))
  case qlGet a b c scr | qlSplit a b c scr =>
    exact decodes_of rfl ((rawChain_page4 rfl).trans (by unfold decodePage4; rw [encFix_major, encFix_ff]; rfl)) qlRow_encFix (encFix_fits_short (by decide))
  case qlEval op a b c scr | qlFold op a b c scr | qlSeek op a b c scr =>
    exact decodes_of rfl ((rawChain_page4 rfl).trans (by unfold decodePage4; rw [encFix_major, encFix_base_ff]; rfl)) qlRow_encFix
      (encFix_fits_short (by decide))
  case jal link off => exact decodes_jal _ _ hwf
  case ret | pand | por | pnot | pend => exact decodes_of rfl (rawChain_page0 rfl) rfl (encJ_fits (by decide) (Nat.zero_le _))
  case fsqrt d s m => exact decodes_fsqrt _ _ _
  case vsqrt d s m => exact decodes_vsqrt _ _ _
  case fcvt d s dst src rm => exact decodes_fcvt _ _ _ _ _
  case rdsr d num => exact decodes_rdsr _ _
  case wrsr s num => exact decodes_wrsr _ _
  case hint e => exact decodes_hint _
  case setvl d s shape => exact decodes_setvl _ _ _
  case vnarrow d s ty mask sat => exact decodes_vnarrow _ _ _ _ _
  case vcvt d s dst src sat => exact decodes_vcvt _ _ _ _ _
  case vmnot k kb => exact decodes_vmnot _ _
  case vcompress d b m => exact decodes_vcompress _ _ _
  case vmv d s ty mask form => exact decodes_vmv _ _ _ _ _
  case cbCfg h b => exact decodes_cbCfg _ _
  case cbAdvP h n => exact decodes_cbAdvP _ _
  case cbAdvC h n => exact decodes_cbAdvC _ _
  case mxCfg a zero => exact decodes_mxCfg _ _
  case mxZero cols => exact decodes_mxZero _
  case mxDrain a b imm fmt space zero cols => exact decodes_mxDrain _ _ _ _ _ _ _ hwf
  case ltLoad a b => exact decodes_ltLoad _ _
  case ltRot a => exact decodes_ltRot _
  case ld a b size m imm => exact decodes_ld _ _ _ _ _ hwf
  case st a b size m imm => exact decodes_st _ _ _ _ _ hwf
  case fence scope => exact decodes_fence _
  case fenceX p q scope => exact decodes_fenceX _ _ _
  case icsync => exact decodes_icsync
  case wait a b c all n imm => exact decodes_wait _ _ _ _ _ _ hwf
  case barArrive a b n => exact decodes_barArrive _ _ _ hwf
  case gbSync a k => exact decodes_gbSync _ _
  case qlPub a b renew => exact decodes_qlPub _ _ _
  case hlFilt a b c kmask => exact decodes_hlFilt _ _ _ _
  case ecall | ebreak => exact decodes_of rfl (rawChain_page5 rfl) rfl (encJ_fits (by decide) (Nat.zero_le _))
  case trap e => exact decodes_trap _
  all_goals exact fun _ h => nomatch h

end Sys2Proof
end
section
/-! PROOF. Decoding and encoding invert each other (R269 to R294). -/

namespace Sys2Proof

/-! ### Whatever a map decodes has an encoding -/

/-- A row of the maps gives only instructions that have a chain. -/
def Encodable (row : Option Instr) : Prop := ∀ i, row = some i → encodeChain i ≠ none

theorem encodable_none : Encodable none := fun _ h => nomatch h

theorem encodable_some {i : Instr} (h : encodeChain i ≠ none) : Encodable (some i) := fun _ hi => Option.some.inj hi ▸ h

theorem encodable_keep {ok : Bool} {i : Instr} (h : encodeChain i ≠ none) : Encodable (keep ok i) := by
  cases ok
  · exact encodable_none
  · exact encodable_some h

section Rows
variable {c : Chain}

theorem encodable_binRow {k : Reg → Reg → Reg → Instr} (h : ∀ d a b, encodeChain (k d a b) ≠ none) : Encodable (c.binRow k) := encodable_keep (h _ _ _)
theorem encodable_unRow {k : Reg → Reg → Instr} (h : ∀ d a, encodeChain (k d a) ≠ none) : Encodable (c.unRow k) := encodable_keep (h _ _)
theorem encodable_riRow {k : Reg → Reg → Word → Instr} (h : ∀ d a v, encodeChain (k d a v) ≠ none) : Encodable (c.riRow k) := encodable_keep (h _ _ _)
theorem encodable_shRow {k : Reg → Reg → BitVec 6 → Instr} (h : ∀ d a v, encodeChain (k d a v) ≠ none) : Encodable (c.shRow k) := encodable_keep (h _ _ _)
theorem encodable_cmpiRow {k : Reg → Word → Instr} (h : ∀ a v, encodeChain (k a v) ≠ none) : Encodable (c.cmpiRow k) := encodable_keep (h _ _)
theorem encodable_brRow {k : Reg → Reg → Word → Instr} (h : ∀ a b v, encodeChain (k a b v) ≠ none) : Encodable (c.brRow k) := encodable_keep (h _ _ _)
theorem encodable_jRow {k : Word → Instr} (h : ∀ v, encodeChain (k v) ≠ none) : Encodable (c.jRow k) := encodable_keep (h _)
theorem encodable_fRow {k : Reg → Reg → Reg → FMod → Instr} (h : ∀ d a b m, encodeChain (k d a b m) ≠ none) : Encodable (c.fRow k) := by
  unfold Chain.fRow
  split
  · exact encodable_keep (h _ _ _ _)
  · exact encodable_none
theorem encodable_fmRow {k : Reg → Reg → Reg → FTy → Instr} (h : ∀ d a b m, encodeChain (k d a b m) ≠ none) : Encodable (c.fmRow k) := by
  unfold Chain.fmRow
  split
  · exact encodable_keep (h _ _ _ _)
  · exact encodable_none
theorem encodable_fcRow {k : Reg → Reg → FTy → Instr} (h : ∀ a b m, encodeChain (k a b m) ≠ none) : Encodable (c.fcRow k) := by
  unfold Chain.fcRow
  split
  · exact encodable_keep (h _ _ _)
  · exact encodable_none
theorem encodable_vm2Row {k : Reg → Reg → VMMod → Word → Instr} (h : ∀ a b m v, encodeChain (k a b m v) ≠ none) : Encodable (c.vm2Row k) := by
  unfold Chain.vm2Row
  split
  · exact encodable_keep (h _ _ _ _)
  · exact encodable_none
theorem encodable_vm3Row {k : Reg → Reg → Reg → VMMod → Word → Instr} (h : ∀ a b d m v, encodeChain (k a b d m v) ≠ none) : Encodable (c.vm3Row k) := by
  unfold Chain.vm3Row
  split
  · exact encodable_keep (h _ _ _ _ _)
  · exact encodable_none
theorem encodable_vRow {k : Reg → Reg → Reg → VMod → Instr} (h : ∀ d a b m, encodeChain (k d a b m) ≠ none) : Encodable (c.vRow k) := encodable_keep (h _ _ _ _)
theorem encodable_vfixRow {k : Reg → Reg → Reg → VMod → Instr} (h : ∀ d a b m, encodeChain (k d a b m) ≠ none) : Encodable (c.vfixRow k) :=
  encodable_keep (h _ _ _ _)
theorem encodable_vcmpRow {k : KReg → Reg → Reg → VMod → Instr} (h : ∀ q a b m, encodeChain (k q a b m) ≠ none) : Encodable (c.vcmpRow k) :=
  encodable_keep (h _ _ _ _)
theorem encodable_kRow {k : KReg → KReg → KReg → Instr} (h : ∀ q a b, encodeChain (k q a b) ≠ none) : Encodable (c.kRow k) := encodable_keep (h _ _ _)
theorem encodable_kxRow {k : Reg → KReg → Instr} (h : ∀ d q, encodeChain (k d q) ≠ none) : Encodable (c.kxRow k) := encodable_keep (h _ _)
theorem encodable_blockRow {k : Reg → Reg → BlockTy → Instr} (h : ∀ d a bt, encodeChain (k d a bt) ≠ none) : Encodable (c.blockRow k) := by
  unfold Chain.blockRow
  split
  · exact encodable_keep (h _ _ _)
  · exact encodable_none
theorem encodable_mmaRow {k : Reg → HReg → Bool → BitVec 4 → Instr} (h : ∀ a b s f, encodeChain (k a b s f) ≠ none) : Encodable (c.mmaRow k) :=
  encodable_keep (h _ _ _ _)
theorem encodable_aRow {k : Reg → Instr} (h : ∀ a, encodeChain (k a) ≠ none) : Encodable (c.aRow k) := encodable_keep (h _)
theorem encodable_amoRow {k : Reg → Reg → Reg → AtomMod → Instr} (h : ∀ a b d m, encodeChain (k a b d m) ≠ none) : Encodable (c.amoRow k) := by
  unfold Chain.amoRow
  split
  · exact encodable_keep (h _ _ _ _)
  · exact encodable_none
theorem encodable_redRow {k : Reg → Reg → Bool → Space → Instr} (h : ∀ a b w s, encodeChain (k a b w s) ≠ none) : Encodable (c.redRow k) := by
  unfold Chain.redRow
  split
  · exact encodable_keep (h _ _ _ _)
  · exact encodable_none
theorem encodable_redFRow {k : Reg → Reg → Space → Instr} (h : ∀ a b s, encodeChain (k a b s) ≠ none) : Encodable (c.redFRow k) := by
  unfold Chain.redFRow
  split
  · exact encodable_keep (h _ _ _)
  · exact encodable_none
theorem encodable_abRow {k : Reg → Reg → Instr} (h : ∀ a b, encodeChain (k a b) ≠ none) : Encodable (c.abRow k) := encodable_keep (h _ _)
theorem encodable_abcRow {k : Reg → Reg → Reg → Instr} (h : ∀ a b d, encodeChain (k a b d) ≠ none) : Encodable (c.abcRow k) := encodable_keep (h _ _ _)
theorem encodable_bareRow {i : Instr} (h : encodeChain i ≠ none) : Encodable (c.bareRow i) := encodable_keep h
theorem encodable_qlRow {k : Reg → Reg → Reg → Bool → Instr} (h : ∀ a b d s, encodeChain (k a b d s) ≠ none) : Encodable (c.qlRow k) :=
  encodable_keep (h _ _ _ _)
theorem encodable_ql0Row {k : Reg → Reg → Reg → Instr} (h : ∀ a b d, encodeChain (k a b d) ≠ none) : Encodable (c.ql0Row k) := encodable_keep (h _ _ _)

theorem encodable_page0 : Encodable (decodePage0 c) := by
  unfold decodePage0
  split
  iterate 15 exact encodable_binRow fun _ _ _ => Option.some_ne_none _
  iterate 9 exact encodable_unRow fun _ _ => Option.some_ne_none _
  iterate 4 exact encodable_riRow fun _ _ _ => Option.some_ne_none _
  iterate 3 exact encodable_shRow fun _ _ _ => Option.some_ne_none _
  exact encodable_riRow fun _ _ _ => Option.some_ne_none _
  iterate 2 exact encodable_cmpiRow fun _ _ => Option.some_ne_none _
  iterate 6 exact encodable_unRow fun _ _ => Option.some_ne_none _
  iterate 6 exact encodable_brRow fun _ _ _ => Option.some_ne_none _
  exact encodable_keep (Option.some_ne_none _)
  iterate 2 exact encodable_jRow fun _ => Option.some_ne_none _
  exact encodable_brRow fun _ _ _ => Option.some_ne_none _
  · split
    · split
      iterate 5 exact encodable_some (Option.some_ne_none _)
      exact encodable_none
    · exact encodable_none
  iterate 5 exact encodable_fRow fun _ _ _ _ => Option.some_ne_none _
  iterate 2 exact encodable_fmRow fun _ _ _ _ => Option.some_ne_none _
  · split
    · exact encodable_keep (Option.some_ne_none _)
    · exact encodable_none
  · split
    · exact encodable_keep (Option.some_ne_none _)
    · exact encodable_none
  iterate 3 exact encodable_fcRow fun _ _ _ => Option.some_ne_none _
  iterate 2 exact encodable_keep (Option.some_ne_none _)
  exact encodable_some (Option.some_ne_none _)
  exact encodable_none

theorem encodable_page1 : Encodable (decodePage1 c) := by
  unfold decodePage1
  split
  exact encodable_keep (Option.some_ne_none _)
  exact encodable_vm2Row fun _ _ _ _ => Option.some_ne_none _
  iterate 2 exact encodable_vm3Row fun _ _ _ _ _ => Option.some_ne_none _
  iterate 3 exact encodable_vm2Row fun _ _ _ _ => Option.some_ne_none _
  iterate 2 exact encodable_vm3Row fun _ _ _ _ _ => Option.some_ne_none _
  exact encodable_vm2Row fun _ _ _ _ => Option.some_ne_none _
  iterate 16 exact encodable_vRow fun _ _ _ _ => Option.some_ne_none _
  exact encodable_keep (Option.some_ne_none _)
  iterate 2 exact encodable_vfixRow fun _ _ _ _ => Option.some_ne_none _
  iterate 2 exact encodable_keep (Option.some_ne_none _)
  iterate 2 exact encodable_blockRow fun _ _ _ => Option.some_ne_none _
  iterate 3 exact encodable_vfixRow fun _ _ _ _ => Option.some_ne_none _
  iterate 4 exact encodable_vcmpRow fun _ _ _ _ => Option.some_ne_none _
  iterate 2 exact encodable_kRow fun _ _ _ => Option.some_ne_none _
  exact encodable_keep (Option.some_ne_none _)
  iterate 2 exact encodable_kxRow fun _ _ => Option.some_ne_none _
  iterate 4 exact encodable_vfixRow fun _ _ _ _ => Option.some_ne_none _
  exact encodable_keep (Option.some_ne_none _)
  · split
    · exact encodable_keep (Option.some_ne_none _)
    · exact encodable_none
  exact encodable_none

theorem encodable_page2 : Encodable (decodePage2 c) := by
  unfold decodePage2
  split
  iterate 4 exact encodable_keep (Option.some_ne_none _)
  · split
    · exact encodable_keep (Option.some_ne_none _)
    · exact encodable_none
  iterate 4 exact encodable_mmaRow fun _ _ _ _ => Option.some_ne_none _
  · split
    · exact encodable_keep (Option.some_ne_none _)
    · exact encodable_none
  iterate 2 exact encodable_keep (Option.some_ne_none _)
  iterate 4 exact encodable_aRow fun _ => Option.some_ne_none _
  exact encodable_none

theorem encodable_page3 : Encodable (decodePage3 c) := by
  unfold decodePage3
  split
  · split
    · exact encodable_keep (Option.some_ne_none _)
    · exact encodable_none
  · split
    · exact encodable_keep (Option.some_ne_none _)
    · exact encodable_none
  iterate 3 exact encodable_brRow fun _ _ _ => Option.some_ne_none _
  iterate 10 exact encodable_amoRow fun _ _ _ _ => Option.some_ne_none _
  exact encodable_redRow fun _ _ _ _ => Option.some_ne_none _
  exact encodable_redFRow fun _ _ _ => Option.some_ne_none _
  iterate 4 exact encodable_redRow fun _ _ _ _ => Option.some_ne_none _
  iterate 2 exact encodable_redFRow fun _ _ _ => Option.some_ne_none _
  iterate 2 exact encodable_keep (Option.some_ne_none _)
  iterate 2 exact encodable_abRow fun _ _ => Option.some_ne_none _
  iterate 3 exact encodable_keep (Option.some_ne_none _)
  exact encodable_abcRow fun _ _ _ => Option.some_ne_none _
  exact encodable_keep (Option.some_ne_none _)
  iterate 2 exact encodable_aRow fun _ => Option.some_ne_none _
  exact encodable_bareRow (Option.some_ne_none _)
  exact encodable_abRow fun _ _ => Option.some_ne_none _
  exact encodable_aRow fun _ => Option.some_ne_none _
  exact encodable_abRow fun _ _ => Option.some_ne_none _
  iterate 2 exact encodable_bareRow (Option.some_ne_none _)
  exact encodable_none

theorem encodable_page4 : Encodable (decodePage4 c) := by
  unfold decodePage4
  split
  exact encodable_abRow fun _ _ => Option.some_ne_none _
  exact encodable_aRow fun _ => Option.some_ne_none _
  iterate 3 exact encodable_qlRow fun _ _ _ _ => Option.some_ne_none _
  exact encodable_ql0Row fun _ _ _ => Option.some_ne_none _
  iterate 2 exact encodable_qlRow fun _ _ _ _ => Option.some_ne_none _
  iterate 2 exact encodable_ql0Row fun _ _ _ => Option.some_ne_none _
  exact encodable_keep (Option.some_ne_none _)
  exact encodable_abRow fun _ _ => Option.some_ne_none _
  exact encodable_keep (Option.some_ne_none _)
  exact encodable_abRow fun _ _ => Option.some_ne_none _
  iterate 2 exact encodable_aRow fun _ => Option.some_ne_none _
  exact encodable_abRow fun _ _ => Option.some_ne_none _
  exact encodable_none

theorem encodable_page5 : Encodable (decodePage5 c) := by
  unfold decodePage5
  split
  exact encodable_abcRow fun _ _ _ => Option.some_ne_none _
  exact encodable_aRow fun _ => Option.some_ne_none _
  · split
    · split
      iterate 2 exact encodable_keep (Option.some_ne_none _)
      exact encodable_some (Option.some_ne_none _)
      exact encodable_none
    · exact encodable_none
  exact encodable_none

theorem encodable_rawChain : Encodable (rawChain c) := by
  unfold rawChain
  split
  · exact encodable_page0
  · exact encodable_page1
  · exact encodable_page2
  · exact encodable_page3
  · exact encodable_page4
  · exact encodable_page5
  · exact encodable_none

end Rows

/-! ### Both directions -/

theorem decodeWords_encode {i : Instr} (rest : List Half) (hwf : i.wf = true) (henc : encode i ≠ []) :
    decodeWords (encode i ++ rest) = .instr i (encode i).length := by
  unfold encode at henc ⊢
  split
  · next c hc =>
    obtain ⟨hraw, hbase, himms, hcount⟩ := decodes_of_wf i hwf c hc
    rw [decodeWords_words hbase himms hcount, decodeChain, hraw]
    simp [keep, hwf]
  · next hc => simp [hc] at henc

theorem decodeChain_some {c : Chain} {i : Instr} (h : decodeChain c = some i) : rawChain c = some i ∧ i.wf = true := by
  unfold decodeChain at h
  split at h
  · next j hj =>
    unfold keep at h
    split at h
    · next hwf => exact Option.some.inj h ▸ ⟨hj, hwf⟩
    · simp at h
  · simp at h

theorem decodeWords_instr {ws : List Half} {i : Instr} {n : Nat} (h : decodeWords ws = .instr i n) :
    ∃ c, scanWords ws Scan.start 0 = .chain c n ∧ decodeChain c = some i := by
  unfold decodeWords at h
  split at h
  · next c m hscan =>
    split at h
    · next j hj =>
      obtain ⟨rfl, rfl⟩ : j = i ∧ m = n := by simpa using h
      exact ⟨c, hscan, hj⟩
    · simp at h
  · simp at h
  · simp at h

theorem encode_ne_nil {i : Instr} (h : encodeChain i ≠ none) : encode i ≠ [] := by
  obtain ⟨c, hc⟩ := Option.ne_none_iff_exists'.mp h
  simp [encode, hc, Chain.words]

/-- Settles O58: every form of the encoder is read by its row of the maps, and every row gives an instruction with a chain. -/
theorem decodeInvertsEncode : Obligations.DecodeInvertsEncode := by
  refine ⟨fun i rest hwf henc => decodeWords_encode rest hwf henc, fun ws i n h => ?_⟩
  obtain ⟨c, hscan, hdecode⟩ := decodeWords_instr h
  obtain ⟨hraw, hwf⟩ := decodeChain_some hdecode
  exact ⟨hwf, encode_ne_nil (encodable_rawChain i hraw), by simpa [Scan.start] using scanWords_length (by decide) hscan⟩

/-- Settles O57: the words are written out, so that the decoder is evaluated on each. -/
theorem decodesSpecWords : Obligations.DecodesSpecWords := by
  unfold Obligations.DecodesSpecWords
  decide

end Sys2Proof
end
section
/-! PROOF. Words of format N take no prefix (R275, R302, R309). -/

namespace Sys2Proof

/-! ### Words of format N (R275, R302, R309) -/

theorem or_setWidth_eq_leadWord (w : BitVec 9) : (0xF800 ||| w.setWidth 16 = leadWord 0 w ∧ 0xFA00 ||| w.setWidth 16 = leadWord 1 w) ∧
    0xFC00 ||| w.setWidth 16 = leadWord 2 w ∧ 0xFE00 ||| w.setWidth 16 = leadWord 3 w := by
  revert w
  decide

/-- The words of format N of page 0: ret and the stack instructions (R302, R309). -/
def plainWords : List Half := [0xA800, 0xA801, 0xA802, 0xA803, 0xA804]

theorem plainWords_fields {p : Half} (hp : p ∈ plainWords) : isLead p = false ∧ (p.extractLsb' 11 5).toNat = 21 ∧ (p.extractLsb' 0 3).toNat ≤ 4 := by
  simp only [plainWords, List.mem_cons, List.not_mem_nil, or_false] at hp
  rcases hp with rfl | rfl | rfl | rfl | rfl <;> decide

theorem decodeWords_illegal {c : Chain} (hbase : isLead c.base = false) (himms : c.imms.length ≤ 3) (hcount : c.heads + c.imms.length ≤ 4)
    (h : rawChain c = none) : decodeWords c.words = .illegal c.words.length := by
  have hwords := decodeWords_words hbase himms hcount []
  rw [List.append_nil] at hwords
  rw [hwords, decodeChain, h]

section Plain
variable {c : Chain} {f : Nat} (hf : f ≤ 4) (hmajor : c.major = 21) (hff : c.ff = f)
include hf hmajor hff

theorem decodePage0_plain (hlead : (c.noReg && c.noMod && c.noImm) = false) : decodePage0 c = none := by
  unfold decodePage0
  rw [hmajor, hff]
  interval_cases f <;> exact if_neg (Bool.eq_false_iff.mp hlead)
theorem decodePage1_plain : decodePage1 c = none := by
  unfold decodePage1
  rw [hmajor, hff]
  interval_cases f <;> rfl
theorem decodePage2_plain : decodePage2 c = none := by
  unfold decodePage2
  rw [hmajor, hff]
  interval_cases f <;> rfl
theorem decodePage3_plain : decodePage3 c = none := by
  unfold decodePage3
  rw [hmajor, hff]
  interval_cases f <;> rfl
theorem decodePage4_plain : decodePage4 c = none := by
  unfold decodePage4
  rw [hmajor, hff]
  interval_cases f <;> rfl
theorem decodePage5_plain : decodePage5 c = none := by
  unfold decodePage5
  rw [hmajor, hff]
  interval_cases f <;> rfl

theorem rawChain_plain (hlead : (c.noReg && c.noMod && c.noImm) = false ∨ c.page ≠ none) : rawChain c = none := by
  unfold rawChain
  split
  · next hpage =>
    refine decodePage0_plain hf hmajor hff (hlead.resolve_right fun hne => ?_)
    obtain ⟨w, hw⟩ := Option.ne_none_iff_exists'.mp hne
    simp [Chain.pageNum, hw, keep] at hpage
    omega
  · exact decodePage1_plain hf hmajor hff
  · exact decodePage2_plain hf hmajor hff
  · exact decodePage3_plain hf hmajor hff
  · exact decodePage4_plain hf hmajor hff
  · exact decodePage5_plain hf hmajor hff
  · rfl

end Plain

/-- R275, R302, R309: ret and the stack instructions take no prefix. -/
theorem decodeWords_lead_plain {k : Half} (hk : k ∈ ([0xF800, 0xFA00, 0xFC00, 0xFE00] : List Half)) (w : BitVec 9) {p : Half} (hp : p ∈ plainWords) :
    decodeWords [k ||| w.setWidth 16, p] = .illegal 2 := by
  obtain ⟨⟨himm, hreg⟩, hpage, hmod⟩ := or_setWidth_eq_leadWord w
  obtain ⟨hbase, hmajor, hff⟩ := plainWords_fields hp
  simp only [List.mem_cons, List.not_mem_nil, or_false] at hk
  rcases hk with rfl | rfl | rfl | rfl
  · rw [himm]
    exact decodeWords_illegal (c := ⟨none, none, none, [w], p⟩) hbase (by simp) (by simp [Chain.heads]) (rawChain_plain hff hmajor rfl (.inl rfl))
  · rw [hreg]
    exact decodeWords_illegal (c := ⟨none, some w, none, [], p⟩) hbase (by simp) (by simp [Chain.heads]) (rawChain_plain hff hmajor rfl (.inl rfl))
  · rw [hpage]
    exact decodeWords_illegal (c := ⟨some w, none, none, [], p⟩) hbase (by simp) (by simp [Chain.heads]) (rawChain_plain hff hmajor rfl (.inr nofun))
  · rw [hmod]
    exact decodeWords_illegal (c := ⟨none, none, some w, [], p⟩) hbase (by simp) (by simp [Chain.heads]) (rawChain_plain hff hmajor rfl (.inl rfl))
end Sys2Proof
end
section
/-! PROOF. Page 0: the frame of a register write (R297), branches, jumps, regions (R306 to R310). -/

namespace Sys2Proof.Machine

/-! ### The frame of a register write (R297) -/

theorem State.setX_advance (s : State) (d : Reg) (v : Word) :
    (s.setX d v).advance = s.setSlot s.cur { s.me.setXr d v with pc := s.me.npc } := by
  simp [Slot.setXr_npc]

theorem State.x_setX_advance (s : State) (d r : Reg) (v : Word) : (s.setX d v).advance.x r = if r = d ∧ d ≠ 0 then v else s.x r := by
  rw [State.setX_advance, State.x, State.setSlot_me]
  exact Slot.xr_setXr s.me d r v

/-- Settles O3: a register write is one field of one slot. -/
theorem scalarWriteFrame : Obligations.ScalarWriteFrame := by
  intro s d v
  have hx0 : s.x 0 = 0 := rfl
  refine ⟨?_, fun hd => ?_, fun r hr => ?_, ?_, State.setX_advance_sameBytes s d v, fun hd => ?_⟩
  · rw [State.x_setX_advance]
    split
    · next h => exact absurd h.1.symm h.2
    · exact hx0
  · rw [State.x_setX_advance, if_pos ⟨rfl, hd⟩]
  · rw [State.x_setX_advance, if_neg fun h => hr h.1]
  · rw [State.setX_advance, State.setSlot_me, Slot.setXr_frame]
  · rw [State.setX_advance, hd, Slot.setXr_zero]

/-! ### Branches and jumps (R306 to R308) -/

theorem target_eq (s : State) (off : Word) : target s off = s.me.pc + (2 * off).setWidth 48 := by
  rw [target, show off + off = 2 * off by bv_omega]

theorem sge_iff (a b : Word) : (!a.slt b) = decide (a.toInt ≥ b.toInt) := by
  rw [Bool.eq_iff_iff, Bool.not_eq_true', ← Bool.not_eq_true, slt_iff, decide_eq_true_iff, Int.not_lt]

theorem slt_eq_decide (a b : Word) : a.slt b = decide (a.toInt < b.toInt) := rfl

theorem ult_eq_decide (a b : Word) : a.ult b = decide (a.toNat < b.toNat) := rfl

theorem uge_eq_decide (a b : Word) : (!a.ult b) = decide (a.toNat ≥ b.toNat) := by
  rw [Bool.eq_iff_iff, ult_eq_decide, Bool.not_eq_true', decide_eq_false_iff_not, decide_eq_true_iff, Nat.not_lt]

theorem branch_acts {s : State} (hacts : s.acts) (f : Nat) (a b : Reg) (off : Word) (c : Bool) (hc : cond f (s.x a) (s.x b) = c) :
    branch s f a b off = .next (if c then s.setSlot s.cur { s.me with pc := s.me.pc + (2 * off).setWidth 48, xfer := true }
      else s.setSlot s.cur { s.me with pc := s.me.npc }) := by
  rw [branch, guarded_acts hacts, hc, target_eq]
  cases c <;> rfl

/-- Settles O5: the six branches differ in their condition alone. -/
theorem branchTargets : Obligations.BranchTargets := fun _ a b off hacts =>
  ⟨branch_acts hacts 0 a b off _ rfl, branch_acts hacts 1 a b off _ rfl, branch_acts hacts 2 a b off _ rfl, branch_acts hacts 3 a b off _ (sge_iff _ _),
    branch_acts hacts 4 a b off _ rfl, branch_acts hacts 5 a b off _ (uge_eq_decide _ _)⟩

/-- Settles O6: a jump writes its link and leaves for its target, unless jalr's is odd. -/
theorem jumpsLink : Obligations.JumpsLink := by
  intro s l b off hacts
  refine ⟨?_, ?_, fun heven => ?_, fun hodd => ?_⟩
  · rw [← target_eq]
    exact guarded_acts hacts _
  · rw [← target_eq]
    exact guarded_acts hacts _
  · refine (guarded_acts hacts _ : execJalr l b off s = _).trans ?_
    rw [if_neg (Bool.eq_false_iff.mp heven)]
    rfl
  · refine (guarded_acts hacts _ : execJalr l b off s = _).trans ?_
    rw [if_pos hodd]
    rfl

/-! ### Regions (R309, R310) -/

theorem handleOf_eq (i : Nat) (gen : BitVec 12) : handleOf i gen = BitVec.ofNat 64 (i + gen.toNat * 16) := rfl

theorem execCallC_acts {s : State} (hacts : s.acts) (off : Word) {i : Nat} (hi : s.me.freeIndex = some i) (hstack : s.me.stack.length < 8)
    (hhampers : s.me.hampers.length < 16) :
    execCallC off s = .next (s.setSlot s.cur { s.me.setXr 1 (s.me.npc.setWidth 64) with
      gens := s.me.gens.put i (s.me.gens.get i 0 + 1)
      hampers := s.me.hampers.put i ⟨.opened, s.me.gens.get i 0 + 1, [], [], []⟩
      stack := ⟨i, s.me.npc⟩ :: s.me.stack
      pc := s.me.pc + (2 * off).setWidth 48
      xfer := true }) := by
  rw [execCallC, guarded_acts hacts, ← target_eq]
  have hroom : (8 ≤ s.me.stack.length || 16 ≤ s.me.hampers.length) = false := by simp; omega
  simp only [hi, hroom, Bool.false_eq_true, if_false]
  simp only [finish_jump, State.setX_eq, State.modMe_eq, State.setSlot_me, State.setSlot_cur, State.setSlot_setSlot]
  rw [Slot.setXr_pos _ (by decide)]
  rfl

theorem execCallC_full {s : State} (hacts : s.acts) (off : Word) (hfull : 8 ≤ s.me.stack.length ∨ 16 ≤ s.me.hampers.length) :
    execCallC off s = .next (s.takeTrap s.cur Cause.hamperCapacity 0 0) := by
  rw [execCallC, guarded_acts hacts]
  have hroom : (8 ≤ s.me.stack.length || 16 ≤ s.me.hampers.length) = true := by simpa using hfull
  split
  · rw [if_pos hroom]
    rfl
  · rfl

/-- What ret does past its two checks, by the region stack. -/
theorem execRet_acts {s : State} (hacts : s.acts) : execRet s = finish (
    if ((s.x 1).setWidth 48).getLsbD 0 then .trap s Cause.misaligned (((s.x 1).setWidth 48).setWidth 64) 0
    else match s.me.stack with
      | [] => .jump s ((s.x 1).setWidth 48)
      | r :: rest =>
        if (s.x 1).setWidth 48 = r.ret then .jump (s.modMe Slot.closeRegion) ((s.x 1).setWidth 48)
        else if rest.any fun q => q.ret == (s.x 1).setWidth 48 then .trap s Cause.illegal (((s.x 1).setWidth 48).setWidth 64) 0
        else .jump s ((s.x 1).setWidth 48)) := guarded_acts hacts _

/-- Settles O7: call.c and ret by the region stack and the lowest free index. -/
theorem regionsOpenAndClose : Obligations.RegionsOpenAndClose := by
  refine ⟨by decide, fun w k hk => decodeWords_lead_plain hk w (by simp [plainWords]), fun s off hacts => ?_⟩
  refine ⟨fun hstack hhampers i hi => execCallC_acts hacts off hi hstack hhampers, execCallC_full hacts off, fun hodd => ?_, fun heven hnil => ?_,
    fun r rest hcons heven => ⟨fun h ht hh => ?_, fun hne hinner => ?_, fun hne hnone => ?_⟩⟩
  all_goals refine (execRet_acts hacts).trans ?_
  · rw [if_pos hodd]
    rfl
  · rw [if_neg (Bool.eq_false_iff.mp heven), hnil]
    rfl
  · rw [if_neg (Bool.eq_false_iff.mp heven), hcons]
    simp only [if_pos ht]
    simp [Slot.closeRegion, hcons, hh, handleOf_eq]
  · rw [if_neg (Bool.eq_false_iff.mp heven), hcons]
    simp only [if_neg hne]
    rw [if_pos (by simpa using hinner)]
    rfl
  · rw [if_neg (Bool.eq_false_iff.mp heven), hcons]
    simp only [if_neg hne]
    rw [if_neg (by simpa using hnone)]
    rfl

end Sys2Proof.Machine
end
section
/-! PROOF. Page 0: unary and immediate operations (R304, R305). -/

namespace Sys2Proof

/-! ### The words of the unary operations (R269, R273, R304) -/

/-- A word of format RR is its opcode with its two fields laid over it. -/
theorem mkRR_or (major : BitVec 5) (a b : BitVec 4) (f : BitVec 3) : mkRR major 0 0 f ||| mkRR 0 a b 0 = mkRR major a b f := by
  have hparts : (0#4 ++ (0#4 ++ f)) ||| (a ++ (b ++ 0#3)) = a ++ (b ++ f) := by
    rw [BitVec.or_append, BitVec.zero_or]
    exact congrArg (a ++ ·) (BitVec.or_append.trans (by rw [BitVec.zero_or, BitVec.or_zero]))
  exact BitVec.or_append.trans (congrArg₂ (· ++ ·) BitVec.or_zero hparts)

theorem fields_eq_mkRR (d a : Reg) : (d.setWidth 16 % 16) <<< 7 ||| (a.setWidth 16 % 16) <<< 3 = mkRR 0 (lo4 d) (lo4 a) 0 := by
  revert d a
  decide

theorem high_of_lt {r : Reg} (h : r.toNat < 16) : high r = false := by
  revert r
  decide

theorem regWord_eq (d a c : Reg) :
    0xFA00 ||| (d.setWidth 16 / 16) <<< 8 ||| (a.setWidth 16 / 16) <<< 7 ||| c.setWidth 16 <<< 2 = leadWord 1 (regBits d a c) := by
  have hda : 0xFA00 ||| (d.setWidth 16 / 16) <<< 8 ||| (a.setWidth 16 / 16) <<< 7 = leadWord 1 (regBits d a 0) := by
    revert d a
    decide
  have hc : c.setWidth 16 <<< 2 = (0#5 ++ (0#2 ++ (0#1 ++ (0#1 ++ (c ++ 0#2)))) : Half) := by
    revert c
    decide
  rw [hda, hc]
  have hlow : (0#5 ++ 0#2) ||| (c ++ 0#2) = c ++ 0#2 := by rw [BitVec.or_append, BitVec.zero_or, BitVec.zero_or]
  have hmid : (a.extractLsb' 4 1 ++ (0#5 ++ 0#2)) ||| (0#1 ++ (c ++ 0#2)) = a.extractLsb' 4 1 ++ (c ++ 0#2) :=
    BitVec.or_append.trans (congrArg₂ (· ++ ·) BitVec.or_zero hlow)
  have hbits : regBits d a 0 ||| (0#1 ++ (0#1 ++ (c ++ 0#2))) = regBits d a c :=
    BitVec.or_append.trans (congrArg₂ (· ++ ·) BitVec.or_zero hmid)
  exact BitVec.or_append.trans (congrArg₂ (· ++ ·) BitVec.or_zero (BitVec.or_append.trans (congrArg₂ (· ++ ·) BitVec.or_zero hbits)))

theorem isLead_mkRR_of_ne {major : BitVec 5} (h : major ≠ 31) (a b : BitVec 4) (f : BitVec 3) : isLead (mkRR major a b f) = false := by
  rw [isLead, mkRR_major]
  exact beq_eq_false_iff_ne.mpr h

section Unary
variable {c : Chain} {d a x : Reg}

/-- The registers that a chain of format RR names, by its fields and its REG payload. -/
theorem Chain.regs_of_fields (hrp : c.rp = regBits d a x) (hfa : c.fa = lo4 d) (hfb : c.fb = lo4 a) :
    c.ra = d ∧ c.rb = a ∧ c.unOk = (x == 0) := by
  refine ⟨?_, ?_, ?_⟩
  · rw [Chain.ra, hrp, hfa, regBits_ah, reg_parts]
  · rw [Chain.rb, hrp, hfb, regBits_bh, reg_parts]
  · rw [Chain.unOk, Chain.regOk, Chain.rc, hrp, regBits_reserved, regBits_c]
    rfl

theorem Chain.unRow_of_fields (hrp : c.rp = regBits d a x) (hfa : c.fa = lo4 d) (hfb : c.fb = lo4 a) (hmod : c.md = none) (himms : c.imms = [])
    (k : Reg → Reg → Instr) : c.unRow k = if x == 0 then some (k d a) else none := by
  obtain ⟨hra, hrb, hok⟩ := Chain.regs_of_fields hrp hfa hfb
  simp [Chain.unRow, hra, hrb, hok, Chain.noMod, Chain.noImm, hmod, himms, keep]

end Unary

/-- An opcode of page 0 whose row is a unary form. -/
def UnaryWord (p : Half × (Reg → Reg → Instr)) : Prop :=
  ∃ (major : BitVec 5) (f : BitVec 3), p.1 = mkRR major 0 0 f ∧ major ≠ 31 ∧ (∀ d a, (p.2 d a).wf = true) ∧
    ∀ c : Chain, c.major = major.toNat → c.ff = f.toNat → c.page = none → rawChain c = c.unRow p.2

theorem rawChain_unpaged {c : Chain} (h : c.page = none) : rawChain c = decodePage0 c := rawChain_page0 (by rw [Chain.pageNum, h])

theorem unaryWord_of_mem : ∀ p ∈ ([(0x1800, .sextB), (0x1801, .sextH), (0x1802, .sextW), (0x1803, .zextB), (0x1804, .zextH), (0x1805, .zextW),
    (0x2000, .clz), (0x2001, .ctz), (0x2002, .popc)] : List (Half × (Reg → Reg → Instr))), UnaryWord p := by
  simp only [List.forall_mem_cons, List.not_mem_nil, false_implies, implies_true, and_true]
  refine ⟨⟨3, 0, by decide, by decide, fun _ _ => rfl, fun c hm hf hp => (rawChain_unpaged hp).trans (by unfold decodePage0; rw [hm, hf]; rfl)⟩,
    ⟨3, 1, by decide, by decide, fun _ _ => rfl, fun c hm hf hp => (rawChain_unpaged hp).trans (by unfold decodePage0; rw [hm, hf]; rfl)⟩,
    ⟨3, 2, by decide, by decide, fun _ _ => rfl, fun c hm hf hp => (rawChain_unpaged hp).trans (by unfold decodePage0; rw [hm, hf]; rfl)⟩,
    ⟨3, 3, by decide, by decide, fun _ _ => rfl, fun c hm hf hp => (rawChain_unpaged hp).trans (by unfold decodePage0; rw [hm, hf]; rfl)⟩,
    ⟨3, 4, by decide, by decide, fun _ _ => rfl, fun c hm hf hp => (rawChain_unpaged hp).trans (by unfold decodePage0; rw [hm, hf]; rfl)⟩,
    ⟨3, 5, by decide, by decide, fun _ _ => rfl, fun c hm hf hp => (rawChain_unpaged hp).trans (by unfold decodePage0; rw [hm, hf]; rfl)⟩,
    ⟨4, 0, by decide, by decide, fun _ _ => rfl, fun c hm hf hp => (rawChain_unpaged hp).trans (by unfold decodePage0; rw [hm, hf]; rfl)⟩,
    ⟨4, 1, by decide, by decide, fun _ _ => rfl, fun c hm hf hp => (rawChain_unpaged hp).trans (by unfold decodePage0; rw [hm, hf]; rfl)⟩,
    ⟨4, 2, by decide, by decide, fun _ _ => rfl, fun c hm hf hp => (rawChain_unpaged hp).trans (by unfold decodePage0; rw [hm, hf]; rfl)⟩⟩

section Words
variable {p : Half × (Reg → Reg → Instr)} (hp : UnaryWord p)
include hp

/-- What a unary word decodes to with an optional REG word before it. -/
theorem UnaryWord.decodeWords (d a x : Reg) (reg : Option (BitVec 9)) (hreg : reg.getD 0 = regBits d a x) :
    decodeWords (Chain.words ⟨none, reg, none, [], p.1 ||| (d.setWidth 16 % 16) <<< 7 ||| (a.setWidth 16 % 16) <<< 3⟩) =
      if x = 0 then .instr (p.2 d a) (reg.toList.length + 1) else .illegal (reg.toList.length + 1) := by
  obtain ⟨major, f, hp, hmajor, hwf, hrow⟩ := hp
  rw [BitVec.or_assoc, fields_eq_mkRR, hp, mkRR_or]
  have hdecode := decodeWords_words (c := ⟨none, reg, none, [], mkRR major (lo4 d) (lo4 a) f⟩) (isLead_mkRR_of_ne hmajor _ _ _) (by simp) (by cases reg <;> simp [Chain.heads]) []
  rw [List.append_nil] at hdecode
  have hraw := (hrow ⟨none, reg, none, [], mkRR major (lo4 d) (lo4 a) f⟩ (congrArg BitVec.toNat (mkRR_major ..)) (congrArg BitVec.toNat (mkRR_ff ..)) rfl).trans
    (Chain.unRow_of_fields (c := ⟨none, reg, none, [], mkRR major (lo4 d) (lo4 a) f⟩) hreg (mkRR_fa ..) (mkRR_fb ..) rfl rfl p.2)
  rw [hdecode, decodeChain, hraw]
  have hlen : (Chain.words ⟨none, reg, none, [], mkRR major (lo4 d) (lo4 a) f⟩).length = reg.toList.length + 1 := by cases reg <;> rfl
  by_cases hx : x = 0
  · simp [hx, hwf, keep, hlen]
  · simp only [show (x == 0) = false from beq_false_of_ne hx, Bool.false_eq_true, if_false, if_neg hx, hlen]

end Words

theorem payload_eq_mkRR (r : BitVec 8) : r.setWidth 16 <<< 3 = mkRR 0 (r.extractLsb' 4 4) (r.extractLsb' 0 4) 0 := by
  revert r
  decide

/-- A code of majors 3 and 4 that no row names. -/
def ReservedUnary (w : Half) : Prop :=
  ∃ (major : BitVec 5) (f : BitVec 3), w = mkRR major 0 0 f ∧ major ≠ 31 ∧ ∀ c : Chain, c.major = major.toNat → c.ff = f.toNat → decodePage0 c = none

theorem reservedUnary_of_mem : ∀ w ∈ ([0x1806, 0x1807, 0x2003, 0x2004, 0x2005, 0x2006, 0x2007] : List Half), ReservedUnary w := by
  simp only [List.forall_mem_cons, List.not_mem_nil, false_implies, implies_true, and_true]
  exact ⟨⟨3, 6, by decide, by decide, fun c hm hf => by unfold decodePage0; rw [hm, hf]; rfl⟩,
    ⟨3, 7, by decide, by decide, fun c hm hf => by unfold decodePage0; rw [hm, hf]; rfl⟩,
    ⟨4, 3, by decide, by decide, fun c hm hf => by unfold decodePage0; rw [hm, hf]; rfl⟩,
    ⟨4, 4, by decide, by decide, fun c hm hf => by unfold decodePage0; rw [hm, hf]; rfl⟩,
    ⟨4, 5, by decide, by decide, fun c hm hf => by unfold decodePage0; rw [hm, hf]; rfl⟩,
    ⟨4, 6, by decide, by decide, fun c hm hf => by unfold decodePage0; rw [hm, hf]; rfl⟩,
    ⟨4, 7, by decide, by decide, fun c hm hf => by unfold decodePage0; rw [hm, hf]; rfl⟩⟩

theorem decodeWords_reservedUnary {w : Half} (hw : ReservedUnary w) (r : BitVec 8) : decodeWords [w ||| r.setWidth 16 <<< 3] = .illegal 1 := by
  obtain ⟨major, f, hw, hmajor, hrow⟩ := hw
  rw [payload_eq_mkRR, hw, mkRR_or]
  exact decodeWords_illegal (c := ⟨none, none, none, [], mkRR major _ _ f⟩) (isLead_mkRR_of_ne hmajor _ _ _) (by simp) (by simp [Chain.heads])
    ((rawChain_unpaged rfl).trans (hrow _ (congrArg BitVec.toNat (mkRR_major ..)) (congrArg BitVec.toNat (mkRR_ff ..))))

end Sys2Proof

namespace Sys2Proof.Machine

/-! ### Counts (R304) -/

theorem leadZeros_eq (a : Word) (n : Nat) (h : a.toNat < 2 ^ n) : leadZeros a n = if a.toNat = 0 then n else n - 1 - Nat.log2 a.toNat := by
  induction n with
  | zero => simp [leadZeros, show a.toNat = 0 by omega]
  | succ n ih =>
    rw [leadZeros, BitVec.getLsbD]
    by_cases hbit : a.toNat.testBit n
    · have hle := Nat.ge_two_pow_of_testBit hbit
      have hlog : Nat.log2 a.toNat = n := (Nat.log2_eq_iff (by omega)).mpr ⟨hle, h⟩
      rw [if_pos hbit, if_neg (by have := Nat.two_pow_pos n; omega), hlog]
      omega
    · have hlt : a.toNat < 2 ^ n := by
        refine Nat.lt_of_not_le fun hle => hbit ?_
        rw [Nat.testBit_eq_decide_div_mod_eq, decide_eq_true_iff, Nat.div_eq_of_lt_le (k := 1) (by omega) (by rw [Nat.pow_succ] at h; omega)]
      rw [if_neg hbit, ih hlt]
      split
      · rfl
      · next hne =>
        have := (Nat.log2_lt hne).mpr hlt
        omega

theorem trailZeros_le (a : Word) (n : Nat) : trailZeros a n ≤ n := by
  induction n with
  | zero => exact Nat.le_refl 0
  | succ n ih =>
    rw [trailZeros]
    split
    · exact Nat.zero_le _
    · omega

theorem trailZeros_below (a : Word) {n i : Nat} (hn : n ≤ 64) (hi : i < trailZeros a n) : a.getLsbD (64 - n + i) = false := by
  induction n generalizing i with
  | zero => simp [trailZeros] at hi
  | succ n ih =>
    rw [trailZeros] at hi
    split at hi
    · omega
    · next hbit =>
      cases i with
      | zero => simpa [show 64 - (n + 1) = 63 - n by omega] using hbit
      | succ i =>
        have := ih (by omega) (i := i) (by omega)
        rwa [show 64 - n + i = 64 - (n + 1) + (i + 1) by omega] at this

theorem trailZeros_at (a : Word) {n : Nat} (hn : n ≤ 64) (h : trailZeros a n < n) : a.getLsbD (64 - n + trailZeros a n) = true := by
  induction n with
  | zero => omega
  | succ n ih =>
    rw [trailZeros] at h ⊢
    split
    · next hbit => rwa [show 64 - (n + 1) + 0 = 63 - n by omega]
    · next hbit =>
      rw [if_neg hbit] at h
      have := ih (by omega) (by omega)
      rwa [show 64 - n + trailZeros a n = 64 - (n + 1) + (trailZeros a n + 1) by omega] at this

theorem popCount_eq (a : Word) (n : Nat) : popCount a n = (List.range n).countP fun i => a.getLsbD i := by
  induction n with
  | zero => rfl
  | succ n ih =>
    rw [popCount, ih, List.range_succ, List.countP_append, Nat.add_comm]
    cases h : a.getLsbD n <;> simp [flag, h]

/-! ### The operations (R304, R305) -/

theorem setWidth_eq_and (a : Word) {n : Nat} (m : Word) (hn : n ≤ 64) (hm : m.toNat = 2 ^ n - 1) : (a.setWidth n).setWidth 64 = a &&& m := by
  apply BitVec.eq_of_toNat_eq
  rw [BitVec.toNat_and, hm, Nat.and_two_pow_sub_one_eq_mod, BitVec.toNat_setWidth, BitVec.toNat_setWidth]
  exact Nat.mod_eq_of_lt (Nat.lt_of_lt_of_le (Nat.mod_lt _ (Nat.two_pow_pos n)) (Nat.pow_le_pow_right (by decide) hn))

/-- Settles O2: the rows of majors 3 and 4 are the nine unary forms, and each operation is one function of its source. -/
theorem unaryAndImmediateResults : Obligations.UnaryAndImmediateResults := by
  refine ⟨fun p hp d a => ?_, fun r w hw => decodeWords_reservedUnary (reservedUnary_of_mem w hw) r, fun s d a imm sh hacts => ?_⟩
  · have hun := unaryWord_of_mem p hp
    refine ⟨fun hd ha => ?_, ?_, fun c hc => ?_⟩
    · simpa [Chain.words] using hun.decodeWords d a 0 none (regBits_low d a (high_of_lt hd) (high_of_lt ha)).symm
    · have hword := regWord_eq d a 0
      rw [show (0 : Reg).setWidth 16 <<< 2 = 0#16 from rfl, BitVec.or_zero] at hword
      rw [hword]
      simpa [Chain.words] using hun.decodeWords d a 0 (some (regBits d a 0)) rfl
    · rw [regWord_eq d a c]
      simpa [Chain.words, show c ≠ 0#5 from hc] using hun.decodeWords d a c (some (regBits d a c)) rfl
  refine ⟨(un1_acts hacts d a _ : execSextB d a s = _), (un1_acts hacts d a _ : execSextH d a s = _), (un1_acts hacts d a _ : execSextW d a s = _), ?zextB, ?zextH, ?zextW, ?clz, ?ctz, ?popc,
    (un1_acts hacts d a _ : execAddi d a imm s = _), (un1_acts hacts d a _ : execAndi d a imm s = _), (un1_acts hacts d a _ : execOri d a imm s = _),
    (un1_acts hacts d a _ : execXori d a imm s = _), ?slti, (un1_acts hacts d a _ : execSlli d a sh s = _), (un1_acts hacts d a _ : execSrli d a sh s = _), ?srai⟩
  case zextB => rw [← setWidth_eq_and _ (n := 8) _ (by decide) (by decide)]; exact (un1_acts hacts d a _ : execZextB d a s = _)
  case zextH => rw [← setWidth_eq_and _ (n := 16) _ (by decide) (by decide)]; exact (un1_acts hacts d a _ : execZextH d a s = _)
  case zextW => rw [← setWidth_eq_and _ (n := 32) _ (by decide) (by decide)]; exact (un1_acts hacts d a _ : execZextW d a s = _)
  case clz =>
    refine (un1_acts hacts d a _ : execClz d a s = _).trans ?_
    rw [leadZeros_eq _ 64 (s.x a).isLt]
    have hzero : (s.x a).toNat = 0 ↔ s.x a = 0 := ⟨fun h => BitVec.eq_of_toNat_eq h, fun h => by rw [h]; rfl⟩
    by_cases hz : s.x a = 0
    · rw [if_pos (hzero.mpr hz), if_pos hz]
      rfl
    · rw [if_neg (fun h => hz (hzero.mp h)), if_neg hz]
  case ctz =>
    refine ⟨trailZeros (s.x a) 64, trailZeros_le _ _, (un1_acts hacts d a _ : execCtz d a s = _), fun i hi => ?_, fun h => ?_⟩
    · simpa using trailZeros_below (s.x a) (Nat.le_refl 64) hi
    · simpa using trailZeros_at (s.x a) (Nat.le_refl 64) h
  case popc => rw [← popCount_eq]; exact (un1_acts hacts d a _ : execPopc d a s = _)
  case slti => rw [← boolWord_slt]; exact (un1_acts hacts d a _ : execSlti d a imm s = _)
  case srai => rw [← sshiftRight_eq_ofInt]; exact (un1_acts hacts d a _ : execSrai d a sh s = _)

end Sys2Proof.Machine
end
section
/-! PROOF. Page 0: compares and the predicate stack (R300 to R302). -/

namespace Sys2Proof

theorem decodePage0_plain_reserved {c : Chain} (hmajor : c.major = 21) (hcode : 4 < c.i11.toNat) : decodePage0 c = none := by
  obtain ⟨f, hf, hff⟩ : ∃ f, f < 8 ∧ c.ff = f := ⟨_, BitVec.isLt _, rfl⟩
  obtain ⟨n, hn⟩ : ∃ n, c.i11.toNat = n + 5 := ⟨c.i11.toNat - 5, by omega⟩
  unfold decodePage0
  rw [hmajor, hff, hn]
  interval_cases f <;> exact ite_self none

/-- The codes of format N above the stack instructions name nothing (R302). -/
theorem decodeWords_plain_reserved (f : BitVec 11) (hf : 4 < f) : decodeWords [0xA800 ||| f.setWidth 16] = .illegal 1 := by
  have hword : 0xA800 ||| f.setWidth 16 = mkJ 21 f := by
    rw [show f.setWidth 16 = (0#5 ++ f : Half) from BitVec.setWidth_eq_append (by decide), show (0xA800 : Half) = 21#5 ++ 0#11 from rfl]
    exact BitVec.or_append.trans (congrArg₂ (· ++ ·) BitVec.or_zero BitVec.zero_or)
  have hlead : isLead (mkJ 21 f) = false := by
    rw [isLead, mkJ_major]
    rfl
  have hi11 : (Chain.mk none none none [] (mkJ 21 f)).i11 = f := mkJ_i11 ..
  rw [hword]
  exact decodeWords_illegal (c := ⟨none, none, none, [], mkJ 21 f⟩) hlead (by simp) (by simp [Chain.heads])
    ((rawChain_unpaged rfl).trans (decodePage0_plain_reserved (congrArg BitVec.toNat (mkJ_major ..)) (by rw [hi11]; exact hf)))

end Sys2Proof

namespace Sys2Proof.Machine

/-! ### Bits of the predicate stack (R300) -/

/-- The entries below a place keep theirs, and the number above it gives the others. -/
theorem getLsbD_stacked (v x keep k : Nat) (hk : k < 16) :
    (BitVec.ofNat 16 (v % 2 ^ keep + at_ x keep)).getLsbD k = if k < keep then v.testBit k else x.testBit (k - keep) := by
  rw [BitVec.getLsbD_ofNat, decide_eq_true hk, Bool.true_and, at_, Nat.mul_comm, Nat.add_comm,
    Nat.testBit_two_pow_mul_add _ (Nat.mod_lt _ (Nat.two_pow_pos keep)), Nat.testBit_mod_two_pow]
  split
  · next h => rw [decide_eq_true h, Bool.true_and]
  · rfl

/-! ### Compares (R301) -/

theorem push_room {s : State} (hroom : s.me.prDepth.toNat < 16) (c : Bool) :
    push s c = .next (s.setSlot s.cur { s.me with
      prVals := BitVec.ofNat 16 (s.me.prVals.toNat % 2 ^ s.me.prDepth.toNat + at_ (flag c) s.me.prDepth.toNat), prDepth := s.me.prDepth + 1 }) :=
  if_neg (Nat.not_le.mpr hroom)

theorem push_full {s : State} (hfull : 16 ≤ s.me.prDepth.toNat) (c : Bool) : push s c = .trap s Cause.illegal 0 0 := if_pos hfull

theorem at_flag (c : Bool) (k : Nat) : at_ (flag c) k = if c then 2 ^ k else 0 := by
  cases c
  · exact Nat.zero_mul _
  · exact Nat.one_mul _

section Compare
variable {s : State} (hpacket : s.me.packet = none)
include hpacket

theorem cmp2_room (hroom : s.me.prDepth.toNat < 16) (f : Nat) (a b : Reg) (c : Bool) (hc : cond f (s.x a) (s.x b) = c) :
    cmp2 s f a b = .next (s.setSlot s.cur { s.me with
      prVals := BitVec.ofNat 16 (s.me.prVals.toNat % 2 ^ s.me.prDepth.toNat + (if c then 2 ^ s.me.prDepth.toNat else 0))
      prDepth := s.me.prDepth + 1, pc := s.me.npc }) := by
  rw [cmp2, always_acts hpacket, push_room hroom, hc, at_flag]
  simp

theorem cmpImm_room (hroom : s.me.prDepth.toNat < 16) (f : Nat) (a : Reg) (imm : Word) (c : Bool) (hc : cond f (s.x a) imm = c) :
    cmpImm s f a imm = .next (s.setSlot s.cur { s.me with
      prVals := BitVec.ofNat 16 (s.me.prVals.toNat % 2 ^ s.me.prDepth.toNat + (if c then 2 ^ s.me.prDepth.toNat else 0))
      prDepth := s.me.prDepth + 1, pc := s.me.npc }) := by
  rw [cmpImm, always_acts hpacket, push_room hroom, hc, at_flag]
  simp

theorem cmp2_full (hfull : 16 ≤ s.me.prDepth.toNat) (f : Nat) (a b : Reg) : cmp2 s f a b = .next (s.takeTrap s.cur Cause.illegal 0 0) := by
  rw [cmp2, always_acts hpacket, push_full hfull, finish_trap]

theorem cmpImm_full (hfull : 16 ≤ s.me.prDepth.toNat) (f : Nat) (a : Reg) (imm : Word) :
    cmpImm s f a imm = .next (s.takeTrap s.cur Cause.illegal 0 0) := by
  rw [cmpImm, always_acts hpacket, push_full hfull, finish_trap]

/-! ### Stack instructions (R302) -/

theorem stackOp_short {n : Nat} (h : s.me.prDepth.toNat < n) (f : Bool → Bool → List Bool) :
    stackOp s n f = .next (s.takeTrap s.cur Cause.illegal 0 0) := by
  rw [stackOp, always_acts hpacket, if_pos h, finish_trap]

/-- The top n entries give way to at most one. -/
theorem stackOp_leaves {o : Out} {n : Nat} {f : Bool → Bool → List Bool} {top : Option Bool} (ho : o = stackOp s n f) (hpos : 1 ≤ n) (hn : n ≤ s.me.prDepth.toNat)
    (hdepth : s.me.prDepth.toNat ≤ 16) (hf : f (s.me.entry (s.me.prDepth.toNat - 1)) (s.me.entry (s.me.prDepth.toNat - 2)) = top.toList) :
    ∃ vals : BitVec 16, o = .next (s.setSlot s.cur { s.me with
        prVals := vals, prDepth := BitVec.ofNat 5 (s.me.prDepth.toNat - n + (if top.isSome then 1 else 0)), pc := s.me.npc }) ∧
      (∀ k, k < s.me.prDepth.toNat - n → vals.getLsbD k = s.me.prVals.getLsbD k) ∧ (∀ c, top = some c → vals.getLsbD (s.me.prDepth.toNat - n) = c) ∧
      ∀ k, s.me.prDepth.toNat - n + (if top.isSome then 1 else 0) ≤ k → vals.getLsbD k = false := by
  have hlen : top.toList.length = if top.isSome then 1 else 0 := by cases top <;> rfl
  have hbits := getLsbD_stacked s.me.prVals.toNat (restack.natOfBits top.toList) (s.me.prDepth.toNat - n)
  refine ⟨BitVec.ofNat 16 (s.me.prVals.toNat % 2 ^ (s.me.prDepth.toNat - n) + at_ (restack.natOfBits top.toList) (s.me.prDepth.toNat - n)), ?_,
    fun k hk => ?_, fun c hc => ?_, fun k hk => ?_⟩
  · rw [ho, stackOp, always_acts hpacket, if_neg (Nat.not_lt.mpr hn), hf, finish_next, restack, hlen]
    simp
  · rw [hbits k (by omega), if_pos hk]
    rfl
  · rw [hbits _ (by omega), if_neg (Nat.lt_irrefl _), Nat.sub_self, hc]
    cases c <;> rfl
  · by_cases hlt : k < 16
    · rw [hbits k hlt, if_neg (by omega)]
      cases top with
      | none => exact Nat.zero_testBit _
      | some c =>
        obtain ⟨j, hj⟩ : ∃ j, k - (s.me.prDepth.toNat - n) = j + 1 := ⟨k - (s.me.prDepth.toNat - n) - 1, by simp at hk; omega⟩
        rw [hj, Nat.testBit_succ]
        cases c <;> simp [restack.natOfBits, flag]
    · exact BitVec.getLsbD_of_ge _ _ (by omega)

end Compare

/-- Settles O4: a compare pushes above the depth, and a stack instruction puts at most one entry where its sources stood. -/
theorem predicateStack : Obligations.PredicateStack := by
  refine ⟨fun p hp => ⟨?_, fun w k hk => ?_⟩, decodeWords_plain_reserved, fun s a b imm hpacket => ⟨fun hroom => ?_, fun hfull => ?_⟩,
    fun s hpacket hdepth => ⟨fun h2 => ⟨?_, ?_⟩, fun h1 => ⟨?_, ?_⟩, fun h2 => ?_, fun h0 => ?_⟩⟩
  · simp only [List.mem_cons, List.not_mem_nil, or_false] at hp
    rcases hp with rfl | rfl | rfl | rfl <;> decide
  · refine decodeWords_lead_plain hk w ?_
    simp only [List.mem_cons, List.not_mem_nil, or_false] at hp
    rcases hp with rfl | rfl | rfl | rfl <;> simp [plainWords]
  · exact ⟨cmp2_room hpacket hroom 0 a b _ rfl, cmp2_room hpacket hroom 1 a b _ rfl, cmp2_room hpacket hroom 2 a b _ rfl,
      cmp2_room hpacket hroom 3 a b _ (sge_iff _ _), cmp2_room hpacket hroom 4 a b _ rfl, cmp2_room hpacket hroom 5 a b _ (uge_eq_decide _ _),
      cmpImm_room hpacket hroom 0 a imm _ rfl, cmpImm_room hpacket hroom 2 a imm _ rfl⟩
  · simp only [List.forall_mem_cons, List.not_mem_nil, false_implies, implies_true, and_true]
    exact ⟨cmp2_full hpacket hfull 0 a b, cmp2_full hpacket hfull 1 a b, cmp2_full hpacket hfull 2 a b, cmp2_full hpacket hfull 3 a b,
      cmp2_full hpacket hfull 4 a b, cmp2_full hpacket hfull 5 a b, cmpImm_full hpacket hfull 0 a imm, cmpImm_full hpacket hfull 2 a imm⟩
  · exact stackOp_leaves hpacket (top := some _) (rfl : execPand s = _) (by decide) h2 hdepth rfl
  · exact stackOp_leaves hpacket (top := some _) (rfl : execPor s = _) (by decide) h2 hdepth rfl
  · exact stackOp_leaves hpacket (top := some _) (rfl : execPnot s = _) (by decide) h1 hdepth rfl
  · exact stackOp_leaves hpacket (top := none) (rfl : execPend s = _) (by decide) h1 hdepth rfl
  · exact ⟨(stackOp_short hpacket h2 _ : execPand s = _), (stackOp_short hpacket h2 _ : execPor s = _)⟩
  · exact ⟨(stackOp_short hpacket (by omega) _ : execPnot s = _), (stackOp_short hpacket (by omega) _ : execPend s = _)⟩

end Sys2Proof.Machine
end
section
/-! PROOF. Page 0: scalar floating point (R311 to R314). -/

namespace Sys2Proof.Machine

/-! ### The width of a rounded result (R32, R40) -/

theorem flag_le (b : Bool) : flag b ≤ 1 := by cases b <;> decide

theorem roundMag_le (rm : Nat) (neg : Bool) (r m sh : Nat) : roundMag rm neg r m sh ≤ m / 2 ^ sh + 1 := Nat.add_le_add_left (flag_le _) _

/-- The significand before the carry is at most one past the format's own. -/
theorem significand_le {m : Nat} {e qe : Int} (fb : Nat) (hm : m ≠ 0) (hplace : Int.ofNat (Nat.log2 m) + e ≤ qe + Int.ofNat fb) (rm : Nat) (neg : Bool) (r : Nat) :
    (if qe ≤ e then m * 2 ^ (e - qe).toNat else roundMag rm neg r m (qe - e).toNat) ≤ 2 ^ (fb + 1) := by
  have hlt : m < 2 ^ (Nat.log2 m + 1) := (Nat.log2_lt hm).mp (Nat.lt_succ_self _)
  simp only [Int.ofNat_eq_natCast] at hplace
  split
  · calc m * 2 ^ (e - qe).toNat ≤ 2 ^ (Nat.log2 m + 1) * 2 ^ (e - qe).toNat := Nat.mul_le_mul_right _ hlt.le
      _ = 2 ^ (Nat.log2 m + 1 + (e - qe).toNat) := (Nat.pow_add _ _ _).symm
      _ ≤ 2 ^ (fb + 1) := Nat.pow_le_pow_right (by decide) (by omega)
  · have hpow : 2 ^ (Nat.log2 m + 1) ≤ 2 ^ (qe - e).toNat * 2 ^ (fb + 1) := by
      rw [← Nat.pow_add]
      exact Nat.pow_le_pow_right (by decide) (by omega)
    have hdiv : m / 2 ^ (qe - e).toNat < 2 ^ (fb + 1) := Nat.div_lt_of_lt_mul (hlt.trans_le hpow)
    exact (roundMag_le rm neg r m _).trans hdiv

/-- Exponent and fraction fields of a result in range. -/
theorem FFmt.body_lt (f : FFmt) {ef : Int} {sig : Nat} (hsig : sig < 2 ^ (f.fb + 1)) (hef : ef < Int.ofNat f.emax) :
    (if sig < 2 ^ f.fb then sig else ef.toNat * 2 ^ f.fb + (sig - 2 ^ f.fb)) < 2 ^ (f.eb + f.fb) := by
  have hpos : 0 < 2 ^ f.eb := Nat.two_pow_pos _
  unfold FFmt.emax at hef
  have hle : (ef.toNat + 1) * 2 ^ f.fb ≤ 2 ^ f.eb * 2 ^ f.fb := Nat.mul_le_mul_right _ (by simp only [Int.ofNat_eq_natCast] at hef; omega)
  rw [Nat.pow_succ] at hsig
  rw [Nat.pow_add]
  split
  · exact lt_of_lt_of_le ‹_› (Nat.le_mul_of_pos_left _ hpos)
  · rw [Nat.add_mul] at hle
    omega

theorem FFmt.signBit_add_lt (f : FFmt) (neg : Bool) {body : Nat} (h : body < 2 ^ (f.eb + f.fb)) : f.signBit neg + body < 2 ^ f.width := by
  have hpow : 2 ^ f.width = 2 ^ (f.eb + f.fb) + 2 ^ (f.eb + f.fb) := by
    rw [FFmt.width, show 1 + f.eb + f.fb = f.eb + f.fb + 1 by omega, Nat.pow_succ]
    omega
  have hle : flag neg * 2 ^ (f.eb + f.fb) ≤ 1 * 2 ^ (f.eb + f.fb) := Nat.mul_le_mul_right _ (flag_le neg)
  unfold FFmt.signBit
  omega

/-- The special patterns of the scalar formats. -/
theorem special_lt {f : FFmt} (hf : f ∈ [fmtF32, fmtBf16, fmtF16]) :
    f.e4m3 = false ∧ f.width ≤ 32 ∧ f.nanBits < 2 ^ f.width ∧ ∀ neg, f.infBits neg < 2 ^ f.width ∧ f.maxBits neg < 2 ^ f.width := by
  revert f
  decide

theorem overflowBits_lt {f : FFmt} (hf : f ∈ [fmtF32, fmtBf16, fmtF16]) (rm : Nat) (sat neg : Bool) : overflowBits f rm sat neg < 2 ^ f.width := by
  obtain ⟨he, -, -, hspecial⟩ := special_lt hf
  obtain ⟨hinf, hmax⟩ := hspecial neg
  unfold overflowBits
  rw [if_neg (Bool.eq_false_iff.mp he)]
  split
  · exact hmax
  · split
    · exact hmax
    · split
      · exact hinf
      · exact hmax
    · split
      · exact hmax
      · exact hinf
    · exact hinf

/-- A finite nonzero value overflows, or its rounded significand and exponent lie in range. -/
theorem FFmt.round_fin_cases {f : FFmt} (he : f.e4m3 = false) {m : Nat} (hm : m ≠ 0) (rm : Nat) (sat : Bool) (r : Nat) (neg : Bool) (e : Int) :
    f.round rm sat r (.fin neg m e) = (overflowBits f rm sat neg, flagOf + flagNx) ∨
      ∃ (sig : Nat) (ef : Int) (exact tiny : Bool), sig < 2 ^ (f.fb + 1) ∧ ef < Int.ofNat f.emax ∧
        f.round rm sat r (.fin neg m e) = (f.signBit neg + (if sig < 2 ^ f.fb then sig else ef.toNat * 2 ^ f.fb + (sig - 2 ^ f.fb)),
          (if exact then 0 else flagNx) + (if !exact && tiny then flagUf else 0)) := by
  rw [FFmt.round, if_neg hm]
  simp only [he, Bool.false_eq_true, if_false]
  generalize hqe : (if Int.ofNat (Nat.log2 m) + e < 1 - Int.ofNat f.bias then 1 - Int.ofNat f.bias else Int.ofNat (Nat.log2 m) + e) - Int.ofNat f.fb = qe
  have hsig := significand_le f.fb hm (qe := qe) (e := e) (by rw [← hqe]; split <;> omega) rm neg r
  generalize (if qe ≤ e then m * 2 ^ (e - qe).toNat else roundMag rm neg r m (qe - e).toNat) = sig at hsig ⊢
  have hsig2 : (if decide (2 ^ (f.fb + 1) ≤ sig) = true then sig / 2 else sig) < 2 ^ (f.fb + 1) := by
    have := Nat.two_pow_pos (f.fb + 1)
    split
    · omega
    · next h => simpa using h
  generalize (if decide (2 ^ (f.fb + 1) ≤ sig) = true then sig / 2 else sig) = sig2 at hsig2 ⊢
  generalize (if decide (2 ^ (f.fb + 1) ≤ sig) = true then qe + 1 else qe) + Int.ofNat f.fb + Int.ofNat f.bias = ef
  by_cases hbig : Int.ofNat f.emax ≤ ef
  · exact .inl (if_pos (decide_eq_true hbig))
  · exact .inr ⟨sig2, ef, _, _, hsig2, Int.not_le.mp hbig, if_neg (by simpa using hbig)⟩

theorem FFmt.round_lt {f : FFmt} (hf : f ∈ [fmtF32, fmtBf16, fmtF16]) (rm : Nat) (sat : Bool) (r : Nat) (v : FVal) :
    (f.round rm sat r v).1 < 2 ^ f.width := by
  obtain ⟨he, -, hnan, hspecial⟩ := special_lt hf
  cases v with
  | nan => exact hnan
  | inf neg => exact (hspecial neg).1
  | fin neg m e =>
    by_cases hm : m = 0
    · rw [hm, FFmt.round_zero]
      exact f.signBit_add_lt neg (Nat.two_pow_pos _)
    · rcases FFmt.round_fin_cases he hm rm sat r neg e with h | ⟨sig, ef, exact, tiny, hsig, hef, h⟩
      · rw [h]
        exact overflowBits_lt hf rm sat neg
      · rw [h]
        exact f.signBit_add_lt neg (f.body_lt hsig hef)

/-! ### The flags that an operation raises (R43) -/

theorem FFmt.round_flags {f : FFmt} (he : f.e4m3 = false) (rm : Nat) (sat : Bool) (r : Nat) (v : FVal) : (f.round rm sat r v).2 < 64 := by
  cases v with
  | nan => exact (by decide : 0 < 64)
  | inf neg =>
    rw [FFmt.round, he]
    exact (by decide : 0 < 64)
  | fin neg m e =>
    by_cases hm : m = 0
    · rw [hm, FFmt.round_zero]
      exact (by decide : 0 < 64)
    · rcases FFmt.round_fin_cases he hm rm sat r neg e with h | ⟨sig, ef, exact, tiny, hsig, hef, h⟩
      · rw [h]
        exact (by decide : 20 < 64)
      · rw [h]
        cases exact <;> cases tiny <;> simp [flagNx, flagUf]

theorem Fp.round_lt {f : FFmt} (hf : f ∈ [fmtF32, fmtBf16, fmtF16]) (p : Fp) (rm : Nat) (sat : Bool) (v : FVal × Nat) : (p.round f rm sat v).1 < 2 ^ f.width :=
  FFmt.round_lt hf rm sat _ v.1

/-- The arithmetic side after a rounding: flags of fp.ctl [13:8], and a step of the generator in SR mode alone. -/
theorem Fp.round_side (p : Fp) {f : FFmt} (he : f.e4m3 = false) (rm : Nat) (sat : Bool) {v : FVal × Nat} (hv : v.2 < 64) :
    (∃ fl, fl < 64 ∧ (p.round f rm sat v).2.ctl = addFlags p.ctl fl) ∧
      ((p.round f rm sat v).2.rng = p.rng ∨ rm = 4 ∧ (p.round f rm sat v).2.rng = rngStep p.rng) := by
  have hfl : ∀ r, (f.round rm sat r v.1).2 ||| v.2 < 64 := fun r => Nat.or_lt_two_pow (n := 6) (FFmt.round_flags he rm sat r v.1) hv
  unfold Fp.round
  by_cases h : (rm = 4 && v.1.rounds) = true
  · rw [if_pos h]
    exact ⟨⟨_, hfl _, rfl⟩, .inr ⟨by simp at h; exact h.1, rfl⟩⟩
  · rw [if_neg h]
    exact ⟨⟨_, hfl _, rfl⟩, .inl rfl⟩

theorem addFlags_other {fl : Nat} (hfl : fl < 64) (ctl : Word) : addFlags ctl fl &&& ~~~0x3F00 = ctl &&& ~~~0x3F00 := by
  have hnone : BitVec.ofNat 64 (fl * 256) &&& ~~~0x3F00 = 0#64 := by
    interval_cases fl <;> rfl
  rw [addFlags, BitVec.and_comm, BitVec.and_or_distrib_left, BitVec.and_comm, BitVec.and_comm (~~~_) (BitVec.ofNat _ _), hnone, BitVec.or_zero]

section Exact
variable (rd : Bool) (a b c : FVal)

theorem fAdd_flags : (fAdd rd a b).2 < 64 := by
  unfold fAdd
  split
  · simp [flagNv, flagDz]
  · simp [flagNv, flagDz]
  · split <;> simp [flagNv, flagDz]
  · simp [flagNv, flagDz]
  · simp [flagNv, flagDz]
  · dsimp only
    split <;> simp [flagNv, flagDz]

theorem fMul_flags : (fMul a b).2 < 64 := by
  unfold fMul
  split
  · simp [flagNv, flagDz]
  · simp [flagNv, flagDz]
  · simp [flagNv, flagDz]
  · split <;> simp [flagNv, flagDz]
  · split <;> simp [flagNv, flagDz]
  · simp [flagNv, flagDz]

theorem fDiv_flags : (fDiv a b).2 < 64 := by
  unfold fDiv
  split
  · simp [flagNv, flagDz]
  · simp [flagNv, flagDz]
  · simp [flagNv, flagDz]
  · simp [flagNv, flagDz]
  · simp [flagNv, flagDz]
  · split
    · split <;> simp [flagNv, flagDz]
    · simp [flagNv, flagDz]

theorem fSqrt_flags : (fSqrt a).2 < 64 := by
  unfold fSqrt
  split
  · simp [flagNv, flagDz]
  · split <;> simp [flagNv, flagDz]
  · split
    · simp [flagNv, flagDz]
    · split <;> simp [flagNv, flagDz]

theorem fFma_flags : (fFma rd a b c).2 < 64 := by
  have hmul := fMul_flags a b
  unfold fFma
  generalize fMul a b = p at hmul ⊢
  dsimp only
  split
  · exact hmul
  · exact fAdd_flags rd _ c

end Exact

/-! ### The frame of a floating result (R311, R312) -/

theorem ftyFmt_mem (ty : FTy) : ftyFmt ty ∈ [fmtF32, fmtBf16, fmtF16] := by cases ty <;> decide

/-- What a floating form may change: its register, the sticky flags, and in SR mode the generator. -/
def State.FloatStep (s : State) (d : Reg) (width mode : Nat) (t : State) : Prop :=
  t = s.setSlot s.cur { s.me with x := t.me.x, fpCtl := t.me.fpCtl, rng := t.me.rng, pc := s.me.npc } ∧
    (∀ r, r ≠ d → t.x r = s.x r) ∧ (t.x d).toNat < 2 ^ width ∧
    s.me.fpCtl &&& t.me.fpCtl = s.me.fpCtl ∧ t.me.fpCtl &&& ~~~0x3F00 = s.me.fpCtl &&& ~~~0x3F00 ∧
    (t.me.rng = s.me.rng ∨ mode = 4 ∧ t.me.rng = rngStep s.me.rng) ∧ s.sameBytes t

theorem State.setFp_setX_advance (s : State) (p : Fp) (d : Reg) (v : Word) :
    ((s.setFp p).setX d v).advance = s.setSlot s.cur { s.me with x := (s.me.setXr d v).x, fpCtl := p.ctl, rng := p.rng, pc := s.me.npc } := by
  rw [State.setX_advance]
  simp only [State.setFp, State.modMe_eq, State.setSlot_cur, State.setSlot_me, State.setSlot_setSlot, Slot.setXr]
  split <;> rfl

theorem State.floatStep_of {s : State} {p : Fp} {mode fl : Nat} (hfl : fl < 64) (hctl : p.ctl = addFlags s.me.fpCtl fl)
    (hrng : p.rng = s.me.rng ∨ mode = 4 ∧ p.rng = rngStep s.me.rng) (d : Reg) {b width : Nat} (hb : b < 2 ^ width) :
    s.FloatStep d width mode ((s.setFp p).setX d (BitVec.ofNat 64 b)).advance := by
  rw [State.setFp_setX_advance]
  have hx : ∀ r, (s.setSlot s.cur { s.me with x := (s.me.setXr d (BitVec.ofNat 64 b)).x, fpCtl := p.ctl, rng := p.rng, pc := s.me.npc }).x r =
      if r = d ∧ d ≠ 0 then BitVec.ofNat 64 b else s.x r := fun r => by
    rw [State.x, State.setSlot_me]
    exact Slot.xr_setXr s.me d r _
  refine ⟨by rw [State.setSlot_me], fun r hr => ?_, ?_, ?_, ?_, ?_, State.sameBytes_setSlot s _ _⟩
  · rw [hx, if_neg fun h => hr h.1]
  · rw [hx]
    split
    · exact (Nat.mod_le _ _).trans_lt hb
    · next h =>
      have hd : d = 0 := by_contra fun hne => h ⟨rfl, hne⟩
      rw [hd]
      exact Nat.two_pow_pos width
  · rw [State.setSlot_me, hctl, and_addFlags]
  · rw [State.setSlot_me, hctl, addFlags_other hfl]
  · rwa [State.setSlot_me]

/-- A rounded form, by its exact value. -/
theorem fArith_acts {s : State} (hacts : s.acts) (d a b : Reg) (m : FMod) (op : Bool → FVal → FVal → FVal → FVal × Nat) {o : Out}
    (ho : o = fArith s d a b m op) :
    let f := ftyFmt m.ty
    let rm := s.fp.mode m.rm.toNat
    let v := op (rm == 2) (f.value ((s.x d).toNat % 2 ^ f.width)) (f.value ((s.x a).toNat % 2 ^ f.width)) (f.value ((s.x b).toNat % 2 ^ f.width))
    o = .next ((s.setFp (s.fp.round f rm m.sat v).2).setX d (BitVec.ofNat 64 (s.fp.round f rm m.sat v).1)).advance := ho.trans (guarded_acts hacts _)

theorem fArith_step {s : State} (hacts : s.acts) (d a b : Reg) (m : FMod) {op : Bool → FVal → FVal → FVal → FVal × Nat}
    (hop : ∀ rd x y z, (op rd x y z).2 < 64) {o : Out} (ho : o = fArith s d a b m op) :
    ∃ t, o = .next t ∧ s.FloatStep d (ftyFmt m.ty).width (s.fp.mode m.rm.toNat) t := by
  obtain ⟨⟨fl, hfl, hctl⟩, hrng⟩ := Fp.round_side s.fp (special_lt (ftyFmt_mem m.ty)).1 (s.fp.mode m.rm.toNat) m.sat (hop (s.fp.mode m.rm.toNat == 2)
    (asFloat (ftyFmt m.ty) (s.x d)) (asFloat (ftyFmt m.ty) (s.x a)) (asFloat (ftyFmt m.ty) (s.x b)))
  exact ⟨_, fArith_acts hacts d a b m op ho, State.floatStep_of hfl hctl hrng d (Fp.round_lt (ftyFmt_mem m.ty) _ _ _ _)⟩

/-- A form that picks one of its sources. -/
theorem fPick_acts {s : State} (hacts : s.acts) (d a b : Reg) (ty : FTy) (op : FVal → FVal → FVal) {o : Out} (ho : o = fPick s d a b ty op) :
    let f := ftyFmt ty
    o = .next (s.setX d (BitVec.ofNat 64
      (f.round 0 false 0 (op (f.value ((s.x a).toNat % 2 ^ f.width)) (f.value ((s.x b).toNat % 2 ^ f.width)))).1)).advance :=
  ho.trans (guarded_acts hacts _)

theorem fPick_step {s : State} (hacts : s.acts) (d a b : Reg) (ty : FTy) (mode : Nat) {op : FVal → FVal → FVal} {o : Out} (ho : o = fPick s d a b ty op) :
    ∃ t, o = .next t ∧ s.FloatStep d (ftyFmt ty).width mode t := by
  have hstep := State.floatStep_of (s := s) (p := s.fp) (mode := mode) (by decide : 0 < 64) (by simp [addFlags, State.fp]) (.inl rfl) d
    (FFmt.round_lt (ftyFmt_mem ty) 0 false 0 (op (asFloat (ftyFmt ty) (s.x a)) (asFloat (ftyFmt ty) (s.x b))))
  rw [State.setFp_setX_advance] at hstep
  have hacts := fPick_acts hacts d a b ty op ho
  dsimp only at hacts
  rw [State.setX_advance, Slot.setXr_frame] at hacts
  exact ⟨_, hacts, hstep⟩

/-- Settles O8: one rounding of the exact value, and the frame of a floating result. -/
theorem floatResults : Obligations.FloatResults := by
  intro s d a b m hacts
  refine ⟨(fArith_acts hacts d a b m _ rfl : execFadd d a b m s = _), (fArith_acts hacts d a b m _ rfl : execFsub d a b m s = _),
    (fArith_acts hacts d a b m _ rfl : execFmul d a b m s = _), (fArith_acts hacts d a b m _ rfl : execFdiv d a b m s = _),
    (fArith_acts hacts d a b m _ rfl : execFmadd d a b m s = _), (fArith_acts hacts d a a m _ rfl : execFsqrt d a m s = _),
    (fPick_acts hacts d a b m.ty _ rfl : execFmin d a b m.ty s = _), (fPick_acts hacts d a b m.ty _ rfl : execFmax d a b m.ty s = _), ?_⟩
  simp only [List.forall_mem_cons, List.not_mem_nil, false_implies, implies_true, and_true]
  exact ⟨(fArith_step hacts d a b m (fun _ _ _ _ => fAdd_flags _ _ _) rfl : ∃ t, execFadd d a b m s = .next t ∧ _),
    (fArith_step hacts d a b m (fun _ _ _ _ => fAdd_flags _ _ _) rfl : ∃ t, execFsub d a b m s = .next t ∧ _),
    (fArith_step hacts d a b m (fun _ _ _ _ => fMul_flags _ _) rfl : ∃ t, execFmul d a b m s = .next t ∧ _),
    (fArith_step hacts d a b m (fun _ _ _ _ => fDiv_flags _ _) rfl : ∃ t, execFdiv d a b m s = .next t ∧ _),
    (fArith_step hacts d a b m (fun _ _ _ _ => fFma_flags _ _ _ _) rfl : ∃ t, execFmadd d a b m s = .next t ∧ _),
    (fArith_step hacts d a a m (fun _ _ _ _ => fSqrt_flags _) rfl : ∃ t, execFsqrt d a m s = .next t ∧ _),
    (fPick_step hacts d a b m.ty _ rfl : ∃ t, execFmin d a b m.ty s = .next t ∧ _), (fPick_step hacts d a b m.ty _ rfl : ∃ t, execFmax d a b m.ty s = .next t ∧ _)⟩

end Sys2Proof.Machine
end
section
/-! PROOF. Conversions and floating compares (R313, R314), firmware registers on a user core (R315, R318), and setvl (R349). -/

namespace Sys2Proof.Machine

/-! ### Conversions and compares (R313, R314) -/

theorem FVal.isNan_iff (x : FVal) : x.isNan = true ↔ x = .nan := by cases x <;> simp [FVal.isNan]

theorem imin_comm (a b : Int) : imin a b = imin b a := by
  unfold imin
  split <;> split <;> omega

/-- No two values lie each below the other. -/
theorem fLt_asymm {x y : FVal} (h : fLt x y = true) : fLt y x = false := by
  cases x with
  | nan => simp [fLt] at h
  | inf a =>
    cases y with
    | nan => rfl
    | inf b => cases a <;> cases b <;> simp_all [fLt]
    | fin nb mb eb => simp_all [fLt]
  | fin na ma ea =>
    cases y with
    | nan => rfl
    | inf b => simp_all [fLt]
    | fin nb mb eb =>
      simp only [fLt, decide_eq_true_eq, decide_eq_false_iff_not, Int.not_lt, imin_comm eb ea] at h ⊢
      exact Int.le_of_lt h

theorem fEq_numbers {x y : FVal} (hx : x ≠ .nan) (hy : y ≠ .nan) : fEq x y = (!fLt x y && !fLt y x) := by
  cases x with
  | nan => exact absurd rfl hx
  | inf a =>
    cases y with
    | nan => exact absurd rfl hy
    | inf b => rfl
    | fin nb mb eb => rfl
  | fin na ma ea =>
    cases y with
    | nan => exact absurd rfl hy
    | inf b => rfl
    | fin nb mb eb => rfl

theorem fLe_numbers {x y : FVal} (hx : x ≠ .nan) (hy : y ≠ .nan) : (fLt x y || fEq x y) = !fLt y x := by
  rw [fEq_numbers hx hy]
  cases h : fLt x y
  · simp
  · simp [fLt_asymm h]

/-- A compare with room on the stack: the entry that it pushes, and nv where an operand is a NaN. -/
theorem fCompare_acts {s : State} (hacts : s.acts) (hroom : s.me.prDepth.toNat < 16) (a b : Reg) (ty : FTy) {cmp : FVal → FVal → Bool}
    (c : Bool) {o : Out} (ho : o = fCompare s a b ty cmp) :
    let f := ftyFmt ty
    let x := f.value ((s.x a).toNat % 2 ^ f.width)
    let y := f.value ((s.x b).toNat % 2 ^ f.width)
    (x ≠ .nan → y ≠ .nan → cmp x y = c) →
    ∃ t, o = .next t ∧
      t = s.setSlot s.cur { s.me with prVals := t.me.prVals, prDepth := s.me.prDepth + 1, fpCtl := t.me.fpCtl, pc := s.me.npc } ∧
      (∀ k, k < s.me.prDepth.toNat → t.me.prVals.getLsbD k = s.me.prVals.getLsbD k) ∧
      t.me.prVals.getLsbD s.me.prDepth.toNat = (if x = .nan ∨ y = .nan then false else c) ∧
      t.me.fpCtl = if x = .nan ∨ y = .nan then s.me.fpCtl ||| 0x100 else s.me.fpCtl := by
  intro f x y hcmp
  have hnan : (x.isNan || y.isNan) = decide (x = .nan ∨ y = .nan) := by
    rw [Bool.eq_iff_iff, Bool.or_eq_true, FVal.isNan_iff, FVal.isNan_iff, decide_eq_true_iff]
  have hcond : (!decide (x = .nan ∨ y = .nan) && cmp x y) = if x = .nan ∨ y = .nan then false else c := by
    by_cases h : x = .nan ∨ y = .nan
    · simp [h]
    · rw [if_neg h, ← hcmp (fun hx => h (.inl hx)) (fun hy => h (.inr hy))]
      simp [h]
  obtain ⟨hguard, hpacket⟩ := hacts
  generalize hq : (if x = .nan ∨ y = .nan then s.me.fpCtl ||| 0x100 else s.me.fpCtl) = ctl
  generalize hc : (if x = .nan ∨ y = .nan then false else c) = top at hcond ⊢
  refine ⟨s.setSlot s.cur { s.me with
    prVals := BitVec.ofNat 16 (s.me.prVals.toNat % 2 ^ s.me.prDepth.toNat + at_ (flag top) s.me.prDepth.toNat)
    prDepth := s.me.prDepth + 1, fpCtl := ctl, pc := s.me.npc }, ?_, by rw [State.setSlot_me], fun k hk => ?_, ?_, by rw [State.setSlot_me]⟩
  · rw [ho, fCompare]
    change always s (push (if (x.isNan || y.isNan) && s.me.guard && decide (s.me.prDepth.toNat < 16) then s.setFp (s.fp.raise flagNv) else s)
      (!(x.isNan || y.isNan) && cmp x y)) = _
    rw [always_acts hpacket, hnan, hcond, hguard, decide_eq_true hroom, Bool.and_true, Bool.and_true]
    by_cases h : x = .nan ∨ y = .nan
    · rw [if_pos (decide_eq_true h)]
      rw [if_pos h] at hq
      have hme : (s.setFp (s.fp.raise flagNv)).me = { s.me with fpCtl := ctl } := by
        rw [State.setFp, State.modMe_eq, State.setSlot_me, ← hq]
        rfl
      rw [push_room (by rw [hme]; exact hroom), finish_next, hme]
      simp [State.setFp]
    · rw [if_neg (by simpa using h), push_room hroom, finish_next]
      rw [if_neg h] at hq
      simp [← hq]
  · rw [State.setSlot_me, getLsbD_stacked _ _ _ _ (by omega), if_pos hk]
    rfl
  · rw [State.setSlot_me, getLsbD_stacked _ _ _ _ hroom, if_neg (Nat.lt_irrefl _), Nat.sub_self]
    cases top <;> rfl

/-- Settles O10: fcvt converts through one reading of its source, and a compare pushes one entry. -/
theorem convertAndCompare : Obligations.ConvertAndCompare := by
  intro s d a b dst src rm ty hacts
  refine ⟨(guarded_acts hacts _ : execFcvt d a dst src rm s = _), fun hroom => ⟨?_, ?_, ?_⟩⟩
  · exact fCompare_acts hacts hroom a b ty _ (rfl : execFcmpEq a b ty s = _) fEq_numbers
  · exact fCompare_acts hacts hroom a b ty _ (rfl : execFcmpLt a b ty s = _) fun _ _ => rfl
  · exact fCompare_acts hacts hroom a b ty _ (rfl : execFcmpLe a b ty s = _) fLe_numbers

/-! ### Firmware registers on a user core (R315, R318) -/

theorem guarded_wrChecked_user {s : State} (hacts : s.acts) (huser : s.isFw s.cur = false) {n : Nat} (hfw : srFw n = true) {write : Word → State → Eff}
    {v : Word} {num : Word} (hnum : BitVec.ofNat 64 n = num) {o : Out} (ho : o = guarded s (wrChecked n write v s)) :
    o = .next (s.takeTrap s.cur Cause.privilege num 0) := by
  rw [ho, guarded_acts hacts, wrChecked_user hfw huser, hnum, finish_trap]

/-- Settles O14: the check of a firmware register stands before its write; the write of fw.wall looks at the core itself. -/
theorem firmwareRegistersPrivileged : Obligations.FirmwareRegistersPrivileged := by
  intro s v n w l hacts huser
  refine ⟨?_, ?_, ?_, ?_, ?_, ?_, ?_, ?_, ?_⟩
  · refine guarded_wrChecked_user hacts huser (n := 0xA0 + n.toNat) ?_ ?_ (rfl : execRqRecipeWrite n v s = _)
    · revert n
      decide
    · revert n
      decide
  · exact guarded_wrChecked_user hacts huser (by decide) rfl (rfl : execRqBackoffWrite v s = _)
  · exact guarded_wrChecked_user hacts huser (by decide) rfl (rfl : execWdCtlWrite v s = _)
  · exact guarded_wrChecked_user hacts huser (by decide) rfl (rfl : execGsCtlWrite v s = _)
  · exact guarded_wrChecked_user hacts huser (by decide) rfl (rfl : execPwLimWrite v s = _)
  · exact guarded_wrChecked_user hacts huser (by decide) rfl (rfl : execRtCfgWrite v s = _)
  · exact guarded_wrChecked_user hacts huser (by decide) rfl (rfl : execTrRingWrite v s = _)
  · refine guarded_wrChecked_user hacts huser (n := 0xC0 + 2 * w.toNat + flag l) ?_ ?_ (rfl : execHwWinWrite w l v s = _)
    · revert w l
      decide
    · revert w l
      decide
  · refine (guarded_acts hacts _ : execFwWallWrite v s = _).trans ?_
    have hmay : s.MayWrite 0x8E :=
      ⟨nofun, fun h => absurd h (by decide), State.walled_outside s (by decide) (by decide)⟩
    rw [hmay.wrChecked_eq, if_neg (by simp [srCommand]), wrFwWall, if_neg (Bool.eq_false_iff.mp huser), finish_next]

/-! ### setvl (R349) -/

theorem bits_low (v : BitVec 6) : bits v.toNat 1 0 = (v.extractLsb' 0 2).toNat := by
  revert v
  decide

theorem bits_high (v : BitVec 6) : bits v.toNat 3 2 = (v.extractLsb' 2 2).toNat := by
  revert v
  decide

theorem shapeMax_eq (shape : BitVec 6) :
    shapeMax shape.toNat = min (1024 * 2 ^ (shape.extractLsb' 2 2).toNat / (8 * 2 ^ (shape.extractLsb' 0 2).toNat)) 128 := by
  rw [shapeMax, bits_low, bits_high]

/-- Settles O15: setvl writes the shape, vl and its register. -/
theorem vectorLength : Obligations.VectorLength := by
  intro s d a shape hacts
  refine (guarded_acts hacts _ : execSetvl d a shape s = _).trans ?_
  dsimp only
  rw [← shapeMax_eq, finish_next, State.setX_advance]
  simp only [State.modMe_eq, State.setSlot_cur, State.setSlot_me, State.setSlot_setSlot, Slot.setXr]
  split <;> rfl

end Sys2Proof.Machine
end
section
/-! PROOF. Loads, stores, atomics and reductions in TCM and scratch (R320 to R325). -/

namespace Sys2Proof.Machine

/-! ### The local spaces of a slot -/

/-- A byte of the TCM or of the scratch that a slot reaches. -/
def localAt (slot : Nat) (scr : Bool) (o : Nat) : MemAt := if scr then .scratch (groveOf slot) o else .tcm (coreOf slot) o

/-- Bytes of the space, in any state. -/
def State.bytesAt (t : State) (slot : Nat) (scr : Bool) (o n : Nat) : List Byte :=
  if scr then t.scrRead (groveOf slot) o n else t.tcmRead (coreOf slot) o n

/-- A poisoned word among them. -/
def State.poisonAt (t : State) (slot : Nat) (scr : Bool) (o n : Nat) : Bool :=
  if scr then t.scrPoison (groveOf slot) o n else t.tcmPoison (coreOf slot) o n

/-- A write of them. -/
def State.writeAt (s : State) (slot : Nat) (scr : Bool) (o : Nat) (bs : List Byte) : State :=
  if scr then s.scrWrite (groveOf slot) o bs else s.tcmWrite (coreOf slot) o bs

theorem memRead_congr {m m' : Mem} {a n : Nat} (h : ∀ j, j < n → memByte m (a + j) = memByte m' (a + j)) : memRead m a n = memRead m' a n := by
  apply List.ext_getElem?
  intro i
  rw [getElem?_memRead, getElem?_memRead]
  split
  · rw [h i ‹_›]
  · rfl

theorem State.bytesAt_congr {s t : State} {slot : Nat} {scr : Bool} {o n : Nat}
    (h : ∀ j, j < n → t.byteAt (localAt slot scr (o + j)) = s.byteAt (localAt slot scr (o + j))) : t.bytesAt slot scr o n = s.bytesAt slot scr o n := by
  cases scr with
  | true => exact memRead_congr h
  | false => exact memRead_congr h

theorem State.bytesAt_length (s : State) (slot : Nat) (scr : Bool) (o n : Nat) : (s.bytesAt slot scr o n).length = n := by
  cases scr with
  | true => exact length_memRead _ _ _
  | false => exact length_memRead _ _ _

theorem State.byteAt_scrWrite_apart {s : State} {g off : Nat} {bs : List Byte} {q : MemAt} (h : ∀ j, j < bs.length → q ≠ .scratch g (off + j)) :
    (s.scrWrite g off bs).byteAt q = s.byteAt q := by
  cases q with
  | device a => rfl
  | host a => rfl
  | tcm c a => rfl
  | scratch k a =>
    by_cases hk : k = g
    · subst hk
      simp only [State.byteAt, State.scrWrite, State.modGrove_eq, State.grove_setGrove_same]
      refine memByte_memWrite_apart _ ?_
      by_contra hin
      exact h (a - off) (by omega) (by rw [Nat.add_sub_cancel' (by omega)])
    · simp only [State.byteAt, State.scrWrite, State.modGrove_eq, State.grove_setGrove_ne s _ hk]

/-- What a write of a local space leaves: the slot, its own bytes, and every byte apart from them. -/
theorem State.writeAt_facts (s : State) (slot : Nat) (scr : Bool) (o : Nat) (bs : List Byte) :
    (s.writeAt slot scr o bs).me = s.me ∧ (s.writeAt slot scr o bs).cur = s.cur ∧ (s.writeAt slot scr o bs).bytesAt slot scr o bs.length = bs ∧
      ∀ q, (∀ j, j < bs.length → q ≠ localAt slot scr (o + j)) → (s.writeAt slot scr o bs).byteAt q = s.byteAt q := by
  cases scr with
  | true =>
    refine ⟨rfl, rfl, ?_, fun q hq => State.byteAt_scrWrite_apart hq⟩
    change memRead ((s.scrWrite (groveOf slot) o bs).grove (groveOf slot)).scratch o bs.length = bs
    rw [State.scrWrite, State.modGrove_eq, State.grove_setGrove_same, memRead_memWrite_same]
  | false => exact ⟨State.tcmWrite_me .., State.tcmWrite_cur .., State.tcmRead_tcmWrite_same .., fun q hq => State.byteAt_tcmWrite_apart hq⟩

/-! ### Accesses of a local place (R322 to R325) -/

section Access
variable {s : State} {sp : Space} {sk scr : Bool} {e : Word} {n o : Nat}

theorem State.load_local (hplace : s.place sp sk e n n = if scr then .scr o else .tcm o) :
    s.load sp sk e n n true = if s.poisonAt s.cur scr o n then .no (.trap s Cause.poison e 0) else .ok (s.bytesAt s.cur scr o n) s := by
  cases scr with
  | true => simp only [State.load, hplace, if_true] <;> rfl
  | false => simp only [State.load, hplace, Bool.false_eq_true, if_false] <;> rfl

theorem State.store_local {bs : List Byte} {sig : Bool} (hplace : s.place sp sk e bs.length n = if scr then .scr o else .tcm o) :
    s.store sp sk e bs n sig true = .ok () (s.writeAt s.cur scr o bs) := by
  cases scr with
  | true => simp only [State.store, hplace, if_true] <;> rfl
  | false => simp only [State.store, hplace, Bool.false_eq_true, if_false] <;> rfl

theorem State.rmw_local (hplace : s.place sp false e n n = if scr then .scr o else .tcm o) (hclean : s.poisonAt s.cur scr o n = false) (f : Nat → Nat) (sig : Bool) :
    s.rmw sp e n f sig = .ok (natOf (s.bytesAt s.cur scr o n)) (s.writeAt s.cur scr o (bytesOf n (f (natOf (s.bytesAt s.cur scr o n))))) := by
  cases scr with
  | true =>
    have hpoison : s.scrPoison (groveOf s.cur) o n = false := hclean
    simp only [State.rmw, hplace, if_true, hpoison, Bool.false_eq_true, if_false] <;> rfl
  | false =>
    have hpoison : s.tcmPoison (coreOf s.cur) o n = false := hclean
    simp only [State.rmw, hplace, hpoison, Bool.false_eq_true, if_false] <;> rfl

theorem State.reduce_local (hplace : s.place sp false e (redWidth ty / 8) (redWidth ty / 8) = if scr then .scr o else .tcm o)
    (hclean : s.poisonAt s.cur scr o (redWidth ty / 8) = false) (op v : Nat) :
    s.reduce sp e ty op v = .next (s.writeAt s.cur scr o (bytesOf (redWidth ty / 8) (redFold ty op (natOf (s.bytesAt s.cur scr o (redWidth ty / 8))) v))) := by
  have hrmw := s.rmw_local hplace hclean (fun old => redFold ty op old v) false
  cases scr with
  | true => simp only [State.reduce, hplace, if_true, hrmw, Got.andThen]
  | false => simp only [State.reduce, hplace, Bool.false_eq_true, if_false, hrmw, Got.andThen]

end Access

/-! ### What an access leaves -/

/-- An instruction that leaves a number at a local place and a word in a register, and changes nothing else of the slot and of the bytes. -/
def State.StoresAt (s : State) (scr : Bool) (o : Nat) (a : Reg) (out : Out) (n v : Nat) (r : Word) : Prop :=
  ∃ t, out = .next t ∧ natOf (t.bytesAt s.cur scr o n) = v % 2 ^ (8 * n) ∧
    (∀ p, (∀ j, j < n → p ≠ localAt s.cur scr (o + j)) → t.byteAt p = s.byteAt p) ∧ t.me = { (s.me.setXr a r) with pc := s.me.npc }

theorem State.storesAt_of_write (s : State) (scr : Bool) (o n v : Nat) (a : Reg) (r : Word) (ord : Ord) :
    s.StoresAt scr o a (.next (((s.writeAt s.cur scr o (bytesOf n v)).acqIf ord).setX a r).advance) n v r := by
  obtain ⟨hme, -, hread, happart⟩ := s.writeAt_facts s.cur scr o (bytesOf n v)
  rw [length_bytesOf] at hread happart
  generalize s.writeAt s.cur scr o (bytesOf n v) = u at hme hread happart
  have hsame : u.sameBytes ((u.acqIf ord).setX a r).advance := fun q =>
    (State.setX_advance_sameBytes _ _ _ q).trans (u.acqIf_sameBytes ord q)
  refine ⟨_, rfl, ?_, fun p hp => (hsame p).trans (happart p hp), ?_⟩
  · rw [State.bytesAt_congr fun j _ => hsame _, hread, natOf_bytesOf, Nat.pow_mul]
  · rw [State.setX_advance, State.setSlot_me, State.acqIf_me, hme]

theorem Slot.setXr_self (q : Slot) (a : Reg) : q.setXr a (q.xr a) = q := by
  by_cases ha : a = 0
  · rw [ha, Slot.setXr_zero]
  · rw [Slot.setXr_pos q ha, Slot.xr, if_neg ha]
    have hset : q.x.set a.toNat (q.x.get a.toFin) a.isLt = q.x := Vector.set_getElem_self a.isLt
    rw [hset]

/-- A write of memory alone leaves every register. -/
theorem State.storesAt_of_write_only (s : State) (scr : Bool) (o n v : Nat) (a : Reg) :
    s.StoresAt scr o a (.next (s.writeAt s.cur scr o (bytesOf n v)).advance) n v (s.x a) := by
  obtain ⟨t, ht, hread, happart, hme⟩ := s.storesAt_of_write scr o n v a (s.x a) .none
  obtain ⟨hslot, -, -, -⟩ := s.writeAt_facts s.cur scr o (bytesOf n v)
  have hself : (s.writeAt s.cur scr o (bytesOf n v)).me.setXr a (s.x a) = (s.writeAt s.cur scr o (bytesOf n v)).me := by
    rw [hslot]
    exact Slot.setXr_self s.me a
  have hout : (((s.writeAt s.cur scr o (bytesOf n v)).acqIf .none).setX a (s.x a)).advance = (s.writeAt s.cur scr o (bytesOf n v)).advance := by
    change ((s.writeAt s.cur scr o (bytesOf n v)).setX a (s.x a)).advance = _
    rw [State.setX_advance, hself, State.advance_eq]
  exact ⟨t, by rw [← hout]; exact ht, hread, happart, hme⟩

/-! ### The instructions -/

section Instructions
variable {s : State} (hacts : s.acts) (hout : s.allOut) {a b c : Reg} {scr : Bool} {o : Nat}
include hacts

theorem exec_ld_local {size : BitVec 2} {m : MemMod} {imm : Word}
    (hplace : s.place m.space m.sk (s.x b + imm) (2 ^ size.toNat) (2 ^ size.toNat) = if scr then .scr o else .tcm o) :
    exec (.ld a b size m imm) s = .next (if s.poisonAt s.cur scr o (2 ^ size.toNat) then s.takeTrap s.cur Cause.poison (s.x b + imm) 0
      else ((s.acqIf m.ord).setX a (BitVec.ofNat 64 (natOf (s.bytesAt s.cur scr o (2 ^ size.toNat))))).advance) := by
  refine (guarded_acts hacts _ : execLd a b size m imm s = _).trans ?_
  rw [ea, State.load_local hplace]
  cases s.poisonAt s.cur scr o (2 ^ size.toNat) <;> rfl

include hout

theorem exec_st_local {size : BitVec 2} {m : MemMod} {imm : Word}
    (hplace : s.place m.space m.sk (s.x b + imm) (2 ^ size.toNat) (2 ^ size.toNat) = if scr then .scr o else .tcm o) :
    exec (.st a b size m imm) s = .next (s.writeAt s.cur scr o (bytesOf (2 ^ size.toNat) (s.x a).toNat)).advance := by
  refine (guarded_acts hacts _ : execSt a b size m imm s = _).trans ?_
  rw [relFirst_of_allOut hout, ea, State.store_local (scr := scr) (o := o) (by rwa [length_bytesOf])]
  rfl

theorem amo_local (hcol : s.me.collecting = false) {m : AtomMod}
    (hplace : s.place m.space false (s.x b) (amoWidth m / 8) (amoWidth m / 8) = if scr then .scr o else .tcm o)
    (hclean : s.poisonAt s.cur scr o (amoWidth m / 8) = false) (f : Nat) (signed : Bool) {v : Nat} {out : Out} (hexec : out = amo a b c m f signed s)
    (hv : amoNew f (amoWidth m) (natOf (s.bytesAt s.cur scr o (amoWidth m / 8))) (s.x c).toNat (s.x a).toNat = v % 2 ^ amoWidth m) :
    s.StoresAt scr o a out (amoWidth m / 8) v (if signed then BitVec.ofInt 64 (sInt (amoWidth m) (natOf (s.bytesAt s.cur scr o (amoWidth m / 8))))
      else BitVec.ofNat 64 (natOf (s.bytesAt s.cur scr o (amoWidth m / 8)))) := by
  have hamo : amo a b c m f signed s = finish (relFirst s (Ord.isRel m.ord) fun s1 =>
      (s1.rmw m.space (s1.x b) (amoWidth m / 8) (fun was => amoNew f (amoWidth m) was (s1.x c).toNat (s1.x a).toNat) m.sig).andThen fun was s2 =>
        .next ((s2.acqIf m.ord).setX a (if signed then BitVec.ofInt 64 (sInt (amoWidth m) was) else BitVec.ofNat 64 was))) := by
    refine (guarded_acts hacts _).trans (congrArg finish (if_neg ?_))
    rw [hcol]
    exact Bool.false_ne_true
  rw [hexec, hamo, relFirst_of_allOut hout, State.rmw_local hplace hclean, hv]
  have h8 : 8 * (amoWidth m / 8) = amoWidth m := by have := amoWidth_cases m; omega
  obtain ⟨t, ht, hread, happart, hme⟩ := s.storesAt_of_write scr o (amoWidth m / 8) (v % 2 ^ amoWidth m) a
    (if signed then BitVec.ofInt 64 (sInt (amoWidth m) (natOf (s.bytesAt s.cur scr o (amoWidth m / 8))))
      else BitVec.ofNat 64 (natOf (s.bytesAt s.cur scr o (amoWidth m / 8)))) m.ord
  exact ⟨t, ht, by rw [hread, h8, Nat.mod_mod], happart, hme⟩

omit hout in
theorem reduce_local (ty op : Nat) {sp : Space} {n v : Nat} {out : Out} (hexec : out = guarded s (s.reduce sp (s.x b) ty op (s.x a).toNat))
    (hn : redWidth ty = 8 * n) (hplace : s.place sp false (s.x b) n n = if scr then .scr o else .tcm o) (hclean : s.poisonAt s.cur scr o n = false)
    (hv : redFold ty op (natOf (s.bytesAt s.cur scr o n)) (s.x a).toNat % 2 ^ (8 * n) = v % 2 ^ (8 * n)) :
    s.StoresAt scr o a out n v (s.x a) := by
  obtain rfl : redWidth ty / 8 = n := by omega
  obtain ⟨t, ht, hread, happart, hme⟩ := s.storesAt_of_write_only scr o (redWidth ty / 8)
    (redFold ty op (natOf (s.bytesAt s.cur scr o (redWidth ty / 8))) (s.x a).toNat) a
  refine ⟨t, ?_, hread.trans hv, happart, hme⟩
  rw [hexec, guarded_acts hacts, State.reduce_local hplace hclean, finish_next, ht]

end Instructions

/-! ### Values of the reductions (R141, R325) -/

theorem sInt_mod (w v : Nat) : sInt w (v % 2 ^ w) = sInt w v := by simp only [sInt, Nat.mod_mod]

theorem redWidth_redType (wide signed : Bool) : redWidth (redType wide signed) = if wide then 64 else 32 := by
  cases wide <;> cases signed <;> rfl

/-- What each integer reduction makes of a word and an operand of w bits. -/
theorem redFold_values (wide : Bool) {was : Nat} (x : Nat) (hwas : was < 2 ^ (if wide then 64 else 32)) :
    let w := if wide then 64 else 32
    let v := x % 2 ^ w
    redFold (redType wide true) 0 was x = (was + v) % 2 ^ w ∧
    redFold (redType wide true) 1 was x = (if sInt w v < sInt w was then v else was) % 2 ^ w ∧
    redFold (redType wide true) 2 was x = (if sInt w was < sInt w v then v else was) % 2 ^ w ∧
    redFold (redType wide false) 1 was x = min was v % 2 ^ w ∧ redFold (redType wide false) 2 was x = max was v % 2 ^ w := by
  intro w v
  have hw : ∀ signed, redWidth (redType wide signed) = w := redWidth_redType wide
  have hfloat : ∀ signed, redType wide signed ≠ 4 := by cases wide <;> decide
  have hsigned : ∀ signed, decide (redType wide signed < 2) = signed := by cases wide <;> decide
  have hpick : ∀ p : Prop, [Decidable p] → (if p then x else was) % 2 ^ w = (if p then v else was) % 2 ^ w := by
    intro p _
    split
    · exact (Nat.mod_mod _ _).symm
    · rfl
  have hmin : min was v = if v < was then v else was := by split <;> omega
  have hmax : max was v = if was < v then v else was := by split <;> omega
  have hself : was % 2 ^ w = was := Nat.mod_eq_of_lt hwas
  refine ⟨?_, ?_, ?_, ?_, ?_⟩
  all_goals simp only [redFold, if_neg (hfloat _), hw, hsigned, if_true, Bool.false_eq_true, if_false, decide_eq_true_eq, hself]
  · exact (Nat.add_mod_mod ..).symm
  · rw [hpick, sInt_mod]
  · rw [hpick, sInt_mod]
  · rw [hpick, hmin]
  · rw [hpick, hmax]

section Reductions
variable {s : State} (hacts : s.acts) (a b : Reg) {scr : Bool} {o : Nat} {space : Space}
include hacts

/-- The integer reductions, by what each makes of the word and the operand. -/
theorem intReductions_local (wide : Bool) {w : Nat} (hw : w = if wide then 64 else 32)
    (hplace : s.place space false (s.x b) (w / 8) (w / 8) = if scr then .scr o else .tcm o) (hclean : s.poisonAt s.cur scr o (w / 8) = false) :
    let v := (s.x a).toNat % 2 ^ w
    let was := natOf (s.bytesAt s.cur scr o (w / 8))
    s.StoresAt scr o a (exec (.redAdd a b wide space) s) (w / 8) (was + v) (s.x a) ∧
    s.StoresAt scr o a (exec (.redMin a b wide space) s) (w / 8) (if sInt w v < sInt w was then v else was) (s.x a) ∧
    s.StoresAt scr o a (exec (.redMax a b wide space) s) (w / 8) (if sInt w was < sInt w v then v else was) (s.x a) ∧
    s.StoresAt scr o a (exec (.redMinN a b wide space) s) (w / 8) (min was v) (s.x a) ∧
    s.StoresAt scr o a (exec (.redMaxN a b wide space) s) (w / 8) (max was v) (s.x a) := by
  intro v was
  have h8 : 8 * (w / 8) = w := by
    rw [hw]
    cases wide <;> rfl
  have hwidth : ∀ signed, redWidth (redType wide signed) = 8 * (w / 8) := fun signed => by rw [redWidth_redType, h8, hw]
  have hwas : was < 2 ^ w := by
    have hlt := natOf_lt (s.bytesAt s.cur scr o (w / 8))
    rwa [State.bytesAt_length, show 256 = 2 ^ 8 from rfl, ← Nat.pow_mul, h8] at hlt
  have hmod : ∀ {p q : Nat}, p = q % 2 ^ w → p % 2 ^ (8 * (w / 8)) = q % 2 ^ (8 * (w / 8)) := fun h => by rw [h8, h, Nat.mod_mod]
  have hvalues := redFold_values wide (s.x a).toNat (was := was) (by rwa [← hw])
  dsimp only at hvalues
  rw [← hw] at hvalues
  obtain ⟨hadd, hmin, hmax, hminN, hmaxN⟩ := hvalues
  exact ⟨reduce_local hacts _ 0 (rfl : execRedAdd a b wide space s = _) (hwidth true) hplace hclean (hmod hadd),
    reduce_local hacts _ 1 (rfl : execRedMin a b wide space s = _) (hwidth true) hplace hclean (hmod hmin),
    reduce_local hacts _ 2 (rfl : execRedMax a b wide space s = _) (hwidth true) hplace hclean (hmod hmax),
    reduce_local hacts _ 1 (rfl : execRedMinN a b wide space s = _) (hwidth false) hplace hclean (hmod hminN),
    reduce_local hacts _ 2 (rfl : execRedMaxN a b wide space s = _) (hwidth false) hplace hclean (hmod hmaxN)⟩

/-- The floating reductions, each rounded once. -/
theorem floatReductions_local (hplace : s.place space false (s.x b) 4 4 = if scr then .scr o else .tcm o) (hclean : s.poisonAt s.cur scr o 4 = false) :
    let f := fun (r : FVal) => (fmtF32.round 0 false 0 r).1
    let x := fmtF32.value (natOf (s.bytesAt s.cur scr o 4))
    let y := fmtF32.value ((s.x a).toNat % 2 ^ 32)
    s.StoresAt scr o a (exec (.redAddF32 a b space) s) 4 (f (fAdd false x y).1) (s.x a) ∧
    s.StoresAt scr o a (exec (.redMinF32 a b space) s) 4 (f (fMin x y)) (s.x a) ∧
    s.StoresAt scr o a (exec (.redMaxF32 a b space) s) 4 (f (fMax x y)) (s.x a) := by
  have hwas : natOf (s.bytesAt s.cur scr o 4) % 2 ^ 32 = natOf (s.bytesAt s.cur scr o 4) := by
    have hlt := natOf_lt (s.bytesAt s.cur scr o 4)
    rw [State.bytesAt_length] at hlt
    exact Nat.mod_eq_of_lt hlt
  have hfold : ∀ op v, redFold 4 op (natOf (s.bytesAt s.cur scr o 4)) v = redFold 4 op (natOf (s.bytesAt s.cur scr o 4) % 2 ^ 32) v := fun op v => by rw [hwas]
  refine ⟨reduce_local hacts 4 0 (rfl : execRedAddF32 a b space s = _) rfl hplace hclean ?_,
    reduce_local hacts 4 1 (rfl : execRedMinF32 a b space s = _) rfl hplace hclean ?_,
    reduce_local hacts 4 2 (rfl : execRedMaxF32 a b space s = _) rfl hplace hclean ?_⟩
  all_goals simp only [redFold, if_true, hwas]

end Reductions

/-- Settles O35: one write, or none, at the place that the address leads to. -/
theorem localAccess : Obligations.LocalAccess := by
  intro s a b c size m k imm wide scr o hacts hout core place read poisoned at_ stores n wa old op exp amo
  refine ⟨fun hplace => ⟨fun hclean => ?_, fun hbad => ?_, ?_⟩, fun hplace hcol hclean => ?_, fun space hplace hclean => ?_⟩
  · have hclean' : s.poisonAt s.cur scr o (2 ^ size.toNat) = false := hclean
    rw [exec_ld_local hacts hplace, hclean']
    rfl
  · have hbad' : s.poisonAt s.cur scr o (2 ^ size.toNat) = true := hbad
    rw [exec_ld_local hacts hplace, hbad']
    rfl
  · have h := s.storesAt_of_write_only scr o (2 ^ size.toNat) (s.x a).toNat a
    rwa [← exec_st_local hacts hout hplace] at h
  · have hold : old < 2 ^ amoWidth k := by
      have hlt := natOf_lt (s.bytesAt s.cur scr o (amoWidth k / 8))
      rwa [State.bytesAt_length, two_pow_amoWidth] at hlt
    obtain ⟨hadd, hswap, hand, hor, hxor, hmin, hmax, hcas, hminN, hmaxN⟩ := amoNew_values hold (s.x c).toNat (s.x a).toNat
    exact ⟨amo_local hacts hout hcol hplace hclean 0 true (rfl : execAmoAdd a b c k s = _) hadd,
      amo_local hacts hout hcol hplace hclean 1 true (rfl : execAmoSwap a b c k s = _) hswap,
      amo_local hacts hout hcol hplace hclean 2 true (rfl : execAmoAnd a b c k s = _) hand,
      amo_local hacts hout hcol hplace hclean 3 true (rfl : execAmoOr a b c k s = _) hor,
      amo_local hacts hout hcol hplace hclean 4 true (rfl : execAmoXor a b c k s = _) hxor,
      amo_local hacts hout hcol hplace hclean 5 true (rfl : execAmoMin a b c k s = _) hmin,
      amo_local hacts hout hcol hplace hclean 6 true (rfl : execAmoMax a b c k s = _) hmax,
      amo_local hacts hout hcol hplace hclean 7 true (rfl : execAmoCas a b c k s = _) hcas,
      amo_local hacts hout hcol hplace hclean 8 false (rfl : execAmoMinN a b c k s = _) hminN,
      amo_local hacts hout hcol hplace hclean 9 false (rfl : execAmoMaxN a b c k s = _) hmaxN⟩
  · obtain ⟨hadd, hmin, hmax, hminN, hmaxN⟩ := intReductions_local hacts a b wide rfl hplace hclean
    refine ⟨hadd, hmin, hmax, hminN, hmaxN, fun hnarrow => ?_⟩
    subst hnarrow
    exact floatReductions_local hacts a b hplace hclean

end Sys2Proof.Machine
end
section
/-! PROOF. Elements of vector groups: what a write of elements leaves, and the shapes (R347, R350, R351). -/

namespace Sys2Proof.Machine

/-! ### A field of a number -/

/-- A number with the field of w bits at lo replaced. -/
theorem putField_eq (old lo w v : Nat) : old - (old / 2 ^ lo % 2 ^ w) * 2 ^ lo + (v % 2 ^ w) * 2 ^ lo =
    2 ^ lo * (2 ^ w * (old / 2 ^ lo / 2 ^ w) + v % 2 ^ w) + old % 2 ^ lo := by
  have hlow := Nat.div_add_mod old (2 ^ lo)
  have hhigh := Nat.div_add_mod (old / 2 ^ lo) (2 ^ w)
  have hold : old = 2 ^ lo * (2 ^ w * (old / 2 ^ lo / 2 ^ w)) + old / 2 ^ lo % 2 ^ w * 2 ^ lo + old % 2 ^ lo := by
    rw [Nat.mul_comm (old / 2 ^ lo % 2 ^ w), ← Nat.mul_add, hhigh, hlow]
  rw [Nat.mul_add, Nat.mul_comm (2 ^ lo) (v % 2 ^ w)]
  omega

theorem testBit_putField (old lo w v k : Nat) :
    (old - (old / 2 ^ lo % 2 ^ w) * 2 ^ lo + (v % 2 ^ w) * 2 ^ lo).testBit k =
      if lo ≤ k ∧ k < lo + w then v.testBit (k - lo) else old.testBit k := by
  rw [putField_eq, Nat.testBit_two_pow_mul_add _ (Nat.mod_lt _ (Nat.two_pow_pos lo)),
    Nat.testBit_two_pow_mul_add _ (Nat.mod_lt _ (Nat.two_pow_pos w)), Nat.testBit_mod_two_pow, Nat.testBit_mod_two_pow,
    Nat.testBit_div_two_pow, Nat.testBit_div_two_pow]
  by_cases hlo : k < lo
  · rw [if_pos hlo, if_neg (by omega), decide_eq_true hlo, Bool.true_and]
  · rw [if_neg hlo]
    by_cases hw : k - lo < w
    · rw [if_pos hw, if_pos (by omega), decide_eq_true hw, Bool.true_and]
    · rw [if_neg hw, if_neg (by omega)]
      exact congrArg old.testBit (by omega)

theorem testBit_field (x lo w k : Nat) : (x / 2 ^ lo % 2 ^ w).testBit k = (decide (k < w) && x.testBit (lo + k)) := by
  rw [Nat.testBit_mod_two_pow, Nat.testBit_div_two_pow, Nat.add_comm]

/-! ### Elements of a group (R347) -/

theorem Slot.vr_setVr_same (sl : Slot) (q : Reg) (v : VWord) : (sl.setVr q v).vr q = v := Vector.getElem_set_self q.isLt

theorem Slot.elem_lt (sl : Slot) (r : Reg) (w i : Nat) : sl.elem r w i < 2 ^ w := Nat.mod_lt _ (Nat.two_pow_pos w)

section Elements
variable {d : Reg} {n w : Nat} (hd : d.toNat + n ≤ 32) (hw : w ∣ 1024)

include hw

/-- Where an element lies: its register, and its place there. -/
theorem elem_place (i : Nat) : i * w / 1024 = i / (1024 / w) ∧ i * w % 1024 = i % (1024 / w) * w := by
  obtain ⟨c, hc⟩ := hw
  have hpos : 0 < w := Nat.pos_of_ne_zero fun h => by simp [h] at hc
  have hdiv : 1024 / w = c := by rw [hc, Nat.mul_div_cancel_left _ hpos]
  rw [hdiv, show 1024 = c * w by rw [hc, Nat.mul_comm], Nat.mul_div_mul_right _ _ hpos, Nat.mul_mod_mul_right]
  exact ⟨rfl, rfl⟩

theorem elem_place_end (i : Nat) : i * w % 1024 + w ≤ 1024 := by
  obtain ⟨-, hat⟩ := elem_place hw i
  have hpos : 0 < w := Nat.pos_of_dvd_of_pos hw (by decide)
  have hlt : i % (1024 / w) < 1024 / w := Nat.mod_lt _ (Nat.div_pos (Nat.le_of_dvd (by decide) hw) hpos)
  have hmul : (i % (1024 / w) + 1) * w ≤ 1024 / w * w := Nat.mul_le_mul_right w hlt
  rw [Nat.div_mul_cancel hw, Nat.add_mul, Nat.one_mul] at hmul
  omega

/-- Two elements of one register lie apart. -/
theorem elem_places_apart {i j : Nat} (hne : j ≠ i) (hreg : j * w / 1024 = i * w / 1024) :
    j * w % 1024 + w ≤ i * w % 1024 ∨ i * w % 1024 + w ≤ j * w % 1024 := by
  obtain ⟨hi, hati⟩ := elem_place hw i
  obtain ⟨hj, hatj⟩ := elem_place hw j
  rw [hi, hj] at hreg
  have hmod : j % (1024 / w) ≠ i % (1024 / w) := fun h => hne (by
    rw [← Nat.div_add_mod j (1024 / w), ← Nat.div_add_mod i (1024 / w), hreg, h])
  rw [hati, hatj]
  rcases Nat.lt_or_gt_of_ne hmod with h | h
  · have := Nat.mul_le_mul_right w h
    rw [Nat.succ_mul] at this
    exact .inl this
  · have := Nat.mul_le_mul_right w h
    rw [Nat.succ_mul] at this
    exact .inr this

include hd

theorem elemReg_toNat {i : Nat} (hi : i * w / 1024 < n) : (d + BitVec.ofNat 5 (i * w / 1024)).toNat = d.toNat + i * w / 1024 := by
  rw [BitVec.toNat_add, BitVec.toNat_ofNat]
  omega

/-- A write of an element is read at that element, and leaves every other one of the group. -/
theorem Slot.elem_setElem (sl : Slot) {i j : Nat} (v : Nat) (hi : i * w / 1024 < n) (hj : j * w / 1024 < n) :
    (sl.setElem d w i v).elem d w j = if j = i then v % 2 ^ w else sl.elem d w j := by
  have hireg := elemReg_toNat hd hw hi
  have hjreg := elemReg_toNat hd hw hj
  have hiend := elem_place_end hw i
  have hjend := elem_place_end hw j
  by_cases hreg : j * w / 1024 = i * w / 1024
  · have hread : (sl.setElem d w i v).elem d w j = (BitVec.ofNat 1024
        ((sl.vr (d + BitVec.ofNat 5 (i * w / 1024))).toNat - ((sl.vr (d + BitVec.ofNat 5 (i * w / 1024))).toNat / 2 ^ (i * w % 1024) % 2 ^ w) *
          2 ^ (i * w % 1024) + (v % 2 ^ w) * 2 ^ (i * w % 1024))).toNat / 2 ^ (j * w % 1024) % 2 ^ w := by
      rw [Slot.elem, hreg, Slot.setElem, Slot.vr_setVr_same]
    rw [hread]
    apply Nat.eq_of_testBit_eq
    intro k
    rw [testBit_field, BitVec.toNat_ofNat, Nat.testBit_mod_two_pow, testBit_putField]
    by_cases hk : k < w
    · rw [decide_eq_true hk, Bool.true_and, decide_eq_true (show _ < 1024 by omega), Bool.true_and]
      by_cases hij : j = i
      · subst hij
        rw [if_pos (by omega), if_pos rfl, Nat.testBit_mod_two_pow, decide_eq_true hk, Bool.true_and, Nat.add_sub_cancel_left]
      · have hapart := elem_places_apart hw hij hreg
        rw [if_neg (by omega), if_neg hij, Slot.elem, testBit_field, decide_eq_true hk, Bool.true_and, hreg]
    · rw [decide_eq_false hk, Bool.false_and]
      split
      · rw [Nat.testBit_mod_two_pow, decide_eq_false hk, Bool.false_and]
      · rw [Slot.elem, testBit_field, decide_eq_false hk, Bool.false_and]
  · have hne : d + BitVec.ofNat 5 (j * w / 1024) ≠ d + BitVec.ofNat 5 (i * w / 1024) := fun h => by
      have := congrArg BitVec.toNat h
      rw [hireg, hjreg] at this
      omega
    rw [if_neg (fun h => hreg (by rw [h])), Slot.elem, Slot.setElem, Slot.vr_setVr_ne sl _ hne, Slot.elem]

/-- Elements written from one function: each written one is its value, and every other one stays. -/
theorem Slot.elem_setElems (sl : Slot) {l : List Nat} (f : Nat → Nat) (hl : ∀ i ∈ l, i * w / 1024 < n) {j : Nat} (hj : j * w / 1024 < n) :
    (sl.setElems d w (l.map fun i => (i, f i))).elem d w j = if j ∈ l then f j % 2 ^ w else sl.elem d w j := by
  induction l generalizing sl with
  | nil => rfl
  | cons a rest ih =>
    have hstep := ih (sl.setElem d w a (f a)) (fun i hi => hl i (List.mem_cons_of_mem a hi))
    have hfold : sl.setElems d w ((a :: rest).map fun i => (i, f i)) = (sl.setElem d w a (f a)).setElems d w (rest.map fun i => (i, f i)) := rfl
    rw [hfold, hstep, Slot.elem_setElem hd hw sl _ (hl a List.mem_cons_self) hj]
    by_cases hmem : j ∈ rest
    · rw [if_pos hmem, if_pos (List.mem_cons_of_mem a hmem)]
    · rw [if_neg hmem]
      by_cases hja : j = a
      · rw [if_pos hja, if_pos (hja ▸ List.mem_cons_self), hja]
      · rw [if_neg hja, if_neg (by simp [hja, hmem])]

theorem Slot.elem_zeroAt (sl : Slot) {l : List Nat} (hl : ∀ i ∈ l, i * w / 1024 < n) {j : Nat} (hj : j * w / 1024 < n) :
    (sl.setElems d w (zeroAt l)).elem d w j = if j ∈ l then 0 else sl.elem d w j := by
  rw [show zeroAt l = l.map fun i => (i, 0) from rfl, Slot.elem_setElems hd hw sl (fun _ => 0) hl hj, Nat.zero_mod]

end Elements

/-! ### Shapes (R347, R349) -/

/-- A shape that vshape can hold, and a group of elements of w bits that it admits. -/
structure VSh.Fits (h : VSh) (w : Nat) : Prop where
  dvd : w ∣ 1024
  pos : 0 < w
  regs_dvd : h.regs w ∣ 32
  nmax_le : h.nmax * w ≤ 1024 * h.regs w
  short : h.nmax ≤ 128

theorem Slot.sew_cases (sl : Slot) : sl.sh.sew ∈ [8, 16, 32, 64] := by
  have hlt : bits sl.vshape.toNat 1 0 < 4 := Nat.mod_lt _ (by decide)
  have hsew : sl.sh.sew = 8 * 2 ^ bits sl.vshape.toNat 1 0 := rfl
  rw [hsew]
  interval_cases bits sl.vshape.toNat 1 0 <;> decide

/-- NMAX is a power of two that 128 bounds. -/
theorem Slot.nmax_cases (sl : Slot) : sl.sh.nmax ∈ [16, 32, 64, 128] := by
  have hg : bits sl.vshape.toNat 3 2 < 4 := Nat.mod_lt _ (by decide)
  have hs : bits sl.vshape.toNat 1 0 < 4 := Nat.mod_lt _ (by decide)
  have hn : sl.sh.nmax = Nat.min (1024 * 2 ^ bits sl.vshape.toNat 3 2 / (8 * 2 ^ bits sl.vshape.toNat 1 0)) 128 := rfl
  rw [hn]
  interval_cases bits sl.vshape.toNat 3 2 <;> interval_cases bits sl.vshape.toNat 1 0 <;> decide

/-- Groups of element widths up to 64 bits. -/
theorem Slot.fits (sl : Slot) {w : Nat} (hw : w ∈ [8, 16, 32, 64]) : sl.sh.Fits w := by
  have hall : ∀ n ∈ [16, 32, 64, 128], ∀ w ∈ [8, 16, 32, 64],
      w ∣ 1024 ∧ 0 < w ∧ Nat.max 1 (n * w / 1024) ∣ 32 ∧ n * w ≤ 1024 * Nat.max 1 (n * w / 1024) ∧ n ≤ 128 := by decide
  obtain ⟨hdvd, hpos, hregs, hle, hshort⟩ := hall sl.sh.nmax sl.nmax_cases w hw
  exact ⟨hdvd, hpos, hregs, hle, hshort⟩

section Group
variable {h : VSh} {w : Nat} (hfit : h.Fits w) {d : Reg} (hal : h.aligned d w = true)

include hfit in
theorem VSh.Fits.elem_in {i : Nat} (hi : i < h.nmax) : i * w / 1024 < h.regs w := by
  rw [Nat.div_lt_iff_lt_mul (by decide)]
  have hmul := Nat.mul_lt_mul_of_pos_right hi hfit.pos
  have := hfit.nmax_le
  omega

include hfit hal

theorem VSh.Fits.in_file : d.toNat + h.regs w ≤ 32 := group_in_file hfit.regs_dvd (beq_iff_eq.mp hal)

/-- A group that an instruction writes: its results, then the zeros of the policies (R350, R351). -/
theorem Slot.elem_putGroup (sl : Slot) (k : KWord) {l : List Nat} (f : Nat → Nat) (hvl : h.vl ≤ h.nmax) (hpos : 0 < h.vl)
    (hl : ∀ i ∈ l, i < h.vl) {e : Nat} (he : e < h.nmax) :
    (sl.putGroup h d w k (l.map fun i => (i, f i))).elem d w e =
      if e < h.vl then (if h.mz = true ∧ k.getLsbD e = false then 0 else if e ∈ l then f e % 2 ^ w else sl.elem d w e)
      else if h.tz then 0 else sl.elem d w e := by
  have hin : ∀ {i}, i < h.nmax → i * w / 1024 < h.regs w := fun hi => hfit.elem_in hi
  have hoff : ∀ i ∈ (if h.mz then (List.range h.vl).filter fun i => !k.getLsbD i else []), i * w / 1024 < h.regs w := by
    intro i hi
    split at hi
    · exact hin ((List.mem_range.mp (List.mem_of_mem_filter hi)).trans_le hvl)
    · cases hi
  have htail : ∀ i ∈ (if h.tz then h.tail else []), i * w / 1024 < h.regs w := by
    intro i hi
    split at hi
    · obtain ⟨j, hj, rfl⟩ := List.mem_map.mp hi
      exact hin (by have := List.mem_range.mp hj; omega)
    · cases hi
  have hmemOff : e ∈ (if h.mz then (List.range h.vl).filter fun i => !k.getLsbD i else []) ↔ h.mz = true ∧ e < h.vl ∧ k.getLsbD e = false := by
    cases h.mz <;> simp
  have hmemTail : e ∈ (if h.tz then h.tail else []) ↔ h.tz = true ∧ h.vl ≤ e := by
    cases h.tz
    · simp
    · simp only [if_true, VSh.tail, span, List.mem_map, List.mem_range, true_and]
      exact ⟨fun ⟨j, hj, hje⟩ => by omega, fun hle => ⟨e - h.vl, by omega, by omega⟩⟩
  unfold Slot.putGroup
  rw [if_neg (by omega), Slot.elem_zeroAt (hfit.in_file hal) hfit.dvd _ htail (hin he), Slot.elem_zeroAt (hfit.in_file hal) hfit.dvd _ hoff (hin he),
    Slot.elem_setElems (hfit.in_file hal) hfit.dvd _ f (fun i hi => hin ((hl i hi).trans_le hvl)) (hin he)]
  simp only [hmemOff, hmemTail]
  by_cases hlt : e < h.vl
  · rw [if_neg (by omega), if_pos hlt]
    simp [hlt]
  · rw [if_neg hlt]
    by_cases htz : h.tz = true
    · rw [if_pos ⟨htz, by omega⟩, if_pos htz]
    · rw [if_neg (fun c => htz c.1), if_neg (fun c => hlt c.2.1), if_neg (fun c => hlt (hl e c)), if_neg htz]

/-- The same with results for the active elements. -/
theorem Slot.elem_putGroup_active (sl : Slot) (k : KWord) (f : Nat → Nat) (hvl : h.vl ≤ h.nmax) (hpos : 0 < h.vl) {e : Nat} (he : e < h.nmax) :
    (sl.putGroup h d w k ((h.active k).map fun i => (i, f i))).elem d w e =
      if e < h.vl then (if k.getLsbD e then f e % 2 ^ w else if h.mz then 0 else sl.elem d w e) else if h.tz then 0 else sl.elem d w e := by
  have hactive : ∀ i ∈ h.active k, i < h.vl := fun i hi => List.mem_range.mp (List.mem_of_mem_filter hi)
  rw [Slot.elem_putGroup hfit hal sl k f hvl hpos hactive he]
  by_cases hlt : e < h.vl
  · rw [if_pos hlt, if_pos hlt]
    cases hk : k.getLsbD e
    · simp [VSh.active, hk]
    · simp [VSh.active, hk, hlt]
  · rw [if_neg hlt, if_neg hlt]

theorem Slot.putGroup_only (sl : Slot) (k : KWord) {res : List (Nat × Nat)} (hvl : h.vl ≤ h.nmax) (hres : ∀ e ∈ res, e.1 < h.nmax) :
    sl.VecOnly (sl.putGroup h d w k res) d (h.regs w) :=
  sl.putGroup_vecOnly (hfit.in_file hal) k hvl hres hfit.pos hfit.nmax_le

end Group

end Sys2Proof.Machine
end
section
/-! PROOF. Vector arithmetic: completion and frame of every form (R352, R359 to R365), and the integer elements (R350, R351, R359). -/

namespace Sys2Proof.Machine

/-! ### Operations over elements -/

/-- Every flag of one arithmetic side stands in another. -/
def Fp.Keeps (p q : Fp) : Prop := p.ctl &&& q.ctl = p.ctl

theorem Fp.Keeps.refl (p : Fp) : p.Keeps p := BitVec.and_self

theorem Fp.Keeps.trans {p q r : Fp} (h : p.Keeps q) (g : q.Keeps r) : p.Keeps r := by
  unfold Fp.Keeps at *
  rw [← h, BitVec.and_assoc, g]

theorem Fp.keeps_raise (p : Fp) (fl : Nat) : p.Keeps (p.raise fl) := p.and_raise_ctl fl

theorem Fp.keeps_round (p : Fp) (f : FFmt) (rm : Nat) (sat : Bool) (v : FVal × Nat) : p.Keeps (p.round f rm sat v).2 := by
  unfold Fp.round
  split
  · exact and_addFlags p.ctl _
  · exact and_addFlags p.ctl _

theorem Fp.raise_zero (p : Fp) : p.raise 0 = p := by
  unfold Fp.raise addFlags
  rw [show BitVec.ofNat 64 (0 * 256) = 0#64 from rfl, BitVec.or_zero]

section Over
variable {f : Nat → Fp → Nat × Fp}

theorem overElems_nil (p : Fp) : overElems [] p f = ([], p) := rfl

theorem overElems_append (l : List Nat) (i : Nat) (p : Fp) :
    overElems (l ++ [i]) p f = ((overElems l p f).1 ++ [(i, (f i (overElems l p f).2).1)], (f i (overElems l p f).2).2) := by
  unfold overElems
  rw [List.foldl_append]
  rfl

theorem mem_overElems {l : List Nat} {p : Fp} {e : Nat × Nat} (he : e ∈ (overElems l p f).1) : e.1 ∈ l := by
  induction l using List.reverseRecOn with
  | nil => cases he
  | append_singleton l i ih =>
    rw [overElems_append, List.mem_append, List.mem_singleton] at he
    rcases he with he | rfl
    · exact List.mem_append_left _ (ih he)
    · exact List.mem_append_right _ (List.mem_singleton_self _)

theorem overElems_keeps (hf : ∀ (i : Nat) (q : Fp), q.Keeps (f i q).2) (l : List Nat) (p : Fp) : p.Keeps (overElems l p f).2 := by
  induction l using List.reverseRecOn with
  | nil => exact .refl p
  | append_singleton l i ih =>
    rw [overElems_append]
    exact ih.trans (hf i _)

/-- An operation that leaves the arithmetic side is one function of its element. -/
theorem overElems_pure {g : Nat → Nat} (hf : ∀ i q, f i q = (g i, q)) (l : List Nat) (p : Fp) : overElems l p f = (l.map fun i => (i, g i), p) := by
  induction l using List.reverseRecOn with
  | nil => rfl
  | append_singleton l i ih => rw [overElems_append, ih, hf, List.map_append, List.map_singleton]

end Over

/-! ### The flags that an element operation leaves (R43, R46) -/

theorem keeps_vFltOp (o : VOp) (f : FFmt) (rm : Nat) (sat : Bool) (a b : Nat) (p : Fp) : p.Keeps (vFltOp o f rm sat a b p).2 := by
  cases o
  case add | sub | mul => exact p.keeps_round f rm sat _
  all_goals exact .refl p

theorem keeps_vconv (dst src : Nat) (sat : Bool) (v : Nat) (p : Fp) : p.Keeps (vconv dst src sat v p).2 := by
  unfold vconv
  dsimp only
  split
  · exact p.keeps_raise _
  · generalize (if vtyInt src then finOfInt (vInt src (vtyBits src) v) 0 else (vtyFmt src).value v) = x
    split
    · refine Fp.Keeps.trans ?_ (Fp.keeps_raise _ _)
      split
      · exact .refl p
      · exact .refl p
    · exact p.keeps_round _ _ _ _

theorem keeps_vredStep (o t w acc v : Nat) (p : Fp) : p.Keeps (vredStep o t w acc v p).2 := by
  unfold vredStep
  split
  · exact .refl p
  · exact keeps_vFltOp _ _ _ _ _ _ p

/-! ### Completion and frame of a form (R352) -/

/-- A form completes with its frame where its checks hold, and traps ILLEGAL with fault.addr 0 where they fail. -/
def State.CompletesOrTraps (s : State) (d : Reg) (n : Nat) (out : Out) (ok : Bool) : Prop :=
  (ok = true → ∃ t, out = .next t ∧ s.vecFrame t d n) ∧ (ok = false → out = .next (s.takeTrap s.cur Cause.illegal 0 0))

theorem State.completesOrTraps_of {s u : State} (hacts : s.acts) {d : Reg} {n : Nat} {bad ok : Bool} (hbad : bad = !ok)
    (hframe : ok = true → s.vecFrame u.advance d n) {out : Out} (hout : out = guarded s (vcheck s bad (.next u))) : s.CompletesOrTraps d n out ok := by
  rw [hout, guarded_acts hacts, hbad]
  refine ⟨fun hok => ⟨u.advance, ?_, hframe hok⟩, fun hok => ?_⟩
  · rw [hok]
    rfl
  · rw [hok]
    rfl

section Frames
variable {s : State} (hwf : s.me.wf = true) {d : Reg} {w : Nat} (hw : w ∈ [8, 16, 32, 64])
include hwf hw

/-- A group that is written with the slot's arithmetic side. -/
theorem State.vecFrame_vput (hal : s.me.sh.aligned d w = true) (k : KWord) {r : List (Nat × Nat) × Fp} (hkeys : ∀ e ∈ r.1, e.1 < s.me.sh.nmax)
    (hkeeps : s.fp.Keeps r.2) : s.vecFrame (s.vput s.me.sh d w k r).advance d (s.me.sh.regs w) :=
  (State.vecFrame_advance (Slot.putGroup_only (s.me.fits hw) hal s.me k (Slot.vl_le_nmax hwf) hkeys) hkeeps).1

theorem State.vecFrame_overActive (hal : s.me.sh.aligned d w = true) (k : KWord) {f : Nat → Fp → Nat × Fp} (hf : ∀ (i : Nat) (q : Fp), q.Keeps (f i q).2) :
    s.vecFrame (s.vput s.me.sh d w k (overElems (s.me.sh.active k) s.fp f)).advance d (s.me.sh.regs w) :=
  s.vecFrame_vput hwf hw hal k
    (fun e he => (List.mem_range.mp (List.mem_of_mem_filter (mem_overElems he))).trans_le (Slot.vl_le_nmax hwf)) (overElems_keeps hf _ _)

end Frames

theorem VSh.aligned_of_bad3 {h : VSh} {d a b : Reg} {w : Nat} {scalar : Bool} (hok : h.bad3 d a b w scalar = false) : h.aligned d w = true := by
  simp only [VSh.bad3, Bool.or_eq_false_iff, Bool.not_eq_false'] at hok
  exact hok.1.1.1

theorem decide_not_le (a b : Nat) : (!decide (a ≤ b)) = decide (b < a) := by
  rw [← decide_not, decide_eq_decide, Nat.not_le]

/-- The widths of the types that the forms admit. -/
theorem vtyBits_cases {t : Nat} (ht : t ≤ 12) : vtyBits t ∈ [8, 16, 32, 64] := by
  interval_cases t <;> decide

section Forms
variable {s : State} (hacts : s.acts) (hwf : s.me.wf = true) (d a b : Reg) (m : VMod)
include hacts hwf

theorem vbin_completesOrTraps (o : VOp) {out : Out} (hout : out = vbin o d a b m s) {ok : Bool}
    (hok : ok = (vtyBits m.ty.toNat == s.me.sh.sew && (vtyInt m.ty.toNat || (vtyFloat m.ty.toNat && o.floats)) && (!m.sat || o.sats) &&
      !s.me.sh.bad3 d a b s.me.sh.sew m.scalar)) : s.CompletesOrTraps d (s.me.sh.regs s.me.sh.sew) out ok := by
  refine State.completesOrTraps_of hacts ?_ (fun h => ?_) hout
  · rw [hok]
    simp [bne]
  · rw [hok] at h
    simp only [Bool.and_eq_true, Bool.not_eq_true'] at h
    refine State.vecFrame_overActive hwf s.me.sew_cases (VSh.aligned_of_bad3 h.2) _ fun i q => ?_
    dsimp only
    split
    · exact keeps_vFltOp _ _ _ _ _ _ q
    · exact q.keeps_raise _

theorem vflt_completesOrTraps (op : Bool → FVal → FVal → FVal → FVal × Nat) {out : Out} (hout : out = vflt d a b m op s) {ok : Bool}
    (hok : ok = (vtyBits m.ty.toNat == s.me.sh.sew && vtyFloat m.ty.toNat && !s.me.sh.bad3 d a b s.me.sh.sew m.scalar)) :
    s.CompletesOrTraps d (s.me.sh.regs s.me.sh.sew) out ok := by
  refine State.completesOrTraps_of hacts ?_ (fun h => ?_) hout
  · rw [hok]
    simp [bne, Bool.or_comm]
  · rw [hok] at h
    simp only [Bool.and_eq_true, Bool.not_eq_true'] at h
    exact State.vecFrame_overActive hwf s.me.sew_cases (VSh.aligned_of_bad3 h.2) _ fun i q => q.keeps_round _ _ _ _

theorem vsqrt_completesOrTraps {ok : Bool}
    (hok : ok = (!m.scalar && (vtyBits m.ty.toNat == s.me.sh.sew) && vtyFloat m.ty.toNat && !s.me.sh.bad3 d a a s.me.sh.sew false)) :
    s.CompletesOrTraps d (s.me.sh.regs s.me.sh.sew) (execVsqrt d a m s) ok := by
  cases hscalar : m.scalar with
  | true =>
    have hout : execVsqrt d a m s = guarded s (vcheck s true (.next s)) := by rw [execVsqrt, hscalar]; rfl
    refine State.completesOrTraps_of hacts ?_ (fun h => ?_) hout
    · rw [hok, hscalar]
      rfl
    · rw [hok, hscalar] at h
      cases h
  | false =>
    have hout : execVsqrt d a m s = vflt d a a m (fun _ _ x _ => fSqrt x) s := by rw [execVsqrt, hscalar]; rfl
    refine vflt_completesOrTraps hacts hwf d a a m _ hout ?_
    rw [hok, hscalar]
    rfl

theorem vwide_completesOrTraps (mul : Bool) {out : Out} (hout : out = vwide mul d a b m s) {ok : Bool}
    (hok : ok = ((vtyInt m.ty.toNat && m.ty.toNat != 7 || m.ty.toNat == 9 || m.ty.toNat == 10) && s.me.sh.sew != 64 && (vtyBits m.ty.toNat == s.me.sh.sew) &&
      !m.sat && s.me.sh.aligned d (2 * s.me.sh.sew) && s.me.sh.aligned a s.me.sh.sew && !s.me.sh.clash d (2 * s.me.sh.sew) a s.me.sh.sew &&
      (m.scalar || s.me.sh.aligned b s.me.sh.sew && !s.me.sh.clash d (2 * s.me.sh.sew) b s.me.sh.sew))) :
    s.CompletesOrTraps d (s.me.sh.regs (2 * s.me.sh.sew)) out ok := by
  refine State.completesOrTraps_of hacts ?_ (fun h => ?_) hout
  · rw [hok]
    simp [bne]
  · rw [hok] at h
    simp only [Bool.and_eq_true, bne_iff_ne] at h
    obtain ⟨⟨⟨⟨⟨⟨⟨-, h64⟩, -⟩, -⟩, hal⟩, -⟩, -⟩, -⟩ := h
    have hw : 2 * s.me.sh.sew ∈ [8, 16, 32, 64] := by
      have := s.me.sew_cases
      simp only [List.mem_cons, List.not_mem_nil, or_false] at this ⊢
      omega
    refine State.vecFrame_overActive hwf hw hal _ fun i q => ?_
    dsimp only
    split
    · exact .refl q
    · exact q.keeps_round _ _ _ _

theorem vnarrow_completesOrTraps (ty : BitVec 4) (mask : KReg) (sat : Bool) {ok : Bool}
    (hok : ok = (decide (ty.toNat ≤ 6) && s.me.sh.sew != 64 && (vtyBits ty.toNat == s.me.sh.sew) && s.me.sh.aligned d s.me.sh.sew &&
      s.me.sh.aligned a (2 * s.me.sh.sew) && !s.me.sh.clash d s.me.sh.sew a (2 * s.me.sh.sew))) :
    s.CompletesOrTraps d (s.me.sh.regs s.me.sh.sew) (execVnarrow d a ty mask sat s) ok := by
  refine State.completesOrTraps_of hacts ?_ (fun h => ?_) rfl
  · rw [hok, ← decide_not_le]
    simp [bne]
  · rw [hok] at h
    simp only [Bool.and_eq_true] at h
    exact State.vecFrame_overActive hwf s.me.sew_cases h.1.1.2 _ fun i q => q.keeps_raise _

theorem vcvt_completesOrTraps (dst src : BitVec 4) (sat : Bool) {ok : Bool}
    (hok : ok = (decide (dst.toNat ≤ 12) && decide (src.toNat ≤ 12) && dst != src && s.me.sh.aligned d (vtyBits dst.toNat) &&
      s.me.sh.aligned a (vtyBits src.toNat) && !s.me.sh.clash d (vtyBits dst.toNat) a (vtyBits src.toNat))) :
    s.CompletesOrTraps d (s.me.sh.regs (vtyBits dst.toNat)) (execVcvt d a dst src sat s) ok := by
  refine State.completesOrTraps_of hacts ?_ (fun h => ?_) rfl
  · rw [hok, ← decide_not_le, ← decide_not_le]
    simp [bne]
  · rw [hok] at h
    simp only [Bool.and_eq_true, decide_eq_true_eq] at h
    obtain ⟨⟨⟨⟨⟨hdst, -⟩, -⟩, hal⟩, -⟩, -⟩ := h
    exact State.vecFrame_vput hwf (vtyBits_cases hdst) hal _
      (fun e he => (List.mem_range.mp (mem_overElems he)).trans_le (Slot.vl_le_nmax hwf)) (overElems_keeps (fun i q => keeps_vconv _ _ _ _ q) _ _)

/-! ### Reductions (R365) -/

end Forms

/-- The fold of a reduction over elements. -/
def State.vredFold (s : State) (o t w : Nat) (a b : Reg) (k : KWord) : Nat × Fp :=
  (s.me.sh.active k).foldl (fun acc i => vredStep o t w acc.1 (s.me.elem a w i) acc.2) (s.me.elem b w 0, s.fp)

/-- What a reduction writes: element 0, and zeros above it by the tail policy. -/
def Slot.putReduced (sl : Slot) (h : VSh) (d : Reg) (w acc : Nat) : Slot :=
  (sl.setElem d w 0 acc).setElems d w (if h.tz then zeroAt (span 1 (1024 / w - 1)) else [])

theorem vred_eq (o : Nat) (d a b : Reg) (m : VMod) (s : State) : vred o d a b m s =
    guarded s (vcheck s (vtyBits m.ty.toNat != s.me.sh.sew || !(vtyInt m.ty.toNat || vtyFloat m.ty.toNat) || m.sat || m.scalar ||
      !s.me.sh.aligned a s.me.sh.sew || (meets d.toNat 1 a.toNat (s.me.sh.regs s.me.sh.sew) && d != a))
      (.next (if s.me.sh.vl = 0 then s else
        (s.setSlot s.cur (s.me.putReduced s.me.sh d s.me.sh.sew (s.vredFold o m.ty.toNat s.me.sh.sew a b (s.me.kr m.mask)).1)).setFp
          (s.vredFold o m.ty.toNat s.me.sh.sew a b (s.me.kr m.mask)).2))) := rfl

theorem State.vredFold_keeps (s : State) (o t w : Nat) (a b : Reg) (k : KWord) : s.fp.Keeps (s.vredFold o t w a b k).2 := by
  unfold State.vredFold
  generalize s.me.sh.active k = l
  induction l using List.reverseRecOn with
  | nil => exact .refl s.fp
  | append_singleton l i ih =>
    rw [List.foldl_append]
    exact ih.trans (keeps_vredStep _ _ _ _ _ _)

theorem span_lt {lo n i : Nat} (h : i ∈ span lo n) : lo ≤ i ∧ i < lo + n := by
  obtain ⟨j, hj, rfl⟩ := List.mem_map.mp h
  have := List.mem_range.mp hj
  omega

section Reduced
variable {w : Nat} (hw : w ∈ [8, 16, 32, 64])
include hw

/-- The elements of one register. -/
theorem oneRegister {i : Nat} (hi : i < 1024 / w) : i * w / 1024 < 1 := by
  have hall : ∀ w ∈ [8, 16, 32, 64], 1024 / w * w = 1024 ∧ 0 < w := by decide
  obtain ⟨hfull, hpos⟩ := hall w hw
  rw [Nat.div_lt_iff_lt_mul (by decide), Nat.one_mul]
  calc i * w < 1024 / w * w := Nat.mul_lt_mul_of_pos_right hi hpos
    _ = 1024 := hfull

theorem Slot.putReduced_only (sl : Slot) (h : VSh) (d : Reg) (acc : Nat) : sl.VecOnly (sl.putReduced h d w acc) d 1 := by
  have hd : d.toNat + 1 ≤ 32 := d.isLt
  have hzero : 0 * w / 1024 < 1 := by simp
  refine (sl.setElem_vecOnly hd acc hzero).trans (Slot.setElems_vecOnly hd _ fun e he => ?_)
  split at he
  · obtain ⟨i, hi, rfl⟩ := List.mem_map.mp he
    exact oneRegister hw (by have := span_lt hi; omega)
  · cases he

theorem Slot.elem_putReduced (sl : Slot) (h : VSh) (d : Reg) (acc : Nat) : (sl.putReduced h d w acc).elem d w 0 = acc % 2 ^ w := by
  have hd : d.toNat + 1 ≤ 32 := d.isLt
  have hzero : 0 * w / 1024 < 1 := by simp
  have hall : ∀ w ∈ [8, 16, 32, 64], w ∣ 1024 := by decide
  have hl : ∀ i ∈ (if h.tz then span 1 (1024 / w - 1) else []), 1 ≤ i ∧ i * w / 1024 < 1 := by
    intro i hi
    split at hi
    · have := span_lt hi
      exact ⟨this.1, oneRegister hw (by omega)⟩
    · cases hi
  have hput : sl.putReduced h d w acc = (sl.setElem d w 0 acc).setElems d w (zeroAt (if h.tz then span 1 (1024 / w - 1) else [])) := by
    unfold Slot.putReduced
    cases h.tz <;> rfl
  rw [hput, Slot.elem_zeroAt hd (hall w hw) _ (fun i hi => (hl i hi).2) hzero, if_neg (fun hmem => absurd (hl 0 hmem).1 (by decide)),
    Slot.elem_setElem hd (hall w hw) sl acc hzero hzero, if_pos rfl]

end Reduced

theorem vred_completesOrTraps {s : State} (hacts : s.acts) (o : Nat) (d a b : Reg) (m : VMod) {out : Out} (hout : out = vred o d a b m s) {ok : Bool}
    (hok : ok = ((vtyBits m.ty.toNat == s.me.sh.sew) && (vtyInt m.ty.toNat || vtyFloat m.ty.toNat) && !m.sat && !m.scalar && s.me.sh.aligned a s.me.sh.sew &&
      (d == a || !meets d.toNat 1 a.toNat (s.me.sh.regs s.me.sh.sew)))) : s.CompletesOrTraps d 1 out ok := by
  refine State.completesOrTraps_of hacts ?_ (fun _ => ?_) (hout.trans (vred_eq o d a b m s))
  · rw [hok, Bool.and_comm (meets d.toNat 1 a.toNat (s.me.sh.regs s.me.sh.sew))]
    simp [bne]
  · split
    · exact (s.vecFrame_advance_self d 1).1
    · exact (State.vecFrame_advance (Slot.putReduced_only s.me.sew_cases s.me _ d _) (s.vredFold_keeps _ _ _ _ _ _)).1

/-! ### Integers modulo their width (R45, R46) -/

theorem sInt_emod (w a : Nat) : sInt w a % 2 ^ w = (a : Int) % 2 ^ w := by
  have hcast : (2 : Int) ^ w = ((2 ^ w : Nat) : Int) := by push_cast; rfl
  rw [hcast]
  simp only [sInt, Int.ofNat_eq_natCast]
  split
  · rw [← Int.natCast_mod, ← Int.natCast_mod, Nat.mod_mod]
  · rw [Int.sub_emod_right, ← Int.natCast_mod, ← Int.natCast_mod, Nat.mod_mod]

theorem vInt_emod (t w a : Nat) : vInt t w a % 2 ^ w = (a : Int) % 2 ^ w := by
  unfold vInt
  split
  · exact sInt_emod w a
  · rw [Int.ofNat_eq_natCast, Int.natCast_mod]
    push_cast
    exact Int.emod_emod_of_dvd _ dvd_rfl

theorem wrapInt_cast (w : Nat) (i : Int) : (wrapInt w i : Int) = i % 2 ^ w := by
  have hcast : Int.ofNat (2 ^ w) = (2 : Int) ^ w := by rw [Int.ofNat_eq_natCast]; push_cast; rfl
  rw [wrapInt, hcast, Int.toNat_of_nonneg (Int.emod_nonneg _ (by positivity))]

/-- The integer sum of a reduction, modulo 2^w. -/
theorem State.vredFold_sum (s : State) {t w : Nat} (hint : vtyInt t = true) (a b : Reg) (k : KWord) :
    (s.vredFold 0 t w a b k).1 % 2 ^ w = (s.me.elem b w 0 + ((s.me.sh.active k).map fun i => s.me.elem a w i).sum) % 2 ^ w := by
  unfold State.vredFold
  generalize s.me.sh.active k = l
  induction l using List.reverseRecOn with
  | nil => rfl
  | append_singleton l i ih =>
    rw [List.foldl_append, List.map_append, List.sum_append, ← Nat.add_assoc, Nat.add_mod, ← ih]
    generalize (l.foldl _ _ : Nat × Fp) = acc
    have hstep : ((vredStep 0 t w acc.1 (s.me.elem a w i) acc.2).1 : Int) = ((acc.1 + s.me.elem a w i : Nat) : Int) % 2 ^ w := by
      rw [vredStep, if_pos hint]
      refine (wrapInt_cast w _).trans ?_
      change (vInt t w acc.1 + vInt t w (s.me.elem a w i)) % 2 ^ w = _
      rw [Int.add_emod, vInt_emod, vInt_emod, ← Int.add_emod]
      push_cast
      rfl
    have hnat : (vredStep 0 t w acc.1 (s.me.elem a w i) acc.2).1 = (acc.1 + s.me.elem a w i) % 2 ^ w := by exact_mod_cast hstep
    change (vredStep 0 t w acc.1 (s.me.elem a w i) acc.2).1 % 2 ^ w = _
    rw [hnat, Nat.mod_mod, ← Nat.add_mod]
    simp

section Kinds
variable {s : State} (hacts : s.acts) (hwf : s.me.wf = true) (d a b : Reg) (m : VMod)
include hacts hwf

/-- The forms that integers and floating types share, with .sat. -/
theorem vbin_arith (o : VOp) (ho : o.floats = true ∧ o.sats = true) {out : Out} (hout : out = vbin o d a b m s) :
    s.CompletesOrTraps d (s.me.sh.regs s.me.sh.sew) out (vtyBits m.ty.toNat == s.me.sh.sew &&
      (decide (m.ty.toNat < 8) || (m.ty.toNat == 8 || m.ty.toNat == 9 || m.ty.toNat == 10)) && !s.me.sh.bad3 d a b s.me.sh.sew m.scalar) :=
  vbin_completesOrTraps hacts hwf d a b m o hout (by simp [ho, vtyInt, vtyFloat])

/-- Those without .sat. -/
theorem vbin_pick (o : VOp) (ho : o.floats = true ∧ o.sats = false) {out : Out} (hout : out = vbin o d a b m s) :
    s.CompletesOrTraps d (s.me.sh.regs s.me.sh.sew) out (vtyBits m.ty.toNat == s.me.sh.sew &&
      (decide (m.ty.toNat < 8) || (m.ty.toNat == 8 || m.ty.toNat == 9 || m.ty.toNat == 10)) && !m.sat && !s.me.sh.bad3 d a b s.me.sh.sew m.scalar) :=
  vbin_completesOrTraps hacts hwf d a b m o hout (by simp [ho, vtyInt, vtyFloat])

/-- The forms of integers alone. -/
theorem vbin_whole (o : VOp) (ho : o.floats = false ∧ o.sats = false) {out : Out} (hout : out = vbin o d a b m s) :
    s.CompletesOrTraps d (s.me.sh.regs s.me.sh.sew) out
      (vtyBits m.ty.toNat == s.me.sh.sew && decide (m.ty.toNat < 8) && !m.sat && !s.me.sh.bad3 d a b s.me.sh.sew m.scalar) :=
  vbin_completesOrTraps hacts hwf d a b m o hout (by simp [ho, vtyInt])

end Kinds

/-- An integer sum leaves its fold in element 0 (R365). -/
theorem vredsum_elem {s : State} (hacts : s.acts) (d a b : Reg) (m : VMod) (hsized : (vtyBits m.ty.toNat == s.me.sh.sew) = true)
    (hint : decide (m.ty.toNat < 8) = true) (hsat : m.sat = false) (hscalar : m.scalar = false) (hal : s.me.sh.aligned a s.me.sh.sew = true)
    (hmeet : d = a ∨ meets d.toNat 1 a.toNat (s.me.sh.regs s.me.sh.sew) = false) (hvl : 0 < s.me.vl.toNat) :
    ∃ t, exec (.vredsum d a b m) s = .next t ∧ t.me.elem d s.me.sh.sew 0 =
      (s.me.elem b s.me.sh.sew 0 + (((List.range s.me.sh.vl).filter fun i => (s.me.kr m.mask).getLsbD i).map fun i => s.me.elem a s.me.sh.sew i).sum) %
        2 ^ s.me.sh.sew := by
  have hnovl : s.me.sh.vl ≠ 0 := by
    change s.me.vl.toNat ≠ 0
    omega
  have hclear : (meets d.toNat 1 a.toNat (s.me.sh.regs s.me.sh.sew) && d != a) = false := by
    rcases hmeet with rfl | h
    · simp
    · rw [h, Bool.false_and]
  have hbad : (vtyBits m.ty.toNat != s.me.sh.sew || !(vtyInt m.ty.toNat || vtyFloat m.ty.toNat) || m.sat || m.scalar ||
      !s.me.sh.aligned a s.me.sh.sew || (meets d.toNat 1 a.toNat (s.me.sh.regs s.me.sh.sew) && d != a)) = false := by
    rw [hclear, hal, hsat, hscalar, vtyInt, hint, bne, hsized]
    rfl
  refine ⟨_, ((vred_eq 0 d a b m s).trans (guarded_acts hacts _) : execVredsum d a b m s = _).trans (by rw [hbad, if_neg hnovl]; rfl), ?_⟩
  simp only [State.setFp, State.modMe_eq, State.advance_eq, State.setSlot_cur, State.setSlot_me, State.setSlot_setSlot]
  exact (Slot.elem_putReduced s.me.sew_cases s.me _ d _).trans (s.vredFold_sum hint a b _)

/-- Settles O17: one statement for each shape of form, and the fold of a reduction. -/
theorem vectorFormsCompleteOrTrap : Obligations.VectorFormsCompleteOrTrap := by
  intro s d a b m sat src hacts hwf h w t one int flt sized regs3
  refine ⟨?_, ?_, ?_, ?_, vsqrt_completesOrTraps hacts hwf d a m rfl, ?_, vnarrow_completesOrTraps hacts hwf d a m.ty m.mask sat rfl,
    vcvt_completesOrTraps hacts hwf d a m.ty src sat rfl, ?_, vredsum_elem hacts d a b m⟩
  all_goals simp only [List.forall_mem_cons, List.not_mem_nil, false_implies, implies_true, and_true]
  · exact ⟨vbin_arith hacts hwf d a b m .add ⟨rfl, rfl⟩ (rfl : execVadd d a b m s = _), vbin_arith hacts hwf d a b m .sub ⟨rfl, rfl⟩ (rfl : execVsub d a b m s = _),
      vbin_arith hacts hwf d a b m .mul ⟨rfl, rfl⟩ (rfl : execVmul d a b m s = _)⟩
  · exact ⟨vbin_pick hacts hwf d a b m .min ⟨rfl, rfl⟩ (rfl : execVmin d a b m s = _), vbin_pick hacts hwf d a b m .max ⟨rfl, rfl⟩ (rfl : execVmax d a b m s = _)⟩
  · exact ⟨vbin_whole hacts hwf d a b m .mulh ⟨rfl, rfl⟩ (rfl : execVmulh d a b m s = _), vbin_whole hacts hwf d a b m .div ⟨rfl, rfl⟩ (rfl : execVdiv d a b m s = _),
      vbin_whole hacts hwf d a b m .rem ⟨rfl, rfl⟩ (rfl : execVrem d a b m s = _), vbin_whole hacts hwf d a b m .and ⟨rfl, rfl⟩ (rfl : execVand d a b m s = _),
      vbin_whole hacts hwf d a b m .or ⟨rfl, rfl⟩ (rfl : execVor d a b m s = _), vbin_whole hacts hwf d a b m .xor ⟨rfl, rfl⟩ (rfl : execVxor d a b m s = _),
      vbin_whole hacts hwf d a b m .sll ⟨rfl, rfl⟩ (rfl : execVsll d a b m s = _), vbin_whole hacts hwf d a b m .srl ⟨rfl, rfl⟩ (rfl : execVsrl d a b m s = _),
      vbin_whole hacts hwf d a b m .sra ⟨rfl, rfl⟩ (rfl : execVsra d a b m s = _)⟩
  · exact ⟨vflt_completesOrTraps hacts hwf d a b m _ (rfl : execVfma d a b m s = _) rfl, vflt_completesOrTraps hacts hwf d a b m _ (rfl : execVfdiv d a b m s = _) rfl⟩
  · exact ⟨vwide_completesOrTraps hacts hwf d a b m false (rfl : execVwadd d a b m s = _) rfl,
      vwide_completesOrTraps hacts hwf d a b m true (rfl : execVwmul d a b m s = _) rfl⟩
  · exact ⟨vred_completesOrTraps hacts 0 d a b m (rfl : execVredsum d a b m s = _) rfl, vred_completesOrTraps hacts 1 d a b m (rfl : execVredmin d a b m s = _) rfl,
      vred_completesOrTraps hacts 2 d a b m (rfl : execVredmax d a b m s = _) rfl⟩

end Sys2Proof.Machine
end
section
/-! PROOF. Vector integer arithmetic, element by element (R350, R351, R359). -/

namespace Sys2Proof.Machine

/-! ### The exact results as the statement names them (R359) -/

theorem vInt_of_lt {t w v : Nat} (hv : v < 2 ^ w) : vInt t w v = if t < 4 then sInt w v else Int.ofNat v := by
  unfold vInt vtySigned
  by_cases h : t < 4
  · simp [h]
  · simp [h, Nat.mod_eq_of_lt hv]

theorem vInt_eq_zero {t w v : Nat} (hv : v < 2 ^ w) (h : vInt t w v = 0) : v = 0 := by
  have hmod := vInt_emod t w v
  rw [h, Int.zero_emod] at hmod
  have hcast : ((v : Int) % 2 ^ w) = ((v % 2 ^ w : Nat) : Int) := by push_cast; rfl
  rw [hcast, Nat.mod_eq_of_lt hv] at hmod
  exact_mod_cast hmod.symm

theorem vInt_zero (t w : Nat) : vInt t w 0 = 0 := by
  unfold vInt sInt
  split
  · simp
  · simp

section Values
variable (t w : Nat) {p q : Nat} (hp : p < 2 ^ w) (hq : q < 2 ^ w)

theorem vIntOp_add : vIntOp .add t w p q % 2 ^ w = (Int.ofNat p + Int.ofNat q) % 2 ^ w := by
  change (vInt t w p + vInt t w q) % 2 ^ w = _
  rw [Int.add_emod, vInt_emod, vInt_emod, ← Int.add_emod]
  rfl

theorem vIntOp_sub : vIntOp .sub t w p q % 2 ^ w = (Int.ofNat p - Int.ofNat q) % 2 ^ w := by
  change (vInt t w p - vInt t w q) % 2 ^ w = _
  rw [Int.sub_emod, vInt_emod, vInt_emod, ← Int.sub_emod]
  rfl

theorem vIntOp_mul : vIntOp .mul t w p q % 2 ^ w = (Int.ofNat p * Int.ofNat q) % 2 ^ w := by
  change (vInt t w p * vInt t w q) % 2 ^ w = _
  rw [Int.mul_emod, vInt_emod, vInt_emod, ← Int.mul_emod]
  rfl

theorem vIntOp_sll : vIntOp .sll t w p q = Int.ofNat (p <<< (q % w)) := by
  rw [Nat.shiftLeft_eq]
  rfl

theorem vIntOp_srl : vIntOp .srl t w p q = Int.ofNat (p >>> (q % w)) := by
  rw [Nat.shiftRight_eq_div_pow]
  rfl

theorem vIntOp_sra : vIntOp .sra t w p q = sInt w p / 2 ^ (q % w) := by
  have hcast : Int.ofNat (2 ^ (q % w)) = (2 : Int) ^ (q % w) := by rw [Int.ofNat_eq_natCast]; push_cast; rfl
  rw [← hcast]
  rfl

include hp hq

theorem vIntOp_min : vIntOp .min t w p q = min (if t < 4 then sInt w p else Int.ofNat p) (if t < 4 then sInt w q else Int.ofNat q) := by
  rw [← vInt_of_lt hp, ← vInt_of_lt hq]
  change (if vInt t w q < vInt t w p then vInt t w q else vInt t w p) = _
  split <;> omega

theorem vIntOp_max : vIntOp .max t w p q = max (if t < 4 then sInt w p else Int.ofNat p) (if t < 4 then sInt w q else Int.ofNat q) := by
  rw [← vInt_of_lt hp, ← vInt_of_lt hq]
  change (if vInt t w p < vInt t w q then vInt t w q else vInt t w p) = _
  split <;> omega

theorem vIntOp_mulh :
    vIntOp .mulh t w p q = (if t < 4 then sInt w p else Int.ofNat p) * (if t < 4 then sInt w q else Int.ofNat q) / 2 ^ w := by
  rw [← vInt_of_lt hp, ← vInt_of_lt hq]
  have hcast : Int.ofNat (2 ^ w) = (2 : Int) ^ w := by rw [Int.ofNat_eq_natCast]; push_cast; rfl
  rw [← hcast]
  rfl

theorem vIntOp_div : vIntOp .div t w p q % 2 ^ w =
    (if q = 0 then -1 else (if t < 4 then sInt w p else Int.ofNat p).tdiv (if t < 4 then sInt w q else Int.ofNat q)) % 2 ^ w := by
  rw [← vInt_of_lt hp, ← vInt_of_lt hq]
  change vQuot t w (vInt t w p) (vInt t w q) % 2 ^ w = _
  unfold vQuot
  by_cases h : q = 0
  · rw [if_pos (by rw [h, vInt_zero]), if_pos h]
    split
    · rfl
    · have hcast : Int.ofNat (2 ^ w) = (2 : Int) ^ w := by rw [Int.ofNat_eq_natCast]; push_cast; rfl
      rw [hcast, show (2 : Int) ^ w - 1 = -1 + 2 ^ w by omega, Int.add_emod_right]
  · rw [if_neg (fun c => h (vInt_eq_zero hq c)), if_neg h]

theorem vIntOp_rem : vIntOp .rem t w p q =
    if q = 0 then (if t < 4 then sInt w p else Int.ofNat p) else (if t < 4 then sInt w p else Int.ofNat p).tmod (if t < 4 then sInt w q else Int.ofNat q) := by
  rw [← vInt_of_lt hp, ← vInt_of_lt hq]
  change vRem (vInt t w p) (vInt t w q) = _
  unfold vRem
  by_cases h : q = 0
  · rw [if_pos (by rw [h, vInt_zero]), if_pos h]
  · rw [if_neg (fun c => h (vInt_eq_zero hq c)), if_neg h]

end Values

/-! ### Element by element -/

theorem State.src2_lt (s : State) (m : VMod) (r : Reg) (w i : Nat) : s.src2 m r w i < 2 ^ w := by
  unfold State.src2
  split
  · exact Nat.mod_lt _ (Nat.two_pow_pos w)
  · exact s.me.elem_lt r w i

theorem State.vput_fp {s : State} {h : VSh} {d : Reg} {w n : Nat} {k : KWord} {res : List (Nat × Nat)} (hq : s.me.VecOnly (s.me.putGroup h d w k res) d n) :
    s.vput h d w k (res, s.fp) = s.setSlot s.cur (s.me.putGroup h d w k res) := State.setFp_fp hq

section Leaves
variable {s : State} (hwf : s.me.wf = true) (hvl : 0 < s.me.vl.toNat) {d : Reg} (hal : s.me.sh.aligned d s.me.sh.sew = true)
include hwf hvl hal

/-- A group that an instruction writes with results for its active elements, flags and generator untouched. -/
theorem State.leaves_active (k : KWord) (g : Nat → Nat) :
    let t := (s.setSlot s.cur (s.me.putGroup s.me.sh d s.me.sh.sew k ((s.me.sh.active k).map fun i => (i, g i)))).advance
    s.vecFrame t d (s.me.sh.regs s.me.sh.sew) ∧ t.me.fpCtl = s.me.fpCtl ∧ t.me.rng = s.me.rng ∧
      ∀ e, e < s.me.sh.nmax → t.me.elem d s.me.sh.sew e = if e < s.me.sh.vl then
        (if k.getLsbD e then g e % 2 ^ s.me.sh.sew else if s.me.sh.mz then 0 else s.me.elem d s.me.sh.sew e)
        else if s.me.sh.tz then 0 else s.me.elem d s.me.sh.sew e := by
  intro t
  have hkeys : ∀ e ∈ (s.me.sh.active k).map fun i => (i, g i), e.1 < s.me.sh.nmax := by
    intro e he
    obtain ⟨i, hi, rfl⟩ := List.mem_map.mp he
    exact (List.mem_range.mp (List.mem_of_mem_filter hi)).trans_le (Slot.vl_le_nmax hwf)
  obtain ⟨hframe, hctl, hrng⟩ := State.vecFrame_advance_regs
    (Slot.putGroup_only (s.me.fits s.me.sew_cases) hal s.me k (Slot.vl_le_nmax hwf) hkeys)
  refine ⟨hframe, hctl, hrng, fun e he => ?_⟩
  have helem := Slot.elem_putGroup_active (s.me.fits s.me.sew_cases) hal s.me k g (Slot.vl_le_nmax hwf) hvl he
  refine Eq.trans ?_ helem
  simp only [t, State.advance_eq, State.setSlot_me]
  rfl

end Leaves

section Integer
variable {s : State} (hacts : s.acts) (hwf : s.me.wf = true) {d a b : Reg} {m : VMod} (hty : m.ty.toNat < 8) (hsat : m.sat = false)
  (hsized : vtyBits m.ty.toNat = s.me.sh.sew) (hregs : s.me.sh.bad3 d a b s.me.sh.sew m.scalar = false)
include hacts hwf hty hsat hsized hregs

theorem vbin_int (o : VOp) : vbin o d a b m s = .next (s.setSlot s.cur (s.me.putGroup s.me.sh d s.me.sh.sew (s.me.kr m.mask)
    ((s.me.sh.active (s.me.kr m.mask)).map fun i => (i, wrapInt s.me.sh.sew
      (vIntOp o m.ty.toNat s.me.sh.sew (s.me.elem a s.me.sh.sew i) (s.src2 m b s.me.sh.sew i)))))).advance := by
  have hfloat : vtyFloat m.ty.toNat = false := by
    simp only [vtyFloat, Bool.or_eq_false_iff, beq_eq_false_iff_ne]
    omega
  have hbad : (vtyBits m.ty.toNat != s.me.sh.sew || !(vtyInt m.ty.toNat || (vtyFloat m.ty.toNat && o.floats)) || (m.sat && !o.sats) ||
      s.me.sh.bad3 d a b s.me.sh.sew m.scalar) = false := by
    simp [hsized, vtyInt, hty, hsat, hregs]
  have hpure : ∀ (i : Nat) (q : Fp), (if vtyFloat m.ty.toNat then
        vFltOp o (vtyFmt m.ty.toNat) (q.mode 7) m.sat (s.me.elem a s.me.sh.sew i) (s.src2 m b s.me.sh.sew i) q
      else (((vKeep m.ty.toNat s.me.sh.sew m.sat (vIntOp o m.ty.toNat s.me.sh.sew (s.me.elem a s.me.sh.sew i) (s.src2 m b s.me.sh.sew i))).1,
        q.raise (vKeep m.ty.toNat s.me.sh.sew m.sat (vIntOp o m.ty.toNat s.me.sh.sew (s.me.elem a s.me.sh.sew i) (s.src2 m b s.me.sh.sew i))).2))) =
      (wrapInt s.me.sh.sew (vIntOp o m.ty.toNat s.me.sh.sew (s.me.elem a s.me.sh.sew i) (s.src2 m b s.me.sh.sew i)), q) := by
    intro i q
    simp only [hfloat, hsat, vKeep, Bool.false_eq_true, if_false, Fp.raise_zero]
  have hal := VSh.aligned_of_bad3 hregs
  refine (guarded_acts hacts _ : vbin o d a b m s = _).trans ?_
  rw [vcheck, if_neg (Bool.eq_false_iff.mp hbad), overElems_pure hpure, State.vput_fp, finish_next]
  refine Slot.putGroup_only (s.me.fits s.me.sew_cases) hal s.me _ (Slot.vl_le_nmax hwf) fun e he => ?_
  obtain ⟨i, hi, rfl⟩ := List.mem_map.mp he
  exact (List.mem_range.mp (List.mem_of_mem_filter hi)).trans_le (Slot.vl_le_nmax hwf)

/-- Each element of an integer form, as its operation makes it. -/
theorem vbin_leaves (hvl : 0 < s.me.vl.toNat) (o : VOp) {f : Nat → Nat → Int}
    (hf : ∀ p q, p < 2 ^ s.me.sh.sew → q < 2 ^ s.me.sh.sew → vIntOp o m.ty.toNat s.me.sh.sew p q % 2 ^ s.me.sh.sew = f p q % 2 ^ s.me.sh.sew)
    {out : Out} (hout : out = vbin o d a b m s) : ∃ t, out = .next t ∧ s.vecFrame t d (s.me.sh.regs s.me.sh.sew) ∧
      t.me.fpCtl = s.me.fpCtl ∧ t.me.rng = s.me.rng ∧ ∀ e, e < s.me.sh.nmax → Int.ofNat (t.me.elem d s.me.sh.sew e) =
        if e < s.me.sh.vl then (if (s.me.kr m.mask).getLsbD e then f (s.me.elem a s.me.sh.sew e) (s.src2 m b s.me.sh.sew e) % 2 ^ s.me.sh.sew
          else if s.me.sh.mz then 0 else Int.ofNat (s.me.elem d s.me.sh.sew e))
        else if s.me.sh.tz then 0 else Int.ofNat (s.me.elem d s.me.sh.sew e) := by
  obtain ⟨hframe, hctl, hrng, helem⟩ := State.leaves_active hwf hvl (VSh.aligned_of_bad3 hregs) (s.me.kr m.mask) fun i =>
    wrapInt s.me.sh.sew (vIntOp o m.ty.toNat s.me.sh.sew (s.me.elem a s.me.sh.sew i) (s.src2 m b s.me.sh.sew i))
  refine ⟨_, hout.trans (vbin_int hacts hwf hty hsat hsized hregs o), hframe, hctl, hrng, fun e he => ?_⟩
  rw [helem e he]
  have hvalue : Int.ofNat (wrapInt s.me.sh.sew (vIntOp o m.ty.toNat s.me.sh.sew (s.me.elem a s.me.sh.sew e) (s.src2 m b s.me.sh.sew e)) % 2 ^ s.me.sh.sew) =
      f (s.me.elem a s.me.sh.sew e) (s.src2 m b s.me.sh.sew e) % 2 ^ s.me.sh.sew := by
    rw [Int.ofNat_eq_natCast, Int.natCast_mod, wrapInt_cast]
    push_cast
    rw [Int.emod_emod_of_dvd _ dvd_rfl]
    exact hf _ _ (s.me.elem_lt _ _ _) (s.src2_lt m _ _ _)
  split
  · split
    · exact hvalue
    · split <;> rfl
  · split <;> rfl

end Integer

/-- Settles O16: each form is its operation on the two sources, element by element. -/
theorem vectorIntegerElements : Obligations.VectorIntegerElements := by
  intro s d a b m hacts hwf hty hsat hsized hregs hvl h w k sg y leaves
  have hone : ∀ (o : VOp) {f : Nat → Nat → Int}, (∀ p q, p < 2 ^ w → q < 2 ^ w → vIntOp o m.ty.toNat w p q % 2 ^ w = f p q % 2 ^ w) →
      ∀ {out : Out}, out = vbin o d a b m s → _ := fun o f hf out hout => vbin_leaves hacts hwf hty hsat hsized hregs hvl o hf hout
  exact ⟨hone .add (fun p q _ _ => vIntOp_add _ _) (rfl : execVadd d a b m s = _), hone .sub (fun p q _ _ => vIntOp_sub _ _) (rfl : execVsub d a b m s = _),
    hone .mul (fun p q _ _ => vIntOp_mul _ _) (rfl : execVmul d a b m s = _), hone .min (fun p q hp hq => congrArg (· % _) (vIntOp_min _ _ hp hq)) (rfl : execVmin d a b m s = _),
    hone .max (fun p q hp hq => congrArg (· % _) (vIntOp_max _ _ hp hq)) (rfl : execVmax d a b m s = _),
    hone .mulh (fun p q hp hq => congrArg (· % _) (vIntOp_mulh _ _ hp hq)) (rfl : execVmulh d a b m s = _),
    hone .div (fun p q hp hq => vIntOp_div _ _ hp hq) (rfl : execVdiv d a b m s = _),
    hone .rem (fun p q hp hq => congrArg (· % _) (vIntOp_rem _ _ hp hq)) (rfl : execVrem d a b m s = _),
    hone .and (fun p q _ _ => rfl) (rfl : execVand d a b m s = _), hone .or (fun p q _ _ => rfl) (rfl : execVor d a b m s = _),
    hone .xor (fun p q _ _ => rfl) (rfl : execVxor d a b m s = _), hone .sll (fun p q _ _ => congrArg (· % _) (vIntOp_sll _ _)) (rfl : execVsll d a b m s = _),
    hone .srl (fun p q _ _ => congrArg (· % _) (vIntOp_srl _ _)) (rfl : execVsrl d a b m s = _),
    hone .sra (fun p q _ _ => congrArg (· % _) (vIntOp_sra _ _)) (rfl : execVsra d a b m s = _)⟩

end Sys2Proof.Machine
end
section
/-! PROOF. Vector compares and mask operations, bit by bit (R366, R367). -/

namespace Sys2Proof.Machine

/-! ### Mask registers -/

theorem Slot.kr_setKr_same (sl : Slot) {k : KReg} (hk : k ≠ 0) (v : KWord) : (sl.setKr k v).kr k = v := by
  rw [Slot.setKr, if_neg hk, Slot.kr, if_neg hk]
  exact Vector.getElem_set_self k.isLt

theorem Slot.kr_setKr_ne (sl : Slot) {k r : KReg} (hne : r ≠ k) (v : KWord) : (sl.setKr k v).kr r = sl.kr r := by
  unfold Slot.setKr
  split
  · rfl
  · unfold Slot.kr
    split
    · rfl
    · exact Vector.getElem_set_ne k.isLt r.isLt fun h => hne (BitVec.eq_of_toNat_eq h.symm)

/-- The low bits of a mask destination as one number. -/
def maskBits (f : Nat → Bool) (n : Nat) : Nat := (List.range n).foldl (fun a i => a + flag (f i) * 2 ^ i) 0

theorem maskBits_succ (f : Nat → Bool) (n : Nat) : maskBits f (n + 1) = 2 ^ n * flag (f n) + maskBits f n := by
  unfold maskBits
  rw [List.range_succ, List.foldl_append, List.foldl_cons, List.foldl_nil, Nat.add_comm, Nat.mul_comm]

theorem maskBits_lt (f : Nat → Bool) (n : Nat) : maskBits f n < 2 ^ n := by
  induction n with
  | zero => exact Nat.one_pos
  | succ n ih =>
    rw [maskBits_succ, Nat.pow_succ]
    have := Nat.mul_le_mul_left (2 ^ n) (flag_le (f n))
    omega

theorem testBit_maskBits (f : Nat → Bool) (n e : Nat) : (maskBits f n).testBit e = (decide (e < n) && f e) := by
  induction n with
  | zero => exact Nat.zero_testBit e
  | succ n ih =>
    rw [maskBits_succ, Nat.testBit_two_pow_mul_add _ (maskBits_lt f n), ih]
    rcases Nat.lt_trichotomy e n with h | rfl | h
    · rw [if_pos h, decide_eq_true h, decide_eq_true (show e < n + 1 by omega)]
    · rw [if_neg (Nat.lt_irrefl _), Nat.sub_self, decide_eq_true (Nat.lt_succ_self _)]
      cases f e <;> rfl
    · rw [if_neg (by omega), decide_eq_false (by omega), Bool.false_and]
      obtain ⟨j, hj⟩ : ∃ j, e - n = j + 1 := ⟨e - n - 1, by omega⟩
      rw [hj, Nat.testBit_succ]
      cases f n <;> simp [flag]

/-- Bits below vl are the results, the others follow the tail policy (R351, R366). -/
theorem VSh.getLsbD_putMask {h : VSh} (hvl : 0 < h.vl) (old : KWord) (f : Nat → Bool) {e : Nat} (he : e < 128) :
    (h.putMask old f).getLsbD e = if e < h.vl then f e else if h.tz then false else old.getLsbD e := by
  have hput : h.putMask old f = BitVec.ofNat 128 (2 ^ h.vl * (if h.tz then 0 else old.toNat / 2 ^ h.vl) + maskBits f h.vl) := by
    rw [VSh.putMask, if_neg (by omega)]
    change BitVec.ofNat 128 (maskBits f h.vl + _) = _
    rw [Nat.add_comm]
    cases h.tz
    · rw [if_neg Bool.false_ne_true, if_neg Bool.false_ne_true, Nat.mul_comm]
    · rfl
  rw [hput, BitVec.getLsbD_ofNat, decide_eq_true he, Bool.true_and, Nat.testBit_two_pow_mul_add _ (maskBits_lt f h.vl), testBit_maskBits]
  split
  · next hlt => rw [decide_eq_true hlt, Bool.true_and]
  · next hlt =>
    split
    · exact Nat.zero_testBit _
    · rw [Nat.testBit_div_two_pow, Nat.sub_add_cancel (by omega)]
      rfl

/-! ### The instructions (R366, R367) -/

/-- An instruction that writes the bits of one mask register. -/
def State.LeavesMask (s : State) (k : KReg) (f : Nat → Bool) (out : Out) : Prop :=
  ∃ t, out = .next t ∧ t = s.setSlot s.cur { s.me with k := t.me.k, pc := s.me.npc } ∧ (∀ r, r ≠ k → t.me.kr r = s.me.kr r) ∧
    ∀ e, e < 128 → (t.me.kr k).getLsbD e = if e < s.me.sh.vl then f e else if s.me.sh.tz then false else (s.me.kr k).getLsbD e

section Masks
variable {s : State} {k : KReg} (hk : k ≠ 0) (hvl : 0 < s.me.vl.toNat)
include hk hvl

theorem State.leavesMask_of (f : Nat → Bool) :
    s.LeavesMask k f (.next (s.setSlot s.cur (s.me.setKr k (s.me.sh.putMask (s.me.kr k) f))).advance) := by
  refine ⟨_, rfl, ?_, fun r hr => ?_, fun e he => ?_⟩
  · simp only [State.advance_eq, State.setSlot_cur, State.setSlot_me, State.setSlot_setSlot, Slot.setKr, if_neg hk]
  · simp only [State.advance_eq, State.setSlot_me]
    exact Slot.kr_setKr_ne s.me hr _
  · simp only [State.advance_eq, State.setSlot_me]
    exact (congrArg (fun v : KWord => v.getLsbD e) (Slot.kr_setKr_same s.me hk _)).trans (VSh.getLsbD_putMask hvl _ f he)

variable (hacts : s.acts)
include hacts

theorem vmop_leaves (f : Nat → Bool) {out : Out} (hout : out = vmop k f s) : s.LeavesMask k f out := by
  have hbad : (k == 0) = false := beq_false_of_ne hk
  rw [hout, vmop, guarded_acts hacts, hbad]
  exact State.leavesMask_of hk hvl f

theorem vms_leaves {b c : Reg} {m : VMod} (hty : m.ty.toNat < 8) (hsized : vtyBits m.ty.toNat = s.me.sh.sew) (hsat : m.sat = false)
    (hb : s.me.sh.aligned b s.me.sh.sew = true) (hc : m.scalar = true ∨ s.me.sh.aligned c s.me.sh.sew = true) (o : Nat) {cmp : Nat → Nat → Bool}
    
    (hcmp : ∀ x y, x < 2 ^ s.me.sh.sew → y < 2 ^ s.me.sh.sew → vcmp o m.ty.toNat s.me.sh.sew x y = cmp x y) {out : Out} (hout : out = vms o k b c m s) :
    s.LeavesMask k (fun e => if (s.me.kr m.mask).getLsbD e then cmp (s.me.elem b s.me.sh.sew e) (s.src2 m c s.me.sh.sew e)
      else if s.me.sh.mz then false else (s.me.kr k).getLsbD e) out := by
  have hbad : (k == 0 || vtyBits m.ty.toNat != s.me.sh.sew || !(vtyInt m.ty.toNat || vtyFloat m.ty.toNat) || m.sat || !s.me.sh.aligned b s.me.sh.sew ||
      (!m.scalar && !s.me.sh.aligned c s.me.sh.sew)) = false := by
    have hscalar : (!m.scalar && !s.me.sh.aligned c s.me.sh.sew) = false := by
      rcases hc with h | h
      · rw [h]
        rfl
      · rw [h, Bool.and_comm]
        rfl
    simp [show ¬k = 0#3 from hk, hsized, vtyInt, hty, hsat, hb, hscalar]
  have hnan : ((s.me.sh.active (s.me.kr m.mask)).any fun i => vnan m.ty.toNat (s.me.elem b s.me.sh.sew i) (s.src2 m c s.me.sh.sew i)) = false := by
    simp [vnan, vtyInt, hty]
  have hself : ∀ q : Slot, q = { s.me with k := q.k } → (s.setSlot s.cur q).setFp s.fp = s.setSlot s.cur q := by
    intro q hq
    simp only [State.setFp, State.modMe_eq, State.setSlot_cur, State.setSlot_me, State.setSlot_setSlot]
    rw [hq]
    rfl
  rw [hout, vms, guarded_acts hacts]
  simp only [hbad, vcheck, Bool.false_eq_true, if_false, hnan, State.modMe_eq, hcmp _ _ (s.me.elem_lt _ _ _) (s.src2_lt _ _ _ _)]
  rw [hself _ (by rw [Slot.setKr, if_neg hk])]
  exact State.leavesMask_of hk hvl _

end Masks

/-- k0 is no destination (R347). -/
theorem mask_zero_traps {s : State} (hacts : s.acts) (kb kc : KReg) (b c : Reg) (m : VMod) :
    ∀ i ∈ [Instr.vmand 0 kb kc, .vmor 0 kb kc, .vmnot 0 kb, .vmseq 0 b c m, .vmsne 0 b c m, .vmslt 0 b c m, .vmsle 0 b c m],
      exec i s = .next (s.takeTrap s.cur Cause.illegal 0 0) := by
  simp only [List.forall_mem_cons, List.not_mem_nil, false_implies, implies_true, and_true]
  exact ⟨(guarded_acts hacts _ : execVmand 0 kb kc s = _), (guarded_acts hacts _ : execVmor 0 kb kc s = _), (guarded_acts hacts _ : execVmnot 0 kb s = _),
    (guarded_acts hacts _ : execVmseq 0 b c m s = _), (guarded_acts hacts _ : execVmsne 0 b c m s = _), (guarded_acts hacts _ : execVmslt 0 b c m s = _),
    (guarded_acts hacts _ : execVmsle 0 b c m s = _)⟩

/-- The first active element, or -1 (R367). -/
theorem active_head (h : VSh) (k : KWord) :
    (h.active k = [] ∧ ∀ e, e < h.vl → k.getLsbD e = false) ∨
      ∃ e rest, h.active k = e :: rest ∧ e < h.vl ∧ k.getLsbD e = true ∧ ∀ j, j < e → k.getLsbD j = false := by
  rcases hact : h.active k with _ | ⟨e, rest⟩
  · refine .inl ⟨rfl, fun e he => Bool.eq_false_iff.mpr fun hbit => ?_⟩
    have hmem : e ∈ h.active k := List.mem_filter.mpr ⟨List.mem_range.mpr he, hbit⟩
    rw [hact] at hmem
    cases hmem
  · have hmem : e ∈ h.active k := by rw [hact]; exact List.mem_cons_self
    obtain ⟨hlt, hbit⟩ := List.mem_filter.mp hmem
    refine .inr ⟨e, rest, rfl, List.mem_range.mp hlt, hbit, fun j hj => Bool.eq_false_iff.mpr fun hset => ?_⟩
    have hsorted : (h.active k).Pairwise (· < ·) := List.Pairwise.filter _ List.pairwise_lt_range
    have hin : j ∈ h.active k := List.mem_filter.mpr ⟨List.mem_range.mpr (hj.trans (List.mem_range.mp hlt)), hset⟩
    rw [hact] at hsorted hin
    rcases List.mem_cons.mp hin with rfl | hrest
    · exact Nat.lt_irrefl _ hj
    · exact Nat.lt_asymm hj (List.rel_of_pairwise_cons hsorted hrest)

/-! An integer compare is one on the integers that its two elements hold. -/

section Compare
variable {t w x y : Nat} (ht : t < 8) (hx : x < 2 ^ w) (hy : y < 2 ^ w)
include ht hx hy

theorem vcmp_eq : vcmp 0 t w x y = ((if t < 4 then sInt w x else Int.ofNat x) == (if t < 4 then sInt w y else Int.ofNat y)) := by
  rw [← vInt_of_lt hx, ← vInt_of_lt hy]
  exact if_pos (decide_eq_true ht)

theorem vcmp_ne : vcmp 1 t w x y = ((if t < 4 then sInt w x else Int.ofNat x) != (if t < 4 then sInt w y else Int.ofNat y)) := by
  rw [← vInt_of_lt hx, ← vInt_of_lt hy, bne]
  exact (if_pos (decide_eq_true ht)).trans (decide_not)

theorem vcmp_lt : vcmp 2 t w x y = decide ((if t < 4 then sInt w x else Int.ofNat x) < (if t < 4 then sInt w y else Int.ofNat y)) := by
  rw [← vInt_of_lt hx, ← vInt_of_lt hy]
  exact if_pos (decide_eq_true ht)

theorem vcmp_le : vcmp 3 t w x y = decide ((if t < 4 then sInt w x else Int.ofNat x) ≤ (if t < 4 then sInt w y else Int.ofNat y)) := by
  rw [← vInt_of_lt hx, ← vInt_of_lt hy]
  exact if_pos (decide_eq_true ht)

end Compare

/-- Settles O19: a mask destination is one function of the bit's place. -/
theorem vectorMaskResults : Obligations.VectorMaskResults := by
  intro s k kb kc d b c m hacts hwf hk hvl h w mask sg leaves cmp
  refine ⟨fun hty hsized hsat hb hc => ?_, vmop_leaves hk hvl hacts _ (rfl : execVmand k kb kc s = _), vmop_leaves hk hvl hacts _ (rfl : execVmor k kb kc s = _),
    vmop_leaves hk hvl hacts _ (rfl : execVmnot k kb s = _), ?_, ?_, mask_zero_traps hacts kb kc b c m⟩
  · exact ⟨vms_leaves hk hvl hacts hty hsized hsat hb hc 0 (fun x y hx hy => vcmp_eq hty hx hy) (rfl : execVmseq k b c m s = _),
      vms_leaves hk hvl hacts hty hsized hsat hb hc 1 (fun x y hx hy => vcmp_ne hty hx hy) (rfl : execVmsne k b c m s = _),
      vms_leaves hk hvl hacts hty hsized hsat hb hc 2 (fun x y hx hy => vcmp_lt hty hx hy) (rfl : execVmslt k b c m s = _),
      vms_leaves hk hvl hacts hty hsized hsat hb hc 3 (fun x y hx hy => vcmp_le hty hx hy) (rfl : execVmsle k b c m s = _)⟩
  · rw [List.countP_eq_length_filter]
    exact (guarded_acts hacts _ : execVpopc d kb s = _)
  · have hexec : execVfirst d kb s = _ := guarded_acts hacts _
    rcases active_head h (s.me.kr kb) with ⟨hnone, hclear⟩ | ⟨e, rest, hcons, hlt, hbit, hbelow⟩
    · rw [hnone] at hexec
      exact ⟨-1, hexec, .inl ⟨rfl, hclear⟩⟩
    · rw [hcons] at hexec
      exact ⟨BitVec.ofNat 64 e, hexec, .inr ⟨e, rfl, hlt, hbit, hbelow⟩⟩

end Sys2Proof.Machine
end
section
/-! PROOF. Vector permutes and moves, element by element (R368, R369). -/

namespace Sys2Proof.Machine

/-- An instruction that writes a group, element by element, flags and generator untouched. -/
def State.LeavesElems (s : State) (d : Reg) (f : Nat → Nat) (out : Out) : Prop :=
  ∃ t, out = .next t ∧ s.vecFrame t d (s.me.sh.regs s.me.sh.sew) ∧ t.me.fpCtl = s.me.fpCtl ∧ t.me.rng = s.me.rng ∧
    ∀ e, e < s.me.sh.nmax → t.me.elem d s.me.sh.sew e = f e

/-- An element of the tail by its policy (R351). -/
def State.tailElem (s : State) (d : Reg) (i : Nat) : Nat := if s.me.sh.tz then 0 else s.me.elem d s.me.sh.sew i

/-- An element by the mask and the policies (R350, R351). -/
def State.maskedElem (s : State) (d : Reg) (k : KWord) (f : Nat → Nat) (e : Nat) : Nat :=
  if e < s.me.sh.vl then (if k.getLsbD e then f e else if s.me.sh.mz then 0 else s.me.elem d s.me.sh.sew e) else s.tailElem d e

section Leaves
variable {s : State} {d : Reg} {f : Nat → Nat}

theorem State.leavesElems_of {q : Slot} (hq : s.me.VecOnly q d (s.me.sh.regs s.me.sh.sew)) (hf : ∀ e, e < s.me.sh.nmax → q.elem d s.me.sh.sew e = f e) :
    s.LeavesElems d f (.next (s.setSlot s.cur q).advance) := by
  obtain ⟨hframe, hctl, hrng⟩ := State.vecFrame_advance_regs hq
  refine ⟨_, rfl, hframe, hctl, hrng, fun e he => Eq.trans ?_ (hf e he)⟩
  simp only [State.advance_eq, State.setSlot_me]
  rfl

variable (hwf : s.me.wf = true) (hal : s.me.sh.aligned d s.me.sh.sew = true)
include hwf hal

section Put
variable (hvl : 0 < s.me.vl.toNat)
include hvl

/-- Results for the active elements. -/
theorem State.leavesElems_active (k : KWord) {g : Nat → Nat} (hg : ∀ i, g i < 2 ^ s.me.sh.sew) :
    s.LeavesElems d (s.maskedElem d k g)
      (.next (s.setSlot s.cur (s.me.putGroup s.me.sh d s.me.sh.sew k ((s.me.sh.active k).map fun i => (i, g i)))).advance) := by
  obtain ⟨hframe, hctl, hrng, helem⟩ := State.leaves_active hwf hvl hal k g
  refine ⟨_, rfl, hframe, hctl, hrng, fun e he => ?_⟩
  rw [helem e he, Nat.mod_eq_of_lt (hg e)]
  rfl

/-- Results for every element below vl. -/
theorem State.leavesElems_all {g : Nat → Nat} (hg : ∀ i, g i < 2 ^ s.me.sh.sew) :
    s.LeavesElems d (fun e => if e < s.me.sh.vl then g e else s.tailElem d e)
      (.next (s.setSlot s.cur (s.me.putGroup s.me.sh d s.me.sh.sew (s.me.kr 0) ((List.range s.me.sh.vl).map fun i => (i, g i)))).advance) := by
  have hle := Slot.vl_le_nmax hwf
  have hfit := s.me.fits s.me.sew_cases
  refine State.leavesElems_of (Slot.putGroup_only hfit hal s.me _ hle fun e he => ?_) fun e he => ?_
  · obtain ⟨i, hi, rfl⟩ := List.mem_map.mp he
    exact (List.mem_range.mp hi).trans_le hle
  · have hshort := hfit.short
    have hones : (s.me.kr 0).getLsbD e = true := by
      rw [Slot.kr, if_pos rfl, BitVec.getLsbD_allOnes, decide_eq_true (by omega)]
    rw [Slot.elem_putGroup hfit hal s.me _ g hle hvl (fun i hi => List.mem_range.mp hi) he]
    by_cases hlt : e < s.me.sh.vl
    · rw [if_pos hlt, if_pos hlt, hones, if_neg (fun h => Bool.noConfusion h.2), if_pos (List.mem_range.mpr hlt), Nat.mod_eq_of_lt (hg e)]
    · rw [if_neg hlt, if_neg hlt]
      rfl

end Put

/-- Results at some elements, then zeros at others. -/
theorem State.leavesElems_lists {l z : List Nat} {g : Nat → Nat} (hl : ∀ i ∈ l, i < s.me.sh.nmax) (hz : ∀ i ∈ z, i < s.me.sh.nmax)
    (hf : ∀ e, e < s.me.sh.nmax → (if e ∈ z then 0 else if e ∈ l then g e % 2 ^ s.me.sh.sew else s.me.elem d s.me.sh.sew e) = f e) :
    s.LeavesElems d f (.next (s.setSlot s.cur ((s.me.setElems d s.me.sh.sew (l.map fun i => (i, g i))).setElems d s.me.sh.sew (zeroAt z))).advance) := by
  have hfit := s.me.fits s.me.sew_cases
  have hfile := hfit.in_file hal
  have hin : ∀ {i}, i < s.me.sh.nmax → i * s.me.sh.sew / 1024 < s.me.sh.regs s.me.sh.sew := fun hi => hfit.elem_in hi
  refine State.leavesElems_of ((s.me.setElems_vecOnly hfile fun e he => ?_).trans (Slot.setElems_vecOnly hfile _ fun e he => ?_)) fun e he => ?_
  · obtain ⟨i, hi, rfl⟩ := List.mem_map.mp he
    exact hin (hl i hi)
  · obtain ⟨i, hi, rfl⟩ := List.mem_map.mp he
    exact hin (hz i hi)
  · rw [Slot.elem_zeroAt hfile hfit.dvd _ (fun i hi => hin (hz i hi)) (hin he), Slot.elem_setElems hfile hfit.dvd s.me g (fun i hi => hin (hl i hi)) (hin he)]
    exact hf e he

end Leaves

/-! ### The permutes (R368) -/

theorem VSh.moves_of_sized {h : VSh} {t : Nat} (hsized : vtyBits t = h.sew) : h.moves t = true := beq_iff_eq.mpr hsized

theorem mem_active {h : VSh} {k : KWord} {i : Nat} : i ∈ h.active k ↔ i < h.vl ∧ k.getLsbD i = true := by
  rw [VSh.active, List.mem_filter, List.mem_range]

theorem mem_ite_nil {α : Type} {p : Prop} [Decidable p] {l : List α} {a : α} : a ∈ (if p then l else []) ↔ p ∧ a ∈ l := by
  split
  · next h => exact (and_iff_right h).symm
  · next h => simp [h]

theorem VSh.mem_tail {h : VSh} {e : Nat} (he : e < h.nmax) : e ∈ h.tail ↔ h.vl ≤ e := by
  rw [VSh.tail, span, List.mem_map]
  exact ⟨fun ⟨j, _, hj⟩ => hj ▸ Nat.le_add_right _ _, fun hle => ⟨e - h.vl, List.mem_range.mpr (by omega), by omega⟩⟩

section Permutes
variable {s : State} (hacts : s.acts) (hwf : s.me.wf = true) {d b c : Reg} {m : VMod} (hsized : vtyBits m.ty.toNat = s.me.sh.sew)
  (hvl : 0 < s.me.vl.toNat)
include hacts hwf hsized hvl

theorem vmerge_leaves (hsat : m.sat = false) (hregs : s.me.sh.bad3 d b c s.me.sh.sew m.scalar = false) :
    s.LeavesElems d (fun e => if e < s.me.sh.vl then (if (s.me.kr m.mask).getLsbD e then s.src2 m c s.me.sh.sew e else s.me.elem b s.me.sh.sew e)
      else s.tailElem d e) (execVmerge d b c m s) := by
  have hbad : (!s.me.sh.moves m.ty.toNat || m.sat || s.me.sh.bad3 d b c s.me.sh.sew m.scalar) = false := by
    rw [VSh.moves_of_sized hsized, hsat, hregs]
    rfl
  rw [execVmerge, guarded_acts hacts]
  simp only [vcheck, hbad, Bool.false_eq_true, if_false]
  refine State.leavesElems_all hwf (VSh.aligned_of_bad3 hregs) hvl fun i => ?_
  split
  · exact s.src2_lt m c _ i
  · exact s.me.elem_lt b _ i

omit hwf hvl in
theorem vmv_xv_acts (hb : s.me.sh.aligned b s.me.sh.sew = true) (hmask : m.mask = 0) : execVmv d b m.ty m.mask .xv s =
    .next (s.setX d (if m.ty.toNat < 4 then BitVec.ofInt 64 (sInt s.me.sh.sew (s.me.elem b s.me.sh.sew 0))
      else BitVec.ofNat 64 (s.me.elem b s.me.sh.sew 0))).advance := by
  have hbad : (!s.me.sh.moves m.ty.toNat || !s.me.sh.aligned b s.me.sh.sew || m.mask != 0) = false := by
    rw [VSh.moves_of_sized hsized, hb, hmask]
    rfl
  rw [execVmv, guarded_acts hacts]
  simp only [vcheck, hbad, Bool.false_eq_true, if_false, vtySigned, decide_eq_true_eq, finish_next]

section Moves
variable (hd : s.me.sh.aligned d s.me.sh.sew = true)
include hd

theorem vmv_vv_leaves (hb : s.me.sh.aligned b s.me.sh.sew = true) (hclash : s.me.sh.clash d s.me.sh.sew b s.me.sh.sew = false) :
    s.LeavesElems d (s.maskedElem d (s.me.kr m.mask) fun i => s.me.elem b s.me.sh.sew i) (execVmv d b m.ty m.mask .vv s) := by
  have hbad : (!s.me.sh.moves m.ty.toNat || !s.me.sh.aligned d s.me.sh.sew || !s.me.sh.aligned b s.me.sh.sew || s.me.sh.clash d s.me.sh.sew b s.me.sh.sew) = false := by
    rw [VSh.moves_of_sized hsized, hd, hb, hclash]
    rfl
  rw [execVmv, guarded_acts hacts]
  simp only [vcheck, hbad, Bool.false_eq_true, if_false]
  exact State.leavesElems_active hwf hd hvl _ (s.me.elem_lt b _)

theorem vmv_vx_leaves : s.LeavesElems d (s.maskedElem d (s.me.kr m.mask) fun _ => (s.x b).toNat % 2 ^ s.me.sh.sew) (execVmv d b m.ty m.mask .vx s) := by
  have hbad : (!s.me.sh.moves m.ty.toNat || !s.me.sh.aligned d s.me.sh.sew) = false := by
    rw [VSh.moves_of_sized hsized, hd]
    rfl
  rw [execVmv, guarded_acts hacts]
  simp only [vcheck, hbad, Bool.false_eq_true, if_false]
  exact State.leavesElems_active hwf hd hvl _ fun _ => Nat.mod_lt _ (Nat.two_pow_pos _)

variable (hsat : m.sat = false) (hb : s.me.sh.aligned b s.me.sh.sew = true) (htouch : s.me.sh.touch d s.me.sh.sew b s.me.sh.sew = false)
include hsat hb htouch

omit hacts hwf hvl in
theorem VSh.badPerm_legal : s.me.sh.badPerm d b m = false := by
  rw [VSh.badPerm, VSh.moves_of_sized hsized, hsat, hd, hb, htouch]
  rfl

theorem vslidedown_leaves (hscalar : m.scalar = true) :
    s.LeavesElems d (s.maskedElem d (s.me.kr m.mask) fun i => if i + (s.x c).toNat < s.me.sh.nmax then s.me.elem b s.me.sh.sew (i + (s.x c).toNat) else 0)
      (execVslidedown d b c m s) := by
  rw [execVslidedown, guarded_acts hacts]
  simp only [vcheck, VSh.badPerm_legal hsized hd hsat hb htouch, hscalar, Bool.not_true, Bool.or_false, Bool.false_eq_true, if_false]
  refine State.leavesElems_active hwf hd hvl _ fun i => ?_
  split
  · exact s.me.elem_lt b _ _
  · exact Nat.two_pow_pos _

theorem vrgather_leaves (hscalar : m.scalar = false) (hc : s.me.sh.aligned c s.me.sh.sew = true) (hapart : s.me.sh.touch d s.me.sh.sew c s.me.sh.sew = false) :
    s.LeavesElems d (s.maskedElem d (s.me.kr m.mask) fun i =>
      if s.me.elem c s.me.sh.sew i < s.me.sh.nmax then s.me.elem b s.me.sh.sew (s.me.elem c s.me.sh.sew i) else 0) (execVrgather d b c m s) := by
  rw [execVrgather, guarded_acts hacts]
  simp only [vcheck, VSh.badPerm_legal hsized hd hsat hb htouch, hscalar, hc, hapart, Bool.not_true, Bool.or_false, Bool.false_eq_true, if_false]
  refine State.leavesElems_active hwf hd hvl _ fun i => ?_
  split
  · exact s.me.elem_lt b _ _
  · exact Nat.two_pow_pos _

/-- Below the offset nothing is written, and past NMAX nothing at all; the tail follows its policy (R368, log 30). -/
theorem vslideup_leaves (hscalar : m.scalar = true) :
    s.LeavesElems d (fun e => if e < s.me.sh.vl ∧ e < (s.x c).toNat ∨ s.me.sh.nmax ≤ (s.x c).toNat then s.me.elem d s.me.sh.sew e
      else s.maskedElem d (s.me.kr m.mask) (fun i => s.me.elem b s.me.sh.sew (i - (s.x c).toNat)) e) (execVslideup d b c m s) := by
  have hle := Slot.vl_le_nmax hwf
  have hnovl : s.me.sh.vl ≠ 0 := Nat.ne_of_gt hvl
  rw [execVslideup, guarded_acts hacts]
  simp only [vcheck, VSh.badPerm_legal hsized hd hsat hb htouch, hscalar, Bool.not_true, Bool.or_false, Bool.false_eq_true, if_false, hnovl]
  refine State.leavesElems_lists hwf hd (fun i hi => ?_) (fun i hi => ?_) fun e he => ?_
  · exact (mem_active.mp (List.mem_of_mem_filter hi)).1.trans_le hle
  · rcases List.mem_append.mp hi with hi | hi
    · split at hi
      · exact (List.mem_range.mp (List.mem_of_mem_filter (List.mem_of_mem_filter hi))).trans_le hle
      · cases hi
    · split at hi
      · have := span_lt hi
        omega
      · cases hi
  · have hz : e ∈ (if s.me.sh.mz then ((List.range s.me.sh.vl).filter fun i => decide ((s.x c).toNat ≤ i)).filter fun i => !(s.me.kr m.mask).getLsbD i else []) ++
        (if (s.me.sh.tz && decide ((s.x c).toNat < s.me.sh.nmax)) = true then s.me.sh.tail else []) ↔
        (s.me.sh.mz = true ∧ e < s.me.sh.vl ∧ (s.x c).toNat ≤ e ∧ (s.me.kr m.mask).getLsbD e = false) ∨
          (s.me.sh.tz = true ∧ (s.x c).toNat < s.me.sh.nmax ∧ s.me.sh.vl ≤ e) := by
      rw [List.mem_append, mem_ite_nil, mem_ite_nil, List.mem_filter, List.mem_filter, List.mem_range, VSh.mem_tail he]
      simp [and_assoc]
    have hl : e ∈ (s.me.sh.active (s.me.kr m.mask)).filter (fun i => decide ((s.x c).toNat ≤ i)) ↔
        e < s.me.sh.vl ∧ (s.me.kr m.mask).getLsbD e = true ∧ (s.x c).toNat ≤ e := by
      rw [List.mem_filter, mem_active, decide_eq_true_iff, and_assoc]
    have hmod : s.me.elem b s.me.sh.sew (e - (s.x c).toNat) % 2 ^ s.me.sh.sew = s.me.elem b s.me.sh.sew (e - (s.x c).toNat) :=
      Nat.mod_eq_of_lt (s.me.elem_lt b _ _)
    simp only [hz, hl, hmod, State.maskedElem, State.tailElem]
    by_cases hlt : e < s.me.sh.vl
    · by_cases hoff : (s.x c).toNat ≤ e
      · have hpast : ¬ s.me.sh.nmax ≤ (s.x c).toNat := by omega
        have htail : ¬ s.me.sh.vl ≤ e := Nat.not_le.mpr hlt
        cases hbit : (s.me.kr m.mask).getLsbD e
        · cases hmz : s.me.sh.mz
          · simp [hlt, hoff, hpast, htail, Nat.not_lt.mpr hoff]
          · simp [hlt, hoff, hpast, Nat.not_lt.mpr hoff]
        · simp [hlt, hoff, hpast, htail, Nat.not_lt.mpr hoff]
      · simp [hlt, hoff, show e < (s.x c).toNat by omega]
    · cases htz : s.me.sh.tz
      · simp [hlt]
      · by_cases hpast : s.me.sh.nmax ≤ (s.x c).toNat
        · simp [hlt, hpast, show ¬ (s.x c).toNat < s.me.sh.nmax by omega]
        · simp [hlt, hpast, show (s.x c).toNat < s.me.sh.nmax by omega, show s.me.sh.vl ≤ e by omega]

/-- The selected elements in order, then the tail (R368). -/
theorem vcompress_leaves (hscalar : m.scalar = false) :
    s.LeavesElems d (fun e => if e < (s.me.sh.active (s.me.kr m.mask)).length then s.me.elem b s.me.sh.sew ((s.me.sh.active (s.me.kr m.mask)).getD e 0)
      else s.tailElem d e) (execVcompress d b m s) := by
  have hle := Slot.vl_le_nmax hwf
  have hnovl : s.me.sh.vl ≠ 0 := Nat.ne_of_gt hvl
  have hsel : (s.me.sh.active (s.me.kr m.mask)).length ≤ s.me.sh.vl := (List.length_filter_le _ _).trans_eq List.length_range
  rw [execVcompress, guarded_acts hacts]
  simp only [vcheck, VSh.badPerm_legal hsized hd hsat hb htouch, hscalar, Bool.or_false, Bool.false_eq_true, if_false, hnovl]
  refine State.leavesElems_lists hwf hd (fun i hi => ?_) (fun i hi => ?_) fun e he => ?_
  · have := List.mem_range.mp hi
    omega
  · split at hi
    · have := span_lt hi
      omega
    · cases hi
  · have hmod : s.me.elem b s.me.sh.sew (((s.me.sh.active (s.me.kr m.mask))[e]?).getD 0) % 2 ^ s.me.sh.sew =
        s.me.elem b s.me.sh.sew ((s.me.sh.active (s.me.kr m.mask)).getD e 0) := by
      rw [Nat.mod_eq_of_lt (s.me.elem_lt b _ _), List.getD_eq_getElem?_getD]
    have hz : e ∈ span (s.me.sh.active (s.me.kr m.mask)).length (s.me.sh.nmax - (s.me.sh.active (s.me.kr m.mask)).length) ↔
        (s.me.sh.active (s.me.kr m.mask)).length ≤ e :=
      ⟨fun h => (span_lt h).1, fun h => List.mem_map.mpr ⟨e - (s.me.sh.active (s.me.kr m.mask)).length, List.mem_range.mpr (by omega), by omega⟩⟩
    simp only [mem_ite_nil, hz, List.mem_range, hmod, State.tailElem]
    by_cases hlt : e < (s.me.sh.active (s.me.kr m.mask)).length
    · simp [hlt, Nat.not_le.mpr hlt]
    · cases s.me.sh.tz <;> simp [hlt, Nat.not_lt.mp hlt]

end Moves

end Permutes

/-- Settles O20: each form names one source element for each active one. -/
theorem vectorPermuteResults : Obligations.VectorPermuteResults := by
  intro s d b c m hacts hwf hsized hsat hvl h w k src old off tail leaves masked sel
  refine ⟨vmerge_leaves hacts hwf hsized hvl hsat, fun hd hb htouch => ⟨fun hscalar => ⟨?_, ?_⟩, fun hscalar hc hapart => ?_, fun hscalar => ?_⟩,
    fun hd hb hclash => vmv_vv_leaves hacts hwf hsized hvl hd hb hclash, fun hd => vmv_vx_leaves hacts hwf hsized hvl hd, fun hb hmask => vmv_xv_acts hacts hsized hb hmask⟩
  · exact vslideup_leaves hacts hwf hsized hvl hd hsat hb htouch hscalar
  · exact vslidedown_leaves hacts hwf hsized hvl hd hsat hb htouch hscalar
  · exact vrgather_leaves hacts hwf hsized hvl hd hsat hb htouch hscalar hc hapart
  · exact vcompress_leaves hacts hwf hsized hvl hd hsat hb htouch hscalar
end Sys2Proof.Machine
end
section
/-! PROOF. Vector loads and stores in any space (R355, R356, R358). -/

namespace Sys2Proof.Machine

/-! ### How each form ends -/

/-- The end of a vector load, by what its element loads gave (R356). -/
def vloadEnd (s : State) (d : Reg) (k : KWord) : List (Nat × Nat) × State × Option (Nat × Eff) → Eff
  | (res, s1, none) => .next (s1.modMe fun q => q.putGroup s.me.sh d s.me.sh.sew k res)
  | (_, _, some (_, e)) => e.rebase s

/-- The end of vlff (R358). -/
def vloadFirstEnd (s : State) (d : Reg) (k : KWord) : List (Nat × Nat) × State × Option (Nat × Eff) → Eff
  | (res, s1, none) => .next (s1.modMe fun q => q.putGroup s.me.sh d s.me.sh.sew k res)
  | (res, s1, some (i, e)) =>
    if res.isEmpty || !e.isTrap then e.rebase s
    else .next (s1.modMe fun q => { (q.putGroup { s.me.sh with vl := i } d s.me.sh.sew k res) with vl := BitVec.ofNat 8 i })

/-- The end of a vector store, by the checks and then the stores (R356). -/
def vstoreEnd (s : State) (stores : Got Unit) : Option Eff → Eff
  | some e => e.rebase s
  | none => match stores with
    | .ok _ s1 => .next s1
    | .no e => e.rebase s

theorem VSh.badMem_plain {h : VSh} {d : Reg} {m : VMMod} (hsized : 8 * 2 ^ m.width.toNat = h.sew) (hd : h.aligned d h.sew = true)
    {rule : VAddr} (hrule : rule ≠ .index) (c : Reg) (isLoad : Bool) : h.badMem d c m rule isLoad = false := by
  simp [VSh.badMem, hsized, hd, hrule]

theorem VSh.badMem_index {h : VSh} {d c : Reg} {m : VMMod} (hsized : 8 * 2 ^ m.width.toNat = h.sew) (hd : h.aligned d h.sew = true)
    (hc : h.aligned c h.sew = true) {isLoad : Bool} (hclash : isLoad = true → h.clash d h.sew c h.sew = false) : h.badMem d c m .index isLoad = false := by
  cases isLoad with
  | false => simp [VSh.badMem, hsized, hd, hc]
  | true => simp [VSh.badMem, hsized, hd, hc, hclash rfl]

section Forms
variable {s : State} (hacts : s.acts) {d b c : Reg} {m : VMMod} {imm : Word} {rule : VAddr}
include hacts

theorem vload_acts (hbad : s.me.sh.badMem d c m rule true = false) :
    vload rule d b c m imm s = finish (vloadEnd s d (s.me.kr m.mask)
      (vloads s m s.me.sh.sew (vaddr s rule (s.x b + imm) c s.me.sh.sew) (s.me.sh.active (s.me.kr m.mask)) [])) := by
  refine (guarded_acts hacts _).trans (congrArg finish ((if_neg (Bool.eq_false_iff.mp hbad)).trans ?_))
  rfl

theorem vloadFirst_acts (hbad : s.me.sh.badMem d 0 m .unit true = false) :
    vloadFirst d b m imm s = finish (vloadFirstEnd s d (s.me.kr m.mask)
      (vloads s m s.me.sh.sew (vaddr s .unit (s.x b + imm) 0 s.me.sh.sew) (s.me.sh.active (s.me.kr m.mask)) [])) := by
  refine (guarded_acts hacts _).trans (congrArg finish ((if_neg (Bool.eq_false_iff.mp hbad)).trans ?_))
  rfl

theorem vstore_acts (hbad : s.me.sh.badMem d c m rule false = false) :
    vstore rule d b c m imm s = finish (vstoreEnd s
      (vstores s m s.me.sh.sew (vaddr s rule (s.x b + imm) c s.me.sh.sew) (fun i => s.me.elem d s.me.sh.sew i) (s.me.sh.active (s.me.kr m.mask)))
      (vchecks s m s.me.sh.sew (vaddr s rule (s.x b + imm) c s.me.sh.sew) (fun i => s.me.elem d s.me.sh.sew i) (s.me.sh.active (s.me.kr m.mask)))) := by
  refine (guarded_acts hacts _).trans (congrArg finish ((if_neg (Bool.eq_false_iff.mp hbad)).trans ?_))
  rfl

/-! ### The two outcomes of each form (R356) -/

theorem vload_outcomes (hbad : s.me.sh.badMem d c m rule true = false) :
    let w := s.me.sh.sew
    let k := s.me.kr m.mask
    let got := vloads s m w (vaddr s rule (s.x b + imm) c w) (s.me.sh.active k) []
    (∀ res s1, got = (res, s1, none) → vload rule d b c m imm s = .next ((s1.modMe fun q => q.putGroup s.me.sh d w k res).advance)) ∧
    (∀ res s1 e eff, got = (res, s1, some (e, eff)) → vload rule d b c m imm s = finish (eff.rebase s)) := by
  intro w k got
  refine ⟨fun res s1 h => ?_, fun res s1 e eff h => ?_⟩
  · exact (vload_acts hacts hbad).trans (congrArg (fun g => finish (vloadEnd s d k g)) h)
  · exact (vload_acts hacts hbad).trans (congrArg (fun g => finish (vloadEnd s d k g)) h)

theorem vloadFirst_outcomes (hbad : s.me.sh.badMem d 0 m .unit true = false) :
    let w := s.me.sh.sew
    let k := s.me.kr m.mask
    let got := vloads s m w (vaddr s .unit (s.x b + imm) 0 w) (s.me.sh.active k) []
    (∀ res s1, got = (res, s1, none) → vloadFirst d b m imm s = .next ((s1.modMe fun q => q.putGroup s.me.sh d w k res).advance)) ∧
    (∀ res s1 e eff, got = (res, s1, some (e, eff)) → res = [] → vloadFirst d b m imm s = finish (eff.rebase s)) ∧
    (∀ res s1 i eff, got = (res, s1, some (i, eff)) → res ≠ [] → eff.isTrap = true → vloadFirst d b m imm s =
      .next ((s1.modMe fun q => { (q.putGroup { s.me.sh with vl := i } d w k res) with vl := BitVec.ofNat 8 i }).advance)) := by
  intro w k got
  have hend : ∀ {g}, got = g → vloadFirst d b m imm s = finish (vloadFirstEnd s d k g) := fun h =>
    (vloadFirst_acts hacts hbad).trans (congrArg (fun g => finish (vloadFirstEnd s d k g)) h)
  refine ⟨fun res s1 h => hend h, fun res s1 e eff h hres => ?_, fun res s1 i eff h hres htrap => ?_⟩
  · rw [hend h, hres]
    rfl
  · rw [hend h]
    obtain ⟨x, xs, rfl⟩ := List.exists_cons_of_ne_nil hres
    simp only [vloadFirstEnd, List.isEmpty_cons, htrap, Bool.not_true, Bool.or_self, Bool.false_eq_true, if_false, finish_next]
    rfl

theorem vstore_outcomes (hbad : s.me.sh.badMem d c m rule false = false) :
    let w := s.me.sh.sew
    let l := s.me.sh.active (s.me.kr m.mask)
    let a := vaddr s rule (s.x b + imm) c w
    let v := fun i => s.me.elem d w i
    (∀ eff, vchecks s m w a v l = some eff → vstore rule d b c m imm s = finish (eff.rebase s)) ∧
    (∀ s1, vchecks s m w a v l = none → vstores s m w a v l = .ok () s1 → vstore rule d b c m imm s = .next s1.advance) ∧
    (∀ eff, vchecks s m w a v l = none → vstores s m w a v l = .no eff → vstore rule d b c m imm s = finish (eff.rebase s)) := by
  intro w l a v
  have hend : ∀ {checks stores}, vchecks s m w a v l = checks → vstores s m w a v l = stores →
      vstore rule d b c m imm s = finish (vstoreEnd s stores checks) := fun hc hs => by rw [vstore_acts hacts hbad, ← hc, ← hs]
  exact ⟨fun eff h => hend h rfl, fun s1 h hs => hend h hs, fun eff h hs => hend h hs⟩

end Forms

/-- The element at which the loads stop is one of those asked for. -/
theorem vloads_index_mem {m : VMMod} {w : Nat} {a : Nat → Word} {s1 : State} {i : Nat} {eff : Eff} {res : List (Nat × Nat)} :
    ∀ (l : List Nat) (s : State) (acc : List (Nat × Nat)), vloads s m w a l acc = (res, s1, some (i, eff)) → i ∈ l
  | [], _, _, h => by simp [vloads] at h
  | e :: rest, s, acc, h => by
    unfold vloads at h
    split at h
    · obtain ⟨-, h⟩ := Prod.mk.inj h
      obtain ⟨-, h⟩ := Prod.mk.inj h
      obtain ⟨rfl, -⟩ := Prod.mk.inj (Option.some.inj h)
      exact List.mem_cons_self
    · exact List.mem_cons_of_mem e (vloads_index_mem rest _ _ h)

/-- Settles O22, by the end of each form's checks, loads and stores. -/
theorem vectorMemoryAnySpace : Obligations.VectorMemoryAnySpace := by
  intro s d b c m imm hacts hsized hd h w k base unit loads stores
  have hplain : ∀ {rule : VAddr}, rule ≠ .index → ∀ c isLoad, h.badMem d c m rule isLoad = false := VSh.badMem_plain hsized hd
  have hload : ∀ {rule c}, h.badMem d c m rule true = false → ∀ {i}, exec i s = vload rule d b c m imm s → loads i (vaddr s rule base c w) := by
    intro rule c hbad i hexec
    obtain ⟨hok, hno⟩ := vload_outcomes (b := b) (imm := imm) hacts hbad
    exact ⟨fun res s1 h => hexec.trans (hok res s1 h), fun res s1 e eff h _ => hexec.trans (hno res s1 e eff h)⟩
  have hfirst : loads (.vlff d b m imm) unit := by
    obtain ⟨hok, hno, -⟩ := vloadFirst_outcomes (b := b) (imm := imm) hacts (hplain (by decide) 0 true)
    exact ⟨hok, fun res s1 e eff h hres => hno res s1 e eff h (hres rfl)⟩
  have hstore : ∀ {rule c}, h.badMem d c m rule false = false → ∀ {i}, exec i s = vstore rule d b c m imm s → stores i (vaddr s rule base c w) := by
    intro rule c hbad i hexec
    obtain ⟨hbad, hok, hno⟩ := vstore_outcomes (b := b) (imm := imm) hacts hbad
    exact ⟨fun eff h => hexec.trans (hbad eff h), fun s1 h hs => hexec.trans (hok s1 h hs), fun eff h hs => hexec.trans (hno eff h hs)⟩
  exact ⟨hload (rule := .unit) (hplain (by decide) 0 true) rfl, hfirst, hload (rule := .column) (hplain (by decide) 0 true) rfl,
    hload (rule := .stride) (hplain (by decide) c true) rfl,
    fun hc hclash => hload (rule := .index) (VSh.badMem_index hsized hd hc fun _ => hclash) rfl,
    hstore (rule := .unit) (hplain (by decide) 0 false) rfl, hstore (rule := .column) (hplain (by decide) 0 false) rfl,
    hstore (rule := .stride) (hplain (by decide) c false) rfl,
    fun hc => hstore (rule := .index) (VSh.badMem_index hsized hd hc fun h => Bool.noConfusion h) rfl⟩

/-- Settles O23: the element that fails is one of the active ones. -/
theorem firstFaultLoadShortens : Obligations.FirstFaultLoadShortens := by
  intro s d b m imm hacts hwf hsized hd h w k res s1 i eff hres htrap hgot
  obtain ⟨-, -, hshort⟩ := vloadFirst_outcomes (b := b) (imm := imm) hacts (VSh.badMem_plain hsized hd (by decide) 0 true)
  exact ⟨(mem_active.mp (vloads_index_mem _ _ _ hgot)).1, hshort res s1 i eff hgot hres htrap⟩

end Sys2Proof.Machine
end

section
/-! PROOF. Vector loads and stores in the core's own TCM, element by element (R355, R356). -/

namespace Sys2Proof.Machine

/-- User TCM that an element of n bytes lies in, aligned. -/
def State.InUserTcm (s : State) (n : Nat) (e : Word) : Prop := e.toNat % n = 0 ∧ e.toNat + n ≤ s.myCore.utop.toNat * 256

theorem State.place_tcm_in {s : State} {n : Nat} {e : Word} (h : s.InUserTcm n e) (sk : Bool) : s.place .tcm sk e n n = .tcm e.toNat := by
  obtain ⟨hal, hin⟩ := h
  have hutop := s.myCore.utop.isLt
  exact (if_neg (by omega)).trans ((if_neg (not_not_intro hal)).trans (if_pos hin))

theorem Slot.sew_bytes (q : Slot) : 8 * (q.sh.sew / 8) = q.sh.sew ∧ 0 < q.sh.sew / 8 := by
  have hsew := q.sew_cases
  simp only [List.mem_cons, List.not_mem_nil, or_false] at hsew
  omega

/-! ### Loads -/

section Loads
variable {s : State} {m : VMMod} (hm : m.space = .tcm) {w : Nat} {a : Nat → Word}
include hm

/-- Elements that lie in user TCM, none poisoned, are all loaded, and the state stays. -/
theorem vloads_tcm : ∀ (l : List Nat) (acc : List (Nat × Nat)),
    (∀ i ∈ l, s.InUserTcm (w / 8) (a i) ∧ s.tcmPoison (coreOf s.cur) (a i).toNat (w / 8) = false) →
    vloads s m w a l acc = (acc ++ l.map fun i => (i, natOf (s.tcmRead (coreOf s.cur) (a i).toNat (w / 8))), s, none)
  | [], acc, _ => by rw [vloads, List.map_nil, List.append_nil]
  | i :: rest, acc, h => by
    obtain ⟨hin, hclean⟩ := h i List.mem_cons_self
    have hload : s.load m.space m.sk (a i) (w / 8) (w / 8) true = .ok (s.tcmRead (coreOf s.cur) (a i).toNat (w / 8)) s := by
      rw [hm, State.load_local (scr := false) (State.place_tcm_in hin m.sk)]
      exact if_neg (Bool.eq_false_iff.mp hclean)
    rw [vloads, hload]
    refine (vloads_tcm rest _ fun j hj => h j (List.mem_cons_of_mem i hj)).trans ?_
    rw [List.append_assoc, List.map_cons, List.singleton_append]

end Loads

/-! ### Stores -/

/-- What a sequence of stores into a core's TCM leaves: the elements at their addresses, and everything apart from them. -/
def State.TcmStored (s t : State) (n : Nat) (a : Nat → Word) (v : Nat → Nat) (l : List Nat) : Prop :=
  t.me = s.me ∧ t = { s with cores := t.cores, groves := t.groves } ∧
    (∀ i ∈ l, t.tcmRead (coreOf s.cur) (a i).toNat n = bytesOf n (v i)) ∧
    ∀ p, (∀ i ∈ l, ∀ j, j < n → p ≠ .tcm (coreOf s.cur) ((a i).toNat + j)) → t.byteAt p = s.byteAt p

/-- Aligned elements at different addresses have no byte in common. -/
theorem aligned_apart {n x y j k : Nat} (hx : x % n = 0) (hy : y % n = 0) (hne : x ≠ y) (hj : j < n) (hk : k < n) : x + j ≠ y + k := by
  intro h
  have hmod : (x + j) / n = (y + k) / n := by rw [h]
  have hdiv : ∀ {z i}, z % n = 0 → i < n → (z + i) / n = z / n := fun {z i} hz hi => by
    obtain ⟨q, rfl⟩ := Nat.dvd_of_mod_eq_zero hz
    rw [Nat.mul_add_div (by omega), Nat.div_eq_of_lt hi, Nat.mul_div_cancel_left q (by omega), Nat.add_zero]
  rw [hdiv hx hj, hdiv hy hk] at hmod
  exact hne (by rw [← Nat.div_add_mod x n, ← Nat.div_add_mod y n, hmod, hx, hy])

theorem State.inUserTcm_tcmWrite {s : State} {n core off : Nat} {bs : List Byte} {e : Word} (h : s.InUserTcm n e) : (s.tcmWrite core off bs).InUserTcm n e := by
  obtain ⟨hal, hin⟩ := h
  have htop : ((s.tcmWrite core off bs).core (coreOf s.cur)).hamperOff 0 = (s.core (coreOf s.cur)).hamperOff 0 := (s.tcmWrite_frame core off bs).2 _ 0
  have hoff : ∀ c : Core, c.hamperOff 0 = c.utop.toNat * 256 := fun c => by rw [Core.hamperOff, Nat.zero_mul, Nat.zero_mul, Nat.add_zero]
  rw [hoff, hoff] at htop
  refine ⟨hal, ?_⟩
  rw [State.myCore, State.tcmWrite_cur, htop]
  exact hin

section Stores
variable {m : VMMod} (hm : m.space = .tcm) {w : Nat} {a : Nat → Word} (v : Nat → Nat)
include hm

theorem vchecks_tcm {s : State} : ∀ (l : List Nat), (∀ i ∈ l, s.InUserTcm (w / 8) (a i)) → vchecks s m w a v l = none
  | [], _ => rfl
  | i :: rest, h => by
    rw [vchecks, hm, State.place_tcm_in (h i List.mem_cons_self) m.sk]
    exact vchecks_tcm rest fun j hj => h j (List.mem_cons_of_mem i hj)

theorem vstores_tcm : ∀ (l : List Nat) (s : State), (∀ i ∈ l, s.InUserTcm (w / 8) (a i)) → l.Nodup → (∀ i ∈ l, ∀ j ∈ l, a i = a j → i = j) →
    ∃ t, vstores s m w a v l = .ok () t ∧ s.TcmStored t (w / 8) a v l
  | [], s, _, _, _ => ⟨s, rfl, rfl, rfl, fun _ hi => absurd hi List.not_mem_nil, fun _ _ => rfl⟩
  | i :: rest, s, hin, hnd, happart => by
    have hi := hin i List.mem_cons_self
    have hlen : (bytesOf (w / 8) (v i)).length = w / 8 := length_bytesOf ..
    have hstore : s.store m.space m.sk (a i) (bytesOf (w / 8) (v i)) (w / 8) false true =
        .ok () (s.tcmWrite (coreOf s.cur) (a i).toNat (bytesOf (w / 8) (v i))) := by
      rw [hm]
      refine State.store_local (scr := false) ?_
      rw [hlen]
      exact State.place_tcm_in hi m.sk
    obtain ⟨hnotin, hnd'⟩ := List.nodup_cons.mp hnd
    obtain ⟨t, ht, hme, hstate, hread, hframe⟩ := vstores_tcm rest (s.tcmWrite (coreOf s.cur) (a i).toNat (bytesOf (w / 8) (v i)))
      (fun j hj => State.inUserTcm_tcmWrite (hin j (List.mem_cons_of_mem i hj))) hnd'
      (fun j hj k hk => happart j (List.mem_cons_of_mem i hj) k (List.mem_cons_of_mem i hk))
    rw [State.tcmWrite_cur] at hread hframe
    refine ⟨t, by rw [vstores, hstore]; exact ht, hme.trans (State.tcmWrite_me ..), ?_, fun j hj => ?_, fun p hp => ?_⟩
    · obtain ⟨hwrite, -⟩ := s.tcmWrite_frame (coreOf s.cur) (a i).toNat (bytesOf (w / 8) (v i))
      rw [hwrite] at hstate
      exact hstate
    · obtain rfl | hj := List.mem_cons.mp hj
      · have hsame := State.tcmRead_tcmWrite_same s (coreOf s.cur) (a j).toNat (bytesOf (w / 8) (v j))
        rw [hlen] at hsame
        refine Eq.trans (memRead_congr fun x hx => ?_) hsame
        refine hframe (.tcm (coreOf s.cur) ((a j).toNat + x)) fun y hy z hz heq => ?_
        obtain ⟨-, hoff⟩ := MemAt.tcm.inj heq
        have hne : (a j).toNat ≠ (a y).toNat := fun h =>
          hnotin (happart j List.mem_cons_self y (List.mem_cons_of_mem j hy) (BitVec.eq_of_toNat_eq h) ▸ hy)
        exact aligned_apart hi.1 (hin y (List.mem_cons_of_mem j hy)).1 hne hx hz hoff
      · exact hread j hj
    · rw [hframe p fun j hj => hp j (List.mem_cons_of_mem i hj)]
      exact State.byteAt_tcmWrite_apart fun j hj => hp i List.mem_cons_self j (by rwa [hlen] at hj)

end Stores

/-- A load's list of results, where every active element lies in clean user TCM. -/
theorem vloads_tcm_active {s : State} {m : VMMod} (hm : m.space = .tcm) {k : KWord} {a : Nat → Word} (hin : ∀ e, e < s.me.sh.vl → k.getLsbD e = true → (a e).toNat % (s.me.sh.sew / 8) = 0 ∧
      (a e).toNat + s.me.sh.sew / 8 ≤ s.myCore.utop.toNat * 256 ∧ s.tcmPoison (coreOf s.cur) (a e).toNat (s.me.sh.sew / 8) = false) :
    vloads s m s.me.sh.sew a (s.me.sh.active k) [] =
      ((s.me.sh.active k).map fun i => (i, natOf (s.tcmRead (coreOf s.cur) (a i).toNat (s.me.sh.sew / 8))), s, none) := by
  refine (vloads_tcm hm _ [] fun i hi => ?_).trans rfl
  obtain ⟨hlt, hset⟩ := mem_active.mp hi
  obtain ⟨hal, hend, hclean⟩ := hin i hlt hset
  exact ⟨⟨hal, hend⟩, hclean⟩

theorem State.natOf_tcmRead_lt (s : State) (core off : Nat) : natOf (s.tcmRead core off (s.me.sh.sew / 8)) < 2 ^ s.me.sh.sew := by
  have hlt := natOf_lt (s.tcmRead core off (s.me.sh.sew / 8))
  rwa [State.tcmRead, length_memRead, show 256 = 2 ^ 8 from rfl, ← Nat.pow_mul, s.me.sew_bytes.1] at hlt

/-- Settles O21: the loads read one state, and the stores are writes apart from each other. -/
theorem vectorTcmAccess : Obligations.VectorTcmAccess := by
  refine ⟨fun s d b c m imm hacts hwf hm hsk hsized hd hvl => ?_, fun s d b c m imm hacts hwf hm hsk hsized hd => ?_⟩
  · intro h w n k core leaves base
    have hplain : ∀ {rule : VAddr}, rule ≠ .index → ∀ c isLoad, h.badMem d c m rule isLoad = false := VSh.badMem_plain hsized hd
    have hleaves : ∀ (a : Nat → Word), s.LeavesElems d (s.maskedElem d k fun e => natOf (s.tcmRead core (a e).toNat n))
        (.next (s.setSlot s.cur (s.me.putGroup h d w k ((h.active k).map fun i => (i, natOf (s.tcmRead core (a i).toNat n))))).advance) := fun a =>
      State.leavesElems_active hwf hd hvl k fun i => s.natOf_tcmRead_lt core (a i).toNat
    have hload : ∀ {rule c}, h.badMem d c m rule true = false → ∀ {i}, exec i s = vload rule d b c m imm s → leaves i (vaddr s rule base c w) := by
      intro rule c hbad i hexec hin
      obtain ⟨hok, -⟩ := vload_outcomes (b := b) (imm := imm) hacts hbad
      rw [hexec, hok _ _ (vloads_tcm_active hm hin)]
      exact hleaves _
    have hfirst : leaves (.vlff d b m imm) (vaddr s .unit base 0 w) := by
      intro hin
      obtain ⟨hok, -, -⟩ := vloadFirst_outcomes (b := b) (imm := imm) hacts (hplain (by decide) 0 true)
      have hexec : exec (.vlff d b m imm) s = _ := hok _ _ (vloads_tcm_active hm hin)
      rw [hexec]
      exact hleaves _
    exact ⟨hload (rule := .unit) (hplain (by decide) 0 true) rfl, hfirst, hload (rule := .column) (hplain (by decide) 0 true) rfl,
      hload (rule := .stride) (hplain (by decide) c true) rfl,
      fun hc hclash => hload (rule := .index) (VSh.badMem_index hsized hd hc fun _ => hclash) rfl⟩
  · intro h w n k core stores base
    have hplain : ∀ {rule : VAddr}, rule ≠ .index → ∀ c isLoad, h.badMem d c m rule isLoad = false := VSh.badMem_plain hsized hd
    have hstore : ∀ {rule c}, h.badMem d c m rule false = false → ∀ {i}, exec i s = vstore rule d b c m imm s → stores i (vaddr s rule base c w) := by
      intro rule c hbad i hexec hin happart
      have hin' : ∀ i ∈ h.active k, s.InUserTcm n (vaddr s rule base c w i) := fun i hi => hin i (mem_active.mp hi).1 (mem_active.mp hi).2
      obtain ⟨-, hok, -⟩ := vstore_outcomes (b := b) (imm := imm) hacts hbad
      obtain ⟨t, ht, hme, hstate, hread, hframe⟩ := vstores_tcm hm (fun i => s.me.elem d w i) (h.active k) s hin'
        (List.Nodup.filter _ List.nodup_range) fun i hi j hj =>
          happart i j (mem_active.mp hi).1 (mem_active.mp hj).1 (mem_active.mp hi).2 (mem_active.mp hj).2
      have hcur : t.cur = s.cur := by rw [hstate]
      refine ⟨t.advance, hexec.trans (hok t (vchecks_tcm hm _ _ hin') ht), ?_, fun e he hset => ?_, fun p hp => ?_, ?_⟩
      · rw [State.advance_eq, State.setSlot_me, hme]
      · have hval : t.advance.tcmRead core (vaddr s rule base c w e).toNat n = bytesOf n (s.me.elem d w e) := hread e (mem_active.mpr ⟨he, hset⟩)
        rw [hval, natOf_bytesOf, show 256 = 2 ^ 8 from rfl, ← Nat.pow_mul, s.me.sew_bytes.1]
        exact Nat.mod_eq_of_lt (s.me.elem_lt d w e)
      · exact Eq.trans rfl (hframe p fun i hi => hp i (mem_active.mp hi).1 (mem_active.mp hi).2)
      · change { t with slots := _ } = _
        rw [hstate]
        rfl
    exact ⟨hstore (rule := .unit) (hplain (by decide) 0 false) rfl, hstore (rule := .column) (hplain (by decide) 0 false) rfl,
      hstore (rule := .stride) (hplain (by decide) c false) rfl,
      fun hc => hstore (rule := .index) (VSh.badMem_index hsized hd hc fun h => Bool.noConfusion h) rfl⟩

end Sys2Proof.Machine
end
section
/-! PROOF. Circular buffers: cb.cfg and cb.adv (R372 to R374). -/

namespace Sys2Proof.Machine

section Bind
variable {s : State} {h : HReg} {v : Nat}

theorem cbBindTo_unbind : cbBindTo h (2 ^ 62) s = .next (s.modMyCore fun c => { c with cbs := c.cbs.drop h.toNat }) := by
  have hzero : bits (2 ^ 62) 61 20 = 0 := by decide
  have hunbind : bitAt (2 ^ 62) 62 = true := by decide
  simp only [cbBindTo, hzero, hunbind]
  rw [if_neg (by decide), if_true]

/-- A descriptor that lies aligned and clean in the local space is bound if it keeps R371. -/
theorem cbBindTo_bind {off : Nat} {scr : Bool} (hscr : bitAt v 63 = scr) (hoff : v % 2 ^ 20 = off) (hzero : v / 2 ^ 20 % 2 ^ 43 = 0) (hal : off % 128 = 0)
    (hin : off + 128 ≤ s.localEnd (coreOf s.cur) scr) (hclean : s.localPoison (coreOf s.cur) scr off 128 = false) :
    cbBindTo h v s = if s.cbValid (coreOf s.cur) (s.cbAt (coreOf s.cur) scr off) then
      .next (s.modMyCore fun c => { c with cbs := c.cbs.put h.toNat ⟨scr, off⟩ }) else .trap s Cause.cbMisuse (BitVec.ofNat 64 off) 0 := by
  have hbits : bits v 61 20 = 0 := by unfold bits; omega
  have hbind : bitAt v 62 = false := by unfold bitAt; simp; omega
  have hoff' : bits v 19 0 = off := by rw [← hoff]; unfold bits; simp
  simp only [cbBindTo, hscr, hoff', hbits, hbind]
  rw [if_neg (by rw [Bool.false_and]; decide), if_neg (by decide), if_neg (not_not_intro hal), if_neg (by omega), State.poisonWord_of_clean hclean]

end Bind

section Advance
variable {s : State} {h : HReg} {n : Nat} {prod : Bool}

theorem cbAdvance_unbound (hnone : s.cbOf (coreOf s.cur) h.toNat = none) : cbAdvance h n prod s = .trap s Cause.cbMisuse 0 0 := by
  simp only [cbAdvance, hnone]

variable {q : Cb} {room : Nat} (hroom : (if prod then q.free else q.filled) = room) (hsome : s.cbOf (coreOf s.cur) h.toNat = some q) (hclean : s.localPoison (coreOf s.cur) q.scr q.off 24 = false)
include hroom hsome hclean

theorem cbAdvance_past (hpast : room < n) :
    cbAdvance h n prod s = .trap s Cause.cbMisuse (BitVec.ofNat 64 q.off) 0 := by
  simp only [cbAdvance, hsome, State.poisonWord_of_clean hclean]
  exact if_pos (by rw [hroom, decide_eq_true hpast, Bool.or_true])

theorem cbAdvance_moves (hout : s.allOut) (hreads : ∀ m, s.myCore.mma = some m → m.names h = false) (hpos : 0 < n) (hle : n ≤ q.slots) (hle' : n ≤ room) :
    cbAdvance h n prod s = .next (if prod then s.cbProd (coreOf s.cur) q n else s.cbCons (coreOf s.cur) q n) := by
  have hbad : (n = 0 || decide (q.slots < n) || decide ((if prod then q.free else q.filled) < n)) = false := by
    rw [hroom, decide_eq_false (by omega), decide_eq_false (by omega), decide_eq_false (by omega)]
    rfl
  simp only [cbAdvance, hsome, State.poisonWord_of_clean hclean]
  rw [if_neg (Bool.eq_false_iff.mp hbad), State.release_of_allOut hout]
  cases hmma : s.myCore.mma with
  | none => rfl
  | some m =>
    have hother : m.names h = false := hreads m hmma
    simp only [hother, Bool.false_eq_true, if_false]

end Advance

theorem bitAt_toNat {w : Nat} (x : BitVec w) (i : Nat) : bitAt x.toNat i = x.getLsbD i := by
  rw [BitVec.getLsbD, Nat.testBit_eq_decide_div_mod_eq]
  rfl

/-- Settles O24, by the checks of each instruction in their order. -/
theorem circularBufferOps : Obligations.CircularBufferOps := by
  intro s h b n hacts core v scr off
  have hcfg : s.myCore.handleBusy h = false → exec (.cbCfg h b) s = finish (cbBindTo h v s) := fun hfree =>
    (guarded_acts hacts _ : execCbCfg h b s = _).trans (congrArg finish (if_neg (Bool.eq_false_iff.mp hfree)))
  have hp : exec (.cbAdvP h n) s = finish (cbAdvance h n.toNat true s) := guarded_acts hacts _
  have hc : exec (.cbAdvC h n) s = finish (cbAdvance h n.toNat false s) := guarded_acts hacts _
  refine ⟨fun hfree hv => ?_, fun hfree hzero hal hin hclean => ?_, fun q hq hclean hout hreads hpos hle => ?_, fun hnone => ?_⟩
  · rw [hcfg hfree, hv, cbBindTo_unbind]
    rfl
  · have hbind := cbBindTo_bind (h := h) (scr := scr) (off := off) (bitAt_toNat (s.x b) 63) rfl hzero hal hin hclean
    rw [hcfg hfree]
    exact ⟨fun hvalid => (congrArg finish (hbind.trans (if_pos hvalid))).trans rfl,
      fun hbad => congrArg finish (hbind.trans (if_neg (Bool.eq_false_iff.mp hbad)))⟩
  · rw [hp, hc]
    refine ⟨fun hroom => ?_, fun hroom => ?_, fun hpast => ?_, fun hpast => ?_⟩
    · exact congrArg finish (cbAdvance_moves (prod := true) (if_pos rfl) hq hclean hout hreads hpos hle hroom)
    · exact congrArg finish (cbAdvance_moves (prod := false) (if_neg Bool.false_ne_true) hq hclean hout hreads hpos hle hroom)
    · exact congrArg finish (cbAdvance_past (prod := true) (if_pos rfl) hq hclean hpast)
    · exact congrArg finish (cbAdvance_past (prod := false) (if_neg Bool.false_ne_true) hq hclean hpast)
  · rw [hp, hc, cbAdvance_unbound hnone, cbAdvance_unbound hnone]
    exact ⟨rfl, rfl⟩

end Sys2Proof.Machine
end
section
/-! PROOF. The format context and the zeroing of the accumulator (R242, R376, R377). -/

namespace Sys2Proof.Machine

/-- An accumulator element is in the columns that a code names. -/
def inCols : Cols → Nat → Bool
  | .all, _ => true
  | .left, e => decide (e % 64 < 32)
  | .right, e => decide (32 ≤ e % 64)

/-- A core whose named elements are zeroed, and nothing of it beyond the matrix unit changed. -/
def Core.Zeroes (c : Core) (z : Nat → Bool) (c' : Core) : Prop :=
  c' = { c with acc := c'.acc, accSat := c'.accSat, accFree := c'.accFree, fmt := c'.fmt, owner := c'.owner } ∧
    (∀ e, e < 2048 → c'.accAt e = if z e then 0 else c.accAt e) ∧
    ∀ e, e < 2048 → c'.accSat.contains e = if z e then false else c.accSat.contains e

theorem Core.zeroes_refl (c : Core) : c.Zeroes (fun _ => false) c := ⟨rfl, fun _ _ => rfl, fun _ _ => rfl⟩

theorem Core.zeroes_mapAcc (c : Core) (p : Nat → Bool) : c.Zeroes (fun e => p (e % 64)) (c.mapAcc fun _ j v => if p j then (0, false) else v) := by
  refine ⟨by simp only [Core.mapAcc], fun e he => ?_, fun e he => ?_⟩
  · rw [c.accAt_mapAcc _ he]
    split <;> rfl
  · rw [c.accSat_mapAcc _ he]
    split <;> rfl

/-- Zeroed columns hold 0 and no saturated bit; every other element stays. -/
theorem Core.zeroAcc_zeroes (c : Core) (cols : Cols) : c.Zeroes (inCols cols) (c.zeroAcc cols) := by
  cases cols with
  | all => exact ⟨rfl, fun _ _ => rfl, fun _ _ => rfl⟩
  | left =>
    have h := c.zeroes_mapAcc fun j => decide (j < 32)
    simp only [decide_eq_true_eq] at h
    exact h
  | right =>
    have h := c.zeroes_mapAcc fun j => decide (32 ≤ j)
    simp only [decide_eq_true_eq] at h
    exact h

/-- A new format context with its owner leaves what was zeroed as it is. -/
theorem Core.Zeroes.setFmt {c c' : Core} {z : Nat → Bool} (h : c.Zeroes z c') (f : Fmt) (o : Option Nat) : c.Zeroes z { c' with fmt := f, owner := o } := by
  obtain ⟨hframe, hacc, hsat⟩ := h
  refine ⟨?_, hacc, hsat⟩
  rw [hframe]

/-- The format context of a register's fields. -/
theorem fmtOfWord_toNat (v : Word) : fmtOfWord v.toNat =
    ⟨v.extractLsb' 0 4, v.extractLsb' 4 4, v.extractLsb' 8 3, v.getLsbD 11, v.extractLsb' 16 16, 0⟩ := by
  simp only [fmtOfWord, bits_toNat v (rfl : 3 + 1 - 0 = 4), bits_toNat v (rfl : 7 + 1 - 4 = 4), bits_toNat v (rfl : 10 + 1 - 8 = 3),
    bits_toNat v (rfl : 31 + 1 - 16 = 16), bitAt_toNat, BitVec.ofNat_toNat, BitVec.setWidth_eq]

section Instructions
variable {s : State} (hacts : s.acts) (hfree : s.myCore.mma = none)
include hacts hfree

theorem exec_mxZero_zeroes (cols : Cols) : exec (.mxZero cols) s = .next (s.setCore (coreOf s.cur) (s.myCore.zeroAcc cols)).advance := by
  refine (guarded_acts hacts _ : execMxZero cols s = _).trans ?_
  rw [hfree]
  rfl

/-- mx.cfg on a word with no reserved bit. -/
theorem exec_mxCfg_legal {a : Reg} (zero : Bool) (hhi : (s.x a).extractLsb' 32 32 = 0) (hmid : (s.x a).extractLsb' 12 4 = 0) :
    exec (.mxCfg a zero) s = .next (s.setCore (coreOf s.cur) { (if zero || (fmtOfWord (s.x a).toNat).isInt != s.myCore.fmt.isInt then s.myCore.zeroAcc .all
      else s.myCore) with fmt := fmtOfWord (s.x a).toNat, owner := some s.cur }).advance := by
  refine (guarded_acts hacts _ : execMxCfg a zero s = _).trans ?_
  have hbits : (bits (s.x a).toNat 63 32 ≠ 0 || bits (s.x a).toNat 15 12 ≠ 0) = false := by
    rw [(bits_eq_zero (s.x a) 63 32).mpr hhi, (bits_eq_zero (s.x a) 15 12).mpr hmid]
    rfl
  rw [if_neg (Bool.eq_false_iff.mp hbits), hfree]
  rfl

omit hfree in
theorem exec_mxCfg_illegal {a : Reg} (zero : Bool) (hres : (s.x a).extractLsb' 32 32 ≠ 0 ∨ (s.x a).extractLsb' 12 4 ≠ 0) :
    exec (.mxCfg a zero) s = .next (s.takeTrap s.cur Cause.illegal 0 0) := by
  refine (guarded_acts hacts _ : execMxCfg a zero s = _).trans (congrArg finish (if_pos ?_))
  rw [Bool.or_eq_true, decide_eq_true_eq, decide_eq_true_eq]
  exact hres.imp (fun h h0 => h ((bits_eq_zero (s.x a) 63 32).mp h0)) fun h h0 => h ((bits_eq_zero (s.x a) 15 12).mp h0)

end Instructions

/-- Settles O25. -/
theorem matrixContextAndZero : Obligations.MatrixContextAndZero := by
  intro s a zero hacts hfree v f leaves
  have hf : fmtOfWord (s.x a).toNat = f := fmtOfWord_toNat v
  have hzero : ∀ cols, leaves (.mxZero cols) (inCols cols) := fun cols => ⟨_, exec_mxZero_zeroes hacts hfree cols, s.myCore.zeroAcc_zeroes cols⟩
  refine ⟨fun hhi hmid => ?_, exec_mxCfg_illegal hacts zero, hzero .all, hzero .left, hzero .right⟩
  have hexec := exec_mxCfg_legal hacts hfree zero hhi hmid
  rw [hf] at hexec
  refine ⟨⟨_, hexec, ?_⟩, _, hexec, rfl, rfl⟩
  cases zero || f.isInt != s.myCore.fmt.isInt with
  | true => exact (s.myCore.zeroAcc_zeroes .all).setFmt f (some s.cur)
  | false => exact s.myCore.zeroes_refl.setFmt f (some s.cur)

end Sys2Proof.Machine
end

section
/-! PROOF. The latent stage's loads (R383). -/

namespace Sys2Proof.Machine

theorem field_lt (bs : List Byte) (off n : Nat) : field bs off n < 256 ^ n := by
  refine (natOf_lt _).trans_le (Nat.pow_le_pow_right (by decide) ?_)
  rw [List.length_take]
  exact Nat.min_le_left _ _

/-- The words of w bytes that an area of m is cut into. -/
theorem getD_fields {w b m n i : Nat} (hb : 256 ^ w = 2 ^ b) (hn : w * n = m) (hi : i < n) (mem : Mem) (o : Nat) :
    (((List.range n).map fun i => BitVec.ofNat b (field (memRead mem o m) (w * i) w)).getD i 0).toNat = natOf (memRead mem (o + w * i) w) := by
  have hin : w * i + w ≤ m := by
    rw [← hn, ← Nat.mul_succ]
    exact Nat.mul_le_mul_left w hi
  rw [List.getD_eq_getElem?_getD, List.getElem?_map, List.getElem?_range hi, Option.map_some, Option.getD_some, BitVec.toNat_ofNat, ← hb,
    Nat.mod_eq_of_lt (field_lt ..), field_memRead _ _ hin]

section Loads
variable {s : State} (hacts : s.acts) {a b : Reg}
include hacts

theorem exec_latent_misaligned (hal : (s.x a).toNat % 128 ≠ 0) :
    exec (.ltLoad a b) s = .next (s.takeTrap s.cur Cause.misaligned (s.x a) 3) ∧ exec (.ltRot a) s = .next (s.takeTrap s.cur Cause.misaligned (s.x a) 3) :=
  ⟨(guarded_acts hacts _ : execLtLoad a b s = _).trans (congrArg finish (if_pos hal)),
    (guarded_acts hacts _ : execLtRot a s = _).trans (congrArg finish (if_pos hal))⟩

omit hacts in
theorem State.latentArea_clean {off n : Nat} (hidle : s.latentBusy = false) (hclean : s.scrPoison (groveOf s.cur) off n = false) (k : List Byte → Eff) :
    s.latentArea off n k = k (s.scrRead (groveOf s.cur) off n) := by
  have hword : s.poisonWord (coreOf s.cur) true off n = none :=
    State.poisonWord_of_clean (by rwa [State.localPoison, if_pos rfl, groveOfCore_coreOf])
  simp only [State.latentArea, hidle, Bool.false_eq_true, if_false, hword]

variable (hal : (s.x a).toNat % 128 = 0) (hidle : s.latentBusy = false)
include hal hidle

theorem exec_ltLoad_fills (hdc : (s.x b).toNat = 0 ∨ 32 ≤ (s.x b).toNat ∧ (s.x b).toNat ≤ 512 ∧ (s.x b).toNat % 32 = 0)
    (hin : (s.x a).toNat + 128 * (s.x b).toNat ≤ 2 ^ 20) (hclean : s.scrPoison (groveOf s.cur) (s.x a).toNat (128 * (s.x b).toNat) = false) :
    exec (.ltLoad a b) s = .next (s.setGrove (groveOf s.cur) { s.myGrove with
      latDc := (s.x b).toNat
      latU := (List.range (64 * (s.x b).toNat)).map fun i =>
        BitVec.ofNat 16 (field (s.scrRead (groveOf s.cur) (s.x a).toNat (128 * (s.x b).toNat)) (2 * i) 2)
      poisonLat := false }).advance := by
  refine (guarded_acts hacts _ : execLtLoad a b s = _).trans ?_
  have hcount : ((s.x b).toNat ≠ 0 && ((s.x b).toNat < 32 || 512 < (s.x b).toNat || (s.x b).toNat % 32 ≠ 0)) = false := by
    simp only [Bool.and_eq_false_iff, Bool.or_eq_false_iff, decide_eq_false_iff_not]
    omega
  rw [if_neg (not_not_intro hal), if_neg (by omega), if_neg (Bool.eq_false_iff.mp hcount), State.latentArea_clean hidle hclean]
  rfl

theorem exec_ltRot_fills (hin : (s.x a).toNat + 128 ≤ 2 ^ 20) (hclean : s.scrPoison (groveOf s.cur) (s.x a).toNat 128 = false) :
    exec (.ltRot a) s = .next (s.setGrove (groveOf s.cur) { s.myGrove with
      turns := (List.range 32).map fun i => BitVec.ofNat 32 (field (s.scrRead (groveOf s.cur) (s.x a).toNat 128) (4 * i) 4) }).advance := by
  refine (guarded_acts hacts _ : execLtRot a s = _).trans ?_
  rw [if_neg (not_not_intro hal), if_neg (by omega), State.latentArea_clean hidle hclean]
  rfl

end Loads

/-- Settles O29: both loads cut the bytes that they read into words. -/
theorem latentLoads : Obligations.LatentLoads := by
  intro s a b hacts o dc g
  refine ⟨exec_latent_misaligned hacts, fun hal hidle => ⟨fun hdc hin hclean => ?_, fun hin hclean => ?_⟩⟩
  · refine ⟨_, exec_ltLoad_fills hacts hal hidle hdc hin hclean, ?_, fun i hi => getD_fields rfl (by omega) hi _ _⟩
    rw [List.length_map, List.length_range]
  · refine ⟨_, exec_ltRot_fills hacts hal hidle hin hclean, ?_, fun i hi => getD_fields rfl rfl hi _ _⟩
    rw [List.length_map, List.length_range]

end Sys2Proof.Machine
end
section
/-! PROOF. The drain of the accumulator (R385). -/

namespace Sys2Proof.Machine

/-! ### Folds of writes -/

/-- The first component of a fold that does not look at the second. -/
theorem foldl_fst {α β γ : Type} {f : β × γ → α → β × γ} {g : β → α → β} (h : ∀ r a, (f r a).1 = g r.1 a) (l : List α) (r : β × γ) :
    (l.foldl f r).1 = l.foldl g r.1 := by
  induction l generalizing r with
  | nil => rfl
  | cons a rest ih => rw [List.foldl_cons, List.foldl_cons, ih, h]

/-- What each step of a fold leaves of its first component, the fold leaves. -/
theorem foldl_fst_keeps {α β γ δ : Type} {obs : β → δ} {f : β × γ → α → β × γ} (h : ∀ r a, obs (f r a).1 = obs r.1) (l : List α) (r : β × γ) :
    obs (l.foldl f r).1 = obs r.1 := by
  induction l generalizing r with
  | nil => rfl
  | cons a rest ih => exact (ih (f r a)).trans (h r a)

/-- Writes of TCM that are apart from each other: each is there, and nothing else has changed. -/
theorem foldl_tcmWrite {core : Nat} {ad : Nat → Nat} {bs : Nat → List Byte} (l : List Nat) (s : State)
    (hapart : l.Pairwise fun i j => ad i + (bs i).length ≤ ad j ∨ ad j + (bs j).length ≤ ad i) :
    let t := l.foldl (fun st i => st.tcmWrite core (ad i) (bs i)) s
    (∀ i ∈ l, t.tcmRead core (ad i) (bs i).length = bs i) ∧
      ∀ p, (∀ i ∈ l, ∀ j, j < (bs i).length → p ≠ .tcm core (ad i + j)) → t.byteAt p = s.byteAt p := by
  induction l generalizing s with
  | nil => exact ⟨fun _ h => absurd h List.not_mem_nil, fun _ _ => rfl⟩
  | cons i rest ih =>
    obtain ⟨hfirst, hrest⟩ := List.pairwise_cons.mp hapart
    obtain ⟨hread, hframe⟩ := ih (s.tcmWrite core (ad i) (bs i)) hrest
    refine ⟨fun j hj => ?_, fun p hp => ?_⟩
    · obtain rfl | hj := List.mem_cons.mp hj
      · refine Eq.trans (memRead_congr fun x hx => ?_) (State.tcmRead_tcmWrite_same s core (ad j) (bs j))
        refine hframe (.tcm core (ad j + x)) fun y hy z hz heq => ?_
        obtain ⟨-, hoff⟩ := MemAt.tcm.inj heq
        have := hfirst y hy
        omega
      · exact hread j hj
    · exact (hframe p fun j hj => hp j (List.mem_cons_of_mem i hj)).trans (State.byteAt_tcmWrite_apart (hp i List.mem_cons_self))

/-! ### Drained rows -/

/-- The rows as they are drained: the state behind the writes, and the flags and the generator (R385). -/
def State.drainRows (s : State) (e x : Word) (fmt : Nat) (scr : Bool) (cols : Cols) : State × Fp :=
  (List.range 32).foldl (fun (acc : State × Fp) i =>
    let r := drainRow s.myCore fmt i (colSpan cols).1 (colSpan cols).2 acc.2
    (acc.1.localWrite (coreOf s.cur) scr (e + BitVec.ofNat 64 i * x + BitVec.ofNat 64 ((colSpan cols).1 * drainSize fmt)).toNat r.1, r.2)) (s, s.fp)

/-- The state behind a drain. -/
def State.drained (s : State) (e x : Word) (fmt : Nat) (scr zero : Bool) (cols : Cols) : State :=
  let r := s.drainRows e x fmt scr cols
  if zero then (r.1.setFp r.2).modMyCore fun q => q.zeroAcc cols else r.1.setFp r.2

theorem drainGo_eq (e x : Word) (fmt : Nat) (scr zero : Bool) (cols : Cols) (s : State) :
    drainGo e x fmt scr zero cols s = .next (s.drained e x fmt scr zero cols) := by
  unfold drainGo State.drained State.drainRows
  generalize colSpan cols = jn
  obtain ⟨j0, n⟩ := jn
  dsimp only

/-- What a write of a local space leaves of a state: the slot in turn, the memory, and all of a core but its TCM. -/
def State.besideTcm (core : Nat) (s : State) : Slot × Nat × Mem × Core := (s.me, s.cur, s.mem, { s.core core with tcm := [] })

theorem State.localWrite_besideTcm (s : State) (core : Nat) (scr : Bool) (off : Nat) (bs : List Byte) :
    (s.localWrite core scr off bs).besideTcm core = s.besideTcm core := by
  cases scr with
  | true => rfl
  | false =>
    have hcore : ∀ v, ((s.setCore core v).core core) = v := s.core_setCore_same core
    change (s.tcmWrite core off bs).besideTcm core = _
    obtain h | ⟨ps, h⟩ := s.tcmWrite_cases core off bs
    · rw [h, State.besideTcm, hcore]
      rfl
    · rw [h, State.besideTcm, State.core_setGrove, hcore]
      rfl

theorem State.drainRows_besideTcm (s : State) (e x : Word) (fmt : Nat) (scr : Bool) (cols : Cols) :
    (s.drainRows e x fmt scr cols).1.besideTcm (coreOf s.cur) = s.besideTcm (coreOf s.cur) :=
  foldl_fst_keeps (obs := State.besideTcm (coreOf s.cur)) (fun _ _ => State.localWrite_besideTcm ..) _ (s, s.fp)

theorem State.setCore_sameBytes (s : State) {core : Nat} {c : Core} (h : c.tcm = (s.core core).tcm) : s.sameBytes (s.setCore core c) := by
  intro q
  cases q with
  | device a => rfl
  | host a => rfl
  | scratch k a => rfl
  | tcm k a =>
    by_cases hk : k = core
    · rw [hk, State.byteAt, State.core_setCore_same, h]
      rfl
    · rw [State.byteAt, State.core_setCore_ne s _ hk]
      rfl

theorem Core.zeroAcc_tcm (c : Core) (cols : Cols) : (c.zeroAcc cols).tcm = c.tcm := by
  obtain ⟨hframe, -, -⟩ := c.zeroAcc_zeroes cols
  rw [hframe]

theorem Core.zeroAcc_setTcm (c : Core) (cols : Cols) (m : Mem) : ({ c with tcm := m } : Core).zeroAcc cols = { c.zeroAcc cols with tcm := m } := by
  have hacc : ∀ i, ({ c with tcm := m } : Core).accAt i = c.accAt i := fun _ => rfl
  cases cols <;> simp only [Core.zeroAcc, Core.mapAcc, hacc]

/-- The core as a drain of the accumulator leaves it, but for its TCM. -/
def State.zeroedCore (s : State) (zero : Bool) (cols : Cols) : Core := if zero then s.myCore.zeroAcc cols else s.myCore

/-- Beside the rows, a drain leaves flags and generator in the slot, and zeroes the accumulator where asked. -/
theorem State.drained_facts (s : State) (e x : Word) (fmt : Nat) (scr zero : Bool) (cols : Cols) :
    let r := s.drainRows e x fmt scr cols
    let t := s.drained e x fmt scr zero cols
    t.me = { s.me with fpCtl := r.2.ctl, rng := r.2.rng } ∧ t.cur = s.cur ∧ t.mem = s.mem ∧
      (∃ tcm, t.myCore = { s.zeroedCore zero cols with tcm := tcm }) ∧ r.1.sameBytes t := by
  intro r t
  have hbeside := s.drainRows_besideTcm e x fmt scr cols
  simp only [State.besideTcm, Prod.mk.injEq] at hbeside
  obtain ⟨hme, hcur, hmem, hbut⟩ := hbeside
  have hcore : r.1.myCore = { s.myCore with tcm := r.1.myCore.tcm } := by
    have hback : ∀ c : Core, c = { ({ c with tcm := [] } : Core) with tcm := c.tcm } := fun _ => rfl
    rw [hback r.1.myCore, State.myCore, hcur, hbut]
    rfl
  have hslot : (r.1.setFp r.2).me = { s.me with fpCtl := r.2.ctl, rng := r.2.rng } :=
    (State.setSlot_me _ _).trans (congrArg (fun q : Slot => { q with fpCtl := r.2.ctl, rng := r.2.rng }) hme)
  have hsame : r.1.sameBytes (r.1.setFp r.2) := r.1.sameBytes_setSlot _ _
  have hcores : (r.1.setFp r.2).myCore = r.1.myCore := rfl
  cases zero with
  | false => exact ⟨hslot, hcur, hmem, ⟨_, hcore⟩, hsame⟩
  | true =>
    have hzero : t.myCore = (r.1.setFp r.2).myCore.zeroAcc cols := State.setCore_myCore _ _
    refine ⟨hslot, hcur, hmem, ⟨r.1.myCore.tcm, ?_⟩, fun q => ?_⟩
    · rw [hzero, hcores, hcore, Core.zeroAcc_setTcm]
      rfl
    · exact ((r.1.setFp r.2).setCore_sameBytes (Core.zeroAcc_tcm _ cols) q).trans (hsame q)

/-! ### Whole elements -/

/-- A whole element is drained as its four bytes. -/
theorem drainElem_word {fmt : Nat} (hfmt : fmt = 0 ∨ fmt = 8) (f : Fmt) (v : BitVec 32) (satBit : Bool) (p : Fp) :
    (drainElem f fmt v satBit p).1 = bytesOf 4 v.toNat := by
  obtain rfl | rfl := hfmt <;> rfl

/-- The bytes of a row of whole elements. -/
def Core.wordRow (c : Core) (i j0 n : Nat) : List Byte := ((span j0 n).map fun j => bytesOf 4 (c.accAt (i * 64 + j)).toNat).flatten

theorem drainRow_word {fmt : Nat} (hfmt : fmt = 0 ∨ fmt = 8) (c : Core) (i j0 n : Nat) (p : Fp) : (drainRow c fmt i j0 n p).1 = c.wordRow i j0 n := by
  have hfold := foldl_fst (g := fun (acc : List Byte) j => acc ++ bytesOf 4 (c.accAt (i * 64 + j)).toNat)
    (f := fun (acc : List Byte × Fp) j =>
      let k := i * 64 + j
      let (bs, p1) := drainElem c.fmt fmt (c.accAt k) (c.accSat.contains k) acc.2
      (acc.1 ++ bs, p1)) (fun r j => congrArg (r.1 ++ ·) (drainElem_word hfmt ..)) (span j0 n) ([], p)
  exact hfold.trans List.foldl_append_eq_append

theorem length_flatten_words {α : Type} (g : α → Nat) (l : List α) : ((l.map fun a => bytesOf 4 (g a)).flatten).length = 4 * l.length := by
  induction l with
  | nil => rfl
  | cons a l ih => rw [List.map_cons, List.flatten_cons, List.length_append, ih, length_bytesOf, List.length_cons, Nat.mul_succ, Nat.add_comm]

/-- Word i of a run of words of four bytes. -/
theorem field_flatten_words {α : Type} (g : α → Nat) (l : List α) {i : Nat} (h : i < l.length) :
    field (l.map fun a => bytesOf 4 (g a)).flatten (4 * i) 4 = g l[i] % 256 ^ 4 := by
  induction l generalizing i with
  | nil => exact absurd h (Nat.not_lt_zero i)
  | cons a l ih =>
    rw [List.map_cons, List.flatten_cons]
    cases i with
    | zero => exact field_bytesOf_append 4 (g a) _
    | succ i =>
      rw [field_append_right (by rw [length_bytesOf]; omega), length_bytesOf, Nat.mul_succ, Nat.add_sub_cancel, ih (Nat.lt_of_succ_lt_succ h)]
      rfl

theorem Core.length_wordRow (c : Core) (i j0 n : Nat) : (c.wordRow i j0 n).length = 4 * n := by
  rw [Core.wordRow, length_flatten_words, span, List.length_map, List.length_range]

theorem Core.field_wordRow (c : Core) (i : Nat) {j0 n j : Nat} (h : j < n) : field (c.wordRow i j0 n) (4 * j) 4 = (c.accAt (i * 64 + (j0 + j))).toNat := by
  have hlt : j < (span j0 n).length := by rwa [span, List.length_map, List.length_range]
  have hget : (span j0 n)[j] = j0 + j := by simp only [span, List.getElem_map, List.getElem_range]
  rw [Core.wordRow, field_flatten_words _ _ hlt, hget]
  exact Nat.mod_eq_of_lt (BitVec.isLt _)

/-! ### Where the elements lie -/

/-- The row of an element, where no row wraps. -/
theorem drainRow_address {e x : Word} (hin : e.toNat + 31 * x.toNat + 256 < 2 ^ 64) {i : Nat} (hi : i < 32) (sz : Nat) :
    (e + BitVec.ofNat 64 i * x + BitVec.ofNat 64 (0 * sz)).toNat = e.toNat + i * x.toNat := by
  have hle : i * x.toNat ≤ 31 * x.toNat := Nat.mul_le_mul_right _ (by omega)
  have hmul : (BitVec.ofNat 64 i * x).toNat = i * x.toNat := by
    rw [BitVec.toNat_mul, BitVec.toNat_ofNat, Nat.mod_eq_of_lt (by omega : i < 2 ^ 64), Nat.mod_eq_of_lt (by omega)]
  rw [Nat.zero_mul, BitVec.add_zero, BitVec.toNat_add, hmul, Nat.mod_eq_of_lt (by omega)]

/-- Whole elements of all columns, drained to rows apart in TCM. -/
theorem State.drainRows_words (s : State) {e x : Word} {fmt : Nat} (hfmt : fmt = 0 ∨ fmt = 8) (hstride : 256 ≤ x.toNat)
    (hin : e.toNat + 31 * x.toNat + 256 < 2 ^ 64) :
    let t := (s.drainRows e x fmt false .all).1
    (∀ i j, i < 32 → j < 64 → natOf (t.tcmRead (coreOf s.cur) (e.toNat + i * x.toNat + 4 * j) 4) = (s.myCore.accAt (i * 64 + j)).toNat) ∧
      ∀ p, (∀ i k, i < 32 → k < 256 → p ≠ .tcm (coreOf s.cur) (e.toNat + i * x.toNat + k)) → t.byteAt p = s.byteAt p := by
  have hfst : (s.drainRows e x fmt false .all).1 = (List.range 32).foldl (fun st i => st.tcmWrite (coreOf s.cur)
      (e + BitVec.ofNat 64 i * x + BitVec.ofNat 64 (0 * drainSize fmt)).toNat (s.myCore.wordRow i 0 64)) s :=
    foldl_fst (fun r i => congrArg (r.1.tcmWrite _ _) (drainRow_word hfmt ..)) _ _
  have hlen : ∀ i, (s.myCore.wordRow i 0 64).length = 256 := fun i => s.myCore.length_wordRow i 0 64
  have hat : ∀ {i}, i < 32 → _ = e.toNat + i * x.toNat := fun hi => drainRow_address hin hi (drainSize fmt)
  have hapart : (List.range 32).Pairwise fun i j =>
      (e + BitVec.ofNat 64 i * x + BitVec.ofNat 64 (0 * drainSize fmt)).toNat + (s.myCore.wordRow i 0 64).length ≤
        (e + BitVec.ofNat 64 j * x + BitVec.ofNat 64 (0 * drainSize fmt)).toNat ∨
      (e + BitVec.ofNat 64 j * x + BitVec.ofNat 64 (0 * drainSize fmt)).toNat + (s.myCore.wordRow j 0 64).length ≤
        (e + BitVec.ofNat 64 i * x + BitVec.ofNat 64 (0 * drainSize fmt)).toNat := by
    refine List.pairwise_lt_range.imp_of_mem fun hi hj hlt => .inl ?_
    rw [hat (List.mem_range.mp hi), hat (List.mem_range.mp hj), hlen]
    have hstep := Nat.mul_le_mul_right x.toNat (Nat.succ_le_of_lt hlt)
    rw [Nat.succ_mul] at hstep
    omega
  obtain ⟨hread, hframe⟩ := foldl_tcmWrite (List.range 32) s hapart
  rw [← hfst] at hread hframe
  refine ⟨fun i j hi hj => ?_, fun p hp => hframe p fun i hi k hk => ?_⟩
  · have hrow := hread i (List.mem_range.mpr hi)
    rw [hat hi, hlen] at hrow
    have hfield := s.myCore.field_wordRow i (j0 := 0) hj
    rw [← hrow, Nat.zero_add] at hfield
    rw [← hfield]
    exact (field_memRead _ _ (by omega)).symm
  · rw [hat (List.mem_range.mp hi)]
    rw [hlen] at hk
    exact hp i k (List.mem_range.mp hi) hk

theorem drainFmtOk_iff {fmt : BitVec 4} : drainFmtOk fmt = true ↔ fmt.toNat ≤ 8 ∧ fmt.toNat ≠ 7 := by
  revert fmt
  decide

/-- The formats of whole elements (R385). -/
theorem drain_words {fmt : BitVec 4} (hfmt : drainFmtOk fmt = true) (hsize : drainSize fmt.toNat = 4) : fmt.toNat = 0 ∨ fmt.toNat = 8 := by
  revert fmt
  decide

/-- A drain that passes every check. -/
theorem drainStep_passes {s : State} {x e : Word} {fmt : BitVec 4} {space : Space} {cols : Cols} {first n : Nat} (hcols : colSpan cols = (first, n)) (zero : Bool)
    (hspace : space ≠ .glob) (hidle : s.myCore.mma = none) (hrm : s.myCore.fmt.rm.toNat ≤ 4) (hfmt : drainFmtOk fmt = true)
    (hkind : s.myCore.fmt.isInt = decide (5 ≤ fmt.toNat)) (hal : e.toNat % drainSize fmt.toNat = 0) (halx : x.toNat % drainSize fmt.toNat = 0)
    (hin : ∀ i, i < 32 → (e + BitVec.ofNat 64 i * x + BitVec.ofNat 64 (first * drainSize fmt.toNat)).toNat + n * drainSize fmt.toNat ≤
      s.localEnd (coreOf s.cur) (space == .scr)) :
    drainStep x e fmt space zero cols s = .next (s.drained e x fmt.toNat (space == .scr) zero cols) := by
  obtain ⟨hle, hseven⟩ := drainFmtOk_iff.mp hfmt
  have hlegal : (space = .glob || 8 < fmt.toNat || fmt.toNat = 7) = false := by
    rw [decide_eq_false hspace, decide_eq_false (by omega), decide_eq_false hseven]
    rfl
  have hcontext : ((decide (5 ≤ fmt.toNat)) != s.myCore.fmt.isInt || 4 < s.myCore.fmt.rm.toNat) = false := by
    rw [hkind, bne_self_eq_false, Bool.false_or, decide_eq_false (by omega)]
  have haligned : (e.toNat % drainSize fmt.toNat ≠ 0 || x.toNat % drainSize fmt.toNat ≠ 0) = false := by
    rw [hal, halx]
    rfl
  have hrows : ((List.range 32).any fun i => decide (s.localEnd (coreOf s.cur) (space == .scr) <
      (e + BitVec.ofNat 64 i * x + BitVec.ofNat 64 (first * drainSize fmt.toNat)).toNat + n * drainSize fmt.toNat)) = false :=
    List.any_eq_false.mpr fun i hi => by rw [decide_eq_true_eq, Nat.not_lt]; exact hin i (List.mem_range.mp hi)
  rw [← drainGo_eq]
  simp only [drainStep, hcols]
  rw [if_neg (Bool.eq_false_iff.mp hlegal), if_neg (Bool.eq_false_iff.mp hcontext), if_neg (Bool.eq_false_iff.mp haligned), if_neg (Bool.eq_false_iff.mp hrows),
    hidle]
  rfl

/-- Settles O30. -/
theorem matrixDrain : Obligations.MatrixDrain := by
  intro s a b imm fmt space zero cols hacts e x core row sz first n
  have hexec : exec (.mxDrain a b imm fmt space zero cols) s = finish (drainStep x e fmt space zero cols s) :=
    (guarded_acts hacts _ : execMxDrain a b imm fmt space zero cols s = _)
  have hcols : colSpan cols = (first, n) := by cases cols <;> rfl
  refine ⟨fun hglob => ?_, fun hspace hidle hrm hfmt hkind hal halx hin => ?_⟩
  · rw [hexec, drainStep, hglob]
    rfl
  · have hstep := drainStep_passes hcols zero hspace hidle hrm hfmt hkind hal halx hin
    obtain ⟨hme, hcur, hmem, ⟨tcm, hcore⟩, hsame⟩ := s.drained_facts e x fmt.toNat (space == .scr) zero cols
    have hadv : (s.drained e x fmt.toNat (space == .scr) zero cols).advance.me = _ := State.setSlot_me _ _
    have hx : (s.drained e x fmt.toNat (space == .scr) zero cols).me.x = s.me.x := by rw [hme]
    have hnpc : (s.drained e x fmt.toNat (space == .scr) zero cols).me.npc = s.me.npc := by rw [hme]
    have hcore' : (s.drained e x fmt.toNat (space == .scr) zero cols).advance.myCore = _ := hcore
    refine ⟨_, hexec.trans (congrArg finish hstep), hmem, (congrArg Slot.x hadv).trans hx, (congrArg Slot.pc hadv).trans hnpc,
      fun hz => ?_, fun hsz htcm hall hstride hfit => ?_⟩
    · subst hz
      rw [hcore']
      exact ⟨rfl, rfl⟩
    · subst htcm hall
      obtain ⟨hread, hframe⟩ := s.drainRows_words (drain_words hfmt hsz) hstride hfit
      refine ⟨fun i j hi hj => Eq.trans ?_ (hread i j hi hj), fun p hp => (hsame p).trans (hframe p hp), fun i hi => ?_⟩
      · exact congrArg natOf (memRead_congr fun k _ => hsame (.tcm core (row i + 4 * j + k)))
      · have hacc : (s.drained e x fmt.toNat (Space.tcm == .scr) zero .all).advance.myCore.accAt i = (s.zeroedCore zero .all).accAt i := by rw [hcore']; rfl
        rw [hacc, State.zeroedCore]
        cases zero with
        | false => rfl
        | true => exact (s.myCore.zeroAcc_zeroes .all).2.1 i hi

end Sys2Proof.Machine
end
section
/-! PROOF. Engine commands at issue, and the engines' state word (R236, R386, R387, R390). -/

namespace Sys2Proof.Machine

/-- Every check of R387 on a command at an offset of TCM. -/
structure State.EngChecked (s : State) (kind off : Nat) (d : EngDesc) (eng : Engine) : Prop where
  aligned : off % 16 = 0
  inside : off + 48 ≤ s.myCore.utop.toNat * 256
  clean : s.tcmPoison (coreOf s.cur) off 48 = false
  status : d.hasStatus = true → d.status % 8 = 0 ∧ d.status + 8 ≤ s.myCore.utop.toNat * 256
  legal : d.illegal (kind == 0) = false
  ranges : d.localOut kind = false
  bases : kind ≠ 0 → d.baseSkewed = false
  buffer : s.cbBad (coreOf s.cur) d kind = false
  room : eng.queue.length < 2
  noBack : eng.back = []

/-- An engine's command word, as it is queued at issue. -/
def State.engCmd (s : State) (kind off : Nat) (bs : List Byte) : EngCmd :=
  ⟨BitVec.ofNat 2 kind, s.cur, s.me.task, s.me.grp, s.me.ctx, bs, off, 0, none, none, []⟩

section Issue
variable {s : State} {kind : Nat} {xa : Word}

theorem engIssue_queues (h : s.EngChecked kind xa.toNat (engDesc (s.tcmRead (coreOf s.cur) xa.toNat 48)) (s.myCore.eng (kind != 0)))
    (hplain : (engDesc (s.tcmRead (coreOf s.cur) xa.toNat 48)).dstGlobal = true → s.me.collecting = false) :
    engIssue kind xa s = .next (s.engQueue (kind != 0) (s.engCmd kind xa.toNat (s.tcmRead (coreOf s.cur) xa.toNat 48))) := by
  obtain ⟨haligned, hinside, hclean, hstatus, hlegal, hranges, hbases, hbuffer, hroom, hback⟩ := h
  generalize hd : engDesc (s.tcmRead (coreOf s.cur) xa.toNat 48) = d at *
  have hskew : (d.hasStatus && d.status % 8 ≠ 0) = false := by
    rw [Bool.and_eq_false_imp]
    exact fun hs => decide_eq_false (not_not_intro (hstatus hs).1)
  have hpast : (d.hasStatus && decide (s.myCore.utop.toNat * 256 < d.status + 8)) = false := by
    rw [Bool.and_eq_false_imp]
    exact fun hs => decide_eq_false (Nat.not_lt.mpr (hstatus hs).2)
  have hbase : (kind != 0 && d.baseSkewed) = false := by
    rw [Bool.and_eq_false_imp]
    exact fun hk => hbases (bne_iff_ne.mp hk)
  have hcollect : (d.dstGlobal && s.me.collecting) = false := by
    rw [Bool.and_eq_false_imp]
    exact hplain
  have hfull : (decide (2 ≤ (s.myCore.eng (kind != 0)).queue.length) || !(s.myCore.eng (kind != 0)).back.isEmpty) = false := by
    rw [hback, decide_eq_false (by omega)]
    rfl
  simp only [engIssue, decide_eq_true hinside, if_true, hd, hclean, hskew, hpast, hlegal, hranges, hbase, hbuffer, hcollect, hfull, Bool.true_and, Bool.not_true,
    Bool.false_eq_true, if_false]
  rw [if_neg (not_not_intro haligned)]
  rfl

theorem State.engTrap_of_others {g : Bool} (h : ∀ f ∈ (s.myCore.eng g).fail, s.mineToTrap f = false) (k : Eff) : s.engTrap g k = k := by
  have hfind : (s.myCore.eng g).fail.find? s.mineToTrap = none := List.find?_eq_none.mpr fun f hf => Bool.eq_false_iff.mp (h f hf)
  simp only [State.engTrap, hfind]

theorem State.engTrap_some {g : Bool} {f : EngFail} (h : (s.myCore.eng g).fail.find? s.mineToTrap = some f) (k : Eff) :
    s.engTrap g k = .trap (s.setCore (coreOf s.cur) (s.myCore.setEng g { s.myCore.eng g with fail := (s.myCore.eng g).fail.filter fun o => o != f }))
      f.cause.toNat f.addr (if g then 2 else 1) := by
  simp only [State.engTrap, h, State.modMyCore_eq]

end Issue

/-- The state word of the engines as its fields are read (R390). -/
theorem Core.engWord_eq (c : Core) : c.engWord =
    (c.gathEng.fail.head?.elim 0 fun f => f.cause.toNat) * 2 ^ 16 + (c.copyEng.fail.head?.elim 0 fun f => f.cause.toNat) * 2 ^ 8 +
    (if c.gathEng.run.isSome then 2 ^ 5 else 0) + c.gathEng.queue.length * 2 ^ 3 + (if c.copyEng.run.isSome then 2 ^ 2 else 0) + c.copyEng.queue.length := by
  have hflag : ∀ (b : Bool) (n : Nat), at_ (flag b) n = if b then 2 ^ n else 0 := fun b n => by
    cases b
    · exact Nat.zero_mul _
    · exact Nat.one_mul _
  unfold Core.engWord
  dsimp only
  rw [hflag, hflag]
  cases c.gathEng.fail <;> cases c.copyEng.fail <;> rfl

/-- Each engine instruction is the checks of its kind behind the trap of a failed command. -/
theorem exec_engInstr {s : State} (hacts : s.acts) (a : Reg) {kind : Nat} (hkind : kind < 3) :
    exec (if kind = 0 then Instr.cp a else if kind = 1 then .ga a else .sc a) s = finish (s.engTrap (kind != 0) (engIssue kind (s.x a) s)) := by
  obtain rfl | rfl | rfl : kind = 0 ∨ kind = 1 ∨ kind = 2 := by omega
  · exact (guarded_acts hacts _ : execCp a s = _)
  · exact (guarded_acts hacts _ : execGa a s = _)
  · exact (guarded_acts hacts _ : execSc a s = _)

/-- Settles O31. -/
theorem engineIssue : Obligations.EngineIssue := by
  intro s a kind hacts hkind i g c off bs d put eng top checked
  have hexec : exec i s = finish (s.engTrap g (engIssue kind (s.x a) s)) := exec_engInstr hacts a hkind
  have hput : ∀ k e, put k e = k.setEng g e := fun _ _ => rfl
  refine ⟨fun hfree hchecked hplain => ?_, fun f hf => ?_, ?_⟩
  · obtain ⟨haligned, hinside, hclean, hstatus, hlegal, hranges, hbases, hbuffer, hroom, hback⟩ := hchecked
    rw [hexec, State.engTrap_of_others hfree, engIssue_queues ⟨haligned, hinside, hclean, hstatus, hlegal, hranges, hbases, hbuffer, hroom, hback⟩ hplain]
    rfl
  · rw [hexec, State.engTrap_some hf]
    rfl
  · refine (guarded_acts hacts _ : execEngStat a s = _).trans ?_
    rw [Core.engWord_eq]
    rfl

end Sys2Proof.Machine
end
section
/-! PROOF. How an engine command starts, ends, fails, or stops at a translation (R211, R236, R387, R388). -/

namespace Sys2Proof.Machine

/-! ### What accesses to the memories leave of the engines -/

/-- The engines and buffer handles of a core. -/
def Core.engines (c : Core) : Engine × Engine × PMap CbBind := (c.copyEng, c.gathEng, c.cbs)

/-- The engines and buffer handles of every core, and which tasks there are. -/
def State.engView (s : State) : (Nat → Engine × Engine × PMap CbBind) × (Nat → Bool) :=
  (fun k => (s.core k).engines, fun key => (s.tasks.find key).isSome)

theorem State.engView_of_same {s t : State} (hcores : t.cores = s.cores) (htasks : t.tasks = s.tasks) : t.engView = s.engView := by
  simp only [State.engView, State.core, hcores, htasks]

theorem State.setCore_engView (s : State) {k : Nat} {v : Core} (h : v.engines = (s.core k).engines) : (s.setCore k v).engView = s.engView := by
  refine Prod.ext (funext fun j => ?_) rfl
  change ((s.setCore k v).core j).engines = (s.core j).engines
  by_cases hj : j = k
  · rw [hj, State.core_setCore_same, h]
  · rw [State.core_setCore_ne s _ hj]

theorem State.DirtyOnly.engView {s t : State} (h : s.DirtyOnly t) : t.engView = s.engView := by
  obtain ⟨_, _, _, rfl⟩ := h
  rfl

theorem State.devWrite_engView (s : State) (p : Nat) (inter : Bool) (bs : List Byte) : (s.devWrite p inter bs).engView = s.engView :=
  (State.DirtyOnly.foldl (fun t sec => t.makeDirty_dirtyOnly inter sec) s (sectorsOf p bs.length)).engView

theorem State.hostPut_engView (s : State) (p a : Nat) (bs : List Byte) : (s.hostPut p a bs).engView = s.engView :=
  (State.DirtyOnly.foldl (fun t sec => t.makeDirty_dirtyOnly true sec) s (sectorsOf p bs.length)).engView

theorem State.tcmWrite_engView (s : State) (core off : Nat) (bs : List Byte) : (s.tcmWrite core off bs).engView = s.engView := by
  have hput : (s.setCore core { s.core core with tcm := memWrite (s.core core).tcm off bs }).engView = s.engView := s.setCore_engView rfl
  obtain h | ⟨ps, h⟩ := s.tcmWrite_cases core off bs
  · rw [h, hput]
  · rw [h]
    exact hput

theorem State.windowWrite_engView (s : State) (g off : Nat) (bs : List Byte) : (s.windowWrite g off bs).engView = s.engView := by
  unfold State.windowWrite
  split
  · exact State.tcmWrite_engView s _ _ bs
  · split
    · exact State.engView_of_same rfl rfl
    · split
      · exact State.engView_of_same rfl rfl
      · rfl

theorem State.barWrite_engView (s : State) (off : Nat) (bs : List Byte) : (s.barWrite off bs).engView = s.engView := by
  unfold State.barWrite
  simp only
  split
  · split
    · rfl
    · exact State.engView_of_same rfl rfl
  · split
    · exact State.engView_of_same rfl rfl
    · split
      · exact State.engView_of_same rfl rfl
      · rfl

theorem State.bellWrite_engView (s : State) (q : Nat) (bs : List Byte) : (s.bellWrite q bs).engView = s.engView := by
  unfold State.bellWrite
  simp only
  split
  · rfl
  · exact State.devWrite_engView s _ _ _

theorem State.poke_engView (s : State) (p : Nat) (inter : Bool) (bs : List Byte) : (s.poke p inter bs).engView = s.engView := by
  unfold State.poke
  split
  · exact State.devWrite_engView s p inter bs
  · exact State.windowWrite_engView s _ _ bs
  · exact State.windowWrite_engView s _ _ bs
  · exact State.barWrite_engView s _ bs
  · exact State.bellWrite_engView s _ bs
  · exact State.hostPut_engView s p _ bs
  · rfl
  · rfl

theorem State.traceAdd_engView (s : State) (home kind size p src : Nat) : (s.traceAdd home kind size p src).engView = s.engView := by
  unfold State.traceAdd
  simp only
  split <;> rfl

theorem State.combineCopy_engView (s : State) (core sec : Nat) : (s.combineCopy core sec).engView = s.engView :=
  (foldl_keeps (obs := State.engView)
    (f := fun st e => (st.combineElem e).traceAdd (st.home e.pa e.inter) 2 (redWidth e.ty.toNat / 8) e.pa (st.source (core * 4)))
    (fun st e => (State.traceAdd_engView _ _ _ _ _ _).trans (State.poke_engView st e.pa e.inter _)) (s.setCore core _) _).trans (s.setCore_engView rfl)

theorem State.combineAll_engView (sec n : Nat) (s : State) (cores : List Nat) : (s.combineAll sec n cores).engView = s.engView := by
  induction n generalizing s cores with
  | zero => rfl
  | succ n ih =>
    unfold State.combineAll
    split
    · rfl
    · exact State.combineCopy_engView s _ sec
    · exact (ih _ _).trans (State.combineCopy_engView _ _ sec)

theorem State.recall_engView (s : State) (sec : Nat) : (s.recall sec).engView = s.engView := by
  have hsnoop : (s.snoop sec).engView = s.engView := by
    unfold State.snoop
    split <;> rfl
  unfold State.recall
  simp only
  split
  · exact hsnoop
  · exact (State.combineAll_engView _ _ _ _).trans hsnoop

theorem State.recallRange_engView (s : State) (p n : Nat) : (s.recallRange p n).engView = s.engView := foldl_keeps State.recall_engView s _

theorem State.recWrite_engView (s : State) (pa off : Nat) (bs : List Byte) : (s.recWrite pa off bs).engView = s.engView := by
  unfold State.recWrite State.lateWrite
  split
  · rfl
  · unfold State.latePut
    split
    · split <;> rfl
    · exact (State.poke_engView _ _ _ _).trans (State.recallRange_engView s _ _)

theorem State.recordPut_engView (s : State) (r : FaultRec) : (s.recordPut r).1.engView = s.engView := by
  unfold State.recordPut
  extract_lets d s0 c head tail s1 s2
  have h0 : s0.engView = s.engView := State.recallRange_engView s _ _
  split
  · exact h0
  · split
    · dsimp only
      split <;> exact h0
    · exact (State.recWrite_engView s1 _ _ _).trans ((State.recWrite_engView s0 _ _ _).trans h0)

theorem State.orsOut_engView (s : State) : s.orsOut.engView = s.engView := by
  have hbit : ∀ (t : State) sec, (t.orBit sec).engView = t.engView := fun t sec => by
    unfold State.orBit
    split
    · rfl
    · split
      · rfl
      · exact (State.devWrite_engView _ _ _ _).trans (State.recallRange_engView t _ _)
  unfold State.orsOut
  split
  · rfl
  · exact foldl_keeps hbit { s with wbOrs := [] } _

theorem State.engStatus_engView (s : State) (core : Nat) (c : EngCmd) (v : Nat) : (s.engStatus core c v).engView = s.engView := by
  unfold State.engStatus
  simp only
  split
  · exact State.tcmWrite_engView s _ _ _
  · rfl

theorem PMap.find_map_isSome {α β : Type} (g : Nat × α → β) (l : PMap α) (key : Nat) :
    (PMap.find (l.map fun q => (q.1, g q)) key).isSome = (l.find key).isSome := by
  induction l with
  | nil => rfl
  | cons q rest ih =>
    obtain ⟨k, v⟩ := q
    rw [List.map_cons, PMap.find, PMap.find]
    split
    · rfl
    · exact ih

theorem State.fillAll_engView (s : State) (slot tag : Nat) (f : HEntry → Option HEntry) : (s.fillAll slot tag f).engView = s.engView := by
  have hunit : ∀ (t : State) (u : UnitAt) bs, (t.unitPut slot u bs).engView = t.engView := fun t u bs => by
    cases u with
    | share n => exact State.tcmWrite_engView t _ _ bs
    | frame p => exact State.recWrite_engView t p 0 bs
  have hout : ∀ (t : State) (h : Hamper), (t.hamperOut slot h).engView = t.engView := fun t h =>
    foldl_keeps (obs := State.engView) (f := fun st (q : Nat × UnitAt) => st.unitPut slot q.2 ((h.bytes.drop (16 * q.1)).take 16)) (fun st q => hunit st q.2 _) t _
  unfold State.fillAll
  refine (foldl_keeps (f := fun st h => st.hamperOut slot _) (fun st h => hout st _) _ _).trans ?_
  refine Prod.ext rfl (funext fun key => ?_)
  exact PMap.find_map_isSome _ s.tasks key

theorem State.engines_eq {s t : State} (h : t.engView = s.engView) (core : Nat) : (t.core core).engines = (s.core core).engines := congrFun (congrArg Prod.fst h) core

theorem State.hasIssuer_eq {s t : State} (h : t.engView = s.engView) (c : EngCmd) : t.hasIssuer c = s.hasIssuer c := by
  unfold State.hasIssuer
  split
  · exact congrFun (congrArg Prod.snd h) _
  · rfl

theorem Core.fills_eq {c c' : Core} (h : c'.engines = c.engines) (cb : Nat) : c'.fills cb = c.fills cb := by
  have hcbs : c'.cbs = c.cbs := congrArg (·.2.2) h
  unfold Core.fills
  rw [hcbs]

theorem Core.eng_eq {c c' : Core} (h : c'.engines = c.engines) (g : Bool) : c'.eng g = c.eng g := by
  cases g
  · exact congrArg (·.1) h
  · exact congrArg (·.2.1) h

/-! ### The engine behind each outcome -/

theorem Core.eng_setEng (c : Core) (g : Bool) (e : Engine) : (c.setEng g e).eng g = e := by cases g <;> rfl

/-- The engine of a core that is written anew. -/
theorem State.eng_modCore (s : State) (core : Nat) (g : Bool) (f : Core → Engine) : ((s.modCore core fun q => q.setEng g (f q)).core core).eng g = f (s.core core) := by
  rw [State.modCore_eq, State.core_setCore_same, Core.eng_setEng]

section Outcomes
variable (s : State) (core : Nat) (g : Bool) (c : EngCmd)

theorem State.engDone_run : ((s.engDone core g c).core core |>.eng g).run = none := by
  unfold State.engDone State.setRun
  rw [State.eng_modCore]

/-- A failed command whose issuer is there leaves its cause behind the others, and the engine idle. -/
theorem State.engFailed_engine (cause : Nat) (addr : Word) (sec : Option Nat) (hissuer : s.hasIssuer c = true) :
    let e := ((s.engFailed core g c cause addr sec).core core).eng g
    e.run = none ∧ e.fail.getLast? = some ⟨BitVec.ofNat 8 cause, addr, c.slot, c.task, (s.core core).fills (engDesc c.desc).cb⟩ := by
  unfold State.engFailed
  extract_lets s0 s1 s2 f e
  have h0 : s0.engView = s.engView := by
    unfold s0
    split
    · split
      · exact (State.orsOut_engView _).trans (s.writeBack1_dirtyOnly _).engView
      · rfl
    · rfl
  have h1 : s1.engView = s.engView := (State.engStatus_engView s0 _ _ _).trans h0
  have h2 : s2.engView = s.engView := by
    unfold s2
    split
    · exact (State.fillAll_engView s1 _ _ _).trans h1
    · exact h1
  have hf : f = ⟨BitVec.ofNat 8 cause, addr, c.slot, c.task, (s.core core).fills (engDesc c.desc).cb⟩ := by
    unfold f
    rw [Core.fills_eq (State.engines_eq h2 core)]
  have he : e = { (s2.core core).eng g with run := none, fail := ((s2.core core).eng g).fail ++ (if s2.hasIssuer c then [f] else []) } :=
    State.eng_modCore s2 core g _
  rw [he, State.hasIssuer_eq h2, hissuer, if_pos rfl, hf]
  exact ⟨rfl, List.getLast?_concat⟩

/-- A command that a translation stopped keeps its place, what it had read is read afresh, and its engine awaits the replay. -/
theorem State.engFault_engine (f : XFault) :
    let e := ((s.engFault core g c f).core core).eng g
    e.run = some { c with list := none, halves := [] } ∧ e.fsrc.awaiting.isSome = true := by
  unfold State.engFault
  extract_lets d s1 e fs token r s2 t
  have hrun : ((s1.core core).eng g).run = some { c with list := none, halves := [] } := by
    unfold s1 State.setRun
    rw [State.eng_modCore]
  have h2 : s2.engView = s1.engView := by
    unfold s2
    split <;> rfl
  have hput := (State.recordPut_engView s2 r).trans h2
  have hkept : ((s2.recordPut r).1.core core).eng g = (s1.core core).eng g := Core.eng_eq (State.engines_eq hput core) g
  have hend : ∃ rec, t = { ((s2.recordPut r).1.core core).eng g with fsrc := fs, record := rec } := by
    unfold t
    split
    · next s3 heq => exact ⟨none, by rw [heq]; exact State.eng_modCore s3 core g _⟩
    · next s3 heq => exact ⟨some r, by rw [heq]; exact State.eng_modCore s3 core g _⟩
  obtain ⟨rec, ht⟩ := hend
  rw [ht, hkept]
  exact ⟨hrun, rfl⟩

end Outcomes

/-- An engine whose queue nothing waits behind. -/
theorem Engine.refill_of_noBack {e : Engine} (h : e.back = []) : e.refill = e := by
  unfold Engine.refill
  rw [h, List.take_nil, List.drop_nil, List.append_nil, ← h]

theorem State.engCanStart_head {s : State} {core : Nat} {g : Bool} {c : EngCmd} {rest : List EngCmd} (hqueue : ((s.core core).eng g).queue = c :: rest)
    (hrun : ((s.core core).eng g).run = none) (hfail : ((s.core core).eng g).fail = []) (hfsrc : ((s.core core).eng g).fsrc.awaiting = none)
    (hfenced : (s.grove (groveOfCore core)).fenced = false) (hready : s.cbReady core (engDesc c.desc) = true) : s.engCanStart core g = some c := by
  unfold State.engCanStart
  simp only [hqueue]
  rw [hrun, hfail, hfsrc, hfenced, hready]
  rfl

/-- Settles O32. -/
theorem engineProgress : Obligations.EngineProgress := by
  intro s core g e
  refine ⟨fun c rest hqueue hback hrun hfail hfsrc hfenced hready hprogress => ?_, fun s1 c hout hruns => ?_,
    fun s1 c cause addr sec hout hruns hissuer => ?_, fun s1 c f hout hruns => ?_⟩
  · change execEngineCommandStart core g s = _
    have hdrop : e.queue.drop 1 = rest := by rw [hqueue]; rfl
    have hfill : ({ e with run := some c, queue := e.queue.drop 1 } : Engine).refill = { e with run := some c, queue := rest } := by
      rw [hdrop]
      exact Engine.refill_of_noBack hback
    simp only [execEngineCommandStart, State.engCanStart_head hqueue hrun hfail hfsrc hfenced hready, hprogress, if_true, State.modCore_eq]
    rw [hfill]
  · have hexec : exec (.engineCommandComplete core g) s = .next (s1.engDone core g c) := by
      change execEngineCommandComplete core g s = _
      simp only [execEngineCommandComplete, hout, hruns]
    exact ⟨_, hexec, rfl, s1.engDone_run core g c⟩
  · have hexec : exec (.engineCommandFail core g) s = .next (s1.engFailed core g c cause addr sec) := by
      change execEngineCommandFail core g s = _
      simp only [execEngineCommandFail, hout, hruns]
    obtain ⟨hidle, hlast⟩ := s1.engFailed_engine core g c cause addr sec hissuer
    exact ⟨_, hexec, rfl, hidle, hlast⟩
  · have hexec : exec (.engineTranslationFault core g) s = .next (s1.engFault core g c f) := by
      change execEngineTranslationFault core g s = _
      simp only [execEngineTranslationFault, hout, hruns]
    obtain ⟨hrun, hawaits⟩ := s1.engFault_engine core g c f
    exact ⟨_, hexec, rfl, hrun, hawaits⟩

end Sys2Proof.Machine
end
section
/-! PROOF. A trap of a slot that runs no task and whose save is said to wait (R237, R238). -/

namespace Sys2Proof.Machine

/-- Slot 0 runs no task and is marked as waiting for a save; the trap ring at 0x8000 has room. -/
def savingNothing : State :=
  { State.reset with slots := [(0, { Slot.reset with saving := true })], trRing := 1, trTail := 5 }

theorem savingNothing_slot : (savingNothing.slot 0).task = none ∧ (savingNothing.slot 0).sbuf = [] ∧ (savingNothing.slot 0).record = none ∧
    savingNothing.notices = [] ∧ savingNothing.trRing ≠ 0 ∧ savingNothing.trHead + 1 ≠ savingNothing.trTail := by decide +kernel

theorem savingNothing_open : savingNothing.openAt (savingNothing.trRing.toNat * 32768 + savingNothing.trHead.toNat * 32) 32 := by decide +kernel

/-- The slot's report waits for the save, so that no notice enters the ring. -/
theorem savingNothing_trHead : (savingNothing.takeTrap 0 Cause.illegal 0 0).trHead = savingNothing.trHead := by decide +kernel

/-- Refutes O47: its clause on the notice of a slot that runs no task has no premise that the slot's save does not wait, and State.report waits for one (R237). In
savingNothing the slot is marked so and runs no task, a mark that a task's trap alone sets; the statement speaks of every state. -/
theorem not_trapEntry : ¬ Obligations.TrapEntry := by
  intro h
  obtain ⟨-, -, hnoTask, -⟩ := h
  obtain ⟨htask, hsbuf, hrecord, hnotices, hring, hroom⟩ := savingNothing_slot
  obtain ⟨-, -, -, hnotice⟩ := hnoTask savingNothing 0 Cause.illegal 0 0 htask
  obtain ⟨-, -, -, -, -, -, -, -, hhead, -⟩ := hnotice hsbuf hrecord hnotices hring hroom savingNothing_open
  rw [savingNothing_trHead] at hhead
  exact absurd hhead (by decide +kernel)

end Sys2Proof.Machine
end
section
/-! PROOF. The step of a slot, and the fetch on the firmware column (R269, R275 to R277, R427). -/

namespace Sys2Proof.Machine

/-! ### The step of a ready slot -/

theorem step_ready {s : State} (hagenda : s.agenda = []) (hboot : s.boot = .up) (hready : s.ready s.cur = true) : step s = runSlot s := by
  have hidle : step s = runIdle s := by
    unfold step
    rw [hagenda]
  have hnext : s.nextSlot = some s.cur := if_pos hready
  rw [hidle]
  unfold runIdle
  split
  · next h => exact nomatch hboot.symm.trans h
  · next h => exact nomatch hboot.symm.trans h
  · rw [hnext]

theorem step_fetched {s s1 : State} {i : Instr} (hagenda : s.agenda = []) (hboot : s.boot = .up) (hready : s.ready s.cur = true) (hfetch : s.fetch = .ok i s1) :
    step s = exec i s1 := by
  have hcan : s.canRun s.cur = true := ((Bool.and_eq_true _ _).mp hready).1
  rw [step_ready hagenda hboot hready]
  simp only [runSlot, hcan, if_true, hfetch]

/-! ### Words of memory -/

/-- Word j of the code at an address. -/
def codeWord (m : Mem) (p j : Nat) : Half := BitVec.ofNat 16 (natOf (memRead m (p + 2 * j) 2))

theorem append_eq_ofNat (lo hi : Byte) : (hi ++ lo : BitVec 16) = BitVec.ofNat 16 (natOf [lo, hi]) := by
  apply BitVec.eq_of_toNat_eq
  have hlo := lo.isLt
  have hhi := hi.isLt
  rw [BitVec.toNat_append, BitVec.toNat_ofNat, Nat.shiftLeft_eq, Nat.mul_comm, ← Nat.two_pow_add_eq_or_of_lt hlo]
  simp only [natOf]
  omega

theorem wordsOf_memRead (m : Mem) (p : Nat) (n k : Nat) : wordsOf (memRead m (p + 2 * k) (2 * n)) = (List.range' k n).map (codeWord m p) := by
  induction n generalizing k with
  | zero => rfl
  | succ n ih =>
    rw [List.range'_succ, List.map_cons, ← ih (k + 1)]
    refine List.cons_eq_cons.mpr ⟨append_eq_ofNat _ _, ?_⟩
    rfl

/-! ### The fetch of a firmware slot (R427) -/

/-- A state in which the fetch of a firmware slot has read some words: the slot's core has an instruction cache of its own, and nothing else has changed. -/
def State.Fetching (s t : State) (ic : PMap Half) : Prop :=
  t.myCore.icache = ic ∧ (t = s ∨ t = s.setCore (coreOf s.cur) { s.myCore with icache := ic })

section Fetch
variable {s t : State} {ic : PMap Half} (ht : s.Fetching t ic)
include ht

theorem State.Fetching.put (ic' : PMap Half) : t.modMyCore (fun k => { k with icache := ic' }) = s.setCore (coreOf s.cur) { s.myCore with icache := ic' } := by
  obtain ⟨-, rfl | rfl⟩ := ht
  · rfl
  · rw [State.modMyCore_eq, State.setCore_cur, State.setCore_myCore, State.setCore_setCore]

theorem State.Fetching.updHolders {sec : Nat} (h : s.updHolders sec = []) : t.updHolders sec = [] := by
  obtain ⟨-, rfl | rfl⟩ := ht
  · exact h
  · have hall : (s.cores.all fun q => !q.2.holdsUpd sec) = true := by
      rw [State.updHolders, List.map_eq_nil_iff, List.filter_eq_nil_iff] at h
      exact List.all_eq_true.mpr fun q hq => by rw [Bool.eq_false_iff.mpr (h q hq)]; rfl
    have hput : ((s.setCore (coreOf s.cur) { s.myCore with icache := ic }).cores.all fun q => !q.2.holdsUpd sec) = true :=
      pmap_all_put hall (pmap_get_all (p := fun c : Core => !c.holdsUpd sec) hall rfl (coreOf s.cur))
    rw [State.updHolders, List.map_eq_nil_iff, List.filter_eq_nil_iff]
    exact fun q hq hholds => by
      have := List.all_eq_true.mp hput q hq
      rw [hholds] at this
      exact Bool.noConfusion this

/-- A word of clean device memory that the cache has not read yet is fetched as it stands, and the cache holds it. -/
theorem State.Fetching.fetchWord {p n : Nat} (hfw : s.isFw s.cur = true) (hopen : s.openAt p n) {a : Addr} (hlo : p ≤ a.toNat) (hhi : a.toNat + 2 ≤ p + n)
    (hnew : ic.find a.toNat = none) (hroom : ic.length < 16384) :
    ∃ t', t.fetchWord a = .ok (BitVec.ofNat 16 (natOf (memRead s.mem a.toNat 2))) t' ∧
      t' = s.setCore (coreOf s.cur) { s.myCore with icache := ic.put a.toNat (BitVec.ofNat 16 (natOf (memRead s.mem a.toNat 2))) } := by
  obtain ⟨hend, hlocked, -, hcopies, hguest, hclean, -⟩ := hopen
  have hsub : sectorsOf a.toNat 2 ⊆ sectorsOf p n := by
    have h := sectorsOf_within p (off := a.toNat - p) (k := 2) (n := n) (by omega)
    rwa [Nat.add_sub_cancel' hlo] at h
  have hregion : ∀ {u : State}, u.regionOf a.toNat = .device := State.regionOf_device _ (by omega)
  have hsame : t.commits = s.commits ∧ t.poison = s.poison ∧ t.guest = s.guest ∧ t.mem = s.mem ∧ t.isFw t.cur = s.isFw s.cur := by
    obtain ⟨-, rfl | rfl⟩ := ht <;> exact ⟨rfl, rfl, rfl, rfl, rfl⟩
  obtain ⟨hcommits, hpoison, hheld, hmem, hfw'⟩ := hsame
  have hdev : (isDevice a.toNat && isDevice (a.toNat + 1)) = true := by
    rw [isDevice, isDevice, decide_eq_true (by omega), decide_eq_true (by omega)]
    rfl
  have hfree : t.locked a.toNat 2 = false := by
    have hwhole : (!s.commits.isEmpty && (sectorsOf p n).any s.lockedSec) = false := hlocked
    have hpart : (!s.commits.isEmpty && (sectorsOf a.toNat 2).any s.lockedSec) = false := by
      rw [Bool.and_eq_false_imp] at hwhole ⊢
      exact fun h => List.any_eq_false.mpr fun sec hsec => List.any_eq_false.mp (hwhole h) sec (hsub hsec)
    unfold State.locked State.lockedSec
    rw [hcommits]
    exact hpart
  have hsound : t.poisoned a.toNat 2 = false := by
    rw [State.poisoned, State.regionOf_device s (by omega)] at hclean
    rw [State.poisoned, hregion, hpoison]
    exact List.any_eq_false.mpr fun sec hsec => List.any_eq_false.mp hclean sec (hsub hsec)
  have hrecall : t.recallRange a.toNat 2 = t := State.recallRange_unheld (by rw [hheld, hguest]) fun sec hsec => ht.updHolders (hcopies sec (hsub hsec))
  have hpeek : t.peek a.toNat 2 = memRead s.mem a.toNat 2 := by
    rw [State.peek, if_pos (by omega), hmem]
  refine ⟨_, ?_, ht.put _⟩
  obtain ⟨hic, -⟩ := ht
  simp only [State.fetchWord, hfw', hfw, if_true, hdev, hfree, Bool.false_eq_true, if_false, hsound, State.codeAt, hrecall, hpeek, hic, hnew]
  simp only [State.icachePut, hic, decide_eq_true hroom, Bool.true_or, if_true]

end Fetch

theorem PMap.length_put {α : Type} (m : PMap α) (k : Nat) (v : α) : (m.put k v).length ≤ m.length + 1 := by
  induction m with
  | nil => exact Nat.le_refl _
  | cons q rest ih =>
    obtain ⟨i, w⟩ := q
    rw [PMap.put]
    split
    · exact Nat.le_refl _
    · split
      · exact Nat.le_succ _
      · exact Nat.succ_le_succ ih

/-- The cache of a fetch holds the words read so far, and none at or above the next. -/
def CacheBelow (ic : PMap Half) (p k : Nat) : Prop := ic.length ≤ k ∧ ∀ j, k ≤ j → ic.find (p + 2 * j) = none

theorem CacheBelow.put {ic : PMap Half} {p k : Nat} (h : CacheBelow ic p k) (w : Half) : CacheBelow (ic.put (p + 2 * k) w) p (k + 1) := by
  obtain ⟨hlen, hfind⟩ := h
  refine ⟨(PMap.length_put _ _ _).trans (Nat.succ_le_succ hlen), fun j hj => ?_⟩
  rw [PMap.find_put_ne _ _ (by omega), hfind j (by omega)]

theorem scanWords_pos {c : Chain} {n : Nat} : ∀ (ws : List Half) (p : Scan) (k : Nat), scanWords ws p k = .chain c n → k < n
  | [], _, _, h => nomatch h
  | w :: ws, p, k, h => by
    rw [scanWords] at h
    split at h
    · obtain ⟨-, rfl⟩ := Scanned.chain.inj h
      exact Nat.lt_succ_self k
    · exact nomatch h
    · exact (Nat.lt_succ_self k).trans (scanWords_pos ws _ _ h)

/-- A chain that the words of clean device memory hold is fetched as it stands. -/
theorem State.fetchGo_chain {s : State} {n n' : Nat} {c : Chain} (hfw : s.isFw s.cur = true) (hopen : s.openAt s.me.pc.toNat (2 * n)) :
    ∀ (fuel m k : Nat) (t : State) (ic : PMap Half) (scan : Scan), s.Fetching t ic → CacheBelow ic s.me.pc.toNat k → k + fuel ≤ 6 → k + m = n →
      n' ≤ k + fuel → scanWords ((List.range' k m).map (codeWord s.mem s.me.pc.toNat)) scan k = .chain c n' →
      ∃ ic', State.fetchGo s.me.pc fuel t k scan = .chain c n' (s.setCore (coreOf s.cur) { s.myCore with icache := ic' })
  | fuel, 0, k, t, ic, scan, _, _, _, _, _, h => nomatch h
  | 0, m + 1, k, t, ic, scan, _, _, _, _, hlen, h =>
    absurd (scanWords_pos _ _ _ h) (Nat.not_lt.mpr hlen)
  | fuel + 1, m + 1, k, t, ic, scan, ht, hic, hfuel, hn, hlen, h => by
    have hend : s.me.pc.toNat + 2 * n ≤ 2 ^ 38 := hopen.1
    have haddr : (s.me.pc + BitVec.ofNat 48 (2 * k)).toNat = s.me.pc.toNat + 2 * k := by
      rw [BitVec.toNat_add, BitVec.toNat_ofNat, Nat.mod_eq_of_lt (by omega : 2 * k < 2 ^ 48), Nat.mod_eq_of_lt (by omega)]
    have hroom : ic.length < 16384 := by
      have := hic.1
      omega
    obtain ⟨t', hword, rfl⟩ := ht.fetchWord hfw hopen (a := s.me.pc + BitVec.ofNat 48 (2 * k)) (by omega) (by omega)
      (by rw [haddr]; exact hic.2 k (Nat.le_refl k)) hroom
    rw [haddr] at hword
    have hcode : t.fetchWord (s.me.pc + BitVec.ofNat 48 (2 * k)) = .ok (codeWord s.mem s.me.pc.toNat k) _ := hword
    rw [List.range'_succ, List.map_cons, scanWords] at h
    cases hscan : scan.word (codeWord s.mem s.me.pc.toNat k) with
    | whole c' =>
      rw [hscan] at h
      obtain ⟨rfl, rfl⟩ := Scanned.chain.inj h
      simp only [State.fetchGo, hcode, hscan]
      exact ⟨_, rfl⟩
    | broken =>
      rw [hscan] at h
      exact nomatch h
    | more p' =>
      rw [hscan] at h
      simp only [State.fetchGo, hcode, hscan]
      exact State.fetchGo_chain hfw hopen fuel m (k + 1) _ _ p' ⟨congrArg Core.icache (State.setCore_myCore _ _), .inr rfl⟩ (hic.put _) (by omega) (by omega)
        (by omega) h

/-- The fetch of a firmware slot whose cache is empty reads the chain at its pc (R427). -/
theorem State.fetch_firmware {s : State} {i : Instr} {n : Nat} (hfw : s.isFw s.cur = true) (hxfer : s.me.xfer = false) (hcold : s.myCore.icache = [])
    (hopen : s.openAt s.me.pc.toNat (2 * n)) (hdecode : decodeBytes (memRead s.mem s.me.pc.toNat (2 * n)) = .instr i n) :
    ∃ ic, s.fetch = .ok i ((s.setCore (coreOf s.cur) { s.myCore with icache := ic }).setSlot s.cur
      { s.me with npc := s.me.pc + BitVec.ofNat 48 (2 * n), xfer := false }) := by
  have hwords : wordsOf (memRead s.mem s.me.pc.toNat (2 * n)) = (List.range' 0 n).map (codeWord s.mem s.me.pc.toNat) := wordsOf_memRead s.mem _ n 0
  rw [decodeBytes, hwords, decodeWords] at hdecode
  split at hdecode
  · next c n' hscan =>
    split at hdecode
    · next i' hchain =>
      obtain ⟨rfl, rfl⟩ := Decoded.instr.inj hdecode
      have hlen := scanWords_length (p := Scan.start) (Nat.zero_le 4) hscan
      obtain ⟨ic, hgo⟩ := State.fetchGo_chain hfw hopen 6 n' 0 s [] Scan.start ⟨hcold, .inl rfl⟩ ⟨Nat.le_refl 0, fun _ _ => rfl⟩ (Nat.le_refl 6) (Nat.zero_add _)
        (by omega) hscan
      refine ⟨ic, ?_⟩
      unfold State.fetch
      simp only [hxfer, Bool.false_eq_true, if_false, Got.bind, hgo, hchain]
      rfl
    · exact nomatch hdecode
  · exact nomatch hdecode
  · exact nomatch hdecode

end Sys2Proof.Machine
end
section
/-! PROOF. An instruction whose guard is false (R298). -/

namespace Sys2Proof.Machine

/-- The predicate instructions, which act whatever the guard (R298, R302). -/
def predicateInstr : Instr → Bool
  | .cmpEq _ _ | .cmpNe _ _ | .cmpLt _ _ | .cmpGe _ _ | .cmpLtN _ _ | .cmpGeN _ _ | .cmpiEq _ _ | .cmpiLt _ _ => true
  | .fcmpEq _ _ _ | .fcmpLt _ _ _ | .fcmpLe _ _ _ | .pand | .por | .pnot | .pend => true
  | _ => false

section Skips
variable {s : State} (hguard : s.me.guard = false) (hpacket : s.me.packet = none)
include hguard hpacket

theorem firmwareOnly_skips (hfw : s.isFw s.cur = true) (e : Eff) : firmwareOnly s e = .next s.advance := by
  simp only [firmwareOnly, hfw, if_true, State.packetRule, hpacket, Option.isSome_none, Bool.false_eq_true, if_false, hguard, finish_next]

theorem exec_vsqrt_skips (d r : Reg) (m : VMod) : exec (.vsqrt d r m) s = .next s.advance := by
  change execVsqrt d r m s = _
  unfold execVsqrt
  split
  · exact guarded_skips hpacket hguard _
  · unfold vflt
    exact guarded_skips hpacket hguard _

/-- Every instruction with an encoding but the predicate ones is guarded. -/
theorem exec_skips {i : Instr} (hencoded : encode i ≠ []) (hplain : predicateInstr i = false) (hfw : ∀ a b c, i = .pgPost a b c ∨ i = .pgReplay a → s.isFw s.cur = true) :
    exec i s = .next s.advance := by
  cases i
  case cmpEq | cmpNe | cmpLt | cmpGe | cmpLtN | cmpGeN | cmpiEq | cmpiLt | fcmpEq | fcmpLt | fcmpLe | pand | por | pnot | pend => exact nomatch hplain
  case unassignedEncoding | trapNoticeRetry | faultRecordRetry | ctxCreate | ctxCommit | ctxSuspend | ctxResume | ctxTeardown | ctxFault |
    ctxDeviceFault | ctxStopComplete | ctxDrained | grpLaunch | groupRelease | groupDrained | groupBrokenFreed | enqueueArrive | enqueueAck |
    replayBackoffExpiry | taskDispatch | takeServe | takeReply | takeReprobe | taskCommit | commitLockAcquire | timedCommitStart | waitSatisfiedNotice
    | monitorPoll | waitTimeout | waitHoldExpiry | parkEntryFree | barrierRegisterRetry | msgDeliver | deferralExpiry | futureCancel | storeComplete |
    llcFill | llcWriteback | updateOnlyRecall | updateOnlyEvict | tlbMissWalk | softErrorCorrected | uncorrectableError | engineCommandStart |
    engineTranslationFault | engineCommandFail | engineCommandComplete | mmaComplete | ringPass | subarrayWake | subarrayPowerGate | apertureRead |
    apertureWrite | stopTakeEffect | frameSaveComplete | slResume | slSkip | slAbandon | watchdogExpiry | hangPing | lkEnable | lkRetrain | lkFence |
    lkUnfence | linkTrainedFull | linkTrainedReduced | linkTrainingFail | linkTrainingTimeout | linkErrorThreshold | flitCrcReplay | gqEnable |
    gqDisable | guestReadReport | guestPacketComplete | guestTranslationRequest | guestFaultRecord | guestCoherentAccess | guestInvalidationAck |
    guestQuiesced | guestBoundExpiry | attest | mailboxFwOp | mailboxComplete | hostEventWordWrite | hostBar0Write | hostMemoryAccess | hwWinWrite |
    coldReset | powerSample | clampStep | rngStateWrite | fpCtlWrite | prStkWrite | skewCfgWrite | rqRecipeWrite | rqBackoffWrite | memDbgWrite |
    futCtlClear | errStatClear | gbStatClear | wdCtlWrite | gsCtlWrite | pwLimWrite | rtCfgWrite | fwWallWrite | trRingWrite | firmwareFence |
    spareColumnRemap | peerRouteReport => exact absurd rfl hencoded
  case pgPost a b c => exact (firmwareOnly_skips hguard hpacket (hfw a b c (.inl rfl)) _ : execPgPost a b c s = _)
  case pgReplay a => exact (firmwareOnly_skips hguard hpacket (hfw a 0 0 (.inr rfl)) _ : execPgReplay a s = _)
  case hint v => exact (always_acts hpacket _ : execHint v s = _)
  case vsqrt d r m => exact exec_vsqrt_skips hguard hpacket d r m
  case msgPut a => exact exec_msgPut_skips hguard a
  case msgEnd => exact exec_msgEnd_skips hpacket hguard
  all_goals
    simp only [exec]
    exact guarded_skips hpacket hguard _

end Skips

/-- Settles O56. -/
theorem stepRunsDecodedInstruction : Obligations.StepRunsDecodedInstruction := by
  refine ⟨fun s s1 i => step_fetched, fun s i n hagenda hboot hready hfw hxfer hcold hopen hdecode => ?_,
    fun s i hguard hpacket => ?_⟩
  · obtain ⟨ic, hfetch⟩ := State.fetch_firmware hfw hxfer hcold hopen hdecode
    exact ⟨ic, step_fetched hagenda hboot hready hfetch⟩
  · intro whatever checked hwf hencoded hplain hfw
    have hpredicate : predicateInstr i = false := hplain
    refine exec_skips hguard hpacket hencoded hpredicate ?_
    rintro a b c (rfl | rfl)
    · exact hfw rfl
    · exact hfw rfl

end Sys2Proof.Machine
end

section
/-! PROOF. The forms that every step keeps: memories in canonical form, vl within NMAX and the predicate depth within 16 (R300, R348; log 3). -/

namespace Sys2Proof.Machine

/-! ### The invariant, of a state and of what an operation answers -/

/-- The fields of a slot that have a range hold a value of it. -/
def Slot.Forms (q : Slot) : Prop := q.wf = true

/-- The TCM of a core is in canonical form. -/
def Core.Forms (c : Core) : Prop := Mem.wf c.tcm = true

/-- The scratchpad of a grove is in canonical form. -/
def Grove.Forms (g : Grove) : Prop := Mem.wf g.scratch = true

/-- Every memory of the module is in canonical form, and every slot's fields are in range. -/
def State.Forms (s : State) : Prop := s.memsWf = true ∧ s.slotsWf = true

/-- The state that an effect carries is in form. -/
def Eff.Forms : Eff → Prop
  | .next s => s.Forms
  | .jump s _ => s.Forms
  | .hold s => s.Forms
  | .left s => s.Forms
  | .trap s _ _ _ => s.Forms
  | .xfault s _ _ => s.Forms

/-- The state behind an operation, or the one that it stops with, is in form. -/
def Got.Forms {α : Type} : Got α → Prop
  | .ok _ s => s.Forms
  | .no e => e.Forms

/-- A next state is in form. -/
def outForms : Out → Prop
  | .next s => s.Forms
  | .fault _ => True
  | .refused _ => True

/-- What a fetch of a chain gives is in form. -/
def Fetched.Forms : Fetched → Prop
  | .chain _ _ s => s.Forms
  | .broken _ s => s.Forms
  | .bad e => e.Forms

/-- What a move of an engine leads to is in form. -/
def EngMove.Forms : EngMove → Prop
  | .more s => s.Forms
  | .done s => s.Forms
  | .stop _ => True

/-- What an optional answer holds. -/
def optForms {α : Type} (P : α → Prop) : Option α → Prop
  | some a => P a
  | none => True

/-- What an operation that may fail without a state answers. -/
def exForms {ε α : Type} (P : α → Prop) : Except ε α → Prop
  | .ok a => P a
  | .error _ => True

/-- An operation that may fail with an effect: what it fails with. -/
def errForms {α : Type} : Except Eff α → Prop
  | .ok _ => True
  | .error e => e.Forms

section Carried
variable {s : State} (h : s.Forms)
include h

theorem Eff.Forms.next : (Eff.next s).Forms := h
theorem Eff.Forms.trap {c : Nat} {a : Word} {p : Nat} : (Eff.trap s c a p).Forms := h
theorem Eff.Forms.xfault {f : XFault} {a : Word} : (Eff.xfault s f a).Forms := h
theorem Got.Forms.ok {α : Type} {v : α} : (Got.ok v s).Forms := h
omit h in
theorem Got.Forms.no {α : Type} {e : Eff} (h : e.Forms) : (Got.no e : Got α).Forms := h
theorem outForms.next : outForms (.next s) := h

end Carried

/-! ### What an update leaves as it was -/

theorem State.Forms.same {s t : State} (h : s.Forms)
    (e : (t.mem, t.hostMem, t.flash, t.mbReq, t.mbResp, t.cores, t.groves, t.slots) = (s.mem, s.hostMem, s.flash, s.mbReq, s.mbResp, s.cores, s.groves, s.slots)) :
    t.Forms := by
  simp only [Prod.mk.injEq] at e
  obtain ⟨e1, e2, e3, e4, e5, e6, e7, e8⟩ := e
  unfold State.Forms State.memsWf State.slotsWf at h ⊢
  rw [e1, e2, e3, e4, e5, e6, e7, e8]
  exact h

/-- An update of a state that leaves these fields as they were keeps the form. -/
theorem State.Forms.upd {s : State} (h : s.Forms)
    {stands dirty strong undef late wbOrs poison tags gatesList deferrals ctxs groups nextGroup tasks commits drafts owed notices guestBad tick fwcol : _}
    {fwwidth spare remaps wake ctxBase modX modY boMax boBase hlPool rtCfg tableMade pgDirty gqBase gsLock gsBound trRing trHead trTail pwLim pwTable pwAvg : _}
    {pwStep pwLog pwAt pwSince lkCtl gqCtl recipes hwBase hwLimit links guest hostHeld eventWord mbCmd mbTold vectors apertures reply hostSrc hostRec : _}
    {bootWord boot roles measures ctxQ grpQ claimAt slQ lkQ gqQ cur agenda fresh : _} :
    State.Forms { s with
      stands, dirty, strong, undef, late, wbOrs, poison, tags, gatesList, deferrals, ctxs, groups, nextGroup, tasks, commits, drafts, owed, notices
      guestBad, tick, fwcol, fwwidth, spare, remaps, wake, ctxBase, modX, modY, boMax, boBase, hlPool, rtCfg, tableMade, pgDirty, gqBase, gsLock, gsBound
      trRing, trHead, trTail, pwLim, pwTable, pwAvg, pwStep, pwLog, pwAt, pwSince, lkCtl, gqCtl, recipes, hwBase, hwLimit, links, guest, hostHeld
      eventWord, mbCmd, mbTold, vectors, apertures, reply, hostSrc, hostRec, bootWord, boot, roles, measures, ctxQ, grpQ, claimAt, slQ, lkQ, gqQ, cur
      agenda, fresh } :=
  h

/-- An update of a slot that leaves these fields as they were keeps the form. -/
theorem Slot.Forms.upd {q : Slot} (h : q.Forms)
    {x v k pc npc fpCtl rng prVals faultCause faultAddr faultPc wtHold memWindow memMix futLife futRefused futStatus hampers gens stack taskH qhandles : _}
    {qgens packet inbox task ctx cls grp sig wait sbuf fsrc st stop held stall saving reserved notice record since xfer take probeAt : _} :
    Slot.Forms { q with
      x, v, k, pc, npc, fpCtl, rng, prVals, faultCause, faultAddr, faultPc, wtHold, memWindow, memMix, futLife, futRefused, futStatus, hampers, gens, stack
      taskH, qhandles, qgens, packet, inbox, task, ctx, cls, grp, sig, wait, sbuf, fsrc, st, stop, held, stall, saving, reserved, notice, record, since
      xfer, take, probeAt } :=
  h

/-- An update of a core that leaves these fields as they were keeps the form. -/
theorem Core.Forms.upd {c : Core} (h : c.Forms)
    {ovflim utop hamper spill frame skewEn skewBase skewRows ltEn ltOff ovfBase accSv acc accSat accFree fmt owner cbs copyEng gathEng ringIn ringOut mma : _}
    {icache dtlb itlb upd ctxCmd grpLaunch slCmd : _} :
    Core.Forms { c with
      ovflim, utop, hamper, spill, frame, skewEn, skewBase, skewRows, ltEn, ltOff, ovfBase, accSv, acc, accSat, accFree, fmt, owner, cbs, copyEng, gathEng
      ringIn, ringOut, mma, icache, dtlb, itlb, upd, ctxCmd, grpLaunch, slCmd } :=
  h

/-- An update of a grove that leaves these fields as they were keeps the form. -/
theorem Grove.Forms.upd {g : Grove} (h : g.Forms)
    {corr uncorr fenced wdRun wdHang trRegion trFilt trHead trEn trace latDc latU turns results l2tlb parks window refusals resendAt missed gated waking : _}
    {serving lastMma pingAt barReg dbg fsrcRule poisonTcm poisonScr poisonLat wallLock wallBits routes : _} :
    Grove.Forms { g with
      corr, uncorr, fenced, wdRun, wdHang, trRegion, trFilt, trHead, trEn, trace, latDc, latU, turns, results, l2tlb, parks, window, refusals, resendAt
      missed, gated, waking, serving, lastMma, pingAt, barReg, dbg, fsrcRule, poisonTcm, poisonScr, poisonLat, wallLock, wallBits, routes } :=
  h

/-! ### What an answer that has been taken apart holds -/

section Parts
variable {α β γ : Type}

theorem Got.ok_forms {g : Got α} {a : α} {t : State} (e : g = .ok a t) (h : g.Forms) : t.Forms := by rw [e] at h; exact h
theorem Got.no_forms {g : Got α} {f : Eff} (e : g = .no f) (h : g.Forms) : f.Forms := by rw [e] at h; exact h
theorem Eff.forms_of_eq {f g : Eff} (e : f = g) (h : f.Forms) : g.Forms := e ▸ h
theorem outForms_next {o : Out} {t : State} (e : o = .next t) (h : outForms o) : t.Forms := by rw [e] at h; exact h
theorem optForms_some {o : Option State} {t : State} (e : o = some t) (h : optForms State.Forms o) : t.Forms := by rw [e] at h; exact h
theorem optForms_some_eff {o : Option Eff} {t : Eff} (e : o = some t) (h : optForms Eff.Forms o) : t.Forms := by rw [e] at h; exact h
theorem optForms_some_snd {o : Option (α × State)} {a : α} {t : State} (e : o = some (a, t)) (h : optForms (fun p => p.2.Forms) o) : t.Forms := by
  rw [e] at h; exact h
theorem exForms_ok_snd {ε : Type} {o : Except ε (α × State)} {a : α} {t : State} (e : o = .ok (a, t)) (h : exForms (fun p => p.2.Forms) o) : t.Forms := by
  rw [e] at h; exact h
theorem exForms_ok_snd_snd {ε : Type} {o : Except ε (α × β × State)} {a : α} {b : β} {t : State} (e : o = .ok (a, b, t))
    (h : exForms (fun p => p.2.2.Forms) o) : t.Forms := by rw [e] at h; exact h
theorem errForms_error {o : Except Eff α} {f : Eff} (e : o = .error f) (h : errForms o) : f.Forms := by rw [e] at h; exact h
theorem errForms_map {f : α → β} {o : Except Eff α} (h : errForms o) : errForms (o.map f) := by cases o <;> exact h
theorem Fetched.forms_of_eq {f g : Fetched} (e : f = g) (h : f.Forms) : g.Forms := e ▸ h
theorem EngMove.forms_of_eq {f g : EngMove} (e : f = g) (h : f.Forms) : g.Forms := e ▸ h
theorem forms_fst {p : State × α} {t : State} {a : α} (e : p = (t, a)) (h : p.1.Forms) : t.Forms := by rw [e] at h; exact h
theorem forms_snd {p : α × State} {t : State} {a : α} (e : p = (a, t)) (h : p.2.Forms) : t.Forms := by rw [e] at h; exact h
theorem forms_snd_snd {p : α × β × State} {t : State} {a : α} {b : β} (e : p = (a, b, t)) (h : p.2.2.Forms) : t.Forms := by rw [e] at h; exact h

end Parts

section Choices
variable {c : Prop} [Decidable c]

theorem State.ite_forms {s t : State} (hs : s.Forms) (ht : t.Forms) : (if c then s else t).Forms := by split <;> assumption
theorem Slot.ite_forms {q r : Slot} (hq : q.Forms) (hr : r.Forms) : (if c then q else r).Forms := by split <;> assumption
theorem Core.ite_forms {x y : Core} (hx : x.Forms) (hy : y.Forms) : (if c then x else y).Forms := by split <;> assumption
theorem Grove.ite_forms {g f : Grove} (hg : g.Forms) (hf : f.Forms) : (if c then g else f).Forms := by split <;> assumption
theorem Eff.ite_forms {e f : Eff} (he : e.Forms) (hf : f.Forms) : (if c then e else f).Forms := by split <;> assumption
theorem Got.ite_forms {α : Type} {g f : Got α} (hg : g.Forms) (hf : f.Forms) : (if c then g else f).Forms := by split <;> assumption
theorem ite_outForms {o p : Out} (ho : outForms o) (hp : outForms p) : outForms (if c then o else p) := by split <;> assumption

end Choices

/-! ### Units -/

theorem State.forms_iff (s : State) : s.Forms ↔ Mem.wf s.mem = true ∧ Mem.wf s.hostMem = true ∧ Mem.wf s.flash = true ∧ Mem.wf s.mbReq = true ∧
    Mem.wf s.mbResp = true ∧ (∀ q ∈ s.cores, q.2.Forms) ∧ (∀ q ∈ s.groves, q.2.Forms) ∧ ∀ q ∈ s.slots, q.2.Forms := by
  rw [State.Forms, State.memsWf_iff, State.slotsWf, List.all_eq_true, List.all_eq_true, List.all_eq_true]
  simp only [and_assoc]
  rfl

section Units
variable {s : State} (h : s.Forms)
include h

omit h in
theorem Slot.forms_iff (q : Slot) : q.Forms ↔ q.vl.toNat ≤ shapeMax q.vshape.toNat ∧ q.prDepth.toNat ≤ 16 := by
  unfold Slot.Forms Slot.wf
  rw [Bool.and_eq_true, decide_eq_true_iff, decide_eq_true_iff]
  rfl

theorem State.slot_forms (k : Nat) : (s.slot k).Forms := pmap_get_all (p := Slot.wf) h.2 rfl k
theorem State.me_forms : s.me.Forms := s.slot_forms h s.cur
theorem State.core_forms (k : Nat) : (s.core k).Forms := State.core_tcm_wf h.1 k
theorem State.grove_forms (k : Nat) : (s.grove k).Forms := State.grove_scratch_wf h.1 k

theorem State.setSlot_forms {k : Nat} {v : Slot} (hv : v.Forms) : (s.setSlot k v).Forms := ⟨State.setSlot_memsWf h.1 k v, pmap_all_put h.2 hv⟩
theorem State.setCore_forms {k : Nat} {v : Core} (hv : v.Forms) : (s.setCore k v).Forms := ⟨State.setCore_memsWf h.1 k hv, h.2⟩
theorem State.setGrove_forms {k : Nat} {v : Grove} (hv : v.Forms) : (s.setGrove k v).Forms := ⟨State.setGrove_memsWf h.1 k hv, h.2⟩

theorem State.modSlot_forms {k : Nat} {f : Slot → Slot} (hf : ∀ q : Slot, q.Forms → (f q).Forms) : (s.modSlot k f).Forms :=
  State.setSlot_forms h (hf _ (s.slot_forms h k))
theorem State.modMe_forms {f : Slot → Slot} (hf : ∀ q : Slot, q.Forms → (f q).Forms) : (s.modMe f).Forms := State.modSlot_forms h hf
theorem State.modCore_forms {k : Nat} {f : Core → Core} (hf : ∀ c : Core, c.Forms → (f c).Forms) : (s.modCore k f).Forms :=
  State.setCore_forms h (hf _ (s.core_forms h k))
theorem State.modMyCore_forms {f : Core → Core} (hf : ∀ c : Core, c.Forms → (f c).Forms) : (s.modMyCore f).Forms := State.modCore_forms h hf
theorem State.modGrove_forms {k : Nat} {f : Grove → Grove} (hf : ∀ g : Grove, g.Forms → (f g).Forms) : (s.modGrove k f).Forms :=
  State.setGrove_forms h (hf _ (s.grove_forms h k))
theorem State.modMyGrove_forms {f : Grove → Grove} (hf : ∀ g : Grove, g.Forms → (f g).Forms) : (s.modMyGrove f).Forms := State.modGrove_forms h hf

/-- A change of slots that keeps each one's form. -/
theorem State.mapSlots_forms {f : Nat × Slot → Slot} (hf : ∀ q : Nat × Slot, q.2.Forms → (f q).Forms) :
    State.Forms { s with slots := s.slots.map fun q => (q.1, f q) } := by
  refine ⟨h.1, List.all_eq_true.mpr fun q hq => ?_⟩
  obtain ⟨p, hp, rfl⟩ := List.mem_map.mp hq
  exact hf p (List.all_eq_true.mp h.2 p hp)

/-- A change of cores that keeps each one's form. -/
theorem State.mapCores_forms {f : Nat × Core → Core} (hf : ∀ q : Nat × Core, q.2.Forms → (f q).Forms) :
    State.Forms { s with cores := s.cores.map fun q => (q.1, f q) } := by
  rw [State.forms_iff] at h ⊢
  obtain ⟨h1, h2, h3, h4, h5, hc, hg, hs⟩ := h
  refine ⟨h1, h2, h3, h4, h5, fun q hq => ?_, hg, hs⟩
  obtain ⟨p, hp, rfl⟩ := List.mem_map.mp hq
  exact hf p (hc p hp)

/-- A change of groves that keeps each one's form. -/
theorem State.mapGroves_forms {f : Nat × Grove → Grove} (hf : ∀ q : Nat × Grove, q.2.Forms → (f q).Forms) :
    State.Forms { s with groves := s.groves.map fun q => (q.1, f q) } := by
  rw [State.forms_iff] at h ⊢
  obtain ⟨h1, h2, h3, h4, h5, hc, hg, hs⟩ := h
  refine ⟨h1, h2, h3, h4, h5, hc, fun q hq => ?_, hs⟩
  obtain ⟨p, hp, rfl⟩ := List.mem_map.mp hq
  exact hf p (hg p hp)

omit h in
/-- A fold of steps that each keep the form keeps it. -/
theorem foldl_forms {α : Type} {f : State → α → State} {l : List α} (h : s.Forms) (hf : ∀ (t : State) (a : α), t.Forms → (f t a).Forms) : (l.foldl f s).Forms := by
  induction l generalizing s with
  | nil => exact h
  | cons a l ih => exact ih (hf s a h)

omit h in
theorem foldl_forms_fst {α β : Type} {f : State × β → α → State × β} {l : List α} {p : State × β} (h : p.1.Forms)
    (hf : ∀ (p : State × β) (a : α), p.1.Forms → (f p a).1.Forms) : (l.foldl f p).1.Forms := by
  induction l generalizing p with
  | nil => exact h
  | cons a l ih => exact ih (hf p a h)

omit h in
theorem foldl_forms_snd {α β : Type} {f : β × State → α → β × State} {l : List α} {p : β × State} (h : p.2.Forms)
    (hf : ∀ (p : β × State) (a : α), p.2.Forms → (f p a).2.Forms) : (l.foldl f p).2.Forms := by
  induction l generalizing p with
  | nil => exact h
  | cons a l ih => exact ih (hf p a h)

omit h in
theorem foldl_forms_opt {α β : Type} {P : β → Prop} {f : Option β → α → Option β} {l : List α} {o : Option β} (h : optForms P o)
    (hf : ∀ (o : Option β) (a : α), optForms P o → optForms P (f o a)) : optForms P (l.foldl f o) := by
  induction l generalizing o with
  | nil => exact h
  | cons a l ih => exact ih (hf o a h)

omit h in
theorem foldl_forms_ex {ε α β : Type} {P : β → Prop} {f : Except ε β → α → Except ε β} {l : List α} {o : Except ε β} (h : exForms P o)
    (hf : ∀ (o : Except ε β) (a : α), exForms P o → exForms P (f o a)) : exForms P (l.foldl f o) := by
  induction l generalizing o with
  | nil => exact h
  | cons a l ih => exact ih (hf o a h)

omit h in
theorem foldl_forms_slot {α : Type} {f : Slot → α → Slot} {l : List α} {q : Slot} (h : q.Forms)
    (hf : ∀ (q : Slot) (a : α), q.Forms → (f q a).Forms) : (l.foldl f q).Forms := by
  induction l generalizing q with
  | nil => exact h
  | cons a l ih => exact ih (hf q a h)

omit h in
theorem foldr_forms {α : Type} {f : α → Eff → Eff} {l : List α} {e : Eff} (h : e.Forms)
    (hf : ∀ (a : α) (e : Eff), e.Forms → (f a e).Forms) : (l.foldr f e).Forms := by
  induction l with
  | nil => exact h
  | cons a l ih => exact hf a _ ih

omit h in
theorem optForms_getD {o : Option State} {d : State} (ho : optForms State.Forms o) (hd : d.Forms) : (o.getD d).Forms := by
  cases o with
  | none => exact hd
  | some a => exact ho

omit h in
theorem optForms_map {α β : Type} {P : β → Prop} {f : α → β} {o : Option α} (h : optForms (fun a => P (f a)) o) : optForms P (o.map f) := by
  cases o with
  | none => trivial
  | some a => exact h

/-- A state of the same slots, in form by its memories. -/
theorem State.forms_of_mems {t : State} (hm : t.memsWf = true) (hslots : t.slots = s.slots) : t.Forms := by
  refine ⟨hm, ?_⟩
  unfold State.slotsWf
  rw [hslots]
  exact h.2

end Units

section Chains
variable {α β : Type} {g : Got α}

theorem Got.andThen_forms (hg : g.Forms) {k : α → State → Eff} (hk : ∀ a t, t.Forms → (k a t).Forms) : (g.andThen k).Forms := by
  cases g with
  | ok a t => exact hk a t hg
  | no e => exact hg

theorem Got.bind_forms (hg : g.Forms) {k : α → State → Got β} (hk : ∀ a t, t.Forms → (k a t).Forms) : (g.bind k).Forms := by
  cases g with
  | ok a t => exact hk a t hg
  | no e => exact hg

end Chains

/-! ### Writes of the memories -/

section Memories
variable {s : State} (h : s.Forms)
include h

theorem State.tcmWrite_forms {core off : Nat} {bs : List Byte} : (s.tcmWrite core off bs).Forms :=
  State.forms_of_mems h (State.tcmWrite_memsWf h.1 core off bs) (congrArg Books.slots (s.tcmWrite_books core off bs))
theorem State.scrWrite_forms {g off : Nat} {bs : List Byte} : (s.scrWrite g off bs).Forms := State.forms_of_mems h (State.scrWrite_memsWf h.1 g off bs) rfl
theorem State.writeBack1_forms {sec : Nat} : (s.writeBack1 sec).Forms :=
  State.forms_of_mems h (State.writeBack1_memsWf h.1 sec) (congrArg Books.slots (s.writeBack1_books sec))
theorem State.devWrite_forms {p : Nat} {inter : Bool} {bs : List Byte} : (s.devWrite p inter bs).Forms :=
  State.forms_of_mems h (State.devWrite_memsWf h.1 p inter bs) (congrArg Books.slots (s.devWrite_books p inter bs))
theorem State.poke_forms {p : Nat} {inter : Bool} {bs : List Byte} : (s.poke p inter bs).Forms :=
  State.forms_of_mems h (State.poke_memsWf h.1 p inter bs) (congrArg Books.slots (s.poke_books p inter bs))
theorem State.recallRange_forms {p n : Nat} : (s.recallRange p n).Forms :=
  State.forms_of_mems h (State.recallRange_memsWf h.1 p n) (congrArg Books.slots (s.recallRange_books p n))
theorem State.recall_forms {sec : Nat} : (s.recall sec).Forms :=
  State.forms_of_mems h (State.recall_memsWf h.1 sec) (congrArg Books.slots (s.recall_books sec))
theorem State.combineCopy_forms {core sec : Nat} : (s.combineCopy core sec).Forms :=
  State.forms_of_mems h (State.combineCopy_memsWf h.1 core sec) (congrArg Books.slots (s.combineCopy_books core sec))
theorem State.recWrite_forms {pa off : Nat} {bs : List Byte} : (s.recWrite pa off bs).Forms :=
  State.forms_of_mems h (State.recWrite_memsWf h.1 pa off bs) (s.recWrite_slots pa off bs)
theorem State.snoop_forms {sec : Nat} : (s.snoop sec).Forms :=
  State.forms_of_mems h (State.snoop_memsWf h.1 sec) (congrArg Books.slots (s.snoop_books sec))
theorem State.undo_forms {sec : Nat} {d : Dram} : (s.undo sec d).Forms := by
  refine State.forms_of_mems h (State.undo_memsWf h.1 sec d) ?_
  unfold State.undo
  split <;> rfl

theorem State.mbResp_forms {a : Nat} {bs : List Byte} : State.Forms { s with mbResp := memWrite s.mbResp a bs } := by
  rw [State.forms_iff] at h ⊢
  obtain ⟨h1, h2, h3, h4, h5, hrest⟩ := h
  exact ⟨h1, h2, h3, h4, memWrite_wf h5 a bs, hrest⟩

theorem State.mbReq_forms {a : Nat} {bs : List Byte} : State.Forms { s with mbReq := memWrite s.mbReq a bs } := by
  rw [State.forms_iff] at h ⊢
  obtain ⟨h1, h2, h3, h4, h5, hrest⟩ := h
  exact ⟨h1, h2, h3, memWrite_wf h4 a bs, h5, hrest⟩

theorem State.mem_forms {a : Nat} {bs : List Byte} : State.Forms { s with mem := memWrite s.mem a bs } := by
  rw [State.forms_iff] at h ⊢
  obtain ⟨h1, hrest⟩ := h
  exact ⟨memWrite_wf h1 a bs, hrest⟩

end Memories

/-! ### Operations of the rule engine -/

/-- A state in form behind every run of the operation from a state in form. -/
def RuleM.Keeps {α : Type} (m : RuleM α) : Prop := ∀ q : QCtx, q.s.Forms → (m.run q).2.s.Forms

section Rules
variable {α β : Type}

theorem RuleM.run_keeps {m : RuleM α} {q : QCtx} (hm : m.Keeps) (hq : q.s.Forms) : (m.run q).2.s.Forms := hm q hq

/-- The state of the operation that has been run. -/
theorem ctx_forms {p : α × QCtx} {a : α} {q : QCtx} (e : p = (a, q)) (h : p.2.s.Forms) : q.s.Forms := by rw [e] at h; exact h

theorem RuleM.pure_keeps {a : α} : RuleM.Keeps (pure a) := fun _ h => h
theorem RuleM.throw_keeps {e : QStop} : RuleM.Keeps (throw e : RuleM α) := fun _ h => h
theorem RuleM.set_keeps {q : QCtx} (h : q.s.Forms) : RuleM.Keeps (set q) := fun _ _ => h
theorem RuleM.modify_keeps {f : QCtx → QCtx} (h : ∀ q : QCtx, q.s.Forms → (f q).s.Forms) : RuleM.Keeps (modify f) := h

theorem RuleM.bind_keeps {m : RuleM α} {f : α → RuleM β} (hm : m.Keeps) (hf : ∀ a, (f a).Keeps) : RuleM.Keeps (m >>= f) := by
  intro q hq
  have h1 := hm q hq
  cases h : m.run q with
  | mk r c =>
    rw [h] at h1
    cases r with
    | ok a =>
      rw [RuleM.run_bind_ok h]
      exact hf a c h1
    | error e =>
      have hrun : (m >>= f).run q = (.error e, c) := by
        change ExceptT.bindCont f (m.run q).1 (m.run q).2 = _
        rw [h]
        rfl
      rw [hrun]
      exact h1

/-- What follows a read of the state may ask that it is in form. -/
theorem RuleM.get_bind_keeps {f : QCtx → RuleM β} (hf : ∀ q : QCtx, q.s.Forms → (f q).Keeps) : RuleM.Keeps (get >>= f) := by
  intro q hq
  rw [RuleM.run_get_bind]
  exact hf q hq q hq

theorem RuleM.ite_keeps {c : Prop} [Decidable c] {m n : RuleM α} (hm : m.Keeps) (hn : n.Keeps) : RuleM.Keeps (if c then m else n) := by
  split <;> assumption

theorem RuleM.map_keeps {m : RuleM α} {f : α → β} (hm : m.Keeps) : RuleM.Keeps (f <$> m) := by
  rw [← bind_pure_comp]
  exact RuleM.bind_keeps hm fun _ => RuleM.pure_keeps

/-- An operation that is caught goes on behind the failure from the state that it left (R197). -/
theorem RuleM.run_tryCatch {m : RuleM α} {f : QStop → RuleM α} {q : QCtx} : (tryCatch m f : RuleM α).run q = (match m.run q with
    | (.ok a, c) => (.ok a, c)
    | (.error e, c) => (f e).run c) := by
  show ExceptT.tryCatch m f q = _
  rcases h : m.run q with ⟨r, c⟩
  simp only [ExceptT.run, ExceptT.tryCatch, ExceptT.mk, bind, StateT.bind] at h ⊢
  rw [h]
  cases r <;> rfl

theorem RuleM.tryCatch_keeps {m : RuleM α} {f : QStop → RuleM α} (hm : m.Keeps) (hf : ∀ e, (f e).Keeps) : RuleM.Keeps (tryCatch m f) := by
  intro q hq
  have h1 := hm q hq
  rw [RuleM.run_tryCatch]
  split
  · next e => exact ctx_forms e h1
  · next e => exact hf _ _ (ctx_forms e h1)

theorem RuleM.mapM_keeps {f : α → RuleM β} {l : List α} (hf : ∀ a, (f a).Keeps) : RuleM.Keeps (l.mapM f) := by
  induction l with
  | nil => exact RuleM.pure_keeps
  | cons a l ih =>
    rw [List.mapM_cons]
    exact RuleM.bind_keeps (hf a) fun _ => RuleM.bind_keeps ih fun _ => RuleM.pure_keeps

theorem RuleM.foldlM_keeps {f : β → α → RuleM β} {l : List α} {b : β} (hf : ∀ b a, (f b a).Keeps) : RuleM.Keeps (l.foldlM f b) := by
  induction l generalizing b with
  | nil => exact RuleM.pure_keeps
  | cons a l ih =>
    rw [List.foldlM_cons]
    exact RuleM.bind_keeps (hf b a) fun _ => ih

end Rules

end Sys2Proof.Machine
end

section
/-! PROOF. What the functions of State, Moves, Units, Access, Walk, Tile, Record, Ops, Operands lead to keeps the forms (R300, R348; log 3). -/

namespace Sys2Proof.Machine

variable {s : State}

/-! ### State -/

theorem Core.reset_forms : Core.reset.Forms := rfl

theorem State.reset_forms : State.reset.Forms := ⟨rfl, rfl⟩

/-! ### Moves -/

theorem Core.setEng_forms {c : Core} {gather : Bool} {e : Engine} (hc : c.Forms) : (c.setEng gather e).Forms := Core.ite_forms hc.upd hc.upd

/-! ### Units -/

theorem State.setStand_forms {n : Nat} {v : Stand} (h : s.Forms) : (s.setStand n v).Forms := h.upd

theorem State.setCtx_forms {c : Nat} {v : Ctx} (h : s.Forms) : (s.setCtx c v).Forms := h.upd

theorem State.setLink_forms {n : Nat} {v : Link} (h : s.Forms) : (s.setLink n v).Forms := h.upd

theorem State.setGroup_forms {n : Nat} {v : Group} (h : s.Forms) : (s.setGroup n v).Forms := h.upd

theorem State.setTask_forms {n : Nat} {v : Task} (h : s.Forms) : (s.setTask n v).Forms := h.upd

theorem State.modStand_forms {n : Nat} {f : Stand → Stand} (h : s.Forms) : (s.modStand n f).Forms := State.setStand_forms h

theorem State.modCtx_forms {c : Nat} {f : Ctx → Ctx} (h : s.Forms) : (s.modCtx c f).Forms := State.setCtx_forms h

theorem State.modLink_forms {n : Nat} {f : Link → Link} (h : s.Forms) : (s.modLink n f).Forms := State.setLink_forms h

theorem State.modGroup_forms {n : Nat} {f : Group → Group} (h : s.Forms) : (s.modGroup n f).Forms := by
  unfold State.modGroup
  split
  · exact State.setGroup_forms h
  · exact h

theorem State.modTask_forms {n : Nat} {f : Task → Task} (h : s.Forms) : (s.modTask n f).Forms := by
  unfold State.modTask
  split
  · exact State.setTask_forms h
  · exact h

theorem State.freeChoice_forms (h : s.Forms) : s.freeChoice.2.Forms := h.upd

theorem State.freeIndex_forms {n : Nat} (h : s.Forms) : (s.freeIndex n).2.Forms := h.upd

theorem State.freeBytes_forms {n : Nat} (h : s.Forms) : (s.freeBytes n).2.Forms := h.upd

/-! ### Access -/

theorem State.traceAdd_forms {home kind size p src : Nat} (h : s.Forms) : (s.traceAdd home kind size p src).Forms := by
  unfold State.traceAdd
  extract_lets g w0 w1
  have hg : g.Forms := State.grove_forms h _
  exact State.ite_forms h (State.setGrove_forms h hg.upd)

theorem State.dropUpd_forms {sec : Nat} (h : s.Forms) : (s.dropUpd sec).Forms := foldl_forms h (fun _ _ ht => State.modCore_forms ht (fun _ hc => hc.upd))

theorem State.notify_forms {sec : Nat} (h : s.Forms) : (s.notify sec).Forms :=
  State.mapGroves_forms (State.mapSlots_forms h (fun _ hx => hx.upd)) (fun _ hx => hx.upd)

theorem State.orBit_forms {sec : Nat} (h : s.Forms) : (s.orBit sec).Forms := by
  unfold State.orBit
  split
  · exact h
  · refine State.ite_forms h.upd ?_
    extract_lets s1
    have hs1 : s1.Forms := State.recallRange_forms h
    exact State.devWrite_forms hs1

theorem State.orsOut_forms (h : s.Forms) : s.orsOut.Forms := State.ite_forms h (foldl_forms h.upd (fun _ _ ht => State.orBit_forms ht))

theorem State.perform_forms {slot p : Nat} {inter : Bool} {bs : List Byte} {sig : Bool} {kind : Nat} (h : s.Forms) :
    (s.perform slot p inter bs sig kind).Forms := by
  unfold State.perform
  extract_lets s1 s2
  have hs1 : s1.Forms := State.recallRange_forms h
  have hs2 : s2.Forms := State.traceAdd_forms (State.poke_forms hs1)
  exact State.ite_forms (State.notify_forms hs2) hs2

theorem State.mixMark_forms {slot p n : Nat} (h : s.Forms) : (s.mixMark slot p n).Forms := h.upd

theorem State.strongRead_forms {p n base : Nat} {bs : List Byte} (h : s.Forms) : (s.strongRead p n base bs).2.Forms := by
  unfold State.strongRead
  split
  · exact h
  · extract_lets s1 bad
    have hs1 : s1.Forms := State.mixMark_forms h
    split
    · next e => exact forms_snd e (State.freeBytes_forms hs1)

theorem State.strongDone_forms {before : State} {slot p n : Nat} (h : s.Forms) (hbefore : before.Forms) : (s.strongDone before slot p n).Forms := by
  unfold State.strongDone
  split
  · exact h.upd
  · exact h.upd
  · exact h
  · exact h
  · exact h
  · exact h
  · exact h
  · exact h

theorem State.strongPut_forms {slot p : Nat} {inter : Bool} {bs : List Byte} {sig : Bool} {kind : Nat} (h : s.Forms) :
    (s.strongPut slot p inter bs sig kind).Forms :=
  State.strongDone_forms (State.perform_forms h) h

theorem State.acquired_forms {slot : Nat} (h : s.Forms) : (s.acquired slot).Forms := h.upd

theorem State.performFirst_forms {slot : Nat} {st : Stored} (h : s.Forms) : (s.performFirst slot st).Forms := by
  unfold State.performFirst
  extract_lets sl
  have hsl : sl.Forms := State.slot_forms h _
  exact State.strongPut_forms (State.setSlot_forms h hsl.upd)

theorem State.drainGo_forms {slot n : Nat} (h : s.Forms) : optForms State.Forms (s.drainGo slot n) := by
  induction n generalizing s slot with
  | zero =>
    unfold State.drainGo
    exact h
  | succ n ih =>
    unfold State.drainGo
    split
    · exact h
    · split
      · exact trivial
      · exact ih (State.performFirst_forms h)

theorem State.drainAll_forms {slot : Nat} (h : s.Forms) : optForms State.Forms (s.drainAll slot) := State.drainGo_forms h

theorem State.drain_forms {slot : Nat} (h : s.Forms) : optForms State.Forms (s.drain slot) := optForms_map (State.drainAll_forms h)

theorem State.bufferStore_forms {slot : Nat} {st : Stored} (h : s.Forms) : optForms State.Forms (s.bufferStore slot st) := by
  unfold State.bufferStore
  extract_lets sl secs
  have hsl : sl.Forms := State.slot_forms h _
  split
  · exact State.setSlot_forms h hsl.upd
  · split
    · next e => exact State.modSlot_forms (optForms_some e (State.drainAll_forms h)) (fun _ hq => hq.upd)
    · exact trivial

theorem State.latePut_forms {l : Late} (h : s.Forms) : (s.latePut l).Forms := by
  unfold State.latePut
  split
  · split
    · exact h.upd
    · exact h
  · split
    · exact State.strongPut_forms h
    · extract_lets s1
      have hs1 : s1.Forms := State.poke_forms (State.recallRange_forms h)
      exact State.ite_forms (State.notify_forms hs1) hs1

theorem State.flushLate_forms (h : s.Forms) : s.flushLate.Forms := foldl_forms h.upd (fun _ _ ht => State.ite_forms ht.upd (State.latePut_forms ht))

theorem State.lateWrite_forms {l : Late} (h : s.Forms) : (s.lateWrite l).Forms := State.ite_forms h.upd (State.latePut_forms h)

theorem State.drainSecs_forms {slot : Nat} {secs : List Nat} (h : s.Forms) : (s.drainSecs slot secs).Forms := by
  unfold State.drainSecs
  extract_lets sl mine s1
  have hsl : sl.Forms := State.slot_forms h _
  have hs1 : s1.Forms := State.setSlot_forms h hsl.upd
  exact foldl_forms hs1 (fun _ _ ht => State.strongPut_forms ht)

theorem State.unlock_forms {key : Nat} (h : s.Forms) : (s.unlock key).Forms := State.ite_forms (State.flushLate_forms h.upd) h

theorem State.sigRead_forms {slot p n : Nat} (h : s.Forms) : (s.sigRead slot p n).Forms := by
  unfold State.sigRead
  extract_lets sl
  have hsl : sl.Forms := State.slot_forms h _
  exact State.ite_forms (State.setSlot_forms h hsl.upd) h

/-! ### Walk -/

theorem State.walkFrom_forms {va : Nat} {l : List Nat} {n : Nat} (h : s.Forms) : (State.walkFrom va l n s).2.2.Forms := by
  induction l generalizing s va n with
  | nil =>
    unfold State.walkFrom
    exact h
  | cons a l ih =>
    unfold State.walkFrom
    extract_lets a1 s1
    have hs1 : s1.Forms := State.recall_forms h
    split
    · exact h
    · split
      · exact hs1
      · split
        · exact hs1
        · exact ih hs1

theorem State.walk_forms {ctx va : Nat} (h : s.Forms) : (s.walk ctx va).2.2.Forms := by
  unfold State.walk
  extract_lets root
  split
  · exact h
  · exact State.walkFrom_forms h

theorem State.tlbFill_forms {core : Nat} {fetch : Bool} {e : TlbEntry} (h : s.Forms) : (s.tlbFill core fetch e).Forms := by
  unfold State.tlbFill
  extract_lets s1
  have hs1 : s1.Forms := State.modCore_forms h (fun _ hc => Core.ite_forms hc.upd hc.upd)
  exact State.modGrove_forms hs1 (fun _ hg => hg.upd)

theorem State.c64Pick_forms {va a : Nat} {r : WalkRes} (h : s.Forms) : (s.c64Pick va a r).2.Forms := by
  unfold State.c64Pick
  extract_lets pick
  have hpick : ∀ (l : List Nat), (pick l).2.Forms := by
    intro l
    unfold pick
    split
    · next e => exact forms_snd e (State.freeIndex_forms h)
  split
  · split
    · exact h
    · exact hpick _
  · split
    · exact h
    · exact h
    · exact hpick _
  · exact h

theorem State.ctxRaise_forms {ctx : Nat} (h : s.Forms) : (s.ctxRaise ctx).Forms := h.upd

theorem State.raiseIf_forms {ctx : Option Nat} (h : s.Forms) : (s.raiseIf ctx).Forms := by
  unfold State.raiseIf
  split
  · exact State.ctxRaise_forms h
  · exact h

theorem State.walkTouch_forms {ctx : Nat} {vas : List Nat} (h : s.Forms) : (s.walkTouch ctx vas).Forms := foldl_forms h (fun _ _ ht => State.walk_forms ht)

theorem State.devWalks_forms {ctx : Nat} {vas : List Nat} (h : s.Forms) : (s.devWalks ctx vas).Forms := by
  unfold State.devWalks
  extract_lets s1
  have hs1 : s1.Forms := State.walkTouch_forms h
  exact State.ite_forms (State.ctxRaise_forms hs1) hs1

theorem State.lookup_forms {core ctx va : Nat} {fetch : Bool} (h : s.Forms) : (s.lookup core ctx va fetch).2.Forms := by
  unfold State.lookup
  extract_lets c g
  split
  · exact h
  · split
    · exact State.tlbFill_forms h
    · split
      · next e2 =>
          split
          · next e3 => exact State.tlbFill_forms (forms_snd e3 (State.c64Pick_forms (forms_snd_snd e2 (State.walk_forms h))))
          · exact State.c64Pick_forms (forms_snd_snd e2 (State.walk_forms h))

theorem State.translate_forms {core : Nat} {w : Who} {acc : Access} {need : Need} {ea : Word} {n : Nat} {whole rulePath : Bool} (h : s.Forms) :
    (s.translate core w acc need ea n whole rulePath).2.Forms := by
  unfold State.translate
  extract_lets va
  split
  · next e => exact forms_snd e (State.lookup_forms h)
  · next e => exact forms_snd e (State.lookup_forms h)
  · next e => exact forms_snd e (State.lookup_forms h)
  · next e => exact forms_snd e (State.lookup_forms h)

/-! ### Tile -/

theorem Core.mapAcc_forms {c : Core} {f : Nat → Nat → BitVec 32 × Bool → BitVec 32 × Bool} (hc : c.Forms) : (c.mapAcc f).Forms := hc.upd

theorem State.latentRun_forms {core : Nat} {op : MmaOp} {n : Nat} (h : s.Forms) : (s.latentRun core op n).Forms := by
  unfold State.latentRun
  extract_lets g c lo bs qs ks c1 __src
  have hc : c.Forms := State.core_forms h _
  have hc1 : c1.Forms := Core.mapAcc_forms hc
  exact State.setCore_forms h hc1.upd

theorem State.plainRun_forms {core : Nat} {op : MmaOp} (h : s.Forms) : (s.plainRun core op).Forms := by
  unfold State.plainRun
  extract_lets c f n fa fb bs rows row ks new
  have hc : c.Forms := State.core_forms h _
  have hnew : new.Forms := by
    unfold new
    split
    · exact Core.mapAcc_forms hc
    · exact Core.ite_forms (Core.mapAcc_forms hc) (Core.mapAcc_forms hc)
  exact State.setCore_forms h hnew

theorem State.serveNext_forms {g : Nat} (h : s.Forms) : (s.serveNext g).Forms := State.modGrove_forms h (fun _ hg1 => hg1.upd)

theorem State.mmaGone_forms {core : Nat} (h : s.Forms) : (s.mmaGone core).Forms :=
  State.ite_forms (State.serveNext_forms (State.modGrove_forms h (fun _ hg1 => hg1.upd))) h

theorem State.mmaEnter_forms {core : Nat} (h : s.Forms) : (s.mmaEnter core).Forms := by
  unfold State.mmaEnter
  extract_lets g
  split
  · exact h
  · exact State.modGrove_forms h (fun _ hg1 => hg1.upd)

theorem State.mmaEnd_forms {core : Nat} {op : MmaOp} (h : s.Forms) : (s.mmaEnd core op).Forms := by
  unfold State.mmaEnd
  split
  · exact State.mmaGone_forms (State.modCore_forms h (fun _ hc => hc.upd))

theorem State.mmaPiece_forms {core : Nat} (h : s.Forms) : (s.mmaPiece core).Forms := by
  unfold State.mmaPiece
  split
  · exact h
  · exact State.ite_forms (State.mmaEnd_forms (State.plainRun_forms h)) (State.ite_forms (State.mmaEnd_forms (State.latentRun_forms h))
      (State.latentRun_forms h))

theorem State.mmaRest_forms {core : Nat} (h : s.Forms) : (s.mmaRest core).Forms := foldl_forms h (fun _ _ ht => State.mmaPiece_forms ht)

theorem State.mmaFinish_forms {core : Nat} (h : s.Forms) : (s.mmaFinish core).Forms :=
  foldl_forms h (fun _ _ ht => State.ite_forms (State.mmaRest_forms ht) ht)

/-! ### Record -/

theorem State.taskState_forms {key : Nat} {st : TaskSt} (h : s.Forms) : (s.taskState key st).Forms := by
  unfold State.taskState
  split
  · exact State.recWrite_forms (State.setTask_forms h)
  · exact h

theorem State.enqueue_forms {key origin : Nat} (h : s.Forms) : (s.enqueue key origin).Forms := by
  unfold State.enqueue
  split
  · split
    · extract_lets s1
      have hs1 : s1.Forms := State.taskState_forms h
      exact State.modGrove_forms hs1 (fun _ hg1 => hg1.upd)
    · exact h
  · exact h

theorem State.vtRaise_forms {stand ctx : Nat} {others : List Nat} (h : s.Forms) : (s.vtRaise stand ctx others).Forms := by
  unfold State.vtRaise
  extract_lets vt
  split
  · exact State.ite_forms (State.modStand_forms h) h
  · exact h

theorem State.queueAdd_forms {stand key : Nat} (h : s.Forms) : (s.queueAdd stand key).Forms := by
  unfold State.queueAdd
  split
  · extract_lets e1 others s0 s1 c
    have hs0 : s0.Forms := State.ite_forms (State.vtRaise_forms h) h
    have hs1 : s1.Forms := State.modStand_forms hs0
    exact State.recWrite_forms hs1
  · exact h

theorem Grove.unsend_forms {g : Grove} {gone : Nat → Bool} (hg : g.Forms) : (g.unsend gone).Forms := by
  unfold Grove.unsend
  split
  · exact hg.upd
  · exact hg.upd

theorem State.unqueue_forms {gone : Nat → Bool} (h : s.Forms) : (s.unqueue gone).Forms :=
  (State.mapGroves_forms h (fun _ hx => Grove.unsend_forms hx)).same rfl

theorem State.saveBytes_forms {slot p : Nat} {bs : List Byte} (h : s.Forms) : (s.saveBytes slot p bs).Forms :=
  foldl_forms h (fun _ _ ht => State.lateWrite_forms ht)

theorem State.frameWrite_forms {slot off : Nat} {bs : List Byte} (h : s.Forms) : (s.frameWrite slot off bs).Forms :=
  State.saveBytes_forms (State.tcmWrite_forms h)

theorem Slot.fromFrame_forms {sl : Slot} {bs : List Byte} : (sl.fromFrame bs).Forms := by
  rw [Slot.forms_iff]
  constructor
  · exact (BitVec.toNat_ofNat _ _).trans_le ((Nat.mod_le _ _).trans (Nat.min_le_right _ _))
  · exact (BitVec.toNat_ofNat _ _).trans_le ((Nat.mod_le _ _).trans (Nat.min_le_right _ _))

theorem Core.fmtLoad_forms {c : Core} {bs : List Byte} (hc : c.Forms) : (c.fmtLoad bs).Forms := hc.upd

theorem State.accOut_forms {slot : Nat} (h : s.Forms) : (s.accOut slot).1.Forms := by
  unfold State.accOut
  extract_lets core mine s1 c s2
  have hs1 : s1.Forms := by
    unfold s1
    clear_value mine
    split
    · exact State.ite_forms (State.mmaFinish_forms h) h
    · exact h
  have hs2 : s2.Forms := State.saveBytes_forms hs1
  split
  · exact State.ite_forms (State.mmaGone_forms (State.modCore_forms hs2 (fun _ hc1 => hc1.upd))) hs2
  · exact hs1

theorem State.accIn_forms {slot : Nat} {sv : AccSave} (h : s.Forms) : (s.accIn slot sv).Forms := by
  unfold State.accIn
  extract_lets core st s1 c bs __src s2
  have hst : st.Forms := State.mmaFinish_forms h
  have hs1 : s1.Forms := State.recallRange_forms hst
  have hc : c.Forms := State.core_forms hs1 _
  have h__src : __src.Forms := Core.fmtLoad_forms hc
  have hs2 : s2.Forms := State.setCore_forms hs1 h__src.upd
  exact State.ite_forms (State.mmaEnter_forms hs2) hs2

theorem State.engStatus_forms {core : Nat} {c : EngCmd} {v : Nat} (h : s.Forms) : (s.engStatus core c v).Forms := State.ite_forms (State.tcmWrite_forms h) h

theorem State.engNote_forms {core slot : Nat} {e : Engine} (h : s.Forms) : (s.engNote core slot e).Forms := by
  unfold State.engNote
  split
  · exact State.ite_forms (State.engStatus_forms h) h
  · exact h

theorem State.engOut_forms {slot : Nat} (h : s.Forms) : (s.engOut slot).1.Forms := by
  unfold State.engOut
  extract_lets core s1 c
  have hs1 : s1.Forms := State.engNote_forms (State.engNote_forms h)
  have hc : c.Forms := State.core_forms hs1 _
  split
  · split
    · exact State.setCore_forms hs1 hc.upd

theorem State.saveFrame_forms {slot : Nat} (h : s.Forms) : (s.saveFrame slot).1.Forms := by
  unfold State.saveFrame
  extract_lets sl
  split
  · next e =>
      extract_lets s1
      have hs1 : s1.Forms := State.frameWrite_forms (forms_snd e (State.freeBytes_forms h))
      split
      · next e1 =>
          split
          · next e2 => exact forms_fst e2 (State.engOut_forms (forms_fst e1 (State.accOut_forms hs1)))

theorem State.spillOut_forms {s0 : State} {slot home : Nat} (h : s0.Forms) : (s0.spillOut slot home).1.Forms := by
  unfold State.spillOut
  split
  · exact h
  · split
    · exact h
    · extract_lets ctx s bs dests bad
      have hs : s.Forms := State.walkTouch_forms h
      clear_value bad
      split
      · exact hs
      · refine foldl_forms hs (fun t a ht => ?_)
        split
        · exact foldl_forms (State.drainSecs_forms ht) (fun _ _ ht1 => State.perform_forms ht1)
        · exact ht
        · exact ht
        · exact ht

theorem State.spillIn_forms {s0 : State} {slot ctx home n : Nat} (h : s0.Forms) : (s0.spillIn slot ctx home n).Forms := by
  unfold State.spillIn
  refine State.ite_forms h ?_
  extract_lets s
  have hs : s.Forms := State.walkTouch_forms h
  split
  · next e =>
      refine State.tcmWrite_forms ?_
      refine forms_fst e ?_
      refine foldl_forms_fst hs (fun p a hx => ?_)
      split
      · extract_lets st
        have hst : st.Forms := State.recallRange_forms hx
        exact hst
      · exact hx
      · exact hx
      · exact hx

theorem State.writeBack_forms {slot key pc : Nat} {aff tframe : Bool} (h : s.Forms) : (s.writeBack slot key pc aff tframe).Forms := by
  unfold State.writeBack
  split
  · extract_lets sl first w0 w1 v0 v1 args bs ct s1
    have hs1 : s1.Forms := State.recWrite_forms h
    exact State.setTask_forms hs1
  · exact h

theorem State.recordPut_forms {s0 : State} {r : FaultRec} (h : s0.Forms) : (s0.recordPut r).1.Forms := by
  unfold State.recordPut
  extract_lets d s c head tail s1 s2
  have hs : s.Forms := State.recallRange_forms h
  have hs1 : s1.Forms := State.recWrite_forms hs
  have hs2 : s2.Forms := State.recWrite_forms hs1
  split
  · exact hs
  · split
    · exact State.ite_forms hs (State.ctxRaise_forms hs)
    · exact State.notify_forms hs2

theorem State.noticePut_forms {bs : List Byte} (h : s.Forms) : optForms State.Forms (s.noticePut bs) := by
  unfold State.noticePut
  split
  · exact trivial
  · extract_lets s1
    have hs1 : s1.Forms := State.recWrite_forms h
    exact hs1.upd

theorem State.setPathSrc_forms {slot path : Nat} {f : FaultSrc} (h : s.Forms) : (s.setPathSrc slot path f).Forms :=
  State.ite_forms (State.modGrove_forms h (fun _ hg => hg.upd)) (State.modSlot_forms h (fun _ hq => hq.upd))

theorem State.slotRecordPut_forms {slot : Nat} {r : FaultRec} (h : s.Forms) : (s.slotRecordPut slot r).1.Forms := by
  unfold State.slotRecordPut
  extract_lets path src
  split
  · exact h
  · split
    · next e => exact State.setPathSrc_forms (forms_fst e (State.recordPut_forms h))
    · exact State.recordPut_forms h

theorem Slot.reported_forms {q : Slot} (hq : q.Forms) : q.reported.Forms := Slot.ite_forms hq hq.upd

theorem State.report_forms {slot : Nat} (h : s.Forms) : (s.report slot).Forms := by
  unfold State.report
  refine State.ite_forms h ?_
  split
  · exact h
  · next e =>
      extract_lets s2 sl
      have hs2 : s2.Forms := by
        unfold s2
        split
        · split
          · next e2 => exact State.modSlot_forms (forms_fst e2 (State.slotRecordPut_forms (optForms_some e (State.drainAll_forms h)))) (fun _ hq => hq.upd)
          · next e2 => exact forms_fst e2 (State.slotRecordPut_forms (optForms_some e (State.drainAll_forms h)))
        · exact optForms_some e (State.drainAll_forms h)
      refine State.ite_forms hs2 ?_
      split
      · refine State.ite_forms hs2 ?_
        split
        · next e2 => exact State.modSlot_forms (optForms_some e2 (State.noticePut_forms hs2)) (fun _ hq => Slot.reported_forms hq.upd)
        · exact hs2
      · exact State.ite_forms (State.modSlot_forms hs2 (fun _ hq => Slot.reported_forms hq)) hs2

/-! ### Ops -/

theorem Slot.setXr_forms {sl : Slot} {r : Reg} {v : Word} (hsl : sl.Forms) : (sl.setXr r v).Forms := Slot.ite_forms hsl hsl.upd

theorem Slot.setVr_forms {sl : Slot} {r : Reg} {v : VWord} (hsl : sl.Forms) : (sl.setVr r v).Forms := hsl.upd

theorem Slot.setKr_forms {sl : Slot} {r : KReg} {v : KWord} (hsl : sl.Forms) : (sl.setKr r v).Forms := Slot.ite_forms hsl hsl.upd

theorem State.setX_forms {r : Reg} {v : Word} (h : s.Forms) : (s.setX r v).Forms := State.modMe_forms h (fun _ hq => Slot.setXr_forms hq)

theorem State.setFp_forms {p : Fp} (h : s.Forms) : (s.setFp p).Forms := State.modMe_forms h (fun _ hq => hq.upd)

theorem Slot.bare_forms {sl : Slot} (hsl : sl.Forms) : sl.bare.Forms := hsl.upd

theorem State.saveRest_forms {slot key n : Nat} {pinned : Bool} (h : s.Forms) : (s.saveRest slot key n pinned).Forms := by
  unfold State.saveRest
  split
  · next e =>
      extract_lets s2 s3
      have hs2 : s2.Forms := State.writeBack_forms (forms_fst e (State.saveFrame_forms h))
      have hs3 : s3.Forms := State.modTask_forms hs2
      exact State.modSlot_forms hs3 (fun _ hq => Slot.Forms.upd (Slot.bare_forms hq))

theorem State.saveTask_forms {slot key : Nat} (h : s.Forms) : (s.saveTask slot key).1.Forms := by
  unfold State.saveTask
  split
  · next e => exact State.saveRest_forms (forms_fst e (State.spillOut_forms h))

theorem State.freeSlot_forms {slot : Nat} (h : s.Forms) : (s.freeSlot slot).Forms := State.modSlot_forms h (fun _ hq => Slot.Forms.upd (Slot.bare_forms hq))

theorem State.trapSave_forms {slot key : Nat} (h : s.Forms) : (s.trapSave slot key).1.Forms := by
  unfold State.trapSave
  split
  · next e => exact State.modSlot_forms (State.taskState_forms (forms_fst e (State.saveTask_forms h))) (fun _ hq => hq.upd)

theorem State.trapEntry_forms {slot cause : Nat} {addr : Word} {path : Nat} (h : s.Forms) : (s.trapEntry slot cause addr path).1.Forms := by
  unfold State.trapEntry
  extract_lets s1
  have hs1 : s1.Forms := State.modSlot_forms h (fun _ hq => hq.upd)
  split
  · split
    · exact State.modSlot_forms hs1 (fun _ hq => hq.upd)
    · exact State.trapSave_forms hs1
  · exact State.modSlot_forms hs1 (fun _ hq => hq.upd)

theorem State.holdRecord_forms {slot : Nat} {key : Option Nat} {f : XFault} (h : s.Forms) : (s.holdRecord slot key f).Forms := by
  unfold State.holdRecord
  extract_lets src old fs token s1 s2 s3
  have hs1 : s1.Forms := State.setPathSrc_forms h
  have hs2 : s2.Forms := by
    unfold s2
    split
    · exact State.modTask_forms hs1
    · exact hs1
  have hs3 : s3.Forms := State.modSlot_forms hs2 (fun _ hq => hq.upd)
  exact State.ite_forms (State.ctxRaise_forms hs3) hs3

theorem State.spillRecord_forms {slot : Nat} {key : Option Nat} {f : Option XFault} (h : s.Forms) : (s.spillRecord slot key f).Forms := by
  unfold State.spillRecord
  split
  · exact h
  · exact State.ite_forms (State.raiseIf_forms h) (State.holdRecord_forms h)

theorem State.takeTrap_forms {slot cause : Nat} {addr : Word} {path : Nat} (h : s.Forms) : (s.takeTrap slot cause addr path).Forms := by
  unfold State.takeTrap
  extract_lets sl bs
  split
  · next e => exact State.report_forms (State.spillRecord_forms (State.modSlot_forms (forms_fst e (State.trapEntry_forms h)) (fun _ hq => hq.upd)))

theorem State.takeXFault_forms {slot : Nat} {f : XFault} {addr : Word} (h : s.Forms) : (s.takeXFault slot f addr).Forms := by
  unfold State.takeXFault
  split
  · next e => exact State.report_forms (State.spillRecord_forms (State.holdRecord_forms (forms_fst e (State.trapEntry_forms h))))

theorem State.trapSaved_forms {slot : Nat} (h : s.Forms) : (s.trapSaved slot).Forms := by
  unfold State.trapSaved
  split
  · exact h
  · refine State.ite_forms h ?_
    split
    · next e1 => exact State.report_forms (State.spillRecord_forms (forms_fst e1 (State.trapSave_forms h)))

theorem Slot.fresh_forms {sl : Slot} {n pc a0 a1 va : Nat} : (sl.fresh n pc a0 a1 va).Forms :=
  (Slot.forms_iff _).mpr ⟨Nat.zero_le _, Nat.zero_le _⟩

theorem Slot.rejoin_forms {sl : Slot} {b : DevBlock} {w : Option Wait} (hsl : sl.Forms) : (sl.rejoin b w).Forms := hsl.upd

theorem State.restore_forms {slot key : Nat} {t : Task} (h : s.Forms) : (s.restore slot key t).Forms := by
  unfold State.restore
  extract_lets tick base s0 bs a0 a1 s1 s11
  have hs0 : s0.Forms := State.recallRange_forms h
  have hs1 : s1.Forms := State.modSlot_forms h (fun _ _ => Slot.fresh_forms.upd)
  have hs11 : s11.Forms := by
    unfold s11
    split
    · extract_lets s12 s2
      have hs12 : s12.Forms := State.modSlot_forms hs0 (fun _ _ => Slot.rejoin_forms Slot.fromFrame_forms)
      have hs2 : s2.Forms := State.modCore_forms hs12 (fun _ hc => hc.upd)
      split
      · exact State.accIn_forms hs2
      · exact hs2
    · exact hs1.upd
  split
  · exact State.modSlot_forms hs11 (fun _ hq => Slot.setXr_forms hq)
  · exact hs11

theorem State.dispatchTrap_forms {slot key : Nat} {t : Task} {cause : Nat} {addr : Word} {f : Option XFault} (h : s.Forms) :
    (s.dispatchTrap slot key t cause addr f).Forms := by
  unfold State.dispatchTrap
  extract_lets pc here s1 s2
  have hhere : ∀ (q : Slot), q.Forms → (here q).Forms := fun _ hq => hq.upd
  have hs1 : s1.Forms := by
    unfold s1
    split
    · exact State.frameWrite_forms (State.modSlot_forms h (fun _ hq => hhere _ hq))
    · exact State.saveRest_forms (State.modSlot_forms (State.restore_forms h) (fun _ hq => hhere _ hq))
  have hs2 : s2.Forms := State.taskState_forms (State.modTask_forms hs1)
  refine State.report_forms ?_
  split
  · exact State.holdRecord_forms hs2
  · exact State.modSlot_forms hs2 (fun _ hq => hq.upd)

theorem State.dispatch_forms {s0 : State} {slot key : Nat} (h : s0.Forms) : (s0.dispatch slot key).Forms := by
  unfold State.dispatch
  split
  · exact h
  · extract_lets s s1
    have hs : s.Forms := State.recallRange_forms h
    have hs1 : s1.Forms := State.spillIn_forms (State.restore_forms hs)
    split
    · exact State.dispatchTrap_forms hs
    · exact State.dispatchTrap_forms hs
    · exact State.acquired_forms (State.taskState_forms (State.modTask_forms hs1))

theorem State.engTrap_forms {gather : Bool} {k : Eff} (h : s.Forms) (hk : k.Forms) : (s.engTrap gather k).Forms := by
  unfold State.engTrap
  split
  · exact State.modMyCore_forms h (fun _ hc => Core.setEng_forms hc)
  · exact hk

theorem State.advance_forms (h : s.Forms) : s.advance.Forms := State.modMe_forms h (fun _ hq => hq.upd)

theorem finish_forms {f : Eff} (hf : f.Forms) : outForms (finish f) := by
  unfold finish
  split
  · exact State.advance_forms hf
  · exact State.modMe_forms hf (fun _ hq => hq.upd)
  · exact State.modMe_forms hf (fun _ hq => hq.upd)
  · exact hf
  · exact State.takeTrap_forms hf
  · exact State.takeXFault_forms hf

theorem State.packetRule_forms {e : Eff} (h : s.Forms) (he : e.Forms) : (s.packetRule e).Forms := Eff.ite_forms h he

theorem always_forms {e : Eff} (h : s.Forms) (he : e.Forms) : outForms (always s e) := finish_forms (State.packetRule_forms h he)

theorem guarded_forms {e : Eff} (h : s.Forms) (he : e.Forms) : outForms (guarded s e) := finish_forms (State.packetRule_forms h (Eff.ite_forms he h))

theorem firmwareOnly_forms {e : Eff} (h : s.Forms) (he : e.Forms) : outForms (firmwareOnly s e) :=
  finish_forms (Eff.ite_forms (State.packetRule_forms h (Eff.ite_forms he h)) h)

/-! ### Operands -/

theorem State.xlate_forms {acc : Access} {need : Need} {ea : Word} {n : Nat} {whole : Bool} {addr : Word} (h : s.Forms) :
    (s.xlate acc need ea n whole addr).Forms := by
  unfold State.xlate
  split
  · next e => exact forms_snd e (State.translate_forms h)
  · next e => exact forms_snd e (State.translate_forms h)
  · next e => exact forms_snd e (State.translate_forms h)
  · next e => exact forms_snd e (State.translate_forms h)

theorem State.mixRecord_forms {p n : Nat} {inter : Bool} (h : s.Forms) : (s.mixRecord p n inter).Forms :=
  State.ite_forms (State.modGrove_forms h (fun _ hg => hg.upd)) h

theorem Slot.setInner_forms {sl : Slot} {h : Hamper} (hsl : sl.Forms) : (sl.setInner h).Forms := by
  unfold Slot.setInner
  split
  · exact hsl.upd
  · exact hsl.upd

theorem State.unitsPut_forms {slot : Nat} {places : List UnitAt} {bs : List Byte} (h : s.Forms) : (s.unitsPut slot places bs).Forms := by
  unfold State.unitsPut
  refine foldl_forms h (fun t a ht => ?_)
  extract_lets chunk
  split
  · exact State.tcmWrite_forms ht
  · exact State.recWrite_forms ht

theorem State.hamperOut_forms {slot : Nat} {h : Hamper} (hs : s.Forms) : (s.hamperOut slot h).Forms := State.unitsPut_forms hs

theorem State.takeFrames_forms {ctx n : Nat} (h : s.Forms) : optForms (fun a => a.2.Forms) (s.takeFrames ctx n) := by
  induction n generalizing s ctx with
  | zero =>
    unfold State.takeFrames
    exact h
  | succ n ih =>
    unfold State.takeFrames
    extract_lets head next s1 s2
    have hs1 : s1.Forms := h.upd
    have hs2 : s2.Forms := State.recWrite_forms hs1
    split
    · exact trivial
    · split
      · next e => exact optForms_some_snd e (ih hs2)
      · exact trivial

theorem State.giveFrames_forms {ctx : Nat} {fs : List Nat} (h : s.Forms) : (s.giveFrames ctx fs).Forms := by
  unfold State.giveFrames
  refine foldl_forms h (fun t a ht => ?_)
  extract_lets s1 s2
  have hs1 : s1.Forms := State.recWrite_forms ht
  have hs2 : s2.Forms := hs1.upd
  exact State.recWrite_forms hs2

theorem State.hamperAppend_forms {e : HEntry} (h : s.Forms) : optForms State.Forms (s.hamperAppend e) := by
  unfold State.hamperAppend
  extract_lets sl
  split
  · exact h
  · extract_lets h1 here
    split
    · exact trivial
    · next e2 => exact State.unitsPut_forms (State.modMe_forms (optForms_some_snd e2 (State.takeFrames_forms h)) (fun _ hq => Slot.setInner_forms hq))

theorem State.hamperPut1_forms {e : HEntry} (h : s.Forms) : optForms State.Forms (s.hamperPut1 e) := by
  unfold State.hamperPut1
  split
  · exact h
  · extract_lets h1 w word
    split
    · exact State.unitsPut_forms (State.modMe_forms h (fun _ hq => Slot.setInner_forms hq))
    · exact State.hamperAppend_forms h

theorem State.hamperPut_forms {es : List HEntry} (h : s.Forms) : optForms State.Forms (s.hamperPut es) := by
  unfold State.hamperPut
  refine foldl_forms_opt h (fun o a ho => ?_)
  split
  · exact State.hamperPut1_forms ho
  · exact ho

theorem State.collect_forms {es : List HEntry} {addr : Word} (h : s.Forms) : (s.collect es addr).Forms := by
  unfold State.collect
  split
  · next e => exact optForms_some e (State.hamperPut_forms h)
  · exact h

theorem State.viewReady_forms {ea p n : Nat} {addr : Word} (h : s.Forms) : (s.viewReady ea p n addr).Forms := by
  unfold State.viewReady
  extract_lets w es eng s0 reads s1
  have hs0 : s0.Forms := State.ite_forms h (State.devWalks_forms h)
  have hs1 : s1.Forms := foldl_forms hs0 (fun _ _ ht => State.sigRead_forms (State.recallRange_forms ht))
  exact Got.ite_forms hs0 (Got.ite_forms hs1 hs1)

theorem State.loadGlob_forms {ea : Word} {coll : Bool} {n : Nat} {need : Need} {whole : Bool} {addr : Word} (h : s.Forms) :
    (s.loadGlob ea coll n need whole addr).Forms := by
  unfold State.loadGlob
  refine Got.bind_forms (State.xlate_forms h) (fun a t ht => ?_)
  extract_lets p s2 s3 sl words r
  have hs2 : s2.Forms := State.recallRange_forms ht
  have hs3 : s3.Forms := State.sigRead_forms hs2
  have hr : r.2.Forms := State.strongRead_forms hs3
  refine Got.ite_forms ht ?_
  refine Got.ite_forms hs2 ?_
  refine Got.ite_forms hs2 ?_
  refine Got.ite_forms ?_ hr
  refine Got.bind_forms (State.viewReady_forms hs3) (fun a1 t1 ht1 => ?_)
  extract_lets r1
  have hr1 : r1.2.Forms := State.strongRead_forms ht1
  exact hr1

theorem State.load_forms {sp : Space} {sk : Bool} {ea : Word} {n al : Nat} {whole : Bool} (h : s.Forms) : (s.load sp sk ea n al whole).Forms := by
  unfold State.load
  split
  · exact h
  · exact Got.ite_forms h h
  · exact Got.ite_forms h h
  · exact State.loadGlob_forms h

theorem State.storeAt_forms {p : Nat} {inter : Bool} {ea : Word} {coll : Bool} {bs : List Byte} {sig : Bool} {addr : Word} (h : s.Forms) :
    (s.storeAt p inter ea coll bs sig addr).Forms := by
  unfold State.storeAt
  refine Got.ite_forms (State.collect_forms h) ?_
  refine Got.ite_forms h ?_
  split
  · exact Got.ite_forms h (State.mixRecord_forms (State.strongPut_forms h))
  · split
    · exact h
    · next e1 =>
        refine Got.ite_forms ?_ (optForms_some e1 (State.bufferStore_forms h))
        split
        · next e2 => exact State.mixRecord_forms (optForms_some e2 (State.drainAll_forms (optForms_some e1 (State.bufferStore_forms h))))
        · exact h
  · exact State.perform_forms h
  · exact State.perform_forms h
  · exact State.perform_forms h
  · exact State.perform_forms h
  · exact State.perform_forms h
  · exact State.perform_forms h

theorem State.store_forms {sp : Space} {sk : Bool} {ea : Word} {bs : List Byte} {al : Nat} {sig whole : Bool} (h : s.Forms) :
    (s.store sp sk ea bs al sig whole).Forms := by
  unfold State.store
  split
  · exact h
  · exact State.tcmWrite_forms h
  · exact State.scrWrite_forms h
  · exact Got.bind_forms (State.xlate_forms h) (fun _ _ ht => State.storeAt_forms ht)

theorem State.acqIf_forms {o : Ord} (h : s.Forms) : (s.acqIf o).Forms := State.ite_forms (State.acquired_forms h) h

theorem State.release_forms {k : State → Eff} (h : s.Forms) (hk : ∀ (a : State), a.Forms → (k a).Forms) : (s.release k).Forms := by
  unfold State.release
  split
  · next e => exact hk _ (optForms_some e (State.drain_forms h))
  · exact h

theorem State.rmwHome_forms {p : Nat} {inter : Bool} {n : Nat} {f : Nat → Nat} {sig : Bool} {addr : Word} (h : s.Forms) :
    (s.rmwHome p inter n f sig addr).Forms := by
  unfold State.rmwHome
  refine Got.ite_forms h ?_
  extract_lets s1 s2
  have hs1 : s1.Forms := State.drainSecs_forms h
  have hs2 : s2.Forms := State.recallRange_forms hs1
  refine Got.ite_forms hs2 ?_
  refine Got.ite_forms hs2 ?_
  split
  · next e => exact State.mixRecord_forms (State.strongPut_forms (forms_snd e (State.strongRead_forms hs2)))

theorem State.rmw_forms {sp : Space} {ea : Word} {n : Nat} {f : Nat → Nat} {sig : Bool} (h : s.Forms) : (s.rmw sp ea n f sig).Forms := by
  unfold State.rmw
  split
  · exact h
  · exact Got.ite_forms h (State.tcmWrite_forms h)
  · exact Got.ite_forms h (State.scrWrite_forms h)
  · exact Got.bind_forms (State.xlate_forms h) (fun _ _ ht => State.rmwHome_forms ht)

theorem Core.fold_forms {c : Core} {p : Nat} {inter : Bool} {ty op v : Nat} (hc : c.Forms) : (c.fold p inter ty op v).Forms := by
  unfold Core.fold
  extract_lets fresh
  split
  · split
    · exact Core.ite_forms hc.upd hc.upd
    · exact hc.upd
  · exact hc.upd

theorem State.updRoom_forms {core sec : Nat} (h : s.Forms) : optForms State.Forms (s.updRoom core sec) := by
  unfold State.updRoom
  extract_lets lines can
  split
  · exact h
  · split
    · exact trivial
    · split
      · next e => exact State.combineCopy_forms (forms_snd e (State.freeIndex_forms h))

theorem State.reduce_forms {sp : Space} {ea : Word} {ty op v : Nat} (h : s.Forms) : (s.reduce sp ea ty op v).Forms := by
  unfold State.reduce
  extract_lets n ent
  split
  · exact h
  · exact Got.andThen_forms (State.rmw_forms h) (fun _ _ ht => ht)
  · exact Got.andThen_forms (State.rmw_forms h) (fun _ _ ht => ht)
  · refine Got.andThen_forms (State.xlate_forms h) (fun a t ht => ?_)
    refine Eff.ite_forms (Got.andThen_forms (State.collect_forms ht) (fun _ _ ht1 => ht1)) ?_
    split
    · refine Eff.ite_forms ht ?_
      refine Eff.ite_forms ht ?_
      split
      · next e3 =>
            exact State.mixRecord_forms (State.strongDone_forms (State.modMyCore_forms (optForms_some e3 (State.updRoom_forms (State.drainSecs_forms ht)))
              (fun _ hc => Core.fold_forms hc)) (optForms_some e3 (State.updRoom_forms (State.drainSecs_forms ht))))
      · exact ht
    · exact Eff.ite_forms ht (Eff.ite_forms ht (State.mixRecord_forms (State.strongDone_forms (State.combineCopy_forms (State.modMyCore_forms ht (fun _ hc =>
        Core.fold_forms hc))) ht)))
    · exact Got.andThen_forms (State.rmwHome_forms ht) (fun _ _ ht1 => ht1)
    · exact Got.andThen_forms (State.rmwHome_forms ht) (fun _ _ ht1 => ht1)
    · exact Got.andThen_forms (State.rmwHome_forms ht) (fun _ _ ht1 => ht1)
    · exact Got.andThen_forms (State.rmwHome_forms ht) (fun _ _ ht1 => ht1)
    · exact Got.andThen_forms (State.rmwHome_forms ht) (fun _ _ ht1 => ht1)
    · exact Got.andThen_forms (State.rmwHome_forms ht) (fun _ _ ht1 => ht1)

end Sys2Proof.Machine
end

section
/-! PROOF. What the functions of Release, GuestQueues, Pager, Contexts lead to keeps the forms (R300, R348; log 3). -/

namespace Sys2Proof.Machine

variable {s : State}

/-! ### Release -/

theorem State.setTag_forms {p : Nat} {full : Bool} (h : s.Forms) : (s.setTag p full).Forms := State.ite_forms (State.ite_forms h h.upd) h.upd

theorem State.answer_forms {d : Defer} {status : Nat} (h : s.Forms) : (s.answer d status).Forms := by
  unfold State.answer
  extract_lets v s1 s2
  have hs1 : s1.Forms := State.modSlot_forms h (fun _ hq => Slot.Forms.upd (Slot.ite_forms (Slot.setXr_forms hq) hq))
  have hs2 : s2.Forms := hs1.upd
  exact State.ite_forms (State.acquired_forms hs2) hs2

theorem State.answerAll_forms {p : Nat} (h : s.Forms) : (s.answerAll p).Forms := by
  unfold State.answerAll
  refine foldl_forms h (fun t a ht => ?_)
  refine State.ite_forms ?_ ht
  extract_lets s1
  have hs1 : s1.Forms := State.answer_forms ht
  exact State.ite_forms (State.setTag_forms hs1) hs1

theorem State.groupWrite_forms {g off : Nat} {bs : List Byte} (h : s.Forms) : (s.groupWrite g off bs).Forms := by
  unfold State.groupWrite
  split
  · exact State.recWrite_forms h
  · exact h

theorem State.groupState_forms {g : Nat} {st : GrpSt} (h : s.Forms) : (s.groupState g st).Forms := State.groupWrite_forms (State.modGroup_forms h)

theorem State.live_forms {g : Nat} {up : Bool} (h : s.Forms) : (s.live g up).Forms := by
  unfold State.live
  split
  · extract_lets n s1
    have hs1 : s1.Forms := State.groupWrite_forms (State.setGroup_forms h)
    exact State.ite_forms (State.groupState_forms hs1) hs1
  · exact h

theorem State.newTask_forms {grp ctx va pa depth : Nat} {st : TaskSt} (h : s.Forms) : (s.newTask grp ctx va pa depth st).Forms := by
  unfold State.newTask
  extract_lets s1 t
  have hs1 : s1.Forms := State.recWrite_forms (State.recWrite_forms (State.recallRange_forms h))
  exact State.taskState_forms (State.setTask_forms hs1)

theorem State.gateSeen_forms {key p : Nat} {inter : Bool} (h : s.Forms) : (s.gateSeen key p inter).Forms := by
  unfold State.gateSeen
  split
  · extract_lets left s1
    have hs1 : s1.Forms := State.setTask_forms h
    exact State.ite_forms (State.enqueue_forms hs1) hs1
  · exact h

theorem State.gatesAt_forms {p : Nat} {inter : Bool} (h : s.Forms) : (s.gatesAt p inter).Forms := by
  unfold State.gatesAt
  extract_lets mine s1
  have hs1 : s1.Forms := h.upd
  exact foldl_forms hs1 (fun _ _ ht => State.gateSeen_forms ht)

theorem State.fill_forms {slot p : Nat} {inter : Bool} {v : Word} {kind : Nat} (h : s.Forms) : (s.fill slot p inter v kind).Forms := by
  unfold State.fill
  extract_lets bs s1
  have hs1 : s1.Forms := State.ite_forms (State.strongPut_forms h) (State.perform_forms h)
  exact State.answerAll_forms (State.gatesAt_forms (State.setTag_forms hs1))

theorem State.takeIn_forms {key origin : Nat} {raise : Option Word} (h : s.Forms) : (s.takeIn key origin raise).Forms := by
  unfold State.takeIn
  split
  · exact h
  · extract_lets seq s1 s2 s3 ngate vas s31 found places pas s4 s5
    have hs1 : s1.Forms := State.recWrite_forms (State.modGroup_forms h)
    have hs2 : s2.Forms := by
      unfold s2
      split
      · exact State.ite_forms (State.recWrite_forms (State.modTask_forms hs1)) hs1
      · exact hs1
    have hs3 : s3.Forms := State.live_forms (State.modTask_forms hs2)
    have hs31 : s31.Forms := State.walkTouch_forms hs3
    have hs4 : s4.Forms := State.taskState_forms (State.modTask_forms hs31)
    have hs5 : s5.Forms := hs4.upd
    refine State.ite_forms (State.enqueue_forms hs3) ?_
    refine State.raiseIf_forms ?_
    refine foldl_forms hs5 (fun t1 a ht1 => ?_)
    split
    · exact State.ite_forms (State.gatesAt_forms ht1) ht1
    · exact ht1

theorem State.spawn_forms {s0 : State} {grp ctx va origin depth : Nat} {raise : Option Word} (h : s0.Forms) :
    (s0.spawn grp ctx va origin depth raise).Forms := by
  unfold State.spawn
  extract_lets s
  have hs : s.Forms := State.walkTouch_forms h
  split
  · exact State.takeIn_forms (State.newTask_forms hs)
  · exact State.raiseIf_forms hs

theorem State.fire_forms {s0 : State} {grp ctx va origin depth : Nat} {raise : Option Word} (h : s0.Forms) :
    (s0.fire grp ctx va origin depth raise).Forms := by
  unfold State.fire
  extract_lets s key raiseT
  have hs : s.Forms := State.ite_forms h (State.walkTouch_forms h)
  split
  · refine State.ite_forms ?_ hs
    extract_lets s1
    have hs1 : s1.Forms := State.modTask_forms hs
    exact State.takeIn_forms hs1
  · split
    · extract_lets s1
      have hs1 : s1.Forms := State.newTask_forms hs
      split
      · exact State.takeIn_forms hs1
      · exact hs1
    · exact State.raiseIf_forms hs

theorem State.atQuilt_forms {s0 : State} {ctx va : Nat} {o : Owed} {f : State → Nat → State} (h : s0.Forms) (hf : ∀ (a : State) (b : Nat), a.Forms → (f a
    b).Forms) :
    (s0.atQuilt ctx va o f).Forms := by
  unfold State.atQuilt
  extract_lets s
  have hs : s.Forms := State.walkTouch_forms h
  split
  · refine State.ite_forms hs.upd ?_
    extract_lets s1
    have hs1 : s1.Forms := State.recallRange_forms hs
    exact State.ite_forms hs1 (hf _ _ hs1)
  · exact hs.upd
  · exact State.raiseIf_forms hs

theorem State.readerGone_forms {pa : Nat} (h : s.Forms) : (s.readerGone pa).Forms := by
  unfold State.readerGone
  extract_lets r s1
  have hs1 : s1.Forms := State.recWrite_forms h
  exact State.ite_forms (State.recWrite_forms hs1) hs1

theorem State.closeAt_forms {ctx : Nat} {ver : Word} (h : s.Forms) : (s.closeAt ctx ver).Forms :=
  State.atQuilt_forms h (fun _ _ ha => State.readerGone_forms ha)

theorem State.closeHandle_forms {ctx : Nat} {h : QHandle} (hs : s.Forms) : (s.closeHandle ctx h).Forms := State.closeAt_forms hs

theorem State.discardDraft_forms {d : Draft} (h : s.Forms) : (s.discardDraft d).Forms :=
  State.atQuilt_forms h (fun _ _ ha => State.recWrite_forms (State.recWrite_forms (State.recWrite_forms ha)))

theorem State.owedOut_forms (h : s.Forms) : s.owedOut.Forms := by
  unfold State.owedOut
  refine foldl_forms h.upd (fun t a ht => ?_)
  split
  · exact State.closeAt_forms ht
  · exact State.discardDraft_forms ht

theorem State.dropDrafts_forms {key : Nat} (h : s.Forms) : (s.dropDrafts key).Forms := foldl_forms h.upd (fun _ _ ht => State.discardDraft_forms ht)

theorem State.freeHampers_forms {ctx : Nat} {hs : List Hamper} (h : s.Forms) : (s.freeHampers ctx hs).Forms := State.giveFrames_forms h

theorem State.engAbandon_forms {slot : Nat} (h : s.Forms) : (s.engAbandon slot).Forms := State.engOut_forms (State.modCore_forms h (fun _ hc => hc.upd))

theorem State.engForget_forms {key : Nat} (h : s.Forms) : (s.engForget key).Forms := by
  unfold State.engForget
  extract_lets mine note off s1
  have hnote : ∀ (core : Nat) (st : State) (e : Engine), st.Forms → (note core st e).Forms := by
    intro core st e hst
    unfold note
    split
    · exact State.ite_forms (State.engStatus_forms hst) hst
    · exact hst
  have hs1 : s1.Forms := foldl_forms h (fun _ _ ht => State.modCore_forms (hnote _ _ _ (hnote _ _ _ ht)) (fun _ hc => hc.upd))
  exact hs1.upd

theorem Core.ringDrop_forms {gone : RingOp → Bool} {c : Core} (hc : c.Forms) : (Core.ringDrop gone c).Forms := hc.upd

theorem State.ringDrop_forms {gone : RingOp → Bool} (h : s.Forms) : (s.ringDrop gone).Forms := State.mapCores_forms h (fun _ hx => Core.ringDrop_forms hx)

theorem State.stripSlot_forms {slot : Nat} (h : s.Forms) : (s.stripSlot slot).Forms := by
  unfold State.stripSlot
  extract_lets sl s1 s2 busy s3
  have hs1 : s1.Forms := State.freeHampers_forms h
  have hs2 : s2.Forms := foldl_forms hs1 (fun _ _ ht => State.closeHandle_forms ht)
  have hs3 : s3.Forms := State.engAbandon_forms (State.ite_forms (State.mmaFinish_forms hs2) hs2)
  exact hs3.upd

theorem State.settleAwait_forms {t : Task} (h : s.Forms) : (s.settleAwait t).Forms := by
  unfold State.settleAwait
  split
  · exact State.ite_forms (State.setPathSrc_forms h) h
  · exact h

theorem State.forgetTask_forms {key : Nat} (h : s.Forms) : (s.forgetTask key).Forms := by
  unfold State.forgetTask
  split
  · exact h
  · extract_lets s1 s2 s3
    have hs1 : s1.Forms := State.freeHampers_forms (State.settleAwait_forms h)
    have hs2 : s2.Forms := by
      unfold s2
      split
      · exact foldl_forms hs1 (fun _ _ ht1 => State.closeHandle_forms ht1)
      · exact hs1
    have hs3 : s3.Forms := State.unlock_forms (State.unqueue_forms (State.dropDrafts_forms hs2))
    exact (State.mapGroves_forms (State.mapCores_forms (State.mapSlots_forms hs3 (fun _ hx => hx.upd)) (fun _ hx => hx.upd)) (fun _ hx => hx.upd)).same rfl

theorem State.killOnSlot_forms {key : Nat} (h : s.Forms) : (s.killOnSlot key).Forms := by
  unfold State.killOnSlot
  split
  · exact State.ite_forms (State.report_forms (State.modSlot_forms (State.stripSlot_forms h) (fun _ hq1 => Slot.Forms.upd (Slot.bare_forms hq1))))
      (State.freeSlot_forms (State.stripSlot_forms h))
  · exact h

theorem State.endTask_forms {key : Nat} (h : s.Forms) : (s.endTask key).Forms :=
  State.ringDrop_forms (State.forgetTask_forms (State.engForget_forms (State.killOnSlot_forms h)))

theorem State.killTask_forms {key : Nat} (h : s.Forms) : (s.killTask key).Forms := by
  unfold State.killTask
  extract_lets s1
  have hs1 : s1.Forms := State.endTask_forms h
  exact hs1.upd

theorem State.taskDone_forms {key : Nat} (h : s.Forms) : (s.taskDone key).Forms := by
  unfold State.taskDone
  split
  · extract_lets s1
    have hs1 : s1.Forms := State.forgetTask_forms (State.taskState_forms h)
    exact State.live_forms hs1.upd
  · exact h

theorem State.rerun_forms {key : Nat} (h : s.Forms) : (s.rerun key).Forms := by
  unfold State.rerun
  split
  · exact h
  · extract_lets wasReady stands groves s1 s2 s3 unpin back
    have hs1 : s1.Forms := State.endTask_forms h
    have hs2 : s2.Forms := State.modTask_forms hs1
    have hs3 : s3.Forms := State.taskState_forms hs2
    have hback : back.Forms := (State.mapGroves_forms hs3 (fun _ hx => hx.upd)).same rfl
    exact State.ite_forms (State.taskState_forms hback) (State.enqueue_forms hs3)

theorem State.ctxState_forms {ctx : Nat} {st : CtxSt} (h : s.Forms) : (s.ctxState ctx st).Forms := State.recWrite_forms (State.modCtx_forms h)

theorem State.ctxGroups_forms {ctx n : Nat} (h : s.Forms) : (s.ctxGroups ctx n).Forms := State.recWrite_forms (State.modCtx_forms h)

theorem State.groupGone_forms {ctx : Nat} (h : s.Forms) : (s.groupGone ctx).Forms := by
  unfold State.groupGone
  extract_lets n s1
  have hs1 : s1.Forms := State.ctxGroups_forms h
  exact State.ite_forms (State.ctxState_forms hs1) hs1

theorem State.groupFree_forms {g : Nat} (h : s.Forms) : (s.groupFree g).Forms := by
  unfold State.groupFree
  split
  · extract_lets in_ s0 s1
    have hs0 : s0.Forms := State.modGroup_forms h
    have hs1 : s1.Forms := State.mapGroves_forms hs0 (fun _ hx => hx.upd)
    exact State.groupGone_forms (State.mapSlots_forms hs1 (fun _ hx => Slot.ite_forms hx.upd hx))
  · exact h

theorem State.launchReply_forms {core status : Nat} (h : s.Forms) : (s.launchReply core status).Forms := State.modCore_forms h (fun _ hc => hc.upd)

theorem State.groupEnd_forms {g cause : Nat} (h : s.Forms) : (s.groupEnd g cause).Forms := by
  unfold State.groupEnd
  extract_lets s1
  have hs1 : s1.Forms := State.groupFree_forms (State.modGroup_forms h)
  exact State.groupWrite_forms (State.groupState_forms hs1)

theorem State.groupRefuse_forms {g cause : Nat} (h : s.Forms) : (s.groupRefuse g cause).Forms := by
  unfold State.groupRefuse
  split
  · exact State.launchReply_forms (State.groupEnd_forms h)
  · exact h

theorem State.breakBarriers_forms {desc : Nat} (h : s.Forms) : (s.breakBarriers desc).Forms := by
  unfold State.breakBarriers
  refine foldl_forms h (fun t a ht => ?_)
  refine foldl_forms ht (fun t1 a1 ht1 => ?_)
  refine State.ite_forms ?_ ht1
  extract_lets s1
  have hs1 : s1.Forms := State.recWrite_forms ht1
  exact State.notify_forms (State.modGrove_forms hs1 (fun _ hg => hg.upd))

theorem State.breakGroup_forms {g cause : Nat} (h : s.Forms) : (s.breakGroup g cause).Forms := by
  unfold State.breakGroup
  split
  · exact h
  · refine State.ite_forms h ?_
    refine State.ite_forms (State.groupRefuse_forms h) ?_
    extract_lets s1 s2 s3 s4 s5
    have hs1 : s1.Forms := State.breakBarriers_forms h
    have hs2 : s2.Forms := State.modGroup_forms hs1
    have hs3 : s3.Forms := State.groupWrite_forms (State.groupState_forms hs2)
    have hs4 : s4.Forms := foldl_forms hs3 (fun _ _ ht => State.killTask_forms ht)
    have hs5 : s5.Forms := State.ite_forms (State.launchReply_forms hs4) hs4
    exact State.ringDrop_forms hs5

theorem State.suspend_forms {slot : Nat} {w : Option Wait} (h : s.Forms) : (s.suspend slot w).Forms := by
  unfold State.suspend
  split
  · exact h
  · split
    · exact State.takeXFault_forms h
    · extract_lets sl s0 s1
      have hsl : sl.Forms := State.slot_forms h _
      have hs0 : s0.Forms := State.setSlot_forms h hsl.upd
      have hs1 : s1.Forms := by
        unfold s1
        refine State.ite_forms (State.saveTask_forms hs0) ?_
        split
        · next e2 =>
            extract_lets b
            have hb : b.Forms := State.writeBack_forms (forms_fst e2 (State.spillOut_forms hs0))
            exact State.modSlot_forms (State.modTask_forms hb) (fun _ hq => Slot.Forms.upd (Slot.bare_forms hq))
      exact State.freeSlot_forms (State.taskState_forms (State.modTask_forms hs1))

theorem State.planTouch_forms {w : Who} {own : Nat} {es : List HEntry} (h : s.Forms) : (s.planTouch w own es).Forms := State.walkTouch_forms h

theorem State.recallLists_forms {w : Who} {es : List HEntry} (h : s.Forms) : (s.recallLists w es).Forms :=
  foldl_forms h (fun _ _ ht => State.recallRange_forms ht)

theorem State.readSources_forms {l : List Piece} (h : s.Forms) : (s.readSources l).2.Forms := by
  induction l generalizing s with
  | nil =>
    unfold State.readSources
    exact h
  | cons a l ih =>
    unfold State.readSources
    split
    · next e =>
        split
        · next e1 =>
            refine forms_snd e1 ?_
            refine ih ?_
            refine forms_snd e ?_
            split
            · extract_lets st
              have hst : st.Forms := State.recallRange_forms h
              exact hst
            · exact h
            · exact h

theorem State.applyPiece_forms {slot : Nat} {p : Piece} (h : s.Forms) : (s.applyPiece slot p).Forms := by
  unfold State.applyPiece
  extract_lets k ty s1 s11 __src
  have hs1 : s1.Forms := State.recallRange_forms h
  have hs11 : s11.Forms := State.recallRange_forms h
  refine State.ite_forms h ?_
  refine State.ite_forms (State.fill_forms h) ?_
  refine State.ite_forms ?_ (State.ite_forms (State.perform_forms hs1) (State.perform_forms hs11))
  split
  · exact State.perform_forms h
  · exact h
  · exact h

theorem State.decrement_forms {slot : Nat} {en : Enters} {cs : List (Nat × Bool)} (h : s.Forms) : (s.decrement slot en cs).Forms := by
  unfold State.decrement
  refine foldl_forms h (fun t a ht => ?_)
  extract_lets n s1 s2
  have hs1 : s1.Forms := State.perform_forms ht
  have hs2 : s2.Forms := State.perform_forms hs1
  exact State.ite_forms (State.fire_forms hs2) hs1

theorem State.applyCommit_forms {slot key : Nat} {en : Enters} {ps : List Piece} {counters : List (Nat × Bool)} (h : s.Forms) :
    (s.applyCommit slot key en ps counters).Forms := by
  unfold State.applyCommit
  split
  · next e =>
      extract_lets s1 s2
      have hs1 : s1.Forms := foldl_forms (forms_snd e (State.readSources_forms h)) (fun _ _ ht1 => State.applyPiece_forms ht1)
      have hs2 : s2.Forms := State.unlock_forms (State.decrement_forms hs1)
      exact foldl_forms hs2 (fun _ _ ht1 => State.spawn_forms ht1)

theorem State.postNotice_forms {bs : List Byte} (h : s.Forms) : (s.postNotice bs).Forms := by
  unfold State.postNotice
  refine State.ite_forms ?_ h.upd
  split
  · next e => exact optForms_some e (State.noticePut_forms h)
  · exact h.upd

theorem State.refuseCommit_forms {s0 : State} {key cause : Nat} {addr : Word} (h : s0.Forms) : (s0.refuseCommit key cause addr).Forms := by
  unfold State.refuseCommit
  split
  · split
    · exact h
    · next e1 =>
        refine State.ite_forms (optForms_some e1 (State.drainAll_forms h)) ?_
        extract_lets s1
        have hs1 : s1.Forms := State.taskState_forms (State.modTask_forms (optForms_some e1 (State.drainAll_forms h)))
        exact State.postNotice_forms (State.unlock_forms hs1)
  · exact h

theorem State.commitStart_forms {s0 : State} {key : Nat} (h : s0.Forms) : (s0.commitStart key).Forms := by
  unfold State.commitStart
  split
  · exact h
  · extract_lets s s1
    have hs : s.Forms := State.planTouch_forms h
    have hs1 : s1.Forms := State.recallLists_forms hs
    split
    · exact hs
    · exact State.raiseIf_forms (State.refuseCommit_forms hs)
    · exact hs1.upd

theorem State.lockNext_forms {key : Nat} (h : s.Forms) : (s.lockNext key).Forms := by
  unfold State.lockNext
  split
  · split
    · exact State.ite_forms h h.upd
    · exact h
  · exact h

theorem State.conflicts_forms {key : Nat} {t : Task} {ps : List Piece} (h : s.Forms) : (s.conflicts key t ps).Forms :=
  foldl_forms h (fun _ _ ht1 => State.rerun_forms ht1)

theorem State.commitEnd_forms {key : Nat} {waits : List Nat} (h : s.Forms) : (s.commitEnd key waits).Forms := by
  unfold State.commitEnd
  extract_lets s1
  have hs1 : s1.Forms := State.unlock_forms h
  exact State.ite_forms (State.taskDone_forms hs1) hs1.upd

theorem State.commitApply_forms {key : Nat} (h : s.Forms) : (s.commitApply key).Forms := by
  unfold State.commitApply
  split
  · refine State.ite_forms h ?_
    refine State.ite_forms (State.commitEnd_forms h) ?_
    refine State.ite_forms h ?_
    split
    · exact State.refuseCommit_forms h
    · refine State.ite_forms (State.refuseCommit_forms h) ?_
      refine State.ite_forms h ?_
      extract_lets s1 raise s2
      have hs1 : s1.Forms := State.ite_forms (State.conflicts_forms h) h
      have hs2 : s2.Forms := State.applyCommit_forms hs1
      exact State.commitEnd_forms hs2
  · exact h

theorem State.stallFull_forms {before : State} (h : s.Forms) (hbefore : before.Forms) : (s.stallFull before).Forms :=
  State.ite_forms h (State.modMe_forms h (fun _ hq => hq.upd))

/-! ### GuestQueues -/

theorem State.gqSet_forms {q st : Nat} (h : s.Forms) : (s.gqSet q st).Forms := State.recWrite_forms h

theorem State.quiesce_forms {q : Nat} (h : s.Forms) : (s.quiesce q).Forms := by
  unfold State.quiesce
  refine State.ite_forms ?_ h
  extract_lets s1 __src
  have hs1 : s1.Forms := State.gqSet_forms h
  exact hs1.upd

theorem State.quiesceCtx_forms {ctx : Nat} (h : s.Forms) : (s.quiesceCtx ctx).Forms := foldl_forms h (fun _ _ ht => State.quiesce_forms ht)

theorem State.gqMove_forms {ctx old new : Nat} (h : s.Forms) : (s.gqMove ctx old new).Forms :=
  foldl_forms h (fun _ _ ht => State.ite_forms (State.gqSet_forms ht) ht)

theorem State.guestPut_forms {p : Nat} {inter : Bool} {bs : List Byte} {kind : Nat} {sig : Bool} (h : s.Forms) : (s.guestPut p inter bs kind sig).Forms := by
  unfold State.guestPut
  extract_lets s1
  have hs1 : s1.Forms := State.traceAdd_forms (State.poke_forms (State.recallRange_forms h))
  exact State.ite_forms (State.notify_forms hs1) hs1

theorem State.guestRecord_forms {q : Nat} {idx : Option Nat} {f : XFault} {progress : Nat} (h : s.Forms) : (s.guestRecord q idx f progress).Forms := by
  unfold State.guestRecord
  extract_lets fs token r __src s1 s2
  have hs1 : s1.Forms := h.upd
  have hs2 : s2.Forms := State.ite_forms (State.ctxRaise_forms hs1) hs1
  split
  · next e => exact forms_fst e (State.recordPut_forms hs2)
  · next e => exact State.Forms.upd (forms_fst e (State.recordPut_forms hs2))

theorem State.guestDenied_forms {b : LateBad} (h : s.Forms) : (s.guestDenied b).Forms := State.ite_forms (State.guestRecord_forms h) h.upd

theorem State.guestBadOut_forms (h : s.Forms) : s.guestBadOut.Forms := foldl_forms h.upd (fun _ _ ht => State.guestDenied_forms ht)

theorem State.guestWalk_forms {ctx va : Nat} (h : s.Forms) : (s.guestWalk ctx va).Forms := State.ite_forms h (State.walkTouch_forms h)

theorem State.guestWord_forms {s0 : State} {q ctx va v : Nat} (h : s0.Forms) : (s0.guestWord q ctx va v).Forms := by
  unfold State.guestWord
  refine State.ite_forms h ?_
  extract_lets s
  have hs : s.Forms := State.guestWalk_forms h
  split
  · split
    · exact State.ite_forms hs.upd (State.guestPut_forms hs)
  · exact State.raiseIf_forms (State.guestDenied_forms hs)
  · exact hs
  · exact hs

theorem State.guestBytes_forms {s0 : State} {ctx va n : Nat} (h : s0.Forms) : (s0.guestBytes ctx va n).2.Forms := by
  unfold State.guestBytes
  extract_lets s
  have hs : s.Forms := State.guestWalk_forms h
  split
  · split
    · exact hs
    · extract_lets s1
      have hs1 : s1.Forms := State.recallRange_forms hs
      exact hs1
  · exact State.raiseIf_forms hs

theorem State.packetDone_forms {s0 : State} {q i status : Nat} (h : s0.Forms) : (s0.packetDone q i status).Forms := by
  unfold State.packetDone
  extract_lets ctx s
  have hs : s.Forms := State.guestWalk_forms h
  split
  · extract_lets s1 pk
    have hs1 : s1.Forms := State.recallRange_forms hs
    exact State.ite_forms hs1 (State.guestWord_forms hs1)
  · exact State.raiseIf_forms hs

theorem State.gqOff_forms {q : Nat} (h : s.Forms) : (s.gqOff q).Forms := by
  unfold State.gqOff
  extract_lets s1 __src __src1
  have hs1 : s1.Forms := State.gqSet_forms h
  exact hs1.upd

theorem State.guestFence_forms (h : s.Forms) : s.guestFence.Forms := by
  unfold State.guestFence
  extract_lets g s1 s2 __src
  have hs1 : s1.Forms := foldl_forms h (fun _ _ ht => State.packetDone_forms ht)
  have hs2 : s2.Forms := State.ite_forms hs1 (foldl_forms hs1 (fun _ _ ht => State.ite_forms ht (State.gqSet_forms ht)))
  exact hs2.upd

/-! ### Pager -/

theorem State.tlbDrop_forms {ctx lo hi : Nat} (h : s.Forms) : (s.tlbDrop ctx lo hi).Forms :=
  State.mapGroves_forms (State.mapCores_forms h (fun _ hx => hx.upd)) (fun _ hx => hx.upd)

theorem postRange_forms {ctx start len : Nat} (h : s.Forms) : (postRange ctx start len s).Forms := by
  unfold postRange
  split
  · extract_lets s1 __src
    have hs1 : s1.Forms := State.tlbDrop_forms h
    exact Eff.ite_forms hs1.upd hs1

theorem postStep_forms {ctx start len : Nat} (h : s.Forms) : (postStep ctx start len s).Forms :=
  State.release_forms h (fun _ ha => Eff.ite_forms ha.upd (Eff.ite_forms ha (Eff.ite_forms ha (postRange_forms ha))))

theorem execPgPost_forms {a b c : Reg} (h : s.Forms) : outForms (execPgPost a b c s) :=
  firmwareOnly_forms h (Eff.ite_forms h (Eff.ite_forms h (postStep_forms h)))

theorem State.postAbandon_forms {slot : Nat} (h : s.Forms) : (s.postAbandon slot).Forms := h.upd

theorem State.resumeTask_forms {key : Nat} (h : s.Forms) : (s.resumeTask key).Forms := by
  unfold State.resumeTask
  split
  · exact h
  · refine State.ite_forms h ?_
    extract_lets s1 s2
    have hs1 : s1.Forms := State.modTask_forms h
    have hs2 : s2.Forms := State.taskState_forms (State.modTask_forms hs1)
    exact State.ite_forms (State.ite_forms (State.commitStart_forms hs2) hs2) (State.enqueue_forms hs1)

theorem State.replayEngine_forms {core : Nat} {gather : Bool} {seq : Half} (h : s.Forms) : (s.replayEngine core gather seq).Forms :=
  State.ite_forms (State.modCore_forms h (fun _ hc => Core.setEng_forms hc)) h

theorem State.replaySlot_forms {src path : Nat} {seq : Half} (h : s.Forms) : (s.replaySlot src path seq).Forms := by
  unfold State.replaySlot
  extract_lets slot f s1 sl
  have hs1 : s1.Forms := State.setPathSrc_forms h
  refine State.ite_forms h ?_
  split
  · exact State.resumeTask_forms hs1
  · exact State.ite_forms (State.modSlot_forms hs1 (fun _ hq => hq.upd)) hs1

theorem State.replayGuest_forms {ctx token : Nat} {seq : Half} (h : s.Forms) : (s.replayGuest ctx token seq).Forms := by
  unfold State.replayGuest
  extract_lets of_ __src
  split
  · split
    · exact h.upd
    · exact h
  · exact h.upd

theorem State.replay_forms {r : List Byte} (h : s.Forms) : (s.replay r).Forms :=
  State.ite_forms (State.replayEngine_forms h) (State.ite_forms (State.replayGuest_forms h) (State.ite_forms h (State.replaySlot_forms h)))

theorem replayStep_forms {pa : Nat} (h : s.Forms) : (replayStep pa s).Forms := by
  unfold replayStep
  refine Eff.ite_forms h ?_
  extract_lets s1
  have hs1 : s1.Forms := State.recallRange_forms h
  exact Eff.ite_forms hs1 (State.replay_forms hs1)

theorem execPgReplay_forms {a : Reg} (h : s.Forms) : outForms (execPgReplay a s) := firmwareOnly_forms h (Eff.ite_forms h (replayStep_forms h))

theorem execEcall_forms (h : s.Forms) : outForms (execEcall s) := guarded_forms h h

theorem execEbreak_forms (h : s.Forms) : outForms (execEbreak s) := guarded_forms h h

theorem execTrap_forms {e : BitVec 8} (h : s.Forms) : outForms (execTrap e s) := guarded_forms h h

/-! ### Contexts -/

theorem State.ctxTake_forms {p : Pending} (h : s.Forms) : (s.ctxTake p).Forms := h.upd

theorem State.ctxReply_forms {core ctx op status : Nat} (h : s.Forms) : (s.ctxReply core ctx op status).Forms :=
  State.ite_forms h (State.modCore_forms h (fun _ hc => hc.upd))

theorem State.ctxServe_forms {op : Nat} {f : State → Nat → Nat → State} (h : s.Forms) (hf : ∀ (a : State) (b a_2 : Nat), a.Forms → (f a b a_2).Forms) :
    (s.ctxServe op f).Forms := by
  unfold State.ctxServe
  split
  · exact h
  · exact State.ite_forms (State.ctxReply_forms (State.ctxTake_forms h)) (State.ite_forms (hf _ _ _ (State.ctxTake_forms h)) h)

theorem createCtx_forms {core ctx : Nat} (h : s.Forms) : (createCtx s core ctx).Forms := by
  unfold createCtx
  refine State.ite_forms ?_ (State.ctxReply_forms h)
  extract_lets d s1 s2 s3
  have hs1 : s1.Forms := State.recWrite_forms (State.recWrite_forms (State.ctxGroups_forms h))
  have hs2 : s2.Forms := foldl_forms hs1 (fun _ _ ht => State.recWrite_forms ht)
  have hs3 : s3.Forms := hs2.upd
  exact State.ctxReply_forms (State.ctxState_forms hs3)

theorem execCtxCreate_forms (h : s.Forms) : outForms (execCtxCreate s) := State.ctxServe_forms h (fun _ _ _ ha => createCtx_forms ha)

theorem State.ctxRead_forms {ctx : Nat} (h : s.Forms) : (s.ctxRead ctx).2.Forms := by
  unfold State.ctxRead
  extract_lets d s1
  have hs1 : s1.Forms := State.recallRange_forms h
  exact hs1

theorem commitCtx_forms {core ctx : Nat} (h : s.Forms) : (commitCtx s core ctx).Forms := by
  unfold commitCtx
  refine State.ite_forms (State.ctxReply_forms h) ?_
  split
  · next e => exact State.ctxRaise_forms (State.ctxReply_forms (forms_snd e (State.ctxRead_forms h)))
  · next e =>
        exact State.ite_forms (State.ctxReply_forms (State.ctxState_forms (State.modCtx_forms (forms_snd e (State.ctxRead_forms h))))) (State.ctxReply_forms
          (forms_snd e (State.ctxRead_forms h)))

theorem execCtxCommit_forms (h : s.Forms) : outForms (execCtxCommit s) := State.ctxServe_forms h (fun _ _ _ ha => commitCtx_forms ha)

theorem State.stopSlots_forms {ctx : Nat} (h : s.Forms) : (s.stopSlots ctx).Forms := State.mapSlots_forms h (fun _ hx => Slot.ite_forms hx.upd hx)

theorem State.stopEnd_forms {ctx : Nat} (h : s.Forms) : (s.stopEnd ctx).Forms := by
  unfold State.stopEnd
  extract_lets c fin
  have hfin : ∀ (st : CtxSt) (op : Nat), (fin st op).Forms := by
    intro st op
    unfold fin
    extract_lets s1
    have hs1 : s1.Forms := State.ctxState_forms (State.modCtx_forms h)
    split
    · exact State.ctxReply_forms hs1
    · exact hs1
  refine State.ite_forms h ?_
  split
  · exact hfin _ _
  · exact hfin _ _
  · exact h
  · exact h

theorem State.stopBegin_forms {core ctx : Nat} {kind : CtxStop} (h : s.Forms) : (s.stopBegin core ctx kind).Forms := by
  unfold State.stopBegin
  extract_lets s1
  have hs1 : s1.Forms := State.modCtx_forms h
  exact State.stopEnd_forms (State.quiesceCtx_forms (State.stopSlots_forms hs1))

theorem suspendCtx_forms {core ctx : Nat} (h : s.Forms) : (suspendCtx s core ctx).Forms := by
  unfold suspendCtx
  split
  · exact State.stopBegin_forms h
  · exact State.stopBegin_forms h
  · exact State.ctxReply_forms h
  · exact State.ctxReply_forms h
  · exact State.ctxReply_forms h
  · exact State.ctxReply_forms h
  · exact State.ctxReply_forms h

theorem execCtxSuspend_forms (h : s.Forms) : outForms (execCtxSuspend s) := State.ctxServe_forms h (fun _ _ _ ha => suspendCtx_forms ha)

theorem State.vtResume_forms {ctx : Nat} (h : s.Forms) : (s.vtResume ctx).Forms := foldl_forms h (fun _ _ ht => State.ite_forms (State.vtRaise_forms ht) ht)

theorem resumeCtx_forms {core ctx : Nat} (h : s.Forms) : (resumeCtx s core ctx).Forms := by
  unfold resumeCtx
  split
  · split
    · next e1 => exact State.ctxRaise_forms (State.ctxReply_forms (forms_snd e1 (State.ctxRead_forms h)))
    · next e1 =>
        refine State.ite_forms ?_ (State.ctxReply_forms (forms_snd e1 (State.ctxRead_forms h)))
        extract_lets s1 s2
        have hs1 : s1.Forms := State.modCtx_forms (forms_snd e1 (State.ctxRead_forms h))
        have hs2 : s2.Forms := State.ctxState_forms hs1
        exact State.ctxReply_forms (State.vtResume_forms (State.gqMove_forms hs2))
  · split
    · next e1 => exact State.ctxRaise_forms (State.ctxReply_forms (forms_snd e1 (State.ctxRead_forms h)))
    · next e1 =>
        refine State.ite_forms ?_ (State.ctxReply_forms (forms_snd e1 (State.ctxRead_forms h)))
        extract_lets s1 s2
        have hs1 : s1.Forms := State.modCtx_forms (forms_snd e1 (State.ctxRead_forms h))
        have hs2 : s2.Forms := State.ctxState_forms hs1
        exact State.ctxReply_forms (State.vtResume_forms (State.gqMove_forms hs2))
  · exact State.ctxReply_forms h
  · exact State.ctxReply_forms h
  · exact State.ctxReply_forms h
  · exact State.ctxReply_forms h
  · exact State.ctxReply_forms h

theorem execCtxResume_forms (h : s.Forms) : outForms (execCtxResume s) := State.ctxServe_forms h (fun _ _ _ ha => resumeCtx_forms ha)

theorem faultCtx_forms {core ctx : Nat} (h : s.Forms) : (faultCtx s core ctx).Forms := by
  unfold faultCtx
  split
  · exact State.ctxReply_forms h
  · exact State.ctxReply_forms h
  · exact State.stopBegin_forms h
  · exact State.stopBegin_forms h
  · exact State.stopBegin_forms h
  · exact State.stopBegin_forms h
  · exact State.stopBegin_forms h

theorem execCtxFault_forms (h : s.Forms) : outForms (execCtxFault s) := State.ctxServe_forms h (fun _ _ _ ha => faultCtx_forms ha)

theorem execCtxDeviceFault_forms {ctx : Nat} (h : s.Forms) : outForms (execCtxDeviceFault ctx s) := h.upd

theorem execCtxStopComplete_forms {ctx : Nat} (h : s.Forms) : outForms (execCtxStopComplete ctx s) := State.stopEnd_forms h

theorem State.killCtx_forms {ctx : Nat} (h : s.Forms) : (s.killCtx ctx).Forms := foldl_forms h (fun _ _ ht => State.killTask_forms ht)

theorem State.dropSaves_forms {ctx : Nat} (h : s.Forms) : (s.dropSaves ctx).Forms := State.mapSlots_forms h (fun _ hx => Slot.ite_forms hx.upd hx)

theorem State.claimBreak_forms {ctx : Nat} (h : s.Forms) : (s.claimBreak ctx).Forms := by
  unfold State.claimBreak
  split
  · exact State.ite_forms (State.launchReply_forms (State.recWrite_forms h.upd)) h
  · exact h

theorem teardownCtx_forms {core ctx : Nat} (h : s.Forms) : (teardownCtx s core ctx).Forms := by
  unfold teardownCtx
  split
  · exact State.ctxReply_forms h
  · exact State.ctxReply_forms h
  · extract_lets s1 s2 s3
    have hs1 : s1.Forms := State.ctxState_forms (State.modCtx_forms h)
    have hs2 : s2.Forms := foldl_forms (State.claimBreak_forms hs1) (fun _ _ ht => State.breakGroup_forms ht)
    have hs3 : s3.Forms := State.dropSaves_forms (State.killCtx_forms hs2)
    exact State.quiesceCtx_forms (State.tlbDrop_forms (State.unqueue_forms hs3))
  · extract_lets s1 s2 s3
    have hs1 : s1.Forms := State.ctxState_forms (State.modCtx_forms h)
    have hs2 : s2.Forms := foldl_forms (State.claimBreak_forms hs1) (fun _ _ ht => State.breakGroup_forms ht)
    have hs3 : s3.Forms := State.dropSaves_forms (State.killCtx_forms hs2)
    exact State.quiesceCtx_forms (State.tlbDrop_forms (State.unqueue_forms hs3))
  · extract_lets s1 s2 s3
    have hs1 : s1.Forms := State.ctxState_forms (State.modCtx_forms h)
    have hs2 : s2.Forms := foldl_forms (State.claimBreak_forms hs1) (fun _ _ ht => State.breakGroup_forms ht)
    have hs3 : s3.Forms := State.dropSaves_forms (State.killCtx_forms hs2)
    exact State.quiesceCtx_forms (State.tlbDrop_forms (State.unqueue_forms hs3))
  · extract_lets s1 s2 s3
    have hs1 : s1.Forms := State.ctxState_forms (State.modCtx_forms h)
    have hs2 : s2.Forms := foldl_forms (State.claimBreak_forms hs1) (fun _ _ ht => State.breakGroup_forms ht)
    have hs3 : s3.Forms := State.dropSaves_forms (State.killCtx_forms hs2)
    exact State.quiesceCtx_forms (State.tlbDrop_forms (State.unqueue_forms hs3))
  · extract_lets s1 s2 s3
    have hs1 : s1.Forms := State.ctxState_forms (State.modCtx_forms h)
    have hs2 : s2.Forms := foldl_forms (State.claimBreak_forms hs1) (fun _ _ ht => State.breakGroup_forms ht)
    have hs3 : s3.Forms := State.dropSaves_forms (State.killCtx_forms hs2)
    exact State.quiesceCtx_forms (State.tlbDrop_forms (State.unqueue_forms hs3))

theorem execCtxTeardown_forms (h : s.Forms) : outForms (execCtxTeardown s) := State.ctxServe_forms h (fun _ _ _ ha => teardownCtx_forms ha)

theorem execCtxDrained_forms {ctx : Nat} (h : s.Forms) : outForms (execCtxDrained ctx s) := by
  unfold execCtxDrained
  extract_lets c off __src s1 s2
  have hoff : off.Forms := foldl_forms h (fun _ _ ht => State.ite_forms (State.gqOff_forms ht) ht)
  have hs1 : s1.Forms := State.modCtx_forms hoff
  have hs2 : s2.Forms := State.ctxState_forms hs1
  refine State.ite_forms ?_ h
  split
  · exact State.ctxReply_forms hs2
  · exact hs2

theorem execTrapNoticeRetry_forms {slot : Nat} (h : s.Forms) : outForms (execTrapNoticeRetry slot s) := by
  unfold execTrapNoticeRetry
  extract_lets s1
  have hs1 : s1.Forms := State.ite_forms (State.report_forms h) h
  split
  · split
    · next e1 => exact State.Forms.upd (optForms_some e1 (State.noticePut_forms hs1))
    · exact hs1
  · exact hs1

theorem State.engRecordOut_forms {core : Nat} {gather : Bool} (h : s.Forms) : (s.engRecordOut core gather).Forms := by
  unfold State.engRecordOut
  extract_lets e __src
  split
  · split
    · next e2 => exact State.modCore_forms (forms_fst e2 (State.recordPut_forms h)) (fun _ hc => Core.setEng_forms hc)
    · next e2 => exact forms_fst e2 (State.recordPut_forms h)
  · exact h

theorem execFaultRecordRetry_forms {src : Nat} (h : s.Forms) : outForms (execFaultRecordRetry src s) := by
  unfold execFaultRecordRetry
  refine State.ite_forms ?_ ?_
  · extract_lets s1
    have hs1 : s1.Forms := State.ite_forms (State.report_forms h) h
    exact State.engRecordOut_forms (State.engRecordOut_forms hs1)
  · extract_lets sp s1
    have hsp : sp.Forms := State.guestBadOut_forms h
    have hs1 : s1.Forms := by
      unfold s1
      refine foldl_forms hsp (fun t a ht => ?_)
      split
      · next e => exact State.Forms.upd (forms_fst e (State.recordPut_forms ht))
      · next e => exact forms_fst e (State.recordPut_forms ht)
    split
    · split
      · next e1 => exact State.Forms.upd (forms_fst e1 (State.recordPut_forms hs1))
      · next e1 => exact forms_fst e1 (State.recordPut_forms hs1)
    · exact hs1

end Sys2Proof.Machine
end

section
/-! PROOF. What the functions of Buffers, Engines, Faults, Fetch, Scalar lead to keeps the forms (R300, R348; log 3). -/

namespace Sys2Proof.Machine

variable {s : State}

/-! ### Buffers -/

theorem State.localWrite_forms {core : Nat} {scr : Bool} {off : Nat} {bs : List Byte} (h : s.Forms) : (s.localWrite core scr off bs).Forms :=
  State.ite_forms (State.scrWrite_forms h) (State.tcmWrite_forms h)

theorem State.cbProd_forms {core : Nat} {b : Cb} {n : Nat} (h : s.Forms) : (s.cbProd core b n).Forms := State.localWrite_forms h

theorem State.cbCons_forms {core : Nat} {b : Cb} {n : Nat} (h : s.Forms) : (s.cbCons core b n).Forms := State.localWrite_forms h

theorem State.feedTrap_forms {h : Nat} {k : Eff} (hs : s.Forms) (hk : k.Forms) : (s.feedTrap h k).Forms := by
  unfold State.feedTrap
  extract_lets c mine gath
  have hgath : gath.Forms := Eff.ite_forms (State.engTrap_forms hs hk) hk
  exact Eff.ite_forms (State.engTrap_forms hs hgath) hgath

/-! ### Engines -/

theorem State.listReady_forms {d : EngDesc} {kind : Nat} (h : s.Forms) : (s.listReady d kind).Forms := by
  unfold State.listReady
  refine Got.ite_forms h ?_
  extract_lets vas s0 places
  have hs0 : s0.Forms := State.devWalks_forms h
  exact Got.ite_forms hs0 (foldl_forms hs0 (fun _ _ ht => State.sigRead_forms (State.recallRange_forms ht)))

theorem State.dstCheck_forms {l : List (Nat × Nat)} (h : s.Forms) : (s.dstCheck l).Forms := by
  induction l generalizing s with
  | nil =>
    unfold State.dstCheck
    exact h
  | cons a l ih =>
    unfold State.dstCheck
    exact Got.ite_forms h (Got.bind_forms (State.xlate_forms h) (fun _ _ ht => ih ht))

theorem State.engQueue_forms {gather : Bool} {c : EngCmd} (h : s.Forms) : (s.engQueue gather c).Forms :=
  State.modMyCore_forms h (fun _ hc1 => Core.setEng_forms hc1)

theorem engCollect_forms {kind off : Nat} {bs : List Byte} (h : s.Forms) : (engCollect kind off bs s).Forms :=
  Got.andThen_forms (State.listReady_forms h) (fun _ _ ht => Got.andThen_forms (State.dstCheck_forms ht) (fun _ _ ht1 => Eff.ite_forms ht1 (Got.andThen_forms
    (State.collect_forms ht1.upd) (fun _ _ ht2 => State.engQueue_forms ht2))))

theorem engIssue_forms {kind : Nat} {xa : Word} {s : State} (h : s.Forms) : (engIssue kind xa s).Forms := by
  unfold engIssue
  extract_lets core gather off top inside bs d
  refine Eff.ite_forms h (Eff.ite_forms h (Eff.ite_forms h (Eff.ite_forms h ?_)))
  refine Eff.ite_forms h (Eff.ite_forms h (Eff.ite_forms h (Eff.ite_forms h (Eff.ite_forms h ?_))))
  exact Eff.ite_forms h (Eff.ite_forms (engCollect_forms h) (State.engQueue_forms h))

theorem execCp_forms {a : Reg} (h : s.Forms) : outForms (execCp a s) := guarded_forms h (State.engTrap_forms h (engIssue_forms h))

theorem execGa_forms {a : Reg} (h : s.Forms) : outForms (execGa a s) := guarded_forms h (State.engTrap_forms h (engIssue_forms h))

theorem execSc_forms {a : Reg} (h : s.Forms) : outForms (execSc a s) := guarded_forms h (State.engTrap_forms h (engIssue_forms h))

theorem execEngStat_forms {a : Reg} (h : s.Forms) : outForms (execEngStat a s) := guarded_forms h (State.setX_forms h)

theorem State.engAt_forms {core : Nat} {gather : Bool} {c : EngCmd} {acc : Access} {sp a n : Nat} (h : s.Forms) :
    exForms (fun a => a.2.Forms) (s.engAt core gather c acc sp a n) := by
  unfold State.engAt
  split
  · exact h
  · split
    · exact trivial
    · split
      · next e =>
          split
          · exact trivial
          · exact forms_snd e (State.translate_forms h)
      · exact trivial
      · exact trivial
      · exact trivial

theorem State.sigTask_forms {task : Option Nat} {p n : Nat} (h : s.Forms) : (s.sigTask task p n).Forms := by
  unfold State.sigTask
  split
  · exact h
  · split
    · exact State.sigRead_forms h
    · exact State.modTask_forms h

theorem State.engRead1_forms {core : Nat} {gather : Bool} {c : EngCmd} {sp a n : Nat} (h : s.Forms) :
    exForms (fun a => a.2.Forms) (s.engRead1 core gather c sp a n) := by
  unfold State.engRead1
  split
  · exact trivial
  · next e =>
      split
      · exact trivial
      · exact exForms_ok_snd e (State.engAt_forms h)
  · next e =>
      extract_lets s2 bad
      have hs2 : s2.Forms := State.recallRange_forms (exForms_ok_snd e (State.engAt_forms h))
      split
      · exact trivial
      · exact State.sigTask_forms hs2

theorem State.engRead_forms {core : Nat} {gather : Bool} {c : EngCmd} {sp a n : Nat} (h : s.Forms) :
    exForms (fun a => a.2.Forms) (s.engRead core gather c sp a n) := by
  unfold State.engRead
  refine foldl_forms_ex h (fun o a1 ho => ?_)
  split
  · exact ho
  · split
    · exact trivial
    · next e => exact exForms_ok_snd e (State.engRead1_forms ho)

theorem State.engDst_forms {core : Nat} {gather : Bool} {c : EngCmd} {sp a : Nat} {bs : List Byte} (h : s.Forms) :
    exForms (fun a => a.2.Forms) (s.engDst core gather c sp a bs) := by
  unfold State.engDst
  refine foldl_forms_ex h (fun o a1 ho => ?_)
  split
  · exact ho
  · split
    · exact trivial
    · next e => exact exForms_ok_snd e (State.engAt_forms ho)

theorem State.engWrite_forms {core : Nat} {c : EngCmd} {w : EngPlace × List Byte} (h : s.Forms) : (s.engWrite core c w).Forms := by
  unfold State.engWrite
  split
  · exact State.localWrite_forms h
  · exact State.perform_forms h

theorem State.listByte_forms {core : Nat} {gather : Bool} {c : EngCmd} {d : EngDesc} {a : Nat} (h : s.Forms) :
    exForms (fun a => a.2.2.Forms) (s.listByte core gather c d a) := by
  unfold State.listByte
  extract_lets pick lo hi
  split
  · exact h
  · split
    · exact trivial
    · next e1 => exact exForms_ok_snd e1 (State.engRead1_forms h)

theorem State.listIndex_forms {core : Nat} {gather : Bool} {c : EngCmd} {d : EngDesc} {k : Nat} (h : s.Forms) :
    exForms (fun a => a.2.2.Forms) (s.listIndex core gather c d k) := by
  unfold State.listIndex
  refine foldl_forms_ex h (fun o a ho => ?_)
  split
  · exact ho
  · split
    · exact trivial
    · next e => exact exForms_ok_snd_snd e (State.listByte_forms ho)

theorem State.elemItem_forms {core : Nat} {gather : Bool} {c : EngCmd} {d : EngDesc} {src dst k : Nat} (h : s.Forms) :
    exForms (fun a => a.2.2.Forms) (s.elemItem core gather c d src dst k) := by
  unfold State.elemItem
  split
  · exact trivial
  · next e =>
      extract_lets kind r
      split
      · exact exForms_ok_snd_snd e (State.listIndex_forms h)
      · split
        · exact trivial
        · split
          · exact exForms_ok_snd_snd e (State.listIndex_forms h)
          · exact exForms_ok_snd_snd e (State.listIndex_forms h)

theorem State.elemItems_forms {core : Nat} {gather : Bool} {c : EngCmd} {d : EngDesc} {src dst lo hi : Nat} (h : s.Forms) :
    exForms (fun a => a.2.2.Forms) (s.elemItems core gather c d src dst lo hi) := by
  unfold State.elemItems
  refine foldl_forms_ex h (fun o a ho => ?_)
  split
  · exact ho
  · split
    · exact trivial
    · next e => exact exForms_ok_snd_snd e (State.elemItem_forms ho)
    · next e => exact exForms_ok_snd_snd e (State.elemItem_forms ho)

theorem State.chunk_forms {core : Nat} {gather : Bool} {c : EngCmd} {d : EngDesc} {src dst : Nat} (h : s.Forms) :
    exForms (fun a => a.2.2.Forms) (s.chunk core gather c d src dst) := by
  unfold State.chunk
  split
  · exact h
  · extract_lets hi
    split
    · exact trivial
    · next e => exact exForms_ok_snd_snd e (State.elemItems_forms h)

theorem State.srcRead_forms {core : Nat} {gather : Bool} {c : EngCmd} {sp a n : Nat} (h : s.Forms) :
    exForms (fun a => a.2.Forms) (s.srcRead core gather c sp a n) := by
  unfold State.srcRead
  split
  · split
    · exact trivial
    · next e1 => exact exForms_ok_snd e1 (State.engRead_forms h)
  · exact State.engRead_forms h

theorem State.gatherWrites_forms {core : Nat} {gather : Bool} {c : EngCmd} {ss ds : EngSide} {items : List Item} (h : s.Forms) :
    exForms (fun a => a.2.Forms) (s.gatherWrites core gather c ss ds items) := by
  unfold State.gatherWrites
  refine foldl_forms_ex h (fun o a ho => ?_)
  split
  · exact ho
  · split
    · exact trivial
    · next e =>
        split
        · exact trivial
        · next e1 =>
            refine exForms_ok_snd e1 ?_
            refine State.engDst_forms ?_
            refine exForms_ok_snd e ?_
            split
            · exact State.srcRead_forms ho
            · exact ho

theorem State.setRun_forms {core : Nat} {gather : Bool} {run : Option EngCmd} (h : s.Forms) : (s.setRun core gather run).Forms :=
  State.modCore_forms h (fun _ hc => Core.setEng_forms hc)

theorem State.fillAll_forms {slot tag : Nat} {f : HEntry → Option HEntry} (h : s.Forms) : (s.fillAll slot tag f).Forms := by
  unfold State.fillAll
  extract_lets g all s1
  have hs1 : s1.Forms := (State.mapSlots_forms h (fun _ hx => hx.upd)).same rfl
  exact foldl_forms hs1 (fun _ _ ht => State.hamperOut_forms ht)

theorem State.capture_forms {core : Nat} {gather : Bool} {c : EngCmd} (h : s.Forms) : exForms (fun a => a.2.2.Forms) (s.capture core gather c) := by
  unfold State.capture
  extract_lets d ss pos own plain o hi off
  have hplain : ∀ (r : Except EngStop (List Byte × State)), exForms (fun a => a.2.Forms) r → exForms (fun a => a.2.2.Forms) (plain r) := by
    intro r hr
    unfold plain
    split
    · exact trivial
    · exact hr
  split
  · split
    · exact hplain _ (State.engRead_forms h)
    · split
      · exact hplain _ (State.engRead_forms h)
      · split
        · exact trivial
        · next e1 =>
            refine foldl_forms_ex (exForms_ok_snd_snd e1 (State.elemItems_forms h)) (fun o1 a ho1 => ?_)
            split
            · exact ho1
            · split
              · split
                · exact trivial
                · next e3 => exact exForms_ok_snd e3 (State.engRead_forms ho1)
              · exact ho1
  · exact hplain _ (State.engRead_forms h)

theorem State.engMove_forms {core : Nat} {gather : Bool} {c : EngCmd} (h : s.Forms) : (s.engMove core gather c).Forms := by
  unfold State.engMove
  extract_lets d ss ds
  split
  · exact trivial
  · split
    · split
      · exact State.fillAll_forms h
      · split
        · exact trivial
        · next e1 => exact State.setRun_forms (State.fillAll_forms (exForms_ok_snd_snd e1 (State.capture_forms h)))
    · split
      · exact h
      · split
        · exact trivial
        · next e1 =>
            split
            · split
              · exact trivial
              · next e3 => exact State.setRun_forms (exForms_ok_snd e3 (State.engRead_forms (exForms_ok_snd_snd e1 (State.chunk_forms h))))
            · split
              · exact trivial
              · next e3 =>
                    exact State.setRun_forms (foldl_forms (exForms_ok_snd e3 (State.gatherWrites_forms (exForms_ok_snd_snd e1 (State.chunk_forms h))))
                      (fun _ _ ht2 => State.engWrite_forms ht2))

theorem State.engGo_forms {core : Nat} {gather : Bool} {n : Nat} (h : s.Forms) : (State.engGo core gather n s).1.Forms := by
  induction n generalizing gather s core with
  | zero =>
    unfold State.engGo
    exact h
  | succ n ih =>
    unfold State.engGo
    split
    · exact h
    · split
      · next e1 => exact ih (EngMove.forms_of_eq e1 (State.engMove_forms h))
      · next e1 => exact EngMove.forms_of_eq e1 (State.engMove_forms h)
      · exact h

theorem State.engRunOut_forms {core : Nat} {gather : Bool} (h : s.Forms) : (s.engRunOut core gather).1.Forms := by
  unfold State.engRunOut
  split
  · exact h
  · exact State.engGo_forms h

theorem State.engDone_forms {core : Nat} {gather : Bool} {c : EngCmd} (h : s.Forms) : (s.engDone core gather c).Forms := by
  unfold State.engDone
  extract_lets d s1
  have hs1 : s1.Forms := by
    unfold s1
    split
    · exact State.ite_forms (State.cbProd_forms h) (State.ite_forms (State.cbCons_forms h) h)
    · exact h
  exact State.setRun_forms (State.engStatus_forms hs1)

theorem State.engFault_forms {core : Nat} {gather : Bool} {c : EngCmd} {f : XFault} (h : s.Forms) : (s.engFault core gather c f).Forms := by
  unfold State.engFault
  extract_lets d s1 e fs token r s2
  have hs1 : s1.Forms := State.setRun_forms (State.engStatus_forms h)
  have hs2 : s2.Forms := State.ite_forms (State.ctxRaise_forms hs1) hs1
  split
  · next e1 => exact State.modCore_forms (forms_fst e1 (State.recordPut_forms hs2)) (fun _ hc1 => Core.setEng_forms hc1)
  · next e1 => exact State.modCore_forms (forms_fst e1 (State.recordPut_forms hs2)) (fun _ hc1 => Core.setEng_forms hc1)

theorem State.engFailed_forms {core : Nat} {gather : Bool} {c : EngCmd} {cause : Nat} {addr : Word} {sec : Option Nat} (h : s.Forms) :
    (s.engFailed core gather c cause addr sec).Forms := by
  unfold State.engFailed
  extract_lets s0 s1 s2 f
  have hs0 : s0.Forms := by
    unfold s0
    split
    · exact State.ite_forms (State.orsOut_forms (State.writeBack1_forms h)) h
    · exact h
  have hs1 : s1.Forms := State.engStatus_forms hs0
  have hs2 : s2.Forms := by
    unfold s2
    split
    · exact State.fillAll_forms hs1
    · exact hs1
  exact State.modCore_forms hs2 (fun _ hc1 => Core.setEng_forms hc1)

theorem execEngineCommandStart_forms {core : Nat} {gather : Bool} (h : s.Forms) : outForms (execEngineCommandStart core gather s) := by
  unfold execEngineCommandStart
  split
  · extract_lets s1
    have hs1 : s1.Forms := State.modCore_forms h (fun _ hc => Core.setEng_forms hc)
    exact State.ite_forms (State.engStatus_forms hs1) hs1
  · exact h

theorem execEngineTranslationFault_forms {core : Nat} {gather : Bool} (h : s.Forms) : outForms (execEngineTranslationFault core gather s) := by
  unfold execEngineTranslationFault
  split
  · next e =>
      split
      · exact State.engFault_forms (forms_fst e (State.engRunOut_forms h))
      · exact forms_fst e (State.engRunOut_forms h)
  · next e => exact forms_fst e (State.engRunOut_forms h)

theorem execEngineCommandFail_forms {core : Nat} {gather : Bool} (h : s.Forms) : outForms (execEngineCommandFail core gather s) := by
  unfold execEngineCommandFail
  split
  · next e =>
      split
      · exact State.engFailed_forms (forms_fst e (State.engRunOut_forms h))
      · exact forms_fst e (State.engRunOut_forms h)
  · next e => exact forms_fst e (State.engRunOut_forms h)

theorem execEngineCommandComplete_forms {core : Nat} {gather : Bool} (h : s.Forms) : outForms (execEngineCommandComplete core gather s) := by
  unfold execEngineCommandComplete
  split
  · next e =>
      split
      · exact State.engDone_forms (forms_fst e (State.engRunOut_forms h))
      · exact forms_fst e (State.engRunOut_forms h)
  · next e => exact forms_fst e (State.engRunOut_forms h)

theorem State.engTick_forms {core : Nat} {gather : Bool} (h : s.Forms) : (s.engTick core gather).Forms := by
  unfold State.engTick
  split
  · exact h
  · split
    · next e1 => exact EngMove.forms_of_eq e1 (State.engMove_forms h)
    · exact h
    · exact h

/-! ### Faults -/

theorem State.dropDefer_forms {slot : Nat} (h : s.Forms) : (s.dropDefer slot).Forms := h.upd

theorem State.stopTake_forms {slot : Nat} (h : s.Forms) : (s.stopTake slot).Forms := by
  unfold State.stopTake
  extract_lets sl s1
  have hs1 : s1.Forms := State.postAbandon_forms (State.dropDefer_forms h)
  refine State.ite_forms h ?_
  split
  · exact h
  · exact State.modSlot_forms hs1 (fun _ hq => hq.upd)
  · exact State.takeTrap_forms hs1
  · split
    · exact State.killTask_forms hs1
    · exact hs1

theorem execStopTakeEffect_forms {slot : Nat} (h : s.Forms) : outForms (execStopTakeEffect slot s) := State.stopTake_forms h

theorem State.saveDone_forms {slot : Nat} (h : s.Forms) : (s.saveDone slot).Forms := by
  unfold State.saveDone
  extract_lets sl
  split
  · exact State.freeSlot_forms h
  · split
    · exact State.freeSlot_forms h
    · refine State.ite_forms h ?_
      split
      · next e2 => exact State.enqueue_forms (State.freeSlot_forms (forms_fst e2 (State.saveTask_forms h)))
      · next e2 =>
            exact State.report_forms (State.holdRecord_forms (State.modSlot_forms (State.taskState_forms (forms_fst e2 (State.saveTask_forms h)))
              (fun _ hq => hq.upd)))

theorem execFrameSaveComplete_forms {slot : Nat} (h : s.Forms) : outForms (execFrameSaveComplete slot s) :=
  State.ite_forms (State.saveDone_forms h) (State.ite_forms (State.trapSaved_forms h) h)

theorem State.slReply_forms {p : Pending} {status : Nat} (h : s.Forms) : (s.slReply p status).Forms := State.modCore_forms h (fun _ hc => hc.upd)

theorem State.slServe_forms {op : Nat} {f : State → Nat → Option State} (h : s.Forms) (hf : ∀ (a : State) (b : Nat), a.Forms → optForms State.Forms (f a b)) :
    (s.slServe op f).Forms := by
  unfold State.slServe
  split
  · exact h
  · extract_lets o s1 ks
    have hs1 : s1.Forms := h.upd
    refine State.ite_forms (State.slReply_forms hs1) ?_
    refine State.ite_forms h ?_
    refine State.ite_forms (State.slReply_forms hs1) ?_
    split
    · next e1 =>
        split
        · next e2 =>
            refine State.slReply_forms ?_
            refine optForms_some e2 ?_
            refine hf _ _ ?_
            refine forms_snd e1 ?_
            split
            · exact hs1
            · exact State.freeIndex_forms hs1
        · refine State.slReply_forms ?_
          refine forms_snd e1 ?_
          split
          · exact hs1
          · exact State.freeIndex_forms hs1

theorem slResume1_forms {key : Nat} (h : s.Forms) : optForms State.Forms (slResume1 s key) := by
  unfold slResume1
  split
  · split
    · exact trivial
    · exact State.resumeTask_forms (State.settleAwait_forms h)
  · exact trivial

theorem execSlResume_forms (h : s.Forms) : outForms (execSlResume s) := State.slServe_forms h (fun _ _ ha => slResume1_forms ha)

theorem State.skipPc_forms {s : State} {t : Task} (h : s.Forms) : (s.skipPc t).Forms := by
  unfold State.skipPc
  extract_lets bs pc s1
  have hs1 : s1.Forms := State.walkTouch_forms h
  split
  next e =>
    extract_lets new
    refine State.setTask_forms (State.recWrite_forms (State.frameWrite_forms ?_))
    split at e
    · cases e
      exact hs1
    · cases e
      exact State.raiseIf_forms (State.freeIndex_forms (n := 6) hs1)

theorem slSkip1_forms {key : Nat} (h : s.Forms) : optForms State.Forms (slSkip1 s key) := by
  unfold slSkip1
  split
  · split
    · exact trivial
    · extract_lets s1
      have hs1 : s1.Forms := State.ite_forms h (State.skipPc_forms h)
      exact State.resumeTask_forms (State.settleAwait_forms hs1)
  · exact trivial

theorem execSlSkip_forms (h : s.Forms) : outForms (execSlSkip s) := State.slServe_forms h (fun _ _ ha => slSkip1_forms ha)

theorem slAbandon1_forms {key : Nat} (h : s.Forms) : optForms State.Forms (slAbandon1 s key) := by
  unfold slAbandon1
  split
  · exact State.ite_forms (State.rerun_forms h) (State.killTask_forms (State.breakGroup_forms h))
  · exact trivial

theorem execSlAbandon_forms (h : s.Forms) : outForms (execSlAbandon s) := State.slServe_forms h (fun _ _ ha => slAbandon1_forms ha)

theorem execWatchdogExpiry_forms {slot : Nat} (h : s.Forms) : outForms (execWatchdogExpiry slot s) :=
  State.ite_forms (State.modSlot_forms h (fun _ hq => hq.upd)) h

theorem State.poisonSec_forms {sec : Nat} (h : s.Forms) : (s.poisonSec sec).Forms := h.upd

theorem State.salvage_forms {g : Nat} (h : s.Forms) : (s.salvage g).Forms := by
  unfold State.salvage
  refine foldl_forms h (fun t a ht => ?_)
  split
  · next e =>
        exact State.writeBack1_forms (State.ite_forms (State.poisonSec_forms (forms_snd e (State.freeChoice_forms ht))) (forms_snd e (State.freeChoice_forms
          ht)))

theorem State.fenceSlots_forms {g : Nat} (h : s.Forms) : (s.fenceSlots g).Forms :=
  foldl_forms h (fun _ _ ht => State.ite_forms (State.freeSlot_forms (State.stripSlot_forms ht)) (State.engAbandon_forms ht))

theorem State.fence_forms {g : Nat} (h : s.Forms) : (s.fence g).Forms := by
  unfold State.fence
  refine State.ite_forms h ?_
  extract_lets there s1 reg s2 s3 ct d s4 s5
  have hs1 : s1.Forms := State.salvage_forms h
  have hs2 : s2.Forms := State.modGrove_forms hs1 (fun _ hg1 => hg1.upd)
  have hs3 : s3.Forms := State.modGrove_forms hs2 (fun _ hg1 => hg1.upd)
  have hs4 : s4.Forms := foldl_forms hs3 (fun _ _ ht => State.rerun_forms ht)
  have hs5 : s5.Forms := foldl_forms hs4 (fun _ _ ht => State.breakGroup_forms ht)
  exact State.fenceSlots_forms hs5

theorem execHangPing_forms {grove : Nat} {answered : Bool} (h : s.Forms) : outForms (execHangPing grove answered s) := by
  unfold execHangPing
  refine State.ite_forms h ?_
  extract_lets s1
  have hs1 : s1.Forms := State.modGrove_forms h (fun _ hg => hg.upd)
  exact State.ite_forms (State.fence_forms hs1) hs1

theorem execFirmwareFence_forms {grove : Nat} (h : s.Forms) : outForms (execFirmwareFence grove s) := State.fence_forms h

theorem State.uncorrUp_forms {g : Nat} (h : s.Forms) : (s.uncorrUp g).Forms := State.modGrove_forms h (fun _ hg1 => hg1.upd)

theorem State.loseSec_forms {sec : Nat} (h : s.Forms) : (s.loseSec sec).Forms := by
  unfold State.loseSec
  split
  · split
    · next e1 =>
          exact State.ite_forms (State.poisonSec_forms (State.Forms.upd (forms_snd e1 (State.freeChoice_forms h)))) (State.poisonSec_forms (forms_snd e1
            (State.freeChoice_forms h)))
  · exact State.poisonSec_forms h

theorem Core.cacheDrop_forms {c : Core} {i : Nat} (hc : c.Forms) : (c.cacheDrop i).Forms := Core.ite_forms hc.upd (Core.ite_forms hc.upd hc.upd)

theorem State.cacheDrop_forms {g : Nat} (h : s.Forms) : (s.cacheDrop g).Forms := by
  unfold State.cacheDrop
  extract_lets gr a b all
  have hgr : gr.Forms := State.grove_forms h _
  refine State.ite_forms h ?_
  split
  · next e =>
      refine State.ite_forms (State.setGrove_forms (forms_snd e (State.freeIndex_forms h)) hgr.upd) ?_
      refine State.ite_forms (State.setGrove_forms (forms_snd e (State.freeIndex_forms h)) hgr.upd) ?_
      refine foldl_forms_fst (forms_snd e (State.freeIndex_forms h)) (fun p a1 hx => ?_)
      extract_lets c
      have hc : c.Forms := State.core_forms hx _
      split
      · split
        · exact State.setCore_forms hx (Core.cacheDrop_forms hc)
        · exact hx
      · exact hx

theorem State.loseSlot_forms {slot : Nat} (h : s.Forms) : (s.loseSlot slot).Forms := by
  unfold State.loseSlot
  extract_lets sl s1
  have hs1 : s1.Forms := State.takeTrap_forms (State.postAbandon_forms (State.dropDefer_forms h))
  refine State.ite_forms ?_ ?_
  · split
    · exact State.modTask_forms h
    · exact h
  · refine State.ite_forms ?_ h
    split
    · exact State.modTask_forms hs1
    · exact hs1

theorem State.errEffect_forms {a : ErrUnit} (h : s.Forms) : (s.errEffect a).Forms := by
  unfold State.errEffect
  split
  · exact State.loseSlot_forms h
  · exact State.modGrove_forms h (fun _ hg => hg.upd)
  · exact State.modGrove_forms h (fun _ hg => hg.upd)
  · exact State.modGrove_forms h (fun _ hg => hg.upd)
  · exact State.ite_forms (State.poisonSec_forms (State.modCore_forms h (fun _ hc => hc.upd))) h
  · exact State.cacheDrop_forms h
  · exact State.loseSec_forms h
  · exact State.fence_forms h

theorem execUncorrectableError_forms {unit : ErrUnit} (h : s.Forms) : outForms (execUncorrectableError unit s) :=
  State.errEffect_forms (State.uncorrUp_forms h)

/-! ### Fetch -/

theorem State.icachePut_forms {p : Nat} {w : Half} (h : s.Forms) : (s.icachePut p w).Forms := by
  unfold State.icachePut
  extract_lets c
  refine State.ite_forms (State.modMyCore_forms h (fun _ hc1 => hc1.upd)) ?_
  split
  · next e => exact State.modMyCore_forms (forms_snd e (State.freeIndex_forms h)) (fun _ hc1 => hc1.upd)

theorem State.codeAt_forms {p : Nat} (h : s.Forms) : (s.codeAt p).2.Forms := by
  unfold State.codeAt
  extract_lets s1 mem
  have hs1 : s1.Forms := State.recallRange_forms h
  split
  · exact State.icachePut_forms hs1
  · split
    · exact hs1
    · split
      · next e1 =>
          split
          · exact forms_snd e1 (State.freeChoice_forms hs1)
          · exact State.icachePut_forms (forms_snd e1 (State.freeChoice_forms hs1))

theorem State.fetchWord_forms {a : Addr} (h : s.Forms) : (s.fetchWord a).Forms := by
  unfold State.fetchWord
  refine Got.ite_forms ?_ ?_
  · refine Got.ite_forms ?_ h
    refine Got.ite_forms h ?_
    refine Got.ite_forms h ?_
    split
    · next e => exact forms_snd e (State.codeAt_forms h)
  · split
    · next e =>
        refine Got.ite_forms (forms_snd e (State.translate_forms h)) ?_
        refine Got.ite_forms (forms_snd e (State.translate_forms h)) ?_
        split
        · next e1 => exact forms_snd e1 (State.codeAt_forms (forms_snd e (State.translate_forms h)))
    · next e => exact forms_snd e (State.translate_forms h)
    · next e => exact forms_snd e (State.translate_forms h)
    · next e => exact forms_snd e (State.translate_forms h)

theorem State.fetchGo_forms {pc : Addr} {n n1 : Nat} {a : Scan} (h : s.Forms) : (State.fetchGo pc n s n1 a).Forms := by
  induction n generalizing pc s a n1 with
  | zero =>
    unfold State.fetchGo
    exact h
  | succ n ih =>
    unfold State.fetchGo
    split
    · next e1 => exact Got.no_forms e1 (State.fetchWord_forms h)
    · next e =>
        split
        · exact Got.ok_forms e (State.fetchWord_forms h)
        · exact Got.ok_forms e (State.fetchWord_forms h)
        · exact ih (Got.ok_forms e (State.fetchWord_forms h))

theorem State.belowIsLead_forms (h : s.Forms) : s.belowIsLead.Forms := by
  unfold State.belowIsLead
  split
  · next e => exact Got.ok_forms e (State.fetchWord_forms h)
  · next e => exact Got.no_forms e (State.fetchWord_forms h)
  · next e => exact State.raiseIf_forms (Got.no_forms e (State.fetchWord_forms h))
  · next e => exact Got.no_forms e (State.fetchWord_forms h)
  · exact h
  · exact h
  · exact h

theorem State.fetch_forms (h : s.Forms) : s.fetch.Forms := by
  unfold State.fetch
  extract_lets pc
  refine Got.bind_forms (Got.ite_forms (State.belowIsLead_forms h) (Got.Forms.ok h)) (fun a t ht => ?_)
  refine Got.ite_forms (Got.Forms.no (Eff.Forms.trap ht)) ?_
  split
  · next e1 => exact Got.Forms.no (Fetched.forms_of_eq e1 (State.fetchGo_forms ht))
  · next e => exact Got.Forms.ok (Fetched.forms_of_eq e (State.fetchGo_forms ht))
  · next e =>
      extract_lets s2
      have hs2 : s2.Forms := State.modMe_forms (Fetched.forms_of_eq e (State.fetchGo_forms ht)) (fun _ hq => hq.upd)
      split
      · exact Got.Forms.ok hs2
      · exact Got.Forms.ok hs2

theorem execUnassignedEncoding_forms {chain : Bool} {addr : Word} (h : s.Forms) : outForms (execUnassignedEncoding chain addr s) := finish_forms h

/-! ### Scalar -/

theorem bin2_forms {d s1 s2 : Reg} {f : Word → Word → Word} (h : s.Forms) : outForms (bin2 s d s1 s2 f) :=
  guarded_forms h (State.setX_forms h)

theorem un1_forms {d r : Reg} {f : Word → Word} (h : s.Forms) : outForms (un1 s d r f) := guarded_forms h (State.setX_forms h)

theorem execAdd_forms {d s1 s2 : Reg} {st : State} (hst : st.Forms) : outForms (execAdd d s1 s2 st) := bin2_forms hst

theorem execSub_forms {d s1 s2 : Reg} {st : State} (hst : st.Forms) : outForms (execSub d s1 s2 st) := bin2_forms hst

theorem execAnd_forms {d s1 s2 : Reg} {st : State} (hst : st.Forms) : outForms (execAnd d s1 s2 st) := bin2_forms hst

theorem execOr_forms {d s1 s2 : Reg} {st : State} (hst : st.Forms) : outForms (execOr d s1 s2 st) := bin2_forms hst

theorem execXor_forms {d s1 s2 : Reg} {st : State} (hst : st.Forms) : outForms (execXor d s1 s2 st) := bin2_forms hst

theorem execSll_forms {d s1 s2 : Reg} {st : State} (hst : st.Forms) : outForms (execSll d s1 s2 st) := bin2_forms hst

theorem execSrl_forms {d s1 s2 : Reg} {st : State} (hst : st.Forms) : outForms (execSrl d s1 s2 st) := bin2_forms hst

theorem execSra_forms {d s1 s2 : Reg} {st : State} (hst : st.Forms) : outForms (execSra d s1 s2 st) := bin2_forms hst

theorem execMul_forms {d s1 s2 : Reg} {st : State} (hst : st.Forms) : outForms (execMul d s1 s2 st) := bin2_forms hst

theorem execMulh_forms {d s1 s2 : Reg} {st : State} (hst : st.Forms) : outForms (execMulh d s1 s2 st) := bin2_forms hst

theorem execDiv_forms {d s1 s2 : Reg} {st : State} (hst : st.Forms) : outForms (execDiv d s1 s2 st) := bin2_forms hst

theorem execRem_forms {d s1 s2 : Reg} {st : State} (hst : st.Forms) : outForms (execRem d s1 s2 st) := bin2_forms hst

theorem execMin_forms {d s1 s2 : Reg} {st : State} (hst : st.Forms) : outForms (execMin d s1 s2 st) := bin2_forms hst

theorem execMax_forms {d s1 s2 : Reg} {st : State} (hst : st.Forms) : outForms (execMax d s1 s2 st) := bin2_forms hst

theorem execSlt_forms {d s1 s2 : Reg} {st : State} (hst : st.Forms) : outForms (execSlt d s1 s2 st) := bin2_forms hst

theorem execSextB_forms {d s : Reg} {st : State} (hst : st.Forms) : outForms (execSextB d s st) := un1_forms hst

theorem execSextH_forms {d s : Reg} {st : State} (hst : st.Forms) : outForms (execSextH d s st) := un1_forms hst

theorem execSextW_forms {d s : Reg} {st : State} (hst : st.Forms) : outForms (execSextW d s st) := un1_forms hst

theorem execZextB_forms {d s : Reg} {st : State} (hst : st.Forms) : outForms (execZextB d s st) := un1_forms hst

theorem execZextH_forms {d s : Reg} {st : State} (hst : st.Forms) : outForms (execZextH d s st) := un1_forms hst

theorem execZextW_forms {d s : Reg} {st : State} (hst : st.Forms) : outForms (execZextW d s st) := un1_forms hst

theorem execClz_forms {d s : Reg} {st : State} (hst : st.Forms) : outForms (execClz d s st) := un1_forms hst

theorem execCtz_forms {d s : Reg} {st : State} (hst : st.Forms) : outForms (execCtz d s st) := un1_forms hst

theorem execPopc_forms {d s : Reg} {st : State} (hst : st.Forms) : outForms (execPopc d s st) := un1_forms hst

theorem execAddi_forms {d s : Reg} {imm : Word} {st : State} (hst : st.Forms) : outForms (execAddi d s imm st) := un1_forms hst

theorem execAndi_forms {d s : Reg} {imm : Word} {st : State} (hst : st.Forms) : outForms (execAndi d s imm st) := un1_forms hst

theorem execOri_forms {d s : Reg} {imm : Word} {st : State} (hst : st.Forms) : outForms (execOri d s imm st) := un1_forms hst

theorem execXori_forms {d s : Reg} {imm : Word} {st : State} (hst : st.Forms) : outForms (execXori d s imm st) := un1_forms hst

theorem execSlli_forms {d s : Reg} {sh : BitVec 6} {st : State} (hst : st.Forms) : outForms (execSlli d s sh st) := un1_forms hst

theorem execSrli_forms {d s : Reg} {sh : BitVec 6} {st : State} (hst : st.Forms) : outForms (execSrli d s sh st) := un1_forms hst

theorem execSrai_forms {d s : Reg} {sh : BitVec 6} {st : State} (hst : st.Forms) : outForms (execSrai d s sh st) := un1_forms hst

theorem execSlti_forms {d s : Reg} {imm : Word} {st : State} (hst : st.Forms) : outForms (execSlti d s imm st) := un1_forms hst

theorem push_forms {s : State} {c : Bool} (h : s.Forms) : (push s c).Forms := by
  unfold push
  extract_lets sl
  split
  · exact h
  · next hd =>
      obtain ⟨hvl, hdep⟩ := (Slot.forms_iff _).mp (State.me_forms h)
      refine State.setSlot_forms h ((Slot.forms_iff _).mpr ⟨hvl, ?_⟩)
      have hlt : s.me.prDepth.toNat < 16 := Nat.lt_of_not_le hd
      change (s.me.prDepth + 1).toNat ≤ 16
      have hadd : (s.me.prDepth + 1).toNat = s.me.prDepth.toNat + 1 := by
        rw [BitVec.toNat_add]
        exact Nat.mod_eq_of_lt (Nat.lt_of_lt_of_le (Nat.succ_lt_succ hlt) (by decide))
      omega

theorem cmp2_forms {f : Nat} {a b : Reg} (h : s.Forms) : outForms (cmp2 s f a b) := always_forms h (push_forms h)

theorem cmpImm_forms {f : Nat} {a : Reg} {imm : Word} (h : s.Forms) : outForms (cmpImm s f a imm) := always_forms h (push_forms h)

theorem execCmpEq_forms {a b : Reg} {st : State} (hst : st.Forms) : outForms (execCmpEq a b st) := cmp2_forms hst

theorem execCmpNe_forms {a b : Reg} {st : State} (hst : st.Forms) : outForms (execCmpNe a b st) := cmp2_forms hst

theorem execCmpLt_forms {a b : Reg} {st : State} (hst : st.Forms) : outForms (execCmpLt a b st) := cmp2_forms hst

theorem execCmpGe_forms {a b : Reg} {st : State} (hst : st.Forms) : outForms (execCmpGe a b st) := cmp2_forms hst

theorem execCmpLtN_forms {a b : Reg} {st : State} (hst : st.Forms) : outForms (execCmpLtN a b st) := cmp2_forms hst

theorem execCmpGeN_forms {a b : Reg} {st : State} (hst : st.Forms) : outForms (execCmpGeN a b st) := cmp2_forms hst

theorem execCmpiEq_forms {a : Reg} {imm : Word} {st : State} (hst : st.Forms) : outForms (execCmpiEq a imm st) := cmpImm_forms hst

theorem execCmpiLt_forms {a : Reg} {imm : Word} {st : State} (hst : st.Forms) : outForms (execCmpiLt a imm st) := cmpImm_forms hst

theorem restack_forms {s : State} {n : Nat} {new : List Bool} (hn : n ≤ 16) (hnew : new.length ≤ n) (h : s.Forms) : (restack s n new).Forms := by
  refine State.modMe_forms h fun q hq => ?_
  obtain ⟨hvl, hdep⟩ := (Slot.forms_iff q).mp hq
  refine (Slot.forms_iff _).mpr ⟨hvl, ?_⟩
  exact (BitVec.toNat_ofNat _ _).trans_le ((Nat.mod_le _ _).trans (by omega))

theorem stackOp_forms {s : State} {n : Nat} {f : Bool → Bool → List Bool} (hn : n ≤ 16) (hf : ∀ a b, (f a b).length ≤ n) (h : s.Forms) : outForms (stackOp s
  n f) := by
  unfold stackOp
  extract_lets sl d
  refine always_forms h ?_
  split
  · exact h
  · exact restack_forms hn (hf _ _) h

theorem execPand_forms {s : State} (h : s.Forms) : outForms (execPand s) := stackOp_forms (by decide) (fun _ _ => by simp) h

theorem execPor_forms {s : State} (h : s.Forms) : outForms (execPor s) := stackOp_forms (by decide) (fun _ _ => by simp) h

theorem execPnot_forms {s : State} (h : s.Forms) : outForms (execPnot s) := stackOp_forms (by decide) (fun _ _ => by simp) h

theorem execPend_forms {s : State} (h : s.Forms) : outForms (execPend s) := stackOp_forms (by decide) (fun _ _ => by simp) h

theorem branch_forms {f : Nat} {a b : Reg} {off : Word} (h : s.Forms) : outForms (branch s f a b off) := guarded_forms h (Eff.ite_forms h h)

theorem execBeq_forms {a b : Reg} {off : Word} {st : State} (hst : st.Forms) : outForms (execBeq a b off st) := branch_forms hst

theorem execBne_forms {a b : Reg} {off : Word} {st : State} (hst : st.Forms) : outForms (execBne a b off st) := branch_forms hst

theorem execBlt_forms {a b : Reg} {off : Word} {st : State} (hst : st.Forms) : outForms (execBlt a b off st) := branch_forms hst

theorem execBge_forms {a b : Reg} {off : Word} {st : State} (hst : st.Forms) : outForms (execBge a b off st) := branch_forms hst

theorem execBltN_forms {a b : Reg} {off : Word} {st : State} (hst : st.Forms) : outForms (execBltN a b off st) := branch_forms hst

theorem execBgeN_forms {a b : Reg} {off : Word} {st : State} (hst : st.Forms) : outForms (execBgeN a b off st) := branch_forms hst

theorem execJal_forms {link : Reg} {off : Word} {st : State} (hst : st.Forms) : outForms (execJal link off st) := guarded_forms hst (State.setX_forms hst)

theorem execCall_forms {off : Word} {st : State} (hst : st.Forms) : outForms (execCall off st) := guarded_forms hst (State.setX_forms hst)

theorem Slot.openRegion_forms {sl : Slot} {i : Nat} {ret : Addr} (hsl : sl.Forms) : (sl.openRegion i ret).Forms := hsl.upd

theorem execCallC_forms {off : Word} {st : State} (hst : st.Forms) : outForms (execCallC off st) := by
  unfold execCallC
  extract_lets sl
  refine guarded_forms hst ?_
  split
  · exact Eff.ite_forms hst (State.modMe_forms (State.setX_forms hst) (fun _ hq => Slot.openRegion_forms hq))
  · exact hst

theorem execJalr_forms {link b : Reg} {off : Word} {st : State} (hst : st.Forms) : outForms (execJalr link b off st) :=
  guarded_forms hst (Eff.ite_forms hst (State.setX_forms hst))

theorem Slot.closeRegion_forms {sl : Slot} (hsl : sl.Forms) : sl.closeRegion.Forms := by
  unfold Slot.closeRegion
  split
  · split
    · exact Slot.setXr_forms hsl.upd
    · exact hsl.upd
  · exact hsl

theorem execRet_forms {st : State} (hst : st.Forms) : outForms (execRet st) := by
  unfold execRet
  extract_lets sl t
  refine guarded_forms hst ?_
  refine Eff.ite_forms hst ?_
  split
  · exact hst
  · exact Eff.ite_forms (State.modMe_forms hst (fun _ hq => Slot.closeRegion_forms hq)) (Eff.ite_forms hst hst)

theorem execHint_forms {a : BitVec 11} {st : State} (hst : st.Forms) : outForms (execHint a st) := always_forms hst hst

end Sys2Proof.Machine
end

section
/-! PROOF. What the functions of Float, Futures, Quilt, Groups, Links, Guest lead to keeps the forms (R300, R348; log 3). -/

namespace Sys2Proof.Machine

variable {s : State}

/-! ### Float -/

theorem State.putFloat_forms {d : Reg} {r : Nat × Fp} (h : s.Forms) : (s.putFloat d r).Forms := State.setX_forms (State.setFp_forms h)

theorem fArith_forms {d s1 s2 : Reg} {m : FMod} {op : Bool → FVal → FVal → FVal → FVal × Nat} (h : s.Forms) : outForms (fArith s d s1 s2 m op) :=
  guarded_forms h (State.putFloat_forms h)

theorem execFadd_forms {d s1 s2 : Reg} {m : FMod} {st : State} (hst : st.Forms) : outForms (execFadd d s1 s2 m st) := fArith_forms hst

theorem execFsub_forms {d s1 s2 : Reg} {m : FMod} {st : State} (hst : st.Forms) : outForms (execFsub d s1 s2 m st) := fArith_forms hst

theorem execFmul_forms {d s1 s2 : Reg} {m : FMod} {st : State} (hst : st.Forms) : outForms (execFmul d s1 s2 m st) := fArith_forms hst

theorem execFdiv_forms {d s1 s2 : Reg} {m : FMod} {st : State} (hst : st.Forms) : outForms (execFdiv d s1 s2 m st) := fArith_forms hst

theorem execFmadd_forms {d s1 s2 : Reg} {m : FMod} {st : State} (hst : st.Forms) : outForms (execFmadd d s1 s2 m st) := fArith_forms hst

theorem execFsqrt_forms {d s : Reg} {m : FMod} {st : State} (hst : st.Forms) : outForms (execFsqrt d s m st) := fArith_forms hst

theorem fPick_forms {d s1 s2 : Reg} {ty : FTy} {op : FVal → FVal → FVal} (h : s.Forms) : outForms (fPick s d s1 s2 ty op) :=
  guarded_forms h (State.setX_forms h)

theorem execFmin_forms {d s1 s2 : Reg} {ty : FTy} {st : State} (hst : st.Forms) : outForms (execFmin d s1 s2 ty st) := fPick_forms hst

theorem execFmax_forms {d s1 s2 : Reg} {ty : FTy} {st : State} (hst : st.Forms) : outForms (execFmax d s1 s2 ty st) := fPick_forms hst

theorem execFcvt_forms {d s : Reg} {dst src : CvtTy} {rm : BitVec 3} {st : State} (hst : st.Forms) : outForms (execFcvt d s dst src rm st) := by
  unfold execFcvt
  extract_lets p mode p1
  split
  · exact guarded_forms hst (State.putFloat_forms hst)

theorem fCompare_forms {a b : Reg} {ty : FTy} {c : FVal → FVal → Bool} (h : s.Forms) : outForms (fCompare s a b ty c) := by
  unfold fCompare
  extract_lets f x y nan s1
  have hs1 : s1.Forms := State.ite_forms (State.setFp_forms h) h
  exact always_forms h (push_forms hs1)

theorem execFcmpEq_forms {a b : Reg} {ty : FTy} {st : State} (hst : st.Forms) : outForms (execFcmpEq a b ty st) := fCompare_forms hst

theorem execFcmpLt_forms {a b : Reg} {ty : FTy} {st : State} (hst : st.Forms) : outForms (execFcmpLt a b ty st) := fCompare_forms hst

theorem execFcmpLe_forms {a b : Reg} {ty : FTy} {st : State} (hst : st.Forms) : outForms (execFcmpLe a b ty st) := fCompare_forms hst

/-! ### Futures -/

theorem deferLoad_forms {p home : Nat} {take : Bool} {d : Reg} (h : s.Forms) : (deferLoad s p home take d).Forms :=
  Eff.ite_forms (State.modMe_forms h (fun _ hq => hq.upd)) (Eff.ite_forms (State.modMe_forms h (fun _ hq => hq.upd)) (State.modMe_forms h.upd (fun _ hq =>
    hq.upd)))

theorem loadFuture_forms {p : Nat} {inter take : Bool} {d : Reg} {addr : Word} (h : s.Forms) : (loadFuture s p inter take d addr).Forms := by
  unfold loadFuture
  refine Eff.ite_forms h ?_
  extract_lets s1 s2
  have hs1 : s1.Forms := State.recallRange_forms (State.drainSecs_forms h)
  have hs2 : s2.Forms := State.sigRead_forms hs1
  refine Eff.ite_forms hs1 ?_
  refine Eff.ite_forms hs2 ?_
  refine Eff.ite_forms ?_ (deferLoad_forms hs2)
  split
  · next e =>
      extract_lets s3
      have hs3 : s3.Forms := State.modMe_forms (State.setX_forms (State.acquired_forms (forms_snd e (State.strongRead_forms hs2)))) (fun _ hq => hq.upd)
      exact State.ite_forms (State.setTag_forms hs3) hs3

theorem ldFuture_forms {a b : Reg} {imm : Word} {take : Bool} (h : s.Forms) : (ldFuture a b imm take s).Forms := by
  unfold ldFuture
  extract_lets e
  refine Eff.ite_forms h ?_
  split
  · exact Got.andThen_forms (State.xlate_forms h) (fun _ _ ht => loadFuture_forms ht)
  · exact h
  · exact h
  · exact h

theorem execLdF_forms {a b : Reg} {imm : Word} (h : s.Forms) : outForms (execLdF a b imm s) := guarded_forms h (ldFuture_forms h)

theorem execLdFTake_forms {a b : Reg} {imm : Word} (h : s.Forms) : outForms (execLdFTake a b imm s) := guarded_forms h (ldFuture_forms h)

theorem execStF_forms {a b : Reg} {imm : Word} (h : s.Forms) : outForms (execStF a b imm s) := by
  unfold execStF
  extract_lets e
  refine guarded_forms h ?_
  split
  · exact Got.andThen_forms (State.xlate_forms h) (fun _ _ ht => Eff.ite_forms (Got.andThen_forms (State.collect_forms ht) (fun _ _ ht1 => ht1))
      (State.release_forms ht (fun _ ha2 => Eff.ite_forms ha2 (Eff.ite_forms ha2 (State.mixRecord_forms (State.fill_forms ha2))))))
  · exact h
  · exact h
  · exact h

theorem execDeferralExpiry_forms {slot : Nat} (h : s.Forms) : outForms (execDeferralExpiry slot s) := by
  unfold execDeferralExpiry
  split
  · exact State.answer_forms h
  · exact h

theorem execFutureCancel_forms {slot : Nat} (h : s.Forms) : outForms (execFutureCancel slot s) :=
  State.ite_forms (State.modSlot_forms h.upd (fun _ hq => hq.upd)) h

/-! ### Quilt -/

theorem qTrap_keeps {α : Type} {cause addr : Nat} : (qTrap cause addr : RuleM α).Keeps := RuleM.throw_keeps

theorem qPlace_keeps {acc : Access} {need : Need} {va n : Nat} : (qPlace acc need va n).Keeps := by
  unfold qPlace
  refine RuleM.get_bind_keeps (fun q hx => ?_)
  refine RuleM.ite_keeps qTrap_keeps ?_
  split
  · next e =>
      refine RuleM.bind_keeps (RuleM.set_keeps (forms_snd e (State.translate_forms hx))) (fun a => ?_)
      split
      · exact RuleM.ite_keeps RuleM.throw_keeps RuleM.pure_keeps
      · exact RuleM.throw_keeps
      · exact qTrap_keeps
      · exact RuleM.throw_keeps

theorem qTake_keeps {p n : Nat} : (qTake p n).Keeps := by
  unfold qTake
  refine RuleM.get_bind_keeps (fun q hx => ?_)
  refine RuleM.ite_keeps RuleM.throw_keeps ?_
  extract_lets s1
  have hs1 : s1.Forms := State.sigRead_forms (State.recallRange_forms hx)
  exact RuleM.bind_keeps (RuleM.set_keeps hs1) (fun _ => RuleM.pure_keeps)

theorem qRead_keeps {need : Need} {obj va n : Nat} : (qRead need obj va n).Keeps := by
  unfold qRead
  refine RuleM.bind_keeps ?_ (fun _ => RuleM.pure_keeps)
  refine RuleM.mapM_keeps (fun a => ?_)
  refine RuleM.bind_keeps qPlace_keeps (fun a1 => ?_)
  split
  · refine RuleM.bind_keeps qTake_keeps (fun a1 => ?_)
    split
    · exact RuleM.pure_keeps
    · exact qTrap_keeps

theorem qField_keeps {obj va n : Nat} : (qField obj va n).Keeps := RuleM.bind_keeps qRead_keeps (fun _ => RuleM.pure_keeps)

theorem qDesc_keeps {va : Nat} : (qDesc va).Keeps :=
  RuleM.ite_keeps qTrap_keeps (RuleM.bind_keeps qRead_keeps (fun _ => RuleM.ite_keeps qTrap_keeps RuleM.pure_keeps))

theorem qMap_keeps {v : QView} {id : Nat} : (qMap v id).Keeps :=
  RuleM.bind_keeps qField_keeps (fun _ => RuleM.bind_keeps qField_keeps (fun _ => RuleM.ite_keeps RuleM.pure_keeps qTrap_keeps))

theorem qMapPage_keeps {v : QView} {pg addr : Nat} : (qMapPage v pg addr).Keeps :=
  RuleM.bind_keeps qRead_keeps (fun _ => RuleM.ite_keeps RuleM.pure_keeps qTrap_keeps)

theorem qKeep_keeps {id : Nat} {r : RuleRec} : (qKeep id r).Keeps := RuleM.modify_keeps (fun _ hx => hx)

theorem qRuleAt_keeps {v : QView} {n n1 n2 n3 : Nat} : (qRuleAt v n n1 n2 n3).Keeps := by
  induction n generalizing v n1 n2 n3 with
  | zero =>
    unfold qRuleAt
    exact qTrap_keeps
  | succ n ih =>
    unfold qRuleAt
    refine RuleM.get_bind_keeps (fun q hx => ?_)
    split
    · exact RuleM.pure_keeps
    · refine RuleM.bind_keeps qMap_keeps (fun a => ?_)
      refine RuleM.bind_keeps qRead_keeps (fun a1 => ?_)
      refine RuleM.ite_keeps qTrap_keeps ?_
      refine RuleM.ite_keeps qTrap_keeps ?_
      refine RuleM.ite_keeps qTrap_keeps ?_
      extract_lets r
      refine RuleM.ite_keeps (RuleM.bind_keeps qKeep_keeps (fun _ => RuleM.pure_keeps)) ?_
      refine RuleM.bind_keeps ih (fun a2 => ?_)
      extract_lets jp
      have hjp : ∀ (x : Option RuleRec), (jp x).Keeps := fun _ => RuleM.ite_keeps (RuleM.bind_keeps qKeep_keeps (fun _ => RuleM.pure_keeps)) qTrap_keeps
      exact RuleM.ite_keeps (RuleM.bind_keeps (RuleM.map_keeps ih) (fun _ => hjp _)) (RuleM.bind_keeps RuleM.pure_keeps (fun _ => hjp _))

theorem qRule_keeps {v : QView} {id : Nat} : (qRule v id).Keeps := qRuleAt_keeps

theorem qPacked_keeps {v : QView} {r : RuleRec} : (qPacked v r).Keeps :=
  RuleM.ite_keeps RuleM.pure_keeps (RuleM.bind_keeps qRead_keeps (fun _ => RuleM.ite_keeps qTrap_keeps RuleM.pure_keeps))

theorem qSpine_keeps {v : QView} {row : Nat} : (qSpine v row).Keeps := RuleM.bind_keeps qRead_keeps (fun _ => RuleM.ite_keeps qTrap_keeps RuleM.pure_keeps)

theorem qFields_keeps {v : QView} {sp : Nat × Nat} {i : Nat} : (qFields v sp i).Keeps :=
  RuleM.bind_keeps qRead_keeps (fun _ => RuleM.ite_keeps qTrap_keeps RuleM.pure_keeps)

theorem qEntry_keeps {v : QView} {sp : Nat × Nat} {i : Nat} {lead : Lead} : (qEntry v sp i lead).Keeps := by
  unfold qEntry
  refine RuleM.bind_keeps qFields_keeps (fun a => ?_)
  split
  · refine RuleM.bind_keeps ?_ (fun a => ?_)
    · refine RuleM.ite_keeps RuleM.pure_keeps ?_
      split
      · exact RuleM.pure_keeps
      · exact RuleM.pure_keeps
      · refine RuleM.bind_keeps qFields_keeps (fun a => ?_)
        split
        · exact RuleM.bind_keeps qRule_keeps (fun _ => RuleM.pure_keeps)
    · split
      · exact RuleM.ite_keeps qTrap_keeps RuleM.pure_keeps
      · exact RuleM.pure_keeps

theorem qProbe_keeps {v : QView} {sp : Nat × Nat} {i : Nat} : (qProbe v sp i).Keeps := by
  unfold qProbe
  refine RuleM.bind_keeps qEntry_keeps (fun a => ?_)
  split
  · next x _ _ =>
      extract_lets jp
      have hjp : ∀ (x : Unit), (jp x).Keeps := fun _ => RuleM.pure_keeps
      exact RuleM.ite_keeps (RuleM.bind_keeps qRule_keeps (fun _ => RuleM.ite_keeps (RuleM.bind_keeps qTrap_keeps (fun _ => hjp ())) (hjp ()))) (hjp ())

theorem qAfter_keeps {v : QView} {sp : Nat × Nat} {i off id : Nat} : (qAfter v sp i off id).Keeps := by
  unfold qAfter
  refine RuleM.get_bind_keeps (fun q hx => ?_)
  split
  · exact RuleM.pure_keeps
  · exact RuleM.ite_keeps qTrap_keeps RuleM.pure_keeps

theorem qSearch_keeps {v : QView} {sp : Nat × Nat} {ok : Nat → Nat → Bool} {n n1 n2 : Nat} : (qSearch v sp ok n n1 n2).Keeps := by
  induction n generalizing v sp n1 n2 with
  | zero =>
    unfold qSearch
    exact RuleM.pure_keeps
  | succ n ih =>
    unfold qSearch
    refine RuleM.ite_keeps RuleM.pure_keeps ?_
    extract_lets mid
    refine RuleM.bind_keeps qProbe_keeps (fun a => ?_)
    split
    · exact RuleM.ite_keeps ih ih

theorem qSlice_keeps {v : QView} {chk : RuleRec → RuleM Unit} {n n1 n2 n3 : Nat} (hchk : ∀ (a : RuleRec), (chk a).Keeps) :
    (qSlice v chk n n1 n2 n3).Keeps := by
  induction n generalizing v n1 n2 n3 with
  | zero =>
    unfold qSlice
    exact qTrap_keeps
  | succ n ih =>
    unfold qSlice
    refine RuleM.bind_keeps qRule_keeps (fun a => ?_)
    refine RuleM.bind_keeps (hchk _) (fun a1 => ?_)
    extract_lets gr ub
    refine RuleM.ite_keeps RuleM.pure_keeps ?_
    refine RuleM.ite_keeps (RuleM.bind_keeps qPacked_keeps (fun _ => RuleM.pure_keeps)) ?_
    refine RuleM.bind_keeps qRule_keeps (fun a2 => ?_)
    extract_lets len k jp j0 j1
    have hjp : ∀ (x : List Byte), (jp x).Keeps := by
      intro x
      unfold jp
      extract_lets jp1
      have hjp1 : ∀ (x : List Byte), (jp1 x).Keeps := fun _ => RuleM.pure_keeps
      exact RuleM.ite_keeps (RuleM.bind_keeps RuleM.pure_keeps (fun _ => hjp1 _)) (RuleM.bind_keeps ih (fun _ => hjp1 _))
    exact RuleM.ite_keeps (RuleM.ite_keeps (RuleM.bind_keeps RuleM.pure_keeps (fun _ => hjp _)) (RuleM.bind_keeps ih (fun _ => hjp _))) (RuleM.bind_keeps
      (RuleM.mapM_keeps (fun _ => ih)) (fun _ => RuleM.pure_keeps))

theorem qRowSlice_keeps {v : QView} {sp : Nat × Nat} {n n1 : Nat} {a : Lead} {n2 n3 : Nat} : (qRowSlice v sp n n1 a n2 n3).Keeps := by
  induction n generalizing v sp a n1 n2 n3 with
  | zero =>
    unfold qRowSlice
    exact RuleM.pure_keeps
  | succ n ih =>
    unfold qRowSlice
    refine RuleM.ite_keeps RuleM.pure_keeps ?_
    refine RuleM.bind_keeps qEntry_keeps (fun a1 => ?_)
    split
    · next x _ _ =>
        refine RuleM.bind_keeps qRule_keeps (fun a1 => ?_)
        extract_lets len k jp
        have hjp : ∀ (x : List Byte), (jp x).Keeps := by
          intro x1
          unfold jp
          refine RuleM.bind_keeps qAfter_keeps (fun a2 => ?_)
          extract_lets jp1
          have hjp1 : ∀ (x : List Byte), (jp1 x).Keeps := fun _ => RuleM.pure_keeps
          exact RuleM.ite_keeps (RuleM.bind_keeps RuleM.pure_keeps (fun _ => hjp1 _)) (RuleM.bind_keeps ih (fun _ => hjp1 _))
        exact RuleM.ite_keeps (RuleM.bind_keeps RuleM.pure_keeps (fun _ => hjp _)) (RuleM.bind_keeps (qSlice_keeps (fun _ => RuleM.pure_keeps)) (fun _ =>
          hjp _))

theorem ruleRun_forms {α : Type} {s : State} {m : RuleM α} {k : α → State → Eff} (h : s.Forms) (hm : m.Keeps)
    (hk : ∀ a t, t.Forms → (k a t).Forms) : (ruleRun s m k).Forms := by
  have hrun := RuleM.run_keeps (q := QCtx.start s s.cur s.me.ctx) hm h
  unfold ruleRun
  split
  · exact h
  · split
    · next e => exact hk _ _ (ctx_forms e hrun)
    · next e => exact Eff.Forms.trap (ctx_forms e hrun)
    · next e => exact Eff.Forms.xfault (ctx_forms e hrun)
    · next e => exact Eff.Forms.xfault (ctx_forms e hrun)
    · exact h

theorem quilted_forms {e : Eff} (h : s.Forms) (he : e.Forms) : outForms (quilted s e) := guarded_forms h (Eff.ite_forms he h)

theorem qView_keeps {h : QHandle} : (qView h).Keeps := RuleM.bind_keeps qDesc_keeps (fun _ => RuleM.bind_keeps qRead_keeps (fun _ => RuleM.pure_keeps))

theorem qOpen_keeps {va : Nat} : (qOpen va).Keeps := by
  unfold qOpen
  refine RuleM.bind_keeps qDesc_keeps (fun a => ?_)
  extract_lets cur
  refine RuleM.bind_keeps qRead_keeps (fun a1 => ?_)
  refine RuleM.ite_keeps qTrap_keeps ?_
  refine RuleM.bind_keeps qPlace_keeps (fun a2 => ?_)
  split
  · exact RuleM.bind_keeps (RuleM.modify_keeps (fun _ hx => State.recWrite_forms hx)) (fun _ => RuleM.pure_keeps)

theorem State.noteAperture_forms {va : Word} {ctx : Nat} {d : List Byte} (h : s.Forms) : (s.noteAperture va ctx d).Forms := State.ite_forms h.upd h.upd

theorem openStep_forms {a : Reg} {va : Word} (h : s.Forms) : (openStep a va s).Forms := by
  unfold openStep
  split
  · exact h
  · refine ruleRun_forms h qOpen_keeps (fun a1 t ht => ?_)
    extract_lets g h1 s2
    have hs2 : s2.Forms := State.modMe_forms (State.noteAperture_forms ht) (fun _ hq => hq.upd)
    exact State.setX_forms hs2

theorem execQlOpen_forms {a b : Reg} (h : s.Forms) : outForms (execQlOpen a b s) := quilted_forms h (openStep_forms h)

theorem withQuilt_forms {w : Word} {k : Nat → QHandle → Eff} (h : s.Forms) (hk : ∀ (a : Nat) (b : QHandle), (k a b).Forms) : (withQuilt s w k).Forms := by
  unfold withQuilt
  split
  · exact hk _ _
  · exact h

theorem qClose_keeps {ver : Nat} : (qClose ver).Keeps := by
  unfold qClose
  refine RuleM.bind_keeps qPlace_keeps (fun a => ?_)
  split
  · refine RuleM.bind_keeps qTake_keeps (fun a => ?_)
    split
    · exact qTrap_keeps
    · exact RuleM.modify_keeps (fun _ hx => State.readerGone_forms hx)

theorem execQlClose_forms {a : Reg} (h : s.Forms) : outForms (execQlClose a s) :=
  quilted_forms h (withQuilt_forms h (fun _ _ => ruleRun_forms h qClose_keeps (fun _ _ ht => State.modMe_forms ht (fun _ hq => hq.upd))))

theorem putResult_forms {scr : Bool} {off : Nat} {bs : List Byte} (h : s.Forms) : (putResult scr off bs s).Forms := State.localWrite_forms h

theorem recStep_forms {o v : Word} {h : QHandle} (hs : s.Forms) : (recStep o v h s).Forms := by
  unfold recStep
  refine Eff.ite_forms hs ?_
  refine Eff.ite_forms hs ?_
  refine Eff.ite_forms hs ?_
  extract_lets id read
  have hread : read.Keeps := RuleM.bind_keeps qView_keeps (fun _ => RuleM.ite_keeps qTrap_keeps (RuleM.bind_keeps qRule_keeps (fun _ => qRead_keeps)))
  exact ruleRun_forms hs hread (fun _ _ ht => putResult_forms ht)

theorem execQlRec_forms {a b c : Reg} (h : s.Forms) : outForms (execQlRec a b c s) :=
  quilted_forms h (withQuilt_forms h (fun _ _ => recStep_forms h))

theorem qGet_keeps {h : QHandle} {p count : Nat} : (qGet h p count).Keeps := by
  unfold qGet
  refine RuleM.bind_keeps qView_keeps (fun a => ?_)
  extract_lets gr
  refine RuleM.ite_keeps qTrap_keeps ?_
  refine RuleM.bind_keeps qSpine_keeps (fun a1 => ?_)
  refine RuleM.bind_keeps qSearch_keeps (fun a2 => ?_)
  refine RuleM.bind_keeps qProbe_keeps (fun a3 => ?_)
  split
  · exact qRowSlice_keeps

theorem getStep_forms {o v : Word} {scr : Bool} {h : QHandle} (hs : s.Forms) : (getStep o v scr h s).Forms := by
  unfold getStep
  extract_lets count read
  have hread : read.Keeps := RuleM.bind_keeps qDesc_keeps (fun _ => RuleM.ite_keeps qTrap_keeps qGet_keeps)
  exact ruleRun_forms hs hread (fun _ _ ht => putResult_forms ht)

theorem execQlGet_forms {a b c : Reg} {scr : Bool} (h : s.Forms) : outForms (execQlGet a b c scr s) :=
  quilted_forms h (withQuilt_forms h (fun _ _ => getStep_forms h))

theorem qSplitAt_keeps {v : QView} {sp : Nat × Nat} {d : Nat} : (qSplitAt v sp d).Keeps := by
  unfold qSplitAt
  extract_lets top
  refine RuleM.bind_keeps qSearch_keeps (fun a => ?_)
  extract_lets p
  refine RuleM.ite_keeps RuleM.pure_keeps ?_
  refine RuleM.bind_keeps qProbe_keeps (fun a1 => ?_)
  split
  · exact RuleM.pure_keeps

theorem splitStep_forms {o v : Word} {scr : Bool} {h : QHandle} (hs : s.Forms) : (splitStep o v scr h s).Forms := by
  unfold splitStep
  extract_lets k row read
  have hread : read.Keeps :=
    RuleM.bind_keeps qView_keeps (fun _ => RuleM.ite_keeps qTrap_keeps (RuleM.bind_keeps qSpine_keeps (fun _ => RuleM.bind_keeps (RuleM.mapM_keeps (fun _ =>
      qSplitAt_keeps)) (fun _ => RuleM.pure_keeps))))
  exact Eff.ite_forms hs (Eff.ite_forms hs (ruleRun_forms hs hread (fun _ _ ht => putResult_forms ht)))

theorem execQlSplit_forms {a b c : Reg} {scr : Bool} (h : s.Forms) : outForms (execQlSplit a b c scr s) :=
  quilted_forms h (withQuilt_forms h (fun _ _ => splitStep_forms h))

/-! ### Groups -/

theorem State.feRecall_forms {ctx va n : Nat} (h : s.Forms) : (s.feRecall ctx va n).Forms := by
  unfold State.feRecall
  split
  · exact h
  · exact foldl_forms h (fun _ _ ht => State.recallRange_forms ht)

theorem State.feWrite_forms {ps : List (Nat × Nat)} {bs : List Byte} (h : s.Forms) : (s.feWrite ps bs).Forms :=
  foldl_forms_fst h (fun _ _ hx => State.recWrite_forms hx)

theorem Core.load_forms {c : Core} {l : Loaded} {first : Bool} {tag : Nat} (hc : c.Forms) : (c.load l first tag).Forms := by
  unfold Core.load
  extract_lets v c1
  have hc1 : c1.Forms := by
    unfold c1
    split
    · exact Core.reset_forms
    · exact hc
  exact hc1.upd

theorem State.seedCore_forms {gx gy core i : Nat} {first : Bool} (h : s.Forms) : (s.seedCore gx gy core i first).Forms :=
  foldl_forms h (fun _ _ ht => State.modSlot_forms ht (fun _ hq => hq.upd))

theorem State.loadCore_forms {l : Loaded} {gx gy core i : Nat} {first : Bool} (h : s.Forms) : (s.loadCore l gx gy core i first).Forms := by
  unfold State.loadCore
  extract_lets s1 s2
  have hs1 : s1.Forms := State.modCore_forms h (fun _ hc => Core.load_forms hc)
  have hs2 : s2.Forms := State.seedCore_forms hs1.upd
  exact foldl_forms hs2 (fun _ _ ht => State.tcmWrite_forms ht)

theorem State.loadGrove_forms {l : Loaded} {gx gy : Nat} {first : Bool} (h : s.Forms) : (s.loadGrove l gx gy first).Forms := by
  unfold State.loadGrove
  extract_lets g s1 s2
  have hs1 : s1.Forms := State.modGrove_forms h (fun _ hg1 => hg1.upd)
  have hs2 : s2.Forms := foldl_forms hs1 (fun _ _ ht => State.scrWrite_forms ht)
  exact foldl_forms hs2 (fun _ _ ht => State.loadCore_forms ht)

theorem State.groupLoad_forms {g : Nat} {l : Loaded} (h : s.Forms) : (s.groupLoad g l).Forms := by
  unfold State.groupLoad
  split
  · exact h
  · extract_lets first s0 s1 s2
    have hs0 : s0.Forms := State.feRecall_forms (State.feRecall_forms h)
    have hs1 : s1.Forms := State.feWrite_forms (State.feWrite_forms hs0)
    have hs2 : s2.Forms := foldl_forms hs1 (fun _ _ ht => State.loadGrove_forms ht)
    exact State.launchReply_forms (State.modGroup_forms hs2)

theorem State.claiming_forms {pa : Nat} {b : List Byte} (h : s.Forms) : (s.claiming pa b).Forms :=
  State.Forms.upd (State.ite_forms h (State.recWrite_forms h))

theorem State.claim_forms {gr : Group} {c : Claimed} (h : s.Forms) : (s.claim gr c).Forms := by
  unfold State.claim
  extract_lets n g1 s0 __src s1 s2
  have hs0 : s0.Forms := foldl_forms h (fun _ _ ht => State.feRecall_forms ht)
  have h__src : __src.Forms := State.setGroup_forms hs0
  have hs1 : s1.Forms := h__src.upd
  have hs2 : s2.Forms := State.ctxGroups_forms hs1
  exact State.groupState_forms (State.groupWrite_forms (State.groupWrite_forms hs2))

theorem State.claimRefuse_forms {pa core cause : Nat} (h : s.Forms) : (s.claimRefuse pa core cause).Forms :=
  State.launchReply_forms (State.recWrite_forms h)

theorem State.claimStep_forms {p : Pending} {pa : Nat} {b : List Byte} (h : s.Forms) : (s.claimStep p pa b).1.Forms := by
  unfold State.claimStep
  extract_lets ctx gr
  split
  · exact State.claiming_forms h
  · exact State.raiseIf_forms (State.Forms.upd (State.claimRefuse_forms h))
  · exact State.Forms.upd (State.claim_forms h)

theorem State.launch_forms {p : Pending} (h : s.Forms) : (s.launch p).1.Forms := by
  unfold State.launch
  extract_lets va ctx st
  split
  · exact State.claimStep_forms h
  · split
    · exact State.launchReply_forms h
    · split
      · exact State.claimStep_forms (State.recallRange_forms h)
      · exact h
      · exact h
      · exact State.raiseIf_forms (State.launchReply_forms h)
      · exact State.raiseIf_forms (State.launchReply_forms h)
      · exact State.launchReply_forms h

theorem State.routeWrite_forms {n grove : Nat} {bs : List Byte} (h : s.Forms) : (s.routeWrite n grove bs).Forms := by
  unfold State.routeWrite
  split
  · next e =>
      split
      · next e1 => exact State.modGrove_forms (forms_snd e1 (State.freeBytes_forms (forms_snd e (State.freeChoice_forms h)))) (fun _ hg => hg.upd)

theorem State.routeOne_forms {n : Nat} {g : Group} {q : Nat × Nat} (h : s.Forms) : (s.routeOne n g q).1.Forms := by
  unfold State.routeOne
  extract_lets grove bs s1 s2
  have hs1 : s1.Forms := State.routeWrite_forms h
  have hs2 : s2.Forms := State.routeWrite_forms hs1
  split
  · exact hs1
  · exact hs2

theorem State.routeAll_forms {n : Nat} {g : Group} {l : List (Nat × Nat)} (h : s.Forms) : (s.routeAll n g l).1.Forms := by
  induction l generalizing s g n with
  | nil =>
    unfold State.routeAll
    exact h
  | cons a l ih =>
    unfold State.routeAll
    split
    · next e => exact ih (forms_fst e (State.routeOne_forms h))
    · next e => exact forms_fst e (State.routeOne_forms h)

theorem State.copyStep_forms {n : Nat} (h : s.Forms) : (s.copyStep n).Forms := by
  unfold State.copyStep
  split
  · exact h
  · split
    · exact State.groupLoad_forms h
    · exact State.raiseIf_forms (State.groupRefuse_forms h)
    · exact h

theorem State.toLoading_forms {n : Nat} (h : s.Forms) : (s.toLoading n).Forms := by
  unfold State.toLoading
  split
  · exact h
  · exact State.ite_forms (State.copyStep_forms (State.groupState_forms h)) h

theorem State.routeStep_forms {n : Nat} {g : Group} (h : s.Forms) : (s.routeStep n g).Forms := by
  unfold State.routeStep
  split
  · next e => exact State.toLoading_forms (State.modGroup_forms (forms_fst e (State.routeAll_forms h)))
  · next e => exact State.groupRefuse_forms (forms_fst e (State.routeAll_forms h))

theorem execGrpLaunch_forms (h : s.Forms) : outForms (execGrpLaunch s) := by
  unfold execGrpLaunch
  split
  · exact State.ite_forms (State.copyStep_forms h) (State.routeStep_forms h)
  · split
    · extract_lets q __src
      have hq : q.1.Forms := State.launch_forms h
      have h__src : __src.Forms := hq
      exact State.ite_forms h__src.upd hq
    · exact h

theorem execPeerRouteReport_forms {grp : Nat} {ok : Bool} (h : s.Forms) : outForms (execPeerRouteReport grp ok s) := by
  unfold execPeerRouteReport
  split
  · exact State.ite_forms h (State.ite_forms (State.groupRefuse_forms h) (State.toLoading_forms (State.modGroup_forms h)))
  · exact h

theorem State.issueRecord_forms {grp : Nat} {g : Group} {k pa origin : Nat} {bs : List Byte} (h : s.Forms) : (s.issueRecord grp g k pa origin bs).Forms := by
  unfold State.issueRecord
  exact State.takeIn_forms (State.newTask_forms (State.recWrite_forms h))

theorem State.clearStands_forms {g : Group} (h : s.Forms) : (s.clearStands g).Forms := foldl_forms h (fun _ _ ht => State.modStand_forms ht)

theorem State.nextSeq_forms {grp n : Nat} (h : s.Forms) : (s.nextSeq grp n).Forms := State.modGroup_forms h

theorem State.release1_forms {grp : Nat} {g : Group} (h : s.Forms) : (s.release1 grp g).Forms := by
  unfold State.release1
  extract_lets cores total c others s1 s2 s3 bs
  have hs1 : s1.Forms := State.groupState_forms (State.ite_forms (State.ctxState_forms h) h)
  have hs2 : s2.Forms := State.clearStands_forms (State.modGroup_forms hs1)
  have hs3 : s3.Forms := State.groupWrite_forms hs2
  split
  · exact h
  · exact State.raiseIf_forms (State.groupEnd_forms h)
  · extract_lets s4 s5
    have hs4 : s4.Forms := foldl_forms hs3 (fun _ _ ht => State.issueRecord_forms (State.nextSeq_forms ht))
    have hs5 : s5.Forms := State.nextSeq_forms hs4
    exact State.ite_forms (State.groupState_forms hs5) hs5

theorem execGroupRelease_forms {grp : Nat} (h : s.Forms) : outForms (execGroupRelease grp s) := by
  unfold execGroupRelease
  split
  · exact State.ite_forms (State.release1_forms h) h
  · exact h

theorem State.groupCombine_forms {g : Group} (h : s.Forms) : (s.groupCombine g).Forms :=
  foldl_forms h (fun _ _ ht => State.ite_forms ht (State.recall_forms ht))

theorem execGroupDrained_forms {grp : Nat} (h : s.Forms) : outForms (execGroupDrained grp s) := by
  unfold execGroupDrained
  split
  · refine State.ite_forms h ?_
    extract_lets s1
    have hs1 : s1.Forms := State.groupCombine_forms h
    exact State.ite_forms (State.groupState_forms (State.groupFree_forms hs1)) hs1
  · exact h

theorem execGroupBrokenFreed_forms {grp : Nat} (h : s.Forms) : outForms (execGroupBrokenFreed grp s) := by
  unfold execGroupBrokenFreed
  split
  · exact State.ite_forms (State.groupFree_forms h) h
  · exact h

/-! ### Links -/

theorem State.breakRoutes_forms {link : Nat} (h : s.Forms) : (s.breakRoutes link).Forms := foldl_forms h (fun _ _ ht => State.breakGroup_forms ht)

theorem State.linkDown_forms {link : Nat} (h : s.Forms) : (s.linkDown link).Forms := State.breakRoutes_forms (State.modLink_forms h)

theorem State.linkFence_forms {link : Nat} (h : s.Forms) : (s.linkFence link).Forms := by
  unfold State.linkFence
  refine State.ite_forms h ?_
  extract_lets s1
  have hs1 : s1.Forms := State.breakRoutes_forms (State.modLink_forms h)
  exact State.ite_forms (State.guestFence_forms hs1) hs1

theorem State.linkTrain_forms {link : Nat} (h : s.Forms) : (s.linkTrain link).Forms := State.modLink_forms h

theorem State.lkServe_forms {link op : Nat} {f : State → State} (h : s.Forms) (hf : ∀ (a : State), a.Forms → (f a).Forms) : (s.lkServe link op f).Forms := by
  unfold State.lkServe
  split
  · exact State.ite_forms (hf _ h.upd) h
  · exact h

theorem State.linkEnable_forms {link : Nat} (h : s.Forms) : (s.linkEnable link).Forms := State.ite_forms (State.linkTrain_forms h) h

theorem State.linkRetrain_forms {link : Nat} (h : s.Forms) : (s.linkRetrain link).Forms := State.ite_forms (State.linkTrain_forms h) h

theorem State.linkUnfence_forms {link : Nat} (h : s.Forms) : (s.linkUnfence link).Forms := State.ite_forms (State.linkDown_forms h) h

theorem execLkEnable_forms {link : Nat} (h : s.Forms) : outForms (execLkEnable link s) := State.lkServe_forms h (fun _ ha => State.linkEnable_forms ha)

theorem execLkRetrain_forms {link : Nat} (h : s.Forms) : outForms (execLkRetrain link s) := State.lkServe_forms h (fun _ ha => State.linkRetrain_forms ha)

theorem execLkFence_forms {link : Nat} (h : s.Forms) : outForms (execLkFence link s) := State.lkServe_forms h (fun _ ha => State.linkFence_forms ha)

theorem execLkUnfence_forms {link : Nat} (h : s.Forms) : outForms (execLkUnfence link s) := State.lkServe_forms h (fun _ ha => State.linkUnfence_forms ha)

theorem State.ifTraining_forms {link : Nat} {f : State → State} (h : s.Forms) (hf : ∀ (a : State), a.Forms → (f a).Forms) : (s.ifTraining link f).Forms :=
  State.ite_forms (hf _ h) h

theorem execLinkTrainedFull_forms {link : Nat} {rate : BitVec 8} (h : s.Forms) : outForms (execLinkTrainedFull link rate s) :=
  State.ifTraining_forms h (fun _ ha => State.ite_forms (State.modLink_forms ha) ha)

theorem execLinkTrainedReduced_forms {link : Nat} {width rate : BitVec 8} (h : s.Forms) : outForms (execLinkTrainedReduced link width rate s) :=
  State.ifTraining_forms h (fun _ ha => State.ite_forms (State.linkDown_forms ha) (State.ite_forms (State.modLink_forms ha) ha))

theorem execLinkTrainingFail_forms {link : Nat} (h : s.Forms) : outForms (execLinkTrainingFail link s) :=
  State.ifTraining_forms h (fun _ ha => State.linkDown_forms ha)

theorem execLinkTrainingTimeout_forms {link : Nat} (h : s.Forms) : outForms (execLinkTrainingTimeout link s) :=
  State.ifTraining_forms h (fun _ ha => State.ite_forms (State.linkDown_forms ha) ha)

theorem execFlitCrcReplay_forms {link : Nat} (h : s.Forms) : outForms (execFlitCrcReplay link s) := State.ite_forms (State.modLink_forms h) h

theorem execLinkErrorThreshold_forms {link : Nat} (h : s.Forms) : outForms (execLinkErrorThreshold link s) := State.ite_forms (State.linkTrain_forms h) h

/-! ### Guest -/

theorem State.gqReply_forms {status : Nat} (h : s.Forms) : (s.gqReply status).Forms := h.upd

theorem State.gqServe_forms {op : Nat} {f : State → Pending → State} (h : s.Forms) (hf : ∀ (a : State) (b : Pending), a.Forms → (f a b).Forms) :
    (s.gqServe op f).Forms := by
  unfold State.gqServe
  split
  · exact h
  · exact State.ite_forms (State.gqReply_forms h) (State.ite_forms (hf _ _ h) h)

theorem gqEnableStep_forms {p : Pending} (h : s.Forms) : (gqEnableStep s p).Forms :=
  State.ite_forms (State.gqReply_forms h) (State.ite_forms (State.gqReply_forms (State.gqSet_forms (State.recWrite_forms h))) (State.gqReply_forms h))

theorem execGqEnable_forms (h : s.Forms) : outForms (execGqEnable s) := State.gqServe_forms h (fun _ _ ha => gqEnableStep_forms ha)

theorem gqDisableStep_forms {p : Pending} (h : s.Forms) : (gqDisableStep s p).Forms := by
  unfold gqDisableStep
  extract_lets q st fenced __src
  have h__src : __src.Forms := State.quiesce_forms h
  exact State.ite_forms (State.gqReply_forms h) (State.ite_forms h__src.upd (State.ite_forms (State.ite_forms h (State.gqReply_forms h)) (State.ite_forms
    (State.gqReply_forms (State.gqOff_forms h)) (State.gqReply_forms h))))

theorem execGqDisable_forms (h : s.Forms) : outForms (execGqDisable s) := State.gqServe_forms h (fun _ _ ha => gqDisableStep_forms ha)

theorem State.startedFrom_forms {q : Nat} {l : List Nat} (h : s.Forms) : (s.startedFrom q l).2.Forms := by
  unfold State.startedFrom
  refine foldl_forms_snd h (fun p a hx => ?_)
  split
  · next e => exact forms_snd e (State.guestBytes_forms hx)
  · next e => exact forms_snd e (State.guestBytes_forms hx)

theorem State.readReport_forms {q : Nat} {read : BitVec 32} (h : s.Forms) : (s.readReport q read).Forms := by
  unfold State.readReport
  refine State.ite_forms ?_ h
  extract_lets l __src
  refine State.ite_forms h.upd ?_
  split
  · next e =>
      extract_lets s2 __src1
      have hs2 : s2.Forms := State.recWrite_forms (forms_snd e (State.startedFrom_forms h))
      exact hs2.upd

theorem execGuestReadReport_forms {q : Nat} {read : BitVec 32} (h : s.Forms) : outForms (execGuestReadReport q read s) :=
  State.ite_forms h.upd (State.readReport_forms h)

theorem State.reportsOut_forms (h : s.Forms) : s.reportsOut.Forms := foldl_forms h.upd (fun _ _ ht => State.ite_forms ht.upd (State.readReport_forms ht))

theorem State.guestDecrement_forms {ctx p : Nat} {inter : Bool} (h : s.Forms) : (s.guestDecrement ctx p inter).Forms := by
  unfold State.guestDecrement
  extract_lets n s1
  have hs1 : s1.Forms := State.guestPut_forms h
  exact State.ite_forms (State.fire_forms (State.guestPut_forms hs1)) hs1

theorem State.packetEnd_forms {q i : Nat} {pk : List Byte} {asked : Nat} {done cnt : XRes} (h : s.Forms) : (s.packetEnd q i pk asked done cnt).Forms := by
  unfold State.packetEnd
  extract_lets ctx refused word __src s0 s1
  have hs0 : s0.Forms := h.upd
  have hs1 : s1.Forms := by
    unfold s1
    split
    · exact State.guestPut_forms hs0
    · exact hs0
    · exact hs0
    · exact hs0
  split
  · exact State.ite_forms hs1 (State.guestDecrement_forms hs1)
  · exact hs1
  · exact hs1
  · exact hs1

theorem State.packetFault_forms {q i : Nat} {f : XFault} (h : s.Forms) : (s.packetFault q i f).Forms :=
  State.ite_forms (State.guestRecord_forms h) (State.raiseIf_forms h)

theorem execGuestPacketComplete_forms {q : Nat} {idx : BitVec 32} {status : BitVec 8} (h : s.Forms) : outForms (execGuestPacketComplete q idx status s) := by
  unfold execGuestPacketComplete
  refine State.ite_forms ?_ h
  split
  · next e =>
      refine State.ite_forms (forms_snd e (State.guestBytes_forms h)) ?_
      extract_lets s2
      have hs2 : s2.Forms := State.guestWalk_forms (State.guestWalk_forms (forms_snd e (State.guestBytes_forms h)))
      split
      · exact hs2
      · exact hs2
      · exact State.packetFault_forms hs2
      · exact State.packetFault_forms hs2
      · exact State.ite_forms hs2 (State.packetEnd_forms hs2)
  · next e => exact forms_snd e (State.guestBytes_forms h)

theorem execGuestTranslationRequest_forms {q : Nat} {va : Addr} {acc : Access} (h : s.Forms) : outForms (execGuestTranslationRequest q va acc s) := by
  unfold execGuestTranslationRequest
  extract_lets ctx s1 __src
  have hs1 : s1.Forms := State.walkTouch_forms h
  refine State.ite_forms ?_ h
  split
  · exact hs1.upd
  · exact State.raiseIf_forms hs1

theorem execGuestFaultRecord_forms {q : Nat} {idx : BitVec 32} {va : Addr} {acc : Access} {progress : Nat} (h : s.Forms) :
    outForms (execGuestFaultRecord q idx va acc progress s) := by
  unfold execGuestFaultRecord
  refine State.ite_forms ?_ h
  extract_lets s1
  have hs1 : s1.Forms := State.walkTouch_forms h
  split
  · exact State.guestRecord_forms hs1
  · exact hs1
  · exact hs1
  · exact hs1

theorem State.guestStore_forms {ctx p : Nat} {inter : Bool} {v : Word} (h : s.Forms) : (s.guestStore ctx p inter v).Forms := by
  unfold State.guestStore
  extract_lets s1 __src
  have hs1 : s1.Forms := State.guestPut_forms h
  exact hs1.upd

theorem execGuestCoherentAccess_forms {q : Nat} {va : Addr} {req : GuestReq} (h : s.Forms) : outForms (execGuestCoherentAccess q va req s) := by
  unfold execGuestCoherentAccess
  extract_lets ctx s1 __src
  have hs1 : s1.Forms := State.guestWalk_forms h
  refine State.ite_forms ?_ h
  split
  · refine State.ite_forms hs1 ?_
    split
    · exact State.ite_forms hs1 (State.recallRange_forms hs1)
    · exact State.guestStore_forms hs1
    · exact hs1.upd
  · exact State.ite_forms (State.guestRecord_forms hs1) (State.raiseIf_forms hs1)
  · exact hs1
  · exact hs1

theorem execGuestInvalidationAck_forms (h : s.Forms) : outForms (execGuestInvalidationAck s) := by
  unfold execGuestInvalidationAck
  split
  · exact State.ite_forms h.upd h
  · exact h

theorem execGuestQuiesced_forms {q : Nat} (h : s.Forms) : outForms (execGuestQuiesced q s) := by
  unfold execGuestQuiesced
  extract_lets ctx s1 __src
  have hs1 : s1.Forms := State.gqSet_forms h
  exact State.ite_forms hs1.upd h

theorem execGuestBoundExpiry_forms (h : s.Forms) : outForms (execGuestBoundExpiry s) := State.ite_forms (State.linkFence_forms h) h

end Sys2Proof.Machine
end

section
/-! PROOF. What the functions of Hampers, QuiltWrite, Sync, HostPort, Lifting lead to keeps the forms (R300, R348; log 3). -/

namespace Sys2Proof.Machine

variable {s : State}

/-! ### Hampers -/

theorem withHandle_forms {v : Word} {k : Nat → Hamper → Eff} (h : s.Forms) (hk : ∀ (a : Nat) (b : Hamper), (k a b).Forms) : (withHandle s v k).Forms := by
  unfold withHandle
  split
  · exact hk _ _
  · exact h

theorem execHlCat_forms {a b : Reg} (h : s.Forms) : outForms (execHlCat a b s) :=
  guarded_forms h (withHandle_forms h (fun _ _ => withHandle_forms h (fun _ _ => Eff.ite_forms h (State.modMe_forms h (fun _ hq => hq.upd)))))

theorem execHlFilt_forms {a b c : Reg} {kmask : BitVec 7} (h : s.Forms) : outForms (execHlFilt a b c kmask s) :=
  guarded_forms h (withHandle_forms h (fun _ _ => State.hamperOut_forms (State.modMe_forms h (fun _ hq => hq.upd))))

theorem execHlRebase_forms {a b : Reg} (h : s.Forms) : outForms (execHlRebase a b s) :=
  guarded_forms h (withHandle_forms h (fun _ _ => Eff.ite_forms h (State.modMe_forms h (fun _ hq => hq.upd))))

theorem State.appendAll_forms {es : List HEntry} (h : s.Forms) : optForms State.Forms (s.appendAll es) := by
  unfold State.appendAll
  refine foldl_forms_opt h (fun o a ho => ?_)
  split
  · exact State.hamperAppend_forms ho
  · exact ho

theorem applyDirect_forms {es : List HEntry} {s0 : State} (h : s0.Forms) : (applyDirect es s0).Forms := by
  unfold applyDirect
  extract_lets w s
  have hs : s.Forms := State.planTouch_forms h
  split
  · exact hs
  · exact hs
  · exact hs
  · exact Eff.ite_forms hs (Eff.ite_forms hs (Eff.ite_forms hs (State.stallFull_forms (State.applyCommit_forms (State.recallLists_forms hs)) hs)))

theorem execHlApply_forms {a : Reg} (h : s.Forms) : outForms (execHlApply a s) := by
  unfold execHlApply
  refine guarded_forms h ?_
  refine withHandle_forms h (fun a1 b => ?_)
  refine Eff.ite_forms ?_ (Eff.ite_forms h (State.release_forms h (fun _ ha2 => applyDirect_forms ha2)))
  split
  · next e => exact optForms_some e (State.appendAll_forms h)
  · exact h

theorem execHlDrop_forms {a : Reg} (h : s.Forms) : outForms (execHlDrop a s) :=
  guarded_forms h (withHandle_forms h (fun _ _ => State.modMe_forms (State.freeHampers_forms h) (fun _ hq => hq.upd)))

theorem execHlLen_forms {a b : Reg} (h : s.Forms) : outForms (execHlLen a b s) := guarded_forms h (withHandle_forms h (fun _ _ => State.setX_forms h))

/-! ### QuiltWrite -/

theorem qWriteAll_keeps {ws : List (Nat × List Byte)} : (qWriteAll ws).Keeps := by
  unfold qWriteAll
  refine RuleM.bind_keeps ?_ (fun _ => RuleM.modify_keeps (fun _ hx => foldl_forms hx (fun _ _ ht => State.recWrite_forms ht)))
  refine RuleM.mapM_keeps (fun a => ?_)
  refine RuleM.mapM_keeps (fun a1 => ?_)
  refine RuleM.bind_keeps qPlace_keeps (fun a2 => ?_)
  split
  · exact RuleM.pure_keeps

theorem qDraft_keeps {da : Nat} : (qDraft da).Keeps :=
  RuleM.get_bind_keeps (fun _ _ => RuleM.bind_keeps qDesc_keeps (fun _ => RuleM.ite_keeps (RuleM.bind_keeps qRead_keeps (fun _ => RuleM.ite_keeps qTrap_keeps
    RuleM.pure_keeps)) (RuleM.ite_keeps RuleM.pure_keeps (RuleM.bind_keeps qRead_keeps (fun _ => RuleM.bind_keeps qRead_keeps (fun _ => RuleM.pure_keeps))))))

theorem QDraft.carry_keeps {t : QDraft} {ver : Nat} {v : List Byte} {p : QPlan} : (t.carry ver v p).Keeps := by
  unfold QDraft.carry
  refine RuleM.get_bind_keeps (fun q hx => ?_)
  extract_lets own
  refine RuleM.bind_keeps qWriteAll_keeps (fun a => ?_)
  refine RuleM.modify_keeps (fun q1 hx1 => ?_)
  split
  · split
    · exact hx1.upd
    · exact hx1
  · exact hx1

theorem qWriter_forms {a : Reg} {desc o : Word} {n al : Nat} {m : RuleM Word} (hm : m.Keeps) (h : s.Forms) : (qWriter a desc o n al m s).Forms :=
  Eff.ite_forms h (Eff.ite_forms h (Eff.ite_forms h (Eff.ite_forms h (Eff.ite_forms h (Eff.ite_forms h (ruleRun_forms h hm (fun _ _ ht => State.setX_forms
    ht)))))))

theorem qSource_keeps {src n : Nat} : (qSource src n).Keeps := by
  unfold qSource
  refine RuleM.bind_keeps ?_ (fun _ => RuleM.pure_keeps)
  refine RuleM.mapM_keeps (fun a => ?_)
  refine RuleM.get_bind_keeps (fun q hx => ?_)
  refine RuleM.ite_keeps qTrap_keeps ?_
  split
  · next e =>
      refine RuleM.bind_keeps (RuleM.set_keeps (forms_snd e (State.translate_forms hx))) (fun a1 => ?_)
      split
      · refine RuleM.bind_keeps qTake_keeps (fun a4 => ?_)
        split
        · exact RuleM.pure_keeps
        · exact qTrap_keeps
      · exact RuleM.throw_keeps
      · exact qTrap_keeps
      · exact RuleM.throw_keeps

theorem qImage_keeps {fmt toff : Nat} {img : List Byte} : (qImage fmt toff img).Keeps :=
  RuleM.ite_keeps qTrap_keeps (RuleM.ite_keeps RuleM.pure_keeps (RuleM.ite_keeps qTrap_keeps (RuleM.bind_keeps qSource_keeps (fun _ => RuleM.ite_keeps
    qTrap_keeps RuleM.pure_keeps))))

theorem qFits_keeps {v : QView} {toff : Nat} {img : List Byte} : (qFits v toff img).Keeps := by
  unfold qFits
  extract_lets id b r jp
  have hjp : ∀ (x : Unit), (jp x).Keeps := fun _ => RuleM.ite_keeps (RuleM.bind_keeps qMap_keeps (fun _ => RuleM.bind_keeps qRead_keeps (fun _ =>
    RuleM.ite_keeps qTrap_keeps RuleM.pure_keeps))) RuleM.pure_keeps
  refine RuleM.ite_keeps qTrap_keeps ?_
  refine RuleM.ite_keeps ?_ (hjp ())
  refine RuleM.bind_keeps qRule_keeps (fun a => ?_)
  extract_lets jp1
  have hjp1 : ∀ (x : Option RuleRec), (jp1 x).Keeps := fun _ => RuleM.ite_keeps (RuleM.bind_keeps qTrap_keeps (fun _ => hjp ())) (hjp ())
  exact RuleM.ite_keeps (RuleM.bind_keeps (RuleM.map_keeps qRule_keeps) (fun _ => hjp1 _)) (RuleM.bind_keeps RuleM.pure_keeps (fun _ => hjp1 _))

theorem qDir_keeps {dir n : Nat} : (qDir dir n).Keeps := RuleM.bind_keeps qRead_keeps (fun _ => RuleM.pure_keeps)

theorem qRemap_keeps {t : QDraft} {id rec : Nat} {p : QPlan} : (qRemap t id rec p).Keeps := by
  unfold qRemap
  extract_lets v curDir pg off ent newDir
  refine RuleM.bind_keeps qDir_keeps (fun a => ?_)
  refine RuleM.bind_keeps qDir_keeps (fun a1 => ?_)
  split
  · exact RuleM.pure_keeps
  · exact RuleM.ite_keeps (RuleM.bind_keeps qMapPage_keeps (fun _ => RuleM.pure_keeps)) (RuleM.ite_keeps RuleM.pure_keeps RuleM.pure_keeps)

theorem qAppend_keeps {t : QDraft} {img : List Byte} {pay : Option (List Byte)} : (qAppend t img pay).Keeps := by
  unfold qAppend
  extract_lets id n
  split
  · exact RuleM.pure_keeps
  · extract_lets placed
    clear_value placed
    split
    · exact RuleM.pure_keeps
    · split
      · exact RuleM.pure_keeps
      · refine RuleM.bind_keeps qRemap_keeps (fun a => ?_)
        split
        · exact RuleM.pure_keeps
        · exact RuleM.bind_keeps QDraft.carry_keeps (fun _ => RuleM.pure_keeps)

theorem qApp_keeps {da toff : Nat} {img : List Byte} : (qApp da toff img).Keeps := by
  unfold qApp
  refine RuleM.bind_keeps qDraft_keeps (fun a => ?_)
  split
  · exact RuleM.pure_keeps
  · exact RuleM.bind_keeps qImage_keeps (fun _ => RuleM.bind_keeps qFits_keeps (fun _ => qAppend_keeps))

theorem execQlApp_forms {a b c : Reg} (h : s.Forms) : outForms (execQlApp a b c s) := guarded_forms h (qWriter_forms qApp_keeps h)

theorem qSpines_keeps {shared : Bool} {dir n : Nat} : (qSpines shared dir n).Keeps := by
  unfold qSpines
  refine RuleM.bind_keeps qRead_keeps (fun a => ?_)
  extract_lets es
  split
  · exact qTrap_keeps
  · exact RuleM.pure_keeps

theorem qSetRow_keeps {t : QDraft} {row addr count : Nat} {p : QPlan} : (qSetRow t row addr count p).Keeps := by
  unfold qSetRow
  extract_lets v ent
  refine RuleM.ite_keeps ?_ RuleM.pure_keeps
  split
  · exact RuleM.pure_keeps
  · exact RuleM.bind_keeps qSpines_keeps (fun _ => RuleM.pure_keeps)

theorem qCurSpine_keeps {t : QDraft} {row : Nat} : (qCurSpine t row).Keeps :=
  RuleM.ite_keeps RuleM.pure_keeps (RuleM.bind_keeps qRead_keeps (fun _ => RuleM.pure_keeps))

theorem qTile_keeps {v : QView} {sp : Nat × Nat} {n n1 n2 : Nat} : (qTile v sp n n1 n2).Keeps := by
  induction n generalizing v sp n1 n2 with
  | zero =>
    unfold qTile
    exact RuleM.pure_keeps
  | succ n ih =>
    unfold qTile
    refine RuleM.bind_keeps qEntry_keeps (fun a => ?_)
    split
    · exact RuleM.bind_keeps qRule_keeps (fun _ => RuleM.ite_keeps qTrap_keeps ih)

theorem qSpineCopy_keeps {t : QDraft} {shared : Bool} {addr old n : Nat} {p : QPlan} : (qSpineCopy t shared addr old n p).Keeps := by
  unfold qSpineCopy
  split
  · exact RuleM.pure_keeps
  · extract_lets keep jp
    have hjp : ∀ (x : Unit), (jp x).Keeps := fun _ => RuleM.bind_keeps qRead_keeps (fun _ => RuleM.pure_keeps)
    exact RuleM.ite_keeps (RuleM.bind_keeps qTile_keeps (fun _ => hjp ())) (hjp ())

theorem qPutEntry_keeps {t : QDraft} {row i : Nat} {ent : List Byte} {p : QPlan} : (qPutEntry t row i ent p).Keeps := by
  unfold qPutEntry
  extract_lets v
  refine RuleM.ite_keeps qTrap_keeps ?_
  refine RuleM.bind_keeps qRead_keeps (fun a => ?_)
  extract_lets addr count
  refine RuleM.bind_keeps qCurSpine_keeps (fun a1 => ?_)
  refine RuleM.ite_keeps qTrap_keeps ?_
  refine RuleM.ite_keeps ?_ RuleM.pure_keeps
  refine RuleM.bind_keeps qSpineCopy_keeps (fun a2 => ?_)
  split
  · exact RuleM.pure_keeps
  · exact qSetRow_keeps

theorem qPutCount_keeps {t : QDraft} {row n : Nat} {p : QPlan} : (qPutCount t row n p).Keeps := by
  unfold qPutCount
  extract_lets v
  refine RuleM.ite_keeps qTrap_keeps ?_
  refine RuleM.bind_keeps qRead_keeps (fun a => ?_)
  extract_lets addr count
  refine RuleM.bind_keeps qCurSpine_keeps (fun a1 => ?_)
  refine RuleM.ite_keeps ?_ qSetRow_keeps
  refine RuleM.bind_keeps qSpineCopy_keeps (fun a2 => ?_)
  split
  · exact RuleM.pure_keeps
  · exact qSetRow_keeps

theorem qPutShape_keeps {t : QDraft} {rows : Nat} {p : QPlan} : (qPutShape t rows p).Keeps := by
  unfold qPutShape
  extract_lets v
  refine RuleM.ite_keeps RuleM.pure_keeps ?_
  split
  · exact RuleM.pure_keeps
  · exact RuleM.bind_keeps qSpines_keeps (fun _ => RuleM.pure_keeps)

theorem qPut_keeps {da : Nat} {b : List Byte} : (qPut da b).Keeps := by
  unfold qPut
  refine RuleM.bind_keeps qDraft_keeps (fun a => ?_)
  split
  · exact RuleM.pure_keeps
  · refine RuleM.ite_keeps qTrap_keeps ?_
    split
    · exact RuleM.pure_keeps
    · extract_lets k jp
      have hjp : ∀ (x : Option (Nat × QPlan)), (jp x).Keeps := by
        intro x
        unfold jp
        split
        · exact RuleM.pure_keeps
        · exact RuleM.bind_keeps QDraft.carry_keeps (fun _ => RuleM.pure_keeps)
      exact RuleM.ite_keeps (RuleM.bind_keeps qPutEntry_keeps (fun _ => hjp _)) (RuleM.ite_keeps (RuleM.bind_keeps qPutCount_keeps (fun _ => hjp _))
        (RuleM.bind_keeps qPutShape_keeps (fun _ => hjp _)))

theorem execQlPut_forms {a b c : Reg} (h : s.Forms) : outForms (execQlPut a b c s) := guarded_forms h (qWriter_forms qPut_keeps h)

theorem qTileRows_keeps {v : QView} {n n1 : Nat} : (qTileRows v n n1).Keeps := by
  induction n generalizing v n1 with
  | zero =>
    unfold qTileRows
    exact RuleM.pure_keeps
  | succ n ih =>
    unfold qTileRows
    exact RuleM.bind_keeps qSpine_keeps (fun _ => RuleM.bind_keeps qTile_keeps (fun _ => ih))

theorem qPub_keeps {da : Nat} {renew : Bool} : (qPub da renew).Keeps := by
  unfold qPub
  refine RuleM.get_bind_keeps (fun q hx => ?_)
  refine RuleM.bind_keeps qDesc_keeps (fun a => ?_)
  refine RuleM.ite_keeps RuleM.pure_keeps ?_
  extract_lets va ca
  refine RuleM.bind_keeps qRead_keeps (fun a1 => ?_)
  extract_lets view v1 v2
  refine RuleM.bind_keeps qTileRows_keeps (fun a2 => ?_)
  refine RuleM.bind_keeps qRead_keeps (fun a3 => ?_)
  extract_lets old
  refine RuleM.bind_keeps qWriteAll_keeps (fun a4 => ?_)
  refine RuleM.bind_keeps qPlace_keeps (fun a5 => ?_)
  split
  · exact RuleM.bind_keeps (RuleM.modify_keeps (fun _ hx1 => hx1.upd)) (fun _ => RuleM.pure_keeps)

theorem execQlPub_forms {a b : Reg} {renew : Bool} (h : s.Forms) : outForms (execQlPub a b renew s) := guarded_forms h (qWriter_forms qPub_keeps h)

theorem qMarked_keeps {n : Nat} {m : RuleM (List (Option Byte))} (hm : m.Keeps) : (qMarked n m).Keeps := by
  unfold qMarked
  refine RuleM.tryCatch_keeps hm (fun e => ?_)
  split
  · exact RuleM.ite_keeps RuleM.pure_keeps RuleM.throw_keeps
  · exact RuleM.throw_keeps
  · exact RuleM.throw_keeps
  · exact RuleM.throw_keeps

theorem qLocate_keeps {v : QView} {n n1 n2 : Nat} : (qLocate v n n1 n2).Keeps := by
  induction n generalizing v n1 n2 with
  | zero =>
    unfold qLocate
    exact qTrap_keeps
  | succ n ih =>
    unfold qLocate
    exact RuleM.bind_keeps qRule_keeps (fun _ => RuleM.ite_keeps RuleM.pure_keeps (RuleM.bind_keeps qRule_keeps (fun _ => RuleM.ite_keeps ih ih)))

theorem qUnit_keeps {v : QView} {r : RuleRec} {g : Nat} : (qUnit v r g).Keeps := by
  unfold qUnit
  extract_lets ub whole each
  have hwhole : whole.Keeps := RuleM.bind_keeps qPacked_keeps (fun _ => RuleM.pure_keeps)
  have heach : each.Keeps :=
    RuleM.bind_keeps (RuleM.mapM_keeps (fun _ => qMarked_keeps (RuleM.bind_keeps qRead_keeps (fun _ => RuleM.pure_keeps)))) (fun _ => RuleM.pure_keeps)
  exact RuleM.ite_keeps hwhole (RuleM.bind_keeps (qMarked_keeps hwhole) (fun _ => RuleM.ite_keeps RuleM.pure_keeps heach))

theorem qFlat_keeps {v : QView} {u : Nat} : (qFlat v u).Keeps := by
  unfold qFlat
  extract_lets ub per col
  refine qMarked_keeps ?_
  refine RuleM.ite_keeps RuleM.pure_keeps ?_
  refine RuleM.bind_keeps qSpine_keeps (fun a => ?_)
  refine RuleM.bind_keeps qSearch_keeps (fun a1 => ?_)
  refine RuleM.bind_keeps qEntry_keeps (fun a2 => ?_)
  split
  · refine RuleM.bind_keeps qRule_keeps (fun a2 => ?_)
    refine RuleM.bind_keeps qAfter_keeps (fun a3 => ?_)
    refine RuleM.ite_keeps qTrap_keeps ?_
    refine RuleM.bind_keeps qLocate_keeps (fun a4 => ?_)
    split
    · exact qUnit_keeps

theorem qExpand_keeps {da off n : Nat} : (qExpand da off n).Keeps :=
  qMarked_keeps (RuleM.bind_keeps qDesc_keeps (fun _ => RuleM.bind_keeps qRead_keeps (fun _ => RuleM.bind_keeps (RuleM.mapM_keeps (fun _ => qFlat_keeps))
    (fun _ => RuleM.pure_keeps))))

theorem State.apertureLeft_forms {s : State} (h : s.Forms) : s.apertureLeft.Forms := by
  rw [State.forms_iff] at h ⊢
  obtain ⟨h1, h2, h3, h4, h5, hc, hg, hs⟩ := h
  exact ⟨h1, h2, h3, h4, h5, fun q hq => hc q (List.mem_of_mem_filter hq), fun q hq => hg q (List.mem_of_mem_filter hq), hs⟩

theorem execApertureRead_forms {a n : Nat} {s : State} (h : s.Forms) : outForms (execApertureRead a n s) := by
  unfold execApertureRead
  split
  · exact h
  · next q _ =>
      have hrun := RuleM.run_keeps (q := QCtx.start s noSlot q.ctx) (qExpand_keeps (da := q.desc.toNat) (off := a - q.base) (n := n)) h
      split
      · next e => exact outForms.next (State.Forms.upd (State.apertureLeft_forms (ctx_forms e hrun)))
      · next e => exact outForms.next (State.Forms.upd (State.apertureLeft_forms (ctx_forms e hrun)))
      · next e => exact outForms.next (State.Forms.upd (State.raiseIf_forms (State.apertureLeft_forms (ctx_forms e hrun))))
      · next e => exact outForms.next (State.Forms.upd (State.raiseIf_forms (State.apertureLeft_forms (ctx_forms e hrun))))
      · next e => exact outForms.next (State.Forms.upd (State.apertureLeft_forms (ctx_forms e hrun)))

theorem State.hostRecord_forms {ctx a acc : Nat} (h : s.Forms) : (s.hostRecord ctx a acc).Forms := by
  unfold State.hostRecord
  extract_lets __src fs f r s1
  have hs1 : s1.Forms := h.upd
  split
  · next e => exact State.ite_forms (forms_fst e (State.recordPut_forms hs1)) (State.Forms.upd (forms_fst e (State.recordPut_forms hs1)))

theorem execApertureWrite_forms {a : Nat} (h : s.Forms) : outForms (execApertureWrite a s) := by
  unfold execApertureWrite
  split
  · exact h
  · exact State.ite_forms h.upd (State.Forms.upd (State.hostRecord_forms h))

/-! ### Sync -/

theorem State.recallWait_forms {pick : Cond → Bool} {w : Wait} (h : s.Forms) : (s.recallWait pick w).Forms :=
  foldl_forms h (fun _ _ ht => State.ite_forms (State.recallRange_forms ht) ht)

theorem State.barEnter_forms {home p : Nat} (h : s.Forms) : optForms State.Forms (s.barEnter home p) := by
  unfold State.barEnter
  extract_lets reg
  split
  · exact State.modGrove_forms h (fun _ hg => hg.upd)
  · split
    · exact State.modGrove_forms h (fun _ hg => hg.upd)
    · exact trivial

theorem State.barTry_forms {owner : Option Nat} {c : Cond} (h : s.Forms) : (s.barTry owner c).1.Forms := by
  unfold State.barTry
  split
  · extract_lets s0
    have hs0 : s0.Forms := State.recallRange_forms h
    split
    · next e1 =>
        split
        · refine State.recWrite_forms ?_
          refine optForms_some e1 ?_
          split
          · exact hs0
          · exact State.barEnter_forms hs0
        · refine optForms_some e1 ?_
          split
          · exact hs0
          · exact State.barEnter_forms hs0
    · exact h
  · exact h

theorem State.barWaits_forms {owner : Option Nat} {w : Wait} (h : s.Forms) : (s.barWaits owner w).1.Forms := by
  unfold State.barWaits
  extract_lets r
  have hr : r.1.Forms := by
    unfold r
    refine foldl_forms_fst h (fun p a hx => ?_)
    extract_lets q
    have hq : q.1.Forms := State.barTry_forms hx
    exact hq
  exact hr

theorem State.beginWait_forms {w : Wait} (h : s.Forms) : (s.beginWait w).Forms := by
  unfold State.beginWait
  extract_lets secs s1 w1 q s2 w2
  have hs1 : s1.Forms := State.drainSecs_forms h
  have hq : q.1.Forms := State.barWaits_forms (State.modMe_forms hs1 (fun _ hq1 => hq1.upd))
  have hs2 : s2.Forms := State.recallWait_forms hq
  refine Eff.ite_forms h ?_
  split
  · exact State.modMe_forms (State.setX_forms (State.acquired_forms hs2)) (fun _ hq1 => hq1.upd)
  · exact State.modMe_forms hs2 (fun _ hq1 => hq1.upd)

theorem State.settleSlot_forms {pick : Cond → Bool} {last : Bool} {slot : Nat} (h : s.Forms) : (s.settleSlot pick last slot).Forms := by
  unfold State.settleSlot
  extract_lets sl
  split
  · exact h
  · refine State.ite_forms h ?_
    split
    · exact State.takeTrap_forms h
    · extract_lets s1 w1
      have hs1 : s1.Forms := State.recallWait_forms h
      split
      · exact State.modSlot_forms (State.acquired_forms hs1) (fun _ hq => Slot.Forms.upd (Slot.setXr_forms hq))
      · exact State.modSlot_forms hs1 (fun _ hq => hq.upd)

theorem State.setPark_forms {g key : Nat} {w : Wait} (h : s.Forms) : (s.setPark g key w).Forms := State.modGrove_forms h (fun _ hg1 => hg1.upd)

theorem State.settlePark_forms {pick : Cond → Bool} {last : Bool} {g : Nat} {pk : Park} (h : s.Forms) : (s.settlePark pick last g pk).Forms := by
  unfold State.settlePark
  split
  · exact h
  · refine State.ite_forms h ?_
    extract_lets s1 w1 s2
    have hs1 : s1.Forms := State.recallWait_forms h
    have hs2 : s2.Forms := State.modGrove_forms hs1 (fun _ hg1 => hg1.upd)
    split
    · exact State.ite_forms (State.enqueue_forms (State.modTask_forms hs2)) (State.setPark_forms hs1)
    · exact State.setPark_forms hs1

theorem State.settleGrove_forms {g : Nat} {pick : Cond → Bool} (h : s.Forms) : (s.settleGrove g pick).Forms := by
  unfold State.settleGrove
  extract_lets mine s1
  have hs1 : s1.Forms := foldl_forms h (fun _ _ ht => State.settleSlot_forms ht)
  exact foldl_forms hs1 (fun _ _ ht => State.settlePark_forms ht)

theorem State.parkSlot_forms {slot : Nat} (h : s.Forms) : (s.parkSlot slot).Forms := by
  unfold State.parkSlot
  extract_lets sl g
  split
  · exact State.ite_forms (State.ite_forms h (State.ite_forms (State.suspend_forms h) (State.modGrove_forms (State.suspend_forms h) (fun _ hg1 => hg1.upd))))
      h
  · exact h

theorem State.condXlate_forms {c : Cond} (h : s.Forms) : (s.condXlate c).Forms :=
  Got.ite_forms (Got.bind_forms (State.xlate_forms h) (fun _ _ ht => Got.ite_forms ht (Got.ite_forms ht (State.ite_forms ht (State.sigRead_forms ht)))))
    (Got.ite_forms h h)

theorem State.condsXlate_forms {l : List Cond} (h : s.Forms) : (s.condsXlate l).Forms := by
  induction l generalizing s with
  | nil =>
    unfold State.condsXlate
    exact h
  | cons a l ih =>
    unfold State.condsXlate
    exact Got.bind_forms (State.condXlate_forms h) (fun _ _ ht => Got.bind_forms (ih ht) (fun _ _ ht1 => ht1))

theorem waitGo_forms {e : Word} {cs : List Cond} {all : Bool} {d : Reg} {t : Nat} (h : s.Forms) : (waitGo e cs all d t s).Forms := by
  unfold waitGo
  extract_lets at16
  split
  · exact h
  · split
    · exact h
    · refine foldr_forms (State.beginWait_forms h) (fun a e3 he3 => ?_)
      refine State.feedTrap_forms h ?_
      split
      · exact h
      · exact he3

theorem waitBlock_forms {e : Word} {n : Nat} {all : Bool} {d : Reg} {t : Nat} (h : s.Forms) : (waitBlock e n all d t s).Forms := by
  unfold waitBlock
  refine Eff.ite_forms h ?_
  refine Eff.ite_forms h ?_
  split
  · exact h
  · extract_lets cs
    split
    · exact h
    · split
      · exact h
      · exact Got.andThen_forms (State.condsXlate_forms h) (fun _ _ ht1 => waitGo_forms ht1)

theorem execWait_forms {a b c : Reg} {all : Bool} {n : BitVec 2} {imm : Word} (h : s.Forms) : outForms (execWait a b c all n imm s) :=
  guarded_forms h (waitBlock_forms h)

theorem State.barrier_forms {e : Word} {acc : Access} (h : s.Forms) : (s.barrier e acc).Forms := by
  unfold State.barrier
  refine Got.ite_forms h ?_
  split
  · exact Got.bind_forms (State.xlate_forms h) (fun _ _ ht => Got.ite_forms ht ht)
  · exact h
  · exact h
  · exact h

theorem barAt_forms {d : Reg} {n p : Nat} {inter : Bool} {addr : Word} (h : s.Forms) : (barAt d n p inter addr s).Forms := by
  unfold barAt
  refine Eff.ite_forms h ?_
  refine Eff.ite_forms h ?_
  extract_lets s1 bs g
  have hs1 : s1.Forms := State.recallRange_forms (State.drainSecs_forms h)
  refine Eff.ite_forms (State.setX_forms hs1) ?_
  split
  · exact hs1
  · next e =>
      extract_lets o
      split
      · exact State.setX_forms (State.mixRecord_forms (State.perform_forms (optForms_some e (State.barEnter_forms hs1))))

theorem execBarArrive_forms {a b : Reg} {n : BitVec 27} (h : s.Forms) : outForms (execBarArrive a b n s) :=
  guarded_forms h (Eff.ite_forms h (Got.andThen_forms (State.barrier_forms h) (fun _ _ ht => Eff.ite_forms ht (State.release_forms ht (fun _ ha2 =>
    barAt_forms ha2)))))

theorem execBarWait_forms {a b c : Reg} (h : s.Forms) : outForms (execBarWait a b c s) := by
  unfold execBarWait
  extract_lets e
  refine guarded_forms h ?_
  refine Got.andThen_forms (State.barrier_forms h) (fun a1 t ht => ?_)
  refine Eff.ite_forms ht ?_
  extract_lets s2
  have hs2 : s2.Forms := State.sigRead_forms ht
  exact State.beginWait_forms hs2

theorem gbArrive_forms {d : Reg} {k : Nat} (h : s.Forms) : (gbArrive d k s).Forms := by
  unfold gbArrive
  split
  · exact Eff.ite_forms (State.setX_forms (State.acquired_forms h)) (State.beginWait_forms (State.modGroup_forms h))
  · exact h

theorem execGbSync_forms {a : BitVec 4} {k : BitVec 3} (h : s.Forms) : outForms (execGbSync a k s) :=
  guarded_forms h (Eff.ite_forms h (Eff.ite_forms h (State.release_forms h (fun _ ha1 => gbArrive_forms ha1))))

theorem execMsgOpen_forms {a : Reg} (h : s.Forms) : outForms (execMsgOpen a s) := by
  unfold execMsgOpen
  refine guarded_forms h ?_
  refine Eff.ite_forms h ?_
  split
  · exact State.modMe_forms h (fun _ hq => hq.upd)
  · exact h

theorem execMsgPut_forms {a : Reg} (h : s.Forms) : outForms (execMsgPut a s) := by
  unfold execMsgPut
  refine finish_forms ?_
  refine Eff.ite_forms ?_ h
  split
  · exact Eff.ite_forms (State.modMe_forms h (fun _ hq => hq.upd)) h
  · exact h

theorem execMsgEnd_forms (h : s.Forms) : outForms (execMsgEnd s) := by
  unfold execMsgEnd
  refine finish_forms ?_
  split
  · exact Eff.ite_forms (State.release_forms h (fun _ ha => Eff.ite_forms (State.modMe_forms (State.modMyGrove_forms ha (fun _ hg => hg.upd)) (fun _ hq =>
      hq.upd)) ha)) h
  · exact Eff.ite_forms h h

theorem recvStep_forms {d : Reg} {o : Word} (h : s.Forms) : (recvStep d o s).Forms := by
  unfold recvStep
  refine Eff.ite_forms h ?_
  refine Eff.ite_forms h ?_
  split
  · exact State.setX_forms h
  · extract_lets off p s1
    have hs1 : s1.Forms := State.tcmWrite_forms h
    split
    · exact h
    · exact State.setX_forms (State.modMe_forms (State.acquired_forms hs1) (fun _ hq => hq.upd))

theorem execRecv_forms {a b : Reg} (h : s.Forms) : outForms (execRecv a b s) := guarded_forms h (recvStep_forms h)

theorem execWaitSatisfiedNotice_forms {grove : Nat} (h : s.Forms) : outForms (execWaitSatisfiedNotice grove s) := State.settleGrove_forms h

theorem execMonitorPoll_forms {grove : Nat} (h : s.Forms) : outForms (execMonitorPoll grove s) := State.settleGrove_forms h

theorem execWaitTimeout_forms {slot : Nat} (h : s.Forms) : outForms (execWaitTimeout slot s) := by
  unfold execWaitTimeout
  extract_lets late pick s1
  have hs1 : s1.Forms := by
    unfold s1
    split
    · exact State.ite_forms (State.settleSlot_forms h) h
    · exact h
  exact foldl_forms hs1 (fun _ _ ht => State.settlePark_forms ht)

theorem execWaitHoldExpiry_forms {slot : Nat} (h : s.Forms) : outForms (execWaitHoldExpiry slot s) := State.parkSlot_forms h

theorem execParkEntryFree_forms {grove : Nat} (h : s.Forms) : outForms (execParkEntryFree grove s) := by
  unfold execParkEntryFree
  split
  · exact State.parkSlot_forms h
  · exact h

theorem execBarrierRegisterRetry_forms {slot : Nat} (h : s.Forms) : outForms (execBarrierRegisterRetry slot s) := by
  unfold execBarrierRegisterRetry
  extract_lets s1
  have hs1 : s1.Forms := by
    unfold s1
    split
    · extract_lets q
      have hq : q.1.Forms := State.barWaits_forms h
      exact State.modSlot_forms hq (fun _ hq1 => hq1.upd)
    · exact h
  refine foldl_forms hs1 (fun t a ht => ?_)
  extract_lets q
  have hq : q.1.Forms := State.barWaits_forms ht
  exact State.setPark_forms hq

/-! ### HostPort -/

theorem State.eventSet_forms {v : Word} (h : s.Forms) : (s.eventSet v).Forms := State.notify_forms h.upd

theorem execHostEventWordWrite_forms {v : Word} (h : s.Forms) : outForms (execHostEventWordWrite v s) := State.Forms.upd (State.eventSet_forms h)

theorem State.mbDone_forms {status : Nat} (h : s.Forms) : (s.mbDone status).Forms := h.upd

theorem State.mbStart_forms {v : Word} (h : s.Forms) : (s.mbStart v).Forms := by
  unfold State.mbStart
  refine State.ite_forms h ?_
  extract_lets vec op s1
  have hs1 : s1.Forms := h.upd
  exact State.ite_forms hs1 (State.mbDone_forms hs1)

theorem execMailboxFwOp_forms (h : s.Forms) : outForms (execMailboxFwOp s) := State.ite_forms (State.Forms.upd (State.eventSet_forms h)) h

theorem execMailboxComplete_forms {status : BitVec 7} (h : s.Forms) : outForms (execMailboxComplete status s) := State.ite_forms (State.mbDone_forms h) h

theorem execAttest_forms {s : State} (h : s.Forms) : outForms (execAttest s) := by
  unfold execAttest
  refine outForms.next ?_
  split
  · extract_lets body
    exact State.mbDone_forms (State.mbResp_forms h)
  · exact h

theorem State.barHost_forms {s : State} {off size : Nat} {v : Word} (h : s.Forms) : (s.barHost off size v).Forms := by
  unfold State.barHost
  split
  · extract_lets n low
    split
    · exact h.upd
    · exact h.upd
  · split
    · exact State.eventSet_forms h
    · split
      · exact State.mbStart_forms h
      · split
        · exact State.mbReq_forms h
        · exact h

theorem State.barHostWrite_forms {off size : Nat} {v : Word} (h : s.Forms) : (s.barHostWrite off size v).Forms := by
  unfold State.barHostWrite
  refine State.ite_forms h.upd ?_
  split
  · exact h.upd
  · exact State.Forms.upd (State.barHost_forms h)
  · exact State.Forms.upd (State.barHost_forms h)

theorem execHostBar0Write_forms {off size : Nat} {v : Word} (h : s.Forms) : outForms (execHostBar0Write off size v s) := State.barHostWrite_forms h

theorem State.hostQuilt_forms {owners : List Nat} {p acc : Nat} (h : s.Forms) : (s.hostQuilt owners p acc).Forms := by
  unfold State.hostQuilt
  refine State.ite_forms h.upd ?_
  split
  · next e => exact State.Forms.upd (State.hostRecord_forms (forms_snd e (State.freeIndex_forms h)))

theorem State.hostRead_forms {p n : Nat} (h : s.Forms) : (s.hostRead p n).Forms := by
  unfold State.hostRead
  extract_lets s1
  have hs1 : s1.Forms := State.recallRange_forms h
  exact hs1.upd

theorem State.hostWrite_forms {p : Nat} {bs : List Byte} (h : s.Forms) : (s.hostWrite p bs).Forms := by
  unfold State.hostWrite
  extract_lets s1 __src
  have hs1 : s1.Forms := State.poke_forms (State.recallRange_forms h)
  have h__src : __src.Forms := State.ite_forms (State.traceAdd_forms hs1) hs1
  exact h__src.upd

theorem State.hostPlace_forms {p n : Nat} {wr : Option (List Byte)} (h : s.Forms) : (s.hostPlace p n wr).Forms := by
  unfold State.hostPlace
  refine State.ite_forms h.upd ?_
  extract_lets owners
  refine State.ite_forms (State.hostQuilt_forms h) ?_
  split
  · exact State.hostWrite_forms h
  · exact State.hostRead_forms h

theorem execHostMemoryAccess_forms {pa size : Nat} {wr : Option (List Byte)} (h : s.Forms) : outForms (execHostMemoryAccess pa size wr s) := by
  unfold execHostMemoryAccess
  extract_lets n
  refine ite_outForms h ?_
  refine ite_outForms h.upd ?_
  split
  · exact State.hostPlace_forms h
  · refine ite_outForms ?_ (State.hostPlace_forms h)
    split
    · exact execApertureWrite_forms h
    · exact execApertureRead_forms h
  · split
    · exact State.barHostWrite_forms h
    · exact h.upd
  · exact h.upd
  · exact h.upd
  · exact h.upd
  · exact h.upd
  · exact h.upd

/-! ### Lifting -/

theorem qOperand_keeps {fl : Bool} {da : Nat} : (qOperand fl da).Keeps :=
  RuleM.ite_keeps qTrap_keeps (RuleM.bind_keeps qRead_keeps (fun _ => RuleM.ite_keeps qTrap_keeps (RuleM.ite_keeps RuleM.pure_keeps qTrap_keeps)))

theorem qElem_keeps {o : QOpnd} {i : Nat} : (qElem o i).Keeps := RuleM.ite_keeps qTrap_keeps (RuleM.bind_keeps qRead_keeps (fun _ => RuleM.pure_keeps))

theorem qResAt_keeps {op p : Nat} : (qResAt op p).Keeps := by
  unfold qResAt
  refine RuleM.bind_keeps qTake_keeps (fun a => ?_)
  split
  · exact RuleM.pure_keeps
  · extract_lets jp
    have hjp : ∀ (x : Option (List Byte)), (jp x).Keeps := fun _ => RuleM.get_bind_keeps (fun _ _ => RuleM.pure_keeps)
    exact RuleM.ite_keeps (RuleM.bind_keeps qTake_keeps (fun _ => hjp _)) (RuleM.bind_keeps RuleM.pure_keeps (fun _ => hjp _))

theorem qBucket_keeps {op b : Nat} : (qBucket op b).Keeps := RuleM.mapM_keeps (fun _ => qResAt_keeps)

theorem qTable_keeps {op : Nat} {key : List Byte} : (qTable op key).Keeps := by
  unfold qTable
  refine RuleM.get_bind_keeps (fun q hx => ?_)
  split
  · exact RuleM.pure_keeps
  · exact RuleM.bind_keeps qBucket_keeps (fun _ => RuleM.pure_keeps)

theorem State.entryFor_forms {rs : List (Option RuleRes)} {key : List Byte} (h : s.Forms) : (s.entryFor rs key).2.Forms := by
  unfold State.entryFor
  extract_lets pick
  split
  · exact h
  · exact State.freeIndex_forms h

theorem qTablePut_keeps {op : Nat} {r : RuleRes} : (qTablePut op r).Keeps := by
  unfold qTablePut
  refine RuleM.get_bind_keeps (fun q hx => ?_)
  split
  · exact RuleM.pure_keeps
  · refine RuleM.bind_keeps qBucket_keeps (fun a => ?_)
    refine RuleM.modify_keeps (fun q1 hx1 => ?_)
    split
    · next e1 =>
        extract_lets bs s2
        have hs2 : s2.Forms := State.recWrite_forms (forms_snd e1 (State.entryFor_forms hx1))
        exact hs2.upd

theorem State.cachePut_forms {g : Nat} {r : RuleRes} (h : s.Forms) : (s.cachePut g r).Forms := by
  unfold State.cachePut
  extract_lets l
  refine State.ite_forms (State.modGrove_forms h (fun _ hg1 => hg1.upd)) ?_
  split
  · next e => exact State.modGrove_forms (forms_snd e (State.freeIndex_forms h)) (fun _ hg1 => hg1.upd)

theorem qFind_keeps {op : Nat} {key : List Byte} : (qFind op key).Keeps := by
  unfold qFind
  refine RuleM.get_bind_keeps (fun q hx => ?_)
  extract_lets g
  split
  · exact RuleM.pure_keeps
  · refine RuleM.bind_keeps qTable_keeps (fun a => ?_)
    split
    · exact RuleM.bind_keeps (RuleM.modify_keeps (fun _ hx1 => State.cachePut_forms hx1)) (fun _ => RuleM.pure_keeps)
    · exact RuleM.pure_keeps

theorem State.freeSumm_forms {op : Nat} {fl : Bool} {zs : Option (Bool × Bool)} (h : s.Forms) : (s.freeSumm op fl zs).2.Forms := by
  unfold State.freeSumm
  extract_lets n w f
  split
  · exact h.upd

theorem qParts_keeps {v : QView} {n : Nat} {a : PMap RulePart} {n1 : Nat} : (qParts v n a n1).Keeps := by
  induction n generalizing v a n1 with
  | zero =>
    unfold qParts
    exact RuleM.pure_keeps
  | succ n ih =>
    unfold qParts
    exact RuleM.ite_keeps RuleM.pure_keeps (RuleM.bind_keeps qRule_keeps (fun _ => RuleM.ite_keeps (RuleM.bind_keeps qPacked_keeps (fun _ =>
      RuleM.pure_keeps)) (RuleM.ite_keeps (RuleM.bind_keeps ih (fun _ => RuleM.bind_keeps ih (fun _ => RuleM.pure_keeps))) (RuleM.bind_keeps ih (fun _ =>
      RuleM.pure_keeps)))))

theorem qLook_keeps {α : Type} {m : RuleM α} (hm : m.Keeps) : (qLook m).Keeps := RuleM.get_bind_keeps (fun _ _ => RuleM.pure_keeps)

theorem qNode_keeps : qNode.Keeps := RuleM.modify_keeps (fun _ hx => hx)

theorem qSeen_keeps {key : List Byte} {made : Bool} : (qSeen key made).Keeps := by
  unfold qSeen
  refine RuleM.modify_keeps (fun q hx => ?_)
  split
  · exact hx
  · split
    · exact hx
    · exact hx

theorem qLeaf_keeps {e : QOp} {l : List (Word × Bool × Bool)} {anchor : Nat} : (qLeaf e l anchor).Keeps := by
  unfold qLeaf
  refine RuleM.bind_keeps ?_ (fun _ => RuleM.pure_keeps)
  refine RuleM.foldlM_keeps (fun b a => ?_)
  extract_lets jp
  have hjp : ∀ (x : Word), (jp x).Keeps := fun _ => RuleM.pure_keeps
  exact RuleM.ite_keeps (RuleM.bind_keeps qElem_keeps (fun _ => hjp _)) (RuleM.bind_keeps RuleM.pure_keeps (fun _ => hjp _))

theorem qCopies_keeps {e : QOp} {len : Nat} {f : Nat → RuleM Summ} {n n1 n2 : Nat} (hf : ∀ (a : Nat), (f a).Keeps) : (qCopies e len f n n1 n2).Keeps := by
  induction n generalizing e len n1 n2 with
  | zero =>
    unfold qCopies
    exact hf _
  | succ n ih =>
    unfold qCopies
    refine RuleM.ite_keeps (hf _) ?_
    extract_lets m
    refine RuleM.bind_keeps ih (fun a => ?_)
    extract_lets jp
    have hjp : ∀ (x : Summ), (jp x).Keeps := fun _ => RuleM.ite_keeps RuleM.pure_keeps (RuleM.bind_keeps (hf _) (fun _ => RuleM.pure_keeps))
    exact RuleM.ite_keeps (RuleM.bind_keeps ih (fun _ => hjp _)) (RuleM.bind_keeps RuleM.pure_keeps (fun _ => hjp _))

theorem qMade_keeps {e : QOp} {id : Nat} : (qMade e id).Keeps :=
  qLook_keeps (RuleM.bind_keeps qRule_keeps (fun _ => RuleM.bind_keeps qParts_keeps (fun _ => RuleM.pure_keeps)))

theorem qOpndNow_keeps {e : QOp} {a n : Nat} : (qOpndNow e a n).Keeps :=
  RuleM.ite_keeps (RuleM.bind_keeps (qLook_keeps (RuleM.mapM_keeps (fun _ => RuleM.tryCatch_keeps (RuleM.map_keeps qElem_keeps) (fun _ =>
    RuleM.pure_keeps)))) (fun _ => RuleM.pure_keeps)) RuleM.pure_keeps

theorem qStore_keeps {e : QOp} {id a : Nat} {x : Summ} : (qStore e id a x).Keeps := by
  unfold qStore
  refine RuleM.bind_keeps qMade_keeps (fun a1 => ?_)
  extract_lets jp
  have hjp : ∀ (x : Option Made), (jp x).Keeps := fun _ => RuleM.bind_keeps (RuleM.modify_keeps (fun _ hx => State.cachePut_forms hx)) (fun _ =>
    qTablePut_keeps)
  split
  · exact RuleM.bind_keeps qOpndNow_keeps (fun _ => RuleM.bind_keeps RuleM.pure_keeps (fun _ => hjp _))
  · exact RuleM.bind_keeps RuleM.pure_keeps (fun _ => hjp _)

theorem qKept_keeps {e : QOp} {id a : Nat} {r : RuleRes} : (qKept e id a r).Keeps := by
  unfold qKept
  refine RuleM.bind_keeps qMade_keeps (fun a1 => ?_)
  extract_lets moved
  refine RuleM.bind_keeps qOpndNow_keeps (fun a2 => ?_)
  extract_lets stale
  refine RuleM.get_bind_keeps (fun q hx => ?_)
  extract_lets all
  refine RuleM.ite_keeps ?_ RuleM.pure_keeps
  split
  · next e1 => exact RuleM.bind_keeps (RuleM.set_keeps (forms_snd e1 (State.freeSumm_forms hx))) (fun _ => RuleM.pure_keeps)

theorem qLength_keeps {e : QOp} {id : Nat} {r : RuleRes} : (qLength e id r).Keeps := by
  unfold qLength
  refine RuleM.bind_keeps (qLook_keeps qRule_keeps) (fun a => ?_)
  refine RuleM.modify_keeps (fun q hx => ?_)
  extract_lets n
  clear_value n
  split
  · split
    · exact hx
    · exact hx
  · exact hx

theorem qSumm_keeps {e : QOp} {n n1 n2 : Nat} : (qSumm e n n1 n2).Keeps := by
  induction n generalizing e n1 n2 with
  | zero =>
    unfold qSumm
    exact qTrap_keeps
  | succ n ih =>
    unfold qSumm
    extract_lets key make
    have hmake : make.Keeps :=
      RuleM.bind_keeps qRule_keeps (fun _ => RuleM.ite_keeps (RuleM.bind_keeps qPacked_keeps (fun _ => RuleM.bind_keeps qLeaf_keeps (fun _ =>
        RuleM.pure_keeps))) (RuleM.bind_keeps qRule_keeps (fun _ => RuleM.ite_keeps (RuleM.bind_keeps ih (fun _ => RuleM.bind_keeps ih (fun _ =>
        RuleM.pure_keeps))) (qCopies_keeps (fun _ => ih)))))
    refine RuleM.bind_keeps qFind_keeps (fun a => ?_)
    split
    · exact RuleM.bind_keeps qSeen_keeps (fun _ => RuleM.bind_keeps qLength_keeps (fun _ => qKept_keeps))
    · exact RuleM.bind_keeps qNode_keeps (fun _ => RuleM.bind_keeps hmake (fun _ => RuleM.bind_keeps qStore_keeps (fun _ => RuleM.bind_keeps qSeen_keeps
        (fun _ => RuleM.pure_keeps))))

theorem qWalk_keeps {α : Type} {v : QView} {sp : Nat × Nat} {f : α → Nat → Nat → RuleM α} {n n1 : Nat} {a : Lead} {a1 : α} (hf : ∀ (a : α) (b a_2 : Nat), (f
    a b a_2).Keeps) :
    (qWalk v sp f n n1 a a1).Keeps := by
  induction n generalizing v sp a a1 n1 with
  | zero =>
    unfold qWalk
    exact RuleM.pure_keeps
  | succ n ih =>
    unfold qWalk
    refine RuleM.bind_keeps qEntry_keeps (fun a2 => ?_)
    split
    · exact RuleM.bind_keeps (hf _ _ _) (fun _ => RuleM.bind_keeps qAfter_keeps (fun _ => ih))

theorem qFold_keeps {e : QOp} {sp : Nat × Nat} {i0 i1 : Nat} : (qFold e sp i0 i1).Keeps :=
  qWalk_keeps (fun _ _ _ => RuleM.bind_keeps qSumm_keeps (fun _ => RuleM.pure_keeps))

theorem qRange_keeps {v : QView} {r : QReq} : (qRange v r).Keeps :=
  RuleM.ite_keeps qTrap_keeps (RuleM.bind_keeps qSpine_keeps (fun _ => RuleM.ite_keeps qTrap_keeps RuleM.pure_keeps))

theorem qEval_keeps {h : QHandle} {op : Nat} {r : QReq} : (qEval h op r).Keeps := by
  unfold qEval
  refine RuleM.bind_keeps qView_keeps (fun a => ?_)
  extract_lets fl jp
  have hjp : ∀ (x : QOpnd), (jp x).Keeps := fun _ => RuleM.bind_keeps qSumm_keeps (fun _ => RuleM.pure_keeps)
  refine RuleM.ite_keeps (RuleM.ite_keeps qTrap_keeps (RuleM.ite_keeps (RuleM.bind_keeps qOperand_keeps (fun _ => hjp _)) (RuleM.bind_keeps RuleM.pure_keeps
    (fun _ => hjp _)))) ?_
  refine RuleM.bind_keeps qRange_keeps (fun a1 => ?_)
  extract_lets jp1
  have hjp1 : ∀ (x : QOpnd), (jp1 x).Keeps := fun _ => RuleM.bind_keeps (qWalk_keeps (fun _ _ _ => RuleM.bind_keeps qSumm_keeps (fun _ => RuleM.pure_keeps)))
    (fun _ => RuleM.get_bind_keeps (fun _ _ => RuleM.pure_keeps))
  exact RuleM.ite_keeps (RuleM.bind_keeps qOperand_keeps (fun _ => hjp1 _)) (RuleM.bind_keeps RuleM.pure_keeps (fun _ => hjp1 _))

theorem qFoldRow_keeps {h : QHandle} {op : Nat} {r : QReq} : (qFoldRow h op r).Keeps := by
  unfold qFoldRow
  refine RuleM.bind_keeps qView_keeps (fun a => ?_)
  refine RuleM.bind_keeps qRange_keeps (fun a1 => ?_)
  extract_lets jp
  have hjp : ∀ (x : QOpnd), (jp x).Keeps := by
    intro x
    unfold jp
    extract_lets e
    refine RuleM.bind_keeps qFold_keeps (fun a2 => ?_)
    split
    · exact RuleM.pure_keeps
  exact RuleM.ite_keeps (RuleM.bind_keeps qOperand_keeps (fun _ => hjp _)) (RuleM.bind_keeps RuleM.pure_keeps (fun _ => hjp _))

theorem State.workPut_forms {slot : Nat} {r : QReq} {nodes : Nat} {ran : Bool} (h : s.Forms) : (s.workPut slot r nodes ran).Forms :=
  State.ite_forms h (State.scrWrite_forms h.upd)

theorem withNodes_keeps {r : QReq} {m : RuleM (List Byte)} (hm : m.Keeps) : (withNodes r m).Keeps := by
  unfold withNodes
  refine RuleM.bind_keeps ?_ (fun _ => RuleM.bind_keeps (RuleM.modify_keeps (fun _ hx => State.workPut_forms hx)) (fun _ => RuleM.pure_keeps))
  refine RuleM.tryCatch_keeps (RuleM.map_keeps hm) (fun e => ?_)
  split
  · exact RuleM.throw_keeps
  · exact RuleM.bind_keeps (RuleM.modify_keeps (fun _ hx => State.workPut_forms hx)) (fun _ => RuleM.throw_keeps)
  · exact RuleM.bind_keeps (RuleM.modify_keeps (fun _ hx => State.workPut_forms hx)) (fun _ => RuleM.throw_keeps)
  · exact RuleM.bind_keeps (RuleM.modify_keeps (fun _ hx => State.workPut_forms hx)) (fun _ => RuleM.throw_keeps)

theorem withRequest_forms {o c : Word} {scr eval : Bool} {op : Nat} {n : QReq → Nat} {k : QReq → Eff} (h : s.Forms) (hk : ∀ (a : QReq), (k a).Forms) :
    (withRequest o c scr eval op n s k).Forms :=
  Eff.ite_forms h (Eff.ite_forms h (Eff.ite_forms h (Eff.ite_forms h (Eff.ite_forms h (hk _)))))

theorem evalCount_forms {r : QReq} {k : State → Eff} {s0 : State} (hk : ∀ (a : State), a.Forms → (k a).Forms) (h : s0.Forms) (hs : s.Forms) :
    (evalCount r k s0 s).Forms := by
  unfold evalCount
  extract_lets c
  refine Eff.ite_forms (hk _ hs) ?_
  refine Eff.ite_forms hs ?_
  refine Eff.ite_forms hs ?_
  split
  · next e => exact forms_snd e (State.translate_forms hs)
  · next e => exact forms_snd e (State.translate_forms hs)
  · exact h
  · next e =>
        exact Eff.ite_forms (Got.andThen_forms (State.collect_forms (forms_snd e (State.translate_forms hs))) (fun _ _ ht1 => hk _ ht1)) (Eff.ite_forms h
          (Eff.ite_forms (forms_snd e (State.translate_forms hs)) (Eff.ite_forms (forms_snd e (State.translate_forms hs)) (Eff.ite_forms h (hk _
          (State.stallFull_forms (State.applyCommit_forms (forms_snd e (State.translate_forms hs))) (forms_snd e (State.translate_forms hs))))))))

theorem evalStep_forms {op : Nat} {o c : Word} {scr : Bool} {h : QHandle} (hs : s.Forms) : (evalStep op o c scr h s).Forms :=
  withRequest_forms hs (fun _ => ruleRun_forms hs (withNodes_keeps qEval_keeps) (fun _ _ ht => evalCount_forms (fun _ ha2 => putResult_forms ha2) hs ht))

theorem execQlEval_forms {op : BitVec 3} {a b c : Reg} {scr : Bool} (h : s.Forms) : outForms (execQlEval op a b c scr s) :=
  quilted_forms h (Eff.ite_forms h (withQuilt_forms h (fun _ _ => evalStep_forms h)))

theorem qDescend_keeps {e : QOp} {n n1 n2 n3 : Nat} {a : Option Summ} : (qDescend e n n1 n2 n3 a).Keeps := by
  induction n generalizing e a n1 n2 n3 with
  | zero =>
    unfold qDescend
    exact qTrap_keeps
  | succ n ih =>
    unfold qDescend
    exact RuleM.bind_keeps qRule_keeps (fun _ => RuleM.ite_keeps (RuleM.bind_keeps qRule_keeps (fun _ => RuleM.ite_keeps ih (RuleM.bind_keeps qSumm_keeps
      (fun _ => ih)))) (RuleM.ite_keeps (RuleM.bind_keeps qRule_keeps (fun _ => RuleM.ite_keeps (RuleM.bind_keeps RuleM.pure_keeps (fun _ => ih))
      (RuleM.bind_keeps (qCopies_keeps (fun _ => qSumm_keeps)) (fun _ => RuleM.bind_keeps RuleM.pure_keeps (fun _ => ih))))) (RuleM.bind_keeps qPacked_keeps
      (fun _ => RuleM.bind_keeps qLeaf_keeps (fun _ => RuleM.pure_keeps)))))

theorem qSeek_keeps {h : QHandle} {op p : Nat} : (qSeek h op p).Keeps := by
  unfold qSeek
  refine RuleM.bind_keeps qView_keeps (fun a => ?_)
  refine RuleM.ite_keeps qTrap_keeps ?_
  extract_lets e pos
  refine RuleM.bind_keeps qSpine_keeps (fun a1 => ?_)
  refine RuleM.bind_keeps qSearch_keeps (fun a2 => ?_)
  refine RuleM.bind_keeps qFold_keeps (fun a3 => ?_)
  split
  · refine RuleM.bind_keeps qEntry_keeps (fun a3 => ?_)
    split
    · refine RuleM.bind_keeps qRule_keeps (fun a3 => ?_)
      refine RuleM.bind_keeps qAfter_keeps (fun a4 => ?_)
      refine RuleM.ite_keeps qTrap_keeps ?_
      refine RuleM.bind_keeps qDescend_keeps (fun a5 => ?_)
      split
      · exact RuleM.pure_keeps

theorem seekStep_forms {op : Nat} {o c : Word} {scr : Bool} {h : QHandle} (hs : s.Forms) : (seekStep op o c scr h s).Forms :=
  Eff.ite_forms hs (Eff.ite_forms hs (Eff.ite_forms hs (ruleRun_forms hs qSeek_keeps (fun _ _ ht => putResult_forms ht))))

theorem execQlSeek_forms {op : BitVec 3} {a b c : Reg} {scr : Bool} (h : s.Forms) : outForms (execQlSeek op a b c scr s) :=
  quilted_forms h (Eff.ite_forms h (withQuilt_forms h (fun _ _ => seekStep_forms h)))

theorem qKeys_keeps {v : QView} {kw id : Nat} : (qKeys v kw id).Keeps := by
  unfold qKeys
  refine RuleM.bind_keeps qRule_keeps (fun a => ?_)
  extract_lets whole
  have hwhole : ∀ (a : RuleRec), (whole a).Keeps := fun _ => RuleM.ite_keeps qTrap_keeps RuleM.pure_keeps
  exact RuleM.bind_keeps (qSlice_keeps (fun _ => hwhole _)) (fun _ => RuleM.pure_keeps)

theorem qWidth_keeps {v : QView} {sp : Nat × Nat} {kw n n1 : Nat} : (qWidth v sp kw n n1).Keeps := by
  induction n generalizing v sp kw n1 with
  | zero =>
    unfold qWidth
    exact RuleM.pure_keeps
  | succ n ih =>
    unfold qWidth
    refine RuleM.bind_keeps qProbe_keeps (fun a => ?_)
    split
    · exact RuleM.ite_keeps qTrap_keeps ih

theorem qAttn_keeps {h : QHandle} {r : QReq} : (qAttn h r).Keeps := by
  unfold qAttn
  refine RuleM.get_bind_keeps (fun q hx => ?_)
  extract_lets g core b mode nq qoff poff dc qs
  refine RuleM.bind_keeps qView_keeps (fun a => ?_)
  refine RuleM.bind_keeps qRange_keeps (fun a1 => ?_)
  refine RuleM.ite_keeps qTrap_keeps ?_
  refine RuleM.ite_keeps qTrap_keeps ?_
  refine RuleM.ite_keeps qTrap_keeps ?_
  refine RuleM.ite_keeps qTrap_keeps ?_
  refine RuleM.ite_keeps qTrap_keeps ?_
  refine RuleM.ite_keeps qTrap_keeps ?_
  refine RuleM.ite_keeps qTrap_keeps ?_
  refine RuleM.bind_keeps qWidth_keeps (fun a2 => ?_)
  refine RuleM.ite_keeps qTrap_keeps ?_
  refine RuleM.ite_keeps qTrap_keeps ?_
  refine RuleM.ite_keeps qTrap_keeps ?_
  refine RuleM.bind_keeps (qWalk_keeps (fun _ _ _ => RuleM.bind_keeps qKeys_keeps (fun _ => RuleM.pure_keeps))) (fun a3 => ?_)
  split
  · exact RuleM.pure_keeps

theorem foldStep_forms {op : Nat} {o c : Word} {scr : Bool} {h : QHandle} (hs : s.Forms) : (foldStep op o c scr h s).Forms :=
  withRequest_forms hs (fun _ => ruleRun_forms hs (withNodes_keeps (RuleM.ite_keeps qAttn_keeps qFoldRow_keeps)) (fun _ _ ht => putResult_forms ht))

theorem execQlFold_forms {op : BitVec 3} {a b c : Reg} {scr : Bool} (h : s.Forms) : outForms (execQlFold op a b c scr s) :=
  quilted_forms h (Eff.ite_forms h (withQuilt_forms h (fun _ _ => foldStep_forms h)))

end Sys2Proof.Machine
end

section
/-! PROOF. What the functions of Matrix, Memory, MemEvents, Queues, Special, Startup, Tasks lead to keeps the forms (R300, R348; log 3). -/

namespace Sys2Proof.Machine

variable {s : State}

/-! ### Matrix -/

theorem cbBindTo_forms {h : HReg} {v : Nat} (hs : s.Forms) : (cbBindTo h v s).Forms := by
  unfold cbBindTo
  extract_lets core scr off e
  refine Eff.ite_forms hs ?_
  refine Eff.ite_forms (State.modMyCore_forms hs (fun _ hc => hc.upd)) ?_
  refine Eff.ite_forms hs ?_
  refine Eff.ite_forms hs ?_
  split
  · exact hs
  · exact Eff.ite_forms (State.modMyCore_forms hs (fun _ hc => hc.upd)) hs

theorem execCbCfg_forms {h : HReg} {b : Reg} (hs : s.Forms) : outForms (execCbCfg h b s) := guarded_forms hs (Eff.ite_forms hs (cbBindTo_forms hs))

theorem cbAdvance_forms {h : HReg} {n : Nat} {prod : Bool} (hs : s.Forms) : (cbAdvance h n prod s).Forms := by
  unfold cbAdvance
  extract_lets core
  split
  · exact hs
  · split
    · exact hs
    · refine Eff.ite_forms hs ?_
      refine State.release_forms hs (fun a ha => ?_)
      extract_lets reads s2
      have hs2 : s2.Forms := State.ite_forms (State.mmaFinish_forms ha) ha
      exact State.ite_forms (State.cbProd_forms hs2) (State.cbCons_forms hs2)

theorem execCbAdvP_forms {h : HReg} {n : BitVec 34} (hs : s.Forms) : outForms (execCbAdvP h n s) := guarded_forms hs (cbAdvance_forms hs)

theorem execCbAdvC_forms {h : HReg} {n : BitVec 34} (hs : s.Forms) : outForms (execCbAdvC h n s) := guarded_forms hs (cbAdvance_forms hs)

theorem Core.zeroAcc_forms {c : Core} {cols : Cols} (hc : c.Forms) : (c.zeroAcc cols).Forms := by
  unfold Core.zeroAcc
  split
  · exact hc.upd
  · exact Core.mapAcc_forms hc
  · exact Core.mapAcc_forms hc

theorem execMxCfg_forms {a : Reg} {zero : Bool} (h : s.Forms) : outForms (execMxCfg a zero s) := by
  unfold execMxCfg
  extract_lets v f
  refine guarded_forms h ?_
  refine Eff.ite_forms h ?_
  refine Eff.ite_forms h ?_
  refine State.modMyCore_forms h (fun c hc => ?_)
  extract_lets c1
  have hc1 : c1.Forms := Core.ite_forms (Core.zeroAcc_forms hc) hc
  exact hc1.upd

theorem execMxZero_forms {cols : Cols} (h : s.Forms) : outForms (execMxZero cols s) :=
  guarded_forms h (Eff.ite_forms h (State.modMyCore_forms h (fun _ hc => Core.zeroAcc_forms hc)))

theorem State.bufFor_forms {h : HReg} {n : Nat} (hs : s.Forms) : errForms (s.bufFor h n) := by
  unfold State.bufFor
  split
  · exact hs
  · split
    · exact hs
    · split
      · exact hs
      · exact trivial

theorem State.filledSlot_forms {h : HReg} {b : Cb} {n : Nat} {k : Nat → Eff} (hs : s.Forms) (hk : ∀ (a : Nat), (k a).Forms) :
    (s.filledSlot h b n k).Forms := by
  unfold State.filledSlot
  refine Eff.ite_forms (State.feedTrap_forms hs hs) ?_
  extract_lets o
  split
  · exact hs
  · exact hk _

theorem State.mmaIssue_forms {op : MmaOp} (h : s.Forms) : (s.mmaIssue op).Forms :=
  Eff.ite_forms h (Eff.ite_forms (State.modMyGrove_forms h (fun _ hg => hg.upd)) (State.mmaEnter_forms (State.modMyCore_forms h (fun _ hc => hc.upd))))

theorem State.mmaB_forms {mode : Nat} {b : HReg} {bb : Option Cb} {n : Nat} {k : Option HReg → Bool → Nat → Eff} (h : s.Forms) (hk : ∀ (a : Option HReg) (b :
    Bool) (a_2 : Nat), (k a b a_2).Forms) :
    (s.mmaB mode b bb n k).Forms := by
  unfold State.mmaB
  split
  · exact State.filledSlot_forms h (fun _ => hk _ _ _)
  · split
    · exact Eff.ite_forms h (Eff.ite_forms h (hk _ _ _))
    · exact h

theorem State.mmaA_forms {xa : Word} {a : HReg} {ab : Option Cb} {stride n : Nat} {k : Option HReg → Bool → Nat → Nat → Eff} (h : s.Forms) (hk : ∀
    (a : Option HReg) (b : Bool) (a_2 a_3 : Nat), (k a b a_2 a_3).Forms) :
    (s.mmaA xa a ab stride n k).Forms := by
  unfold State.mmaA
  split
  · exact State.filledSlot_forms h (fun _ => hk _ _ _ _)
  · split
    · exact h
    · exact hk _ _ _ _

theorem State.mmaGo_forms {mode : Nat} {xa : Word} {a b : HReg} {ab bb : Option Cb} {na nb : Nat} (h : s.Forms) : (s.mmaGo mode xa a b ab bb na nb).Forms :=
  Eff.ite_forms h (Eff.ite_forms h (State.mmaA_forms h (fun _ _ _ _ => State.mmaB_forms h (fun _ _ _ => State.mmaIssue_forms h))))

theorem mmaStep_forms {mode : Nat} {a : Reg} {b : HReg} {asrc : Bool} {fmt : BitVec 4} (h : s.Forms) : (mmaStep mode a b asrc fmt s).Forms := by
  unfold mmaStep
  extract_lets xa ah f na nb latch
  refine Eff.ite_forms h ?_
  refine Eff.ite_forms h ?_
  refine Eff.ite_forms h ?_
  split
  · next e1 =>
      refine errForms_error e1 ?_
      split
      · exact errForms_map (State.bufFor_forms h)
      · exact trivial
  · split
    · next e2 =>
        refine errForms_error e2 ?_
        split
        · exact trivial
        · exact errForms_map (State.bufFor_forms h)
    · split
      · exact Eff.ite_forms h (State.mmaGo_forms h)
      · exact State.mmaGo_forms h

theorem execMma_forms {a : Reg} {b : HReg} {asrc : Bool} {fmt : BitVec 4} (h : s.Forms) : outForms (execMma a b asrc fmt s) :=
  guarded_forms h (mmaStep_forms h)

theorem execMmaRing_forms {a : Reg} {b : HReg} {asrc : Bool} {fmt : BitVec 4} (h : s.Forms) : outForms (execMmaRing a b asrc fmt s) :=
  guarded_forms h (mmaStep_forms h)

theorem execMmaLx_forms {a : Reg} {b : HReg} {asrc : Bool} {fmt : BitVec 4} (h : s.Forms) : outForms (execMmaLx a b asrc fmt s) :=
  guarded_forms h (mmaStep_forms h)

theorem execMmaLa_forms {a : Reg} {b : HReg} {asrc : Bool} {fmt : BitVec 4} (h : s.Forms) : outForms (execMmaLa a b asrc fmt s) :=
  guarded_forms h (mmaStep_forms h)

theorem State.latentArea_forms {off n : Nat} {k : List Byte → Eff} (h : s.Forms) (hk : ∀ (a : List Byte), (k a).Forms) : (s.latentArea off n k).Forms := by
  unfold State.latentArea
  refine Eff.ite_forms h ?_
  split
  · exact h
  · exact hk _

theorem execLtLoad_forms {a b : Reg} (h : s.Forms) : outForms (execLtLoad a b s) :=
  guarded_forms h (Eff.ite_forms h (Eff.ite_forms h (Eff.ite_forms h (State.latentArea_forms h (fun _ => State.modMyGrove_forms h (fun _ hg => hg.upd))))))

theorem execLtRot_forms {a : Reg} (h : s.Forms) : outForms (execLtRot a s) :=
  guarded_forms h (Eff.ite_forms h (Eff.ite_forms h (State.latentArea_forms h (fun _ => State.modMyGrove_forms h (fun _ hg => hg.upd)))))

theorem drainGo_forms {e x : Word} {fmt : Nat} {scr zero : Bool} {cols : Cols} (h : s.Forms) : (drainGo e x fmt scr zero cols s).Forms := by
  unfold drainGo
  extract_lets core c
  split
  · split
    · next e2 =>
        extract_lets s2
        have hs2 : s2.Forms := by
          unfold s2
          refine State.setFp_forms ?_
          refine forms_fst e2 ?_
          refine foldl_forms_fst h (fun p1 a hx => ?_)
          split
          · exact State.localWrite_forms hx
        exact State.ite_forms (State.modMyCore_forms hs2 (fun _ hc1 => Core.zeroAcc_forms hc1)) hs2

theorem drainStep_forms {x e : Word} {fmt : BitVec 4} {space : Space} {zero : Bool} {cols : Cols} (h : s.Forms) :
    (drainStep x e fmt space zero cols s).Forms := by
  unfold drainStep
  extract_lets f k scr sz
  split
  · exact Eff.ite_forms h (Eff.ite_forms h (Eff.ite_forms h (Eff.ite_forms h (Eff.ite_forms h (drainGo_forms h)))))

theorem execMxDrain_forms {a b : Reg} {imm : Word} {fmt : BitVec 4} {space : Space} {zero : Bool} {cols : Cols} (h : s.Forms) :
    outForms (execMxDrain a b imm fmt space zero cols s) :=
  guarded_forms h (drainStep_forms h)

theorem execMmaComplete_forms {core : Nat} (h : s.Forms) : outForms (execMmaComplete core s) := State.ite_forms (State.mmaPiece_forms h) h

theorem execRingPass_forms {core : Nat} (h : s.Forms) : outForms (execRingPass core s) := by
  unfold execRingPass
  split
  · exact h
  · extract_lets gone
    have hgone : gone.Forms := State.modCore_forms h (fun _ hc => hc.upd)
    split
    · exact hgone
    · exact State.ite_forms h (State.modCore_forms hgone (fun _ hc => hc.upd))

theorem execSubarrayWake_forms {grove : Nat} (h : s.Forms) : outForms (execSubarrayWake grove s) := State.modGrove_forms h (fun _ hg => hg.upd)

theorem execSubarrayPowerGate_forms {grove : Nat} (h : s.Forms) : outForms (execSubarrayPowerGate grove s) :=
  State.ite_forms h (State.modGrove_forms h (fun _ hg => hg.upd))

/-! ### Memory -/

theorem relFirst_forms {rel : Bool} {k : State → Eff} (h : s.Forms) (hk : ∀ (a : State), a.Forms → (k a).Forms) : (relFirst s rel k).Forms :=
  Eff.ite_forms (State.release_forms h (fun _ ha => hk _ ha)) (hk _ h)

theorem execLd_forms {a b : Reg} {size : BitVec 2} {m : MemMod} {imm : Word} (h : s.Forms) : outForms (execLd a b size m imm s) :=
  guarded_forms h (Got.andThen_forms (State.load_forms h) (fun _ _ ht => State.setX_forms (State.acqIf_forms ht)))

theorem execSt_forms {a b : Reg} {size : BitVec 2} {m : MemMod} {imm : Word} (h : s.Forms) : outForms (execSt a b size m imm s) :=
  guarded_forms h (relFirst_forms h (fun _ ha1 => Got.andThen_forms (State.store_forms ha1) (fun _ _ ht => ht)))

theorem amo_forms {a b c : Reg} {m : AtomMod} {f : Nat} {signed : Bool} (h : s.Forms) : outForms (amo a b c m f signed s) :=
  guarded_forms h (Eff.ite_forms h (relFirst_forms h (fun _ ha1 => Got.andThen_forms (State.rmw_forms ha1) (fun _ _ ht => State.setX_forms (State.acqIf_forms
    ht)))))

theorem execAmoAdd_forms {a b c : Reg} {m : AtomMod} (h : s.Forms) : outForms (execAmoAdd a b c m s) := amo_forms h

theorem execAmoSwap_forms {a b c : Reg} {m : AtomMod} (h : s.Forms) : outForms (execAmoSwap a b c m s) := amo_forms h

theorem execAmoAnd_forms {a b c : Reg} {m : AtomMod} (h : s.Forms) : outForms (execAmoAnd a b c m s) := amo_forms h

theorem execAmoOr_forms {a b c : Reg} {m : AtomMod} (h : s.Forms) : outForms (execAmoOr a b c m s) := amo_forms h

theorem execAmoXor_forms {a b c : Reg} {m : AtomMod} (h : s.Forms) : outForms (execAmoXor a b c m s) := amo_forms h

theorem execAmoMin_forms {a b c : Reg} {m : AtomMod} (h : s.Forms) : outForms (execAmoMin a b c m s) := amo_forms h

theorem execAmoMax_forms {a b c : Reg} {m : AtomMod} (h : s.Forms) : outForms (execAmoMax a b c m s) := amo_forms h

theorem execAmoCas_forms {a b c : Reg} {m : AtomMod} (h : s.Forms) : outForms (execAmoCas a b c m s) := amo_forms h

theorem execAmoMinN_forms {a b c : Reg} {m : AtomMod} (h : s.Forms) : outForms (execAmoMinN a b c m s) := amo_forms h

theorem execAmoMaxN_forms {a b c : Reg} {m : AtomMod} (h : s.Forms) : outForms (execAmoMaxN a b c m s) := amo_forms h

theorem execRedAdd_forms {a b : Reg} {wide : Bool} {space : Space} (h : s.Forms) : outForms (execRedAdd a b wide space s) :=
  guarded_forms h (State.reduce_forms h)

theorem execRedAddF32_forms {a b : Reg} {space : Space} (h : s.Forms) : outForms (execRedAddF32 a b space s) := guarded_forms h (State.reduce_forms h)

theorem execRedMin_forms {a b : Reg} {wide : Bool} {space : Space} (h : s.Forms) : outForms (execRedMin a b wide space s) :=
  guarded_forms h (State.reduce_forms h)

theorem execRedMax_forms {a b : Reg} {wide : Bool} {space : Space} (h : s.Forms) : outForms (execRedMax a b wide space s) :=
  guarded_forms h (State.reduce_forms h)

theorem execRedMinN_forms {a b : Reg} {wide : Bool} {space : Space} (h : s.Forms) : outForms (execRedMinN a b wide space s) :=
  guarded_forms h (State.reduce_forms h)

theorem execRedMaxN_forms {a b : Reg} {wide : Bool} {space : Space} (h : s.Forms) : outForms (execRedMaxN a b wide space s) :=
  guarded_forms h (State.reduce_forms h)

theorem execRedMinF32_forms {a b : Reg} {space : Space} (h : s.Forms) : outForms (execRedMinF32 a b space s) := guarded_forms h (State.reduce_forms h)

theorem execRedMaxF32_forms {a b : Reg} {space : Space} (h : s.Forms) : outForms (execRedMaxF32 a b space s) := guarded_forms h (State.reduce_forms h)

theorem execFence_forms {scope : BitVec 3} (h : s.Forms) : outForms (execFence scope s) :=
  guarded_forms h (Eff.ite_forms h (State.release_forms h (fun _ ha => ha)))

theorem execFenceX_forms {p q : BitVec 4} {scope : BitVec 3} (h : s.Forms) : outForms (execFenceX p q scope s) := by
  unfold execFenceX
  extract_lets bell rest copy
  have hrest : rest.Forms := Eff.ite_forms (State.release_forms h (fun _ ha => ha)) (Eff.ite_forms h h)
  have hcopy : copy.Forms := Eff.ite_forms (State.engTrap_forms h hrest) hrest
  exact guarded_forms h (Eff.ite_forms h (Eff.ite_forms (State.engTrap_forms h hcopy) hcopy))

theorem State.writeBackSec_forms {sec : Nat} (h : s.Forms) : (s.writeBackSec sec).Forms := State.orsOut_forms (State.writeBack1_forms h)

theorem State.discardSec_forms {sec : Nat} (h : s.Forms) : (s.discardSec sec).Forms := by
  unfold State.discardSec
  extract_lets s0 s1
  have hs0 : s0.Forms := State.snoop_forms (State.dropUpd_forms h)
  have hs1 : s1.Forms := hs0.upd
  split
  · exact State.Forms.upd (State.undo_forms hs1)
  · exact hs1

theorem State.dcReady_forms {flush : Bool} {p : Nat} (h : s.Forms) : (s.dcReady flush p).Forms := by
  unfold State.dcReady
  extract_lets s1
  have hs1 : s1.Forms := State.drainSecs_forms h
  exact State.ite_forms (State.recall_forms hs1) hs1

theorem State.dcSector_forms {flush : Bool} {p : Nat} (h : s.Forms) : (s.dcSector flush p).Forms :=
  State.ite_forms (State.writeBackSec_forms h) (State.discardSec_forms h)

theorem dcStep_forms {a b : Reg} {flush : Bool} (h : s.Forms) : (dcStep a b flush s).Forms := by
  unfold dcStep
  extract_lets start len left k
  refine Eff.ite_forms h ?_
  refine Eff.ite_forms h ?_
  refine Eff.ite_forms h ?_
  refine Got.andThen_forms (State.xlate_forms h) (fun a1 t ht => ?_)
  refine Eff.ite_forms ht ?_
  refine Eff.ite_forms (State.dcReady_forms ht) ?_
  extract_lets s2 s3 s4
  have hs2 : s2.Forms := State.dcSector_forms (State.dcReady_forms ht)
  have hs3 : s3.Forms := State.setX_forms hs2
  have hs4 : s4.Forms := State.setX_forms hs3
  exact Eff.ite_forms hs4 hs4

theorem execDcFlush_forms {a b : Reg} (h : s.Forms) : outForms (execDcFlush a b s) := guarded_forms h (dcStep_forms h)

theorem execDcDiscard_forms {a b : Reg} (h : s.Forms) : outForms (execDcDiscard a b s) := guarded_forms h (dcStep_forms h)

theorem execIcsync_forms (h : s.Forms) : outForms (execIcsync s) := guarded_forms h (State.modMyCore_forms h (fun _ hc => hc.upd))

/-! ### MemEvents -/

theorem execStoreComplete_forms {slot idx : Nat} (h : s.Forms) : outForms (execStoreComplete slot idx s) := by
  unfold execStoreComplete
  extract_lets sl
  have hsl : sl.Forms := State.slot_forms h _
  split
  · split
    · exact State.ite_forms h (State.strongPut_forms (State.setSlot_forms h hsl.upd))
    · exact h
  · exact h

theorem execLlcFill_forms {pa : Nat} (h : s.Forms) : outForms (execLlcFill pa s) := State.ite_forms h (State.recall_forms h)

theorem execLlcWriteback_forms {pa : Nat} (h : s.Forms) : outForms (execLlcWriteback pa s) := State.ite_forms h (State.writeBackSec_forms h)

theorem execUpdateOnlyRecall_forms {pa first : Nat} (h : s.Forms) : outForms (execUpdateOnlyRecall pa first s) := by
  unfold execUpdateOnlyRecall
  extract_lets sec s1
  have hs1 : s1.Forms := State.ite_forms (State.combineCopy_forms h) h
  exact State.ite_forms h (State.recall_forms hs1)

theorem execUpdateOnlyEvict_forms {core pa : Nat} (h : s.Forms) : outForms (execUpdateOnlyEvict core pa s) :=
  State.ite_forms h (State.combineCopy_forms h)

theorem execTlbMissWalk_forms {core ctx : Nat} {va : Addr} {fetch : Bool} (h : s.Forms) : outForms (execTlbMissWalk core ctx va fetch s) :=
  State.lookup_forms h

theorem execSoftErrorCorrected_forms {grove : Nat} (h : s.Forms) : outForms (execSoftErrorCorrected grove s) := by
  unfold execSoftErrorCorrected
  split
  · next e =>
        exact State.ite_forms (State.cacheDrop_forms (forms_snd e (State.freeChoice_forms (State.modGrove_forms h (fun _ hg => hg.upd))))) (forms_snd e
          (State.freeChoice_forms (State.modGrove_forms h (fun _ hg => hg.upd))))

/-! ### Queues -/

theorem State.taken_forms {g : Nat} (h : s.Forms) : (s.taken g).Forms := State.modGrove_forms h (fun _ hg1 => hg1.upd)

theorem State.nacked_forms {g : Nat} (h : s.Forms) : (s.nacked g).Forms := State.modGrove_forms h (fun _ hg1 => hg1.upd)

theorem State.packetArrive_forms {g slot : Nat} {bs : List Byte} (h : s.Forms) : (s.packetArrive g slot bs).Forms := by
  unfold State.packetArrive
  refine State.ite_forms (State.ite_forms h (State.taken_forms h)) ?_
  extract_lets full
  split
  · exact State.modSlot_forms (State.tcmWrite_forms (State.taken_forms h)) (fun _ hq => hq.upd)
  · exact State.nacked_forms h

theorem State.recordArrive_forms {g key stand : Nat} (h : s.Forms) : (s.recordArrive g key stand).Forms := by
  unfold State.recordArrive
  split
  · exact State.modGrove_forms h (fun _ hg1 => Grove.unsend_forms hg1)
  · exact State.ite_forms (State.modStand_forms (State.nacked_forms h)) (State.queueAdd_forms (State.taken_forms h))

theorem State.arrive_forms {g : Nat} (h : s.Forms) : (s.arrive g).Forms := by
  unfold State.arrive
  split
  · exact State.recordArrive_forms h
  · exact State.packetArrive_forms h
  · exact h

theorem execEnqueueArrive_forms {grove : Nat} (h : s.Forms) : outForms (execEnqueueArrive grove s) := by
  unfold execEnqueueArrive
  split
  · exact State.ite_forms (State.recordArrive_forms h) h
  · exact h
  · exact h

theorem execMsgDeliver_forms {grove : Nat} (h : s.Forms) : outForms (execMsgDeliver grove s) := by
  unfold execMsgDeliver
  split
  · exact State.ite_forms (State.packetArrive_forms h) h
  · exact h
  · exact h

theorem execReplayBackoffExpiry_forms {grove : Nat} (h : s.Forms) : outForms (execReplayBackoffExpiry grove s) := State.ite_forms (State.arrive_forms h) h

theorem State.unstall_forms {g : Nat} (h : s.Forms) : (s.unstall g).Forms := State.mapSlots_forms h (fun _ hx => Slot.ite_forms hx.upd hx)

theorem execEnqueueAck_forms {grove : Nat} (h : s.Forms) : outForms (execEnqueueAck grove s) :=
  State.unstall_forms (State.modGrove_forms h (fun _ hg => hg.upd))

theorem State.unlist_forms {stand key : Nat} (h : s.Forms) : (s.unlist stand key).Forms := State.modStand_forms h

theorem State.landed_forms {slot : Nat} (h : s.Forms) : optForms State.Forms (s.landed slot) := by
  unfold State.landed
  split
  · exact h
  · split
    · next e => exact State.Forms.upd (State.takeTrap_forms (Got.ok_forms e (State.belowIsLead_forms h.upd)))
    · next e => exact State.Forms.upd (State.modSlot_forms (Got.ok_forms e (State.belowIsLead_forms h.upd)) (fun _ hq => hq.upd))
    · exact trivial

theorem execTaskDispatch_forms {slot : Nat} (h : s.Forms) : outForms (execTaskDispatch slot s) := by
  unfold execTaskDispatch
  split
  · refine ite_outForms h ?_
    split
    · refine ite_outForms h ?_
      extract_lets s1
      have hs1 : s1.Forms := State.modStand_forms h
      exact ite_outForms (optForms_getD (State.landed_forms (State.dispatch_forms (State.unlist_forms hs1))) h) trivial
    · exact State.ite_forms (State.modSlot_forms h (fun _ hq => hq.upd)) h
  · exact h

theorem execTakeServe_forms {slot stand : Nat} (h : s.Forms) : outForms (execTakeServe slot stand s) := by
  unfold execTakeServe
  extract_lets mine
  split
  · exact State.ite_forms (State.modSlot_forms h (fun _ hq => hq.upd)) h
  · exact h

theorem execTakeReply_forms {slot : Nat} (h : s.Forms) : outForms (execTakeReply slot s) := by
  unfold execTakeReply
  split
  · refine State.ite_forms h ?_
    extract_lets s1
    have hs1 : s1.Forms := State.modSlot_forms h (fun _ hq => hq.upd)
    split
    · exact State.ite_forms h (State.ite_forms (optForms_getD (State.landed_forms (State.dispatch_forms (State.modStand_forms (State.unlist_forms hs1)))) h)
        hs1)
    · exact hs1
  · exact h

theorem execTakeReprobe_forms {slot : Nat} (h : s.Forms) : outForms (execTakeReprobe slot s) := by
  unfold execTakeReprobe
  split
  · exact State.ite_forms (State.modSlot_forms h (fun _ hq => hq.upd)) h
  · exact h

/-! ### Special -/

theorem execRdsr_forms {d : Reg} {num : BitVec 34} (h : s.Forms) : outForms (execRdsr d num s) := by
  unfold execRdsr
  refine guarded_forms h ?_
  split
  · exact State.setX_forms h
  · exact h

theorem wrFpCtl_forms {v : Word} (h : s.Forms) : (wrFpCtl v s).Forms := State.modMe_forms h (fun _ hq => hq.upd)

theorem wrRng_forms {v : Word} (h : s.Forms) : (wrRng v s).Forms := State.modMe_forms h (fun _ hq => hq.upd)

theorem wrPrStk_forms {v : Word} {s : State} (h : s.Forms) : (wrPrStk v s).Forms := by
  unfold wrPrStk
  extract_lets d
  refine Eff.Forms.next ?_
  split
  · exact h
  · next hd =>
      refine State.modMe_forms h fun q hq => (Slot.forms_iff _).mpr ⟨((Slot.forms_iff q).mp hq).1, ?_⟩
      exact (BitVec.toNat_ofNat _ _).trans_le ((Nat.mod_le _ _).trans (Nat.le_of_not_lt hd))

theorem wrWtCtl_forms {v : Word} (h : s.Forms) : (wrWtCtl v s).Forms := State.modMe_forms h (fun _ hq => hq.upd)

theorem wrMemDbg_forms {v : Word} (h : s.Forms) : (wrMemDbg v s).Forms := State.modMe_forms h (fun _ hq => hq.upd)

theorem wrFutCtl_forms {v : Word} (h : s.Forms) : (wrFutCtl v s).Forms := State.modMe_forms h (fun _ hq => hq.upd)

theorem wrSkewCfg_forms {v : Word} (h : s.Forms) : (wrSkewCfg v s).Forms := State.modMyCore_forms h (fun _ hc => hc.upd)

theorem wrLtOff_forms {v : Word} (h : s.Forms) : (wrLtOff v s).Forms := State.modMyCore_forms h (fun _ hc => hc.upd)

theorem wrOvfPtr_forms {v : Word} (h : s.Forms) : (wrOvfPtr v s).Forms := State.modMyCore_forms h (fun _ hc => hc.upd)

theorem wrAccSv_forms {v : Word} (h : s.Forms) : (wrAccSv v s).Forms := State.modMyCore_forms h (fun _ hc => hc.upd)

theorem wrGbStat_forms {v : Word} (h : s.Forms) : (wrGbStat v s).Forms := State.ite_forms (State.modGroup_forms h) h

theorem wrErrStat_forms {v : Word} (h : s.Forms) : (wrErrStat v s).Forms := State.modMyGrove_forms h (fun _ hg => hg.upd)

theorem wrWdCtl_forms {v : Word} (h : s.Forms) : (wrWdCtl v s).Forms := State.modMyGrove_forms h (fun _ hg => hg.upd)

theorem wrTraceCtl_forms {v : Word} (h : s.Forms) : (wrTraceCtl v s).Forms := State.modMyGrove_forms h (fun _ hg => hg.upd)

theorem wrCtxBase_forms {v : Word} (h : s.Forms) : (wrCtxBase v s).Forms := h.upd

theorem wrModPos_forms {v : Word} (h : s.Forms) : (wrModPos v s).Forms := h.upd

theorem wrRqBackoff_forms {v : Word} (h : s.Forms) : (wrRqBackoff v s).Forms := h.upd

theorem wrHlPool_forms {v : Word} (h : s.Forms) : (wrHlPool v s).Forms := h.upd

theorem wrRtCfg_forms {v : Word} (h : s.Forms) : (wrRtCfg v s).Forms := State.ite_forms h h.upd

theorem wrPgDirty_forms {v : Word} (h : s.Forms) : (wrPgDirty v s).Forms := h.upd

theorem wrGqBase_forms {v : Word} (h : s.Forms) : (wrGqBase v s).Forms := h.upd

theorem wrGsCtl_forms {v : Word} (h : s.Forms) : (wrGsCtl v s).Forms := State.ite_forms h h.upd

theorem wrTrRing_forms {v : Word} (h : s.Forms) : (wrTrRing v s).Forms := h.upd

theorem wrTrPtr_forms {v : Word} (h : s.Forms) : (wrTrPtr v s).Forms := h.upd

theorem wrFwWall_forms {v : Word} (h : s.Forms) : (wrFwWall v s).Forms := State.ite_forms (State.modMyGrove_forms h (fun _ hg => Grove.ite_forms hg hg.upd)) h

theorem wrPwLim_forms {v : Word} (h : s.Forms) : (wrPwLim v s).Forms := Eff.ite_forms h.upd (Eff.ite_forms h h.upd)

theorem wrRecipe_forms {n : Nat} {v : Word} (h : s.Forms) : (wrRecipe n v s).Forms := State.ite_forms h.upd h

theorem wrHwWin_forms {n : Nat} {limit : Bool} {v : Word} (h : s.Forms) : (wrHwWin n limit v s).Forms := State.ite_forms h.upd h.upd

theorem wrCtxCmd_forms {v : Word} (h : s.Forms) : (wrCtxCmd v s).Forms := by
  unfold wrCtxCmd
  refine Eff.ite_forms h ?_
  refine State.release_forms h (fun a ha => ?_)
  extract_lets w __src
  have h__src : __src.Forms := State.modMyCore_forms ha (fun _ hc => hc.upd)
  exact h__src.upd

theorem wrGrpLaunch_forms {v : Word} (h : s.Forms) : (wrGrpLaunch v s).Forms := by
  unfold wrGrpLaunch
  refine Eff.ite_forms h ?_
  refine State.release_forms h (fun a ha => ?_)
  extract_lets w __src
  have h__src : __src.Forms := State.modMyCore_forms ha (fun _ hc => hc.upd)
  exact h__src.upd

theorem wrSlCmd_forms {v : Word} (h : s.Forms) : (wrSlCmd v s).Forms := by
  unfold wrSlCmd
  refine Eff.ite_forms h ?_
  refine State.release_forms h (fun a ha => ?_)
  extract_lets w __src
  have h__src : __src.Forms := State.modMyCore_forms ha (fun _ hc => hc.upd)
  exact h__src.upd

theorem wrLkCtl_forms {v : Word} (h : s.Forms) : (wrLkCtl v s).Forms := by
  unfold wrLkCtl
  refine State.release_forms h (fun a ha => ?_)
  extract_lets link op w s2
  have hs2 : s2.Forms := ha.upd
  exact State.ite_forms hs2 hs2.upd

theorem wrGqCtl_forms {v : Word} (h : s.Forms) : (wrGqCtl v s).Forms := Eff.ite_forms h (State.release_forms h (fun _ ha => ha.upd))

theorem wrChecked_forms {n : Nat} {write : Word → State → Eff} {v : Word} (hwrite : ∀ (a : Word) (b : State), b.Forms → (write a b).Forms) (h : s.Forms) :
    (wrChecked n write v s).Forms :=
  Eff.ite_forms h (Eff.ite_forms h (Eff.ite_forms h (hwrite _ _ h)))

theorem srWrite_forms {n : Nat} {a : Word} (h : s.Forms) : (srWrite n a s).Forms := by
  unfold srWrite
  split
  · exact wrFpCtl_forms h
  · exact wrRng_forms h
  · exact wrPrStk_forms h
  · exact wrWtCtl_forms h
  · exact wrMemDbg_forms h
  · exact wrFutCtl_forms h
  · exact wrSkewCfg_forms h
  · exact wrLtOff_forms h
  · exact wrOvfPtr_forms h
  · exact wrAccSv_forms h
  · exact wrGbStat_forms h
  · exact wrErrStat_forms h
  · exact wrWdCtl_forms h
  · exact wrTraceCtl_forms h
  · exact wrCtxBase_forms h
  · exact wrCtxCmd_forms h
  · exact wrGrpLaunch_forms h
  · exact wrSlCmd_forms h
  · exact wrModPos_forms h
  · exact wrRqBackoff_forms h
  · exact wrHlPool_forms h
  · exact wrRtCfg_forms h
  · exact wrPgDirty_forms h
  · exact wrGqBase_forms h
  · exact wrGsCtl_forms h
  · exact wrTrRing_forms h
  · exact wrTrPtr_forms h
  · exact wrLkCtl_forms h
  · exact wrFwWall_forms h
  · exact wrPwLim_forms h
  · exact wrGqCtl_forms h
  · split
    · exact wrRecipe_forms h
    · split
      · exact wrHwWin_forms h
      · exact h

theorem execWrsr_forms {r : Reg} {num : BitVec 34} (h : s.Forms) : outForms (execWrsr r num s) := by
  unfold execWrsr
  refine guarded_forms h ?_
  split
  · exact wrChecked_forms (fun _ _ hb => srWrite_forms hb) h
  · exact h

theorem execRngStateWrite_forms {v : Word} (h : s.Forms) : outForms (execRngStateWrite v s) :=
  guarded_forms h (wrChecked_forms (fun _ _ hb => wrRng_forms hb) h)

theorem execFpCtlWrite_forms {v : Word} (h : s.Forms) : outForms (execFpCtlWrite v s) :=
  guarded_forms h (wrChecked_forms (fun _ _ hb => wrFpCtl_forms hb) h)

theorem execPrStkWrite_forms {v : Word} (h : s.Forms) : outForms (execPrStkWrite v s) :=
  guarded_forms h (wrChecked_forms (fun _ _ hb => wrPrStk_forms hb) h)

theorem execSkewCfgWrite_forms {v : Word} (h : s.Forms) : outForms (execSkewCfgWrite v s) :=
  guarded_forms h (wrChecked_forms (fun _ _ hb => wrSkewCfg_forms hb) h)

theorem execRqRecipeWrite_forms {n : BitVec 4} {v : Word} (h : s.Forms) : outForms (execRqRecipeWrite n v s) :=
  guarded_forms h (wrChecked_forms (fun _ _ hb => wrRecipe_forms hb) h)

theorem execRqBackoffWrite_forms {v : Word} (h : s.Forms) : outForms (execRqBackoffWrite v s) :=
  guarded_forms h (wrChecked_forms (fun _ _ hb => wrRqBackoff_forms hb) h)

theorem execMemDbgWrite_forms {v : Word} (h : s.Forms) : outForms (execMemDbgWrite v s) :=
  guarded_forms h (wrChecked_forms (fun _ _ hb => wrMemDbg_forms hb) h)

theorem execFutCtlClear_forms {v : Word} (h : s.Forms) : outForms (execFutCtlClear v s) :=
  guarded_forms h (wrChecked_forms (fun _ _ hb => wrFutCtl_forms hb) h)

theorem execErrStatClear_forms {v : Word} (h : s.Forms) : outForms (execErrStatClear v s) :=
  guarded_forms h (wrChecked_forms (fun _ _ hb => wrErrStat_forms hb) h)

theorem execGbStatClear_forms {v : Word} (h : s.Forms) : outForms (execGbStatClear v s) :=
  guarded_forms h (wrChecked_forms (fun _ _ hb => wrGbStat_forms hb) h)

theorem execWdCtlWrite_forms {v : Word} (h : s.Forms) : outForms (execWdCtlWrite v s) :=
  guarded_forms h (wrChecked_forms (fun _ _ hb => wrWdCtl_forms hb) h)

theorem execGsCtlWrite_forms {v : Word} (h : s.Forms) : outForms (execGsCtlWrite v s) :=
  guarded_forms h (wrChecked_forms (fun _ _ hb => wrGsCtl_forms hb) h)

theorem execPwLimWrite_forms {v : Word} (h : s.Forms) : outForms (execPwLimWrite v s) :=
  guarded_forms h (wrChecked_forms (fun _ _ hb => wrPwLim_forms hb) h)

theorem execRtCfgWrite_forms {v : Word} (h : s.Forms) : outForms (execRtCfgWrite v s) :=
  guarded_forms h (wrChecked_forms (fun _ _ hb => wrRtCfg_forms hb) h)

theorem execFwWallWrite_forms {v : Word} (h : s.Forms) : outForms (execFwWallWrite v s) :=
  guarded_forms h (wrChecked_forms (fun _ _ hb => wrFwWall_forms hb) h)

theorem execTrRingWrite_forms {v : Word} (h : s.Forms) : outForms (execTrRingWrite v s) :=
  guarded_forms h (wrChecked_forms (fun _ _ hb => wrTrRing_forms hb) h)

theorem execHwWinWrite_forms {n : BitVec 3} {limit : Bool} {v : Word} (h : s.Forms) : outForms (execHwWinWrite n limit v s) :=
  guarded_forms h (wrChecked_forms (fun _ _ hb => wrHwWin_forms hb) h)

/-! ### Startup -/

theorem State.bootFail_forms {n : Nat} (h : s.Forms) : (s.bootFail n).Forms := h.upd

theorem State.bootRegisters_forms (h : s.Forms) : s.bootRegisters.Forms := by
  unfold State.bootRegisters
  extract_lets w f lim wall s1
  have hs1 : s1.Forms := h.upd
  exact foldl_forms hs1 (fun _ _ ht => State.modGrove_forms ht (fun _ hg => hg.upd))

theorem State.bootMeasure_forms (h : s.Forms) : s.bootMeasure.Forms := h.upd

theorem State.pagerCarve_forms (h : s.Forms) : s.pagerCarve.Forms := by
  unfold State.pagerCarve
  split
  · exact State.modCore_forms h (fun _ hc => hc.upd)
  · exact h

theorem State.bootRelease_forms (h : s.Forms) : s.bootRelease.Forms := by
  unfold State.bootRelease
  extract_lets groves s1 __src
  have hs1 : s1.Forms := foldl_forms h (fun _ _ ht => State.modSlot_forms ht (fun _ hq => hq.upd))
  have h__src : __src.Forms := State.pagerCarve_forms hs1
  exact h__src.upd

theorem State.bootRun_forms {s : State} (h : s.Forms) : s.bootRun.Forms := by
  unfold State.bootRun
  split
  · exact State.bootFail_forms h
  · extract_lets image s1
    have hs1 : s1.Forms := State.mem_forms h
    split
    · exact State.bootFail_forms hs1
    · exact State.bootRelease_forms (State.bootMeasure_forms (State.bootRegisters_forms hs1))

/-- Host memory beneath the home slices is in canonical form. -/
theorem State.hostBeneath_wf {s : State} (h : Mem.wf s.hostMem = true) : Mem.wf s.hostBeneath = true := by
  unfold State.hostBeneath
  generalize s.dirty.filter (fun q => !isDevice (q.1 * 128)) = l
  generalize s.hostMem = m at h
  induction l generalizing m with
  | nil => exact h
  | cons q l ih => exact ih _ (memWrite_wf h _ _)

theorem State.coldStart_forms {s : State} (h : s.Forms) : s.coldStart.Forms := by
  have hcold : State.Forms { State.reset with flash := s.flash, hostMem := s.hostBeneath, agenda := s.agenda, fresh := s.fresh } := by
    have hr := State.reset_forms
    rw [State.forms_iff] at h hr ⊢
    obtain ⟨-, h2, h3, -⟩ := h
    obtain ⟨h1, -, -, hrest⟩ := hr
    exact ⟨h1, State.hostBeneath_wf h2, h3, hrest⟩
  unfold State.coldStart
  split
  · exact h
  · exact hcold
  · exact hcold

theorem execColdReset_forms (h : s.Forms) : outForms (execColdReset s) := State.bootRun_forms (State.coldStart_forms h)

theorem execSpareColumnRemap_forms {row col : Nat} (h : s.Forms) : outForms (execSpareColumnRemap row col s) := State.ite_forms h.upd h

theorem State.sample_forms {watts : Nat} (h : s.Forms) : (s.sample watts).Forms := h.upd

theorem execPowerSample_forms {watts : Nat} (h : s.Forms) : outForms (execPowerSample watts s) := State.ite_forms (State.sample_forms h) h

theorem State.clamp_forms (h : s.Forms) : s.clamp.Forms :=
  State.ite_forms h (State.ite_forms (State.ite_forms h h.upd) (State.ite_forms (State.ite_forms h h.upd) h))

theorem execClampStep_forms (h : s.Forms) : outForms (execClampStep s) := State.clamp_forms h

/-! ### Tasks -/

theorem State.recView_forms {va n : Nat} {addr : Word} (h : s.Forms) : (s.recView va n addr).Forms := by
  unfold State.recView
  refine Got.bind_forms (State.xlate_forms h) (fun a t ht => ?_)
  refine Got.ite_forms ht ?_
  extract_lets s2 under
  have hs2 : s2.Forms := State.sigRead_forms (State.recallRange_forms ht)
  exact Got.ite_forms hs2 (Got.ite_forms hs2 (Got.bind_forms (State.viewReady_forms hs2) (fun _ _ ht1 => ht1)))

theorem State.takeRecord_forms {x : Word} (h : s.Forms) : (s.takeRecord x).Forms := by
  unfold State.takeRecord
  split
  · exact h
  · exact h
  · exact h
  · exact Got.ite_forms h (Got.bind_forms (State.recView_forms h) (fun _ _ ht => Got.ite_forms ht (Got.ite_forms ht (Got.bind_forms (State.recView_forms ht)
      (fun _ _ ht1 => Got.ite_forms ht1 (Got.ite_forms (State.raiseIf_forms ht1) ht1))))))

theorem spawnNow_forms {va pa w0 : Nat} (h : s.Forms) : (spawnNow va pa w0 s).Forms :=
  State.release_forms h (fun _ ha => Eff.ite_forms ha (State.takeIn_forms (State.newTask_forms ha)))

theorem execTkSpawn_forms {a : Reg} (h : s.Forms) : outForms (execTkSpawn a s) :=
  guarded_forms h (Got.andThen_forms (State.takeRecord_forms h) (fun _ _ ht => Eff.ite_forms (Got.andThen_forms (State.collect_forms ht) (fun _ _ ht1 =>
    ht1)) (spawnNow_forms ht)))

theorem depNow_forms {va pa cp : Nat} {inter : Bool} (h : s.Forms) : (depNow va pa cp inter s).Forms := by
  unfold depNow
  refine Eff.ite_forms h ?_
  extract_lets s1 s2 zero key s3 s4
  have hs1 : s1.Forms := State.drainSecs_forms h
  have hs2 : s2.Forms := State.recallRange_forms hs1
  have hs3 : s3.Forms := State.newTask_forms hs2
  have hs4 : s4.Forms := State.perform_forms hs3
  exact Eff.ite_forms hs2 (State.ite_forms (State.takeIn_forms hs4) hs4)

theorem execTkDep_forms {a b : Reg} (h : s.Forms) : outForms (execTkDep a b s) := by
  unfold execTkDep
  extract_lets x c
  refine guarded_forms h ?_
  split
  · exact h
  · exact h
  · exact h
  · exact Got.andThen_forms (State.takeRecord_forms h) (fun _ _ ht => Got.andThen_forms (State.xlate_forms ht) (fun _ _ ht1 => Eff.ite_forms
      (Got.andThen_forms (State.collect_forms ht1) (fun _ _ ht2 => ht2)) (Eff.ite_forms ht1 (depNow_forms ht1))))

theorem yieldNow_forms (h : s.Forms) : (yieldNow s).Forms := by
  unfold yieldNow
  split
  · exact h
  · refine Eff.ite_forms h ?_
    split
    · exact h
    · exact Eff.ite_forms (State.enqueue_forms (State.suspend_forms h)) h

theorem execTkYield_forms (h : s.Forms) : outForms (execTkYield s) := guarded_forms h (yieldNow_forms h)

theorem State.endSlot_forms {slot : Nat} (h : s.Forms) : (s.endSlot slot).Forms :=
  State.freeSlot_forms (foldl_forms (State.freeHampers_forms h) (fun _ _ ht => State.closeHandle_forms ht))

theorem endCollected_forms {key : Nat} (h : s.Forms) : (endCollected key s).Forms := by
  unfold endCollected
  extract_lets sl s1 s2
  have hs1 : s1.Forms := State.modTask_forms h
  have hs2 : s2.Forms := State.taskState_forms (State.endSlot_forms hs1)
  exact State.ite_forms (State.commitStart_forms hs2) hs2

theorem endDirect_forms {key : Nat} {t : Task} {s0 : State} (h : s0.Forms) : (endDirect key t s0).Forms := by
  unfold endDirect
  extract_lets s s1
  have hs : s.Forms := State.planTouch_forms h
  have hs1 : s1.Forms := State.endSlot_forms (State.modTask_forms hs)
  split
  · exact hs
  · exact hs
  · exact hs
  · refine Eff.ite_forms hs ?_
    refine Eff.ite_forms hs ?_
    refine Eff.ite_forms hs ?_
    extract_lets s2
    have hs2 : s2.Forms := State.applyCommit_forms hs1
    exact State.commitEnd_forms hs2

theorem endNow_forms (h : s.Forms) : (endNow s).Forms := by
  unfold endNow
  split
  · exact State.endSlot_forms h
  · split
    · exact State.endSlot_forms h
    · exact Eff.ite_forms (Eff.ite_forms h (endCollected_forms h)) (endDirect_forms h)

theorem execTkEnd_forms (h : s.Forms) : outForms (execTkEnd s) := guarded_forms h (Eff.ite_forms (State.release_forms h (fun _ ha => endNow_forms ha)) h)

theorem execTaskCommit_forms {task : Nat} (h : s.Forms) : outForms (execTaskCommit task s) := State.commitApply_forms h

theorem execCommitLockAcquire_forms {task : Nat} (h : s.Forms) : outForms (execCommitLockAcquire task s) := State.lockNext_forms h

theorem execTimedCommitStart_forms {task : Nat} (h : s.Forms) : outForms (execTimedCommitStart task s) := State.ite_forms (State.commitStart_forms h) h

end Sys2Proof.Machine
end

section
/-! PROOF. What the functions of Vector, VectorMem, Dispatch lead to keeps the forms (R300, R348; log 3). -/

namespace Sys2Proof.Machine

variable {s : State}

/-! ### Vector -/

theorem Slot.setElem_forms {sl : Slot} {r : Reg} {w i v : Nat} (hsl : sl.Forms) : (sl.setElem r w i v).Forms := Slot.setVr_forms hsl

theorem Slot.setElems_forms {sl : Slot} {r : Reg} {w : Nat} {l : List (Nat × Nat)} (hsl : sl.Forms) : (sl.setElems r w l).Forms :=
  foldl_forms_slot hsl (fun _ _ hq => Slot.setElem_forms hq)

theorem Slot.putGroup_forms {sl : Slot} {h : VSh} {d : Reg} {w : Nat} {k : KWord} {res : List (Nat × Nat)} (hsl : sl.Forms) :
    (sl.putGroup h d w k res).Forms :=
  Slot.ite_forms hsl (Slot.setElems_forms (Slot.setElems_forms (Slot.setElems_forms hsl)))

theorem vcheck_forms {bad : Bool} {e : Eff} (h : s.Forms) (he : e.Forms) : (vcheck s bad e).Forms := Eff.ite_forms h he

theorem execSetvl_forms {d r : Reg} {shape : BitVec 6} {s : State} (h : s.Forms) : outForms (execSetvl d r shape s) := by
  unfold execSetvl
  extract_lets n
  refine guarded_forms h (Eff.Forms.next (State.setX_forms (State.modMe_forms h fun q hq => (Slot.forms_iff _).mpr ⟨?_, ((Slot.forms_iff q).mp hq).2⟩)))
  exact (BitVec.toNat_ofNat _ _).trans_le ((Nat.mod_le _ _).trans (Nat.min_le_right _ _))

theorem State.vput_forms {h : VSh} {d : Reg} {w : Nat} {k : KWord} {r : List (Nat × Nat) × Fp} (hs : s.Forms) : (s.vput h d w k r).Forms :=
  State.setFp_forms (State.modMe_forms hs (fun _ hq => Slot.putGroup_forms hq))

theorem vbin_forms {o : VOp} {d a b : Reg} {m : VMod} (h : s.Forms) : outForms (vbin o d a b m s) :=
  guarded_forms h (vcheck_forms h (State.vput_forms h))

theorem execVadd_forms {d s1 s2 : Reg} {m : VMod} {st : State} (hst : st.Forms) : outForms (execVadd d s1 s2 m st) := vbin_forms hst

theorem execVsub_forms {d s1 s2 : Reg} {m : VMod} {st : State} (hst : st.Forms) : outForms (execVsub d s1 s2 m st) := vbin_forms hst

theorem execVmul_forms {d s1 s2 : Reg} {m : VMod} {st : State} (hst : st.Forms) : outForms (execVmul d s1 s2 m st) := vbin_forms hst

theorem execVmin_forms {d s1 s2 : Reg} {m : VMod} {st : State} (hst : st.Forms) : outForms (execVmin d s1 s2 m st) := vbin_forms hst

theorem execVmax_forms {d s1 s2 : Reg} {m : VMod} {st : State} (hst : st.Forms) : outForms (execVmax d s1 s2 m st) := vbin_forms hst

theorem execVmulh_forms {d s1 s2 : Reg} {m : VMod} {st : State} (hst : st.Forms) : outForms (execVmulh d s1 s2 m st) := vbin_forms hst

theorem execVdiv_forms {d s1 s2 : Reg} {m : VMod} {st : State} (hst : st.Forms) : outForms (execVdiv d s1 s2 m st) := vbin_forms hst

theorem execVrem_forms {d s1 s2 : Reg} {m : VMod} {st : State} (hst : st.Forms) : outForms (execVrem d s1 s2 m st) := vbin_forms hst

theorem execVand_forms {d s1 s2 : Reg} {m : VMod} {st : State} (hst : st.Forms) : outForms (execVand d s1 s2 m st) := vbin_forms hst

theorem execVor_forms {d s1 s2 : Reg} {m : VMod} {st : State} (hst : st.Forms) : outForms (execVor d s1 s2 m st) := vbin_forms hst

theorem execVxor_forms {d s1 s2 : Reg} {m : VMod} {st : State} (hst : st.Forms) : outForms (execVxor d s1 s2 m st) := vbin_forms hst

theorem execVsll_forms {d s1 s2 : Reg} {m : VMod} {st : State} (hst : st.Forms) : outForms (execVsll d s1 s2 m st) := vbin_forms hst

theorem execVsrl_forms {d s1 s2 : Reg} {m : VMod} {st : State} (hst : st.Forms) : outForms (execVsrl d s1 s2 m st) := vbin_forms hst

theorem execVsra_forms {d s1 s2 : Reg} {m : VMod} {st : State} (hst : st.Forms) : outForms (execVsra d s1 s2 m st) := vbin_forms hst

theorem vflt_forms {d a b : Reg} {m : VMod} {op : Bool → FVal → FVal → FVal → FVal × Nat} (h : s.Forms) : outForms (vflt d a b m op s) :=
  guarded_forms h (vcheck_forms h (State.vput_forms h))

theorem execVfma_forms {d s1 s2 : Reg} {m : VMod} {st : State} (hst : st.Forms) : outForms (execVfma d s1 s2 m st) := vflt_forms hst

theorem execVfdiv_forms {d s1 s2 : Reg} {m : VMod} {st : State} (hst : st.Forms) : outForms (execVfdiv d s1 s2 m st) := vflt_forms hst

theorem execVsqrt_forms {d r : Reg} {m : VMod} {st : State} (hst : st.Forms) : outForms (execVsqrt d r m st) :=
  ite_outForms (guarded_forms hst hst) (vflt_forms hst)

theorem vwide_forms {mul : Bool} {d b c : Reg} {m : VMod} (h : s.Forms) : outForms (vwide mul d b c m s) :=
  guarded_forms h (vcheck_forms h (State.vput_forms h))

theorem execVwadd_forms {d b c : Reg} {m : VMod} {st : State} (hst : st.Forms) : outForms (execVwadd d b c m st) := vwide_forms hst

theorem execVwmul_forms {d b c : Reg} {m : VMod} {st : State} (hst : st.Forms) : outForms (execVwmul d b c m st) := vwide_forms hst

theorem execVnarrow_forms {d r : Reg} {ty : BitVec 4} {mask : KReg} {sat : Bool} (h : s.Forms) : outForms (execVnarrow d r ty mask sat s) :=
  guarded_forms h (vcheck_forms h (State.vput_forms h))

theorem execVcvt_forms {d r : Reg} {dst src : BitVec 4} {sat : Bool} (h : s.Forms) : outForms (execVcvt d r dst src sat s) :=
  guarded_forms h (vcheck_forms h (State.vput_forms h))

theorem Slot.setBytes_forms {sl : Slot} {d : Reg} {off : Nat} {bs : List Byte} (hsl : sl.Forms) : (sl.setBytes d off bs).Forms :=
  foldl_forms_slot hsl (fun _ _ hq => Slot.setElem_forms hq)

theorem execVpack_forms {d r : Reg} {bt : BlockTy} (h : s.Forms) : outForms (execVpack d r bt s) :=
  guarded_forms h (vcheck_forms h (State.ite_forms h (State.setFp_forms (State.modMe_forms h (fun _ hq => Slot.setBytes_forms (Slot.setBytes_forms hq))))))

theorem execVunpack_forms {d r : Reg} {bt : BlockTy} (h : s.Forms) : outForms (execVunpack d r bt s) :=
  guarded_forms h (vcheck_forms h (State.modMe_forms h (fun _ hq => Slot.putGroup_forms hq)))

theorem vred_forms {o : Nat} {d b c : Reg} {m : VMod} (h : s.Forms) : outForms (vred o d b c m s) := by
  unfold vred
  extract_lets h1 t w k bad
  refine guarded_forms h ?_
  refine vcheck_forms h ?_
  refine State.ite_forms h ?_
  split
  · exact State.setFp_forms (State.modMe_forms h (fun _ hq => Slot.setElems_forms (Slot.setElem_forms hq)))

theorem execVredsum_forms {d b c : Reg} {m : VMod} {st : State} (hst : st.Forms) : outForms (execVredsum d b c m st) := vred_forms hst

theorem execVredmin_forms {d b c : Reg} {m : VMod} {st : State} (hst : st.Forms) : outForms (execVredmin d b c m st) := vred_forms hst

theorem execVredmax_forms {d b c : Reg} {m : VMod} {st : State} (hst : st.Forms) : outForms (execVredmax d b c m st) := vred_forms hst

theorem vms_forms {o : Nat} {kd : KReg} {b c : Reg} {m : VMod} (h : s.Forms) : outForms (vms o kd b c m s) :=
  guarded_forms h (vcheck_forms h (State.setFp_forms (State.modMe_forms h (fun _ hq => Slot.setKr_forms hq))))

theorem execVmseq_forms {k : KReg} {b c : Reg} {m : VMod} {st : State} (hst : st.Forms) : outForms (execVmseq k b c m st) := vms_forms hst

theorem execVmsne_forms {k : KReg} {b c : Reg} {m : VMod} {st : State} (hst : st.Forms) : outForms (execVmsne k b c m st) := vms_forms hst

theorem execVmslt_forms {k : KReg} {b c : Reg} {m : VMod} {st : State} (hst : st.Forms) : outForms (execVmslt k b c m st) := vms_forms hst

theorem execVmsle_forms {k : KReg} {b c : Reg} {m : VMod} {st : State} (hst : st.Forms) : outForms (execVmsle k b c m st) := vms_forms hst

theorem vmop_forms {k : KReg} {f : Nat → Bool} (h : s.Forms) : outForms (vmop k f s) :=
  guarded_forms h (vcheck_forms h (State.modMe_forms h (fun _ hq => Slot.setKr_forms hq)))

theorem execVmand_forms {k kb kc : KReg} {st : State} (hst : st.Forms) : outForms (execVmand k kb kc st) := vmop_forms hst

theorem execVmor_forms {k kb kc : KReg} {st : State} (hst : st.Forms) : outForms (execVmor k kb kc st) := vmop_forms hst

theorem execVmnot_forms {k kb : KReg} {st : State} (hst : st.Forms) : outForms (execVmnot k kb st) := vmop_forms hst

theorem execVpopc_forms {d : Reg} {kb : KReg} (h : s.Forms) : outForms (execVpopc d kb s) := guarded_forms h (State.setX_forms h)

theorem execVfirst_forms {d : Reg} {kb : KReg} (h : s.Forms) : outForms (execVfirst d kb s) := guarded_forms h (State.setX_forms h)

theorem execVmerge_forms {d b c : Reg} {m : VMod} (h : s.Forms) : outForms (execVmerge d b c m s) :=
  guarded_forms h (vcheck_forms h (State.modMe_forms h (fun _ hq => Slot.putGroup_forms hq)))

theorem execVslideup_forms {d b c : Reg} {m : VMod} (h : s.Forms) : outForms (execVslideup d b c m s) :=
  guarded_forms h (vcheck_forms h (State.ite_forms h (State.modMe_forms h (fun _ hq => Slot.setElems_forms (Slot.setElems_forms hq)))))

theorem execVslidedown_forms {d b c : Reg} {m : VMod} (h : s.Forms) : outForms (execVslidedown d b c m s) :=
  guarded_forms h (vcheck_forms h (State.modMe_forms h (fun _ hq => Slot.putGroup_forms hq)))

theorem execVrgather_forms {d b c : Reg} {m : VMod} (h : s.Forms) : outForms (execVrgather d b c m s) :=
  guarded_forms h (vcheck_forms h (State.modMe_forms h (fun _ hq => Slot.putGroup_forms hq)))

theorem execVcompress_forms {d b : Reg} {m : VMod} (h : s.Forms) : outForms (execVcompress d b m s) :=
  guarded_forms h (vcheck_forms h (State.ite_forms h (State.modMe_forms h (fun _ hq => Slot.setElems_forms (Slot.setElems_forms hq)))))

theorem execVmv_forms {d r : Reg} {ty : BitVec 4} {mask : KReg} {form : MvForm} (h : s.Forms) : outForms (execVmv d r ty mask form s) := by
  unfold execVmv
  extract_lets h1 t w k
  refine guarded_forms h ?_
  split
  · exact vcheck_forms h (State.modMe_forms h (fun _ hq => Slot.putGroup_forms hq))
  · exact vcheck_forms h (State.modMe_forms h (fun _ hq => Slot.putGroup_forms hq))
  · exact vcheck_forms h (State.setX_forms h)

/-! ### VectorMem -/

theorem Eff.rebase_forms {f : Eff} (h : s.Forms) (hf : f.Forms) : (Eff.rebase s f).Forms := by
  unfold Eff.rebase
  split
  · exact h
  · exact h
  · exact h
  · exact hf
  · exact hf
  · exact hf

theorem vloads_forms {s : State} {m : VMMod} {w : Nat} {a : Nat → Word} {l : List Nat} {acc : List (Nat × Nat)} (h : s.Forms) :
    (vloads s m w a l acc).2.1.Forms ∧ optForms (fun p => p.2.Forms) (vloads s m w a l acc).2.2 := by
  induction l generalizing s acc with
  | nil => exact ⟨h, trivial⟩
  | cons i l ih =>
    unfold vloads
    split
    · next e => exact ⟨h, Got.no_forms e (State.load_forms h)⟩
    · next e => exact ih (Got.ok_forms e (State.load_forms h))

theorem vload_forms {rule : VAddr} {d b c : Reg} {m : VMMod} {imm : Word} {s : State} (h : s.Forms) : outForms (vload rule d b c m imm s) := by
  unfold vload
  extract_lets sh w k a
  refine guarded_forms h (vcheck_forms h ?_)
  have hl := vloads_forms (m := m) (w := w) (a := a) (l := sh.active k) (acc := []) h
  split
  · next e =>
      rw [e] at hl
      exact Eff.Forms.next (State.modMe_forms hl.1 fun _ hq => Slot.putGroup_forms hq)
  · next e =>
      rw [e] at hl
      exact Eff.rebase_forms h hl.2

/-- The slot in turn, and the slots. -/
def State.desk (s : State) : Nat × PMap Slot := (s.cur, s.slots)

theorem State.desk_of_same {s t : State} (hcur : t.cur = s.cur) (hslots : t.slots = s.slots) : t.desk = s.desk := Prod.ext hcur hslots

theorem State.tcmWrite_desk (s : State) (core off : Nat) (bs : List Byte) : (s.tcmWrite core off bs).desk = s.desk := by
  unfold State.tcmWrite
  simp only
  split <;> rfl

theorem State.writeBack1_desk (s : State) (sec : Nat) : (s.writeBack1 sec).desk = s.desk := by
  unfold State.writeBack1
  simp only
  split
  · rfl
  · split <;> rfl

theorem State.makeDirty_desk (s : State) (inter : Bool) (sec : Nat) : (s.makeDirty inter sec).desk = s.desk := by
  have hshadow : ∀ t : State, (t.shadow inter sec).desk = t.desk := by
    intro t
    unfold State.shadow
    split <;> rfl
  refine (hshadow _).trans ?_
  unfold State.makeRoom
  simp only
  split
  · rfl
  · split
    · rfl
    · exact foldl_keeps State.writeBack1_desk (s.freeIndex _).2 _

theorem State.devWrite_desk (s : State) (p : Nat) (inter : Bool) (bs : List Byte) : (s.devWrite p inter bs).desk = s.desk :=
  foldl_keeps (f := fun st sec => st.makeDirty inter sec) (fun st sec => State.makeDirty_desk st inter sec) s _

theorem State.hostPut_desk (s : State) (p a : Nat) (bs : List Byte) : (s.hostPut p a bs).desk = s.desk :=
  foldl_keeps (f := fun st sec => st.makeDirty true sec) (fun st sec => State.makeDirty_desk st true sec) s _

theorem State.windowWrite_desk (s : State) (g off : Nat) (bs : List Byte) : (s.windowWrite g off bs).desk = s.desk := by
  unfold State.windowWrite
  split
  · exact State.tcmWrite_desk s _ _ _
  · split
    · exact State.desk_of_same rfl rfl
    · split <;> exact State.desk_of_same rfl rfl

theorem State.barWrite_desk (s : State) (off : Nat) (bs : List Byte) : (s.barWrite off bs).desk = s.desk := by
  unfold State.barWrite
  simp only
  split
  · split <;> exact State.desk_of_same rfl rfl
  · split
    · exact State.desk_of_same rfl rfl
    · split <;> exact State.desk_of_same rfl rfl

theorem State.bellWrite_desk (s : State) (q : Nat) (bs : List Byte) : (s.bellWrite q bs).desk = s.desk := by
  unfold State.bellWrite
  simp only
  split
  · rfl
  · exact State.devWrite_desk s _ _ _

theorem State.poke_desk (s : State) (p : Nat) (inter : Bool) (bs : List Byte) : (s.poke p inter bs).desk = s.desk := by
  unfold State.poke
  split
  · exact State.devWrite_desk s p inter bs
  · exact State.windowWrite_desk s _ _ bs
  · exact State.windowWrite_desk s _ _ bs
  · exact State.barWrite_desk s _ bs
  · exact State.bellWrite_desk s _ bs
  · exact State.hostPut_desk s p _ bs
  · rfl
  · rfl

theorem State.combineCopy_desk (s : State) (core sec : Nat) : (s.combineCopy core sec).desk = s.desk := by
  refine foldl_keeps (obs := State.desk) (f := fun st e => (st.combineElem e).traceAdd (st.home e.pa e.inter) 2 (redWidth e.ty.toNat / 8) e.pa (st.source
    (core * 4)))
    (fun st e => ?_) (s.setCore core _) _
  have htrace : ∀ (t : State) (home kind size p src : Nat), (t.traceAdd home kind size p src).desk = t.desk := by
    intro t home kind size p src
    unfold State.traceAdd
    simp only
    split <;> rfl
  exact (htrace _ _ _ _ _ _).trans (State.poke_desk st e.pa e.inter _)

theorem State.combineAll_desk (sec n : Nat) (s : State) (cores : List Nat) : (s.combineAll sec n cores).desk = s.desk := by
  induction n generalizing s cores with
  | zero => rfl
  | succ n ih =>
    unfold State.combineAll
    split
    · rfl
    · exact State.combineCopy_desk s _ sec
    · exact (ih _ _).trans (State.combineCopy_desk _ _ sec)

theorem State.recall_desk (s : State) (sec : Nat) : (s.recall sec).desk = s.desk := by
  have hsnoop : (s.snoop sec).desk = s.desk := by
    unfold State.snoop
    split <;> rfl
  unfold State.recall
  simp only
  split
  · exact hsnoop
  · exact (State.combineAll_desk _ _ _ _).trans hsnoop

theorem State.recallRange_desk (s : State) (p n : Nat) : (s.recallRange p n).desk = s.desk := foldl_keeps State.recall_desk s _

theorem State.walkFrom_desk (va : Nat) (levels : List Nat) (table : Nat) (s : State) : (State.walkFrom va levels table s).2.2.desk = s.desk := by
  induction levels generalizing table s with
  | nil => rfl
  | cons level rest ih =>
    unfold State.walkFrom
    simp only
    split
    · rfl
    · split
      · exact State.recall_desk s _
      · split
        · exact State.recall_desk s _
        · exact (ih _ _).trans (State.recall_desk s _)

theorem State.walk_desk (s : State) (ctx va : Nat) : (s.walk ctx va).2.2.desk = s.desk := by
  unfold State.walk
  simp only
  split
  · rfl
  · exact State.walkFrom_desk _ _ _ s

theorem State.devWalks_desk (s : State) (ctx : Nat) (vas : List Nat) : (s.devWalks ctx vas).desk = s.desk := by
  have htouch : (s.walkTouch ctx vas).desk = s.desk := foldl_keeps (f := fun st va => (st.walk ctx (va % 2 ^ 48)).2.2) (fun st _ => st.walk_desk ctx _) s vas
  unfold State.devWalks
  simp only
  split <;> exact htouch

theorem State.c64Pick_desk (s : State) (va a : Nat) (r : WalkRes) : (s.c64Pick va a r).2.desk = s.desk := by
  unfold State.c64Pick
  simp only
  split
  · split <;> rfl
  · split <;> rfl
  · rfl

theorem State.lookup_desk (s : State) (core ctx va : Nat) (fetch : Bool) : (s.lookup core ctx va fetch).2.desk = s.desk := by
  unfold State.lookup
  simp only
  split
  · rfl
  · split
    · rfl
    · have hpick := ((s.walk ctx va).2.2.c64Pick_desk va (s.walk ctx va).2.1 (s.walk ctx va).1).trans (s.walk_desk ctx va)
      split
      · next e => rw [e] at hpick; exact hpick
      · exact hpick

theorem State.xlate_desk {s t : State} {acc : Access} {need : Need} {ea : Word} {n : Nat} {whole : Bool} {addr : Word} {q : Nat × Bool}
    (h : s.xlate acc need ea n whole addr = .ok q t) : t.desk = s.desk := by
  have htranslate : (s.translate (coreOf s.cur) ⟨s.cur, s.me.ctx, 0⟩ acc need ea n whole false).2.desk = s.desk := by
    have hlookup := s.lookup_desk (coreOf s.cur) s.me.ctx (ea.toNat % 2 ^ 48) (acc == .fetch)
    unfold State.translate
    simp only
    split
    · next e => rw [e] at hlookup; exact hlookup
    · next e => rw [e] at hlookup; exact hlookup
    · next e => rw [e] at hlookup; exact hlookup
    · next e => rw [e] at hlookup; exact hlookup
  unfold State.xlate at h
  split at h
  · next e =>
      rw [e] at htranslate
      cases h
      exact htranslate
  · exact Got.noConfusion rfl (heq_of_eq h)
  · exact Got.noConfusion rfl (heq_of_eq h)
  · exact Got.noConfusion rfl (heq_of_eq h)

/-- The slot in turn is the same, and every slot keeps its vector length and shape. -/
def State.SameVl (s t : State) : Prop := t.cur = s.cur ∧ ∀ k, (t.slot k).vl = (s.slot k).vl ∧ (t.slot k).vshape = (s.slot k).vshape

section SameVl
variable {s t u : State}

theorem State.SameVl.refl (s : State) : s.SameVl s := ⟨rfl, fun _ => ⟨rfl, rfl⟩⟩

theorem State.SameVl.trans (h : s.SameVl t) (h' : t.SameVl u) : s.SameVl u :=
  ⟨h'.1.trans h.1, fun k => ⟨(h'.2 k).1.trans (h.2 k).1, (h'.2 k).2.trans (h.2 k).2⟩⟩

theorem State.SameVl.of_desk (h : t.desk = s.desk) : s.SameVl t := by
  obtain ⟨hcur, hslots⟩ := Prod.mk.inj h
  refine ⟨hcur, fun k => ?_⟩
  unfold State.slot
  rw [hslots]
  exact ⟨rfl, rfl⟩

theorem State.SameVl.me (h : s.SameVl t) : t.me.vl = s.me.vl ∧ t.me.vshape = s.me.vshape := by
  unfold State.me
  rw [h.1]
  exact h.2 _

theorem State.sigRead_sameVl (s : State) (slot p n : Nat) : s.SameVl (s.sigRead slot p n) := by
  unfold State.sigRead
  simp only
  split
  · refine ⟨rfl, fun k => ?_⟩
    by_cases hk : k = slot
    · subst hk
      rw [State.slot_setSlot_same]
      exact ⟨rfl, rfl⟩
    · rw [State.slot_setSlot_ne _ _ hk]
      exact ⟨rfl, rfl⟩
  · exact .refl s

theorem State.foldl_sameVl {α : Type} {f : State → α → State} (hf : ∀ (t : State) (a : α), t.SameVl (f t a)) (l : List α) (s : State) : s.SameVl (l.foldl f
  s) := by
  induction l generalizing s with
  | nil => exact .refl s
  | cons a l ih => exact (hf s a).trans (ih _)

theorem State.viewReady_sameVl {ea p n : Nat} {addr : Word} {v : Unit} (h : s.viewReady ea p n addr = .ok v t) : s.SameVl t := by
  unfold State.viewReady at h
  extract_lets w es eng s0 reads s1 at h
  have hs0 : s.SameVl s0 := by
    unfold s0
    split
    · exact .refl s
    · exact .of_desk (State.devWalks_desk s _ _)
  have hs1 : s0.SameVl s1 :=
    State.foldl_sameVl (f := fun st (q : Nat × Nat) => (st.recallRange q.1 q.2).sigRead st.cur q.1 q.2)
      (fun st q => (State.SameVl.of_desk (st.recallRange_desk q.1 q.2)).trans (State.sigRead_sameVl _ _ _ _)) reads s0
  split at h
  · exact Got.noConfusion rfl (heq_of_eq h)
  · split at h
    · exact Got.noConfusion rfl (heq_of_eq h)
    · obtain ⟨-, ht⟩ := Got.ok.inj h
      rw [← ht]
      exact hs0.trans hs1

theorem State.strongRead_sameVl (s : State) (p n base : Nat) (bs : List Byte) : s.SameVl (s.strongRead p n base bs).2 := by
  unfold State.strongRead
  simp only
  split
  · exact .refl s
  · exact .of_desk rfl

theorem State.loadGlob_sameVl {ea addr : Word} {coll whole : Bool} {n : Nat} {need : Need} {bs : List Byte}
    (h : s.loadGlob ea coll n need whole addr = .ok bs t) : s.SameVl t := by
  unfold State.loadGlob at h
  cases hx : s.xlate .load need ea n whole addr with
  | no e => rw [hx] at h; cases h
  | ok q s1 =>
    have h1 : s.SameVl s1 := .of_desk (State.xlate_desk hx)
    rw [hx] at h
    simp only [Got.bind] at h
    split at h
    · cases h
    · have h2 := (h1.trans (.of_desk (s1.recallRange_desk q.1 n))).trans (State.sigRead_sameVl _ (s1.recallRange q.1 n).cur q.1 n)
      split at h
      · cases h
      · split at h
        · cases h
        · split at h
          · split at h
            · next hv =>
                obtain ⟨-, ht⟩ := Got.ok.inj h
                rw [← ht]
                exact (h2.trans (State.viewReady_sameVl hv)).trans (State.strongRead_sameVl _ _ _ _ _)
            · cases h
          · obtain ⟨-, ht⟩ := Got.ok.inj h
            rw [← ht]
            exact h2.trans (State.strongRead_sameVl _ _ _ _ _)

theorem State.load_sameVl {sp : Space} {sk whole : Bool} {ea : Word} {n al : Nat} {bs : List Byte}
    (h : s.load sp sk ea n al whole = .ok bs t) : s.SameVl t := by
  have hstay : ∀ {b : List Byte}, (Got.ok b s : Got (List Byte)) = .ok bs t → s.SameVl t := fun e => (Got.ok.inj e).2 ▸ .refl s
  unfold State.load at h
  split at h
  · cases h
  · split at h
    · cases h
    · exact hstay h
  · split at h
    · cases h
    · exact hstay h
  · exact State.loadGlob_sameVl h

theorem vloads_sameVl {m : VMMod} {w : Nat} {a : Nat → Word} {l : List Nat} {acc : List (Nat × Nat)} : s.SameVl (vloads s m w a l acc).2.1 := by
  induction l generalizing s acc with
  | nil => exact .refl s
  | cons i l ih =>
    unfold vloads
    split
    · exact .refl s
    · next h => exact (State.load_sameVl h).trans ih

end SameVl

theorem vloads_fails_in {s : State} {m : VMMod} {w : Nat} {a : Nat → Word} {l : List Nat} {acc : List (Nat × Nat)} {i : Nat} {e : Eff}
    (h : (vloads s m w a l acc).2.2 = some (i, e)) : i ∈ l := by
  induction l generalizing s acc with
  | nil => cases h
  | cons j l ih =>
    unfold vloads at h
    split at h
    · cases h
      exact List.mem_cons_self
    · exact List.mem_cons_of_mem _ (ih h)

theorem Slot.setElems_vshape {sl : Slot} {r : Reg} {w : Nat} {l : List (Nat × Nat)} : (sl.setElems r w l).vshape = sl.vshape := by
  unfold Slot.setElems
  induction l generalizing sl with
  | nil => rfl
  | cons e l ih => exact ih

theorem Slot.putGroup_vshape {sl : Slot} {h : VSh} {d : Reg} {w : Nat} {k : KWord} {res : List (Nat × Nat)} : (sl.putGroup h d w k res).vshape = sl.vshape :=
  by
  unfold Slot.putGroup
  split
  · rfl
  · exact Slot.setElems_vshape.trans (Slot.setElems_vshape.trans Slot.setElems_vshape)

theorem vloadFirst_forms {d b : Reg} {m : VMMod} {imm : Word} {s : State} (h : s.Forms) : outForms (vloadFirst d b m imm s) := by
  unfold vloadFirst
  extract_lets sh w k a
  refine guarded_forms h (vcheck_forms h ?_)
  have hl := vloads_forms (m := m) (w := w) (a := a) (l := sh.active k) (acc := []) h
  have hsame := vloads_sameVl (s := s) (m := m) (w := w) (a := a) (l := sh.active k) (acc := [])
  split
  · next e =>
      rw [e] at hl
      exact Eff.Forms.next (State.modMe_forms hl.1 fun _ hq => Slot.putGroup_forms hq)
  · next i f e =>
      have hi : i < s.me.vl.toNat := (mem_active.mp (vloads_fails_in (congrArg (fun p => p.2.2) e))).1
      rw [e] at hl hsame
      refine Eff.ite_forms (Eff.rebase_forms h hl.2) (Eff.Forms.next (State.setSlot_forms hl.1 ((Slot.forms_iff _).mpr ⟨?_, ?_⟩)))
      · refine (BitVec.toNat_ofNat _ _).trans_le ((Nat.mod_le _ _).trans ?_)
        change i ≤ shapeMax (Slot.putGroup _ _ _ _ _ _).vshape.toNat
        rw [Slot.putGroup_vshape]
        have hme := ((Slot.forms_iff _).mp (State.me_forms h)).1
        rw [← hsame.me.2] at hme
        exact hi.le.trans hme
      · exact ((Slot.forms_iff _).mp (Slot.putGroup_forms (State.me_forms hl.1))).2

theorem vstores_forms {m : VMMod} {w : Nat} {a : Nat → Word} {v : Nat → Nat} {l : List Nat} (h : s.Forms) : (vstores s m w a v l).Forms := by
  induction l generalizing s m w with
  | nil =>
    unfold vstores
    exact h
  | cons a l ih =>
    unfold vstores
    exact Got.bind_forms (State.store_forms h) (fun _ _ ht => ih ht)

theorem vchecks_forms {m : VMMod} {w : Nat} {a : Nat → Word} {v : Nat → Nat} {l : List Nat} (h : s.Forms) : optForms Eff.Forms (vchecks s m w a v l) := by
  induction l generalizing s m w with
  | nil =>
    unfold vchecks
    exact trivial
  | cons a l ih =>
    unfold vchecks
    split
    · exact h
    · exact ih h
    · exact ih h
    · split
      · next e2 => exact Got.no_forms e2 (State.xlate_forms h)
      · next e2 =>
          split
          · split
            · next e4 => exact Got.no_forms e4 (State.collect_forms (Got.ok_forms e2 (State.xlate_forms h)))
            · next e4 => exact ih (Got.ok_forms e4 (State.collect_forms (Got.ok_forms e2 (State.xlate_forms h))))
          · split
            · exact Got.ok_forms e2 (State.xlate_forms h)
            · exact ih (Got.ok_forms e2 (State.xlate_forms h))

theorem vstore_forms {rule : VAddr} {d b c : Reg} {m : VMMod} {imm : Word} (h : s.Forms) : outForms (vstore rule d b c m imm s) := by
  unfold vstore
  extract_lets h1 w k a
  refine guarded_forms h ?_
  refine vcheck_forms h ?_
  split
  · next e1 => exact Eff.rebase_forms h (optForms_some_eff e1 (vchecks_forms h))
  · split
    · next e1 => exact Got.ok_forms e1 (vstores_forms h)
    · next e2 => exact Eff.rebase_forms h (Got.no_forms e2 (vstores_forms h))

theorem execVle_forms {d b : Reg} {m : VMMod} {imm : Word} (h : s.Forms) : outForms (execVle d b m imm s) := vload_forms h

theorem execVlse_forms {d b c : Reg} {m : VMMod} {imm : Word} (h : s.Forms) : outForms (execVlse d b c m imm s) := vload_forms h

theorem execVlxe_forms {d b c : Reg} {m : VMMod} {imm : Word} (h : s.Forms) : outForms (execVlxe d b c m imm s) := vload_forms h

theorem execVlff_forms {d b : Reg} {m : VMMod} {imm : Word} (h : s.Forms) : outForms (execVlff d b m imm s) := vloadFirst_forms h

theorem execVlce_forms {d b : Reg} {m : VMMod} {imm : Word} (h : s.Forms) : outForms (execVlce d b m imm s) := vload_forms h

theorem execVse_forms {d b : Reg} {m : VMMod} {imm : Word} (h : s.Forms) : outForms (execVse d b m imm s) := vstore_forms h

theorem execVsse_forms {d b c : Reg} {m : VMMod} {imm : Word} (h : s.Forms) : outForms (execVsse d b c m imm s) := vstore_forms h

theorem execVsxe_forms {d b c : Reg} {m : VMMod} {imm : Word} (h : s.Forms) : outForms (execVsxe d b c m imm s) := vstore_forms h

theorem execVsce_forms {d b : Reg} {m : VMMod} {imm : Word} (h : s.Forms) : outForms (execVsce d b m imm s) := vstore_forms h

/-! ### Dispatch -/

theorem exec_forms {i : Instr} (h : s.Forms) : outForms (exec i s) := by
  unfold exec
  split
  · exact execAdd_forms h
  · exact execSub_forms h
  · exact execAnd_forms h
  · exact execOr_forms h
  · exact execXor_forms h
  · exact execSll_forms h
  · exact execSrl_forms h
  · exact execSra_forms h
  · exact execMul_forms h
  · exact execMulh_forms h
  · exact execDiv_forms h
  · exact execRem_forms h
  · exact execMin_forms h
  · exact execMax_forms h
  · exact execSlt_forms h
  · exact execSextB_forms h
  · exact execSextH_forms h
  · exact execSextW_forms h
  · exact execZextB_forms h
  · exact execZextH_forms h
  · exact execZextW_forms h
  · exact execClz_forms h
  · exact execCtz_forms h
  · exact execPopc_forms h
  · exact execAddi_forms h
  · exact execAndi_forms h
  · exact execOri_forms h
  · exact execXori_forms h
  · exact execSlli_forms h
  · exact execSrli_forms h
  · exact execSrai_forms h
  · exact execSlti_forms h
  · exact execCmpiEq_forms h
  · exact execCmpiLt_forms h
  · exact execCmpEq_forms h
  · exact execCmpNe_forms h
  · exact execCmpLt_forms h
  · exact execCmpGe_forms h
  · exact execCmpLtN_forms h
  · exact execCmpGeN_forms h
  · exact execBeq_forms h
  · exact execBne_forms h
  · exact execBlt_forms h
  · exact execBge_forms h
  · exact execBltN_forms h
  · exact execBgeN_forms h
  · exact execJal_forms h
  · exact execCall_forms h
  · exact execCallC_forms h
  · exact execJalr_forms h
  · exact execRet_forms h
  · exact execPand_forms h
  · exact execPor_forms h
  · exact execPnot_forms h
  · exact execPend_forms h
  · exact execFadd_forms h
  · exact execFsub_forms h
  · exact execFmul_forms h
  · exact execFdiv_forms h
  · exact execFmadd_forms h
  · exact execFmin_forms h
  · exact execFmax_forms h
  · exact execFsqrt_forms h
  · exact execFcvt_forms h
  · exact execFcmpEq_forms h
  · exact execFcmpLt_forms h
  · exact execFcmpLe_forms h
  · exact execRdsr_forms h
  · exact execWrsr_forms h
  · exact execHint_forms h
  · exact execSetvl_forms h
  · exact execVle_forms h
  · exact execVlse_forms h
  · exact execVlxe_forms h
  · exact execVlff_forms h
  · exact execVlce_forms h
  · exact execVse_forms h
  · exact execVsse_forms h
  · exact execVsxe_forms h
  · exact execVsce_forms h
  · exact execVadd_forms h
  · exact execVsub_forms h
  · exact execVmul_forms h
  · exact execVmin_forms h
  · exact execVmax_forms h
  · exact execVmulh_forms h
  · exact execVdiv_forms h
  · exact execVrem_forms h
  · exact execVand_forms h
  · exact execVor_forms h
  · exact execVxor_forms h
  · exact execVsll_forms h
  · exact execVsrl_forms h
  · exact execVsra_forms h
  · exact execVfma_forms h
  · exact execVfdiv_forms h
  · exact execVsqrt_forms h
  · exact execVwadd_forms h
  · exact execVwmul_forms h
  · exact execVnarrow_forms h
  · exact execVcvt_forms h
  · exact execVpack_forms h
  · exact execVunpack_forms h
  · exact execVredsum_forms h
  · exact execVredmin_forms h
  · exact execVredmax_forms h
  · exact execVmseq_forms h
  · exact execVmsne_forms h
  · exact execVmslt_forms h
  · exact execVmsle_forms h
  · exact execVmand_forms h
  · exact execVmor_forms h
  · exact execVmnot_forms h
  · exact execVpopc_forms h
  · exact execVfirst_forms h
  · exact execVmerge_forms h
  · exact execVslideup_forms h
  · exact execVslidedown_forms h
  · exact execVrgather_forms h
  · exact execVcompress_forms h
  · exact execVmv_forms h
  · exact execCbCfg_forms h
  · exact execCbAdvP_forms h
  · exact execCbAdvC_forms h
  · exact execMxCfg_forms h
  · exact execMxZero_forms h
  · exact execMma_forms h
  · exact execMmaRing_forms h
  · exact execMmaLx_forms h
  · exact execMmaLa_forms h
  · exact execMxDrain_forms h
  · exact execLtLoad_forms h
  · exact execLtRot_forms h
  · exact execCp_forms h
  · exact execGa_forms h
  · exact execSc_forms h
  · exact execEngStat_forms h
  · exact execLd_forms h
  · exact execSt_forms h
  · exact execLdF_forms h
  · exact execLdFTake_forms h
  · exact execStF_forms h
  · exact execAmoAdd_forms h
  · exact execAmoSwap_forms h
  · exact execAmoAnd_forms h
  · exact execAmoOr_forms h
  · exact execAmoXor_forms h
  · exact execAmoMin_forms h
  · exact execAmoMax_forms h
  · exact execAmoCas_forms h
  · exact execAmoMinN_forms h
  · exact execAmoMaxN_forms h
  · exact execRedAdd_forms h
  · exact execRedAddF32_forms h
  · exact execRedMin_forms h
  · exact execRedMax_forms h
  · exact execRedMinN_forms h
  · exact execRedMaxN_forms h
  · exact execRedMinF32_forms h
  · exact execRedMaxF32_forms h
  · exact execFence_forms h
  · exact execFenceX_forms h
  · exact execDcFlush_forms h
  · exact execDcDiscard_forms h
  · exact execIcsync_forms h
  · exact execWait_forms h
  · exact execBarArrive_forms h
  · exact execBarWait_forms h
  · exact execGbSync_forms h
  · exact execMsgOpen_forms h
  · exact execMsgPut_forms h
  · exact execMsgEnd_forms h
  · exact execRecv_forms h
  · exact execTkSpawn_forms h
  · exact execTkDep_forms h
  · exact execTkYield_forms h
  · exact execTkEnd_forms h
  · exact execQlOpen_forms h
  · exact execQlClose_forms h
  · exact execQlEval_forms h
  · exact execQlFold_forms h
  · exact execQlSeek_forms h
  · exact execQlRec_forms h
  · exact execQlGet_forms h
  · exact execQlSplit_forms h
  · exact execQlApp_forms h
  · exact execQlPut_forms h
  · exact execQlPub_forms h
  · exact execHlCat_forms h
  · exact execHlFilt_forms h
  · exact execHlRebase_forms h
  · exact execHlApply_forms h
  · exact execHlDrop_forms h
  · exact execHlLen_forms h
  · exact execPgPost_forms h
  · exact execPgReplay_forms h
  · exact execEcall_forms h
  · exact execEbreak_forms h
  · exact execTrap_forms h
  · exact execUnassignedEncoding_forms h
  · exact execTrapNoticeRetry_forms h
  · exact execFaultRecordRetry_forms h
  · exact execCtxCreate_forms h
  · exact execCtxCommit_forms h
  · exact execCtxSuspend_forms h
  · exact execCtxResume_forms h
  · exact execCtxTeardown_forms h
  · exact execCtxFault_forms h
  · exact execCtxDeviceFault_forms h
  · exact execCtxStopComplete_forms h
  · exact execCtxDrained_forms h
  · exact execGrpLaunch_forms h
  · exact execGroupRelease_forms h
  · exact execGroupDrained_forms h
  · exact execGroupBrokenFreed_forms h
  · exact execEnqueueArrive_forms h
  · exact execEnqueueAck_forms h
  · exact execReplayBackoffExpiry_forms h
  · exact execTaskDispatch_forms h
  · exact execTakeServe_forms h
  · exact execTakeReply_forms h
  · exact execTakeReprobe_forms h
  · exact execTaskCommit_forms h
  · exact execCommitLockAcquire_forms h
  · exact execTimedCommitStart_forms h
  · exact execWaitSatisfiedNotice_forms h
  · exact execMonitorPoll_forms h
  · exact execWaitTimeout_forms h
  · exact execWaitHoldExpiry_forms h
  · exact execParkEntryFree_forms h
  · exact execBarrierRegisterRetry_forms h
  · exact execMsgDeliver_forms h
  · exact execDeferralExpiry_forms h
  · exact execFutureCancel_forms h
  · exact execStoreComplete_forms h
  · exact execLlcFill_forms h
  · exact execLlcWriteback_forms h
  · exact execUpdateOnlyRecall_forms h
  · exact execUpdateOnlyEvict_forms h
  · exact execTlbMissWalk_forms h
  · exact execSoftErrorCorrected_forms h
  · exact execUncorrectableError_forms h
  · exact execEngineCommandStart_forms h
  · exact execEngineTranslationFault_forms h
  · exact execEngineCommandFail_forms h
  · exact execEngineCommandComplete_forms h
  · exact execMmaComplete_forms h
  · exact execRingPass_forms h
  · exact execSubarrayWake_forms h
  · exact execSubarrayPowerGate_forms h
  · exact execApertureRead_forms h
  · exact execApertureWrite_forms h
  · exact execStopTakeEffect_forms h
  · exact execFrameSaveComplete_forms h
  · exact execSlResume_forms h
  · exact execSlSkip_forms h
  · exact execSlAbandon_forms h
  · exact execWatchdogExpiry_forms h
  · exact execHangPing_forms h
  · exact execLkEnable_forms h
  · exact execLkRetrain_forms h
  · exact execLkFence_forms h
  · exact execLkUnfence_forms h
  · exact execLinkTrainedFull_forms h
  · exact execLinkTrainedReduced_forms h
  · exact execLinkTrainingFail_forms h
  · exact execLinkTrainingTimeout_forms h
  · exact execLinkErrorThreshold_forms h
  · exact execFlitCrcReplay_forms h
  · exact execGqEnable_forms h
  · exact execGqDisable_forms h
  · exact execGuestReadReport_forms h
  · exact execGuestPacketComplete_forms h
  · exact execGuestTranslationRequest_forms h
  · exact execGuestFaultRecord_forms h
  · exact execGuestCoherentAccess_forms h
  · exact execGuestInvalidationAck_forms h
  · exact execGuestQuiesced_forms h
  · exact execGuestBoundExpiry_forms h
  · exact execAttest_forms h
  · exact execMailboxFwOp_forms h
  · exact execMailboxComplete_forms h
  · exact execHostEventWordWrite_forms h
  · exact execHostBar0Write_forms h
  · exact execHostMemoryAccess_forms h
  · exact execHwWinWrite_forms h
  · exact execColdReset_forms h
  · exact execPowerSample_forms h
  · exact execClampStep_forms h
  · exact execRngStateWrite_forms h
  · exact execFpCtlWrite_forms h
  · exact execPrStkWrite_forms h
  · exact execSkewCfgWrite_forms h
  · exact execRqRecipeWrite_forms h
  · exact execRqBackoffWrite_forms h
  · exact execMemDbgWrite_forms h
  · exact execFutCtlClear_forms h
  · exact execErrStatClear_forms h
  · exact execGbStatClear_forms h
  · exact execWdCtlWrite_forms h
  · exact execGsCtlWrite_forms h
  · exact execPwLimWrite_forms h
  · exact execRtCfgWrite_forms h
  · exact execFwWallWrite_forms h
  · exact execTrRingWrite_forms h
  · exact execFirmwareFence_forms h
  · exact execSpareColumnRemap_forms h
  · exact execPeerRouteReport_forms h

end Sys2Proof.Machine
end

section
/-! PROOF. What the functions of Pending, Schedule, Step lead to keeps the forms (R300, R348; log 3). -/

namespace Sys2Proof.Machine

variable {s : State}

/-! ### Pending -/

theorem State.unhold_forms (h : s.Forms) : s.unhold.Forms := State.mapSlots_forms h (fun _ hx => hx.upd)

theorem State.tickPower_forms (h : s.Forms) : s.tickPower.Forms := by
  unfold State.tickPower
  refine State.ite_forms ?_ h
  split
  · next e => exact State.sample_forms (forms_snd e (State.freeIndex_forms h))

theorem State.tickLinks_forms (h : s.Forms) : s.tickLinks.Forms := foldl_forms h (fun _ _ ht => State.ite_forms (State.linkTrain_forms ht) ht)

theorem State.tickEngines_forms (h : s.Forms) : s.tickEngines.Forms := foldl_forms h (fun _ _ ht => State.engTick_forms (State.engTick_forms ht))

theorem State.tickOnce_forms (h : s.Forms) : s.tickOnce.Forms := by
  unfold State.tickOnce
  extract_lets s1
  have hs1 : s1.Forms :=
    State.tickEngines_forms (State.tickLinks_forms (State.tickPower_forms (State.unhold_forms (State.reportsOut_forms (State.owedOut_forms
      (State.orsOut_forms (State.flushLate_forms h)))))))
  exact State.clamp_forms hs1.upd

/-! ### Schedule -/

theorem runSlot_forms (h : s.Forms) : outForms (runSlot s) := by
  unfold runSlot
  refine ite_outForms ?_ h
  split
  · next e => exact exec_forms (Got.ok_forms e (State.fetch_forms h))
  · next e1 => exact finish_forms (Got.no_forms e1 (State.fetch_forms h))

theorem runEvent_forms {i : Instr} (h : s.Forms) : outForms (runEvent i s) := ite_outForms (exec_forms h) h

theorem runMove_forms {a : Move} (h : s.Forms) : outForms (runMove s a) := by
  unfold runMove
  split
  · exact runSlot_forms (State.modSlot_forms h.upd (fun _ hq => hq.upd))
  · exact runEvent_forms h
  · exact State.tickOnce_forms h

/-- What an item does keeps the form. -/
def Deed.Keeps (d : Deed) : Prop := ∀ s : State, s.Forms → outForms (d s)

section Items
variable {α : Type}

theorem flatMap_keeps {l : List α} {f : α → List Deed} (h : ∀ a, ∀ d ∈ f a, Deed.Keeps d) : ∀ d ∈ l.flatMap f, Deed.Keeps d := by
  intro d hd
  obtain ⟨a, -, ha⟩ := List.mem_flatMap.mp hd
  exact h a d ha

theorem map_keeps {l : List α} {f : α → Deed} (h : ∀ a, Deed.Keeps (f a)) : ∀ d ∈ l.map f, Deed.Keeps d := by
  intro d hd
  obtain ⟨a, -, rfl⟩ := List.mem_map.mp hd
  exact h a

theorem append_keeps {l k : List Deed} (hl : ∀ d ∈ l, Deed.Keeps d) (hk : ∀ d ∈ k, Deed.Keeps d) : ∀ d ∈ l ++ k, Deed.Keeps d :=
  List.forall_mem_append.mpr ⟨hl, hk⟩

theorem cons_keeps {d : Deed} {l : List Deed} (hd : Deed.Keeps d) (hl : ∀ d ∈ l, Deed.Keeps d) : ∀ e ∈ d :: l, Deed.Keeps e :=
  List.forall_mem_cons.mpr ⟨hd, hl⟩

theorem nil_keeps : ∀ d ∈ ([] : List Deed), Deed.Keeps d := fun _ h => absurd h List.not_mem_nil

end Items

theorem slotItems_keeps (k : Nat) : ∀ d ∈ slotItems k, Deed.Keeps d := by
  unfold slotItems
  refine cons_keeps (fun _ h => execStoreComplete_forms h) (cons_keeps (fun _ h => execStopTakeEffect_forms h)
    (cons_keeps (fun _ h => execFrameSaveComplete_forms h) (cons_keeps (fun _ h => execDeferralExpiry_forms h)
    (cons_keeps (fun _ h => execWaitTimeout_forms h) ?_))))
  exact cons_keeps (fun _ h => execBarrierRegisterRetry_forms h) (cons_keeps (fun _ h => execWaitHoldExpiry_forms h)
    (cons_keeps (fun _ h => execTrapNoticeRetry_forms h) (cons_keeps (fun _ h => execFaultRecordRetry_forms h)
    (cons_keeps (fun _ h => execWatchdogExpiry_forms h) nil_keeps))))

theorem coreItems_keeps (c : Nat) : ∀ d ∈ coreItems c, Deed.Keeps d := by
  have hengine : ∀ (b : Bool) (l : List Deed), (∀ d ∈ l, Deed.Keeps d) → ∀ d ∈ execEngineCommandStart c b :: execEngineTranslationFault c b ::
      execEngineCommandFail c b :: execEngineCommandComplete c b :: l, Deed.Keeps d := fun b l hl =>
    cons_keeps (fun _ h => execEngineCommandStart_forms h) (cons_keeps (fun _ h => execEngineTranslationFault_forms h)
      (cons_keeps (fun _ h => execEngineCommandFail_forms h) (cons_keeps (fun _ h => execEngineCommandComplete_forms h) hl)))
  exact hengine false _ (hengine true _ (cons_keeps (fun _ h => execMmaComplete_forms h) (cons_keeps (fun _ h => execRingPass_forms h) nil_keeps)))

theorem State.groveItems_keeps (s : State) (g : Nat) : ∀ d ∈ s.groveItems g, Deed.Keeps d := by
  unfold State.groveItems
  refine append_keeps ?_ ?_
  · exact cons_keeps (fun _ h => execEnqueueArrive_forms h) (cons_keeps (fun _ h => execEnqueueAck_forms h)
      (cons_keeps (fun _ h => execReplayBackoffExpiry_forms h) (cons_keeps (fun _ h => execMsgDeliver_forms h)
      (cons_keeps (fun _ h => execWaitSatisfiedNotice_forms h) (cons_keeps (fun _ h => execMonitorPoll_forms h)
      (cons_keeps (fun _ h => execParkEntryFree_forms h) (cons_keeps (fun _ h => execBarrierRegisterRetry_forms h) nil_keeps)))))))
  · split
    · exact cons_keeps (fun _ h => execSubarrayWake_forms h) nil_keeps
    · exact nil_keeps

theorem State.commitItems_keeps (s : State) : ∀ d ∈ s.commitItems, Deed.Keeps d := by
  refine append_keeps (map_keeps fun _ _ h => execTimedCommitStart_forms h) (flatMap_keeps fun c => ?_)
  refine append_keeps (cons_keeps (fun _ h => execCommitLockAcquire_forms h) nil_keeps) ?_
  split
  · split
    · exact nil_keeps
    · exact cons_keeps (fun _ h => execTaskCommit_forms h) nil_keeps
  · exact nil_keeps

theorem commandItems_keeps : ∀ d ∈ commandItems, Deed.Keeps d := by
  unfold commandItems
  refine cons_keeps (fun _ h => execCtxCreate_forms h) (cons_keeps (fun _ h => execCtxCommit_forms h) (cons_keeps (fun _ h => execCtxSuspend_forms h)
    (cons_keeps (fun _ h => execCtxResume_forms h) (cons_keeps (fun _ h => execCtxTeardown_forms h) (cons_keeps (fun _ h => execCtxFault_forms h) ?_)))))
  refine cons_keeps (fun _ h => execGrpLaunch_forms h) (cons_keeps (fun _ h => execSlResume_forms h) (cons_keeps (fun _ h => execSlSkip_forms h)
    (cons_keeps (fun _ h => execSlAbandon_forms h) (cons_keeps (fun _ h => execGqEnable_forms h) (cons_keeps (fun _ h => execGqDisable_forms h) ?_)))))
  exact cons_keeps (fun _ h => execGuestBoundExpiry_forms h) (cons_keeps (fun _ h => execAttest_forms h) (cons_keeps (fun _ h => execMailboxFwOp_forms h)
    (cons_keeps (fun _ h => execFaultRecordRetry_forms h) nil_keeps)))

theorem ctxItems_keeps (c : Nat) : ∀ d ∈ ctxItems c, Deed.Keeps d :=
  cons_keeps (fun _ h => execCtxStopComplete_forms h) (cons_keeps (fun _ h => execCtxDrained_forms h) nil_keeps)

theorem groupItems_keeps (g : Nat) : ∀ d ∈ groupItems g, Deed.Keeps d :=
  cons_keeps (fun _ h => execGroupRelease_forms h) (cons_keeps (fun _ h => execGroupDrained_forms h)
    (cons_keeps (fun _ h => execGroupBrokenFreed_forms h) nil_keeps))

theorem linkItems_keeps (l : Nat) : ∀ d ∈ linkItems l, Deed.Keeps d :=
  cons_keeps (fun _ h => execLkEnable_forms h) (cons_keeps (fun _ h => execLkRetrain_forms h) (cons_keeps (fun _ h => execLkFence_forms h)
    (cons_keeps (fun _ h => execLkUnfence_forms h) (cons_keeps (fun _ h => execLinkErrorThreshold_forms h)
    (cons_keeps (fun _ h => execLinkTrainingTimeout_forms h) nil_keeps)))))

theorem State.standItems_keeps (s : State) : ∀ d ∈ s.standItems, Deed.Keeps d := by
  refine flatMap_keeps fun q => ?_
  split
  · exact nil_keeps
  · exact map_keeps fun _ _ h => execTaskDispatch_forms h

theorem State.probeItems_keeps (s : State) : ∀ d ∈ s.probeItems, Deed.Keeps d := by
  refine flatMap_keeps fun q => ?_
  split
  · exact nil_keeps
  · exact flatMap_keeps fun _ => map_keeps fun _ _ h => execTakeReprobe_forms h

theorem State.takeItems_keeps (s : State) : ∀ d ∈ s.takeItems, Deed.Keeps d := by
  refine flatMap_keeps fun q => append_keeps ?_ (cons_keeps (fun _ h => execTakeReply_forms h) nil_keeps)
  split
  · exact map_keeps fun _ _ h => execTakeServe_forms h
  · exact nil_keeps

theorem State.items_keeps (s : State) : ∀ d ∈ s.items, Deed.Keeps d := by
  unfold State.items
  refine append_keeps (append_keeps (append_keeps (append_keeps (append_keeps (append_keeps ?_ ?_) ?_) ?_) ?_) ?_) ?_
  · refine append_keeps (append_keeps (append_keeps (append_keeps (append_keeps ?_ ?_) ?_) ?_) ?_) ?_
    · exact flatMap_keeps slotItems_keeps
    · exact flatMap_keeps coreItems_keeps
    · exact s.commitItems_keeps
    · exact flatMap_keeps s.groveItems_keeps
    · exact commandItems_keeps
    · exact flatMap_keeps ctxItems_keeps
  · exact flatMap_keeps groupItems_keeps
  · exact flatMap_keeps linkItems_keeps
  · exact s.standItems_keeps
  · exact s.probeItems_keeps
  · exact s.takeItems_keeps
  · exact map_keeps fun _ _ h => execHangPing_forms h

theorem runIdle_forms {s : State} (h : s.Forms) : outForms (runIdle s) := by
  unfold runIdle
  split
  · exact execColdReset_forms h
  · exact outForms.next (State.tickOnce_forms h)
  · split
    · exact runSlot_forms h.upd
    · split
      · next d hd => exact s.unhold.items_keeps d (List.mem_of_find?_eq_some hd) _ (State.unhold_forms h)
      · exact outForms.next (State.tickOnce_forms h)

/-! ### Step -/

theorem step_forms {s : State} (h : s.Forms) : outForms (step s) := by
  unfold step
  split
  · exact runMove_forms h.upd
  · exact runIdle_forms h

/-- Settles O59: every function of the model that gives a state keeps the forms, and so does the step. -/
theorem stepKeepsForms : Obligations.StepKeepsForms := by
  unfold Obligations.StepKeepsForms
  intro s t hstep hmems hslots
  exact outForms_next hstep (step_forms ⟨hmems, hslots⟩)

end Sys2Proof.Machine
end
